-- ==== Sys2Proof/Word.lean ====
section
/-! DEFINITION. The word types of the part (R4, R8, R91, R216), and the named values of the fields of its instructions. -/

namespace Sys2Proof

/-- A scalar register (R8). -/
abbrev Word := BitVec 64
/-- An instruction word (R91), a vector lane (R216). -/
abbrev W32 := BitVec 32
/-- A byte of memory. -/
abbrev Byte := BitVec 8
/-- An offset or a cluster-virtual address (R112, R140). -/
abbrev Addr := BitVec 48
/-- A vector register: 256 bytes, lane 0 in the low bits (R216). -/
abbrev VReg := BitVec 2048

/-- The vector type field typ[4:2] with the E bit folded in (R99, R216). `c1` is code 1, which R218 reads as u32 on
some minors and as f64 on the others. -/
inductive VType where
  | i32 | c1 | f32 | bf16 | f16 | i16 | i8 | e4m3 | e5m2
deriving DecidableEq, Repr

/-- The rounding source typ[1:0] (R99). -/
inductive RSrc where
  | rmode | rne | rtz | rna
deriving DecidableEq, Repr

/-- The source format of VCVT, field vb (R227). -/
inductive SType where
  | i32 | u32 | f32 | bf16 | f16 | i16 | i8 | e4m3 | e5m2 | f64 | i4 | e2m1 | u16 | u8
deriving DecidableEq, Repr

/-- The transform code of the copy group (R103). -/
inductive Xf where
  | none | cvt | pack | unpk | tran | mxq | sexp | dlta | bstr
deriving DecidableEq, Repr

/-- A scope of R155, as imm5[4:2] codes it (R80, R104). -/
inductive Scope where
  | core | clus | die | dev | fab
deriving DecidableEq, Repr

/-- A fence kind of R157, as imm5[1:0] codes it (R80, R104). -/
inductive FKind where
  | acq | rel | full | eng
deriving DecidableEq, Repr

/-- The order bits of an atomic (R98). -/
inductive AOrd where
  | rlx | acq | rel | ar
deriving DecidableEq, Repr

end Sys2Proof
end

