-- ==== Sys2Proof/Syntax.lean ====
section
/-! DEFINITION. The instructions of Yunaxus and the steps of the part that have no encoding, one constructor per row
of spec/opcode_table.json. Register and immediate fields keep the width the format of R93 gives them; a field with
named values has a type of Word.lean. The rows without an encoding take their operands from State.args. Constructors
with fields stand first: Lean's compiled code gives a constructor with fields no number above 244. -/

namespace Sys2Proof

/-- One instruction (R105, R106), or one step of the part that has no encoding (events and host commands). -/
inductive Instr where
  -- ALU (R115, R116, R117)
  | add (d : BitVec 5) (a : BitVec 5) (b : BitVec 5) (w : Bool)
  | sub (d : BitVec 5) (a : BitVec 5) (b : BitVec 5) (w : Bool)
  | and (d : BitVec 5) (a : BitVec 5) (b : BitVec 5) (w : Bool)
  | or (d : BitVec 5) (a : BitVec 5) (b : BitVec 5) (w : Bool)
  | xor (d : BitVec 5) (a : BitVec 5) (b : BitVec 5) (w : Bool)
  | andn (d : BitVec 5) (a : BitVec 5) (b : BitVec 5) (w : Bool)
  | sll (d : BitVec 5) (a : BitVec 5) (b : BitVec 5) (w : Bool)
  | srl (d : BitVec 5) (a : BitVec 5) (b : BitVec 5) (w : Bool)
  | sra (d : BitVec 5) (a : BitVec 5) (b : BitVec 5) (w : Bool)
  | mul (d : BitVec 5) (a : BitVec 5) (b : BitVec 5) (w : Bool)
  | mulh (d : BitVec 5) (a : BitVec 5) (b : BitVec 5)
  | mulhu (d : BitVec 5) (a : BitVec 5) (b : BitVec 5)
  | div (d : BitVec 5) (a : BitVec 5) (b : BitVec 5) (w : Bool)
  | divu (d : BitVec 5) (a : BitVec 5) (b : BitVec 5) (w : Bool)
  | rem (d : BitVec 5) (a : BitVec 5) (b : BitVec 5) (w : Bool)
  | remu (d : BitVec 5) (a : BitVec 5) (b : BitVec 5) (w : Bool)
  | min (d : BitVec 5) (a : BitVec 5) (b : BitVec 5) (w : Bool)
  | max (d : BitVec 5) (a : BitVec 5) (b : BitVec 5) (w : Bool)
  | minu (d : BitVec 5) (a : BitVec 5) (b : BitVec 5) (w : Bool)
  | maxu (d : BitVec 5) (a : BitVec 5) (b : BitVec 5) (w : Bool)
  | ceq (d : BitVec 5) (a : BitVec 5) (b : BitVec 5) (w : Bool)
  | cne (d : BitVec 5) (a : BitVec 5) (b : BitVec 5) (w : Bool)
  | clt (d : BitVec 5) (a : BitVec 5) (b : BitVec 5) (w : Bool)
  | cltu (d : BitVec 5) (a : BitVec 5) (b : BitVec 5) (w : Bool)
  | cle (d : BitVec 5) (a : BitVec 5) (b : BitVec 5) (w : Bool)
  | cleu (d : BitVec 5) (a : BitVec 5) (b : BitVec 5) (w : Bool)
  | clz (d : BitVec 5) (a : BitVec 5) (w : Bool)
  | ctz (d : BitVec 5) (a : BitVec 5) (w : Bool)
  | popc (d : BitVec 5) (a : BitVec 5) (w : Bool)
  | padd (d : BitVec 5) (a : BitVec 5) (b : BitVec 5)
  | ptag (d : BitVec 5) (a : BitVec 5)
  | psett (d : BitVec 5) (a : BitVec 5) (b : BitVec 5)
  | cmovnz (d : BitVec 5) (a : BitVec 5) (b : BitVec 5)
  | cmovz (d : BitVec 5) (a : BitVec 5) (b : BitVec 5)
  -- ALUI (R118)
  | addi (d : BitVec 5) (a : BitVec 5) (i : BitVec 12)
  | andi (d : BitVec 5) (a : BitVec 5) (i : BitVec 12)
  | ori (d : BitVec 5) (a : BitVec 5) (i : BitVec 12)
  | xori (d : BitVec 5) (a : BitVec 5) (i : BitVec 12)
  | slli (d : BitVec 5) (a : BitVec 5) (i : BitVec 6)
  | srli (d : BitVec 5) (a : BitVec 5) (i : BitVec 6)
  | srai (d : BitVec 5) (a : BitVec 5) (i : BitVec 6)
  | ceqi (d : BitVec 5) (a : BitVec 5) (i : BitVec 12)
  | clti (d : BitVec 5) (a : BitVec 5) (i : BitVec 12)
  | cltui (d : BitVec 5) (a : BitVec 5) (i : BitVec 12)
  | muli (d : BitVec 5) (a : BitVec 5) (i : BitVec 12)
  | paddi (d : BitVec 5) (a : BitVec 5) (i : BitVec 12)
  -- IM (R119)
  | imz (d : BitVec 5) (q : BitVec 2) (i : BitVec 16)
  | imk (d : BitVec 5) (q : BitVec 2) (i : BitVec 16)
  -- BR (R120)
  | bz (a : BitVec 5) (o : BitVec 18)
  | bnz (a : BitVec 5) (o : BitVec 18)
  | blt (a : BitVec 5) (o : BitVec 18)
  | bge (a : BitVec 5) (o : BitVec 18)
  | bgt (a : BitVec 5) (o : BitVec 18)
  | ble (a : BitVec 5) (o : BitVec 18)
  -- JAL (R121)
  | jal (d : BitVec 5) (o : BitVec 21)
  -- JALR (R122)
  | jalr (d : BitVec 5) (a : BitVec 5) (i : BitVec 16)
  -- LD (R125)
  | ld (d : BitVec 5) (a : BitVec 5) (g : BitVec 3) (w : BitVec 2) (o : BitVec 11)
  -- LDS (R125)
  | lds (d : BitVec 5) (a : BitVec 5) (g : BitVec 3) (w : BitVec 2) (o : BitVec 11)
  -- ST (R125)
  | st (d : BitVec 5) (a : BitVec 5) (g : BitVec 3) (w : BitVec 2) (o : BitVec 11)
  -- LDA (R126)
  | lda (d : BitVec 5) (a : BitVec 5) (g : BitVec 3) (w : BitVec 2) (o : BitVec 11)
  -- STL (R126)
  | stl (d : BitVec 5) (a : BitVec 5) (g : BitVec 3) (w : BitVec 2) (o : BitVec 11)
  -- SYS (R129 to R138, R208, R209, R214)
  | csrr (d : BitVec 5) (b : BitVec 5) (c : BitVec 5)
  | csrw (a : BitVec 5) (b : BitVec 5) (c : BitVec 5)
  | csrset (a : BitVec 5) (b : BitVec 5) (c : BitVec 5)
  | csrclr (a : BitVec 5) (b : BitVec 5) (c : BitVec 5)
  | segw (g : BitVec 3) (a : BitVec 5) (b : BitVec 5)
  | segr (d : BitVec 5) (g : BitVec 3) (s : BitVec 5)
  | ident (d : BitVec 5) (s : BitVec 5)
  | rdcyc (d : BitVec 5) (s : BitVec 5)
  | trap (a : BitVec 5)
  | brk (i : BitVec 5)
  | frec (d : BitVec 4)
  | ctxsv (d : BitVec 5) (a : BitVec 5)
  | ctxld (d : BitVec 5) (a : BitVec 5)
  | mark (d : BitVec 5) (a : BitVec 5)
  -- ATOM (R169, R170)
  | aadd (d : BitVec 5) (a : BitVec 5) (b : BitVec 5) (o : AOrd) (x : Bool)
  | aand (d : BitVec 5) (a : BitVec 5) (b : BitVec 5) (o : AOrd) (x : Bool)
  | aor (d : BitVec 5) (a : BitVec 5) (b : BitVec 5) (o : AOrd) (x : Bool)
  | axor (d : BitVec 5) (a : BitVec 5) (b : BitVec 5) (o : AOrd) (x : Bool)
  | amin (d : BitVec 5) (a : BitVec 5) (b : BitVec 5) (o : AOrd) (x : Bool)
  | amax (d : BitVec 5) (a : BitVec 5) (b : BitVec 5) (o : AOrd) (x : Bool)
  | aminu (d : BitVec 5) (a : BitVec 5) (b : BitVec 5) (o : AOrd) (x : Bool)
  | amaxu (d : BitVec 5) (a : BitVec 5) (b : BitVec 5) (o : AOrd) (x : Bool)
  | aswap (d : BitVec 5) (a : BitVec 5) (b : BitVec 5) (o : AOrd) (x : Bool)
  | acas (d : BitVec 5) (a : BitVec 5) (b : BitVec 5) (o : AOrd) (x : Bool)
  | aaddf (d : BitVec 5) (a : BitVec 5) (b : BitVec 5) (o : AOrd) (x : Bool)
  | aminf (d : BitVec 5) (a : BitVec 5) (b : BitVec 5) (o : AOrd) (x : Bool)
  | amaxf (d : BitVec 5) (a : BitVec 5) (b : BitVec 5) (o : AOrd) (x : Bool)
  -- DRIP (R172)
  | dadd (d : BitVec 5) (a : BitVec 5) (b : BitVec 5)
  | dand (d : BitVec 5) (a : BitVec 5) (b : BitVec 5)
  | dor (d : BitVec 5) (a : BitVec 5) (b : BitVec 5)
  | dmin (d : BitVec 5) (a : BitVec 5) (b : BitVec 5)
  | dmax (d : BitVec 5) (a : BitVec 5) (b : BitVec 5)
  | daddf (d : BitVec 5) (a : BitVec 5) (b : BitVec 5)
  | dminf (d : BitVec 5) (a : BitVec 5) (b : BitVec 5)
  | dmaxf (d : BitVec 5) (a : BitVec 5) (b : BitVec 5)
  -- MIG (R177)
  | go (a : BitVec 5)
  | where (d : BitVec 5)
  | farld (d : BitVec 5) (a : BitVec 5) (w : BitVec 2)
  | farst (a : BitVec 5) (b : BitVec 5) (w : BitVec 2)
  -- KET (R188 to R193)
  | kset (d : BitVec 5) (a : BitVec 5) (b : BitVec 5)
  | kadd (a : BitVec 5) (b : BitVec 5)
  | kread (d : BitVec 5) (a : BitVec 5)
  | kwait (a : BitVec 5)
  | koff (a : BitVec 5)
  | send (d : BitVec 5) (a : BitVec 5) (b : BitVec 5)
  | sendv (d : BitVec 5) (v : BitVec 4)
  | recv (v : BitVec 4) (a : BitVec 5)
  | allow (a : BitVec 5) (b : BitVec 5)
  | avail (d : BitVec 5) (a : BitVec 5)
  -- SYNC (R194 to R198)
  | fence (s : Scope) (k : FKind)
  | barset (a : BitVec 5) (b : BitVec 5) (n : BitVec 2)
  | bar (n : BitVec 2)
  | bara (n : BitVec 2)
  | barw (n : BitVec 2)
  | waitw (d : BitVec 5) (a : BitVec 5) (b : BitVec 5)
  | publish (a : BitVec 5) (s : Scope)
  | acquire (d : BitVec 5) (a : BitVec 5) (s : Scope)
  -- WORK (R180 to R183)
  | hstart (d : BitVec 5) (a : BitVec 5) (b : BitVec 5)
  | hjoin (a : BitVec 5)
  | hstat (d : BitVec 5)
  | launch (d : BitVec 5) (a : BitVec 5)
  | lstat (d : BitVec 5) (a : BitVec 5)
  -- VOP (R222 to R228)
  | vadd (d : BitVec 4) (a : BitVec 4) (b : BitVec 4) (p : BitVec 3) (ty : VType) (rs : RSrc)
  | vsub (d : BitVec 4) (a : BitVec 4) (b : BitVec 4) (p : BitVec 3) (ty : VType) (rs : RSrc)
  | vmul (d : BitVec 4) (a : BitVec 4) (b : BitVec 4) (p : BitVec 3) (ty : VType) (rs : RSrc)
  | vfma (d : BitVec 4) (a : BitVec 4) (b : BitVec 4) (p : BitVec 3) (ty : VType) (rs : RSrc)
  | vfms (d : BitVec 4) (a : BitVec 4) (b : BitVec 4) (p : BitVec 3) (ty : VType) (rs : RSrc)
  | vmin (d : BitVec 4) (a : BitVec 4) (b : BitVec 4) (p : BitVec 3) (ty : VType)
  | vmax (d : BitVec 4) (a : BitVec 4) (b : BitVec 4) (p : BitVec 3) (ty : VType)
  | vabs (d : BitVec 4) (a : BitVec 4) (p : BitVec 3) (ty : VType)
  | vneg (d : BitVec 4) (a : BitVec 4) (p : BitVec 3) (ty : VType)
  | vand (d : BitVec 4) (a : BitVec 4) (b : BitVec 4) (p : BitVec 3)
  | vor (d : BitVec 4) (a : BitVec 4) (b : BitVec 4) (p : BitVec 3)
  | vxor (d : BitVec 4) (a : BitVec 4) (b : BitVec 4) (p : BitVec 3)
  | vshl (d : BitVec 4) (a : BitVec 4) (b : BitVec 4) (p : BitVec 3) (ty : VType)
  | vshr (d : BitVec 4) (a : BitVec 4) (b : BitVec 4) (p : BitVec 3) (ty : VType)
  | vsar (d : BitVec 4) (a : BitVec 4) (b : BitVec 4) (p : BitVec 3) (ty : VType)
  | vdiv (d : BitVec 4) (a : BitVec 4) (b : BitVec 4) (p : BitVec 3) (ty : VType) (rs : RSrc)
  | vsqrt (d : BitVec 4) (a : BitVec 4) (p : BitVec 3) (ty : VType) (rs : RSrc)
  | vrcp (d : BitVec 4) (a : BitVec 4) (p : BitVec 3) (ty : VType) (rs : RSrc)
  | vrsq (d : BitVec 4) (a : BitVec 4) (p : BitVec 3) (ty : VType) (rs : RSrc)
  | vexp2 (d : BitVec 4) (a : BitVec 4) (p : BitVec 3) (ty : VType) (rs : RSrc)
  | vlog2 (d : BitVec 4) (a : BitVec 4) (p : BitVec 3) (ty : VType) (rs : RSrc)
  | vceq (d : BitVec 3) (a : BitVec 4) (b : BitVec 4) (p : BitVec 3) (ty : VType)
  | vclt (d : BitVec 3) (a : BitVec 4) (b : BitVec 4) (p : BitVec 3) (ty : VType)
  | vcle (d : BitVec 3) (a : BitVec 4) (b : BitVec 4) (p : BitVec 3) (ty : VType)
  | vsel (d : BitVec 4) (a : BitVec 4) (b : BitVec 4) (p : BitVec 3)
  | vcvt (d : BitVec 4) (a : BitVec 4) (s : SType) (p : BitVec 3) (ty : VType) (rs : RSrc)
  | vmov (d : BitVec 4) (a : BitVec 4) (p : BitVec 3)
  | vdot (d : BitVec 4) (a : BitVec 4) (b : BitVec 4) (p : BitVec 3) (ty : VType) (rs : RSrc)
  -- VSC (R229)
  | vadds (d : BitVec 4) (a : BitVec 4) (s : BitVec 5) (p : BitVec 3) (ty : VType) (rs : RSrc)
  | vmuls (d : BitVec 4) (a : BitVec 4) (s : BitVec 5) (p : BitVec 3) (ty : VType) (rs : RSrc)
  | vfmas (d : BitVec 4) (a : BitVec 4) (s : BitVec 5) (p : BitVec 3) (ty : VType) (rs : RSrc)
  | vmins (d : BitVec 4) (a : BitVec 4) (s : BitVec 5) (p : BitVec 3) (ty : VType)
  | vmaxs (d : BitVec 4) (a : BitVec 4) (s : BitVec 5) (p : BitVec 3) (ty : VType)
  | vsplat (d : BitVec 4) (s : BitVec 5) (p : BitVec 3) (ty : VType)
  | vins (d : BitVec 4) (a : BitVec 4) (s : BitVec 5) (p : BitVec 3) (ty : VType)
  | vext (a : BitVec 4) (s : BitVec 5) (ty : VType)
  -- VPERM (R230)
  | vperm (d : BitVec 4) (a : BitVec 4) (b : BitVec 4) (p : BitVec 3) (ty : VType)
  | vrot (d : BitVec 4) (a : BitVec 4) (b : BitVec 4) (p : BitVec 3) (ty : VType)
  | vzip (d : BitVec 4) (a : BitVec 4) (b : BitVec 4) (ty : VType)
  | vunzip (d : BitVec 4) (a : BitVec 4) (b : BitVec 4) (ty : VType)
  | vcmpr (d : BitVec 4) (a : BitVec 4) (p : BitVec 3) (ty : VType)
  | vexpd (d : BitVec 4) (a : BitVec 4) (p : BitVec 3) (ty : VType)
  | viota (d : BitVec 4) (p : BitVec 3) (ty : VType)
  -- VRED (R231)
  | vrsum (d : BitVec 4) (a : BitVec 4) (p : BitVec 3) (ty : VType) (rs : RSrc)
  | vrmax (d : BitVec 4) (a : BitVec 4) (p : BitVec 3) (ty : VType)
  | vrmin (d : BitVec 4) (a : BitVec 4) (p : BitVec 3) (ty : VType)
  | vrand (d : BitVec 4) (a : BitVec 4) (p : BitVec 3)
  | vror (d : BitVec 4) (a : BitVec 4) (p : BitVec 3)
  | vscan (d : BitVec 4) (a : BitVec 4) (p : BitVec 3) (ty : VType) (rs : RSrc)
  -- VMEM (R232)
  | vld (d : BitVec 4) (a : BitVec 5) (g : BitVec 3) (p : BitVec 3)
  | vst (d : BitVec 4) (a : BitVec 5) (g : BitVec 3) (p : BitVec 3)
  | vlds (d : BitVec 4) (a : BitVec 5) (g : BitVec 3) (p : BitVec 3) (s : BitVec 5)
  | vsts (d : BitVec 4) (a : BitVec 5) (g : BitVec 3) (p : BitVec 3) (s : BitVec 5)
  | vgath (d : BitVec 4) (a : BitVec 5) (g : BitVec 3) (p : BitVec 3) (b : BitVec 4)
  | vscat (d : BitVec 4) (a : BitVec 5) (g : BitVec 3) (p : BitVec 3) (b : BitVec 4)
  -- VPRED (R236)
  | pand (d : BitVec 3) (a : BitVec 3) (b : BitVec 3)
  | por (d : BitVec 3) (a : BitVec 3) (b : BitVec 3)
  | pxor (d : BitVec 3) (a : BitVec 3) (b : BitVec 3)
  | pnot (d : BitVec 3) (a : BitVec 3)
  | pcnt (d : BitVec 4) (a : BitVec 3)
  | pfirst (d : BitVec 4) (a : BitVec 3)
  | psetn (d : BitVec 3) (a : BitVec 4)
  -- RING (R242)
  | rdef (q : BitVec 4) (a : BitVec 5) (b : BitVec 5)
  | rwaitf (q : BitVec 4) (b : BitVec 5)
  | rwaite (q : BitVec 4) (b : BitVec 5)
  | radvh (q : BitVec 4) (b : BitVec 5)
  | radvt (q : BitVec 4) (b : BitVec 5)
  | rhead (d : BitVec 5) (q : BitVec 4)
  | rtail (d : BitVec 5) (q : BitVec 4)
  | rbind (v : BitVec 4) (q : BitVec 4) (b : BitVec 5)
  | runbind (v : BitVec 4)
  -- COPY (R248, R249)
  | copy (k : BitVec 5) (s : BitVec 5) (d : BitVec 5) (p : BitVec 5) (x : Xf)
  | copyg (k : BitVec 5) (s : BitVec 5) (d : BitVec 5) (p : BitVec 5) (x : Xf)
  | copys (k : BitVec 5) (s : BitVec 5) (d : BitVec 5) (p : BitVec 5) (x : Xf)
  | copyw (k : BitVec 5) (s : BitVec 5) (d : BitVec 5) (p : BitVec 5) (x : Xf)
  -- BITS (R257)
  | bget (d : BitVec 5) (n : BitVec 5)
  | bpeek (d : BitVec 5) (n : BitVec 5)
  | bskip (a : BitVec 5)
  | bput (a : BitVec 5) (n : BitVec 5)
  | bflush (d : BitVec 5)
  | bhuf (d : BitVec 5) (a : BitVec 5)
  | blzc (d : BitVec 5)
  | bnext (d : BitVec 5)
  | bfail (a : BitVec 5)
  -- MMA (R100, R270 to R273)
  | mma (c : BitVec 2) (a : BitVec 4) (b : BitVec 4) (s : BitVec 5) (n : Bool) (e : Bool) (z : Bool) (g : Bool) (r : Bool) (k : Bool) (j : Bool) (t : Bool)
  | mmaj (c : BitVec 2) (a : BitVec 4) (b : BitVec 4) (s : BitVec 5) (n : Bool) (e : Bool) (z : Bool) (g : Bool) (r : Bool) (k : Bool) (j : Bool) (t : Bool)
  | mmas (c : BitVec 2) (a : BitVec 4) (s : BitVec 5) (n : Bool) (z : Bool) (g : Bool) (r : Bool) (k : Bool) (t : Bool)
  | mlda (c : BitVec 2) (s : BitVec 5) (g : Bool)
  | msta (c : BitVec 2) (s : BitVec 5) (g : Bool) (r : Bool)
  | mzero (c : BitVec 2) (g : Bool)
  -- MSYS (R275, R280)
  | mstat (d : BitVec 5)
  | drrow (d : BitVec 4)
  | drdone (a : BitVec 4)
  | mchk (d : BitVec 5) (a : BitVec 5) (n : BitVec 5)
  -- SEED (R291 to R297)
  | sexp (d : BitVec 4) (a : BitVec 5) (b : BitVec 5) (g : BitVec 3)
  | ssrch (d : BitVec 4) (a : BitVec 4) (b : BitVec 5)
  | sproj (d : BitVec 4) (a : BitVec 5) (b : BitVec 5) (g : BitVec 3)
  | schk (d : BitVec 5) (a : BitVec 5) (g : BitVec 3)
  | lfsr (d : BitVec 5) (a : BitVec 5) (n : BitVec 5)
  | srec (d : BitVec 5) (a : BitVec 5) (b : BitVec 5) (g : BitVec 3)
  -- PROC (R312)
  | prdef (d : BitVec 5) (a : BitVec 5) (g : BitVec 3)
  | prdel (a : BitVec 5)
  | prfail (a : BitVec 5)
  | prstate (d : BitVec 5) (a : BitVec 5) (g : BitVec 3)
  | previct (d : BitVec 5) (a : BitVec 5) (b : BitVec 5) (g : BitVec 3)
  | prtouch (a : BitVec 5) (g : BitVec 3)
  -- RAST (R318)
  | rview (d : BitVec 5) (a : BitVec 5) (n : BitVec 2)
  | rsetup (d : BitVec 5) (v : BitVec 4) (b : BitVec 5) (n : Bool) (p : Bool)
  | rcover (d : BitVec 5) (a : BitVec 5) (p : BitVec 3) (f : Bool) (e : BitVec 4)
  | rbox (d : BitVec 5) (a : BitVec 4) (b : BitVec 4)
  | rtri (d : BitVec 4) (a : BitVec 4) (b : BitVec 4)
  | rbin (d : BitVec 5) (a : BitVec 4) (b : BitVec 5)
  | ordb (d : BitVec 5) (a : BitVec 5)
  | orde (d : BitVec 5) (a : BitVec 5)
  | blnda (d : BitVec 4) (a : BitVec 5) (p : BitVec 3) (o : BitVec 3)
  | ordtok (d : BitVec 5) (a : BitVec 5) (b : BitVec 5) (l : Bool)
  -- LAYER (R346)
  | ldefDef (a : BitVec 5)
  | ldefRet (a : BitVec 5)
  | ldefPose (a : BitVec 5) (b : BitVec 5)
  | lwarp (d : BitVec 4) (a : BitVec 5) (b : BitVec 4) (p : BitVec 3)
  | lerr (d : BitVec 5) (a : BitVec 5) (n : BitVec 5)
  | lprice (a : BitVec 5) (b : BitVec 5)
  | lframe (d : BitVec 5)
  | lreq (d : BitVec 5) (a : BitVec 5) (n : Bool)
  | lsplit (a : BitVec 5) (b : BitVec 5)
  | lmerge (a : BitVec 5) (b : BitVec 5)
  | ldep (d : BitVec 5) (a : BitVec 5) (b : BitVec 5)
  | lorder (a : BitVec 5) (b : BitVec 5)
  | lres (d : BitVec 4) (a : BitVec 4) (b : BitVec 4) (p : BitVec 3)
  -- instructions without operands
  | nop
  | yield
  | stop
  | tret
  | uret
  | home
  | stay
  | balign
  | mwait
  | prdone
  -- steps of the part and host commands: no encoding, their operands in State.args
  | instructionFetch
  | chargedCauseDeliver
  | storePathError
  | upcallDeliver
  | waitWake
  | announcementArrive
  | acceptRecord
  | placePour
  | controlContextStart
  | zeroFillStep
  | shotRetire
  | sliceExpire
  | preemptCut
  | markerArrive
  | pourResume
  | checkpointStored
  | helperAssign
  | kettleDecrement
  | messageArrive
  | allowGrantArrive
  | dripArrive
  | migrationArrive
  | visitorAdmit
  | txwakeStart
  | barrierSweepHop
  | copyStart
  | copyComplete
  | bstrDeliver
  | matrixOpStart
  | matrixOpComplete
  | joinComputeBegin
  | joinAbandon
  | layerCloseProcess
  | layerPostRecords
  | lsplitCsrWrite
  | txwakeCsrWrite
  | fdutyUpdate
  | forcedClockSkip
  | hbmBudgetRefill
  | selfRefreshEnter
  | clockSweeperVisit
  | corePowerUp
  | corePowerOff
  | deviceReset
  | fullService
  | mread
  | mwrite
  | kmsg
  | tset
  | tget
  | dset
  | inval
  | treset
  | pcmdStop
  | pcmdResume
  | pcmdDiscard
  | pcmdResumeCheckpoint
  | pcmdReadState
  | pcmdWriteState
  | resync
  | attest
  | cupLoad
  | cupBreak
  | cupLaunch
  | cupContinue
  | cupRegs
  | cupRing
  | cupMq
  | cupShape
  | cupTile
  | cupExamine
  | cupCsr
  | cupCtx
  | cupFill
  | cupRegsAt
  | cupCsrAt
  | cupDelete
  | cupKettle
  | cupLayer
  | cupPreds
  | cupDeps
  | selfRefreshExit
  | stackTrained
deriving DecidableEq, Repr

end Sys2Proof
end

