-- ==== Sys2Proof/Machine/State.lean ====
section
/-! DEFINITION. The state of the part, as plain data: everything the spec gives the machine (R9 to R13, R28, R201), and the
state after reset. INVENTORY.md lists each field with its rule. Cores are numbered 64 y + x (R9); a context is known by
16 times its home core plus its home index (R12, R17); one that is saved, and the work of one that ended, have keys of
their own beyond those. -/

namespace Sys2Proof.Machine

/-- A table from numbers: entries by rising key, no key twice. -/
abbrev Tbl (α : Type) := List (Nat × α)

/-- A segment register (R23, R135). -/
structure Seg where
  base : Addr := 0
  limit : Addr := 0
  rights : BitVec 4 := 0
  kind : BitVec 2 := 0
deriving DecidableEq, Repr

/-- What a Waiting or In flight context waits for (R13). `start` is a control context that placement has set up and that has yet to
start (R28). -/
inductive Cond where
  | kettle (k : Nat)
  | ringFilled (q n : Nat)
  | ringEmpty (q n : Nat)
  | stream (q : Nat)
  | barrier (n : Nat) (phase : Nat)
  | allowance (key : Nat)
  | fill (tenant range block : Nat)
  | matrixOp (id : Nat)
  | matrixAll
  | engines
  | helper (d : BitVec 5)
  | helpersFree (mask : Word)
  | stopWork
  | stopShot
  | word (win : Bool) (va : Addr) (old : Word)
  | launch (d : BitVec 5)
  | lframe (d : BitVec 5)
  | lframeTurn (n : Nat) (d : BitVec 5)
  | cut (d : BitVec 5)
  | copyQueue (id : Nat)
  | matrixQueue (id : Nat)
  | ownDrips (va : Addr) (n : Nat)
  | viewBank (n : Nat)
  | setupSlot
  | ordSeq (dom : Addr) (seq : Nat)
  | ordBlock (dom : Addr) (key seq : Nat) (mask : Word)
  | rangeIdle (range : Nat)
  | lsplitRings (code : Nat)
  | targetHome (key : Nat)
  | helperInFlight (key : Nat)
  | fullService
  | tablePage
  | start
deriving DecidableEq, Repr

/-- The states of R13. Away is told by `Place`. A context saved alone is Parked or not when CTXLD restores it (R209). An
instruction here is whole in one step, so In flight shows only where it stalls on its way (R114, R157, R244, R250, R262). -/
inductive CtxState where
  | free
  | ready
  | inFlight (c : Cond)
  | waiting (c : Cond)
  | parked
  | saved (parked : Bool)
deriving DecidableEq, Repr

/-- Where a context is (R13, R17, R176). -/
inductive Place where
  | home
  | visitor (core slot : Nat)
  | queued (core : Nat)
  | transit
deriving DecidableEq, Repr

/-- The fault record of R207. -/
structure FaultRec where
  cause : BitVec 8 := 0
  engine : BitVec 8 := 0
  valid : Bool := false
  dfr : Bool := false
  up : Bool := false
  lost : Bool := false
  extra : BitVec 32 := 0
  addr : Word := 0
  trpc : Word := 0
  count : BitVec 32 := 0
  reqs : List (BitVec 32) := []
deriving DecidableEq, Repr

/-- A cause on its way to a context: raised by its instruction, deferred or charged (R203, R207, R363). -/
structure Charge where
  cause : BitVec 8
  val : Word
  engine : BitVec 8 := 0
  extra : BitVec 32 := 0
  dfr : Bool := false
  count : BitVec 32 := 0
  reqs : List (BitVec 32) := []
  addr : Option Word := none
deriving DecidableEq, Repr

/-- A queued upcall (R146, R205). -/
structure Upcall where
  va : Word
  engine : BitVec 8
  reqs : List (BitVec 32)
deriving DecidableEq, Repr

/-- A stream binding with its ring and its chunk position (R244); a context keeps it under its register's number. -/
structure Bind where
  ring : Nat
  out : Bool
  stride : Nat
  perSlot : Nat
  done : Nat := 0
deriving DecidableEq, Repr

/-- The block a generator holds, with its depth (R305, R307). -/
structure GenHold where
  tenant : Nat
  range : Nat
  block : Nat
  depth : Nat
deriving DecidableEq, Repr

/-- A block of a tenant that its cluster holds (R140, R152), with the block of its frame; `written` once it was written. -/
structure Resident where
  tenant : Nat
  block : Nat
  frame : Nat
  written : Bool
deriving DecidableEq, Repr

/-- A translation a cluster holds, with the entries its walk passed (R145). -/
structure TlbEntry where
  cluster : Nat
  tenant : Nat
  level : Nat
  vbase : Nat
  pbase : Nat
  writable : Bool
  dirty : Bool
  path : List Nat := []
deriving DecidableEq, Repr

/-- What a context's fetches may still see of memory: its bytes and the translations as they stood at the first fetch after
the last FENCE of kind full (R92). -/
structure ICode where
  mem : List Host.Cell
  tlb : List TlbEntry
  resident : List Resident
deriving DecidableEq, Repr

/-- One hardware context with everything that travels with it (R13, R132, R174, R201). `met` tells that the wait its
instruction was in is over, with the word a WAITW saw (R13, R197); `writes` are window writes that its instruction In flight
holds up (R143); `fetched` tells that `ir` was fetched and has yet to issue (R210); `barAt` is the barrier and phase it arrived in, and where. -/
structure Ctx where
  key : Nat := 0
  pour : Nat := 0
  st : CtxState := .free
  place : Place := .home
  held : Bool := false
  pc : Addr := 0
  s : Vector Word 32 := Vector.replicate 32 0
  v : Vector VReg 16 := Vector.replicate 16 0
  homeV : Vector VReg 16 := Vector.replicate 16 0
  p : Vector Word 8 := Vector.replicate 8 0
  g : Vector Seg 8 := Vector.replicate 8 {}
  rmode : Word := 0
  vlive : Word := 0
  tvec : Word := 0
  upvec : Word := 0
  tcause : Word := 0
  tval : Word := 0
  trpc : Word := 0
  dbg : Word := 0
  pourCsr : Word := 0
  brewCsr : Word := 0
  tenant : BitVec 4 := 0
  mstat : Word := 0
  bpa : Vector Word 4 := Vector.replicate 4 0
  instret : Word := 0
  frec : FaultRec := {}
  charged : List Charge := []
  deferred : List Charge := []
  upcalls : List Upcall := []
  binds : Tbl Bind := []
  row : Option (Nat × Option Nat) := none
  gen : Option GenHold := none
  barAt : Option ((Nat × Nat) × Addr) := none
  mopAt : Option (Nat × Addr) := none
  passed : Bool := false
  stepping : Bool := false
  again : Bool := false
  stalled : Bool := false
  met : Option Word := none
  writes : List (Nat × List Byte) := []
  icode : Option ICode := none
  fetched : Bool := false
  stopped : Bool := false
  ir : W32 := 0
deriving DecidableEq, Repr

/-- A kettle entry (R185). -/
structure Kettle where
  count : Int := 0
  tenant : Nat := 0
  owned : Bool := false
  fired : Bool := false
  pending : Bool := false
  ovf : Bool := false
  entry : Word := 0
  arg : Word := 0
  brew : BitVec 32 := 0
deriving DecidableEq, Repr

/-- An inbox slot (R192). -/
structure InSlot where
  slot : Nat
  sender : Word
  kettle : Nat
  len : Nat
  payload : BitVec 384
deriving DecidableEq, Repr

/-- A ring-table entry that is defined (R238, R240). -/
structure Ring where
  base : Nat
  slog : Nat
  count : Nat
  head : Nat := 0
  tail : Nat := 0
deriving DecidableEq, Repr

/-- A barrier register of one core (R195, R196): its rectangle, its mask, the phase, in which phase each context last
arrived, and the partials and the release as they stand on this core. -/
structure Barrier where
  x0 : Nat
  y0 : Nat
  w : Nat
  h : Nat
  mask : BitVec 16
  phase : Nat := 0
  last : Tbl Nat := []
  east : Bool := false
  south : Bool := false
  sent : Bool := false
  relEast : Bool := false
  relSouth : Bool := false
deriving DecidableEq, Repr

/-- A shape record (R264). -/
abbrev Shape := BitVec 512

/-- Which instruction put an operation into the matrix queue (R262). -/
inductive MKind where
  | mma | mmaj | mmas | mlda | msta | mzero
deriving DecidableEq, Repr

/-- Where a drained row stands (R274, R275). -/
inductive RowSt where
  | waiting | held (key : Nat) | released
deriving DecidableEq, Repr

/-- A row on its way through a drain handler: 512 bytes of it (R260, R274). -/
structure DrainRow where
  m : Nat
  data : BitVec 4096
  st : RowSt := .waiting
deriving DecidableEq, Repr

/-- Where an operation stands (R262, R270, R278). -/
inductive MPhase where
  | queued | supply | computed | draining
deriving DecidableEq, Repr

/-- An operation of the matrix queue, with what it captured at issue (R262, R300). `mods` are the modifier bits of R100. -/
structure MOp where
  id : Nat
  kind : MKind
  acc : Nat
  qa : Nat
  qb : Nat
  mods : BitVec 8
  recOff : Word
  shape : Shape
  segs : Vector Seg 8
  rmode : Word
  key : Nat
  pour : Nat
  tenant : Nat
  gen : Option GenHold := none
  phase : MPhase := .queued
  paused : Bool := false
  err : Option (BitVec 8 × BitVec 32 × Nat) := none
  flags : Word := 0
  rows : List DrainRow := []
deriving DecidableEq, Repr

/-- A chunk of a BSTR copy on its way (R258, R259). -/
inductive ChunkSt where
  | delivered | done | written | dropped
deriving DecidableEq, Repr

/-- One chunk with the core it went to. -/
structure Chunk where
  k : Nat
  core : Nat
  st : ChunkSt := .delivered
  popped : Bool := false
deriving DecidableEq, Repr

/-- A copy in a core's queue, with what it captured at issue (R248, R250, R254); `errAt` is the element, and the chunk,
at which it failed, `pauseAt` the ones at which it paused last (R253, R258). -/
structure COp where
  id : Nat
  minor : Nat
  xf : Xf
  src : Word
  dst : Word
  sseg : Seg
  dseg : Seg
  pat : BitVec 512
  dest : Word
  rmode : Word
  key : Nat
  pour : Nat
  tenant : Nat
  gen : Option GenHold := none
  running : Bool := false
  paused : Bool := false
  targets : List (Nat × Nat) := []
  next : Nat := 0
  chunks : List Chunk := []
  failed : Option (Nat × BitVec 32) := none
  err : Option (BitVec 8 × BitVec 32 × Nat) := none
  errAt : Nat × Nat := (0, 0)
  pauseAt : Nat × Nat := (0, 0)
deriving DecidableEq, Repr

/-- The slot context 11 reads and writes through (R256): its counter in the ring, the chunk it carries, the positions of
the bit reader and the bit writer. -/
structure BitSlot where
  counter : Nat
  chunk : Option (Nat × Nat × Nat) := none
  inLen : Nat
  outOff : Nat
  outLen : Nat
  pos : Nat := 0
  outPos : Nat := 0
deriving DecidableEq, Repr

/-- A filled slot of a ring that holds a BSTR chunk (R256, R259): core and copy that issued it, the chunk, SC0 and DC0. -/
structure BstrSlot where
  ring : Nat
  counter : Nat
  core : Nat
  op : Nat
  chunk : Nat
  inLen : Nat
  outLen : Nat
deriving DecidableEq, Repr

/-- A request for a helper (R16). -/
inductive HReq where
  | drain (op m : Nat)
  | kettle (k : Nat)
  | gen (tenant range block : Nat)
  | hstart (key : Nat) (d : BitVec 5) (entry : Addr) (arg : Word)
  | ctxld (key : Nat) (d : BitVec 5) (handle : Word)
deriving DecidableEq, Repr

/-- A view bank (R320): the copy of a view table. -/
structure Bank where
  pour : Nat
  table : BitVec 81920
deriving DecidableEq, Repr

/-- A live view of a setup (R322): snapped vertices and area. -/
structure SView where
  view : Nat
  x0 : Int
  y0 : Int
  x1 : Int
  y1 : Int
  x2 : Int
  y2 : Int
  area : Int
  vx : Nat
  vy : Nat
  vw : Nat
  vh : Nat
deriving DecidableEq, Repr

/-- A setup slot (R321, R324): the views still to walk and how many blocks of the first have been visited. -/
structure Setup where
  pour : Nat
  key : Nat
  views : List SView
  visited : Nat := 0
deriving DecidableEq, Repr

/-- An open order token (R328). -/
structure Token where
  tenant : Nat
  dom : Addr
  pour : Nat
  key : Nat
  seq : Nat
  mask : Word
deriving DecidableEq, Repr

/-- One core (R11). `vecHold` says that an f64 vector instruction issued at the last turn (R221); `mstall` and
`cstall` are matrix operations and copies that wait for an entry of their queue, in issue order (R250, R262); `nextDuty` a duty that takes effect after the window
of 16 clocks it names (R367), `skipped` the half clocks the core was denied (R368); `cache` are the contexts in its thread-context
cache, the least recently used first, `spilled` those whose slot went to the save area (R33). -/
structure CoreSt where
  shot : Option Nat := none
  starting : Bool := false
  lsplit : Word := 0
  lgroup : Word := 0
  hresv : Word := 0
  txwake : Word := 0
  kettles : Tbl Kettle := []
  inbox : List InSlot := []
  rings : Tbl Ring := []
  allow : Tbl Nat := []
  bars : Tbl Barrier := []
  mq : List MOp := []
  mstall : List MOp := []
  cq : List COp := []
  cstall : List COp := []
  bits : Option BitSlot := none
  bstr : List BstrSlot := []
  bitsRing : Nat := 0
  closed : List (Nat × Nat) := []
  scan : Nat := 15
  vecHold : Bool := false
  arrivals : List Nat := []
  slots : Tbl Nat := []
  zfScratch : Nat := 0
  zfAcc : Nat := 0
  zfActive : Bool := false
  hreqs : List HReq := []
  banks : Tbl Bank := []
  setups : Tbl Setup := []
  tokens : List Token := []
  fduty : BitVec 5 := 16
  nextDuty : Option (BitVec 5 × Nat) := none
  pstate : BitVec 2 := 0
  lower : Nat := 0
  powered : Bool := true
  skipped : Nat := 0
  cache : List Nat := []
  spilled : List Nat := []
deriving DecidableEq, Repr

/-- Who is told when a decrement is discarded (R191). -/
inductive DecSrc where
  | message (key : Nat)
  | copy (key : Nat)
  | drip (key : Nat)
  | host
  | counted
deriving DecidableEq, Repr

/-- What a drip or a blend lane does at its home (R172, R331). -/
inductive DripOp where
  | add | band | bor | min | max | addF | minF | maxF | addSat8 | minU8 | maxU8 | bor8
deriving DecidableEq, Repr

/-- A packet in flight (R172, R174, R190, R193). -/
inductive Body where
  | dec (dest : Word) (payload : Option (BitVec 128)) (src : DecSrc) (tenant : Nat)
  | msg (dest : Word) (payload : BitVec 384) (len : Nat) (sender : Word) (tenant : Nat)
  | grant (dest n : Nat) (tenant : Nat)
  | drip (op : DripOp) (va : Addr) (size : Nat) (val : Word) (rmode : Word) (notify : Word) (tenant : Nat)
      (kind : Nat)
  | migrate (key : Nat)
deriving DecidableEq, Repr

/-- A packet with its number, its sender, the core it goes to, and who issued it where (R162). Packets of one sender to one core keep their order
(R156, R189). -/
structure Packet where
  id : Nat
  src : Nat
  dst : Nat
  who : Nat
  body : Body
  paused : Bool := false
deriving DecidableEq, Repr

/-- A range of procedural addresses (R301). -/
structure Range where
  base : Nat
  len : Nat
  state : Nat
  entry : Nat
  blog : Nat
  code : Seg
  data : Seg
deriving DecidableEq, Repr

/-- A requester of a fill (R303). -/
inductive Req where
  | ctx (key : Nat)
  | copy (core id : Nat)
  | mat (core id : Nat)
  | drip (pid : Nat)
deriving DecidableEq, Repr

/-- A block that is Filling, with its generator, its requesters, and the pour and context that started it (R19, R302, R305,
R307). -/
structure Fill where
  tenant : Nat
  range : Nat
  block : Nat
  depth : Nat
  gen : Option Nat := none
  reqs : List Req := []
  starter : Option (Nat × Nat) := none
deriving DecidableEq, Repr

/-- A fill that fails: the block, the cause and the code, and the context that caused it (R302, R306 to R308). -/
structure FillFail where
  tenant : Nat
  range : Nat
  block : Nat
  cause : BitVec 8
  code : BitVec 32
  key : Nat
deriving DecidableEq, Repr

/-- An entry on its way to a tenant's fault queue (R377), and whom a trace names for it (R162). -/
structure FaultEntry where
  tenant : Nat
  bytes : List Byte
  who : Nat
deriving DecidableEq, Repr

/-- A launch queue of a tenant (R374, R375). -/
structure Queue where
  base : Word := 0
  slots : Nat := 0
  next : Nat := 0
  kept : Nat := 0
deriving DecidableEq, Repr

/-- A fabric window of a tenant (R374, R382). -/
structure FWin where
  base : Word := 0
  len : Nat := 0
  dev : Nat := 0
deriving DecidableEq, Repr

/-- A record passed by LAUNCH, and the context that waits for it (R182). -/
structure Direct where
  key : Nat
  d : BitVec 5
  record : BitVec 512
deriving DecidableEq, Repr

/-- A tenant: its descriptor (R374), its LCB address (R338), its range table (R301) and its counts (R378). -/
structure Tenant where
  enabled : Bool := false
  trace : Bool := false
  slice : Nat := 0
  root : Word := 0
  saveArea : Word := 0
  saveSize : Word := 0
  faultQ : Word := 0
  secret : BitVec 256 := 0
  queues : Tbl Queue := []
  windows : Tbl FWin := []
  direct : List Direct := []
  nextBrew : Nat := 0
  lcb : Word := 0
  ranges : Tbl Range := []
  annDiscarded : Nat := 0
  faultsDropped : Nat := 0
  decDiscarded : Nat := 0
  rejected9 : Nat := 0
deriving DecidableEq, Repr

/-- A brew that was accepted (R25, R26). `taken` are pours never placed that the host named, each with a record of its own
(R373). -/
structure Brew where
  tenant : Nat
  num : Nat
  queue : Nat
  record : BitVec 512
  segs : Vector Seg 8
  nextIdx : Nat := 0
  taken : List Nat := []
  retired : Nat := 0
deriving DecidableEq, Repr

/-- Where a pour stands (R28, R31, R206, R373). -/
inductive PourSt where
  | placed | cutting | saved | stopped | faulted
deriving DecidableEq, Repr

/-- The recorded state of a pour (R32, R212, R316, R332, R334): contexts, saved ones among them, cores, window bytes and logged
packets, the clocks and the phase it was taken in. `serial` marks the keys of the work that its contexts left under way outside
(log 69); 0 where they left none. -/
structure Image where
  ctxs : List Ctx := []
  cores : List (Nat × CoreSt) := []
  cells : List Host.Cell := []
  logs : List Packet := []
  ox : Nat := 0
  oy : Nat := 0
  cycle : Word := 0
  halves : Nat := 0
  phase : Nat := 2
  serial : Nat := 0
deriving DecidableEq, Repr

/-- A pour that was placed, or that the host stopped before (R18, R28, R373). `breaks` are the breakpoints set for it when it was placed (R299). -/
structure Pour where
  id : Nat
  tenant : Nat
  brew : Nat
  idx : Nat
  w : Nat
  h : Nat
  ox : Nat
  oy : Nat
  st : PourSt := .placed
  expired : Bool := false
  order : Nat := 0
  breaks : Vector (Option Addr) 4 := Vector.replicate 4 none
  image : Option Image := none
deriving DecidableEq, Repr

/-- A cut in progress (R212): the units still to record, and what MARK is owed. -/
structure Cut where
  pour : Nat
  units : List Nat
  frees : Bool
  next : PourSt
  marks : List (Nat × BitVec 5 × Word) := []
deriving DecidableEq, Repr

/-- A context saved alone (R33, R209): the key its state and its work have while it is saved, and its resume kettle. -/
structure Save where
  handle : Word
  pour : Nat
  key : Nat
  resume : Kettle
deriving DecidableEq, Repr

/-- A checkpoint (R214). -/
structure Ckpt where
  tenant : Nat
  brew : Nat
  idx : Nat
  image : Image
  saves : List Save
  dests : List Word
  stored : Bool := false
deriving DecidableEq, Repr

/-- A participant of a join that reached its supply phase (R278). -/
structure Part where
  core : Nat
  op : Nat
  role : Nat
  supplied : Bool := false
deriving DecidableEq, Repr

/-- A joined operation, by pour and tag (R277, R278). -/
structure Join where
  pour : Nat
  tag : Nat
  parts : List Part := []
  computing : Bool := false
deriving DecidableEq, Repr

/-- A dependency entry of a layer (R340). -/
structure Dep where
  caster : BitVec 32
  weight : W32
  x : W32
  y : W32
deriving DecidableEq, Repr

/-- A live layer as its unit holds it (R340, R341). -/
structure Layer where
  tenant : Nat
  id : Nat
  group : BitVec 8
  pending : Bool := false
  order : W32
  w : Nat
  h : Nat
  planes : Word
  err : W32 := 0
  price : W32
  age : W32 := 0
  frame : W32 := 0
  rpose : BitVec 384
  cpose : BitVec 384
  holes : W32 := 0
  samples : W32 := 0
  deps : Vector Dep 4
  hom : BitVec 288 := 0
  parent : W32
  child : W32
deriving DecidableEq, Repr

/-- A request record that a frame close decided to post (R348, R349). -/
structure LRec where
  id : Nat
  frame : W32
  err : W32
  age : W32
  d : W32
  h : W32
deriving DecidableEq, Repr

/-- The fields of an LCB as an instruction reads them (R338). -/
structure Lcb where
  table : Word
  cap : Nat
  frame : W32
  ka : W32
  kd : W32
  ring : Word
  view : BitVec 512
  drops : W32
  notify : Word
deriving DecidableEq, Repr

/-- A frame close in progress (R348): the layers each unit has yet to process, those it processed with what they were before,
and what was decided. `undo` holds those that a trap of the LFRAME would set back (R357). -/
structure Close where
  tenant : Nat
  key : Nat
  lcb : Lcb
  todo : List (List Nat)
  processed : List Nat := []
  undo : List Layer := []
  decided : List LRec := []
  paused : Bool := false
deriving DecidableEq, Repr

/-- What protects a physical block (R379): the tenant and the key it was written back under, no tenant for the device key, and its
counter. -/
structure Mac where
  owner : Option Nat
  key : BitVec 256
  count : Nat
deriving DecidableEq, Repr

/-- A line of a core's L1 with bytes that plain stores of a tenant left dirty (R151, R167): the line's number, its byte mask, and the
last writer as a trace names it. -/
structure Dirty where
  core : Nat
  tenant : Nat
  line : Nat
  mask : BitVec 128
  who : Nat
deriving DecidableEq, Repr

/-- An entry of a trace ring (R162), with its tenant (R140). -/
structure TraceEntry where
  tenant : Nat
  w0 : Word
  w1 : Word
deriving DecidableEq, Repr

/-- What the last host command was answered with (R373). -/
inductive Resp where
  | none
  | ok (data : List Word)
  | error
deriving DecidableEq, Repr

/-- The operands of a step without an encoding. Each event and command says which of them it reads. -/
structure Args where
  a : Nat := 0
  b : Nat := 0
  c : Nat := 0
  d : Nat := 0
  word : BitVec 256 := 0
  bytes : List Byte := []
  flag : Bool := false
deriving DecidableEq, Repr

/-- Who moves next (R18, R168): a core issues, or a step without an encoding takes place. -/
inductive Turn where
  | issue (core : Nat)
  | event (i : Instr) (args : Args)
deriving DecidableEq, Repr

/-- The whole part. -/
structure State where
  /-- Bytes of the physical map and of the window kinds 0 and 1, in canonical form (R142, R144). -/
  mem : List Host.Cell := []
  /-- The protection of physical blocks that were written back (R379), by block. -/
  macs : Tbl Mac := []
  /-- The counters that the on-chip root of the hash tree vouches for (R379), by block. -/
  treeRoot : Tbl Nat := []
  /-- Physical blocks with an uncorrectable error (R127). -/
  bad : List Nat := []
  tlb : List TlbEntry := []
  resident : List Resident := []
  /-- The context that issues. -/
  cx : Ctx := {}
  /-- Every other context that is not Free, by key. A saved one has a key of its own (log 69). -/
  ctxs : Tbl Ctx := []
  /-- Cores that differ from the state after reset, by number. -/
  cores : Tbl CoreSt := []
  net : List Packet := []
  nextId : Nat := 1
  tenants : Tbl Tenant := []
  brews : List Brew := []
  pours : List Pour := []
  cuts : List Cut := []
  ckpts : Tbl Ckpt := []
  saves : List Save := []
  joins : List Join := []
  fills : List Fill := []
  /-- Failures of fills whose update of the fill-state table waits (R302). -/
  lateFails : List FillFail := []
  /-- Entries of fault queues that wait for HBM4E (R377, R381). -/
  lateFaults : List FaultEntry := []
  layers : List Layer := []
  closes : List Close := []
  traces : Tbl (List TraceEntry) := []
  /-- Lines of L1 with dirty bytes (R151). -/
  dirty : List Dirty := []
  /-- Arrivals traced in this step (R162). -/
  landed : Nat := 0
  /-- Arrivals of the clock in progress: each port with the rank of what it took last (R168). -/
  arrived : Tbl Nat := []
  lastTenant : Nat := 15
  lastCore : Nat := 1535
  heldCores : List (Nat × Nat × Nat × Nat) := []
  breaks : Vector (Option Addr) 4 := Vector.replicate 4 none
  cycle : Word := 0
  /-- Half clocks of a core that skips none, since reset, and those of this step (R367, R368, R381). -/
  halves : Nat := 0
  span : Nat := 0
  ticks : Nat := 0
  phase : Nat := 1
  trained : List Nat := []
  budgets : Tbl Nat := []
  refresh : List Nat := []
  frameTable : Word := 0
  coldQueue : Word := 0
  watermark : Word := 0
  sweep : Nat := 0
  ndev : BitVec 8 := 1
  dev : BitVec 8 := 0
  /-- The other fields of the configuration record (R380). -/
  record : List Byte := []
  args : Args := {}
  agenda : List Turn := []
  /-- Host commands that wait for HBM4E, in the order they were sent (R373, R381). -/
  hostWait : List Turn := []
  /-- Tenants whose reset has yet to write the LCB, in HBM4E (R338, R381). -/
  lateLcb : List Nat := []
  response : Resp := .none
  /-- The brews whose retirement a `continue` of Cupping reports (R299). -/
  cupBrews : List (Nat × Nat) := []
deriving DecidableEq, Repr

/-- The part right after reset (R374, R381): reduced service, no tenant, no pour, no context. -/
def State.reset : State := {}

/-- Why the machine stops with a fault: it never does. What the spec confines or leaves open goes on (R1). -/
inductive Fault where
deriving DecidableEq, Repr

/-- Why the model gives an instruction no meaning. -/
inductive Refusal where
  /-- Raised by an arm of exec whose instruction is not modelled yet. Safe: nothing is said of it. -/
  | notModelled (mnemonic : String)
deriving DecidableEq, Repr

/-- What a meaning answers. -/
abbrev Out := Host.Outcome State Fault Refusal

end Sys2Proof.Machine
end

