-- ==== Sys2Proof/Machine/Tables.lean ====
section
/-! DEFINITION. Tables, lists and vectors: the small operations every other file uses. -/

namespace Sys2Proof.Machine

/-- The entry of a key. -/
def tget {α : Type} : Tbl α → Nat → Option α
  | [], _ => none
  | (k, a) :: t, n => if k = n then some a else tget t n

/-- Sets the entry of a key, keeping the keys in rising order. -/
def tput {α : Type} : Tbl α → Nat → α → Tbl α
  | [], n, a => [(n, a)]
  | (k, b) :: t, n, a => if n < k then (n, a) :: (k, b) :: t else if k = n then (n, a) :: t else (k, b) :: tput t n a

/-- Removes the entry of a key. -/
def tdel {α : Type} : Tbl α → Nat → Tbl α
  | [], _ => []
  | (k, b) :: t, n => if k = n then tdel t n else (k, b) :: tdel t n

/-- The entry of a key, or a value for keys without one. -/
def tgetD {α : Type} (t : Tbl α) (n : Nat) (d : α) : α := (tget t n).getD d

/-- An element of a register file. -/
def vget {α : Type} {n : Nat} (v : Vector α n) (i : Nat) (d : α) : α := v.toList.getD i d

/-- A register file with one element changed. -/
def vset {α : Type} {n : Nat} (v : Vector α n) (i : Nat) (a : α) : Vector α n := v.setIfInBounds i a

/-- The first element that meets a test, and the list without it. -/
def takeFirst {α : Type} (f : α → Bool) : List α → Option (α × List α)
  | [] => none
  | a :: t => if f a then some (a, t) else
    match takeFirst f t with
    | some (b, r) => some (b, a :: r)
    | none => none

/-- Changes the first element that meets a test. -/
def mapFirst {α : Type} (f : α → Bool) (g : α → α) : List α → List α
  | [] => []
  | a :: t => if f a then g a :: t else a :: mapFirst f g t

/-- The numbers from `a`, `n` of them. -/
def upFrom (a : Nat) : Nat → List Nat
  | 0 => []
  | n + 1 => a :: upFrom (a + 1) n

/-- Inserts a number into a rising list, once. -/
def insNat (n : Nat) : List Nat → List Nat
  | [] => [n]
  | k :: t => if n < k then n :: k :: t else if n = k then k :: t else k :: insNat n t

/-- A list in rising order of a measure, equal ones in the order given. -/
def insBy {α : Type} (f : α → Nat) (a : α) : List α → List α
  | [] => [a]
  | b :: t => if f a < f b then a :: b :: t else b :: insBy f a t

def sortBy {α : Type} (f : α → Nat) (l : List α) : List α := l.foldl (fun acc a => insBy f a acc) []

/-- Bytes as one number, lowest address first (R4). -/
def natOfBytes : List Byte → Nat
  | [] => 0
  | b :: t => b.toNat + 256 * natOfBytes t

/-- The `n` bytes of a number, lowest address first (R4). -/
def bytesOfNat : Nat → Nat → List Byte
  | 0, _ => []
  | n + 1, w => BitVec.ofNat 8 w :: bytesOfNat n (w / 256)

/-- The field [lo + n - 1 : lo] of a bit vector (R3). -/
def fieldN {w : Nat} (v : BitVec w) (lo n : Nat) : Nat := v.toNat / 2 ^ lo % 2 ^ n

/-- Bit `i` of a bit vector. -/
def bitN {w : Nat} (v : BitVec w) (i : Nat) : Bool := v.toNat / 2 ^ i % 2 == 1

/-- A bit vector with the field [lo + n - 1 : lo] replaced (R3). -/
def putField {w : Nat} (v : BitVec w) (lo n : Nat) (x : Nat) : BitVec w :=
  (v &&& ~~~(((BitVec.ofNat w (2 ^ n - 1))) <<< lo)) ||| ((BitVec.ofNat w (x % 2 ^ n)) <<< lo)

/-- A Bool as a number. -/
def b2n (b : Bool) : Nat := if b then 1 else 0

/-- Sign extension of the low `n` bits of a number to an integer. -/
def sInt (n x : Nat) : Int :=
  let y := x % 2 ^ n
  if 2 * y < 2 ^ n then (y : Int) else (y : Int) - (2 ^ n : Nat)

/-- An integer modulo 2^n, as a number. -/
def wrapN (n : Nat) (x : Int) : Nat := (x % ((2 ^ n : Nat) : Int)).toNat

end Sys2Proof.Machine
end

