-- ==== Sys2Proof/Machine/Num.lean ====
section
/-! DEFINITION. Number formats, rounding and conversions (R40, R43 to R62). A finite value is exact: a sign, a natural
significand and a power of two. `roundTo` is the one place that rounds. -/

namespace Sys2Proof.Machine

/-- A binary floating-point format (R43). -/
inductive Fmt where
  | fp64 | fp32 | fp16 | bf16 | e5m2 | e4m3 | e2m1
deriving DecidableEq, Repr

/-- Width of the trailing significand (R43). -/
def Fmt.mbits : Fmt → Nat
  | .fp64 => 52
  | .fp32 => 23
  | .fp16 => 10
  | .bf16 => 7
  | .e5m2 => 2
  | .e4m3 => 3
  | .e2m1 => 1

/-- Width of the exponent field (R43). -/
def Fmt.ebits : Fmt → Nat
  | .fp64 => 11
  | .fp32 => 8
  | .fp16 => 5
  | .bf16 => 8
  | .e5m2 => 5
  | .e4m3 => 4
  | .e2m1 => 2

/-- The exponent bias (R43). -/
def Fmt.bias : Fmt → Int
  | .fp64 => 1023
  | .fp32 => 127
  | .fp16 => 15
  | .bf16 => 127
  | .e5m2 => 15
  | .e4m3 => 7
  | .e2m1 => 1

/-- Width of an element. -/
def Fmt.width (f : Fmt) : Nat := 1 + f.ebits + f.mbits

/-- The format has an infinity (R44). -/
def Fmt.hasInf : Fmt → Bool
  | .fp64 | .fp32 | .fp16 | .bf16 | .e5m2 => true
  | .e4m3 | .e2m1 => false

/-- FTZ acts on the format (R55). -/
def Fmt.flushes : Fmt → Bool
  | .fp64 | .fp32 | .fp16 | .bf16 => true
  | .e5m2 | .e4m3 | .e2m1 => false

/-- The encoding, without sign, of the largest finite value (R43, R44). -/
def Fmt.maxFin (f : Fmt) : Nat :=
  match f with
  | .e4m3 => 0x7E
  | .e2m1 => 0x7
  | _ => (2 ^ f.ebits - 1) * 2 ^ f.mbits - 1

/-- The encoding, without sign, of infinity, for the formats that have one (R44). -/
def Fmt.infCode (f : Fmt) : Nat := (2 ^ f.ebits - 1) * 2 ^ f.mbits

/-- The canonical NaN (R44, R45); E2M1 has none and takes +0 (R56). -/
def Fmt.nanCode (f : Fmt) : Nat :=
  match f with
  | .fp64 => 0x7FF8_0000_0000_0000
  | .fp32 => 0x7FC0_0000
  | .fp16 => 0x7E00
  | .bf16 => 0x7FC0
  | .e5m2 => 0x7E
  | .e4m3 => 0x7F
  | .e2m1 => 0

/-- The exponent of the lowest bit of a subnormal: 1 - bias - t (R43). -/
def Fmt.xmin (f : Fmt) : Int := 1 - f.bias - f.mbits

/-- A rounding mode (R53). -/
inductive RM where
  | rne | rtz | rdn | rup | rna
deriving DecidableEq, Repr

/-- RMODE.RM (R53). -/
def RM.ofCode : Nat → RM
  | 1 => .rtz
  | 2 => .rdn
  | 3 => .rup
  | 4 => .rna
  | _ => .rne

/-- The rounding state an operation runs under (R52): mode, SAT, FTZ. -/
structure Mode where
  rm : RM := .rne
  sat : Bool := false
  ftz : Bool := false
deriving DecidableEq, Repr

/-- Rn of R322: RNE, no flush, no saturation. -/
def Mode.rn : Mode := {}

/-- The mode RMODE holds (R52). -/
def modeOf (rmode : Word) : Mode :=
  { rm := RM.ofCode (fieldN rmode 0 3), sat := bitN rmode 3, ftz := bitN rmode 4 }

/-- The mode of an instruction with a rounding source (R53, R99). -/
def modeSrc (rmode : Word) (rs : RSrc) : Mode :=
  let md := modeOf rmode
  match rs with
  | .rmode => md
  | .rne => { md with rm := .rne }
  | .rtz => { md with rm := .rtz }
  | .rna => { md with rm := .rna }

/-- The sticky flags, in the order of RMODE[14:8] (R52). -/
abbrev Flags := BitVec 7

def fNV : Flags := 0x01
def fDZ : Flags := 0x02
def fOF : Flags := 0x04
def fUF : Flags := 0x08
def fNX : Flags := 0x10
def fSH : Flags := 0x20
def fSC : Flags := 0x40

/-- A flag that is set when a condition holds. -/
def fIf (c : Bool) (f : Flags) : Flags := if c then f else 0

/-- A value: NaN, an infinity, or (-1)^neg · m · 2^e. -/
inductive FVal where
  | nan
  | inf (neg : Bool)
  | fin (neg : Bool) (m : Nat) (e : Int)
deriving DecidableEq, Repr

/-- An encoding with the flags that its making sets. -/
structure FR where
  bits : Nat
  flags : Flags := 0
deriving DecidableEq, Repr

/-- The sign bit of a format, set or clear. -/
def Fmt.sign (f : Fmt) (neg : Bool) : Nat := if neg then 2 ^ (f.ebits + f.mbits) else 0

/-- The encoding is a NaN (R44). -/
def Fmt.isNan (f : Fmt) (bits : Nat) : Bool :=
  let a := bits % 2 ^ (f.ebits + f.mbits)
  match f with
  | .e2m1 => false
  | .e4m3 => a == 0x7F
  | _ => decide (f.infCode < a)

/-- The encoding is a signalling NaN (R44). -/
def Fmt.isSnan (f : Fmt) (bits : Nat) : Bool :=
  f.flushes && f.isNan bits && (bits / 2 ^ (f.mbits - 1) % 2 == 0)

/-- The value of an encoding (R43, R44). -/
def Fmt.value (f : Fmt) (bits : Nat) : FVal :=
  let a := bits % 2 ^ (f.ebits + f.mbits)
  let neg := bits / 2 ^ (f.ebits + f.mbits) % 2 == 1
  let ex := a / 2 ^ f.mbits
  let m := a % 2 ^ f.mbits
  if f.isNan bits then .nan
  else if f.hasInf && a == f.infCode then .inf neg
  else if ex = 0 then .fin neg m f.xmin
  else .fin neg (2 ^ f.mbits + m) (f.xmin + (ex : Int) - 1)

/-- The value of an operand: a subnormal reads as zero of its sign while FTZ acts (R55). -/
def Fmt.operand (f : Fmt) (ftz : Bool) (bits : Nat) : FVal :=
  match f.value bits with
  | .fin neg m e => if ftz && f.flushes && decide (m < 2 ^ f.mbits) && decide (e = f.xmin) then .fin neg 0 0 else .fin neg m e
  | v => v

/-- Whether a magnitude with `rem` of `2^d` left over, and more below it when `sticky`, is rounded up (R53). -/
def roundsUp (rm : RM) (neg odd : Bool) (rem d : Nat) (sticky : Bool) : Bool :=
  let twice := 2 * rem
  let half := 2 ^ d
  let inexact := rem != 0 || sticky
  match rm with
  | .rtz => false
  | .rdn => neg && inexact
  | .rup => !neg && inexact
  | .rna => decide (half ≤ twice)
  | .rne => decide (half < twice) || (twice == half && (sticky || odd))

/-- A magnitude cut to a lowest bit of exponent `x`: the significand and whether it is inexact. -/
def cutAt (rm : RM) (neg : Bool) (m : Nat) (e : Int) (sticky : Bool) (x : Int) : Nat × Bool :=
  if x ≤ e then (m * 2 ^ (e - x).toNat, sticky)
  else
    let d := (x - e).toNat
    let q := m / 2 ^ d
    let rem := m % 2 ^ d
    (if roundsUp rm neg (q % 2 == 1) rem d sticky then q + 1 else q, rem != 0 || sticky)

/-- Round(x, fmt, mode) of R7, with the range rules of R55 to R57. The value is (-1)^neg · m · 2^e, or lies strictly
between that magnitude and (m + 1) · 2^e when `sticky`; a sticky value carries at least two bits more than the format. -/
def roundTo (f : Fmt) (md : Mode) (neg : Bool) (m : Nat) (e : Int) (sticky : Bool) : FR :=
  if m == 0 && !sticky then { bits := f.sign neg }
  else
    let p : Nat := f.mbits + 1
    let xu : Int := e + (Nat.log2 m + 1 : Nat) - (p : Int)
    let u := cutAt md.rm neg m e sticky xu
    let tiny := decide (xu < f.xmin) && !(u.1 == 2 ^ p && decide (xu + 1 = f.xmin))
    if tiny && md.ftz && f.flushes then { bits := f.sign neg, flags := fUF ||| fNX }
    else
      let x : Int := if xu < f.xmin then f.xmin else xu
      let c := if xu < f.xmin then cutAt md.rm neg m e sticky x else u
      let code := (x - f.xmin).toNat * 2 ^ f.mbits + c.1
      if code ≤ f.maxFin then
        { bits := f.sign neg + code, flags := fIf c.2 fNX ||| fIf (tiny && c.2) fUF }
      else if md.sat || f == .e2m1 then
        { bits := f.sign neg + f.maxFin, flags := fOF ||| fNX ||| fSH }
      else
        let toward := match md.rm with
          | .rtz => true
          | .rdn => !neg
          | .rup => neg
          | .rne | .rna => false
        if toward then { bits := f.sign neg + f.maxFin, flags := fOF ||| fNX }
        else if f.hasInf then { bits := f.sign neg + f.infCode, flags := fOF ||| fNX }
        else { bits := f.nanCode, flags := fOF ||| fNX }

/-- A value delivered in a format (R45, R56, R57). -/
def fit (f : Fmt) (md : Mode) : FVal → FR
  | .nan => { bits := f.nanCode, flags := fIf (f == .e2m1) fNV }
  | .inf neg =>
    match f with
    | .e4m3 => { bits := if md.sat then f.sign neg + f.maxFin else f.nanCode, flags := fSH }
    | .e2m1 => { bits := f.sign neg + f.maxFin, flags := fSH }
    | _ => { bits := f.sign neg + f.infCode }
  | .fin neg m e => roundTo f md neg m e false

/-- A result whose operation is invalid (R45). -/
def invalid (f : Fmt) : FR := { bits := f.nanCode, flags := fNV }

/-! Exact arithmetic -/

/-- A finite value as a signed significand and an exponent. -/
def signed (neg : Bool) (m : Nat) : Int := if neg then -(m : Int) else (m : Int)

/-- The exact sum of two finite values; an exact zero takes the sign IEEE 754 gives it under the mode. -/
def addFin (rm : RM) (n1 : Bool) (m1 : Nat) (e1 : Int) (n2 : Bool) (m2 : Nat) (e2 : Int) : FVal :=
  if m1 == 0 && m2 == 0 then
    .fin (if n1 == n2 then n1 else rm == .rdn) 0 0
  else
    let e := if e1 ≤ e2 then e1 else e2
    let a := signed n1 m1 * (2 ^ (e1 - e).toNat : Nat) + signed n2 m2 * (2 ^ (e2 - e).toNat : Nat)
    if a = 0 then .fin (rm == .rdn) 0 0 else .fin (decide (a < 0)) a.natAbs e

/-- The exact sum of two values; infinities of opposite sign give NaN. -/
def addV (rm : RM) : FVal → FVal → FVal
  | .nan, _ => .nan
  | _, .nan => .nan
  | .inf a, .inf b => if a == b then .inf a else .nan
  | .inf a, .fin .. => .inf a
  | .fin .., .inf b => .inf b
  | .fin n1 m1 e1, .fin n2 m2 e2 => addFin rm n1 m1 e1 n2 m2 e2

/-- The exact product of two values; zero times infinity gives NaN. -/
def mulV : FVal → FVal → FVal
  | .nan, _ => .nan
  | _, .nan => .nan
  | .inf a, .inf b => .inf (a != b)
  | .inf a, .fin n m _ => if m = 0 then .nan else .inf (a != n)
  | .fin n m _, .inf b => if m = 0 then .nan else .inf (n != b)
  | .fin n1 m1 e1, .fin n2 m2 e2 => .fin (n1 != n2) (m1 * m2) (e1 + e2)

/-- The value with its sign changed. -/
def negV : FVal → FVal
  | .nan => .nan
  | .inf a => .inf (!a)
  | .fin n m e => .fin (!n) m e

/-- The value is a NaN. -/
def FVal.isNaN : FVal → Bool
  | .nan => true
  | _ => false

/-- The value is finite. -/
def FVal.isFin : FVal → Bool
  | .fin .. => true
  | _ => false

/-- The value is a zero. -/
def FVal.isZero : FVal → Bool
  | .fin _ m _ => m == 0
  | _ => false

/-- The sign of a value, a zero's too. -/
def FVal.isNeg : FVal → Bool
  | .nan => false
  | .inf n => n
  | .fin n _ _ => n

/-- Exact comparison of two finite values, zeros equal: the sign of x - y. -/
def cmpFin (n1 : Bool) (m1 : Nat) (e1 : Int) (n2 : Bool) (m2 : Nat) (e2 : Int) : Int :=
  let e := if e1 ≤ e2 then e1 else e2
  signed n1 m1 * (2 ^ (e1 - e).toNat : Nat) - signed n2 m2 * (2 ^ (e2 - e).toNat : Nat)

/-- x < y; false with a NaN. -/
def ltV : FVal → FVal → Bool
  | .nan, _ => false
  | _, .nan => false
  | .inf a, .inf b => a && !b
  | .inf a, .fin .. => a
  | .fin .., .inf b => !b
  | .fin n1 m1 e1, .fin n2 m2 e2 => decide (cmpFin n1 m1 e1 n2 m2 e2 < 0)

/-- x = y, with +0 = -0; false with a NaN. -/
def eqV : FVal → FVal → Bool
  | .nan, _ => false
  | _, .nan => false
  | .inf a, .inf b => a == b
  | .inf _, .fin .. => false
  | .fin .., .inf _ => false
  | .fin n1 m1 e1, .fin n2 m2 e2 => decide (cmpFin n1 m1 e1 n2 m2 e2 = 0)

/-- x ≤ y; false with a NaN. -/
def leV (x y : FVal) : Bool := ltV x y || eqV x y

/-- The order of IEEE 754-2019 minimum and maximum: -0 lies below +0 (R170). -/
def belowV (x y : FVal) : Bool := ltV x y || (x.isZero && y.isZero && x.isNeg && !y.isNeg)

/-- IEEE 754-2019 minimum (R170). -/
def minV (x y : FVal) : FVal := if x.isNaN || y.isNaN then .nan else if belowV y x then y else x

/-- IEEE 754-2019 maximum (R170). -/
def maxV (x y : FVal) : FVal := if x.isNaN || y.isNaN then .nan else if belowV x y then y else x

/-- The magnitude of a value. -/
def absV : FVal → FVal
  | .nan => .nan
  | .inf _ => .inf false
  | .fin _ m e => .fin false m e

/-- An integer as a value. -/
def intV (n : Int) : FVal := .fin (decide (n < 0)) n.natAbs 0

/-- 2^k times a value. -/
def scaleV (k : Int) : FVal → FVal
  | .fin n m e => .fin n m (e + k)
  | v => v

/-! Quotients and roots, to enough bits for one rounding -/

/-- (-1)^neg · m1 · 2^e1 / (m2 · 2^e2), rounded once. Both significands are nonzero. -/
def divTo (f : Fmt) (md : Mode) (neg : Bool) (m1 : Nat) (e1 : Int) (m2 : Nat) (e2 : Int) : FR :=
  let sh := f.mbits + 6 + Nat.log2 m2
  let n := m1 * 2 ^ sh
  roundTo f md neg (n / m2) (e1 - e2 - sh) (n % m2 != 0)

/-- The integer square root, by the bits of the root from `2^k` down. -/
def isqrtFrom (n : Nat) : Nat → Nat → Nat
  | 0, r => if (r + 1) * (r + 1) ≤ n then r + 1 else r
  | k + 1, r => isqrtFrom n k (if (r + 2 ^ (k + 1)) * (r + 2 ^ (k + 1)) ≤ n then r + 2 ^ (k + 1) else r)

/-- The integer square root. -/
def isqrt (n : Nat) : Nat := if n = 0 then 0 else isqrtFrom n (Nat.log2 n / 2) 0

/-- The square root of m · 2^e, rounded once; m is nonzero. -/
def sqrtTo (f : Fmt) (md : Mode) (m : Nat) (e : Int) : FR :=
  let sh := 2 * f.mbits + 12 + (if e % 2 = 0 then 0 else 1)
  let n := m * 2 ^ sh
  let r := isqrt n
  roundTo f md false r ((e - sh) / 2) (r * r != n)

/-- The inverse square root of m · 2^e, rounded once; m is nonzero. -/
def rsqrtTo (f : Fmt) (md : Mode) (m : Nat) (e : Int) : FR :=
  let odd : Nat := if e % 2 = 0 then 0 else 1
  let k := 2 * (f.mbits + 8 + Nat.log2 m)
  let mm := m * 2 ^ odd
  let r := isqrt (2 ^ k / mm)
  roundTo f md false r (-((k / 2 : Nat) : Int) - (e - odd) / 2) (r * r * mm != 2 ^ k)

/-! 2^x and log2 x, to far more bits than any format holds -/

/-- Fixed-point bits of the two series below. -/
def expBits : Nat := 320

/-- ln 2, in units of 2^-320, rounded down. -/
def ln2Fix : Nat := 0xb17217f7d1cf79abc9e3b39803f2f6af40f343267298b62d8a0d175b8baafa2be7b876206debac98

/-- The sum of y^i / i! for `n` terms from term `t` = y^(i-1) / (i-1)!, in units of 2^-320. -/
def expSum (y : Nat) : Nat → Nat → Nat → Nat
  | 0, _, _ => 0
  | n + 1, i, t =>
    let t' := t * y / 2 ^ expBits / i
    t' + expSum y n (i + 1) t'

/-- 2^f for a fraction f in units of 2^-320, in the same units: at least 1 and below 2. -/
def exp2Frac (f : Nat) : Nat := 2 ^ expBits + expSum (f * ln2Fix / 2 ^ expBits) 72 1 (2 ^ expBits)

/-- 2^x, rounded once, for a finite x (R223). A power that is no integer is irrational, so it is never exact; one beyond
every range is brought near the range first. -/
def exp2To (f : Fmt) (md : Mode) (neg : Bool) (m : Nat) (e : Int) : FR :=
  if m = 0 then roundTo f md false 1 0 false
  else if 12 ≤ e + (Nat.log2 m : Int) then
    if neg then roundTo f md false (2 ^ (f.mbits + 8)) (-8192) true
    else roundTo f md false (2 ^ (f.mbits + 8)) 8192 true
  else if e + (Nat.log2 m : Int) < -200 then
    if neg then roundTo f md false (2 ^ (f.mbits + 8) - 1) (-((f.mbits + 8 : Nat) : Int)) true
    else roundTo f md false (2 ^ (f.mbits + 8)) (-((f.mbits + 8 : Nat) : Int)) true
  else
    let k : Int := e + (expBits : Int)
    let scaled : Int := signed neg m * ((2 ^ k.toNat : Nat) : Int) / ((2 ^ (-k).toNat : Nat) : Int)
    let n := scaled / ((2 ^ expBits : Nat) : Int)
    let fr := (scaled % ((2 ^ expBits : Nat) : Int)).toNat
    if fr = 0 then roundTo f md false 1 n false
    else roundTo f md false (exp2Frac fr / 2 ^ 64) (n - ((expBits - 64 : Nat) : Int)) true

/-- Bits of log2 z for z in [1, 2), z in units of 2^-320: squaring gives one bit a time. -/
def log2Bits : Nat → Nat → Nat → Nat
  | 0, _, acc => acc
  | n + 1, z, acc =>
    let z2 := z * z / 2 ^ expBits
    if 2 ^ (expBits + 1) ≤ z2 then log2Bits n (z2 / 2) (2 * acc + 1) else log2Bits n z2 (2 * acc)

/-- log2 of m · 2^e, rounded once; m is nonzero (R223). It is exact for a power of two, and irrational otherwise. -/
def log2To (f : Fmt) (md : Mode) (m : Nat) (e : Int) : FR :=
  let l := Nat.log2 m
  let ex : Int := e + l
  if m = 2 ^ l then roundTo f md (decide (ex < 0)) ex.natAbs 0 false
  else
    let t : Int := ex * (2 ^ 128 : Nat) + (log2Bits 128 (m * 2 ^ (expBits - l)) 0 : Int)
    if t < 0 then roundTo f md true ((-t).toNat - 1) (-128) true else roundTo f md false t.toNat (-128) true

/-! Elements of memory and their conversions -/

/-- A number read from an element: an integer, or a floating-point value (R40, R47, R48). -/
inductive Num where
  | int (n : Int)
  | fp (v : FVal)
deriving DecidableEq, Repr

/-- The floating-point format of a format code (R40). -/
def fmtOfCode : Nat → Option Fmt
  | 6 => some .fp16
  | 7 => some .bf16
  | 8 => some .fp32
  | 9 => some .fp64
  | 10 => some .e4m3
  | 11 => some .e5m2
  | 12 => some .e2m1
  | _ => none

/-- Width and signedness of the integer format of a code (R40, R47). -/
def intOfCode : Nat → Option (Nat × Bool)
  | 1 => some (8, true)
  | 2 => some (8, false)
  | 3 => some (16, true)
  | 4 => some (32, true)
  | 5 => some (64, true)
  | 18 => some (4, true)
  | _ => none

/-- The scaled-array format of a code: its element format; MX-TS8 has none (R40, R50). -/
def mxOfCode : Nat → Option Fmt
  | 13 => some .e4m3
  | 14 => some .e5m2
  | 15 => some .e2m1
  | _ => none

/-- Bits of an element of a format code (R40); the scaled arrays count the element alone. -/
def codeBits (code : Nat) : Nat :=
  match code with
  | 1 | 2 | 10 | 11 | 13 | 14 | 16 | 17 => 8
  | 3 | 6 | 7 => 16
  | 4 | 8 => 32
  | 5 | 9 => 64
  | 12 | 15 | 18 => 4
  | _ => 0

/-- A term of a TS8 byte, in units of 1/64 (R48). -/
def ts8Term (neg : Bool) (e : Nat) : Int := if e = 7 then 0 else signed neg (2 ^ (6 - e))

/-- The value of a TS8 byte (R48). -/
def ts8Value (b : Nat) : FVal :=
  let t := ts8Term (b / 128 % 2 == 1) (b / 16 % 8) + ts8Term (b / 8 % 2 == 1) (b % 8)
  .fin (decide (t < 0)) t.natAbs (-6)

/-- An element of a source format as a number, with the flags its reading sets (R45, R55, R56). -/
def readElem (code : Nat) (ftz : Bool) (raw : Nat) : Num × Flags :=
  match fmtOfCode code with
  | some f => (.fp (f.operand ftz raw), fIf (f.isSnan raw) fNV)
  | none =>
    match intOfCode code with
    | some (w, true) => (.int (sInt w raw), 0)
    | some (w, false) => (.int ((raw % 2 ^ w : Nat) : Int), 0)
    | none => (.fp (ts8Value raw), 0)

/-- An integer to the nearest end of a range (R58, R59). -/
def clampI (lo hi n : Int) : Int := if n < lo then lo else if hi < n then hi else n

/-- Lowest and highest value of an integer format (R47). -/
def intLo (w : Nat) (sg : Bool) : Int := if sg then -((2 ^ (w - 1) : Nat) : Int) else 0
def intHi (w : Nat) (sg : Bool) : Int := if sg then ((2 ^ (w - 1) : Nat) : Int) - 1 else ((2 ^ w : Nat) : Int) - 1

/-- Integer to integer (R59). -/
def intToInt (md : Mode) (w : Nat) (sg : Bool) (n : Int) : FR :=
  if intLo w sg ≤ n ∧ n ≤ intHi w sg then { bits := wrapN w n }
  else if md.sat then { bits := wrapN w (clampI (intLo w sg) (intHi w sg) n), flags := fSH }
  else { bits := wrapN w n }

/-- Floating point to integer (R58). -/
def fpToInt (md : Mode) (w : Nat) (sg : Bool) : FVal → FR
  | .nan => { bits := 0, flags := fNV }
  | .inf neg => { bits := wrapN w (if neg then intLo w sg else intHi w sg), flags := fNV }
  | .fin neg m e =>
    let c := cutAt md.rm neg m e false 0
    let n := signed neg c.1
    if intLo w sg ≤ n ∧ n ≤ intHi w sg then { bits := wrapN w n, flags := fIf c.2 fNX }
    else { bits := wrapN w (clampI (intLo w sg) (intHi w sg) n), flags := fNV }

/-- A number delivered in a destination format that is no scaled array (R56 to R59). -/
def writeElem (code : Nat) (md : Mode) (x : Num) : FR :=
  match fmtOfCode code with
  | some f =>
    match x with
    | .int n => fit f md (intV n)
    | .fp v => fit f md v
  | none =>
    match intOfCode code with
    | some (w, sg) =>
      match x with
      | .int n => intToInt md w sg n
      | .fp v => fpToInt md w sg v
    | none => { bits := 0 }

/-- The factor an E8M0 byte stands for, as an exponent; none for NaN (R46). -/
def e8m0 (b : Nat) : Option Int := if b = 0xFF then none else some ((b : Int) - 127)

/-- An element value under its block scale (R49). -/
def scaled (scale : Nat) (v : FVal) : FVal :=
  match e8m0 scale with
  | none => .nan
  | some k => scaleV k v

/-- The number as an exact value. -/
def Num.val : Num → FVal
  | .int n => intV n
  | .fp v => v

/-- The larger of two finite magnitudes. -/
def maxMag : FVal → FVal → FVal
  | x, y => if ltV (absV x) (absV y) then absV y else absV x

/-- Elements of a block encoded into a scaled array (R60): the scale byte, the elements and the flags. -/
def mxBlock (f : Fmt) (md : Mode) (xs : List FVal) : Nat × List Nat × Flags :=
  if xs.any (fun x => !x.isFin) then (0xFF, xs.map (fun _ => 0), fNV)
  else
    let a := xs.foldl maxMag (.fin false 0 0)
    let emax : Int := match f with
      | .e4m3 => 8
      | .e5m2 => 15
      | _ => 2
    let u0 : Int := match a with
      | .fin _ m e => if m = 0 then -127 else (Nat.log2 m : Int) + e - emax
      | _ => -127
    let u := clampI (-127) 127 u0
    let rs := xs.map (fun x => fit f { md with sat := true, ftz := false } (scaleV (-u) x))
    ((u + 127).toNat, rs.map FR.bits, rs.foldl (fun fl r => fl ||| r.flags) (fIf (decide (127 < u0)) fSC))

/-! Exact sums of many terms -/

/-- A sum of exact terms (R62, R223, R228, R231): specials seen, the finite part, and whether some term is not -0. -/
structure ESum where
  nan : Bool := false
  pinf : Bool := false
  ninf : Bool := false
  m : Int := 0
  e : Int := 0
  notNegZero : Bool := false
  any : Bool := false
deriving DecidableEq, Repr

/-- One more term. -/
def ESum.add (s : ESum) : FVal → ESum
  | .nan => { s with nan := true, any := true, notNegZero := true }
  | .inf false => { s with pinf := true, any := true, notNegZero := true }
  | .inf true => { s with ninf := true, any := true, notNegZero := true }
  | .fin n m e =>
    let s' := { s with any := true, notNegZero := s.notNegZero || !(n && m == 0) }
    if m = 0 then s'
    else if s.m = 0 then { s' with m := signed n m, e := e }
    else
      let e0 := if s.e ≤ e then s.e else e
      { s' with
        m := s.m * (2 ^ (s.e - e0).toNat : Nat) + signed n m * (2 ^ (e - e0).toNat : Nat)
        e := e0 }

/-- The sum's value; an exact zero is +0 unless every term is -0 (R62). -/
def ESum.value (s : ESum) : FVal :=
  if s.nan || (s.pinf && s.ninf) then .nan
  else if s.pinf then .inf false
  else if s.ninf then .inf true
  else if s.m = 0 then .fin (s.any && !s.notNegZero) 0 0
  else .fin (decide (s.m < 0)) s.m.natAbs s.e

end Sys2Proof.Machine
end

