-- ==== Sys2Proof/Machine/Arith.lean ====
section
/-! DEFINITION. Arithmetic on the bits of one element (R45, R53 to R58, R170, R220, R223 to R225): the value and the flags. -/

namespace Sys2Proof.Machine

/-- NV of signalling NaN operands (R45). -/
def snan (f : Fmt) (l : List Nat) : Flags := fIf (l.any f.isSnan) fNV

/-- A result delivered, NV set when it is NaN and no operand was (R45). -/
def deliverV (f : Fmt) (md : Mode) (l : List FVal) (fl : Flags) (v : FVal) : FR :=
  let r := fit f md v
  { bits := r.bits, flags := r.flags ||| fl ||| fIf (v.isNaN && !l.any FVal.isNaN) fNV }

/-- NV of a sum that holds infinities of opposite sign, whatever else it holds (R228, R231). -/
def infMeet (l : List FVal) : Flags := fIf (l.contains (.inf false) && l.contains (.inf true)) fNV

/-- Addition (R223). -/
def fAdd (f : Fmt) (md : Mode) (x y : Nat) : FR :=
  let a := f.operand md.ftz x
  let b := f.operand md.ftz y
  deliverV f md [a, b] (snan f [x, y]) (addV md.rm a b)

/-- Subtraction (R223). -/
def fSub (f : Fmt) (md : Mode) (x y : Nat) : FR :=
  let a := f.operand md.ftz x
  let b := f.operand md.ftz y
  deliverV f md [a, b] (snan f [x, y]) (addV md.rm a (negV b))

/-- Multiplication (R223). -/
def fMul (f : Fmt) (md : Mode) (x y : Nat) : FR :=
  let a := f.operand md.ftz x
  let b := f.operand md.ftz y
  deliverV f md [a, b] (snan f [x, y]) (mulV a b)

/-- x · y + z, or z - x · y, exact and rounded once (R223); zero times infinity is invalid whatever z is. -/
def fFma (f : Fmt) (md : Mode) (minus : Bool) (x y z : Nat) : FR :=
  let a := f.operand md.ftz x
  let b := f.operand md.ftz y
  let c := f.operand md.ftz z
  let p := mulV a b
  let r := if minus then addV md.rm c (negV p) else addV md.rm p c
  let r1 := deliverV f md [a, b, c] (snan f [x, y, z]) r
  { r1 with flags := r1.flags ||| fIf (p.isNaN && !a.isNaN && !b.isNaN) fNV }

/-- Minimum and maximum of IEEE 754-2019 (R170). -/
def fMinMax (f : Fmt) (md : Mode) (max : Bool) (x y : Nat) : FR :=
  let a := f.operand md.ftz x
  let b := f.operand md.ftz y
  deliverV f md [a, b] (snan f [x, y]) (if max then maxV a b else minV a b)

/-- The sign bit cleared or changed (R220). -/
def fAbs (f : Fmt) (x : Nat) : FR := { bits := x % 2 ^ (f.ebits + f.mbits) }
def fNeg (f : Fmt) (x : Nat) : FR :=
  let t := 2 ^ (f.ebits + f.mbits)
  { bits := if x / t % 2 = 1 then x % t else t + x % t }

/-- An infinity with a flag. -/
def infFR (f : Fmt) (neg : Bool) (fl : Flags) : FR := { bits := f.sign neg + f.infCode, flags := fl }

/-- A NaN operand's result (R45). -/
def nanFR (f : Fmt) (fl : Flags) : FR := { bits := f.nanCode, flags := fl }

/-- VDIV (R223, R224). -/
def fDiv (f : Fmt) (md : Mode) (x y : Nat) : FR :=
  match f.operand md.ftz x, f.operand md.ftz y with
  | .nan, _ => nanFR f (snan f [x, y])
  | _, .nan => nanFR f (snan f [x, y])
  | .inf _, .inf _ => invalid f
  | .inf a, .fin n _ _ => infFR f (a != n) 0
  | .fin n _ _, .inf b => { bits := f.sign (n != b) }
  | .fin n1 m1 e1, .fin n2 m2 e2 =>
    if m2 = 0 then (if m1 = 0 then invalid f else infFR f (n1 != n2) fDZ)
    else if m1 = 0 then { bits := f.sign (n1 != n2) }
    else divTo f md (n1 != n2) m1 e1 m2 e2

/-- VSQRT (R223, R224). -/
def fSqrt (f : Fmt) (md : Mode) (x : Nat) : FR :=
  match f.operand md.ftz x with
  | .nan => nanFR f (snan f [x])
  | .inf true => invalid f
  | .inf false => infFR f false 0
  | .fin n m e => if m = 0 then { bits := f.sign n } else if n then invalid f else sqrtTo f md m e

/-- VRCP (R223, R224). -/
def fRcp (f : Fmt) (md : Mode) (x : Nat) : FR :=
  match f.operand md.ftz x with
  | .nan => nanFR f (snan f [x])
  | .inf n => { bits := f.sign n }
  | .fin n m e => if m = 0 then infFR f n fDZ else divTo f md n 1 0 m e

/-- VRSQ (R223, R224). -/
def fRsq (f : Fmt) (md : Mode) (x : Nat) : FR :=
  match f.operand md.ftz x with
  | .nan => nanFR f (snan f [x])
  | .inf true => invalid f
  | .inf false => { bits := 0 }
  | .fin n m e => if m = 0 then infFR f n fDZ else if n then invalid f else rsqrtTo f md m e

/-- VEXP2 (R223, R224). -/
def fExp2 (f : Fmt) (md : Mode) (x : Nat) : FR :=
  match f.operand md.ftz x with
  | .nan => nanFR f (snan f [x])
  | .inf true => { bits := 0 }
  | .inf false => infFR f false 0
  | .fin n m e => exp2To f md n m e

/-- VLOG2 (R223, R224). -/
def fLog2 (f : Fmt) (md : Mode) (x : Nat) : FR :=
  match f.operand md.ftz x with
  | .nan => nanFR f (snan f [x])
  | .inf true => invalid f
  | .inf false => infFR f false 0
  | .fin n m e => if m = 0 then infFR f true fDZ else if n then invalid f else log2To f md m e

/-- A comparison of two elements (R225): whether the relation holds, and NV. -/
inductive Rel where
  | eq | lt | le
deriving DecidableEq, Repr

def fRel (f : Fmt) (md : Mode) (r : Rel) (x y : Nat) : Bool × Flags :=
  let a := f.operand md.ftz x
  let b := f.operand md.ftz y
  let nan := a.isNaN || b.isNaN
  match r with
  | .eq => (eqV a b, snan f [x, y])
  | .lt => (ltV a b, fIf nan fNV)
  | .le => (leV a b, fIf nan fNV)

end Sys2Proof.Machine
end

