-- ==== Sys2Proof/WellFormed.lean ====
section
/-! DEFINITION. Which terms of Instr stand for a word: the checks of R109 that the types of Syntax do not already make.
A term that fails one has no encoding, and the decoder answers no such term. -/

namespace Sys2Proof

/-- The type is one of the integer types i32, i16, i8 (R218). -/
def VType.isInt : VType → Bool
  | .i32 | .i16 | .i8 => true
  | .c1 | .f32 | .bf16 | .f16 | .e4m3 | .e5m2 => false

/-- The VCVT source is a float format (R227). -/
def SType.isFloat : SType → Bool
  | .f32 | .bf16 | .f16 | .e4m3 | .e5m2 | .f64 | .e2m1 => true
  | .i32 | .u32 | .i16 | .i8 | .i4 | .u16 | .u8 => false

/-- The types that the arithmetic of R223, its VSC forms and VRSUM round: f32, bf16, f16, and code 1 as f64 (R218, R223,
R229, R231). -/
def VType.roundsArith : VType → Bool
  | .f32 | .bf16 | .f16 | .c1 => true
  | .i32 | .i16 | .i8 | .e4m3 | .e5m2 => false

/-- The types that VEXP2 and VLOG2 round (R223). -/
def VType.roundsExp : VType → Bool
  | .f32 | .bf16 | .f16 => true
  | .i32 | .c1 | .i16 | .i8 | .e4m3 | .e5m2 => false

/-- The types that VDOT rounds (R228). -/
def VType.roundsDot : VType → Bool
  | .bf16 | .f16 | .e4m3 | .e5m2 => true
  | .i32 | .c1 | .f32 | .i16 | .i8 => false

/-- The types that VSCAN rounds (R231). -/
def VType.roundsScan : VType → Bool
  | .f32 | .c1 => true
  | .i32 | .bf16 | .f16 | .i16 | .i8 | .e4m3 | .e5m2 => false

/-- R99, R218: a rounding source other than RMODE is refused on an integer type and on a type that the minor does not round.
Code 1 of a minor that does not take it counts as such a type (log 66). -/
def rsOk (rounds : Bool) (rs : RSrc) : Bool := rs == .rmode || rounds

/-- R227: VCVT takes a rounding source whenever either side is a float type. -/
def rsOkCvt (ty : VType) (st : SType) (rs : RSrc) : Bool := rs == .rmode || !ty.isInt || st.isFloat

/-- R95: a register that names a pair is not v15. -/
def pairOk (v : BitVec 4) : Bool := v != 15

/-- RCOVER: without the flag the register field is reserved, with it the register names a pair (R318). -/
def rcoverOk (f : Bool) (e : BitVec 4) : Bool := if f then pairOk e else e == 0

/-- The term stands for an instruction word, or for a step without an encoding. -/
def Instr.wf : Instr → Bool
  | .segr _ _ s => s.toNat < 3
  | .ident _ s => s.toNat < 3
  | .rdcyc _ s => s.toNat < 3
  | .vadd _ _ _ _ ty rs => rsOk ty.roundsArith rs
  | .vsub _ _ _ _ ty rs => rsOk ty.roundsArith rs
  | .vmul _ _ _ _ ty rs => rsOk ty.roundsArith rs
  | .vfma _ _ _ _ ty rs => rsOk ty.roundsArith rs
  | .vfms _ _ _ _ ty rs => rsOk ty.roundsArith rs
  | .vdiv _ _ _ _ ty rs => rsOk ty.roundsArith rs
  | .vsqrt _ _ _ ty rs => rsOk ty.roundsArith rs
  | .vrcp _ _ _ ty rs => rsOk ty.roundsArith rs
  | .vrsq _ _ _ ty rs => rsOk ty.roundsArith rs
  | .vexp2 _ _ _ ty rs => rsOk ty.roundsExp rs
  | .vlog2 _ _ _ ty rs => rsOk ty.roundsExp rs
  | .vcvt _ _ s _ ty rs => rsOkCvt ty s rs
  | .vdot _ _ _ _ ty rs => rsOk ty.roundsDot rs
  | .vadds _ _ _ _ ty rs => rsOk ty.roundsArith rs
  | .vmuls _ _ _ _ ty rs => rsOk ty.roundsArith rs
  | .vfmas _ _ _ _ ty rs => rsOk ty.roundsArith rs
  | .vzip d _ _ _ => pairOk d
  | .vunzip d _ _ _ => pairOk d
  | .vrsum _ _ _ ty rs => rsOk ty.roundsArith rs
  | .vscan _ _ _ ty rs => rsOk ty.roundsScan rs
  | .drrow d => pairOk d
  | .drdone a => pairOk a
  | .ssrch d _ _ => pairOk d
  | .rcover _ _ _ f e => rcoverOk f e
  | .blnda d _ _ o => o.toNat < 4 && pairOk d
  | .lwarp d _ _ _ => pairOk d
  | .lerr _ _ n => n.toNat < 5
  | .lres d a b _ => pairOk d && pairOk a && pairOk b
  | .add .. | .sub .. | .and .. | .or .. | .xor .. | .andn .. | .sll .. | .srl .. | .sra .. | .mul ..
  | .mulh .. | .mulhu .. | .div .. | .divu .. | .rem .. | .remu .. | .min .. | .max .. | .minu .. | .maxu ..
  | .ceq .. | .cne .. | .clt .. | .cltu .. | .cle .. | .cleu .. | .clz .. | .ctz .. | .popc .. | .padd ..
  | .ptag .. | .psett .. | .cmovnz .. | .cmovz .. | .addi .. | .andi .. | .ori .. | .xori .. | .slli ..
  | .srli .. | .srai .. | .ceqi .. | .clti .. | .cltui .. | .muli .. | .paddi .. | .imz .. | .imk .. | .bz ..
  | .bnz .. | .blt .. | .bge .. | .bgt .. | .ble .. | .jal .. | .jalr .. | .ld .. | .lds .. | .st ..
  | .lda .. | .stl .. | .nop | .yield | .stop | .csrr .. | .csrw .. | .csrset .. | .csrclr .. | .segw ..
  | .trap .. | .brk .. | .tret | .uret | .frec .. | .ctxsv .. | .ctxld .. | .mark .. | .aadd .. | .aand ..
  | .aor .. | .axor .. | .amin .. | .amax .. | .aminu .. | .amaxu .. | .aswap .. | .acas .. | .aaddf ..
  | .aminf .. | .amaxf .. | .dadd .. | .dand .. | .dor .. | .dmin .. | .dmax .. | .daddf .. | .dminf ..
  | .dmaxf .. | .go .. | .home | .where .. | .stay | .farld .. | .farst .. | .kset .. | .kadd .. | .kread ..
  | .kwait .. | .koff .. | .send .. | .sendv .. | .recv .. | .allow .. | .avail .. | .fence .. | .barset ..
  | .bar .. | .bara .. | .barw .. | .waitw .. | .publish .. | .acquire .. | .hstart .. | .hjoin ..
  | .hstat .. | .launch .. | .lstat .. | .vmin .. | .vmax .. | .vabs .. | .vneg .. | .vand .. | .vor ..
  | .vxor .. | .vshl .. | .vshr .. | .vsar .. | .vceq .. | .vclt .. | .vcle .. | .vsel .. | .vmov ..
  | .vmins .. | .vmaxs .. | .vsplat .. | .vins .. | .vext .. | .vperm .. | .vrot .. | .vcmpr .. | .vexpd ..
  | .viota .. | .vrmax .. | .vrmin .. | .vrand .. | .vror .. | .vld .. | .vst .. | .vlds .. | .vsts ..
  | .vgath .. | .vscat .. | .pand .. | .por .. | .pxor .. | .pnot .. | .pcnt .. | .pfirst .. | .psetn ..
  | .rdef .. | .rwaitf .. | .rwaite .. | .radvh .. | .radvt .. | .rhead .. | .rtail .. | .rbind ..
  | .runbind .. | .copy .. | .copyg .. | .copys .. | .copyw .. | .bget .. | .bpeek .. | .bskip .. | .balign
  | .bput .. | .bflush .. | .bhuf .. | .blzc .. | .bnext .. | .bfail .. | .mma .. | .mmaj .. | .mmas ..
  | .mlda .. | .msta .. | .mzero .. | .mwait | .mstat .. | .mchk .. | .sexp .. | .sproj .. | .schk ..
  | .lfsr .. | .srec .. | .prdef .. | .prdel .. | .prdone | .prfail .. | .prstate .. | .previct ..
  | .prtouch .. | .rview .. | .rsetup .. | .rbox .. | .rtri .. | .rbin .. | .ordb .. | .orde .. | .ordtok ..
  | .ldefDef .. | .ldefRet .. | .ldefPose .. | .lprice .. | .lframe .. | .lreq .. | .lsplit .. | .lmerge ..
  | .ldep .. | .lorder .. => true
  | .instructionFetch | .chargedCauseDeliver | .storePathError | .upcallDeliver | .waitWake
  | .announcementArrive | .acceptRecord | .placePour | .controlContextStart | .zeroFillStep | .shotRetire
  | .sliceExpire | .preemptCut | .markerArrive | .pourResume | .checkpointStored | .helperAssign
  | .kettleDecrement | .messageArrive | .allowGrantArrive | .dripArrive | .migrationArrive | .visitorAdmit
  | .txwakeStart | .barrierSweepHop | .copyStart | .copyComplete | .bstrDeliver | .matrixOpStart
  | .matrixOpComplete | .joinComputeBegin | .joinAbandon | .layerCloseProcess | .layerPostRecords
  | .lsplitCsrWrite | .txwakeCsrWrite | .fdutyUpdate | .forcedClockSkip | .hbmBudgetRefill
  | .selfRefreshEnter | .clockSweeperVisit | .corePowerUp | .corePowerOff | .deviceReset | .fullService
  | .mread | .mwrite | .kmsg | .tset | .tget | .dset | .inval | .treset | .pcmdStop | .pcmdResume
  | .pcmdDiscard | .pcmdResumeCheckpoint | .pcmdReadState | .pcmdWriteState | .resync | .attest | .cupLoad
  | .cupBreak | .cupLaunch | .cupContinue | .cupRegs | .cupRing | .cupMq | .cupShape | .cupTile | .cupExamine
  | .cupCsr | .cupCtx | .cupFill | .cupRegsAt | .cupCsrAt | .cupDelete | .cupKettle | .cupLayer | .cupPreds
  | .cupDeps | .selfRefreshExit | .stackTrained => true

end Sys2Proof
end

