-- ==== Sys2Proof/Decode.lean ====
section
/-! DEFINITION. Decoding (R91, R93 to R109): total on any word and on any bytes, every word that is not an instruction
refused under a name of R109. The encoder stands below, written from the same tables. -/

namespace Sys2Proof

/-- Why a word is not an instruction: one name for each case of R109. -/
inductive DecErr where
  | majorUnassigned | minorUnassigned | reserved | regClass | pair | wRefused | typeBits | fxRefused | cond | xf
  | fenceScope | truncated
deriving DecidableEq, Repr

/-- The instructions of the LAYER group with their fields. They are the last of Instr's constructors with fields, whose
numbers Lean's compiled code cannot build; decoding answers them in this type, so that the machine can be run. -/
inductive LayerOp where
  | ldefDef (a : BitVec 5)
  | ldefRet (a : BitVec 5)
  | ldefPose (a : BitVec 5) (b : BitVec 5)
  | lwarp (d : BitVec 4) (a : BitVec 5) (b : BitVec 4) (p : BitVec 3)
  | lerr (d : BitVec 5) (a : BitVec 5) (n : BitVec 5)
  | lprice (a : BitVec 5) (b : BitVec 5)
  | lframe (d : BitVec 5)
  | lreq (d : BitVec 5) (a : BitVec 5) (n : Bool)
  | lsplit (a : BitVec 5) (b : BitVec 5)
  | lmerge (a : BitVec 5) (b : BitVec 5)
  | ldep (d : BitVec 5) (a : BitVec 5) (b : BitVec 5)
  | lorder (a : BitVec 5) (b : BitVec 5)
  | lres (d : BitVec 4) (a : BitVec 4) (b : BitVec 4) (p : BitVec 3)
deriving DecidableEq, Repr

/-- The instruction a LAYER word stands for. -/
noncomputable def LayerOp.instr : LayerOp → Instr
  | .ldefDef a => .ldefDef a
  | .ldefRet a => .ldefRet a
  | .ldefPose a b => .ldefPose a b
  | .lwarp d a b p => .lwarp d a b p
  | .lerr d a n => .lerr d a n
  | .lprice a b => .lprice a b
  | .lframe d => .lframe d
  | .lreq d a n => .lreq d a n
  | .lsplit a b => .lsplit a b
  | .lmerge a b => .lmerge a b
  | .ldep d a b => .ldep d a b
  | .lorder a b => .lorder a b
  | .lres d a b p => .lres d a b p

/-- A decoded word, in a form compiled code can build. -/
inductive Code where
  | core (i : Instr)
  | layer (l : LayerOp)
deriving DecidableEq, Repr

/-- The instruction a decoded word stands for. -/
noncomputable def Code.instr : Code → Instr
  | .core i => i
  | .layer l => l.instr

/-- What decoding answers. -/
abbrev Dec := Except DecErr Code

/-- The field of `n` bits whose lowest bit is bit `lo` of the word (R3). -/
def fld (w lo n : Nat) : Nat := w / 2 ^ lo % 2 ^ n

/-- The same field as a bit vector. -/
def bv (n w lo : Nat) : BitVec n := BitVec.ofNat n (w / 2 ^ lo)

/-- One bit of the word. -/
def flag (w lo : Nat) : Bool := w / 2 ^ lo % 2 == 1

/-- R96, R94: the fields listed, as (lowest bit, width), are zero, or the word is refused. -/
def zeros (w : Nat) (e : DecErr) (l : List (Nat × Nat)) (k : Dec) : Dec :=
  if l.all (fun f => fld w f.1 f.2 == 0) then k else .error e

/-- A field with named values: a value without a name is refused. -/
def opt {α : Type} (e : DecErr) (o : Option α) (k : α → Dec) : Dec :=
  match o with
  | some a => k a
  | none => .error e

/-- The checks of WellFormed that remain after the fields are read. -/
def wfOr (e : DecErr) (i : Instr) : Dec := if i.wf then .ok (.core i) else .error e

/-- The same for a LAYER word (R318, R346): pair registers and the selector of LERR. -/
def LayerOp.wf : LayerOp → Bool
  | .lwarp d _ _ _ => pairOk d
  | .lerr _ _ n => n.toNat < 5
  | .lres d a b _ => pairOk d && pairOk a && pairOk b
  | .ldefDef _ | .ldefRet _ | .ldefPose _ _ | .lprice _ _ | .lframe _ | .lreq _ _ _ | .lsplit _ _ | .lmerge _ _ | .ldep _ _ _
  | .lorder _ _ => true

/-- The checks of a LAYER word that remain after its fields are read. -/
def layOr (e : DecErr) (l : LayerOp) : Dec := if l.wf then .ok (.layer l) else .error e

/-- typ[4:2] and E (R99): E is set only with type 7. -/
def VType.ofCode (t : Nat) (e : Bool) : Option VType :=
  match t, e with
  | 0, false => some .i32
  | 1, false => some .c1
  | 2, false => some .f32
  | 3, false => some .bf16
  | 4, false => some .f16
  | 5, false => some .i16
  | 6, false => some .i8
  | 7, false => some .e4m3
  | 7, true => some .e5m2
  | _, _ => none

/-- typ[1:0] (R99). -/
def RSrc.ofCode : Nat → RSrc
  | 0 => .rmode
  | 1 => .rne
  | 2 => .rtz
  | _ => .rna

/-- The source code of VCVT (R227). -/
def SType.ofCode : Nat → Option SType
  | 0 => some .i32
  | 1 => some .u32
  | 2 => some .f32
  | 3 => some .bf16
  | 4 => some .f16
  | 5 => some .i16
  | 6 => some .i8
  | 7 => some .e4m3
  | 8 => some .e5m2
  | 9 => some .f64
  | 10 => some .i4
  | 11 => some .e2m1
  | 12 => some .u16
  | 13 => some .u8
  | _ => none

/-- The transform code (R103). -/
def Xf.ofCode : Nat → Option Xf
  | 0 => some .none
  | 1 => some .cvt
  | 2 => some .pack
  | 3 => some .unpk
  | 4 => some .tran
  | 5 => some .mxq
  | 6 => some .sexp
  | 7 => some .dlta
  | 8 => some .bstr
  | _ => Option.none

/-- A scope code (R104). -/
def Scope.ofCode : Nat → Option Scope
  | 0 => some .core
  | 1 => some .clus
  | 2 => some .die
  | 3 => some .dev
  | 4 => some .fab
  | _ => none

/-- A fence kind code (R104). -/
def FKind.ofCode : Nat → FKind
  | 0 => .acq
  | 1 => .rel
  | 2 => .full
  | _ => .eng

/-- The order bits of an atomic (R98). -/
def AOrd.ofCode : Nat → AOrd
  | 0 => .rlx
  | 1 => .acq
  | 2 => .rel
  | _ => .ar

/-- The type field of FV and FVS, with E at bit `eLo` (R99). -/
def typ (w eLo : Nat) (k : VType → Dec) : Dec := opt .typeBits (VType.ofCode (fld w 2 3) (flag w eLo)) k

/-- Major 0x01, group ALU (R105, R106). -/
def decAlu (w : Nat) : Dec :=
  match fld w 5 6 with
  | 0 => zeros w .reserved [(1, 4)] <| .ok (.core (.add (bv 5 w 21) (bv 5 w 16) (bv 5 w 11) (flag w 0)))
  | 1 => zeros w .reserved [(1, 4)] <| .ok (.core (.sub (bv 5 w 21) (bv 5 w 16) (bv 5 w 11) (flag w 0)))
  | 2 => zeros w .reserved [(1, 4)] <| .ok (.core (.and (bv 5 w 21) (bv 5 w 16) (bv 5 w 11) (flag w 0)))
  | 3 => zeros w .reserved [(1, 4)] <| .ok (.core (.or (bv 5 w 21) (bv 5 w 16) (bv 5 w 11) (flag w 0)))
  | 4 => zeros w .reserved [(1, 4)] <| .ok (.core (.xor (bv 5 w 21) (bv 5 w 16) (bv 5 w 11) (flag w 0)))
  | 5 => zeros w .reserved [(1, 4)] <| .ok (.core (.andn (bv 5 w 21) (bv 5 w 16) (bv 5 w 11) (flag w 0)))
  | 6 => zeros w .reserved [(1, 4)] <| .ok (.core (.sll (bv 5 w 21) (bv 5 w 16) (bv 5 w 11) (flag w 0)))
  | 7 => zeros w .reserved [(1, 4)] <| .ok (.core (.srl (bv 5 w 21) (bv 5 w 16) (bv 5 w 11) (flag w 0)))
  | 8 => zeros w .reserved [(1, 4)] <| .ok (.core (.sra (bv 5 w 21) (bv 5 w 16) (bv 5 w 11) (flag w 0)))
  | 9 => zeros w .reserved [(1, 4)] <| .ok (.core (.mul (bv 5 w 21) (bv 5 w 16) (bv 5 w 11) (flag w 0)))
  | 10 => zeros w .reserved [(1, 4)] <| zeros w .wRefused [(0, 1)] <| .ok (.core (.mulh (bv 5 w 21) (bv 5 w 16) (bv 5 w 11)))
  | 11 => zeros w .reserved [(1, 4)] <| zeros w .wRefused [(0, 1)] <| .ok (.core (.mulhu (bv 5 w 21) (bv 5 w 16) (bv 5 w 11)))
  | 12 => zeros w .reserved [(1, 4)] <| .ok (.core (.div (bv 5 w 21) (bv 5 w 16) (bv 5 w 11) (flag w 0)))
  | 13 => zeros w .reserved [(1, 4)] <| .ok (.core (.divu (bv 5 w 21) (bv 5 w 16) (bv 5 w 11) (flag w 0)))
  | 14 => zeros w .reserved [(1, 4)] <| .ok (.core (.rem (bv 5 w 21) (bv 5 w 16) (bv 5 w 11) (flag w 0)))
  | 15 => zeros w .reserved [(1, 4)] <| .ok (.core (.remu (bv 5 w 21) (bv 5 w 16) (bv 5 w 11) (flag w 0)))
  | 16 => zeros w .reserved [(1, 4)] <| .ok (.core (.min (bv 5 w 21) (bv 5 w 16) (bv 5 w 11) (flag w 0)))
  | 17 => zeros w .reserved [(1, 4)] <| .ok (.core (.max (bv 5 w 21) (bv 5 w 16) (bv 5 w 11) (flag w 0)))
  | 18 => zeros w .reserved [(1, 4)] <| .ok (.core (.minu (bv 5 w 21) (bv 5 w 16) (bv 5 w 11) (flag w 0)))
  | 19 => zeros w .reserved [(1, 4)] <| .ok (.core (.maxu (bv 5 w 21) (bv 5 w 16) (bv 5 w 11) (flag w 0)))
  | 20 => zeros w .reserved [(1, 4)] <| .ok (.core (.ceq (bv 5 w 21) (bv 5 w 16) (bv 5 w 11) (flag w 0)))
  | 21 => zeros w .reserved [(1, 4)] <| .ok (.core (.cne (bv 5 w 21) (bv 5 w 16) (bv 5 w 11) (flag w 0)))
  | 22 => zeros w .reserved [(1, 4)] <| .ok (.core (.clt (bv 5 w 21) (bv 5 w 16) (bv 5 w 11) (flag w 0)))
  | 23 => zeros w .reserved [(1, 4)] <| .ok (.core (.cltu (bv 5 w 21) (bv 5 w 16) (bv 5 w 11) (flag w 0)))
  | 24 => zeros w .reserved [(1, 4)] <| .ok (.core (.cle (bv 5 w 21) (bv 5 w 16) (bv 5 w 11) (flag w 0)))
  | 25 => zeros w .reserved [(1, 4)] <| .ok (.core (.cleu (bv 5 w 21) (bv 5 w 16) (bv 5 w 11) (flag w 0)))
  | 26 => zeros w .reserved [(1, 4), (11, 5)] <| .ok (.core (.clz (bv 5 w 21) (bv 5 w 16) (flag w 0)))
  | 27 => zeros w .reserved [(1, 4), (11, 5)] <| .ok (.core (.ctz (bv 5 w 21) (bv 5 w 16) (flag w 0)))
  | 28 => zeros w .reserved [(1, 4), (11, 5)] <| .ok (.core (.popc (bv 5 w 21) (bv 5 w 16) (flag w 0)))
  | 29 => zeros w .reserved [(1, 4)] <| zeros w .wRefused [(0, 1)] <| .ok (.core (.padd (bv 5 w 21) (bv 5 w 16) (bv 5 w 11)))
  | 30 => zeros w .reserved [(1, 4), (11, 5)] <| zeros w .wRefused [(0, 1)] <| .ok (.core (.ptag (bv 5 w 21) (bv 5 w 16)))
  | 31 => zeros w .reserved [(1, 4)] <| zeros w .wRefused [(0, 1)] <| .ok (.core (.psett (bv 5 w 21) (bv 5 w 16) (bv 5 w 11)))
  | 32 => zeros w .reserved [(1, 4)] <| zeros w .wRefused [(0, 1)] <| .ok (.core (.cmovnz (bv 5 w 21) (bv 5 w 16) (bv 5 w 11)))
  | 33 => zeros w .reserved [(1, 4)] <| zeros w .wRefused [(0, 1)] <| .ok (.core (.cmovz (bv 5 w 21) (bv 5 w 16) (bv 5 w 11)))
  | _ => .error .minorUnassigned

/-- Major 0x02, group ALUI (R105, R106). -/
def decAlui (w : Nat) : Dec :=
  match fld w 12 4 with
  | 0 => .ok (.core (.addi (bv 5 w 21) (bv 5 w 16) (bv 12 w 0)))
  | 1 => .ok (.core (.andi (bv 5 w 21) (bv 5 w 16) (bv 12 w 0)))
  | 2 => .ok (.core (.ori (bv 5 w 21) (bv 5 w 16) (bv 12 w 0)))
  | 3 => .ok (.core (.xori (bv 5 w 21) (bv 5 w 16) (bv 12 w 0)))
  | 4 => zeros w .reserved [(6, 6)] <| .ok (.core (.slli (bv 5 w 21) (bv 5 w 16) (bv 6 w 0)))
  | 5 => zeros w .reserved [(6, 6)] <| .ok (.core (.srli (bv 5 w 21) (bv 5 w 16) (bv 6 w 0)))
  | 6 => zeros w .reserved [(6, 6)] <| .ok (.core (.srai (bv 5 w 21) (bv 5 w 16) (bv 6 w 0)))
  | 7 => .ok (.core (.ceqi (bv 5 w 21) (bv 5 w 16) (bv 12 w 0)))
  | 8 => .ok (.core (.clti (bv 5 w 21) (bv 5 w 16) (bv 12 w 0)))
  | 9 => .ok (.core (.cltui (bv 5 w 21) (bv 5 w 16) (bv 12 w 0)))
  | 10 => .ok (.core (.muli (bv 5 w 21) (bv 5 w 16) (bv 12 w 0)))
  | 11 => .ok (.core (.paddi (bv 5 w 21) (bv 5 w 16) (bv 12 w 0)))
  | _ => .error .minorUnassigned

/-- Major 0x03, group IM (R105, R106). -/
def decIm (w : Nat) : Dec :=
  match fld w 18 1 with
  | 0 => zeros w .reserved [(16, 2)] <| .ok (.core (.imz (bv 5 w 21) (bv 2 w 19) (bv 16 w 0)))
  | _ => zeros w .reserved [(16, 2)] <| .ok (.core (.imk (bv 5 w 21) (bv 2 w 19) (bv 16 w 0)))

/-- Major 0x08, group BR (R105, R106). -/
def decBr (w : Nat) : Dec :=
  match fld w 23 3 with
  | 0 => .ok (.core (.bz (bv 5 w 18) (bv 18 w 0)))
  | 1 => .ok (.core (.bnz (bv 5 w 18) (bv 18 w 0)))
  | 2 => .ok (.core (.blt (bv 5 w 18) (bv 18 w 0)))
  | 3 => .ok (.core (.bge (bv 5 w 18) (bv 18 w 0)))
  | 4 => .ok (.core (.bgt (bv 5 w 18) (bv 18 w 0)))
  | 5 => .ok (.core (.ble (bv 5 w 18) (bv 18 w 0)))
  | _ => .error .cond

/-- Major 0x09, group JAL (R105, R106). -/
def decJal (w : Nat) : Dec :=
  .ok (.core (.jal (bv 5 w 21) (bv 21 w 0)))

/-- Major 0x0A, group JALR (R105, R106). -/
def decJalr (w : Nat) : Dec :=
  .ok (.core (.jalr (bv 5 w 21) (bv 5 w 16) (bv 16 w 0)))

/-- Major 0x0C, group LD (R105, R106). -/
def decLd (w : Nat) : Dec :=
  .ok (.core (.ld (bv 5 w 21) (bv 5 w 16) (bv 3 w 13) (bv 2 w 11) (bv 11 w 0)))

/-- Major 0x0D, group LDS (R105, R106). -/
def decLds (w : Nat) : Dec :=
  .ok (.core (.lds (bv 5 w 21) (bv 5 w 16) (bv 3 w 13) (bv 2 w 11) (bv 11 w 0)))

/-- Major 0x0E, group ST (R105, R106). -/
def decSt (w : Nat) : Dec :=
  .ok (.core (.st (bv 5 w 21) (bv 5 w 16) (bv 3 w 13) (bv 2 w 11) (bv 11 w 0)))

/-- Major 0x0F, group LDA (R105, R106). -/
def decLda (w : Nat) : Dec :=
  .ok (.core (.lda (bv 5 w 21) (bv 5 w 16) (bv 3 w 13) (bv 2 w 11) (bv 11 w 0)))

/-- Major 0x10, group STL (R105, R106). -/
def decStl (w : Nat) : Dec :=
  .ok (.core (.stl (bv 5 w 21) (bv 5 w 16) (bv 3 w 13) (bv 2 w 11) (bv 11 w 0)))

/-- Major 0x11, group SYS (R105, R106). -/
def decSys (w : Nat) : Dec :=
  match fld w 5 6 with
  | 0 => zeros w .reserved [(0, 5), (11, 15)] <| .ok (.core .nop)
  | 1 => zeros w .reserved [(0, 5), (11, 15)] <| .ok (.core .yield)
  | 2 => zeros w .reserved [(0, 5), (11, 15)] <| .ok (.core .stop)
  | 3 => zeros w .reserved [(16, 5)] <| .ok (.core (.csrr (bv 5 w 21) (bv 5 w 11) (bv 5 w 0)))
  | 4 => zeros w .reserved [(21, 5)] <| .ok (.core (.csrw (bv 5 w 16) (bv 5 w 11) (bv 5 w 0)))
  | 5 => zeros w .reserved [(21, 5)] <| .ok (.core (.csrset (bv 5 w 16) (bv 5 w 11) (bv 5 w 0)))
  | 6 => zeros w .reserved [(21, 5)] <| .ok (.core (.csrclr (bv 5 w 16) (bv 5 w 11) (bv 5 w 0)))
  | 7 => zeros w .reserved [(0, 5), (24, 2)] <| .ok (.core (.segw (bv 3 w 21) (bv 5 w 16) (bv 5 w 11)))
  | 8 => zeros w .reserved [(11, 5), (19, 2)] <| wfOr .reserved (.segr (bv 5 w 21) (bv 3 w 16) (bv 5 w 0))
  | 9 => zeros w .reserved [(11, 10)] <| wfOr .reserved (.ident (bv 5 w 21) (bv 5 w 0))
  | 10 => zeros w .reserved [(11, 10)] <| wfOr .reserved (.rdcyc (bv 5 w 21) (bv 5 w 0))
  | 11 => zeros w .reserved [(0, 5), (11, 5), (21, 5)] <| .ok (.core (.trap (bv 5 w 16)))
  | 12 => zeros w .reserved [(11, 15)] <| .ok (.core (.brk (bv 5 w 0)))
  | 13 => zeros w .reserved [(0, 5), (11, 15)] <| .ok (.core .tret)
  | 14 => zeros w .reserved [(0, 5), (11, 15)] <| .ok (.core .uret)
  | 15 => zeros w .regClass [(25, 1)] <| zeros w .reserved [(0, 5), (11, 10)] <| .ok (.core (.frec (bv 4 w 21)))
  | 16 => zeros w .reserved [(0, 5), (11, 5)] <| .ok (.core (.ctxsv (bv 5 w 21) (bv 5 w 16)))
  | 17 => zeros w .reserved [(0, 5), (11, 5)] <| .ok (.core (.ctxld (bv 5 w 21) (bv 5 w 16)))
  | 18 => zeros w .reserved [(0, 5), (11, 5)] <| .ok (.core (.mark (bv 5 w 21) (bv 5 w 16)))
  | _ => .error .minorUnassigned

/-- Major 0x14, group ATOM (R105, R106). -/
def decAtom (w : Nat) : Dec :=
  match fld w 5 6 with
  | 0 => zeros w .reserved [(0, 2)] <| .ok (.core (.aadd (bv 5 w 21) (bv 5 w 16) (bv 5 w 11) (AOrd.ofCode (fld w 3 2)) (flag w 2)))
  | 1 => zeros w .reserved [(0, 2)] <| .ok (.core (.aand (bv 5 w 21) (bv 5 w 16) (bv 5 w 11) (AOrd.ofCode (fld w 3 2)) (flag w 2)))
  | 2 => zeros w .reserved [(0, 2)] <| .ok (.core (.aor (bv 5 w 21) (bv 5 w 16) (bv 5 w 11) (AOrd.ofCode (fld w 3 2)) (flag w 2)))
  | 3 => zeros w .reserved [(0, 2)] <| .ok (.core (.axor (bv 5 w 21) (bv 5 w 16) (bv 5 w 11) (AOrd.ofCode (fld w 3 2)) (flag w 2)))
  | 4 => zeros w .reserved [(0, 2)] <| .ok (.core (.amin (bv 5 w 21) (bv 5 w 16) (bv 5 w 11) (AOrd.ofCode (fld w 3 2)) (flag w 2)))
  | 5 => zeros w .reserved [(0, 2)] <| .ok (.core (.amax (bv 5 w 21) (bv 5 w 16) (bv 5 w 11) (AOrd.ofCode (fld w 3 2)) (flag w 2)))
  | 6 => zeros w .reserved [(0, 2)] <| .ok (.core (.aminu (bv 5 w 21) (bv 5 w 16) (bv 5 w 11) (AOrd.ofCode (fld w 3 2)) (flag w 2)))
  | 7 => zeros w .reserved [(0, 2)] <| .ok (.core (.amaxu (bv 5 w 21) (bv 5 w 16) (bv 5 w 11) (AOrd.ofCode (fld w 3 2)) (flag w 2)))
  | 8 => zeros w .reserved [(0, 2)] <| .ok (.core (.aswap (bv 5 w 21) (bv 5 w 16) (bv 5 w 11) (AOrd.ofCode (fld w 3 2)) (flag w 2)))
  | 9 => zeros w .reserved [(0, 2)] <| .ok (.core (.acas (bv 5 w 21) (bv 5 w 16) (bv 5 w 11) (AOrd.ofCode (fld w 3 2)) (flag w 2)))
  | 10 => zeros w .reserved [(0, 2)] <| .ok (.core (.aaddf (bv 5 w 21) (bv 5 w 16) (bv 5 w 11) (AOrd.ofCode (fld w 3 2)) (flag w 2)))
  | 11 => zeros w .reserved [(0, 2)] <| .ok (.core (.aminf (bv 5 w 21) (bv 5 w 16) (bv 5 w 11) (AOrd.ofCode (fld w 3 2)) (flag w 2)))
  | 12 => zeros w .reserved [(0, 2)] <| .ok (.core (.amaxf (bv 5 w 21) (bv 5 w 16) (bv 5 w 11) (AOrd.ofCode (fld w 3 2)) (flag w 2)))
  | _ => .error .minorUnassigned

/-- Major 0x15, group DRIP (R105, R106). -/
def decDrip (w : Nat) : Dec :=
  match fld w 5 6 with
  | 0 => zeros w .reserved [(0, 5)] <| .ok (.core (.dadd (bv 5 w 21) (bv 5 w 16) (bv 5 w 11)))
  | 1 => zeros w .reserved [(0, 5)] <| .ok (.core (.dand (bv 5 w 21) (bv 5 w 16) (bv 5 w 11)))
  | 2 => zeros w .reserved [(0, 5)] <| .ok (.core (.dor (bv 5 w 21) (bv 5 w 16) (bv 5 w 11)))
  | 3 => zeros w .reserved [(0, 5)] <| .ok (.core (.dmin (bv 5 w 21) (bv 5 w 16) (bv 5 w 11)))
  | 4 => zeros w .reserved [(0, 5)] <| .ok (.core (.dmax (bv 5 w 21) (bv 5 w 16) (bv 5 w 11)))
  | 5 => zeros w .reserved [(0, 5)] <| .ok (.core (.daddf (bv 5 w 21) (bv 5 w 16) (bv 5 w 11)))
  | 6 => zeros w .reserved [(0, 5)] <| .ok (.core (.dminf (bv 5 w 21) (bv 5 w 16) (bv 5 w 11)))
  | 7 => zeros w .reserved [(0, 5)] <| .ok (.core (.dmaxf (bv 5 w 21) (bv 5 w 16) (bv 5 w 11)))
  | _ => .error .minorUnassigned

/-- Major 0x16, group MIG (R105, R106). -/
def decMig (w : Nat) : Dec :=
  match fld w 5 6 with
  | 0 => zeros w .reserved [(0, 5), (11, 5), (21, 5)] <| .ok (.core (.go (bv 5 w 16)))
  | 1 => zeros w .reserved [(0, 5), (11, 15)] <| .ok (.core .home)
  | 2 => zeros w .reserved [(0, 5), (11, 10)] <| .ok (.core (.where (bv 5 w 21)))
  | 3 => zeros w .reserved [(0, 5), (11, 15)] <| .ok (.core .stay)
  | 4 => zeros w .reserved [(0, 5), (13, 3)] <| .ok (.core (.farld (bv 5 w 21) (bv 5 w 16) (bv 2 w 11)))
  | 5 => zeros w .reserved [(2, 3), (21, 5)] <| .ok (.core (.farst (bv 5 w 16) (bv 5 w 11) (bv 2 w 0)))
  | _ => .error .minorUnassigned

/-- Major 0x17, group KET (R105, R106). -/
def decKet (w : Nat) : Dec :=
  match fld w 5 6 with
  | 0 => zeros w .reserved [(0, 5)] <| .ok (.core (.kset (bv 5 w 21) (bv 5 w 16) (bv 5 w 11)))
  | 1 => zeros w .reserved [(0, 5), (21, 5)] <| .ok (.core (.kadd (bv 5 w 16) (bv 5 w 11)))
  | 2 => zeros w .reserved [(0, 5), (11, 5)] <| .ok (.core (.kread (bv 5 w 21) (bv 5 w 16)))
  | 3 => zeros w .reserved [(0, 5), (11, 5), (21, 5)] <| .ok (.core (.kwait (bv 5 w 16)))
  | 4 => zeros w .reserved [(0, 5), (11, 5), (21, 5)] <| .ok (.core (.koff (bv 5 w 16)))
  | 5 => zeros w .reserved [(0, 5)] <| .ok (.core (.send (bv 5 w 21) (bv 5 w 16) (bv 5 w 11)))
  | 6 => zeros w .regClass [(20, 1)] <| zeros w .reserved [(0, 5), (11, 5)] <| .ok (.core (.sendv (bv 5 w 21) (bv 4 w 16)))
  | 7 => zeros w .regClass [(25, 1)] <| zeros w .reserved [(0, 5), (11, 5)] <| .ok (.core (.recv (bv 4 w 21) (bv 5 w 16)))
  | 8 => zeros w .reserved [(0, 5), (21, 5)] <| .ok (.core (.allow (bv 5 w 16) (bv 5 w 11)))
  | 9 => zeros w .reserved [(0, 5), (11, 5)] <| .ok (.core (.avail (bv 5 w 21) (bv 5 w 16)))
  | _ => .error .minorUnassigned

/-- Major 0x18, group SYNC (R105, R106). -/
def decSync (w : Nat) : Dec :=
  match fld w 5 6 with
  | 0 => zeros w .reserved [(11, 15)] <| opt .fenceScope (Scope.ofCode (fld w 2 3)) fun sc => .ok (.core (.fence sc (FKind.ofCode (fld w 0 2))))
  | 1 => zeros w .reserved [(2, 3), (21, 5)] <| .ok (.core (.barset (bv 5 w 16) (bv 5 w 11) (bv 2 w 0)))
  | 2 => zeros w .reserved [(2, 3), (11, 15)] <| .ok (.core (.bar (bv 2 w 0)))
  | 3 => zeros w .reserved [(2, 3), (11, 15)] <| .ok (.core (.bara (bv 2 w 0)))
  | 4 => zeros w .reserved [(2, 3), (11, 15)] <| .ok (.core (.barw (bv 2 w 0)))
  | 5 => zeros w .reserved [(0, 5)] <| .ok (.core (.waitw (bv 5 w 21) (bv 5 w 16) (bv 5 w 11)))
  | 6 => zeros w .reserved [(0, 2), (11, 5), (21, 5)] <| opt .fenceScope (Scope.ofCode (fld w 2 3)) fun sc => .ok (.core (.publish (bv 5 w 16) sc))
  | 7 => zeros w .reserved [(0, 2), (11, 5)] <| opt .fenceScope (Scope.ofCode (fld w 2 3)) fun sc => .ok (.core (.acquire (bv 5 w 21) (bv 5 w 16) sc))
  | _ => .error .minorUnassigned

/-- Major 0x19, group WORK (R105, R106). -/
def decWork (w : Nat) : Dec :=
  match fld w 5 6 with
  | 0 => zeros w .reserved [(0, 5)] <| .ok (.core (.hstart (bv 5 w 21) (bv 5 w 16) (bv 5 w 11)))
  | 1 => zeros w .reserved [(0, 5), (11, 5), (21, 5)] <| .ok (.core (.hjoin (bv 5 w 16)))
  | 2 => zeros w .reserved [(0, 5), (11, 10)] <| .ok (.core (.hstat (bv 5 w 21)))
  | 3 => zeros w .reserved [(0, 5), (11, 5)] <| .ok (.core (.launch (bv 5 w 21) (bv 5 w 16)))
  | 4 => zeros w .reserved [(0, 5), (11, 5)] <| .ok (.core (.lstat (bv 5 w 21) (bv 5 w 16)))
  | _ => .error .minorUnassigned

/-- Major 0x20, group VOP (R105, R106). -/
def decVop (w : Nat) : Dec :=
  match fld w 5 5 with
  | 0 => typ w 10 fun ty => wfOr .typeBits (.vadd (bv 4 w 22) (bv 4 w 18) (bv 4 w 14) (bv 3 w 11) ty (RSrc.ofCode (fld w 0 2)))
  | 1 => typ w 10 fun ty => wfOr .typeBits (.vsub (bv 4 w 22) (bv 4 w 18) (bv 4 w 14) (bv 3 w 11) ty (RSrc.ofCode (fld w 0 2)))
  | 2 => typ w 10 fun ty => wfOr .typeBits (.vmul (bv 4 w 22) (bv 4 w 18) (bv 4 w 14) (bv 3 w 11) ty (RSrc.ofCode (fld w 0 2)))
  | 3 => typ w 10 fun ty => wfOr .typeBits (.vfma (bv 4 w 22) (bv 4 w 18) (bv 4 w 14) (bv 3 w 11) ty (RSrc.ofCode (fld w 0 2)))
  | 4 => typ w 10 fun ty => wfOr .typeBits (.vfms (bv 4 w 22) (bv 4 w 18) (bv 4 w 14) (bv 3 w 11) ty (RSrc.ofCode (fld w 0 2)))
  | 5 => zeros w .typeBits [(0, 2)] <| typ w 10 fun ty => .ok (.core (.vmin (bv 4 w 22) (bv 4 w 18) (bv 4 w 14) (bv 3 w 11) ty))
  | 6 => zeros w .typeBits [(0, 2)] <| typ w 10 fun ty => .ok (.core (.vmax (bv 4 w 22) (bv 4 w 18) (bv 4 w 14) (bv 3 w 11) ty))
  | 7 => zeros w .reserved [(14, 4)] <| zeros w .typeBits [(0, 2)] <| typ w 10 fun ty => .ok (.core (.vabs (bv 4 w 22) (bv 4 w 18) (bv 3 w 11) ty))
  | 8 => zeros w .reserved [(14, 4)] <| zeros w .typeBits [(0, 2)] <| typ w 10 fun ty => .ok (.core (.vneg (bv 4 w 22) (bv 4 w 18) (bv 3 w 11) ty))
  | 9 => zeros w .typeBits [(0, 5), (10, 1)] <| .ok (.core (.vand (bv 4 w 22) (bv 4 w 18) (bv 4 w 14) (bv 3 w 11)))
  | 10 => zeros w .typeBits [(0, 5), (10, 1)] <| .ok (.core (.vor (bv 4 w 22) (bv 4 w 18) (bv 4 w 14) (bv 3 w 11)))
  | 11 => zeros w .typeBits [(0, 5), (10, 1)] <| .ok (.core (.vxor (bv 4 w 22) (bv 4 w 18) (bv 4 w 14) (bv 3 w 11)))
  | 12 => zeros w .typeBits [(0, 2)] <| typ w 10 fun ty => .ok (.core (.vshl (bv 4 w 22) (bv 4 w 18) (bv 4 w 14) (bv 3 w 11) ty))
  | 13 => zeros w .typeBits [(0, 2)] <| typ w 10 fun ty => .ok (.core (.vshr (bv 4 w 22) (bv 4 w 18) (bv 4 w 14) (bv 3 w 11) ty))
  | 14 => zeros w .typeBits [(0, 2)] <| typ w 10 fun ty => .ok (.core (.vsar (bv 4 w 22) (bv 4 w 18) (bv 4 w 14) (bv 3 w 11) ty))
  | 15 => typ w 10 fun ty => wfOr .typeBits (.vdiv (bv 4 w 22) (bv 4 w 18) (bv 4 w 14) (bv 3 w 11) ty (RSrc.ofCode (fld w 0 2)))
  | 16 => zeros w .reserved [(14, 4)] <| typ w 10 fun ty => wfOr .typeBits (.vsqrt (bv 4 w 22) (bv 4 w 18) (bv 3 w 11) ty (RSrc.ofCode (fld w 0 2)))
  | 17 => zeros w .reserved [(14, 4)] <| typ w 10 fun ty => wfOr .typeBits (.vrcp (bv 4 w 22) (bv 4 w 18) (bv 3 w 11) ty (RSrc.ofCode (fld w 0 2)))
  | 18 => zeros w .reserved [(14, 4)] <| typ w 10 fun ty => wfOr .typeBits (.vrsq (bv 4 w 22) (bv 4 w 18) (bv 3 w 11) ty (RSrc.ofCode (fld w 0 2)))
  | 19 => zeros w .reserved [(14, 4)] <| typ w 10 fun ty => wfOr .typeBits (.vexp2 (bv 4 w 22) (bv 4 w 18) (bv 3 w 11) ty (RSrc.ofCode (fld w 0 2)))
  | 20 => zeros w .reserved [(14, 4)] <| typ w 10 fun ty => wfOr .typeBits (.vlog2 (bv 4 w 22) (bv 4 w 18) (bv 3 w 11) ty (RSrc.ofCode (fld w 0 2)))
  | 21 => zeros w .regClass [(25, 1)] <| zeros w .typeBits [(0, 2)] <| typ w 10 fun ty => .ok (.core (.vceq (bv 3 w 22) (bv 4 w 18) (bv 4 w 14) (bv 3 w 11) ty))
  | 22 => zeros w .regClass [(25, 1)] <| zeros w .typeBits [(0, 2)] <| typ w 10 fun ty => .ok (.core (.vclt (bv 3 w 22) (bv 4 w 18) (bv 4 w 14) (bv 3 w 11) ty))
  | 23 => zeros w .regClass [(25, 1)] <| zeros w .typeBits [(0, 2)] <| typ w 10 fun ty => .ok (.core (.vcle (bv 3 w 22) (bv 4 w 18) (bv 4 w 14) (bv 3 w 11) ty))
  | 24 => zeros w .typeBits [(0, 5), (10, 1)] <| .ok (.core (.vsel (bv 4 w 22) (bv 4 w 18) (bv 4 w 14) (bv 3 w 11)))
  | 25 => opt .reserved (SType.ofCode (fld w 14 4)) fun st => typ w 10 fun ty => wfOr .typeBits (.vcvt (bv 4 w 22) (bv 4 w 18) st (bv 3 w 11) ty (RSrc.ofCode (fld w 0 2)))
  | 26 => zeros w .reserved [(14, 4)] <| zeros w .typeBits [(0, 5), (10, 1)] <| .ok (.core (.vmov (bv 4 w 22) (bv 4 w 18) (bv 3 w 11)))
  | 27 => typ w 10 fun ty => wfOr .typeBits (.vdot (bv 4 w 22) (bv 4 w 18) (bv 4 w 14) (bv 3 w 11) ty (RSrc.ofCode (fld w 0 2)))
  | _ => .error .minorUnassigned

/-- Major 0x21, group VSC (R105, R106). -/
def decVsc (w : Nat) : Dec :=
  match fld w 5 4 with
  | 0 => typ w 9 fun ty => wfOr .typeBits (.vadds (bv 4 w 22) (bv 4 w 18) (bv 5 w 13) (bv 3 w 10) ty (RSrc.ofCode (fld w 0 2)))
  | 1 => typ w 9 fun ty => wfOr .typeBits (.vmuls (bv 4 w 22) (bv 4 w 18) (bv 5 w 13) (bv 3 w 10) ty (RSrc.ofCode (fld w 0 2)))
  | 2 => typ w 9 fun ty => wfOr .typeBits (.vfmas (bv 4 w 22) (bv 4 w 18) (bv 5 w 13) (bv 3 w 10) ty (RSrc.ofCode (fld w 0 2)))
  | 3 => zeros w .typeBits [(0, 2)] <| typ w 9 fun ty => .ok (.core (.vmins (bv 4 w 22) (bv 4 w 18) (bv 5 w 13) (bv 3 w 10) ty))
  | 4 => zeros w .typeBits [(0, 2)] <| typ w 9 fun ty => .ok (.core (.vmaxs (bv 4 w 22) (bv 4 w 18) (bv 5 w 13) (bv 3 w 10) ty))
  | 5 => zeros w .reserved [(18, 4)] <| zeros w .typeBits [(0, 2)] <| typ w 9 fun ty => .ok (.core (.vsplat (bv 4 w 22) (bv 5 w 13) (bv 3 w 10) ty))
  | 6 => zeros w .typeBits [(0, 2)] <| typ w 9 fun ty => .ok (.core (.vins (bv 4 w 22) (bv 4 w 18) (bv 5 w 13) (bv 3 w 10) ty))
  | 7 => zeros w .reserved [(10, 3), (22, 4)] <| zeros w .typeBits [(0, 2)] <| typ w 9 fun ty => .ok (.core (.vext (bv 4 w 18) (bv 5 w 13) ty))
  | _ => .error .minorUnassigned

/-- Major 0x22, group VPERM (R105, R106). -/
def decVperm (w : Nat) : Dec :=
  match fld w 5 5 with
  | 0 => zeros w .typeBits [(0, 2)] <| typ w 10 fun ty => .ok (.core (.vperm (bv 4 w 22) (bv 4 w 18) (bv 4 w 14) (bv 3 w 11) ty))
  | 1 => zeros w .typeBits [(0, 2)] <| typ w 10 fun ty => .ok (.core (.vrot (bv 4 w 22) (bv 4 w 18) (bv 4 w 14) (bv 3 w 11) ty))
  | 2 => zeros w .reserved [(11, 3)] <| zeros w .typeBits [(0, 2)] <| typ w 10 fun ty => wfOr .pair (.vzip (bv 4 w 22) (bv 4 w 18) (bv 4 w 14) ty)
  | 3 => zeros w .reserved [(11, 3)] <| zeros w .typeBits [(0, 2)] <| typ w 10 fun ty => wfOr .pair (.vunzip (bv 4 w 22) (bv 4 w 18) (bv 4 w 14) ty)
  | 4 => zeros w .reserved [(14, 4)] <| zeros w .typeBits [(0, 2)] <| typ w 10 fun ty => .ok (.core (.vcmpr (bv 4 w 22) (bv 4 w 18) (bv 3 w 11) ty))
  | 5 => zeros w .reserved [(14, 4)] <| zeros w .typeBits [(0, 2)] <| typ w 10 fun ty => .ok (.core (.vexpd (bv 4 w 22) (bv 4 w 18) (bv 3 w 11) ty))
  | 6 => zeros w .reserved [(14, 8)] <| zeros w .typeBits [(0, 2)] <| typ w 10 fun ty => .ok (.core (.viota (bv 4 w 22) (bv 3 w 11) ty))
  | _ => .error .minorUnassigned

/-- Major 0x23, group VRED (R105, R106). -/
def decVred (w : Nat) : Dec :=
  match fld w 5 5 with
  | 0 => zeros w .reserved [(14, 4)] <| typ w 10 fun ty => wfOr .typeBits (.vrsum (bv 4 w 22) (bv 4 w 18) (bv 3 w 11) ty (RSrc.ofCode (fld w 0 2)))
  | 1 => zeros w .reserved [(14, 4)] <| zeros w .typeBits [(0, 2)] <| typ w 10 fun ty => .ok (.core (.vrmax (bv 4 w 22) (bv 4 w 18) (bv 3 w 11) ty))
  | 2 => zeros w .reserved [(14, 4)] <| zeros w .typeBits [(0, 2)] <| typ w 10 fun ty => .ok (.core (.vrmin (bv 4 w 22) (bv 4 w 18) (bv 3 w 11) ty))
  | 3 => zeros w .reserved [(14, 4)] <| zeros w .typeBits [(0, 5), (10, 1)] <| .ok (.core (.vrand (bv 4 w 22) (bv 4 w 18) (bv 3 w 11)))
  | 4 => zeros w .reserved [(14, 4)] <| zeros w .typeBits [(0, 5), (10, 1)] <| .ok (.core (.vror (bv 4 w 22) (bv 4 w 18) (bv 3 w 11)))
  | 5 => zeros w .reserved [(14, 4)] <| typ w 10 fun ty => wfOr .typeBits (.vscan (bv 4 w 22) (bv 4 w 18) (bv 3 w 11) ty (RSrc.ofCode (fld w 0 2)))
  | _ => .error .minorUnassigned

/-- Major 0x24, group VMEM (R105, R106). -/
def decVmem (w : Nat) : Dec :=
  match fld w 8 3 with
  | 0 => zeros w .reserved [(0, 8)] <| .ok (.core (.vld (bv 4 w 22) (bv 5 w 17) (bv 3 w 14) (bv 3 w 11)))
  | 1 => zeros w .reserved [(0, 8)] <| .ok (.core (.vst (bv 4 w 22) (bv 5 w 17) (bv 3 w 14) (bv 3 w 11)))
  | 2 => zeros w .reserved [(0, 3)] <| .ok (.core (.vlds (bv 4 w 22) (bv 5 w 17) (bv 3 w 14) (bv 3 w 11) (bv 5 w 3)))
  | 3 => zeros w .reserved [(0, 3)] <| .ok (.core (.vsts (bv 4 w 22) (bv 5 w 17) (bv 3 w 14) (bv 3 w 11) (bv 5 w 3)))
  | 4 => zeros w .regClass [(7, 1)] <| zeros w .reserved [(0, 3)] <| .ok (.core (.vgath (bv 4 w 22) (bv 5 w 17) (bv 3 w 14) (bv 3 w 11) (bv 4 w 3)))
  | 5 => zeros w .regClass [(7, 1)] <| zeros w .reserved [(0, 3)] <| .ok (.core (.vscat (bv 4 w 22) (bv 5 w 17) (bv 3 w 14) (bv 3 w 11) (bv 4 w 3)))
  | _ => .error .minorUnassigned

/-- Major 0x25, group VPRED (R105, R106). -/
def decVpred (w : Nat) : Dec :=
  match fld w 5 5 with
  | 0 => zeros w .regClass [(17, 1), (21, 1), (25, 1)] <| zeros w .reserved [(0, 5), (10, 4)] <| .ok (.core (.pand (bv 3 w 22) (bv 3 w 18) (bv 3 w 14)))
  | 1 => zeros w .regClass [(17, 1), (21, 1), (25, 1)] <| zeros w .reserved [(0, 5), (10, 4)] <| .ok (.core (.por (bv 3 w 22) (bv 3 w 18) (bv 3 w 14)))
  | 2 => zeros w .regClass [(17, 1), (21, 1), (25, 1)] <| zeros w .reserved [(0, 5), (10, 4)] <| .ok (.core (.pxor (bv 3 w 22) (bv 3 w 18) (bv 3 w 14)))
  | 3 => zeros w .regClass [(21, 1), (25, 1)] <| zeros w .reserved [(0, 5), (10, 8)] <| .ok (.core (.pnot (bv 3 w 22) (bv 3 w 18)))
  | 4 => zeros w .regClass [(21, 1)] <| zeros w .reserved [(0, 5), (10, 8)] <| .ok (.core (.pcnt (bv 4 w 22) (bv 3 w 18)))
  | 5 => zeros w .regClass [(21, 1)] <| zeros w .reserved [(0, 5), (10, 8)] <| .ok (.core (.pfirst (bv 4 w 22) (bv 3 w 18)))
  | 6 => zeros w .regClass [(25, 1)] <| zeros w .reserved [(0, 5), (10, 8)] <| .ok (.core (.psetn (bv 3 w 22) (bv 4 w 18)))
  | _ => .error .minorUnassigned

/-- Major 0x28, group RING (R105, R106). -/
def decRing (w : Nat) : Dec :=
  match fld w 5 6 with
  | 0 => zeros w .regClass [(25, 1)] <| zeros w .reserved [(0, 5)] <| .ok (.core (.rdef (bv 4 w 21) (bv 5 w 16) (bv 5 w 11)))
  | 1 => zeros w .regClass [(20, 1)] <| zeros w .reserved [(0, 5), (21, 5)] <| .ok (.core (.rwaitf (bv 4 w 16) (bv 5 w 11)))
  | 2 => zeros w .regClass [(20, 1)] <| zeros w .reserved [(0, 5), (21, 5)] <| .ok (.core (.rwaite (bv 4 w 16) (bv 5 w 11)))
  | 3 => zeros w .regClass [(20, 1)] <| zeros w .reserved [(0, 5), (21, 5)] <| .ok (.core (.radvh (bv 4 w 16) (bv 5 w 11)))
  | 4 => zeros w .regClass [(20, 1)] <| zeros w .reserved [(0, 5), (21, 5)] <| .ok (.core (.radvt (bv 4 w 16) (bv 5 w 11)))
  | 5 => zeros w .regClass [(20, 1)] <| zeros w .reserved [(0, 5), (11, 5)] <| .ok (.core (.rhead (bv 5 w 21) (bv 4 w 16)))
  | 6 => zeros w .regClass [(20, 1)] <| zeros w .reserved [(0, 5), (11, 5)] <| .ok (.core (.rtail (bv 5 w 21) (bv 4 w 16)))
  | 7 => zeros w .regClass [(20, 1), (25, 1)] <| zeros w .reserved [(0, 5)] <| .ok (.core (.rbind (bv 4 w 21) (bv 4 w 16) (bv 5 w 11)))
  | 8 => zeros w .regClass [(25, 1)] <| zeros w .reserved [(0, 5), (11, 10)] <| .ok (.core (.runbind (bv 4 w 21)))
  | _ => .error .minorUnassigned

/-- Major 0x29, group COPY (R105, R106). -/
def decCopy (w : Nat) : Dec :=
  match fld w 4 2 with
  | 0 => opt .xf (Xf.ofCode (fld w 0 4)) fun x => .ok (.core (.copy (bv 5 w 21) (bv 5 w 16) (bv 5 w 11) (bv 5 w 6) x))
  | 1 => opt .xf (Xf.ofCode (fld w 0 4)) fun x => .ok (.core (.copyg (bv 5 w 21) (bv 5 w 16) (bv 5 w 11) (bv 5 w 6) x))
  | 2 => opt .xf (Xf.ofCode (fld w 0 4)) fun x => .ok (.core (.copys (bv 5 w 21) (bv 5 w 16) (bv 5 w 11) (bv 5 w 6) x))
  | _ => opt .xf (Xf.ofCode (fld w 0 4)) fun x => .ok (.core (.copyw (bv 5 w 21) (bv 5 w 16) (bv 5 w 11) (bv 5 w 6) x))

/-- Major 0x2A, group BITS (R105, R106). -/
def decBits (w : Nat) : Dec :=
  match fld w 5 6 with
  | 0 => zeros w .reserved [(11, 10)] <| .ok (.core (.bget (bv 5 w 21) (bv 5 w 0)))
  | 1 => zeros w .reserved [(11, 10)] <| .ok (.core (.bpeek (bv 5 w 21) (bv 5 w 0)))
  | 2 => zeros w .reserved [(0, 5), (11, 5), (21, 5)] <| .ok (.core (.bskip (bv 5 w 16)))
  | 3 => zeros w .reserved [(0, 5), (11, 15)] <| .ok (.core .balign)
  | 4 => zeros w .reserved [(11, 5), (21, 5)] <| .ok (.core (.bput (bv 5 w 16) (bv 5 w 0)))
  | 5 => zeros w .reserved [(0, 5), (11, 10)] <| .ok (.core (.bflush (bv 5 w 21)))
  | 6 => zeros w .reserved [(0, 5), (11, 5)] <| .ok (.core (.bhuf (bv 5 w 21) (bv 5 w 16)))
  | 7 => zeros w .reserved [(0, 5), (11, 10)] <| .ok (.core (.blzc (bv 5 w 21)))
  | 8 => zeros w .reserved [(0, 5), (11, 10)] <| .ok (.core (.bnext (bv 5 w 21)))
  | 9 => zeros w .reserved [(0, 5), (11, 5), (21, 5)] <| .ok (.core (.bfail (bv 5 w 16)))
  | _ => .error .minorUnassigned

/-- Major 0x30, group MMA (R105, R106). -/
def decMma (w : Nat) : Dec :=
  match fld w 8 3 with
  | 0 => .ok (.core (.mma (bv 2 w 24) (bv 4 w 20) (bv 4 w 16) (bv 5 w 11) (flag w 7) (flag w 6) (flag w 5) (flag w 4) (flag w 3) (flag w 2) (flag w 1) (flag w 0)))
  | 1 => .ok (.core (.mmaj (bv 2 w 24) (bv 4 w 20) (bv 4 w 16) (bv 5 w 11) (flag w 7) (flag w 6) (flag w 5) (flag w 4) (flag w 3) (flag w 2) (flag w 1) (flag w 0)))
  | 2 => zeros w .fxRefused [(1, 1), (6, 1), (16, 4)] <| .ok (.core (.mmas (bv 2 w 24) (bv 4 w 20) (bv 5 w 11) (flag w 7) (flag w 5) (flag w 4) (flag w 3) (flag w 2) (flag w 0)))
  | 3 => zeros w .fxRefused [(0, 4), (5, 3), (16, 8)] <| .ok (.core (.mlda (bv 2 w 24) (bv 5 w 11) (flag w 4)))
  | 4 => zeros w .fxRefused [(0, 3), (5, 3), (16, 8)] <| .ok (.core (.msta (bv 2 w 24) (bv 5 w 11) (flag w 4) (flag w 3)))
  | 5 => zeros w .fxRefused [(0, 4), (5, 3), (11, 13)] <| .ok (.core (.mzero (bv 2 w 24) (flag w 4)))
  | _ => .error .minorUnassigned

/-- Major 0x31, group MSYS (R105, R106). -/
def decMsys (w : Nat) : Dec :=
  match fld w 5 6 with
  | 0 => zeros w .reserved [(0, 5), (11, 15)] <| .ok (.core .mwait)
  | 1 => zeros w .reserved [(0, 5), (11, 10)] <| .ok (.core (.mstat (bv 5 w 21)))
  | 2 => zeros w .regClass [(25, 1)] <| zeros w .reserved [(0, 5), (11, 10)] <| wfOr .pair (.drrow (bv 4 w 21))
  | 3 => zeros w .regClass [(20, 1)] <| zeros w .reserved [(0, 5), (11, 5), (21, 5)] <| wfOr .pair (.drdone (bv 4 w 16))
  | 4 => zeros w .reserved [(11, 5)] <| .ok (.core (.mchk (bv 5 w 21) (bv 5 w 16) (bv 5 w 0)))
  | _ => .error .minorUnassigned

/-- Major 0x32, group SEED (R105, R106). -/
def decSeed (w : Nat) : Dec :=
  match fld w 5 6 with
  | 0 => zeros w .regClass [(25, 1)] <| zeros w .reserved [(3, 2)] <| .ok (.core (.sexp (bv 4 w 21) (bv 5 w 16) (bv 5 w 11) (bv 3 w 0)))
  | 1 => zeros w .regClass [(20, 1), (25, 1)] <| zeros w .reserved [(0, 5)] <| wfOr .pair (.ssrch (bv 4 w 21) (bv 4 w 16) (bv 5 w 11))
  | 2 => zeros w .regClass [(25, 1)] <| zeros w .reserved [(3, 2)] <| .ok (.core (.sproj (bv 4 w 21) (bv 5 w 16) (bv 5 w 11) (bv 3 w 0)))
  | 3 => zeros w .reserved [(3, 2), (11, 5)] <| .ok (.core (.schk (bv 5 w 21) (bv 5 w 16) (bv 3 w 0)))
  | 4 => zeros w .reserved [(11, 5)] <| .ok (.core (.lfsr (bv 5 w 21) (bv 5 w 16) (bv 5 w 0)))
  | 5 => zeros w .reserved [(3, 2)] <| .ok (.core (.srec (bv 5 w 21) (bv 5 w 16) (bv 5 w 11) (bv 3 w 0)))
  | _ => .error .minorUnassigned

/-- Major 0x33, group PROC (R105, R106). -/
def decProc (w : Nat) : Dec :=
  match fld w 5 6 with
  | 0 => zeros w .reserved [(3, 2), (11, 5)] <| .ok (.core (.prdef (bv 5 w 21) (bv 5 w 16) (bv 3 w 0)))
  | 1 => zeros w .reserved [(0, 5), (11, 5), (21, 5)] <| .ok (.core (.prdel (bv 5 w 16)))
  | 2 => zeros w .reserved [(0, 5), (11, 15)] <| .ok (.core .prdone)
  | 3 => zeros w .reserved [(0, 5), (11, 5), (21, 5)] <| .ok (.core (.prfail (bv 5 w 16)))
  | 4 => zeros w .reserved [(3, 2), (11, 5)] <| .ok (.core (.prstate (bv 5 w 21) (bv 5 w 16) (bv 3 w 0)))
  | 5 => zeros w .reserved [(3, 2)] <| .ok (.core (.previct (bv 5 w 21) (bv 5 w 16) (bv 5 w 11) (bv 3 w 0)))
  | 6 => zeros w .reserved [(3, 2), (11, 5), (21, 5)] <| .ok (.core (.prtouch (bv 5 w 16) (bv 3 w 0)))
  | _ => .error .minorUnassigned

/-- Major 0x38, group RAST (R105, R106). -/
def decRast (w : Nat) : Dec :=
  match fld w 5 6 with
  | 0 => zeros w .reserved [(2, 3), (11, 5)] <| .ok (.core (.rview (bv 5 w 21) (bv 5 w 16) (bv 2 w 0)))
  | 1 => zeros w .regClass [(20, 1)] <| zeros w .reserved [(2, 3)] <| .ok (.core (.rsetup (bv 5 w 21) (bv 4 w 16) (bv 5 w 11) (flag w 1) (flag w 0)))
  | 2 => zeros w .regClass [(14, 2)] <| wfOr .pair (.rcover (bv 5 w 21) (bv 5 w 16) (bv 3 w 11) (flag w 4) (bv 4 w 0))
  | 3 => zeros w .regClass [(15, 1), (20, 1)] <| zeros w .reserved [(0, 5)] <| .ok (.core (.rbox (bv 5 w 21) (bv 4 w 16) (bv 4 w 11)))
  | 4 => zeros w .regClass [(15, 1), (20, 1), (25, 1)] <| zeros w .reserved [(0, 5)] <| .ok (.core (.rtri (bv 4 w 21) (bv 4 w 16) (bv 4 w 11)))
  | 5 => zeros w .regClass [(20, 1)] <| zeros w .reserved [(0, 5)] <| .ok (.core (.rbin (bv 5 w 21) (bv 4 w 16) (bv 5 w 11)))
  | 6 => zeros w .reserved [(0, 5), (11, 5)] <| .ok (.core (.ordb (bv 5 w 21) (bv 5 w 16)))
  | 7 => zeros w .reserved [(0, 5), (11, 5)] <| .ok (.core (.orde (bv 5 w 21) (bv 5 w 16)))
  | 8 => zeros w .regClass [(14, 2), (25, 1)] <| zeros w .reserved [(3, 2)] <| wfOr .pair (.blnda (bv 4 w 21) (bv 5 w 16) (bv 3 w 11) (bv 3 w 0))
  | 9 => zeros w .reserved [(1, 4)] <| .ok (.core (.ordtok (bv 5 w 21) (bv 5 w 16) (bv 5 w 11) (flag w 0)))
  | _ => .error .minorUnassigned

/-- Major 0x3A, group LAYER (R105, R106). -/
def decLayer (w : Nat) : Dec :=
  match fld w 5 6 with
  | 0 =>
    match fld w 0 5 with
    | 0 => zeros w .reserved [(11, 5), (21, 5)] <| .ok (.layer (.ldefDef (bv 5 w 16)))
    | 1 => zeros w .reserved [(11, 5), (21, 5)] <| .ok (.layer (.ldefRet (bv 5 w 16)))
    | 2 => zeros w .reserved [(21, 5)] <| .ok (.layer (.ldefPose (bv 5 w 16) (bv 5 w 11)))
    | _ => .error .reserved
  | 1 => zeros w .regClass [(15, 1), (25, 1)] <| zeros w .reserved [(3, 2)] <| layOr .pair (.lwarp (bv 4 w 21) (bv 5 w 16) (bv 4 w 11) (bv 3 w 0))
  | 2 => zeros w .reserved [(11, 5)] <| layOr .reserved (.lerr (bv 5 w 21) (bv 5 w 16) (bv 5 w 0))
  | 3 => zeros w .reserved [(0, 5), (21, 5)] <| .ok (.layer (.lprice (bv 5 w 16) (bv 5 w 11)))
  | 4 => zeros w .reserved [(0, 5), (11, 10)] <| .ok (.layer (.lframe (bv 5 w 21)))
  | 5 => zeros w .reserved [(1, 4), (11, 5)] <| .ok (.layer (.lreq (bv 5 w 21) (bv 5 w 16) (flag w 0)))
  | 6 => zeros w .reserved [(0, 5), (21, 5)] <| .ok (.layer (.lsplit (bv 5 w 16) (bv 5 w 11)))
  | 7 => zeros w .reserved [(0, 5), (21, 5)] <| .ok (.layer (.lmerge (bv 5 w 16) (bv 5 w 11)))
  | 8 => zeros w .reserved [(0, 5)] <| .ok (.layer (.ldep (bv 5 w 21) (bv 5 w 16) (bv 5 w 11)))
  | 9 => zeros w .reserved [(0, 5), (21, 5)] <| .ok (.layer (.lorder (bv 5 w 16) (bv 5 w 11)))
  | 10 => zeros w .regClass [(15, 1), (20, 1), (25, 1)] <| zeros w .reserved [(3, 2)] <| layOr .pair (.lres (bv 4 w 21) (bv 4 w 16) (bv 4 w 11) (bv 3 w 0))
  | _ => .error .minorUnassigned

/-- Decoding of one word, given as the number it is (R91, R105). -/
def decodeNat (w : Nat) : Dec :=
  match fld w 26 6 with
  | 0x01 => decAlu w
  | 0x02 => decAlui w
  | 0x03 => decIm w
  | 0x08 => decBr w
  | 0x09 => decJal w
  | 0x0A => decJalr w
  | 0x0C => decLd w
  | 0x0D => decLds w
  | 0x0E => decSt w
  | 0x0F => decLda w
  | 0x10 => decStl w
  | 0x11 => decSys w
  | 0x14 => decAtom w
  | 0x15 => decDrip w
  | 0x16 => decMig w
  | 0x17 => decKet w
  | 0x18 => decSync w
  | 0x19 => decWork w
  | 0x20 => decVop w
  | 0x21 => decVsc w
  | 0x22 => decVperm w
  | 0x23 => decVred w
  | 0x24 => decVmem w
  | 0x25 => decVpred w
  | 0x28 => decRing w
  | 0x29 => decCopy w
  | 0x2A => decBits w
  | 0x30 => decMma w
  | 0x31 => decMsys w
  | 0x32 => decSeed w
  | 0x33 => decProc w
  | 0x38 => decRast w
  | 0x3A => decLayer w
  | _ => .error .majorUnassigned

/-- Decoding of one instruction word, in a form compiled code can build. -/
def decodeCode (w : W32) : Dec := decodeNat w.toNat

/-- Decoding of one instruction word. -/
noncomputable def decode (w : W32) : Except DecErr Instr :=
  match decodeCode w with
  | .ok c => .ok c.instr
  | .error e => .error e

/-- Four bytes as a little-endian word (R4, R91). -/
def wordOfBytes (b0 b1 b2 b3 : Byte) : W32 := b3 ++ b2 ++ b1 ++ b0

/-- The four bytes of a word, lowest address first (R4, R91). -/
def bytesOfWord (w : W32) : List Byte :=
  [w.extractLsb' 0 8, w.extractLsb' 8 8, w.extractLsb' 16 8, w.extractLsb' 24 8]

/-- Decoding of the first instruction of a byte sequence, with the bytes that follow it. -/
noncomputable def decodeBytes : List Byte → Except DecErr (Instr × List Byte)
  | b0 :: b1 :: b2 :: b3 :: rest =>
    match decode (wordOfBytes b0 b1 b2 b3) with
    | .ok i => .ok (i, rest)
    | .error e => .error e
  | _ => .error .truncated

/-- The instruction the decoder reads from a row of the opcode table whose bits are `w`: every instruction is one
32-bit word (R91), stored little-endian. -/
noncomputable def decodeTableWord (_nbits w : Nat) : Option Instr :=
  match decodeBytes (bytesOfWord (BitVec.ofNat 32 w)) with
  | .ok (i, _) => some i
  | .error _ => none

/-- typ[4:2] of a type (R99). -/
def VType.code : VType → Nat
  | .i32 => 0
  | .c1 => 1
  | .f32 => 2
  | .bf16 => 3
  | .f16 => 4
  | .i16 => 5
  | .i8 => 6
  | .e4m3 | .e5m2 => 7

/-- The E bit of a type (R99). -/
def VType.eBit : VType → Nat
  | .e5m2 => 1
  | .i32 | .c1 | .f32 | .bf16 | .f16 | .i16 | .i8 | .e4m3 => 0

/-- typ[1:0] of a rounding source (R99). -/
def RSrc.code : RSrc → Nat
  | .rmode => 0
  | .rne => 1
  | .rtz => 2
  | .rna => 3

/-- The source code of VCVT (R227). -/
def SType.code : SType → Nat
  | .i32 => 0
  | .u32 => 1
  | .f32 => 2
  | .bf16 => 3
  | .f16 => 4
  | .i16 => 5
  | .i8 => 6
  | .e4m3 => 7
  | .e5m2 => 8
  | .f64 => 9
  | .i4 => 10
  | .e2m1 => 11
  | .u16 => 12
  | .u8 => 13

/-- The transform code (R103). -/
def Xf.code : Xf → Nat
  | .none => 0
  | .cvt => 1
  | .pack => 2
  | .unpk => 3
  | .tran => 4
  | .mxq => 5
  | .sexp => 6
  | .dlta => 7
  | .bstr => 8

/-- The scope code (R104). -/
def Scope.code : Scope → Nat
  | .core => 0
  | .clus => 1
  | .die => 2
  | .dev => 3
  | .fab => 4

/-- The fence kind code (R104). -/
def FKind.code : FKind → Nat
  | .acq => 0
  | .rel => 1
  | .full => 2
  | .eng => 3

/-- The order bits (R98). -/
def AOrd.code : AOrd → Nat
  | .rlx => 0
  | .acq => 1
  | .rel => 2
  | .ar => 3

/-- A word from its fixed bits and its fields, each given as (value, lowest bit) (R93). -/
def pack (base : Nat) (l : List (Nat × Nat)) : Nat := l.foldr (fun f n => f.1 * 2 ^ f.2 + n) base

/-- The word of a LAYER instruction as a number (R93, R346). -/
def LayerOp.enc : LayerOp → Nat
  | .ldefDef a => pack 0xE8000000 [(a.toNat, 16)]
  | .ldefRet a => pack 0xE8000001 [(a.toNat, 16)]
  | .ldefPose a b => pack 0xE8000002 [(a.toNat, 16), (b.toNat, 11)]
  | .lwarp d a b p => pack 0xE8000020 [(d.toNat, 21), (a.toNat, 16), (b.toNat, 11), (p.toNat, 0)]
  | .lerr d a n => pack 0xE8000040 [(d.toNat, 21), (a.toNat, 16), (n.toNat, 0)]
  | .lprice a b => pack 0xE8000060 [(a.toNat, 16), (b.toNat, 11)]
  | .lframe d => pack 0xE8000080 [(d.toNat, 21)]
  | .lreq d a n => pack 0xE80000A0 [(d.toNat, 21), (a.toNat, 16), (n.toNat, 0)]
  | .lsplit a b => pack 0xE80000C0 [(a.toNat, 16), (b.toNat, 11)]
  | .lmerge a b => pack 0xE80000E0 [(a.toNat, 16), (b.toNat, 11)]
  | .ldep d a b => pack 0xE8000100 [(d.toNat, 21), (a.toNat, 16), (b.toNat, 11)]
  | .lorder a b => pack 0xE8000120 [(a.toNat, 16), (b.toNat, 11)]
  | .lres d a b p => pack 0xE8000140 [(d.toNat, 21), (a.toNat, 16), (b.toNat, 11), (p.toNat, 0)]

/-- The word of an instruction as a number (R93, R105, R106); a step without an encoding has none. -/
def encodeNat : Instr → Option Nat
  | .add d a b w => some (pack 0x04000000 [(d.toNat, 21), (a.toNat, 16), (b.toNat, 11), (w.toNat, 0)])
  | .sub d a b w => some (pack 0x04000020 [(d.toNat, 21), (a.toNat, 16), (b.toNat, 11), (w.toNat, 0)])
  | .and d a b w => some (pack 0x04000040 [(d.toNat, 21), (a.toNat, 16), (b.toNat, 11), (w.toNat, 0)])
  | .or d a b w => some (pack 0x04000060 [(d.toNat, 21), (a.toNat, 16), (b.toNat, 11), (w.toNat, 0)])
  | .xor d a b w => some (pack 0x04000080 [(d.toNat, 21), (a.toNat, 16), (b.toNat, 11), (w.toNat, 0)])
  | .andn d a b w => some (pack 0x040000A0 [(d.toNat, 21), (a.toNat, 16), (b.toNat, 11), (w.toNat, 0)])
  | .sll d a b w => some (pack 0x040000C0 [(d.toNat, 21), (a.toNat, 16), (b.toNat, 11), (w.toNat, 0)])
  | .srl d a b w => some (pack 0x040000E0 [(d.toNat, 21), (a.toNat, 16), (b.toNat, 11), (w.toNat, 0)])
  | .sra d a b w => some (pack 0x04000100 [(d.toNat, 21), (a.toNat, 16), (b.toNat, 11), (w.toNat, 0)])
  | .mul d a b w => some (pack 0x04000120 [(d.toNat, 21), (a.toNat, 16), (b.toNat, 11), (w.toNat, 0)])
  | .mulh d a b => some (pack 0x04000140 [(d.toNat, 21), (a.toNat, 16), (b.toNat, 11)])
  | .mulhu d a b => some (pack 0x04000160 [(d.toNat, 21), (a.toNat, 16), (b.toNat, 11)])
  | .div d a b w => some (pack 0x04000180 [(d.toNat, 21), (a.toNat, 16), (b.toNat, 11), (w.toNat, 0)])
  | .divu d a b w => some (pack 0x040001A0 [(d.toNat, 21), (a.toNat, 16), (b.toNat, 11), (w.toNat, 0)])
  | .rem d a b w => some (pack 0x040001C0 [(d.toNat, 21), (a.toNat, 16), (b.toNat, 11), (w.toNat, 0)])
  | .remu d a b w => some (pack 0x040001E0 [(d.toNat, 21), (a.toNat, 16), (b.toNat, 11), (w.toNat, 0)])
  | .min d a b w => some (pack 0x04000200 [(d.toNat, 21), (a.toNat, 16), (b.toNat, 11), (w.toNat, 0)])
  | .max d a b w => some (pack 0x04000220 [(d.toNat, 21), (a.toNat, 16), (b.toNat, 11), (w.toNat, 0)])
  | .minu d a b w => some (pack 0x04000240 [(d.toNat, 21), (a.toNat, 16), (b.toNat, 11), (w.toNat, 0)])
  | .maxu d a b w => some (pack 0x04000260 [(d.toNat, 21), (a.toNat, 16), (b.toNat, 11), (w.toNat, 0)])
  | .ceq d a b w => some (pack 0x04000280 [(d.toNat, 21), (a.toNat, 16), (b.toNat, 11), (w.toNat, 0)])
  | .cne d a b w => some (pack 0x040002A0 [(d.toNat, 21), (a.toNat, 16), (b.toNat, 11), (w.toNat, 0)])
  | .clt d a b w => some (pack 0x040002C0 [(d.toNat, 21), (a.toNat, 16), (b.toNat, 11), (w.toNat, 0)])
  | .cltu d a b w => some (pack 0x040002E0 [(d.toNat, 21), (a.toNat, 16), (b.toNat, 11), (w.toNat, 0)])
  | .cle d a b w => some (pack 0x04000300 [(d.toNat, 21), (a.toNat, 16), (b.toNat, 11), (w.toNat, 0)])
  | .cleu d a b w => some (pack 0x04000320 [(d.toNat, 21), (a.toNat, 16), (b.toNat, 11), (w.toNat, 0)])
  | .clz d a w => some (pack 0x04000340 [(d.toNat, 21), (a.toNat, 16), (w.toNat, 0)])
  | .ctz d a w => some (pack 0x04000360 [(d.toNat, 21), (a.toNat, 16), (w.toNat, 0)])
  | .popc d a w => some (pack 0x04000380 [(d.toNat, 21), (a.toNat, 16), (w.toNat, 0)])
  | .padd d a b => some (pack 0x040003A0 [(d.toNat, 21), (a.toNat, 16), (b.toNat, 11)])
  | .ptag d a => some (pack 0x040003C0 [(d.toNat, 21), (a.toNat, 16)])
  | .psett d a b => some (pack 0x040003E0 [(d.toNat, 21), (a.toNat, 16), (b.toNat, 11)])
  | .cmovnz d a b => some (pack 0x04000400 [(d.toNat, 21), (a.toNat, 16), (b.toNat, 11)])
  | .cmovz d a b => some (pack 0x04000420 [(d.toNat, 21), (a.toNat, 16), (b.toNat, 11)])
  | .addi d a i => some (pack 0x08000000 [(d.toNat, 21), (a.toNat, 16), (i.toNat, 0)])
  | .andi d a i => some (pack 0x08001000 [(d.toNat, 21), (a.toNat, 16), (i.toNat, 0)])
  | .ori d a i => some (pack 0x08002000 [(d.toNat, 21), (a.toNat, 16), (i.toNat, 0)])
  | .xori d a i => some (pack 0x08003000 [(d.toNat, 21), (a.toNat, 16), (i.toNat, 0)])
  | .slli d a i => some (pack 0x08004000 [(d.toNat, 21), (a.toNat, 16), (i.toNat, 0)])
  | .srli d a i => some (pack 0x08005000 [(d.toNat, 21), (a.toNat, 16), (i.toNat, 0)])
  | .srai d a i => some (pack 0x08006000 [(d.toNat, 21), (a.toNat, 16), (i.toNat, 0)])
  | .ceqi d a i => some (pack 0x08007000 [(d.toNat, 21), (a.toNat, 16), (i.toNat, 0)])
  | .clti d a i => some (pack 0x08008000 [(d.toNat, 21), (a.toNat, 16), (i.toNat, 0)])
  | .cltui d a i => some (pack 0x08009000 [(d.toNat, 21), (a.toNat, 16), (i.toNat, 0)])
  | .muli d a i => some (pack 0x0800A000 [(d.toNat, 21), (a.toNat, 16), (i.toNat, 0)])
  | .paddi d a i => some (pack 0x0800B000 [(d.toNat, 21), (a.toNat, 16), (i.toNat, 0)])
  | .imz d q i => some (pack 0x0C000000 [(d.toNat, 21), (q.toNat, 19), (i.toNat, 0)])
  | .imk d q i => some (pack 0x0C040000 [(d.toNat, 21), (q.toNat, 19), (i.toNat, 0)])
  | .bz a o => some (pack 0x20000000 [(a.toNat, 18), (o.toNat, 0)])
  | .bnz a o => some (pack 0x20800000 [(a.toNat, 18), (o.toNat, 0)])
  | .blt a o => some (pack 0x21000000 [(a.toNat, 18), (o.toNat, 0)])
  | .bge a o => some (pack 0x21800000 [(a.toNat, 18), (o.toNat, 0)])
  | .bgt a o => some (pack 0x22000000 [(a.toNat, 18), (o.toNat, 0)])
  | .ble a o => some (pack 0x22800000 [(a.toNat, 18), (o.toNat, 0)])
  | .jal d o => some (pack 0x24000000 [(d.toNat, 21), (o.toNat, 0)])
  | .jalr d a i => some (pack 0x28000000 [(d.toNat, 21), (a.toNat, 16), (i.toNat, 0)])
  | .ld d a g w o => some (pack 0x30000000 [(d.toNat, 21), (a.toNat, 16), (g.toNat, 13), (w.toNat, 11), (o.toNat, 0)])
  | .lds d a g w o => some (pack 0x34000000 [(d.toNat, 21), (a.toNat, 16), (g.toNat, 13), (w.toNat, 11), (o.toNat, 0)])
  | .st d a g w o => some (pack 0x38000000 [(d.toNat, 21), (a.toNat, 16), (g.toNat, 13), (w.toNat, 11), (o.toNat, 0)])
  | .lda d a g w o => some (pack 0x3C000000 [(d.toNat, 21), (a.toNat, 16), (g.toNat, 13), (w.toNat, 11), (o.toNat, 0)])
  | .stl d a g w o => some (pack 0x40000000 [(d.toNat, 21), (a.toNat, 16), (g.toNat, 13), (w.toNat, 11), (o.toNat, 0)])
  | .nop => some (pack 0x44000000 [])
  | .yield => some (pack 0x44000020 [])
  | .stop => some (pack 0x44000040 [])
  | .csrr d b c => some (pack 0x44000060 [(d.toNat, 21), (b.toNat, 11), (c.toNat, 0)])
  | .csrw a b c => some (pack 0x44000080 [(a.toNat, 16), (b.toNat, 11), (c.toNat, 0)])
  | .csrset a b c => some (pack 0x440000A0 [(a.toNat, 16), (b.toNat, 11), (c.toNat, 0)])
  | .csrclr a b c => some (pack 0x440000C0 [(a.toNat, 16), (b.toNat, 11), (c.toNat, 0)])
  | .segw g a b => some (pack 0x440000E0 [(g.toNat, 21), (a.toNat, 16), (b.toNat, 11)])
  | .segr d g s => some (pack 0x44000100 [(d.toNat, 21), (g.toNat, 16), (s.toNat, 0)])
  | .ident d s => some (pack 0x44000120 [(d.toNat, 21), (s.toNat, 0)])
  | .rdcyc d s => some (pack 0x44000140 [(d.toNat, 21), (s.toNat, 0)])
  | .trap a => some (pack 0x44000160 [(a.toNat, 16)])
  | .brk i => some (pack 0x44000180 [(i.toNat, 0)])
  | .tret => some (pack 0x440001A0 [])
  | .uret => some (pack 0x440001C0 [])
  | .frec d => some (pack 0x440001E0 [(d.toNat, 21)])
  | .ctxsv d a => some (pack 0x44000200 [(d.toNat, 21), (a.toNat, 16)])
  | .ctxld d a => some (pack 0x44000220 [(d.toNat, 21), (a.toNat, 16)])
  | .mark d a => some (pack 0x44000240 [(d.toNat, 21), (a.toNat, 16)])
  | .aadd d a b o x => some (pack 0x50000000 [(d.toNat, 21), (a.toNat, 16), (b.toNat, 11), (o.code, 3), (x.toNat, 2)])
  | .aand d a b o x => some (pack 0x50000020 [(d.toNat, 21), (a.toNat, 16), (b.toNat, 11), (o.code, 3), (x.toNat, 2)])
  | .aor d a b o x => some (pack 0x50000040 [(d.toNat, 21), (a.toNat, 16), (b.toNat, 11), (o.code, 3), (x.toNat, 2)])
  | .axor d a b o x => some (pack 0x50000060 [(d.toNat, 21), (a.toNat, 16), (b.toNat, 11), (o.code, 3), (x.toNat, 2)])
  | .amin d a b o x => some (pack 0x50000080 [(d.toNat, 21), (a.toNat, 16), (b.toNat, 11), (o.code, 3), (x.toNat, 2)])
  | .amax d a b o x => some (pack 0x500000A0 [(d.toNat, 21), (a.toNat, 16), (b.toNat, 11), (o.code, 3), (x.toNat, 2)])
  | .aminu d a b o x => some (pack 0x500000C0 [(d.toNat, 21), (a.toNat, 16), (b.toNat, 11), (o.code, 3), (x.toNat, 2)])
  | .amaxu d a b o x => some (pack 0x500000E0 [(d.toNat, 21), (a.toNat, 16), (b.toNat, 11), (o.code, 3), (x.toNat, 2)])
  | .aswap d a b o x => some (pack 0x50000100 [(d.toNat, 21), (a.toNat, 16), (b.toNat, 11), (o.code, 3), (x.toNat, 2)])
  | .acas d a b o x => some (pack 0x50000120 [(d.toNat, 21), (a.toNat, 16), (b.toNat, 11), (o.code, 3), (x.toNat, 2)])
  | .aaddf d a b o x => some (pack 0x50000140 [(d.toNat, 21), (a.toNat, 16), (b.toNat, 11), (o.code, 3), (x.toNat, 2)])
  | .aminf d a b o x => some (pack 0x50000160 [(d.toNat, 21), (a.toNat, 16), (b.toNat, 11), (o.code, 3), (x.toNat, 2)])
  | .amaxf d a b o x => some (pack 0x50000180 [(d.toNat, 21), (a.toNat, 16), (b.toNat, 11), (o.code, 3), (x.toNat, 2)])
  | .dadd d a b => some (pack 0x54000000 [(d.toNat, 21), (a.toNat, 16), (b.toNat, 11)])
  | .dand d a b => some (pack 0x54000020 [(d.toNat, 21), (a.toNat, 16), (b.toNat, 11)])
  | .dor d a b => some (pack 0x54000040 [(d.toNat, 21), (a.toNat, 16), (b.toNat, 11)])
  | .dmin d a b => some (pack 0x54000060 [(d.toNat, 21), (a.toNat, 16), (b.toNat, 11)])
  | .dmax d a b => some (pack 0x54000080 [(d.toNat, 21), (a.toNat, 16), (b.toNat, 11)])
  | .daddf d a b => some (pack 0x540000A0 [(d.toNat, 21), (a.toNat, 16), (b.toNat, 11)])
  | .dminf d a b => some (pack 0x540000C0 [(d.toNat, 21), (a.toNat, 16), (b.toNat, 11)])
  | .dmaxf d a b => some (pack 0x540000E0 [(d.toNat, 21), (a.toNat, 16), (b.toNat, 11)])
  | .go a => some (pack 0x58000000 [(a.toNat, 16)])
  | .home => some (pack 0x58000020 [])
  | .where d => some (pack 0x58000040 [(d.toNat, 21)])
  | .stay => some (pack 0x58000060 [])
  | .farld d a w => some (pack 0x58000080 [(d.toNat, 21), (a.toNat, 16), (w.toNat, 11)])
  | .farst a b w => some (pack 0x580000A0 [(a.toNat, 16), (b.toNat, 11), (w.toNat, 0)])
  | .kset d a b => some (pack 0x5C000000 [(d.toNat, 21), (a.toNat, 16), (b.toNat, 11)])
  | .kadd a b => some (pack 0x5C000020 [(a.toNat, 16), (b.toNat, 11)])
  | .kread d a => some (pack 0x5C000040 [(d.toNat, 21), (a.toNat, 16)])
  | .kwait a => some (pack 0x5C000060 [(a.toNat, 16)])
  | .koff a => some (pack 0x5C000080 [(a.toNat, 16)])
  | .send d a b => some (pack 0x5C0000A0 [(d.toNat, 21), (a.toNat, 16), (b.toNat, 11)])
  | .sendv d v => some (pack 0x5C0000C0 [(d.toNat, 21), (v.toNat, 16)])
  | .recv v a => some (pack 0x5C0000E0 [(v.toNat, 21), (a.toNat, 16)])
  | .allow a b => some (pack 0x5C000100 [(a.toNat, 16), (b.toNat, 11)])
  | .avail d a => some (pack 0x5C000120 [(d.toNat, 21), (a.toNat, 16)])
  | .fence s k => some (pack 0x60000000 [(s.code, 2), (k.code, 0)])
  | .barset a b n => some (pack 0x60000020 [(a.toNat, 16), (b.toNat, 11), (n.toNat, 0)])
  | .bar n => some (pack 0x60000040 [(n.toNat, 0)])
  | .bara n => some (pack 0x60000060 [(n.toNat, 0)])
  | .barw n => some (pack 0x60000080 [(n.toNat, 0)])
  | .waitw d a b => some (pack 0x600000A0 [(d.toNat, 21), (a.toNat, 16), (b.toNat, 11)])
  | .publish a s => some (pack 0x600000C0 [(a.toNat, 16), (s.code, 2)])
  | .acquire d a s => some (pack 0x600000E0 [(d.toNat, 21), (a.toNat, 16), (s.code, 2)])
  | .hstart d a b => some (pack 0x64000000 [(d.toNat, 21), (a.toNat, 16), (b.toNat, 11)])
  | .hjoin a => some (pack 0x64000020 [(a.toNat, 16)])
  | .hstat d => some (pack 0x64000040 [(d.toNat, 21)])
  | .launch d a => some (pack 0x64000060 [(d.toNat, 21), (a.toNat, 16)])
  | .lstat d a => some (pack 0x64000080 [(d.toNat, 21), (a.toNat, 16)])
  | .vadd d a b p ty rs => some (pack 0x80000000 [(d.toNat, 22), (a.toNat, 18), (b.toNat, 14), (p.toNat, 11), (ty.code, 2), (ty.eBit, 10), (rs.code, 0)])
  | .vsub d a b p ty rs => some (pack 0x80000020 [(d.toNat, 22), (a.toNat, 18), (b.toNat, 14), (p.toNat, 11), (ty.code, 2), (ty.eBit, 10), (rs.code, 0)])
  | .vmul d a b p ty rs => some (pack 0x80000040 [(d.toNat, 22), (a.toNat, 18), (b.toNat, 14), (p.toNat, 11), (ty.code, 2), (ty.eBit, 10), (rs.code, 0)])
  | .vfma d a b p ty rs => some (pack 0x80000060 [(d.toNat, 22), (a.toNat, 18), (b.toNat, 14), (p.toNat, 11), (ty.code, 2), (ty.eBit, 10), (rs.code, 0)])
  | .vfms d a b p ty rs => some (pack 0x80000080 [(d.toNat, 22), (a.toNat, 18), (b.toNat, 14), (p.toNat, 11), (ty.code, 2), (ty.eBit, 10), (rs.code, 0)])
  | .vmin d a b p ty => some (pack 0x800000A0 [(d.toNat, 22), (a.toNat, 18), (b.toNat, 14), (p.toNat, 11), (ty.code, 2), (ty.eBit, 10)])
  | .vmax d a b p ty => some (pack 0x800000C0 [(d.toNat, 22), (a.toNat, 18), (b.toNat, 14), (p.toNat, 11), (ty.code, 2), (ty.eBit, 10)])
  | .vabs d a p ty => some (pack 0x800000E0 [(d.toNat, 22), (a.toNat, 18), (p.toNat, 11), (ty.code, 2), (ty.eBit, 10)])
  | .vneg d a p ty => some (pack 0x80000100 [(d.toNat, 22), (a.toNat, 18), (p.toNat, 11), (ty.code, 2), (ty.eBit, 10)])
  | .vand d a b p => some (pack 0x80000120 [(d.toNat, 22), (a.toNat, 18), (b.toNat, 14), (p.toNat, 11)])
  | .vor d a b p => some (pack 0x80000140 [(d.toNat, 22), (a.toNat, 18), (b.toNat, 14), (p.toNat, 11)])
  | .vxor d a b p => some (pack 0x80000160 [(d.toNat, 22), (a.toNat, 18), (b.toNat, 14), (p.toNat, 11)])
  | .vshl d a b p ty => some (pack 0x80000180 [(d.toNat, 22), (a.toNat, 18), (b.toNat, 14), (p.toNat, 11), (ty.code, 2), (ty.eBit, 10)])
  | .vshr d a b p ty => some (pack 0x800001A0 [(d.toNat, 22), (a.toNat, 18), (b.toNat, 14), (p.toNat, 11), (ty.code, 2), (ty.eBit, 10)])
  | .vsar d a b p ty => some (pack 0x800001C0 [(d.toNat, 22), (a.toNat, 18), (b.toNat, 14), (p.toNat, 11), (ty.code, 2), (ty.eBit, 10)])
  | .vdiv d a b p ty rs => some (pack 0x800001E0 [(d.toNat, 22), (a.toNat, 18), (b.toNat, 14), (p.toNat, 11), (ty.code, 2), (ty.eBit, 10), (rs.code, 0)])
  | .vsqrt d a p ty rs => some (pack 0x80000200 [(d.toNat, 22), (a.toNat, 18), (p.toNat, 11), (ty.code, 2), (ty.eBit, 10), (rs.code, 0)])
  | .vrcp d a p ty rs => some (pack 0x80000220 [(d.toNat, 22), (a.toNat, 18), (p.toNat, 11), (ty.code, 2), (ty.eBit, 10), (rs.code, 0)])
  | .vrsq d a p ty rs => some (pack 0x80000240 [(d.toNat, 22), (a.toNat, 18), (p.toNat, 11), (ty.code, 2), (ty.eBit, 10), (rs.code, 0)])
  | .vexp2 d a p ty rs => some (pack 0x80000260 [(d.toNat, 22), (a.toNat, 18), (p.toNat, 11), (ty.code, 2), (ty.eBit, 10), (rs.code, 0)])
  | .vlog2 d a p ty rs => some (pack 0x80000280 [(d.toNat, 22), (a.toNat, 18), (p.toNat, 11), (ty.code, 2), (ty.eBit, 10), (rs.code, 0)])
  | .vceq d a b p ty => some (pack 0x800002A0 [(d.toNat, 22), (a.toNat, 18), (b.toNat, 14), (p.toNat, 11), (ty.code, 2), (ty.eBit, 10)])
  | .vclt d a b p ty => some (pack 0x800002C0 [(d.toNat, 22), (a.toNat, 18), (b.toNat, 14), (p.toNat, 11), (ty.code, 2), (ty.eBit, 10)])
  | .vcle d a b p ty => some (pack 0x800002E0 [(d.toNat, 22), (a.toNat, 18), (b.toNat, 14), (p.toNat, 11), (ty.code, 2), (ty.eBit, 10)])
  | .vsel d a b p => some (pack 0x80000300 [(d.toNat, 22), (a.toNat, 18), (b.toNat, 14), (p.toNat, 11)])
  | .vcvt d a s p ty rs => some (pack 0x80000320 [(d.toNat, 22), (a.toNat, 18), (s.code, 14), (p.toNat, 11), (ty.code, 2), (ty.eBit, 10), (rs.code, 0)])
  | .vmov d a p => some (pack 0x80000340 [(d.toNat, 22), (a.toNat, 18), (p.toNat, 11)])
  | .vdot d a b p ty rs => some (pack 0x80000360 [(d.toNat, 22), (a.toNat, 18), (b.toNat, 14), (p.toNat, 11), (ty.code, 2), (ty.eBit, 10), (rs.code, 0)])
  | .vadds d a s p ty rs => some (pack 0x84000000 [(d.toNat, 22), (a.toNat, 18), (s.toNat, 13), (p.toNat, 10), (ty.code, 2), (ty.eBit, 9), (rs.code, 0)])
  | .vmuls d a s p ty rs => some (pack 0x84000020 [(d.toNat, 22), (a.toNat, 18), (s.toNat, 13), (p.toNat, 10), (ty.code, 2), (ty.eBit, 9), (rs.code, 0)])
  | .vfmas d a s p ty rs => some (pack 0x84000040 [(d.toNat, 22), (a.toNat, 18), (s.toNat, 13), (p.toNat, 10), (ty.code, 2), (ty.eBit, 9), (rs.code, 0)])
  | .vmins d a s p ty => some (pack 0x84000060 [(d.toNat, 22), (a.toNat, 18), (s.toNat, 13), (p.toNat, 10), (ty.code, 2), (ty.eBit, 9)])
  | .vmaxs d a s p ty => some (pack 0x84000080 [(d.toNat, 22), (a.toNat, 18), (s.toNat, 13), (p.toNat, 10), (ty.code, 2), (ty.eBit, 9)])
  | .vsplat d s p ty => some (pack 0x840000A0 [(d.toNat, 22), (s.toNat, 13), (p.toNat, 10), (ty.code, 2), (ty.eBit, 9)])
  | .vins d a s p ty => some (pack 0x840000C0 [(d.toNat, 22), (a.toNat, 18), (s.toNat, 13), (p.toNat, 10), (ty.code, 2), (ty.eBit, 9)])
  | .vext a s ty => some (pack 0x840000E0 [(a.toNat, 18), (s.toNat, 13), (ty.code, 2), (ty.eBit, 9)])
  | .vperm d a b p ty => some (pack 0x88000000 [(d.toNat, 22), (a.toNat, 18), (b.toNat, 14), (p.toNat, 11), (ty.code, 2), (ty.eBit, 10)])
  | .vrot d a b p ty => some (pack 0x88000020 [(d.toNat, 22), (a.toNat, 18), (b.toNat, 14), (p.toNat, 11), (ty.code, 2), (ty.eBit, 10)])
  | .vzip d a b ty => some (pack 0x88000040 [(d.toNat, 22), (a.toNat, 18), (b.toNat, 14), (ty.code, 2), (ty.eBit, 10)])
  | .vunzip d a b ty => some (pack 0x88000060 [(d.toNat, 22), (a.toNat, 18), (b.toNat, 14), (ty.code, 2), (ty.eBit, 10)])
  | .vcmpr d a p ty => some (pack 0x88000080 [(d.toNat, 22), (a.toNat, 18), (p.toNat, 11), (ty.code, 2), (ty.eBit, 10)])
  | .vexpd d a p ty => some (pack 0x880000A0 [(d.toNat, 22), (a.toNat, 18), (p.toNat, 11), (ty.code, 2), (ty.eBit, 10)])
  | .viota d p ty => some (pack 0x880000C0 [(d.toNat, 22), (p.toNat, 11), (ty.code, 2), (ty.eBit, 10)])
  | .vrsum d a p ty rs => some (pack 0x8C000000 [(d.toNat, 22), (a.toNat, 18), (p.toNat, 11), (ty.code, 2), (ty.eBit, 10), (rs.code, 0)])
  | .vrmax d a p ty => some (pack 0x8C000020 [(d.toNat, 22), (a.toNat, 18), (p.toNat, 11), (ty.code, 2), (ty.eBit, 10)])
  | .vrmin d a p ty => some (pack 0x8C000040 [(d.toNat, 22), (a.toNat, 18), (p.toNat, 11), (ty.code, 2), (ty.eBit, 10)])
  | .vrand d a p => some (pack 0x8C000060 [(d.toNat, 22), (a.toNat, 18), (p.toNat, 11)])
  | .vror d a p => some (pack 0x8C000080 [(d.toNat, 22), (a.toNat, 18), (p.toNat, 11)])
  | .vscan d a p ty rs => some (pack 0x8C0000A0 [(d.toNat, 22), (a.toNat, 18), (p.toNat, 11), (ty.code, 2), (ty.eBit, 10), (rs.code, 0)])
  | .vld d a g p => some (pack 0x90000000 [(d.toNat, 22), (a.toNat, 17), (g.toNat, 14), (p.toNat, 11)])
  | .vst d a g p => some (pack 0x90000100 [(d.toNat, 22), (a.toNat, 17), (g.toNat, 14), (p.toNat, 11)])
  | .vlds d a g p s => some (pack 0x90000200 [(d.toNat, 22), (a.toNat, 17), (g.toNat, 14), (p.toNat, 11), (s.toNat, 3)])
  | .vsts d a g p s => some (pack 0x90000300 [(d.toNat, 22), (a.toNat, 17), (g.toNat, 14), (p.toNat, 11), (s.toNat, 3)])
  | .vgath d a g p b => some (pack 0x90000400 [(d.toNat, 22), (a.toNat, 17), (g.toNat, 14), (p.toNat, 11), (b.toNat, 3)])
  | .vscat d a g p b => some (pack 0x90000500 [(d.toNat, 22), (a.toNat, 17), (g.toNat, 14), (p.toNat, 11), (b.toNat, 3)])
  | .pand d a b => some (pack 0x94000000 [(d.toNat, 22), (a.toNat, 18), (b.toNat, 14)])
  | .por d a b => some (pack 0x94000020 [(d.toNat, 22), (a.toNat, 18), (b.toNat, 14)])
  | .pxor d a b => some (pack 0x94000040 [(d.toNat, 22), (a.toNat, 18), (b.toNat, 14)])
  | .pnot d a => some (pack 0x94000060 [(d.toNat, 22), (a.toNat, 18)])
  | .pcnt d a => some (pack 0x94000080 [(d.toNat, 22), (a.toNat, 18)])
  | .pfirst d a => some (pack 0x940000A0 [(d.toNat, 22), (a.toNat, 18)])
  | .psetn d a => some (pack 0x940000C0 [(d.toNat, 22), (a.toNat, 18)])
  | .rdef q a b => some (pack 0xA0000000 [(q.toNat, 21), (a.toNat, 16), (b.toNat, 11)])
  | .rwaitf q b => some (pack 0xA0000020 [(q.toNat, 16), (b.toNat, 11)])
  | .rwaite q b => some (pack 0xA0000040 [(q.toNat, 16), (b.toNat, 11)])
  | .radvh q b => some (pack 0xA0000060 [(q.toNat, 16), (b.toNat, 11)])
  | .radvt q b => some (pack 0xA0000080 [(q.toNat, 16), (b.toNat, 11)])
  | .rhead d q => some (pack 0xA00000A0 [(d.toNat, 21), (q.toNat, 16)])
  | .rtail d q => some (pack 0xA00000C0 [(d.toNat, 21), (q.toNat, 16)])
  | .rbind v q b => some (pack 0xA00000E0 [(v.toNat, 21), (q.toNat, 16), (b.toNat, 11)])
  | .runbind v => some (pack 0xA0000100 [(v.toNat, 21)])
  | .copy k s d p x => some (pack 0xA4000000 [(k.toNat, 21), (s.toNat, 16), (d.toNat, 11), (p.toNat, 6), (x.code, 0)])
  | .copyg k s d p x => some (pack 0xA4000010 [(k.toNat, 21), (s.toNat, 16), (d.toNat, 11), (p.toNat, 6), (x.code, 0)])
  | .copys k s d p x => some (pack 0xA4000020 [(k.toNat, 21), (s.toNat, 16), (d.toNat, 11), (p.toNat, 6), (x.code, 0)])
  | .copyw k s d p x => some (pack 0xA4000030 [(k.toNat, 21), (s.toNat, 16), (d.toNat, 11), (p.toNat, 6), (x.code, 0)])
  | .bget d n => some (pack 0xA8000000 [(d.toNat, 21), (n.toNat, 0)])
  | .bpeek d n => some (pack 0xA8000020 [(d.toNat, 21), (n.toNat, 0)])
  | .bskip a => some (pack 0xA8000040 [(a.toNat, 16)])
  | .balign => some (pack 0xA8000060 [])
  | .bput a n => some (pack 0xA8000080 [(a.toNat, 16), (n.toNat, 0)])
  | .bflush d => some (pack 0xA80000A0 [(d.toNat, 21)])
  | .bhuf d a => some (pack 0xA80000C0 [(d.toNat, 21), (a.toNat, 16)])
  | .blzc d => some (pack 0xA80000E0 [(d.toNat, 21)])
  | .bnext d => some (pack 0xA8000100 [(d.toNat, 21)])
  | .bfail a => some (pack 0xA8000120 [(a.toNat, 16)])
  | .mma c a b s n e z g r k j t => some (pack 0xC0000000 [(c.toNat, 24), (a.toNat, 20), (b.toNat, 16), (s.toNat, 11), (n.toNat, 7), (e.toNat, 6), (z.toNat, 5), (g.toNat, 4), (r.toNat, 3), (k.toNat, 2), (j.toNat, 1), (t.toNat, 0)])
  | .mmaj c a b s n e z g r k j t => some (pack 0xC0000100 [(c.toNat, 24), (a.toNat, 20), (b.toNat, 16), (s.toNat, 11), (n.toNat, 7), (e.toNat, 6), (z.toNat, 5), (g.toNat, 4), (r.toNat, 3), (k.toNat, 2), (j.toNat, 1), (t.toNat, 0)])
  | .mmas c a s n z g r k t => some (pack 0xC0000200 [(c.toNat, 24), (a.toNat, 20), (s.toNat, 11), (n.toNat, 7), (z.toNat, 5), (g.toNat, 4), (r.toNat, 3), (k.toNat, 2), (t.toNat, 0)])
  | .mlda c s g => some (pack 0xC0000300 [(c.toNat, 24), (s.toNat, 11), (g.toNat, 4)])
  | .msta c s g r => some (pack 0xC0000400 [(c.toNat, 24), (s.toNat, 11), (g.toNat, 4), (r.toNat, 3)])
  | .mzero c g => some (pack 0xC0000500 [(c.toNat, 24), (g.toNat, 4)])
  | .mwait => some (pack 0xC4000000 [])
  | .mstat d => some (pack 0xC4000020 [(d.toNat, 21)])
  | .drrow d => some (pack 0xC4000040 [(d.toNat, 21)])
  | .drdone a => some (pack 0xC4000060 [(a.toNat, 16)])
  | .mchk d a n => some (pack 0xC4000080 [(d.toNat, 21), (a.toNat, 16), (n.toNat, 0)])
  | .sexp d a b g => some (pack 0xC8000000 [(d.toNat, 21), (a.toNat, 16), (b.toNat, 11), (g.toNat, 0)])
  | .ssrch d a b => some (pack 0xC8000020 [(d.toNat, 21), (a.toNat, 16), (b.toNat, 11)])
  | .sproj d a b g => some (pack 0xC8000040 [(d.toNat, 21), (a.toNat, 16), (b.toNat, 11), (g.toNat, 0)])
  | .schk d a g => some (pack 0xC8000060 [(d.toNat, 21), (a.toNat, 16), (g.toNat, 0)])
  | .lfsr d a n => some (pack 0xC8000080 [(d.toNat, 21), (a.toNat, 16), (n.toNat, 0)])
  | .srec d a b g => some (pack 0xC80000A0 [(d.toNat, 21), (a.toNat, 16), (b.toNat, 11), (g.toNat, 0)])
  | .prdef d a g => some (pack 0xCC000000 [(d.toNat, 21), (a.toNat, 16), (g.toNat, 0)])
  | .prdel a => some (pack 0xCC000020 [(a.toNat, 16)])
  | .prdone => some (pack 0xCC000040 [])
  | .prfail a => some (pack 0xCC000060 [(a.toNat, 16)])
  | .prstate d a g => some (pack 0xCC000080 [(d.toNat, 21), (a.toNat, 16), (g.toNat, 0)])
  | .previct d a b g => some (pack 0xCC0000A0 [(d.toNat, 21), (a.toNat, 16), (b.toNat, 11), (g.toNat, 0)])
  | .prtouch a g => some (pack 0xCC0000C0 [(a.toNat, 16), (g.toNat, 0)])
  | .rview d a n => some (pack 0xE0000000 [(d.toNat, 21), (a.toNat, 16), (n.toNat, 0)])
  | .rsetup d v b n p => some (pack 0xE0000020 [(d.toNat, 21), (v.toNat, 16), (b.toNat, 11), (n.toNat, 1), (p.toNat, 0)])
  | .rcover d a p f e => some (pack 0xE0000040 [(d.toNat, 21), (a.toNat, 16), (p.toNat, 11), (f.toNat, 4), (e.toNat, 0)])
  | .rbox d a b => some (pack 0xE0000060 [(d.toNat, 21), (a.toNat, 16), (b.toNat, 11)])
  | .rtri d a b => some (pack 0xE0000080 [(d.toNat, 21), (a.toNat, 16), (b.toNat, 11)])
  | .rbin d a b => some (pack 0xE00000A0 [(d.toNat, 21), (a.toNat, 16), (b.toNat, 11)])
  | .ordb d a => some (pack 0xE00000C0 [(d.toNat, 21), (a.toNat, 16)])
  | .orde d a => some (pack 0xE00000E0 [(d.toNat, 21), (a.toNat, 16)])
  | .blnda d a p o => some (pack 0xE0000100 [(d.toNat, 21), (a.toNat, 16), (p.toNat, 11), (o.toNat, 0)])
  | .ordtok d a b l => some (pack 0xE0000120 [(d.toNat, 21), (a.toNat, 16), (b.toNat, 11), (l.toNat, 0)])
  | .ldefDef a => some (pack 0xE8000000 [(a.toNat, 16)])
  | .ldefRet a => some (pack 0xE8000001 [(a.toNat, 16)])
  | .ldefPose a b => some (pack 0xE8000002 [(a.toNat, 16), (b.toNat, 11)])
  | .lwarp d a b p => some (pack 0xE8000020 [(d.toNat, 21), (a.toNat, 16), (b.toNat, 11), (p.toNat, 0)])
  | .lerr d a n => some (pack 0xE8000040 [(d.toNat, 21), (a.toNat, 16), (n.toNat, 0)])
  | .lprice a b => some (pack 0xE8000060 [(a.toNat, 16), (b.toNat, 11)])
  | .lframe d => some (pack 0xE8000080 [(d.toNat, 21)])
  | .lreq d a n => some (pack 0xE80000A0 [(d.toNat, 21), (a.toNat, 16), (n.toNat, 0)])
  | .lsplit a b => some (pack 0xE80000C0 [(a.toNat, 16), (b.toNat, 11)])
  | .lmerge a b => some (pack 0xE80000E0 [(a.toNat, 16), (b.toNat, 11)])
  | .ldep d a b => some (pack 0xE8000100 [(d.toNat, 21), (a.toNat, 16), (b.toNat, 11)])
  | .lorder a b => some (pack 0xE8000120 [(a.toNat, 16), (b.toNat, 11)])
  | .lres d a b p => some (pack 0xE8000140 [(d.toNat, 21), (a.toNat, 16), (b.toNat, 11), (p.toNat, 0)])
  | .instructionFetch | .chargedCauseDeliver | .storePathError | .upcallDeliver | .waitWake
  | .announcementArrive | .acceptRecord | .placePour | .controlContextStart | .zeroFillStep | .shotRetire
  | .sliceExpire | .preemptCut | .markerArrive | .pourResume | .checkpointStored | .helperAssign
  | .kettleDecrement | .messageArrive | .allowGrantArrive | .dripArrive | .migrationArrive | .visitorAdmit
  | .txwakeStart | .barrierSweepHop | .copyStart | .copyComplete | .bstrDeliver | .matrixOpStart
  | .matrixOpComplete | .joinComputeBegin | .joinAbandon | .layerCloseProcess | .layerPostRecords
  | .lsplitCsrWrite | .txwakeCsrWrite | .fdutyUpdate | .forcedClockSkip | .hbmBudgetRefill
  | .selfRefreshEnter | .clockSweeperVisit | .corePowerUp | .corePowerOff | .deviceReset | .fullService
  | .mread | .mwrite | .kmsg | .tset | .tget | .dset | .inval | .treset | .pcmdStop | .pcmdResume
  | .pcmdDiscard | .pcmdResumeCheckpoint | .pcmdReadState | .pcmdWriteState | .resync | .attest | .cupLoad
  | .cupBreak | .cupLaunch | .cupContinue | .cupRegs | .cupRing | .cupMq | .cupShape | .cupTile | .cupExamine
  | .cupCsr | .cupCtx | .cupFill | .cupRegsAt | .cupCsrAt | .cupDelete | .cupKettle | .cupLayer | .cupPreds
  | .cupDeps | .selfRefreshExit | .stackTrained => none

/-- The word of an instruction; zero, which is no instruction (R109), for a step without an encoding. -/
def encode (i : Instr) : W32 := BitVec.ofNat 32 ((encodeNat i).getD 0)

/-- The word of a LAYER instruction. -/
def LayerOp.word (l : LayerOp) : W32 := BitVec.ofNat 32 l.enc

end Sys2Proof
end

