-- ==== Sys2Proof/Config.lean ====
section
/-! DEFINITION. What the part fixes once, and the free values: constants without a body, of which no proof can see a
value. A statement about a free value holds whatever it is. -/

namespace Sys2Proof.Config

/-- How many periods of the 3.3 GHz reference clock pass in step number `n` beyond the first (R133): the spec gives no
time to a step. -/
opaque clocks : Nat → BitVec 32

/-- A result the spec leaves open, by the number of the step that makes it: what a bit reader gives past its input
(R256, R257). -/
opaque openWord : Nat → BitVec 64

/-- Which of the moves that are possible comes next, by the number of the step: the spec fixes no order between them. -/
opaque choice : Nat → Nat

/-- A block leaves cluster memory (R152), by step and block: the spec gives no rule of replacement. -/
opaque evicts : Nat → Nat → Bool

/-- The fabric path to another device fails (R382), by step and device. -/
opaque pathFails : Nat → Nat → Bool

/-- A byte that another device answers (R382), by step and address: this part does not hold its state. -/
opaque farByte : Nat → Nat → BitVec 8

/-- A byte that cannot be read, by step and address: the path to it fails for an instruction that has no cause for that (R315,
R333), or its scratchpad line is lost (R148, R333). -/
opaque lostByte : Nat → Nat → BitVec 8

/-- A fetch before the next FENCE of kind full gives the word as it was (R92), by step. -/
opaque oldFetch : Nat → Bool

/-- Measurement of the firmware (R380): SHA-512 of a text the spec does not give. -/
opaque firmwareHash : BitVec 512

/-- Measurement of the configuration record (R380): of NDEV, DEV and its other fields. -/
opaque recordHash : BitVec 8 → BitVec 8 → List (BitVec 8) → BitVec 512

/-- The device's identity key, public half (R380). -/
opaque identityKey : BitVec 256

/-- The signature ATTEST appends (R380), as a function of the report it signs: Ed25519 under a key no command reads. -/
opaque signature : BitVec 1544 → BitVec 512

/-- The temperature thresholds, in degrees, as the fields of a configuration record give them: the spec does not say where they
stand in it (R369, R380). -/
opaque tcons : List (BitVec 8) → Int
opaque tsevere : List (BitVec 8) → Int

/-- An arrival falls into the clock of the one before it (R168), by step: the spec gives no time to a step. -/
opaque sameClock : Nat → Bool

/-- A dirty line leaves L1 (R151), by step, core and line: the spec gives no rule of replacement. -/
opaque cleans : Nat → Nat → Nat → Bool

/-- Columns and rows of the mesh (R9). -/
def cols : Nat := 64
def rows : Nat := 24

/-- Fat-pointer width of the window space (R142): keys of window bytes stand above every physical address (R144). -/
def windowBase : Nat := 2 ^ 48

/-- IDENT selector 0 (R138): VENDOR, PART, REV. -/
def ident0 : BitVec 64 := 0x0C9E_0109_0000_0100

/-- Bytes of local SRAM that are scratchpad under LSPLIT code 0, and the step of the code (R148). -/
def scratchMax : Nat := 1408 * 1024
def scratchStep : Nat := 128 * 1024

/-- Bytes of the accumulator store (R260). -/
def accBytes : Nat := 256 * 1024

/-- Entries of the queues and tables of one core (R11, R192, R193, R250, R262, R328), and layers a unit caches (R340). -/
def inboxSlots : Nat := 128
def allowEntries : Nat := 64
def copyEntries : Nat := 16
def copyRunning : Nat := 4
def matrixEntries : Nat := 8
def tokenEntries : Nat := 4096
def setupSlots : Nat := 32
def layersPerUnit : Nat := 2048
def traceEntries : Nat := 4096
def chargedHeld : Nat := 4

/-- Blocks a cluster's 48 MiB hold (R9, R152), and slots of a core's thread-context cache (R33). -/
def clusterBlocks : Nat := 48 * 2 ^ 20 / 256
def cacheSlots : Nat := 32

end Sys2Proof.Config
end

