-- ==== Sys2Proof/Machine/Access.lean ====
section
/-! DEFINITION. Where things stand in the state: cores, contexts, tenants, and the registers of the context that issues.
Every read and every write of a register goes through this file. -/

namespace Sys2Proof.Machine

/-! Cores (R9, R10) -/

/-- The number of the core at (x, y). -/
def coreAt (x y : Nat) : Nat := 64 * y + x

/-- Column and row of a core. -/
def coreX (c : Nat) : Nat := c % 64
def coreY (c : Nat) : Nat := c / 64

/-- The compute die of a core (R9). -/
def dieOf (c : Nat) : Nat := 4 * (coreY c / 12) + coreX c / 16

/-- The cluster of a core (R9, R141). -/
def clusterOf (c : Nat) : Nat := coreX c / 4 + 16 * (coreY c / 4)

/-- The core carries the raster and traversal extension: odd x and odd y (R10). -/
def equipped (c : Nat) : Bool := coreX c % 2 == 1 && coreY c % 2 == 1

/-- Home(addr): the home core of the 256-byte block that holds an address (R141). -/
def homeOf (va : Nat) : Nat :=
  let b := va / 256
  let c := b % 96
  let k := b / 96 % 16
  coreAt (4 * (c % 16) + k % 4) (4 * (c / 16) + k / 4)

/-- One core's state. -/
def getCore (s : State) (n : Nat) : CoreSt := tgetD s.cores n {}

/-- Replaces one core's state. -/
def setCore (s : State) (n : Nat) (c : CoreSt) : State := { s with cores := tput s.cores n c }

/-- Changes one core's state. -/
def updCore (s : State) (n : Nat) (f : CoreSt → CoreSt) : State := setCore s n (f (getCore s n))

/-- Changes an operation of a core's copy queue or matrix queue. -/
def updCop (s : State) (core id : Nat) (f : COp → COp) : State :=
  updCore s core (fun c => { c with cq := mapFirst (fun o => o.id == id) f c.cq })
def updMop (s : State) (core id : Nat) (f : MOp → MOp) : State :=
  updCore s core (fun c => { c with mq := mapFirst (fun o => o.id == id) f c.mq })

/-! Contexts (R12, R13) -/

/-- Home core and home index of a context key. -/
def homeCore (key : Nat) : Nat := key / 16 % 2048
def homeIdx (key : Nat) : Nat := key % 16

/-- The key of a saved context, and of the work of a context that ended: home core and index stay readable (log 69). -/
def asideKey (key serial : Nat) : Nat := key % 2 ^ 15 + 2 ^ 15 * serial

/-- Two keys name the same slot of the same core. -/
def sameSlot (a b : Nat) : Bool := a % 2 ^ 15 == b % 2 ^ 15

/-- The key of a context from its home core and index. -/
def keyOf (core idx : Nat) : Nat := 16 * core + idx

/-- A context; one without a record is Free. -/
def getCtx (s : State) (key : Nat) : Ctx := if s.cx.key = key then s.cx else tgetD s.ctxs key { key := key }

/-- Puts a context back in its place. -/
def putCtx (s : State) (c : Ctx) : State :=
  if s.cx.key = c.key then { s with cx := c } else { s with ctxs := tput s.ctxs c.key c }

/-- Changes a context. -/
def updCtx (s : State) (key : Nat) (f : Ctx → Ctx) : State := putCtx s (f (getCtx s key))

/-- Makes a context the one that issues. -/
def switchTo (s : State) (key : Nat) : State :=
  if s.cx.key = key then s
  else { s with cx := getCtx s key, ctxs := tput (tdel s.ctxs key) s.cx.key s.cx }

/-- Changes the issuing context. -/
def updCx (s : State) (f : Ctx → Ctx) : State := { s with cx := f s.cx }

/-- The core a context stands on (R17, R155). -/
def Ctx.core (c : Ctx) : Nat :=
  match c.place with
  | .visitor k _ => k
  | .queued k => k
  | .home => homeCore c.key
  | .transit => homeCore c.key

/-- Who a write of the context comes from, as the trace ring has it: the core it stands on and its home index (R162). -/
def Ctx.who (c : Ctx) : Nat := keyOf c.core (homeIdx c.key)

/-- The context is Away (R13). -/
def Ctx.away (c : Ctx) : Bool := c.place != .home

/-- The context is not Free. -/
def Ctx.live (c : Ctx) : Bool := c.st != .free

/-- Home core and index of a context as CTXID gives them (R30). -/
def ctxId (key : Nat) : Word :=
  BitVec.ofNat 64 (coreY (homeCore key) * 2 ^ 16 + coreX (homeCore key) * 2 ^ 8 + homeIdx key)

/-- All contexts that have a record. -/
def allCtxs (s : State) : List Ctx := s.cx :: s.ctxs.map Prod.snd

/-- The contexts of one core's home slots, by index. -/
def homeCtxs (s : State) (core : Nat) : List Ctx := (upFrom (16 * core) 12).map (getCtx s)

/-! Tenants, pours and brews -/

def getTenant (s : State) (t : Nat) : Tenant := tgetD s.tenants t {}
def setTenant (s : State) (t : Nat) (v : Tenant) : State := { s with tenants := tput s.tenants t v }
def updTenant (s : State) (t : Nat) (f : Tenant → Tenant) : State := setTenant s t (f (getTenant s t))

/-- The pour of an identity. -/
def findPour (s : State) (id : Nat) : Option Pour := s.pours.find? (fun p => p.id == id)

/-- Changes a pour. -/
def updPour (s : State) (id : Nat) (f : Pour → Pour) : State := { s with pours := mapFirst (fun p => p.id == id) f s.pours }

/-- The brew of a tenant and a number. -/
def findBrew (s : State) (t num : Nat) : Option Brew := s.brews.find? (fun b => b.tenant == t && b.num == num)

/-- Changes a brew. -/
def updBrew (s : State) (t num : Nat) (f : Brew → Brew) : State :=
  { s with brews := mapFirst (fun b => b.tenant == t && b.num == num) f s.brews }

/-- The cores of a pour, in (y, x) order (R18, R259). -/
def Pour.cores (p : Pour) : List Nat :=
  (upFrom p.oy p.h).flatMap (fun y => (upFrom p.ox p.w).map (fun x => coreAt x y))

/-- A number no other packet, operation, pour or handle has. -/
def fresh (s : State) : Nat × State := (s.nextId, { s with nextId := s.nextId + 1 })

/-! Registers of the issuing context (R94, R95) -/

/-- S[i]: s0 reads zero (R8, R95). -/
def Ctx.rs (c : Ctx) (i : BitVec 5) : Word := if i = 0 then 0 else vget c.s i.toNat 0

/-- A write of S[i]: one to s0 is discarded (R95). -/
def Ctx.ws (c : Ctx) (i : BitVec 5) (v : Word) : Ctx := if i = 0 then c else { c with s := vset c.s i.toNat v }

/-- P[i]: p0 is always true (R216). -/
def Ctx.rp (c : Ctx) (i : BitVec 3) : Word := if i = 0 then BitVec.allOnes 64 else vget c.p i.toNat 0

/-- A write of P[i]: one to p0 is discarded (R95). -/
def Ctx.wp (c : Ctx) (i : BitVec 3) (v : Word) : Ctx := if i = 0 then c else { c with p := vset c.p i.toNat v }

/-- V[i] (R216). -/
def Ctx.rv (c : Ctx) (i : BitVec 4) : VReg := vget c.v i.toNat 0

/-- A write of V[i]. In a context that is Away it sets the register's VLIVE bit (R174). -/
def Ctx.wv (c : Ctx) (i : BitVec 4) (x : VReg) : Ctx :=
  { c with
    v := vset c.v i.toNat x
    vlive := if c.away then c.vlive ||| (1#64 <<< i.toNat) else c.vlive }

/-- Segment register g (R135). -/
def Ctx.rg (c : Ctx) (i : BitVec 3) : Seg := vget c.g i.toNat {}

def rs (s : State) (i : BitVec 5) : Word := s.cx.rs i
def ws (s : State) (i : BitVec 5) (v : Word) : State := updCx s (fun c => c.ws i v)
def rp (s : State) (i : BitVec 3) : Word := s.cx.rp i
def wp (s : State) (i : BitVec 3) (v : Word) : State := updCx s (fun c => c.wp i v)
def rv (s : State) (i : BitVec 4) : VReg := s.cx.rv i
def wv (s : State) (i : BitVec 4) (x : VReg) : State := updCx s (fun c => c.wv i x)
def rg (s : State) (i : BitVec 3) : Seg := s.cx.rg i

/-- The register a context-wide scalar number names. -/
def sreg (n : Nat) : BitVec 5 := BitVec.ofNat 5 n

/-- The next word's offset (R112). -/
def pcNext (c : Ctx) : Addr := c.pc + 4

end Sys2Proof.Machine
end

