-- ==== Sys2Proof/Machine/Mem.lean ====
section
/-! DEFINITION. Memory: the one list of bytes, the physical map, translation behind the cluster port, the trace ring
(R140 to R147, R152, R153, R162, R379). -/

namespace Sys2Proof.Machine

/-! Bytes -/

/-- What an address that is not listed reads as: zero (R29 for the window kinds 0 and 1; log 1 for the tiers). -/
def unlisted : Byte := 0

/-- One byte. -/
def rdB (m : List Host.Cell) (a : Nat) : Byte := (tget m a).getD unlisted

/-- Writes one byte; the value an unlisted address reads as is not listed. -/
def wrB (m : List Host.Cell) (a : Nat) (b : Byte) : List Host.Cell := if b = unlisted then tdel m a else tput m a b

/-- The `n` bytes from an address, lowest first. -/
def rdBytes (m : List Host.Cell) (a n : Nat) : List Byte := (upFrom a n).map (rdB m)

/-- Writes bytes from an address on. -/
def wrBytes (m : List Host.Cell) (a : Nat) : List Byte → List Host.Cell
  | [] => m
  | b :: t => wrBytes (wrB m a b) (a + 1) t

/-- `n` bytes as a number (R4). -/
def rdN (m : List Host.Cell) (a n : Nat) : Nat := natOfBytes (rdBytes m a n)

/-- The canonical form: addresses strictly rising, no entry equal to what an unlisted address reads as. -/
def Memory.wf : List Host.Cell → Bool
  | [] => true
  | [(_, b)] => b != unlisted
  | (k, b) :: (j, d) :: t => decide (k < j) && b != unlisted && Memory.wf ((j, d) :: t)

/-- Removes every byte of an interval. -/
def eraseRange (m : List Host.Cell) (lo hi : Nat) : List Host.Cell := m.filter (fun c => c.1 < lo || hi ≤ c.1)

/-- Where a window byte is kept (R142). -/
def winKey (wa : Nat) : Nat := Config.windowBase + wa

/-- A window address from its fields (R142). -/
def winAddr (core kind off : Nat) : Nat := coreX core * 2 ^ 42 + coreY core * 2 ^ 37 + kind * 2 ^ 32 + off

/-- Scratchpad bytes of a core under its LSPLIT (R148). -/
def scratchSize (c : CoreSt) : Nat := Config.scratchMax - Config.scratchStep * fieldN c.lsplit 0 4

/-- Bytes of a core's scratchpad. -/
def rdScratch (s : State) (core off n : Nat) : List Byte := rdBytes s.mem (winKey (winAddr core 0 off)) n

/-- Writes bytes of a core's scratchpad. -/
def wrScratch (s : State) (core off : Nat) (l : List Byte) : State :=
  { s with mem := wrBytes s.mem (winKey (winAddr core 0 off)) l }

/-! The physical map and translation (R144, R145, R381) -/

/-- HBM4E (R144). -/
def isHbm (pa : Nat) : Bool := decide (pa < 0x90_0000_0000)

/-- The address is backed (R144). -/
def backed (pa : Nat) : Bool := isHbm pa || (decide (0x100_0000_0000 ≤ pa) && decide (pa < 0x200_0000_0000))

/-- Reduced service: a walk that reaches an HBM4E frame waits (R381). -/
def held (s : State) (pa : Nat) : Bool := s.phase != 2 && isHbm pa

/-! Protection of physical blocks (R379). The hash tree over the counters is taken as what it is for: its root knows every
counter (log 12). -/

/-- The tree does not vouch for a block's counter. -/
def treeBad (s : State) (b : Nat) : Bool := (tget s.macs b).any (fun o => tget s.treeRoot b != some o.count)

/-- A block is written back for a tenant, or under the device key; its counter advances, in the tree as well. What stands under
the device key stays there (log 12). -/
def sealAs (owner : Option Nat) (s : State) (b : Nat) : State :=
  let old := tget s.macs b
  let n := (old.map Mac.count).getD 0 + 1
  let who := if old.any (fun o => o.owner.isNone) then none else owner
  { s with
    macs := tput s.macs b { owner := who, key := (who.map (fun t => (getTenant s t).secret)).getD 0, count := n }
    treeRoot := tput s.treeRoot b n }

/-- The block's protection refuses the tenant: it was written back under another owner or key. What stands under the device key
is no tenant's. -/
def macBad (s : State) (tenant pa : Nat) : Bool :=
  treeBad s (pa / 256) || (tget s.macs (pa / 256)).any (fun o =>
    o.owner.any (fun t => t != tenant || o.key != (getTenant s tenant).secret))

/-- A table's block does not pass the walk's check: what was written under a tenant's earlier key. -/
def tableBad (s : State) (ea : Nat) : Bool :=
  treeBad s (ea / 256) || (tget s.macs (ea / 256)).any (fun o => o.owner.any (fun t => o.key != (getTenant s t).secret))

/-- What a translation answers. -/
inductive Xlat where
  | ok (pa : Nat) (s : State)
  | fault
  | wait
  | bad

/-- What a walk answers: the page's base and shift, whether it may be written, and the entries passed. -/
inductive Walk where
  | ok (base shift : Nat) (writable : Bool) (path : List Nat)
  | fault
  | wait
  | bad

/-- The shifts of the four levels and the bits of their index (R144). -/
def walkLevels : List (Nat × Nat) := [(39, 9), (30, 9), (21, 9), (16, 5)]

/-- Bits of an entry that must be zero (R145). -/
def pteReserved (e : Nat) : Bool := e / 2 ^ 48 != 0 || e / 2 ^ 5 % 8 != 0

/-- An entry with A set, and D on a write (R145). -/
def pteTouched (e : Nat) (write : Bool) : Nat := (BitVec.ofNat 64 e ||| 4 ||| (if write then 8 else 0)).toNat

/-- The walk of R144 and R145 from a table, level by level. A and D are set in each entry it passes, once the whole walk
has found its page. A next table that is not aligned to its size is refused (log 72). -/
def walk (s : State) (va : Nat) (write : Bool) (writable : Bool) (table : Nat) : List (Nat × Nat) → Nat → List Nat → Walk
  | [], _, _ => .fault
  | (sh, bits) :: rest, level, seen =>
    let ea := table + 8 * (va / 2 ^ sh % 2 ^ bits)
    if !backed ea then .fault
    else if held s ea then .wait
    else if tableBad s ea then .bad
    else
      let e := rdN s.mem ea 8
      let w := writable && e / 2 % 2 == 1
      let leaf := e / 16 % 2 == 1
      let addr := e / 2 ^ 8 % 2 ^ 40 * 2 ^ 8
      if e % 2 = 0 || (write && !w) || pteReserved e || !backed addr then .fault
      else if leaf then
        if level = 1 || addr % 2 ^ sh != 0 then .fault
        else if held s addr then .wait
        else .ok addr sh w (ea :: seen)
      else if level = 4 || addr % (if level = 3 then 256 else 4096) != 0 then .fault
      else walk s va write w addr rest (level + 1) (ea :: seen)

/-- Sets A and D in the entries a walk passed, which are written back under the device key (R145, R379). An entry that has its
bits already is not written. -/
def markEntries (s : State) (write : Bool) : List Nat → State
  | [] => s
  | ea :: t =>
    let e := rdN s.mem ea 8
    let n := pteTouched e write
    markEntries (if n = e then s else sealAs none { s with mem := wrBytes s.mem ea (bytesOfNat 8 n) } (ea / 256)) write t

/-- A translation a cluster holds for an address (R145). -/
def tlbFind (s : State) (cluster tenant va : Nat) : Option TlbEntry :=
  s.tlb.find? (fun t => t.cluster == cluster && t.tenant == tenant && va / 2 ^ t.level == t.vbase)

/-- A translation replaces the one its cluster held for the page. -/
def tlbPut (s : State) (e : TlbEntry) : List TlbEntry :=
  e :: s.tlb.filter (fun t => !(t.cluster == e.cluster && t.tenant == e.tenant && t.level == e.level && t.vbase == e.vbase))

/-- Translation at the home cluster's port (R140, R144, R145). One the cluster holds passes no table again, whatever became
of its entries; each translation sets A in them, and the first write sets D. -/
def translate (s : State) (tenant va : Nat) (write : Bool) : Xlat :=
  let cl := clusterOf (homeOf va)
  match tlbFind s cl tenant va with
  | none =>
    match walk s va write true (getTenant s tenant).root.toNat walkLevels 1 [] with
    | .fault => .fault
    | .wait => .wait
    | .bad => .bad
    | .ok base sh w seen =>
      .ok (base + va % 2 ^ sh)
        { markEntries s write seen with
          tlb := tlbPut s { cluster := cl, tenant := tenant, level := sh, vbase := va / 2 ^ sh, pbase := base, writable := w,
                            dirty := write, path := seen } }
  | some t =>
    if write && !t.writable then .fault
    else if held s t.pbase then .wait
    else
      .ok (t.pbase + va % 2 ^ t.level)
        { markEntries s (write && !t.dirty) t.path with tlb := tlbPut s { t with dirty := t.dirty || write } }

/-! Cluster memory (R140, R152, R153): which blocks a cluster holds, and for whom. Their bytes stand in the one list of bytes,
at their frame (log 9). -/

/-- The block of an address, when its cluster holds it. -/
def resFind (s : State) (tenant va : Nat) : Option Resident :=
  s.resident.find? (fun r => r.tenant == tenant && r.block == va / 256)

/-- A block that was written is written back under its tenant's key (R379). -/
def sealBlock (s : State) (r : Resident) : State := if r.written then sealAs (some r.tenant) s r.frame else s

/-- Blocks leave cluster memory. -/
def writeOut (f : Resident → Bool) (s : State) : State :=
  (s.resident.filter f).foldl sealBlock { s with resident := s.resident.filter (fun r => !f r) }

/-- A block of a tenant is another than that of an address. -/
def otherBlock (tenant va : Nat) (r : Resident) : Bool := !(r.tenant == tenant && r.block == va / 256)

/-- Where the 48 MiB of an address's cluster are full, a block leaves them, which one is a free value (R9, R152, log 9). -/
def makeRoom (s : State) (tenant va : Nat) : State :=
  let there (r : Resident) : Bool := clusterOf (homeOf (256 * r.block)) == clusterOf (homeOf va) && otherBlock tenant va r
  let l := s.resident.filter there
  if l.length < Config.clusterBlocks then s
  else
    match l[Config.choice s.ticks % l.length]? with
    | some x => writeOut (fun r => r == x) s
    | none => s

/-- The cluster holds a block from now on. -/
def keepBlock (s : State) (tenant va pa : Nat) (write : Bool) : State :=
  let s1 := makeRoom s tenant va
  { s1 with
    resident := { tenant := tenant, block := va / 256, frame := pa / 256, written := write }
      :: s1.resident.filter (otherBlock tenant va) }

/-! Accesses to global addresses (R127, R153, R379, R382) -/

/-- What an access to a global address meets once it passes the checks. -/
inductive GAcc where
  | ok (pa : Nat) (s : State)
  | far
  | page
  | wait
  | error (cause : BitVec 8)

/-- The other device whose window of a tenant holds an address (R374, R382). -/
def farDev (s : State) (tenant va : Nat) : Option Nat :=
  match (getTenant s tenant).windows.find? (fun w => w.2.len != 0 && w.2.base.toNat ≤ va && va < w.2.base.toNat + w.2.len * 2 ^ 30) with
  | some w => if w.2.dev = s.dev.toNat then none else some w.2.dev
  | none => none

/-- The path of an access to a global address. An address of another device is carried there, unless the fabric path fails
(R382). A block its cluster holds needs no translation, but for the first write to it (R140, R145); a block that is missing
is fetched and checked (R153, R379), unless all of it is written (`whole`). -/
def gpath (s : State) (tenant va : Nat) (write whole : Bool) : GAcc :=
  match farDev s tenant va with
  | some d => if Config.pathFails s.ticks d then .error 0x15 else .far
  | none =>
    let r := resFind s tenant va
    match r.filter (fun r => !write || r.written) with
    | some r => if s.bad.contains r.frame then .error 0x15 else .ok (256 * r.frame + va % 256) s
    | none =>
      match translate s tenant va write with
      | .fault => .page
      | .wait => .wait
      | .bad => .error 0x16
      | .ok pa s' =>
        if s.bad.contains (pa / 256) then .error 0x15
        else if r.isNone && !whole && macBad s tenant pa then .error 0x16
        else .ok (256 * (pa / 256) + va % 256) (keepBlock s' tenant va pa write)

/-! Arrivals: a write at a home bank (R159, R162) -/

/-- The cluster and the entry of the trace ring for an arrival of a tenant's write. `who` names the issuing core and the
home index of the issuing context. Arrivals of one step have a clock each (R162, R168). -/
def traceEntry (s : State) (tenant va kind who : Nat) : State :=
  let cl := clusterOf (homeOf va)
  let w0 : Word := BitVec.ofNat 64 (kind * 2 ^ 62 + (s.cycle.toNat + s.landed) % 2 ^ 62)
  let w1 : Word := BitVec.ofNat 64
    (homeIdx who * 2 ^ 59 + coreY (homeCore who) * 2 ^ 54 + coreX (homeCore who) % 64 * 2 ^ 48 + va % 2 ^ 48)
  let old := tgetD s.traces cl []
  let kept := if Config.traceEntries ≤ old.length then old.drop 1 else old
  { s with traces := tput s.traces cl (kept ++ [{ tenant := tenant, w0 := w0, w1 := w1 }]), landed := s.landed + 1 }

/-- Bytes of a line, from an address on, as its mask. -/
def lineMask (va n : Nat) : BitVec 128 := BitVec.ofNat 128 ((2 ^ n - 1) * 2 ^ (va % 128))

/-- Bytes of one line of a core's L1 are dirty, with the writer as the line's last (R151). -/
def dirtyLine (s : State) (core tenant who va n : Nat) : State :=
  let is (d : Dirty) : Bool := d.core == core && d.tenant == tenant && d.line == va / 128
  let old := ((s.dirty.find? is).map Dirty.mask).getD 0
  { s with dirty := { core := core, tenant := tenant, line := va / 128, mask := old ||| lineMask va n, who := who }
      :: s.dirty.filter (fun d => !is d) }

/-- A plain store leaves the bytes of its one or two lines dirty in the L1 of the core that issues it (R151). -/
def dirtyPut (s : State) (tenant va n who : Nat) : State :=
  let first := if n ≤ 128 - va % 128 then n else 128 - va % 128
  let s1 := dirtyLine s (homeCore who) tenant who va first
  if first < n then dirtyLine s1 (homeCore who) tenant who (va + first) (n - first) else s1

/-- Dirty bytes a core holds of an interval are written back (R178). -/
def cleanBytes (s : State) (core tenant va n : Nat) : State :=
  let keep (d : Dirty) : BitVec 128 :=
    if d.core = core ∧ d.tenant = tenant then
      d.mask &&& ~~~(BitVec.ofNat 128 ((upFrom 0 128).foldl (fun m i =>
        if va ≤ 128 * d.line + i ∧ 128 * d.line + i < va + n then m + 2 ^ i else m) 0))
    else d.mask
  { s with dirty := (s.dirty.map (fun d => { d with mask := keep d })).filter (fun d => d.mask != 0) }

/-- A release: the dirty lines of a core are written back (R151). -/
def cleanCore (s : State) (core : Nat) : State := { s with dirty := s.dirty.filter (fun d => d.core != core) }

/-- The offsets at which runs of a line's dirty bytes begin. -/
def Dirty.runs (d : Dirty) : List Nat := (upFrom 0 128).filter (fun i => d.mask.getLsbD i && !(i != 0 && d.mask.getLsbD (i - 1)))

/-- The dirty lines of a tenant are written back as its trace is enabled: an entry of kind 0 for every run of bytes (R167,
log 73). -/
def cleanTenant (s : State) (tenant : Nat) : State :=
  let mine := s.dirty.filter (fun d => d.tenant == tenant)
  mine.foldl (fun s d => d.runs.foldl (fun s i => traceEntry s tenant (128 * d.line + i) 0 d.who) s)
    { s with dirty := s.dirty.filter (fun d => d.tenant != tenant) }

/-- A FARST (R178): an arrival of kind 0 that no L1 allocates. -/
def farKind : Nat := 4

/-- What an arrival leaves besides its bytes: its entry while the tenant's trace is enabled, else, for a plain store, its bytes
dirty in L1 (R151, R162, R167). -/
def traceArrival (s : State) (tenant va kind n who : Nat) : State :=
  if (getTenant s tenant).trace then traceEntry s tenant va (kind % 4) who
  else if kind = 0 then dirtyPut s tenant va n who
  else s

/-- Writes bytes of one block at a physical address for a tenant: one arrival (R159, R162). -/
def arrive (s : State) (tenant va pa : Nat) (l : List Byte) (kind who : Nat) : State :=
  traceArrival { s with mem := wrBytes s.mem pa l } tenant va kind l.length who

/-- An interval of cluster-virtual space cut at block boundaries: (address, length) pieces. -/
def blocks (va n : Nat) : Nat → List (Nat × Nat)
  | 0 => []
  | k + 1 =>
    if n = 0 then []
    else
      let room := 256 - va % 256
      let len := if n ≤ room then n else room
      (va, len) :: blocks (va + len) (n - len) k

/-- Cuts an interval at block boundaries. -/
def blocksOf (va n : Nat) : List (Nat × Nat) := blocks va n (n / 256 + 2)

/-- Reads an interval for an agent of the part, without touches. What another device answers is a free value (log 15). -/
inductive GRead where
  | ok (l : List Byte) (s : State)
  | page (va : Nat)
  | wait
  | error (cause : BitVec 8) (va : Nat)

def greadL (s : State) (tenant : Nat) : List (Nat × Nat) → GRead
  | [] => .ok [] s
  | (va, n) :: t =>
    match gpath s tenant (va % 2 ^ 48) false false with
    | .page => .page va
    | .wait => .wait
    | .error c => .error c va
    | .ok pa s1 =>
      match greadL s1 tenant t with
      | .ok l s2 => .ok (rdBytes s1.mem pa n ++ l) s2
      | r => r
    | .far =>
      match greadL s tenant t with
      | .ok l s2 => .ok ((upFrom (va % 2 ^ 48) n).map (Config.farByte s.ticks) ++ l) s2
      | r => r

/-- Reads `n` bytes of a tenant's space (R140, R153). -/
def gread (s : State) (tenant va n : Nat) : GRead := greadL s tenant (blocksOf va n)

/-- The same for an instruction that has no cause for an error on the path: what it reads is a free value (R315, R333, log 77). -/
def greadOpen (s : State) (tenant va n : Nat) : GRead :=
  match gread s tenant va n with
  | .error _ _ => .ok ((upFrom va n).map (Config.lostByte s.ticks)) s
  | r => r

/-- Writes an interval, one arrival per block (R162). A piece for another device leaves the part. -/
inductive GWrite where
  | ok (s : State)
  | page (va : Nat)
  | wait
  | error (cause : BitVec 8) (va : Nat)

def gwriteL (s : State) (tenant kind who : Nat) : List (Nat × Nat) → List Byte → GWrite
  | [], _ => .ok s
  | (va, n) :: t, l =>
    match gpath s tenant (va % 2 ^ 48) true (n == 256) with
    | .page => .page va
    | .wait => .wait
    | .error c => .error c va
    | .ok pa s1 => gwriteL (arrive s1 tenant (va % 2 ^ 48) pa (l.take n) kind who) tenant kind who t (l.drop n)
    | .far => gwriteL s tenant kind who t (l.drop n)

/-- Writes bytes to a tenant's space, for `who` (R162). Nothing is written unless every block can be. -/
def gwrite (s : State) (tenant va : Nat) (l : List Byte) (kind who : Nat) : GWrite :=
  gwriteL s tenant kind who (blocksOf va l.length) l

end Sys2Proof.Machine
end

