-- ==== Sys2Proof/Machine/Ops.lean ====
section
/-! DEFINITION. The shared operations of every meaning: completing, waiting, taking a trap and returning from one, charging
a cause, failing a fill, starting a cut (R112 to R114, R203 to R208, R210, R212, R256, R306 to R308, R363, R377). -/

namespace Sys2Proof.Machine

/-! Trap registers (R201) -/

/-- TCAUSE.INH. -/
def Ctx.inh (c : Ctx) : Bool := bitN c.tcause 63

/-- TCAUSE.UP. -/
def Ctx.up (c : Ctx) : Bool := bitN c.tcause 62

/-- The mask of the bits TVEC, UPVEC, TRPC and BPA hold: OFF [47:2] (R201). -/
def offMask : Word := 0x0000_FFFF_FFFF_FFFC

/-- TCAUSE as delivery sets it (R204, R205). -/
def tcauseOf (up : Bool) (ch : Charge) : Word :=
  BitVec.ofNat 64 (2 ^ 63 + b2n up * 2 ^ 62 + b2n ch.dfr * 2 ^ 61 + ch.engine.toNat * 2 ^ 8 + ch.cause.toNat)

/-- A context as a requester list names it (R207). -/
def reqWord (key : Nat) : BitVec 32 :=
  BitVec.ofNat 32 (coreX (homeCore key) + coreY (homeCore key) * 2 ^ 6 + homeIdx key * 2 ^ 11)

/-- The requesters a record names: those charged, else the context itself (R207). -/
def Charge.requesters (ch : Charge) (key : Nat) : List (BitVec 32) := if ch.reqs.isEmpty then [reqWord key] else ch.reqs.take 8

/-- The fault record a delivery or an escalation writes (R207). -/
def frecOf (old : FaultRec) (up : Bool) (ch : Charge) (key : Nat) (trpc : Word) : FaultRec :=
  { cause := ch.cause, engine := ch.engine, valid := true, dfr := ch.dfr, up := up, lost := old.valid, extra := ch.extra,
    addr := ch.addr.getD ch.val, trpc := trpc
    count := if ch.reqs.isEmpty then 1 else ch.count
    reqs := ch.requesters key }

/-- The 64 bytes of a fault record (R207). -/
def FaultRec.bytes (f : FaultRec) : List Byte :=
  bytesOfNat 1 f.cause.toNat ++ bytesOfNat 1 f.engine.toNat
    ++ bytesOfNat 2 (b2n f.valid + 2 * b2n f.dfr + 4 * b2n f.up + 8 * b2n f.lost)
    ++ bytesOfNat 4 f.extra.toNat ++ bytesOfNat 8 f.addr.toNat ++ bytesOfNat 8 f.trpc.toNat
    ++ bytesOfNat 4 f.count.toNat ++ bytesOfNat 4 0
    ++ (f.reqs.take 8).flatMap (fun r => bytesOfNat 4 r.toNat) ++ List.replicate (4 * (8 - (f.reqs.take 8).length)) 0

/-- The trap registers and the record as a delivery or an escalation leaves them (R204, R206). -/
def Ctx.trapped (c : Ctx) (up : Bool) (ch : Charge) : Ctx :=
  let trpc : Word := c.pc.setWidth 64
  { c with
    tcause := tcauseOf up ch
    tval := ch.val
    trpc := trpc
    frec := frecOf c.frec up ch c.key trpc
    st := .ready
    again := false
    fetched := false
    met := none }

/-- Order of a requester list: by row, column and index (R207). -/
def sortReqs (keys : List Nat) : List Nat := sortBy (fun k => k % 2 ^ 15) keys

/-! Cuts (R211, R212) -/

/-- Starts a cut of a pour, or joins the one in progress. -/
def startCut (s : State) (pour : Nat) (frees : Bool) (nxt : PourSt) (marks : List (Nat × BitVec 5 × Word)) : State :=
  match s.cuts.find? (fun c => c.pour == pour) with
  | some _ =>
    let join (c : Cut) : Cut :=
      { c with
        frees := c.frees || frees
        next := if frees && c.next != .faulted then nxt else c.next
        marks := c.marks ++ marks }
    { s with cuts := mapFirst (fun c => c.pour == pour) join s.cuts }
  | none =>
    match findPour s pour with
    | some p =>
      if p.st = .placed then
        { updPour s pour (fun q => { q with st := .cutting }) with
          cuts := s.cuts ++ [{ pour := pour, units := p.cores, frees := frees, next := nxt, marks := marks }] }
      else s
    | none => s

/-! The fault queue (R377) -/

/-- The wrap value of R239. -/
def wrapValue (count : Nat) : Nat := count * (2 ^ 32 / count)

/-- The 128 bytes of an escalation entry (R377). -/
def faultEntry (s : State) (c : Ctx) : List Byte :=
  c.frec.bytes ++ bytesOfNat 4 (fieldN c.brewCsr 0 32) ++ bytesOfNat 4 (((findPour s c.pour).map Pour.idx).getD 0)
    ++ bytesOfNat 2 (coreX (homeCore c.key) + 64 * coreY (homeCore c.key)) ++ List.replicate 54 0

/-- An entry of a tenant's fault queue is dropped and counted (R377). -/
def dropFault (s : State) (t : Nat) : State := updTenant s t (fun x => { x with faultsDropped := x.faultsDropped + 1 })

/-- Appends an entry to a tenant's fault queue. One that finds the queue full is dropped and counted (R377); so is one that
finds no header it can use, and bytes 20 to 63 of the header are not looked at (log 42). An entry whose walk waits for
HBM4E waits with it (R381). -/
def appendEntry (s : State) (e : FaultEntry) : State :=
  let t := e.tenant
  let q := (getTenant s t).faultQ.toNat
  let waits (s : State) : State := { s with lateFaults := s.lateFaults ++ [e] }
  match gread s t q 20 with
  | .ok hdr s1 =>
    let base := natOfBytes (hdr.take 8)
    let count := natOfBytes ((hdr.drop 8).take 4)
    let head := natOfBytes ((hdr.drop 12).take 4)
    let tail := natOfBytes ((hdr.drop 16).take 4)
    if count = 0 || 65536 < count then dropFault s t
    else
      let m := wrapValue count
      if (tail + m - head % m) % m = count then dropFault s t
      else
        match gwrite s1 t (base + 128 * (tail % count)) e.bytes 3 e.who with
        | .ok s2 =>
          match gwrite s2 t (q + 16) (bytesOfNat 4 ((tail + 1) % m)) 3 e.who with
          | .ok s3 => s3
          | .wait => waits s
          | _ => dropFault s t
        | .wait => waits s
        | _ => dropFault s t
  | .wait => waits s
  | _ => dropFault s t

/-- An escalation of a context goes to its tenant's fault queue, behind entries that wait already (R206, R377). -/
def appendFault (s : State) (c : Ctx) : State :=
  let e : FaultEntry := { tenant := c.tenant.toNat, bytes := faultEntry s c, who := c.who }
  if (getTenant s e.tenant).faultQ = 0 then s
  else if s.lateFaults.any (fun x => x.tenant == e.tenant) then { s with lateFaults := s.lateFaults ++ [e] }
  else appendEntry s e

/-- The entries that waited for HBM4E are appended, in their order (R381). -/
def appendLate (s : State) : State := s.lateFaults.foldl appendEntry { s with lateFaults := [] }

/-! Blocks of procedural ranges (R301, R302) -/

/-- The range of a tenant that holds an address, with its number. -/
def rangeAt (s : State) (tenant va : Nat) : Option (Nat × Range) :=
  (getTenant s tenant).ranges.find? (fun r => r.2.base ≤ va && va < r.2.base + r.2.len)

/-- The block of a range that holds an address, and its address. -/
def Range.blockOf (r : Range) (va : Nat) : Nat := (va - r.base) / 2 ^ r.blog
def Range.blockVa (r : Range) (i : Nat) : Nat := r.base + i * 2 ^ r.blog

/-- A block's state, read at the home of its byte of the fill-state table (R301, R302). -/
def blockState (s : State) (tenant : Nat) (r : Range) (i : Nat) : GRead := gread s tenant (r.state + i / 4) 1

/-- Writes a block's state there. -/
def setBlockState (s : State) (tenant : Nat) (r : Range) (i v key : Nat) : GWrite :=
  match gread s tenant (r.state + i / 4) 1 with
  | .ok l s1 =>
    let b : Byte := l.headD 0
    gwrite s1 tenant (r.state + i / 4) [putField b (2 * (i % 4)) 2 v] 3 key
  | .page va => .page va
  | .wait => .wait
  | .error c va => .error c va

/-! Contexts of a pour that a cut saved (R32, R212, log 69). What they left under way outside their cores has keys of its own, by
the image's serial; the next serial is that of the work of contexts that had ended. -/

/-- A sender whom nothing is reported to: what a pour that was discarded left under way has it (R373, R376). -/
def nobodyKey : Nat := 16 * 2047 + 2

/-- A recorded context. -/
def imgCtx (img : Image) (key : Nat) : Option Ctx := img.ctxs.find? (fun c => c.key == key)

/-- Changes a recorded context. -/
def putImgCtx (img : Image) (c : Ctx) : Image := { img with ctxs := mapFirst (fun x => x.key == c.key) (fun _ => c) img.ctxs }

/-- A recorded core. -/
def imgCore (img : Image) (core : Nat) : CoreSt := ((img.cores.find? (fun k => k.1 == core)).map Prod.snd).getD {}

/-- Changes a recorded core. -/
def updImgCore (img : Image) (core : Nat) (f : CoreSt → CoreSt) : Image :=
  { img with cores := img.cores.map (fun k => if k.1 = core then (k.1, f k.2) else k) }

/-- Replaces the image of a pour. -/
def putImage (s : State) (pour : Nat) (img : Image) : State := updPour s pour (fun q => { q with image := some img })

/-- The key is that of a recorded context, or of work it left outside. -/
def Image.owns (g : Image) (key : Nat) : Bool :=
  (g.serial != 0 && (key / 2 ^ 15 == g.serial || key / 2 ^ 15 == g.serial + 1))
    || (decide (2 ^ 15 ≤ key) && g.ctxs.any (fun c => c.key == key))

/-- The recorded context that a key is for, else context 0 of its shot (R19). -/
def Image.target (g : Image) (key : Nat) : Nat :=
  let k := if key / 2 ^ 15 = g.serial then key % 2 ^ 15 else key
  if g.ctxs.any (fun c => c.key == k) then k else keyOf (homeCore key) 0

/-- The recorded context of a key. -/
def Image.ctx (g : Image) (key : Nat) : Ctx := (imgCtx g (g.target key)).getD {}

/-- The saved pour a key belongs to. -/
def savedIn (s : State) (key : Nat) : Option (Nat × Image) :=
  s.pours.findSome? (fun p => p.image.bind (fun g => if g.owns key then some (p.id, g) else none))

/-- A context wherever its state is held. -/
def ctxOf (s : State) (key : Nat) : Ctx :=
  match savedIn s key with
  | some x => x.2.ctx key
  | none => getCtx s key

/-! Charging a cause, and the failure of a fill (R203, R206, R308, R363) -/

/-- A context as escalation leaves it (R206). One that is Parked or saved stays so. -/
def Ctx.escalated (c : Ctx) (ch : Charge) : Ctx :=
  let st : CtxState := match c.st with
    | .parked => .parked
    | .saved p => .saved p
    | _ => .ready
  { c.trapped false ch with stopped := true, st := st }

/-- Escalation without the failure of a fill: the trap registers, the fault queue, the cut (R206). -/
def escalateCtx (s : State) (c : Ctx) (ch : Charge) : State :=
  let c' := c.escalated ch
  startCut (appendFault (putCtx s c') c') c.pour true .faulted []

/-- The fill a context that escalates leaves failed (R306). -/
def fillLost (c : Ctx) (ch : Charge) : List FillFail :=
  match c.gen with
  | some g => [{ tenant := g.tenant, range := g.range, block := g.block, cause := 0x09,
                 code := 0xFFFF_0000 + ch.cause.setWidth 32, key := c.key }]
  | none => []

/-- A cause for work of a context that ended names that context (R207). -/
def Charge.named (ch : Charge) (key : Nat) : Charge :=
  { ch with
    reqs := if ch.reqs.isEmpty then [reqWord key] else ch.reqs
    count := if ch.reqs.isEmpty then 1 else ch.count }

/-- Four charged causes are held while INH is set; another escalates (R363). -/
def Ctx.fullOf (c : Ctx) : Bool := c.inh && decide (Config.chargedHeld ≤ c.charged.length)

/-- Charges a cause to a recorded context. One that escalates leaves its pour faulted (R206). -/
def chargeSaved (s : State) (pour : Nat) (g : Image) (key : Nat) (ch : Charge) : State × List FillFail :=
  let c := g.ctx key
  let ch := if c.key % 2 ^ 15 = key % 2 ^ 15 then ch else ch.named key
  if c.fullOf then
    let c' := c.escalated ch
    (updPour (appendFault (putImage s pour (putImgCtx g c')) c') pour (fun q => { q with st := .faulted }), fillLost c ch)
  else (putImage s pour (putImgCtx g { c with charged := c.charged ++ [ch] }), [])

/-- Charges an engine's or a join's cause to a context (R203). Up to four are held while INH is set; a fifth escalates
(R363). A context that has become Free leaves the cause to context 0 of its shot (R19); its work has a key of its own since
then, so a context that took its index since is not charged. Without a context 0 nobody is. -/
def chargeOne (s : State) (key : Nat) (ch : Charge) : State × List FillFail :=
  match savedIn s key with
  | some x => chargeSaved s x.1 x.2 key ch
  | none =>
    let c0 := getCtx s key
    let key' := if c0.live then key else keyOf (homeCore key) 0
    let ch : Charge := if c0.live then ch else ch.named key
    let c := getCtx s key'
    if !c.live then (s, [])
    else if c.fullOf then (escalateCtx s c ch, fillLost c ch)
    else (putCtx s { c with charged := c.charged ++ [ch] }, [])

/-- A context's state moves into a slot of its core's thread-context cache; the least recently used slot of a full cache is
spilled (R33). -/
def CoreSt.caches (c : CoreSt) (key : Nat) : CoreSt :=
  let l := c.cache.filter (fun k => k != key) ++ [key]
  if Config.cacheSlots < l.length then { c with cache := l.drop 1, spilled := c.spilled ++ l.take 1 } else { c with cache := l }

/-- A context's state leaves the cache, or its place in the save area. -/
def CoreSt.uncached (c : CoreSt) (key : Nat) : CoreSt :=
  { c with cache := c.cache.filter (fun k => k != key), spilled := c.spilled.filter (fun k => k != key) }

/-! Resume kettles and upcalls (R146, R205) -/

def getKettle (s : State) (core k : Nat) : Kettle := tgetD (getCore s core).kettles k {}
def setKettle (s : State) (core k : Nat) (v : Kettle) : State :=
  updCore s core (fun c => { c with kettles := tput c.kettles k v })

/-- Sets the resume kettle of a context to count 1 (R146). One saved alone has its kettle in the save (R209). -/
def armResume (s : State) (key tenant : Nat) : State :=
  let k : Kettle := { count := 1, tenant := tenant, owned := true }
  if s.saves.any (fun v => v.key == key) then
    { s with saves := mapFirst (fun v => v.key == key) (fun v => { v with resume := k }) s.saves }
  else setKettle s (homeCore key) (240 + homeIdx key) k

/-- Queues an upcall with context 0 of a core (R146). -/
def queueUpcall (s : State) (core : Nat) (u : Upcall) : State :=
  updCtx s (keyOf core 0) (fun c => { c with upcalls := c.upcalls ++ [u] })

/-- UPVEC of context 0 of a core is zero (R146). -/
def noUpvec (s : State) (core : Nat) : Bool := (getCtx s (keyOf core 0)).upvec &&& offMask == 0

/-- A context at home is Parked, its resume kettle armed, the upcall queued (R146); it stands in the thread-context cache (R33). -/
def parkHome (s : State) (key : Nat) (va : Word) (eng : BitVec 8) : State :=
  let c := getCtx s key
  let s1 := armResume (putCtx (updCore s (homeCore key) (fun k => k.caches key)) { c with st := .parked }) key c.tenant.toNat
  queueUpcall s1 (homeCore key) { va := va, engine := eng, reqs := [reqWord key] }

/-- The same of work for a recorded context: kettle and upcall stand in the image, the upcall until after resumption (R146). -/
def pageSaved (s : State) (pour : Nat) (g : Image) (key tenant : Nat) (va : Word) (eng : BitVec 8) : State × List FillFail :=
  let core := homeCore key
  let k : Kettle := { count := 1, tenant := tenant, owned := true }
  let s1 : State :=
    if s.saves.any (fun v => v.key == key) then armResume s key tenant
    else putImage s pour (updImgCore g core (fun c => { c with kettles := tput c.kettles (240 + homeIdx key) k }))
  let g1 := ((savedIn s1 key).map Prod.snd).getD g
  let c0 := (imgCtx g1 (keyOf core 0)).getD {}
  if c0.upvec &&& offMask == 0 then chargeSaved s1 pour g1 key { cause := 0x08, val := va, engine := eng }
  else (putImage s1 pour (putImgCtx g1 { c0 with upcalls := c0.upcalls ++ [{ va := va, engine := eng, reqs := [reqWord key] }] }), [])

/-- Work for a context meets a page fault: the resume kettle is armed and the upcall queued; with UPVEC 0 the cause goes to
the context itself (R146). The caller pauses the work. -/
def pageAt (s : State) (key tenant : Nat) (va : Word) (eng : BitVec 8) : State × List FillFail :=
  match savedIn s key with
  | some x => pageSaved s x.1 x.2 key tenant va eng
  | none =>
    let s1 := armResume s key tenant
    if noUpvec s (homeCore key) then chargeOne s1 key { cause := 0x08, val := va, engine := eng }
    else (queueUpcall s1 (homeCore key) { va := va, engine := eng, reqs := [reqWord key] }, [])

/-! The work of a context under another key (R19, R209, R262) -/

/-- Whom a discarded decrement is reported to, under other keys. -/
def rekeySrc (f : Nat → Nat) : DecSrc → DecSrc
  | .message k => .message (f k)
  | .copy k => .copy (f k)
  | .drip k => .drip (f k)
  | r => r

/-- A packet whose sender has another key. -/
def Packet.rekeyed (f : Nat → Nat) (q : Packet) : Packet :=
  { q with
    src := f q.src
    body := match q.body with
      | .dec w x src t => .dec w x (rekeySrc f src) t
      | b => b }

/-- An operation whose context, and whose drain handlers, have other keys. -/
def MOp.rekeyed (f : Nat → Nat) (o : MOp) : MOp :=
  let row (r : DrainRow) : DrainRow := match r.st with
    | .held k => { r with st := .held (f k) }
    | _ => r
  { o with key := f o.key, rows := o.rows.map row }

/-- What stands on a core for contexts that have other keys. -/
def CoreSt.rekeyed (f : Nat → Nat) (c : CoreSt) : CoreSt :=
  { c with
    mq := c.mq.map (MOp.rekeyed f)
    mstall := c.mstall.map (MOp.rekeyed f)
    cq := c.cq.map (fun o => { o with key := f o.key })
    cstall := c.cstall.map (fun o => { o with key := f o.key })
    setups := c.setups.map (fun x => (x.1, { x.2 with key := f x.2.key }))
    cache := c.cache.map f
    spilled := c.spilled.map f }

/-- A requester of a fill whose context has another key. -/
def Req.rekeyed (f : Nat → Nat) : Req → Req
  | .ctx k => .ctx (f k)
  | r => r

/-- What contexts have under way outside the cores they stand on goes on under other keys: packets, fills and their failures. -/
def rekeyOut (f : Nat → Nat) (s : State) : State :=
  { s with
    net := s.net.map (Packet.rekeyed f)
    fills := s.fills.map (fun x =>
      { x with gen := x.gen.map f, reqs := x.reqs.map (Req.rekeyed f), starter := x.starter.map (fun y => (y.1, f y.2)) })
    lateFails := s.lateFails.map (fun x => { x with key := f x.key }) }

/-- Everything a context issued and that is under way goes on under another key: packets, copies, matrix operations, setup
slots, the block it fills, its frame close. -/
def rekeyWork (s : State) (old new : Nat) : State :=
  let f (k : Nat) : Nat := if k = old then new else k
  { rekeyOut f s with
    cores := s.cores.map (fun c => (c.1, c.2.rekeyed f))
    closes := s.closes.map (fun x => { x with key := f x.key }) }

/-- A context leaves its visitor slot (R176). -/
def leaveSlot (s : State) (c : Ctx) : State :=
  match c.place with
  | .visitor core slot => updCore s core (fun k => { k with slots := tdel k.slots slot })
  | _ => s

/-- What is left of a context that became Free. -/
def Ctx.ended (c : Ctx) : Ctx :=
  { c with
    st := .free
    place := .home
    held := false
    again := false
    fetched := false
    met := none
    writes := []
    stepping := false
    gen := none
    row := none
    barAt := none
    mopAt := none
    binds := []
    charged := []
    deferred := [] }

/-- The work of a context that became Free gets a key of its own, so that no later context of its index has to do with it
(R19). -/
def freeWork (s : State) (key : Nat) : State :=
  rekeyWork { s with nextId := s.nextId + 1 } key (asideKey key s.nextId)

/-- Charges the causes a context held to whom its key leaves them (R19). -/
def passCharges (l : List Charge) (key : Nat) (x : State × List FillFail) : State × List FillFail :=
  l.foldl (fun a ch => let y := chargeOne a.1 key ch; (y.1, a.2 ++ y.2)) x

/-- The generator of a key ends because the block it waited for failed: its own block fails (R308). -/
def endGen (s : State) (key : Nat) : State × List Charge :=
  match savedIn s key with
  | some x =>
    let c := x.2.ctx key
    (putImage s x.1 { x.2 with ctxs := x.2.ctxs.filter (fun k => k.key != c.key) }, c.charged)
  | none => let c := getCtx s key; (freeWork (putCtx (leaveSlot s c) c.ended) key, c.charged)

/-- Changes an operation wherever it stands: on its core, or in the image of a saved pour. -/
def updSaved (s : State) (f : CoreSt → CoreSt) : State :=
  { s with pours := s.pours.map (fun p =>
      { p with image := p.image.map (fun g => { g with cores := g.cores.map (fun k => (k.1, f k.2)) }) }) }

/-- A paused drip fails with its fill: it goes, and its context is charged (R308). -/
def failDrip (f : FillFail) (pid : Nat) (s : State) : State × List FillFail :=
  let ch (p : Packet) : Charge :=
    let va : Addr := match p.body with
      | .drip _ va _ _ _ _ _ _ => va
      | _ => 0
    { cause := f.cause, val := va.setWidth 64, engine := 6, extra := f.code }
  match s.net.find? (fun p => p.id == pid) with
  | some p => chargeOne { s with net := s.net.filter (fun q => q.id != pid) } p.src (ch p)
  | none =>
    let found : Option (Nat × Image × Packet) := s.pours.findSome? (fun q =>
      q.image.bind (fun g => (g.logs.find? (fun p => p.id == pid)).map (fun p => (q.id, g, p))))
    match found with
    | some (pour, g, p) => chargeSaved s pour { g with logs := g.logs.filter (fun q => q.id != pid) } p.src (ch p)
    | none => (s, [])

/-- What the failure of a fill does to one requester (R308). -/
def failReq (f : FillFail) (addr : Nat) (keys : List Nat) (acc : State × List FillFail) (r : Req) : State × List FillFail :=
  let s := acc.1
  match r with
  | .ctx key =>
    match (ctxOf s key).gen with
    | some g =>
      let x := endGen s key
      passCharges x.2 key (x.1, acc.2 ++ [{ f with tenant := g.tenant, range := g.range, block := g.block }])
    | none =>
      let ch : Charge :=
        { cause := f.cause, val := BitVec.ofNat 64 addr, engine := 8, extra := f.code, count := BitVec.ofNat 32 keys.length,
          reqs := (keys.take 8).map reqWord }
      let x := chargeOne s key ch
      (x.1, acc.2 ++ x.2)
  | .copy core id =>
    let fail (o : COp) : COp :=
      if o.err.isSome && decide (o.errAt.2 ≤ o.pauseAt.2) then { o with paused := false }
      else { o with paused := false, err := some (f.cause, f.code, addr), errAt := o.pauseAt }
    let is (o : COp) : Bool := o.id == id
    (updSaved (updCop s core id fail) (fun c => { c with cq := mapFirst is fail c.cq }), acc.2)
  | .mat core id =>
    let fail (o : MOp) : MOp := { o with paused := false, err := some (f.cause, f.code, addr) }
    let is (o : MOp) : Bool := o.id == id
    (updSaved (updMop s core id fail) (fun c => { c with mq := mapFirst is fail c.mq }), acc.2)
  | .drip pid =>
    let x := failDrip f pid s
    (x.1, acc.2 ++ x.2)

/-- A generator holds its block no more. -/
def freeGen (s : State) (key : Nat) : State :=
  match savedIn s key with
  | some x => putImage s x.1 (putImgCtx x.2 { x.2.ctx key with gen := none })
  | none => if (getCtx s key).live then updCtx s key (fun c => { c with gen := none }) else s

/-- The block of a fill that failed is Failed: every requester is dealt with (R308). -/
def failNow (f : FillFail) (r : Range) (s : State) : State × List FillFail :=
  let is (x : Fill) : Bool := x.tenant == f.tenant && x.range == f.range && x.block == f.block
  match s.fills.find? is with
  | none => (s, [])
  | some x =>
    let s2 := { s with fills := s.fills.filter (fun y => !is y) }
    let s3 := (x.gen.map (freeGen s2)).getD s2
    let keys := sortReqs (x.reqs.filterMap (fun q => match q with
      | .ctx k => if (ctxOf s3 k).gen.isNone then some k else none
      | _ => none))
    x.reqs.foldl (failReq f (r.blockVa f.block) keys) (s3, [])

/-- One fill fails: the block becomes Failed and every requester is dealt with (R306 to R308). An update of the fill-state
table whose page is absent pauses as engine work of the context that caused it, and one whose walk waits for HBM4E waits:
the failure takes effect when the update does (R302, R381). -/
def failOne (f : FillFail) (s : State) : State × List FillFail :=
  match tget (getTenant s f.tenant).ranges f.range with
  | none => (s, [])
  | some r =>
    let late (s : State) : State := { s with lateFails := s.lateFails ++ [f] }
    match setBlockState s f.tenant r f.block 3 f.key with
    | .ok s1 => failNow f r s1
    | .page va => if f.key = nobodyKey then failNow f r s else pageAt (late s) f.key f.tenant (BitVec.ofNat 64 va) 8
    | .wait => (late s, [])
    | .error _ _ => failNow f r s

/-- Fills that fail, and those whose generators waited on them, up the chain (R308). -/
def failFills : Nat → List FillFail → State → State
  | 0, _, s => s
  | _ + 1, [], s => s
  | n + 1, f :: fs, s =>
    let x := failOne f s
    failFills n (fs ++ x.2) x.1

/-- A bound on the length of such a chain: no fill fails twice. -/
def chainBound (s : State) : Nat := 2 * s.fills.length + 8

/-- The failures whose update waited on behalf of the contexts of `which` are tried again (R146, R302). -/
def failLate (which : Nat → Bool) (s : State) : State :=
  failFills (chainBound s + s.lateFails.length) (s.lateFails.filter (fun f => which f.key))
    { s with lateFails := s.lateFails.filter (fun f => !which f.key) }

/-- Charges a cause to a context (R203, R363). -/
def charge (s : State) (key : Nat) (ch : Charge) : State :=
  let x := chargeOne s key ch
  failFills (chainBound s) x.2 x.1

/-- Charges a deferred cause: it waits for the next STL, FENCE or STOP of the context (R128, R203). -/
def chargeDeferred (s : State) (key : Nat) (ch : Charge) : State :=
  let late : Charge := { ch with dfr := true }
  match savedIn s key with
  | some x =>
    let c := x.2.ctx key
    if c.key % 2 ^ 15 = key % 2 ^ 15 then putImage s x.1 (putImgCtx x.2 { c with deferred := c.deferred ++ [late] })
    else charge s key late
  | none =>
    let c0 := getCtx s key
    if c0.live then putCtx s { c0 with deferred := c0.deferred ++ [late] } else charge s key late

/-! Chunks of a BSTR copy (R256, R258) -/

/-- A chunk fails: the copy keeps the lowest failing chunk and its code (R258). -/
def bstrFail (s : State) (core op chunk : Nat) (code : BitVec 32) : State :=
  updCop s core op (fun o =>
    match o.failed with
    | some (k, _) => if chunk < k then { o with failed := some (chunk, code) } else o
    | none => { o with failed := some (chunk, code) })

/-- A trap of context 11, or its STOP, with a chunk open fails the chunk (R256). -/
def failOpenChunk (s : State) (cause : BitVec 8) : State :=
  if homeIdx s.cx.key = 11 then
    match (getCore s (homeCore s.cx.key)).bits with
    | some b =>
      match b.chunk with
      | some (core, op, k) => bstrFail s core op k (0xFFFF_0000 + cause.setWidth 32)
      | none => s
    | none => s
  else s

/-! Taking a trap (R204, R206) -/

/-- Escalation of the issuing context (R206, R306). -/
def escalate (ch : Charge) (s : State) : State :=
  let lost := fillLost s.cx ch
  let s1 := failFills (chainBound s) lost s
  escalateCtx s1 s1.cx ch

/-- Delivery of a trap to the issuing context: the trap registers are saved, INH is set, the pc goes to TVEC (R204). -/
def deliver (ch : Charge) (s : State) : State :=
  updCx s (fun c => { c.trapped false ch with pc := (c.tvec &&& offMask).setWidth 48 })

/-- Taking a trap: delivery, or escalation when TVEC is 0 or INH is set (R204). -/
def takeTrap (ch : Charge) (s : State) : State :=
  let s1 := failOpenChunk s ch.cause
  if s1.cx.tvec &&& offMask = 0 || s1.cx.inh then escalate ch s1 else deliver ch s1

/-- An instruction that traps with a cause and a TVAL. -/
def trap (cause : BitVec 8) (val : Word) (s : State) : Out := .next (takeTrap { cause := cause, val := val } s)

/-- A trap that names a field of a record in the fault record's Extra (R207, R269). -/
def trapX (cause : BitVec 8) (val : Word) (extra : BitVec 32) (s : State) : Out :=
  .next (takeTrap { cause := cause, val := val, extra := extra } s)

/-- What a wait that was abandoned left to be waited for on (R203): it is kept when the return goes to that instruction. -/
def keepWait {α : Type} (pc : Addr) (o : Option (α × Addr)) : Option (α × Addr) := o.filter (fun m => m.2 == pc)

/-- The context goes to the offset TRPC holds (R208). -/
def Ctx.resumed (c : Ctx) (tcause : Word) : Ctx :=
  let pc : Addr := (c.trpc &&& offMask).setWidth 48
  { c with
    tcause := tcause
    pc := pc
    again := false
    stalled := false
    fetched := false
    met := none
    barAt := keepWait pc c.barAt
    mopAt := keepWait pc c.mopAt
    instret := c.instret + 1 }

/-- Return from a trap: TRET with `up` false, URET with `up` true (R208). -/
def returnTrap (up : Bool) (s : State) : Out :=
  let c := s.cx
  if up then
    if c.up then .next (updCx s (fun c => c.resumed (c.tcause &&& 0x3FFF_FFFF_FFFF_FFFF))) else trap 0x02 c.tcause s
  else if !c.inh || c.up then trap 0x02 c.tcause s
  else .next (updCx s (fun c => c.resumed (c.tcause &&& 0x7FFF_FFFF_FFFF_FFFF)))

/-! Completing and waiting (R112, R134, R210) -/

/-- The instruction completes and the pc goes to a target; a single-step trap follows where one is due (R210). -/
def doneAt (pc : Addr) (s : State) : Out :=
  let s1 := updCx s (fun c => { c with pc := pc, instret := c.instret + 1, st := .ready, again := false, met := none })
  if s.cx.stepping then .next (takeTrap { cause := 0x0F, val := s.cx.pc.setWidth 64 } s1) else .next s1

/-- The instruction completes (R112). -/
def done (s : State) : Out := doneAt (pcNext s.cx) s

/-- The instruction waits, and executes from its start when the condition is met (R13, R203). -/
def waitFor (c : Cond) (s : State) : Out := .next (updCx s (fun x => { x with st := .waiting c, again := true, stalled := false, met := none }))

/-- The instruction stalls In flight, and executes from its start when the condition is met (R114, R250, R262). -/
def stallFor (c : Cond) (s : State) : Out := .next (updCx s (fun x => { x with st := .inFlight c, again := true, stalled := true, met := none }))

/-- The instruction has had its effect but for completing, which an event does (R13, R196, R262). -/
def waitEvent (c : Cond) (s : State) : Out := .next (updCx s (fun x => { x with st := .waiting c, again := false }))

/-- Something happens to a context as if it issued. -/
def onCtx (s : State) (key : Nat) (f : State → State) : State :=
  if s.cx.key = key then f s else switchTo (f (switchTo s key)) s.cx.key

/-- An instruction executes again once its wait is over: `ended` with what was seen; else it executes from its start (R13). -/
def metThen (ended : Word → State → Out) (k : State → Out) (s : State) : Out :=
  match s.cx.met with
  | some v => ended v s
  | none => k s

/-- An event completes the instruction a context waits in, with a value for its destination. -/
def finish (s : State) (key : Nat) (d : BitVec 5) (v : Word) : State :=
  let c := getCtx s key
  let c1 := { c.ws d v with pc := pcNext c, instret := c.instret + 1, st := .ready, again := false, met := none }
  if c.stepping then
    onCtx (putCtx s { c1 with stepping := false }) key (takeTrap { cause := 0x0F, val := c.pc.setWidth 64 })
  else putCtx s c1

/-- A word that is no instruction traps 0x01 with the word in TVAL (R109). -/
def illegal (w : W32) (s : State) : Out := trap 0x01 (w.setWidth 64) s

end Sys2Proof.Machine
end

