-- ==== Sys2Proof/Machine/Net.lean ====
section
/-! DEFINITION. What travels and what starts: packets, destination words, kettles, helpers, resume kettles and upcalls
(R16, R146, R168, R179, R184 to R191, R305). -/

namespace Sys2Proof.Machine

/-! Packets (R156, R168, R189) -/

/-- Sender numbers of the parties without a core (R168, R192). -/
def schedKey : Nat := 16 * 2047
def hostKey : Nat := 16 * 2047 + 1

/-- Whom a trace entry names for a write that no context issued: a free value (R162, log 56). -/
def noWho (s : State) : Nat := fieldN (Config.openWord s.ticks) 0 15

/-- Puts a packet into the net. -/
def post (s : State) (src dst : Nat) (b : Body) : State :=
  { s with net := s.net ++ [{ id := s.nextId, src := src, dst := dst, who := (getCtx s src).who, body := b }], nextId := s.nextId + 1 }

/-- Where a packet stands among the arrivals of one clock (R168): by the core that issued it, row first, and the home index; then
the scheduler's, by brew and pour index where they are completions; then the host's, by command. -/
def Packet.rank (p : Packet) : Nat :=
  if p.src = schedKey then
    match p.body with
    | .dec _ (some x) _ _ => 2 ^ 15 + fieldN x 0 32 * 2 ^ 32 + fieldN x 32 32
    | _ => 2 ^ 15 + 2 ^ 64
  else if p.src = hostKey then 2 ^ 66 + p.id
  else p.who

/-- A packet does not come before one that its core took earlier in this clock (R168). -/
def inOrder (s : State) (p : Packet) : Bool := (tget s.arrived p.dst).all (fun r => decide (r ≤ p.rank))

/-- What waits behind an earlier packet of its sender to the same core (R156, R189): whatever lands at a kettle, an inbox, an
allowance table or a bank; a context that migrates waits for none (R176). Of decrements without a payload and of grants
the spec says nothing: that they keep the order too is the model's choice (log 74). -/
def Body.keepsOrder : Body → Bool
  | .migrate _ => false
  | _ => true

/-- The packet of a number, when nothing its sender sent there earlier is still under way, and its turn in this clock has not
passed (R156, R168, R189). -/
def arriving (s : State) (pid : Nat) : Option Packet :=
  match s.net.find? (fun p => p.id == pid) with
  | some p =>
    let before (q : Packet) : Bool := q.src == p.src && q.dst == p.dst && decide (q.id < p.id) && q.body.keepsOrder
    if (p.body.keepsOrder && s.net.any before) || !inOrder s p then none else some p
  | none => none

/-- Takes a packet out of the net; its core has taken it in this clock. -/
def dropPacket (s : State) (pid : Nat) : State :=
  let took := (s.net.find? (fun q => q.id == pid)).map (fun p => tput s.arrived p.dst p.rank)
  { s with net := s.net.filter (fun q => q.id != pid), arrived := took.getD s.arrived }

/-- The context of a key has a packet of a kind under way. -/
def sending (s : State) (key : Nat) (f : Body → Bool) : Bool := s.net.any (fun p => p.src == key && f p.body)

/-- A drip or a lane of the context has yet to reach its home. -/
def dripping (s : State) (key : Nat) : Bool :=
  sending s key (fun b => match b with
    | .drip .. => true
    | _ => false)

/-- A release covers the drips and lanes the context issued: the instruction stays In flight until they have arrived
(R13, R157, R158, R165, R173, R330). -/
def releaseThen (k : State → Out) (s : State) : Out :=
  if dripping s s.cx.key then stallFor (.ownDrips 0 (2 ^ 48)) s else k s

/-- The word a message carries for its sender (R192). -/
def senderWord (c : Ctx) : Word :=
  BitVec.ofNat 64 (coreX (homeCore c.key) + coreY (homeCore c.key) * 2 ^ 6 + homeIdx c.key * 2 ^ 11 + c.tenant.toNat * 2 ^ 15)

/-! Destination words (R184) -/

def dwDev (w : Word) : Nat := fieldN w 27 8
def dwDec (w : Word) : Nat := fieldN w 19 8
def dwKet (w : Word) : Nat := fieldN w 11 8
def dwCore (w : Word) : Nat := coreAt (fieldN w 0 6) (fieldN w 6 5)

/-- The word is a destination word (R184). -/
def dwOk (s : State) (w : Word) : Bool :=
  w.toNat < 2 ^ 35 && dwDec w != 0 && decide (fieldN w 6 5 < 24) && (dwDev w == 0 || decide (dwDev w < s.ndev.toNat))

/-! Shots -/

/-- The pour whose shot a core holds. -/
def shotPour (s : State) (core : Nat) : Option Pour := (getCore s core).shot.bind (findPour s)

/-- The tenant of the shot a core holds. -/
def shotTenant (s : State) (core : Nat) : Option Nat := (shotPour s core).map Pour.tenant

/-- The core holds a shot whose pour runs: it is placed, and no cut is in progress. -/
def running (s : State) (core : Nat) : Bool := (shotPour s core).any (fun p => p.st == .placed)

/-- The core holds a shot of a tenant that has not retired (R19, R193). -/
def holdsShot (s : State) (core tenant : Nat) : Bool :=
  shotTenant s core == some tenant && ((getCore s core).starting || (getCtx s (keyOf core 0)).live)

/-! Reports (R191, R382) -/

/-- A report to the context that sent something; nobody is left to tell once its shot is gone (R191). -/
def reportTo (s : State) (key tenant : Nat) (f : State → State) : State :=
  if (savedIn s key).isSome || (getCtx s key).live
      || ((getCtx s (keyOf (homeCore key) 0)).live && shotTenant s (homeCore key) == some tenant) then f s
  else s

/-- A decrement that does not get to a kettle is reported by its source with a cause: one that is discarded with 0x05 (R191), one
whose fabric path fails with 0x15 (R382, log 75). -/
def reportDec (cause : BitVec 8) (s : State) (w : Word) (src : DecSrc) (tenant : Nat) : State :=
  match src with
  | .message key => reportTo s key tenant (fun s => chargeDeferred s key { cause := cause, val := w, engine := 7, addr := some w })
  | .drip key => reportTo s key tenant (fun s => chargeDeferred s key { cause := cause, val := w, engine := 6, addr := some w })
  | .copy key => reportTo s key tenant (fun s => charge s key { cause := cause, val := w, engine := 3, addr := some w })
  | .host => s
  | .counted => updTenant s tenant (fun t => { t with decDiscarded := t.decDiscarded + 1 })

/-- A discarded decrement is reported by its source (R191). -/
def discardDec (s : State) (w : Word) (src : DecSrc) (tenant : Nat) : State := reportDec 0x05 s w src tenant

/-- What goes to the device a destination word names leaves the part, unless the fabric path fails (R382). -/
def sendOut (s : State) (w : Word) (src : DecSrc) (tenant : Nat) : State :=
  if Config.pathFails s.ticks (dwDev w) then reportDec 0x15 s w src tenant else s

/-- Sends a decrement. One for another device leaves the part (R184, R382). -/
def postDec (s : State) (src : Nat) (w : Word) (payload : Option (BitVec 128)) (from_ : DecSrc) (tenant : Nat) : State :=
  if dwDev w = 0 then post s src (dwCore w) (.dec w payload from_ tenant) else sendOut s w from_ tenant

/-! Helpers (R16, R179) -/

/-- The context of a home slot is Free. -/
def isFree (s : State) (core idx : Nat) : Bool := !(getCtx s (keyOf core idx)).live

/-- The lowest Free helper from `lo` on (R16). -/
def freeHelper (s : State) (core lo : Nat) : Option Nat := (upFrom lo (11 - lo)).find? (isFree s core)

/-- The first helper a request of the last three classes may use (R16, R150). -/
def firstHelper (s : State) (core : Nat) : Nat := fieldN (getCore s core).hresv 0 4 + 1

/-- RMODE at launch (R28, R52): RNE with SAT. -/
def launchRmode : Word := 0x8

/-- s31 of a helper (R179). -/
def helperStack (limit idx : Nat) : Nat := if limit < 16384 * idx then 0 else (limit - 16384 * idx) / 16 * 16

/-- The state a helper or the transform context starts in (R179, R255). -/
def helperCtx (c0 : Ctx) (key : Nat) (pc : Addr) (s2 s3 s4 : Word) : Ctx :=
  let c : Ctx :=
    { key := key, pour := c0.pour, st := .ready, pc := pc, g := c0.g, rmode := launchRmode, vlive := 0xFFFF, tvec := c0.tvec,
      pourCsr := c0.pourCsr, brewCsr := c0.brewCsr, tenant := c0.tenant }
  (((c.ws 2 s2).ws 3 s3).ws 4 s4).ws 31 (BitVec.ofNat 64 (helperStack (c0.rg 2).limit.toNat (homeIdx key)))

/-- Starts a helper of a core. -/
def startHelper (s : State) (core idx : Nat) (pc : Addr) (s2 s3 s4 : Word) (f : Ctx → Ctx) : State :=
  putCtx s (f (helperCtx (getCtx s (keyOf core 0)) (keyOf core idx) pc s2 s3 s4))

/-- Puts a request for a helper into a core's list (R16). -/
def pushReq (s : State) (core : Nat) (r : HReq) : State := updCore s core (fun c => { c with hreqs := c.hreqs ++ [r] })

/-- A helper HSTART or CTXLD can have at once: no request waits before it (R16). -/
def helperNow (s : State) (core : Nat) : Option Nat :=
  if (getCore s core).hreqs = [] then freeHelper s core (firstHelper s core) else none

/-- A wait that is abandoned leaves nothing behind that executing the instruction again would make twice: its helper request
and its record with the scheduler are withdrawn, and it is no requester of a fill any more (R146, R203, R303). -/
def abandonWait (s : State) (key : Nat) : State :=
  let c := getCtx s key
  let keep (r : HReq) : Bool := match r with
    | .hstart k _ _ _ => k != key
    | .ctxld k _ _ => k != key
    | _ => true
  let s1 := updCore s (homeCore key) (fun c => { c with hreqs := c.hreqs.filter keep })
  let s2 := updTenant s1 c.tenant.toNat (fun t => { t with direct := t.direct.filter (fun d => d.key != key) })
  { s2 with fills := s2.fills.map (fun f => { f with reqs := f.reqs.filter (fun r => r != .ctx key) }) }

/-! Kettles (R185 to R188) -/

/-- The kettle is an announcement kettle (R375). -/
def isAnnounce (core k : Nat) : Bool := coreY core == 0 && decide (coreX core < 16) && decide (224 ≤ k) && decide (k < 232)

/-- The tenant that owns a kettle, the resume and announcement kettles with their tenants (R186, R191, R375). -/
def kettleTenant (s : State) (core k : Nat) : Option Nat :=
  if isAnnounce core k then some (coreX core)
  else if 240 ≤ k then shotTenant s core
  else
    let ke := getKettle s core k
    if ke.owned then some ke.tenant else none

/-- Payloads queued to a kettle (R185). -/
def payloads (s : State) (core k : Nat) : Nat := ((getCore s core).inbox.filter (fun i => i.kettle == k)).length

/-- Removes the request of a kettle's handler (R188, R336). -/
def dropKettleReq (s : State) (core k : Nat) : State :=
  updCore s core (fun c => { c with hreqs := c.hreqs.filter (fun r => r != .kettle k) })

/-- Work stands under the key of a context, or under a key of its own since the context of that slot ended. -/
def workOf (s : State) (key k : Nat) : Bool := k == key || (sameSlot k key && !(getCtx s k).live && (savedIn s k).isNone)

/-- The vector registers of a context that was saved: those without VLIVE read as zero (R34). -/
def Ctx.reloaded (c : Ctx) : Ctx := { c with v := c.v.mapIdx (fun i x => if bitN c.vlive i then x else 0) }

/-- A resume kettle fires: the parked context, its paused engine work, its paused drips and its updates of fill-state tables
go on (R146, R302). A Parked context stood in the thread-context cache meanwhile (R33, R34). -/
def resumeCtx (s : State) (key : Nat) : State :=
  let c := getCtx s key
  let s1 := match c.st with
    | .parked => putCtx (updCore s (homeCore key) (fun k => k.uncached key)) { c.reloaded with st := .ready }
    | .waiting .tablePage => putCtx s { c with st := .ready }
    | _ => s
  let mine (k : Nat) : Bool := workOf s1 key k
  let goC (o : COp) : COp := if mine o.key then { o with paused := false } else o
  let goM (o : MOp) : MOp := if mine o.key then { o with paused := false } else o
  let goP (p : Packet) : Packet := if mine p.src then { p with paused := false } else p
  let goL (x : Close) : Close := if mine x.key then { x with paused := false } else x
  failLate mine
    { s1 with
      cores := s1.cores.map (fun k => (k.1, { k.2 with cq := k.2.cq.map goC, mq := k.2.mq.map goM }))
      net := s1.net.map goP
      closes := s1.closes.map goL }

/-- A decrement of `d` (R187). A firing while the handler of an earlier one is still pending makes no second request
(log 70). -/
def decKettle (s : State) (core k d : Nat) : State :=
  let ke := getKettle s core k
  let lo : Int := -(2 ^ 31 : Nat)
  let n : Int := ke.count - d
  let k1 : Kettle := { ke with count := if n < lo then lo else n, ovf := ke.ovf || decide (n < lo) }
  if 0 < ke.count ∧ n ≤ 0 then
    let starts := ke.entry != 0 && decide (k < 240)
    let s1 := setKettle s core k { k1 with fired := true, pending := ke.pending || starts }
    if 240 ≤ k then resumeCtx s1 (keyOf core (k - 240))
    else if starts && !ke.pending then pushReq s1 core (.kettle k)
    else s1
  else setKettle s core k k1

/-! Page faults behind the port (R146, R205) -/

/-- Engine work of a context meets a page fault (R146). The caller pauses the work. -/
def engineFault (s : State) (key tenant : Nat) (va : Word) (eng : BitVec 8) : State :=
  let x := pageAt s key tenant va eng
  failFills (chainBound s) x.2 x.1

/-- The update of a fill-state table by the issuing context meets an absent page: it pauses as engine work of the context,
which waits for it and then executes again from its start (R302). -/
def tablePause (va : Nat) (s : State) : Out :=
  .next (engineFault (updCx s (fun c => { c with st := .waiting .tablePage, again := true, stalled := false, met := none }))
    s.cx.key s.cx.tenant.toNat (BitVec.ofNat 64 va) 8)

/-! Generators (R302, R305) -/

/-- Starts the generator of a block in a helper (R305). -/
def startGen (s : State) (core idx tenant rn block depth : Nat) (r : Range) : State :=
  let va := r.blockVa block
  let pc : Addr := BitVec.ofNat 48 (4 * (r.entry / 4))
  let setup (c : Ctx) : Ctx :=
    ({ c with
       g := vset (vset c.g 3 r.code) 4 r.data
       gen := some { tenant := tenant, range := rn, block := block, depth := depth } }).ws 5
      (((BitVec.ofNat 48 va) - r.data.base).setWidth 64)
  let s1 := startHelper s core idx pc (BitVec.ofNat 64 va) (BitVec.ofNat 64 (rn + 256 * depth)) (BitVec.ofNat 64 (2 ^ r.blog)) setup
  let give (f : Fill) : Fill :=
    if f.tenant = tenant ∧ f.range = rn ∧ f.block = block then { f with gen := some (keyOf core idx) } else f
  { s1 with fills := s1.fills.map give }

/-- A core with a shot of the tenant has a Free helper for a generator (R16, R305). -/
def genHelper (s : State) (core tenant : Nat) : Option Nat :=
  if holdsShot s core tenant ∧ running s core ∧ (getCore s core).hreqs = [] then freeHelper s core (firstHelper s core)
  else none

/-- Requests the generator of a fill (R305): `stand` is the core the first requester stands on, `home` the home core of its
context. -/
def requestGen (s : State) (tenant rn block depth : Nat) (r : Range) (stand home : Nat) : State :=
  match genHelper s stand tenant with
  | some h => startGen s stand h tenant rn block depth r
  | none =>
    let blockHome := homeOf (r.blockVa block)
    let at_ := if holdsShot s blockHome tenant then blockHome else home
    match genHelper s at_ tenant with
    | some h => startGen s at_ h tenant rn block depth r
    | none => pushReq s at_ (.gen tenant rn block)

end Sys2Proof.Machine
end

