-- ==== Sys2Proof/Machine/Move.lean ====
section
/-! DEFINITION. Migration (R174 to R177, R246): leaving a core, standing there, coming home. -/

namespace Sys2Proof.Machine

/-- Vector registers as they reach another core: one whose VLIVE bit is clear reads as zero (R174). -/
def carried (v : Vector VReg 16) (vlive : Word) : Vector VReg 16 :=
  v.mapIdx (fun i x => if bitN vlive i then x else 0)

/-- Vector registers back home: the carried ones replace the home copies (R174). -/
def backHome (homeV v : Vector VReg 16) (vlive : Word) : Vector VReg 16 :=
  v.mapIdx (fun i x => if bitN vlive i then x else vget homeV i 0)

/-- The issuing context leaves for a core, to execute its instruction there (R171, R174, R176). Departure frees its slot
first, and is a release: the core's dirty lines are written back (R151, R157). -/
def depart (dst : Nat) (s : State) : State :=
  let c := s.cx
  let away : Ctx :=
    { c with
      place := .transit
      held := false
      again := true
      stalled := false
      met := none
      homeV := if c.away then c.homeV else c.v
      v := carried c.v c.vlive }
  post (leaveSlot { cleanCore s c.core with cx := away } c) c.key dst (.migrate c.key)

/-- The instruction executes on a core: where the context stands, or after moving there. A context that holds a stream
binding does not move (R246). -/
def moveTo (dst : Nat) (k : State → Out) (s : State) : Out :=
  if s.cx.core = dst then k s
  else
    match s.cx.binds with
    | (_, b) :: _ => trap 0x11 (BitVec.ofNat 64 b.ring) s
    | [] => releaseThen (fun s => .next (depart dst s)) s

/-- The core an atomic or GO moves to: the home of an address; for one of another device the context stays, and the access is
carried there (R141, R171, R382; log 15). -/
def homeFor (s : State) (va : Nat) : Nat := if (farDev s s.cx.tenant.toNat va).isSome then s.cx.core else homeOf va

/-- An instruction that a visitor does not execute where it stands: a loose one goes home with it, a held one traps
(R175). `w` is the instruction's word, which TVAL gives, for an access of a per-core CSR too (R108, R202, log 70). -/
def homeOnly (w : W32) (k : State → Out) (s : State) : Out :=
  if s.cx.away then
    if s.cx.held then trap 0x03 (w.setWidth 64) s else releaseThen (fun s => .next (depart (homeCore s.cx.key) s)) s
  else k s

/-- The context of a key reaches its home core (R174, R176). One that took a page fault elsewhere is Parked there (R146). -/
def reachHome (s : State) (key : Nat) : State :=
  let c := getCtx s key
  let c1 : Ctx := { c with place := .home, held := false, v := backHome c.homeV c.v c.vlive }
  match c.st, c.upcalls with
  | .parked, u :: _ => parkHome (putCtx s { c1 with upcalls := [] }) key u.va u.engine
  | _, _ => putCtx s c1

/-- The context of a key stands in a visitor slot (R176); it left its last place loose (R175). -/
def enterSlot (s : State) (key core slot : Nat) : State :=
  updCore (updCtx s key (fun c => { c with place := .visitor core slot })) core
    (fun k => { k with slots := tput k.slots slot key })

/-- The first visitor slot that is not taken (R176). -/
def freeSlot (c : CoreSt) : Option Nat := (upFrom 12 4).find? (fun i => (tget c.slots i).isNone)

end Sys2Proof.Machine
end

