-- ==== Sys2Proof/Machine/RingOps.lean ====
section
/-! DEFINITION. Ring counters and the ring table (R238 to R246). -/

namespace Sys2Proof.Machine

/-- A ring-table entry; none when undefined (R238). -/
def getRing (s : State) (core q : Nat) : Option Ring := tget (getCore s core).rings q
def setRing (s : State) (core q : Nat) (r : Ring) : State := updCore s core (fun c => { c with rings := tput c.rings q r })

/-- The wrap value of a ring's counters (R239). -/
def Ring.m (r : Ring) : Nat := wrapValue r.count

/-- Slots filled (R238). -/
def Ring.filled (r : Ring) : Nat := (r.tail + r.m - r.head % r.m) % r.m

/-- Slots empty. -/
def Ring.empty (r : Ring) : Nat := r.count - r.filled

/-- The scratchpad offset of the slot a counter names (R238). -/
def Ring.slotOff (r : Ring) (c : Nat) : Nat := r.base + c % r.count * 2 ^ r.slog

/-- Advances the head or the tail (R239). The caller has checked the bound. -/
def Ring.adv (r : Ring) (head : Bool) (n : Nat) : Ring :=
  if head then { r with head := (r.head + n) % r.m } else { r with tail := (r.tail + n) % r.m }

/-- The context of a core's shot whose stream binds a ring (R246). -/
def ringBound (s : State) (core q : Nat) : Option (Ctx × Bind) :=
  (homeCtxs s core).findSome? (fun c => (c.binds.find? (fun b => b.2.ring == q)).map (fun b => (c, b.2)))

/-- The 32 bytes of an entry (R240). -/
def ringBytes (s : State) (core q : Nat) : List Byte :=
  match getRing s core q with
  | none => List.replicate 32 0
  | some r =>
    let st := match ringBound s core q with
      | some (c, b) => (1 + 2 + 4 * b2n b.out + 8 * homeIdx c.key, b.stride, b.perSlot, b.done)
      | none => (1, 0, 0, 0)
    bytesOfNat 4 r.base ++ bytesOfNat 1 r.slog ++ bytesOfNat 1 st.1 ++ bytesOfNat 2 r.count ++ bytesOfNat 4 r.head
      ++ bytesOfNat 4 r.tail ++ bytesOfNat 4 st.2.1 ++ bytesOfNat 2 st.2.2.1 ++ bytesOfNat 2 st.2.2.2 ++ bytesOfNat 8 0

/-- A ring that a stream binds does not move at that end but through the stream (R242). -/
def streamEnd (s : State) (core q : Nat) (head : Bool) : Bool :=
  match ringBound s core q with
  | some (_, b) => if head then !b.out else b.out
  | none => false

/-- A window write to the head or the tail of a ring (R239, R240). One that would break the bound is discarded, and cause
0x11 is charged to the writer; one that is carried out is a release at device scope (R151). -/
def ringWindowWrite (s : State) (core q : Nat) (head : Bool) (v key : Nat) : State :=
  match getRing s core q with
  | none => charge s key { cause := 0x11, val := BitVec.ofNat 64 q }
  | some r =>
    let cur := if head then r.head else r.tail
    let n := (v % r.m + r.m - cur) % r.m
    let room := if head then r.filled else r.empty
    if n = 0 then s
    else if room < n || streamEnd s core q head then charge s key { cause := 0x11, val := BitVec.ofNat 64 q }
    else setRing (cleanCore s (getCtx s key).core) core q (r.adv head n)

end Sys2Proof.Machine
end

