-- ==== Sys2Proof/Machine/Path.lean ====
section
/-! DEFINITION. The path of an access: the window space (R142, R143), page faults (R146), touches of procedural ranges (R303,
R307), the home banks (R127, R128, R159). -/

namespace Sys2Proof.Machine

/-! The window space (R142, R143) -/

/-- Fields of a window address (R142). -/
def winCore (wa : Nat) : Nat := coreAt (wa / 2 ^ 42 % 64) (wa / 2 ^ 37 % 32)
def winKind (wa : Nat) : Nat := wa / 2 ^ 32 % 32
def winOff (wa : Nat) : Nat := wa % 2 ^ 32

/-- One byte of a context's registers as window kind 2 lays them out (R142). -/
def ctxByte (c : Ctx) (o : Nat) : Byte :=
  if o < 0x100 then BitVec.ofNat 8 (fieldN (c.rs (BitVec.ofNat 5 (o / 8))) (8 * (o % 8)) 8)
  else if o < 0x140 then BitVec.ofNat 8 (fieldN (c.rp (BitVec.ofNat 3 ((o - 0x100) / 8))) (8 * (o % 8)) 8)
  else if o < 0x1C0 then
    let g := c.rg (BitVec.ofNat 3 ((o - 0x140) / 16))
    let e := g.base.toNat + g.limit.toNat * 2 ^ 48 + g.rights.toNat * 2 ^ 96 + g.kind.toNat * 2 ^ 104
    BitVec.ofNat 8 (e / 2 ^ (8 * (o % 16)))
  else BitVec.ofNat 8 (fieldN (c.rv (BitVec.ofNat 4 ((o - 0x1000) / 256))) (8 * (o % 256)) 8)

/-- Writes one byte of a context's registers there; a write to s0 or p0 is discarded (R142). -/
def ctxPut (c : Ctx) (o : Nat) (b : Byte) : Ctx :=
  if o < 0x100 then
    let i : BitVec 5 := BitVec.ofNat 5 (o / 8)
    c.ws i (putField (c.rs i) (8 * (o % 8)) 8 b.toNat)
  else if o < 0x140 then
    let i : BitVec 3 := BitVec.ofNat 3 ((o - 0x100) / 8)
    c.wp i (putField (c.rp i) (8 * (o % 8)) 8 b.toNat)
  else if 0x1000 ≤ o then
    let i : BitVec 4 := BitVec.ofNat 4 ((o - 0x1000) / 256)
    c.wv i (putField (c.rv i) (8 * (o % 256)) 8 b.toNat)
  else c

/-- Writes bytes of a context's registers from an offset on. -/
def ctxPuts (c : Ctx) (o : Nat) : List Byte → Ctx
  | [] => c
  | b :: t => ctxPuts (ctxPut c o b) (o + 1) t

/-- The context a kind 2 address names: a home context of the core's shot, or the occupant of a visitor slot. -/
def winCtx (s : State) (wa : Nat) : Option Nat :=
  let core := winCore wa
  let i := winOff wa / 2 ^ 13 % 16
  if i < 12 then some (keyOf core i) else tget (getCore s core).slots i

/-- The 32 bytes of a kettle entry (R185). -/
def kettleBytes (s : State) (core k : Nat) : List Byte :=
  let ke := getKettle s core k
  bytesOfNat 4 (wrapN 32 ke.count) ++ bytesOfNat 1 ((kettleTenant s core k).getD 0)
    ++ bytesOfNat 1 (b2n ((kettleTenant s core k).isSome) + 2 * b2n ke.fired + 4 * b2n ke.pending + 8 * b2n ke.ovf)
    ++ bytesOfNat 1 (payloads s core k) ++ bytesOfNat 1 0 ++ bytesOfNat 8 ke.entry.toNat ++ bytesOfNat 8 ke.arg.toNat
    ++ bytesOfNat 4 ke.brew.toNat ++ bytesOfNat 4 0

/-- The 64 bytes of an inbox slot; a free one reads as zero (R192). -/
def inboxBytes (c : CoreSt) (i : Nat) : List Byte :=
  match c.inbox.find? (fun x => x.slot == i) with
  | some x =>
    bytesOfNat 8 x.sender.toNat ++ bytesOfNat 1 x.kettle ++ bytesOfNat 1 x.len ++ bytesOfNat 6 0 ++ bytesOfNat 48 x.payload.toNat
  | none => List.replicate 64 0

/-- The reach of a window access by a pour of a tenant (R143). An access of kind 3 past the 256 entries has no kettle to be refused,
so its range decides; a home context that is Free counts as its core's pour's (log 19). -/
def winReach (s : State) (pour tenant wa n : Nat) : Bool :=
  let core := winCore wa
  let off := winOff wa
  match winKind wa with
  | 3 => decide (8192 < off + n) || (upFrom (off / 32) ((off + n - 1) / 32 + 1 - off / 32)).all
      (fun k => kettleTenant s core k == some tenant)
  | 4 => shotTenant s core == some tenant
  | 2 =>
    (getCore s core).shot == some pour &&
      (match winCtx s wa with
       | some k => decide (off / 2 ^ 13 % 16 < 12) || (getCtx s k).pour == pour
       | none => false)
  | _ => (getCore s core).shot == some pour

/-- The offset range of a kind, and the layout of kind 2 (R142). -/
def winRange (s : State) (wa n : Nat) : Bool :=
  let off := winOff wa
  match winKind wa with
  | 0 => decide (off + n ≤ scratchSize (getCore s (winCore wa)))
  | 1 => decide (off + n ≤ Config.accBytes)
  | 2 =>
    let o := off % 8192
    decide (off < 2 ^ 17) && (decide (o + n ≤ 0x1C0) || (decide (0x1000 ≤ o) && decide (o + n ≤ 0x2000)))
  | 3 | 4 => decide (off + n ≤ 8192)
  | _ => decide (off + n ≤ 512)

/-- The access column of R142 and R240. -/
def winMay (wa n : Nat) (write : Bool) : Bool :=
  let off := winOff wa
  !write ||
    match winKind wa with
    | 0 | 1 => true
    | 2 => let o := off % 8192; decide (o + n ≤ 0x140) || decide (0x1C0 ≤ o)
    | 5 => n == 4 && (off % 32 == 8 || off % 32 == 12)
    | _ => false

/-- The checks of R143 in their order: the cause of the first failure. -/
def winCheck (s : State) (pour tenant wa n : Nat) (write : Bool) : Option (BitVec 8) :=
  if 23 < wa / 2 ^ 37 % 32 || 5 < winKind wa then some 0x04
  else if !winReach s pour tenant wa n then some 0x05
  else if !winRange s wa n then some 0x04
  else if !winMay wa n write then some 0x05
  else none

/-- A context has an instruction In flight (R13): it stalls, or has stalled and has yet to execute again (R114). -/
def Ctx.busy (c : Ctx) : Bool :=
  (match c.st with
    | .inFlight _ => true
    | _ => false) || (c.again && c.stalled)

/-- What a kind 2 access waits for: a target that is Away and not named by its visitor slot, or, for a read, the end of the
instruction In flight that holds up writes to the target (R143, R156). -/
def winWait (s : State) (wa : Nat) (write : Bool) : Option Cond :=
  if winKind wa = 2 then
    match winCtx s wa with
    | some k =>
      let c := getCtx s k
      if c.away && decide (winOff wa / 2 ^ 13 % 16 < 12) then some (.targetHome k)
      else if !write && !c.writes.isEmpty && k != s.cx.key then some (.helperInFlight k)
      else none
    | none => none
  else none

/-- A window write lands in the registers of its target, or waits for the end of the instruction the target has In flight
(R143). -/
def ctxWrite (c : Ctx) (o : Nat) (l : List Byte) : Ctx :=
  if c.busy then { c with writes := c.writes ++ [(o, l)] } else ctxPuts c o l

/-- The window writes that waited land, in their order, once no instruction of the context is In flight. -/
def Ctx.landed (c : Ctx) : Ctx :=
  if c.busy then c else { c.writes.foldl (fun c w => ctxPuts c w.1 w.2) c with writes := [] }

/-- Reads `n` bytes of the window space; the checks have passed. -/
def winRead (s : State) (wa n : Nat) : List Byte :=
  let core := winCore wa
  let off := winOff wa
  match winKind wa with
  | 0 | 1 => rdBytes s.mem (winKey wa) n
  | 2 =>
    match winCtx s wa with
    | some k => (upFrom (off % 8192) n).map (ctxByte (getCtx s k))
    | none => []
  | 3 => (((upFrom (off / 32) (n / 32 + 2)).flatMap (kettleBytes s core)).drop (off % 32)).take n
  | 4 => (((upFrom (off / 64) (n / 64 + 2)).flatMap (inboxBytes (getCore s core))).drop (off % 64)).take n
  | _ => (((upFrom (off / 32) (n / 32 + 2)).flatMap (ringBytes s core)).drop (off % 32)).take n

/-- Writes bytes of the window space for a context; the checks have passed. -/
def winWrite (s : State) (key wa : Nat) (l : List Byte) : State :=
  let core := winCore wa
  let off := winOff wa
  match winKind wa with
  | 0 | 1 => { s with mem := wrBytes s.mem (winKey wa) l }
  | 2 =>
    match winCtx s wa with
    | some k => updCtx s k (fun c => ctxWrite c (off % 8192) l)
    | none => s
  | 5 => ringWindowWrite s core (off / 32) (off % 32 == 8) (natOfBytes l) key
  | _ => s

/-! Page faults of the issuing context (R113, R146) -/

/-- The issuing context meets a page fault: it is Parked and context 0 gets an upcall, or it traps 0x08, a fetch with the pc
in TVAL (R113). A visitor goes home first, once its drips have arrived (R157). An instruction executes again from its start, a
fetch is made again. -/
def parkFor (va : Nat) (eng : BitVec 8) (s : State) : Out :=
  let c := s.cx
  let w : Word := BitVec.ofNat 64 va
  let fetch : Bool := eng == 1
  if homeIdx c.key = 0 || noUpvec s (homeCore c.key) then
    .next (takeTrap { cause := 0x08, val := if fetch then c.pc.setWidth 64 else w, engine := eng, addr := some w } s)
  else
    let s1 := updCx s (fun c => { c with again := !fetch })
    if c.away then
      if dripping s c.key then
        .next (updCx s1 (fun c => { c with st := .waiting (.ownDrips 0 (2 ^ 48)), stalled := false, met := none }))
      else
        let s2 := updCx s1 (fun c => { c with st := .parked, upcalls := [{ va := w, engine := eng, reqs := [] }] })
        .next (updCx (depart (homeCore c.key) s2) (fun c => { c with again := !fetch }))
    else .next (parkHome s1 c.key w eng)

/-! Touches (R303, R307) -/

/-- What a touch finds. -/
inductive Touch where
  | pass (s : State)
  | waits (s : State) (range block : Nat)
  | failed (addr : Nat)
  | refused (addr : Nat)
  | page (va : Nat)
  | stall
  | error (cause : BitVec 8) (va : Nat)

/-- A fill waits, directly or through the generators it waits on, on a generator's own block (R307). -/
def waitsOn (s : State) (own : GenHold) : Nat → Nat → Nat → Nat → Bool
  | 0, _, _, _ => false
  | n + 1, t, r, b =>
    if t = own.tenant ∧ r = own.range ∧ b = own.block then true
    else
      match s.fills.find? (fun f => f.tenant == t && f.range == r && f.block == b) with
      | some f =>
        match f.gen.map (fun g => (ctxOf s g).st) with
        | some (.waiting (.fill t' r' b')) => waitsOn s own n t' r' b'
        | _ => false
      | none => false

/-- Adds a requester to a fill, once. -/
def joinFill (s : State) (t r b : Nat) (who : Req) : State :=
  let is (f : Fill) : Bool := f.tenant == t && f.range == r && f.block == b
  if s.fills.any is then
    { s with fills := mapFirst is (fun f => if f.reqs.contains who then f else { f with reqs := f.reqs ++ [who] }) s.fills }
  else { s with fills := s.fills ++ [{ tenant := t, range := r, block := b, depth := 0, reqs := [who] }] }

/-- Starts the fill of an Unfilled block for the context of a key (R19, R303, R305): the block becomes Filling and a generator is requested. -/
def startFill (s : State) (t rn : Nat) (r : Range) (b depth : Nat) (reqs : List Req) (key stand home : Nat) : GWrite :=
  match setBlockState s t r b 1 (keyOf stand (homeIdx key)) with
  | .ok s1 =>
    let keep := s1.fills.filter (fun f => !(f.tenant == t && f.range == rn && f.block == b))
    let pour := ((savedIn s1 key).map Prod.fst).getD ((getCore s (homeCore key)).shot.getD 0)
    .ok (requestGen { s1 with fills := keep ++ [{ tenant := t, range := rn, block := b, depth := depth, reqs := reqs, starter := some (pour, key) }] }
      t rn b depth r stand home)
  | e => e

/-- A touch of the block that holds an address, by a requester whose context holds `own`. `stand` is the core it stands
on, `key` its context and `home` the home core of that. -/
def touchOne (s : State) (t va : Nat) (who : Req) (own : Option GenHold) (depth key stand home : Nat) : Touch :=
  match rangeAt s t va with
  | none => .pass s
  | some (rn, r) =>
    let b := r.blockOf va
    let addr := r.blockVa b
    if own.any (fun g => g.tenant == t && g.range == rn && g.block == b) then .pass s
    else
      match blockState s t r b with
      | .page a => .page a
      | .wait => .stall
      | .error c a => .error c a
      | .ok l s1 =>
        match fieldN (l.headD 0) (2 * (b % 4)) 2 with
        | 2 => .pass s1
        | 3 => .failed addr
        | 1 =>
          match own with
          | some g =>
            if depth = 4 && waitsOn s1 g (s1.fills.length + 1) t rn b then .refused addr
            else .waits (joinFill s1 t rn b who) rn b
          | none => .waits (joinFill s1 t rn b who) rn b
        | _ =>
          if 4 ≤ depth then .refused addr
          else
            match startFill s1 t rn r b (depth + 1) [who] key stand home with
            | .ok s2 => .waits s2 rn b
            | .page a => .page a
            | .wait => .stall
            | .error c a => .error c a

/-- Touches in order, until one does not let pass. -/
def touchList (t : Nat) (who : Req) (own : Option GenHold) (depth key stand home : Nat) : List Nat → State → Touch
  | [], s => .pass s
  | va :: l, s =>
    match touchOne s t va who own depth key stand home with
    | .pass s1 => touchList t who own depth key stand home l s1
    | r => r

/-- Touches of an access of `n` bytes: the block of its first byte, then every other block it spans, ascending; no block is
smaller than 4 KiB (R301, R303). -/
def touchAll (s : State) (t va n : Nat) (who : Req) (own : Option GenHold) (depth key stand home : Nat) : Touch :=
  touchList t who own depth key stand home
    (va :: (upFrom (va / 4096 + 1) ((va + n - 1) / 4096 - va / 4096)).map (fun i => 4096 * i)) s

/-- Depth of the issuing context as a toucher (R307). -/
def Ctx.depth (c : Ctx) : Nat :=
  match c.gen with
  | some g => g.depth
  | none => 0

/-- The trap of a touch that finds a Failed block, or that is refused (R303, R307, R308). -/
def touchTrap (cause : BitVec 8) (addr : Nat) (s : State) : Out :=
  .next (takeTrap
    { cause := cause, val := BitVec.ofNat 64 addr, engine := 8, count := 1, reqs := [reqWord s.cx.key] } s)

/-- The issuing context touches the blocks of an access, then goes on (R127, R303). -/
def touchThen (va n : Nat) (p : Word) (k : State → Out) (s : State) : Out :=
  let c := s.cx
  match touchAll s c.tenant.toNat va n (.ctx c.key) c.gen c.depth c.key c.core (homeCore c.key) with
  | .pass s1 => k s1
  | .waits s1 r b => waitFor (.fill c.tenant.toNat r b) s1
  | .failed a => touchTrap 0x09 a s
  | .refused a =>
    match c.gen with
    | some g =>
      let f : FillFail := { tenant := g.tenant, range := g.range, block := g.block, cause := 0x0A, code := 0, key := c.key }
      touchTrap 0x0A a (failFills (chainBound s) [f] s)
    | none => touchTrap 0x0A a s
  | .page a => tablePause a s
  | .stall => stallFor .fullService s
  | .error e _ => trap e p s

/-! Accesses of the issuing context -/

/-- An address a segment gives (R124). -/
inductive Tgt where
  | glob (va : Nat)
  | win (wa : Nat)
deriving DecidableEq, Repr

/-- The context's own drips that have yet to reach bytes of an interval (R156, R173). -/
def dripsAt (s : State) (key va n : Nat) : Bool :=
  sending s key (fun b => match b with
    | .drip _ a size _ _ _ _ _ => decide (a.toNat < va + n) && decide (va < a.toNat + size)
    | _ => false)

/-- Checks and waits of a window access of the issuing context (R143); R13 has no Waiting state for it, so it stalls In flight. A
write to the head or the tail of a ring is a release of the writer's earlier accesses (R240). -/
def winThen (wa n : Nat) (write : Bool) (p : Word) (k : State → Out) (s : State) : Out :=
  match winCheck s s.cx.pour s.cx.tenant.toNat wa n write with
  | some c => trap c p s
  | none =>
    match winWait s wa write with
    | some w => stallFor w s
    | none =>
      if write && winKind wa == 5 then
        if (getRing s (winCore wa) (winOff wa / 32)).isNone then trap 0x11 (BitVec.ofNat 64 (winOff wa / 32)) s
        else releaseThen k s
      else k s

/-- An access waits at its home for the context's own drips to bytes of it; it stays In flight (R114, R156). -/
def ownThen (va n : Nat) (k : State → Out) (s : State) : Out :=
  if dripsAt s s.cx.key va n then stallFor (.ownDrips (BitVec.ofNat 48 va) n) s else k s

/-- The first absent page among pieces of an interval. -/
def absent (s : State) (tenant : Nat) (write : Bool) : List (Nat × Nat) → Option Nat
  | [] => none
  | (va, n) :: t =>
    match gpath s tenant (va % 2 ^ 48) write (n == 256) with
    | .page => some va
    | _ => absent s tenant write t

/-- The pages of an access are present; a page fault comes before what a touch finds (R127, R139, R237). -/
def presentThen (va n : Nat) (write : Bool) (k : State → Out) (s : State) : Out :=
  match absent s s.cx.tenant.toNat write (blocksOf va n) with
  | some a => parkFor a 0 s
  | none => k s

/-- Own drips, pages, then touches of a global access (R127, R156, R303). -/
def globThen (va n : Nat) (write : Bool) (p : Word) (k : State → Out) (s : State) : Out :=
  ownThen va n (presentThen va n write (touchThen va n p k)) s

/-- A read of a global interval once its touches have passed (R127). -/
def pathRead (va n : Nat) (p : Word) (k : List Byte → State → Out) (s : State) : Out :=
  match gread s s.cx.tenant.toNat va n with
  | .ok l s2 => k l s2
  | .page a => parkFor a 0 s
  | .wait => stallFor .fullService s
  | .error c _ => trap c p s

/-- A read of `n` bytes (R125, R127). `p` is the effective pointer. -/
def readThen (t : Tgt) (n : Nat) (p : Word) (k : List Byte → State → Out) (s : State) : Out :=
  match t with
  | .win wa => winThen wa n false p (fun s1 => k (winRead s1 wa n) s1) s
  | .glob va => globThen va n false p (pathRead va n p k) s

/-- A write of bytes (R125, R127). An error on the path of a plain store is deferred (R128): with `later` the store
completes and the cause is charged. -/
def writeThen (t : Tgt) (l : List Byte) (p : Word) (kind : Nat) (later : Bool) (k : State → Out) (s : State) : Out :=
  match t with
  | .win wa => winThen wa l.length true p (fun s1 => k (winWrite s1 s1.cx.key wa l)) s
  | .glob va =>
    globThen va l.length true p (fun s1 =>
      match gwrite s1 s1.cx.tenant.toNat va l kind s1.cx.who with
      | .ok s2 => k s2
      | .page a => parkFor a 0 s1
      | .wait => stallFor .fullService s1
      | .error c a =>
        if later then
          k (chargeDeferred s1 s1.cx.key { cause := c, val := BitVec.ofNat 64 a, engine := 2, addr := some (BitVec.ofNat 64 a) })
        else trap c p s1) s

end Sys2Proof.Machine
end

