-- ==== Sys2Proof/Machine/Operands.lean ====
section
/-! DEFINITION. Operand forms: checks, tags (R39, R41), segments (R124), the FM memory operand (R123), the visitor's FM access
(R175), destination words of instructions (R184). -/

namespace Sys2Proof.Machine

/-- A check of an instruction: it traps when the condition holds. -/
def failIf (bad : Bool) (cause : BitVec 8) (val : Word) (k : State → Out) (s : State) : Out :=
  if bad then trap cause val s else k s

/-! Deferred causes (R128, R203, R363) -/

/-- Deferred causes that reach their instruction while INH is set are held with the charged ones; one that finds four
held escalates, and the rest stay where they are (R363). -/
def holdDeferred : List Charge → State → State
  | [], s => s
  | ch :: t, s =>
    let s1 := charge (updCx s (fun c => { c with deferred := t })) s.cx.key ch
    if s1.cx.stopped then s1 else holdDeferred t s1

/-- An STL, a FENCE of kind release or full, or a STOP takes the oldest deferred cause in place of completing (R128);
while INH is set it completes and the causes are held, unless one escalates (R206, R363). -/
def deferredThen (k : State → Out) (s : State) : Out :=
  match s.cx.deferred with
  | [] => k s
  | ch :: rest =>
    if s.cx.inh then
      let s1 := holdDeferred s.cx.deferred s
      if s1.cx.stopped then .next s1 else k s1
    else .next (takeTrap ch (updCx s (fun c => { c with deferred := rest })))

/-! Fat pointers (R39, R41) -/

def fmtOf (ptr : Word) : Nat := fieldN ptr 59 5
def blogOf (ptr : Word) : Nat := fieldN ptr 56 3

/-- The segment offset of a pointer. -/
def offOf (ptr : Word) : Nat := fieldN ptr 0 48

/-- The format is a scaled array (R40, R41). -/
def isMx (f : Nat) : Bool := f == 13 || f == 14 || f == 15 || f == 17

/-- The tag passes the check of R41. -/
def tagOk (ptr : Word) : Bool :=
  fieldN ptr 48 8 == 0 && decide (fmtOf ptr < 20) && blogOf ptr == (if isMx (fmtOf ptr) then 3 else 0)

/-- A pointer with its offset replaced: the effective pointer (R123). -/
def withOff (ptr : Word) (off : Nat) : Word := BitVec.ofNat 64 (fieldN ptr 48 16 * 2 ^ 48 + off % 2 ^ 48)

/-- TagCheck (R41). -/
def tagThen (ptr : Word) (k : State → Out) (s : State) : Out := failIf (!tagOk ptr) 0x07 ptr k s

/-! Segments (R124) -/

/-- The rights of R23 and R135, as bits. -/
def rightR : Nat := 0
def rightW : Nat := 1
def rightX : Nat := 2
def rightA : Nat := 3

/-- The kinds of R23 and R135. -/
def kGlobal : BitVec 2 := 0
def kWindow : BitVec 2 := 1
def kSeed : BitVec 2 := 2

/-- The address a segment register gives (R124); the checks have passed. -/
def Seg.at_ (g : Seg) (off : Nat) : Tgt :=
  let a := (g.base.toNat + off) % 2 ^ 48
  if g.kind = kWindow then .win a else .glob a

/-- Seg(g, off, n, right): the address, or the cause of the first failure (R124). -/
def segCheck (g : Seg) (off n right : Nat) (write : Bool) : Except (BitVec 8) Tgt :=
  if !bitN g.rights right || (write && g.kind == kSeed) then .error 0x05
  else if g.limit.toNat < off + n then .error 0x04
  else .ok (g.at_ off)

/-- A segment entry of 16 bytes, lowest first (R23). -/
def segEntry (e : Nat) : Option Seg :=
  if e / 2 ^ 100 % 16 != 0 || 2 < e / 2 ^ 104 % 256 || e / 2 ^ 112 % 2 ^ 16 != 0 then none
  else
    some { base := BitVec.ofNat 48 e, limit := BitVec.ofNat 48 (e / 2 ^ 48), rights := BitVec.ofNat 4 (e / 2 ^ 96),
           kind := BitVec.ofNat 2 (e / 2 ^ 104) }

/-- The check of a segment in an instruction (R123, R124). -/
def segThen (g : Seg) (off n right : Nat) (write : Bool) (p : Word) (k : Tgt → State → Out) (s : State) : Out :=
  match segCheck g off n right write with
  | .error c => trap c p s
  | .ok t => k t s

/-- A pointer without displacement, used with a segment: tag, alignment, segment, each with the pointer in TVAL (R169, R177,
R182, R197). -/
def ptrThen (g : Seg) (ptr : Word) (n align right : Nat) (write : Bool) (k : Tgt → State → Out) (s : State) : Out :=
  tagThen ptr (failIf (offOf ptr % align != 0) 0x06 ptr (segThen g (offOf ptr) n right write ptr k)) s

/-! The FM operand (R123) -/

/-- Bytes of a width code (R123). -/
def widthOf (w : BitVec 2) : Nat := 2 ^ w.toNat

/-- The segment offset of an FM operand (R123). -/
def fmOff (ptr : Word) (w : BitVec 2) (o : BitVec 11) : Nat :=
  wrapN 48 ((offOf ptr : Int) + widthOf w * sInt 11 o.toNat)

/-- The checks of an FM access in their order (R123). -/
def fmThen (ptr : Word) (g : Seg) (w : BitVec 2) (o : BitVec 11) (write : Bool) (k : Tgt → Word → State → Out) (s : State) :
    Out :=
  let off := fmOff ptr w o
  let p := withOff ptr off
  tagThen ptr (failIf (off % widthOf w != 0) 0x06 p
    (segThen g off (widthOf w) (if write then rightW else rightR) write p (fun t => k t p))) s

/-- A visitor makes an FM access where it stands when the address's home is the visited core, or through a WINDOW segment;
any other is the business of its home core (R175). -/
def fmHere (wd : W32) (t : Tgt) (k : State → Out) (s : State) : Out :=
  match t with
  | .win _ => k s
  | .glob va => if homeOf va = s.cx.core then k s else homeOnly wd k s

/-! Values of accesses -/

/-- Bytes as a scalar register, zero-extended (R125). -/
def zWord (l : List Byte) : Word := BitVec.ofNat 64 (natOfBytes l)

/-- Bytes as a scalar register, sign-extended (R125). -/
def sWord (l : List Byte) : Word := BitVec.ofInt 64 (sInt (8 * l.length) (natOfBytes l))

/-- The low `n` bytes of a scalar register (R125). -/
def lowBytes (w : Word) (n : Nat) : List Byte := bytesOfNat n w.toNat

/-- Sign extension of the low 32 bits (R115). -/
def sext32 (n : Nat) : Word := BitVec.ofInt 64 (sInt 32 n)

/-- A destination word of an instruction (R184). -/
def dwThen (w : Word) (k : State → Out) (s : State) : Out := failIf (!dwOk s w) 0x02 w k s

end Sys2Proof.Machine
end

