-- ==== Sys2Proof/Machine/Flags.lean ====
section
/-! DEFINITION. The sticky flags: RMODE[14:8] and MSTAT (R52, R54, R66). -/

namespace Sys2Proof.Machine

/-- Flags where RMODE holds them (R52). -/
def rmodeFlags (f : Flags) : Word := f.setWidth 64 <<< 8

/-- Flags where MSTAT holds them: NV, OF, UF, NX, SATHIT, SC (R66). -/
def mstatFlags (f : Flags) : Word :=
  BitVec.ofNat 64 (b2n (bitN f 0) + 2 * b2n (bitN f 2) + 4 * b2n (bitN f 3) + 8 * b2n (bitN f 4) + 16 * b2n (bitN f 5)
    + 32 * b2n (bitN f 6))

/-- ORs flags into the issuing context's RMODE (R54). -/
def flag (f : Flags) (s : State) : State := updCx s (fun c => { c with rmode := c.rmode ||| rmodeFlags f })

/-- ORs flags into the RMODE of the context an engine works for, also where a cut saved it (R54). -/
def flagFor (s : State) (key : Nat) (f : Flags) : State :=
  let put (c : Ctx) : Ctx := { c with rmode := c.rmode ||| rmodeFlags f }
  match savedIn s key with
  | some x => if sameSlot (x.2.ctx key).key key then putImage s x.1 (putImgCtx x.2 (put (x.2.ctx key))) else s
  | none => if (getCtx s key).live then updCtx s key put else s

/-- ORs flags into the MSTAT of the context the matrix unit works for (R54, R66). -/
def mstatFor (s : State) (key : Nat) (f : Word) : State :=
  if (getCtx s key).live then updCtx s key (fun c => { c with mstat := c.mstat ||| f }) else s

end Sys2Proof.Machine
end

