-- ==== Sys2Proof/Machine/Shape.lean ====
section
/-! DEFINITION. The shape record of a matrix operation (R264 to R267, R277, R278) and the rings an operation names. -/

namespace Sys2Proof.Machine

/-- A field of `n` bytes at a byte offset. -/
def Shape.at_ (r : Shape) (o n : Nat) : Nat := fieldN r (8 * o) (8 * n)

def Shape.m (r : Shape) : Nat := r.at_ 0 2
def Shape.n (r : Shape) : Nat := r.at_ 2 2
def Shape.k (r : Shape) : Nat := r.at_ 4 2
def Shape.fmtA (r : Shape) : Nat := r.at_ 6 1
def Shape.fmtB (r : Shape) : Nat := r.at_ 7 1
def Shape.fmtAcc (r : Shape) : Nat := r.at_ 8 1
def Shape.flags (r : Shape) : Nat := r.at_ 9 1
def Shape.strideA (r : Shape) : Nat := r.at_ 10 2
def Shape.offA (r : Shape) : Nat := r.at_ 12 2
def Shape.strideB (r : Shape) : Nat := r.at_ 14 2
def Shape.offB (r : Shape) : Nat := r.at_ 16 2
def Shape.lda (r : Shape) : Nat := r.at_ 18 2
def Shape.ldb (r : Shape) : Nat := r.at_ 20 2
def Shape.qsa (r : Shape) : Nat := r.at_ 22 1
def Shape.qsb (r : Shape) : Nat := r.at_ 23 1
def Shape.drain (r : Shape) : Nat := r.at_ 24 8
def Shape.jcount (r : Shape) : Nat := r.at_ 32 1
def Shape.jrole (r : Shape) : Nat := r.at_ 33 1
def Shape.jtag (r : Shape) : Nat := r.at_ 34 2
def Shape.dest (r : Shape) : Word := BitVec.ofNat 64 (r.at_ 40 8)

/-- A is column-major; B is row-major; the scales come from rings; the segment (R264). -/
def Shape.colA (r : Shape) : Bool := r.flags % 2 == 1
def Shape.rowB (r : Shape) : Bool := r.flags / 2 % 2 == 1
def Shape.ringScales (r : Shape) : Bool := r.flags / 4 % 2 == 1
def Shape.seg (r : Shape) : Nat := r.flags / 8 % 8

/-- Role, grid rows and grid columns of a join (R264, R277). -/
def Shape.role (r : Shape) : Nat := r.jrole % 8
def Shape.gr (r : Shape) : Nat := r.jrole / 8 % 4
def Shape.gc (r : Shape) : Nat := r.jcount / r.gr

/-- The modifiers of R100. -/
def modSat (m : BitVec 8) : Bool := bitN m 0
def modKeepB (m : BitVec 8) : Bool := bitN m 1
def modKeepA (m : BitVec 8) : Bool := bitN m 2
def modDrain (m : BitVec 8) : Bool := bitN m 3
def modGo (m : BitVec 8) : Bool := bitN m 4
def modAccz (m : BitVec 8) : Bool := bitN m 5
def modNeg (m : BitVec 8) : Bool := bitN m 7 != bitN m 6

/-- The operation supplies A, or B, from its own rings (R267, R278). -/
def suppliesA (kind : MKind) (r : Shape) : Bool :=
  match kind with
  | .mma | .mmas => true
  | .mmaj => r.role % r.gc == 0
  | _ => false
def suppliesB (kind : MKind) (r : Shape) : Bool :=
  match kind with
  | .mma => true
  | .mmaj => decide (r.role < r.gc)
  | _ => false

/-- Rings of the A side and of the B side, operand and scales (R266, R267). -/
def ringsA (kind : MKind) (qa : Nat) (r : Shape) : List Nat :=
  if suppliesA kind r then if r.qsa = 0xFF then [qa] else [qa, r.qsa] else []
def ringsB (kind : MKind) (qb : Nat) (r : Shape) : List Nat :=
  if suppliesB kind r then if r.qsb = 0xFF then [qb] else [qb, r.qsb] else []

/-- The rings an operation names (R241, R278). -/
def MOp.rings (o : MOp) : List Nat := ringsA o.kind o.qa o.shape ++ ringsB o.kind o.qb o.shape

/-- Operations that wait for an entry of their queue enter it, in issue order, as far as it has room (R250, R262). -/
def CoreSt.takesIn (c : CoreSt) : CoreSt :=
  let n := Config.matrixEntries - c.mq.length
  let m := Config.copyEntries - c.cq.length
  { c with
    mq := c.mq ++ c.mstall.take n
    mstall := c.mstall.drop n
    cq := c.cq ++ c.cstall.take m
    cstall := c.cstall.drop m }

/-- The operation that this instruction has issued already. -/
def mopHere (c : Ctx) : Option Nat := (c.mopAt.filter (fun m => m.2 == c.pc)).map Prod.fst

/-- A matrix operation of a core names a ring of which a slot lies, or ends, above a scratchpad size (R283). -/
def opsAbove (s : State) (core size : Nat) : Bool :=
  ((getCore s core).mq ++ (getCore s core).mstall).any (fun o => o.rings.any (fun q =>
    (getRing s core q).any (fun r => decide (size < r.base + r.count * 2 ^ r.slog))))

end Sys2Proof.Machine
end

