-- ==== Sys2Proof/Machine/Slots.lean ====
section
/-! DEFINITION. Closing and popping the slots the transform context reads (R256, R258). The write of a chunk's output is
the copy's own step; it stands in Bits.lean. -/

namespace Sys2Proof.Machine

/-- The BSTR chunk that a slot of a ring holds. -/
def bstrAt (c : CoreSt) (ring counter : Nat) : Option BstrSlot :=
  c.bstr.find? (fun b => b.ring == ring && b.counter == counter)

/-- An operation of a core's copy queue. -/
def copyAt (s : State) (core id : Nat) : Option COp := (getCore s core).cq.find? (fun o => o.id == id)

/-- Where a chunk stands; nothing is left to wait for once its copy is gone. -/
def chunkSt (s : State) (b : BstrSlot) : ChunkSt :=
  match copyAt s b.core b.op with
  | some o =>
    match o.chunks.find? (fun k => k.k == b.chunk) with
    | some k => k.st
    | none => .dropped
  | none => .dropped

/-- A closed slot may be popped: a BSTR slot once its chunk is written or discarded, any other at once (R258). -/
def slotDone (s : State) (core ring counter : Nat) : Bool :=
  match bstrAt (getCore s core) ring counter with
  | none => true
  | some b => chunkSt s b == .written || chunkSt s b == .dropped

/-- Changes a chunk of a copy. -/
def updChunk (s : State) (core op k : Nat) (f : Chunk → Chunk) : State :=
  updCop s core op (fun o => { o with chunks := mapFirst (fun x => x.k == k) f o.chunks })

/-- Pops the head slot of a ring. -/
def popHead (s : State) (core ring : Nat) (r : Ring) : State :=
  let s1 := match bstrAt (getCore s core) ring r.head with
    | some b => updChunk s b.core b.op b.chunk (fun x => { x with popped := true })
    | none => s
  let s2 := updCore s1 core (fun c =>
    { c with
      closed := c.closed.filter (fun x => x != (ring, r.head))
      bstr := c.bstr.filter (fun b => !(b.ring == ring && b.counter == r.head)) })
  setRing s2 core ring (r.adv true 1)

/-- Pops closed slots in ring order (R258). -/
def popReady : Nat → Nat → Nat → State → State
  | 0, _, _, s => s
  | n + 1, core, ring, s =>
    match getRing s core ring with
    | some r =>
      if r.filled != 0 && (getCore s core).closed.contains (ring, r.head) && slotDone s core ring r.head then
        popReady n core ring (popHead s core ring r)
      else s
    | none => s

/-- Closes the current slot of a core's transform context: no slot is current then (R258). -/
def closeSlot (core : Nat) (s : State) : State :=
  let c := getCore s core
  match c.bits with
  | none => s
  | some b =>
    let s1 := match b.chunk with
      | some (co, op, k) =>
        let past := (copyAt s co op).any (fun o => o.failed.any (fun f => decide (f.1 ≤ k)))
        updChunk s co op k (fun x => { x with st := if past then .dropped else .done })
      | none => s
    popReady 256 core c.bitsRing
      (updCore s1 core (fun c => { c with bits := none, closed := (c.bitsRing, b.counter) :: c.closed }))

/-- The current slot is no BSTR chunk: the events of R256 trap there. -/
def plainSlot (c : CoreSt) : Bool := c.bits.any (fun b => b.chunk.isNone)

end Sys2Proof.Machine
end

