-- ==== Sys2Proof/Machine/VecOps.lean ====
section
/-! DEFINITION. Vector operands: element layouts (R216), predication (R217), the types of R218 and R223, streams (R219, R244). -/

namespace Sys2Proof.Machine

/-! Elements (R216) -/

/-- What an element is. -/
inductive EK where
  | sint (w : Nat)
  | uint (w : Nat)
  | flt (f : Fmt)
deriving DecidableEq, Repr

/-- Bits of an element. -/
def EK.width : EK → Nat
  | .sint w => w
  | .uint w => w
  | .flt f => f.width

/-- What code 1 means on a minor (R218, R223). -/
inductive C1 where
  | none | u32 | f64
deriving DecidableEq, Repr

/-- The types a minor accepts (R223, R227 to R231). -/
structure Accept where
  i32 : Bool := false
  small : Bool := false
  f32 : Bool := false
  half : Bool := false
  f8 : Bool := false
  c1 : C1 := .none
deriving DecidableEq, Repr

/-- The type of an instruction on a minor; none traps 0x02 (R99, R218, R223). -/
def typeOn (t : VType) (a : Accept) : Option EK :=
  match t with
  | .i32 => if a.i32 then some (.sint 32) else none
  | .i16 => if a.small then some (.sint 16) else none
  | .i8 => if a.small then some (.sint 8) else none
  | .f32 => if a.f32 then some (.flt .fp32) else none
  | .bf16 => if a.half then some (.flt .bf16) else none
  | .f16 => if a.half then some (.flt .fp16) else none
  | .e4m3 => if a.f8 then some (.flt .e4m3) else none
  | .e5m2 => if a.f8 then some (.flt .e5m2) else none
  | .c1 =>
    match a.c1 with
    | .none => none
    | .u32 => some (.uint 32)
    | .f64 => some (.flt .fp64)

/-- I and F of R223 with a code 1. -/
def accIF (c : C1) : Accept := { i32 := true, small := true, f32 := true, half := true, c1 := c }
def accF (c : C1) : Accept := { f32 := true, half := true, c1 := c }
def accI : Accept := { i32 := true, small := true, c1 := .u32 }
def accAll : Accept := { i32 := true, small := true, f32 := true, half := true, f8 := true, c1 := .f64 }
def accDot : Accept := { small := true, half := true, f8 := true }
def accWide : Accept := { i32 := true, f32 := true, c1 := .f64 }
def accIota : Accept := { i32 := true, c1 := .u32 }

/-- Elements of a register (R216). -/
def elemCount (w : Nat) : Nat := 2048 / w

/-- Element `j` of width `w`. -/
def elem (v : VReg) (w j : Nat) : Nat := fieldN v (w * j) w

/-- The lane of an element: its lowest one (R216, R217). -/
def laneOf (w j : Nat) : Nat := w * j / 32

/-- The element is active (R217). -/
def active (p : Word) (w j : Nat) : Bool := bitN p (laneOf w j)

/-- Elements of width `w` as one number, element 0 lowest. -/
def packElems (w : Nat) : List Nat → Nat
  | [] => 0
  | e :: t => e % 2 ^ w + 2 ^ w * packElems w t

/-- A register of elements. -/
def ofElems (w : Nat) (l : List Nat) : VReg := BitVec.ofNat 2048 (packElems w l)

/-- Elements `0` to `n - 1` given by a function. -/
def tab {α : Type} (n : Nat) (f : Nat → α) : List α := (upFrom 0 n).map f

/-- A register whose active elements a function gives, the others kept (R217), and the flags. -/
def mapElems (w : Nat) (p : Word) (old : VReg) (f : Nat → FR) : VReg × Flags :=
  let rsl := tab (elemCount w) (fun j => if active p w j then f j else { bits := elem old w j })
  (ofElems w (rsl.map FR.bits), rsl.foldl (fun fl r => fl ||| r.flags) 0)

/-- An integer element wrapped to its width (R220). -/
def wrapFR (w : Nat) (n : Int) : FR := { bits := wrapN w n }

/-- An element of a kind as an integer. -/
def EK.int (k : EK) (x : Nat) : Int :=
  match k with
  | .sint w => sInt w x
  | .uint w => (x % 2 ^ w : Nat)
  | .flt _ => x

/-! Streams (R219, R244) -/

/-- The stream that binds a register of the issuing context. -/
def bound (s : State) (r : BitVec 4) : Option Bind := tget s.cx.binds r.toNat

/-- Distinct registers of a list. -/
def distinct : List (BitVec 4) → List (BitVec 4)
  | [] => []
  | r :: t => r :: (distinct t).filter (fun x => x != r)

/-- What hinders a bound register: a trap, or a stall. -/
inductive Hinder where
  | none
  | misuse (q : Nat)
  | stall (q : Nat)
  | drips
  | lost (off : Nat)
deriving DecidableEq, Repr

/-- The scratchpad offset of the chunk a stream is at (R244). -/
def chunkOff (b : Bind) (r : Ring) : Nat := r.slotOff (if b.out then r.tail else r.head) + b.done * b.stride

/-- A chunk reaches over the scratchpad's end: its lines are lost (R148). -/
def chunkLost (s : State) (core off : Nat) : Bool := decide (scratchSize (getCore s core) < off + 256)

/-- What hinders a read (`out` false) or a write of a register (R242, R244, R148). A write that advances the tail is a
release (R165). -/
def hinder (s : State) (out : Bool) (r : BitVec 4) : Hinder :=
  match bound s r with
  | none => .none
  | some b =>
    let core := homeCore s.cx.key
    match getRing s core b.ring with
    | none => .misuse b.ring
    | some g =>
      if b.out != out then .misuse b.ring
      else if (if out then g.empty else g.filled) = 0 then .stall b.ring
      else if chunkLost s core (chunkOff b g) then .lost (chunkOff b g)
      else if out && decide (b.perSlot ≤ b.done + 1) && dripping s s.cx.key then .drips
      else .none

/-- The value of a source register: the next chunk when a stream is bound to it (R219). One whose lines are lost is a free value,
where it is read at all (R148, R333, log 77). -/
def vsrc (s : State) (r : BitVec 4) : VReg :=
  match bound s r with
  | none => rv s r
  | some b =>
    let core := homeCore s.cx.key
    match getRing s core b.ring with
    | none => rv s r
    | some g =>
      let off := chunkOff b g
      BitVec.ofNat 2048 (natOfBytes (if chunkLost s core off then (upFrom (winKey (winAddr core 0 off)) 256).map (Config.lostByte s.ticks)
        else rdScratch s core off 256))

/-- A stream moves on by one chunk; after the last of a slot the ring advances (R244). -/
def streamStep (s : State) (r : BitVec 4) : State :=
  match bound s r with
  | none => s
  | some b =>
    let core := homeCore s.cx.key
    match getRing s core b.ring with
    | none => s
    | some g =>
      let last := decide (b.perSlot ≤ b.done + 1)
      let s1 := updCx s (fun c => { c with binds := tput c.binds r.toNat { b with done := if last then 0 else b.done + 1 } })
      if last then setRing s1 core b.ring (g.adv (!b.out) 1) else s1

/-- Consumes the chunks of the bound source registers, each once (R219). -/
def commitIn (srcs : List (BitVec 4)) (s : State) : State :=
  (distinct srcs).foldl (fun s r => if (bound s r).isSome then streamStep (wv s r (vsrc s r)) r else s) s

/-- Writes the bound destination registers to their rings (R219). -/
def commitOut (dsts : List (BitVec 4)) (s : State) : State :=
  (distinct dsts).foldl (fun s r =>
    match bound s r with
    | none => s
    | some b =>
      let core := homeCore s.cx.key
      match getRing s core b.ring with
      | none => s
      | some g =>
        let off := chunkOff b g
        streamStep (if chunkLost s core off then s else wrScratch s core off (bytesOfNat 256 (rv s r).toNat)) r) s

/-- The hindrances of an instruction's vector operands. -/
def hinderList (s : State) (srcs dsts : List (BitVec 4)) : List Hinder :=
  (distinct srcs).map (hinder s false) ++ (distinct dsts).map (hinder s true)

/-- The one that counts: a misuse, else the first. -/
def firstHinder (l : List Hinder) : Hinder :=
  l.foldl (fun h x => match h, x with
    | .misuse q, _ => .misuse q
    | _, .misuse q => .misuse q
    | .none, x => x
    | h, _ => h) .none

/-- The first hindrance of an instruction's vector operands. -/
def hinders (s : State) (srcs dsts : List (BitVec 4)) : Hinder := firstHinder (hinderList s srcs dsts)

/-- What a hindrance does. -/
def hinderThen (h : Hinder) (k : State → Out) (s : State) : Out :=
  match h with
  | .none => k s
  | .misuse q => trap 0x11 (BitVec.ofNat 64 q) s
  | .stall q => stallFor (.stream q) s
  | .drips => stallFor (.ownDrips 0 (2 ^ 48)) s
  | .lost off => trap 0x04 (BitVec.ofNat 64 off) s

/-- An instruction's vector operands are free of hindrances: what it reads is available, what it writes has room. -/
def vecThen (srcs dsts : List (BitVec 4)) (k : State → Out) (s : State) : Out := hinderThen (hinders s srcs dsts) k s

/-- An instruction that reads and writes vector registers and completes: bound sources are consumed, `body` acts, bound
destinations are written. -/
def vecDo (srcs dsts : List (BitVec 4)) (body : State → State) (s : State) : Out :=
  vecThen srcs dsts (fun s => done (commitOut dsts (body (commitIn srcs s)))) s

end Sys2Proof.Machine
end

