-- ==== Sys2Proof/Machine/Sys.lean ====
section
/-! DEFINITION. The SYS group: NOP to RDCYC (R129 to R138) and TRAP to MARK (R208, R209, R214). -/

namespace Sys2Proof.Machine

/-! NOP, YIELD, STOP (R129, R130) -/

/-- NOP (R129). -/
def execNop (s : State) : Out := done s

/-- YIELD: the scan passes over the context once (R129). -/
def execYield (s : State) : Out := done (updCx s (fun c => { c with passed := true }))

/-- The core in whose queue a matrix operation stands; a handler restored elsewhere keeps its row (R209). -/
def opCore (s : State) (op : Nat) : Nat := ((s.cores.find? (fun c => c.2.mq.any (fun o => o.id == op))).map Prod.fst).getD 0

/-- A drain handler gives up its row (R276). -/
def dropRow (s : State) (r : Option (Nat × Option Nat)) : State :=
  match r with
  | some (op, some m) =>
    let free (x : DrainRow) : DrainRow := if x.m = m then { x with st := .released } else x
    updMop s (opCore s op) op (fun o => { o with rows := o.rows.map free })
  | _ => s

/-- The setup slots of a context become free (R321). -/
def freeSetups (s : State) (pour key : Nat) : State :=
  let keep (x : Nat × Setup) : Bool := !(x.2.pour == pour && x.2.key == key)
  { s with cores := s.cores.map (fun c => (c.1, { c.2 with setups := c.2.setups.filter keep })) }

/-- A helper or the transform context ends where it stands (R17, R130, R256, R276, R306). Causes it still holds go to
context 0, and its work goes on under a key of its own (R19). -/
def endCtx (s : State) : State :=
  let c := s.cx
  let s1 := dropRow (leaveSlot s c) c.row
  let s2 := if homeIdx c.key = 11 then closeSlot (homeCore c.key) (failOpenChunk s1 0) else s1
  let s3 := c.charged.foldl (fun s ch => charge s c.key ch) { s2 with cx := c.ended }
  let s4 := match c.gen with
    | some g =>
      failFills (chainBound s3)
        [{ tenant := g.tenant, range := g.range, block := g.block, cause := 0x09, code := 0xFFFF_FFFF, key := c.key }] s3
    | none => s3
  freeWork s4 c.key

/-- What STOP does by the kind of the context's home index (R12, R130). -/
def stopCtx (s : State) : Out :=
  let s := freeSetups s s.cx.pour s.cx.key
  if homeIdx s.cx.key = 0 then
    if s.cx.away then .next (depart (homeCore s.cx.key) s) else waitEvent .stopShot s
  else .next (endCtx s)

/-- The context has a matrix operation that has not completed (R130, R280). -/
def matrixBusy (s : State) (key : Nat) : Bool := s.cores.any (fun c => (c.2.mq ++ c.2.mstall).any (fun o => o.key == key))

/-- A drip, a lane or a message of the context is under way, or the notification of one of its drips, whose discarding is
an error of that drip (R130, R191). -/
def travelling (s : State) (key : Nat) : Bool :=
  sending s key (fun b => match b with
    | .drip .. => true
    | .msg .. => true
    | .dec _ _ (.drip _) _ => true
    | _ => false)

/-- Context 11 that executes STOP with a slot open that holds no BSTR chunk traps 0x11 (R256). -/
def openThen (k : State → Out) (s : State) : Out :=
  let c := getCore s (homeCore s.cx.key)
  if homeIdx s.cx.key = 11 ∧ plainSlot c then trap 0x11 (BitVec.ofNat 64 c.bitsRing) s else k s

/-- STOP: first its matrix operations and its packets, then a deferred cause, then the end (R130). -/
def execStop (s : State) : Out :=
  if matrixBusy s s.cx.key || travelling s s.cx.key then waitFor .stopWork s
  else deferredThen (fun s => openThen stopCtx s) s

/-! CSRs (R108, R131, R132) -/

/-- The number of a CSR (R108). -/
def csrNum (b c : BitVec 5) : Nat := b.toNat * 32 + c.toNat

/-- POUR (R30) and BREW (R30) as placement sets them. -/
def pourWord (p : Pour) : Word :=
  BitVec.ofNat 64 (p.idx * 2 ^ 32 + p.h * 2 ^ 24 + p.w * 2 ^ 16 + p.oy * 2 ^ 8 + p.ox)

/-- TIME: nanoseconds of a 3.3 GHz clock (R133). -/
def timeOf (cycle : Word) : Word := BitVec.ofNat 64 (cycle.toNat * 10 / 33)

/-- The core's own clock: one that was skipped is none, and in reduced service it takes two of the reference (R368, R381). -/
def CoreSt.clock (k : CoreSt) (halves : Nat) : Nat := (halves - k.skipped) / 2

/-- FDUTY.DUTY as it is read: a new duty takes effect with the next aligned window of 16 core clocks (R15, R367). -/
def CoreSt.duty (k : CoreSt) (halves : Nat) : BitVec 5 :=
  match k.nextDuty with
  | some (d, w) => if k.clock halves / 16 = w then k.fduty else d
  | none => k.fduty

/-- The value of a CSR of a context on a core, as a tenant context may read it (R132, R148 to R150, R255). -/
def csrOf (c : Ctx) (k : CoreSt) (phase halves : Nat) (cycle : Word) (n : Nat) : Word :=
  match n with
  | 0x000 => c.rmode
  | 0x001 => c.vlive
  | 0x002 => c.tvec
  | 0x003 => c.upvec
  | 0x004 => c.tcause
  | 0x005 => c.tval
  | 0x006 => c.trpc
  | 0x007 => c.dbg
  | 0x008 => ctxId c.key
  | 0x009 => c.pourCsr
  | 0x00A => c.brewCsr
  | 0x00B => c.tenant.setWidth 64
  | 0x00C => if phase = 2 then k.pstate.setWidth 64 else 3
  | 0x00D => (k.duty halves).setWidth 64
  | 0x00E => cycle
  | 0x00F => timeOf cycle
  | 0x010 => c.mstat
  | 0x040 => k.lsplit
  | 0x041 => k.lgroup
  | 0x042 => k.hresv
  | 0x043 => k.txwake
  | _ => 0

/-- The value the issuing context reads (R131). -/
def csrValue (s : State) (n : Nat) : Word := csrOf s.cx (getCore s s.cx.core) s.phase s.halves s.cycle n

/-- The bits of LGROUP.EN that name a core of the cluster (R149). -/
def lgroupMask (core : Nat) : Word :=
  BitVec.ofNat 64 (0xF0 + b2n (coreX core % 4 != 0) + 2 * b2n (coreX core % 4 != 3) + 4 * b2n (coreY core % 4 != 0)
    + 8 * b2n (coreY core % 4 != 3))

/-- The bits of a CSR that a write changes (R5, R52, R66, R132, R148 to R150, R174, R201, R255). -/
def csrMask (core n : Nat) : Word :=
  match n with
  | 0x000 => 0x7F1F
  | 0x001 => 0xFFFF
  | 0x002 | 0x003 | 0x006 => offMask
  | 0x004 => 0xE000_0000_0000_FFFF
  | 0x005 => BitVec.allOnes 64
  | 0x007 => 0xF3
  | 0x010 => 0x3F
  | 0x040 => 0xF
  | 0x041 => lgroupMask core
  | 0x042 => 0xF
  | 0x043 => 0xFFFE_FFFF_FFFF_FFFC
  | _ => 0

/-- A value its field map refuses (R52, R131, R148 to R150, R255). -/
def csrRefused (n : Nat) (v : Word) : Bool :=
  match n with
  | 0x000 => decide (4 < fieldN v 0 3)
  | 0x040 => decide (8 < fieldN v 0 4)
  | 0x041 => decide (8 < fieldN v 4 4)
  | 0x042 => decide (10 < fieldN v 0 4)
  | 0x043 => decide (256 < fieldN v 49 9) || (bitN v 59 && fieldN v 49 9 == 0)
  | _ => false

/-- A new LSPLIT: scratchpad lines it removes are lost, lines it adds read as zero (R148). -/
def writeLsplit (core : Nat) (v : Word) (s : State) : State :=
  let s1 := updCore s core (fun k => { k with lsplit := v })
  let lo := winKey (winAddr core 0 (scratchSize (getCore s1 core)))
  let hi := winKey (winAddr core 0 Config.scratchMax)
  { s1 with mem := eraseRange s1.mem lo hi }

/-- A new TXWAKE (R255): the event of R255 looks at it from then on. -/
def writeTxwake (core : Nat) (v : Word) (s : State) : State := updCore s core (fun k => { k with txwake := v })

/-- Writes a CSR with a value of which only the writable bits differ from the old one. -/
def csrPut (s : State) (n : Nat) (v : Word) : State :=
  match n with
  | 0x000 => updCx s (fun c => { c with rmode := v })
  | 0x001 => updCx s (fun c => { c with vlive := v })
  | 0x002 => updCx s (fun c => { c with tvec := v })
  | 0x003 => updCx s (fun c => { c with upvec := v })
  | 0x004 => updCx s (fun c => { c with tcause := v })
  | 0x005 => updCx s (fun c => { c with tval := v })
  | 0x006 => updCx s (fun c => { c with trpc := v })
  | 0x007 => updCx s (fun c => { c with dbg := v })
  | 0x010 => updCx s (fun c => { c with mstat := v })
  | 0x040 => writeLsplit s.cx.core v s
  | 0x041 => updCore s s.cx.core (fun k => { k with lgroup := v })
  | 0x042 => updCore s s.cx.core (fun k => { k with hresv := v })
  | 0x043 => writeTxwake s.cx.core v s
  | _ => s

/-- The number is a per-core CSR (R108). -/
def perCore (n : Nat) : Bool := decide (0x040 ≤ n) && decide (n ≤ 0x043)

/-- The checks of a CSR's number (R108). -/
def csrThen (n : Nat) (write : Bool) (wd : W32) (k : State → Out) (s : State) : Out :=
  let num : Word := BitVec.ofNat 64 n
  if 0x100 ≤ n then trap 0x03 num s
  else if write && perCore n && homeIdx s.cx.key != 0 then trap 0x03 num s
  else if n ≤ 0x010 then k s
  else if perCore n then homeOnly wd k s
  else trap 0x02 num s

/-- A CSR write: `f` gives the new value from the old one and S[a]; a refused value traps 0x02 (R131); a write of LSPLIT
stays In flight until no matrix operation names a slot it would remove (R283): R13 has no Waiting state for it, and S[a] stays as
it was at issue. -/
def csrWrite (n : Nat) (f : Word → Word → Word) (a : BitVec 5) (s : State) : Out :=
  let old := csrValue s n
  let m := csrMask s.cx.core n
  let v := (old &&& ~~~m) ||| (f old (rs s a) &&& m)
  failIf (csrRefused n v) 0x02 (BitVec.ofNat 64 n)
    (fun s =>
      let core := s.cx.core
      if n = 0x040 && opsAbove s core (scratchSize { getCore s core with lsplit := v }) then stallFor (.lsplitRings v.toNat) s
      else done (csrPut s n v)) s

/-- CSRR (R131). -/
def execCsrr (d b c : BitVec 5) (s : State) : Out :=
  csrThen (csrNum b c) false (encode (.csrr d b c)) (fun s => done (ws s d (csrValue s (csrNum b c)))) s

/-- CSRW (R131). -/
def execCsrw (a b c : BitVec 5) (s : State) : Out :=
  csrThen (csrNum b c) true (encode (.csrw a b c)) (csrWrite (csrNum b c) (fun _ x => x) a) s

/-- CSRSET (R131). -/
def execCsrset (a b c : BitVec 5) (s : State) : Out :=
  csrThen (csrNum b c) true (encode (.csrset a b c)) (csrWrite (csrNum b c) (fun old x => old ||| x) a) s

/-- CSRCLR (R131). -/
def execCsrclr (a b c : BitVec 5) (s : State) : Out :=
  csrThen (csrNum b c) true (encode (.csrclr a b c)) (csrWrite (csrNum b c) (fun old x => old &&& ~~~x) a) s

/-! Segments, IDENT, RDCYC (R134 to R138) -/

/-- The segment two registers describe (R135). -/
def segOf (x y : Word) : Seg :=
  { base := x.setWidth 48, limit := y.setWidth 48, rights := BitVec.ofNat 4 (fieldN y 48 4), kind := BitVec.ofNat 2 (fieldN y 52 2) }

/-- A WINDOW segment lies within another (R135). -/
def segWithin (g h : Seg) : Bool :=
  h.kind == kWindow && decide (h.base.toNat ≤ g.base.toNat)
    && decide (g.base.toNat + g.limit.toNat ≤ h.base.toNat + h.limit.toNat) && (g.rights &&& ~~~h.rights) == 0

/-- SEGW (R135). -/
def execSegw (g : BitVec 3) (a b : BitVec 5) (s : State) : Out :=
  let x := rs s a
  let y := rs s b
  let n := segOf x y
  failIf (fieldN x 48 16 != 0 || fieldN y 54 10 != 0 || n.kind == 3) 0x02 y
    (failIf (n.kind == kWindow && !s.cx.g.toList.any (segWithin n)) 0x05 x
      (fun s => done (updCx s (fun c => { c with g := vset c.g g.toNat n })))) s

/-- SEGR (R137). -/
def execSegr (d : BitVec 5) (g : BitVec 3) (sel : BitVec 5) (s : State) : Out :=
  let r := rg s g
  done (ws s d
    (if sel = 0 then r.base.setWidth 64
     else if sel = 1 then r.limit.setWidth 64
     else BitVec.ofNat 64 (r.rights.toNat + 16 * r.kind.toNat)))

/-- IDENT (R138). -/
def execIdent (d sel : BitVec 5) (s : State) : Out :=
  let k := s.cx.core
  done (ws s d
    (if sel = 0 then Config.ident0
     else if sel = 1 then
       BitVec.ofNat 64 (b2n (equipped k) * 2 ^ 28 + dieOf k * 2 ^ 24 + coreY k * 2 ^ 16 + coreX k * 2 ^ 8)
     else BitVec.ofNat 64 (s.ndev.toNat * 256 + s.dev.toNat)))

/-- RDCYC (R134). -/
def execRdcyc (d sel : BitVec 5) (s : State) : Out :=
  done (ws s d (if sel = 0 then s.cycle else if sel = 1 then timeOf s.cycle else s.cx.instret))

/-! TRAP, BRK, TRET, URET, FREC (R208) -/

/-- TRAP (R208). -/
def execTrap (a : BitVec 5) (s : State) : Out := trap 0x0E (rs s a) s

/-- BRK (R208). -/
def execBrk (i : BitVec 5) (s : State) : Out := trap 0x0D (0x100 + i.setWidth 64) s

/-- TRET (R208). -/
def execTret (s : State) : Out := returnTrap false s

/-- A kind check: the word in TVAL (R12, R202). -/
def kindThen (ok : Bool) (wd : W32) (k : State → Out) (s : State) : Out := failIf (!ok) 0x03 (wd.setWidth 64) k s

/-- The context is a control context by its home index (R12). -/
def isControl (s : State) : Bool := homeIdx s.cx.key == 0

/-- URET (R208). -/
def execUret (s : State) : Out := kindThen (isControl s) (encode .uret) (returnTrap true) s

/-- FREC: the record into lanes 0 to 15, and VALID cleared in the held one (R208); into a bound register it is a chunk (R219). -/
def execFrec (d : BitVec 4) (s : State) : Out :=
  let f := s.cx.frec
  let v : VReg := if f.valid then BitVec.ofNat 2048 (natOfBytes f.bytes) else 0
  vecDo [] [d] (fun s => wv (updCx s (fun c => { c with frec := { c.frec with valid := false } })) d v) s

/-! CTXSV, CTXLD, MARK (R209, R214) -/

/-- The serial of the next save: from the counter on, not zero in 32 bits and not the serial of a save there is (R209). -/
def newSerial (s : State) : Nat :=
  ((upFrom s.nextId (s.saves.length + 2)).find? (fun n =>
    n % 2 ^ 32 != 0 && s.saves.all (fun v => fieldN v.handle 0 32 != n % 2 ^ 32))).getD s.nextId

/-- The handle of a saved context: serial, tenant, the pour's origin (R209). -/
def handleOf (serial : Nat) (c : Ctx) (p : Option Pour) : Word :=
  BitVec.ofNat 64 (serial % 2 ^ 32 + c.tenant.toNat * 2 ^ 32 + (p.map Pour.ox).getD 0 * 2 ^ 36 + (p.map Pour.oy).getD 0 * 2 ^ 42)

/-- A context as CTXSV keeps it under the key it has then: a wait is abandoned (R209), registers without VLIVE are not kept
(R34). -/
def savedForm (c : Ctx) (key : Nat) : Ctx :=
  { c with
    key := key
    v := carried c.v c.vlive
    st := .saved (c.st == .parked)
    again := c.again && c.st == .parked
    fetched := false
    met := none }

/-- A context's record goes. -/
def forget (s : State) (key : Nat) : State := { s with ctxs := tdel s.ctxs key }

/-- Saves a helper of the issuing context's shot with its resume kettle into the core's thread-context cache; its work goes on for
it (R33, R54, R209). -/
def saveHelper (key : Nat) (d : BitVec 5) (s : State) : Out :=
  let n := newSerial s
  let aside := asideKey key n
  let s1 := abandonWait { s with nextId := n + 1 } key
  let c := getCtx s1 key
  let h := handleOf n c (findPour s c.pour)
  let res := 240 + homeIdx key
  let sv : Save := { handle := h, pour := c.pour, key := aside, resume := getKettle s (homeCore key) res }
  let s2 := forget (rekeyWork { s1 with saves := s1.saves ++ [sv] } key aside) key
  let s3 := updCore (setKettle s2 (homeCore key) res {}) (homeCore key) (fun k => (k.uncached aside).caches aside)
  done (ws (putCtx s3 (savedForm c aside)) d h)

/-- CTXSV (R209). A context 0 that is Away saves a helper of its home core (log 78). -/
def execCtxsv (d a : BitVec 5) (s : State) : Out :=
  let x := rs s a
  let key := keyOf (homeCore s.cx.key) x.toNat
  let c := getCtx s key
  kindThen (isControl s) (encode (.ctxsv d a))
    (failIf (x.toNat < 1 || 10 < x.toNat || !c.live || c.away) 0x02 x
      (fun s => if c.busy then waitFor (.helperInFlight key) s else saveHelper key d s)) s

/-- A saved context takes up a helper's slot. -/
def Ctx.restored (c : Ctx) (key : Nat) : Ctx := { c with key := key, st := if c.st = .saved true then .parked else .ready }

/-- Restores a saved context into a helper slot, and its work with it (R34, R209). -/
def restoreHelper (s : State) (core idx : Nat) (handle : Word) : State :=
  match s.saves.find? (fun x => x.handle == handle) with
  | some sv =>
    let key := keyOf core idx
    let s0 := updCore s (homeCore sv.key) (fun k => k.uncached sv.key)
    let s1 := rekeyWork { s0 with saves := s.saves.filter (fun x => x.handle != handle) } sv.key key
    setKettle (putCtx (forget s1 sv.key) ((getCtx s1 sv.key).restored key)) core (240 + idx) sv.resume
  | none => s

/-- CTXLD (R16, R209). A context 0 that is Away restores into a helper of its home core (log 78). -/
def execCtxld (d a : BitVec 5) (s : State) : Out :=
  let x := rs s a
  let core := homeCore s.cx.key
  let hit := s.saves.find? (fun v => v.handle == x)
  kindThen (isControl s) (encode (.ctxld d a))
    (failIf (!(hit.isSome && fieldN x 32 4 == s.cx.tenant.toNat)) 0x02 x
      (failIf (!hit.any (fun v => v.pour == s.cx.pour)) 0x05 x
        (fun s =>
          match helperNow s core with
          | some i => done (ws (restoreHelper s core i x) d (BitVec.ofNat 64 i))
          | none => waitEvent (.helper d) (pushReq s core (.ctxld s.cx.key d x))))) s

/-- MARK: a checkpoint of the issuing pour (R214). The cut completes it. -/
def execMark (d a : BitVec 5) (s : State) : Out :=
  let x := rs s a
  kindThen (isControl s) (encode (.mark d a))
    (failIf (x != 0 && !dwOk s x) 0x02 x
      (fun s => waitEvent (.cut d) (startCut s s.cx.pour false .placed [(s.cx.key, d, x)]))) s

end Sys2Proof.Machine
end

