-- ==== Sys2Proof/Machine/Atomics.lean ====
section
/-! DEFINITION. The groups ATOM, DRIP and MIG (R169 to R178). -/

namespace Sys2Proof.Machine

/-! ATOM (R169 to R171) -/

/-- What an atomic does at the home bank: the new value, none when nothing is written, and flags. `n` is the width in bytes;
`old`, `y` and `z` are the word, S[b] and S[d] in 8n bits. -/
abbrev AtomOp := Mode → (n : Nat) → (old y z : Nat) → Option Nat × Flags

/-- The sign-extended or zero-extended old value (R170). -/
def extendOld (signed : Bool) (n old : Nat) : Word :=
  if signed then BitVec.ofInt 64 (sInt (8 * n) old) else BitVec.ofNat 64 (old % 2 ^ (8 * n))

/-- The float format of an atomic or a drip of `n` bytes (R170). -/
def atomFmt (n : Nat) : Fmt := if n = 4 then .fp32 else .fp64

/-- The smaller or larger of two n-byte values, signed or not (R170). -/
def pickInt (signed max : Bool) (n x y : Nat) : Nat :=
  let less : Bool := if signed then decide (sInt (8 * n) x < sInt (8 * n) y) else decide (x < y)
  if less == max then y else x

/-- The update at the home, once the context stands there (R169, R171). -/
def atomAt (f : AtomOp) (signed : Bool) (n : Nat) (va : Nat) (d b : BitVec 5) (ptr : Word) (s : State) : Out :=
  readThen (.glob va) n ptr (fun l s1 =>
    let old := natOfBytes l
    let md := modeOf s1.cx.rmode
    let r := f md n old ((rs s1 b).toNat % 2 ^ (8 * n)) ((rs s1 d).toNat % 2 ^ (8 * n))
    let finish (s2 : State) : Out := done (ws (flag r.2 s2) d (extendOld signed n old))
    match r.1 with
    | some v => writeThen (.glob va) (bytesOfNat n v) ptr 1 false finish s1
    | none => finish s1) s

/-- The order bits of an atomic that is a release (R98, R157). -/
def orderThen (o : AOrd) (k : State → Out) (s : State) : Out :=
  match o with
  | .rel | .ar => releaseThen k s
  | _ => k s

/-- An atomic: the checks of R169 in their order, the move to the word's home (R171), the update. -/
def atom (f : AtomOp) (signed : Bool) (d a b : BitVec 5) (o : AOrd) (x : Bool) (s : State) : Out :=
  let n := if x then 8 else 4
  let ptr := rs s a
  tagThen ptr (failIf (offOf ptr % n != 0) 0x06 ptr (failIf ((rg s 0).kind != kGlobal) 0x05 ptr
    (segThen (rg s 0) (offOf ptr) n rightA true ptr (fun t =>
      match t with
      | .glob va => orderThen o (fun s => moveTo (homeFor s va) (atomAt f signed n va d b ptr) s)
      | .win _ => trap 0x05 ptr)))) s

/-- An integer operation that always writes. -/
def intOp (f : Nat → Nat → Nat → Nat) : AtomOp := fun _ n old y _ => (some (f n old y), 0)

/-- A float operation (R170). -/
def floatOp (f : Fmt → Mode → Nat → Nat → FR) : AtomOp := fun md n old y _ =>
  let r := f (atomFmt n) md old y
  (some r.bits, r.flags)

/-- AADD (R170). -/
def execAadd (d a b : BitVec 5) (o : AOrd) (x : Bool) (s : State) : Out := atom (intOp (fun n x y => (x + y) % 2 ^ (8 * n))) true d a b o x s

/-- AAND (R170). -/
def execAand (d a b : BitVec 5) (o : AOrd) (x : Bool) (s : State) : Out := atom (intOp (fun _ x y => x &&& y)) false d a b o x s

/-- AOR (R170). -/
def execAor (d a b : BitVec 5) (o : AOrd) (x : Bool) (s : State) : Out := atom (intOp (fun _ x y => x ||| y)) false d a b o x s

/-- AXOR (R170). -/
def execAxor (d a b : BitVec 5) (o : AOrd) (x : Bool) (s : State) : Out := atom (intOp (fun _ x y => x ^^^ y)) false d a b o x s

/-- AMIN (R170). -/
def execAmin (d a b : BitVec 5) (o : AOrd) (x : Bool) (s : State) : Out := atom (intOp (pickInt true false)) true d a b o x s

/-- AMAX (R170). -/
def execAmax (d a b : BitVec 5) (o : AOrd) (x : Bool) (s : State) : Out := atom (intOp (pickInt true true)) true d a b o x s

/-- AMINU (R170). -/
def execAminu (d a b : BitVec 5) (o : AOrd) (x : Bool) (s : State) : Out := atom (intOp (pickInt false false)) false d a b o x s

/-- AMAXU (R170). -/
def execAmaxu (d a b : BitVec 5) (o : AOrd) (x : Bool) (s : State) : Out := atom (intOp (pickInt false true)) false d a b o x s

/-- ASWAP (R170). -/
def execAswap (d a b : BitVec 5) (o : AOrd) (x : Bool) (s : State) : Out := atom (intOp (fun _ _ y => y)) false d a b o x s

/-- ACAS (R170). -/
def execAcas (d a b : BitVec 5) (o : AOrd) (x : Bool) (s : State) : Out := atom ((fun _ _ old y z => (if old = z then some y else none, 0))) false d a b o x s

/-- AADDF (R170). -/
def execAaddf (d a b : BitVec 5) (o : AOrd) (x : Bool) (s : State) : Out := atom (floatOp fAdd) false d a b o x s

/-- AMINF (R170). -/
def execAminf (d a b : BitVec 5) (o : AOrd) (x : Bool) (s : State) : Out := atom (floatOp (fun f md => fMinMax f md false)) false d a b o x s

/-- AMAXF (R170). -/
def execAmaxf (d a b : BitVec 5) (o : AOrd) (x : Bool) (s : State) : Out := atom (floatOp (fun f md => fMinMax f md true)) false d a b o x s

/-! DRIP (R172, R173) -/

/-- Width of a drip: 4 bytes for INT32 and FP32, 8 for INT64 and FP64 (R172). -/
def dripWidth (fmt : Nat) : Nat := if fmt == 4 || fmt == 8 then 4 else 8

/-- The formats a drip minor accepts (R172). -/
def dripFmtOk (float : Bool) (fmt : Nat) : Bool := if float then fmt == 8 || fmt == 9 else fmt == 4 || fmt == 5

/-- A drip: the checks of R172 in their order, then it travels to the home with RMODE as it stands (R173). -/
def drip (op : DripOp) (float : Bool) (d a b : BitVec 5) (s : State) : Out :=
  let ptr := rs s a
  let n := dripWidth (fmtOf ptr)
  let w := rs s d
  tagThen ptr (failIf (!dripFmtOk float (fmtOf ptr)) 0x02 ptr (failIf (offOf ptr % n != 0) 0x06 ptr
    (failIf ((rg s 0).kind != kGlobal) 0x05 ptr (segThen (rg s 0) (offOf ptr) n rightA true ptr (fun t =>
      failIf (w != 0 && !dwOk s w) 0x02 w (fun s =>
        match t with
        | .glob va =>
          done (post s s.cx.key (homeOf va)
            (.drip op (BitVec.ofNat 48 va) n (rs s b) s.cx.rmode w s.cx.tenant.toNat 2))
        | .win _ => trap 0x05 ptr s)))))) s

/-- DADD (R172). -/
def execDadd (d a b : BitVec 5) (s : State) : Out := drip .add false d a b s

/-- DAND (R172). -/
def execDand (d a b : BitVec 5) (s : State) : Out := drip .band false d a b s

/-- DOR (R172). -/
def execDor (d a b : BitVec 5) (s : State) : Out := drip .bor false d a b s

/-- DMIN (R172). -/
def execDmin (d a b : BitVec 5) (s : State) : Out := drip .min false d a b s

/-- DMAX (R172). -/
def execDmax (d a b : BitVec 5) (s : State) : Out := drip .max false d a b s

/-- DADDF (R172). -/
def execDaddf (d a b : BitVec 5) (s : State) : Out := drip .addF true d a b s

/-- DMINF (R172). -/
def execDminf (d a b : BitVec 5) (s : State) : Out := drip .minF true d a b s

/-- DMAXF (R172). -/
def execDmaxf (d a b : BitVec 5) (s : State) : Out := drip .maxF true d a b s

/-! MIG (R175, R177, R178) -/

/-- GO: the checks of an FM load of one byte in g0, then the move (R177). Arriving, it finds itself at the home. A WINDOW
address has no home (R141): the context stays. -/
def execGo (a : BitVec 5) (s : State) : Out :=
  let ptr := rs s a
  ptrThen (rg s 0) ptr 1 1 rightR false (fun t =>
    match t with
    | .glob va => fun s => moveTo (homeFor s va) done s
    | .win _ => done) s

/-- HOME (R177). -/
def execHome (s : State) : Out :=
  moveTo (homeCore s.cx.key) (fun s => done (updCx s (fun c => { c with held := false }))) s

/-- WHERE (R177). -/
def execWhere (d : BitVec 5) (s : State) : Out :=
  let k := s.cx.core
  done (ws s d (BitVec.ofNat 64
    (coreX k * 2 ^ 8 + coreY k * 2 ^ 16 + b2n s.cx.away * 2 ^ 31 + b2n s.cx.held * 2 ^ 30)))

/-- STAY (R175, R177). -/
def execStay (s : State) : Out := done (updCx s (fun c => { c with held := c.away }))

/-- The dirty bytes the core's L1 holds of a far access are written back before it (R178). -/
def cleanFar (t : Tgt) (n : Nat) (s : State) : State :=
  match t with
  | .glob va => cleanBytes s s.cx.core s.cx.tenant.toNat va n
  | .win _ => s

/-- FARLD: the width is a field of the word; the value comes from the home bank (R177, R178). -/
def execFarld (d a : BitVec 5) (w : BitVec 2) (s : State) : Out :=
  fmThen (rs s a) (rg s 0) w 0 false (fun t p =>
    readThen t (widthOf w) p (fun l s => done (ws (cleanFar t (widthOf w) s) d (zWord l)))) s

/-- FARST (R177, R178). -/
def execFarst (a b : BitVec 5) (w : BitVec 2) (s : State) : Out :=
  fmThen (rs s a) (rg s 0) w 0 true (fun t p =>
    writeThen t (lowBytes (rs s b) (widthOf w)) p farKind false (fun s => done (cleanFar t (widthOf w) s))) s

end Sys2Proof.Machine
end

