-- ==== Sys2Proof/Machine/Kettles.lean ====
section
/-! DEFINITION. The group KET (R184 to R193, R336). -/

namespace Sys2Proof.Machine

/-- KSET, KADD and KOFF refuse the hardware's kettles (R186, R375). -/
def hwKettle (core k : Nat) : Bool := decide (240 ≤ k) || isAnnounce core k

/-- The register of a kettle number: its other bits must be zero (R188). -/
def kettleReg (v : Word) (program : Bool) (k : Nat → State → Out) (s : State) : Out :=
  let n := fieldN v 0 8
  failIf (v.toNat / 256 != 0 || (program && hwKettle (homeCore s.cx.key) n)) 0x02 v (k n) s

/-- The owner's checks of an entry (R188). -/
def ownedThen (n : Nat) (v : Word) (k : State → Out) (s : State) : Out :=
  match kettleTenant s (homeCore s.cx.key) n with
  | some t => failIf (t != s.cx.tenant.toNat) 0x05 v k s
  | none => trap 0x02 v s

/-- The entry KSET leaves (R188, R336). -/
def ksetEntry (c : Ctx) (old : Kettle) (count : Nat) (entry arg : Word) : Kettle :=
  { old with
    count := count
    tenant := c.tenant.toNat
    owned := true
    fired := false
    pending := false
    ovf := false
    entry := entry
    arg := arg
    brew := BitVec.ofNat 32 (fieldN c.brewCsr 0 32) }

/-- KSET (R188, R336). -/
def execKset (d a b : BitVec 5) (s : State) : Out :=
  let v := rs s d
  let h := rs s a
  let n := fieldN v 0 8
  let count := fieldN v 32 32
  let core := homeCore s.cx.key
  homeOnly (encode (.kset d a b))
    (failIf (fieldN v 8 24 != 0 || count < 1 || 2 ^ 31 ≤ count) 0x02 v
      (failIf (h.toNat % 4 != 0) 0x02 h
        (failIf (hwKettle core n) 0x02 v
          (failIf ((kettleTenant s core n).any (fun t => t != s.cx.tenant.toNat)) 0x05 v
            (fun s =>
              done (setKettle (dropKettleReq s core n) core n (ksetEntry s.cx (getKettle s core n) count h (rs s b)))))))) s

/-- KADD on an entry (R187, R188). -/
def kaddTo (n : Nat) (x : Int) (s : State) : Out :=
  let core := homeCore s.cx.key
  let ke := getKettle s core n
  let r := ke.count + x
  failIf (decide (r < -(2 ^ 31 : Nat)) || decide (2 ^ 31 ≤ r)) 0x10 (BitVec.ofNat 64 n)
    (fun s =>
      let s1 := if x < 0 then decKettle s core n x.natAbs else setKettle s core n { ke with count := r }
      done (if 0 < r then setKettle s1 core n { getKettle s1 core n with fired := false } else s1)) s

/-- KADD (R188). -/
def execKadd (a b : BitVec 5) (s : State) : Out :=
  homeOnly (encode (.kadd a b))
    (kettleReg (rs s a) true (fun n => ownedThen n (rs s a) (kaddTo n (sInt 32 (rs s b).toNat)))) s

/-- KREAD (R188). -/
def execKread (d a : BitVec 5) (s : State) : Out :=
  homeOnly (encode (.kread d a))
    (kettleReg (rs s a) false (fun n => ownedThen n (rs s a)
      (fun s => done (ws s d (BitVec.ofInt 64 (getKettle s (homeCore s.cx.key) n).count))))) s

/-- KWAIT: it waits until the count is not above 0, then makes its checks (R13, R188, R199). -/
def execKwait (a : BitVec 5) (s : State) : Out :=
  homeOnly (encode (.kwait a))
    (kettleReg (rs s a) false (fun n s =>
      let ke := getKettle s (homeCore s.cx.key) n
      if 0 < ke.count ∧ s.cx.met = none then waitFor (.kettle n) s
      else ownedThen n (rs s a) (failIf ke.ovf 0x10 (BitVec.ofNat 64 n) done) s)) s

/-- Removes the payloads queued to a kettle. -/
def dropPayloads (s : State) (core k : Nat) : State :=
  updCore s core (fun c => { c with inbox := c.inbox.filter (fun i => i.kettle != k) })

/-- A kettle becomes unowned with count 0, its payloads discarded and its handler not started (R186, R188). -/
def kettleOff (s : State) (core k : Nat) : State :=
  let s1 := dropPayloads (dropKettleReq s core k) core k
  updCore s1 core (fun c => { c with kettles := tdel c.kettles k })

/-- KOFF (R188). -/
def execKoff (a : BitVec 5) (s : State) : Out :=
  homeOnly (encode (.koff a))
    (kettleReg (rs s a) true (fun n => ownedThen n (rs s a) (fun s => done (kettleOff s (homeCore s.cx.key) n)))) s

/-! Messages (R189, R192, R193) -/

/-- The key of an allowance entry: destination core, device, tenant (R193). -/
def allowKey (core dev tenant : Nat) : Nat := (tenant * 256 + dev) * 2048 + core

/-- Takes one unit from an entry; one that falls to zero frees (R193). -/
def takeAllow (t : Tbl Nat) (key : Nat) : Tbl Nat :=
  let n := tgetD t key 0
  if n ≤ 1 then tdel t key else tput t key (n - 1)

/-- A message: the destination word's checks, one unit of an allowance, then the packet (R189). A visitor takes it from the
table of the core it stands on (log 18). To another device it leaves the part (R382). -/
def sendMsg (w : Word) (payload : BitVec 384) (len : Nat) (k : State → Out) (s : State) : Out :=
  dwThen w (releaseThen (fun s =>
    let key := allowKey (dwCore w) (dwDev w) s.cx.tenant.toNat
    if tgetD (getCore s s.cx.core).allow key 0 = 0 then waitFor (.allowance key) s
    else
      let s1 := updCore s s.cx.core (fun c => { c with allow := takeAllow c.allow key })
      k (if dwDev w = 0 then
           post s1 s1.cx.key (dwCore w) (.msg w payload len (senderWord s1.cx) s1.cx.tenant.toNat)
         else sendOut s1 w (.message s1.cx.key) s1.cx.tenant.toNat))) s

/-- SEND (R189). -/
def execSend (d a b : BitVec 5) (s : State) : Out :=
  sendMsg (rs s d) (((rs s b).setWidth 384 <<< 64) ||| (rs s a).setWidth 384) 16 done s

/-- SENDV: lanes 0 to 11 (R189). -/
def execSendv (d : BitVec 5) (v : BitVec 4) (s : State) : Out :=
  vecThen [v] [] (fun s => sendMsg (rs s d) ((vsrc s v).setWidth 384) 48 (fun s => done (commitIn [v] s)) s) s

/-- What RECV writes: the payload, the sender, the length, 1 (R192). -/
def recvLanes (i : InSlot) : VReg :=
  i.payload.setWidth 2048 ||| (i.sender.setWidth 2048 <<< 384) ||| (BitVec.ofNat 2048 i.len <<< 448) ||| ((1 : VReg) <<< 480)

/-- The oldest payload queued to a kettle leaves the inbox (R192). -/
def recvFrom (core n : Nat) (v : BitVec 4) (s : State) : State :=
  match takeFirst (fun i => i.kettle == n) (getCore s core).inbox with
  | some (i, rest) => wv (updCore s core (fun c => { c with inbox := rest })) v (recvLanes i)
  | none => wv s v 0

/-- RECV (R192). -/
def execRecv (v : BitVec 4) (a : BitVec 5) (s : State) : Out :=
  let x := rs s a
  let core := homeCore s.cx.key
  homeOnly (encode (.recv v a))
    (kettleReg x false (fun n =>
      failIf (kettleTenant s core n != some s.cx.tenant.toNat) 0x05 x (vecDo [] [v] (recvFrom core n v)))) s

/-- A register that names a core: X, Y and DEV where R184 has them, every other bit zero (R193). -/
def coreRegOk (s : State) (x : Word) : Bool :=
  x.toNat < 2 ^ 35 && fieldN x 11 16 == 0 && decide (fieldN x 6 5 < 24) && (dwDev x == 0 || decide (dwDev x < s.ndev.toNat))

/-- ALLOW (R193). -/
def execAllow (a b : BitVec 5) (s : State) : Out :=
  let x := rs s a
  let n := rs s b
  homeOnly (encode (.allow a b))
    (failIf (!coreRegOk s x) 0x02 x
      (failIf (n == 0 || 65535 < n.toNat) 0x02 n
        (fun s =>
          done (if dwDev x = 0 then post s s.cx.key (dwCore x) (.grant (homeCore s.cx.key) n.toNat s.cx.tenant.toNat)
                else s)))) s

/-- AVAIL (R193). -/
def execAvail (d a : BitVec 5) (s : State) : Out :=
  let x := rs s a
  homeOnly (encode (.avail d a))
    (failIf (!coreRegOk s x) 0x02 x
      (fun s =>
        let n := tgetD (getCore s (homeCore s.cx.key)).allow (allowKey (dwCore x) (dwDev x) s.cx.tenant.toNat) 0
        done (ws s d (BitVec.ofNat 64 n)))) s

end Sys2Proof.Machine
end

