-- ==== Sys2Proof/Machine/Issue.lean ====
section
/-! DEFINITION. What stands around an instruction: the scan (R15, R129), fetch (R113), breakpoints (R210), the clock (R133),
and what withFetchWord sets up. -/

namespace Sys2Proof.Machine

/-! The clock (R133) -/

/-- Periods of the reference clock from one step to the next: those of the arrivals that were traced, one, and others, of which
the spec says nothing (R133, log 4). -/
def clocksNow (s : State) : Nat := s.landed + 1 + (Config.clocks s.ticks).toNat

/-- Half clocks of a core in a number of reference clocks: both halves but in reduced service, where a core runs at half the
clock (R15, R381). -/
def halfClocks (s : State) (n : Nat) : Nat := if s.phase = 2 then 2 * n else n

/-- The reference clock moves on, past the clocks of arrivals that were traced. Blocks leave cluster memory meanwhile, and dirty
lines L1 (R151, R152, logs 4 and 9). -/
def clockTick (s : State) : State :=
  let s1 := writeOut (fun r => Config.evicts s.ticks r.block) s
  let span := halfClocks s (clocksNow s)
  { s1 with
    dirty := s.dirty.filter (fun d => !Config.cleans s.ticks d.core d.line)
    cycle := s.cycle + BitVec.ofNat 64 (clocksNow s)
    halves := s.halves + span
    span := span
    landed := 0
    arrived := []
    ticks := s.ticks + 1 }

/-- A step that falls into the clock of the one before it, where arrivals follow one another (R168). -/
def sameTick (s : State) : State := { s with ticks := s.ticks + 1 }

/-! The scan (R15, R129) -/

/-- A LAYER instruction of the context is In flight: its unit completes it before it records (R358). -/
def Ctx.layerBusy (c : Ctx) : Bool :=
  c.busy && match decodeCode c.ir with
    | .ok (.layer _) => true
    | _ => false

/-- A context's pour lets it issue: it is placed; while it is cut, only the handlers of a core's executing operation and LAYER
instructions In flight go on, until that core has recorded (R212, R300, R358). A context that escalated stays at its instruction
(R206). -/
def mayIssue (s : State) (c : Ctx) : Bool :=
  !c.stopped &&
    (findPour s c.pour).any (fun p =>
      p.st == .placed || (p.st == .cutting && (c.row.any (fun r => r.2.isSome) || c.layerBusy)
        && s.cuts.any (fun k => k.pour == c.pour && k.units.contains (homeCore c.key))))

/-- The context in a slot of a core that may issue: Ready, at this core, its pour running (R13, R15, R212). -/
def readyAt (s : State) (core slot : Nat) : Option Ctx :=
  let key := if slot < 12 then some (keyOf core slot) else tget (getCore s core).slots slot
  match key with
  | some k =>
    let c := getCtx s k
    let here : Bool := match c.place with
      | .home => decide (slot < 12)
      | .visitor at_ i => at_ == core && i == slot
      | _ => false
    if c.st = .ready ∧ here ∧ mayIssue s c then some c else none
  | none => none

/-- The slots of a core in the order of the scan (R15). -/
def scanOrder (last : Nat) : List Nat := (upFrom (last + 1) 16).map (fun i => i % 16)

/-- The Ready contexts of a core with their slots, in the order of the scan (R15). -/
def readyList (s : State) (core : Nat) : List (Nat × Ctx) :=
  (scanOrder (getCore s core).scan).filterMap (fun i => (readyAt s core i).map (fun c => (i, c)))

/-- Four bytes as an instruction word (R91). -/
def wordOf (l : List Byte) : W32 := BitVec.ofNat 32 (natOfBytes l)

/-- The word at a global address for a tenant, where it can be read. -/
def globWord (s : State) (tenant va : Nat) : Option W32 :=
  match gread s tenant va 4 with
  | .ok l _ => some (wordOf l)
  | _ => none

/-- The word at the pc as memory holds it, when a fetch would give one: an instruction that executes again, or was fetched, has
its word. -/
def nextWord (s : State) (c : Ctx) : Option W32 :=
  if c.again || c.fetched then some c.ir
  else
    match segCheck (c.rg 3) c.pc.toNat 4 rightX false with
    | .ok (.glob va) => globWord s c.tenant.toNat va
    | .ok (.win wa) => some (wordOf (winRead s wa 4))
    | .error _ => none

/-- The next instruction of a context is one of groups 0x20 to 0x25 (R221). -/
def vecNext (s : State) (c : Ctx) : Bool :=
  (c.charged.isEmpty || c.inh) && (nextWord s c).any (fun w => decide (0x20 ≤ fieldN w 26 6) && decide (fieldN w 26 6 ≤ 0x25))

/-- A float arithmetic instruction of type f64, by its word: type code 1 on the minors that read it as f64 (R218, R221). -/
def f64Word (w : W32) : Bool :=
  fieldN w 2 3 == 1 &&
    match fieldN w 26 6 with
    | 0x20 => [0, 1, 2, 3, 4, 15, 16, 17, 18, 21, 25].contains (fieldN w 5 5)
    | 0x21 => [0, 1, 2].contains (fieldN w 5 4)
    | 0x23 => [0, 5].contains (fieldN w 5 5)
    | _ => false

/-- The contexts of a core that may issue in this clock: after an f64 vector instruction no vector instruction does
(R221). -/
def issuable (s : State) (core : Nat) : List (Nat × Ctx) :=
  if (getCore s core).vecHold then (readyList s core).filter (fun x => !vecNext s x.2) else readyList s core

/-- The slot that issues, and the slots whose pass is spent: YIELD has the scan pass over a context once while another is
Ready, so that when all are to be passed over each is, and the first issues (R129). -/
def pickFrom (l : List (Nat × Ctx)) : Option Nat × List Nat :=
  match l.find? (fun x => !x.2.passed) with
  | some x => (some x.1, (l.takeWhile (fun y => y.2.passed)).map Prod.fst)
  | none => (l.head?.map Prod.fst, l.map Prod.fst)

/-- The slot that issues on a core. -/
def pickSlot (s : State) (core : Nat) : Option Nat := (pickFrom (issuable s core)).1

/-- The key of the context in a slot. -/
def slotKey (s : State) (core slot : Nat) : Nat :=
  if slot < 12 then keyOf core slot else (tget (getCore s core).slots slot).getD 0

/-- The passes of contexts that were passed over are spent (R129). -/
def spendPasses (s : State) (core : Nat) (slots : List Nat) : State :=
  slots.foldl (fun s i => updCtx s (slotKey s core i) (fun c => { c with passed := false })) s

/-- Where the scan stands after this clock: at the slot that issued; just before the first vector context it passed over
after an f64 vector instruction (R15, R221). -/
def nextScan (s : State) (core : Nat) (slot : Option Nat) : Nat :=
  let k := getCore s core
  let before := (readyList s core).takeWhile (fun x => some x.1 != slot)
  match if k.vecHold then before.find? (fun x => vecNext s x.2) else none with
  | some x => (x.1 + 15) % 16
  | none => slot.getD k.scan

/-! Fetch (R91, R113) -/

/-- A fetch that fails: engine 1, TVAL the pc. -/
def fetchTrap (cause : BitVec 8) (s : State) : Out :=
  .next (takeTrap { cause := cause, val := s.cx.pc.setWidth 64, engine := 1 } s)

/-- A context's view of memory as its fetches may still see it (R92). -/
def ICode.view (m : ICode) (s : State) : State := { s with mem := m.mem, tlb := m.tlb, resident := m.resident }

/-- The word a fetch gives where `old` reads it from a state: as memory holds it, `new`, or, until the next FENCE of kind full, as
it was when the context first fetched after the last one (R92, log 6). -/
def fetchWord (old : State → Option W32) (new : W32) (k : W32 → State → Out) (s : State) : Out :=
  match s.cx.icode with
  | none => k new (updCx s (fun c => { c with icode := some { mem := s.mem, tlb := s.tlb, resident := s.resident } }))
  | some m => k (if Config.oldFetch s.ticks then (old (m.view s)).getD new else new) s

/-- A fetch waits, and is made again. -/
def fetchWait (c : Cond) (s : State) : Out :=
  .next (updCx s (fun x => { x with st := .waiting c, again := false, stalled := false, met := none }))

/-- The word at the pc, through g3 with right X; each block it lies in is looked up, as for data (R91, R135). A fetch is no touch
(R303). -/
def fetchThen (k : W32 → State → Out) (s : State) : Out :=
  let c := s.cx
  let g := c.rg 3
  if g.kind = kSeed then fetchTrap 0x05 s
  else
    match segCheck g c.pc.toNat 4 rightX false with
    | .error e => fetchTrap e s
    | .ok (.win wa) =>
      match winCheck s c.pour c.tenant.toNat wa 4 false with
      | some e => fetchTrap e s
      | none =>
        match winWait s wa false with
        | some w => fetchWait w s
        | none =>
          let word (s : State) : W32 := wordOf (winRead s wa 4)
          if winKind wa < 2 then fetchWord (fun s => some (word s)) (word s) k s else k (word s) s
    | .ok (.glob va) =>
      let t := c.tenant.toNat
      match gread s t va 4 with
      | .ok l s1 => fetchWord (fun s => globWord s t va) (wordOf l) k s1
      | .page a => parkFor a 1 s
      | .wait => fetchWait .fullService s
      | .error e _ => fetchTrap e s

/-! Breakpoints (R210) -/

/-- DBG.ONCE, DBG.SS and the enable of a breakpoint (R201). -/
def Ctx.once (c : Ctx) : Bool := bitN c.dbg 1
def Ctx.single (c : Ctx) : Bool := bitN c.dbg 0
def Ctx.bpOn (c : Ctx) (i : Nat) : Bool := bitN c.dbg (4 + i)

/-- The lowest enabled breakpoint that names the pc (R210). -/
def bpHit (c : Ctx) : Option Nat :=
  if c.once || c.inh then none
  else (upFrom 0 4).find? (fun i => c.bpOn i && fieldN (vget c.bpa i 0) 2 46 == c.pc.toNat / 4)

/-- A breakpoint stops the word before it issues (R203, R210). -/
def bpThen (k : State → Out) (s : State) : Out :=
  match bpHit s.cx with
  | some i => .next (takeTrap { cause := 0x0D, val := BitVec.ofNat 64 i } s)
  | none => k s

/-- The word issues: ONCE is spent, and single-step is judged (R210). -/
def Ctx.issued (c : Ctx) (w : W32) : Ctx :=
  { c with
    dbg := c.dbg &&& 0xFFFF_FFFF_FFFF_FFFD
    stepping := c.single && !c.inh
    fetched := false
    ir := w }

/-- A charged cause that may be delivered at this issue (R203, R363). -/
def chargedThen (k : State → Out) (s : State) : Out :=
  match s.cx.charged with
  | ch :: rest => if s.cx.inh then k s else .next (takeTrap ch (updCx s (fun c => { c with charged := rest })))
  | [] => k s

/-! Issue (R15, R109, R203). `run` is the meaning of a decoded word. -/

/-- The instructions that are a release at cluster scope or wider (R98, R157, R161, R182, R313, R330). A STOP away from home is one;
one at home is a release at core scope (R180). -/
def isRelease (away : Bool) : Code → Bool
  | .core (.stl ..) | .core (.send ..) | .core (.sendv ..) | .core (.launch ..) | .core (.bar ..) | .core (.bara ..)
  | .core (.barw ..) | .core (.prdone ..) | .core (.orde ..) => true
  | .core (.fence sc k) => sc != .core && (k == .rel || k == .full)
  | .core (.publish _ sc) => sc != .core
  | .core (.aadd _ _ _ o _) | .core (.aand _ _ _ o _) | .core (.aor _ _ _ o _) | .core (.axor _ _ _ o _)
  | .core (.amin _ _ _ o _) | .core (.amax _ _ _ o _) | .core (.aminu _ _ _ o _) | .core (.amaxu _ _ _ o _)
  | .core (.aswap _ _ _ o _) | .core (.acas _ _ _ o _) | .core (.aaddf _ _ _ o _) | .core (.aminf _ _ _ o _)
  | .core (.amaxf _ _ _ o _) => o == .rel || o == .ar
  | .core .stop => away
  | _ => false

/-- The instruction completed, ended its context, or waits with its effect done. -/
def effected (before after : Ctx) : Bool :=
  after.instret != before.instret || !after.live || (!after.again && match after.st with
    | .waiting _ => true
    | _ => false)

/-- What a step adds to an instruction of the context `c` (R151, R221): a release writes the core's dirty lines back; after a float
vector instruction of type f64 the core's vector unit is held for a clock. -/
def afterIssue (i : Code) (w : W32) (c : Ctx) (s : State) : State :=
  let s1 := if isRelease c.away i && effected c (getCtx s c.key) then cleanCore s c.core else s
  if f64Word w then updCore s1 c.core (fun k => { k with vecHold := true }) else s1

/-- A decoded instruction executes, with what the step adds. -/
def runCore (run : Code → State → Out) (i : Code) (w : W32) (s : State) : Out :=
  match run i s with
  | .next t => .next (afterIssue i w s.cx t)
  | o => o

/-- A decoded word executes: its meaning (R203). -/
def runWord (run : Code → State → Out) (w : W32) (s : State) : Out :=
  match decodeCode w with
  | .ok c => runCore run c w s
  | .error _ => illegal w s

/-- A word that was fetched: one that is no instruction traps and never issues (R109, R110), another issues. -/
def issueWord (run : Code → State → Out) (w : W32) (s : State) : Out :=
  match decodeCode w with
  | .ok c => runCore run c w (updCx s (fun c => c.issued w))
  | .error _ => illegal w s

/-- The issuing context issues: an instruction that stalled In flight goes on; else a charged cause is delivered; else the
instruction it waited with executes, or the next one issues, whose word INSTRUCTION_FETCH may have fetched (R13, R203). -/
def issueCtx (run : Code → State → Out) (s : State) : Out :=
  if s.cx.again && s.cx.stalled then runWord run s.cx.ir s
  else
    chargedThen (fun s =>
      if s.cx.again then runWord run s.cx.ir s
      else if s.cx.fetched then bpThen (issueWord run s.cx.ir) s
      else fetchThen (fun w => bpThen (issueWord run w)) s) s

/-- A core issues one instruction from the context the scan picks; without one it issues nothing (R15, R221). -/
def issueCore (run : Code → State → Out) (core : Nat) (s : State) : Out :=
  let pick := pickFrom (issuable s core)
  let scan := nextScan s core pick.1
  let s1 := updCore (spendPasses s core pick.2) core (fun k => { k with scan := scan, vecHold := false })
  match pick.1 with
  | none => .next s1
  | some slot => issueCtx run (switchTo { s1 with lastCore := core } (slotKey s core slot))

/-- INSTRUCTION_FETCH at core `a`: the context that issues next there fetches its word, which is judged and issues at its turn
(R210). A fetch that fails traps, or parks the context (R113). -/
def execInstructionFetch (s : State) : Out :=
  match pickSlot s s.args.a with
  | none => .next s
  | some slot =>
    let s1 := switchTo s (slotKey s s.args.a slot)
    if s1.cx.again || s1.cx.fetched || (!s1.cx.charged.isEmpty && !s1.cx.inh) then .next s
    else fetchThen (fun w s2 => .next (updCx s2 (fun c => { c with ir := w, fetched := true }))) s1

/-! What withFetchWord sets up (log 8) -/

/-- Physical addresses of the four tables and the page that hold the word. -/
def progTables : Nat := 0x100_0000_0000
def progPage : Nat := 0x100_0010_0000

/-- A table entry to a next table, and the leaf (R145). -/
def tableEntry (addr : Nat) : List Byte := bytesOfNat 8 (addr + 3)
def leafEntry (addr : Nat) : List Byte := bytesOfNat 8 (addr + 0x13)

/-- Memory with the walk of `va` for a table root at `progTables`, and the word at `va`. -/
def progMem (m : List Host.Cell) (va : Nat) (w : W32) : List Host.Cell :=
  let t (i : Nat) : Nat := progTables + 0x1000 * i
  let m1 := wrBytes m (t 0 + 8 * (va / 2 ^ 39 % 512)) (tableEntry (t 1))
  let m2 := wrBytes m1 (t 1 + 8 * (va / 2 ^ 30 % 512)) (tableEntry (t 2))
  let m3 := wrBytes m2 (t 2 + 8 * (va / 2 ^ 21 % 512)) (tableEntry (t 3))
  let m4 := wrBytes m3 (t 3 + 8 * (va / 2 ^ 16 % 32)) (leafEntry progPage)
  wrBytes m4 (progPage + va % 65536) (bytesOfNat 4 w.toNat)

/-- The physical blocks that those entries and the word stand in. -/
def progBlocks (va : Nat) : List Nat :=
  let t (i : Nat) : Nat := progTables + 0x1000 * i
  [t 0 + 8 * (va / 2 ^ 39 % 512), t 1 + 8 * (va / 2 ^ 30 % 512), t 2 + 8 * (va / 2 ^ 21 % 512), t 3 + 8 * (va / 2 ^ 16 % 32),
    progPage + va % 65536].map (fun a => a / 256)

/-- The state in which the context `cx`, at home on core 0 as context 0 of a one-core pour, fetches the word next. -/
def placeWord (s : State) (w : W32) : State :=
  let c := s.cx
  let pc : Addr := c.pc &&& 0x7FFF_FFFF_FFFC
  let g3 : Seg := { base := 0, limit := 0xFFFF_FFFF_FFFF, rights := 0xF, kind := kGlobal }
  let cx : Ctx :=
    { c with
      key := 0
      pour := 0
      st := .ready
      place := .home
      pc := pc
      g := vset c.g 3 g3
      dbg := c.dbg &&& 0xFFFF_FFFF_FFFF_FF0F
      charged := []
      passed := false
      stopped := false
      again := false
      stalled := false
      met := none
      writes := []
      fetched := false
      icode := none }
  let pour : Pour := { id := 0, tenant := c.tenant.toNat, brew := 0, idx := 0, w := 1, h := 1, ox := 0, oy := 0 }
  let s1 : State :=
    { s with
      cx := cx
      ctxs := tdel s.ctxs 0
      mem := progMem s.mem pc.toNat w
      tlb := []
      resident := []
      macs := progBlocks pc.toNat |>.foldl tdel s.macs
      treeRoot := progBlocks pc.toNat |>.foldl tdel s.treeRoot
      bad := []
      pours := pour :: s.pours.filter (fun p => p.id != 0)
      nextId := if s.nextId = 0 then 1 else s.nextId }
  updCore (updTenant s1 c.tenant.toNat (fun t => { t with root := BitVec.ofNat 64 progTables, windows := [] })) 0
    (fun k => { k with shot := some 0, scan := 15, vecHold := false, powered := true })

end Sys2Proof.Machine
end

