-- ==== Sys2Proof/Machine/Vector.lean ====
section
/-! DEFINITION. The groups VOP, VSC, VPERM, VRED and VPRED (R216 to R231, R236, R237). -/

namespace Sys2Proof.Machine

/-- The type check: a type the minor does not accept traps 0x02 with the word (R99, R237). -/
def typeThen (ty : VType) (a : Accept) (wd : W32) (k : EK → State → Out) (s : State) : Out :=
  match typeOn ty a with
  | some e => k e s
  | none => trap 0x02 (wd.setWidth 64) s

/-! Element operations (R220, R223) -/

/-- An operation of one, two or three elements: integers exactly, floats with one rounding. -/
structure ElOp where
  int : EK → Nat → Nat → Nat → Int
  flt : Fmt → Mode → Nat → Nat → Nat → FR

/-- An element of the result. -/
def ElOp.run (o : ElOp) (e : EK) (md : Mode) (x y z : Nat) : FR :=
  match e with
  | .flt f => o.flt f md x y z
  | k => wrapFR k.width (o.int k x y z)

/-- A float result without an integer counterpart, and the reverse: the type check leaves the other side out. -/
def noInt : EK → Nat → Nat → Nat → Int := fun _ _ _ _ => 0
def noFlt : Fmt → Mode → Nat → Nat → Nat → FR := fun _ _ _ _ _ => { bits := 0 }

/-- The signed reading of an integer element. -/
def EK.sig (k : EK) (x : Nat) : Int := sInt k.width x

/-- The operations of R223. -/
def opAdd : ElOp := { int := fun k x y _ => k.int x + k.int y, flt := fun f md x y _ => fAdd f md x y }
def opSub : ElOp := { int := fun k x y _ => k.int x - k.int y, flt := fun f md x y _ => fSub f md x y }
def opMul : ElOp := { int := fun k x y _ => k.int x * k.int y, flt := fun f md x y _ => fMul f md x y }
def opFma : ElOp := { int := fun k x y z => k.int x * k.int y + k.int z, flt := fun f md x y z => fFma f md false x y z }
def opFms : ElOp := { int := fun k x y z => k.int z - k.int x * k.int y, flt := fun f md x y z => fFma f md true x y z }
def opMin : ElOp :=
  { int := fun k x y _ => if k.int y < k.int x then k.int y else k.int x, flt := fun f md x y _ => fMinMax f md false x y }
def opMax : ElOp :=
  { int := fun k x y _ => if k.int x < k.int y then k.int y else k.int x, flt := fun f md x y _ => fMinMax f md true x y }
def opAbs : ElOp := { int := fun k x _ _ => (k.int x).natAbs, flt := fun f _ x _ _ => fAbs f x }
def opNeg : ElOp := { int := fun k x _ _ => -k.int x, flt := fun f _ x _ _ => fNeg f x }
def opShl : ElOp := { int := fun k x y _ => ((x * 2 ^ (y % k.width) : Nat) : Int), flt := noFlt }
def opShr : ElOp := { int := fun k x y _ => ((x / 2 ^ (y % k.width) : Nat) : Int), flt := noFlt }
def opSar : ElOp := { int := fun k x y _ => k.sig x / ((2 ^ (y % k.width) : Nat) : Int), flt := noFlt }
def opDiv : ElOp := { int := noInt, flt := fun f md x y _ => fDiv f md x y }
def opSqrt : ElOp := { int := noInt, flt := fun f md x _ _ => fSqrt f md x }
def opRcp : ElOp := { int := noInt, flt := fun f md x _ _ => fRcp f md x }
def opRsq : ElOp := { int := noInt, flt := fun f md x _ _ => fRsq f md x }
def opExp2 : ElOp := { int := noInt, flt := fun f md x _ _ => fExp2 f md x }
def opLog2 : ElOp := { int := noInt, flt := fun f md x _ _ => fLog2 f md x }

/-- A VOP or VSC minor on elements: `y` gives the second operand's element from the state (R222, R229). -/
def vopBody (o : ElOp) (e : EK) (md : Mode) (d a : BitVec 4) (y : State → Nat → Nat) (p : BitVec 3) (s : State) : State :=
  let w := e.width
  let old := rv s d
  let x := rv s a
  let r := mapElems w (rp s p) old (fun j => o.run e md (elem x w j) (y s j) (elem old w j))
  flag r.2 (wv s d r.1)

/-- A VOP minor of two source registers. `acc` is set for the minors that read V[vd] as an operand. -/
def vop (o : ElOp) (acc : Bool) (ac : Accept) (wd : W32) (d a b : BitVec 4) (p : BitVec 3) (ty : VType) (rsrc : RSrc)
    (s : State) : Out :=
  typeThen ty ac wd (fun e s =>
    vecDo (if acc then [a, b, d] else [a, b]) [d]
      (fun s => vopBody o e (modeSrc s.cx.rmode rsrc) d a (fun s j => elem (rv s b) e.width j) p s) s) s

/-- A VOP minor of one source register. -/
def vop1 (o : ElOp) (ac : Accept) (wd : W32) (d a : BitVec 4) (p : BitVec 3) (ty : VType) (rsrc : RSrc) (s : State) : Out :=
  typeThen ty ac wd (fun e s =>
    vecDo [a] [d] (fun s => vopBody o e (modeSrc s.cx.rmode rsrc) d a (fun _ _ => 0) p s) s) s

/-- A VSC minor: the scalar element is the low bits of S[sb] (R229). -/
def vsc (o : ElOp) (acc : Bool) (ac : Accept) (wd : W32) (d a : BitVec 4) (c : BitVec 5) (p : BitVec 3) (ty : VType)
    (rsrc : RSrc) (s : State) : Out :=
  typeThen ty ac wd (fun e s =>
    vecDo (if acc then [a, d] else [a]) [d]
      (fun s => vopBody o e (modeSrc s.cx.rmode rsrc) d a (fun s _ => (rs s c).toNat % 2 ^ e.width) p s) s) s

/-- A minor without a type: lane by lane under the predicate (R217, R223). -/
def vlanes (f : Nat → Nat → Nat) (d : BitVec 4) (srcs : List (BitVec 4)) (a b : BitVec 4) (p : BitVec 3) (s : State) : Out :=
  vecDo srcs [d]
    (fun s => wv s d (mapElems 32 (rp s p) (rv s d) (fun j => { bits := f (elem (rv s a) 32 j) (elem (rv s b) 32 j) })).1) s

/-! VOP (R222, R223) -/

/-- VADD (R223). -/
def execVadd (d a b : BitVec 4) (p : BitVec 3) (ty : VType) (rs : RSrc) (s : State) : Out :=
  vop opAdd false (accIF .f64) (encode (.vadd d a b p ty rs)) d a b p ty rs s

/-- VSUB (R223). -/
def execVsub (d a b : BitVec 4) (p : BitVec 3) (ty : VType) (rs : RSrc) (s : State) : Out :=
  vop opSub false (accIF .f64) (encode (.vsub d a b p ty rs)) d a b p ty rs s

/-- VMUL (R223). -/
def execVmul (d a b : BitVec 4) (p : BitVec 3) (ty : VType) (rs : RSrc) (s : State) : Out :=
  vop opMul false (accIF .f64) (encode (.vmul d a b p ty rs)) d a b p ty rs s

/-- VFMA (R223). -/
def execVfma (d a b : BitVec 4) (p : BitVec 3) (ty : VType) (rs : RSrc) (s : State) : Out :=
  vop opFma true (accIF .f64) (encode (.vfma d a b p ty rs)) d a b p ty rs s

/-- VFMS (R223). -/
def execVfms (d a b : BitVec 4) (p : BitVec 3) (ty : VType) (rs : RSrc) (s : State) : Out :=
  vop opFms true (accIF .f64) (encode (.vfms d a b p ty rs)) d a b p ty rs s

/-- VMIN (R223). -/
def execVmin (d a b : BitVec 4) (p : BitVec 3) (ty : VType) (s : State) : Out :=
  vop opMin false (accIF .u32) (encode (.vmin d a b p ty)) d a b p ty .rmode s

/-- VMAX (R223). -/
def execVmax (d a b : BitVec 4) (p : BitVec 3) (ty : VType) (s : State) : Out :=
  vop opMax false (accIF .u32) (encode (.vmax d a b p ty)) d a b p ty .rmode s

/-- VSHL (R223). -/
def execVshl (d a b : BitVec 4) (p : BitVec 3) (ty : VType) (s : State) : Out :=
  vop opShl false accI (encode (.vshl d a b p ty)) d a b p ty .rmode s

/-- VSHR (R223). -/
def execVshr (d a b : BitVec 4) (p : BitVec 3) (ty : VType) (s : State) : Out :=
  vop opShr false accI (encode (.vshr d a b p ty)) d a b p ty .rmode s

/-- VSAR (R223). -/
def execVsar (d a b : BitVec 4) (p : BitVec 3) (ty : VType) (s : State) : Out :=
  vop opSar false accI (encode (.vsar d a b p ty)) d a b p ty .rmode s

/-- VDIV (R223). -/
def execVdiv (d a b : BitVec 4) (p : BitVec 3) (ty : VType) (rs : RSrc) (s : State) : Out :=
  vop opDiv false (accF .f64) (encode (.vdiv d a b p ty rs)) d a b p ty rs s

/-- VABS (R223, R224). -/
def execVabs (d a : BitVec 4) (p : BitVec 3) (ty : VType) (s : State) : Out :=
  vop1 opAbs (accIF .f64) (encode (.vabs d a p ty)) d a p ty .rmode s

/-- VNEG (R223, R224). -/
def execVneg (d a : BitVec 4) (p : BitVec 3) (ty : VType) (s : State) : Out :=
  vop1 opNeg (accIF .f64) (encode (.vneg d a p ty)) d a p ty .rmode s

/-- VSQRT (R223, R224). -/
def execVsqrt (d a : BitVec 4) (p : BitVec 3) (ty : VType) (rs : RSrc) (s : State) : Out :=
  vop1 opSqrt (accF .f64) (encode (.vsqrt d a p ty rs)) d a p ty rs s

/-- VRCP (R223, R224). -/
def execVrcp (d a : BitVec 4) (p : BitVec 3) (ty : VType) (rs : RSrc) (s : State) : Out :=
  vop1 opRcp (accF .f64) (encode (.vrcp d a p ty rs)) d a p ty rs s

/-- VRSQ (R223, R224). -/
def execVrsq (d a : BitVec 4) (p : BitVec 3) (ty : VType) (rs : RSrc) (s : State) : Out :=
  vop1 opRsq (accF .f64) (encode (.vrsq d a p ty rs)) d a p ty rs s

/-- VEXP2 (R223, R224). -/
def execVexp2 (d a : BitVec 4) (p : BitVec 3) (ty : VType) (rs : RSrc) (s : State) : Out :=
  vop1 opExp2 (accF .none) (encode (.vexp2 d a p ty rs)) d a p ty rs s

/-- VLOG2 (R223, R224). -/
def execVlog2 (d a : BitVec 4) (p : BitVec 3) (ty : VType) (rs : RSrc) (s : State) : Out :=
  vop1 opLog2 (accF .none) (encode (.vlog2 d a p ty rs)) d a p ty rs s

/-- VAND (R223). -/
def execVand (d a b : BitVec 4) (p : BitVec 3) (s : State) : Out := vlanes (fun x y => x &&& y) d [a, b] a b p s

/-- VOR (R223). -/
def execVor (d a b : BitVec 4) (p : BitVec 3) (s : State) : Out := vlanes (fun x y => x ||| y) d [a, b] a b p s

/-- VXOR (R223). -/
def execVxor (d a b : BitVec 4) (p : BitVec 3) (s : State) : Out := vlanes (fun x y => x ^^^ y) d [a, b] a b p s

/-- VMOV (R223). -/
def execVmov (d a : BitVec 4) (p : BitVec 3) (s : State) : Out := vlanes (fun x _ => x) d [a] a a p s

/-- VSEL: pm selects lane by lane (R226). -/
def execVsel (d a b : BitVec 4) (p : BitVec 3) (s : State) : Out :=
  vecDo [a, b] [d]
    (fun s => wv s d (ofElems 32 (tab 64 (fun i => if active (rp s p) 32 i then elem (rv s a) 32 i else elem (rv s b) 32 i)))) s

/-! Compares (R225) -/

/-- One element's relation. -/
def relOf (r : Rel) (e : EK) (md : Mode) (x y : Nat) : Bool × Flags :=
  match e with
  | .flt f => fRel f md r x y
  | k =>
    match r with
    | .eq => (k.int x == k.int y, 0)
    | .lt => (decide (k.int x < k.int y), 0)
    | .le => (decide (k.int x ≤ k.int y), 0)

/-- The elements that decide a lane's bit: those of the lane, or the element that spans it (R225). -/
def laneElems (w i : Nat) : List Nat := if w = 64 then [i / 2] else upFrom (32 / w * i) (32 / w)

/-- The lane is active for a compare: for f64 the bit of the element's lower lane decides (R217, R225). -/
def laneActive (p : Word) (w i : Nat) : Bool := bitN p (if w = 64 then i / 2 * 2 else i)

/-- A compare (R225). -/
def vcmp (r : Rel) (ac : Accept) (wd : W32) (d : BitVec 3) (a b : BitVec 4) (p : BitVec 3) (ty : VType) (s : State) : Out :=
  typeThen ty ac wd (fun e s =>
    vecDo [a, b] []
      (fun s =>
        let w := e.width
        let md := modeOf s.cx.rmode
        let pm := rp s p
        let res := tab 64 (fun i =>
          if laneActive pm w i then
            (laneElems w i).foldl (fun acc j =>
              let q := relOf r e md (elem (rv s a) w j) (elem (rv s b) w j)
              (acc.1 && q.1, acc.2 ||| q.2)) (true, (0 : Flags))
          else (bitN (rp s d) i, 0))
        flag (res.foldl (fun fl q => fl ||| q.2) 0) (wp s d (BitVec.ofNat 64 (packElems 1 (res.map (fun q => b2n q.1)))))) s) s

/-- VCEQ (R225). -/
def execVceq (d : BitVec 3) (a b : BitVec 4) (p : BitVec 3) (ty : VType) (s : State) : Out :=
  vcmp .eq (accIF .f64) (encode (.vceq d a b p ty)) d a b p ty s

/-- VCLT (R225). -/
def execVclt (d : BitVec 3) (a b : BitVec 4) (p : BitVec 3) (ty : VType) (s : State) : Out :=
  vcmp .lt (accIF .u32) (encode (.vclt d a b p ty)) d a b p ty s

/-- VCLE (R225). -/
def execVcle (d : BitVec 3) (a b : BitVec 4) (p : BitVec 3) (ty : VType) (s : State) : Out :=
  vcmp .le (accIF .u32) (encode (.vcle d a b p ty)) d a b p ty s

/-! VCVT (R227) -/

/-- The kind of a source code (R227). -/
def stKind : SType → EK
  | .i32 => .sint 32
  | .u32 => .uint 32
  | .f32 => .flt .fp32
  | .bf16 => .flt .bf16
  | .f16 => .flt .fp16
  | .i16 => .sint 16
  | .i8 => .sint 8
  | .e4m3 => .flt .e4m3
  | .e5m2 => .flt .e5m2
  | .f64 => .flt .fp64
  | .i4 => .sint 4
  | .e2m1 => .flt .e2m1
  | .u16 => .uint 16
  | .u8 => .uint 8

/-- One conversion (R56 to R59). -/
def convEl (src dst : EK) (md : Mode) (x : Nat) : FR :=
  match src, dst with
  | .flt f, .flt g =>
    let r := fit g md (f.operand md.ftz x)
    { r with flags := r.flags ||| snan f [x] }
  | .flt f, k =>
    let r := fpToInt md k.width true (f.operand md.ftz x)
    { r with flags := r.flags ||| snan f [x] }
  | k, .flt g => fit g md (intV (k.int x))
  | k, l => intToInt md l.width true (k.int x)

/-- The result of VCVT: `n` elements, each active with bit j of the predicate; the bits beyond are zero (R227). -/
def cvtBody (src dst : EK) (md : Mode) (d a : BitVec 4) (p : BitVec 3) (s : State) : State :=
  let n := if src.width = 64 || dst.width = 64 then 32 else 64
  let w := dst.width
  let res := tab n (fun j =>
    if bitN (rp s p) j then convEl src dst md (elem (rv s a) src.width j) else { bits := elem (rv s d) w j })
  flag (res.foldl (fun fl r => fl ||| r.flags) 0) (wv s d (ofElems w (res.map FR.bits)))

/-- VCVT (R227). -/
def execVcvt (d a : BitVec 4) (st : SType) (p : BitVec 3) (ty : VType) (rs : RSrc) (s : State) : Out :=
  typeThen ty accAll (encode (.vcvt d a st p ty rs)) (fun e s =>
    vecDo [a] [d] (fun s => cvtBody (stKind st) e (modeSrc s.cx.rmode rs) d a p s) s) s

/-! VDOT (R228) -/

/-- The exact products of a lane added to its accumulator, rounded once (R228). -/
def dotLane (e : EK) (md : Mode) (x y : VReg) (i acc : Nat) : FR :=
  match e with
  | .flt f =>
    let js := laneElems f.width i
    let xs := js.map (fun j => (elem x f.width j, elem y f.width j))
    let ps := xs.map (fun q => (f.operand md.ftz q.1, f.operand md.ftz q.2))
    let bad := ps.any (fun q => (mulV q.1 q.2).isNaN && !q.1.isNaN && !q.2.isNaN)
    let terms := ps.map (fun q => mulV q.1 q.2)
    let sum := match terms with
      | [] => .fin false 0 0
      | t :: ts => ts.foldl (addV md.rm) t
    let c := Fmt.fp32.operand md.ftz acc
    let r := deliverV .fp32 md (c :: terms) (snan f (xs.map Prod.fst ++ xs.map Prod.snd) ||| snan .fp32 [acc]) (addV md.rm c sum)
    { r with flags := r.flags ||| fIf bad fNV ||| infMeet (c :: terms) }
  | k =>
    let js := laneElems k.width i
    wrapFR 32 (sInt 32 acc + (js.map (fun j => k.int (elem x k.width j) * k.int (elem y k.width j))).foldl (fun p q => p + q) 0)

/-- VDOT (R228). -/
def execVdot (d a b : BitVec 4) (p : BitVec 3) (ty : VType) (rs : RSrc) (s : State) : Out :=
  typeThen ty accDot (encode (.vdot d a b p ty rs)) (fun e s =>
    vecDo [a, b, d] [d]
      (fun s =>
        let md := modeSrc s.cx.rmode rs
        let r := mapElems 32 (rp s p) (rv s d) (fun i => dotLane e md (rv s a) (rv s b) i (elem (rv s d) 32 i))
        flag r.2 (wv s d r.1)) s) s

/-! VSC (R229) -/

/-- VADDS (R229). -/
def execVadds (d a : BitVec 4) (c : BitVec 5) (p : BitVec 3) (ty : VType) (rs : RSrc) (s : State) : Out :=
  vsc opAdd false (accIF .f64) (encode (.vadds d a c p ty rs)) d a c p ty rs s

/-- VMULS (R229). -/
def execVmuls (d a : BitVec 4) (c : BitVec 5) (p : BitVec 3) (ty : VType) (rs : RSrc) (s : State) : Out :=
  vsc opMul false (accIF .f64) (encode (.vmuls d a c p ty rs)) d a c p ty rs s

/-- VFMAS (R229). -/
def execVfmas (d a : BitVec 4) (c : BitVec 5) (p : BitVec 3) (ty : VType) (rs : RSrc) (s : State) : Out :=
  vsc opFma true (accIF .f64) (encode (.vfmas d a c p ty rs)) d a c p ty rs s

/-- VMINS (R229). -/
def execVmins (d a : BitVec 4) (c : BitVec 5) (p : BitVec 3) (ty : VType) (s : State) : Out :=
  vsc opMin false (accIF .u32) (encode (.vmins d a c p ty)) d a c p ty .rmode s

/-- VMAXS (R229). -/
def execVmaxs (d a : BitVec 4) (c : BitVec 5) (p : BitVec 3) (ty : VType) (s : State) : Out :=
  vsc opMax false (accIF .u32) (encode (.vmaxs d a c p ty)) d a c p ty .rmode s

/-- Writes active elements that a function gives; nothing is rounded and no flag set (R220). -/
def putElems (w : Nat) (d : BitVec 4) (p : BitVec 3) (f : Nat → Nat) (s : State) : State :=
  wv s d (mapElems w (rp s p) (rv s d) (fun j => { bits := f j })).1

/-- VSPLAT (R229). -/
def execVsplat (d : BitVec 4) (c : BitVec 5) (p : BitVec 3) (ty : VType) (s : State) : Out :=
  typeThen ty accAll (encode (.vsplat d c p ty)) (fun e s =>
    vecDo [] [d] (fun s => putElems e.width d p (fun _ => (rs s c).toNat % 2 ^ e.width) s) s) s

/-- VINS (R229). -/
def execVins (d a : BitVec 4) (c : BitVec 5) (p : BitVec 3) (ty : VType) (s : State) : Out :=
  typeThen ty accAll (encode (.vins d a c p ty)) (fun e s =>
    vecDo [a] [d]
      (fun s => putElems e.width d p
        (fun j => if j = 0 then (rs s c).toNat % 2 ^ e.width else elem (rv s a) e.width (j - 1)) s) s) s

/-- VEXT: sign-extended for the signed integer types (R229). -/
def execVext (a : BitVec 4) (c : BitVec 5) (ty : VType) (s : State) : Out :=
  typeThen ty accAll (encode (.vext a c ty)) (fun e s =>
    vecDo [a] []
      (fun s =>
        let x := elem (rv s a) e.width 0
        ws s c (match e with
          | .sint w => BitVec.ofInt 64 (sInt w x)
          | _ => BitVec.ofNat 64 x)) s) s

/-! VPERM (R230) -/

/-- VPERM. -/
def execVperm (d a b : BitVec 4) (p : BitVec 3) (ty : VType) (s : State) : Out :=
  typeThen ty accAll (encode (.vperm d a b p ty)) (fun e s =>
    vecDo [a, b] [d]
      (fun s =>
        let w := e.width
        let k (j : Nat) : Nat := if w = 64 then elem (rv s b) 32 (2 * j) else elem (rv s b) w j
        putElems w d p (fun j => elem (rv s a) w (k j % elemCount w)) s) s) s

/-- VROT. -/
def execVrot (d a b : BitVec 4) (p : BitVec 3) (ty : VType) (s : State) : Out :=
  typeThen ty accAll (encode (.vrot d a b p ty)) (fun e s =>
    vecDo [a, b] [d]
      (fun s => putElems e.width d p
        (fun j => elem (rv s a) e.width ((j + elem (rv s b) 32 0) % elemCount e.width)) s) s) s

/-- The register pair vd, vd + 1 of 2n elements that a function gives. -/
def putPair (w : Nat) (d : BitVec 4) (f : Nat → Nat) (s : State) : State :=
  let n := elemCount w
  wv (wv s d (ofElems w (tab n f))) (d + 1) (ofElems w (tab n (fun j => f (n + j))))

/-- VZIP. -/
def execVzip (d a b : BitVec 4) (ty : VType) (s : State) : Out :=
  typeThen ty accAll (encode (.vzip d a b ty)) (fun e s =>
    vecDo [a, b] [d, d + 1]
      (fun s => putPair e.width d (fun j => elem (rv s (if j % 2 = 0 then a else b)) e.width (j / 2)) s) s) s

/-- VUNZIP. -/
def execVunzip (d a b : BitVec 4) (ty : VType) (s : State) : Out :=
  typeThen ty accAll (encode (.vunzip d a b ty)) (fun e s =>
    vecDo [a, b] [d, d + 1]
      (fun s =>
        let w := e.width
        let n := elemCount w
        let q (j : Nat) : Nat := if j < n then elem (rv s a) w j else elem (rv s b) w (j - n)
        putPair w d (fun j => if j < n then q (2 * j) else q (2 * (j - n) + 1)) s) s) s

/-- Numbers of the active elements, ascending. -/
def activeList (p : Word) (w : Nat) : List Nat := (upFrom 0 (elemCount w)).filter (active p w)

/-- VCMPR. -/
def execVcmpr (d a : BitVec 4) (p : BitVec 3) (ty : VType) (s : State) : Out :=
  typeThen ty accWide (encode (.vcmpr d a p ty)) (fun e s =>
    vecDo [a] [d]
      (fun s => wv s d (ofElems e.width ((activeList (rp s p) e.width).map (elem (rv s a) e.width)))) s) s

/-- VEXPD. -/
def execVexpd (d a : BitVec 4) (p : BitVec 3) (ty : VType) (s : State) : Out :=
  typeThen ty accWide (encode (.vexpd d a p ty)) (fun e s =>
    vecDo [a] [d]
      (fun s =>
        let l := activeList (rp s p) e.width
        putElems e.width d p (fun j => elem (rv s a) e.width ((l.filter (fun i => decide (i < j))).length)) s) s) s

/-- VIOTA. -/
def execViota (d : BitVec 4) (p : BitVec 3) (ty : VType) (s : State) : Out :=
  typeThen ty accIota (encode (.viota d p ty)) (fun e s =>
    vecDo [] [d]
      (fun s =>
        let l := activeList (rp s p) e.width
        wv s d (ofElems e.width (tab (elemCount e.width) (fun j => (l.filter (fun i => decide (i < j))).length)))) s) s

/-! VRED (R231) -/

/-- The active elements of a register. -/
def activeElems (s : State) (a : BitVec 4) (p : BitVec 3) (w : Nat) : List Nat :=
  (activeList (rp s p) w).map (elem (rv s a) w)

/-- The exact sum of values, +0 for none, and whether it is invalid. -/
def sumV (rm : RM) (l : List FVal) : FVal :=
  match l with
  | [] => .fin false 0 0
  | x :: t => t.foldl (addV rm) x

/-- VRSUM of elements (R231). -/
def rsum (e : EK) (md : Mode) (l : List Nat) : FR :=
  match e with
  | .flt f =>
    let vs := l.map (f.operand md.ftz)
    deliverV (if f = .fp64 then .fp64 else .fp32) md vs (snan f l ||| infMeet vs) (sumV md.rm vs)
  | k => wrapFR 32 ((l.map k.int).foldl (fun x y => x + y) 0)

/-- VRSUM (R231). -/
def execVrsum (d a : BitVec 4) (p : BitVec 3) (ty : VType) (rs : RSrc) (s : State) : Out :=
  typeThen ty (accIF .f64) (encode (.vrsum d a p ty rs)) (fun e s =>
    vecDo [a] [d]
      (fun s =>
        let r := rsum e (modeSrc s.cx.rmode rs) (activeElems s a p e.width)
        flag r.flags (wv s d (BitVec.ofNat 2048 r.bits))) s) s

/-- The least and the greatest value of a type (R231). -/
def extreme (e : EK) (max : Bool) : Nat :=
  match e with
  | .flt f => if max then f.infCode else f.sign true + f.infCode
  | .sint w => if max then 2 ^ (w - 1) - 1 else 2 ^ (w - 1)
  | .uint w => if max then 2 ^ w - 1 else 0

/-- VRMAX or VRMIN of elements (R231). -/
def rextreme (e : EK) (md : Mode) (max : Bool) (l : List Nat) : FR :=
  match l with
  | [] => { bits := extreme e (!max) }
  | x :: t =>
    match e with
    | .flt f =>
      let vs := t.map (f.operand md.ftz)
      let x0 := f.operand md.ftz x
      deliverV f md (x0 :: vs) (snan f l) (vs.foldl (fun m v => if max then maxV m v else minV m v) x0)
    | k =>
      wrapFR k.width ((t.map k.int).foldl
        (fun m v => if max then (if m < v then v else m) else (if v < m then v else m)) (k.int x))

/-- VRMAX and VRMIN: element 0 of vD, in the source type (R231). -/
def vred (max : Bool) (wd : W32) (d a : BitVec 4) (p : BitVec 3) (ty : VType) (s : State) : Out :=
  typeThen ty (accIF .u32) wd (fun e s =>
    vecDo [a] [d]
      (fun s =>
        let r := rextreme e (modeOf s.cx.rmode) max (activeElems s a p e.width)
        flag r.flags (wv s d (BitVec.ofNat 2048 r.bits))) s) s

/-- VRMAX (R231). -/
def execVrmax (d a : BitVec 4) (p : BitVec 3) (ty : VType) (s : State) : Out :=
  vred true (encode (.vrmax d a p ty)) d a p ty s

/-- VRMIN (R231). -/
def execVrmin (d a : BitVec 4) (p : BitVec 3) (ty : VType) (s : State) : Out :=
  vred false (encode (.vrmin d a p ty)) d a p ty s

/-- VRAND (R231). -/
def execVrand (d a : BitVec 4) (p : BitVec 3) (s : State) : Out :=
  vecDo [a] [d]
    (fun s => wv s d (BitVec.ofNat 2048 ((activeElems s a p 32).foldl (fun x y => x &&& y) (2 ^ 32 - 1)))) s

/-- VROR (R231). -/
def execVror (d a : BitVec 4) (p : BitVec 3) (s : State) : Out :=
  vecDo [a] [d] (fun s => wv s d (BitVec.ofNat 2048 ((activeElems s a p 32).foldl (fun x y => x ||| y) 0))) s

/-- The running sums of VSCAN: each addition rounded (R231). The first active element is delivered as it is added to
nothing. -/
def scanSums (e : EK) (md : Mode) : Option Nat → List Nat → List FR
  | _, [] => []
  | none, x :: t =>
    let r := match e with
      | .flt f => deliverV f md [f.operand md.ftz x] (snan f [x]) (f.operand md.ftz x)
      | _ => { bits := x }
    r :: scanSums e md (some r.bits) t
  | some acc, x :: t =>
    let r := match e with
      | .flt f => fAdd f md acc x
      | k => wrapFR k.width (k.int acc + k.int x)
    r :: scanSums e md (some r.bits) t

/-- NV of the sums of VSCAN, whose active elements hold infinities of opposite sign (R231). -/
def scanMeet (e : EK) (md : Mode) (l : List Nat) : Flags :=
  match e with
  | .flt f => infMeet (l.map (f.operand md.ftz))
  | _ => 0

/-- VSCAN (R231). -/
def execVscan (d a : BitVec 4) (p : BitVec 3) (ty : VType) (rs : RSrc) (s : State) : Out :=
  typeThen ty accWide (encode (.vscan d a p ty rs)) (fun e s =>
    vecDo [a] [d]
      (fun s =>
        let l := activeList (rp s p) e.width
        let sums := scanSums e (modeSrc s.cx.rmode rs) none (l.map (elem (rv s a) e.width))
        flag (sums.foldl (fun fl r => fl ||| r.flags) (scanMeet e (modeSrc s.cx.rmode rs) (l.map (elem (rv s a) e.width))))
          (putElems e.width d p (fun j => ((sums.map FR.bits).getD ((l.filter (fun i => decide (i < j))).length) 0)) s)) s) s

/-! VPRED (R236) -/

/-- PAND. -/
def execPand (d a b : BitVec 3) (s : State) : Out := done (wp s d (rp s a &&& rp s b))

/-- POR. -/
def execPor (d a b : BitVec 3) (s : State) : Out := done (wp s d (rp s a ||| rp s b))

/-- PXOR. -/
def execPxor (d a b : BitVec 3) (s : State) : Out := done (wp s d (rp s a ^^^ rp s b))

/-- PNOT. -/
def execPnot (d a : BitVec 3) (s : State) : Out := done (wp s d (~~~rp s a))

/-- A field of a V format that names one of s0 to s15 (R236). -/
def low16 (d : BitVec 4) : BitVec 5 := d.setWidth 5

/-- Set bits of a word, and its lowest one. -/
def bitsOf (w : Word) : List Nat := (upFrom 0 64).filter (bitN w)

/-- PCNT. -/
def execPcnt (d : BitVec 4) (a : BitVec 3) (s : State) : Out :=
  done (ws s (low16 d) (BitVec.ofNat 64 (bitsOf (rp s a)).length))

/-- PFIRST. -/
def execPfirst (d : BitVec 4) (a : BitVec 3) (s : State) : Out :=
  done (ws s (low16 d) (BitVec.ofNat 64 ((bitsOf (rp s a)).headD 64)))

/-- PSETN. -/
def execPsetn (d : BitVec 3) (a : BitVec 4) (s : State) : Out :=
  let n := (rs s (low16 a)).toNat
  done (wp s d (if 64 ≤ n then BitVec.allOnes 64 else BitVec.ofNat 64 (2 ^ n - 1)))

end Sys2Proof.Machine
end

