-- ==== Sys2Proof/Machine/VecMem.lean ====
section
/-! DEFINITION. The group VMEM (R232 to R235). -/

namespace Sys2Proof.Machine

/-- Bits of an element in memory and the count of elements; none for a format that is refused (R233). `far` tells the
strided and the indexed forms. -/
def vmemShape (fmt : Nat) (store far : Bool) : Option (Nat × Nat) :=
  match fmt with
  | 0 | 4 | 8 => some (32, 64)
  | 1 | 2 | 10 | 11 => some (8, 64)
  | 3 | 6 | 7 => some (16, 64)
  | 5 | 9 => some (64, 32)
  | 12 | 18 => if far then none else some (4, 64)
  | 16 => if store then none else some (8, 64)
  | _ => none

/-- What a load delivers of an element: the lane, or the lane pair (R233). -/
def loadLane (fmt : Nat) (md : Mode) (raw : Nat) : FR :=
  match fmt with
  | 0 | 4 | 8 | 5 | 9 => { bits := raw }
  | _ =>
    let x := readElem fmt md.ftz raw
    match x.1 with
    | .int n => { bits := wrapN 32 n }
    | .fp v =>
      let r := fit .fp32 md v
      { r with flags := r.flags ||| x.2 }

/-- What a store delivers of a lane, or of a lane pair (R233). -/
def storeElem (fmt : Nat) (md : Mode) (lane : Nat) : FR :=
  match fmt with
  | 0 | 4 | 8 | 5 | 9 => { bits := lane }
  | _ =>
    match intOfCode fmt with
    | some _ => writeElem fmt md (.int (sInt 32 lane))
    | none =>
      let r := writeElem fmt md (.fp (Fmt.fp32.operand md.ftz lane))
      { r with flags := r.flags ||| snan .fp32 [lane] }

/-- An element on its way: its number, its address, the effective pointer. -/
structure VElem where
  j : Nat
  at_ : Tgt
  ptr : Word
deriving DecidableEq, Repr

/-- Bytes an element touches: a nibble touches one. -/
def elemBytes (bits : Nat) : Nat := if bits < 8 then 1 else bits / 8

/-- The checks of the active elements, in ascending order: alignment, segment, window (R143, R234). -/
def elemsCheck (s : State) (g : Seg) (ptr : Word) (bits right : Nat) (write : Bool) :
    List (Nat × Nat) → Except (BitVec 8 × Word) (List VElem)
  | [] => .ok []
  | (j, off) :: t =>
    let p := withOff ptr off
    if off % elemBytes bits != 0 then .error (0x06, p)
    else
      match segCheck g off (elemBytes bits) right write with
      | .error c => .error (c, p)
      | .ok a =>
        let win : Option (BitVec 8) := match a with
          | .win wa => winCheck s s.cx.pour s.cx.tenant.toNat wa (elemBytes bits) write
          | .glob _ => none
        match win, elemsCheck s g ptr bits right write t with
        | some c, _ => .error (c, p)
        | none, .error e => .error e
        | none, .ok l => .ok ({ j := j, at_ := a, ptr := p } :: l)

/-- What is done for every element in order, then what follows. -/
def eachThen {α : Type} (f : α → (State → Out) → State → Out) : List α → (State → Out) → State → Out
  | [], k, s => k s
  | a :: t, k, s => f a (eachThen f t k) s

/-- The ways of the elements: waits, then pages, then touches (R127, R143, R156, R237, R303). -/
def elemWaits (n : Nat) (write : Bool) (e : VElem) (k : State → Out) (s : State) : Out :=
  match e.at_ with
  | .win wa => winThen wa n write e.ptr k s
  | .glob va => ownThen va n k s

def elemPages (n : Nat) (write : Bool) (e : VElem) (k : State → Out) (s : State) : Out :=
  match e.at_ with
  | .win _ => k s
  | .glob va => presentThen va n write k s

def elemTouch (n : Nat) (e : VElem) (k : State → Out) (s : State) : Out :=
  match e.at_ with
  | .win _ => k s
  | .glob va => touchThen va n e.ptr k s

def elemPaths (n : Nat) (write : Bool) (l : List VElem) (k : State → Out) (s : State) : Out :=
  eachThen (elemWaits n write) l (eachThen (elemPages n write) l (eachThen (elemTouch n) l k)) s

/-- The data of one element; its ways are open. -/
def elemRead (n : Nat) (e : VElem) (k : List Byte → State → Out) (s : State) : Out :=
  match e.at_ with
  | .win wa => k (winRead s wa n) s
  | .glob va => pathRead va n e.ptr k s

/-- Reads every element, in order. -/
def readElems (n : Nat) : List VElem → (List (Nat × Nat) → State → Out) → State → Out
  | [], k, s => k [] s
  | e :: t, k, s =>
    elemRead n e (fun l s1 => readElems n t (fun r => k ((e.j, natOfBytes l) :: r)) s1) s

/-- Bytes to be written, with the bits of each that are: a later element covers an earlier one (R235). -/
abbrev Patch := Tbl (Byte × Byte)

def Patch.put (t : Patch) (a : Nat) (v m : Byte) : Patch :=
  match tget t a with
  | some o => tput t a ((o.1 &&& ~~~m) ||| (v &&& m), o.2 ||| m)
  | none => tput t a (v &&& m, m)

/-- The bytes of an element's value; a nibble's byte has four bits that are written (R42). -/
def elemPatch (bits j x : Nat) : List (Byte × Byte) :=
  if bits < 8 then
    if j % 2 = 0 then [(BitVec.ofNat 8 x, 0x0F)] else [(BitVec.ofNat 8 (16 * x), 0xF0)]
  else (bytesOfNat (bits / 8) x).map (fun b => (b, 0xFF))

/-- Lays an element's bytes over those of earlier ones. -/
def putPatch (t : Patch) (a : Nat) : List (Byte × Byte) → Patch
  | [] => t
  | (v, m) :: r => putPatch (t.put (a % 2 ^ 48) v m) (a + 1) r

/-- A byte with some of its bits replaced. -/
def patchByte (old v m : Byte) : Byte := (old &&& ~~~m) ||| v

/-- Patches of one block at a time: the bytes of the first one's block, and the rest. -/
def takeBlock (b : Nat) : Patch → Patch × Patch
  | [] => ([], [])
  | (a, x) :: t => if a / 256 = b then let r := takeBlock b t; ((a, x) :: r.1, r.2) else ([], (a, x) :: t)

/-- Writes the patches of one block at the physical address of its first byte. -/
def patchBlock (m : List Host.Cell) (pa a0 : Nat) : Patch → List Host.Cell
  | [] => m
  | (a, v, k) :: t => patchBlock (wrB m (pa + (a - a0)) (patchByte (rdB m (pa + (a - a0))) v k)) pa a0 t

/-- Writes patches, each block as one arrival (R235); an error of the path is deferred (R128, R234). -/
def patchAll (tenant key who : Nat) : Nat → Patch → State → GWrite
  | 0, _, s => .ok s
  | _ + 1, [], s => .ok s
  | n + 1, (a0, x) :: t, s =>
    let r := takeBlock (a0 / 256) t
    match gpath s tenant a0 true (r.1.length == 255 && ((a0, x) :: r.1).all (fun e => e.2.2 == 0xFF)) with
    | .page => .page a0
    | .wait => .wait
    | .error c =>
      patchAll tenant key who n r.2 (chargeDeferred s key
        { cause := c, val := BitVec.ofNat 64 a0, engine := 2, addr := some (BitVec.ofNat 64 a0) })
    | .ok pa s1 =>
      let s2 := arrive { s1 with mem := patchBlock s1.mem pa a0 ((a0, x) :: r.1) } tenant a0 pa [patchByte (rdB s1.mem pa) x.1 x.2] 0 who
      patchAll tenant key who n r.2
        (if (getTenant s2 tenant).trace then s2
         else r.1.foldl (fun s e => dirtyLine s (homeCore who) tenant who e.1 1) s2)
    | .far => patchAll tenant key who n r.2 s

/-- Writes an element through the window space. -/
def winElem (s : State) (wa : Nat) (l : List (Byte × Byte)) : State :=
  winWrite s s.cx.key wa ((winRead s wa l.length).zipWith (fun o p => patchByte o p.1 p.2) l)

/-- Writes every element, in ascending order (R235). -/
def writeElems (bits : Nat) (l : List (VElem × Nat)) (k : State → Out) (s : State) : Out :=
  let s1 := l.foldl (fun s e => match e.1.at_ with
    | .win wa => winElem s wa (elemPatch bits e.1.j e.2)
    | .glob _ => s) s
  let p := l.foldl (fun t e => match e.1.at_ with
    | .win _ => t
    | .glob va => putPatch t va (elemPatch bits e.1.j e.2)) ([] : Patch)
  match patchAll s.cx.tenant.toNat s.cx.key s.cx.who (p.length + 1) p s1 with
  | .ok s2 => k s2
  | .page a => parkFor a 0 s
  | .wait => stallFor .fullService s
  | .error _ _ => k s1

/-- The lane that carries an element's predicate and its index (R217, R232). -/
def vmemLane (n j : Nat) : Nat := if n = 32 then 2 * j else j

/-- The checks of R234 up to the memory path; `offs` gives an element's byte offset from its number, its bits and the
count. -/
def vmemThen (wd : W32) (store far : Bool) (a : BitVec 5) (g p : BitVec 3) (offs : Nat → Nat → Nat → Int)
    (k : Nat → Nat → List VElem → State → Out) (s : State) : Out :=
  let ptr := rs s a
  homeOnly wd (tagThen ptr (fun s =>
    match vmemShape (fmtOf ptr) store far with
    | none => trap 0x02 ptr s
    | some (bits, n) =>
      let js := (upFrom 0 n).filter (fun j => bitN (rp s p) (vmemLane n j))
      match elemsCheck s (rg s g) ptr bits (if store then rightW else rightR) store
          (js.map (fun j => (j, wrapN 48 ((offOf ptr : Int) + offs bits n j)))) with
      | .error e => trap e.1 e.2 s
      | .ok l => elemPaths (elemBytes bits) store l (k bits n l) s)) s

/-- A vector load (R232 to R234). -/
def vload (wd : W32) (far : Bool) (srcs : List (BitVec 4)) (d : BitVec 4) (a : BitVec 5) (g p : BitVec 3)
    (offs : State → Nat → Nat → Nat → Int) (s : State) : Out :=
  let ptr := rs s a
  let md := modeOf s.cx.rmode
  vecThen srcs [d] (fun s => vmemThen wd false far a g p (offs s) (fun bits n l =>
    readElems (elemBytes bits) l (fun raw s =>
      let lane (e : Nat × Nat) : Nat × FR :=
        (e.1, loadLane (fmtOf ptr) md (if bits < 8 then e.2 / 16 ^ (e.1 % 2) % 16 else e.2))
      let lanes := raw.map lane
      let w := 2048 / n
      let body (s : State) : State :=
        let old := rv s d
        flag (lanes.foldl (fun f e => f ||| e.2.flags) 0)
          (wv s d (ofElems w (tab n (fun j => ((tget lanes j).map FR.bits).getD (elem old w j)))))
      done (commitOut [d] (body (commitIn srcs s))))) s) s

/-- A vector store (R232 to R235). -/
def vstore (wd : W32) (far : Bool) (srcs : List (BitVec 4)) (d : BitVec 4) (a : BitVec 5) (g p : BitVec 3)
    (offs : State → Nat → Nat → Nat → Int) (s : State) : Out :=
  let ptr := rs s a
  let md := modeOf s.cx.rmode
  let x := vsrc s d
  vecThen (d :: srcs) [] (fun s => vmemThen wd true far a g p (offs s) (fun bits n l s =>
    let out := l.map (fun e => (e, storeElem (fmtOf ptr) md (elem x (2048 / n) e.j)))
    writeElems bits (out.map (fun e => (e.1, e.2.bits)))
      (fun s => done (flag (out.foldl (fun f e => f ||| e.2.flags) 0) (commitIn (d :: srcs) s))) s) s) s

/-- Byte offsets of the three address forms (R232). -/
def offsUnit (_ : State) (bits _ j : Nat) : Int := ((j * bits / 8 : Nat) : Int)
def offsStride (b : BitVec 5) (s : State) (_ _ j : Nat) : Int := (j : Int) * sInt 64 (rs s b).toNat
def offsIndex (b : BitVec 4) (s : State) (_ n j : Nat) : Int := sInt 32 (elem (vsrc s b) 32 (vmemLane n j))

/-- VLD. -/
def execVld (d : BitVec 4) (a : BitVec 5) (g p : BitVec 3) (s : State) : Out :=
  vload (encode (.vld d a g p)) false [] d a g p offsUnit s

/-- VST. -/
def execVst (d : BitVec 4) (a : BitVec 5) (g p : BitVec 3) (s : State) : Out :=
  vstore (encode (.vst d a g p)) false [] d a g p offsUnit s

/-- VLDS. -/
def execVlds (d : BitVec 4) (a : BitVec 5) (g p : BitVec 3) (b : BitVec 5) (s : State) : Out :=
  vload (encode (.vlds d a g p b)) true [] d a g p (offsStride b) s

/-- VSTS. -/
def execVsts (d : BitVec 4) (a : BitVec 5) (g p : BitVec 3) (b : BitVec 5) (s : State) : Out :=
  vstore (encode (.vsts d a g p b)) true [] d a g p (offsStride b) s

/-- VGATH. -/
def execVgath (d : BitVec 4) (a : BitVec 5) (g p : BitVec 3) (b : BitVec 4) (s : State) : Out :=
  vload (encode (.vgath d a g p b)) true [b] d a g p (offsIndex b) s

/-- VSCAT. -/
def execVscat (d : BitVec 4) (a : BitVec 5) (g p : BitVec 3) (b : BitVec 4) (s : State) : Out :=
  vstore (encode (.vscat d a g p b)) true [b] d a g p (offsIndex b) s

end Sys2Proof.Machine
end

