-- ==== Sys2Proof/Machine/Raster.lean ====
section
/-! DEFINITION. The group RAST (R317 to R333). -/

namespace Sys2Proof.Machine

/-! Where the group executes (R317) -/

/-- The target of every minor without a handle: the equipped core of the 2 × 2 square the context stands in. -/
def nearEquipped (core : Nat) : Nat := coreAt (coreX core ||| 1) (coreY core ||| 1)

/-- The instruction executes on an equipped core: the context moves there, unless it cannot (R317, R246). -/
def rastThen (wd : W32) (target : Nat) (k : State → Out) (s : State) : Out :=
  if s.cx.core = target then k s
  else
    match s.cx.binds with
    | (_, b) :: _ => trap 0x11 (BitVec.ofNat 64 b.ring) s
    | [] =>
      failIf (homeIdx s.cx.key == 11 || (s.cx.away && s.cx.held)) 0x0B (wd.setWidth 64)
        (releaseThen (fun s => .next (depart target s))) s

/-- The same at the near equipped core. -/
def rastNear (wd : W32) (k : State → Out) (s : State) : Out := rastThen wd (nearEquipped s.cx.core) k s

/-- A register bound to a stream is used against its direction, or its ring is gone: 0x11, before what the instruction
checks of its own (R333). -/
def misuseThen (srcs dsts : List (BitVec 4)) (k : State → Out) (s : State) : Out :=
  match hinders s srcs dsts with
  | .misuse q => trap 0x11 (BitVec.ofNat 64 q) s
  | _ => k s

/-- The vector operands of the group: it has no cause for a chunk whose lines are lost, so that one is read as a free value and
written to no effect (R148, R333, log 77). -/
def rastVec (srcs dsts : List (BitVec 4)) (k : State → Out) (s : State) : Out :=
  let keep (h : Hinder) : Hinder := match h with
    | .lost _ => .none
    | h => h
  hinderThen (firstHinder ((hinderList s srcs dsts).map keep)) k s

/-- The same where the instruction then completes. -/
def rastDo (srcs dsts : List (BitVec 4)) (body : State → State) (s : State) : Out :=
  rastVec srcs dsts (fun s => done (commitOut dsts (body (commitIn srcs s)))) s

/-- The core a handle names. -/
def handleCore (h : Word) : Nat := coreAt (fieldN h 0 6) (fieldN h 6 5)

/-- A handle has bits above `n`, or names no equipped core (R322, R324). -/
def handleBad (h : Word) (n : Nat) : Bool :=
  decide (2 ^ n ≤ h.toNat) || decide (24 ≤ fieldN h 6 5) || !equipped (handleCore h)

/-! Arithmetic of the group: FP32, RNE, no flush, no saturation, no flag (R318, R322) -/

/-- A lane as a value. -/
def laneV (v : VReg) (i : Nat) : FVal := Fmt.fp32.value (elem v 32 i)

/-- An exact value rounded to FP32 under a mode; an exact zero is +0. -/
def rnMode (md : Mode) (v : FVal) : Nat := if v.isZero then 0 else (fit .fp32 md v).bits

/-- Rn: a value rounded to FP32, as bits and as a value. -/
def rnBits (v : FVal) : Nat := rnMode .rn v
def rnV (v : FVal) : FVal := Fmt.fp32.value (rnBits v)

/-- Exact differences and quotients rounded once. -/
def subV (x y : FVal) : FVal := addV .rne x (negV y)
def rnQuot (x y : FVal) : Nat :=
  match x, y with
  | .fin n1 m1 e1, .fin n2 m2 e2 =>
    if m2 = 0 then (fDiv .fp32 .rn (rnBits x) (rnBits y)).bits
    else if m1 = 0 then 0
    else (divTo .fp32 .rn (n1 != n2) m1 e1 m2 e2).bits
  | .fin _ _ _, .inf _ => 0
  | _, _ => (fDiv .fp32 .rn (rnBits x) (rnBits y)).bits

/-- A quotient of integers rounded to FP32; zero gives +0. -/
def rnRatio (x y : Int) : Nat :=
  if x = 0 then 0 else (divTo .fp32 .rn (decide (x < 0) != decide (y < 0)) x.natAbs 0 y.natAbs 0).bits

/-! View tables and banks (R319, R320) -/

/-- Entry `v` of a view table, and its fields. -/
def viewEntry (t : BitVec 81920) (v : Nat) : BitVec 640 := (t >>> (640 * v)).setWidth 640
def viewAt (e : BitVec 640) (o n : Nat) : Nat := fieldN e (8 * o) (8 * n)

/-- The entry keeps R319. -/
def viewValid (e : BitVec 640) : Bool :=
  let w := viewAt e 68 2
  let h := viewAt e 70 2
  w != 0 && h != 0 && decide (viewAt e 64 2 + w ≤ 16384) && decide (viewAt e 66 2 + h ≤ 16384) && viewAt e 72 4 == 1
    && viewAt e 76 4 == 0

/-- A view handle (R320). -/
def viewHandle (core bank n : Nat) : Word := BitVec.ofNat 64 (coreX core + coreY core * 2 ^ 6 + bank * 2 ^ 11 + n * 2 ^ 13)

/-- The bank is owned by another pour (R320). -/
def bankTaken (s : State) (core n : Nat) : Bool := (tget (getCore s core).banks n).any (fun b => b.pour != s.cx.pour)

/-- RVIEW (R320). -/
def execRview (d a : BitVec 5) (n : BitVec 2) (s : State) : Out :=
  let p := rs s a
  rastNear (encode (.rview d a n)) (fun s => ptrThen (rg s 0) p 10240 256 rightR false (fun t s =>
    let core := s.cx.core
    if bankTaken s core n.toNat then waitFor (.viewBank n.toNat) s
    else
      readThen t 10240 p (fun l s =>
        let table : BitVec 81920 := BitVec.ofNat 81920 (natOfBytes l)
        let valid := ((upFrom 0 128).filter (fun v => viewValid (viewEntry table v))).length
        done (ws (updCore s core (fun c => { c with banks := tput c.banks n.toNat { pour := s.cx.pour, table := table } })) d
          (viewHandle core n.toNat valid))) s) s) s

/-! Setup (R321, R322) -/

/-- The integer nearest to t / d, ties to even. -/
def nearestEven (t : Int) (d : Nat) : Int :=
  let q := t / (d : Int)
  let r := t % (d : Int)
  if 2 * r < d then q else if (d : Int) < 2 * r then q + 1 else if q % 2 = 0 then q else q + 1

/-- A coordinate on the grid of 1/256 pixel: 256 · (origin + size · (X / W + 1) / 2) (R322). -/
def gridOf (origin size : Nat) (neg : Bool) (m : Nat) (e : Int) (mw : Nat) (ew : Int) : Int :=
  let num : Nat := m * 2 ^ (e - ew).toNat
  let den : Nat := mw * 2 ^ (ew - e).toNat
  nearestEven ((((256 * origin + 128 * size) * den : Nat) : Int) + signed neg (128 * size * num)) den

/-- A row of the view matrix times (x, y, z, 1), rounded (R322). -/
def viewRow (e : BitVec 640) (i : Nat) (x y z : FVal) : FVal :=
  let m (j : Nat) : FVal := Fmt.fp32.value (viewAt e (16 * i + 4 * j) 4)
  rnV (addV .rne (addV .rne (addV .rne (mulV (m 0) x) (mulV (m 1) y)) (mulV (m 2) z)) (m 3))

/-- The grid holds the coordinate (R322). -/
def gridOk (x : Int) : Bool := decide (-(2 ^ 23 : Nat) ≤ x) && decide (x < (2 ^ 23 : Nat))

/-- A vertex on a view's grid; none where the view is rejected (R322). -/
def snapVertex (e : BitVec 640) (x y z : FVal) : Option (Int × Int) :=
  match viewRow e 0 x y z, viewRow e 1 x y z, viewRow e 3 x y z with
  | .fin nx mx ex, .fin ny my ey, .fin false mw ew =>
    if mw = 0 then none
    else
      let sx := gridOf (viewAt e 64 2) (viewAt e 68 2) nx mx ex mw ew
      let sy := gridOf (viewAt e 66 2) (viewAt e 70 2) ny my ey mw ew
      if gridOk sx && gridOk sy then some (sx, sy) else none
  | _, _, _ => none

/-- What a selected view comes to. -/
inductive ViewRes where
  | rejected
  | dead
  | live (v : SView)

/-- A view of a setup (R322). -/
def setupView (t : BitVec 81920) (tri : VReg) (cullP cullN : Bool) (v : Nat) : ViewRes :=
  let e := viewEntry t v
  let vert (i : Nat) : Option (Int × Int) := snapVertex e (laneV tri (3 * i)) (laneV tri (3 * i + 1)) (laneV tri (3 * i + 2))
  if !viewValid e then .rejected
  else
    match vert 0, vert 1, vert 2 with
    | some (x0, y0), some (x1, y1), some (x2, y2) =>
      let a := (x1 - x0) * (y2 - y0) - (y1 - y0) * (x2 - x0)
      if a = 0 || (cullP && decide (0 < a)) || (cullN && decide (a < 0)) then .dead
      else
        .live { view := v, x0 := x0, y0 := y0, x1 := x1, y1 := y1, x2 := x2, y2 := y2, area := a, vx := viewAt e 64 2,
                vy := viewAt e 66 2, vw := viewAt e 68 2, vh := viewAt e 70 2 }
    | _, _, _ => .rejected

/-- The selected views, ascending: bit j of lane 12 + q selects view 32 q + j (R322). -/
def selectedViews (tri : VReg) : List Nat := (upFrom 0 128).filter (fun v => bitN tri (384 + v))

/-- The slot of a context on a core, and the slot RSETUP takes: its own, else the lowest free (R321). -/
def ownSetup (s : State) (core : Nat) : Option Nat :=
  ((getCore s core).setups.find? (fun x => x.2.key == s.cx.key && x.2.pour == s.cx.pour)).map Prod.fst
def takeSetup (s : State) (core : Nat) : Option Nat :=
  match ownSetup s core with
  | some n => some n
  | none => (upFrom 0 Config.setupSlots).find? (fun i => (tget (getCore s core).setups i).isNone)

/-- A setup handle (R322). -/
def setupHandle (core slot live rejected : Nat) : Word :=
  BitVec.ofNat 64 (coreX core + coreY core * 2 ^ 6 + slot * 2 ^ 11 + live * 2 ^ 16 + rejected * 2 ^ 24)

/-- RSETUP at its target: the bank, then the slot, then the setup. -/
def setupAt (core : Nat) (d : BitVec 5) (v : BitVec 4) (h : Word) (cullN cullP : Bool) (s : State) : Out :=
  match (tget (getCore s core).banks (fieldN h 11 2)).filter (fun b => b.pour == s.cx.pour) with
  | none => trap 0x05 h s
  | some bank =>
    match takeSetup s core with
    | none => waitFor .setupSlot s
    | some slot =>
      rastDo [v] [] (fun s =>
        let tri := rv s v
        let res := (selectedViews tri).map (setupView bank.table tri cullP cullN)
        let live := res.filterMap (fun r => match r with
          | .live x => some x
          | _ => none)
        let rejected := res.filter (fun r => match r with
          | .rejected => true
          | _ => false)
        ws (updCore s core (fun c =>
            { c with setups := tput c.setups slot { pour := s.cx.pour, key := s.cx.key, views := live } }))
          d (setupHandle core slot live.length rejected.length)) s

/-- RSETUP: the handle's format before the move (R317, R322). -/
def execRsetup (d : BitVec 5) (v : BitVec 4) (b : BitVec 5) (n p : Bool) (s : State) : Out :=
  let h := rs s b
  failIf (handleBad h 21) 0x02 h (rastThen (encode (.rsetup d v b n p)) (handleCore h)
    (misuseThen [v] [] (setupAt (handleCore h) d v h n p))) s

/-! Coverage (R323, R324) -/

/-- E_ij at a point (R323). -/
def edgeFn (xi yi xj yj cx cy : Int) : Int := (xj - xi) * (cy - yi) - (yj - yi) * (cx - xi)

/-- The point is inside an edge, or on it where it is owning (R323). -/
def edgeIn (xi yi xj yj cx cy : Int) : Bool :=
  let e := edgeFn xi yi xj yj cx cy
  decide (0 < e) || (e == 0 && (decide (yi < yj) || (yj == yi && decide (xj < xi))))

/-- A pixel of a view is covered (R323). -/
def SView.covers (v : SView) (px py : Nat) : Bool :=
  let cx : Int := 256 * px + 128
  let cy : Int := 256 * py + 128
  let inside : Bool :=
    if v.area < 0 then
      edgeIn v.x0 v.y0 v.x2 v.y2 cx cy && edgeIn v.x2 v.y2 v.x1 v.y1 cx cy && edgeIn v.x1 v.y1 v.x0 v.y0 cx cy
    else edgeIn v.x0 v.y0 v.x1 v.y1 cx cy && edgeIn v.x1 v.y1 v.x2 v.y2 cx cy && edgeIn v.x2 v.y2 v.x0 v.y0 cx cy
  decide (v.vx ≤ px) && decide (px < v.vx + v.vw) && decide (v.vy ≤ py) && decide (py < v.vy + v.vh) && inside

/-- The pixel of bit `i` of a block. -/
def pixelX (bx i : Nat) : Nat := 8 * bx + i % 8
def pixelY (by_ i : Nat) : Nat := 8 * by_ + i / 8

/-- The mask of a block. -/
def SView.mask (v : SView) (bx by_ : Nat) : Word :=
  BitVec.ofNat 64 ((upFrom 0 64).foldl (fun m i => if v.covers (pixelX bx i) (pixelY by_ i) then m + 2 ^ i else m) 0)

/-- The least and the greatest of three. -/
def min3 (a b c : Int) : Int := if a ≤ b then (if a ≤ c then a else c) else if b ≤ c then b else c
def max3 (a b c : Int) : Int := if b ≤ a then (if c ≤ a then a else c) else if c ≤ b then b else c

/-- Blocks of one axis: the first, and how many, from the snapped coordinates and the viewport (R324). -/
def blockSpan (a b c : Int) (origin size : Nat) : Nat × Nat :=
  let lo := -((128 - min3 a b c) / 256)
  let hi := (max3 a b c - 128) / 256
  let lo1 : Int := if lo < origin then (origin : Int) else lo
  let hi1 : Int := if ((origin + size : Nat) : Int) - 1 < hi then ((origin + size : Nat) : Int) - 1 else hi
  if hi1 < lo1 then (0, 0) else (lo1.toNat / 8, hi1.toNat / 8 - lo1.toNat / 8 + 1)

/-- A block found: its view, its place, its mask, and the setup after it. -/
structure Block where
  v : SView
  bx : Nat
  by_ : Nat
  mask : Word

/-- The next block of one view with a covered pixel, from block number `n` on; `fuel` blocks are left (R324). -/
def viewBlock (v : SView) (bx0 nx by0 : Nat) : Nat → Nat → Option (Block × Nat)
  | 0, _ => none
  | fuel + 1, n =>
    let bx := bx0 + n % nx
    let by_ := by0 + n / nx
    let m := v.mask bx by_
    if m = 0 then viewBlock v bx0 nx by0 fuel (n + 1) else some ({ v := v, bx := bx, by_ := by_, mask := m }, n + 1)

/-- The next block of a setup and what is left of it (R324). -/
def nextBlock : List SView → Nat → Option (Block × List SView × Nat)
  | [], _ => none
  | v :: t, n =>
    let x := blockSpan v.x0 v.x1 v.x2 v.vx v.vw
    let y := blockSpan v.y0 v.y1 v.y2 v.vy v.vh
    match viewBlock v x.1 x.2 y.1 (x.2 * y.2 - n) n with
    | some (b, n1) => some (b, v :: t, n1)
    | none => nextBlock t 0

/-- The block descriptor (R324). -/
def Block.word (b : Block) : Word := BitVec.ofNat 64 (b.v.view + b.bx * 2 ^ 7 + b.by_ * 2 ^ 18 + 2 ^ 63)

/-- The weights of v1 and v2 in a block (R324). -/
def Block.weights (b : Block) : VReg × VReg :=
  let v := b.v
  let at_ (xi yi xj yj : Int) (i : Nat) : Nat :=
    if bitN b.mask i then rnRatio (edgeFn xi yi xj yj (256 * pixelX b.bx i + 128) (256 * pixelY b.by_ i + 128)) v.area else 0
  (ofElems 32 (tab 64 (at_ v.x2 v.y2 v.x0 v.y0)), ofElems 32 (tab 64 (at_ v.x0 v.y0 v.x1 v.y1)))

/-- RCOVER at its target. -/
def coverAt (core : Nat) (d : BitVec 5) (h : Word) (p : BitVec 3) (f : Bool) (e : BitVec 4) (s : State) : Out :=
  let slot := fieldN h 11 5
  match (tget (getCore s core).setups slot).filter (fun x => x.key == s.cx.key && x.pour == s.cx.pour) with
  | none => trap 0x02 h s
  | some x =>
    let put (w : VReg × VReg) (s : State) : State := if f then wv (wv s e w.1) (e + 1) w.2 else s
    rastDo [] (if f then [e, e + 1] else []) (fun s =>
      match nextBlock x.views x.visited with
      | some (b, views, n) =>
        put b.weights (wp (ws (updCore s core (fun c =>
          { c with setups := tput c.setups slot { x with views := views, visited := n } })) d b.word) p b.mask)
      | none => put (0, 0) (wp (ws (updCore s core (fun c => { c with setups := tdel c.setups slot })) d 0) p 0)) s

/-- RCOVER (R324). -/
def execRcover (d a : BitVec 5) (p : BitVec 3) (f : Bool) (e : BitVec 4) (s : State) : Out :=
  let h := rs s a
  failIf (handleBad h 32) 0x02 h (rastThen (encode (.rcover d a p f e)) (handleCore h)
    (misuseThen [] (if f then [e, e + 1] else []) (coverAt (handleCore h) d h p f e))) s

/-! Traversal (R325 to R327) -/

/-- What is known of a box on the way: entry, exit, and whether it may still be hit. -/
structure BoxState where
  tn : FVal
  tf : FVal
  hit : Bool := true

/-- One axis of a box (R325). -/
def boxAxis (o r lo hi : FVal) (b : BoxState) : BoxState :=
  let bad := lo.isNaN || hi.isNaN || ltV hi lo || o.isNaN
  let b1 := { b with hit := b.hit && !bad }
  match r with
  | .inf _ => { b1 with hit := b1.hit && leV lo o && leV o hi }
  | _ =>
    let p := mulV (subV lo o) r
    let q := mulV (subV hi o) r
    if p.isNaN || q.isNaN then b1
    else
      { b1 with
        tn := maxV b1.tn (Fmt.fp32.value (rnMode { rm := .rdn } (minV p q)))
        tf := minV b1.tf (Fmt.fp32.value (rnMode { rm := .rup } (maxV p q))) }

/-- Box `b` against the ray: its entry, when it is hit. -/
def boxHit (ray boxes : VReg) (b : Nat) : Option FVal :=
  let ax (x : BoxState) (i : Nat) : BoxState :=
    boxAxis (laneV ray i) (laneV ray (3 + i)) (laneV boxes (6 * b + i)) (laneV boxes (6 * b + 3 + i)) x
  let x := ax (ax (ax { tn := laneV ray 6, tf := laneV ray 7 } 0) 1) 2
  if x.hit && leV x.tn x.tf then some x.tn else none

/-- Inserts a hit box before the first with a later entry. -/
def insHit (x : FVal × Nat) : List (FVal × Nat) → List (FVal × Nat)
  | [] => [x]
  | y :: t => if ltV x.1 y.1 then x :: y :: t else y :: insHit x t

/-- An entry as FP32; one that is tmin itself keeps the sign of a zero. -/
def entryBits : FVal → Nat
  | .fin n 0 _ => b2n n * 2 ^ 31
  | v => rnBits v

/-- The result of RBOX (R325). -/
def boxWord (ray boxes : VReg) : Word :=
  let hits := (upFrom 0 4).filterMap (fun b => (boxHit ray boxes b).map (fun e => (e, b)))
  let order := hits.foldl (fun l x => insHit x l) []
  let hitIds := order.map Prod.snd
  let ids := hitIds ++ (upFrom 0 4).filter (fun b => !hitIds.contains b)
  let mask := hitIds.foldl (fun m b => m + 2 ^ b) 0
  let idx := ((upFrom 0 4).zip ids).foldl (fun m x => m + x.2 * 4 ^ x.1) 0
  let entry := (order.head?.map (fun x => entryBits x.1)).getD 0x7F80_0000
  BitVec.ofNat 64 (mask + idx * 2 ^ 4 + entry * 2 ^ 32)

/-- RBOX. -/
def execRbox (d : BitVec 5) (a b : BitVec 4) (s : State) : Out :=
  rastNear (encode (.rbox d a b)) (rastDo [a, b] [] (fun s => ws s d (boxWord (rv s a) (rv s b)))) s

/-- The index of the largest component: a NaN is largest, the lowest index on ties (R326). -/
def largestAxis (d : Nat → FVal) : Nat :=
  let better (i k : Nat) : Bool := !(d k).isNaN && ((d i).isNaN || ltV (absV (d k)) (absV (d i)))
  let k := if better 1 0 then 1 else 0
  if better 2 k then 2 else k

/-- A sheared vertex (R326). -/
structure Sheared where
  x : FVal
  y : FVal
  z : FVal

/-- x_i · y_j − y_i · x_j, exact. -/
def crossV (p q : Sheared) : FVal := subV (mulV p.x q.y) (mulV p.y q.x)

/-- The two ends of an edge by (x, y): `p` comes first. -/
def lexLe (p q : Sheared) : Bool := ltV p.x q.x || (eqV p.x q.x && leV p.y q.y)

/-- An edge with exact value zero is owned (R326). -/
def edgeOwned (i j r : Sheared) : Bool :=
  let p := if lexLe i j then i else j
  let q := if lexLe i j then j else i
  let c := subV (mulV (subV q.x p.x) (subV r.y p.y)) (mulV (subV q.y p.y) (subV r.x p.x))
  !(eqV i.x j.x && eqV i.y j.y) && ltV (.fin false 0 0) c

/-- An edge passes, and the sign it contributes, if any (R326). -/
def edgeTest (i j r : Sheared) : Bool × Option Bool :=
  let e := crossV i j
  if e.isNaN then (false, none) else if e.isZero then (edgeOwned i j r, none) else (true, some e.isNeg)

/-- The hit of RTRI: t, the weight of P1, the weight of P2 (R326). -/
def triHit (ray tri : VReg) : Option (Nat × Nat × Nat) :=
  let dir (i : Nat) : FVal := laneV ray (3 + i)
  let kz := largestAxis dir
  let k1 := (kz + 1) % 3
  let k2 := (kz + 2) % 3
  let swap := ltV (dir kz) (.fin false 0 0)
  let kx := if swap then k2 else k1
  let ky := if swap then k1 else k2
  let quot (x : FVal) : FVal := Fmt.fp32.value (rnQuot x (dir kz))
  let sx := quot (dir kx)
  let sy := quot (dir ky)
  let sz := quot (intV 1)
  let vert (i : Nat) : Sheared :=
    let q (k : Nat) : FVal := rnV (subV (laneV tri (3 * i + k)) (laneV ray k))
    { x := rnV (subV (q kx) (mulV sx (q kz))), y := rnV (subV (q ky) (mulV sy (q kz))), z := rnV (mulV sz (q kz)) }
  let p0 := vert 0
  let p1 := vert 1
  let p2 := vert 2
  let nan := [p0, p1, p2].any (fun p => p.x.isNaN || p.y.isNaN || p.z.isNaN)
  let e0 := edgeTest p2 p1 p0
  let e1 := edgeTest p0 p2 p1
  let e2 := edgeTest p1 p0 p2
  let signs := [e0.2, e1.2, e2.2].filterMap id
  let u := rnV (crossV p2 p1)
  let v := rnV (crossV p0 p2)
  let w := rnV (crossV p1 p0)
  let det := rnV (addV .rne (addV .rne u v) w)
  let num := rnV (addV .rne (addV .rne (mulV u p0.z) (mulV v p1.z)) (mulV w p2.z))
  let t := rnQuot num det
  let tv := Fmt.fp32.value t
  if !nan && e0.1 && e1.1 && e2.1 && (signs.all id || signs.all (fun b => !b)) && !det.isZero && leV (laneV ray 6) tv
      && leV tv (laneV ray 7) then some (t, rnQuot v det, rnQuot w det)
  else none

/-- The lanes of RTRI (R326). -/
def triLanes (ray tri : VReg) : VReg :=
  match triHit ray tri with
  | some (t, w1, w2) => ofElems 32 [1, t, w1, w2]
  | none => ofElems 32 [0, 0x7F80_0000, 0, 0]

/-- RTRI. -/
def execRtri (d a b : BitVec 4) (s : State) : Out :=
  rastNear (encode (.rtri d a b)) (rastDo [a, b] [d] (fun s => wv s d (triLanes (rv s a) (rv s b)))) s

/-- Parity of ⌊v / 2^e⌋; 0 for a value that is not finite (R327). -/
def cellBit (e : Int) : FVal → Nat
  | .fin n m x => wrapN 1 ((signed n m * (2 ^ (x - e).toNat : Nat)) / ((2 ^ (e - x).toNat : Nat) : Int))
  | _ => 0

/-- The bin key (R327). -/
def binKey (v : VReg) (view : Nat) (e : Int) : Nat :=
  let oct (k : Nat) : Nat := elem v 32 (3 + k) / 2 ^ 31 % 2
  let cell (k : Nat) : Nat := cellBit e (laneV v k)
  view % 4 * 64 + (oct 0 + 2 * oct 1 + 4 * oct 2) * 8 + cell 0 + 2 * cell 1 + 4 * cell 2

/-- RBIN. -/
def execRbin (d : BitVec 5) (a : BitVec 4) (b : BitVec 5) (s : State) : Out :=
  let x := rs s b
  let e := sInt 8 (fieldN x 8 8)
  rastNear (encode (.rbin d a b)) (misuseThen [a] [] (failIf ((x &&& ~~~0xFF7F) != 0 || decide (e < -126)) 0x02 x
    (rastDo [a] [] (fun s => ws s d (BitVec.ofNat 64 (binKey (rv s a) (fieldN x 0 7) e)))))) s

/-! Pixel order (R328 to R330) -/

/-- An order domain's record as it was read: its address, NEXT and OPEN. -/
structure Domain where
  va : Nat
  next : Nat
  opened : Nat

/-- Reads the record of a domain. The instructions have no cause for an error on its path (R333, log 77). -/
def domRead (va : Nat) (k : List Byte → State → Out) (s : State) : Out :=
  match greadOpen s s.cx.tenant.toNat va 64 with
  | .ok l s1 => k l s1
  | .page a => parkFor a 0 s
  | .wait => stallFor .fullService s
  | .error _ _ => .next s

/-- The domain pointer S[d] and the record (R329). -/
def domThen (wd : W32) (d : BitVec 5) (k : Domain → State → Out) (s : State) : Out :=
  let p := rs s d
  rastNear wd (tagThen p (failIf (offOf p % 64 != 0) 0x06 p (failIf ((rg s 0).kind != kGlobal) 0x05 p
    (segThen (rg s 0) (offOf p) 64 rightA true p (fun t s =>
      match t with
      | .win _ => trap 0x05 p s
      | .glob va => ownThen va 64 (domRead va (fun l s1 =>
        failIf ((l.drop 8).any (fun b => b != 0)) 0x02 p
          (k { va := va, next := natOfBytes (l.take 4), opened := natOfBytes ((l.drop 4).take 4) }) s1)) s))))) s

/-- Writes NEXT and OPEN at the domain's home: one arrival. One that the path loses is lost (R333, log 77). -/
def domWrite (m : Domain) (next opened : Nat) (k : State → Out) (s : State) : Out :=
  match gwrite s s.cx.tenant.toNat m.va (bytesOfNat 4 next ++ bytesOfNat 4 opened) 1 s.cx.who with
  | .ok s1 => k s1
  | .page a => parkFor a 0 s
  | .wait => stallFor .fullService s
  | .error _ _ => k s

/-- The sequence number in S[a] (R329). -/
def ordSeqOf (x : Word) : Nat := fieldN x 32 31

/-- The open tokens of a domain. -/
def domTokens (s : State) (va : Nat) : List Token :=
  (getCore s (homeOf va)).tokens.filter (fun t => t.tenant == s.cx.tenant.toNat && t.dom.toNat == va)

/-- The same token. -/
def Token.is (t u : Token) : Bool :=
  t.tenant == u.tenant && t.dom == u.dom && t.key == u.key && t.seq == u.seq && t.pour == u.pour

/-- ORDTOK (R330). -/
def execOrdtok (d a b : BitVec 5) (last : Bool) (s : State) : Out :=
  let x := rs s a
  let mask := rs s b
  let seq := ordSeqOf x
  let key := fieldN x 0 32
  domThen (encode (.ordtok d a b last)) d (fun m s =>
    let clash := (domTokens s m.va).any (fun t => t.key == key && t.seq == seq)
    failIf (decide (seq < m.next) || clash || (mask == 0 && !last)) 0x02 x (fun s =>
      if m.next < seq || Config.tokenEntries ≤ (getCore s (homeOf m.va)).tokens.length then
        waitFor (.ordSeq (BitVec.ofNat 48 m.va) seq) s
      else
        let t : Token :=
          { tenant := s.cx.tenant.toNat, dom := BitVec.ofNat 48 m.va, pour := s.cx.pour, key := key, seq := seq, mask := mask }
        domWrite m (if last then seq + 1 else m.next) (if mask = 0 then m.opened else m.opened + 1)
          (fun s => done (if mask = 0 then s else updCore s (homeOf m.va) (fun c => { c with tokens := c.tokens ++ [t] }))) s) s) s

/-- The token of the context's pour that S[a] names; without one the instruction traps 0x02 (R330). -/
def tokenThen (m : Domain) (x : Word) (k : Token → State → Out) (s : State) : Out :=
  match (domTokens s m.va).find? (fun t => t.pour == s.cx.pour && t.key == fieldN x 0 32 && t.seq == ordSeqOf x) with
  | some t => k t s
  | none => trap 0x02 x s

/-- An open token of the domain stands before a token (R330). -/
def tokenBlocked (s : State) (m : Domain) (t : Token) : Bool :=
  (domTokens s m.va).any (fun u => u.key == t.key && decide (u.seq < t.seq) && (u.mask &&& t.mask) != 0)

/-- ORDB (R330). -/
def execOrdb (d a : BitVec 5) (s : State) : Out :=
  let x := rs s a
  domThen (encode (.ordb d a)) d (fun m => tokenThen m x (fun t s =>
    if tokenBlocked s m t then waitFor (.ordBlock t.dom t.key t.seq t.mask) s else done s)) s

/-- Closes a token. -/
def closeToken (s : State) (t : Token) : State :=
  updCore s (homeOf t.dom.toNat) (fun c => { c with tokens := c.tokens.filter (fun u => !u.is t) })

/-- ORDE: a release, then the token closes (R330). -/
def execOrde (d a : BitVec 5) (s : State) : Out :=
  let x := rs s a
  domThen (encode (.orde d a)) d (fun m => tokenThen m x (fun t => releaseThen
    (domWrite m m.next (m.opened + 2 ^ 32 - 1) (fun s => done (closeToken s t))))) s

/-! BLNDA (R331) -/

/-- Bytes of an element and what a lane does there, by FMT and op; none for a format that is refused. -/
def blendOp (fmt : Nat) (o : BitVec 3) : Option (Nat × DripOp) :=
  match fmt, o.toNat with
  | 2, 0 => some (1, .addSat8)
  | 2, 1 => some (1, .minU8)
  | 2, 2 => some (1, .maxU8)
  | 2, _ => some (1, .bor8)
  | 4, 0 => some (4, .add)
  | 4, 1 => some (4, .min)
  | 4, 2 => some (4, .max)
  | 4, _ => some (4, .bor)
  | 6, 0 => some (2, .addF)
  | 6, 1 => some (2, .minF)
  | 6, 2 => some (2, .maxF)
  | 8, 0 => some (4, .addF)
  | 8, 1 => some (4, .minF)
  | 8, 2 => some (4, .maxF)
  | _, _ => none

/-- Sends the lanes, ascending. -/
def sendLanes (n : Nat) (op : DripOp) (val : Nat → Nat) (l : List VElem) (s : State) : State :=
  l.foldl (fun s e =>
    match e.at_ with
    | .glob va =>
      post s s.cx.key (homeOf va)
        (.drip op (BitVec.ofNat 48 va) n (BitVec.ofNat 64 (val e.j)) s.cx.rmode 0 s.cx.tenant.toNat 1)
    | .win _ => s) s

/-- A chunk of a bound source is lost: 0x04, where its value is needed (R148, R333). -/
def lostThen (r : BitVec 4) (k : State → Out) (s : State) : Out :=
  match hinder s false r with
  | .lost off => trap 0x04 (BitVec.ofNat 64 off) s
  | _ => k s

/-- BLNDA: every active lane is checked, then each travels like a drip. A g0 that is not GLOBAL gives no right. -/
def execBlnda (d : BitVec 4) (a : BitVec 5) (p o : BitVec 3) (s : State) : Out :=
  let ptr := rs s a
  rastNear (encode (.blnda d a p o)) (rastVec [d, d + 1] [] (tagThen ptr (fun s =>
    match blendOp (fmtOf ptr) o with
    | none => trap 0x02 ptr s
    | some (n, op) => lostThen (d + 1) (fun s =>
      let g := rg s 0
      let g := if g.kind = kGlobal then g else { g with rights := 0 }
      let idx := vsrc s (d + 1)
      let x := vsrc s d
      let js := (upFrom 0 64).filter (fun j => bitN (rp s p) j)
      match elemsCheck s g ptr (8 * n) rightA true
          (js.map (fun j => (j, wrapN 48 ((offOf ptr : Int) + sInt 32 (elem idx 32 j))))) with
      | .error e => trap e.1 e.2 s
      | .ok l => lostThen d (fun s => done (commitIn [d, d + 1] (sendLanes n op (fun j => elem x 32 j % 2 ^ (8 * n)) l s))) s) s))) s

end Sys2Proof.Machine
end

