-- ==== Sys2Proof/Machine/Sync.lean ====
section
/-! DEFINITION. The group SYNC but for PUBLISH (R194 to R198, R160), and the hops of a barrier. -/

namespace Sys2Proof.Machine

/-- COPY, matrix and seed work that a context issued and that has not completed (R157). -/
def engineBusy (s : State) (key : Nat) : Bool :=
  matrixBusy s key || s.cores.any (fun c => c.2.cq.any (fun o => o.key == key))

/-- FENCE (R157, R194). Memory is one coherent store, so the orders hold already; kind engines waits; kinds release and full
take a deferred cause; after kind full the context fetches memory as it is (R92). -/
def execFence (_s : Scope) (k : FKind) (s : State) : Out :=
  match k with
  | .acq => done s
  | .rel => releaseThen (deferredThen done) s
  | .full => releaseThen (deferredThen (fun s => done (updCx s (fun c => { c with icode := none })))) s
  | .eng => if engineBusy s s.cx.key then waitFor .engines s else done s

/-! Barriers (R195, R196) -/

/-- Where the arrivals of a phase stand: every context of the mask has arrived in it. -/
def Barrier.full (b : Barrier) : Bool :=
  (upFrom 0 11).all (fun i => !bitN b.mask i || tget b.last i == some b.phase)

/-- A context has arrived in the phase in progress. -/
def Barrier.arrived (b : Barrier) (i : Nat) : Bool := tget b.last i == some b.phase

/-- The phase in progress has begun on this core (R195). -/
def Barrier.busy (b : Barrier) : Bool := (upFrom 0 11).any b.arrived || b.east || b.south

def getBar (s : State) (core n : Nat) : Option Barrier := tget (getCore s core).bars n
def setBar (s : State) (core n : Nat) (b : Barrier) : State := updCore s core (fun c => { c with bars := tput c.bars n b })

/-- The rectangle of S[a] lies in the pour and holds the core, the mask is good (R195). -/
def barOk (p : Pour) (core : Nat) (x m : Word) : Bool :=
  let x0 := fieldN x 0 6
  let y0 := fieldN x 6 5
  let w := fieldN x 11 6 + 1
  let h := fieldN x 17 5 + 1
  decide (x.toNat < 2 ^ 22) && decide (m.toNat < 2 ^ 11) && m != 0
    && decide (p.ox ≤ x0) && decide (p.oy ≤ y0) && decide (x0 + w ≤ p.ox + p.w) && decide (y0 + h ≤ p.oy + p.h)
    && decide (x0 ≤ coreX core) && decide (coreX core < x0 + w) && decide (y0 ≤ coreY core) && decide (coreY core < y0 + h)

/-- The barrier BARSET defines; a release that has yet to go on from this core still goes. -/
def barOf (old : Option Barrier) (x m : Word) : Barrier :=
  { x0 := fieldN x 0 6, y0 := fieldN x 6 5, w := fieldN x 11 6 + 1, h := fieldN x 17 5 + 1, mask := m.setWidth 16
    phase := (old.map Barrier.phase).getD 0
    relEast := (old.map Barrier.relEast).getD false
    relSouth := (old.map Barrier.relSouth).getD false }

/-- BARSET (R195). TVAL is S[a] whichever operand breaks the rule (log 70). -/
def execBarset (a b : BitVec 5) (n : BitVec 2) (s : State) : Out :=
  let x := rs s a
  let m := rs s b
  let core := homeCore s.cx.key
  let old := getBar s core n.toNat
  homeOnly (encode (.barset a b n))
    (failIf (!(findPour s s.cx.pour).any (fun p => barOk p core x m) || old.any Barrier.busy) 0x02 x
      (fun s => done (setBar s core n.toNat (barOf old x m)))) s

/-- The number of a barrier as TVAL. -/
def barVal (n : BitVec 2) : Word := n.setWidth 64

/-- The core holds its row's partial: its own arrival and its eastern neighbour's (R196). -/
def Barrier.rowDone (b : Barrier) (core : Nat) : Bool := b.full && (coreX core == b.x0 + b.w - 1 || b.east)

/-- A core of column x0 holds its column's partial. -/
def Barrier.colDone (b : Barrier) (core : Nat) : Bool := b.rowDone core && (coreY core == b.y0 + b.h - 1 || b.south)

/-- The release reaches a core: the next phase begins, and the release goes on (R196). -/
def releaseBar (b : Barrier) (core : Nat) : Barrier :=
  { b with
    phase := b.phase + 1
    east := false
    south := false
    sent := false
    relEast := decide (coreX core + 1 < b.x0 + b.w)
    relSouth := coreX core == b.x0 && decide (coreY core + 1 < b.y0 + b.h) }

/-- What completes the corner is followed by the release in its clock (R196). -/
def cornerBar (b : Barrier) (core : Nat) : Barrier :=
  if coreX core = b.x0 ∧ coreY core = b.y0 ∧ b.colDone core then releaseBar b core else b

/-- An arrival (R196): outside the mask, or with an arrival that is not yet released, it traps. `k` goes on with the phase it falls
into. -/
def arriveThen (n : BitVec 2) (k : Nat → State → Out) (s : State) : Out :=
  let core := homeCore s.cx.key
  let i := homeIdx s.cx.key
  match getBar s core n.toNat with
  | none => trap 0x02 (barVal n) s
  | some b =>
    failIf (!bitN b.mask i || b.arrived i) 0x02 (barVal n)
      (fun s => k b.phase (setBar s core n.toNat (cornerBar { b with last := tput b.last i b.phase } core))) s

/-- The wait in a barrier is over. -/
def barDone (s : State) : Out := done (updCx s (fun c => { c with barAt := none }))

/-- Waits for the release of a phase; one that is past completes (R196). -/
def barAwait (n : BitVec 2) (ph : Nat) (s : State) : Out :=
  match getBar s (homeCore s.cx.key) n.toNat with
  | none => trap 0x02 (barVal n) s
  | some b => if b.phase = ph then waitFor (.barrier n.toNat ph) s else barDone s

/-- BAR: arrives and waits (R196). Executed again after its wait, it has arrived already (R146). -/
def execBar (n : BitVec 2) (s : State) : Out :=
  let arrive : State → Out := releaseThen (arriveThen n (fun ph s =>
    barAwait n ph (updCx s (fun c => { c with barAt := some ((n.toNat, ph), c.pc) }))))
  homeOnly (encode (.bar n))
    (metThen (fun _ => barDone) (fun s =>
      match s.cx.barAt with
      | some ((m, ph), pc) => if m = n.toNat ∧ pc = s.cx.pc then barAwait n ph s else arrive s
      | none => arrive s)) s

/-- BARA (R196). -/
def execBara (n : BitVec 2) (s : State) : Out := homeOnly (encode (.bara n)) (releaseThen (arriveThen n (fun _ => done))) s

/-- BARW, a release and an acquire: the phase in which the context last arrived (R157, R196). -/
def execBarw (n : BitVec 2) (s : State) : Out :=
  homeOnly (encode (.barw n))
    (metThen (fun _ => barDone) (releaseThen (fun s =>
      match (getBar s (homeCore s.cx.key) n.toNat).bind (fun b => tget b.last (homeIdx s.cx.key)) with
      | none => trap 0x02 (barVal n) s
      | some ph => barAwait n ph s))) s

/-- The same rectangle is set on another core (R195). -/
def Barrier.same (b c : Barrier) : Bool := b.x0 == c.x0 && b.y0 == c.y0 && b.w == c.w && b.h == c.h

/-- One hop of barrier `n` at a core: a release goes on, or a partial (R196). -/
def barHop (s : State) (core n : Nat) : State :=
  match getBar s core n with
  | none => s
  | some b =>
    let east := core + 1
    let south := core + 64
    let west := core - 1
    let north := core - 64
    if b.relEast then
      match getBar s east n with
      | some e => setBar (setBar s east n (releaseBar e east)) core n { b with relEast := false }
      | none => s
    else if b.relSouth then
      match getBar s south n with
      | some e => setBar (setBar s south n (releaseBar e south)) core n { b with relSouth := false }
      | none => s
    else if b.sent then s
    else if coreX core != b.x0 then
      if b.rowDone core then
        match getBar s west n with
        | some e => if b.same e then setBar (setBar s west n (cornerBar { e with east := true } west)) core n { b with sent := true } else s
        | none => s
      else s
    else if b.colDone core then
      if coreY core = b.y0 then setBar s core n (releaseBar b core)
      else
        match getBar s north n with
        | some e => if b.same e then setBar (setBar s north n (cornerBar { e with south := true } north)) core n { b with sent := true } else s
        | none => s
    else s

/-- BARRIER_SWEEP_HOP: barrier `b` of core `a` (R196). -/
def execBarrierSweepHop (s : State) : Out := .next (barHop s s.args.a s.args.b)

/-! WAITW and ACQUIRE (R160, R161, R197, R198) -/

/-- Where a WAITW looks. -/
def watchCond (t : Tgt) (old : Word) : Cond :=
  match t with
  | .glob va => .word false (BitVec.ofNat 48 va) old
  | .win wa => .word true (BitVec.ofNat 48 wa) old

/-- WAITW: checked as LD.D in g0; it waits until the word differs from S[b], and S[d] gets what was seen then (R13, R197). -/
def execWaitw (d a b : BitVec 5) (s : State) : Out :=
  homeOnly (encode (.waitw d a b))
    (metThen (fun v s => done (ws s d v)) (fmThen (rs s a) (rg s 0) 3 0 false (fun t p => readThen t 8 p (fun l s =>
      if zWord l = rs s b then waitFor (watchCond t (rs s b)) s else done (ws s d (zWord l)))))) s

/-- A publish descriptor that breaks R160. Bits of a buffer base above [47:0] break nothing (log 70). -/
def pairBad (l : List Byte) : Bool :=
  let size := natOfBytes ((l.drop 16).take 8)
  size == 0 || size % 256 != 0 || (l.drop 32).any (fun b => b != 0)

/-- The handle's checks and the descriptor (R160, R198). -/
def pairThen (ptr : Word) (right : Nat) (k : Tgt → List Byte → State → Out) (s : State) : Out :=
  ptrThen (rg s 0) ptr 64 64 right (right == rightA) (fun t =>
    readThen t 64 ptr (fun l => failIf (pairBad l) 0x02 ptr (k t l))) s

/-- ACQUIRE: the current buffer's base (R161, R198). -/
def execAcquire (d a : BitVec 5) (sc : Scope) (s : State) : Out :=
  homeOnly (encode (.acquire d a sc))
    (fun s => pairThen (rs s a) rightR (fun _ l s =>
      let cur := natOfBytes ((l.drop 24).take 8) % 2
      done (ws s d (zWord ((l.drop (8 * cur)).take 8)))) s) s

end Sys2Proof.Machine
end

