-- ==== Sys2Proof/Machine/LayerOps.lean ====
section
/-! DEFINITION. The layer units: the layer control block, the layer table, geometry, the request ring (R338 to R345, R348,
R349). -/

namespace Sys2Proof.Machine

/-! Work of a unit on its tenant's memory -/

/-- What a unit's work answers. `bad` is a check that fails: cause 0x18 with its TVAL. -/
inductive URes (α : Type) where
  | ok (a : α) (s : State)
  | page (va : Nat)
  | wait
  | error (cause : BitVec 8) (va : Nat)
  | bad (tval : Nat)

/-- What follows work that succeeded. -/
def URes.then {α β : Type} (x : URes α) (k : α → State → URes β) : URes β :=
  match x with
  | .ok a s => k a s
  | .page a => .page a
  | .wait => .wait
  | .error c a => .error c a
  | .bad v => .bad v

/-- A unit's read, and its write for the context of a key. -/
def uRead (t va n : Nat) (s : State) : URes (List Byte) :=
  match gread s t va n with
  | .ok l s1 => .ok l s1
  | .page a => .page a
  | .wait => .wait
  | .error c a => .error c a
def uWrite (t va : Nat) (l : List Byte) (key : Nat) (s : State) : URes Unit :=
  match gwrite s t va l 3 (getCtx s key).who with
  | .ok s1 => .ok () s1
  | .page a => .page a
  | .wait => .wait
  | .error c a => .error c a

/-- The instruction's work at the unit, or its trap; nothing changes then (R343, R357). -/
def unitThen {α : Type} (x : State → URes α) (k : α → State → Out) (s : State) : Out :=
  match x s with
  | .ok a s1 => k a s1
  | .page a => parkFor a 0 s
  | .wait => stallFor .fullService s
  | .error c a => trap c (BitVec.ofNat 64 a) s
  | .bad v => trap 0x18 (BitVec.ofNat 64 v) s

/-- The TVAL of a missing or malformed LCB (R338, R339). -/
def noLcb : Nat := 0xFFFF_FFFF

/-! The layer control block (R338, R339) -/

/-- The unsigned field at a byte offset. -/
def byteAt (l : List Byte) (o n : Nat) : Nat := natOfBytes ((l.drop o).take n)

/-- FP32 bits as a value. -/
def f32 (x : Nat) : FVal := Fmt.fp32.value x

/-- Finite and not negative. -/
def finNonNeg (v : FVal) : Bool := v.isFin && !ltV v (.fin false 0 0)

/-- The fields of an LCB. -/
def lcbFields (l : List Byte) : Lcb :=
  { table := BitVec.ofNat 64 (byteAt l 0 8), cap := byteAt l 8 4, frame := BitVec.ofNat 32 (byteAt l 12 4)
    ka := BitVec.ofNat 32 (byteAt l 16 4), kd := BitVec.ofNat 32 (byteAt l 20 4), ring := BitVec.ofNat 64 (byteAt l 24 8)
    view := BitVec.ofNat 512 (byteAt l 32 64), drops := BitVec.ofNat 32 (byteAt l 96 4)
    notify := BitVec.ofNat 64 (byteAt l 104 8) }

/-- Elements of matrices and poses. -/
def vAt (v : BitVec 512) (i j : Nat) : FVal := f32 (fieldN v (32 * (4 * i + j)) 32)
def poseAt (q : BitVec 384) (i j : Nat) : FVal := f32 (fieldN q (32 * (4 * i + j)) 32)

/-- The LCB's own fields break R338. -/
def lcbBad (s : State) (l : List Byte) (m : Lcb) : Bool :=
  m.table.toNat % 256 != 0 || m.cap == 0 || decide (65536 < m.cap) || !finNonNeg (f32 m.ka.toNat)
    || !finNonNeg (f32 m.kd.toNat) || m.ring.toNat % 64 != 0 || !((upFrom 0 16).all (fun i => (vAt m.view 0 i).isFin))
    || byteAt l 100 4 != 0 || (m.notify != 0 && !dwOk s m.notify) || byteAt l 112 16 != 0

/-- The request ring's header (R349). -/
structure ReqRing where
  base : Nat
  count : Nat
  head : Nat
  tail : Nat

def reqRing (l : List Byte) : ReqRing :=
  { base := byteAt l 0 8, count := byteAt l 8 4, head := byteAt l 12 4, tail := byteAt l 16 4 }

/-- Records that wait in the ring. -/
def ReqRing.used (r : ReqRing) : Nat :=
  let m := wrapValue r.count
  (r.tail + m - r.head % m) % m

/-- The header breaks R349. -/
def ringBad (l : List Byte) : Bool :=
  let r := reqRing l
  r.base % 32 != 0 || r.count == 0 || decide (65536 < r.count) || (l.drop 20).any (fun b => b != 0) || decide (r.count < r.used)

/-- The LCB of a tenant, checked (R338, R339). -/
def lcbOf (t : Nat) (s : State) : URes Lcb :=
  let a := (getTenant s t).lcb.toNat
  if a = 0 then .bad noLcb
  else
    (uRead t a 128 s).then (fun l s1 =>
      let m := lcbFields l
      if lcbBad s l m then .bad noLcb
      else if m.ring = 0 then .ok m s1
      else (uRead t m.ring.toNat 64 s1).then (fun h s2 => if ringBad h then .bad noLcb else .ok m s2))

/-! Live layers (R340, R343) -/

/-- The number a layer is sorted by. -/
def layerKey (t id : Nat) : Nat := 65536 * t + id

def findLayer (s : State) (t id : Nat) : Option Layer := s.layers.find? (fun l => l.tenant == t && l.id == id)
def delLayer (s : State) (t id : Nat) : State :=
  { s with layers := s.layers.filter (fun l => !(l.tenant == t && l.id == id)) }
def putLayer (s : State) (l : Layer) : State :=
  let s1 := delLayer s l.tenant l.id
  { s1 with layers := insBy (fun x => layerKey x.tenant x.id) l s1.layers }

/-- A close forgets a layer: its turn is skipped, its descriptor is not written back, a trap does not set it back (R348). -/
def Close.without (c : Close) (id : Nat) : Close :=
  { c with
    todo := c.todo.map (fun l => l.filter (fun i => i != id))
    processed := c.processed.filter (fun i => i != id)
    undo := c.undo.filter (fun l => l.id != id) }

/-- A layer is retired: whatever becomes live under its id later is another layer (R347, R348). -/
def retireLayer (s : State) (t id : Nat) : State :=
  let s1 := delLayer s t id
  { s1 with closes := s1.closes.map (fun c => if c.tenant = t then c.without id else c) }

/-- The flags word (R341). -/
def Layer.flags (l : Layer) (live : Bool) : Nat := l.group.toNat * 256 + (if live && l.pending then 2 else 0) + b2n live

/-- The descriptor of a layer as the unit writes it back (R340). -/
def Layer.bytes (l : Layer) (live : Bool) : List Byte :=
  bytesOfNat 4 l.id ++ bytesOfNat 4 (l.flags live) ++ bytesOfNat 4 l.order.toNat ++ bytesOfNat 2 l.w ++ bytesOfNat 2 l.h
    ++ bytesOfNat 8 l.planes.toNat ++ bytesOfNat 4 l.err.toNat ++ bytesOfNat 4 l.price.toNat ++ bytesOfNat 4 l.age.toNat
    ++ bytesOfNat 4 l.frame.toNat ++ bytesOfNat 48 l.rpose.toNat ++ bytesOfNat 48 l.cpose.toNat
    ++ bytesOfNat 4 l.holes.toNat ++ bytesOfNat 4 l.samples.toNat
    ++ l.deps.toList.flatMap (fun d =>
      bytesOfNat 4 d.caster.toNat ++ bytesOfNat 4 d.weight.toNat ++ bytesOfNat 4 d.x.toNat ++ bytesOfNat 4 d.y.toNat)
    ++ bytesOfNat 36 l.hom.toNat ++ bytesOfNat 4 l.parent.toNat ++ bytesOfNat 4 l.child.toNat ++ bytesOfNat 4 0

/-- Writes a descriptor back. -/
def writeBack (m : Lcb) (l : Layer) (live : Bool) (key : Nat) (s : State) : URes Unit :=
  uWrite l.tenant (m.table.toNat + 256 * l.id) (l.bytes live) key s

/-! Geometry (R344, R345) -/

/-- An exact sum of products, left to right. -/
def dotV (l : List (FVal × FVal)) : FVal := l.foldl (fun a p => addV .rne a (mulV p.1 p.2)) (.fin false 0 0)

/-- The value 1. -/
def oneV : FVal := .fin false 1 0

/-- Where layer-local (u, v) lies in the display under a pose; none when unprojectable (R344). -/
def corner (view : BitVec 512) (q : BitVec 384) (u v : Nat) : Option (FVal × FVal) :=
  let p (r : Nat) : FVal := rnV (dotV [(poseAt q r 0, intV u), (poseAt q r 1, intV v), (poseAt q r 2, intV 0), (poseAt q r 3, oneV)])
  let row (r : Nat) : FVal := rnV (dotV [(vAt view r 0, p 0), (vAt view r 1, p 1), (vAt view r 2, p 2), (vAt view r 3, oneV)])
  let x := f32 (rnQuot (row 0) (row 3))
  let y := f32 (rnQuot (row 1) (row 3))
  let fin := (p 0).isFin && (p 1).isFin && (p 2).isFin && (row 0).isFin && (row 1).isFin && (row 3).isFin
  if fin && ltV (.fin false 0 0) (row 3) && x.isFin && y.isFin then some (x, y) else none

/-- |x − y| exactly, and the larger of two. -/
def distV (x y : FVal) : FVal := absV (subV x y)
def largerV (x y : FVal) : FVal := if ltV x y then y else x

/-- CornerShift (R344). -/
def cornerShift (view : BitVec 512) (l : Layer) : FVal :=
  let at_ (q : BitVec 384) : List (Option (FVal × FVal)) :=
    [corner view q 0 0, corner view q l.w 0, corner view q 0 l.h, corner view q l.w l.h]
  let step (acc : Option FVal) (p : Option (FVal × FVal) × Option (FVal × FVal)) : Option FVal :=
    match acc, p with
    | some m, (some c, some r) => some (largerV m (largerV (distV c.1 r.1) (distV c.2 r.2)))
    | _, _ => none
  match ((at_ l.cpose).zip (at_ l.rpose)).foldl step (some (.fin false 0 0)) with
  | some m => rnV m
  | none => .inf false

/-- Pos0 of a layer that is live, as FP32 bits; +∞ otherwise (R344, R351, R353). -/
def pos0Of (view : BitVec 512) (l : Option Layer) : Option (FVal × FVal) := l.bind (fun l => corner view l.cpose 0 0)
def snapBits (view : BitVec 512) (l : Option Layer) : W32 × W32 :=
  match pos0Of view l with
  | some p => (BitVec.ofNat 32 (rnBits p.1), BitVec.ofNat 32 (rnBits p.2))
  | none => (0x7F80_0000, 0x7F80_0000)

/-- DepShift (R348). -/
def depShift (view : BitVec 512) (s : State) (t : Nat) (d : Dep) : FVal :=
  match pos0Of view (findLayer s t d.caster.toNat) with
  | some p => rnV (largerV (distV p.1 (f32 d.x.toNat)) (distV p.2 (f32 d.y.toNat)))
  | none => .inf false

/-- An element of G (R345): rows 0, 1, 3 of the view times columns 0, 1, 3 of the current pose extended by (0, 0, 0, 1). -/
def gAt (view : BitVec 512) (q : BitVec 384) (r j : Nat) : FVal :=
  let i := if r = 2 then 3 else r
  let k := if j = 2 then 3 else j
  let last := if k = 3 then [(vAt view i 3, oneV)] else []
  rnV (dotV ([(vAt view i 0, poseAt q 0 k), (vAt view i 1, poseAt q 1 k), (vAt view i 2, poseAt q 2 k)] ++ last))

/-- The cofactor of G at (i, j), exact. -/
def cofV (g : Nat → Nat → FVal) (i j : Nat) : FVal :=
  let r0 := (i + 1) % 3
  let r1 := (i + 2) % 3
  let c0 := (j + 1) % 3
  let c1 := (j + 2) % 3
  subV (mulV (g r0 c0) (g r1 c1)) (mulV (g r0 c1) (g r1 c0))

/-- Homography (R345). -/
def homography (view : BitVec 512) (q : BitVec 384) : BitVec 288 :=
  let g := gAt view q
  let d := dotV [(g 0 0, cofV g 0 0), (g 0 1, cofV g 0 1), (g 0 2, cofV g 0 2)]
  let fin := (upFrom 0 9).all (fun i => (g (i / 3) (i % 3)).isFin)
  if !fin || d.isZero then 0
  else
    let el (i : Nat) : Nat :=
      let a := cofV g (i % 3) (i / 3)
      rnBits (if d.isNeg then negV a else a)
    BitVec.ofNat 288 ((upFrom 0 9).foldl (fun acc i => acc + el i * 2 ^ (32 * i)) 0)

/-! Error and requests (R348, R349) -/

/-- The hole ratio (R348). -/
def holeRatio (l : Layer) : FVal := if l.samples = 0 then .fin false 0 0 else f32 (rnRatio l.holes.toNat l.samples.toNat)

/-- A dependency entry is occupied (R340). -/
def Dep.on (d : Dep) : Bool := d.caster != 0xFFFF_FFFF

/-- E as a close computes it (R348). A weight 0 from a descriptor times an infinite shift has no value the spec gives: the
result is free then, and no NaN (log 10). -/
def errorOf (s : State) (m : Lcb) (l : Layer) (age : Nat) (d h : FVal) : W32 :=
  let deps := (l.deps.toList.filter Dep.on).map (fun e => (f32 e.weight.toNat, depShift m.view s l.tenant e))
  let e := rnBits (addV .rne (addV .rne (mulV (f32 m.ka.toNat) (intV age)) d)
    (addV .rne (mulV (f32 m.kd.toNat) h) (dotV deps)))
  if (f32 e).isNaN then
    let x := (Config.openWord s.ticks).toNat % 2 ^ 32
    if (f32 x).isNaN then 0x7F80_0000 else BitVec.ofNat 32 x
  else BitVec.ofNat 32 e

/-- The 32 bytes of a request record (R349). -/
def LRec.bytes (r : LRec) : List Byte :=
  bytesOfNat 4 r.id ++ bytesOfNat 4 r.frame.toNat ++ bytesOfNat 4 r.err.toNat ++ bytesOfNat 4 r.age.toNat
    ++ bytesOfNat 4 r.d.toNat ++ bytesOfNat 4 r.h.toNat ++ bytesOfNat 8 0

/-- DROPS advances, saturating (R338, R349). -/
def countDrop (t key : Nat) (s : State) : URes Bool :=
  let a := (getTenant s t).lcb.toNat + 96
  (uRead t a 4 s).then (fun l s1 =>
    let n := natOfBytes l
    (uWrite t a (bytesOfNat 4 (if n = 2 ^ 32 - 1 then n else n + 1)) key s1).then (fun _ s2 => .ok false s2))

/-- Post of R349: whether the record was written. -/
def postRec (t : Nat) (m : Lcb) (r : LRec) (key : Nat) (s : State) : URes Bool :=
  let q := m.ring.toNat
  if q = 0 then countDrop t key s
  else
    (uRead t q 64 s).then (fun h s1 =>
      let x := reqRing h
      if x.used = x.count then countDrop t key s1
      else
        (uWrite t (x.base + 32 * (x.tail % x.count)) r.bytes key s1).then (fun _ s2 =>
          (uWrite t (q + 16) (bytesOfNat 4 ((x.tail + 1) % wrapValue x.count)) key s2).then (fun _ s3 => .ok true s3)))

/-- The NOTIFY decrement (R348, R352). -/
def notifyLcb (t : Nat) (m : Lcb) (key : Nat) (s : State) : State :=
  if m.notify = 0 then s else postDec s key m.notify none .counted t

end Sys2Proof.Machine
end

