-- ==== Sys2Proof/Machine/Layers.lean ====
section
/-! DEFINITION. The group LAYER (R346 to R356, R361), PUBLISH (R161, R351), and the steps of a frame close (R348, R349). -/

namespace Sys2Proof.Machine

/-! Ids (R346) -/

/-- Id field `i` of a register. -/
def idOf (x : Word) (i : Nat) : Nat := fieldN x (16 * i) 16

/-- A register of `n` ids: every other bit is zero. -/
def idsThen (x : Word) (n : Nat) (k : State → Out) (s : State) : Out := failIf (decide (2 ^ (16 * n) ≤ x.toNat)) 0x02 x k s

/-- The LCB, and ids below CAP (R338, R346). -/
def lcbIds (t : Nat) (ids : List Nat) (s : State) : URes Lcb :=
  (lcbOf t s).then (fun m s1 =>
    match ids.find? (fun i => decide (m.cap ≤ i)) with
    | some i => .bad i
    | none => .ok m s1)

/-- A live layer (R352). -/
def liveOf (t id : Nat) (s : State) : URes Layer :=
  match findLayer s t id with
  | some l => .ok l s
  | none => .bad id

/-- An instruction on one live layer: the register's format, then LCB, id and liveness at the unit (R343, R346, R352). -/
def layerThen (wd : W32) (x : Word) (k : Lcb → Layer → State → Out) (s : State) : Out :=
  homeOnly wd (idsThen x 1 (fun s =>
    let t := s.cx.tenant.toNat
    unitThen (fun s => (lcbIds t [idOf x 0] s).then (fun m s1 => (liveOf t (idOf x 0) s1).then (fun l s2 => .ok (m, l) s2)))
      (fun p => k p.1 p.2) s)) s

/-! Making a layer live (R347, R354, R361) -/

/-- The live layers of a unit, of every tenant, but for some that are being retired (R340, R361). -/
def unitCount (s : State) (t : Nat) (skip : List Nat) (u : Nat) : Nat :=
  (s.layers.filter (fun l => l.id % 8 == u && !(l.tenant == t && skip.contains l.id))).length

/-- The descriptor's fields (R340). -/
def layerFields (t id : Nat) (m : Lcb) (d hdr : List Byte) : Layer :=
  let dep (i : Nat) : Dep :=
    { caster := BitVec.ofNat 32 (byteAt d (144 + 16 * i) 4), weight := BitVec.ofNat 32 (byteAt d (148 + 16 * i) 4)
      x := BitVec.ofNat 32 (byteAt d (152 + 16 * i) 4), y := BitVec.ofNat 32 (byteAt d (156 + 16 * i) 4) }
  let cpose : BitVec 384 := BitVec.ofNat 384 (byteAt d 88 48)
  { tenant := t, id := id, group := BitVec.ofNat 8 (byteAt d 5 1), order := BitVec.ofNat 32 (byteAt d 8 4), w := byteAt d 12 2
    h := byteAt d 14 2, planes := BitVec.ofNat 64 (byteAt d 16 8), price := BitVec.ofNat 32 (byteAt d 28 4), frame := m.frame
    rpose := BitVec.ofNat 384 (byteAt hdr 0 48), cpose := cpose
    deps := #v[dep 0, dep 1, dep 2, dep 3]
    hom := homography m.view cpose, parent := 0xFFFF_FFFF, child := 0xFFFF_FFFF }

/-- The descriptor breaks R340 or R341. -/
def descBad (id : Nat) (d : List Byte) : Bool :=
  let p := f32 (byteAt d 28 4)
  byteAt d 0 4 != id || byteAt d 4 1 != 0 || byteAt d 6 2 != 0 || byteAt d 12 2 == 0 || decide (4096 < byteAt d 12 2)
    || byteAt d 14 2 == 0 || decide (4096 < byteAt d 14 2) || p.isNaN || ltV p (.fin false 0 0) || byteAt d 252 4 != 0

/-- What LDEF.DEF accepts: the layer it makes; `skip` are the layers being retired, `new` those being made (R347, R354,
R361). Bytes 48 to 255 of the buffer's header are not looked at (R342, log 70). -/
def acceptLayer (t id : Nat) (m : Lcb) (skip : List Nat) (new : List Layer) (s : State) : URes Layer :=
  if (findLayer s t id).isSome then .bad id
  else
    (uRead t (m.table.toNat + 256 * id) 256 s).then (fun d s1 =>
      let planes := byteAt d 16 8
      let area := byteAt d 12 2 * byteAt d 14 2
      let full := Config.layersPerUnit ≤ unitCount s t skip (id % 8) + (new.filter (fun l => l.id % 8 == id % 8)).length
      let others := (s.layers.filter (fun l => l.tenant == t && !skip.contains l.id)) ++ new
      if descBad id d || planes % 64 != 0 || others.any (fun l => l.planes.toNat == planes) || full then .bad id
      else
        (uRead t planes 64 s1).then (fun p s2 =>
          if pairBad p || decide (byteAt p 16 8 < 256 + 12 * area) then .bad id
          else
            (uRead t (byteAt p (8 * (byteAt p 24 8 % 2)) 8) 48 s2).then (fun hdr s3 =>
              .ok (layerFields t id m d hdr) s3)))

/-- LDEF.DEF (R347). -/
def execLdefDef (a : BitVec 5) (s : State) : Out :=
  let x := rs s a
  let t := s.cx.tenant.toNat
  homeOnly (LayerOp.word (.ldefDef a)) (idsThen x 1 (unitThen
    (fun s => (lcbIds t [idOf x 0] s).then (fun m s1 => acceptLayer t (idOf x 0) m [] [] s1))
    (fun l s => done (putLayer s l)))) s

/-- LDEF.RET (R347). -/
def execLdefRet (a : BitVec 5) (s : State) : Out :=
  layerThen (LayerOp.word (.ldefRet a)) (rs s a) (fun m l => unitThen (writeBack m { l with pending := false } false s.cx.key)
    (fun _ s => done (retireLayer s l.tenant l.id))) s

/-- LDEF.POSE: the pose is a plain load of the context, then it goes to the unit (R347, R359). -/
def execLdefPose (a b : BitVec 5) (s : State) : Out :=
  let x := rs s a
  let p := rs s b
  homeOnly (LayerOp.word (.ldefPose a b)) (idsThen x 1 (ptrThen (rg s 0) p 48 4 rightR false (fun t =>
    layerThen (LayerOp.word (.ldefPose a b)) x (fun _ l => readThen t 48 p (fun q s =>
      done (putLayer s { l with cpose := BitVec.ofNat 384 (natOfBytes q) })))))) s

/-! LWARP (R350) -/

/-- An element of H. -/
def homAt (h : BitVec 288) (i j : Nat) : FVal := f32 (fieldN h (32 * (3 * i + j)) 32)

/-- ⌈x / q⌉ − 1 for finite values, q above 0, exact. -/
def ceilLess (x q : FVal) : Int :=
  match x, q with
  | .fin n m e, .fin _ mq eq =>
    let num : Int := signed n (m * 2 ^ (e - eq).toNat)
    let den : Int := ((mq * 2 ^ (eq - e).toNat : Nat) : Int)
    (((0 - num) / den) + 1) * (-1)
  | _, _ => -1

/-- The texel a display pixel samples; none for a hole (R350). -/
def texelOf (l : Layer) (px : Nat) : Option (Nat × Nat) :=
  let x : FVal := .fin false (2 * (px % 2 ^ 16) + 1) (-1)
  let y : FVal := .fin false (2 * (px / 2 ^ 16 % 2 ^ 16) + 1) (-1)
  let row (i : Nat) : FVal := rnV (dotV [(homAt l.hom i 0, x), (homAt l.hom i 1, y), (homAt l.hom i 2, oneV)])
  let a := row 0
  let b := row 1
  let q := row 2
  if !(a.isFin && b.isFin && q.isFin && ltV (.fin false 0 0) q) then none
  else
    let ti := ceilLess a q
    let tj := ceilLess b q
    if decide (0 ≤ ti) && decide (ti < l.w) && decide (0 ≤ tj) && decide (tj < l.h) then some (ti.toNat, tj.toNat) else none

/-- Colour and depth at a pixel; none for a hole. `planes` are the bytes of the colour and depth planes. -/
def sampleAt (l : Layer) (planes : List Byte) (px : Nat) : Option (Nat × Nat) :=
  match texelOf l px with
  | none => none
  | some (i, j) =>
    let o := 4 * (l.w * j + i)
    let z := byteAt planes (4 * l.w * l.h + o) 4
    if (f32 z).isNaN || z == 0x7F80_0000 then none else some (byteAt planes o 4, z)

/-- A count that saturates. -/
def satAdd32 (x : W32) (n : Nat) : W32 := if 2 ^ 32 ≤ x.toNat + n then BitVec.allOnes 32 else x + BitVec.ofNat 32 n

/-- LWARP: the acquire and the planes as the context's plain loads, the lanes, the counts. -/
def execLwarp (d : BitVec 4) (a : BitVec 5) (b : BitVec 4) (p : BitVec 3) (s : State) : Out :=
  vecThen [b] [d, d + 1] (fun s => layerThen (LayerOp.word (.lwarp d a b p)) (rs s a) (fun _ l s =>
    let val := l.planes
    readThen (.glob (l.planes.toNat % 2 ^ 48)) 64 val (fun pr =>
      let base := byteAt pr (8 * (byteAt pr 24 8 % 2)) 8
      readThen (.glob ((base + 256) % 2 ^ 48)) (8 * l.w * l.h) val (fun planes s =>
        let pix := vsrc s b
        let got := tab 64 (fun i => sampleAt l planes (elem pix 32 i))
        let colour := ofElems 32 (got.map (fun x => (x.map Prod.fst).getD 0))
        let depth := ofElems 32 (got.map (fun x => (x.map Prod.snd).getD 0x7F80_0000))
        let mask := ((upFrom 0 64).zip got).foldl (fun m x => if x.2.isNone then m + 2 ^ x.1 else m) 0
        let holes := (got.filter Option.isNone).length
        let l1 := { l with holes := satAdd32 l.holes holes, samples := satAdd32 l.samples 64 }
        done (commitOut [d, d + 1] (wp (wv (wv (commitIn [b] (putLayer s l1)) d colour) (d + 1) depth) p
          (BitVec.ofNat 64 mask))))) s) s) s

/-! Price, order, requests and readback (R352) -/

/-- The two words of a report. -/
def pairWord (lo hi : W32) : Word := BitVec.ofNat 64 (lo.toNat + hi.toNat * 2 ^ 32)

/-- LERR (R352). -/
def execLerr (d a n : BitVec 5) (s : State) : Out :=
  layerThen (LayerOp.word (.lerr d a n)) (rs s a) (fun _ l s =>
    done (ws s d (match n.toNat with
      | 0 => pairWord l.err l.price
      | 1 => pairWord l.age l.frame
      | 2 => pairWord l.holes l.samples
      | 3 => pairWord (BitVec.ofNat 32 (l.flags true)) l.order
      | _ => pairWord l.parent l.child))) s

/-- The price breaks R352. -/
def priceBad (x : Word) : Bool :=
  let v := f32 (fieldN x 0 32)
  fieldN x 32 32 != 0 || v.isNaN || ltV v (.fin false 0 0)

/-- LPRICE (R352). -/
def execLprice (a b : BitVec 5) (s : State) : Out :=
  let x := rs s b
  homeOnly (LayerOp.word (.lprice a b)) (idsThen (rs s a) 1 (failIf (priceBad x) 0x02 x
    (layerThen (LayerOp.word (.lprice a b)) (rs s a) (fun _ l s => done (putLayer s { l with price := x.setWidth 32 }))))) s

/-- LORDER (R352). -/
def execLorder (a b : BitVec 5) (s : State) : Out :=
  let x := rs s b
  homeOnly (LayerOp.word (.lorder a b)) (idsThen (rs s a) 1 (failIf (decide (2 ^ 40 ≤ x.toNat)) 0x02 x
    (layerThen (LayerOp.word (.lorder a b)) (rs s a) (fun _ l s =>
      done (putLayer s { l with order := x.setWidth 32, group := BitVec.ofNat 8 (fieldN x 32 8) }))))) s

/-- The record LREQ posts (R349). -/
def reqRecord (m : Lcb) (l : Layer) : LRec :=
  { id := l.id, frame := m.frame, err := l.err, age := l.age, d := BitVec.ofNat 32 (rnBits (cornerShift m.view l))
    h := BitVec.ofNat 32 (rnBits (holeRatio l)) }

/-- LREQ (R352). -/
def execLreq (d a : BitVec 5) (n : Bool) (s : State) : Out :=
  layerThen (LayerOp.word (.lreq d a n)) (rs s a) (fun m l s =>
    if n then done (ws (putLayer s { l with pending := false }) d (if l.pending then 1 else 0))
    else if l.pending then done (ws s d 0)
    else
      unitThen (postRec l.tenant m (reqRecord m l) s.cx.key) (fun posted s =>
        if posted then done (ws (notifyLcb l.tenant m s.cx.key (putLayer s { l with pending := true })) d 1)
        else done (ws s d 0)) s) s

/-! Dependencies (R353) -/

/-- The entry of a list with the least weight, the lowest index on ties. -/
def leastDep (l : List Dep) : Nat :=
  let w (i : Nat) : FVal := f32 ((l.map (fun d => d.weight.toNat)).getD i 0)
  (upFrom 1 3).foldl (fun b i => if ltV (w i) (w b) then i else b) 0

/-- The entry LDEP uses, if any (R353). -/
def chooseDep (l : List Dep) (caster : BitVec 32) (w : FVal) : Option Nat :=
  match (upFrom 0 4).find? (fun i => l[i]?.any (fun d => d.caster == caster)) with
  | some i => some i
  | none =>
    match (upFrom 0 4).find? (fun i => l[i]?.any (fun d => !d.on)) with
    | some i => some i
    | none =>
      let i := leastDep l
      if ltV (f32 ((l.map (fun d => d.weight.toNat)).getD i 0)) w then some i else none

/-- An empty entry (R340). -/
def noDep : Dep := { caster := 0xFFFF_FFFF, weight := 0, x := 0, y := 0 }

/-- The dependency entries after LDEP, and its answer (R353). -/
def depUpdate (deps : Vector Dep 4) (caster : BitVec 32) (w : W32) (at_ : W32 × W32) : Vector Dep 4 × Nat :=
  let l := deps.toList
  let v := f32 w.toNat
  if v.isZero then
    match (upFrom 0 4).find? (fun i => l[i]?.any (fun d => d.caster == caster)) with
    | some i => (vset deps i noDep, i)
    | none => (deps, 4)
  else
    match chooseDep l caster v with
    | some i => (vset deps i { caster := caster, weight := w, x := at_.1, y := at_.2 }, i)
    | none => (deps, 4)

/-- LDEP (R353). -/
def execLdep (d a b : BitVec 5) (s : State) : Out :=
  let x := rs s a
  let y := rs s b
  let t := s.cx.tenant.toNat
  homeOnly (LayerOp.word (.ldep d a b)) (idsThen x 2
    (failIf (fieldN y 32 32 != 0 || !finNonNeg (f32 (fieldN y 0 32))) 0x02 y
      (failIf (idOf x 0 == idOf x 1) 0x02 x
        (unitThen
          (fun s => (lcbIds t [idOf x 0, idOf x 1] s).then (fun m s1 => (liveOf t (idOf x 0) s1).then (fun l s2 =>
            (liveOf t (idOf x 1) s2).then (fun c s3 => .ok (m, l, c) s3))))
          (fun p s =>
            let r := depUpdate p.2.1.deps (BitVec.ofNat 32 (idOf x 1)) (y.setWidth 32) (snapBits p.1.view (some p.2.2))
            done (ws (putLayer s { p.2.1 with deps := r.1 }) d (BitVec.ofNat 64 r.2))))))) s

/-! Splitting and merging (R354, R355, R361) -/

/-- Retires layers and makes others live, in one arrival: every descriptor it changes is written back. -/
def remake (m : Lcb) (t key : Nat) (olds news : List Layer) (s : State) : URes Unit :=
  let s1 := olds.foldl (fun s l => retireLayer s t l.id) s
  let s2 := news.foldl putLayer s1
  let put (live : Bool) (r : URes Unit) (l : Layer) : URes Unit := r.then (fun _ s => writeBack m l live key s)
  news.foldl (put true) (olds.foldl (put false) (.ok () s2))

/-- A child's id is one of the ids before it. -/
def freshChild (c : Nat) (before : List Nat) (s : State) : URes Unit := if before.contains c then .bad c else .ok () s

/-- A child word: two ids (R340). -/
def idsWord (a b : Nat) : BitVec 32 := BitVec.ofNat 32 (a + b * 2 ^ 16)

/-- What a child takes from its parent (R354). -/
def inherit_ (p c : Layer) : Layer :=
  { c with age := p.age, frame := p.frame, err := p.err, price := p.price, deps := p.deps, order := p.order,
           parent := idsWord p.id 0xFFFF }

/-- A layer as LSPLIT and LMERGE retire it. -/
def retired (l : Layer) (child : BitVec 32) : Layer := { l with pending := false, child := child }

/-- LSPLIT (R354). -/
def execLsplit (a b : BitVec 5) (s : State) : Out :=
  let x := rs s a
  let y := rs s b
  let t := s.cx.tenant.toNat
  let p := idOf x 0
  let c1 := idOf y 0
  let c2 := idOf y 1
  homeOnly (LayerOp.word (.lsplit a b)) (idsThen x 1 (idsThen y 2 (unitThen
    (fun s => (lcbIds t [p, c1, c2] s).then (fun m s1 => (liveOf t p s1).then (fun l s2 =>
      (freshChild c1 [p] s2).then (fun _ s3 => (acceptLayer t c1 m [p] [] s3).then (fun k1 s4 =>
        (freshChild c2 [p, c1] s4).then (fun _ s5 => (acceptLayer t c2 m [p] [k1] s5).then (fun k2 s6 =>
          remake m t s.cx.key [retired l (idsWord c1 c2)] [inherit_ l k1, inherit_ l k2] s6)))))))
    (fun _ => done)))) s

/-- The union of two dependency sets: one entry per caster, the heavier, the earlier on ties, each at its own place (R355). -/
def addDep (l : List Dep) (d : Dep) : List Dep :=
  if l.any (fun e => e.caster == d.caster && !ltV (f32 e.weight.toNat) (f32 d.weight.toNat)) then l
  else l.filter (fun e => e.caster != d.caster) ++ [d]

/-- Removes the lightest entry, the last on ties. -/
def dropLightest (l : List Dep) : List Dep :=
  match l.foldl (fun (m : Option FVal) d => some (match m with
      | some v => if ltV (f32 d.weight.toNat) v then f32 d.weight.toNat else v
      | none => f32 d.weight.toNat)) none with
  | none => l
  | some v =>
    match takeFirst (fun d => !ltV v (f32 d.weight.toNat)) l.reverse with
    | some (_, r) => r.reverse
    | none => l.take 4

/-- The dependencies of a merged layer (R355; their order is log 70). -/
def mergeDeps (p q : Vector Dep 4) : Vector Dep 4 :=
  let l := ((p.toList ++ q.toList).filter Dep.on).foldl addDep []
  let l := (upFrom 0 (l.length - 4)).foldl (fun l _ => dropLightest l) l
  #v[l.getD 0 noDep, l.getD 1 noDep, l.getD 2 noDep, l.getD 3 noDep]

/-- What the merged layer takes from its parents (R355). -/
def merged (p q c : Layer) : Layer :=
  { c with
    age := if p.age.toNat < q.age.toNat then q.age else p.age
    err := BitVec.ofNat 32 (fMinMax .fp32 .rn true p.err.toNat q.err.toNat).bits
    price := BitVec.ofNat 32 (fMinMax .fp32 .rn false p.price.toNat q.price.toNat).bits
    frame := if q.frame.toNat < p.frame.toNat then q.frame else p.frame
    order := if q.order.toNat < p.order.toNat then q.order else p.order
    deps := mergeDeps p.deps q.deps
    parent := idsWord p.id q.id }

/-- LMERGE (R355). -/
def execLmerge (a b : BitVec 5) (s : State) : Out :=
  let x := rs s a
  let y := rs s b
  let t := s.cx.tenant.toNat
  let p := idOf x 0
  let q := idOf x 1
  let c := idOf y 0
  homeOnly (LayerOp.word (.lmerge a b)) (idsThen x 2 (idsThen y 1 (unitThen
    (fun s => (lcbIds t [p, q, c] s).then (fun m s1 => (liveOf t p s1).then (fun lp s2 => (liveOf t q s2).then (fun lq s3 =>
      (freshChild c [p, q] s3).then (fun _ s4 => (acceptLayer t c m [p, q] [] s4).then (fun k s5 =>
        let gone := idsWord c 0xFFFF
        remake m t s.cx.key [retired lp gone, retired lq gone] [merged lp lq k] s5))))))
    (fun _ => done)))) s

/-! LRES (R356) -/

/-- B's sample is nearer: NaN reads as +∞, ties go to A. -/
def nearerB (da db : Nat) : Bool :=
  let up (v : FVal) : FVal := if v.isNaN then .inf false else v
  ltV (up (f32 db)) (up (f32 da))

/-- LRES. -/
def execLres (d a b : BitVec 4) (p : BitVec 3) (s : State) : Out :=
  homeOnly (LayerOp.word (.lres d a b p)) (vecDo [a, a + 1, b, b + 1] [d, d + 1] (fun s =>
    let ca := rv s a
    let za := rv s (a + 1)
    let cb := rv s b
    let zb := rv s (b + 1)
    let pick := tab 64 (fun i => nearerB (elem za 32 i) (elem zb 32 i))
    let mix (x y : VReg) : VReg :=
      ofElems 32 (((upFrom 0 64).zip pick).map (fun q => if q.2 then elem y 32 q.1 else elem x 32 q.1))
    let mask := ((upFrom 0 64).zip pick).foldl (fun m q => if q.2 then m + 2 ^ q.1 else m) 0
    wp (wv (wv s d (mix ca cb)) (d + 1) (mix za zb)) p (BitVec.ofNat 64 mask))) s

/-! LFRAME (R348) -/

/-- The live layers of a tenant, by unit, ascending ids. -/
def closeTodo (s : State) (t : Nat) : List (List Nat) :=
  (upFrom 0 8).map (fun u => (s.layers.filter (fun l => l.tenant == t && l.id % 8 == u)).map Layer.id)

/-- A close begins: the LCB is read and checked, FRAME advances. -/
def beginClose (d : BitVec 5) (s : State) : Out :=
  let t := s.cx.tenant.toNat
  let key := s.cx.key
  unitThen
    (fun s => (lcbOf t s).then (fun m s1 =>
      let m1 := { m with frame := m.frame + 1 }
      (uWrite t ((getTenant s t).lcb.toNat + 12) (bytesOfNat 4 m1.frame.toNat) key s1).then (fun _ s2 => .ok m1 s2)))
    (fun m s =>
      waitEvent (.lframe d) { s with closes := s.closes ++ [{ tenant := t, key := key, lcb := m, todo := closeTodo s t }] }) s

/-- A close of the tenant is in progress, or another LFRAME waits for its turn. -/
def closeBusy (s : State) (t : Nat) : Bool :=
  s.closes.any (fun c => c.tenant == t) ||
    (allCtxs s).any (fun c => c.tenant.toNat == t && (match c.st with
      | .waiting (.lframeTurn _ _) => true
      | _ => false))

/-- LFRAME: closes of a tenant are served one at a time, in order of arrival. -/
def execLframe (d : BitVec 5) (s : State) : Out :=
  homeOnly (LayerOp.word (.lframe d)) (fun s =>
    if closeBusy s s.cx.tenant.toNat then waitFor (.lframeTurn s.nextId d) { s with nextId := s.nextId + 1 } else beginClose d s) s

/-- A close's processing of one layer (R348). -/
def processLayer (c : Close) (l : Layer) (s : State) : Layer × Option LRec :=
  let age := if l.age = BitVec.allOnes 32 then l.age else l.age + 1
  let d := cornerShift c.lcb.view l
  let h := holeRatio l
  let e := errorOf s c.lcb l age.toNat d h
  let post := ltV (f32 l.price.toNat) (f32 e.toNat) && !l.pending
  ({ l with
     age := age, err := e, hom := homography c.lcb.view l.cpose, holes := 0, samples := 0, pending := l.pending || post },
    if post then
      some { id := l.id, frame := c.lcb.frame, err := e, age := age, d := BitVec.ofNat 32 (rnBits d),
             h := BitVec.ofNat 32 (rnBits h) }
    else none)

/-- Changes the close of a tenant. -/
def updClose (s : State) (t : Nat) (f : Close → Close) : State :=
  { s with closes := mapFirst (fun c => c.tenant == t) f s.closes }

/-- The first layer of unit `u`'s list taken out. -/
def takeTodo (todo : List (List Nat)) (u : Nat) : Option Nat × List (List Nat) :=
  match todo[u]? with
  | some (id :: rest) => (some id, todo.set u rest)
  | _ => (none, todo)

/-- LAYER_CLOSE_PROCESS: unit `b` takes the next layer of the close of tenant `a` (R348). -/
def execLayerCloseProcess (s : State) : Out :=
  let t := s.args.a
  match s.closes.find? (fun c => c.tenant == t) with
  | none => .next s
  | some c =>
    match takeTodo c.todo s.args.b with
    | (none, _) => .next s
    | (some id, todo) =>
      let s1 := updClose s t (fun c => { c with todo := todo })
      match findLayer s t id with
      | none => .next s1
      | some l =>
        let r := processLayer c l s
        .next (updClose (putLayer s1 r.1) t (fun c =>
          { c with processed := c.processed ++ [id], undo := c.undo ++ [l], decided := c.decided ++ r.2.toList }))

/-- A request that found no room leaves PENDING clear, of a layer that is still live (R349). -/
def clearPending (s : State) (t : Nat) (processed : List Nat) (id : Nat) : State :=
  match findLayer s t id with
  | some l => if processed.contains id then putLayer s { l with pending := false } else s
  | none => s

/-- Writes the decided records in ascending id: how many were posted. -/
def postAll (c : Close) : List LRec → State → URes Nat
  | [], s => .ok 0 s
  | r :: rest, s =>
    (postRec c.tenant c.lcb r c.key s).then (fun ok s1 =>
      (postAll c rest (if ok then s1 else clearPending s1 c.tenant c.processed r.id)).then
        (fun n s2 => .ok (if ok then n + 1 else n) s2))

/-- Writes the processed descriptors back. -/
def writeBackAll (t : Nat) (m : Lcb) (key : Nat) : List Nat → State → URes Unit
  | [], s => .ok () s
  | id :: rest, s =>
    match findLayer s t id with
    | some l => (writeBack m l true key s).then (fun _ s1 => writeBackAll t m key rest s1)
    | none => writeBackAll t m key rest s

/-- The end of a close: its context completes LFRAME, if it still waits in it. -/
def endClose (s : State) (c : Close) (n : Nat) : State :=
  let s1 := { s with closes := s.closes.filter (fun x => x.tenant != c.tenant) }
  match (getCtx s1 c.key).st with
  | .waiting (.lframe d) => finish s1 c.key d (BitVec.ofNat 64 n)
  | _ => s1

/-- A layer as it was before a close processed it; what its counts have gained since is kept. -/
def Close.setBack (c : Close) (s : State) (u : Layer) : State :=
  match findLayer s c.tenant u.id with
  | some l =>
    putLayer s
      { l with
        age := u.age, err := u.err, hom := u.hom, holes := satAdd32 u.holes l.holes.toNat
        samples := satAdd32 u.samples l.samples.toNat
        pending := l.pending && !c.decided.any (fun r => r.id == u.id) }
  | none => s

/-- A close is undone: its LFRAME traps, and a trap changes no layer and no memory (R357). -/
def Close.undone (c : Close) (s : State) : State :=
  let s1 := c.undo.foldl c.setBack { s with closes := s.closes.filter (fun x => x.tenant != c.tenant) }
  match uWrite c.tenant ((getTenant s1 c.tenant).lcb.toNat + 12) (bytesOfNat 4 (c.lcb.frame - 1).toNat) c.key s1 with
  | .ok _ s2 => s2
  | _ => s1

/-- The LFRAME of a close traps (R357). -/
def closeTrap (c : Close) (cause : BitVec 8) (a : Nat) (s : State) : State :=
  let s1 := c.undone s
  match (getCtx s1 c.key).st with
  | .waiting (.lframe _) => onCtx s1 c.key (takeTrap { cause := cause, val := BitVec.ofNat 64 a })
  | _ => s1

/-- A page fault of a context's own is its trap 0x08 (R146). -/
def pageTraps (s : State) (key : Nat) : Bool := homeIdx key == 0 || noUpvec s (homeCore key)

/-- LAYER_POST_RECORDS: the close of tenant `a`, once every unit has finished (R348). A page fault pauses it like engine
work of its context, or traps at the LFRAME where a page fault is a trap (R146); an error traps there (R357). -/
def execLayerPostRecords (s : State) : Out :=
  let t := s.args.a
  match s.closes.find? (fun c => c.tenant == t) with
  | none => .next s
  | some c =>
    if c.paused || c.todo.any (fun l => !l.isEmpty) then .next s
    else
      let work := (postAll c (sortBy LRec.id c.decided) s).then (fun n s1 =>
        (writeBackAll t c.lcb c.key (sortBy id c.processed) s1).then (fun _ s2 => .ok n s2))
      match work with
      | .ok n s1 => .next (endClose (if n = 0 then s1 else notifyLcb t c.lcb c.key s1) c n)
      | .page a =>
        .next (if pageTraps s c.key then closeTrap c 0x08 a s
          else engineFault (updClose s t (fun c => { c with paused := true })) c.key t (BitVec.ofNat 64 a) 0)
      | .wait => .next s
      | .error e a => .next (closeTrap c e a s)
      | .bad _ => .next s

/-! PUBLISH (R161, R351) -/

/-- What a PUBLISH does to the layer that holds the handle (R351). -/
def publishReset (t : Nat) (l : Layer) (base : Nat) (s : State) : URes Unit :=
  (uRead t base 48 s).then (fun hdr s1 => (uRead t (getTenant s t).lcb.toNat 128 s1).then (fun lc s2 =>
    let m := lcbFields lc
    let snap (d : Dep) : Dep :=
      if d.on then
        let p := snapBits m.view (findLayer s t d.caster.toNat)
        { d with x := p.1, y := p.2 }
      else d
    let s3 := { s2 with closes := s2.closes.map (fun c =>
      if c.tenant = t then { c with undo := c.undo.filter (fun u => u.id != l.id) } else c) }
    .ok () (putLayer s3
      { l with
        rpose := BitVec.ofNat 384 (natOfBytes hdr), frame := m.frame, age := 0, err := 0, pending := false, holes := 0,
        samples := 0, deps := l.deps.map snap })))

/-- The flip of a publish pair for `who`, and the reset of its layer (R161, R166, R351). -/
def flipPair (t va : Nat) (l : List Byte) (who : Nat) (s : State) : URes Unit :=
  let st := byteAt l 24 8
  let st1 := (2 * (st / 2 + 1) + (1 - st % 2)) % 2 ^ 64
  match gwrite s t (va + 24) (bytesOfNat 8 st1) 1 who with
  | .page a => .page a
  | .wait => .wait
  | .error c a => .error c a
  | .ok s1 =>
    match s1.layers.find? (fun x => x.tenant == t && x.planes.toNat == va) with
    | some x => publishReset t x (byteAt l (8 * (st1 % 2)) 8) s1
    | none => .ok () s1

/-- PUBLISH (R161, R198, R351). A handle given through a g0 of kind WINDOW is reached through the window (log 70). -/
def execPublish (a : BitVec 5) (sc : Scope) (s : State) : Out :=
  let p := rs s a
  homeOnly (encode (.publish a sc))
    (fun s => pairThen p rightA (fun t l s =>
      if engineBusy s s.cx.key then waitFor .engines s
      else
        releaseThen (fun s =>
          match t with
          | .glob va => unitThen (flipPair s.cx.tenant.toNat va l s.cx.who) (fun _ => done) s
          | .win wa =>
            let st := byteAt l 24 8
            winThen (wa + 24) 8 true p (fun s =>
              done (winWrite s s.cx.key (wa + 24) (bytesOfNat 8 ((2 * (st / 2 + 1) + (1 - st % 2)) % 2 ^ 64)))) s) s) s) s

end Sys2Proof.Machine
end

