-- ==== Sys2Proof/Machine/Procedural.lean ====
section
/-! DEFINITION. The group PROC (R301 to R315). -/

namespace Sys2Proof.Machine

/-! Descriptors (R301) -/

/-- A field of `n` bytes of a descriptor. -/
def descAt (d o n : Nat) : Nat := d / 2 ^ (8 * o) % 2 ^ (8 * n)

/-- Bytes of a range's fill-state table. -/
def tableBytes (r : Range) : Nat := (r.len / 2 ^ r.blog + 3) / 4

/-- Two intervals share an address. -/
def overlap (a n b m : Nat) : Bool := decide (a < b + m) && decide (b < a + n)

/-- The range a descriptor describes, when no field breaks R301. -/
def rangeOf (d : Nat) : Option Range :=
  match segEntry (descAt d 32 16), segEntry (descAt d 48 16) with
  | some code, some data =>
    let r : Range :=
      { base := descAt d 0 8, len := descAt d 8 8, state := descAt d 16 8, entry := descAt d 24 4, blog := descAt d 28 1,
        code := code, data := data }
    if decide (r.blog < 12) || decide (20 < r.blog) || descAt d 29 3 != 0 || r.base % 2 ^ r.blog != 0 || r.len == 0
        || r.len % 2 ^ r.blog != 0 || decide (2 ^ 48 < r.base + r.len) || r.state % 8 != 0 || decide (2 ^ 48 ≤ r.state)
        || r.entry % 4 != 0 || code.kind != kGlobal || !bitN code.rights rightX || data.kind != kGlobal then none
    else some r
  | _, _ => none

/-- Ranges of a tenant, and the new one, keep apart from each other and from the fill-state tables. -/
def clash (l : Tbl Range) (r : Range) : Bool :=
  overlap r.state (tableBytes r) r.base r.len
    || l.any (fun x =>
      overlap r.base r.len x.2.base x.2.len || overlap r.state (tableBytes r) x.2.base x.2.len
        || overlap x.2.state (tableBytes x.2) r.base r.len)

/-- The lowest free entry of the range table. -/
def freeRange (l : Tbl Range) : Option Nat := (upFrom 0 16).find? (fun i => (tget l i).isNone)

/-- The memory operand gN[sA] (R312): what it answers is the address. -/
def procPtr (wd : W32) (a : BitVec 5) (g : BitVec 3) (k : Nat → State → Out) (s : State) : Out :=
  let p := rs s a
  homeOnly wd (tagThen p (failIf ((rg s g).kind != kGlobal) 0x05 p
    (segThen (rg s g) (offOf p) 1 rightR false p (fun t => match t with
      | .glob va => k va
      | .win _ => trap 0x05 p)))) s

/-- Reads a descriptor. PRDEF has no cause for an error on its path (R315, log 77). -/
def descThen (va : Nat) (k : List Byte → State → Out) (s : State) : Out :=
  match greadOpen s s.cx.tenant.toNat va 64 with
  | .ok l s1 => k l s1
  | .page a => parkFor a 0 s
  | .wait => stallFor .fullService s
  | .error _ _ => .next s

/-- PRDEF: the descriptor is read, then the range is defined (R301, R312). -/
def execPrdef (d a : BitVec 5) (g : BitVec 3) (s : State) : Out :=
  let p := rs s a
  procPtr (encode (.prdef d a g)) a g (fun va => failIf (offOf p % 64 != 0) 0x06 p (ownThen va 64 (descThen va (fun l s1 =>
    let rs_ := (getTenant s1 s1.cx.tenant.toNat).ranges
    match rangeOf (natOfBytes l), freeRange rs_ with
    | some r, some n =>
      failIf (clash rs_ r) 0x02 p
        (fun s => done (ws (updTenant s s.cx.tenant.toNat (fun t => { t with ranges := tput t.ranges n r })) d
          (BitVec.ofNat 64 n))) s1
    | _, _ => trap 0x02 p s1)))) s

/-- A byte of a fill-state table holds state Filling for one of its first `n` blocks (R302). -/
def byteFilling (n : Nat) (b : Byte) : Bool := (upFrom 0 n).any (fun i => fieldN b (2 * i) 2 == 1)

/-- Bytes of a fill-state table, each with the blocks it is for, are read one by one: whether one holds a block that is Filling, which bytes cannot be read
being told first (R301, R312). -/
def tableFilling (tenant : Nat) : List (Nat × Nat) → State → Except GRead Bool
  | [], _ => .ok false
  | (va, n) :: t, s =>
    match gread s tenant va 1 with
    | .ok l _ => if byteFilling n (l.headD 0) then .ok true else tableFilling tenant t s
    | .error _ _ => tableFilling tenant t s
    | r => .error r

/-- A block of a range is Filling, with a generator or without (R301, R312). -/
def rangeFilling (s : State) (tenant n : Nat) (r : Range) : Except GRead Bool :=
  if s.fills.any (fun f => f.tenant == tenant && f.range == n) then .ok true
  else
    let blocks := r.len / 2 ^ r.blog
    tableFilling tenant ((upFrom 0 (tableBytes r)).map (fun i => (r.state + i, if 4 * i + 4 ≤ blocks then 4 else blocks - 4 * i))) s

/-- PRDEL (R312). -/
def execPrdel (a : BitVec 5) (s : State) : Out :=
  let x := rs s a
  homeOnly (encode (.prdel a)) (fun s =>
    let t := s.cx.tenant.toNat
    if 16 ≤ x.toNat then trap 0x02 x s
    else
      match tget (getTenant s t).ranges x.toNat with
      | none => trap 0x02 x s
      | some r =>
        match rangeFilling s t x.toNat r with
        | .ok true => waitFor (.rangeIdle x.toNat) s
        | .ok false => done (updTenant s t (fun t => { t with ranges := tdel t.ranges x.toNat }))
        | .error (.page a) => tablePause a s
        | .error _ => stallFor .fullService s) s

/-! The end of a fill (R303, R306, R313) -/

/-- A requester of a filled block goes on (R303). -/
def wakeReq (tenant range block : Nat) (s : State) (r : Req) : State :=
  match r with
  | .ctx k => if (getCtx s k).st = .waiting (.fill tenant range block) then updCtx s k (fun c => { c with st := .ready }) else s
  | .copy core id => updCop s core id (fun o => { o with paused := false })
  | .mat core id => updMop s core id (fun o => { o with paused := false })
  | .drip pid => { s with net := mapFirst (fun p => p.id == pid) (fun p => { p with paused := false }) s.net }

/-- A block is Filled: its requesters go on, and the generator holds it no more. -/
def fillDone (g : GenHold) (s : State) : State :=
  let is (f : Fill) : Bool := f.tenant == g.tenant && f.range == g.range && f.block == g.block
  let reqs := ((s.fills.find? is).map Fill.reqs).getD []
  reqs.foldl (wakeReq g.tenant g.range g.block)
    (updCx { s with fills := s.fills.filter (fun f => !is f) } (fun c => { c with gen := none }))

/-- The held block fails with a cause and a code (R306, R308). -/
def failHeld (g : GenHold) (cause : BitVec 8) (code : BitVec 32) (s : State) : State :=
  failFills (chainBound s) [{ tenant := g.tenant, range := g.range, block := g.block, cause := cause, code := code, key := s.cx.key }]
    (updCx s (fun c => { c with gen := none }))

/-- The generator's block; a context that holds none traps 0x03 (R312). -/
def heldThen (wd : W32) (k : GenHold → State → Out) (s : State) : Out :=
  match s.cx.gen with
  | some g => k g s
  | none => trap 0x03 (wd.setWidth 64) s

/-- The block becomes Filled (R302, R313). An update that the path loses is lost: PRDONE has no cause for it (R315, log 77). -/
def fillNow (g : GenHold) (s : State) : Out :=
  match tget (getTenant s g.tenant).ranges g.range with
  | none => done (fillDone g s)
  | some r =>
    match setBlockState s g.tenant r g.block 2 s.cx.who with
    | .ok s1 => done (fillDone g s1)
    | .page a => tablePause a s
    | .wait => stallFor .fullService s
    | .error _ _ => done (fillDone g s)

/-- PRDONE: a deferred error fails the fill in place of filling the block; while INH is set the error is held and PRDONE completes
(R203, R313, R363). -/
def execPrdone (s : State) : Out :=
  heldThen (encode .prdone) (fun g => homeOnly (encode .prdone) (fun s =>
    if engineBusy s s.cx.key then waitFor .engines s
    else releaseThen (fun s =>
      match s.cx.deferred with
      | [] => fillNow g s
      | ch :: rest =>
        let failed (s : State) : State := failHeld g 0x09 (0xFFFF_0000 + ch.cause.setWidth 32) s
        if s.cx.inh then
          let s1 := holdDeferred s.cx.deferred s
          if s1.cx.stopped then .next s1 else done (failed s1)
        else .next (takeTrap ch (failed (updCx s (fun c => { c with deferred := rest }))))) s)) s

/-- PRFAIL (R308, R312). -/
def execPrfail (a : BitVec 5) (s : State) : Out :=
  heldThen (encode (.prfail a)) (fun g => homeOnly (encode (.prfail a)) (fun s =>
    done (failHeld g 0x09 ((rs s a).setWidth 32) s))) s

/-! PRSTATE, PREVICT, PRTOUCH (R310, R311, R314) -/

/-- The word of R314. -/
def stateWord (n block st : Nat) : Word := BitVec.ofNat 64 (block * 2 ^ 32 + 2 ^ 15 + n * 2 ^ 8 + st)

/-- Reads the byte of a fill-state table that holds a block's state. PRSTATE and PRTOUCH have no cause for an error on its path
(R315, log 77). -/
def tableThen (r : Range) (b : Nat) (k : List Byte → State → Out) (s : State) : Out :=
  match greadOpen s s.cx.tenant.toNat (r.state + b / 4) 1 with
  | .ok l s1 => k l s1
  | .page a => tablePause a s
  | .wait => stallFor .fullService s
  | .error _ _ => .next s

/-- PRSTATE (R314). -/
def execPrstate (d a : BitVec 5) (g : BitVec 3) (s : State) : Out :=
  procPtr (encode (.prstate d a g)) a g (fun va s =>
    let t := s.cx.tenant.toNat
    match rangeAt s t va with
    | none => done (ws s d 0)
    | some (n, r) =>
      let b := r.blockOf va
      tableThen r b (fun l s1 => done (ws s1 d (stateWord n b (fieldN (l.headD 0) (2 * (b % 4)) 2)))) s) s

/-- What an eviction answers (R310): how many blocks became Unfilled. -/
inductive Evict where
  | ok (n : Nat) (s : State)
  | page (va : Nat)
  | wait

/-- Evicts `n` blocks from `b` on (R310). PREVICT has no cause for an error on the path of the table (R315, log 77). -/
def evict (t who : Nat) (r : Range) : Nat → Nat → Nat → State → Evict
  | 0, _, k, s => .ok k s
  | n + 1, b, k, s =>
    match greadOpen s t (r.state + b / 4) 1 with
    | .page a => .page a
    | .wait | .error _ _ => .wait
    | .ok l s1 =>
      let st := fieldN (l.headD 0) (2 * (b % 4)) 2
      if st = 2 ∨ st = 3 then
        match setBlockState s1 t r b 0 who with
        | .ok s2 => evict t who r n (b + 1) (k + 1) s2
        | .page a => .page a
        | .wait => .wait
        | .error _ _ => evict t who r n (b + 1) (k + 1) s1
      else evict t who r n (b + 1) k s1

/-- PREVICT (R310, R312). -/
def execPrevict (d a b : BitVec 5) (g : BitVec 3) (s : State) : Out :=
  let p := rs s a
  let x := rs s b
  procPtr (encode (.previct d a b g)) a g (fun va s =>
    let t := s.cx.tenant.toNat
    match rangeAt s t va with
    | none => trap 0x02 p s
    | some (_, r) =>
      failIf (x == 0 || decide (2 ^ 32 ≤ x.toNat)) 0x02 x (fun s =>
        let i := r.blockOf va
        let room := r.len / 2 ^ r.blog - i
        match evict t s.cx.who r (if x.toNat ≤ room then x.toNat else room) i 0 s with
        | .ok n s1 => done (ws s1 d (BitVec.ofNat 64 n))
        | .page a => tablePause a s
        | .wait => stallFor .fullService s) s) s

/-- PRTOUCH: a fill without a requester (R311). -/
def execPrtouch (a : BitVec 5) (g : BitVec 3) (s : State) : Out :=
  procPtr (encode (.prtouch a g)) a g (fun va s =>
    let t := s.cx.tenant.toNat
    match rangeAt s t va with
    | none => done s
    | some (n, r) =>
      let b := r.blockOf va
      tableThen r b (fun l s1 =>
        if fieldN (l.headD 0) (2 * (b % 4)) 2 = 0 then
          match startFill s1 t n r b (s1.cx.depth + 1) [] s1.cx.key s1.cx.core (homeCore s1.cx.key) with
          | .ok s2 => done s2
          | .page a => tablePause a s
          | .wait => stallFor .fullService s
          | .error _ _ => done s1
        else done s1) s) s

end Sys2Proof.Machine
end

