-- ==== Sys2Proof/Machine/Work.lean ====
section
/-! DEFINITION. The group WORK (R180 to R183). -/

namespace Sys2Proof.Machine

/-- HSTART; the start is a release (R16, R179, R180). -/
def execHstart (d a b : BitVec 5) (s : State) : Out :=
  let x := rs s a
  kindThen (isControl s) (encode (.hstart d a b))
    (homeOnly (encode (.hstart d a b))
      (failIf (offOf x % 4 != 0) 0x06 x
        (releaseThen (fun s =>
          let core := homeCore s.cx.key
          match helperNow s core with
          | some i => done (ws (startHelper s core i (x.setWidth 48) (rs s b) (BitVec.ofNat 64 i) 0 id) d (BitVec.ofNat 64 i))
          | none => waitEvent (.helper d) (pushReq s core (.hstart s.cx.key d (x.setWidth 48) (rs s b))))))) s

/-- Helpers 1 to 10 of a core that are live, as a mask (R181). -/
def liveMask (s : State) (core : Nat) : Word :=
  BitVec.ofNat 64 (((upFrom 1 10).map (fun i => if isFree s core i then 0 else 2 ^ i)).foldl (fun x y => x + y) 0)

/-- HJOIN (R181). -/
def execHjoin (a : BitVec 5) (s : State) : Out :=
  let m := rs s a
  homeOnly (encode (.hjoin a))
    (failIf ((m &&& ~~~0x7FE) != 0) 0x02 m
      (metThen (fun _ => done) (fun s =>
        if m &&& liveMask s (homeCore s.cx.key) = 0 then done s else waitFor (.helpersFree m) s))) s

/-- HSTAT (R181). -/
def execHstat (d : BitVec 5) (s : State) : Out :=
  homeOnly (encode (.hstat d))
    (fun s =>
      let core := homeCore s.cx.key
      let n := (getCore s core).hreqs.length
      done (ws s d (liveMask s core ||| (BitVec.ofNat 64 (if n < 15 then n else 15) <<< 16)))) s

/-- LAUNCH, a release: the record goes to the scheduler, whose acceptance completes the instruction (R182). -/
def execLaunch (d a : BitVec 5) (s : State) : Out :=
  homeOnly (encode (.launch d a))
    (fun s => ptrThen (rg s 0) (rs s a) 64 64 rightR false (fun t => readThen t 64 (rs s a) (fun l => releaseThen (fun s =>
      let r : Direct := { key := s.cx.key, d := d, record := BitVec.ofNat 512 (natOfBytes l) }
      waitEvent (.launch d) (updTenant s s.cx.tenant.toNat (fun t => { t with direct := t.direct ++ [r] }))))) s) s

/-- Pours of a brew (R21). -/
def Brew.count (b : Brew) : Nat := fieldN b.record 192 32

/-- The lowest index of a brew that was never placed and that the host has not named. -/
def Brew.fresh (b : Brew) : Option Nat := (upFrom b.nextIdx (b.count - b.nextIdx)).find? (fun i => !b.taken.contains i)

/-- Some pour of a brew is not yet placed: a fresh one, or one that the host named before it was placed (R183, R373). -/
def unplaced (s : State) (b : Brew) : Bool :=
  b.fresh.isSome || s.pours.any (fun p => p.tenant == b.tenant && p.brew == b.num && p.image.isNone
    && (p.st == .saved || p.st == .stopped))

/-- What LSTAT reports of a brew (R183). -/
def brewReport (s : State) (b : Option Brew) : Word :=
  match b with
  | some b =>
    if b.retired < b.count then
      BitVec.ofNat 64 (b.count - b.retired + (if unplaced s b then 1 else 2) * 2 ^ 32)
    else 0
  | none => 0

/-- LSTAT (R183). -/
def execLstat (d a : BitVec 5) (s : State) : Out :=
  let x := rs s a
  homeOnly (encode (.lstat d a))
    (failIf (fieldN x 32 32 != 0) 0x02 x
      (fun s => done (ws s d (brewReport s (findBrew s s.cx.tenant.toNat (fieldN x 0 32)))))) s

end Sys2Proof.Machine
end

