-- ==== Sys2Proof/Machine/Waits.lean ====
section
/-! DEFINITION. The end of waits and what is delivered to a context: WAIT_WAKE (R13), CHARGED_CAUSE_DELIVER (R203, R363),
STORE_PATH_ERROR (R128), UPCALL_DELIVER (R146, R205), HELPER_ASSIGN (R16). -/

namespace Sys2Proof.Machine

/-! Conditions of waits (R13) -/

/-- The 8 bytes a WAITW watches, when they can be read (R197). -/
def wordSeen (s : State) (c : Ctx) (win : Bool) (va : Nat) : GRead :=
  if win then .ok (winRead s va 8) s else gread s c.tenant.toNat va 8

/-- They differ from its operand, or cannot be read: the instruction looks again (R197). -/
def wordDiffers (s : State) (c : Ctx) (win : Bool) (va : Nat) (old : Word) : Bool :=
  match wordSeen s c win va with
  | .ok l _ => zWord l != old
  | .wait => false
  | _ => true

/-- A fill that a context waited for is over, and has not failed: after a failure the cause it is charged ends the wait
(R303, R308, R363). -/
def fillOver (s : State) (c : Ctx) (t r b : Nat) : Bool :=
  !s.fills.any (fun f => f.tenant == t && f.range == r && f.block == b && f.reqs.contains (.ctx c.key)) &&
    match tget (getTenant s t).ranges r with
    | none => true
    | some rg =>
      match blockState s t rg b with
      | .ok l _ => fieldN (l.headD 0) (2 * (b % 4)) 2 != 3 || c.charged.isEmpty
      | _ => true

/-- NEXT of an order domain reaches a sequence number, and its home's token store has room (R330). -/
def ordReady (s : State) (c : Ctx) (dom seq : Nat) : Bool :=
  decide ((getCore s (homeOf dom)).tokens.length < Config.tokenEntries) &&
    match gread s c.tenant.toNat dom 4 with
    | .ok l _ => decide (seq ≤ natOfBytes l)
    | .wait => false
    | _ => true

/-- No open token of a domain stands before one of this key, number and mask (R330). -/
def ordClear (s : State) (c : Ctx) (dom : Addr) (key seq : Nat) (mask : Word) : Bool :=
  !(getCore s (homeOf dom.toNat)).tokens.any (fun u =>
    u.tenant == c.tenant.toNat && u.dom == dom && u.key == key && decide (u.seq < seq) && (u.mask &&& mask) != 0)

/-- The stream a register of the context binds may move on: input filled, or output empty (R244). -/
def streamReady (s : State) (c : Ctx) (q : Nat) : Bool :=
  match getRing s (homeCore c.key) q with
  | some r => if c.binds.any (fun b => b.2.ring == q && b.2.out) then decide (0 < r.empty) else decide (0 < r.filled)
  | none => true

/-- Another LFRAME of the tenant comes first, or a close is in progress (R348). -/
def turnBlocked (s : State) (c : Ctx) (n : Nat) : Bool :=
  s.closes.any (fun x => x.tenant == c.tenant.toNat) ||
    (allCtxs s).any (fun x => x.tenant == c.tenant && (match x.st with
      | .waiting (.lframeTurn m _) => decide (m < n)
      | _ => false))

/-- The condition a context waits for is met. Conditions that another event completes are never met here. -/
def condMet (s : State) (c : Ctx) (w : Cond) : Bool :=
  let core := homeCore c.key
  let k := getCore s core
  let queued (id : Nat) : Bool :=
    s.cores.any (fun x => x.2.mstall.any (fun o => o.id == id) || x.2.cstall.any (fun o => o.id == id))
  match w with
  | .kettle n => decide ((getKettle s core n).count ≤ 0)
  | .ringFilled q n => (getRing s core q).all (fun r => decide (n ≤ r.filled))
  | .ringEmpty q n => (getRing s core q).all (fun r => decide (n ≤ r.empty))
  | .stream q => streamReady s c q
  | .barrier n ph => (getBar s core n).all (fun b => b.phase != ph)
  | .allowance key => tgetD (getCore s c.core).allow key 0 != 0
  | .fill t r b => fillOver s c t r b
  | .matrixAll => !matrixBusy s c.key
  | .engines => !engineBusy s c.key
  | .helpersFree m => m &&& liveMask s core == 0
  | .stopWork => !(matrixBusy s c.key || travelling s c.key)
  | .word win va old => wordDiffers s c win va.toNat old
  | .lframeTurn n _ => !turnBlocked s c n
  | .copyQueue id | .matrixQueue id => !queued id
  | .ownDrips va n => !dripsAt s c.key va.toNat n
  | .viewBank n => (tget (getCore s c.core).banks n).all (fun b => b.pour == c.pour)
  | .setupSlot => (upFrom 0 Config.setupSlots).any (fun i => (tget (getCore s c.core).setups i).isNone)
  | .ordSeq dom seq => ordReady s c dom.toNat seq
  | .ordBlock dom key seq mask => ordClear s c dom key seq mask
  | .rangeIdle n => (tget (getTenant s c.tenant.toNat).ranges n).all (fun r => match rangeFilling s c.tenant.toNat n r with
      | .ok b => !b
      | .error _ => true)
  | .lsplitRings code => !opsAbove s core (scratchSize { k with lsplit := BitVec.ofNat 64 code })
  | .targetHome key => !(getCtx s key).away
  | .helperInFlight key => !(getCtx s key).busy && (getCtx s key).writes.isEmpty
  | .fullService => s.phase == 2
  | .matrixOp _ | .helper _ | .stopShot | .launch _ | .lframe _ | .cut _ | .tablePage | .start => false

/-- What a context waits for, if it waits or stalls (R13). -/
def Ctx.cond (c : Ctx) : Option Cond :=
  match c.st with
  | .waiting w => some w
  | .inFlight w => some w
  | _ => none

/-- The pour of a context runs: contexts do not move on while it is cut, but for the handlers of R300. -/
def pourRuns (s : State) (c : Ctx) : Bool := mayIssue s c

/-- An LFRAME waits for its turn (R348). -/
def Ctx.turnWait (c : Ctx) : Bool :=
  match c.st with
  | .waiting (.lframeTurn _ _) => true
  | _ => false

/-- The wait of a context is over (R13). -/
def wakes (s : State) (c : Ctx) : Bool := !c.stopped && c.cond.any (condMet s c)

/-- What is kept of a wait that is over, for the instruction that executes again: conditions that may cease to hold count as
met from here on (R13, R187, R196, R197, R243). -/
def metOf (s : State) (c : Ctx) : Cond → Option Word
  | .kettle _ | .ringFilled _ _ | .ringEmpty _ _ | .barrier _ _ | .helpersFree _ => some 0
  | .word win va _ =>
    match wordSeen s c win va.toNat with
    | .ok l _ => some (zWord l)
    | _ => none
  | _ => none

/-- A context whose wait is over is Ready. An LFRAME whose turn has come is not: its close begins by WAIT_WAKE. -/
def wakeCtx (s : State) (c : Ctx) : Ctx :=
  match c.cond with
  | some w => if wakes s c && !c.turnWait then { c with st := .ready, met := metOf s c w } else c
  | none => c

/-- A function of every context. -/
def mapCtxs (f : Ctx → Ctx) (s : State) : State := { s with cx := f s.cx, ctxs := s.ctxs.map (fun x => (x.1, f x.2)) }

/-- What follows every move of the part in the same clock: window writes that waited land (R143), then each context whose
condition is met becomes Ready (R13, R196, R243, R330). -/
def settle (s : State) : State :=
  let s1 := mapCtxs Ctx.landed s
  mapCtxs (wakeCtx s1) s1

/-- WAIT_WAKE of context `a` (R13): it becomes Ready; an LFRAME whose turn has come begins its close (R348). -/
def execWaitWake (s : State) : Out :=
  let key := s.args.a
  let c := getCtx s key
  match c.st with
  | .waiting (.lframeTurn _ d) =>
    if wakes s c && pourRuns s c then
      beginClose d (switchTo (updCtx s key (fun c => { c with st := .ready, again := false })) key)
    else .next s
  | _ => .next (if wakes s c then updCtx s key (wakeCtx s) else s)

/-! Causes and upcalls -/

/-- A context waits in an instruction: Waiting, but for a control context that has yet to start (R13, R28). -/
def Ctx.waits (c : Ctx) : Bool :=
  match c.st with
  | .waiting .start => false
  | .waiting _ => true
  | _ => false

/-- A Waiting context has an engine's or a join's cause that may be delivered (R203, R363). -/
def chargeDue (s : State) (c : Ctx) : Bool := !c.charged.isEmpty && !c.inh && pourRuns s c && c.waits

/-- The oldest charged cause of a context is delivered: its wait is abandoned (R203). -/
def deliverCharged (s : State) (key : Nat) : State :=
  match (getCtx s key).charged with
  | [] => s
  | ch :: rest =>
    onCtx (abandonWait (updCtx s key (fun c => { c with charged := rest })) key) key (takeTrap ch)

/-- CHARGED_CAUSE_DELIVER to context `a` (R203, R363). A context that is Ready takes its cause when it issues. -/
def execChargedCauseDeliver (s : State) : Out :=
  .next (if chargeDue s (getCtx s s.args.a) then deliverCharged s s.args.a else s)

/-- STORE_PATH_ERROR: a store of context `a` to the address in `word` met an error behind the L1; `flag` tells an integrity
failure from an uncorrectable error (R128). -/
def execStorePathError (s : State) : Out :=
  let a := s.args
  let va : Word := a.word.setWidth 64
  .next (if (getCtx s a.a).live then
      chargeDeferred s a.a { cause := if a.flag then 0x16 else 0x15, val := va, engine := 2, addr := some va }
    else s)

/-- Context 0 of a core may take an upcall (R146, R205). -/
def upcallDue (s : State) (core : Nat) : Bool :=
  let c := getCtx s (keyOf core 0)
  !c.upcalls.isEmpty && !c.inh && pourRuns s c && !(c.again && c.stalled)
    && (match c.place with
        | .home | .visitor _ _ => true
        | _ => false)
    && (c.st == .ready || c.waits)

/-- Delivery of an upcall to the issuing context: TRPC is its own resume address, the pc goes to UPVEC (R205). -/
def deliverUpcall (u : Upcall) (s : State) : State :=
  let ch : Charge :=
    { cause := 0x08, val := u.va, engine := u.engine, count := BitVec.ofNat 32 u.reqs.length, reqs := u.reqs }
  updCx s (fun c => { c.trapped true ch with pc := (c.upvec &&& offMask).setWidth 48 })

/-- UPCALL_DELIVER to context 0 of core `a`: the wait it was in is abandoned (R146, R205). -/
def execUpcallDeliver (s : State) : Out :=
  let core := s.args.a
  let key := keyOf core 0
  match (getCtx s key).upcalls with
  | u :: rest =>
    .next (if upcallDue s core then
        onCtx (abandonWait (updCtx s key (fun c => { c with upcalls := rest })) key) key (deliverUpcall u)
      else s)
  | [] => .next s

/-! Helpers (R16) -/

/-- The class of a request: drain handler, kettle handler, generator, HSTART and CTXLD. -/
def HReq.rank : HReq → Nat
  | .drain _ _ => 0
  | .kettle _ => 1
  | .gen _ _ _ => 2
  | .hstart _ _ _ _ => 3
  | .ctxld _ _ _ => 3

/-- The request that is served next: the highest class, first come first served in it (R16). -/
def nextReq (l : List HReq) : Option HReq := (sortBy HReq.rank l).head?

/-- The helper a request takes: a drain handler any, the others from HRESV + 1 on (R16, R150). -/
def reqHelper (s : State) (core : Nat) (r : HReq) : Option Nat :=
  match r with
  | .drain _ _ => freeHelper s core 1
  | _ => freeHelper s core (firstHelper s core)

/-- Starts the drain handler of row `m` of an operation (R274). -/
def startDrain (s : State) (core idx op m : Nat) : State :=
  match (getCore s core).mq.find? (fun o => o.id == op) with
  | none => s
  | some o =>
    let kindNum := match o.kind with
      | .mma => 0
      | .mmaj => 1
      | .mmas => 2
      | .mlda => 3
      | .msta => 4
      | .mzero => 5
    let s1 := startHelper s core idx (BitVec.ofNat 48 o.shape.drain) (BitVec.ofNat 64 m)
      (BitVec.ofNat 64 (o.acc + 16 * homeIdx o.key + 256 * kindNum)) (BitVec.ofNat 64 o.shape.n)
      (fun c => { c with row := some (op, some m) })
    let hold (x : DrainRow) : DrainRow := if x.m = m then { x with st := .held (keyOf core idx) } else x
    updMop s1 core op (fun o => { o with rows := o.rows.map hold })

/-- Serves a request with a helper. A CTXLD whose handle another one has restored meanwhile gets its helper's index, and nothing is
restored: the spec does not say what becomes of it (log 78). -/
def serveReq (s : State) (core idx : Nat) (r : HReq) : State :=
  match r with
  | .drain op m => startDrain s core idx op m
  | .kettle k =>
    let ke := getKettle s core k
    let s1 := setKettle s core k { ke with pending := false }
    startHelper s1 core idx (ke.entry.setWidth 48) (BitVec.ofNat 64 k) ke.arg (BitVec.ofNat 64 (payloads s core k)) id
  | .gen t rn b =>
    match tget (getTenant s t).ranges rn, s.fills.find? (fun f => f.tenant == t && f.range == rn && f.block == b) with
    | some rg, some f => startGen s core idx t rn b f.depth rg
    | _, _ => s
  | .hstart key d entry arg =>
    finish (startHelper s core idx entry arg (BitVec.ofNat 64 idx) 0 id) key d (BitVec.ofNat 64 idx)
  | .ctxld key d handle => finish (restoreHelper s core idx handle) key d (BitVec.ofNat 64 idx)

/-- A core's shot lets requests be served: its pour runs; while it is cut, only drain handlers start, until the core has
recorded (R212, R300). -/
def servesReq (s : State) (core : Nat) (r : HReq) : Bool :=
  running s core || (r.rank == 0 && s.cuts.any (fun k => some k.pour == (getCore s core).shot && k.units.contains core))

/-- The request a core can serve now, with its helper. -/
def assignable (s : State) (core : Nat) : Option (HReq × Nat) :=
  match nextReq (getCore s core).hreqs with
  | some r => if servesReq s core r then (reqHelper s core r).map (fun i => (r, i)) else none
  | none => none

/-- HELPER_ASSIGN at core `a` (R16, R187, R274, R305). -/
def execHelperAssign (s : State) : Out :=
  let core := s.args.a
  match assignable s core with
  | some (r, i) =>
    match takeFirst (fun x => x == r) (getCore s core).hreqs with
    | some (_, rest) => .next (serveReq (updCore s core (fun c => { c with hreqs := rest })) core i r)
    | none => .next s
  | none => .next s

end Sys2Proof.Machine
end

