-- ==== Sys2Proof/Machine/Arrivals.lean ====
section
/-! DEFINITION. Arrivals (R168, R173, R176, R187, R190 to R193, R375): KETTLE_DECREMENT, MESSAGE_ARRIVE, ANNOUNCEMENT_ARRIVE,
ALLOW_GRANT_ARRIVE, DRIP_ARRIVE, MIGRATION_ARRIVE, VISITOR_ADMIT. Each takes the packet whose number is operand `a`; one that
cannot land yet stays under way. -/

namespace Sys2Proof.Machine

/-- A core belongs to a pour that is being cut: what arrives for its unit is logged (R212). -/
def logging (s : State) (core : Nat) : Bool := (shotPour s core).any (fun p => p.st == .cutting)

/-- The lowest free inbox slot (R190). -/
def freeInbox (c : CoreSt) : Option Nat :=
  (upFrom 0 Config.inboxSlots).find? (fun i => !c.inbox.any (fun x => x.slot == i))

/-- A payload takes a slot, queued to its kettle (R190, R192). -/
def putInbox (s : State) (core slot ket : Nat) (sender : Word) (len : Nat) (payload : BitVec 384) : State :=
  updCore s core (fun c =>
    { c with inbox := c.inbox ++ [{ slot := slot, sender := sender, kettle := ket, len := len, payload := payload }] })

/-- The sender word of a decrement with a payload: a pour's completion comes from the scheduler, a copy's failure from its
context (R20, R192). -/
def decSender (src : DecSrc) (tenant : Nat) : Word :=
  match src with
  | .copy key => senderWord { key := key, tenant := BitVec.ofNat 4 tenant }
  | _ => BitVec.ofNat 64 (0xFE * 2 ^ 19 + tenant * 2 ^ 15)

/-! Announcements (R375) -/

/-- `n` records are announced on queue `q` of a tenant. Those beyond the queue's slots are discarded while the tenant is not
enabled, as are all for a queue without a base. -/
def announceOn (s : State) (tenant q n : Nat) : State :=
  let t := getTenant s tenant
  let u := tgetD t.queues q {}
  if u.base = 0 then setTenant s tenant { t with annDiscarded := t.annDiscarded + 1 }
  else if t.enabled || u.kept + n ≤ u.slots then
    setTenant s tenant { t with queues := tput t.queues q { u with kept := u.kept + n } }
  else
    setTenant s tenant
      { t with queues := tput t.queues q { u with kept := u.slots }, annDiscarded := t.annDiscarded + 1 }

/-- A decrement reaches an announcement kettle (R191, R375). -/
def landAnnounce (s : State) (w : Word) (src : DecSrc) (tenant : Nat) : State :=
  let core := dwCore w
  if coreX core != tenant then discardDec s w src tenant else announceOn s tenant (dwKet w - 224) (dwDec w)

/-! Decrements and messages (R187, R190, R191) -/

/-- A decrement, with or without a payload, lands at a kettle; none when it waits at the port. -/
def landDec (s : State) (w : Word) (payload : Option (BitVec 128)) (src : DecSrc) (tenant : Nat) : Option State :=
  let core := dwCore w
  let k := dwKet w
  if kettleTenant s core k != some tenant then some (discardDec s w src tenant)
  else
    match payload with
    | none => some (decKettle s core k (dwDec w))
    | some p =>
      (freeInbox (getCore s core)).map (fun i =>
        decKettle (putInbox s core i k (decSender src tenant) 16 (p.setWidth 384)) core k (dwDec w))

/-- A message lands; none when it waits at the port (R190). -/
def landMsg (s : State) (key : Nat) (w : Word) (payload : BitVec 384) (len : Nat) (sender : Word) (tenant : Nat) :
    Option State :=
  let core := dwCore w
  let k := dwKet w
  if isAnnounce core k then some (landAnnounce s w (.message key) tenant)
  else if kettleTenant s core k != some tenant then some (discardDec s w (.message key) tenant)
  else
    (freeInbox (getCore s core)).map (fun i => decKettle (putInbox s core i k sender len payload) core k (dwDec w))

/-- Takes a packet out of the net and lands it, when it may. -/
def landPacket (s : State) (pid : Nat) (f : Packet → State → Option State) : State :=
  match arriving s pid with
  | some p => if p.paused then s else (f p (dropPacket s pid)).getD s
  | none => s

/-! From another device (R382): with operand `flag` set an arrival is not a packet of this part. `word` is its destination
word, `b` its tenant, `c` its sender word, `bytes` its payload, if it has one; a discarded one is reported there, not here. -/

/-- The destination word of an arrival from another device, when it names this part (R184, R382). -/
def foreignWord (s : State) : Option Word :=
  let w : Word := s.args.word.setWidth 64
  if dwDev w = 0 ∧ dwOk s w then some w else none

/-- What a decrement from another device does; one that has to wait at its port comes again. -/
def foreignDec (s : State) : State :=
  match foreignWord s with
  | none => s
  | some w =>
    let t := s.args.b
    if isAnnounce (dwCore w) (dwKet w) then landAnnounce s w .host t
    else if logging s (dwCore w) then s
    else
      (landDec s w (if s.args.bytes.isEmpty then none else some (BitVec.ofNat 128 (natOfBytes (s.args.bytes.take 16))))
        .host t).getD s

/-- What a message from another device does. -/
def foreignMsg (s : State) : State :=
  match foreignWord s with
  | none => s
  | some w =>
    let core := dwCore w
    let k := dwKet w
    let t := s.args.b
    let l := s.args.bytes.take 48
    if isAnnounce core k then landAnnounce s w .host t
    else if logging s core || kettleTenant s core k != some t then s
    else
      match freeInbox (getCore s core) with
      | some i =>
        decKettle (putInbox s core i k (BitVec.ofNat 64 s.args.c) l.length (BitVec.ofNat 384 (natOfBytes l))) core k (dwDec w)
      | none => s

/-- KETTLE_DECREMENT (R187, R191): an announcement kettle's is ANNOUNCEMENT_ARRIVE. -/
def execKettleDecrement (s : State) : Out :=
  .next (if s.args.flag then foreignDec s
    else landPacket s s.args.a (fun p s1 =>
      match p.body with
      | .dec w payload src t =>
        if isAnnounce (dwCore w) (dwKet w) || logging s (dwCore w) then none else landDec s1 w payload src t
      | _ => none))

/-- MESSAGE_ARRIVE (R190). -/
def execMessageArrive (s : State) : Out :=
  .next (if s.args.flag then foreignMsg s
    else landPacket s s.args.a (fun p s1 =>
      match p.body with
      | .msg w payload len sender t =>
        if logging s (dwCore w) && !isAnnounce (dwCore w) (dwKet w) then none else landMsg s1 p.src w payload len sender t
      | _ => none))

/-- ANNOUNCEMENT_ARRIVE: a decrement reaches an announcement kettle (R24, R375). -/
def execAnnouncementArrive (s : State) : Out :=
  .next (landPacket s s.args.a (fun p s1 =>
    match p.body with
    | .dec w _ src t => if isAnnounce (dwCore w) (dwKet w) then some (landAnnounce s1 w src t) else none
    | _ => none))

/-! Allowances (R193) -/

/-- A grant lands in the allowance table of a core; a new key waits while the table is full. -/
def landGrant (s : State) (core dest dev n tenant : Nat) : Option State :=
  if !holdsShot s core tenant then some s
  else
    let key := allowKey dest dev tenant
    let a := (getCore s core).allow
    match tget a key with
    | some m => some (updCore s core (fun c => { c with allow := tput a key (if m + n < 65535 then m + n else 65535) }))
    | none =>
      if Config.allowEntries ≤ a.length then none
      else some (updCore s core (fun c => { c with allow := tput a key n }))

/-- What a grant from another device does: to core `a`, of `c` sends toward the core that `word` names. -/
def foreignGrant (s : State) : State :=
  let w : Word := s.args.word.setWidth 64
  if !coreRegOk s w || dwDev w == 0 || logging s s.args.a then s
  else (landGrant s s.args.a (dwCore w) (dwDev w) (s.args.c % 65536) s.args.b).getD s

/-- ALLOW_GRANT_ARRIVE (R193). -/
def execAllowGrantArrive (s : State) : Out :=
  .next (if s.args.flag then foreignGrant s
    else landPacket s s.args.a (fun p s1 =>
      match p.body with
      | .grant dest n t => if logging s p.dst then none else landGrant s1 p.dst dest 0 n t
      | _ => none))

/-! Drips and lanes (R172, R173, R331) -/

/-- The float format of an operand of `n` bytes. -/
def dripFmt (n : Nat) : Fmt := if n = 2 then .fp16 else if n = 4 then .fp32 else .fp64

/-- What a drip leaves in the word, and its flags. -/
def dripOp (op : DripOp) (n : Nat) (rmode : Word) (old y : Nat) : Nat × Flags :=
  let md := modeOf rmode
  let fp (r : FR) : Nat × Flags := (r.bits, r.flags)
  match op with
  | .add => ((old + y) % 2 ^ (8 * n), 0)
  | .band => (old &&& y, 0)
  | .bor | .bor8 => (old ||| y, 0)
  | .min => (pickInt true false n old y, 0)
  | .max => (pickInt true true n old y, 0)
  | .addF => fp (fAdd (dripFmt n) md old y)
  | .minF => fp (fMinMax (dripFmt n) md false old y)
  | .maxF => fp (fMinMax (dripFmt n) md true old y)
  | .addSat8 => (if old + y < 255 then old + y else 255, 0)
  | .minU8 => (if old < y then old else y, 0)
  | .maxU8 => (if old < y then y else old, 0)

/-- Pauses a packet. -/
def pausePacket (s : State) (pid : Nat) : State :=
  { s with net := mapFirst (fun p => p.id == pid) (fun p => { p with paused := true }) s.net }

/-- A drip or a lane at its home: touches, the update, its notification (R173). `s` still holds the packet. One that a discarded pour
left under way is dropped at a page fault: nobody is left to be told (R373, log 80). -/
def landDrip (s : State) (p : Packet) (op : DripOp) (va : Addr) (n : Nat) (val rmode notify : Word) (tenant kind : Nat) :
    State :=
  let a := va.toNat
  let w : Word := va.setWidth 64
  let gone (s : State) : State := dropPacket s p.id
  let pageAt (s1 : State) (x : Nat) : State :=
    if p.src = nobodyKey then gone s1 else engineFault (pausePacket s1 p.id) p.src tenant (BitVec.ofNat 64 x) 6
  let err (s1 : State) (c : BitVec 8) : State :=
    reportTo (gone s1) p.src tenant (fun s => chargeDeferred s p.src { cause := c, val := w, engine := 6, addr := some w })
  let lost (s1 : State) (c : BitVec 8) : State :=
    reportTo (gone s1) p.src tenant (fun s => charge s p.src { cause := c, val := w, engine := 6 })
  match touchAll s tenant a n (.drip p.id) (ctxOf s p.src).gen 0 p.src (homeOf a) (homeCore p.src) with
  | .waits s1 _ _ => pausePacket s1 p.id
  | .failed _ => lost s 0x09
  | .refused _ => lost s 0x0A
  | .page x => pageAt s x
  | .stall => s
  | .error c _ => err s c
  | .pass s1 =>
    match gread s1 tenant a n with
    | .page x => pageAt s1 x
    | .wait => s
    | .error c _ => err s1 c
    | .ok l s2 =>
      let r := dripOp op n rmode (natOfBytes l) (val.toNat % 2 ^ (8 * n))
      match gwrite s2 tenant a (bytesOfNat n r.1) kind p.who with
      | .page x => pageAt s2 x
      | .wait => s
      | .error c _ => err s2 c
      | .ok s3 =>
        let s4 := gone (flagFor s3 p.src r.2)
        if notify = 0 then s4 else postDec s4 p.src notify none (.drip p.src) tenant

/-! Accesses of another device (R166, R382): DRIP_ARRIVE with operand `flag` set. `a` is the length in bytes, `b` the tenant, `c` the
access: 0 a load, 1 a store of `bytes`, 2 a PUBLISH, `3 + k` the update number `k`, whose arrival is of kind `d`; `word` holds the
address [47:0], S[b], S[d] and RMODE, 64 bits each. What it answers goes to the device that asks (log 15). -/

/-- The updates of DRIP, RAST and ATOM in one list (R170, R172, R331). -/
def foreignUpdate (k n : Nat) (rmode : Word) (old y z : Nat) : Option Nat :=
  match ([.add, .band, .bor, .min, .max, .addF, .minF, .maxF, .addSat8, .minU8, .maxU8, .bor8] : List DripOp)[k]? with
  | some op => some (dripOp op n rmode old y).1
  | none =>
    match k with
    | 12 => some (old ^^^ y)
    | 13 => some (pickInt false false n old y)
    | 14 => some (pickInt false true n old y)
    | 15 => some y
    | 16 => if old = z then some y else none
    | _ => none

/-- The block that holds an address is Filled, or in no range. What a touch by another device would start is not said (log 15). -/
def filledAt (s : State) (t va : Nat) : Bool :=
  match rangeAt s t va with
  | none => true
  | some (_, r) =>
    let b := r.blockOf va
    match blockState s t r b with
    | .ok l _ => fieldN (l.headD 0) (2 * (b % 4)) 2 == 2
    | _ => false

/-- What an access of another device does here; one that cannot take place yet comes again (R382). -/
def foreignAccess (s : State) : State :=
  let a := s.args
  let t := a.b
  let n := a.a
  let va := fieldN a.word 0 48
  let put (s1 : State) (at_ : Nat) (l : List Byte) (kind : Nat) : State :=
    match gwrite s1 t at_ l kind (noWho s1) with
    | .ok s2 => s2
    | _ => s
  if n = 0 ∨ 256 < n ∨ !(filledAt s t va && filledAt s t (va + n - 1)) ∨ (farDev s t va).isSome then s
  else
    match gread s t va (if a.c = 2 then 64 else n) with
    | .ok l s1 =>
      match a.c with
      | 0 => s1
      | 1 => put s va (a.bytes.take n) farKind
      | 2 =>
        match flipPair t va l (noWho s1) s1 with
        | .ok _ s2 => if pairBad l then s else s2
        | _ => s
      | k + 3 =>
        let v (i : Nat) : Nat := fieldN a.word (64 * i) 64 % 2 ^ (8 * n)
        match foreignUpdate k n (BitVec.ofNat 64 (fieldN a.word 192 64)) (natOfBytes l) (v 1) (v 2) with
        | some x => put s1 va (bytesOfNat n x) (a.d % 3)
        | none => s1
    | _ => s

/-- DRIP_ARRIVE (R173, R331). A cut does not hold it back (R212). -/
def execDripArrive (s : State) : Out :=
  if s.args.flag then .next (foreignAccess s)
  else
    match arriving s s.args.a with
    | some p =>
      match p.body with
      | .drip op va n val rmode notify t kind => .next (if p.paused then s else landDrip s p op va n val rmode notify t kind)
      | _ => .next s
    | none => .next s

/-! Migration (R174 to R176) -/

/-- A context of a pour that runs; a cut keeps its migration under way (R213), but for a drain handler's (R300). -/
def mayMove (s : State) (key : Nat) : Bool := mayIssue s { getCtx s key with stopped := false }

/-- MIGRATION_ARRIVE: home, a context takes its own slot; elsewhere it joins the arrival queue (R176). A core that is
switched off powers up first (R366). -/
def execMigrationArrive (s : State) : Out :=
  .next (landPacket s s.args.a (fun p s1 =>
    match p.body with
    | .migrate key =>
      if !mayMove s key || !(getCore s p.dst).powered then none
      else if p.dst = homeCore key then some (reachHome s1 key)
      else
        some (updCore (updCtx s1 key (fun c => { c with place := .queued p.dst })) p.dst
          (fun c => { c with arrivals := c.arrivals ++ [key] }))
    | _ => none))

/-- The head of a core's arrival queue may enter (R176). -/
def admissible (s : State) (core : Nat) : Option (Nat × Nat × List Nat) :=
  let c := getCore s core
  match c.arrivals, freeSlot c with
  | key :: rest, some slot => if mayMove s key then some (key, slot, rest) else none
  | _, _ => none

/-- VISITOR_ADMIT at core `a` (R176). -/
def execVisitorAdmit (s : State) : Out :=
  let core := s.args.a
  match admissible s core with
  | some (key, slot, rest) => .next (enterSlot (updCore s core (fun c => { c with arrivals := rest })) key core slot)
  | none => .next s

end Sys2Proof.Machine
end

