-- ==== Sys2Proof/Machine/Rings.lean ====
section
/-! DEFINITION. The group RING (R238 to R246). -/

namespace Sys2Proof.Machine

/-- A ring's number as TVAL. -/
def ringVal (q : BitVec 4) : Word := q.setWidth 64

/-- The instruction names a defined ring (R241). -/
def ringThen (q : BitVec 4) (k : Ring → State → Out) (s : State) : Out :=
  match getRing s (homeCore s.cx.key) q.toNat with
  | some r => k r s
  | none => trap 0x11 (ringVal q) s

/-- The ring TXWAKE names, and TXWAKE's other fields (R255). -/
def txRing (c : CoreSt) : Nat := fieldN c.txwake 60 4
def txEn (c : CoreSt) : Bool := bitN c.txwake 59
def txBs (c : CoreSt) : Bool := bitN c.txwake 58
def txThr (c : CoreSt) : Nat := fieldN c.txwake 49 9
def txEntry (c : CoreSt) : Nat := 4 * fieldN c.txwake 2 46

/-- A ring is in use (R241). -/
def ringInUse (s : State) (core q : Nat) : Bool :=
  let c := getCore s core
  (ringBound s core q).isSome || (c.mq ++ c.mstall).any (fun o => o.rings.contains q) || (txEn c && txRing c == q) 
    || s.cores.any (fun k => k.2.cq.any (fun o => o.targets.contains (core, q)))

/-- The ring RDEF makes (R242). -/
def newRing (x y : Word) : Ring := { base := x.toNat, slog := fieldN y 0 5, count := fieldN y 8 9 }

/-- S[b] of RDEF is wrong (R238, R242). -/
def rdefBadB (y : Word) : Bool :=
  let slog := fieldN y 0 5
  let count := fieldN y 8 9
  (y &&& ~~~0x1FF1F) != 0 || decide (slog < 6) || decide (16 < slog) || decide (count < 2) || decide (256 < count)

/-- S[a] of RDEF is wrong (R238, R242). -/
def rdefBadA (size : Nat) (x y : Word) : Bool :=
  let slot := 2 ^ fieldN y 0 5
  decide (2 ^ 32 ≤ x.toNat) || x.toNat % slot != 0 || decide (size < x.toNat + fieldN y 8 9 * slot)

/-- RDEF (R242). -/
def execRdef (q : BitVec 4) (a b : BitVec 5) (s : State) : Out :=
  let x := rs s a
  let y := rs s b
  let core := homeCore s.cx.key
  homeOnly (encode (.rdef q a b))
    (failIf (rdefBadB y) 0x02 y
      (failIf (rdefBadA (scratchSize (getCore s core)) x y) 0x02 x
        (failIf (ringInUse s core q.toNat) 0x11 (ringVal q)
          (fun s => done (setRing s core q.toNat (newRing x y)))))) s

/-- A count of slots to wait for (R242). -/
def waitBad (r : Ring) (n : Nat) : Bool := n == 0 || decide (r.count < n)

/-- RWAITF (R13, R242, R243). -/
def execRwaitf (q : BitVec 4) (b : BitVec 5) (s : State) : Out :=
  let n := (rs s b).toNat
  homeOnly (encode (.rwaitf q b))
    (metThen (fun _ => done) (ringThen q (fun r => failIf (waitBad r n) 0x11 (ringVal q)
      (fun s => if n ≤ r.filled then done s else waitFor (.ringFilled q.toNat n) s)))) s

/-- RWAITE (R13, R242, R243). -/
def execRwaite (q : BitVec 4) (b : BitVec 5) (s : State) : Out :=
  let n := (rs s b).toNat
  homeOnly (encode (.rwaite q b))
    (metThen (fun _ => done) (ringThen q (fun r => failIf (waitBad r n) 0x11 (ringVal q)
      (fun s => if n ≤ r.empty then done s else waitFor (.ringEmpty q.toNat n) s)))) s

/-- RADVH and RADVT (R242, R243); RADVT is a release (R165). -/
def radv (head : Bool) (wd : W32) (q : BitVec 4) (b : BitVec 5) (s : State) : Out :=
  let n := (rs s b).toNat
  let core := homeCore s.cx.key
  homeOnly wd
    (ringThen q (fun r =>
      failIf (decide ((if head then r.filled else r.empty) < n) || streamEnd s core q.toNat head) 0x11 (ringVal q)
        (fun s =>
          let adv (s : State) : Out := done (setRing s core q.toNat (r.adv head n))
          if head then adv s else releaseThen adv s))) s

/-- RADVH. -/
def execRadvh (q : BitVec 4) (b : BitVec 5) (s : State) : Out := radv true (encode (.radvh q b)) q b s

/-- RADVT. -/
def execRadvt (q : BitVec 4) (b : BitVec 5) (s : State) : Out := radv false (encode (.radvt q b)) q b s

/-- A counter and the offset of its slot (R242). -/
def slotWord (r : Ring) (c : Nat) : Word := BitVec.ofNat 64 (c * 2 ^ 32 + r.slotOff c % 2 ^ 32)

/-- RHEAD (R242). -/
def execRhead (d : BitVec 5) (q : BitVec 4) (s : State) : Out :=
  homeOnly (encode (.rhead d q)) (ringThen q (fun r s => done (ws s d (slotWord r r.head)))) s

/-- RTAIL (R242). -/
def execRtail (d : BitVec 5) (q : BitVec 4) (s : State) : Out :=
  homeOnly (encode (.rtail d q)) (ringThen q (fun r s => done (ws s d (slotWord r r.tail)))) s

/-- The binding S[b] describes (R244). -/
def bindOf (q : BitVec 4) (y : Word) : Bind :=
  { ring := q.toNat, out := bitN y 48, stride := fieldN y 0 32, perSlot := fieldN y 32 16 }

/-- The register is v14 or v15 (R244). -/
def isStreamReg (v : BitVec 4) : Bool := v == 14 || v == 15

/-- RBIND (R244): what S[b] shows alone, then the ring, then its slot's size, then what is bound already. -/
def execRbind (v q : BitVec 4) (b : BitVec 5) (s : State) : Out :=
  let y := rs s b
  let n := bindOf q y
  let core := homeCore s.cx.key
  homeOnly (encode (.rbind v q b))
    (failIf (!isStreamReg v) 0x02 (v.setWidth 64)
      (failIf (fieldN y 49 15 != 0 || n.stride % 4 != 0 || n.perSlot == 0) 0x02 y
        (ringThen q (fun r => failIf (decide (2 ^ r.slog < (n.perSlot - 1) * n.stride + 256)) 0x02 y
          (failIf ((ringBound s core q.toNat).isSome || (bound s v).isSome) 0x11 (ringVal q)
            (fun s => done (updCx s (fun c => { c with binds := tput c.binds v.toNat n })))))))) s

/-- RUNBIND (R245); an unbound register traps with its number. -/
def execRunbind (v : BitVec 4) (s : State) : Out :=
  homeOnly (encode (.runbind v))
    (failIf (bound s v).isNone 0x11 (v.setWidth 64)
      (fun s => done (updCx s (fun c => { c with binds := tdel c.binds v.toNat })))) s

end Sys2Proof.Machine
end

