-- ==== Sys2Proof/Machine/Matrix.lean ====
section
/-! DEFINITION. The MMA group and the group MSYS at issue (R262, R264 to R269, R271, R275, R276, R280, R281). -/

namespace Sys2Proof.Machine

/-! The checks of R269 -/

/-- A check that failed: cause, TVAL, Extra. -/
structure MFail where
  cause : BitVec 8
  val : Word
  extra : Nat := 0
deriving DecidableEq, Repr

/-- The operation multiplies: MMA, MMAJ or MMAS. -/
def MKind.mul : MKind → Bool
  | .mma | .mmaj | .mmas => true
  | _ => false

/-- A scaled-array format a matrix operand may have (R266). -/
def mxCode (f : Nat) : Bool := f == 13 || f == 14 || f == 15

/-- A scale handle breaks R266. -/
def scaleBad (q : Nat) (mx rings : Bool) : Bool := if mx && rings then decide (15 < q) else q != 0xFF

/-- The record breaks a limit at a byte offset (R264, R266, R273, R277): the fields with their faults, by offset. -/
def fieldFaults (kind : MKind) (drain : Bool) (r : Shape) : List (Nat × Bool) :=
  let mul := kind.mul
  let a := mul && suppliesA kind r
  let b := suppliesB kind r
  let xa := a && mxCode r.fmtA
  let xb := b && mxCode r.fmtB
  let xd := kind == .msta && mxCode (fmtOf r.dest)
  [(0, r.m < 1 || 128 < r.m),
   (2, r.n < 1 || (if r.fmtAcc = 9 then 64 else 128) < r.n || (xd && r.n % 32 != 0)),
   (4, mul && r.k == 0),
   (6, mul && decide (19 < r.fmtA)),
   (7, mul && decide (19 < r.fmtB)),
   (8, r.fmtAcc != 4 && r.fmtAcc != 8 && r.fmtAcc != 9),
   (9, decide (64 ≤ r.flags) || (xa && r.colA) || (xb && r.rowB)),
   (10, xa && r.strideA != 1),
   (12, xa && r.offA % 32 != 0),
   (14, xb && r.strideB != 1),
   (16, xb && r.offB % 32 != 0),
   (18, (xa && r.lda % 32 != 0) || (xd && r.lda != r.n)),
   (20, xb && r.ldb % 32 != 0),
   (22, a && scaleBad r.qsa xa r.ringScales),
   (23, (b && scaleBad r.qsb xb r.ringScales) || (kind == .mmas && r.qsb != 0xFF)),
   (24, drain && (r.drain == 0 || r.drain % 4 != 0)),
   (32, mul && (if kind == .mmaj then r.jcount < 2 || 6 < r.jcount else r.jcount != 1)),
   (33, kind == .mmaj && (decide (32 ≤ r.jrole) || (r.gr != 1 && r.gr != 2) || decide (r.jcount ≤ r.role)
     || r.jcount % r.gr != 0 || decide (3 < r.gc))),
   (36, r.at_ 36 4 != 0),
   (48, r.at_ 48 16 != 0)]

/-- The byte offset of the first faulty field. -/
def badField (kind : MKind) (drain : Bool) (r : Shape) : Option Nat :=
  ((fieldFaults kind drain r).find? (fun f => f.2)).map Prod.fst

/-- The combinations of R268. -/
def comboOk (kind : MKind) (a b acc : Nat) : Bool :=
  if kind == .mmas then acc == 8 && b == 19 && (a == 7 || a == 10 || a == 11 || a == 13 || a == 14)
  else if acc == 9 then a == 9 && b == 9
  else if acc == 4 then a == 1 && b == 1
  else
    match a with
    | 12 => b == 12
    | 15 => b == 15
    | 10 | 11 => b == 10 || b == 11
    | 13 | 14 => b == 13 || b == 14
    | 7 => b == 7
    | 6 => b == 6
    | 16 => b == 10 || b == 13 || b == 7
    | _ => false

/-- The element indices of R265. -/
def Shape.ia (r : Shape) (m k : Nat) : Nat :=
  r.offA + (if r.colA then k * r.lda + m * r.strideA else m * r.lda + k * r.strideA)
def Shape.ib (r : Shape) (k n : Nat) : Nat :=
  r.offB + (if r.rowB then k * r.ldb + n * r.strideB else n * r.ldb + k * r.strideB)

/-- Bytes of a block group (R50). -/
def groupBytes (code : Nat) : Nat := if code = 15 then 136 else 264

/-- Bytes of a slot that an element with those below it takes (R42, R50, R266). -/
def elemEnd (code : Nat) (packed : Bool) (i : Nat) : Nat :=
  let b := codeBits code
  if mxCode code && !packed then
    i / 256 * groupBytes code + 8 + (if b = 4 then i % 256 / 2 else i % 256) + 1
  else if b = 4 then i / 2 + 1
  else (i + 1) * (b / 8)

/-- Scale bytes along K (R266). -/
def Shape.kb (r : Shape) : Nat := (r.k + 31) / 32

/-- A list of ring handles, the first undefined one (R241). -/
def undefinedRing (s : State) (core : Nat) (qs : List Nat) : Option Nat := qs.find? (fun q => (getRing s core q).isNone)

/-- The reads of R267 overrun a slot: Extra of the first. `qa` and `qb` are none where MCHK makes no check. -/
def overrun (s : State) (core : Nat) (kind : MKind) (qa qb : Option Nat) (r : Shape) : Option Nat :=
  let slot (q : Nat) : Nat := ((getRing s core q).map (fun g => 2 ^ g.slog)).getD 0
  if suppliesA kind r && qa.any (fun q => slot q < elemEnd r.fmtA r.ringScales (r.ia (r.m - 1) (r.k - 1))) then some 12
  else if suppliesB kind r && qb.any (fun q => slot q < elemEnd r.fmtB r.ringScales (r.ib (r.k - 1) (r.n - 1))) then some 16
  else if suppliesA kind r && r.qsa != 0xFF && decide (slot r.qsa < r.m * r.kb) then some 22
  else if suppliesB kind r && r.qsb != 0xFF && decide (slot r.qsb < r.n * r.kb) then some 22
  else none

/-- The rings the instruction names, as far as they are checked (R269, R280). -/
def namedRings (kind : MKind) (qa qb : Option Nat) (r : Shape) : List Nat :=
  (if suppliesA kind r then qa.toList else []) ++ (if suppliesB kind r then qb.toList else [])
    ++ (if suppliesA kind r && r.qsa != 0xFF then [r.qsa] else [])
    ++ (if suppliesB kind r && r.qsb != 0xFF then [r.qsb] else [])

/-- Bits of an element in memory at dest (R42, R272, R273). -/
def destBits (r : Shape) : Nat :=
  let f := fmtOf r.dest
  if f = 0 then (if r.fmtAcc = 9 then 64 else 32) else codeBits f

/-- Bytes from dest to the end of its M rows (R269, R273). -/
def destBytes (r : Shape) : Nat :=
  let f := fmtOf r.dest
  if mxCode f then (r.m * r.n + 255) / 256 * groupBytes f else (((r.m - 1) * r.lda + r.n) * destBits r + 7) / 8

/-- The format of dest is refused (R40, R272, R273); a reserved code breaks R41 instead. -/
def destRefused (kind : MKind) (f : Nat) : Bool := f == 19 || f == 16 || f == 17 || (kind == .mlda && mxCode f)

/-- The checks of dest, the refused format first (R269 step 5, R284). The window's own checks are made here as well
(R143, log 71). -/
def destFault (s : State) (kind : MKind) (segs : Vector Seg 8) (r : Shape) : Option MFail :=
  let f := fmtOf r.dest
  let align := if mxCode f then 8 else elemBytes (destBits r)
  let fail (c : BitVec 8) : Option MFail := some { cause := c, val := r.dest }
  let w := kind == .msta
  if destRefused kind f then fail 0x02
  else if !tagOk r.dest then fail 0x07
  else if offOf r.dest % align != 0 then fail 0x06
  else
    match segCheck (vget segs r.seg {}) (offOf r.dest) (destBytes r) (if w then rightW else rightR) w with
    | .error c => fail c
    | .ok (.win wa) => (winCheck s s.cx.pour s.cx.tenant.toNat wa (destBytes r) w).bind fail
    | .ok (.glob _) => none

/-- Reads the record of an operation. -/
def shapeAt (s : State) (core off : Nat) : Shape := BitVec.ofNat 512 (natOfBytes (rdScratch s core off 64))

/-- Steps 1 to 5 of R269. -/
def shapeFault (s : State) (kind : MKind) (qa qb : Option Nat) (drain : Bool) (v : Word) : Option MFail :=
  let core := homeCore s.cx.key
  if kind == .mzero then none
  else if v.toNat % 64 != 0 || decide (scratchSize (getCore s core) < v.toNat + 64) then some { cause := 0x13, val := v }
  else
    let r := shapeAt s core v.toNat
    match badField kind drain r with
    | some o => some { cause := 0x13, val := v, extra := o }
    | none =>
      if !kind.mul then destFault s kind s.cx.g r
      else if !comboOk kind r.fmtA r.fmtB r.fmtAcc then some { cause := 0x02, val := v }
      else
        match undefinedRing s core (namedRings kind qa qb r) with
        | some q => some { cause := 0x11, val := BitVec.ofNat 64 q }
        | none => (overrun s core kind qa qb r).map (fun x => { cause := 0x13, val := v, extra := x })

/-! Issue (R262) -/

/-- The context handles a row of an operation that is still queued (R269 step 6, R274). -/
def isHandler (s : State) : Bool :=
  s.cx.row.any (fun r => (getCore s (homeCore s.cx.key)).mq.any (fun o => o.id == r.1))

/-- The operation an instruction puts into the queue. -/
def newMOp (s : State) (kind : MKind) (acc : BitVec 2) (qa qb : BitVec 4) (mods : BitVec 8) (v : Word) : MOp :=
  let c := s.cx
  { id := s.nextId, kind := kind, acc := acc.toNat, qa := qa.toNat, qb := qb.toNat, mods := mods, recOff := v
    shape := if kind == .mzero then 0 else shapeAt s (homeCore c.key) v.toNat
    segs := c.g, rmode := c.rmode, key := c.key, pour := c.pour, tenant := c.tenant.toNat, gen := c.gen }

/-- The wait of an operation of a context: for an entry of the queue, In flight; without GO for the operation (R262). It is
taken up again after it was abandoned (R203, R215). -/
def againMat (id : Nat) (go : Bool) (s : State) : Out :=
  if s.cores.any (fun c => c.2.mstall.any (fun o => o.id == id)) then stallFor (.matrixQueue id) s
  else if !go && s.cores.any (fun c => c.2.mq.any (fun o => o.id == id)) then waitEvent (.matrixOp id) s
  else done (updCx s (fun c => { c with mopAt := none }))

/-- The queue takes the operation as it was read at issue, behind those that wait for an entry; with GO the instruction
completes then, else it waits for the operation (R262, R264). -/
def enqueueMat (o : MOp) (s : State) : Out :=
  let core := homeCore s.cx.key
  let s1 := updCore { s with nextId := s.nextId + 1 } core (fun c => { c with mstall := c.mstall ++ [o] }.takesIn)
  let s2 := updCx s1 (fun c => { c with mopAt := some (o.id, c.pc) })
  if (getCore s1 core).mstall ≠ [] then stallFor (.matrixQueue o.id) s2
  else if modGo o.mods then done (updCx s1 (fun c => { c with mopAt := none }))
  else waitEvent (.matrixOp o.id) s2

/-- An instruction of the MMA group (R262, R269). -/
def matrixIssue (wd : W32) (kind : MKind) (acc : BitVec 2) (qa qb : BitVec 4) (sh : BitVec 5) (mods : BitVec 8) (s : State) :
    Out :=
  homeOnly wd (fun s =>
    match mopHere s.cx with
    | some id => againMat id (modGo mods) s
    | none =>
      let v := rs s sh
      match shapeFault s kind (some qa.toNat) (some qb.toNat) (modDrain mods) v with
      | some f => trapX f.cause f.val (BitVec.ofNat 32 f.extra) s
      | none =>
        failIf (isHandler s) 0x03 (wd.setWidth 64) (fun s => enqueueMat (newMOp s kind acc qa qb mods v) s) s) s

/-- The modifier bits as R100 places them. -/
def modBits (n e z g r k j t : Bool) : BitVec 8 :=
  BitVec.ofNat 8 (128 * b2n n + 64 * b2n e + 32 * b2n z + 16 * b2n g + 8 * b2n r + 4 * b2n k + 2 * b2n j + b2n t)

/-- MMA. -/
def execMma (c : BitVec 2) (a b : BitVec 4) (sh : BitVec 5) (n e z g r k j t : Bool) (s : State) : Out :=
  matrixIssue (encode (.mma c a b sh n e z g r k j t)) .mma c a b sh (modBits n e z g r k j t) s

/-- MMAJ (R277). -/
def execMmaj (c : BitVec 2) (a b : BitVec 4) (sh : BitVec 5) (n e z g r k j t : Bool) (s : State) : Out :=
  matrixIssue (encode (.mmaj c a b sh n e z g r k j t)) .mmaj c a b sh (modBits n e z g r k j t) s

/-- MMAS (R290). -/
def execMmas (c : BitVec 2) (a : BitVec 4) (sh : BitVec 5) (n z g r k t : Bool) (s : State) : Out :=
  matrixIssue (encode (.mmas c a sh n z g r k t)) .mmas c a 0 sh (modBits n false z g r k false t) s

/-- MLDA (R272). -/
def execMlda (c : BitVec 2) (sh : BitVec 5) (g : Bool) (s : State) : Out :=
  matrixIssue (encode (.mlda c sh g)) .mlda c 0 0 sh (modBits false false false g false false false false) s

/-- MSTA (R273). -/
def execMsta (c : BitVec 2) (sh : BitVec 5) (g r : Bool) (s : State) : Out :=
  matrixIssue (encode (.msta c sh g r)) .msta c 0 0 sh (modBits false false false g r false false false) s

/-- MZERO (R271). -/
def execMzero (c : BitVec 2) (g : Bool) (s : State) : Out :=
  matrixIssue (encode (.mzero c g)) .mzero c 0 0 0 (modBits false false false g false false false false) s

/-! MSYS (R275, R280) -/

/-- MWAIT (R280). -/
def execMwait (s : State) : Out :=
  homeOnly (encode .mwait) (fun s => if matrixBusy s s.cx.key then waitFor .matrixAll s else done s) s

/-- Rows of the operation at the head that wait for a handler (R280). -/
def rowsWaiting (q : List MOp) : Nat :=
  match q with
  | o :: _ => (o.rows.filter (fun r => o.phase == .draining && r.st == .waiting)).length
  | [] => 0

/-- The word MSTAT returns (R280). -/
def mstatWord (q : List MOp) (own : Nat) : Word :=
  let rows := rowsWaiting q
  BitVec.ofNat 64 (own % 16 + 16 * (q.length % 16) + 256 * (if rows < 255 then rows else 255))

/-- Operations of a context in the queues: those it issued before it was restored elsewhere too (R209). -/
def ownOps (s : State) (key : Nat) : Nat := ((s.cores.flatMap (fun c => c.2.mq)).filter (fun o => o.key == key)).length

/-- MSTAT (R280). -/
def execMstat (d : BitVec 5) (s : State) : Out :=
  homeOnly (encode (.mstat d))
    (fun s => done (ws s d (mstatWord (getCore s (homeCore s.cx.key)).mq (ownOps s s.cx.key)))) s

/-- Bits of an element of an operation's tile (R260). -/
def MOp.width (o : MOp) : Nat := if o.shape.fmtAcc = 9 then 64 else 32

/-- The first N columns of a row, the others zero (R275). -/
def MOp.cut (o : MOp) (row : BitVec 4096) : BitVec 4096 := BitVec.ofNat 4096 (row.toNat % 2 ^ (o.width * o.shape.n))

/-- The operation and the row a drain handler holds. -/
def heldRow (s : State) : Option (MOp × DrainRow) :=
  match s.cx.row with
  | some (op, some m) =>
    ((getCore s (opCore s op)).mq.find? (fun o => o.id == op)).bind
      (fun o => (o.rows.find? (fun r => r.m == m)).map (fun r => (o, r)))
  | _ => none

/-- A context that holds no row traps 0x03 (R275). -/
def rowThen (wd : W32) (k : MOp → DrainRow → State → Out) (s : State) : Out :=
  match heldRow s with
  | some x => homeOnly wd (k x.1 x.2) s
  | none => trap 0x03 (wd.setWidth 64) s

/-- DRROW (R275). -/
def execDrrow (d : BitVec 4) (s : State) : Out :=
  rowThen (encode (.drrow d)) (fun o r =>
    vecDo [] [d, d + 1]
      (fun s =>
        let x := o.cut r.data
        wv (wv s d (x.setWidth 2048)) (d + 1) ((x >>> 2048).setWidth 2048))) s

/-- A row is released with its bytes (R275, R276). -/
def releaseRow (s : State) (core op m : Nat) (data : BitVec 4096) : State :=
  updMop s core op (fun o =>
    { o with rows := o.rows.map (fun r => if r.m = m then { r with data := data, st := .released } else r) })

/-- DRDONE, a release (R275). -/
def execDrdone (a : BitVec 4) (s : State) : Out :=
  rowThen (encode (.drdone a)) (fun o r s =>
    vecThen [a, a + 1] []
      (releaseThen (fun s =>
        let x : BitVec 4096 := (vsrc s a).setWidth 4096 ||| ((vsrc s (a + 1)).setWidth 4096 <<< 2048)
        let s1 := releaseRow (commitIn [a, a + 1] s) (opCore s o.id) o.id r.m (o.cut x)
        done (updCx s1 (fun c => { c with row := some (o.id, none) })))) s) s

/-- The kind of a minor of the MMA group. -/
def kindOf (n : Nat) : MKind :=
  match n with
  | 0 => .mma
  | 1 => .mmaj
  | 2 => .mmas
  | 3 => .mlda
  | 4 => .msta
  | _ => .mzero

/-- MCHK (R280, R281). -/
def execMchk (d a n : BitVec 5) (s : State) : Out :=
  homeOnly (encode (.mchk d a n))
    (failIf (decide (5 < n.toNat)) 0x02 (n.setWidth 64)
      (fun s =>
        let r := shapeFault s (kindOf n.toNat) none none false (rs s a)
        done (ws s d ((r.map (fun f => BitVec.ofNat 64 (f.cause.toNat + 256 * f.extra))).getD 0)))) s

end Sys2Proof.Machine
end

