-- ==== Sys2Proof/Machine/Engine.lean ====
section
/-! DEFINITION. Accesses of the engines of a core: they pause at a page fault or at a block that is filling, and report
errors to their operation (R146, R303, R308, R253, R282). -/

namespace Sys2Proof.Machine

/-- An engine's work: the core whose engine does it, the operation, the context it works for. -/
structure Job where
  core : Nat
  key : Nat
  pour : Nat
  tenant : Nat
  gen : Option GenHold
  who : Req
  eng : BitVec 8
deriving DecidableEq, Repr

/-- Why an access of an engine failed: cause, generator code, address (R253, R282, R308). -/
structure EFail where
  cause : BitVec 8
  code : BitVec 32 := 0
  addr : Nat
deriving DecidableEq, Repr

/-- What an engine's access answers. `paused`: the work waits, at an address, for a resume kettle or for
a fill. `later`: it is tried again. -/
inductive EOut (α : Type) where
  | ok (a : α) (s : State)
  | paused (at_ : Nat) (s : State)
  | later
  | fail (f : EFail) (s : State)

/-- What follows a successful access. -/
def EOut.then {α β : Type} (x : EOut α) (k : α → State → EOut β) : EOut β :=
  match x with
  | .ok a s => k a s
  | .paused a s => .paused a s
  | .later => .later
  | .fail f s => .fail f s

/-- A page fault of engine work: the upcall, and the work pauses (R146). -/
def enginePage {α : Type} (j : Job) (va : Nat) (s : State) : EOut α :=
  .paused va (engineFault s j.key j.tenant (BitVec.ofNat 64 va) j.eng)

/-- The touches of an engine's global access (R303, R305): it stands on its core, its depth is 0. -/
def engineTouch (j : Job) (va n : Nat) (s : State) : EOut Unit :=
  match touchAll s j.tenant va n j.who j.gen 0 j.key j.core (homeCore j.key) with
  | .pass s1 => .ok () s1
  | .waits s1 r b =>
    .paused (match tget (getTenant s j.tenant).ranges r with
      | some g => if va < g.blockVa b then g.blockVa b else va
      | none => va) s1
  | .failed a => .fail { cause := 0x09, addr := a } s
  | .refused a => .fail { cause := 0x0A, addr := a } s
  | .page a => enginePage j a s
  | .stall => .later
  | .error c a => .fail { cause := c, addr := a } s

/-- Checks of an engine's window access (R143). One that is refused names the first byte that is (R253). -/
def engineWin (j : Job) (wa n : Nat) (write : Bool) (s : State) : EOut Unit :=
  match winCheck s j.pour j.tenant wa n write with
  | some c =>
    .fail { cause := c, addr := ((upFrom wa n).find? (fun a => (winCheck s j.pour j.tenant a 1 write).isSome)).getD wa } s
  | none =>
    match winWait s wa write with
    | some _ => .later
    | none => .ok () s

/-- A read of an engine. -/
def eRead (j : Job) (t : Tgt) (n : Nat) (s : State) : EOut (List Byte) :=
  match t with
  | .win wa => (engineWin j wa n false s).then (fun _ s1 => .ok (winRead s1 wa n) s1)
  | .glob va =>
    (engineTouch j va n s).then (fun _ s1 =>
      match gread s1 j.tenant va n with
      | .ok l s2 => .ok l s2
      | .page a => enginePage j a s1
      | .wait => .later
      | .error c a => .fail { cause := c, addr := a } s1)

/-- The way of an engine's write, without the write: it finds everything that would pause or fail it. -/
def eProbe (j : Job) (t : Tgt) (n : Nat) (s : State) : EOut Unit :=
  match t with
  | .win wa => engineWin j wa n true s
  | .glob va =>
    (engineTouch j va n s).then (fun _ s1 =>
      let go (r : EOut Unit) (b : Nat × Nat) : EOut Unit := r.then (fun _ s2 =>
        match gpath s2 j.tenant (b.1 % 2 ^ 48) true (b.2 == 256) with
        | .ok _ s3 => .ok () s3
        | .far => .ok () s2
        | .page => enginePage j (b.1 % 2 ^ 48) s2
        | .wait => .later
        | .error c => .fail { cause := c, addr := b.1 % 2 ^ 48 } s2)
      (blocksOf va n).foldl go (.ok () s1))

/-- A write of an engine that eProbe let pass. -/
def eWrite (j : Job) (t : Tgt) (l : List Byte) (s : State) : State :=
  match t with
  | .win wa => winWrite s j.key wa l
  | .glob va =>
    match gwrite s j.tenant va l 3 (keyOf j.core (homeIdx j.key)) with
    | .ok s1 => s1
    | _ => s

/-- The job of a matrix operation. -/
def MOp.job (o : MOp) (core : Nat) (eng : BitVec 8) : Job :=
  { core := core, key := o.key, pour := o.pour, tenant := o.tenant, gen := o.gen, who := .mat core o.id, eng := eng }

/-- The job of a copy. -/
def COp.job (o : COp) (core : Nat) : Job :=
  { core := core, key := o.key, pour := o.pour, tenant := o.tenant, gen := o.gen, who := .copy core o.id, eng := 3 }

end Sys2Proof.Machine
end

