-- ==== Sys2Proof/Machine/Seed.lean ====
section
/-! DEFINITION. Seed records and the group SEED (R51, R285 to R298). -/

namespace Sys2Proof.Machine

/-! The generator (R285) -/

/-- One step. -/
def lfsrStep (x : W32) : W32 := (x >>> 1) ^^^ (if x &&& 1 = 1 then 0x8020_0003 else 0)

/-- The low bit of a state. -/
def lfsrBit (x : W32) : Bool := x &&& 1 == 1

/-- The state after `n` steps. -/
def lfsrAfter : Nat → W32 → W32
  | 0, x => x
  | n + 1, x => lfsrAfter n (lfsrStep x)

/-- The first `n` outputs of a state: Gen(x, 0), Gen(x, 1), ... -/
def lfsrBits : Nat → W32 → List Bool
  | 0, _ => []
  | n + 1, x => lfsrBit x :: lfsrBits n (lfsrStep x)

/-! Records (R286, R287) -/

/-- A valid record: its coefficients are BF16 codes, j·G + g. -/
structure SeedRec where
  k : Nat
  n : Nat
  j : Nat
  seeds : List W32
  coefs : List Nat
deriving DecidableEq, Repr

/-- Column groups, and the size of a record (R286). -/
def seedGroups (n : Nat) : Nat := (n + 15) / 16
def seedSize (n j : Nat) : Nat := 16 + 4 * j + 2 * j * seedGroups n

/-- The finished record's MAGIC, and the claim of SREC (R286). -/
def seedMagic : Nat := 0x5EED_0E9A
def seedClaim : Nat := 0xFFFF_FFFF

/-- A field of the bytes that may be read. -/
def recField (l : List Byte) (o n : Nat) : Option Nat := if l.length < o + n then none else some (natOfBytes ((l.drop o).take n))

/-- One check of R287: reason and index of its failure; a field that passes the limit gives reason 9. -/
def recNeed (x : Option Nat) (bad : Nat → Bool) (reason index : Nat) : Option (Nat × Nat) :=
  match x with
  | none => some (9, 0)
  | some v => if bad v then some (reason, index) else none

/-- The first failure of a list of checks. -/
def firstFail {α : Type} (l : List (Option α)) : Option α := l.findSome? id

/-- A dimension out of range. -/
def dimBad (hi v : Nat) : Bool := v < 1 || hi < v

/-- Reasons 1 to 6, on the first bytes of a record. -/
def headFault (l : List Byte) : Option (Nat × Nat) :=
  firstFail ([recNeed (recField l 0 4) (fun v => v != seedMagic) 1 0, recNeed (recField l 9 1) (fun v => v != 1) 2 0,
    recNeed (recField l 4 2) (dimBad 128) 3 0, recNeed (recField l 6 2) (dimBad 128) 4 0,
    recNeed (recField l 8 1) (dimBad 16) 5 0]
    ++ (upFrom 10 6).map (fun o => recNeed (recField l o 1) (fun v => v != 0) 6 o))

/-- K, N and J of a header. -/
def headK (l : List Byte) : Nat := (recField l 4 2).getD 0
def headN (l : List Byte) : Nat := (recField l 6 2).getD 0
def headJ (l : List Byte) : Nat := (recField l 8 1).getD 0

/-- A BF16 code is NaN or infinite. -/
def bf16Bad (v : Nat) : Bool := v / 128 % 256 == 255

/-- Reasons 7 to 9, on the record's bytes as far as the limit. -/
def bodyFault (l : List Byte) (n j : Nat) : Option (Nat × Nat) :=
  firstFail ((upFrom 0 j).map (fun i => recNeed (recField l (16 + 4 * i) 4) (fun v => v == 0) 7 i)
    ++ (upFrom 0 (j * seedGroups n)).map (fun i => recNeed (recField l (16 + 4 * j + 2 * i) 2) bf16Bad 8 i))

/-- The record in its bytes. -/
def seedRecOf (l : List Byte) : SeedRec :=
  let n := headN l
  let j := headJ l
  { k := headK l, n := n, j := j
    seeds := (upFrom 0 j).map (fun i => BitVec.ofNat 32 ((recField l (16 + 4 * i) 4).getD 0))
    coefs := (upFrom 0 (j * seedGroups n)).map (fun i => (recField l (16 + 4 * j + 2 * i) 2).getD 0) }

/-- What reading a record gives: the reason and index of R287, or the record. -/
abbrev SeedRead := Except (Nat × Nat) SeedRec

/-- Bytes of a record that are read: none beyond the limit (R287). -/
def recBytes (l : List Byte) (avail : Nat) : Nat := if seedSize (headN l) (headJ l) < avail then seedSize (headN l) (headJ l) else avail

/-- The verdict on a record whose header has passed. -/
def seedVerdict (l : List Byte) : SeedRead :=
  match bodyFault l (headN l) (headJ l) with
  | some f => .error f
  | none => .ok (seedRecOf l)

/-- Coefficient c[j][g]. -/
def SeedRec.coef (r : SeedRec) (j g : Nat) : FVal := Fmt.bf16.value (r.coefs.getD (j * seedGroups r.n + g) 0)

/-- A value with the sign the basis gives it: minus where the output is 1 (R51). -/
def basis (neg : Bool) (v : FVal) : FVal := if neg then negV v else v

/-- An exact zero is +0. -/
def plusZero (v : FVal) : FVal := if v.isZero then .fin false 0 0 else v

/-- An exact sum, +0 for none and for zero: R51 does not give the sign of a W that is zero, so it is the model's choice (log 79). -/
def exactSum (l : List FVal) : FVal := plusZero (sumV .rne l)

/-- W at a flat index, from the outputs of every seed at that index (R51). -/
def SeedRec.weight (r : SeedRec) (i : Nat) (bits : List Bool) : FVal :=
  exactSum ((bits.zip (upFrom 0 r.j)).map (fun x => basis x.1 (r.coef x.2 (i % r.n / 16))))

/-- Outputs of every seed from index `i0`, `n` of them: a list for each seed. -/
def SeedRec.outputs (r : SeedRec) (i0 n : Nat) : List (List Bool) := r.seeds.map (fun x => lfsrBits n (lfsrAfter i0 x))

/-- W at `n` flat indices from `i0` on. -/
def SeedRec.weights (r : SeedRec) (i0 n : Nat) : List FVal :=
  let out := r.outputs i0 n
  (upFrom 0 n).map (fun l => r.weight (i0 + l) (out.map (fun b => b.getD l false)))

/-! Reading a record by an instruction (R288, R291) -/

/-- The pointer checks of R291; `write` for SREC, whose segment must be SEED (R297). -/
def seedThen (ptr : Word) (g : Seg) (write : Bool) (k : Tgt → Nat → State → Out) (s : State) : Out :=
  let off := offOf ptr
  failIf (!tagOk ptr || fmtOf ptr != 19) 0x07 ptr
    (failIf (off % 16 != 0) 0x06 ptr
      (failIf ((g.kind != kGlobal && g.kind != kSeed) || !bitN g.rights rightR || (write && (g.kind != kSeed || !bitN g.rights rightW))) 0x05 ptr
        (failIf (decide (g.limit.toNat < off + 16)) 0x04 ptr (k (g.at_ off) (g.limit.toNat - off))))) s

/-- Reads and judges the record. -/
def recordThen (t : Tgt) (avail : Nat) (ptr : Word) (k : SeedRead → State → Out) (s : State) : Out :=
  readThen t 16 ptr (fun h s =>
    match headFault h with
    | some f => k (.error f) s
    | none => readThen t (recBytes h avail) ptr (fun l => k (seedVerdict l)) s) s

/-- A record that must be valid: otherwise 0x14 with the reason (R291). -/
def validThen (ptr : Word) (r : SeedRead) (k : SeedRec → State → Out) (s : State) : Out :=
  match r with
  | .error f => trapX 0x14 ptr (BitVec.ofNat 32 f.1) s
  | .ok r => k r s

/-- Reading a record by an engine (R288): MMAS and transform SEXP. -/
def eRecord (j : Job) (t : Tgt) (avail : Nat) (s : State) : EOut SeedRead :=
  (eRead j t (if 16 < avail then 16 else avail) s).then (fun h s1 =>
    match headFault h with
    | some f => .ok (.error f) s1
    | none => (eRead j t (recBytes h avail) s1).then (fun l s2 => .ok (seedVerdict l) s2))

/-! The instructions -/

/-- The lanes of SEXP (R292). -/
def sexpLanes (r : SeedRec) (md : Mode) (i0 : Nat) : List FR :=
  let n := r.k * r.n - i0
  (r.weights i0 (if n < 64 then n else 64)).map (fit .fp32 md)

/-- SEXP (R292). -/
def execSexp (d : BitVec 4) (a b : BitVec 5) (g : BitVec 3) (s : State) : Out :=
  let ptr := rs s a
  let i0 := rs s b
  homeOnly (encode (.sexp d a b g))
    (seedThen ptr (rg s g) false (fun t avail => recordThen t avail ptr (fun x => validThen ptr x (fun r =>
      failIf (decide (r.k * r.n ≤ i0.toNat)) 0x02 i0
        (vecDo [] [d] (fun s =>
          let l := sexpLanes r (modeOf s.cx.rmode) i0.toNat
          flag (l.foldl (fun f x => f ||| x.flags) 0) (wv s d (ofElems 32 (l.map FR.bits))))))))) s

/-- A sum of FP32 values under signs, rounded once by RNE; NV, OF and NX as R293 gives them. -/
def signedSum (l : List (Bool × Nat)) : FR :=
  let vs := l.map (fun x => basis x.1 (Fmt.fp32.value x.2))
  let r := deliverV .fp32 .rn vs (snan .fp32 (l.map Prod.snd)) (exactSum vs)
  { r with flags := r.flags &&& (fNV ||| fOF ||| fNX) }

/-- The FP32 tile at a scratchpad offset. -/
def tileAt (s : State) (core off n : Nat) : List Nat :=
  (upFrom 0 n).map (fun i => natOfBytes (rdScratch s core (off + 4 * i) 4))

/-- Offset and extent of a tile in scratchpad (R293, R294). -/
def tileThen (off n : Nat) (k : State → Out) (s : State) : Out :=
  failIf (off % 4 != 0) 0x06 (BitVec.ofNat 64 off)
    (failIf (decide (scratchSize (getCore s (homeCore s.cx.key)) < off + 4 * n)) 0x04 (BitVec.ofNat 64 off) k) s

/-- Score of a candidate (R293). -/
def candScore (tile : List Nat) (u : W32) : FR :=
  if u = 0 then { bits := 0 } else signedSum ((lfsrBits tile.length u).zip tile)

/-- The rank of a score: NaN lies below every number (R293). -/
def scoreRank (bits : Nat) : Nat := if Fmt.fp32.isNan bits then 0 else 1 + bits % 2 ^ 31

/-- The best of the candidates: seed, score, lane (R293). -/
def bestOf : List (Nat × W32 × Nat) → Option (Nat × W32 × Nat)
  | [] => none
  | x :: t =>
    match bestOf t with
    | none => if x.2.1 = 0 then none else some x
    | some y => if x.2.1 = 0 || scoreRank x.2.2 < scoreRank y.2.2 then some y else some x

/-- vd + 1 of SSRCH. -/
def bestLanes (b : Option (Nat × W32 × Nat)) : List Nat :=
  match b with
  | some (l, u, d) => [u.toNat, d, l]
  | none => [0, 0, 64]

/-- SSRCH (R293). -/
def execSsrch (d a : BitVec 4) (b : BitVec 5) (s : State) : Out :=
  let y := rs s b
  let off := fieldN y 0 32
  let k := fieldN y 32 8
  let n := fieldN y 40 8
  homeOnly (encode (.ssrch d a b))
    (failIf (dimBad 128 k || dimBad 128 n || fieldN y 48 16 != 0) 0x02 y
      (tileThen off (k * n) (vecDo [a] [d, d + 1] (fun s =>
        let tile := tileAt s (homeCore s.cx.key) off (k * n)
        let us := tab 64 (fun l => BitVec.ofNat 32 (elem (rv s a) 32 l))
        let ds := us.map (candScore tile)
        let best := bestOf ((upFrom 0 64).zip (us.zip (ds.map FR.bits)))
        flag (ds.foldl (fun f x => f ||| x.flags) 0)
          (wv (wv s d (ofElems 32 (ds.map FR.bits))) (d + 1) (ofElems 32 (bestLanes best))))))) s

/-- The gradient of one group (R294). -/
def groupGrad (r : SeedRec) (tile : List Nat) (bits : List Bool) (g : Nat) : FR :=
  let on := ((upFrom 0 (r.k * r.n)).zip (bits.zip tile)).filter (fun x => x.1 % r.n / 16 == g)
  signedSum (on.map Prod.snd)

/-- SPROJ (R294). -/
def execSproj (d : BitVec 4) (a b : BitVec 5) (g : BitVec 3) (s : State) : Out :=
  let ptr := rs s a
  let y := rs s b
  let off := fieldN y 0 32
  let j := fieldN y 32 4
  homeOnly (encode (.sproj d a b g))
    (seedThen ptr (rg s g) false (fun t avail => recordThen t avail ptr (fun x => validThen ptr x (fun r =>
      failIf (decide (r.j ≤ j) || fieldN y 36 28 != 0) 0x02 y
        (tileThen off (r.k * r.n) (vecDo [] [d] (fun s =>
          let tile := tileAt s (homeCore s.cx.key) off (r.k * r.n)
          let l := tab (seedGroups r.n) (groupGrad r tile (lfsrBits (r.k * r.n) (r.seeds.getD j 0)))
          flag (l.foldl (fun f x => f ||| x.flags) 0) (wv s d (ofElems 32 (l.map FR.bits)))))))))) s

/-- SCHK (R295). -/
def execSchk (d a : BitVec 5) (g : BitVec 3) (s : State) : Out :=
  let ptr := rs s a
  homeOnly (encode (.schk d a g))
    (seedThen ptr (rg s g) false (fun t avail => recordThen t avail ptr (fun x s =>
      done (ws s d (match x with
        | .ok _ => 0
        | .error f => BitVec.ofNat 64 (f.1 % 256 + f.2 % 65536 * 256)))))) s

/-- LFSR (R296). -/
def execLfsr (d a n : BitVec 5) (s : State) : Out :=
  let x : W32 := (rs s a).setWidth 32
  let steps := n.toNat + 1
  let outs := packElems 1 ((lfsrBits steps x).map b2n)
  homeOnly (encode (.lfsr d a n)) (fun s => done (ws s d (BitVec.ofNat 64 ((lfsrAfter steps x).toNat + outs * 2 ^ 32)))) s

/-- The source of SREC in scratchpad: 0x04 when a record of its dimensions passes the end (R297). -/
def srecEnds (l : List Byte) (avail : Nat) : Bool :=
  decide (avail < 16) ||
    (!dimBad 128 (headK l) && !dimBad 128 (headN l) && !dimBad 16 (headJ l) && decide (avail < seedSize (headN l) (headJ l)))

/-- Claim, body and MAGIC of SREC (R297): a failed claim traps 0x05; an error after the claim leaves it. A page fault comes
before anything is written. -/
def srecWrite (va : Nat) (l : List Byte) (ptr : Word) (k : State → Out) (s : State) : Out :=
  let t := s.cx.tenant.toNat
  let who := s.cx.who
  globThen va l.length true ptr (fun s =>
    match gread s t va 4 with
    | .page a => parkFor a 0 s
    | .wait => stallFor .fullService s
    | .error c _ => trap c ptr s
    | .ok m s0 =>
      if natOfBytes m != 0 then trap 0x05 ptr s0
      else
        match gwrite s0 t va (bytesOfNat 4 seedClaim) 1 who with
        | .page a => parkFor a 0 s
        | .wait => stallFor .fullService s
        | .error c _ => trap c ptr s0
        | .ok s1 =>
          match gwrite s1 t (va + 4) (l.drop 4) 3 who with
          | .page a => parkFor a 0 s
          | .wait => stallFor .fullService s
          | .error c _ => trap c ptr s1
          | .ok s2 =>
            match gwrite s2 t va (bytesOfNat 4 seedMagic) 3 who with
            | .page a => parkFor a 0 s
            | .wait => stallFor .fullService s
            | .error c _ => trap c ptr s2
            | .ok s3 => k s3) s

/-- SREC (R297). -/
def execSrec (d a b : BitVec 5) (g : BitVec 3) (s : State) : Out :=
  let ptr := rs s a
  let y := rs s b
  homeOnly (encode (.srec d a b g))
    (seedThen ptr (rg s g) true (fun t avail =>
      (failIf (y.toNat % 16 != 0) 0x06 y
          (fun s =>
            let core := homeCore s.cx.key
            let room := scratchSize (getCore s core) - y.toNat
            let h := rdScratch s core y.toNat (if room < 16 then room else 16)
            failIf (srecEnds h room) 0x04 y
              (fun s =>
                let l := rdScratch s core y.toNat (recBytes h room)
                let x : SeedRead := match headFault h with
                  | some f => .error f
                  | none => seedVerdict l
                validThen y x (fun r =>
                  let size := seedSize r.n r.j
                  failIf (decide (avail < size)) 0x04 ptr
                    (fun s =>
                      match t with
                      | .glob va => srecWrite va (l.take size) ptr (fun s => done (ws s d (BitVec.ofNat 64 size))) s
                      | .win _ => trap 0x05 ptr s)) s) s)))) s

end Sys2Proof.Machine
end

