-- ==== Sys2Proof/Machine/MatrixRun.lean ====
section
/-! DEFINITION. What the matrix unit does with queued operations (R62 to R67, R260, R270 to R274, R277 to R279, R282, R290,
R364): MATRIX_OP_START, MATRIX_OP_COMPLETE, JOIN_COMPUTE_BEGIN and JOIN_ABANDON. An operation takes its operands and its
results at its start, and leaves them in the tile or in memory at its completion; nothing else sees the difference (R261). -/

namespace Sys2Proof.Machine

/-! Operands (R265, R266) -/

/-- Bytes of the head slot of a ring: a byte from its offset. -/
def slotByte (s : State) (core q : Nat) (o : Nat) : Nat :=
  match getRing s core q with
  | some r => (rdB s.mem (winKey (winAddr core 0 (r.slotOff r.head + o)))).toNat
  | none => 0

/-- `n` bytes as a number. -/
def slotNum (rd : Nat → Nat) (o : Nat) : Nat → Nat
  | 0 => 0
  | n + 1 => rd o + 256 * slotNum rd (o + 1) n

/-- The bits of element `i` of an array, from its bytes (R42, R50). `grouped` tells a scaled array with its scales. -/
def elemRaw (rd : Nat → Nat) (code : Nat) (grouped : Bool) (i : Nat) : Nat :=
  let b := codeBits code
  let o := if grouped then i / 256 * groupBytes code + 8 + (if b = 4 then i % 256 / 2 else i % 256)
    else if b = 4 then i / 2 else i * (b / 8)
  if b = 4 then rd o / 16 ^ (i % 2) % 16 else slotNum rd o (b / 8)

/-- The scale byte of element `i` of a scaled array (R50). -/
def groupScale (rd : Nat → Nat) (code i : Nat) : Nat := rd (i / 256 * groupBytes code + i % 256 / 32)

/-- The value of bits of a format code (R43 to R48). -/
def codeValue (code raw : Nat) : FVal :=
  match mxOfCode code with
  | some f => f.value raw
  | none => (readElem code false raw).1.val

/-- The exact value of an operand element (R49, R266): `i` its index, `si` that of its scale in a scale slot. -/
def operandVal (rd rdScale : Nat → Nat) (code : Nat) (ringScales : Bool) (i si : Nat) : FVal :=
  if mxCode code then
    if ringScales then scaled (rdScale si) (codeValue code (elemRaw rd code false i))
    else scaled (groupScale rd code i) (codeValue code (elemRaw rd code true i))
  else codeValue code (elemRaw rd code false i)

/-- The operand A of an operation that core `core` supplies from ring `q`: rows by m, along k. -/
def panelA (s : State) (core q : Nat) (r : Shape) : List (List FVal) :=
  tab r.m (fun m => tab r.k (fun k =>
    operandVal (slotByte s core q) (slotByte s core r.qsa) r.fmtA r.ringScales (r.ia m k) (m * r.kb + k / 32)))

/-- The operand B: columns by n, along k. -/
def panelB (s : State) (core q : Nat) (r : Shape) : List (List FVal) :=
  tab r.n (fun n => tab r.k (fun k =>
    operandVal (slotByte s core q) (slotByte s core r.qsb) r.fmtB r.ringScales (r.ib k n) (n * r.kb + k / 32)))

/-! Accumulation (R62 to R65) -/

/-- Pieces of at most 16 elements. -/
def groups16 {α : Type} : Nat → List α → List (List α)
  | 0, _ => []
  | n + 1, l => if l.isEmpty then [] else l.take 16 :: groups16 n (l.drop 16)

/-- A product; that of a TS8 weight of value zero and a finite number is +0 (R48). That another weight times a zero gives a zero of
the signs' exclusive or is the model's choice (log 79). -/
def prodV (ts : Bool) (x y : FVal) : FVal := if ts && x.isZero && y.isFin then .fin false 0 0 else mulV x y

/-- K-groups of the products of a row and a column. -/
def productGroups (ts neg : Bool) (a b : List FVal) : List (List FVal) :=
  let ps := a.zipWith (fun x y => basis neg (prodV ts x y)) b
  groups16 (ps.length / 16 + 1) ps

/-- The mode of accumulation: RNE, no flush; SAT is the instruction's (R62, R63). -/
def accMode (sat : Bool) : Mode := { sat := sat }

/-- One group: its sum, rounded, then added (R62, R63). -/
def accGroup (f : Fmt) (sat : Bool) (acc : FR) (ps : List FVal) : FR :=
  let md := accMode sat
  let sum := (ps.foldl ESum.add {}).value
  let g := fit f md sum
  let range := fIf (sum.isFin && bitN g.flags 2) fSC
  let x := f.value acc.bits
  let y := f.value g.bits
  let r := deliverV f md [x, y] (snan f [acc.bits]) (addV .rne x y)
  { bits := r.bits, flags := acc.flags ||| g.flags ||| range ||| fIf sum.isNaN fNV ||| r.flags }

/-- One output element of a floating-point tile, from the accumulator's bits (R62). -/
def accElem (f : Fmt) (sat ts neg : Bool) (a b : List FVal) (acc : Nat) : FR :=
  (productGroups ts neg a b).foldl (accGroup f sat) { bits := acc }

/-- The integer of an exact value. -/
def intOfVal : FVal → Int
  | .fin n m e => signed n m * (2 ^ e.toNat : Nat)
  | _ => 0

/-- One output element of an INT32 tile (R64). -/
def accInt (sat neg : Bool) (a b : List FVal) (acc : Nat) : FR :=
  (productGroups false neg a b).foldl (fun x ps =>
    let n := sInt 32 x.bits + (ps.map intOfVal).foldl (fun p q => p + q) 0
    let r := intToInt (accMode sat) 32 true n
    { bits := r.bits, flags := x.flags ||| r.flags }) { bits := acc }

/-- One output element in the accumulator's format. -/
def accAny (fmtAcc : Nat) (sat ts neg : Bool) (a b : List FVal) (acc : Nat) : FR :=
  if fmtAcc = 4 then accInt sat neg a b acc else accElem (if fmtAcc = 9 then .fp64 else .fp32) sat ts neg a b acc

/-- One term of a seeded element (R65). -/
def seedTerm (sat neg : Bool) (a : List FVal) (acc : FR) (term : FVal × List Bool) : FR :=
  let md := accMode sat
  let t := accElem .fp32 sat false neg a (term.2.map (fun b => FVal.fin b 1 0)) 0
  let x := Fmt.fp32.value acc.bits
  let y := Fmt.fp32.value t.bits
  let p := mulV term.1 y
  let r := deliverV .fp32 md [x, p] (snan .fp32 [acc.bits]) (addV .rne x p)
  { bits := r.bits, flags := acc.flags ||| t.flags ||| r.flags ||| fIf (p.isNaN && !y.isNaN) fNV }

/-- One output element of MMAS: its column of every term's basis, ascending (R65, R290). -/
def seedElem (r : SeedRec) (out : List (List Bool)) (sat neg : Bool) (a : List FVal) (n acc : Nat) : FR :=
  let term (x : Nat × List Bool) : FVal × List Bool :=
    (r.coef x.1 (n / 16), tab r.k (fun k => x.2.getD (k * r.n + n) false))
  (((upFrom 0 r.j).zip out).map term).foldl (seedTerm sat neg a) { bits := acc }

/-! Tiles (R260) -/

/-- The window key of a row of a tile. -/
def rowKey (core acc m : Nat) : Nat := winKey (winAddr core 1 (65536 * acc + 512 * m))

/-- Element n of row m of an operation's tile. -/
def tileElem (s : State) (core : Nat) (o : MOp) (m n : Nat) : Nat :=
  rdN s.mem (rowKey core o.acc m + o.width / 8 * n) (o.width / 8)

/-- A row of elements as 512 bytes. -/
def rowData (o : MOp) (l : List Nat) : BitVec 4096 := BitVec.ofNat 4096 (packElems o.width l)

/-- Element n of a row on its way. -/
def rowElem (o : MOp) (d : BitVec 4096) (n : Nat) : Nat := fieldN d (o.width * n) o.width

/-- Rows of results, with their flags. -/
def rowsOf (o : MOp) (f : Nat → Nat → FR) : List DrainRow × Flags :=
  let r := tab o.shape.m (fun m => tab o.shape.n (f m))
  (((upFrom 0 o.shape.m).zip r).map (fun x => { m := x.1, data := rowData o (x.2.map FR.bits) }),
    (r.flatten).foldl (fun fl x => fl ||| x.flags) 0)

/-- What an element accumulates onto (R62). -/
def startAcc (s : State) (core : Nat) (o : MOp) (m n : Nat) : Nat := if modAccz o.mods then 0 else tileElem s core o m n

/-- The rows of MMA or of a participant of MMAJ. -/
def mulRows (s : State) (core : Nat) (o : MOp) (a b : List (List FVal)) : List DrainRow × Flags :=
  rowsOf o (fun m n => accAny o.shape.fmtAcc (modSat o.mods) (o.shape.fmtA == 16) (modNeg o.mods) (a.getD m []) (b.getD n []) (startAcc s core o m n))

/-- The rows of MMAS. -/
def seedRows (s : State) (core : Nat) (o : MOp) (r : SeedRec) : List DrainRow × Flags :=
  let a := panelA s core o.qa o.shape
  let out := r.outputs 0 (r.k * r.n)
  rowsOf o (fun m n => seedElem r out (modSat o.mods) (modNeg o.mods) (a.getD m []) n (startAcc s core o m n))

/-! Faults (R282, R364) -/

/-- An operation that fails, with the cause charged. -/
structure OpFail where
  core : Nat
  op : Nat
  ch : Charge

/-- The join of an operation. -/
def isJoin (o : MOp) (j : Join) : Bool := j.pour == o.pour && j.tag == o.shape.jtag

/-- Cause 0x12 of an abandoned join (R279). -/
def joinCharge (tag role : Nat) : Charge :=
  { cause := 0x12, val := BitVec.ofNat 64 tag, engine := 9, extra := BitVec.ofNat 32 role }

/-- An operation that has left the queue is not waited for any more. A context that waits in its instruction while INH is set
goes on waiting: the cause it is charged with does not wake it (R363). -/
def leaveWait (s : State) (o : MOp) : State :=
  if (getCtx s o.key).mopAt.any (fun m => m.1 == o.id) then updCtx s o.key (fun c => { c with mopAt := none }) else s

/-- Takes operations out of a queue. -/
def dropOps (s : State) (core : Nat) (l : List MOp) : State :=
  l.foldl leaveWait (updCore s core (fun c => { c with mq := c.mq.filter (fun o => l.all (fun x => x.id != o.id)) }.takesIn))

/-- The operations that would take part in a join with a discarded one: on every other core the first MMAJ of its pour and
tag that has not begun to compute (R364). -/
def joinMates (s : State) (core : Nat) (x : MOp) : List (Nat × MOp) :=
  (s.cores.filter (fun c => c.1 != core)).filterMap (fun c =>
    (c.2.mq.find? (fun o => o.kind == .mmaj && o.pour == x.pour && o.shape.jtag == x.shape.jtag
      && (o.phase == .queued || o.phase == .supply))).map (fun o => (c.1, o)))

/-- One failed operation: the cause is charged, later operations of its context are discarded, and the joins of discarded
MMAJ abandon at once, their queued participants among them (R282, R364). -/
def failOp (f : OpFail) (s : State) : State × List OpFail :=
  match (getCore s f.core).mq.find? (fun o => o.id == f.op) with
  | none => (s, [])
  | some o =>
    let later := ((getCore s f.core).mq.dropWhile (fun x => x.id != f.op)).drop 1
    let doomed := later.filter (fun x => x.key == o.key)
    let s1 := dropOps (charge s o.key f.ch) f.core (o :: doomed)
    let lost := doomed.filter (fun x => x.kind == .mmaj)
    let s2 := lost.foldl (fun s x => charge s x.key (joinCharge x.shape.jtag x.shape.role)) s1
    let parts := lost.flatMap (fun x =>
      (joinMates s2 f.core x).map (fun m => { core := m.1, op := m.2.id, ch := joinCharge x.shape.jtag x.shape.role : OpFail }))
    ({ s2 with joins := s2.joins.filter (fun j => !lost.any (fun x => isJoin x j)) }, parts)

/-- Failed operations, and those whose joins they take along. -/
def failOps : Nat → List OpFail → State → State
  | 0, _, s => s
  | _ + 1, [], s => s
  | n + 1, f :: fs, s =>
    let x := failOp f s
    failOps n (fs ++ x.2) x.1

/-- A bound on the number of operations that can fail together. -/
def opBound (s : State) : Nat := 64 + 8 * (s.joins.length + s.cores.length)

/-- A join abandons: every participant that reached its supply phase takes 0x12 (R279). -/
def abandonJoin (s : State) (j : Join) (role : Nat) : State :=
  let s1 := { s with joins := s.joins.filter (fun x => !(x.pour == j.pour && x.tag == j.tag)) }
  failOps (opBound s) (j.parts.map (fun p => { core := p.core, op := p.op, ch := joinCharge j.tag role })) s1

/-- The cause of a failed access of an operation (R282, R308). -/
def accessCharge (f : EFail) (eng : BitVec 8) : Charge :=
  { cause := f.cause, val := BitVec.ofNat 64 f.addr, engine := eng, extra := f.code }

/-- The engine of a record: 5 for a fill that failed under a seeded operation, else 4 (R282, R308). -/
def MOp.eng (o : MOp) (cause : BitVec 8) : BitVec 8 := if o.kind == .mmas && (cause == 0x09 || cause == 0x0A) then 5 else 4

/-- An operation's access fails. -/
def matFail (s : State) (core : Nat) (o : MOp) (ch : Charge) : State := failOps (opBound s) [{ core := core, op := o.id, ch := ch }] s

/-! Starting (R263, R270) -/

/-- The rings an operation waits for are filled (R270, R278). -/
def ringsFilled (s : State) (core : Nat) (o : MOp) : Bool := o.rings.all (fun q => (getRing s core q).any (fun r => 0 < r.filled))

/-- The operation has its results: it drains them, or it is computed (R270, R274). -/
def setRows (s : State) (core : Nat) (o : MOp) (r : List DrainRow × Flags) : State :=
  let ph : MPhase := if modDrain o.mods then .draining else .computed
  let s1 := updMop s core o.id (fun o => { o with phase := ph, rows := r.1, flags := r.2.setWidth 64 })
  if modDrain o.mods then updCore s1 core (fun c => { c with hreqs := c.hreqs ++ r.1.map (fun x => .drain o.id x.m) }) else s1

/-- The operation pauses, in a state that knows what wakes it (R146, R303). -/
def pauseMat (s : State) (core : Nat) (o : MOp) : State := updMop s core o.id (fun o => { o with paused := true })

/-- What an engine access of an operation leads to. -/
def matOut {α : Type} (s : State) (core : Nat) (o : MOp) (x : EOut α) (k : α → State → State) : State :=
  match x with
  | .ok a s1 => k a s1
  | .paused _ s1 => pauseMat s1 core o
  | .later => s
  | .fail f s1 => matFail s1 core o (accessCharge f (o.eng f.cause))

/-- The segment of an operation, and dest in it. -/
def MOp.segment (o : MOp) : Seg := vget o.segs o.shape.seg {}
def MOp.destAt (o : MOp) (byte : Nat) : Tgt := o.segment.at_ (offOf o.shape.dest + byte)

/-- MMAS at its start: reason 10 first, then the record (R287); what it charges names engine 5 (R290). -/
def startSeeded (s : State) (core : Nat) (o : MOp) : State :=
  let p := o.shape.dest
  let g := o.segment
  let bad (reason : Nat) (s : State) : State :=
    matFail s core o { cause := 0x14, val := p, engine := 5, extra := BitVec.ofNat 32 reason }
  if !tagOk p || fmtOf p != 19 || offOf p % 16 != 0 || (g.kind != kGlobal && g.kind != kSeed) || !bitN g.rights rightR then bad 10 s
  else if g.limit.toNat ≤ offOf p then bad 9 s
  else
    matOut s core o (eRecord (o.job core 4) (o.destAt 0) (g.limit.toNat - offOf p) s) (fun x s1 =>
      match x with
      | .error f => bad f.1 s1
      | .ok r => if r.k != o.shape.k || r.n != o.shape.n then bad 11 s1 else setRows s1 core o (seedRows s1 core o r))

/-- Bytes of row m of the block at dest: from, to (R272, R273). -/
def rowSpan (o : MOp) (m : Nat) : Nat × Nat :=
  let b := destBits o.shape
  (m * o.shape.lda * b / 8, ((m * o.shape.lda + o.shape.n) * b + 7) / 8)

/-- Reads the rows of MLDA, each as its bytes. -/
def readRows (o : MOp) (j : Job) : List Nat → State → EOut (List (List Byte))
  | [], s => .ok [] s
  | m :: t, s =>
    let sp := rowSpan o m
    (eRead j (o.destAt sp.1) (sp.2 - sp.1) s).then (fun l s1 => (readRows o j t s1).then (fun r s2 => .ok (l :: r) s2))

/-- The bits of element n of row m in the bytes of the row. -/
def rowRaw (o : MOp) (l : List Byte) (m n : Nat) : Nat :=
  let b := destBits o.shape
  natOfBytes l / 2 ^ ((m * o.shape.lda + n) * b - 8 * (rowSpan o m).1) % 2 ^ b

/-- One element as MLDA loads it (R272). -/
def loadElem (o : MOp) (raw : Nat) : FR :=
  let f := fmtOf o.shape.dest
  if f = 0 then { bits := raw }
  else
    let md := modeOf o.rmode
    let x := readElem f md.ftz raw
    let r := writeElem o.shape.fmtAcc md x.1
    { r with flags := r.flags ||| x.2 }

/-- MLDA at its start. -/
def startLoad (s : State) (core : Nat) (o : MOp) : State :=
  matOut s core o (readRows o (o.job core 4) (upFrom 0 o.shape.m) s) (fun rows s1 =>
    setRows s1 core o (rowsOf o (fun m n => loadElem o (rowRaw o (rows.getD m []) m n))))

/-- The records of two participants agree (R278). -/
def joinAgree (x y : Shape) : Bool :=
  x.k == y.k && x.fmtA == y.fmtA && x.fmtB == y.fmtB && x.fmtAcc == y.fmtAcc && x.jcount == y.jcount && x.gr == y.gr
    && (x.role / x.gc != y.role / y.gc || x.m == y.m) && (x.role % x.gc != y.role % y.gc || x.n == y.n) && x.role != y.role

/-- The operation of a participant. -/
def partOp (s : State) (p : Part) : Option MOp := (getCore s p.core).mq.find? (fun o => o.id == p.op)

/-- The lowest role among those whose records differ from another's (R279). -/
def roleDiffers (l : List MOp) : Nat :=
  (((l.filter (fun x => l.any (fun y => y.id != x.id && !joinAgree y.shape x.shape))).map (fun x => x.shape.role)).min?).getD 0

/-- MMAJ reaches its supply phase (R278); a record that differs abandons the join (R279). -/
def startJoin (s : State) (core : Nat) (o : MOp) : State :=
  let s1 := updMop s core o.id (fun o => { o with phase := .supply })
  let p : Part := { core := core, op := o.id, role := o.shape.role, supplied := ringsFilled s core o }
  match s1.joins.find? (isJoin o) with
  | none => { s1 with joins := s1.joins ++ [{ pour := o.pour, tag := o.shape.jtag, parts := [p] }] }
  | some j =>
    let j1 := { j with parts := j.parts ++ [p] }
    if j.parts.all (fun q => (partOp s1 q).any (fun x => joinAgree x.shape o.shape)) then
      { s1 with joins := mapFirst (isJoin o) (fun _ => j1) s1.joins }
    else abandonJoin s1 j1 (roleDiffers (j1.parts.filterMap (partOp s1)))

/-- A participant in its supply phase whose slots are filled has supplied (R278). -/
def supplyJoin (s : State) (core : Nat) (o : MOp) : State :=
  if ringsFilled s core o then
    let mark (p : Part) : Part := if p.core = core ∧ p.op = o.id then { p with supplied := true } else p
    { s with joins := mapFirst (isJoin o) (fun j => { j with parts := j.parts.map mark }) s.joins }
  else s

/-- The cause of a failure that reached a paused operation (R308). -/
def pendingFail (o : MOp) : Option Charge :=
  o.err.map (fun e => accessCharge { cause := e.1, code := e.2.1, addr := e.2.2 } (o.eng e.1))

/-- The operation at the head of a core's queue begins (R262, R263). -/
def startMat (s : State) (core : Nat) (o : MOp) : State :=
  match o.kind with
  | .mzero => updMop s core o.id (fun o => { o with phase := .computed })
  | .mma =>
    if ringsFilled s core o then setRows s core o (mulRows s core o (panelA s core o.qa o.shape) (panelB s core o.qb o.shape))
    else s
  | .mmas => if ringsFilled s core o then startSeeded s core o else s
  | .mmaj => startJoin s core o
  | .mlda => startLoad s core o
  | .msta => setRows s core o (rowsOf o (fun m n => { bits := tileElem s core o m n }))

/-- MATRIX_OP_START at core `a` (R262, R263, R278). -/
def execMatrixOpStart (s : State) : Out :=
  let core := s.args.a
  match (getCore s core).mq with
  | o :: _ =>
    if !running s core || o.paused then .next s
    else if o.phase = .queued then
      .next (match pendingFail o with
        | some ch => matFail s core o ch
        | none => startMat s core o)
    else if o.phase = .supply then .next (supplyJoin s core o)
    else .next s
  | [] => .next s

/-! Joins (R278, R279) -/

/-- Every role has supplied. -/
def joinReady (s : State) (j : Join) : Bool :=
  match j.parts with
  | p :: _ =>
    let n := ((partOp s p).map (fun o => o.shape.jcount)).getD 0
    (upFrom 0 n).all (fun r => j.parts.any (fun p => p.role == r && p.supplied))
  | [] => false

/-- The participant of a role, with its operation. -/
def roleOp (s : State) (j : Join) (role : Nat) : Option (Nat × MOp) :=
  (j.parts.find? (fun p => p.role == role)).bind (fun p => (partOp s p).map (fun o => (p.core, o)))

/-- The rows of one participant, from the panels of its grid row and column. -/
def joinRows (s : State) (j : Join) (core : Nat) (o : MOp) : List DrainRow × Flags :=
  let gc := o.shape.gc
  let a := ((roleOp s j (o.shape.role / gc * gc)).map (fun x => panelA s x.1 x.2.qa x.2.shape)).getD []
  let b := ((roleOp s j (o.shape.role % gc)).map (fun x => panelB s x.1 x.2.qb x.2.shape)).getD []
  mulRows s core o a b

/-- Compute: every participant takes its own tile's rows; all are read before any is kept. -/
def computeJoin (s : State) (j : Join) : State :=
  let done := j.parts.filterMap (fun p => (partOp s p).map (fun o => (p.core, o, joinRows s j p.core o)))
  done.foldl (fun s x => setRows s x.1 x.2.1 x.2.2)
    { s with joins := s.joins.filter (fun x => !(x.pour == j.pour && x.tag == j.tag)) }

/-- The join of a pour and a tag. -/
def findJoin (s : State) (pour tag : Nat) : Option Join := s.joins.find? (fun j => j.pour == pour && j.tag == tag)

/-- JOIN_COMPUTE_BEGIN of the join of pour `a` under tag `b` (R278). -/
def execJoinComputeBegin (s : State) : Out :=
  match findJoin s s.args.a s.args.b with
  | some j => .next (if joinReady s j then computeJoin s j else s)
  | none => .next s

/-- The lowest role that has not supplied (R279). -/
def roleMissing (s : State) (j : Join) : Nat :=
  match j.parts with
  | p :: _ =>
    let n := ((partOp s p).map (fun o => o.shape.jcount)).getD 0
    ((upFrom 0 n).find? (fun r => !j.parts.any (fun p => p.role == r && p.supplied))).getD 0
  | [] => 0

/-- JOIN_ABANDON of the join of pour `a` under tag `b`: its 100 microseconds are over (R279). -/
def execJoinAbandon (s : State) : Out :=
  match findJoin s s.args.a s.args.b with
  | some j => .next (if joinReady s j then s else abandonJoin s j (roleMissing s j))
  | none => .next s

/-! Completing (R267, R270 to R273) -/

/-- Writes the rows of an operation into its tile; other rows and columns keep their values (R270). -/
def putRows (s : State) (core : Nat) (o : MOp) : State :=
  { s with mem := o.rows.foldl (fun m r =>
      wrBytes m (rowKey core o.acc r.m) (bytesOfNat (o.width / 8 * o.shape.n) r.data.toNat)) s.mem }

/-- The rings that are popped (R267). -/
def popped (o : MOp) : List Nat :=
  let a := if modKeepA o.mods then [] else ringsA o.kind o.qa o.shape
  let b := if modKeepB o.mods then [] else ringsB o.kind o.qb o.shape
  let both := suppliesA o.kind o.shape && suppliesB o.kind o.shape && o.qa == o.qb && (modKeepA o.mods || modKeepB o.mods)
  ((a ++ b).foldl (fun l q => insNat q l) []).filter (fun q => !(both && q == o.qa))

/-- Pops rings of a core. -/
def popRings (s : State) (core : Nat) (l : List Nat) : State :=
  l.foldl (fun s q =>
    match getRing s core q with
    | some r => if 0 < r.filled then setRing s core q (r.adv true 1) else s
    | none => s) s

/-- The operation has completed: it leaves the queue, and an instruction that waited for it completes (R262). -/
def endMat (s : State) (core : Nat) (o : MOp) : State :=
  let s1 := updCore s core (fun c => { c with mq := c.mq.filter (fun x => x.id != o.id) }.takesIn)
  let c := getCtx s1 o.key
  if c.st = .waiting (.matrixOp o.id) then finish (updCtx s1 o.key (fun c => { c with mopAt := none })) o.key 0 0 else s1

/-- A number of the accumulator's format (R67). -/
def accNum (fmtAcc : Nat) (ftz : Bool) (raw : Nat) : Num :=
  if fmtAcc = 4 then .int (sInt 32 raw) else .fp ((if fmtAcc = 9 then Fmt.fp64 else Fmt.fp32).operand ftz raw)

/-- NV of a signalling NaN narrowed. -/
def accSnan (fmtAcc raw : Nat) : Flags := if fmtAcc = 4 then 0 else snan (if fmtAcc = 9 then Fmt.fp64 else .fp32) [raw]

/-- One element as MSTA stores it (R273, R67). -/
def storeAcc (o : MOp) (raw : Nat) : FR :=
  let f := fmtOf o.shape.dest
  if f = 0 then { bits := raw }
  else
    let md := modeOf o.rmode
    let r := writeElem f md (accNum o.shape.fmtAcc md.ftz raw)
    { r with flags := r.flags ||| accSnan o.shape.fmtAcc raw }

/-- Pieces of a list. -/
def pieces {α : Type} (k : Nat) : Nat → List α → List (List α)
  | 0, _ => []
  | n + 1, l => if l.isEmpty then [] else l.take k :: pieces k n (l.drop k)

/-- Elements of a block as bytes. -/
def blockBytes (f : Fmt) (l : List Nat) : List Byte := bytesOfNat (f.width * l.length / 8) (packElems f.width l)

/-- One block group: up to eight blocks, the unused ones all zero (R50, R60). -/
def groupOf (f : Fmt) (bs : List (Nat × List Nat × Flags)) : List Byte :=
  let pad := 8 - bs.length
  bs.map (fun b => BitVec.ofNat 8 b.1) ++ List.replicate pad (0 : Byte) ++ bs.flatMap (fun b => blockBytes f b.2.1)
    ++ List.replicate (pad * (4 * f.width)) (0 : Byte)

/-- A scaled array of values (R50, R60), and its flags. -/
def mxArray (f : Fmt) (md : Mode) (l : List FVal) : List Byte × Flags :=
  let bs := (pieces 32 (l.length / 32 + 1) l).map (mxBlock f md)
  ((pieces 8 (bs.length / 8 + 1) bs).flatMap (groupOf f), bs.foldl (fun fl b => fl ||| b.2.2) 0)

/-- What MSTA writes: (byte offset from dest, bytes), or nibbles, by row; and its flags (R273). -/
def storePieces (o : MOp) : List (Nat × List (Byte × Byte)) × Flags :=
  let md := modeOf o.rmode
  match mxOfCode (fmtOf o.shape.dest) with
  | some f =>
    let vs := o.rows.flatMap (fun r => tab o.shape.n (fun n => (accNum o.shape.fmtAcc md.ftz (rowElem o r.data n)).val))
    let x := mxArray f md vs
    ([(0, x.1.map (fun b => (b, 0xFF)))], x.2)
  | none =>
    let b := destBits o.shape
    let row (r : DrainRow) : List FR := tab o.shape.n (fun n => storeAcc o (rowElem o r.data n))
    let rows := o.rows.map (fun r => (r.m, row r))
    let bytes (x : Nat × List FR) : Nat × List (Byte × Byte) :=
      let sp := rowSpan o x.1
      let sh := x.1 * o.shape.lda * b - 8 * sp.1
      (sp.1, (bytesOfNat (sp.2 - sp.1) (packElems b (x.2.map FR.bits) * 2 ^ sh)).zip
        (bytesOfNat (sp.2 - sp.1) ((2 ^ (b * o.shape.n) - 1) * 2 ^ sh)))
    (rows.map bytes, rows.foldl (fun fl x => x.2.foldl (fun f e => f ||| e.flags) fl) 0)

/-- Probes every piece in order: the pieces that may be written, and the failure that ends them. -/
def probePieces (o : MOp) (j : Job) : List (Nat × List (Byte × Byte)) → State → EOut (Nat × Option EFail)
  | [], s => .ok (0, none) s
  | p :: t, s =>
    match eProbe j (o.destAt p.1) p.2.length s with
    | .ok _ s1 => (probePieces o j t s1).then (fun r s2 => .ok (r.1 + 1, r.2) s2)
    | .paused a s1 => .paused a s1
    | .later => .later
    | .fail f s1 => .ok (0, some f) s1

/-- Bytes at a target without a touch, for the nibbles a piece leaves alone. -/
def peek (j : Job) (t : Tgt) (n : Nat) (s : State) : List Byte :=
  match t with
  | .win wa => winRead s wa n
  | .glob va =>
    match gread s j.tenant va n with
    | .ok l _ => l
    | _ => List.replicate n 0

/-- Writes a piece. -/
def writePiece (o : MOp) (j : Job) (s : State) (p : Nat × List (Byte × Byte)) : State :=
  let t := o.destAt p.1
  let whole := p.2.all (fun x => x.2 == 0xFF)
  let l := if whole then p.2.map Prod.fst
    else (peek j t p.2.length s).zipWith (fun old x => patchByte old (x.1 &&& x.2) x.2) p.2
  eWrite j t l s

/-- MSTA at its completion: a page fault or a fill pauses it before anything is written, an error discards the rest. -/
def completeStore (s : State) (core : Nat) (o : MOp) : State :=
  let j := o.job core 4
  let x := storePieces o
  matOut s core o (probePieces o j x.1 s) (fun r s1 =>
    let s2 := flagFor ((x.1.take r.1).foldl (writePiece o j) s1) o.key x.2
    match r.2 with
    | none => endMat s2 core o
    | some f => matFail s2 core o (accessCharge f 4))

/-- An operation that has its results completes. -/
def completeMat (s : State) (core : Nat) (o : MOp) : State :=
  match o.kind with
  | .mzero => endMat { s with mem := eraseRange s.mem (rowKey core o.acc 0) (rowKey core o.acc 0 + 65536) } core o
  | .mma | .mmas | .mmaj =>
    let s1 := popRings (putRows s core o) core (popped o)
    endMat (mstatFor s1 o.key (mstatFlags (o.flags.setWidth 7))) core o
  | .mlda => endMat (flagFor (putRows s core o) o.key (o.flags.setWidth 7)) core o
  | .msta => completeStore s core o

/-- The results are complete: computed, or every row released. -/
def matDone (o : MOp) : Bool :=
  o.phase == .computed || (o.phase == .draining && o.rows.all (fun r => r.st == .released))

/-- MATRIX_OP_COMPLETE at core `a` (R270 to R273). An operation that executes completes during a cut as well (R300). -/
def execMatrixOpComplete (s : State) : Out :=
  let core := s.args.a
  match (getCore s core).mq with
  | o :: _ =>
    if o.paused || !matDone o then .next s
    else
      .next (match pendingFail o with
        | some ch => matFail s core o ch
        | none => completeMat s core o)
  | [] => .next s

end Sys2Proof.Machine
end

