-- ==== Sys2Proof/Machine/Copy.lean ====
section
/-! DEFINITION. The group COPY at issue (R247 to R251, R259). -/

namespace Sys2Proof.Machine

/-! Pattern records (R247) -/

/-- A pattern record. -/
abbrev Pat := BitVec 512

/-- A field of `n` bytes at a byte offset. -/
def Pat.at_ (p : Pat) (o n : Nat) : Nat := fieldN p (8 * o) (8 * n)

def Pat.esize (p : Pat) : Nat := p.at_ 12 4

/-- One side of a copy: pointer, segment, format code, counts, strides, bits of an element; `mx` for a scaled array that is
converted, `conv` for elements that are (R42). -/
structure Side where
  ptr : Word
  seg : Seg
  code : Nat
  c0 : Nat
  c1 : Nat
  c2 : Nat
  s1 : Int
  s2 : Int
  bits : Nat
  mx : Bool
  conv : Bool
deriving DecidableEq, Repr

/-- The transform converts elements (R41, R251). R41 does not name DLTA: that its elements are bound to R42 as well is the model's
choice (log 28). -/
def converts (x : Xf) : Bool := x == .cvt || x == .mxq || x == .sexp || x == .dlta

/-- A code of a scaled array. -/
def anyMx (f : Nat) : Bool := f == 13 || f == 14 || f == 15 || f == 17

/-- Bits of a source element and of a destination element (R247, R251). -/
def srcBits (x : Xf) (p : Pat) (code : Nat) : Nat :=
  match x with
  | .none | .tran => 8 * p.esize
  | .pack => 2048
  | .unpk | .bstr => 8
  | _ => codeBits code
def dstBits (x : Xf) (p : Pat) (code : Nat) : Nat :=
  match x with
  | .none | .tran => 8 * p.esize
  | .unpk => 2048
  | .pack | .bstr => 8
  | _ => codeBits code

/-- The two sides. -/
def srcSide (x : Xf) (p : Pat) (ptr : Word) (g : Seg) : Side :=
  let f := fmtOf ptr
  { ptr := ptr, seg := g, code := f, c0 := p.at_ 0 4, c1 := p.at_ 4 4, c2 := p.at_ 8 4
    s1 := sInt 64 (p.at_ 16 8), s2 := sInt 64 (p.at_ 24 8), bits := srcBits x p f, mx := (x == .cvt || x == .mxq) && anyMx f, conv := converts x }
def dstSide (x : Xf) (p : Pat) (ptr : Word) (g : Seg) : Side :=
  let f := fmtOf ptr
  { ptr := ptr, seg := g, code := f, c0 := p.at_ 32 4, c1 := p.at_ 36 4, c2 := p.at_ 40 4
    s1 := sInt 64 (p.at_ 48 8), s2 := sInt 64 (p.at_ 56 8), bits := dstBits x p f, mx := (x == .cvt || x == .mxq) && anyMx f, conv := converts x }

/-- Elements of a side, and rows. -/
def Side.total (d : Side) : Nat := d.c0 * d.c1 * d.c2
def Side.rows (d : Side) : Nat := d.c1 * d.c2

/-! Step 4 of R250 -/

/-- The minors of the group: COPY 0, COPYG 1, COPYS 2, COPYW 3 (R248). The transforms each accepts (R249). -/
def xfAccepted (minor : Nat) (x : Xf) : Bool :=
  match minor with
  | 0 => true
  | 1 | 2 => x == .none || x == .cvt
  | _ => x == .none || x == .cvt || x == .tran

/-- The directions of R40. -/
def sourceFmt (f : Nat) : Bool := decide (1 ≤ f) && decide (f ≤ 18)
def destFmt (f : Nat) : Bool := (decide (1 ≤ f) && decide (f ≤ 15)) || f == 18

/-- The formats a transform accepts (R251). -/
def fmtsAccepted (x : Xf) (sf df : Nat) : Bool :=
  match x with
  | .cvt => sourceFmt sf && destFmt df
  | .mxq => sourceFmt sf && mxCode df
  | .sexp => sf == 19 && destFmt df && !mxCode df
  | .dlta => (sf == 1 || sf == 3 || sf == 4 || sf == 5) && (df == 4 || df == 5)
  | _ => true

/-- A refused kind, transform or format: 0x19 with 3 (R249, R250). -/
def copyRefused (minor : Nat) (x : Xf) (a b : Side) : Bool :=
  !xfAccepted minor x || b.seg.kind == kSeed || (minor == 3 && b.seg.kind != kWindow) || !fmtsAccepted x a.code b.code

/-- ESIZE (R251). -/
def esizeOk (x : Xf) (e : Nat) : Bool :=
  match x with
  | .none => e == 1 || e == 2 || e == 4 || e == 8 || e == 16 || e == 32 || e == 64 || e == 128 || e == 256
  | .pack | .unpk => e == 256
  | .tran => decide (1 ≤ e) && decide (e ≤ 8)
  | .bstr => e == 1
  | _ => e == 0

/-- A side whose counts or strides break R247 or R251 by its format. -/
def sideBad (x : Xf) (d : Side) : Bool :=
  d.c0 == 0 || d.c1 == 0 || d.c2 == 0
    || (d.mx && (d.c1 != 1 || d.c2 != 1 || d.c0 % 32 != 0 || d.s1 != 0 || d.s2 != 0))
    || (converts x && !d.mx && d.bits == 4 && d.c0 % 2 != 0)

/-- What a transform asks of the counts together (R251). -/
def shapeBad (x : Xf) (a b : Side) : Bool :=
  match x with
  | .pack => b.c0 % 32 != 0 || b.c1 != 1 || b.c2 != 1 || b.s1 != 0 || b.s2 != 0
  | .unpk => a.c1 != 1 || a.c2 != 1
  | .tran => b.c0 != a.c1 || b.c1 != a.c0 || b.c2 != a.c2
  | .sexp => false
  | .bstr => a.c2 != 1 || b.c2 != 1 || b.c1 != a.c1
  | _ => a.total != b.total

/-- The index array of COPYG or COPYS (R249, R250). -/
def indexBad (size : Nat) (d : Side) : Bool :=
  d.s2 != 0 || decide (d.s1 < 0) || d.s1.toNat % 4 != 0 || decide (size < d.s1.toNat + 4 * d.rows)

/-- Cores that take the chunks of a BSTR copy, each with its ring (R259). -/
def bstrTargets (s : State) (pour : Nat) : List (Nat × Nat) :=
  match findPour s pour with
  | some p =>
    (p.cores.filter (fun c =>
      let k := getCore s c
      txEn k && txBs k && (ringBound s c (txRing k)).isNone)).map (fun c => (c, txRing (getCore s c)))
  | none => []

/-- Where a chunk's output area starts in its slot, and ends (R256). -/
def outStart (c0 : Nat) : Nat := (c0 + 255) / 256 * 256

/-- A BSTR copy that no core can take (R259). -/
def bstrBad (s : State) (pour : Nat) (a b : Side) : Bool :=
  let ts := bstrTargets s pour
  ts.isEmpty || ts.any (fun c =>
    !(getRing s c.1 c.2).any (fun r => outStart a.c0 + b.c0 ≤ 2 ^ r.slog))

/-- A record fault: 0x19 with 4 (R250). -/
def recordBad (s : State) (minor : Nat) (x : Xf) (p : Pat) (a b : Side) : Bool :=
  let size := scratchSize (getCore s (homeCore s.cx.key))
  p.at_ 44 4 != 0 || !esizeOk x p.esize || (x != .sexp && sideBad x a) || sideBad x b || shapeBad x a b
    || (minor == 1 && indexBad size a) || (minor == 2 && indexBad size b)
    || (x == .bstr && bstrBad s s.cx.pour a b)

/-- The record fixes the addresses of the side (R250). -/
def srcFixed (minor : Nat) (x : Xf) : Bool := minor != 1 && x != .unpk && x != .sexp
def dstFixed (minor : Nat) : Bool := minor != 2

/-- The lesser and the greater of two. -/
def imin (x y : Int) : Int := if x ≤ y then x else y
def imax (x y : Int) : Int := if x ≤ y then y else x

/-- The extent of a side from its pointer: lowest byte, and one past the highest (R250). -/
def Side.extent (d : Side) : Int × Int :=
  if d.mx then (0, (((d.c0 + 255) / 256 * groupBytes d.code : Nat) : Int))
  else
    let e1 := ((d.c1 : Int) - 1) * d.s1
    let e2 := ((d.c2 : Int) - 1) * d.s2
    (imin 0 e1 + imin 0 e2, imax 0 e1 + imax 0 e2 + (((d.c0 * d.bits + 7) / 8 : Nat) : Int))

/-- A window address lies in kind 0 of a core (R142, R249). -/
def ownScratch (core wa : Nat) : Bool := winCore wa == core && wa / 2 ^ 37 % 32 == coreY core && winKind wa == 0

/-- Bytes `lo` to `hi - 1` from the pointer lie in the core's own scratchpad, on a WINDOW side (R249). -/
def Side.near (d : Side) (core : Nat) (lo hi : Int) : Bool :=
  d.seg.kind != kWindow ||
    (ownScratch core (wrapN 48 ((d.seg.base.toNat : Int) + offOf d.ptr + lo))
      && ownScratch core (wrapN 48 ((d.seg.base.toNat : Int) + offOf d.ptr + hi - 1)))

/-- A converting side whose elements break R42. -/
def Side.misaligned (d : Side) : Bool :=
  let a := if d.mx then 8 else elemBytes d.bits
  offOf d.ptr % a != 0 || (d.c1 != 1 && d.s1 % (a : Int) != 0) || (d.c2 != 1 && d.s2 % (a : Int) != 0)

/-- `Seg` over the extent of a side (R250 step 5). -/
def Side.segFault (d : Side) (right : Nat) (write : Bool) : Option (BitVec 8) :=
  let x := d.extent
  let lo := (offOf d.ptr : Int) + x.1
  match segCheck d.seg lo.toNat (x.2 - x.1).toNat right write with
  | .error c => some c
  | .ok _ => if lo < 0 then some 0x04 else none

/-- Step 5 as a check. -/
def extentThen (on : Bool) (d : Side) (right : Nat) (write : Bool) (k : State → Out) (s : State) : Out :=
  match (if on then d.segFault right write else none) with
  | some c => trap c d.ptr s
  | none => k s

/-! Issue (R250) -/

/-- The operation that enters the queue. -/
def newCOp (s : State) (minor : Nat) (x : Xf) (kv : Word) (a b : Side) (p : Pat) : COp :=
  let c := s.cx
  { id := s.nextId, minor := minor, xf := x, src := a.ptr, dst := b.ptr, sseg := a.seg, dseg := b.seg, pat := p
    dest := kv &&& 0x7_FFFF_FFFF, rmode := c.rmode, key := c.key, pour := c.pour, tenant := c.tenant.toNat, gen := c.gen
    targets := if x == .bstr then bstrTargets s c.pour else [] }

/-- A copy that was issued waits In flight for an entry of the queue, then its instruction completes (R250). -/
def againCopy (id : Nat) (s : State) : Out :=
  if s.cores.any (fun c => c.2.cstall.any (fun o => o.id == id)) then stallFor (.copyQueue id) s
  else done (updCx s (fun c => { c with mopAt := none }))

/-- The queue takes the copy as it was read at issue, behind those that wait for an entry; with an entry the instruction
completes, else it stalls In flight (R250). -/
def enqueueCopy (o : COp) (s : State) : Out :=
  let core := homeCore s.cx.key
  let s1 := updCore { s with nextId := s.nextId + 1 } core (fun c => { c with cstall := c.cstall ++ [o] }.takesIn)
  if (getCore s1 core).cstall = [] then done (updCx s1 (fun c => { c with mopAt := none }))
  else stallFor (.copyQueue o.id) (updCx s1 (fun c => { c with mopAt := some (o.id, c.pc) }))

/-- The completion operand breaks R248 or R184. -/
def kvBad (s : State) (kv : Word) : Bool :=
  (kv &&& 0xFFFF_88F8_0000_0000) != 0 || (fieldN kv 0 35 != 0 && !dwOk s (kv &&& 0x7_FFFF_FFFF))

/-- A copy instruction (R250). Where 0x06 of a converting side stands among the checks, after step 4 and before step 5, the source
first, is the model's choice (log 28). -/
def copyIssue (minor : Nat) (wd : W32) (k src dst pat : BitVec 5) (x : Xf) (s : State) : Out :=
  let kv := rs s k
  let pv := rs s pat
  homeOnly wd (match mopHere s.cx with
  | some id => againCopy id
  | none =>
    failIf (kvBad s kv) 0x02 kv
      (failIf (pv.toNat % 64 != 0) 0x06 pv
        (failIf (decide (scratchSize (getCore s (homeCore s.cx.key)) < pv.toNat + 64)) 0x04 pv
          (tagThen (rs s src) (tagThen (rs s dst) (fun s =>
            let core := homeCore s.cx.key
            let p : Pat := BitVec.ofNat 512 (natOfBytes (rdScratch s core pv.toNat 64))
            let a := srcSide x p (rs s src) (vget s.cx.g (fieldN kv 40 3) {})
            let b := dstSide x p (rs s dst) (vget s.cx.g (fieldN kv 44 3) {})
            let far (on : Bool) (d : Side) : Bool := on && !d.near core d.extent.1 d.extent.2
            failIf (copyRefused minor x a b) 0x19 3
              (failIf (recordBad s minor x p a b) 0x19 4
                (failIf (far (srcFixed minor x) a || far (dstFixed minor && minor != 3) b) 0x19 3
                  (failIf (converts x && srcFixed minor x && a.misaligned) 0x06 a.ptr
                    (failIf (converts x && dstFixed minor && b.misaligned) 0x06 b.ptr
                      (extentThen (srcFixed minor x) a rightR false (extentThen (dstFixed minor) b rightW true
                        (enqueueCopy (newCOp s minor x kv a b p)))))))) s)))))) s

/-- COPY. -/
def execCopy (k a b p : BitVec 5) (x : Xf) (s : State) : Out := copyIssue 0 (encode (.copy k a b p x)) k a b p x s

/-- COPYG. -/
def execCopyg (k a b p : BitVec 5) (x : Xf) (s : State) : Out := copyIssue 1 (encode (.copyg k a b p x)) k a b p x s

/-- COPYS. -/
def execCopys (k a b p : BitVec 5) (x : Xf) (s : State) : Out := copyIssue 2 (encode (.copys k a b p x)) k a b p x s

/-- COPYW. -/
def execCopyw (k a b p : BitVec 5) (x : Xf) (s : State) : Out := copyIssue 3 (encode (.copyw k a b p x)) k a b p x s

end Sys2Proof.Machine
end

