-- ==== Sys2Proof/Machine/CopyRun.lean ====
section
/-! DEFINITION. What the copy engine does (R247, R249, R251 to R254): COPY_START and COPY_COMPLETE but for transform BSTR,
which Bits.lean has. A copy reads its source and writes its destination in the step that completes it: another agent that
looks in between sees old bytes or new ones either way (R254). -/

namespace Sys2Proof.Machine

/-- How a copy failed (R253): status, index, the payload's u64; and the touched block's address of codes 12 and 13. -/
structure CFail where
  status : Nat
  index : Nat
  u64 : Nat
  addr : Nat := 0
deriving DecidableEq, Repr

/-- The sides of a queued copy. -/
def COp.a (o : COp) : Side := srcSide o.xf o.pat o.src o.sseg
def COp.b (o : COp) : Side := dstSide o.xf o.pat o.dst o.dseg

/-- The status of an access that failed at element `i` (R253). -/
def accessStatus (f : EFail) (i : Nat) : CFail :=
  match f.cause with
  | 0x15 => { status := 9, index := i, u64 := f.addr }
  | 0x16 => { status := 10, index := i, u64 := f.addr }
  | 0x09 => { status := 12, index := i, u64 := f.code.toNat, addr := f.addr }
  | 0x0A => { status := 13, index := i, u64 := 0, addr := f.addr }
  | _ => { status := 11, index := i, u64 := f.addr }

/-- The element at a byte from the start of a row; a scale byte belongs to the first of its block (R50). -/
def Side.elemOf (d : Side) (o : Nat) : Nat :=
  if d.mx then
    let g := groupBytes d.code
    256 * (o / g) + (if o % g < 8 then 32 * (o % g) else (o % g - 8) * 8 / codeBits d.code)
  else if d.bits = 0 then 0
  else o * 8 / d.bits

/-- The element of a row that holds an address, or the row's first. -/
def elemAt (d : Side) (row start addr : Nat) : Nat :=
  row * d.c0 + (if start ≤ addr then d.elemOf (addr - start) else 0) % (if d.c0 = 0 then 1 else d.c0)

/-- The base of row `r` of a side, relative to its pointer; an index-driven side takes it from its array (R247, R249). -/
def rowBase (s : State) (core : Nat) (d : Side) (indexed : Bool) (r : Nat) : Int :=
  if indexed then sInt 32 (natOfBytes (rdScratch s core (d.s1.toNat + 4 * r) 4))
  else ((r % d.c1 : Nat) : Int) * d.s1 + ((r / d.c1 : Nat) : Int) * d.s2

/-- Bytes of a row. -/
def Side.rowBytes (d : Side) : Nat := (d.c0 * d.bits + 7) / 8

/-- The address of a byte of a side. -/
def Side.addr (d : Side) (rel : Int) : Tgt :=
  let a := wrapN 48 ((d.seg.base.toNat : Int) + offOf d.ptr + rel)
  if d.seg.kind = kWindow then .win a else .glob a

/-- The number of an address. -/
def Tgt.num : Tgt → Nat
  | .glob a => a
  | .win a => a

/-- The running checks of a row of an index-driven side, or of a data-dependent extent: alignment where elements are
converted (R42, log 71), `Seg` at the row's offset, and the own scratchpad (R249, R253). -/
def rowFault (d : Side) (core : Nat) (rel : Int) (n right : Nat) (write : Bool) (status index elemIdx : Nat) : Option CFail :=
  let off := wrapN 48 ((offOf d.ptr : Int) + rel)
  let p := withOff d.ptr off
  let align := if d.mx then 8 else if d.conv then elemBytes d.bits else 1
  match if off % align = 0 then segCheck d.seg off n right write else .error 0x06 with
  | .error _ => some { status := status, index := index, u64 := p.toNat }
  | .ok _ =>
    if d.near core rel (rel + (n : Int)) then none else some { status := 11, index := elemIdx, u64 := (d.addr rel).num }

/-! Reading the source -/

/-- What the source gives: the values in order, and the failure that ends them. -/
structure Got (α : Type) where
  vals : List α := []
  stop : Option CFail := none

/-- Rows of bits, in order (R247). -/
def readSide (j : Job) (d : Side) (indexed : Bool) : List Nat → State → EOut (Got (List Nat))
  | [], s => .ok {} s
  | r :: t, s =>
    let rel := rowBase s j.core d indexed r
    match (if indexed then rowFault d j.core rel d.rowBytes rightR false 1 r (r * d.c0) else none) with
    | some f => .ok { stop := some f } s
    | none =>
      match eRead j (d.addr rel) d.rowBytes s with
      | .ok l s1 =>
        let n := natOfBytes l
        (readSide j d indexed t s1).then (fun g s2 =>
          .ok { g with vals := tab d.c0 (fun i => n / 2 ^ (d.bits * i) % 2 ^ d.bits) :: g.vals } s2)
      | .paused a s1 => .paused (elemAt d r (d.addr rel).num a) s1
      | .later => .later
      | .fail f s1 => .ok { stop := some (accessStatus f (elemAt d r (d.addr rel).num f.addr)) } s1

/-- A scaled array of `n` elements from its bytes (R50, R61). -/
def mxValues (code n : Nat) (l : List Byte) : List Num :=
  let rd (o : Nat) : Nat := (l.getD o 0).toNat
  tab n (fun i =>
    let x := elemRaw rd code true i
    .fp (scaled (groupScale rd code i) (if code = 17 then ts8Value x else codeValue code x)))

/-- The numbers of a converting source, with the flags their reading sets. -/
def readNums (j : Job) (d : Side) (indexed : Bool) (ftz : Bool) (s : State) : EOut (Got (Num × Flags)) :=
  if d.mx then
    let n := (d.c0 + 255) / 256 * groupBytes d.code
    let rel := if indexed then rowBase s j.core d true 0 else 0
    match (if indexed then rowFault d j.core rel n rightR false 1 0 0 else none) with
    | some f => .ok { stop := some f } s
    | none =>
      match eRead j (d.addr rel) n s with
      | .ok l s1 => .ok { vals := (mxValues d.code d.c0 l).map (fun x => (x, 0)) } s1
      | .paused a s1 => .paused (elemAt d 0 (d.addr rel).num a) s1
      | .later => .later
      | .fail f s1 => .ok { stop := some (accessStatus f (elemAt d 0 (d.addr rel).num f.addr)) } s1
  else
    (readSide j d indexed (upFrom 0 d.rows) s).then (fun g s1 =>
      .ok { vals := g.vals.flatten.map (readElem d.code ftz), stop := g.stop } s1)

/-! Transforms (R251) -/

/-- Running sums of a row, at a width (DLTA). -/
def deltaRow (sb db : Nat) : Int → List Nat → List Nat
  | _, [] => []
  | acc, x :: t =>
    let n := acc + sInt sb x
    wrapN db n :: deltaRow sb db n t

/-- The element of a flattened (c0, c1, c2) array. -/
def flat3 (c0 c1 i0 i1 i2 : Nat) : Nat := i0 + c0 * (i1 + c1 * i2)

/-- TRAN: destination (j0, j1, j2) := source (j1, j0, j2). -/
def transposed (b : Side) (l : List Nat) : List Nat :=
  tab b.total (fun n =>
    let j0 := n % b.c0
    let j1 := n / b.c0 % b.c1
    let j2 := n / (b.c0 * b.c1)
    l.getD (flat3 b.c1 b.c0 j1 j0 j2) 0)

/-! The block codec (R252) -/

/-- The 64 words of a block. -/
def blockWords (x : Nat) : List Nat := tab 64 (fun i => x / 2 ^ (32 * i) % 2 ^ 32)

/-- Every word is the base plus a delta of `w` bits. -/
def deltasFit (w : Nat) (ws : List Nat) : Bool :=
  let b := ws.headD 0
  ws.all (fun x => wrapN 32 ((b : Int) + sInt w (wrapN w ((x : Int) - b))) == x)

/-- The mode PACK chooses. -/
def packMode (x : Nat) : Nat :=
  let ws := blockWords x
  if ws.all (fun w => w == 0) then 1
  else if ws.all (fun w => w == ws.headD 0) then 2
  else if deltasFit 8 ws then 3
  else if deltasFit 16 ws then 4
  else 0

/-- Sectors of a mode, and bytes of its encoding. -/
def modeBytes (m : Nat) : Nat :=
  match m with
  | 1 => 1
  | 2 => 5
  | 3 => 69
  | 4 => 133
  | _ => 257
def modeSectors (m : Nat) : Nat := (modeBytes m + 31) / 32

/-- The payload of a block in a mode. -/
def payload (m x : Nat) : List Byte :=
  let ws := blockWords x
  let b := ws.headD 0
  match m with
  | 1 => []
  | 2 => bytesOfNat 4 b
  | 3 => bytesOfNat 4 b ++ ws.map (fun (w : Nat) => BitVec.ofInt 8 ((w : Int) - b))
  | 4 => bytesOfNat 4 b ++ ws.flatMap (fun (w : Nat) => bytesOfNat 2 (wrapN 16 ((w : Int) - b)))
  | _ => bytesOfNat 256 x

/-- An encoded block, padded with zeros to its last sector. -/
def packBlock (x : Nat) : List Byte :=
  let m := packMode x
  let l := BitVec.ofNat 8 m :: payload m x
  l ++ List.replicate (32 * modeSectors m - l.length) (0 : Byte)

/-- PACK: blocks in order while they fit; the bytes, and the block that does not fit. -/
def packAll (cap : Nat) : Nat → List Nat → List Byte → List Byte × Option CFail
  | _, [], out => (out, none)
  | k, x :: t, out =>
    let l := packBlock x
    if cap < out.length + l.length then (out, some { status := 6, index := k, u64 := out.length })
    else packAll cap (k + 1) t (out ++ l)

/-- The words of a block from a payload in a mode, as one number. -/
def unpackBlock (m : Nat) (l : List Byte) : Nat :=
  let b := natOfBytes (l.take 4)
  match m with
  | 1 => 0
  | 2 => packElems 32 (List.replicate 64 b)
  | 3 => packElems 32 (tab 64 (fun i => wrapN 32 ((b : Int) + sInt 8 (natOfBytes ((l.drop (4 + i)).take 1)))))
  | 4 => packElems 32 (tab 64 (fun i => wrapN 32 ((b : Int) + sInt 16 (natOfBytes ((l.drop (4 + 2 * i)).take 2)))))
  | _ => natOfBytes (l.take 256)

/-- UNPK: `n` blocks from a byte position of the stream on. -/
def unpackAll (j : Job) (d : Side) : Nat → Nat → Nat → State → EOut (Got Nat)
  | 0, _, _, s => .ok {} s
  | n + 1, k, p, s =>
    let corrupt : CFail := { status := 5, index := k, u64 := offOf d.ptr + p }
    if d.c0 < p + 1 then .ok { stop := some corrupt } s
    else
      match rowFault d j.core p 1 rightR false 1 k k with
      | some f => .ok { stop := some f } s
      | none =>
        match eRead j (d.addr p) 1 s with
        | .paused _ s1 => .paused k s1
        | .later => .later
        | .fail f s1 => .ok { stop := some (accessStatus f k) } s1
        | .ok h s1 =>
          let m := natOfBytes h
          if 4 < m ∨ d.c0 < p + modeBytes m then .ok { stop := some corrupt } s1
          else
            match rowFault d j.core p (modeBytes m) rightR false 1 k k with
            | some f => .ok { stop := some f } s1
            | none =>
              match eRead j (d.addr p) (modeBytes m) s1 with
              | .paused _ s2 => .paused k s2
              | .later => .later
              | .fail f s2 => .ok { stop := some (accessStatus f k) } s2
              | .ok l s2 =>
                (unpackAll j d n (k + 1) (p + 32 * modeSectors m) s2).then (fun g s3 =>
                  .ok { g with vals := unpackBlock m (l.drop 1) :: g.vals } s3)

/-! Writing the destination -/

/-- One run of bytes on its way to the destination: its first element, where it goes, its bytes. -/
structure Piece where
  elem : Nat
  rel : Int
  bytes : List Byte

/-- The rows of a destination, from the elements that were made; an index-driven row that is refused ends them. -/
def destRows (s : State) (core : Nat) (d : Side) (indexed : Bool) : Nat → Nat → List Nat → List Piece × Option CFail
  | 0, _, _ => ([], none)
  | n + 1, r, l =>
    if l.isEmpty then ([], none)
    else
      let rel := rowBase s core d indexed r
      match (if indexed then rowFault d core rel d.rowBytes rightW true 2 r (r * d.c0) else none) with
      | some f => ([], some f)
      | none =>
        let row := l.take d.c0
        let rest := destRows s core d indexed n (r + 1) (l.drop d.c0)
        ({ elem := r * d.c0, rel := rel, bytes := bytesOfNat (row.length * d.bits / 8) (packElems d.bits row) } :: rest.1, rest.2)

/-- What a copy has to write, and how it ends. -/
structure Plan where
  pieces : List Piece := []
  stop : Option CFail := none
  flags : Flags := 0

/-- A plan from elements in order; a source that failed comes after what could be written. -/
def planElems (s : State) (core : Nat) (d : Side) (indexed : Bool) (l : List Nat) (stop : Option CFail) (fl : Flags) : Plan :=
  let r := destRows s core d indexed d.rows 0 l
  { pieces := r.1, stop := r.2.orElse (fun _ => stop), flags := fl }

/-- Elements converted to a destination that is no scaled array, or to one (R56 to R60). -/
def planNums (s : State) (core : Nat) (d : Side) (indexed : Bool) (md : Mode) (g : Got (Num × Flags)) : Plan :=
  let fl := g.vals.foldl (fun f x => f ||| x.2) (0 : Flags)
  match d.mx, mxOfCode d.code with
  | true, some f =>
    match g.stop with
    | some c => { stop := some c }
    | none =>
      let x := mxArray f md (g.vals.map (fun v => v.1.val))
      let rel := if indexed then rowBase s core d true 0 else 0
      match (if indexed then rowFault d core rel x.1.length rightW true 2 0 0 else none) with
      | some c => { stop := some c }
      | none => { pieces := [{ elem := 0, rel := rel, bytes := x.1 }], flags := x.2 ||| fl }
  | _, _ =>
    let rs := g.vals.map (fun v => writeElem d.code md v.1)
    planElems s core d indexed (rs.map FR.bits) g.stop (rs.foldl (fun f x => f ||| x.flags) fl)

/-- SEXP: the record is read where it stands (log 71), then every element is its W, rounded once (R251, R287). -/
def planSexp (j : Job) (o : COp) (md : Mode) (s : State) : EOut Plan :=
  let a := o.a
  let b := o.b
  let avail := a.seg.limit.toNat - offOf a.ptr
  let bad (reason : Nat) : Plan := { stop := some { status := 7, index := reason, u64 := offOf a.ptr } }
  if !bitN a.seg.rights rightR then .ok { stop := some { status := 1, index := 0, u64 := a.ptr.toNat } } s
  else if !a.near j.core 0 1 then .ok { stop := some { status := 11, index := 0, u64 := (a.addr 0).num } } s
  else if avail = 0 then .ok (bad 9) s
  else
    match eRecord j (a.addr 0) avail s with
    | .paused _ s1 => .paused 0 s1
    | .later => .later
    | .fail f s1 => .ok { stop := some (accessStatus f 0) } s1
    | .ok (.error f) s1 => .ok (bad f.1) s1
    | .ok (.ok r) s1 =>
      if r.k * r.n != b.total then .ok (bad 11) s1
      else
        let rs := (r.weights 0 (r.k * r.n)).map (fun v => writeElem b.code md (.fp v))
        .ok (planElems s1 j.core b false (rs.map FR.bits) none (rs.foldl (fun f x => f ||| x.flags) 0)) s1

/-- What a copy writes (R251). -/
def planCopy (j : Job) (o : COp) (s : State) : EOut Plan :=
  let a := o.a
  let b := o.b
  let md := modeOf o.rmode
  let ga := o.minor == 1
  let gb := o.minor == 2
  match o.xf with
  | .none | .tran =>
    (readSide j a ga (upFrom 0 a.rows) s).then (fun g s1 =>
      let l := g.vals.flatten
      match o.xf, g.stop with
      | .tran, some f => .ok { stop := some f } s1
      | .tran, none => .ok (planElems s1 j.core b gb (transposed b l) none 0) s1
      | _, st => .ok (planElems s1 j.core b gb l st 0) s1)
  | .cvt | .mxq => (readNums j a ga md.ftz s).then (fun g s1 => .ok (planNums s1 j.core b gb md g) s1)
  | .dlta =>
    (readSide j a ga (upFrom 0 a.rows) s).then (fun g s1 =>
      .ok (planElems s1 j.core b gb (g.vals.map (deltaRow a.bits b.bits 0)).flatten g.stop 0) s1)
  | .pack =>
    (readSide j a false (upFrom 0 a.rows) s).then (fun g s1 =>
      let x := packAll b.c0 0 g.vals.flatten []
      .ok { pieces := if x.1.isEmpty then [] else [{ elem := 0, rel := 0, bytes := x.1 }], stop := x.2.orElse (fun _ => g.stop) } s1)
  | .unpk => (unpackAll j a b.total 0 0 s).then (fun g s1 => .ok (planElems s1 j.core b false g.vals g.stop 0) s1)
  | .sexp => planSexp j o md s
  | .bstr => .ok {} s

/-- Probes the pieces in order: how many may be written, and the failure that ends them. -/
def probePlan (j : Job) (d : Side) : List Piece → State → EOut (Nat × Option CFail)
  | [], s => .ok (0, none) s
  | p :: t, s =>
    match eProbe j (d.addr p.rel) p.bytes.length s with
    | .ok _ s1 => (probePlan j d t s1).then (fun r s2 => .ok (r.1 + 1, r.2) s2)
    | .paused a s1 => .paused (p.elem + elemAt d 0 (d.addr p.rel).num a) s1
    | .later => .later
    | .fail f s1 => .ok (0, some (accessStatus f (p.elem + elemAt d 0 (d.addr p.rel).num f.addr))) s1

/-- Writes pieces. -/
def writePlan (j : Job) (d : Side) (l : List Piece) (s : State) : State :=
  l.foldl (fun s p => eWrite j (d.addr p.rel) p.bytes s) s

/-! Completion (R253) -/

/-- The payload of a failed copy. -/
def copyPayload (f : CFail) : BitVec 128 := BitVec.ofNat 128 (f.status + f.index % 2 ^ 32 * 2 ^ 32 + f.u64 % 2 ^ 64 * 2 ^ 64)

/-- The cause of a status (R253). -/
def copyCause (status : Nat) : BitVec 8 :=
  match status with
  | 9 => 0x15
  | 10 => 0x16
  | 12 => 0x09
  | 13 => 0x0A
  | _ => 0x19

/-- What a failure charges where no notification was asked for. -/
def copyCharge (f : CFail) : Charge :=
  if f.status = 12 ∨ f.status = 13 then
    { cause := copyCause f.status, val := BitVec.ofNat 64 f.addr, engine := 3, extra := BitVec.ofNat 32 f.u64 }
  else
    { cause := copyCause f.status, val := BitVec.ofNat 64 f.u64, engine := 3, extra := BitVec.ofNat 32 f.index }

/-- The copy leaves the queue and reports (R253). -/
def endCopy (s : State) (core : Nat) (o : COp) (r : Option CFail) : State :=
  let s1 := updCore s core (fun c => { c with cq := c.cq.filter (fun x => x.id != o.id) }.takesIn)
  match r with
  | none => if o.dest = 0 then s1 else postDec s1 o.key o.dest none (.copy o.key) o.tenant
  | some f =>
    if o.dest = 0 then charge s1 o.key (copyCharge f)
    else postDec s1 o.key o.dest (some (copyPayload f)) (.copy o.key) o.tenant

/-- The failure that reached a paused copy (R308). -/
def copyPending (o : COp) : Option CFail :=
  o.err.map (fun e => accessStatus { cause := e.1, code := e.2.1, addr := e.2.2 } o.errAt.1)

/-- A copy that is not BSTR runs and completes. -/
def runCopy (s : State) (core : Nat) (o : COp) : State :=
  match copyPending o with
  | some f => endCopy s core o (some f)
  | none =>
    let j := o.job core
    let pause (i : Nat) (s1 : State) : State := updCop s1 core o.id (fun o => { o with paused := true, pauseAt := (i, 0) })
    match planCopy j o s with
    | .paused i s1 => pause i s1
    | .later => s
    | .fail f s1 => endCopy s1 core o (some (accessStatus f 0))
    | .ok p s1 =>
      match probePlan j o.b p.pieces s1 with
      | .paused i s2 => pause i s2
      | .later => s
      | .fail f s2 => endCopy s2 core o (some (accessStatus f 0))
      | .ok r s2 =>
        endCopy (flagFor (writePlan j o.b (p.pieces.take r.1) s2) o.key p.flags) core o (r.2.orElse (fun _ => p.stop))

/-- The oldest copy that does not run yet (R254). -/
def nextCopy (c : CoreSt) : Option COp :=
  if (c.cq.filter (fun o => o.running)).length < Config.copyRunning then c.cq.find? (fun o => !o.running) else none

/-- COPY_START at core `a` (R254). -/
def execCopyStart (s : State) : Out :=
  let core := s.args.a
  match nextCopy (getCore s core) with
  | some o => .next (if running s core then updCop s core o.id (fun o => { o with running := true }) else s)
  | none => .next s

end Sys2Proof.Machine
end

