-- ==== Sys2Proof/Machine/Bits.lean ====
section
/-! DEFINITION. The group BITS (R256 to R258), the steps of a BSTR copy (R258, R259) and the end of any copy. -/

namespace Sys2Proof.Machine

/-! The current slot (R256) -/

/-- The transform context's core, its ring and its current slot; without one the instruction traps 0x11 (R257). -/
def bitThen (wd : W32) (k : Ring → BitSlot → State → Out) (s : State) : Out :=
  kindThen (homeIdx s.cx.key == 11) wd (homeOnly wd (fun s =>
    let c := getCore s (homeCore s.cx.key)
    match c.bits, getRing s (homeCore s.cx.key) c.bitsRing with
    | some b, some r => k r b s
    | _, _ => trap 0x11 (BitVec.ofNat 64 c.bitsRing) s)) s

/-- Changes the current slot. -/
def putSlot (b : BitSlot) (s : State) : State := updCore s (homeCore s.cx.key) (fun c => { c with bits := some b })

/-- Bytes of the slot from `off` that the scratchpad still has: the others trap 0x04 (R241). -/
def slotThen (off n : Nat) (k : State → Out) (s : State) : Out :=
  failIf (decide (scratchSize (getCore s (homeCore s.cx.key)) < off + n)) 0x04 (BitVec.ofNat 64 off) k s

/-- Bits the input still has. -/
def BitSlot.left (b : BitSlot) : Nat := 8 * b.inLen - b.pos

/-- The next `n` bits of the input; bits past it are 0 (R256, R257). -/
def nextBits (s : State) (r : Ring) (b : BitSlot) (n : Nat) : Nat :=
  let x := natOfBytes (rdScratch s (homeCore s.cx.key) (r.slotOff b.counter + b.pos / 8) ((n + 7) / 8 + 1))
  x / 2 ^ (b.pos % 8) % 2 ^ n % 2 ^ b.left

/-- The bytes the next `n` bits stand in are there. -/
def inputThen (r : Ring) (b : BitSlot) (n : Nat) (k : State → Out) (s : State) : Out :=
  let bits := if n ≤ b.left then n else b.left
  slotThen (r.slotOff b.counter + b.pos / 8) ((b.pos % 8 + bits + 7) / 8) k s

/-- An event of R256: a BSTR chunk fails with its code and the instruction goes on; any other slot traps 0x11. -/
def slotFail (b : BitSlot) (code : BitVec 32) (k : State → Out) (s : State) : Out :=
  match b.chunk with
  | some (core, op, n) => k (bstrFail s core op n code)
  | none => trap 0x11 (BitVec.ofNat 64 (getCore s (homeCore s.cx.key)).bitsRing) s

/-- Consumes `n` bits; past the input the event of R256 takes place. -/
def consume (b : BitSlot) (n : Nat) (k : State → Out) (s : State) : Out :=
  if n ≤ b.left then k (putSlot { b with pos := b.pos + n } s)
  else slotFail b 0xFFFF_FFFF (fun s => k (putSlot { b with pos := 8 * b.inLen } s)) s

/-- `n` bits of which the input has only `have_`: the others are free (R256, R257). -/
def pastBits (s : State) (x have_ n : Nat) : Nat :=
  if n ≤ have_ then x else x + (Config.openWord s.ticks).toNat % 2 ^ (n - have_) * 2 ^ have_

/-- BGET (R257). -/
def execBget (d n : BitVec 5) (s : State) : Out :=
  let m := n.toNat + 1
  bitThen (encode (.bget d n)) (fun r b => inputThen r b m (fun s =>
    let x := nextBits s r b m
    consume b m (fun s => done (ws s d (BitVec.ofNat 64 (pastBits s x b.left m)))) s)) s

/-- BPEEK (R257). -/
def execBpeek (d n : BitVec 5) (s : State) : Out :=
  let m := n.toNat + 1
  bitThen (encode (.bpeek d n)) (fun r b => inputThen r b m (fun s =>
    done (ws s d (BitVec.ofNat 64 (nextBits s r b m))))) s

/-- BSKIP (R257). -/
def execBskip (a : BitVec 5) (s : State) : Out :=
  let n := (rs s a).toNat
  bitThen (encode (.bskip a)) (fun _ b => failIf (decide (2 ^ 32 ≤ n)) 0x02 (rs s a) (consume b n done)) s

/-- BALIGN (R257). -/
def execBalign (s : State) : Out :=
  bitThen (encode .balign) (fun _ b s => done (putSlot { b with pos := (b.pos + 7) / 8 * 8 } s)) s

/-- Writes `n` bits at the writer's position. -/
def appendBits (r : Ring) (b : BitSlot) (x n : Nat) (s : State) : State :=
  let core := homeCore s.cx.key
  let off := r.slotOff b.counter + b.outOff + b.outPos / 8
  let len := (b.outPos % 8 + n + 7) / 8
  let old : BitVec 64 := BitVec.ofNat 64 (natOfBytes (rdScratch s core off len))
  putSlot { b with outPos := b.outPos + n }
    (wrScratch s core off (bytesOfNat len (putField old (b.outPos % 8) n x).toNat))

/-- BPUT (R257): bits that do not fit the output area are not written. -/
def execBput (a n : BitVec 5) (s : State) : Out :=
  let m := n.toNat + 1
  bitThen (encode (.bput a n)) (fun r b s =>
    if 8 * b.outLen < b.outPos + m then slotFail b 0xFFFF_FFFE done s
    else
      slotThen (r.slotOff b.counter + b.outOff + b.outPos / 8) ((b.outPos % 8 + m + 7) / 8)
        (fun s => done (appendBits r b (rs s a).toNat m s)) s) s

/-- BFLUSH (R257). -/
def execBflush (d : BitVec 5) (s : State) : Out :=
  bitThen (encode (.bflush d)) (fun r b s =>
    let pad := (8 - b.outPos % 8) % 8
    let n : Word := BitVec.ofNat 64 ((b.outPos + pad) / 8)
    if pad = 0 then done (ws s d n)
    else
      slotThen (r.slotOff b.counter + b.outOff + b.outPos / 8) 1 (fun s => done (ws (appendBits r b 0 pad s) d n)) s) s

/-- A u16 of the transform context's scratchpad. -/
def scratch16 (s : State) (off : Nat) : Nat := natOfBytes (rdScratch s (homeCore s.cx.key) off 2)

/-- BHUF: the table is at the scratchpad offset S[a] (R257). -/
def execBhuf (d a : BitVec 5) (s : State) : Out :=
  let t := (rs s a).toNat
  bitThen (encode (.bhuf d a)) (fun r b =>
    failIf (t % 2 != 0) 0x06 (rs s a) (failIf (decide (scratchSize (getCore s (homeCore s.cx.key)) < t + 2)) 0x04 (rs s a)
      (fun s =>
        let l := scratch16 s t
        failIf (l == 0 || decide (12 < l)) 0x02 (rs s a)
          (failIf (decide (scratchSize (getCore s (homeCore s.cx.key)) < t + 2 + 2 * 2 ^ l)) 0x04 (rs s a)
            (inputThen r b l (fun s =>
              let e := scratch16 s (t + 2 + 2 * nextBits s r b l)
              let len := e / 2 ^ 12
              let out (s : State) : Out := done (ws s d (BitVec.ofNat 64 (e % 2 ^ 12)))
              if len = 0 ∨ l < len then slotFail b 0xFFFF_FFFD out s else consume b len out s))) s))) s

/-- Trailing zero bits of a number, at most `n`. -/
def zerosBelow (x : Nat) : Nat → Nat
  | 0 => 0
  | n + 1 => if x % 2 = 1 then 0 else 1 + zerosBelow (x / 2) n

/-- BLZC (R257). Where the input ends before a 1 and before 32 bits, the count is free from what the input has up to 32. -/
def execBlzc (d : BitVec 5) (s : State) : Out :=
  bitThen (encode (.blzc d)) (fun r b => inputThen r b 32 (fun s =>
    let have_ := if b.left < 32 then b.left else 32
    let z := zerosBelow (nextBits s r b 32) have_
    if z < have_ then consume b (z + 1) (fun s => done (ws s d (BitVec.ofNat 64 z))) s
    else if have_ = 32 then consume b 32 (fun s => done (ws s d 32)) s
    else
      let n := have_ + (Config.openWord s.ticks).toNat % (33 - have_)
      consume b 33 (fun s => done (ws s d (BitVec.ofNat 64 n))) s)) s

/-! Opening and closing slots (R257, R258) -/

/-- The first counter from `c` on, within the filled slots, that is not closed. -/
def firstOpen (closed : List (Nat × Nat)) (ring : Nat) (r : Ring) : Nat → Nat → Option Nat
  | 0, _ => none
  | n + 1, c => if closed.contains (ring, c % r.m) then firstOpen closed ring r n (c + 1) else some (c % r.m)

/-- The slot BNEXT opens: the one after the last, or the head slot, if it is filled. -/
def nextSlot (s : State) (core : Nat) (last : Option Nat) : Option Nat :=
  let c := getCore s core
  match getRing s core c.bitsRing with
  | none => none
  | some r =>
    match last with
    | some p =>
      let n := (p + 1) % r.m
      if (n + r.m - r.head) % r.m < r.filled then some n else none
    | none => firstOpen c.closed c.bitsRing r r.filled r.head

/-- The slot of a counter as the current one, with what BNEXT answers. -/
def openSlot (s : State) (core n : Nat) : BitSlot × Word :=
  let c := getCore s core
  match bstrAt c c.bitsRing n with
  | some b =>
    ({ counter := n, chunk := some (b.core, b.op, b.chunk), inLen := b.inLen, outOff := outStart b.inLen, outLen := b.outLen },
      BitVec.ofNat 64 b.chunk)
  | none =>
    ({ counter := n, inLen := ((getRing s core c.bitsRing).map (fun r => 2 ^ r.slog)).getD 0, outOff := 0, outLen := 0 },
      BitVec.ofNat 64 n)

/-- BNEXT (R257). -/
def execBnext (d : BitVec 5) (s : State) : Out :=
  kindThen (homeIdx s.cx.key == 11) (encode (.bnext d)) (homeOnly (encode (.bnext d)) (fun s =>
    let core := homeCore s.cx.key
    let last := (getCore s core).bits.map BitSlot.counter
    let s1 := closeSlot core s
    match nextSlot s1 core last with
    | some n => done (ws (putSlot (openSlot s1 core n).1 s1) d (openSlot s1 core n).2)
    | none => done (ws s1 d (BitVec.allOnes 64)))) s

/-- BFAIL (R257). -/
def execBfail (a : BitVec 5) (s : State) : Out :=
  bitThen (encode (.bfail a)) (fun _ b => slotFail b ((rs s a).setWidth 32) (fun s => done (closeSlot (homeCore s.cx.key) s))) s

/-! BSTR copies (R258, R259) -/

/-- The chunk is not to be written: the copy failed at it or below it (R258). -/
def COp.past (o : COp) (k : Nat) : Bool :=
  (o.err.isSome && decide (o.errAt.2 ≤ k)) || o.failed.any (fun f => decide (f.1 ≤ k))

/-- Chunks that were closed and are not to be written are discarded. -/
def dropOver (core id : Nat) (s : State) : State :=
  updCop s core id (fun o =>
    { o with chunks := o.chunks.map (fun c => if c.st = .done ∧ o.past c.k then { c with st := .dropped } else c) })

/-- Where chunk `k` lies in the source and in the destination. -/
def COp.srcAt (o : COp) (k : Nat) : Tgt := o.a.addr ((k : Int) * o.a.s1)
def COp.dstAt (o : COp) (k : Nat) : Tgt := o.b.addr ((k : Int) * o.b.s1)

/-- The output of a chunk, from its slot. -/
def chunkOut (s : State) (core id : Nat) (o : COp) (c : Chunk) : List Byte :=
  match (getCore s c.core).bstr.find? (fun b => b.core == core && b.op == id && b.chunk == c.k) with
  | some b =>
    match getRing s c.core b.ring with
    | some r => rdScratch s c.core (r.slotOff b.counter + outStart b.inLen) o.b.c0
    | none => []
  | none => []

/-- A copy meets an error at an element of a chunk; it keeps the lowest (R253, R258). -/
def copyErr (core id elem k : Nat) (f : EFail) (s : State) : State :=
  updCop s core id (fun o =>
    if o.err.isSome && decide (o.errAt.2 ≤ k) then o else { o with err := some (f.cause, f.code, f.addr), errAt := (elem, k) })

/-- A copy pauses there (R146, R303). -/
def copyPause (core id elem k : Nat) (s : State) : State := updCop s core id (fun o => { o with paused := true, pauseAt := (elem, k) })

/-- Writes closed chunks in their order, up to the first that is still open (R258). -/
def writeChunks (core id : Nat) : List Chunk → State → State
  | [], s => s
  | c :: t, s =>
    match c.st with
    | .written | .dropped => writeChunks core id t s
    | .delivered => s
    | .done =>
      match copyAt s core id with
      | none => s
      | some o =>
        if o.past c.k then writeChunks core id t (updChunk s core id c.k (fun x => { x with st := .dropped }))
        else
          let l := chunkOut s core id o c
          match eProbe (o.job core) (o.dstAt c.k) l.length s with
          | .ok _ s1 =>
            writeChunks core id t
              (updChunk (eWrite (o.job core) (o.dstAt c.k) l s1) core id c.k (fun x => { x with st := .written }))
          | .paused a s1 => copyPause core id (elemAt o.b c.k (o.dstAt c.k).num a) c.k s1
          | .later => s
          | .fail f s1 =>
            writeChunks core id t (updChunk (copyErr core id (elemAt o.b c.k (o.dstAt c.k).num f.addr) c.k f s1) core id c.k (fun x => { x with st := .dropped }))

/-- What may be written is written, and what may be popped is popped. -/
def settleCopy (core id : Nat) (s : State) : State :=
  let s1 := dropOver core id s
  match copyAt s1 core id with
  | none => s1
  | some o => o.targets.foldl (fun s t => popReady 256 t.1 t.2 s) (writeChunks core id o.chunks s1)

/-- The next chunk of a copy goes to its core's ring: the input at the slot base, zeros in the output area, the tail
advances (R256, R259). -/
def deliverChunk (core id : Nat) (o : COp) (l : List Byte) (at_ ring : Nat) (r : Ring) (s : State) : State :=
  let off := r.slotOff r.tail
  let n := outStart o.a.c0
  if scratchSize (getCore s at_) < off + n + o.b.c0 then
    copyErr core id (o.next * o.a.c0) o.next { cause := 0x04, addr := winAddr at_ 0 off } s
  else
    let s1 := wrScratch (wrScratch s at_ off l) at_ (off + n) (List.replicate o.b.c0 0)
    let slot : BstrSlot :=
      { ring := ring, counter := r.tail, core := core, op := id, chunk := o.next, inLen := o.a.c0, outLen := o.b.c0 }
    let s2 := setRing (updCore s1 at_ (fun c => { c with bstr := c.bstr ++ [slot] })) at_ ring (r.adv false 1)
    updCop s2 core id (fun o => { o with next := o.next + 1, chunks := o.chunks ++ [{ k := o.next, core := at_ }] })

/-- A chunk to deliver is left. -/
def COp.more (o : COp) : Bool := o.failed.isNone && o.err.isNone && decide (o.next < o.a.c1)

/-- Delivers the next chunk, if its core's ring has an empty slot. -/
def deliverNext (core id : Nat) (s : State) : State :=
  match copyAt s core id with
  | none => s
  | some o =>
    match o.targets[o.next % o.targets.length]? with
    | none => s
    | some (at_, ring) =>
      match getRing s at_ ring with
      | none => s
      | some r =>
        if !o.more || o.paused || r.empty = 0 then s
        else
          match eRead (o.job core) (o.srcAt o.next) o.a.c0 s with
          | .ok l s1 => deliverChunk core id o l at_ ring r s1
          | .paused a s1 => copyPause core id (elemAt o.a o.next (o.srcAt o.next).num a) o.next s1
          | .later => s
          | .fail f s1 => copyErr core id (elemAt o.a o.next (o.srcAt o.next).num f.addr) o.next f s1

/-- BSTR_DELIVER: the copy `b` of core `a` (R258, R259). -/
def execBstrDeliver (s : State) : Out :=
  let core := s.args.a
  let id := s.args.b
  match copyAt s core id with
  | some o =>
    .next (if o.xf = .bstr ∧ o.running ∧ !o.paused ∧ running s core then deliverNext core id (settleCopy core id s) else s)
  | none => .next s

/-- How a BSTR copy ends, with its lowest failing chunk (R258): every chunk was delivered or delivery has stopped, and every delivered slot is popped. -/
def bstrEnd (o : COp) : Option (Option CFail) :=
  if o.more || o.chunks.any (fun c => !c.popped) then none
  else
    let err := o.err.map (fun e => accessStatus { cause := e.1, code := e.2.1, addr := e.2.2 } o.errAt.1)
    match o.failed with
    | some (k, code) =>
      some (if o.err.isSome && decide (o.errAt.2 < k) then err else some { status := 8, index := k, u64 := code.toNat })
    | none => some err

/-- COPY_COMPLETE: the copy `b` of core `a` (R253, R254, R259). -/
def execCopyComplete (s : State) : Out :=
  let core := s.args.a
  let id := s.args.b
  match copyAt s core id with
  | some o =>
    if !(o.running && !o.paused && running s core) then .next s
    else if o.xf = .bstr then
      let s1 := settleCopy core id s
      match copyAt s1 core id with
      | some o1 =>
        match bstrEnd o1 with
        | some r => .next (endCopy s1 core o1 r)
        | none => .next s1
      | none => .next s1
    else .next (runCopy s core o)
  | none => .next s

/-! TXWAKE (R255) -/

/-- The transform context of a core may be started. -/
def txReady (s : State) (core : Nat) : Bool :=
  let c := getCore s core
  running s core && (getCtx s (keyOf core 0)).live && isFree s core 11 && txEn c && (getRing s core (txRing c)).any (fun r => txThr c ≤ r.filled)

/-- TXWAKE_START at core `a` (R255). -/
def execTxwakeStart (s : State) : Out :=
  let core := s.args.a
  let c := getCore s core
  let q := txRing c
  .next (if txReady s core then
      updCore (startHelper s core 11 (BitVec.ofNat 48 (txEntry c)) (BitVec.ofNat 64 q) 0 0 id) core
        (fun c => { c with bits := none, bitsRing := q })
    else s)

end Sys2Proof.Machine
end

