-- ==== Sys2Proof/Machine/Cuts.lean ====
section
/-! DEFINITION. The consistent cut (R32, R211 to R214, R300, R332, R358): MARKER_ARRIVE and CHECKPOINT_STORED; what a cut
saves, and how a saved pour stands again on its cores, at its origin or, under MOVE, at another. -/

namespace Sys2Proof.Machine

/-! What belongs to a pour -/

/-- What a core keeps when a shot leaves it: visitors, raster state of other pours, power (R17, R332, R366). -/
def CoreSt.left (c : CoreSt) : CoreSt :=
  { slots := c.slots, arrivals := c.arrivals, banks := c.banks, setups := c.setups, tokens := c.tokens, scan := c.scan,
    fduty := c.fduty, nextDuty := c.nextDuty, pstate := c.pstate, lower := c.lower, powered := c.powered, skipped := c.skipped }

/-- Frees the cores of a pour. -/
def leaveCores (s : State) (cores : List Nat) : State := cores.foldl (fun s k => updCore s k CoreSt.left) s

/-- The contexts of a pour that are live. -/
def pourCtxs (s : State) (pour : Nat) : List Ctx := (allCtxs s).filter (fun c => c.pour == pour && c.live)

/-- Contexts leave the part: their slots, visitor slots and places in arrival queues become free. -/
def dropCtxs (s : State) (keys : List Nat) : State :=
  let keep (k : Nat) : Bool := !keys.contains k
  { s with
    cx := if keep s.cx.key then s.cx else { key := s.cx.key }
    ctxs := s.ctxs.filter (fun c => keep c.1)
    cores := s.cores.map (fun c =>
      (c.1, { c.2 with slots := c.2.slots.filter (fun x => keep x.2), arrivals := c.2.arrivals.filter keep })) }

/-- The keys of a core's scratchpad and accumulator store: from, to (R142). -/
def coreLo (core : Nat) : Nat := winKey (winAddr core 0 0)
def coreHi (core : Nat) : Nat := winKey (winAddr core 2 0)

/-- Records that contexts of a tenant left with the scheduler. -/
def dropDirect (s : State) (tenant : Nat) (keys : List Nat) : State :=
  updTenant s tenant (fun t => { t with direct := t.direct.filter (fun d => !keys.contains d.key) })

/-- Requests that contexts and engines of cores left with fills. -/
def dropAsks (s : State) (mine : Nat → Bool) (cores : List Nat) : State :=
  let keepReq (r : Req) : Bool := match r with
    | .ctx k => !mine k
    | .copy c _ => !cores.contains c
    | .mat c _ => !cores.contains c
    | .drip _ => true
  { s with fills := s.fills.map (fun f => { f with reqs := f.reqs.filter keepReq, gen := f.gen.filter (fun k => !mine k) }) }

/-! Tokens, banks and slots of a pour (R332) -/

/-- A token is closed without a release: OPEN is decremented, by no context (R330, R332, log 56). -/
def shutToken (s : State) (t : Token) : State :=
  let s1 := match gread s t.tenant t.dom.toNat 8 with
    | .ok l s1 =>
      let opened := natOfBytes (l.drop 4) + 2 ^ 32 - 1
      (match gwrite s1 t.tenant t.dom.toNat (l.take 4 ++ bytesOfNat 4 opened) 1 (noWho s1) with
       | .ok s2 => s2
       | _ => s)
    | _ => s
  closeToken s1 t

/-- Banks and setup slots of a pour become free, its tokens close. -/
def dropRaster (s : State) (pour : Nat) : State :=
  let s1 := (s.cores.flatMap (fun c => c.2.tokens.filter (fun t => t.pour == pour))).foldl shutToken s
  { s1 with
    cores := s1.cores.map (fun c =>
      (c.1, { c.2 with banks := c.2.banks.filter (fun b => b.2.pour != pour), setups := c.2.setups.filter (fun x => x.2.pour != pour) })) }

/-! Recording (R211 to R213) -/

/-- The operation at the head of a core's matrix queue. -/
def headOp (s : State) (core : Nat) : Option MOp := (getCore s core).mq.head?

/-- A fill comes to its end while a pour is cut: its generator, or the core it is requested of, is not the pour's (R212, R300). -/
def fillComes (s : State) (pour : Nat) (f : Fill) : Bool :=
  match f.gen with
  | some g => (savedIn s g).isNone && (getCtx s g).live && (getCtx s g).pour != pour
  | none => s.cores.any (fun k => k.2.hreqs.contains (.gen f.tenant f.range f.block) && k.2.shot != some pour)

/-- A packet lands while a pour is cut: it goes to no core of it, or to an announcement kettle (R212). -/
def landsInCut (p : Option Pour) (q : Packet) : Bool :=
  match q.body with
  | .dec w _ _ _ | .msg w _ _ _ _ => !p.any (fun p => p.cores.contains q.dst) || isAnnounce (dwCore w) (dwKet w)
  | _ => !q.paused

/-- What a handler waits for may come while its pour is cut: from global memory, from the scheduler, from the layer units, from other
pours, from its own packets. What the cut's own units would have to do, or what the cut logs, does not come (R212). -/
def comesInCut (s : State) (c : Ctx) : Cond → Bool
  | .word win _ _ => !win
  | .fill t r b => (s.fills.filter (fun f => f.tenant == t && f.range == r && f.block == b)).all (fillComes s c.pour)
  | .rangeIdle n => (s.fills.filter (fun f => f.tenant == c.tenant.toNat && f.range == n)).all (fillComes s c.pour)
  | .ownDrips _ _ => !s.net.any (fun q => q.src == c.key && q.paused)
  | .stopWork => !matrixBusy s c.key && (s.net.filter (fun q => q.src == c.key)).all (landsInCut (findPour s c.pour))
  | .targetHome k | .helperInFlight k => mayIssue s (getCtx s k)
  | .fullService | .viewBank _ | .setupSlot | .ordSeq _ _ | .ordBlock _ _ _ _ | .launch _ | .lframe _ | .lframeTurn _ _ => true
  | _ => false

/-- A handler goes on: it may issue or move, or what it waits for is met or may come (R300). -/
def handlerGoes (s : State) (c : Ctx) : Bool :=
  mayIssue s c &&
    match c.st with
    | .ready => true
    | .waiting w | .inFlight w => condMet s c w || comesInCut s c w
    | _ => false

/-- A handler of an operation goes on, or can start (R300). -/
def handlersRun (s : State) (core : Nat) (o : MOp) : Bool :=
  (homeCtxs s core).any (fun c => c.row.any (fun r => r.1 == o.id && r.2.isSome) && handlerGoes s c)
    || (assignable s core).any (fun x => x.1.rank == 0)

/-- An operation is paused, and what it waits for does not come while its pour is cut (R146, R300, R303). -/
def opStuck (s : State) (core : Nat) (o : MOp) : Bool :=
  o.paused && !s.fills.any (fun f => f.reqs.contains (.mat core o.id) && fillComes s o.pour f)

/-- The executing operation of a core has come to its end, or cannot get there (R212, R276, R300). -/
def matrixStill (s : State) (core : Nat) : Bool :=
  match headOp s core with
  | none => true
  | some o =>
    match o.phase with
    | .queued => true
    | .supply => false
    | .computed => opStuck s core o
    | .draining => opStuck s core o || (!o.paused && !matDone o && !handlersRun s core o)

/-- A drip of a core's contexts is under way and not paused (R212). -/
def dripsFly (s : State) (core : Nat) : Bool :=
  s.net.any (fun p => homeCore p.src == core && (savedIn s p.src).isNone && !p.paused && (match p.body with
    | .drip .. => true
    | _ => false))

/-- A LAYER instruction of the core's contexts is In flight, and goes on (R358). -/
def layerGoes (s : State) (core : Nat) : Bool := (homeCtxs s core).any (fun c => c.layerBusy && handlerGoes s c)

/-- A unit may record (R212, R358). -/
def unitStill (s : State) (core : Nat) : Bool :=
  matrixStill s core && !dripsFly s core && !layerGoes s core && !s.closes.any (fun c => homeCore c.key == core)

/-- A cause that is due is delivered before a unit records (R213). -/
def deliverDue (s : State) (core : Nat) : State :=
  (upFrom (keyOf core 0) 12).foldl (fun s key =>
    let c := getCtx s key
    if c.waits && !c.charged.isEmpty && !c.inh then deliverCharged s key else s) s

/-- Rows of an operation that could not be released are dispatched again at resumption; their handlers hold none (R276). -/
def looseRows (s : State) (core : Nat) : State :=
  match headOp s core with
  | none => s
  | some o =>
    let isHeld (r : DrainRow) : Bool := match r.st with
      | .held _ => true
      | _ => false
    let rows := o.rows.filter isHeld
    let s1 := updMop s core o.id (fun o => { o with rows := o.rows.map (fun r => if isHeld r then { r with st := .waiting } else r) })
    let s2 := updCore s1 core (fun c => { c with hreqs := c.hreqs ++ rows.map (fun r => .drain o.id r.m) })
    (homeCtxs s2 core).foldl (fun s c =>
      if c.row.any (fun r => r.1 == o.id && r.2.isSome) then updCtx s c.key (fun c => { c with row := some (o.id, none) }) else s) s2

/-- A context as a cut records it: registers without VLIVE are not kept, here or at home (R34). One that waits is recorded
Waiting (R332, R358). -/
def Ctx.recorded (c : Ctx) : Ctx := { c with v := carried c.v c.vlive, homeV := carried c.homeV c.vlive }

/-- What stands again of a wait for the scheduler, for a helper, or for its turn in LFRAME: the instruction executes again
(R358). -/
def Ctx.reissued (c : Ctx) : Ctx :=
  match c.st with
  | .waiting (.helper _) | .waiting (.launch _) | .waiting (.lframeTurn _ _) => { c with st := .ready, again := true, stalled := false }
  | _ => c

/-- A core as a cut records it: its shot's state (R211), without what stays on the core (R17, R332). -/
def CoreSt.recorded (c : CoreSt) : CoreSt :=
  let keep (r : HReq) : Bool := r.rank != 3
  { c with slots := [], arrivals := [], banks := [], setups := [], tokens := [], hreqs := c.hreqs.filter keep }

/-- A packet that a cut of a pour logs: it arrives for a unit, or it is a context of the pour that moves, or a paused drip of
one (R212, R213). -/
def logged (s : State) (p : Pour) (q : Packet) : Bool :=
  match q.body with
  | .dec w _ _ _ => p.cores.contains q.dst && !isAnnounce (dwCore w) (dwKet w)
  | .msg w _ _ _ _ => p.cores.contains q.dst && !isAnnounce (dwCore w) (dwKet w)
  | .grant _ _ _ => p.cores.contains q.dst
  | .drip .. => q.paused && p.cores.contains (homeCore q.src) && (savedIn s q.src).isNone
      && (!(getCtx s q.src).live || (getCtx s q.src).pour == p.id)
  | .migrate key => (getCtx s key).pour == p.id

/-- What the cut of a pour saves (R32). -/
def capture (s0 : State) (p : Pour) : Image :=
  let s := p.cores.foldl looseRows s0
  { ctxs := (pourCtxs s p.id).map Ctx.recorded
    cores := p.cores.map (fun k => (k, (getCore s k).recorded))
    cells := s.mem.filter (fun c => p.cores.any (fun k => decide (coreLo k ≤ c.1) && decide (c.1 < coreHi k)))
    logs := s.net.filter (logged s p)
    ox := p.ox
    oy := p.oy
    cycle := s.cycle
    halves := s.halves
    phase := s.phase }

/-- The keys of a pour's contexts, and of the work of contexts that had ended, once the pour is saved under a serial (log 69). -/
def awayKey (s : State) (p : Pour) (keys : List Nat) (n key : Nat) : Nat :=
  if keys.contains key then (if key < 2 ^ 15 then asideKey key n else key)
  else if 2 ^ 15 ≤ key ∧ p.cores.contains (homeCore key) ∧ (savedIn s key).isNone then asideKey key (n + 1)
  else key

/-- The pour leaves its cores with an image saved. What its contexts left under way elsewhere goes on for them, under keys of its own
(R191, R206, R308, log 69). -/
def evictPour (s : State) (p : Pour) (img : Image) (st : PourSt) : State :=
  let keys := (pourCtxs s p.id).map Ctx.key
  let n := s.nextId
  let s1 := { s with net := s.net.filter (fun q => !logged s p q), joins := s.joins.filter (fun j => j.pour != p.id), nextId := n + 2 }
  let s2 := rekeyOut (awayKey s p keys n) (dropDirect s1 p.tenant keys)
  updPour (leaveCores (dropCtxs s2 keys) p.cores) p.id (fun q => { q with st := st, image := some { img with serial := n } })

/-- The MARK is still waited for: a trap that was due took its context to the handler first (R213). -/
def inMark (s : State) (m : Nat × BitVec 5 × Word) : Bool := (getCtx s m.1).st == .waiting (.cut m.2.1)

/-- Completes every MARK of a cut with a value, where its context still waits in it (R213, R214). -/
def finishMarks (s : State) (marks : List (Nat × BitVec 5 × Word)) (v : Word) : State :=
  marks.foldl (fun s m => if inMark s m then finish s m.1 m.2.1 v else s) s

/-- The cut of a pour is over. -/
def endCut (s : State) (pour : Nat) : State := { s with cuts := s.cuts.filter (fun x => x.pour != pour) }

/-- The cut is complete: every unit has recorded, and the dirty lines of its cores are written back (R212, R214). A trap that a MARK's
completion brings still joins the cut (R206). -/
def completeCut (s0 : State) (c : Cut) (p : Pour) : State :=
  let s := p.cores.foldl cleanCore s0
  let s1 := endCut s c.pour
  let n := s.nextId
  let s2 :=
    if c.marks.isEmpty then s
    else
      let ck : Ckpt :=
        { tenant := p.tenant, brew := p.brew, idx := p.idx, image := capture (finishMarks s1 c.marks 0) p,
          saves := s1.saves.filter (fun v => v.pour == p.id), dests := c.marks.map (fun m => m.2.2) }
      { s with ckpts := tput s.ckpts n ck, nextId := n + 1 }
  if c.frees then
    let s3 := finishMarks s2 c.marks (BitVec.ofNat 64 n)
    let nxt := ((s3.cuts.find? (fun x => x.pour == c.pour)).map Cut.next).getD c.next
    let s4 := endCut s3 c.pour
    evictPour s4 p (capture s4 p) nxt
  else finishMarks (updPour (endCut s2 c.pour) p.id (fun q => { q with st := .placed })) c.marks (BitVec.ofNat 64 n)

/-- The lowest role among a join's participants: the markers reach them all in one clock (R212, R279). -/
def lowestRole (j : Join) : Nat := ((j.parts.map Part.role).min?).getD 0

/-- What one marker does in a cut (R212): a join in its supply phase computes when every role has supplied, else abandons
(R279); else a unit that is still records, and with the last one the cut is complete. -/
def markerStep (s : State) (c : Cut) (p : Pour) : Option State :=
  let supply (k : Nat) : Option (Nat × MOp) := ((headOp s k).filter (fun o => o.phase == .supply)).map (fun o => (k, o))
  match c.units.findSome? supply with
  | some (_, o) =>
    match s.joins.find? (isJoin o) with
    | some j => some (if joinReady s j then computeJoin s j else abandonJoin s j (lowestRole j))
    | none => none
  | none =>
    match c.units.find? (unitStill s) with
    | some k =>
      let s1 := deliverDue s k
      let rest (x : Cut) : Cut := { x with units := x.units.filter (fun u => u != k) }
      let s2 := { s1 with cuts := mapFirst (fun x => x.pour == c.pour) rest s1.cuts }
      (match s2.cuts.find? (fun x => x.pour == c.pour) with
       | some c2 => some (if c2.units.isEmpty then completeCut s2 c2 p else s2)
       | none => some s2)
    | none => if c.units.isEmpty then some (completeCut s c p) else none

/-- MARKER_ARRIVE in the cut of pour `a` (R212). -/
def execMarkerArrive (s : State) : Out :=
  match s.cuts.find? (fun c => c.pour == s.args.a), findPour s s.args.a with
  | some c, some p => .next ((markerStep s c p).getD s)
  | _, _ => .next s

/-- CHECKPOINT_STORED: the image of checkpoint `a` stands in the save area; the decrements it owes are sent (R214). -/
def execCheckpointStored (s : State) : Out :=
  let n := s.args.a
  match tget s.ckpts n with
  | some c =>
    .next (if c.stored then s
      else
        (c.dests.filter (fun d => d != 0)).foldl (fun s d => postDec s schedKey d none .counted c.tenant)
          { s with ckpts := tput s.ckpts n { c with stored := true } })
  | none => .next s

/-! Standing again (R30, R32, R186) -/

/-- Where a core of a recorded pour stands after a change of origin; other cores stay. -/
def moveCore (p : Pour) (img : Image) (ox oy core : Nat) : Nat :=
  let x := coreX core
  let y := coreY core
  if img.ox ≤ x ∧ x < img.ox + p.w ∧ img.oy ≤ y ∧ y < img.oy + p.h then coreAt (x - img.ox + ox) (y - img.oy + oy) else core

/-- The key of a context whose home core moves; one aside stays aside (log 69). -/
def moveKey (mv : Nat → Nat) (key : Nat) : Nat := asideKey (keyOf (mv (homeCore key)) (homeIdx key)) (key / 2 ^ 15)

/-- X and Y of a destination word, translated (R186). -/
def moveWord (mv : Nat → Nat) (w : Word) : Word :=
  let c := mv (dwCore w)
  putField (putField w 0 6 (coreX c)) 6 5 (coreY c)

/-- A condition that names a context. -/
def moveCond (mv : Nat → Nat) : Cond → Cond
  | .targetHome k => .targetHome (moveKey mv k)
  | .helperInFlight k => .helperInFlight (moveKey mv k)
  | c => c

/-- A context at its new place (R30). -/
def Ctx.moved (mv : Nat → Nat) (p : Pour) (c : Ctx) : Ctx :=
  { c.reissued with
    key := moveKey mv c.key
    pourCsr := pourWord p
    stopped := false
    icode := none
    fetched := false
    st := match c.reissued.st with
      | .waiting w => .waiting (moveCond mv w)
      | .inFlight w => .inFlight (moveCond mv w)
      | st => st }

/-- Operations, requests and barriers of a core at its new place; paused work starts again. -/
def COp.moved (mv : Nat → Nat) (o : COp) : COp :=
  { o with
    key := moveKey mv o.key
    paused := false
    targets := o.targets.map (fun t => (mv t.1, t.2))
    chunks := o.chunks.map (fun k => { k with core := mv k.core }) }
def MOp.moved (mv : Nat → Nat) (o : MOp) : MOp :=
  let row (r : DrainRow) : DrainRow := match r.st with
    | .held k => { r with st := .held (moveKey mv k) }
    | _ => r
  { o with key := moveKey mv o.key, paused := false, rows := o.rows.map row }
def moveReq (mv : Nat → Nat) : HReq → HReq
  | .hstart k d e a => .hstart (moveKey mv k) d e a
  | .ctxld k d h => .ctxld (moveKey mv k) d h
  | r => r
def Barrier.moved (mv : Nat → Nat) (b : Barrier) : Barrier :=
  let c := mv (coreAt b.x0 b.y0)
  { b with x0 := coreX c, y0 := coreY c }

/-- A recorded core's state on the core where it stands again; what lives on that core stays (R17, R332). Zero-fill goes over
the lines that are not restored (R36), and LGROUP names no core outside the cluster of `core` (R149). -/
def CoreSt.restored (mv : Nat → Nat) (pour core : Nat) (old c : CoreSt) : CoreSt :=
  { c with
    shot := some pour
    lgroup := c.lgroup &&& lgroupMask core
    bars := c.bars.map (fun b => (b.1, b.2.moved mv))
    mq := c.mq.map (MOp.moved mv)
    mstall := c.mstall.map (MOp.moved mv)
    cq := c.cq.map (COp.moved mv)
    cstall := c.cstall.map (COp.moved mv)
    bits := c.bits.map (fun b => { b with chunk := b.chunk.map (fun x => (mv x.1, x.2)) })
    bstr := c.bstr.map (fun b => { b with core := mv b.core })
    hreqs := c.hreqs.map (moveReq mv)
    cache := c.cache.map (moveKey mv)
    spilled := c.spilled.map (moveKey mv)
    zfScratch := 0
    zfAcc := 0
    zfActive := true
    slots := old.slots
    arrivals := old.arrivals
    banks := old.banks
    setups := old.setups
    tokens := old.tokens
    scan := old.scan
    fduty := old.fduty
    nextDuty := old.nextDuty
    pstate := old.pstate
    lower := old.lower
    powered := old.powered
    skipped := old.skipped }

/-- Whom a discarded decrement is reported to, after the move. -/
def moveSrc (mv : Nat → Nat) : DecSrc → DecSrc
  | .message k => .message (moveKey mv k)
  | .copy k => .copy (moveKey mv k)
  | .drip k => .drip (moveKey mv k)
  | r => r

/-- A logged packet on its way again (R186, R212). -/
def Packet.moved (mv : Nat → Nat) (q : Packet) : Packet :=
  let q1 := { q with src := moveKey mv q.src, paused := false }
  match q.body with
  | .dec w x src t => { q1 with dst := mv q.dst, body := .dec (moveWord mv w) x (moveSrc mv src) t }
  | .msg w x l sd t => { q1 with dst := mv q.dst, body := .msg (moveWord mv w) x l sd t }
  | .grant d n t => { q1 with dst := mv q.dst, body := .grant (mv d) n t }
  | .migrate k => { q1 with dst := if q.dst = homeCore k then mv q.dst else q.dst, body := .migrate (moveKey mv k) }
  | .drip .. => q1

/-- A recorded byte's place after the move (R142). -/
def moveCell (mv : Nat → Nat) (c : Host.Cell) : Host.Cell :=
  let wa := c.1 - Config.windowBase
  (winKey (winAddr (mv (winCore wa)) (winKind wa) (winOff wa)), c.2)

/-- A context that waits on a fill is one of its requesters, or has its cause; one of a checkpoint touches again (R214, R303). -/
def Ctx.touchesAgain (s : State) (c : Ctx) : Ctx :=
  match c.st with
  | .waiting (.fill t r b) =>
    if c.charged.isEmpty && !s.fills.any (fun f => f.tenant == t && f.range == r && f.block == b && f.reqs.contains (.ctx c.key)) then
      { c with st := .ready }
    else c
  | _ => c

/-- A context stands again: one that was Away is under way to where it stood (R213). A generator whose fill is over holds no block. -/
def putMoved (mv : Nat → Nat) (p : Pour) (s : State) (c0 : Ctx) : State :=
  let c1 := (c0.moved mv p).touchesAgain s
  let at_ (g : GenHold) (f : Fill) : Bool := f.tenant == g.tenant && f.range == g.range && f.block == g.block
  let c := { c1 with gen := c1.gen.filter (fun g => s.fills.any (at_ g)) }
  let s1 := match c.gen with
    | some g => { s with fills := mapFirst (at_ g) (fun f => { f with gen := some c.key }) s.fills }
    | none => s
  let away (core : Nat) : State := post (putCtx s1 { c with place := .transit }) c.key core (.migrate c.key)
  match c.place with
  | .home | .transit => putCtx s1 c
  | .visitor core _ => away core
  | .queued core => away core

/-- The keys of what a saved pour left under way, once it stands again (log 69). -/
def homeKey (mv : Nat → Nat) (img : Image) (key : Nat) : Nat :=
  if img.owns key then (if img.serial != 0 && key / 2 ^ 15 == img.serial then moveKey mv (key % 2 ^ 15) else moveKey mv key) else key

/-- A requester of a fill that is an operation of a recorded core, at its new place. -/
def Req.moved (mv : Nat → Nat) (img : Image) (r : Req) : Req :=
  let has (core id : Nat) : Bool :=
    (imgCore img core).cq.any (fun o => o.id == id) || (imgCore img core).mq.any (fun o => o.id == id)
  match r with
  | .copy core id => if has core id then .copy (mv core) id else r
  | .mat core id => if has core id then .mat (mv core) id else r
  | r => r

/-- A saved pour stands again at an origin (R30, R32). It counts as placed anew among the expired ones (R38, log 70). -/
def restorePour (s : State) (p : Pour) (img : Image) (ox oy : Nat) : State :=
  let mv := moveCore p img ox oy
  let q : Pour := { p with ox := ox, oy := oy, st := .placed, expired := false, order := s.nextId, image := none }
  let s1 := { updPour s p.id (fun _ => q) with nextId := s.nextId + 1 }
  let s2 := img.cores.foldl (fun s k => updCore s (mv k.1) (fun old => CoreSt.restored mv p.id (mv k.1) old k.2)) (rekeyOut (homeKey mv img) s1)
  let m1 := q.cores.foldl (fun m k => eraseRange m (coreLo k) (coreHi k)) s2.mem
  let own (x : Nat × Setup) : Nat × Setup := if x.2.pour = p.id then (x.1, { x.2 with key := moveKey mv x.2.key }) else x
  let s3 :=
    { s2 with
      mem := img.cells.foldl (fun m c => wrB m (moveCell mv c).1 (moveCell mv c).2) m1
      net := s2.net ++ img.logs.map (Packet.moved mv)
      cores := s2.cores.map (fun c => (c.1, { c.2 with setups := c.2.setups.map own }))
      saves := s2.saves.map (fun v => if v.pour = p.id then { v with key := moveKey mv v.key } else v)
      fills := s2.fills.map (fun f => { f with reqs := f.reqs.map (Req.moved mv img) }) }
  img.ctxs.foldl (putMoved mv q) s3

/-! Pours that end without a cut (R373, R376) -/

/-- A key of a pour: of a context of it, of work of one that ended, or of what it left under way when it was saved. -/
def pourKey (s : State) (p : Pour) (key : Nat) : Bool :=
  match p.image with
  | some g => g.owns key
  | none =>
    (p.st == .placed || p.st == .cutting) && ((getCtx s key).live && (getCtx s key).pour == p.id
      || (decide (2 ^ 15 ≤ key) && p.cores.contains (homeCore key) && !(getCtx s key).live && (savedIn s key).isNone))

/-- What a pour has under way outside its cores goes on for nobody: nothing is reported any more (R191, R373). -/
def disown (s : State) (p : Pour) : State := rekeyOut (fun k => if pourKey s p k then nobodyKey else k) s

/-- Cupping hears of the retirement of the brews it let go on (R183, R299). -/
def reportBrew (s : State) (p : Pour) : State :=
  match findBrew s p.tenant p.brew with
  | some x =>
    if s.cupBrews.contains (p.tenant, p.brew) && decide (fieldN x.record 192 32 ≤ x.retired) then
      { s with
        cupBrews := s.cupBrews.filter (fun b => b != (p.tenant, p.brew))
        response := .ok [BitVec.ofNat 64 p.tenant, BitVec.ofNat 64 p.brew, BitVec.ofNat 64 p.idx, 0] }
    else s
  | none => s

/-- A pour is discarded: nothing of it stays, no completion message is sent, and it counts as retired (R183). The fills whose
generators go fail (R306), but for a tenant reset, which keeps memory (R376). That cores held for a pour that waits are free once
more is the model's choice (log 80). -/
def discardPour (reset : Bool) (s : State) (p : Pour) : State :=
  let ctxs := pourCtxs s p.id
  let keys := ctxs.map Ctx.key
  let lost : List FillFail := if reset then []
    else (ctxs ++ ((p.image.map Image.ctxs).getD [])).filterMap (fun c => c.gen.map (fun g =>
      { tenant := g.tenant, range := g.range, block := g.block, cause := 0x09, code := 0xFFFF_FFFF, key := nobodyKey }))
  let drop (q : Packet) : Bool := match q.body with
    | .migrate key => keys.contains key
    | .drip .. => q.paused && pourKey s p q.src
    | _ => false
  let s1 := { s with net := s.net.filter (fun q => !drop q), joins := s.joins.filter (fun j => j.pour != p.id),
                     cuts := s.cuts.filter (fun c => c.pour != p.id), saves := s.saves.filter (fun v => v.pour != p.id) }
  let asks := if p.st = .placed ∨ p.st = .cutting then p.cores else []
  let s2 := dropCtxs (disown (dropDirect (dropAsks s1 (pourKey s p) asks) p.tenant keys) p) keys
  let s3 := if p.st = .placed ∨ p.st = .cutting then leaveCores s2 p.cores else s2
  let s4 := failFills (chainBound s3 + lost.length) lost (dropRaster s3 p.id)
  reportBrew
    { updBrew s4 p.tenant p.brew (fun b => { b with retired := b.retired + 1 }) with
      pours := s4.pours.filter (fun q => q.id != p.id)
      heldCores := s4.heldCores.filter (fun h => h.2 != (p.tenant, p.brew, p.idx)) } p

end Sys2Proof.Machine
end

