-- ==== Sys2Proof/Machine/Scalar.lean ====
section
/-! DEFINITION. The groups ALU, ALUI, IM, BR, JAL and JALR (R112 to R122). -/

namespace Sys2Proof.Machine

/-! Shapes of the integer groups (R115, R118) -/

/-- An ALU minor with a W form: Op64 on the registers, or Op32 on their low words, sign-extended (R115). -/
def aluW (f : Word → Word → Word) (g : W32 → W32 → W32) (d a b : BitVec 5) (w : Bool) (s : State) : Out :=
  let x := rs s a
  let y := rs s b
  done (ws s d (if w then (g (x.setWidth 32) (y.setWidth 32)).signExtend 64 else f x y))

/-- An ALU minor without a W form (R115). -/
def alu64 (f : Word → Word → Word) (d a b : BitVec 5) (s : State) : Out := done (ws s d (f (rs s a) (rs s b)))

/-- The divisor of a division is zero (R115). -/
def divZero (y : Word) (w : Bool) : Bool := if w then y.setWidth 32 == (0 : W32) else y == 0

/-- A division: a zero divisor traps 0x0C with the dividend (R115). -/
def divW (f : Word → Word → Word) (g : W32 → W32 → W32) (d a b : BitVec 5) (w : Bool) (s : State) : Out :=
  failIf (divZero (rs s b) w) 0x0C (rs s a) (aluW f g d a b w) s

/-- An ALUI minor: the immediate sign-extended (R118). -/
def alui (f : Word → Word → Word) (d a : BitVec 5) (i : BitVec 12) (s : State) : Out :=
  done (ws s d (f (rs s a) (i.signExtend 64)))

/-- A comparison delivers 1 or 0 (R116). -/
def bit (n : Nat) (c : Bool) : BitVec n := if c then 1 else 0

/-- Leading zeros of an n-bit value (R116). -/
def clzN (n : Nat) (x : BitVec n) : BitVec n := BitVec.ofNat n (if x.toNat = 0 then n else n - 1 - Nat.log2 x.toNat)

/-- Trailing zeros of a number, up to `k`. -/
def trailing : Nat → Nat → Nat
  | 0, _ => 0
  | k + 1, x => if x % 2 = 1 then 0 else trailing k (x / 2) + 1

/-- Trailing zeros of an n-bit value (R116). -/
def ctzN (n : Nat) (x : BitVec n) : BitVec n := BitVec.ofNat n (trailing n x.toNat)

/-- One bits among the low `k` bits of a number. -/
def onesOf : Nat → Nat → Nat
  | 0, _ => 0
  | k + 1, x => x % 2 + onesOf k (x / 2)

/-- One bits of an n-bit value (R116). -/
def popN (n : Nat) (x : BitVec n) : BitVec n := BitVec.ofNat n (onesOf n x.toNat)

/-- The signed and unsigned smaller and larger value (R116). -/
def sMin {n : Nat} (x y : BitVec n) : BitVec n := if x.slt y then x else y
def sMax {n : Nat} (x y : BitVec n) : BitVec n := if x.slt y then y else x
def uMin {n : Nat} (x y : BitVec n) : BitVec n := if x.ult y then x else y
def uMax {n : Nat} (x y : BitVec n) : BitVec n := if x.ult y then y else x

/-- Offset addition that keeps bits [63:48] (R116, R117). -/
def padd (x y : Word) : Word := (x &&& 0xFFFF_0000_0000_0000) ||| ((x + y) &&& 0x0000_FFFF_FFFF_FFFF)

/-! ALU (R116) -/

/-- ADD (R116). -/
def execAdd (d a b : BitVec 5) (w : Bool) (s : State) : Out := aluW (fun x y => x + y) (fun x y => x + y) d a b w s

/-- SUB (R116). -/
def execSub (d a b : BitVec 5) (w : Bool) (s : State) : Out := aluW (fun x y => x - y) (fun x y => x - y) d a b w s

/-- AND (R116). -/
def execAnd (d a b : BitVec 5) (w : Bool) (s : State) : Out := aluW (fun x y => x &&& y) (fun x y => x &&& y) d a b w s

/-- OR (R116). -/
def execOr (d a b : BitVec 5) (w : Bool) (s : State) : Out := aluW (fun x y => x ||| y) (fun x y => x ||| y) d a b w s

/-- XOR (R116). -/
def execXor (d a b : BitVec 5) (w : Bool) (s : State) : Out := aluW (fun x y => x ^^^ y) (fun x y => x ^^^ y) d a b w s

/-- ANDN (R116). -/
def execAndn (d a b : BitVec 5) (w : Bool) (s : State) : Out := aluW (fun x y => x &&& ~~~y) (fun x y => x &&& ~~~y) d a b w s

/-- SLL (R116). -/
def execSll (d a b : BitVec 5) (w : Bool) (s : State) : Out := aluW (fun x y => x <<< (y &&& 63)) (fun x y => x <<< (y &&& 31)) d a b w s

/-- SRL (R116). -/
def execSrl (d a b : BitVec 5) (w : Bool) (s : State) : Out := aluW (fun x y => x >>> (y &&& 63)) (fun x y => x >>> (y &&& 31)) d a b w s

/-- SRA (R116). -/
def execSra (d a b : BitVec 5) (w : Bool) (s : State) : Out := aluW (fun x y => x.sshiftRight (y &&& 63).toNat) (fun x y => x.sshiftRight (y &&& 31).toNat) d a b w s

/-- MUL (R116). -/
def execMul (d a b : BitVec 5) (w : Bool) (s : State) : Out := aluW (fun x y => x * y) (fun x y => x * y) d a b w s

/-- MIN (R116). -/
def execMin (d a b : BitVec 5) (w : Bool) (s : State) : Out := aluW (fun x y => sMin x y) (fun x y => sMin x y) d a b w s

/-- MAX (R116). -/
def execMax (d a b : BitVec 5) (w : Bool) (s : State) : Out := aluW (fun x y => sMax x y) (fun x y => sMax x y) d a b w s

/-- MINU (R116). -/
def execMinu (d a b : BitVec 5) (w : Bool) (s : State) : Out := aluW (fun x y => uMin x y) (fun x y => uMin x y) d a b w s

/-- MAXU (R116). -/
def execMaxu (d a b : BitVec 5) (w : Bool) (s : State) : Out := aluW (fun x y => uMax x y) (fun x y => uMax x y) d a b w s

/-- CEQ (R116). -/
def execCeq (d a b : BitVec 5) (w : Bool) (s : State) : Out := aluW (fun x y => bit 64 (x == y)) (fun x y => bit 32 (x == y)) d a b w s

/-- CNE (R116). -/
def execCne (d a b : BitVec 5) (w : Bool) (s : State) : Out := aluW (fun x y => bit 64 (x != y)) (fun x y => bit 32 (x != y)) d a b w s

/-- CLT (R116). -/
def execClt (d a b : BitVec 5) (w : Bool) (s : State) : Out := aluW (fun x y => bit 64 (x.slt y)) (fun x y => bit 32 (x.slt y)) d a b w s

/-- CLTU (R116). -/
def execCltu (d a b : BitVec 5) (w : Bool) (s : State) : Out := aluW (fun x y => bit 64 (x.ult y)) (fun x y => bit 32 (x.ult y)) d a b w s

/-- CLE (R116). -/
def execCle (d a b : BitVec 5) (w : Bool) (s : State) : Out := aluW (fun x y => bit 64 (x.sle y)) (fun x y => bit 32 (x.sle y)) d a b w s

/-- CLEU (R116). -/
def execCleu (d a b : BitVec 5) (w : Bool) (s : State) : Out := aluW (fun x y => bit 64 (x.ule y)) (fun x y => bit 32 (x.ule y)) d a b w s

/-- DIV (R115, R116). -/
def execDiv (d a b : BitVec 5) (w : Bool) (s : State) : Out := divW (fun x y => x.sdiv y) (fun x y => x.sdiv y) d a b w s

/-- DIVU (R115, R116). -/
def execDivu (d a b : BitVec 5) (w : Bool) (s : State) : Out := divW (fun x y => x.udiv y) (fun x y => x.udiv y) d a b w s

/-- REM (R115, R116). -/
def execRem (d a b : BitVec 5) (w : Bool) (s : State) : Out := divW (fun x y => x.srem y) (fun x y => x.srem y) d a b w s

/-- REMU (R115, R116). -/
def execRemu (d a b : BitVec 5) (w : Bool) (s : State) : Out := divW (fun x y => x.umod y) (fun x y => x.umod y) d a b w s

/-- MULH: the high half of the signed product (R116). -/
def execMulh (d a b : BitVec 5) (s : State) : Out :=
  alu64 (fun x y => ((x.signExtend 128 * y.signExtend 128) >>> 64).setWidth 64) d a b s

/-- MULHU: the high half of the unsigned product (R116). -/
def execMulhu (d a b : BitVec 5) (s : State) : Out :=
  alu64 (fun x y => ((x.setWidth 128 * y.setWidth 128) >>> 64).setWidth 64) d a b s

/-- CLZ (R116). -/
def execClz (d a : BitVec 5) (w : Bool) (s : State) : Out := aluW (fun x _ => clzN 64 x) (fun x _ => clzN 32 x) d a 0 w s

/-- CTZ (R116). -/
def execCtz (d a : BitVec 5) (w : Bool) (s : State) : Out := aluW (fun x _ => ctzN 64 x) (fun x _ => ctzN 32 x) d a 0 w s

/-- POPC (R116). -/
def execPopc (d a : BitVec 5) (w : Bool) (s : State) : Out := aluW (fun x _ => popN 64 x) (fun x _ => popN 32 x) d a 0 w s

/-- PADD (R116, R117). -/
def execPadd (d a b : BitVec 5) (s : State) : Out := alu64 padd d a b s

/-- PTAG: the tag byte (R116, R117). -/
def execPtag (d a : BitVec 5) (s : State) : Out := alu64 (fun x _ => x >>> 56) d a 0 s

/-- PSETT: a pointer of x's offset and the tag byte y (R116, R117). -/
def execPsett (d a b : BitVec 5) (s : State) : Out :=
  alu64 (fun x y => (y <<< 56) ||| (x &&& 0x0000_FFFF_FFFF_FFFF)) d a b s

/-- CMOVNZ: x when y is not zero, otherwise the old S[d] (R116). -/
def execCmovnz (d a b : BitVec 5) (s : State) : Out := alu64 (fun x y => if y = 0 then rs s d else x) d a b s

/-- CMOVZ: x when y is zero, otherwise the old S[d] (R116). -/
def execCmovz (d a b : BitVec 5) (s : State) : Out := alu64 (fun x y => if y = 0 then x else rs s d) d a b s

/-! ALUI (R118) -/

/-- ADDI (R118). -/
def execAddi (d a : BitVec 5) (i : BitVec 12) (s : State) : Out := alui (fun x i => x + i) d a i s

/-- ANDI (R118). -/
def execAndi (d a : BitVec 5) (i : BitVec 12) (s : State) : Out := alui (fun x i => x &&& i) d a i s

/-- ORI (R118). -/
def execOri (d a : BitVec 5) (i : BitVec 12) (s : State) : Out := alui (fun x i => x ||| i) d a i s

/-- XORI (R118). -/
def execXori (d a : BitVec 5) (i : BitVec 12) (s : State) : Out := alui (fun x i => x ^^^ i) d a i s

/-- CEQI (R118). -/
def execCeqi (d a : BitVec 5) (i : BitVec 12) (s : State) : Out := alui (fun x i => bit 64 (x == i)) d a i s

/-- CLTI (R118). -/
def execClti (d a : BitVec 5) (i : BitVec 12) (s : State) : Out := alui (fun x i => bit 64 (x.slt i)) d a i s

/-- CLTUI (R118). -/
def execCltui (d a : BitVec 5) (i : BitVec 12) (s : State) : Out := alui (fun x i => bit 64 (x.ult i)) d a i s

/-- MULI (R118). -/
def execMuli (d a : BitVec 5) (i : BitVec 12) (s : State) : Out := alui (fun x i => x * i) d a i s

/-- PADDI (R118). -/
def execPaddi (d a : BitVec 5) (i : BitVec 12) (s : State) : Out := alui (fun x i => padd x i) d a i s

/-- SLLI: the count is imm12[5:0] (R118). -/
def execSlli (d a : BitVec 5) (i : BitVec 6) (s : State) : Out :=
  alu64 (fun x _ => let n := i.toNat; x <<< n) d a 0 s

/-- SRLI: the count is imm12[5:0] (R118). -/
def execSrli (d a : BitVec 5) (i : BitVec 6) (s : State) : Out :=
  alu64 (fun x _ => let n := i.toNat; x >>> n) d a 0 s

/-- SRAI: the count is imm12[5:0] (R118). -/
def execSrai (d a : BitVec 5) (i : BitVec 6) (s : State) : Out :=
  alu64 (fun x _ => let n := i.toNat; x.sshiftRight n) d a 0 s

/-! IMZ and IMK (R119) -/

/-- IMZ: the immediate at 16 q, every other bit zero. -/
def execImz (d : BitVec 5) (q : BitVec 2) (i : BitVec 16) (s : State) : Out :=
  done (ws s d (i.setWidth 64 <<< (16 * q.toNat)))

/-- IMK: the immediate at 16 q, every other bit kept. -/
def execImk (d : BitVec 5) (q : BitVec 2) (i : BitVec 16) (s : State) : Out :=
  let sh := 16 * q.toNat
  done (ws s d ((rs s d &&& ~~~((0xFFFF : Word) <<< sh)) ||| (i.setWidth 64 <<< sh)))

/-! Branches and jumps (R120 to R122) -/

/-- The target of a branch or jump: PC + 4 + 4 times the offset (R120, R121). -/
def target {n : Nat} (c : Ctx) (o : BitVec n) : Addr := c.pc + 4 + (o.signExtend 48 <<< 2)

/-- A branch: the target when taken, else the next word (R120). -/
def branch (taken : Bool) (o : BitVec 18) (s : State) : Out := doneAt (if taken then target s.cx o else pcNext s.cx) s

/-- The link value of JAL and JALR: PC + 4, zero-extended (R121, R122). -/
def link (c : Ctx) : Word := (pcNext c).setWidth 64

/-- BZ (R120). -/
def execBz (a : BitVec 5) (o : BitVec 18) (s : State) : Out :=
  let x := rs s a
  branch (x == 0) o s

/-- BNZ (R120). -/
def execBnz (a : BitVec 5) (o : BitVec 18) (s : State) : Out :=
  let x := rs s a
  branch (x != 0) o s

/-- BLT (R120). -/
def execBlt (a : BitVec 5) (o : BitVec 18) (s : State) : Out :=
  let x := rs s a
  branch (x.slt 0) o s

/-- BGE (R120). -/
def execBge (a : BitVec 5) (o : BitVec 18) (s : State) : Out :=
  let x := rs s a
  branch (!x.slt 0) o s

/-- BGT (R120). -/
def execBgt (a : BitVec 5) (o : BitVec 18) (s : State) : Out :=
  let x := rs s a
  branch (!x.sle 0) o s

/-- BLE (R120). -/
def execBle (a : BitVec 5) (o : BitVec 18) (s : State) : Out :=
  let x := rs s a
  branch (x.sle 0) o s

/-- JAL (R121). -/
def execJal (d : BitVec 5) (o : BitVec 21) (s : State) : Out := doneAt (target s.cx o) (ws s d (link s.cx))

/-- JALR: a target that is not a multiple of 4 traps 0x06 (R122). -/
def execJalr (d a : BitVec 5) (i : BitVec 16) (s : State) : Out :=
  let t : Addr := (rs s a).setWidth 48 + i.signExtend 48
  failIf (t &&& 3 != 0) 0x06 (t.setWidth 64) (fun s => doneAt t (ws s d (link s.cx))) s

end Sys2Proof.Machine
end

