-- ==== Sys2Proof/Machine/Sched.lean ====
section
/-! DEFINITION. The scheduler (R18 to R31, R36, R38): ACCEPT_RECORD, PLACE_POUR, POUR_RESUME, CONTROL_CONTEXT_START,
ZERO_FILL_STEP, SHOT_RETIRE, SLICE_EXPIRE, PREEMPT_CUT. -/

namespace Sys2Proof.Machine

/-! The launch record (R21, R22) -/

/-- `n` bytes of a record from a byte offset on. -/
def recN (r : BitVec 512) (off n : Nat) : Nat := fieldN r (8 * off) (8 * n)

def Brew.prio (b : Brew) : Nat := recN b.record 28 1
def Brew.width (b : Brew) : Nat := recN b.record 20 2
def Brew.height (b : Brew) : Nat := recN b.record 22 2
def Brew.after (b : Brew) : Bool := bitN b.record 248
def Brew.even (b : Brew) : Bool := bitN b.record 249
def Brew.move (b : Brew) : Bool := bitN b.record 250
def Brew.dest (b : Brew) : Word := BitVec.ofNat 64 (recN b.record 32 8)

/-- What the scheduler finds where a segment table should be (R23). -/
inductive TableRead where
  | ok (g : Vector Seg 8) (s : State)
  | bad
  | wait

/-- Entries of a table as registers. -/
def segsOf (l : List (Option Seg)) : Vector Seg 8 :=
  (l.foldl (fun (a : Vector Seg 8 × Nat) e => (vset a.1 a.2 (e.getD {}), a.2 + 1)) (Vector.replicate 8 {}, 0)).1

/-- Reads a segment table (R23). -/
def readTable (s : State) (tenant addr : Nat) : TableRead :=
  if addr % 128 ≠ 0 ∨ 2 ^ 48 ≤ addr then .bad
  else
    match gread s tenant addr 128 with
    | .ok l s1 =>
      let es := (upFrom 0 8).map (fun i => segEntry (natOfBytes ((l.drop (16 * i)).take 16)))
      if es.all Option.isSome then .ok (segsOf es) s1 else .bad
    | .wait => .wait
    | _ => .bad

/-- The first fault of R25 a record has, or 0. -/
def rejectCode (s : State) (r : BitVec 512) (table : Option (Vector Seg 8)) : Nat :=
  let done := BitVec.ofNat 64 (recN r 32 8)
  if recN r 52 12 ≠ 0 ∨ 8 ≤ recN r 31 1 then 1
  else if recN r 20 2 = 0 ∨ 64 < recN r 20 2 ∨ recN r 22 2 = 0 ∨ 24 < recN r 22 2 then 2
  else if recN r 24 4 = 0 ∨ 65535 < recN r 24 4 then 3
  else if 7 < recN r 28 1 then 4
  else if 10 < recN r 29 1 then 5
  else if 8 < recN r 30 1 then 6
  else
    match table with
    | none => 7
    | some g =>
      let g3 := vget g 3 {}
      if recN r 0 8 % 4 ≠ 0 ∨ g3.limit.toNat ≤ recN r 0 8 ∨ !bitN g3.rights rightX then 8
      else if done ≠ 0 ∧ !dwOk s done then 9
      else 0

/-! Completion messages (R20, R25) -/

/-- The 16-byte payload. -/
def completion (num idx status : Nat) : BitVec 128 := BitVec.ofNat 128 (num % 2 ^ 32 + idx * 2 ^ 32 + status * 2 ^ 64)

/-- Sends a completion message where the record names a usable destination word. -/
def sendCompletion (s : State) (tenant num idx status : Nat) (done : Word) : State :=
  if done ≠ 0 ∧ dwOk s done then postDec s schedKey done (some (completion num idx status)) .counted tenant else s

/-! Acceptance (R24, R25) -/

/-- The number of the queue that LAUNCH feeds (R182). -/
def directQueue : Nat := 8

/-- A record is judged and takes a brew number; the answer is what LAUNCH returns (R25, R182). None while the table cannot be
read in reduced service. -/
def judge (s : State) (tenant queue : Nat) (r : BitVec 512) : Option (State × Word) :=
  let num := (getTenant s tenant).nextBrew
  let number (s : State) : State := updTenant s tenant (fun t => { t with nextBrew := (num + 1) % 2 ^ 32 })
  let reject (s : State) (code : Nat) : State × Word :=
    let s1 := number s
    let s2 :=
      if code = 9 then
        if queue = directQueue then s1 else updTenant s1 tenant (fun t => { t with rejected9 := t.rejected9 + 1 })
      else sendCompletion s1 tenant num 0xFFFF_FFFF code (BitVec.ofNat 64 (recN r 32 8))
    (s2, BitVec.ofNat 64 (2 ^ 63 + code))
  match readTable s tenant (recN r 40 8) with
  | .wait => none
  | .bad => some (reject s (rejectCode s r none))
  | .ok g s1 =>
    let code := rejectCode s r (some g)
    if code ≠ 0 then some (reject s1 code)
    else
      let b : Brew := { tenant := tenant, num := num, queue := queue, record := r, segs := g }
      let s2 := number s1
      some ({ s2 with brews := s2.brews ++ [b] }, BitVec.ofNat 64 num)

/-- The oldest record that LAUNCH passed (R182). -/
def acceptDirect (s : State) (tenant : Nat) : State :=
  match (getTenant s tenant).direct with
  | [] => s
  | x :: rest =>
    match judge s tenant directQueue x.record with
    | none => s
    | some (s1, v) => finish (updTenant s1 tenant (fun t => { t with direct := rest })) x.key x.d v

/-- The next announced record of a queue (R24, R375). One that cannot be read is dropped and counted. -/
def acceptQueued (s : State) (tenant q : Nat) : State :=
  let u := tgetD (getTenant s tenant).queues q {}
  let put (s : State) (u : Queue) : State := updTenant s tenant (fun t => { t with queues := tput t.queues q u })
  let count (s : State) (n : Nat) : State := updTenant s tenant (fun t => { t with annDiscarded := t.annDiscarded + n })
  if u.kept = 0 then s
  else if u.base = 0 ∨ u.slots = 0 then count (put s { u with kept := 0 }) 1
  else
    let taken : Queue := { u with next := (u.next + 1) % wrapValue u.slots, kept := u.kept - 1 }
    match gread s tenant (u.base.toNat + 64 * (u.next % u.slots)) 64 with
    | .ok l s1 => ((judge s1 tenant q (BitVec.ofNat 512 (natOfBytes l))).map (fun x => put x.1 taken)).getD s
    | .wait => s
    | _ => count (put s taken) 1

/-- ACCEPT_RECORD of tenant `a`, queue `b`; 8 is the direct queue (R24, R25, R182, R375). -/
def execAcceptRecord (s : State) : Out :=
  let t := s.args.a
  .next (if !(getTenant s t).enabled then s
    else if s.args.b = directQueue then acceptDirect s t
    else acceptQueued s t s.args.b)

/-! The choice of the next pour (R26) -/

/-- Every earlier brew of the same queue has retired all its pours, where the flag asks for it (R22). -/
def afterOk (s : State) (b : Brew) : Bool :=
  !b.after ||
    (s.brews.takeWhile (fun x => !(x.tenant == b.tenant && x.num == b.num))).all
      (fun x => x.tenant != b.tenant || x.queue != b.queue || decide (x.count ≤ x.retired))

/-- The saved pours of a brew, by index (R26, R31). -/
def savedOf (s : State) (b : Brew) : List Pour :=
  sortBy Pour.idx (s.pours.filter (fun p => p.tenant == b.tenant && p.brew == b.num && p.st == .saved))

/-- A brew has a pour that was never placed and may be. -/
def freshReady (s : State) (b : Brew) : Bool := b.fresh.isSome && afterOk s b

/-- A pour that waits to be placed: its brew, its index, and its saved form if it has run before. -/
structure Cand where
  brew : Brew
  idx : Nat
  saved : Option Pour

/-- How cores held for a pour name it. -/
def Cand.name (c : Cand) : Nat × Nat × Nat := (c.brew.tenant, c.brew.num, c.idx)

/-- The waiting pours of a tenant that cores are held for (R38). -/
def heldFor (s : State) (t : Nat) : List Cand :=
  s.heldCores.filterMap (fun h =>
    if h.2.1 != t then none
    else
      (findBrew s t h.2.2.1).bind (fun b =>
        match (savedOf s b).find? (fun p => p.idx == h.2.2.2) with
        | some p => some { brew := b, idx := p.idx, saved := some p }
        | none => if b.fresh == some h.2.2.2 && freshReady s b then some { brew := b, idx := h.2.2.2, saved := none } else none))

/-- The pour of a brew that is next in index among those that never ran: one the host let go on, or a fresh one (R26, R373). -/
def firstRun (s : State) (b : Brew) : Option Cand :=
  let again : Option Cand :=
    ((savedOf s b).find? (fun p => p.image.isNone)).map (fun p => { brew := b, idx := p.idx, saved := some p })
  let fresh : Option Cand := if freshReady s b then b.fresh.map (fun i => { brew := b, idx := i, saved := none }) else none
  match again, fresh with
  | some x, some y => some (if y.idx < x.idx then y else x)
  | some x, none => if afterOk s b then some x else none
  | none, y => y

/-- The pour a tenant has next by R26: at its highest level, pre-empted pours first. -/
def levelCand (s : State) (t : Nat) : Option Cand :=
  let cut (b : Brew) : List Pour := (savedOf s b).filter (fun p => p.image.isSome)
  let ws := s.brews.filter (fun b => b.tenant == t && (!(cut b).isEmpty || (firstRun s b).isSome))
  let top := ws.foldl (fun m b => if m < b.prio then b.prio else m) 0
  let level := ws.filter (fun b => b.prio == top)
  match level.findSome? (fun b => (cut b).head?.map (fun p => ({ brew := b, idx := p.idx, saved := some p } : Cand))) with
  | some c => some c
  | none => level.findSome? (firstRun s)

/-- The pour a tenant has next: at its highest level one that cores are held for comes before the others, so that a pour of its own
that was cut for it does not take its turn (R26, R38). -/
def tenantCand (s : State) (t : Nat) : Option Cand :=
  match levelCand s t with
  | some c => some (((heldFor s t).find? (fun h => decide (c.brew.prio ≤ h.brew.prio))).getD c)
  | none => (heldFor s t).head?

/-- The enabled tenants in the order of their turns (R26). -/
def turnOrder (s : State) : List Nat :=
  ((upFrom (s.lastTenant + 1) 16).map (fun i => i % 16)).filter (fun t => (getTenant s t).enabled)

/-! Origins (R22, R27, R38, R381) -/

/-- The columns and rows that pours may use (R381). -/
def usable (s : State) : Nat × Nat := if s.phase = 2 then (Config.cols, Config.rows) else (32, 12)

/-- A core is free, and not held for another pour (R27, R38). -/
def coreFree (s : State) (who : Nat × Nat × Nat) (core : Nat) : Bool :=
  (getCore s core).shot.isNone && s.heldCores.all (fun h => h.1 != core || h.2 == who)

/-- The cores of a rectangle. -/
def rectCores (w h ox oy : Nat) : List Nat := (upFrom oy h).flatMap (fun y => (upFrom ox w).map (fun x => coreAt x y))

/-- A candidate fits at an origin (R27). -/
def fitsAt (s : State) (c : Cand) (ox oy : Nat) : Bool :=
  let u := usable s
  decide (ox + c.brew.width ≤ u.1) && decide (oy + c.brew.height ≤ u.2)
    && (!c.brew.even || (ox % 2 == 0 && oy % 2 == 0))
    && (rectCores c.brew.width c.brew.height ox oy).all (coreFree s c.name)

/-- The first origin a candidate fits at, row by row; a saved pour without MOVE stands only where it stood (R22, R27). -/
def originOf (s : State) (c : Cand) : Option (Nat × Nat) :=
  let scan : Option (Nat × Nat) :=
    (upFrom 0 Config.rows).findSome? (fun y =>
      ((upFrom 0 Config.cols).find? (fun x => fitsAt s c x y)).map (fun x => (x, y)))
  match c.saved.filter (fun p => p.image.isSome) with
  | some p => if c.brew.move then scan else if fitsAt s c p.ox p.oy then some (p.ox, p.oy) else none
  | none => scan

/-- The pour that is placed next, with its origin: the first in the rotation that fits (R26). -/
def nextPlacement (s : State) : Option (Cand × Nat × Nat) :=
  (turnOrder s).findSome? (fun t => (tenantCand s t).bind (fun c => (originOf s c).map (fun o => (c, o.1, o.2))))

/-! Placement (R28, R32) -/

/-- Nothing an earlier pour left in the slots of a core's own contexts stays (R29). -/
def clearSlots (s : State) (cores : List Nat) : State := dropCtxs s (cores.flatMap (fun k => upFrom (keyOf k 0) 12))

/-- What every placement and resumption leaves with the scheduler: whose turn it was, and the cores it held (R26, R38). -/
def served (s : State) (c : Cand) : State :=
  { s with lastTenant := c.brew.tenant, heldCores := s.heldCores.filter (fun h => h.2 != c.name) }

/-! What a control context starts with (R28, R299) -/

/-- Bits of DBG that enable the breakpoints a pour was placed with (R201, R299). -/
def breakBits (p : Pour) : Nat :=
  ((upFrom 0 4).map (fun i => if (vget p.breaks i none).isSome then 2 ^ (4 + i) else 0)).foldl (fun a b => a + b) 0

/-- Context 0 as placement leaves it: steps 3 to 6 of R28. It waits for its start. -/
def controlCtx (b : Brew) (p : Pour) (core : Nat) : Ctx :=
  let arg := padd (BitVec.ofNat 64 (recN b.record 8 8)) (BitVec.ofNat 64 (p.idx * recN b.record 16 4))
  let c : Ctx :=
    { key := keyOf core 0
      pour := p.id
      st := .waiting .start
      pc := BitVec.ofNat 48 (recN b.record 0 8)
      g := b.segs
      rmode := launchRmode
      vlive := 0xFFFF
      dbg := BitVec.ofNat 64 (breakBits p)
      pourCsr := pourWord p
      brewCsr := BitVec.ofNat 64 (b.prio * 2 ^ 32 + b.num)
      tenant := BitVec.ofNat 4 p.tenant
      bpa := p.breaks.map (fun o => (o.getD 0).setWidth 64) }
  (c.ws 2 (BitVec.ofNat 64 p.idx)).ws 3 arg

/-- Places a pour for the first time: steps 1 to 6 of R28, on every core of its rectangle. -/
def placeFresh (s : State) (c : Cand) (ox oy : Nat) : State :=
  let b := c.brew
  let p : Pour :=
    { id := (c.saved.map Pour.id).getD s.nextId, tenant := b.tenant, brew := b.num, idx := c.idx, w := b.width, h := b.height, ox := ox, oy := oy,
      order := s.nextId, breaks := s.breaks }
  let s1 := clearSlots (served s c) p.cores
  let setup (k : CoreSt) : CoreSt :=
    { k.left with
      shot := some p.id
      starting := true
      lsplit := BitVec.ofNat 64 (recN b.record 30 1)
      hresv := BitVec.ofNat 64 (recN b.record 29 1)
      zfActive := true }
  let s2 := p.cores.foldl (fun s k => updCore s k setup) s1
  let s3 := updBrew s2 b.tenant b.num (fun x => if c.saved.isNone then { x with nextIdx := c.idx + 1 } else x)
  { p.cores.foldl (fun s k => putCtx s (controlCtx b p k)) s3 with
    pours := s3.pours.filter (fun q => q.id != p.id) ++ [p]
    nextId := s3.nextId + 1
    mem := p.cores.foldl (fun m k => eraseRange m (coreLo k) (coreHi k)) s3.mem }

/-- Every core of the rectangle is powered; one that is not powers up first (R366). -/
def poweredAt (s : State) (c : Cand) (ox oy : Nat) : Bool :=
  (rectCores c.brew.width c.brew.height ox oy).all (fun k => (getCore s k).powered)

/-- PLACE_POUR: the next pour by R26 and R27, when it has not run before (R28). -/
def execPlacePour (s : State) : Out :=
  match nextPlacement s with
  | some (c, ox, oy) =>
    .next (if c.saved.all (fun p => p.image.isNone) && poweredAt s c ox oy then placeFresh s c ox oy else s)
  | none => .next s

/-- POUR_RESUME: the next pour by R26 and R27, when it was cut before (R32). -/
def execPourResume (s : State) : Out :=
  match nextPlacement s with
  | some (c, ox, oy) =>
    match c.saved with
    | some p =>
      match p.image with
      | some img =>
        .next (if poweredAt s c ox oy then
            restorePour (clearSlots (served s c) (rectCores c.brew.width c.brew.height ox oy)) p img ox oy
          else s)
      | none => .next s
    | none => .next s
  | none => .next s

/-- CONTROL_CONTEXT_START at core `a` (R28): its pour has every core of its rectangle, and context 0 becomes Ready at the entry. -/
def execControlContextStart (s : State) : Out :=
  let core := s.args.a
  .next (if (getCore s core).starting && running s core then
      updCtx (updCore s core (fun k => { k with starting := false })) (keyOf core 0) (fun c => { c with st := .ready })
    else s)

/-! Zero-fill (R29, R36) -/

/-- Two lines on, up to a last one. -/
def twoOn (n last : Nat) : Nat := if n + 2 < last then n + 2 else last

/-- ZERO_FILL_STEP at core `a` (R36): two scratchpad lines and two accumulator lines are reached. A line reads as zero from
placement on (R29), so only the sequence moves. -/
def execZeroFillStep (s : State) : Out :=
  let core := s.args.a
  let k := getCore s core
  let lines := scratchSize k / 128
  let a := twoOn k.zfScratch lines
  let b := twoOn k.zfAcc (Config.accBytes / 128)
  .next (if k.zfActive then
      setCore s core { k with zfScratch := a, zfAcc := b, zfActive := !(a == lines && b == Config.accBytes / 128) }
    else s)

/-! Retirement (R19, R20) -/

/-- Nothing that the contexts and engines of a core's shot issued is still under way (R19). What an earlier pour of the core left when
it was saved is not the shot's. -/
def workDone (s : State) (core : Nat) : Bool :=
  let k := getCore s core
  let mine (key : Nat) : Bool := homeCore key == core && (savedIn s key).isNone
  k.cq.isEmpty && k.mq.isEmpty && k.cstall.isEmpty && k.mstall.isEmpty && k.hreqs.isEmpty && !k.kettles.any (fun x => x.2.pending)
    && !s.net.any (fun p => mine p.src) && !s.closes.any (fun c => mine c.key) && !s.lateFails.any (fun f => mine f.key)
    && !s.fills.any (fun f => f.starter.any (fun y => some y.1 == k.shot && homeCore y.2 == core))

/-- The shot of a core can retire (R19): causes and upcalls that context 0 can still take come first. -/
def shotDone (s : State) (core : Nat) : Bool :=
  let c0 := getCtx s (keyOf core 0)
  running s core && !(getCore s core).starting && c0.st == .waiting .stopShot && c0.place == .home
    && (upFrom 1 11).all (fun i => isFree s core i)
    && workDone s core && (c0.inh || (c0.charged.isEmpty && c0.upcalls.isEmpty))

/-- The shot of a core has retired, while the rest of its pour goes on. -/
def shotGone (s : State) (core : Nat) : Bool := !(getCore s core).starting && !(getCtx s (keyOf core 0)).live

/-- A pour retires (R19, R20): the dirty lines of its cores are written back, the cores are free, its raster state goes (R332), handles that were not restored are discarded
(R209), its completion message is sent. -/
def retirePour (s : State) (p : Pour) : State :=
  let s0 := dropCtxs (p.cores.foldl cleanCore s) ((pourCtxs s p.id).map Ctx.key)
  let s1 := dropRaster (leaveCores (clearSlots s0 p.cores) p.cores) p.id
  let s2 :=
    { updBrew s1 p.tenant p.brew (fun b => { b with retired := b.retired + 1 }) with
      pours := s1.pours.filter (fun q => q.id != p.id)
      saves := s1.saves.filter (fun v => v.pour != p.id)
      joins := s1.joins.filter (fun j => j.pour != p.id) }
  match findBrew s p.tenant p.brew with
  | some b => reportBrew (sendCompletion s2 p.tenant p.brew p.idx 0 b.dest) p
  | none => s2

/-- SHOT_RETIRE at core `a` (R19, R20, R186, R193): context 0 becomes Free, kettles, payloads and allowances go; with its last
shot the pour retires. -/
def execShotRetire (s : State) : Out :=
  let core := s.args.a
  match shotPour s core with
  | some p =>
    if shotDone s core then
      let s1 := dropCtxs s [keyOf core 0]
      let s2 := updCore s1 core (fun k => { k with kettles := [], inbox := [], allow := [] })
      .next (if p.cores.all (shotGone s2) then retirePour s2 p else s2)
    else .next s
  | none => .next s

/-! Slices and pre-emption (R31, R38) -/

/-- SLICE_EXPIRE of pour `a` (R31). Its last shot's retirement in that clock comes first: a pour that is gone has no slice. -/
def execSliceExpire (s : State) : Out :=
  .next (updPour s s.args.a (fun p => if p.st = .placed ∨ p.st = .cutting then { p with expired := true } else p))

/-- A candidate could stand on an empty mesh (R35, R381). -/
def couldFit (s : State) (c : Cand) : Bool :=
  let u := usable s
  match c.saved.filter (fun p => p.image.isSome) with
  | some p =>
    if c.brew.move then decide (c.brew.width ≤ u.1) && decide (c.brew.height ≤ u.2)
    else decide (p.ox + p.w ≤ u.1) && decide (p.oy + p.h ≤ u.2)
  | none => decide (c.brew.width ≤ u.1) && decide (c.brew.height ≤ u.2)

/-- The waiting pours that do not fit: those that cores are held for, then the others in the rotation. R38 does not say which of
several waiting pours pre-empts first: the order is the model's choice (R31, R38, log 80). -/
def waitingCands (s : State) : List Cand :=
  let cs := ((turnOrder s).filterMap (tenantCand s)).filter (fun c => (originOf s c).isNone)
  let mine (c : Cand) : Bool := s.heldCores.any (fun h => h.2 == c.name)
  cs.filter mine ++ cs.filter (fun c => !mine c && couldFit s c)

/-- The expired pour that is cut for it (R38). -/
def victimFor (s : State) (c : Cand) : Option Pour :=
  let expired := sortBy Pour.order (s.pours.filter (fun p => p.expired && (p.st == .placed || p.st == .cutting)))
  let prioOf (p : Pour) : Nat := ((findBrew s p.tenant p.brew).map Brew.prio).getD 0
  match expired.find? (fun p => p.tenant != c.brew.tenant) with
  | some p => some p
  | none => expired.find? (fun p => p.tenant == c.brew.tenant && decide (prioOf p ≤ c.brew.prio))

/-- What is cut next, and for whom: the first waiting pour that has an expired pour to pre-empt (R31, R35, R38). -/
def nextVictim (s : State) : Option (Cand × Pour) :=
  (waitingCands s).findSome? (fun c => (victimFor s c).map (fun p => (c, p)))

/-- PREEMPT_CUT (R31, R38): one pour is cut at a time, and its cores are held for the waiting pour. -/
def execPreemptCut (s : State) : Out :=
  .next (if s.cuts.any (fun k => k.frees) then s
    else
      match nextVictim s with
      | none => s
      | some (c, p) =>
        let s1 := startCut s p.id true .saved []
        { s1 with heldCores := s1.heldCores ++ p.cores.map (fun k => (k, c.name)) })

end Sys2Proof.Machine
end

