-- ==== Sys2Proof/Machine/Power.lean ====
section
/-! DEFINITION. What the part does by itself (R147, R148, R154, R255, R365 to R371, R380, R381): LSPLIT_CSR_WRITE,
TXWAKE_CSR_WRITE, FDUTY_UPDATE, FORCED_CLOCK_SKIP, HBM_BUDGET_REFILL, SELF_REFRESH_ENTER, SELF_REFRESH_EXIT,
CLOCK_SWEEPER_VISIT, CORE_POWER_UP, CORE_POWER_OFF, DEVICE_RESET, STACK_TRAINED, FULL_SERVICE. -/

namespace Sys2Proof.Machine

/-! Writes of per-core CSRs (R148, R255) -/

/-- LSPLIT_CSR_WRITE at core `a` with the value in `word` (R148, R283): a refused value changes nothing, and the write waits
for matrix operations whose slots it would remove. -/
def execLsplitCsrWrite (s : State) : Out :=
  let core := s.args.a
  let v : Word := s.args.word.setWidth 64 &&& csrMask core 0x040
  .next (if csrRefused 0x040 v || opsAbove s core (scratchSize { getCore s core with lsplit := v }) then s
    else writeLsplit core v s)

/-- TXWAKE_CSR_WRITE at core `a` with the value in `word` (R255): a refused value changes nothing. -/
def execTxwakeCsrWrite (s : State) : Out :=
  let core := s.args.a
  let v : Word := s.args.word.setWidth 64 &&& csrMask core 0x043
  .next (if csrRefused 0x043 v then s else writeTxwake core v s)

/-! Fetch duty and PSTATE (R367, R369) -/

/-- The candidate level of a core (R369). -/
def pstateFor (record : List Byte) (temp : Int) (duty : Nat) : Nat :=
  if Config.tsevere record ≤ temp ∨ duty ≤ 4 then 2 else if Config.tcons record ≤ temp ∨ duty ≤ 12 then 1 else 0

/-- The threshold of a level (R369). -/
def threshold (record : List Byte) (level : Nat) : Int := if level = 2 then Config.tsevere record else Config.tcons record

/-- LEVEL after an interval: it rises at once, and falls with the second interval in a row whose candidate is lower and
whose temperature is two degrees below the level's threshold (R369). `lower` counts those intervals. -/
def pstateStep (record : List Byte) (k : CoreSt) (temp : Int) (duty : Nat) : CoreSt :=
  let old := k.pstate.toNat
  let new := pstateFor record temp duty
  let put (level lower : Nat) : CoreSt := { k with pstate := BitVec.ofNat 2 level, lower := lower }
  if old ≤ new then put new 0
  else if temp + 2 ≤ threshold record old then (if 1 ≤ k.lower then put new 0 else put old 1)
  else put old 0

/-- A new duty takes effect at the first aligned window of 16 core clocks that begins at or after the write (R367). -/
def putDuty (k : CoreSt) (duty halves : Nat) : CoreSt :=
  let d := BitVec.ofNat 5 duty
  if k.clock halves % 16 = 0 then { k with fduty := d, nextDuty := none }
  else { k with fduty := k.duty halves, nextDuty := some (d, k.clock halves / 16) }

/-- Cores of the part, and its clusters (R9). -/
def coreCount : Nat := Config.cols * Config.rows
def clusterCount : Nat := 96

/-- FDUTY_UPDATE (R367, R369): `bytes` holds the DUTY of every core, 1 to 16, then the temperature of every cluster in degrees,
two's complement. -/
def execFdutyUpdate (s : State) : Out :=
  let l := s.args.bytes
  let duties := (l.take coreCount).map BitVec.toNat
  let temps := (l.drop coreCount).map BitVec.toInt
  .next (if l.length = coreCount + clusterCount ∧ duties.all (fun d => decide (1 ≤ d) && decide (d ≤ 16)) then
      (duties.foldl (fun (a : State × Nat) d =>
        (updCore a.1 a.2 (fun k => putDuty (pstateStep s.record k (temps.getD (clusterOf a.2) 0) d) d s.halves), a.2 + 1)) (s, 0)).1
    else s)

/-- FORCED_CLOCK_SKIP at core `a` (R368): the clocks of this step are none of the core's; no value and no order changes. -/
def execForcedClockSkip (s : State) : Out := .next (updCore s s.args.a (fun k => { k with skipped := k.skipped + s.span }))

/-! Memory channels (R154, R371) -/

/-- Stacks of HBM4E (R381). -/
def stackCount : Nat := 12

/-- HBM_BUDGET_REFILL: stack `a` may transfer `b` bytes in the coming millisecond (R371). Requests only wait, and the model
gives no time to them. -/
def execHbmBudgetRefill (s : State) : Out :=
  .next (if s.args.a < stackCount then { s with budgets := tput s.budgets s.args.a s.args.b } else s)

/-- SELF_REFRESH_ENTER: the timer of channel `a` ran out; with `flag`, a request in that clock cancels the entry (R154). -/
def execSelfRefreshEnter (s : State) : Out :=
  .next (if s.args.flag || s.refresh.contains s.args.a then s else { s with refresh := insNat s.args.a s.refresh })

/-- SELF_REFRESH_EXIT: channel `a` has left self-refresh (R154). -/
def execSelfRefreshExit (s : State) : Out := .next { s with refresh := s.refresh.filter (fun c => c != s.args.a) }

/-! The clock sweeper (R147) -/

/-- Frames of 64 KiB in HBM4E (R144, R147). -/
def frameCount : Nat := 0x90_0000

/-- The cold queue in memory (log 50): at the address DSET gives, a u64 count of entries taken, which software advances, a u64
count of entries appended; from byte 64 on as many u64 slots as the watermark says. -/
def coldAt (s : State) : Nat := s.coldQueue.toNat
def coldSlot (s : State) (n : Nat) : Nat := coldAt s + 64 + 8 * (n % s.watermark.toNat)

/-- Entries appended, and how many the queue holds. -/
def coldTail (s : State) : Nat := rdN s.mem (coldAt s + 8) 8
def coldHeld (s : State) : Nat := (coldTail s + 2 ^ 64 - rdN s.mem (coldAt s) 8) % 2 ^ 64

/-- Eight bytes the sweeper can reach: mapped, and served in this phase (R144, R381). -/
def sweepable (s : State) (pa : Nat) : Bool := backed pa && backed (pa + 7) && !held s pa

/-- A frame that is not warm goes into the queue. -/
def appendCold (s : State) (frame : Nat) : State :=
  let n := coldTail s
  if sweepable s (coldSlot s n) then
    sealAs none (sealAs none
      { s with mem := wrBytes (wrBytes s.mem (coldSlot s n) (bytesOfNat 8 frame)) (coldAt s + 8) (bytesOfNat 8 (n + 1)) }
      (coldSlot s n / 256)) ((coldAt s + 8) / 256)
  else s

/-- What the sweeper does at a frame with its mapping entry's address. -/
def sweepFrame (s : State) (frame pte : Nat) : State :=
  let e := rdN s.mem pte 8
  if e / 4 % 2 = 1 then sealAs none { s with mem := wrBytes s.mem pte (bytesOfNat 8 (e - 4)) } (pte / 256) else appendCold s frame

/-- The sweeper runs: its queue can be reached, and holds fewer entries than its watermark (R147). -/
def sweeperRuns (s : State) : Bool :=
  sweepable s (coldAt s) && sweepable s (coldAt s + 8) && decide (coldHeld s < s.watermark.toNat)

/-- CLOCK_SWEEPER_VISIT (R147): the next frame in ascending order. One without an entry that R147 allows is passed over (log
49), and one whose entry stands in HBM4E waits for full service. -/
def execClockSweeperVisit (s : State) : Out :=
  let frame := s.sweep % frameCount
  let at_ := s.frameTable.toNat + 8 * frame
  let e := rdN s.mem at_ 8
  let pte := e / 8 % 2 ^ 45 * 8
  let s1 := { s with sweep := (frame + 1) % frameCount }
  let known : Bool := backed at_ && backed (at_ + 7) && decide (e < 2 ^ 48) && e / 2 % 4 == 0 && e % 2 == 0 && pte != 0
  .next (if !sweeperRuns s || (backed at_ && held s at_) then s
    else if !known || !backed pte then s1
    else if held s pte then s
    else sweepFrame s1 frame pte)

/-! Core power (R366) -/

/-- A migration or a placement is aimed at a core. -/
def wanted (s : State) (core : Nat) : Bool :=
  s.net.any (fun p => p.dst == core && (match p.body with
    | .migrate _ => true
    | _ => false))
    || (nextPlacement s).any (fun x => (rectCores x.1.brew.width x.1.brew.height x.2.1 x.2.2).contains core)

/-- CORE_POWER_UP at core `a` (R366): its local SRAM is zero-filled before a read can return what it holds (R29). -/
def execCorePowerUp (s : State) : Out :=
  let core := s.args.a
  .next (if !(getCore s core).powered && wanted s core then
      updCore { s with mem := eraseRange s.mem (coreLo core) (coreHi core) } core (fun k => { k with powered := true, zfActive := true })
    else s)

/-- A core owns nothing that keeps it on (R366). -/
def powerFree (s : State) (core : Nat) : Bool :=
  let k := getCore s core
  k.shot.isNone && k.slots.isEmpty && k.arrivals.isEmpty && k.banks.isEmpty && k.setups.isEmpty
    && !s.saves.any (fun v => homeCore v.key == core && (getCtx s v.key).live)

/-- CORE_POWER_OFF at core `a` (R366). -/
def execCorePowerOff (s : State) : Out :=
  let core := s.args.a
  .next (if powerFree s core then updCore s core (fun k => { k with powered := false }) else s)

/-! Bring-up (R380, R381) -/

/-- DEVICE_RESET (R374, R380, R381): the configuration record names NDEV in `a` and DEV in `b`, its other fields stand in `bytes`; `flag` tells whether its
signature holds. The part comes up in reduced service, or rejected. CYCLE counts from here (R133); what is to happen next goes
on. -/
def execDeviceReset (s : State) : Out :=
  let a := s.args
  let fresh : State := { State.reset with agenda := s.agenda, ticks := s.ticks, nextId := s.nextId, record := a.bytes }
  .next (if a.flag && decide (1 ≤ a.a) && decide (a.a ≤ 16) && decide (a.b < a.a) then
      { fresh with phase := 1, ndev := BitVec.ofNat 8 a.a, dev := BitVec.ofNat 8 a.b }
    else { fresh with phase := 0 })

/-- STACK_TRAINED: stack `a` has trained (R381). -/
def execStackTrained (s : State) : Out :=
  .next (if s.phase = 1 ∧ s.args.a < stackCount ∧ !s.trained.contains s.args.a then
      { s with trained := insNat s.args.a s.trained }
    else s)

/-- What a tenant reset writes into the LCB (R338), for no context (log 56). -/
def resetLcb (s : State) (t : Nat) : State :=
  let a := (getTenant s t).lcb.toNat
  let put (s : State) (off : Nat) (l : List Byte) : GWrite := gwrite s t (a + off) l 3 (noWho s)
  let late : State := { s with lateLcb := s.lateLcb ++ [t] }
  if a = 0 then s
  else
    match put s 12 (bytesOfNat 4 0 ++ bytesOfNat 4 0x3F00_0000 ++ bytesOfNat 4 0x4180_0000) with
    | .wait => late
    | .ok s1 =>
      (match put s1 96 (bytesOfNat 4 0) with
       | .ok s2 => s2
       | .wait => late
       | _ => s1)
    | _ => s

/-- Everything that waited for HBM4E and is no context's goes on: entries of fault queues, updates of fill-state tables, LCBs,
then the host's commands in their order (R302, R373, R377, R381). -/
def servedNow (s : State) : State :=
  let s1 := failLate (fun _ => true) (appendLate s)
  let s2 := s1.lateLcb.foldl resetLcb { s1 with lateLcb := [] }
  { s2 with agenda := s2.hostWait ++ s2.agenda, hostWait := [] }

/-- FULL_SERVICE: all twelve stacks have trained (R381). -/
def execFullService (s : State) : Out :=
  .next (if s.phase = 1 ∧ s.trained.length = stackCount then servedNow { s with phase := 2 } else s)

end Sys2Proof.Machine
end

