-- ==== Sys2Proof/Machine/Host.lean ====
section
/-! DEFINITION. The host's commands (R373 to R378, R380): MREAD, MWRITE, KMSG, TSET, TGET, DSET, INVAL, TRESET, RESYNC, ATTEST.
The answer stands in `response`. A rejected part answers RESYNC and ATTEST alone (R381). -/

namespace Sys2Proof.Machine

/-! Answers -/

/-- Answers the host. -/
def answer (r : Resp) (s : State) : Out := .next { s with response := r }

/-- The command is refused; it changes nothing (R373). -/
def refuse (s : State) : Out := answer .error s

/-- The command is done, with nothing to give. -/
def accept (s : State) : Out := answer (.ok []) s

/-- The command `i` with the operands at hand waits for HBM4E, and is performed in its turn once full service begins (R373,
R381). It has no answer yet. -/
def hostLater (i : Instr) (s : State) : Out :=
  answer .none { s with hostWait := s.hostWait ++ [.event i s.args] }

/-- Commands are performed in the order they were sent: behind one that waits, the others wait too (R373). -/
def inTurn (i : Instr) (k : State → Out) (s : State) : Out := if s.hostWait.isEmpty then k s else hostLater i s

/-- Command `i`, other than RESYNC and ATTEST (R381); `bad` tells that its operands break their limits. -/
def hostThen (i : Instr) (bad : Bool) (k : State → Out) (s : State) : Out :=
  if s.phase = 0 then answer .none s else inTurn i (fun s => if bad then refuse s else k s) s

/-- Bytes as words, eight to a word, zeros at the end. -/
def packWords : Nat → List Byte → List Word
  | 0, _ => []
  | n + 1, l => if l.isEmpty then [] else BitVec.ofNat 64 (natOfBytes (l.take 8)) :: packWords n (l.drop 8)

def wordsOf (l : List Byte) : List Word := packWords (l.length / 8 + 1) l

/-- A number as `n` words, lowest first. -/
def wordsOfNat (n x : Nat) : List Word := (upFrom 0 n).map (fun i => BitVec.ofNat 64 (x / 2 ^ (64 * i)))

/-! MREAD, MWRITE (R373) -/

/-- A tenant, an address and a length outside the command's limits. -/
def spanBad (tenant va n : Nat) : Bool := decide (16 ≤ tenant) || n == 0 || decide (4096 < n) || decide (2 ^ 48 < va + n)

/-- A read that reaches an HBM4E frame in reduced service makes its command wait (R381); one that fails is an error. -/
def hostRead (i : Instr) (tenant va n : Nat) (k : List Byte → State → Out) (s : State) : Out :=
  match gread s tenant va n with
  | .ok l s1 => k l s1
  | .wait => hostLater i s
  | _ => refuse s

/-- A write of the host, by no context (R162, log 56). -/
def hostWrite (i : Instr) (tenant va : Nat) (l : List Byte) (k : State → Out) (s : State) : Out :=
  match gwrite s tenant va l 3 (noWho s) with
  | .ok s1 => k s1
  | .wait => hostLater i s
  | _ => refuse s

/-- MREAD: tenant `a`, address `b`, `c` bytes (R373). -/
def execMread (s : State) : Out :=
  let a := s.args
  hostThen .mread (spanBad a.a a.b a.c) (hostRead .mread a.a a.b a.c (fun l => answer (.ok (wordsOf l)))) s

/-- MWRITE: tenant `a`, address `b`, `bytes` (R373). -/
def execMwrite (s : State) : Out :=
  let a := s.args
  hostThen .mwrite (spanBad a.a a.b a.bytes.length) (hostWrite .mwrite a.a a.b a.bytes accept) s

/-! KMSG (R191, R373) -/

/-- The decrement at its kettle; a cut of the kettle's pour keeps it under way (R212). -/
def hostDec (tenant : Nat) (w : Word) (s : State) : Out :=
  let core := dwCore w
  let k := dwKet w
  if dwDev w ≠ 0 then accept s
  else if kettleTenant s core k != some tenant then refuse s
  else if isAnnounce core k then accept (announceOn s tenant (k - 224) (dwDec w))
  else if logging s core then accept (post s hostKey core (.dec w none .host tenant))
  else accept (decKettle s core k (dwDec w))

/-- KMSG: tenant `a`, destination word in `word` (R373). -/
def execKmsg (s : State) : Out :=
  let w : Word := s.args.word.setWidth 64
  hostThen .kmsg (decide (16 ≤ s.args.a) || decide (2 ^ 64 ≤ s.args.word.toNat) || !dwOk s w) (hostDec s.args.a w) s

/-! The tenant descriptor (R374) -/

/-- The descriptor's 8 bytes at an offset, the key as zero. -/
def descWord (t : Tenant) (off : Nat) : Word :=
  let q := tgetD t.queues ((off - 80) / 16) {}
  let w := tgetD t.windows ((off - 208) / 16) {}
  if off = 0 then BitVec.ofNat 64 (b2n t.enabled + 2 * b2n t.trace + t.slice * 2 ^ 32)
  else if off = 8 then t.root
  else if off = 16 then t.saveArea
  else if off = 24 then t.saveSize
  else if off = 32 then t.faultQ
  else if off < 80 then 0
  else if off < 208 then
    if off % 16 = 0 then q.base else BitVec.ofNat 64 (q.slots + q.next * 2 ^ 32)
  else if off < 336 then
    if off % 16 = 0 then w.base else BitVec.ofNat 64 (w.len + w.dev * 2 ^ 16)
  else 0

/-- The tenant with 8 bytes of its descriptor written; none where a limit of R374 breaks. -/
def descSet (t : Tenant) (off : Nat) (v : Word) : Option Tenant :=
  let lo := fieldN v 0 32
  let hi := fieldN v 32 32
  let qi := (off - 80) / 16
  let q := tgetD t.queues qi {}
  let wi := (off - 208) / 16
  let w := tgetD t.windows wi {}
  let keep (ok : Bool) (u : Tenant) : Option Tenant := if ok then some u else none
  if off = 0 then
    keep (decide (lo < 4) && (lo % 2 == 0 || (decide (1 ≤ hi) && decide (hi ≤ 1000000))))
      { t with enabled := lo % 2 == 1, trace := lo / 2 % 2 == 1, slice := hi }
  else if off = 8 then keep (v.toNat % 4096 == 0) { t with root := v }
  else if off = 16 then keep (v.toNat % 65536 == 0) { t with saveArea := v }
  else if off = 24 then keep (v.toNat % 65536 == 0) { t with saveSize := v }
  else if off = 32 then keep (v.toNat % 64 == 0) { t with faultQ := v }
  else if off = 40 then keep (v == 0) t
  else if off < 80 then keep (!t.enabled) { t with secret := putField t.secret (8 * (off - 48)) 64 v.toNat }
  else if off < 208 then
    if off % 16 = 0 then
      keep (v.toNat % 64 == 0 && (v == 0 || q.slots != 0)) { t with queues := tput t.queues qi { q with base := v } }
    else keep (decide (lo ≤ 65536) && (q.base == 0 || lo != 0)) { t with queues := tput t.queues qi { q with slots := lo } }
  else if off < 336 then
    if off % 16 = 0 then keep (v.toNat % 2 ^ 30 == 0) { t with windows := tput t.windows wi { w with base := v } }
    else keep (decide (v.toNat < 2 ^ 24)) { t with windows := tput t.windows wi { w with len := fieldN v 0 16, dev := fieldN v 16 8 } }
  else keep (v == 0) t

/-- A tenant and an offset that TSET and TGET refuse. -/
def descBadAt (tenant off : Nat) : Bool := decide (16 ≤ tenant) || off % 8 != 0 || decide (512 ≤ off)

/-- TSET: tenant `a`, offset `b`, the value in `word` (R374). As its trace is enabled the tenant's dirty lines are written back
(R167). -/
def execTset (s : State) : Out :=
  let a := s.args
  hostThen .tset (descBadAt a.a a.b) (fun s =>
    match descSet (getTenant s a.a) a.b (a.word.setWidth 64) with
    | some t => accept (setTenant (if t.trace && !(getTenant s a.a).trace then cleanTenant s a.a else s) a.a t)
    | none => refuse s) s

/-- TGET: tenant `a`, offset `b` (R374). -/
def execTget (s : State) : Out :=
  let a := s.args
  hostThen .tget (descBadAt a.a a.b) (fun s => answer (.ok [descWord (getTenant s a.a) a.b]) s) s

/-! DSET, INVAL (R145, R147, R338, R373) -/

/-- DSET: field `a` (0 the frame table, 1 the cold queue, 2 its watermark, 3 the LCB of tenant `b`), the value in `word`. -/
def execDset (s : State) : Out :=
  let a := s.args
  let v : Word := a.word.setWidth 64
  hostThen .dset (decide (3 < a.a) || (a.a == 3 && (decide (16 ≤ a.b) || v.toNat % 128 != 0 || decide (2 ^ 48 ≤ v.toNat)))) (fun s =>
    accept (match a.a with
      | 0 => { s with frameTable := v }
      | 1 => { s with coldQueue := v }
      | 2 => { s with watermark := v }
      | _ => updTenant s a.b (fun t => { t with lcb := v }))) s

/-- INVAL: tenant `a`, the cluster mask in `word` (R145): the clusters it names hold no translation of the tenant any more, nor
a block that stands for one (log 9). -/
def execInval (s : State) : Out :=
  let a := s.args
  hostThen .inval (decide (16 ≤ a.a) || decide (2 ^ 96 ≤ a.word.toNat)) (fun s =>
    accept (writeOut (fun r => r.tenant == a.a && bitN a.word (clusterOf (homeOf (256 * r.block))))
      { s with tlb := s.tlb.filter (fun e => !(e.tenant == a.a && bitN a.word e.cluster)) })) s

/-! TRESET (R338, R376) -/

/-- The descriptor stays; queues restart, launches and ranges go, brews are numbered from 0 again (R376). -/
def Tenant.restarted (t : Tenant) : Tenant :=
  { t with
    queues := t.queues.map (fun q => (q.1, { q.2 with next := 0, kept := 0 }))
    direct := []
    nextBrew := 0
    ranges := [] }

/-- A tenant reset (R376). -/
def resetTenant (s : State) (t : Nat) : State :=
  let s1 := (s.pours.filter (fun p => p.tenant == t)).foldl (discardPour true) s
  let s2 :=
    { updTenant s1 t Tenant.restarted with
      brews := s1.brews.filter (fun b => b.tenant != t)
      ckpts := s1.ckpts.filter (fun c => c.2.tenant != t)
      fills := s1.fills.filter (fun f => f.tenant != t)
      layers := s1.layers.filter (fun l => l.tenant != t)
      closes := s1.closes.filter (fun c => c.tenant != t)
      heldCores := s1.heldCores.filter (fun h => h.2.1 != t)
      lateFails := s1.lateFails.filter (fun f => f.tenant != t)
      cupBrews := s1.cupBrews.filter (fun b => b.1 != t) }
  resetLcb s2 t

/-- TRESET of tenant `a` (R376). -/
def execTreset (s : State) : Out := hostThen .treset (decide (16 ≤ s.args.a)) (fun s => accept (resetTenant s s.args.a)) s

/-! RESYNC, ATTEST (R378, R380) -/

/-- LEVEL as a core reads it (R369). -/
def levelOf (s : State) (core : Nat) : Nat := if s.phase = 2 then (getCore s core).pstate.toNat else 3

/-- The highest LEVEL on a die (R378). -/
def dieLevel (s : State) (die : Nat) : Nat :=
  ((upFrom 0 coreCount).filter (fun c => dieOf c == die)).foldl (fun m c => if m < levelOf s c then levelOf s c else m) 0

/-- TAIL of a tenant's fault queue, 0 where its header cannot be read. -/
def faultTail (s : State) (t : Nat) : Nat :=
  let q := (getTenant s t).faultQ.toNat
  if q = 0 then 0
  else
    match gread s t (q + 16) 4 with
    | .ok l _ => natOfBytes l
    | _ => 0

/-- The measurement of the configuration record that the last DEVICE_RESET brought (R380). -/
def recordHash (s : State) : BitVec 512 := Config.recordHash s.ndev s.dev s.record

/-- What RESYNC tells of a tenant: flags, brews accepted and not retired, pours placed, pours faulted, NEXT of the eight queues,
the fault queue's TAIL, and the four counts (R378). -/
def tenantReport (s : State) (n : Nat) : List Word :=
  let t := getTenant s n
  let w (x : Nat) : Word := BitVec.ofNat 64 x
  let pours (f : Pour → Bool) : Nat := (s.pours.filter (fun p => p.tenant == n && f p)).length
  [w (b2n t.enabled + 2 * b2n t.trace), w (s.brews.filter (fun b => b.tenant == n && decide (b.retired < b.count))).length,
    w (pours (fun p => p.st == .placed || p.st == .cutting)), w (pours (fun p => p.st == .faulted))]
    ++ (upFrom 0 8).map (fun q => w (tgetD t.queues q {}).next)
    ++ [w (faultTail s n), w t.annDiscarded, w t.faultsDropped, w t.decDiscarded, w t.rejected9]

/-- RESYNC: phase, stacks trained, both measurements, the level of the eight dies, then each tenant (R378). -/
def execResync (s : State) : Out :=
  let w (x : Nat) : Word := BitVec.ofNat 64 x
  inTurn .resync (fun s => answer (.ok ([w s.phase, w s.trained.length] ++ wordsOfNat 8 Config.firmwareHash.toNat ++ wordsOfNat 8 (recordHash s).toNat
    ++ (upFrom 0 8).map (fun d => w (dieLevel s d)) ++ (upFrom 0 16).flatMap (tenantReport s))) s) s

/-- The report of R380: nonce, public key, measurements, phase. -/
def attestReport (s : State) (nonce : BitVec 256) : BitVec 1544 :=
  BitVec.ofNat 1544 (nonce.toNat + Config.identityKey.toNat * 2 ^ 256 + Config.firmwareHash.toNat * 2 ^ 512
    + (recordHash s).toNat * 2 ^ 1024 + s.phase * 2 ^ 1536)

/-- ATTEST of the nonce in `word` (R380): the report and its signature. -/
def execAttest (s : State) : Out :=
  inTurn .attest (fun s =>
    let r := attestReport s s.args.word
    answer (.ok (wordsOf (bytesOfNat 193 r.toNat ++ bytesOfNat 64 (Config.signature r).toNat))) s) s

end Sys2Proof.Machine
end

