-- ==== Sys2Proof/Machine/Recorded.lean ====
section
/-! DEFINITION. The recorded state of a pour, part by part, as PCMD reads and writes it and Cupping shows it (R32, R201, R211, R316,
R373). -/

namespace Sys2Proof.Machine

/-- The part as it would stand with the pour on the cores it was recorded on: what a debugger reads, never a next state. -/
def viewOf (s : State) (p : Pour) (img : Image) : State := restorePour s p img img.ox img.oy

/-- A CSR of a recorded context, as the cut recorded it: its own, those of its home core, the clock of the cut (R334); BPA0 to
BPA3 are 0x100 to 0x103 (R132, R201). -/
def imgCsr (img : Image) (c : Ctx) (n : Nat) : Word :=
  if 0x100 ≤ n then vget c.bpa (n - 0x100) 0 else csrOf c (imgCore img (homeCore c.key)) img.phase img.halves img.cycle n

/-- The number names a CSR. -/
def csrKnown (n : Nat) : Bool := decide (n ≤ 0x010) || perCore n || (decide (0x100 ≤ n) && decide (n ≤ 0x103))

/-- Eight window bytes a debugger may reach: of a core of the pour, aligned. -/
def winOpen (v : State) (img : Image) (wa : Nat) : Bool :=
  img.cores.any (fun k => k.1 == winCore wa) && wa % 8 == 0 && winRange v wa 8

/-- The halves of a segment register as SEGW takes them (R135). -/
def segHalf (g : Seg) (half : Nat) : Word :=
  if half = 0 then g.base.setWidth 64
  else BitVec.ofNat 64 (g.limit.toNat + g.rights.toNat * 2 ^ 48 + g.kind.toNat * 2 ^ 52)

/-- The two halves of a segment register. -/
def segWords (g : Seg) : List Word := [segHalf g 0, segHalf g 1]

/-- A segment register with a half written, unless its value breaks the limits of R135. -/
def putSegHalf (g : Seg) (half : Nat) (x : Word) : Option Seg :=
  let n := if half = 0 then segOf x (segHalf g 1) else segOf (segHalf g 0) x
  if (if half = 0 then fieldN x 48 16 != 0 else fieldN x 54 10 != 0) || n.kind == 3 then none else some n

/-- A 64-bit word of a bit field written. -/
def putWord {w : Nat} (b : BitVec w) (i : Nat) (x : Word) : BitVec w := putField b (64 * i) 64 x.toNat

/-- Pieces of a barrier register as a debugger sees them: 0 rectangle and mask, 1 phase, 2 the partials and the release, 3 which
contexts have arrived (R195, R196). -/
def barPiece (j : Nat) (b : Barrier) : Word :=
  BitVec.ofNat 64 (match j with
    | 0 => b.x0 + b.y0 * 2 ^ 8 + b.w * 2 ^ 16 + b.h * 2 ^ 24 + b.mask.toNat * 2 ^ 32
    | 1 => b.phase
    | 2 => b2n b.east + 2 * b2n b.south + 4 * b2n b.sent + 8 * b2n b.relEast + 16 * b2n b.relSouth
    | _ => (upFrom 0 16).foldl (fun m i => if tget b.last i = some b.phase then m + 2 ^ i else m) 0)

/-- A barrier register with a piece written. -/
def putBarPiece (j : Nat) (x : Word) (b : Barrier) : Barrier :=
  match j with
  | 0 => { b with x0 := fieldN x 0 8, y0 := fieldN x 8 8, w := fieldN x 16 8, h := fieldN x 24 8, mask := BitVec.ofNat 16 (fieldN x 32 16) }
  | 1 => { b with phase := x.toNat }
  | 2 => { b with east := bitN x 0, south := bitN x 1, sent := bitN x 2, relEast := bitN x 3, relSouth := bitN x 4 }
  | _ => { b with last := (upFrom 0 16).foldl (fun l i =>
      if bitN x i then tput l i b.phase else if tget l i = some b.phase then tdel l i else l) b.last }

/-- A kettle with eight bytes of its entry written; the payload count follows from the inbox (R185). -/
def putKettlePiece (j : Nat) (x : Word) (k : Kettle) : Kettle :=
  match j with
  | 0 =>
    { k with count := sInt 32 (fieldN x 0 32), tenant := fieldN x 32 8, owned := bitN x 40, fired := bitN x 41
             pending := bitN x 42, ovf := bitN x 43 }
  | 1 => { k with entry := x }
  | 2 => { k with arg := x }
  | _ => { k with brew := x.setWidth 32 }

/-- An inbox slot with eight bytes written; a length of 0 frees it (R192). -/
def putInboxPiece (slot j : Nat) (x : Word) (l : List InSlot) : List InSlot :=
  let l1 := if l.any (fun e => e.slot == slot) then l else l ++ [{ slot := slot, sender := 0, kettle := 0, len := 0, payload := 0 }]
  if j = 1 ∧ fieldN x 8 8 = 0 then l.filter (fun e => e.slot != slot)
  else
    l1.map (fun e =>
      if e.slot != slot then e
      else
        match j with
        | 0 => { e with sender := x }
        | 1 => { e with kettle := fieldN x 0 8, len := fieldN x 8 8 }
        | _ => { e with payload := putWord e.payload (j - 2) x })

/-- A ring entry with eight bytes written: base and form, count and counters; the stream's part follows from the binding
(R240). -/
def putRingPiece (j : Nat) (x : Word) (r : Ring) : Ring :=
  match j with
  | 0 => { r with base := fieldN x 0 32, slog := fieldN x 32 8, count := fieldN x 48 16 }
  | 1 => { r with head := fieldN x 0 32, tail := fieldN x 32 32 }
  | _ => r

/-- Eight window bytes of the recorded state written, where a cut records what stands there (R142, R211). -/
def writeWin (img : Image) (wa : Nat) (x : Word) : Option Image :=
  let core := winCore wa
  let off := winOff wa
  match winKind wa with
  | 0 | 1 => some { img with cells := wrBytes img.cells (winKey wa) (bytesOfNat 8 x.toNat) }
  | 3 =>
    some (updImgCore img core (fun k =>
      { k with kettles := tput k.kettles (off / 32) (putKettlePiece (off / 8 % 4) x (tgetD k.kettles (off / 32) {})) }))
  | 4 => some (updImgCore img core (fun k => { k with inbox := putInboxPiece (off / 64) (off / 8 % 8) x k.inbox }))
  | 5 =>
    if off / 8 % 4 < 2 then
      some (updImgCore img core (fun k =>
        let r := putRingPiece (off / 8 % 4) x (tgetD k.rings (off / 32) { base := 0, slog := 0, count := 0 })
        let r := if off / 8 % 4 = 0 then { r with head := r.head % wrapValue r.count, tail := r.tail % wrapValue r.count } else r
        { k with rings := if r.count = 0 then tdel k.rings (off / 32) else tput k.rings (off / 32) r }))
    else none
  | _ => none

/-! The parts of a cut that no register names (R32, R207, R211, R244) -/

/-- A fault record from its 64 bytes (R207). -/
def frecOfBits (x : BitVec 512) : FaultRec :=
  { cause := BitVec.ofNat 8 (fieldN x 0 8), engine := BitVec.ofNat 8 (fieldN x 8 8), valid := bitN x 16, dfr := bitN x 17
    up := bitN x 18, lost := bitN x 19, extra := BitVec.ofNat 32 (fieldN x 32 32), addr := BitVec.ofNat 64 (fieldN x 64 64)
    trpc := BitVec.ofNat 64 (fieldN x 128 64), count := BitVec.ofNat 32 (fieldN x 192 32)
    reqs := (upFrom 0 (min 8 (fieldN x 192 32))).map (fun i => BitVec.ofNat 32 (fieldN x (256 + 32 * i) 32)) }

/-- The bits of a fault record. -/
def FaultRec.bits (f : FaultRec) : BitVec 512 := BitVec.ofNat 512 (natOfBytes f.bytes)

/-- A stream binding as two words: stride, chunks per slot and OUT as RBIND takes them, with the ring in [55:52] and [63] set;
then the chunks done in the slot (R244). An unbound register gives zeros. -/
def bindPiece (j : Nat) (b : Option Bind) : Word :=
  match b with
  | none => 0
  | some b =>
    if j = 0 then BitVec.ofNat 64 (b.stride + b.perSlot * 2 ^ 32 + b2n b.out * 2 ^ 48 + b.ring * 2 ^ 52 + 2 ^ 63)
    else BitVec.ofNat 64 b.done

/-- A binding of a recorded context written, within the limits of R244; [63] clear unbinds. -/
def putBind (img : Image) (c : Ctx) (v j : Nat) (x : Word) : Option Image :=
  let old := tget c.binds v
  let b : Bind := { ring := fieldN x 52 4, out := bitN x 48, stride := fieldN x 0 32, perSlot := fieldN x 32 16
                    done := (old.map Bind.done).getD 0 }
  let others := (img.ctxs.filter (fun k => homeCore k.key == homeCore c.key && k.key != c.key)).flatMap Ctx.binds
    ++ c.binds.filter (fun o => o.1 != v)
  let fits : Bool := match tget (imgCore img (homeCore c.key)).rings b.ring with
    | some r => decide ((b.perSlot - 1) * b.stride + 256 ≤ 2 ^ r.slog) && !others.any (fun o => o.2.ring == b.ring)
    | none => false
  if !isStreamReg (BitVec.ofNat 4 v) || decide (16 ≤ v) then none
  else if j = 0 then
    if !bitN x 63 then some (putImgCtx img { c with binds := tdel c.binds v })
    else if fits && b.perSlot != 0 && b.stride % 4 == 0 && decide (b.done < b.perSlot) then
      some (putImgCtx img { c with binds := tput c.binds v b })
    else none
  else
    match old with
    | some o => if x.toNat < o.perSlot then some (putImgCtx img { c with binds := tput c.binds v { o with done := x.toNat } }) else none
    | none => none

/-- A queued copy: what it is and whose; its pointers, segments, pattern record, DEST and RMODE; how far it is (R248, R254). -/
def COp.words (o : COp) : List Word :=
  [BitVec.ofNat 64 (o.minor + o.xf.code * 2 ^ 8 + b2n o.running * 2 ^ 16 + b2n o.err.isSome * 2 ^ 17 + homeIdx o.key * 2 ^ 24),
    o.src, o.dst] ++ segWords o.sseg ++ segWords o.dseg ++ wordsOfNat 8 o.pat.toNat
    ++ [o.dest, o.rmode, BitVec.ofNat 64 o.next]

/-- A queued copy with one of the captured words written. -/
def COp.putWord (o : COp) (j : Nat) (x : Word) : Option COp :=
  match j with
  | 1 => some { o with src := x }
  | 2 => some { o with dst := x }
  | 3 | 4 => (putSegHalf o.sseg (j - 3) x).map (fun g => { o with sseg := g })
  | 5 | 6 => (putSegHalf o.dseg (j - 5) x).map (fun g => { o with dseg := g })
  | 15 => some { o with dest := x }
  | 16 => some { o with rmode := x }
  | _ => if 7 ≤ j ∧ j < 15 then some { o with pat := Machine.putWord o.pat (j - 7) x } else none

/-- The number of an operation's kind. -/
def MKind.num : MKind → Nat
  | .mma => 0
  | .mmaj => 1
  | .mmas => 2
  | .mlda => 3
  | .msta => 4
  | .mzero => 5

/-- Where an operation stands, as a number. -/
def MPhase.num : MPhase → Nat
  | .queued => 0
  | .supply => 1
  | .computed => 2
  | .draining => 3

/-- The first word of an operation: kind, modifiers, tile, rings, context. -/
def MOp.word (o : MOp) : Word :=
  BitVec.ofNat 64 (o.kind.num + o.mods.toNat * 2 ^ 8 + o.acc * 2 ^ 16 + o.qa * 2 ^ 24 + o.qb * 2 ^ 32 + homeIdx o.key * 2 ^ 40)

/-- A matrix operation: what it is; its shape's offset and the record; segments, RMODE, flags, phase; from word 64 on its drained
rows, 65 words to a row (R262, R274, R300). -/
def MOp.piece (o : MOp) (j : Nat) : Option Word :=
  if j < 64 then
    ([o.word, o.recOff] ++ wordsOfNat 8 o.shape.toNat ++ o.segs.toList.flatMap segWords
      ++ [o.rmode, o.flags, BitVec.ofNat 64 (o.phase.num + b2n o.paused * 2 ^ 8)])[j]?
  else
    o.rows[(j - 64) / 65]?.map (fun r =>
      let i := (j - 64) % 65
      if i = 0 then
        BitVec.ofNat 64 (r.m + (match r.st with
          | .waiting => 0
          | .held k => 2 ^ 8 + homeIdx k * 2 ^ 16
          | .released => 2 ^ 9))
      else BitVec.ofNat 64 (fieldN r.data (64 * (i - 1)) 64))

/-- A matrix operation with one of the captured words, or a word of a drained row, written. -/
def MOp.putPiece (o : MOp) (j : Nat) (x : Word) : Option MOp :=
  if 64 ≤ j then
    let n := (j - 64) / 65
    let i := (j - 64) % 65
    if i ≠ 0 ∧ n < o.rows.length then
      some { o with rows := o.rows.zipIdx.map (fun r => if r.2 = n then { r.1 with data := putWord r.1.data (i - 1) x } else r.1) }
    else none
  else if j = 1 then some { o with recOff := x }
  else if 2 ≤ j ∧ j < 10 then some { o with shape := putWord o.shape (j - 2) x }
  else if 10 ≤ j ∧ j < 26 then
    (putSegHalf (vget o.segs ((j - 10) / 2) {}) (j % 2) x).map (fun g => { o with segs := vset o.segs ((j - 10) / 2) g })
  else if j = 26 then some { o with rmode := x }
  else if j = 27 then some { o with flags := x &&& 0x3F }
  else none

/-- A logged packet: its kind, its payload's length in bytes, who sent it and where it goes; then what it carries (R32, R212). -/
def Packet.words (q : Packet) : List Word :=
  let head (kind len : Nat) : Word := BitVec.ofNat 64 (kind + len * 2 ^ 8 + q.src % 2 ^ 15 * 2 ^ 16 + q.dst * 2 ^ 32)
  match q.body with
  | .dec w x _ _ => head 0 (16 * b2n x.isSome) :: w :: wordsOfNat 2 ((x.map BitVec.toNat).getD 0)
  | .msg w x len sender _ => head 1 len :: w :: sender :: wordsOfNat 6 x.toNat
  | .grant _ n _ => [head 2 0, BitVec.ofNat 64 n]
  | .drip _ va size val _ notify _ _ => [head 3 size, va.setWidth 64, val, notify]
  | .migrate key => [head 4 0, BitVec.ofNat 64 (key % 2 ^ 15)]

/-- A logged packet with a word of what it carries written; it goes where it went. -/
def Packet.putWord (q : Packet) (j : Nat) (x : Word) : Option Packet :=
  match q.body, j with
  | .dec w y src t, 1 => if dwCore x = dwCore w then some { q with body := .dec x y src t } else none
  | .dec w (some y) src t, j =>
    if 2 ≤ j ∧ j < 4 then some { q with body := .dec w (some (Machine.putWord y (j - 2) x)) src t } else none
  | .msg w y l sd t, 1 => if dwCore x = dwCore w then some { q with body := .msg x y l sd t } else none
  | .msg w y l _ t, 2 => some { q with body := .msg w y l x t }
  | .msg w y l sd t, j => if 3 ≤ j ∧ j < 9 then some { q with body := .msg w (Machine.putWord y (j - 3) x) l sd t } else none
  | .grant d _ t, 1 => if x.toNat < 2 ^ 16 then some { q with body := .grant d x.toNat t } else none
  | .drip op va size _ rmode notify t kind, 2 => some { q with body := .drip op va size x rmode notify t kind }
  | .drip op va size val rmode _ t kind, 3 => some { q with body := .drip op va size val rmode x t kind }
  | _, _ => none

/-- What a Waiting context waits for, as a number and an operand (R13). -/
def Cond.shown : Cond → Nat × Nat
  | .kettle k => (1, k)
  | .ringFilled q n => (2, q + 64 * n)
  | .ringEmpty q n => (3, q + 64 * n)
  | .stream q => (4, q)
  | .barrier n _ => (5, n)
  | .allowance key => (6, key)
  | .fill _ r b => (7, r + 16 * b)
  | .matrixOp id => (8, id)
  | .matrixAll => (9, 0)
  | .engines => (10, 0)
  | .helper _ => (11, 0)
  | .helpersFree m => (12, m.toNat)
  | .stopWork => (13, 0)
  | .stopShot => (14, 0)
  | .word _ va _ => (15, va.toNat)
  | .launch _ => (16, 0)
  | .lframe _ => (17, 0)
  | .lframeTurn n _ => (18, n)
  | .cut _ => (19, 0)
  | .copyQueue id => (20, id)
  | .matrixQueue id => (21, id)
  | .ownDrips va _ => (22, va.toNat)
  | .viewBank n => (23, n)
  | .setupSlot => (24, 0)
  | .ordSeq dom _ => (25, dom.toNat)
  | .ordBlock dom _ _ _ => (26, dom.toNat)
  | .rangeIdle n => (27, n)
  | .lsplitRings code => (28, code)
  | .targetHome key => (29, key)
  | .helperInFlight key => (30, key)
  | .fullService => (31, 0)
  | .tablePage => (32, 0)
  | .start => (33, 0)

/-- A context as `ctx` lists it: its key, its state (1 Ready, 2 In flight, 3 Waiting, 4 Parked, 5 Saved; 8 more when it stands
Away, 16 more when escalation stopped it), the pc, what it waits for, and a generator's range and depth (R316). -/
def ctxWords (c : Ctx) : List Word :=
  let st := if c.busy then 2 else match c.st with
    | .free => 0
    | .ready => 1
    | .inFlight _ => 2
    | .waiting _ => 3
    | .parked => 4
    | .saved _ => 5
  let w := (c.cond.map Cond.shown).getD (0, 0)
  let g := (c.gen.map (fun g => (1 + g.range, g.depth))).getD (0, 0)
  [BitVec.ofNat 64 (c.key % 2 ^ 15 + (st + 8 * b2n c.away + 16 * b2n c.stopped) * 2 ^ 16), c.pc.setWidth 64,
    BitVec.ofNat 64 w.1, BitVec.ofNat 64 w.2, BitVec.ofNat 64 (g.1 + g.2 * 2 ^ 32)]

/-- A cause that a context holds, as two words (R203, R363). -/
def Charge.words (ch : Charge) : List Word :=
  [BitVec.ofNat 64 (ch.cause.toNat + ch.engine.toNat * 2 ^ 8 + b2n ch.dfr * 2 ^ 16 + ch.extra.toNat * 2 ^ 32), ch.val]

/-- What of a context's recorded state is shown and cannot be written: class 15 what lists it, 16 its charged and deferred causes, 17
its queued upcalls (R146, R203, R316). -/
def ctxShown (c : Ctx) (cls i : Nat) : Option Word :=
  match cls with
  | 15 => (ctxWords c)[i]?
  | 16 => ((c.charged ++ c.deferred).flatMap Charge.words)[i]?
  | 17 => (c.upcalls.flatMap (fun u => [u.va, u.engine.setWidth 64]))[i]?
  | _ => none

/-- Changes the element at a place of a list. -/
def putAt {α : Type} (l : List α) (n : Nat) (f : α → Option α) : Option (List α) :=
  (l[n]?.bind f).map (fun y => l.zipIdx.map (fun x => if x.2 = n then y else x.1))

/-- A piece of recorded state. Class 0 is S, 1 is P, 2 a 64-bit piece of V (32 to a register), 3 the pc, 4 a CSR, 5 half a
segment register, 6 eight bytes at a window address (R142), 9 a word of the fault record (R207), 10 the count of RDCYC (R133), 14
half a stream binding, 15 to 17 what is shown alone; for the core of `key`, 7 a piece of a barrier register, 8 the allowance whose
key is `i`, 11 a word of a queued copy (32 to a copy), 12 a word of a matrix operation (2^14 to an operation); 13 is a word of a
logged packet of the pour (16 to a packet). -/
def readPiece (v : State) (img : Image) (key cls i : Nat) : Option Word :=
  if cls = 6 then if winOpen v img i then some (zWord (winRead v i 8)) else none
  else if cls = 7 then (tget (imgCore img (homeCore key)).bars (i / 4)).map (barPiece (i % 4))
  else if cls = 8 then some (BitVec.ofNat 64 (tgetD (imgCore img (homeCore key)).allow i 0))
  else if cls = 11 then (imgCore img (homeCore key)).cq[i / 32]?.bind (fun o => o.words[i % 32]?)
  else if cls = 12 then (imgCore img (homeCore key)).mq[i / 2 ^ 14]?.bind (fun o => o.piece (i % 2 ^ 14))
  else if cls = 13 then img.logs[i / 16]?.bind (fun q => q.words[i % 16]?)
  else
    (imgCtx img key).bind (fun c =>
      if cls = 0 ∧ i < 32 then some (c.rs (BitVec.ofNat 5 i))
      else if cls = 1 ∧ i < 8 then some (c.rp (BitVec.ofNat 3 i))
      else if cls = 2 ∧ i < 512 then some (BitVec.ofNat 64 (fieldN (vget c.v (i / 32) 0) (64 * (i % 32)) 64))
      else if cls = 3 ∧ i = 0 then some (c.pc.setWidth 64)
      else if cls = 4 ∧ csrKnown i then some (imgCsr img c i)
      else if cls = 5 ∧ i < 16 then some (segHalf (vget c.g (i / 2) {}) (i % 2))
      else if cls = 9 ∧ i < 8 then some (BitVec.ofNat 64 (fieldN c.frec.bits (64 * i) 64))
      else if cls = 10 ∧ i = 0 then some c.instret
      else if cls = 14 ∧ i < 32 then some (bindPiece (i % 2) (tget c.binds (i / 2)))
      else ctxShown c cls i)

/-- A recorded core with another LSPLIT: scratchpad lines it removes are lost (R148). -/
def imgLsplit (img : Image) (core : Nat) (y : Word) : Image :=
  let img1 := updImgCore img core (fun k => { k with lsplit := y })
  let lo := winKey (winAddr core 0 (scratchSize (imgCore img1 core)))
  let hi := winKey (winAddr core 0 Config.scratchMax)
  { img1 with cells := eraseRange img1.cells lo hi }

/-- A recorded context with a CSR written, as CSRW writes it but for the supervisor's registers (R131, R201). One that would
have to wait for matrix operations of the recorded queue is refused (R283). -/
def writeCsr (v : State) (img : Image) (c : Ctx) (n : Nat) (x : Word) : Option Image :=
  let core := homeCore c.key
  let old := imgCsr img c n
  let m := csrMask core n
  let y := (old &&& ~~~m) ||| (x &&& m)
  if 0x100 ≤ n ∧ n ≤ 0x103 then some (putImgCtx img { c with bpa := vset c.bpa (n - 0x100) (x &&& offMask) })
  else if m = 0 ∨ csrRefused n y then none
  else if n = 0x040 then
    if opsAbove v core (scratchSize { imgCore img core with lsplit := y }) then none else some (imgLsplit img core y)
  else
    let put (k : CoreSt) : CoreSt := match n with
      | 0x041 => { k with lgroup := y }
      | 0x042 => { k with hresv := y }
      | _ => { k with txwake := y }
    if perCore n then some (updImgCore img core put)
    else some (putImgCtx img (csrPut { v with cx := c } n y).cx)

/-- Writes a piece of recorded state. -/
def writePart (v : State) (img : Image) (key cls i : Nat) (x : Word) : Option Image :=
  if cls = 6 then if winOpen v img i then writeWin img i x else none
  else if cls = 7 then
    if (tget (imgCore img (homeCore key)).bars (i / 4)).isSome then
      some (updImgCore img (homeCore key) (fun k =>
        { k with bars := k.bars.map (fun b => if b.1 = i / 4 then (b.1, putBarPiece (i % 4) x b.2) else b) }))
    else none
  else if cls = 8 then
    if x.toNat < 2 ^ 16 then
      some (updImgCore img (homeCore key) (fun k => { k with allow := if x = 0 then tdel k.allow i else tput k.allow i x.toNat }))
    else none
  else if cls = 11 then
    (putAt (imgCore img (homeCore key)).cq (i / 32) (fun o => o.putWord (i % 32) x)).map (fun l =>
      updImgCore img (homeCore key) (fun k => { k with cq := l }))
  else if cls = 12 then
    (putAt (imgCore img (homeCore key)).mq (i / 2 ^ 14) (fun o => o.putPiece (i % 2 ^ 14) x)).map (fun l =>
      updImgCore img (homeCore key) (fun k => { k with mq := l }))
  else if cls = 13 then (putAt img.logs (i / 16) (fun q => q.putWord (i % 16) x)).map (fun l => { img with logs := l })
  else
    (imgCtx img key).bind (fun c =>
      if cls = 0 ∧ i < 32 then some (putImgCtx img (c.ws (BitVec.ofNat 5 i) x))
      else if cls = 1 ∧ i < 8 then some (putImgCtx img (c.wp (BitVec.ofNat 3 i) x))
      else if cls = 2 ∧ i < 512 then
        some (putImgCtx img { c with v := vset c.v (i / 32) (putField (vget c.v (i / 32) 0) (64 * (i % 32)) 64 x.toNat) })
      else if cls = 3 ∧ i = 0 ∧ x.toNat < 2 ^ 48 ∧ x.toNat % 4 = 0 then
        some (putImgCtx img { c with pc := x.setWidth 48, again := false, fetched := false })
      else if cls = 4 ∧ csrKnown i then writeCsr v img c i x
      else if cls = 5 ∧ i < 16 then
        (putSegHalf (vget c.g (i / 2) {}) (i % 2) x).map (fun g => putImgCtx img { c with g := vset c.g (i / 2) g })
      else if cls = 9 ∧ i < 8 then some (putImgCtx img { c with frec := frecOfBits (putWord c.frec.bits i x) })
      else if cls = 10 ∧ i = 0 then some (putImgCtx img { c with instret := x })
      else if cls = 14 ∧ i < 32 then putBind img c (i / 2) (i % 2) x
      else none)

end Sys2Proof.Machine
end

