-- ==== Sys2Proof/Machine/Debug.lean ====
section
/-! DEFINITION. Commands on one pour: PCMD (R201, R214, R373) and Cupping (R299, R316, R334, R337, R360, R362). Operands `a`, `b`
and `c` name tenant, brew and pour index. What a command prints stands in `response`. -/

namespace Sys2Proof.Machine

/-- The pour the operands name, when it has a record. -/
def argPour (s : State) : Option Pour :=
  s.pours.find? (fun p => p.tenant == s.args.a && p.brew == s.args.b && p.idx == s.args.c)

/-- A record for a pour that was accepted and never placed, stopped where it stands in the brew (R373). -/
def enlist (s : State) (b : Brew) : Pour × State :=
  let p : Pour :=
    { id := s.nextId, tenant := b.tenant, brew := b.num, idx := s.args.c, w := b.width, h := b.height, ox := 0, oy := 0,
      st := .stopped }
  (p, { updBrew s b.tenant b.num (fun x => { x with taken := x.taken ++ [s.args.c] }) with
        pours := s.pours ++ [p], nextId := s.nextId + 1 })

/-- The pour the operands name, with a record: one that has yet to be placed gets its own. -/
def namedPour (s : State) : Option (Pour × State) :=
  match argPour s with
  | some p => some (p, s)
  | none =>
    match findBrew s s.args.a s.args.b with
    | some b =>
      if b.nextIdx ≤ s.args.c ∧ s.args.c < b.count ∧ !b.taken.contains s.args.c then some (enlist s b) else none
    | none => none

/-- A command on a pour that was accepted. -/
def pourCmd (i : Instr) (k : Pour → State → Out) (s : State) : Out :=
  hostThen i false (fun s =>
    match namedPour s with
    | some (p, s1) => k p s1
    | none => refuse s) s

/-- A command on a pour that has a record. -/
def recordCmd (i : Instr) (k : Pour → State → Out) (s : State) : Out :=
  hostThen i false (fun s =>
    match argPour s with
    | some p => k p s
    | none => refuse s) s

/-- A command on the recorded state of a pour that does not run. -/
def imageCmd (i : Instr) (k : Pour → Image → State → Out) (s : State) : Out :=
  recordCmd i (fun p s =>
    match p.image with
    | some img => k p img s
    | none => refuse s) s

/-! PCMD (R373) -/

/-- PCMD_STOP (R373): a running pour is cut; one that waits to be placed again stays as it was recorded. -/
def execPcmdStop (s : State) : Out :=
  pourCmd .pcmdStop (fun p s =>
    match p.st with
    | .placed | .cutting => accept (startCut s p.id true .stopped [])
    | .saved => accept (updPour s p.id (fun q => { q with st := .stopped }))
    | .stopped | .faulted => accept s) s

/-- PCMD_RESUME (R373): the pour waits to be placed again. -/
def execPcmdResume (s : State) : Out :=
  recordCmd .pcmdResume (fun p s =>
    if p.st = .stopped ∨ p.st = .faulted then accept (updPour s p.id (fun q => { q with st := .saved })) else refuse s) s

/-- PCMD_DISCARD (R183, R373). A brew that retires with it is reported to Cupping where it waits for that (R299). -/
def execPcmdDiscard (s : State) : Out :=
  pourCmd .pcmdDiscard (fun p s => .next (discardPour false { s with response := .ok [] } p)) s

/-- The blocks that generators of an image fill, and that none of another image does (R306). -/
def lostGens (old new : Image) : List FillFail :=
  (old.ctxs.filterMap Ctx.gen).filterMap (fun g =>
    if new.ctxs.any (fun c => c.gen == some g) then none
    else some { tenant := g.tenant, range := g.range, block := g.block, cause := 0x09, code := 0xFFFF_FFFF, key := nobodyKey })

/-- A pour takes another image: what the old one left under way outside goes on for nobody, and the fills of generators that are
gone fail (R191, R214, R306). -/
def takeImage (s : State) (p : Pour) (old new : Image) (saves : List Save) : State :=
  let s1 :=
    { updPour (disown (dropAsks s (pourKey s p) []) p) p.id (fun q => { q with st := .saved, image := some new, ox := new.ox, oy := new.oy }) with
      saves := s.saves.filter (fun v => v.pour != p.id) ++ saves }
  let lost := lostGens old new
  failFills (chainBound s1 + lost.length) lost s1

/-- PCMD_RESUME_CHECKPOINT (R214): a pour that is stopped or faulted goes on from the image of checkpoint `d`. -/
def execPcmdResumeCheckpoint (s : State) : Out :=
  imageCmd .pcmdResumeCheckpoint (fun p img s =>
    match tget s.ckpts s.args.d with
    | some c =>
      if c.stored ∧ c.tenant = p.tenant ∧ c.brew = p.brew ∧ c.idx = p.idx ∧ (p.st = .stopped ∨ p.st = .faulted) then
        accept (takeImage s p img c.image c.saves)
      else refuse s
    | none => refuse s) s

/-- PCMD_READ_STATE: context key `d`, class in [79:64] of `word`, index in [143:80] (R373). -/
def execPcmdReadState (s : State) : Out :=
  imageCmd .pcmdReadState (fun p img s =>
    match readPiece (viewOf s p img) img s.args.d (fieldN s.args.word 64 16) (fieldN s.args.word 80 64) with
    | some x => answer (.ok [x]) s
    | none => refuse s) s

/-- PCMD_WRITE_STATE: as PCMD_READ_STATE, with the value in [63:0] (R201, R373). -/
def execPcmdWriteState (s : State) : Out :=
  imageCmd .pcmdWriteState (fun p img s =>
    match writePart (viewOf s p img) img s.args.d (fieldN s.args.word 64 16) (fieldN s.args.word 80 64)
        (BitVec.ofNat 64 (fieldN s.args.word 0 64)) with
    | some img1 => accept (putImage s p.id img1)
    | none => refuse s) s

/-! Cupping: what acts (R299, R337) -/

/-- CUP_LOAD for tenant `a` (R299): the first `d` of `bytes` are the text section and go to address `b`, the others are the data
section and go to `c`. -/
def execCupLoad (s : State) : Out :=
  let a := s.args
  hostThen .cupLoad (decide (16 ≤ a.a) || decide (2 ^ 48 < a.b + a.d) || decide (2 ^ 48 < a.c + a.bytes.length)) (fun s =>
    hostWrite .cupLoad a.a a.b (a.bytes.take a.d) (hostWrite .cupLoad a.a a.c (a.bytes.drop a.d) accept) s) s

/-- CUP_BREAK at the offset in `word` (R299): the lowest unused breakpoint. -/
def execCupBreak (s : State) : Out :=
  hostThen .cupBreak false (fun s =>
    match (upFrom 0 4).find? (fun i => (vget s.breaks i none).isNone) with
    | some i =>
      answer (.ok [BitVec.ofNat 64 i])
        { s with breaks := vset s.breaks i (some ((s.args.word.setWidth 64 &&& offMask).setWidth 48)) }
    | none => refuse s) s

/-- CUP_LAUNCH for tenant `a` (R24, R299): the record in `bytes` goes into the next free slot of launch queue 0 and is
announced. -/
def execCupLaunch (s : State) : Out :=
  let t := s.args.a
  let u := tgetD (getTenant s t).queues 0 {}
  hostThen .cupLaunch (decide (16 ≤ t) || s.args.bytes.length != 64 || u.base == 0 || decide (u.slots ≤ u.kept)) (fun s =>
    hostWrite .cupLaunch t (u.base.toNat + 64 * ((u.next + u.kept) % u.slots)) s.args.bytes (fun s => accept (announceOn s t 0 1)) s) s

/-- A context that escalation stopped goes on past its breakpoint (R299). -/
def Ctx.continued (c : Ctx) : Ctx :=
  if c.stopped then { c with tcause := c.tcause &&& 0x7FFF_FFFF_FFFF_FFFF, dbg := c.dbg ||| 2, stopped := false } else c

/-- CUP_CONTINUE (R299). The brew's retirement is reported when it occurs. -/
def execCupContinue (s : State) : Out :=
  imageCmd .cupContinue (fun p img s =>
    if p.st = .stopped ∨ p.st = .faulted then
      accept { updPour (putImage s p.id { img with ctxs := img.ctxs.map Ctx.continued }) p.id (fun q => { q with st := .saved }) with
        cupBrews := s.cupBrews ++ [(p.tenant, p.brew)] }
    else refuse s) s

/-- CUP_DELETE of breakpoint `d` (R337): its enable is cleared in every context of the stopped pour, saved ones among them. -/
def execCupDelete (s : State) : Out :=
  let n := s.args.d
  let clear (c : Ctx) : Ctx := { c with dbg := putField c.dbg (4 + n) 1 0 }
  hostThen .cupDelete (decide (3 < n)) (fun s =>
    let s1 := { s with breaks := vset s.breaks n none }
    match argPour s with
    | some p =>
      let s2 := updPour s1 p.id (fun q => { q with breaks := vset q.breaks n none })
      match p.image with
      | some img => accept (putImage s2 p.id { img with ctxs := img.ctxs.map clear })
      | none => accept s2
    | none => accept s1) s

/-! Cupping: what is read (R299, R316, R334, R337, R362) -/

/-- The core of the stop: the home core of the lowest context that escalation stopped, else the pour's first core. -/
def stopCore (img : Image) : Nat :=
  match (sortBy Ctx.key (img.ctxs.filter Ctx.stopped)).head? with
  | some c => homeCore c.key
  | none => coreAt img.ox img.oy

/-- Nonzero scalar registers of a context: number and value in turn. -/
def regWords (c : Ctx) : List Word :=
  (upFrom 1 31).flatMap (fun i => let v := vget c.s i 0; if v = 0 then [] else [BitVec.ofNat 64 i, v])

/-- A context the operands reach, read. -/
def ctxRead (img : Image) (key : Nat) (f : Ctx → List Word) (s : State) : Out :=
  match imgCtx img key with
  | some c => answer (.ok (f c)) s
  | none => refuse s

/-- CUP_REGS: context 0 of the core of the stop (R299). -/
def execCupRegs (s : State) : Out := imageCmd .cupRegs (fun _ img s => ctxRead img (keyOf (stopCore img) 0) regWords s) s

/-- CUP_REGS_AT: the context of key `d` (R316). -/
def execCupRegsAt (s : State) : Out := imageCmd .cupRegsAt (fun _ img s => ctxRead img s.args.d regWords s) s

/-- A CSR of a context. -/
def csrRead (img : Image) (key n : Nat) (s : State) : Out :=
  if csrKnown n then ctxRead img key (fun c => [imgCsr img c n]) s else refuse s

/-- CUP_CSR: the CSR numbered `d` of context 0 (R299). -/
def execCupCsr (s : State) : Out := imageCmd .cupCsr (fun _ img s => csrRead img (keyOf (stopCore img) 0) s.args.d s) s

/-- CUP_CSR_AT: the CSR whose number stands in `word`, of the context of key `d` (R334). -/
def execCupCsrAt (s : State) : Out := imageCmd .cupCsrAt (fun _ img s => csrRead img s.args.d (fieldN s.args.word 0 16) s) s

/-- CUP_PREDS: p1 to p7 of context 0 that are not all-false (R362). -/
def execCupPreds (s : State) : Out :=
  imageCmd .cupPreds (fun _ img s => ctxRead img (keyOf (stopCore img) 0) (fun c =>
    (upFrom 1 7).flatMap (fun i => let v := vget c.p i 0; if v = 0 then [] else [BitVec.ofNat 64 i, v])) s) s

/-- CUP_RING: the entry of ring `d` (R240, R299). -/
def execCupRing (s : State) : Out :=
  imageCmd .cupRing (fun p img s =>
    if s.args.d < 16 then answer (.ok (wordsOf (ringBytes (viewOf s p img) (stopCore img) s.args.d))) s else refuse s) s

/-- CUP_KETTLE: the entry of kettle `word` on core `d` (R185, R337). -/
def execCupKettle (s : State) : Out :=
  imageCmd .cupKettle (fun p img s =>
    let k := fieldN s.args.word 0 16
    if k < 256 ∧ img.cores.any (fun c => c.1 == s.args.d) then answer (.ok (wordsOf (kettleBytes (viewOf s p img) s.args.d k))) s
    else refuse s) s

/-- CUP_MQ: each operation of the recorded queue as one word: kind, modifiers, tile, rings, context; then its shape's offset
(R299, R300). -/
def execCupMq (s : State) : Out :=
  imageCmd .cupMq (fun _ img s =>
    let ops := ((img.cores.find? (fun k => k.1 == stopCore img)).map (fun k => k.2.mq)).getD []
    answer (.ok (ops.flatMap (fun o => [o.word, o.recOff]))) s) s

/-- Bytes of the stop core's scratchpad as recorded. -/
def imgScratch (img : Image) (off n : Nat) : List Byte := rdBytes img.cells (winKey (winAddr (stopCore img) 0 off)) n

/-- CUP_SHAPE: the fields of the record at scratchpad offset `d`, in the order of R264 (R299). -/
def execCupShape (s : State) : Out :=
  imageCmd .cupShape (fun _ img s =>
    if Config.scratchMax < s.args.d + 64 then refuse s
    else
      let r : Shape := BitVec.ofNat 512 (natOfBytes (imgScratch img s.args.d 64))
      answer (.ok ([r.m, r.n, r.k, r.fmtA, r.fmtB, r.fmtAcc, r.flags, r.strideA, r.offA, r.strideB, r.offB, r.lda, r.ldb, r.qsa,
        r.qsb, r.drain, r.jcount, r.jrole, r.jtag, r.dest.toNat].map (BitVec.ofNat 64))) s) s

/-- CUP_TILE: rows 0 to R − 1 and columns 0 to C − 1 of tile `d`, R in [15:0] and C in [31:16] of `word`, as the 32-bit elements
R260 lays out (R299). -/
def execCupTile (s : State) : Out :=
  imageCmd .cupTile (fun _ img s =>
    let r := fieldN s.args.word 0 16
    let c := fieldN s.args.word 16 16
    if 4 ≤ s.args.d ∨ 128 < r ∨ 128 < c then refuse s
    else
      answer (.ok ((upFrom 0 r).flatMap (fun m => (upFrom 0 c).map (fun n =>
        BitVec.ofNat 64 (rdN img.cells (rowKey (stopCore img) s.args.d m + 4 * n) 4))))) s) s

/-- A read that changes nothing, translations included (R316). -/
def cupRead (i : Instr) (t va n : Nat) (k : List Byte → State → Out) (s : State) : Out :=
  match gread s t va n with
  | .ok l _ => k l s
  | .wait => hostLater i s
  | _ => refuse s

/-- N words of 32 bits from a segment on; no touch, no check of rights (R299, R316). -/
def examine (i : Instr) (t : Nat) (v : Option State) (g : Seg) (off n : Nat) (s : State) : Out :=
  let words (l : List Byte) : List Word := (upFrom 0 n).map (fun i => zWord ((l.drop (4 * i)).take 4))
  match g.at_ off, v with
  | .glob a, _ => cupRead i t a (4 * n) (fun l => answer (.ok (words l))) s
  | .win wa, some v => if winRange v wa (4 * n) then answer (.ok (words (winRead v wa (4 * n)))) s else refuse s
  | .win _, none => refuse s

/-- CUP_EXAMINE: segment `d`, the offset in [63:0] of `word`, N in [79:64]. The segment is context 0's as recorded; after the
brew has retired, the one of its segment table (R299, R316). -/
def execCupExamine (s : State) : Out :=
  let off := fieldN s.args.word 0 64
  let n := fieldN s.args.word 64 16
  hostThen .cupExamine (decide (8 ≤ s.args.d) || n == 0) (fun s =>
    match (argPour s).bind (fun p => p.image.map (fun img => (p, img))) with
    | some (p, img) =>
      match imgCtx img (keyOf (stopCore img) 0) with
      | some c => examine .cupExamine p.tenant (some (viewOf s p img)) (vget c.g s.args.d {}) off n s
      | none => refuse s
    | none =>
      match findBrew s s.args.a s.args.b with
      | some b => if b.retired = b.count then examine .cupExamine b.tenant none (vget b.segs s.args.d {}) off n s else refuse s
      | none => refuse s) s

/-- CUP_CTX: the contexts of the pour that are not Free, those saved alone among them (R13, R316). -/
def execCupCtx (s : State) : Out :=
  imageCmd .cupCtx (fun _ img s => answer (.ok ((sortBy (fun c => c.key % 2 ^ 15) img.ctxs).flatMap ctxWords)) s) s

/-- The recorded states of a tenant's pours. -/
def tenantImages (s : State) (t : Nat) : List Image := (s.pours.filter (fun p => p.tenant == t)).filterMap Pour.image

/-- The operations of a core, on it and in the images of pours. -/
def opsOf {α : Type} (s : State) (core : Nat) (f : CoreSt → List α) : List α :=
  f (getCore s core) ++ (s.pours.filterMap Pour.image).flatMap (fun g => f (imgCore g core))

/-- The context a requester of a fill works for (R207, R303). -/
def reqKey (s : State) : Req → Option Nat
  | .ctx k => some k
  | .copy core id => ((opsOf s core CoreSt.cq).find? (fun o => o.id == id)).map COp.key
  | .mat core id => ((opsOf s core CoreSt.mq).find? (fun o => o.id == id)).map MOp.key
  | .drip pid =>
    ((s.net ++ (s.pours.filterMap Pour.image).flatMap Image.logs).find? (fun q => q.id == pid)).map Packet.src

/-- The contexts that ask for a block (R303, R306). -/
def askers (s : State) (t n b : Nat) : List Nat :=
  (s.fills.filter (fun f => f.tenant == t && f.range == n && f.block == b)).flatMap (fun f => f.reqs.filterMap (reqKey s))

/-- CUP_FILL at the address in `word`: the word of R314; for a Filling block also its generator, 2^64 − 1 for none, and the
contexts that ask for it, each once, in the order of R207 (R316). -/
def execCupFill (s : State) : Out :=
  imageCmd .cupFill (fun p _ s =>
    let va := fieldN s.args.word 0 48
    match rangeAt s p.tenant va with
    | none => answer (.ok [0]) s
    | some (n, r) =>
      let b := r.blockOf va
      match blockState s p.tenant r b with
      | .ok l _ =>
        let st := fieldN (l.headD 0) (2 * (b % 4)) 2
        let all := allCtxs s ++ (tenantImages s p.tenant).flatMap Image.ctxs
        let gen := (all.find? (fun c => c.gen.any (fun g => g.tenant == p.tenant && g.range == n && g.block == b))).map (fun c => c.key % 2 ^ 15)
        let reqs := ((askers s p.tenant n b).map (fun k => k % 2 ^ 15)).foldl (fun l k => insNat k l) []
        answer (.ok (stateWord n b st ::
          (if st = 1 then (gen.map (BitVec.ofNat 64)).getD (BitVec.allOnes 64) :: reqs.map (BitVec.ofNat 64) else []))) s
      | .wait => hostLater .cupFill s
      | _ => refuse s) s

/-- The descriptor of layer `d` of tenant `a`: a live one as its unit holds it, else the one in the table; whether it is live
comes with it. Of the LCB only TABLE and CAP are needed (R338, R340, R360, R362). -/
def layerThenAt (i : Instr) (k : Bool → List Byte → State → Out) (s : State) : Out :=
  let t := s.args.a
  let id := s.args.d
  hostThen i (decide (16 ≤ t) || decide (65536 ≤ id)) (fun s =>
    match findLayer s t id with
    | some l => k true (l.bytes true) s
    | none =>
      let a := (getTenant s t).lcb.toNat
      if a = 0 then refuse s
      else
        cupRead i t a 16 (fun m s =>
          if byteAt m 8 4 ≤ id then refuse s else cupRead i t (byteAt m 0 8 + 256 * id) 256 (fun l => k false l) s) s) s

/-- CUP_LAYER: whether layer `d` is live, then its descriptor (R360). -/
def execCupLayer (s : State) : Out :=
  layerThenAt .cupLayer (fun live l => answer (.ok (BitVec.ofNat 64 (b2n live) :: wordsOf l))) s

/-- CUP_DEPS: the occupied dependencies of layer `d` as caster, weight and snapshot, then parent and child (R362). -/
def execCupDeps (s : State) : Out :=
  layerThenAt .cupDeps (fun _ l s =>
    let f (o : Nat) : Word := BitVec.ofNat 64 (byteAt l o 4)
    let dep (i : Nat) : List Word :=
      if byteAt l (144 + 16 * i) 4 = 0xFFFF_FFFF then []
      else [f (144 + 16 * i), f (148 + 16 * i), f (152 + 16 * i), f (156 + 16 * i)]
    answer (.ok ((upFrom 0 4).flatMap dep ++ [f 244, f 248])) s) s

end Sys2Proof.Machine
end

