-- ==== Sys2Proof/Machine/LoadStore.lean ====
section
/-! DEFINITION. The five FM majors LD, LDS, ST, LDA and STL (R123 to R128). Memory is one coherent store (log 6), so acquire
and release add no effect of their own. -/

namespace Sys2Proof.Machine

/-- A load: the checks of R123, the visitor's rule of R175, the path, then the value as `f` extends it (R125, R127). -/
def load (wd : W32) (f : List Byte → Word) (d a : BitVec 5) (g : BitVec 3) (w : BitVec 2) (o : BitVec 11) (s : State) : Out :=
  fmThen (rs s a) (rg s g) w o false (fun t p =>
    fmHere wd t (readThen t (widthOf w) p (fun l s => done (ws s d (f l))))) s

/-- A store of the low bytes of S[d] (R125, R127). With `later` an error of its path is deferred (R128). -/
def store (wd : W32) (later : Bool) (d a : BitVec 5) (g : BitVec 3) (w : BitVec 2) (o : BitVec 11) (k : State → Out)
    (s : State) : Out :=
  fmThen (rs s a) (rg s g) w o true (fun t p =>
    fmHere wd t (writeThen t (lowBytes (rs s d) (widthOf w)) p 0 later k)) s

/-- LD (R125). -/
def execLd (d a : BitVec 5) (g : BitVec 3) (w : BitVec 2) (o : BitVec 11) (s : State) : Out :=
  load (encode (.ld d a g w o)) zWord d a g w o s

/-- LDS (R125). -/
def execLds (d a : BitVec 5) (g : BitVec 3) (w : BitVec 2) (o : BitVec 11) (s : State) : Out :=
  load (encode (.lds d a g w o)) sWord d a g w o s

/-- ST (R125). -/
def execSt (d a : BitVec 5) (g : BitVec 3) (w : BitVec 2) (o : BitVec 11) (s : State) : Out :=
  store (encode (.st d a g w o)) true d a g w o done s

/-- LDA: a load-acquire at device scope (R126). -/
def execLda (d a : BitVec 5) (g : BitVec 3) (w : BitVec 2) (o : BitVec 11) (s : State) : Out :=
  load (encode (.lda d a g w o)) zWord d a g w o s

/-- STL: a store-release at device scope; it takes the deferred causes of earlier stores in place of completing (R126,
R128). -/
def execStl (d a : BitVec 5) (g : BitVec 3) (w : BitVec 2) (o : BitVec 11) (s : State) : Out :=
  fmThen (rs s a) (rg s g) w o true (fun t p =>
    fmHere (encode (.stl d a g w o)) t (releaseThen (deferredThen (writeThen t (lowBytes (rs s d) (widthOf w)) p 0 false done)))) s

end Sys2Proof.Machine
end

