-- ==== Sys2Proof/Machine/Dispatch.lean ====
section
/-! DEFINITION. The one table from instructions to their meanings: one arm per constructor of Instr. -/

namespace Sys2Proof.Machine

/-- The meaning of an instruction, an event or a command in a state. -/
def exec (i : Instr) (s : State) : Host.Outcome State Fault Refusal :=
  match i with
  -- ALU (R115, R116, R117)
  | .add d a b w => Sys2Proof.Machine.execAdd d a b w s
  | .sub d a b w => Sys2Proof.Machine.execSub d a b w s
  | .and d a b w => Sys2Proof.Machine.execAnd d a b w s
  | .or d a b w => Sys2Proof.Machine.execOr d a b w s
  | .xor d a b w => Sys2Proof.Machine.execXor d a b w s
  | .andn d a b w => Sys2Proof.Machine.execAndn d a b w s
  | .sll d a b w => Sys2Proof.Machine.execSll d a b w s
  | .srl d a b w => Sys2Proof.Machine.execSrl d a b w s
  | .sra d a b w => Sys2Proof.Machine.execSra d a b w s
  | .mul d a b w => Sys2Proof.Machine.execMul d a b w s
  | .mulh d a b => Sys2Proof.Machine.execMulh d a b s
  | .mulhu d a b => Sys2Proof.Machine.execMulhu d a b s
  | .div d a b w => Sys2Proof.Machine.execDiv d a b w s
  | .divu d a b w => Sys2Proof.Machine.execDivu d a b w s
  | .rem d a b w => Sys2Proof.Machine.execRem d a b w s
  | .remu d a b w => Sys2Proof.Machine.execRemu d a b w s
  | .min d a b w => Sys2Proof.Machine.execMin d a b w s
  | .max d a b w => Sys2Proof.Machine.execMax d a b w s
  | .minu d a b w => Sys2Proof.Machine.execMinu d a b w s
  | .maxu d a b w => Sys2Proof.Machine.execMaxu d a b w s
  | .ceq d a b w => Sys2Proof.Machine.execCeq d a b w s
  | .cne d a b w => Sys2Proof.Machine.execCne d a b w s
  | .clt d a b w => Sys2Proof.Machine.execClt d a b w s
  | .cltu d a b w => Sys2Proof.Machine.execCltu d a b w s
  | .cle d a b w => Sys2Proof.Machine.execCle d a b w s
  | .cleu d a b w => Sys2Proof.Machine.execCleu d a b w s
  | .clz d a w => Sys2Proof.Machine.execClz d a w s
  | .ctz d a w => Sys2Proof.Machine.execCtz d a w s
  | .popc d a w => Sys2Proof.Machine.execPopc d a w s
  | .padd d a b => Sys2Proof.Machine.execPadd d a b s
  | .ptag d a => Sys2Proof.Machine.execPtag d a s
  | .psett d a b => Sys2Proof.Machine.execPsett d a b s
  | .cmovnz d a b => Sys2Proof.Machine.execCmovnz d a b s
  | .cmovz d a b => Sys2Proof.Machine.execCmovz d a b s
  -- ALUI (R118)
  | .addi d a j => Sys2Proof.Machine.execAddi d a j s
  | .andi d a j => Sys2Proof.Machine.execAndi d a j s
  | .ori d a j => Sys2Proof.Machine.execOri d a j s
  | .xori d a j => Sys2Proof.Machine.execXori d a j s
  | .slli d a j => Sys2Proof.Machine.execSlli d a j s
  | .srli d a j => Sys2Proof.Machine.execSrli d a j s
  | .srai d a j => Sys2Proof.Machine.execSrai d a j s
  | .ceqi d a j => Sys2Proof.Machine.execCeqi d a j s
  | .clti d a j => Sys2Proof.Machine.execClti d a j s
  | .cltui d a j => Sys2Proof.Machine.execCltui d a j s
  | .muli d a j => Sys2Proof.Machine.execMuli d a j s
  | .paddi d a j => Sys2Proof.Machine.execPaddi d a j s
  -- IM (R119)
  | .imz d q j => Sys2Proof.Machine.execImz d q j s
  | .imk d q j => Sys2Proof.Machine.execImk d q j s
  -- BR (R120)
  | .bz a o => Sys2Proof.Machine.execBz a o s
  | .bnz a o => Sys2Proof.Machine.execBnz a o s
  | .blt a o => Sys2Proof.Machine.execBlt a o s
  | .bge a o => Sys2Proof.Machine.execBge a o s
  | .bgt a o => Sys2Proof.Machine.execBgt a o s
  | .ble a o => Sys2Proof.Machine.execBle a o s
  -- JAL (R121)
  | .jal d o => Sys2Proof.Machine.execJal d o s
  -- JALR (R122)
  | .jalr d a j => Sys2Proof.Machine.execJalr d a j s
  -- LD (R125)
  | .ld d a g w o => Sys2Proof.Machine.execLd d a g w o s
  -- LDS (R125)
  | .lds d a g w o => Sys2Proof.Machine.execLds d a g w o s
  -- ST (R125)
  | .st d a g w o => Sys2Proof.Machine.execSt d a g w o s
  -- LDA (R126)
  | .lda d a g w o => Sys2Proof.Machine.execLda d a g w o s
  -- STL (R126)
  | .stl d a g w o => Sys2Proof.Machine.execStl d a g w o s
  -- SYS (R129 to R138, R208, R209, R214)
  | .csrr d b c => Sys2Proof.Machine.execCsrr d b c s
  | .csrw a b c => Sys2Proof.Machine.execCsrw a b c s
  | .csrset a b c => Sys2Proof.Machine.execCsrset a b c s
  | .csrclr a b c => Sys2Proof.Machine.execCsrclr a b c s
  | .segw g a b => Sys2Proof.Machine.execSegw g a b s
  | .segr d g q => Sys2Proof.Machine.execSegr d g q s
  | .ident d q => Sys2Proof.Machine.execIdent d q s
  | .rdcyc d q => Sys2Proof.Machine.execRdcyc d q s
  | .trap a => Sys2Proof.Machine.execTrap a s
  | .brk j => Sys2Proof.Machine.execBrk j s
  | .frec d => Sys2Proof.Machine.execFrec d s
  | .ctxsv d a => Sys2Proof.Machine.execCtxsv d a s
  | .ctxld d a => Sys2Proof.Machine.execCtxld d a s
  | .mark d a => Sys2Proof.Machine.execMark d a s
  -- ATOM (R169, R170)
  | .aadd d a b o x => Sys2Proof.Machine.execAadd d a b o x s
  | .aand d a b o x => Sys2Proof.Machine.execAand d a b o x s
  | .aor d a b o x => Sys2Proof.Machine.execAor d a b o x s
  | .axor d a b o x => Sys2Proof.Machine.execAxor d a b o x s
  | .amin d a b o x => Sys2Proof.Machine.execAmin d a b o x s
  | .amax d a b o x => Sys2Proof.Machine.execAmax d a b o x s
  | .aminu d a b o x => Sys2Proof.Machine.execAminu d a b o x s
  | .amaxu d a b o x => Sys2Proof.Machine.execAmaxu d a b o x s
  | .aswap d a b o x => Sys2Proof.Machine.execAswap d a b o x s
  | .acas d a b o x => Sys2Proof.Machine.execAcas d a b o x s
  | .aaddf d a b o x => Sys2Proof.Machine.execAaddf d a b o x s
  | .aminf d a b o x => Sys2Proof.Machine.execAminf d a b o x s
  | .amaxf d a b o x => Sys2Proof.Machine.execAmaxf d a b o x s
  -- DRIP (R172)
  | .dadd d a b => Sys2Proof.Machine.execDadd d a b s
  | .dand d a b => Sys2Proof.Machine.execDand d a b s
  | .dor d a b => Sys2Proof.Machine.execDor d a b s
  | .dmin d a b => Sys2Proof.Machine.execDmin d a b s
  | .dmax d a b => Sys2Proof.Machine.execDmax d a b s
  | .daddf d a b => Sys2Proof.Machine.execDaddf d a b s
  | .dminf d a b => Sys2Proof.Machine.execDminf d a b s
  | .dmaxf d a b => Sys2Proof.Machine.execDmaxf d a b s
  -- MIG (R177)
  | .go a => Sys2Proof.Machine.execGo a s
  | .where d => Sys2Proof.Machine.execWhere d s
  | .farld d a w => Sys2Proof.Machine.execFarld d a w s
  | .farst a b w => Sys2Proof.Machine.execFarst a b w s
  -- KET (R188 to R193)
  | .kset d a b => Sys2Proof.Machine.execKset d a b s
  | .kadd a b => Sys2Proof.Machine.execKadd a b s
  | .kread d a => Sys2Proof.Machine.execKread d a s
  | .kwait a => Sys2Proof.Machine.execKwait a s
  | .koff a => Sys2Proof.Machine.execKoff a s
  | .send d a b => Sys2Proof.Machine.execSend d a b s
  | .sendv d v => Sys2Proof.Machine.execSendv d v s
  | .recv v a => Sys2Proof.Machine.execRecv v a s
  | .allow a b => Sys2Proof.Machine.execAllow a b s
  | .avail d a => Sys2Proof.Machine.execAvail d a s
  -- SYNC (R194 to R198)
  | .fence q k => Sys2Proof.Machine.execFence q k s
  | .barset a b n => Sys2Proof.Machine.execBarset a b n s
  | .bar n => Sys2Proof.Machine.execBar n s
  | .bara n => Sys2Proof.Machine.execBara n s
  | .barw n => Sys2Proof.Machine.execBarw n s
  | .waitw d a b => Sys2Proof.Machine.execWaitw d a b s
  | .publish a q => Sys2Proof.Machine.execPublish a q s
  | .acquire d a q => Sys2Proof.Machine.execAcquire d a q s
  -- WORK (R180 to R183)
  | .hstart d a b => Sys2Proof.Machine.execHstart d a b s
  | .hjoin a => Sys2Proof.Machine.execHjoin a s
  | .hstat d => Sys2Proof.Machine.execHstat d s
  | .launch d a => Sys2Proof.Machine.execLaunch d a s
  | .lstat d a => Sys2Proof.Machine.execLstat d a s
  -- VOP (R222 to R228)
  | .vadd d a b p ty rs => Sys2Proof.Machine.execVadd d a b p ty rs s
  | .vsub d a b p ty rs => Sys2Proof.Machine.execVsub d a b p ty rs s
  | .vmul d a b p ty rs => Sys2Proof.Machine.execVmul d a b p ty rs s
  | .vfma d a b p ty rs => Sys2Proof.Machine.execVfma d a b p ty rs s
  | .vfms d a b p ty rs => Sys2Proof.Machine.execVfms d a b p ty rs s
  | .vmin d a b p ty => Sys2Proof.Machine.execVmin d a b p ty s
  | .vmax d a b p ty => Sys2Proof.Machine.execVmax d a b p ty s
  | .vabs d a p ty => Sys2Proof.Machine.execVabs d a p ty s
  | .vneg d a p ty => Sys2Proof.Machine.execVneg d a p ty s
  | .vand d a b p => Sys2Proof.Machine.execVand d a b p s
  | .vor d a b p => Sys2Proof.Machine.execVor d a b p s
  | .vxor d a b p => Sys2Proof.Machine.execVxor d a b p s
  | .vshl d a b p ty => Sys2Proof.Machine.execVshl d a b p ty s
  | .vshr d a b p ty => Sys2Proof.Machine.execVshr d a b p ty s
  | .vsar d a b p ty => Sys2Proof.Machine.execVsar d a b p ty s
  | .vdiv d a b p ty rs => Sys2Proof.Machine.execVdiv d a b p ty rs s
  | .vsqrt d a p ty rs => Sys2Proof.Machine.execVsqrt d a p ty rs s
  | .vrcp d a p ty rs => Sys2Proof.Machine.execVrcp d a p ty rs s
  | .vrsq d a p ty rs => Sys2Proof.Machine.execVrsq d a p ty rs s
  | .vexp2 d a p ty rs => Sys2Proof.Machine.execVexp2 d a p ty rs s
  | .vlog2 d a p ty rs => Sys2Proof.Machine.execVlog2 d a p ty rs s
  | .vceq d a b p ty => Sys2Proof.Machine.execVceq d a b p ty s
  | .vclt d a b p ty => Sys2Proof.Machine.execVclt d a b p ty s
  | .vcle d a b p ty => Sys2Proof.Machine.execVcle d a b p ty s
  | .vsel d a b p => Sys2Proof.Machine.execVsel d a b p s
  | .vcvt d a q p ty rs => Sys2Proof.Machine.execVcvt d a q p ty rs s
  | .vmov d a p => Sys2Proof.Machine.execVmov d a p s
  | .vdot d a b p ty rs => Sys2Proof.Machine.execVdot d a b p ty rs s
  -- VSC (R229)
  | .vadds d a q p ty rs => Sys2Proof.Machine.execVadds d a q p ty rs s
  | .vmuls d a q p ty rs => Sys2Proof.Machine.execVmuls d a q p ty rs s
  | .vfmas d a q p ty rs => Sys2Proof.Machine.execVfmas d a q p ty rs s
  | .vmins d a q p ty => Sys2Proof.Machine.execVmins d a q p ty s
  | .vmaxs d a q p ty => Sys2Proof.Machine.execVmaxs d a q p ty s
  | .vsplat d q p ty => Sys2Proof.Machine.execVsplat d q p ty s
  | .vins d a q p ty => Sys2Proof.Machine.execVins d a q p ty s
  | .vext a q ty => Sys2Proof.Machine.execVext a q ty s
  -- VPERM (R230)
  | .vperm d a b p ty => Sys2Proof.Machine.execVperm d a b p ty s
  | .vrot d a b p ty => Sys2Proof.Machine.execVrot d a b p ty s
  | .vzip d a b ty => Sys2Proof.Machine.execVzip d a b ty s
  | .vunzip d a b ty => Sys2Proof.Machine.execVunzip d a b ty s
  | .vcmpr d a p ty => Sys2Proof.Machine.execVcmpr d a p ty s
  | .vexpd d a p ty => Sys2Proof.Machine.execVexpd d a p ty s
  | .viota d p ty => Sys2Proof.Machine.execViota d p ty s
  -- VRED (R231)
  | .vrsum d a p ty rs => Sys2Proof.Machine.execVrsum d a p ty rs s
  | .vrmax d a p ty => Sys2Proof.Machine.execVrmax d a p ty s
  | .vrmin d a p ty => Sys2Proof.Machine.execVrmin d a p ty s
  | .vrand d a p => Sys2Proof.Machine.execVrand d a p s
  | .vror d a p => Sys2Proof.Machine.execVror d a p s
  | .vscan d a p ty rs => Sys2Proof.Machine.execVscan d a p ty rs s
  -- VMEM (R232)
  | .vld d a g p => Sys2Proof.Machine.execVld d a g p s
  | .vst d a g p => Sys2Proof.Machine.execVst d a g p s
  | .vlds d a g p q => Sys2Proof.Machine.execVlds d a g p q s
  | .vsts d a g p q => Sys2Proof.Machine.execVsts d a g p q s
  | .vgath d a g p b => Sys2Proof.Machine.execVgath d a g p b s
  | .vscat d a g p b => Sys2Proof.Machine.execVscat d a g p b s
  -- VPRED (R236)
  | .pand d a b => Sys2Proof.Machine.execPand d a b s
  | .por d a b => Sys2Proof.Machine.execPor d a b s
  | .pxor d a b => Sys2Proof.Machine.execPxor d a b s
  | .pnot d a => Sys2Proof.Machine.execPnot d a s
  | .pcnt d a => Sys2Proof.Machine.execPcnt d a s
  | .pfirst d a => Sys2Proof.Machine.execPfirst d a s
  | .psetn d a => Sys2Proof.Machine.execPsetn d a s
  -- RING (R242)
  | .rdef q a b => Sys2Proof.Machine.execRdef q a b s
  | .rwaitf q b => Sys2Proof.Machine.execRwaitf q b s
  | .rwaite q b => Sys2Proof.Machine.execRwaite q b s
  | .radvh q b => Sys2Proof.Machine.execRadvh q b s
  | .radvt q b => Sys2Proof.Machine.execRadvt q b s
  | .rhead d q => Sys2Proof.Machine.execRhead d q s
  | .rtail d q => Sys2Proof.Machine.execRtail d q s
  | .rbind v q b => Sys2Proof.Machine.execRbind v q b s
  | .runbind v => Sys2Proof.Machine.execRunbind v s
  -- COPY (R248, R249)
  | .copy k q d p x => Sys2Proof.Machine.execCopy k q d p x s
  | .copyg k q d p x => Sys2Proof.Machine.execCopyg k q d p x s
  | .copys k q d p x => Sys2Proof.Machine.execCopys k q d p x s
  | .copyw k q d p x => Sys2Proof.Machine.execCopyw k q d p x s
  -- BITS (R257)
  | .bget d n => Sys2Proof.Machine.execBget d n s
  | .bpeek d n => Sys2Proof.Machine.execBpeek d n s
  | .bskip a => Sys2Proof.Machine.execBskip a s
  | .bput a n => Sys2Proof.Machine.execBput a n s
  | .bflush d => Sys2Proof.Machine.execBflush d s
  | .bhuf d a => Sys2Proof.Machine.execBhuf d a s
  | .blzc d => Sys2Proof.Machine.execBlzc d s
  | .bnext d => Sys2Proof.Machine.execBnext d s
  | .bfail a => Sys2Proof.Machine.execBfail a s
  -- MMA (R100, R270 to R273)
  | .mma c a b q n e z g r k j t => Sys2Proof.Machine.execMma c a b q n e z g r k j t s
  | .mmaj c a b q n e z g r k j t => Sys2Proof.Machine.execMmaj c a b q n e z g r k j t s
  | .mmas c a q n z g r k t => Sys2Proof.Machine.execMmas c a q n z g r k t s
  | .mlda c q g => Sys2Proof.Machine.execMlda c q g s
  | .msta c q g r => Sys2Proof.Machine.execMsta c q g r s
  | .mzero c g => Sys2Proof.Machine.execMzero c g s
  -- MSYS (R275, R280)
  | .mstat d => Sys2Proof.Machine.execMstat d s
  | .drrow d => Sys2Proof.Machine.execDrrow d s
  | .drdone a => Sys2Proof.Machine.execDrdone a s
  | .mchk d a n => Sys2Proof.Machine.execMchk d a n s
  -- SEED (R291 to R297)
  | .sexp d a b g => Sys2Proof.Machine.execSexp d a b g s
  | .ssrch d a b => Sys2Proof.Machine.execSsrch d a b s
  | .sproj d a b g => Sys2Proof.Machine.execSproj d a b g s
  | .schk d a g => Sys2Proof.Machine.execSchk d a g s
  | .lfsr d a n => Sys2Proof.Machine.execLfsr d a n s
  | .srec d a b g => Sys2Proof.Machine.execSrec d a b g s
  -- PROC (R312)
  | .prdef d a g => Sys2Proof.Machine.execPrdef d a g s
  | .prdel a => Sys2Proof.Machine.execPrdel a s
  | .prfail a => Sys2Proof.Machine.execPrfail a s
  | .prstate d a g => Sys2Proof.Machine.execPrstate d a g s
  | .previct d a b g => Sys2Proof.Machine.execPrevict d a b g s
  | .prtouch a g => Sys2Proof.Machine.execPrtouch a g s
  -- RAST (R318)
  | .rview d a n => Sys2Proof.Machine.execRview d a n s
  | .rsetup d v b n p => Sys2Proof.Machine.execRsetup d v b n p s
  | .rcover d a p f e => Sys2Proof.Machine.execRcover d a p f e s
  | .rbox d a b => Sys2Proof.Machine.execRbox d a b s
  | .rtri d a b => Sys2Proof.Machine.execRtri d a b s
  | .rbin d a b => Sys2Proof.Machine.execRbin d a b s
  | .ordb d a => Sys2Proof.Machine.execOrdb d a s
  | .orde d a => Sys2Proof.Machine.execOrde d a s
  | .blnda d a p o => Sys2Proof.Machine.execBlnda d a p o s
  | .ordtok d a b l => Sys2Proof.Machine.execOrdtok d a b l s
  -- LAYER (R346)
  | .ldefDef a => Sys2Proof.Machine.execLdefDef a s
  | .ldefRet a => Sys2Proof.Machine.execLdefRet a s
  | .ldefPose a b => Sys2Proof.Machine.execLdefPose a b s
  | .lwarp d a b p => Sys2Proof.Machine.execLwarp d a b p s
  | .lerr d a n => Sys2Proof.Machine.execLerr d a n s
  | .lprice a b => Sys2Proof.Machine.execLprice a b s
  | .lframe d => Sys2Proof.Machine.execLframe d s
  | .lreq d a n => Sys2Proof.Machine.execLreq d a n s
  | .lsplit a b => Sys2Proof.Machine.execLsplit a b s
  | .lmerge a b => Sys2Proof.Machine.execLmerge a b s
  | .ldep d a b => Sys2Proof.Machine.execLdep d a b s
  | .lorder a b => Sys2Proof.Machine.execLorder a b s
  | .lres d a b p => Sys2Proof.Machine.execLres d a b p s
  -- instructions without operands
  | .nop => Sys2Proof.Machine.execNop s
  | .yield => Sys2Proof.Machine.execYield s
  | .stop => Sys2Proof.Machine.execStop s
  | .tret => Sys2Proof.Machine.execTret s
  | .uret => Sys2Proof.Machine.execUret s
  | .home => Sys2Proof.Machine.execHome s
  | .stay => Sys2Proof.Machine.execStay s
  | .balign => Sys2Proof.Machine.execBalign s
  | .mwait => Sys2Proof.Machine.execMwait s
  | .prdone => Sys2Proof.Machine.execPrdone s
  -- steps of the part and host commands: no encoding, their operands in State.args
  | .instructionFetch => Sys2Proof.Machine.execInstructionFetch s
  | .chargedCauseDeliver => Sys2Proof.Machine.execChargedCauseDeliver s
  | .storePathError => Sys2Proof.Machine.execStorePathError s
  | .upcallDeliver => Sys2Proof.Machine.execUpcallDeliver s
  | .waitWake => Sys2Proof.Machine.execWaitWake s
  | .announcementArrive => Sys2Proof.Machine.execAnnouncementArrive s
  | .acceptRecord => Sys2Proof.Machine.execAcceptRecord s
  | .placePour => Sys2Proof.Machine.execPlacePour s
  | .controlContextStart => Sys2Proof.Machine.execControlContextStart s
  | .zeroFillStep => Sys2Proof.Machine.execZeroFillStep s
  | .shotRetire => Sys2Proof.Machine.execShotRetire s
  | .sliceExpire => Sys2Proof.Machine.execSliceExpire s
  | .preemptCut => Sys2Proof.Machine.execPreemptCut s
  | .markerArrive => Sys2Proof.Machine.execMarkerArrive s
  | .pourResume => Sys2Proof.Machine.execPourResume s
  | .checkpointStored => Sys2Proof.Machine.execCheckpointStored s
  | .helperAssign => Sys2Proof.Machine.execHelperAssign s
  | .kettleDecrement => Sys2Proof.Machine.execKettleDecrement s
  | .messageArrive => Sys2Proof.Machine.execMessageArrive s
  | .allowGrantArrive => Sys2Proof.Machine.execAllowGrantArrive s
  | .dripArrive => Sys2Proof.Machine.execDripArrive s
  | .migrationArrive => Sys2Proof.Machine.execMigrationArrive s
  | .visitorAdmit => Sys2Proof.Machine.execVisitorAdmit s
  | .txwakeStart => Sys2Proof.Machine.execTxwakeStart s
  | .barrierSweepHop => Sys2Proof.Machine.execBarrierSweepHop s
  | .copyStart => Sys2Proof.Machine.execCopyStart s
  | .copyComplete => Sys2Proof.Machine.execCopyComplete s
  | .bstrDeliver => Sys2Proof.Machine.execBstrDeliver s
  | .matrixOpStart => Sys2Proof.Machine.execMatrixOpStart s
  | .matrixOpComplete => Sys2Proof.Machine.execMatrixOpComplete s
  | .joinComputeBegin => Sys2Proof.Machine.execJoinComputeBegin s
  | .joinAbandon => Sys2Proof.Machine.execJoinAbandon s
  | .layerCloseProcess => Sys2Proof.Machine.execLayerCloseProcess s
  | .layerPostRecords => Sys2Proof.Machine.execLayerPostRecords s
  | .lsplitCsrWrite => Sys2Proof.Machine.execLsplitCsrWrite s
  | .txwakeCsrWrite => Sys2Proof.Machine.execTxwakeCsrWrite s
  | .fdutyUpdate => Sys2Proof.Machine.execFdutyUpdate s
  | .forcedClockSkip => Sys2Proof.Machine.execForcedClockSkip s
  | .hbmBudgetRefill => Sys2Proof.Machine.execHbmBudgetRefill s
  | .selfRefreshEnter => Sys2Proof.Machine.execSelfRefreshEnter s
  | .clockSweeperVisit => Sys2Proof.Machine.execClockSweeperVisit s
  | .corePowerUp => Sys2Proof.Machine.execCorePowerUp s
  | .corePowerOff => Sys2Proof.Machine.execCorePowerOff s
  | .deviceReset => Sys2Proof.Machine.execDeviceReset s
  | .fullService => Sys2Proof.Machine.execFullService s
  | .mread => Sys2Proof.Machine.execMread s
  | .mwrite => Sys2Proof.Machine.execMwrite s
  | .kmsg => Sys2Proof.Machine.execKmsg s
  | .tset => Sys2Proof.Machine.execTset s
  | .tget => Sys2Proof.Machine.execTget s
  | .dset => Sys2Proof.Machine.execDset s
  | .inval => Sys2Proof.Machine.execInval s
  | .treset => Sys2Proof.Machine.execTreset s
  | .pcmdStop => Sys2Proof.Machine.execPcmdStop s
  | .pcmdResume => Sys2Proof.Machine.execPcmdResume s
  | .pcmdDiscard => Sys2Proof.Machine.execPcmdDiscard s
  | .pcmdResumeCheckpoint => Sys2Proof.Machine.execPcmdResumeCheckpoint s
  | .pcmdReadState => Sys2Proof.Machine.execPcmdReadState s
  | .pcmdWriteState => Sys2Proof.Machine.execPcmdWriteState s
  | .resync => Sys2Proof.Machine.execResync s
  | .attest => Sys2Proof.Machine.execAttest s
  | .cupLoad => Sys2Proof.Machine.execCupLoad s
  | .cupBreak => Sys2Proof.Machine.execCupBreak s
  | .cupLaunch => Sys2Proof.Machine.execCupLaunch s
  | .cupContinue => Sys2Proof.Machine.execCupContinue s
  | .cupRegs => Sys2Proof.Machine.execCupRegs s
  | .cupRing => Sys2Proof.Machine.execCupRing s
  | .cupMq => Sys2Proof.Machine.execCupMq s
  | .cupShape => Sys2Proof.Machine.execCupShape s
  | .cupTile => Sys2Proof.Machine.execCupTile s
  | .cupExamine => Sys2Proof.Machine.execCupExamine s
  | .cupCsr => Sys2Proof.Machine.execCupCsr s
  | .cupCtx => Sys2Proof.Machine.execCupCtx s
  | .cupFill => Sys2Proof.Machine.execCupFill s
  | .cupRegsAt => Sys2Proof.Machine.execCupRegsAt s
  | .cupCsrAt => Sys2Proof.Machine.execCupCsrAt s
  | .cupDelete => Sys2Proof.Machine.execCupDelete s
  | .cupKettle => Sys2Proof.Machine.execCupKettle s
  | .cupLayer => Sys2Proof.Machine.execCupLayer s
  | .cupPreds => Sys2Proof.Machine.execCupPreds s
  | .cupDeps => Sys2Proof.Machine.execCupDeps s
  | .selfRefreshExit => Sys2Proof.Machine.execSelfRefreshExit s
  | .stackTrained => Sys2Proof.Machine.execStackTrained s

end Sys2Proof.Machine
end

