-- ==== Sys2Proof/Machine/Policy.lean ====
section
/-! DEFINITION. Who moves next. What the agenda names comes first; else any move that the state holds ready may come, and a free
value picks it (log 5). Moves that time or the host brings come from the agenda alone (log 7). -/

namespace Sys2Proof.Machine

/-- A move without an encoding, with up to two operands. -/
def ev (i : Instr) (a b : Nat) : Turn := .event i { a := a, b := b }

/-- A packet that can arrive (R168). -/
def packetTurn (p : Packet) : List Turn :=
  if p.paused then []
  else
    match p.body with
    | .dec w _ _ _ => [ev (if isAnnounce (dwCore w) (dwKet w) then .announcementArrive else .kettleDecrement) p.id 0]
    | .msg _ _ _ _ _ => [ev .messageArrive p.id 0]
    | .grant _ _ _ => [ev .allowGrantArrive p.id 0]
    | .drip _ _ _ _ _ _ _ _ => [ev .dripArrive p.id 0]
    | .migrate _ => [ev .migrationArrive p.id 0]

/-- A wait that is over, a cause that is due (R13, R203). -/
def ctxTurn (s : State) (c : Ctx) : List Turn :=
  (if wakes s c && pourRuns s c then [ev .waitWake c.key 0] else []) ++ (if chargeDue s c then [ev .chargedCauseDeliver c.key 0] else [])

/-- What a core can do. -/
def coreTurn (s : State) (core : Nat) (k : CoreSt) : List Turn :=
  let one (ok : Bool) (i : Instr) : List Turn := if ok then [ev i core 0] else []
  (if !(readyList s core).isEmpty then [.issue core] else [])
    ++ one k.starting .controlContextStart
    ++ one (upcallDue s core) .upcallDeliver
    ++ one (assignable s core).isSome .helperAssign
    ++ one (admissible s core).isSome .visitorAdmit
    ++ one (txReady s core) .txwakeStart
    ++ one k.zfActive .zeroFillStep
    ++ one (shotDone s core) .shotRetire
    ++ one (!k.mq.isEmpty) .matrixOpStart
    ++ one (!k.mq.isEmpty) .matrixOpComplete
    ++ one (nextCopy k).isSome .copyStart
    ++ (k.cq.filter (fun o => o.running)).flatMap (fun o => [ev .copyComplete core o.id, ev .bstrDeliver core o.id])
    ++ k.bars.map (fun b => ev .barrierSweepHop core b.1)
    ++ one (!k.powered && wanted s core) .corePowerUp

/-- What the scheduler can do (R24 to R38). -/
def schedTurn (s : State) : List Turn :=
  s.tenants.flatMap (fun t =>
    (if t.2.direct.isEmpty then [] else [ev .acceptRecord t.1 directQueue])
      ++ (t.2.queues.filter (fun q => q.2.kept != 0)).map (fun q => ev .acceptRecord t.1 q.1))
    ++ (match nextPlacement s with
        | some (c, _, _) => [ev (if c.saved.any (fun p => p.image.isSome) then .pourResume else .placePour) 0 0]
        | none => [])
    ++ (if (nextVictim s).isSome then [ev .preemptCut 0 0] else [])
    ++ s.cuts.map (fun c => ev .markerArrive c.pour 0)
    ++ (s.ckpts.filter (fun c => !c.2.stored)).map (fun c => ev .checkpointStored c.1 0)
    ++ s.joins.map (fun j => ev .joinComputeBegin j.pour j.tag)

/-- What the layer units can do (R348). -/
def layerTurn (c : Close) : List Turn :=
  (upFrom 0 c.todo.length).map (fun u => ev .layerCloseProcess c.tenant u) ++ [ev .layerPostRecords c.tenant 0]

/-- Every move the state holds ready. -/
def turns (s : State) : List Turn :=
  s.net.flatMap packetTurn ++ (allCtxs s).flatMap (ctxTurn s) ++ s.cores.flatMap (fun c => coreTurn s c.1 c.2)
    ++ schedTurn s ++ s.closes.flatMap layerTurn

/-- The move that comes next; a part with nothing to do lets a clock pass. -/
def policy (s : State) : Turn :=
  let l := turns s
  l.getD (Config.choice s.ticks % l.length) (.issue s.lastCore)

/-- A step without an encoding: an event or a command. Others take place only by being fetched. -/
def isEvent (i : Instr) : Bool := (encodeNat i).isNone

/-- A step in which a packet of the net arrives. -/
def isArrival : Instr → Bool
  | .kettleDecrement | .announcementArrive | .messageArrive | .allowGrantArrive | .dripArrive | .migrationArrive => true
  | _ => false

/-- An arrival may fall into the clock of the arrivals before it, when its turn in that clock has not passed (R168). -/
def joinsClock (s : State) (t : Turn) : Bool :=
  !s.arrived.isEmpty && Config.sameClock s.ticks && match t with
    | .event i a => isArrival i && (arriving s a.a).isSome
    | _ => false

/-- The clock of a step: a new one, or that of the arrivals before it (R133, R168, log 76). -/
def turnTick (s : State) (t : Turn) : State := if joinsClock s t then sameTick s else clockTick s

/-- The meaning of a LAYER word, by its operation (R338 to R361). -/
def runLayer (l : LayerOp) (s : State) : Out :=
  match l with
  | .ldefDef a => execLdefDef a s
  | .ldefRet a => execLdefRet a s
  | .ldefPose a b => execLdefPose a b s
  | .lwarp d a b p => execLwarp d a b p s
  | .lerr d a n => execLerr d a n s
  | .lprice a b => execLprice a b s
  | .lframe d => execLframe d s
  | .lreq d a n => execLreq d a n s
  | .lsplit a b => execLsplit a b s
  | .lmerge a b => execLmerge a b s
  | .ldep d a b => execLdep d a b s
  | .lorder a b => execLorder a b s
  | .lres d a b p => execLres d a b p s

end Sys2Proof.Machine
end

