-- ==== Sys2Proof/Machine/Step.lean ====
section
/-! DEFINITION. One step of the part: a core issues one instruction, or one event or command takes place. -/

namespace Sys2Proof.Machine

/-- The meaning of a decoded word: exec of its instruction, in a form compiled code can run (`runCode_eq` in Laws). -/
def runCode (c : Code) (s : State) : Out :=
  match c with
  | .core i => exec i s
  | .layer l => runLayer l s

/-- What follows a move in its clock. -/
def settled : Out → Out
  | .next s => .next (settle s)
  | r => r

/-- What a turn does: a core issues, or an event or command takes place. -/
def takeTurn (t : Turn) (s : State) : Out :=
  match t with
  | .issue core => settled (issueCore runCode core s)
  | .event i a => settled (if isEvent i then exec i { s with args := a } else .next s)

/-- One step: the turn the agenda names, else the one the policy picks (log 5). -/
def step (s : State) : Host.Outcome State Fault Refusal :=
  match s.agenda with
  | t :: rest => takeTurn t { turnTick s t with agenda := rest }
  | [] => let t := policy (clockTick s); takeTurn t (turnTick s t)

/-- `s` with the instruction whose bits are `w` placed where the next step fetches its instruction (log 8). -/
def State.withFetchWord (s : State) (_nbits w : Nat) : State :=
  { placeWord s (BitVec.ofNat 32 w) with agenda := .issue 0 :: s.agenda }

end Sys2Proof.Machine
end

