-- ==== Sys2Proof/Safety.lean ====
section
/-! DEFINITION. What counts as a safe run, and the terms claims use: an instruction that completes, and the accesses of the
issuing context that pass. -/

namespace Sys2Proof

/-- `n` steps from a state, none of which faults or is refused. -/
def SafeFor : Nat → Machine.State → Prop
  | 0, _ => True
  | n + 1, s => ∃ t, Machine.step s = .next t ∧ SafeFor n t

/-- A state from which no run stops. -/
def Safe (s : Machine.State) : Prop := ∀ n, SafeFor n s

namespace Machine

/-- No single-step trap follows the instruction (R210). -/
def unstepped (s : State) : Prop := s.cx.stepping = false

/-- The context executes on its home core (R13, R175). -/
def atHome (s : State) : Prop := s.cx.place = .home

/-- The context once its instruction has completed, with the pc where it goes next (R112, R134). -/
def Ctx.completed (c : Ctx) (pc : Addr) : Ctx := { c with pc := pc, instret := c.instret + 1, st := .ready, again := false, met := none }

/-- The state once the issuing context's instruction has completed and goes on at `pc`. -/
def completesAt (pc : Addr) (s : State) : State := { s with cx := s.cx.completed pc }

/-- The state once the instruction has completed: the pc advances by 4 (R112). -/
def completes (s : State) : State := completesAt (s.cx.pc + 4) s

/-- The state once the issuing context's instruction has ended and goes on at `pc`: completed; and where a single step is due, the trap
0x0F is taken there, with the instruction's address in TVAL and the address it goes on at in TRPC (R210). -/
def endsAt (pc : Addr) (s : State) : State :=
  if s.cx.stepping then takeTrap { cause := 0x0F, val := s.cx.pc.setWidth 64 } (completesAt pc s) else completesAt pc s

/-- The same for an instruction that goes on at the next one (R112, R210). -/
def ends (s : State) : State := endsAt (s.cx.pc + 4) s

/-- The issuing context can read `n` bytes where `t` says, without a wait, a trap or a page fault: the bytes are `l`, and
`s'` is the state with what the path changes (translations and blocks held, A bits) (R127, R143, R145, R156, R303). -/
def reads (s : State) (t : Tgt) (n : Nat) (l : List Byte) (s' : State) : Prop :=
  match t with
  | .win wa =>
    winCheck s s.cx.pour s.cx.tenant.toNat wa n false = none ∧ winWait s wa false = none ∧ l = winRead s wa n ∧ s' = s
  | .glob va =>
    dripsAt s s.cx.key va n = false ∧ absent s s.cx.tenant.toNat false (blocksOf va n) = none ∧
      ∃ s1, touchAll s s.cx.tenant.toNat va n (.ctx s.cx.key) s.cx.gen s.cx.depth s.cx.key s.cx.core (homeCore s.cx.key)
          = .pass s1
        ∧ gread s1 s1.cx.tenant.toNat va n = .ok l s'

/-- The same for a write of the bytes `l`; `s'` is the state with the bytes written. -/
def writes (s : State) (t : Tgt) (l : List Byte) (kind : Nat) (s' : State) : Prop :=
  match t with
  | .win wa =>
    winCheck s s.cx.pour s.cx.tenant.toNat wa l.length true = none ∧ winWait s wa true = none
      ∧ (winKind wa = 5 → (getRing s (winCore wa) (winOff wa / 32)).isSome ∧ dripping s s.cx.key = false) ∧ s' = winWrite s s.cx.key wa l
  | .glob va =>
    dripsAt s s.cx.key va l.length = false ∧ absent s s.cx.tenant.toNat true (blocksOf va l.length) = none ∧
      ∃ s1, touchAll s s.cx.tenant.toNat va l.length (.ctx s.cx.key) s.cx.gen s.cx.depth s.cx.key s.cx.core
          (homeCore s.cx.key) = .pass s1
        ∧ gwrite s1 s1.cx.tenant.toNat va l kind s1.cx.who = .ok s'

end Machine

end Sys2Proof
end

