-- ==== Sys2Proof/Certificates/Slice0/Obligations.lean ====
section
/-! DEFINITION. The statements for the provers, each with the words it is stated in (Sys2Proof.Claims). A statement of a
result has its conclusion as an equation of exec with a next state that is written out, so it gives the frame too. -/

open Sys2Proof Sys2Proof.Machine

namespace Sys2Proof.Claims

/-- The state in which the context in `slot` of `core` issues: it is the issuing context, the passes of those passed over are
spent, and the scan stands where R15 and R221 leave it. -/
def issuing (s : State) (core slot : Nat) : State :=
  let s1 := updCore (spendPasses s core (pickFrom (issuable s core)).2) core
    (fun k => { k with scan := nextScan s core (some slot), vecHold := false })
  switchTo { s1 with lastCore := core } (slotKey s core slot)

/-- The context is due to fetch: no instruction of its own executes again, no charged cause is delivered first (R203). -/
def fetchDue (s : State) : Prop := s.cx.again = false ∧ (s.cx.charged = [] ∨ s.cx.inh = true)

/-- The word `w` is the one memory holds, `new`, or, for a context that has fetched since its last FENCE of kind full, the one
`old` finds in memory and translations as they stood then (R92; the model's choice which, log 6). -/
def wordFrom (old : State → Option W32) (new : W32) (s : State) (w : W32) (s' : State) : Prop :=
  match s.cx.icode with
  | none =>
    w = new ∧ s' = updCx s (fun c => { c with icode := some { mem := s.mem, tlb := s.tlb, resident := s.resident } })
  | some m =>
    s' = s ∧ w = if Config.oldFetch s.ticks = true then (old { s with mem := m.mem, tlb := m.tlb, resident := m.resident }).getD new
      else new

/-- Four bytes as a word, the lowest first (R91). -/
def littleWord (l : List Byte) : W32 := BitVec.ofNat 32 (natOfBytes l)

/-- The fetch under Seg(g3, PC, 4, X) finds the word `w`; `s'` is the state with what the path changes (R91, R113). What
another device answers is a free value (log 15). -/
def fetches (s : State) (w : W32) (s' : State) : Prop :=
  (s.cx.rg 3).kind ≠ kSeed ∧
    ∃ t, segCheck (s.cx.rg 3) s.cx.pc.toNat 4 rightX false = .ok t ∧
      match t with
      | .win wa =>
        winCheck s s.cx.pour s.cx.tenant.toNat wa 4 false = none ∧ winWait s wa false = none ∧
          if winKind wa < 2 then wordFrom (fun s => some (littleWord (winRead s wa 4))) (littleWord (winRead s wa 4)) s w s'
          else w = littleWord (winRead s wa 4) ∧ s' = s
      | .glob va =>
        let look (s1 : State) : Option W32 := match gread s1 s.cx.tenant.toNat va 4 with
          | .ok l _ => some (littleWord l)
          | _ => none
        ∃ l s1, gread s s.cx.tenant.toNat va 4 = .ok l s1 ∧ wordFrom look (littleWord l) s1 w s'

/-- The word that issues next: one that was fetched before, or the one the fetch finds (R210). -/
def finds (s : State) (w : W32) (s' : State) : Prop :=
  if s.cx.fetched = true then w = s.cx.ir ∧ s' = s else fetches s w s'

/-- The fetch under Seg(g3, PC, 4, X) fails with a cause (R91, R113). -/
def fetchTraps (s : State) (cause : BitVec 8) : Prop :=
  (s.cx.rg 3).kind = kSeed ∧ cause = 0x05 ∨
    (s.cx.rg 3).kind ≠ kSeed ∧
      match segCheck (s.cx.rg 3) s.cx.pc.toNat 4 rightX false with
      | .error e => cause = e
      | .ok (.win wa) => winCheck s s.cx.pour s.cx.tenant.toNat wa 4 false = some cause
      | .ok (.glob va) => ∃ a, gread s s.cx.tenant.toNat va 4 = .error cause a

/-- The fetch meets a page of `a` that is absent (R113, R146). -/
def fetchPages (s : State) (a : Nat) : Prop :=
  (s.cx.rg 3).kind ≠ kSeed ∧ ∃ va, segCheck (s.cx.rg 3) s.cx.pc.toNat 4 rightX false = .ok (.glob va) ∧
    gread s s.cx.tenant.toNat va 4 = .page a

/-- The state with the issuing context Parked at home for a page of `a`: its resume kettle has count 1 and no handler, the upcall
is the last of context 0's, the context's state stands in the thread-context cache (R33, R146). -/
def parked (a : Nat) (eng : BitVec 8) (s : State) : State :=
  let core := homeCore s.cx.key
  let i := homeIdx s.cx.key
  let s1 := updCore (updCx s (fun c => { c with again := eng != 1, st := .parked })) core (fun k => k.caches s.cx.key)
  let s2 := updCore s1 core (fun k =>
    { k with kettles := tput k.kettles (240 + i) { count := 1, tenant := s.cx.tenant.toNat, owned := true } })
  updCtx s2 (keyOf core 0) (fun c =>
    { c with upcalls := c.upcalls ++ [{ va := BitVec.ofNat 64 a, engine := eng,
                                        reqs := [BitVec.ofNat 32 (core % 64 + core / 64 * 2 ^ 6 + i * 2 ^ 11)] }] })

/-- UPVEC of context 0 of the issuing context's shot names no handler (R146). -/
def noHandler (s : State) : Prop := (getCtx s (keyOf (homeCore s.cx.key) 0)).upvec &&& offMask = 0

/-- What the issue of the word `w` changes besides the instruction's own effect: ONCE falls, and whether a single-step trap
follows is settled (R210); the word is kept. -/
def issued (w : W32) (s : State) : State :=
  updCx s (fun c => { c with dbg := c.dbg &&& 0xFFFF_FFFF_FFFF_FFFD, stepping := c.single && !c.inh, fetched := false, ir := w })

/-- The instructions that are a release at cluster scope or wider, as far as their word tells (R98, R157, R161, R182, R313,
R330); STOP away from home is one (R180). -/
def releases (away : Bool) : Instr → Bool
  | .stl .. | .send .. | .sendv .. | .launch .. | .bar .. | .bara .. | .barw .. | .prdone .. | .orde .. => true
  | .fence sc k => sc != .core && (k == .rel || k == .full)
  | .publish _ sc => sc != .core
  | .aadd _ _ _ o _ | .aand _ _ _ o _ | .aor _ _ _ o _ | .axor _ _ _ o _ | .amin _ _ _ o _ | .amax _ _ _ o _ | .aminu _ _ _ o _
  | .amaxu _ _ _ o _ | .aswap _ _ _ o _ | .acas _ _ _ o _ | .aaddf _ _ _ o _ | .aminf _ _ _ o _ | .amaxf _ _ _ o _ =>
    o == .rel || o == .ar
  | .stop => away
  | _ => false

/-- The instruction that the context `c` issued has completed, ended its context, or waits with its effect done. -/
def tookEffect (c after : Ctx) : Bool :=
  after.instret != c.instret || !after.live || (!after.again && match after.st with
    | .waiting _ => true
    | _ => false)

/-- What a step adds to the next state of the instruction `i`, whose word is `w`, of the context `c`: a release writes back the
dirty lines of its core (R151); after a float vector instruction of type f64 the core's vector unit is held for its next clock
(R221); then what follows every move of the part in its clock (R13, R143). -/
def around (i : Instr) (w : W32) (c : Ctx) :
    Host.Outcome State Fault Refusal → Host.Outcome State Fault Refusal
  | .next t =>
    let t1 := if releases c.away i && tookEffect c (getCtx t c.key) then
        { t with dirty := t.dirty.filter (fun d => d.core != c.core) } else t
    .next (settle (if f64Word w then updCore t1 c.core (fun k => { k with vecHold := true }) else t1))
  | r => r

end Sys2Proof.Claims

/-- A step runs the decoded instruction (R15, R91, R113, R203, R210, R221); logs 6, 15 and 81 are the model's choices. -/
def Obligations.StepRunsDecoded : Prop :=
  ∀ (s : State) (core slot : Nat) (rest : List Turn) (w : W32) (i : Instr) (s' : State),
    s.agenda = .issue core :: rest →
    pickSlot { clockTick s with agenda := rest } core = some slot →
    Claims.fetchDue (Claims.issuing { clockTick s with agenda := rest } core slot) →
    Claims.finds (Claims.issuing { clockTick s with agenda := rest } core slot) w s' →
    bpHit s'.cx = none → decode w = .ok i →
    step s = Claims.around i w (Claims.issued w s').cx (exec i (Claims.issued w s'))

/-- A step takes one turn (the model's choice, logs 5, 7 and 76; R18 and R168 leave the order open). A waiting instruction executes again from its start (R13, R203). -/
def Obligations.StepTakesTurns : Prop :=
  ((∀ (s : State) (i : Instr) (a : Args) (rest : List Turn), s.agenda = .event i a :: rest → encodeNat i = none →
    let arrives : Prop := match i with
      | .kettleDecrement | .announcementArrive | .messageArrive | .allowGrantArrive | .dripArrive | .migrationArrive => True
      | _ => False
    let joins := s.arrived ≠ [] ∧ Config.sameClock s.ticks = true ∧ arrives ∧ (arriving s a.a).isSome = true
    ∀ s1, (joins → s1 = { s with ticks := s.ticks + 1 }) → (¬ joins → s1 = clockTick s) →
    step s = match exec i { s1 with agenda := rest, args := a } with
      | .next t => .next (settle t)
      | r => r) ∧
  (∀ (s : State), s.agenda = [] → (clockTick s).agenda = [] ∧
    ∀ t, policy (clockTick s) = t → step s = step { s with agenda := [t] })) ∧
  (∀ (s : State) (core slot : Nat) (rest : List Turn) (i : Instr),
    s.agenda = .issue core :: rest →
    pickSlot { clockTick s with agenda := rest } core = some slot →
    let s1 := Claims.issuing { clockTick s with agenda := rest } core slot
    s1.cx.again = true → (s1.cx.charged = [] ∨ s1.cx.inh = true ∨ s1.cx.stalled = true) → decode s1.cx.ir = .ok i →
    step s = Claims.around i s1.cx.ir s1.cx (exec i s1)) ∧
  (∀ (s : State), settle s = { s with cx := (settle s).cx, ctxs := (settle s).ctxs } ∧
    ∀ (k : Nat),
      let s1 := mapCtxs Ctx.landed s
      let c := (getCtx s k).landed
      (∀ w, c.stopped = false → c.cond = some w → condMet s1 c w = true → c.turnWait = false →
        getCtx (settle s) k = { c with st := .ready, met := metOf s1 c w }) ∧
      ((∀ w, c.stopped = false → c.cond = some w → condMet s1 c w = true → c.turnWait = true) → getCtx (settle s) k = c))

/-- Decoding inverts encoding on every well-formed instruction (R91, R93, R105, R106). -/
def Obligations.DecodeEncodeAgree : Prop :=
  ∀ (i : Instr) (n : Nat) (rest : List Byte), i.wf = true → encodeNat i = some n →
    n < 2 ^ 32 ∧ encode i = BitVec.ofNat 32 n ∧ decode (encode i) = .ok i ∧
      decodeBytes (bytesOfWord (encode i) ++ rest) = .ok (i, rest) ∧ decodeTableWord 32 n = some i

/-- Every bit of a word that decodes is accounted for (R96, R109). -/
def Obligations.DecodeUnique : Prop :=
  ∀ (w : W32) (i : Instr), decode w = .ok i → i.wf = true ∧ encodeNat i = some w.toNat

/-- The worked encodings of 06_encoding.md and 16_complex_product.md. 0x8115841D is refused by R218 (log 66). -/
def Obligations.KnownWords : Prop :=
  decode 0x2093FFFC = .ok (.bnz 4 (BitVec.ofInt 18 (-4))) ∧
  decode 0x8048D068 = .ok (.vfma 1 2 3 2 .f32 .rmode) ∧
  decode 0x8115841C = .ok (.vadd 4 5 6 0 .e5m2 .rmode) ∧
  decode 0x5064281C = .ok (.aadd 3 4 5 .ar true) ∧
  decode 0x6000000D = .ok (.fence .dev .rel) ∧
  decode 0x44051080 = .ok (.csrw 5 2 0) ∧
  decode 0xA50952C1 = .ok (.copy 8 9 10 11 .cvt) ∧
  decode 0xC1233830 = .ok (.mma 1 2 3 7 false false true true false false false false) ∧
  decode 0x904A4100 = .ok (.vst 1 5 1 0) ∧
  decode 0xA0074000 = .ok (.rdef 0 7 8) ∧
  decode 0xC0007410 = .ok (.msta 0 14 true false) ∧
  decode 0x44000000 = .ok .nop ∧
  (∀ w ∈ ([0x00000000, 0xFFFFFFFF, 0x04000440, 0x040003A1, 0x23000000, 0xA50952C9, 0x6000001D, 0x8115841D] : List W32),
    ∃ e, decode w = .error e)

/-- An illegal word traps 0x01 (R109); a fetch's own faults (R113, R146). -/
def Obligations.FetchFaults : Prop :=
  ∀ (s : State) (core slot : Nat) (rest : List Turn),
    s.agenda = .issue core :: rest →
    pickSlot { clockTick s with agenda := rest } core = some slot →
    let s1 := Claims.issuing { clockTick s with agenda := rest } core slot
    Claims.fetchDue s1 →
    (∀ (w : W32) (e : DecErr) (s' : State), Claims.finds s1 w s' → bpHit s'.cx = none → decode w = .error e →
      step s = .next (settle (takeTrap { cause := 0x01, val := w.setWidth 64 } s'))) ∧
    (∀ cause, s1.cx.fetched = false → Claims.fetchTraps s1 cause →
      step s = .next (settle (takeTrap { cause := cause, val := s1.cx.pc.setWidth 64, engine := 1 } s1))) ∧
    (∀ a, s1.cx.fetched = false → Claims.fetchPages s1 a →
      (homeIdx s1.cx.key = 0 ∨ Claims.noHandler s1 →
        step s = .next (settle (takeTrap
          { cause := 0x08, val := s1.cx.pc.setWidth 64, engine := 1, addr := some (BitVec.ofNat 64 a) } s1))) ∧
      (homeIdx s1.cx.key ≠ 0 → ¬ Claims.noHandler s1 → atHome s1 → (∀ v ∈ s1.saves, v.key ≠ s1.cx.key) → step s = .next (settle (Claims.parked a 1 s1))))

namespace Sys2Proof.Claims

/-- The number of bit positions below `n` that satisfy a test. -/
def countBits (n : Nat) (p : Nat → Bool) : Nat := ((List.range n).filter p).length

/-- An n-bit pattern read as a two's complement number. -/
def signed (n x : Nat) : Int := if 2 ^ (n - 1) ≤ x then (x : Int) - 2 ^ n else x

/-- 1 where a comparison holds, else 0 (R116). -/
def truth (b : Bool) : Int := if b then 1 else 0

/-- Offset addition: bits [63:48] of x above the sum of the offsets modulo 2^48 (R116). -/
def offsetSum (x y : Nat) : Nat := x / 2 ^ 48 * 2 ^ 48 + (x % 2 ^ 48 + y % 2 ^ 48) % 2 ^ 48

/-- An ALU instruction as R116 tabulates it: destination, the two sources, W, whether it divides, and its result on n bits
from x, y (plain binary) and the old S[d], as a number to be taken modulo 2^n. -/
structure AluRow where
  d : BitVec 5
  a : BitVec 5
  b : BitVec 5
  w : Bool
  divides : Bool := false
  f : Nat → Nat → Nat → Nat → Int

/-- The table of R116. -/
def aluRow : Instr → Option AluRow
  | .add d a b w => some { d := d, a := a, b := b, w := w, f := fun _ x y _ => x + y }
  | .sub d a b w => some { d := d, a := a, b := b, w := w, f := fun _ x y _ => x - y }
  | .and d a b w => some { d := d, a := a, b := b, w := w, f := fun _ x y _ => Nat.land x y }
  | .or d a b w => some { d := d, a := a, b := b, w := w, f := fun _ x y _ => Nat.lor x y }
  | .xor d a b w => some { d := d, a := a, b := b, w := w, f := fun _ x y _ => Nat.xor x y }
  | .andn d a b w => some { d := d, a := a, b := b, w := w, f := fun n x y _ => Nat.land x (2 ^ n - 1 - y) }
  | .sll d a b w => some { d := d, a := a, b := b, w := w, f := fun n x y _ => x * 2 ^ (y % n) }
  | .srl d a b w => some { d := d, a := a, b := b, w := w, f := fun n x y _ => x / 2 ^ (y % n) }
  | .sra d a b w => some { d := d, a := a, b := b, w := w, f := fun n x y _ => signed n x / 2 ^ (y % n) }
  | .mul d a b w => some { d := d, a := a, b := b, w := w, f := fun _ x y _ => x * y }
  | .mulh d a b => some { d := d, a := a, b := b, w := false, f := fun n x y _ => signed n x * signed n y / 2 ^ n }
  | .mulhu d a b => some { d := d, a := a, b := b, w := false, f := fun n x y _ => x * y / 2 ^ n }
  | .div d a b w => some { d := d, a := a, b := b, w := w, divides := true, f := fun n x y _ => (signed n x).tdiv (signed n y) }
  | .divu d a b w => some { d := d, a := a, b := b, w := w, divides := true, f := fun _ x y _ => (x / y : Nat) }
  | .rem d a b w => some { d := d, a := a, b := b, w := w, divides := true,
                           f := fun n x y _ => signed n x - signed n y * (signed n x).tdiv (signed n y) }
  | .remu d a b w => some { d := d, a := a, b := b, w := w, divides := true, f := fun _ x y _ => (x % y : Nat) }
  | .min d a b w => some { d := d, a := a, b := b, w := w, f := fun n x y _ => Min.min (signed n x) (signed n y) }
  | .max d a b w => some { d := d, a := a, b := b, w := w, f := fun n x y _ => Max.max (signed n x) (signed n y) }
  | .minu d a b w => some { d := d, a := a, b := b, w := w, f := fun _ x y _ => Min.min x y }
  | .maxu d a b w => some { d := d, a := a, b := b, w := w, f := fun _ x y _ => Max.max x y }
  | .ceq d a b w => some { d := d, a := a, b := b, w := w, f := fun _ x y _ => truth (x == y) }
  | .cne d a b w => some { d := d, a := a, b := b, w := w, f := fun _ x y _ => truth (x != y) }
  | .clt d a b w => some { d := d, a := a, b := b, w := w, f := fun n x y _ => truth (decide (signed n x < signed n y)) }
  | .cltu d a b w => some { d := d, a := a, b := b, w := w, f := fun _ x y _ => truth (decide (x < y)) }
  | .cle d a b w => some { d := d, a := a, b := b, w := w, f := fun n x y _ => truth (decide (signed n x ≤ signed n y)) }
  | .cleu d a b w => some { d := d, a := a, b := b, w := w, f := fun _ x y _ => truth (decide (x ≤ y)) }
  | .clz d a w => some { d := d, a := a, b := 0, w := w, f := fun n x _ _ => countBits n (fun i => decide (x < 2 ^ i)) }
  | .ctz d a w => some { d := d, a := a, b := 0, w := w, f := fun n x _ _ => countBits n (fun i => x % 2 ^ (i + 1) == 0) }
  | .popc d a w => some { d := d, a := a, b := 0, w := w, f := fun n x _ _ => countBits n (fun i => x / 2 ^ i % 2 == 1) }
  | .padd d a b => some { d := d, a := a, b := b, w := false, f := fun _ x y _ => offsetSum x y }
  | .ptag d a => some { d := d, a := a, b := 0, w := false, f := fun _ x _ _ => x / 2 ^ 56 }
  | .psett d a b => some { d := d, a := a, b := b, w := false, f := fun _ x y _ => y % 2 ^ 8 * 2 ^ 56 + x % 2 ^ 48 }
  | .cmovnz d a b => some { d := d, a := a, b := b, w := false, f := fun _ x y o => if y = 0 then o else x }
  | .cmovz d a b => some { d := d, a := a, b := b, w := false, f := fun _ x y o => if y = 0 then x else o }
  | _ => none

/-- The value an ALU instruction delivers: on 64 bits, or on the low words and sign-extended with W (R115). -/
def AluRow.value (r : AluRow) (s : State) : Word :=
  let x := rs s r.a
  let y := rs s r.b
  if r.w then (BitVec.ofInt 32 (r.f 32 (x.toNat % 2 ^ 32) (y.toNat % 2 ^ 32) 0)).signExtend 64
  else BitVec.ofInt 64 (r.f 64 x.toNat y.toNat (rs s r.d).toNat)

/-- The instruction divides and its divisor is zero at its width (R115). -/
def AluRow.zeroDivisor (r : AluRow) (s : State) : Prop :=
  r.divides = true ∧ (if r.w then (rs s r.b).toNat % 2 ^ 32 = 0 else rs s r.b = 0)

/-- An ALUI instruction: destination, source, and its result from x and i as numbers (R118). -/
def aluiRow : Instr → Option (BitVec 5 × BitVec 5 × (Nat → Int))
  | .addi d a i => some (d, a, fun x => x + i.toInt)
  | .andi d a i => some (d, a, fun x => Nat.land x (i.toInt % 2 ^ 64).toNat)
  | .ori d a i => some (d, a, fun x => Nat.lor x (i.toInt % 2 ^ 64).toNat)
  | .xori d a i => some (d, a, fun x => Nat.xor x (i.toInt % 2 ^ 64).toNat)
  | .slli d a i => some (d, a, fun x => x * 2 ^ i.toNat)
  | .srli d a i => some (d, a, fun x => x / 2 ^ i.toNat)
  | .srai d a i => some (d, a, fun x => signed 64 x / 2 ^ i.toNat)
  | .ceqi d a i => some (d, a, fun x => truth (signed 64 x == i.toInt))
  | .clti d a i => some (d, a, fun x => truth (decide (signed 64 x < i.toInt)))
  | .cltui d a i => some (d, a, fun x => truth (decide ((x : Int) < i.toInt % 2 ^ 64)))
  | .muli d a i => some (d, a, fun x => x * i.toInt)
  | .paddi d a i => some (d, a, fun x => offsetSum x (i.toInt % 2 ^ 64).toNat)
  | _ => none

/-- A branch: the register it tests, its offset, and when it is taken (R120). -/
def branchRow : Instr → Option (BitVec 5 × BitVec 18 × (Int → Bool))
  | .bz a o => some (a, o, fun x => decide (x = 0))
  | .bnz a o => some (a, o, fun x => decide (x ≠ 0))
  | .blt a o => some (a, o, fun x => decide (x < 0))
  | .bge a o => some (a, o, fun x => decide (0 ≤ x))
  | .bgt a o => some (a, o, fun x => decide (0 < x))
  | .ble a o => some (a, o, fun x => decide (x ≤ 0))
  | _ => none

/-- An offset modulo 2^48. -/
def offset (x : Int) : Addr := BitVec.ofInt 48 x

end Sys2Proof.Claims

/-- The register file (R8, R95, R216). -/
def Obligations.RegisterFile : Prop :=
  (∀ (s : State) (v : Word), rs s 0 = 0 ∧ ws s 0 v = s ∧ rp s 0 = BitVec.allOnes 64 ∧ wp s 0 v = s) ∧
  (∀ (s : State) (i j : BitVec 5) (v : Word), rs (ws s i v) j = if j = i ∧ i ≠ 0 then v else rs s j) ∧
  (∀ (s : State) (i j : BitVec 3) (v : Word), rp (wp s i v) j = if j = i ∧ i ≠ 0 then v else rp s j) ∧
  (∀ (s : State) (i j : BitVec 4) (v : VReg), rv (wv s i v) j = if j = i then v else rv s j) ∧
  (∀ (s : State) (i : BitVec 5) (j : BitVec 4) (k : BitVec 3) (v : Word),
    rv (ws s i v) j = rv s j ∧ rp (ws s i v) k = rp s k ∧ rg (ws s i v) k = rg s k)

/-- The ALU group (R115, R116). -/
def Obligations.AluResults : Prop :=
  ∀ (i : Instr) (r : Claims.AluRow) (s : State), Claims.aluRow i = some r →
    (¬ r.zeroDivisor s → exec i s = .next (ends (ws s r.d (r.value s)))) ∧
    (r.zeroDivisor s → exec i s = .next (takeTrap { cause := 0x0C, val := rs s r.a } s))

/-- The ALUI group (R118). IMZ and IMK, bit by bit (R119). -/
def Obligations.ImmediateResults : Prop :=
  (∀ (i : Instr) (d a : BitVec 5) (f : Nat → Int) (s : State), Claims.aluiRow i = some (d, a, f) →
    exec i s = .next (ends (ws s d (BitVec.ofInt 64 (f (rs s a).toNat))))) ∧
  (∀ (d : BitVec 5) (q : BitVec 2) (i : BitVec 16) (s : State),
    (∃ v : Word, exec (.imz d q i) s = .next (ends (ws s d v)) ∧
      ∀ k < 64, v.getLsbD k = (decide (16 * q.toNat ≤ k) && decide (k < 16 * q.toNat + 16) && i.getLsbD (k - 16 * q.toNat))) ∧
    (∃ v : Word, exec (.imk d q i) s = .next (ends (ws s d v)) ∧
      ∀ k < 64, v.getLsbD k =
        if 16 * q.toNat ≤ k ∧ k < 16 * q.toNat + 16 then i.getLsbD (k - 16 * q.toNat) else (rs s d).getLsbD k))

/-- The branches (R120). JAL and JALR (R121, R122). -/
def Obligations.BranchAndJumpResults : Prop :=
  (∀ (i : Instr) (a : BitVec 5) (o : BitVec 18) (taken : Int → Bool) (s : State), Claims.branchRow i = some (a, o, taken) →

    exec i s = .next (endsAt
      (if taken (rs s a).toInt then Claims.offset (s.cx.pc.toNat + 4 + 4 * o.toInt) else Claims.offset (s.cx.pc.toNat + 4)) s)) ∧
  (∀ (d a : BitVec 5) (o : BitVec 21) (i : BitVec 16) (s : State),
    let next : Word := (Claims.offset (s.cx.pc.toNat + 4)).setWidth 64
    let t : Nat := ((((rs s a).toNat : Int) % 2 ^ 48 + i.toInt) % 2 ^ 48).toNat
    exec (.jal d o) s = .next (endsAt (Claims.offset (s.cx.pc.toNat + 4 + 4 * o.toInt)) (ws s d next)) ∧
    (t % 4 = 0 → exec (.jalr d a i) s = .next (endsAt (Claims.offset t) (ws s d next))) ∧
    (t % 4 ≠ 0 → exec (.jalr d a i) s = .next (takeTrap { cause := 0x06, val := BitVec.ofNat 64 t } s)))

namespace Sys2Proof.Claims

/-- The fields of an FM instruction (R123). -/
structure FmRow where
  d : BitVec 5
  a : BitVec 5
  g : BitVec 3
  w : BitVec 2
  o : BitVec 11

/-- The loads, and whether they extend the sign (R125, R126). -/
def loadRow : Instr → Option (FmRow × Bool)
  | .ld d a g w o => some (⟨d, a, g, w, o⟩, false)
  | .lds d a g w o => some (⟨d, a, g, w, o⟩, true)
  | .lda d a g w o => some (⟨d, a, g, w, o⟩, false)
  | _ => none

/-- The stores, and whether they release (R125, R126). -/
def storeRow : Instr → Option (FmRow × Bool)
  | .st d a g w o => some (⟨d, a, g, w, o⟩, false)
  | .stl d a g w o => some (⟨d, a, g, w, o⟩, true)
  | _ => none

/-- Bytes of the access (R123). -/
def FmRow.n (r : FmRow) : Nat := 2 ^ r.w.toNat

/-- The offset of the access: the pointer's offset plus n times the signed displacement, modulo 2^48 (R123). -/
def FmRow.off (r : FmRow) (s : State) : Addr := BitVec.ofInt 48 ((rs s r.a).toNat % 2 ^ 48 + r.n * r.o.toInt)

/-- The effective pointer: bits [63:48] of the pointer above the offset (R123). -/
def FmRow.ptr (r : FmRow) (s : State) : Word := (rs s r.a).extractLsb' 48 16 ++ r.off s

/-- Seg(g, off, n, right) gives the address `t` (R124). -/
def segGives (g : Seg) (off n right : Nat) (write : Bool) (t : Tgt) : Prop :=
  g.rights.getLsbD right = true ∧ ¬ (write = true ∧ g.kind = 2) ∧ off + n ≤ g.limit.toNat ∧
    t = if g.kind = 1 then .win ((g.base.toNat + off) % 2 ^ 48) else .glob ((g.base.toNat + off) % 2 ^ 48)

/-- The checks of R123 pass, and the address is `t`; a visitor makes the access where it stands only at the address's home
core or in a WINDOW segment (R175). -/
def FmRow.passes (r : FmRow) (write : Bool) (s : State) (t : Tgt) : Prop :=
  tagOk (rs s r.a) = true ∧ (r.off s).toNat % r.n = 0 ∧
    segGives (rg s r.g) (r.off s).toNat r.n (if write then rightW else rightR) write t ∧
    (atHome s ∨ (∃ wa, t = .win wa) ∨ ∃ va, t = .glob va ∧ homeOf va = s.cx.core)

/-- No drip or lane of the context has yet to reach its home, so that a release is done (R157, R173). -/
def released (s : State) : Prop := dripping s s.cx.key = false

/-- No drip of the context's own to bytes of the interval is under way, its pages are present, and its touches pass with the
state `s1` after them (R127, R156, R303). -/
def touched (s : State) (va n : Nat) (write : Bool) (s1 : State) : Prop :=
  dripsAt s s.cx.key va n = false ∧ absent s s.cx.tenant.toNat write (blocksOf va n) = none ∧
    touchAll s s.cx.tenant.toNat va n (.ctx s.cx.key) s.cx.gen s.cx.depth s.cx.key s.cx.core (homeCore s.cx.key) = .pass s1

/-- The context waits, to execute its instruction again from its start (R13, R203). -/
def waits (c : Cond) (s : State) : State := { s with cx := { s.cx with st := .waiting c, again := true, stalled := false, met := none } }

/-- No bit of memory differs but the A bits (and, with `write`, the D bits) of table entries, which stand in bits 2 and 3
of a byte (R145). -/
def sameBut (mask : Byte) (m m' : List Host.Cell) : Prop := ∀ x, rdB m' x &&& ~~~mask = rdB m x &&& ~~~mask

end Sys2Proof.Claims

/-- Loads (R123 to R127). -/
def Obligations.LoadResults : Prop :=
  ∀ (i : Instr) (r : Claims.FmRow) (sign : Bool) (s s' : State) (t : Tgt) (l : List Byte),
    Claims.loadRow i = some (r, sign) → r.passes false s t → reads s t r.n l s' →
    exec i s = .next (ends (ws s' r.d
      (if sign then BitVec.ofInt 64 (Claims.signed (8 * r.n) (natOfBytes l)) else BitVec.ofNat 64 (natOfBytes l))))

/-- Stores (R123 to R128). -/
def Obligations.StoreResults : Prop :=
  ∀ (i : Instr) (r : Claims.FmRow) (rel : Bool) (s s' : State) (t : Tgt),
    Claims.storeRow i = some (r, rel) → r.passes true s t →
    (rel = true → Claims.released s ∧ s.cx.deferred = []) →
    writes s t (bytesOfNat r.n (rs s r.d).toNat) 0 s' →
    exec i s = .next (ends s')

/-- The checks of an FM access in their order (R123, R124). -/
def Obligations.FmCheckTraps : Prop :=
  ∀ (i : Instr) (r : Claims.FmRow) (write x : Bool) (s : State),
    ((write = false ∧ Claims.loadRow i = some (r, x)) ∨ (write = true ∧ Claims.storeRow i = some (r, x))) →
    let g := rg s r.g
    let off := (r.off s).toNat
    let right := if write then rightW else rightR
    let noRight := g.rights.getLsbD right = false ∨ (write = true ∧ g.kind = 2)
    (tagOk (rs s r.a) = false → exec i s = .next (takeTrap { cause := 0x07, val := rs s r.a } s)) ∧
    (tagOk (rs s r.a) = true →
      (off % r.n ≠ 0 → exec i s = .next (takeTrap { cause := 0x06, val := r.ptr s } s)) ∧
      (off % r.n = 0 → noRight → exec i s = .next (takeTrap { cause := 0x05, val := r.ptr s } s)) ∧
      (off % r.n = 0 → ¬ noRight → g.limit.toNat < off + r.n →
        exec i s = .next (takeTrap { cause := 0x04, val := r.ptr s } s)))

/-- Absent pages (R146), touches (R303), errors on the path (R127, R128). -/
def Obligations.AccessFaults : Prop :=
  (∀ (i : Instr) (r : Claims.FmRow) (write x : Bool) (s : State) (va : Nat),
    ((write = false ∧ Claims.loadRow i = some (r, x)) ∨ (write = true ∧ Claims.storeRow i = some (r, false))) →
    r.passes write s (.glob va) → dripsAt s s.cx.key va r.n = false →
    (∀ a, absent s s.cx.tenant.toNat write (blocksOf va r.n) = some a →
      (homeIdx s.cx.key = 0 ∨ Claims.noHandler s →
        exec i s = .next (takeTrap { cause := 0x08, val := BitVec.ofNat 64 a, addr := some (BitVec.ofNat 64 a) } s)) ∧
      (homeIdx s.cx.key ≠ 0 → ¬ Claims.noHandler s → atHome s → (∀ v ∈ s.saves, v.key ≠ s.cx.key) →
        exec i s = .next (Claims.parked a 0 s))) ∧
    (∀ (n : Nat) (rg : Range) (l : List Byte) (s1 : State), absent s s.cx.tenant.toNat write (blocksOf va r.n) = none →
      s.cx.gen = none → rangeAt s s.cx.tenant.toNat va = some (n, rg) → (va + r.n - 1) / 4096 = va / 4096 →
      let b := (va - rg.base) / 2 ^ rg.blog
      gread s s.cx.tenant.toNat (rg.state + b / 4) 1 = .ok l s1 →
      let st := natOfBytes l / 4 ^ (b % 4) % 4
      (st = 3 → exec i s = .next (takeTrap
        { cause := 0x09, val := BitVec.ofNat 64 (rg.base + b * 2 ^ rg.blog), engine := 8, count := 1, reqs := [reqWord s.cx.key] } s)) ∧
      (st = 1 → ∃ fl, exec i s = .next (Claims.waits (.fill s.cx.tenant.toNat n b) { s1 with fills := fl }) ∧
        ∃ f ∈ fl, f.tenant = s.cx.tenant.toNat ∧ f.range = n ∧ f.block = b ∧ .ctx s.cx.key ∈ f.reqs) ∧
      (st = 0 → ∀ s2, startFill s1 s.cx.tenant.toNat n rg b 1 [.ctx s.cx.key] s.cx.key s.cx.core (homeCore s.cx.key) = .ok s2 →
        exec i s = .next (Claims.waits (.fill s.cx.tenant.toNat n b) s2) ∧
        ∃ f ∈ s2.fills, f.tenant = s.cx.tenant.toNat ∧ f.range = n ∧ f.block = b ∧ f.reqs = [.ctx s.cx.key]))) ∧
  (∀ (i : Instr) (r : Claims.FmRow) (sign : Bool) (s s1 : State) (va bad : Nat) (c : BitVec 8),
    Claims.loadRow i = some (r, sign) → r.passes false s (.glob va) → Claims.touched s va r.n false s1 →
    gread s1 s1.cx.tenant.toNat va r.n = .error c bad →
    exec i s = .next (takeTrap { cause := c, val := r.ptr s } s1)) ∧
  (∀ (d a : BitVec 5) (g : BitVec 3) (w : BitVec 2) (o : BitVec 11) (s s1 : State) (va bad : Nat) (c : BitVec 8),
    let r : Claims.FmRow := ⟨d, a, g, w, o⟩
    r.passes true s (.glob va) → Claims.touched s va r.n true s1 →
    gwrite s1 s1.cx.tenant.toNat va (bytesOfNat r.n (rs s d).toNat) 0 s1.cx.who = .error c bad →
    exec (.st d a g w o) s = .next (ends (chargeDeferred s1 s1.cx.key
      { cause := c, val := BitVec.ofNat 64 bad, engine := 2, addr := some (BitVec.ofNat 64 bad) }))) ∧
  (∀ (d a : BitVec 5) (g : BitVec 3) (w : BitVec 2) (o : BitVec 11) (s : State) (t : Tgt) (ch : Charge) (rest : List Charge),
    (⟨d, a, g, w, o⟩ : Claims.FmRow).passes true s t → Claims.released s → s.cx.deferred = ch :: rest → s.cx.inh = false →
    exec (.stl d a g w o) s = .next (takeTrap ch (updCx s (fun c => { c with deferred := rest }))))

/-- What a read leaves unchanged (R127, R140, R145). What a write changes in memory (R127, R142, R145, R382). Read after write (R125, R153). Logs 6, 9 and 15 are the model's choices. -/
def Obligations.AccessFrames : Prop :=
  ((∀ (s s' : State) (t : Tgt) (n : Nat) (l : List Byte), reads s t n l s' →
    s' = { s with mem := s'.mem, tlb := s'.tlb, resident := s'.resident, macs := s'.macs, treeRoot := s'.treeRoot } ∧
      Claims.sameBut 0x04 s.mem s'.mem ∧ (∀ wa, t = .win wa → s' = s)) ∧
  ((∀ (s s' : State) (va : Nat) (l : List Byte) (kind : Nat), 0 < l.length → va < 2 ^ 48 → va % 256 + l.length ≤ 256 →
    writes s (.glob va) l kind s' →
    (farDev s s.cx.tenant.toNat va = none → ∃ s1 s2 pa,
      Claims.touched s va l.length true s1 ∧
      gpath s1 s1.cx.tenant.toNat va true (l.length == 256) = .ok pa s2 ∧ Claims.sameBut 0x0C s.mem s2.mem ∧
      (∀ k, (h : k < l.length) → rdB s'.mem (pa + k) = l[k]) ∧
      (∀ x, x < pa ∨ pa + l.length ≤ x → rdB s'.mem x = rdB s2.mem x) ∧
      s' = { s with mem := s'.mem, tlb := s'.tlb, resident := s'.resident, macs := s'.macs, treeRoot := s'.treeRoot,
                    dirty := s'.dirty, traces := s'.traces, landed := s'.landed }) ∧
    (farDev s s.cx.tenant.toNat va ≠ none →
      s' = { s with mem := s'.mem, tlb := s'.tlb, resident := s'.resident, macs := s'.macs, treeRoot := s'.treeRoot } ∧
        Claims.sameBut 0x04 s.mem s'.mem)) ∧
  (∀ (s s' : State) (wa : Nat) (l : List Byte) (kind : Nat), winKind wa = 0 ∨ winKind wa = 1 → writes s (.win wa) l kind s' →
    s' = { s with mem := s'.mem } ∧
      (∀ k, (h : k < l.length) → rdB s'.mem (winKey wa + k) = l[k]) ∧
      (∀ x, x < winKey wa ∨ winKey wa + l.length ≤ x → rdB s'.mem x = rdB s.mem x)))) ∧
  ((∀ (s s' : State) (va : Nat) (l : List Byte) (kind : Nat), 0 < l.length → va < 2 ^ 48 → va % 256 + l.length ≤ 256 →
    farDev s s.cx.tenant.toNat va = none →
    writes s (.glob va) l kind s' → gread s' s'.cx.tenant.toNat va l.length = .ok l s') ∧
  (∀ (s s' : State) (wa : Nat) (l : List Byte) (kind : Nat), winKind wa = 0 ∨ winKind wa = 1 → writes s (.win wa) l kind s' →
    winRead s' wa l.length = l))

namespace Sys2Proof.Claims

/-- A delivery is due: TVEC names a handler and INH is clear (R204). -/
def deliverable (s : State) : Prop := s.cx.tvec &&& offMask ≠ 0 ∧ s.cx.inh = false

/-- The offset that TVEC, UPVEC or TRPC holds: bits [47:2] times 4 (R201). -/
def offField (w : Word) : Addr := BitVec.ofNat 48 (w.toNat / 4 % 2 ^ 46 * 4)

/-- TCAUSE with its fields (R201). -/
def causeWord (inh up dfr : Bool) (eng cause : BitVec 8) : Word :=
  BitVec.ofNat 64 (inh.toNat * 2 ^ 63 + up.toNat * 2 ^ 62 + dfr.toNat * 2 ^ 61 + eng.toNat * 2 ^ 8 + cause.toNat)

/-- The fault record that a delivery or an escalation of a cause writes (R207). -/
def recordOf (c : Ctx) (ch : Charge) : FaultRec :=
  { cause := ch.cause, engine := ch.engine, valid := true, dfr := ch.dfr, up := false, lost := c.frec.valid,
    extra := ch.extra, addr := ch.addr.getD ch.val, trpc := c.pc.setWidth 64,
    count := if ch.reqs = [] then 1 else ch.count,
    reqs := if ch.reqs = [] then [reqWord c.key] else ch.reqs.take 8 }

/-- The context as a delivery or an escalation leaves its trap registers (R204, R206). -/
def trapRegs (c : Ctx) (ch : Charge) : Ctx :=
  { c with
    tcause := causeWord true false ch.dfr ch.engine ch.cause
    tval := ch.val
    trpc := c.pc.setWidth 64
    frec := recordOf c ch
    st := .ready
    again := false
    fetched := false
    met := none }

/-- The state after an escalation of the context `c`, when no cut of its pour `p` is in progress (R206, R212): its registers
as delivery sets them, the pc as it was, no further issue; a copy of the record goes to the fault queue; every core of the
pour is a unit of a cut whose outcome is faulted. -/
def escalated (s : State) (c : Ctx) (ch : Charge) (p : Pour) : State :=
  let st : CtxState := match c.st with
    | .parked => .parked
    | .saved b => .saved b
    | _ => .ready
  let c' := { trapRegs c ch with stopped := true, st := st }
  let s1 := appendFault (putCtx s c') c'
  { updPour s1 c.pour (fun q => { q with st := .cutting }) with
    cuts := s1.cuts ++ [{ pour := c.pour, units := p.cores, frees := true, next := .faulted, marks := [] }] }

/-- The context as TRET and URET leave it: the cause word with some bits cleared, the pc at TRPC, one more instruction
retired; what a wait that was abandoned left is kept only if the return goes to its instruction (R203, R208). -/
def returned (c : Ctx) (tcause : Word) : Ctx :=
  { c with
    tcause := tcause
    pc := offField c.trpc
    again := false
    stalled := false
    fetched := false
    met := none
    barAt := c.barAt.filter (fun m => m.2 == offField c.trpc)
    mopAt := c.mopAt.filter (fun m => m.2 == offField c.trpc)
    instret := c.instret + 1 }

/-- The context as it travels: nowhere, loose, to execute its instruction again, its vector registers cut to VLIVE; on
leaving home the home copies are kept (R174, R175). -/
def travelling (c : Ctx) : Ctx :=
  { c with
    place := .transit
    held := false
    again := true
    stalled := false
    met := none
    homeV := if c.place = .home then c.v else c.homeV
    v := c.v.mapIdx (fun i x => if c.vlive.getLsbD i then x else 0) }

/-- The state in which the issuing context is on its way to a core, its visitor slot free, the dirty lines of the core it leaves
written back (R151, R174, R176). -/
def leaves (s : State) (dst : Nat) : State :=
  post (leaveSlot { s with cx := travelling s.cx, dirty := s.dirty.filter (fun d => d.core != s.cx.core) } s.cx) s.cx.key dst
    (.migrate s.cx.key)

/-- The context holds no stream binding, so that its vector registers are plain registers (R219, R244). -/
def unbound (s : State) : Prop := s.cx.binds = []

/-- Every CSR that a tenant context reads, with its value: per context (R132), per core (R108). -/
def csrReads : List (Nat × (State → Word)) :=
  [(0x000, fun s => s.cx.rmode), (0x001, fun s => s.cx.vlive), (0x002, fun s => s.cx.tvec), (0x003, fun s => s.cx.upvec),
   (0x004, fun s => s.cx.tcause), (0x005, fun s => s.cx.tval), (0x006, fun s => s.cx.trpc), (0x007, fun s => s.cx.dbg),
   (0x008, fun s => ctxId s.cx.key), (0x009, fun s => s.cx.pourCsr), (0x00A, fun s => s.cx.brewCsr),
   (0x00B, fun s => s.cx.tenant.setWidth 64),
   (0x00C, fun s => if s.phase = 2 then (getCore s s.cx.core).pstate.setWidth 64 else 3),
   (0x00D, fun s => let k := getCore s s.cx.core
     (match k.nextDuty with
      | some (d, w) => if (s.halves - k.skipped) / 2 / 16 = w then k.fduty else d
      | none => k.fduty).setWidth 64), (0x00E, fun s => s.cycle), (0x00F, fun s => timeOf s.cycle),
   (0x010, fun s => s.cx.mstat),
   (0x040, fun s => (getCore s s.cx.core).lsplit), (0x041, fun s => (getCore s s.cx.core).lgroup),
   (0x042, fun s => (getCore s s.cx.core).hresv), (0x043, fun s => (getCore s s.cx.core).txwake)]

/-- A CSR write: the registers a and number, and what it makes of the old value and S[a] (R131). -/
def csrWriteRow : Instr → Option (BitVec 5 × BitVec 5 × BitVec 5 × (Word → Word → Word))
  | .csrw a b c => some (a, b, c, fun _ x => x)
  | .csrset a b c => some (a, b, c, fun old x => old ||| x)
  | .csrclr a b c => some (a, b, c, fun old x => old &&& ~~~x)
  | _ => none

/-- The writable bits of a per-context CSR: RW fields of R52, R174, R201, R66; none of a RO register (R5, R132). -/
def csrWritable (n : Nat) : Word :=
  if n = 0x000 then 0x7F1F
  else if n = 0x001 then 0xFFFF
  else if n = 0x002 ∨ n = 0x003 ∨ n = 0x006 then 0x0000_FFFF_FFFF_FFFC
  else if n = 0x004 then 0xE000_0000_0000_FFFF
  else if n = 0x005 then 0xFFFF_FFFF_FFFF_FFFF
  else if n = 0x007 then 0xF3
  else if n = 0x010 then 0x3F
  else 0

/-- The writable bits of a per-core CSR (R148, R149, R150, R255): CODE, SHARE with the bits of EN that name a core of the
cluster, N, and all of TXWAKE but [48] and [1:0]. -/
def coreCsrWritable (core n : Nat) : Word :=
  if n = 0x040 ∨ n = 0x042 then 0xF
  else if n = 0x041 then
    BitVec.ofNat 64 (0xF0 + (if core % 64 % 4 = 0 then 0 else 1) + (if core % 64 % 4 = 3 then 0 else 2)
      + (if core / 64 % 4 = 0 then 0 else 4) + (if core / 64 % 4 = 3 then 0 else 8))
  else 0xFFFE_FFFF_FFFF_FFFC

/-- The values a per-core CSR takes: LSPLIT.CODE and LGROUP.SHARE up to 8, HRESV.N up to 10, TXWAKE.THR up to 256 and not 0
with EN set (R148, R149, R150, R255). -/
def coreCsrTakes (n : Nat) (v : Word) : Prop :=
  (n = 0x040 → v.toNat % 16 ≤ 8) ∧ (n = 0x041 → v.toNat / 2 ^ 4 % 16 ≤ 8) ∧ (n = 0x042 → v.toNat % 16 ≤ 10) ∧
    (n = 0x043 → v.toNat / 2 ^ 49 % 2 ^ 9 ≤ 256 ∧ (v.toNat / 2 ^ 59 % 2 = 1 → v.toNat / 2 ^ 49 % 2 ^ 9 ≠ 0))

end Sys2Proof.Claims

/-- Escalation (R206, R363), the entry and the append of the fault queue (R377, R381). Logs 35, 42 and 45 are the model's choices. -/
def Obligations.Escalation : Prop :=
  (∀ (ch : Charge) (s : State) (p : Pour), (s.cx.tvec &&& offMask = 0 ∨ s.cx.inh = true) → s.cx.gen = none →
    homeIdx s.cx.key ≠ 11 → findPour s s.cx.pour = some p → p.st = .placed → (∀ c ∈ s.cuts, c.pour ≠ s.cx.pour) →
    takeTrap ch s = Claims.escalated s s.cx ch p) ∧
  (∀ (ch : Charge) (s : State) (key : Nat), let c := getCtx s key
    savedIn s key = none → c.live = true → c.gen = none →
    (c.inh = false ∨ c.charged.length < 4 → charge s key ch = putCtx s { c with charged := c.charged ++ [ch] }) ∧
    (∀ (p : Pour), c.inh = true → 4 ≤ c.charged.length → findPour s c.pour = some p → p.st = .placed →
      (∀ x ∈ s.cuts, x.pour ≠ c.pour) → charge s key ch = Claims.escalated s c ch p)) ∧
  (∀ (s : State) (c : Ctx), (getTenant s c.tenant.toNat).faultQ = 0 → appendFault s c = s) ∧
  (∀ (s : State) (c : Ctx), (getTenant s c.tenant.toNat).faultQ ≠ 0 → (∀ x ∈ s.lateFaults, x.tenant ≠ c.tenant.toNat) →
    ∃ l, appendFault s c = appendEntry s { tenant := c.tenant.toNat, bytes := l, who := c.who } ∧ l.length = 128 ∧
      l.take 64 = c.frec.bytes ∧
      natOfBytes ((l.drop 64).take 4) = c.brewCsr.toNat % 2 ^ 32 ∧
      (∀ p, findPour s c.pour = some p → natOfBytes ((l.drop 68).take 4) = p.idx % 2 ^ 32) ∧
      natOfBytes ((l.drop 72).take 2) = (homeCore c.key % 64 + 2 ^ 6 * (homeCore c.key / 64)) % 2 ^ 16 ∧
      (∀ b ∈ l.drop 74, b = 0)) ∧
  (∀ (e : FaultEntry) (s s1 : State) (hdr : List Byte),
    let t := e.tenant
    let q := (getTenant s t).faultQ.toNat
    let field (o n : Nat) : Nat := natOfBytes ((hdr.drop o).take n)
    let count := field 8 4
    let m := count * (2 ^ 32 / count)
    let filled := (field 16 4 + m - field 12 4 % m) % m
    gread s t q 20 = .ok hdr s1 → 1 ≤ count → count ≤ 65536 →
    (filled = count → appendEntry s e = updTenant s t (fun x => { x with faultsDropped := x.faultsDropped + 1 })) ∧
    (filled ≠ count → ∀ s2 s3,
      gwrite s1 t (field 0 8 + 128 * (field 16 4 % count)) e.bytes 3 e.who = .ok s2 →
      gwrite s2 t (q + 16) (bytesOfNat 4 ((field 16 4 + 1) % m)) 3 e.who = .ok s3 → appendEntry s e = s3)) ∧
  (∀ (e : FaultEntry) (s : State), gread s e.tenant (getTenant s e.tenant).faultQ.toNat 20 = .wait →
    appendEntry s e = { s with lateFaults := s.lateFaults ++ [e] })

/-- Delivery of a trap (R204, R207). The layout of the fault record (R207); log 35 reads what R207 leaves open. -/
def Obligations.TrapEntry : Prop :=
  (∀ (ch : Charge) (s : State), Claims.deliverable s →
    (homeIdx s.cx.key ≠ 11 → takeTrap ch s = { s with cx := { Claims.trapRegs s.cx ch with pc := Claims.offField s.cx.tvec } }) ∧
    (homeIdx s.cx.key = 11 →
      takeTrap ch s = { failOpenChunk s ch.cause with cx := { Claims.trapRegs s.cx ch with pc := Claims.offField s.cx.tvec } })) ∧
  (∀ (f : FaultRec),
    let at_ (o n : Nat) : Nat := natOfBytes ((f.bytes.drop o).take n)
    f.bytes.length = 64 ∧ at_ 0 1 = f.cause.toNat ∧ at_ 1 1 = f.engine.toNat ∧
    at_ 2 2 = f.valid.toNat + 2 * f.dfr.toNat + 4 * f.up.toNat + 8 * f.lost.toNat ∧
    at_ 4 4 = f.extra.toNat ∧ at_ 8 8 = f.addr.toNat ∧ at_ 16 8 = f.trpc.toNat ∧ at_ 24 4 = f.count.toNat ∧ at_ 28 4 = 0 ∧
    (∀ k < 8, at_ (32 + 4 * k) 4 = match f.reqs[k]? with
      | some r => r.toNat
      | none => 0))

/-- The SYS trap instructions (R208). What a return keeps of an abandoned wait is the model's reading of R203 (log 16). -/
def Obligations.TrapInstructions : Prop :=
  ∀ (s : State),
    (∀ a, exec (.trap a) s = .next (takeTrap { cause := 0x0E, val := rs s a } s)) ∧
    (∀ i, exec (.brk i) s = .next (takeTrap { cause := 0x0D, val := BitVec.ofNat 64 (0x100 + i.toNat) } s)) ∧
    (s.cx.inh = false ∨ s.cx.up = true → exec .tret s = .next (takeTrap { cause := 0x02, val := s.cx.tcause } s)) ∧
    (s.cx.inh = true → s.cx.up = false →
      exec .tret s = .next { s with cx := Claims.returned s.cx (s.cx.tcause &&& 0x7FFF_FFFF_FFFF_FFFF) }) ∧
    (homeIdx s.cx.key ≠ 0 → exec .uret s = .next (takeTrap { cause := 0x03, val := 0x440001C0 } s)) ∧
    (homeIdx s.cx.key = 0 → s.cx.up = false → exec .uret s = .next (takeTrap { cause := 0x02, val := s.cx.tcause } s)) ∧
    (homeIdx s.cx.key = 0 → s.cx.up = true →
      exec .uret s = .next { s with cx := Claims.returned s.cx (s.cx.tcause &&& 0x3FFF_FFFF_FFFF_FFFF) }) ∧
    (∀ d, Claims.unbound s → exec (.frec d) s = .next (ends (wv
      { s with cx := { s.cx with frec := { s.cx.frec with valid := false } } } d
      (if s.cx.frec.valid then BitVec.ofNat 2048 (natOfBytes s.cx.frec.bytes) else 0))))

/-- CSR reads (R108, R131, R132), NOP and YIELD (R129). CSR writes (R131, R132). That the TVAL of a held visitor's access of a
per-core CSR is the word is the model's reading (log 70), and so is the form of a duty that is pending (log 81). -/
def Obligations.CsrAccess : Prop :=
  ((∀ (n : Nat) (f : State → Word) (d b c : BitVec 5) (s : State), (n, f) ∈ Claims.csrReads → n = b.toNat * 32 + c.toNat →
    (n ≤ 0x010 ∨ atHome s) → exec (.csrr d b c) s = .next (ends (ws s d (f s)))) ∧
  (∀ (d b c : BitVec 5) (s : State),
    let n := b.toNat * 32 + c.toNat
    (0x100 ≤ n → exec (.csrr d b c) s = .next (takeTrap { cause := 0x03, val := BitVec.ofNat 64 n } s)) ∧
    (0x010 < n ∧ n < 0x040 ∨ 0x043 < n ∧ n < 0x100 →
      exec (.csrr d b c) s = .next (takeTrap { cause := 0x02, val := BitVec.ofNat 64 n } s)) ∧
    (0x040 ≤ n → n ≤ 0x043 → s.cx.away = true →
      (s.cx.held = true → exec (.csrr d b c) s = .next (takeTrap { cause := 0x03, val := (encode (.csrr d b c)).setWidth 64 } s)) ∧
      (s.cx.held = false → Claims.released s → exec (.csrr d b c) s = .next (Claims.leaves s (homeCore s.cx.key))))) ∧
  (∀ (i : Instr) (a b c : BitVec 5) (f : Word → Word → Word) (s : State), Claims.csrWriteRow i = some (a, b, c, f) →
    let n := b.toNat * 32 + c.toNat
    (0x010 < n ∧ n < 0x040 ∨ 0x043 < n ∧ n < 0x100 →
      exec i s = .next (takeTrap { cause := 0x02, val := BitVec.ofNat 64 n } s)) ∧
    (0x040 ≤ n → n ≤ 0x043 → homeIdx s.cx.key = 0 → s.cx.away = true →
      (s.cx.held = true → exec i s = .next (takeTrap { cause := 0x03, val := (encode i).setWidth 64 } s)) ∧
      (s.cx.held = false → Claims.released s → exec i s = .next (Claims.leaves s (homeCore s.cx.key))))) ∧
  (∀ (s : State),
    exec .nop s = .next (ends s) ∧ exec .yield s = .next (ends (updCx s (fun c => { c with passed := true }))))) ∧
  (∀ (i : Instr) (a b c : BitVec 5) (f : Word → Word → Word) (s : State), Claims.csrWriteRow i = some (a, b, c, f) →
    let n := b.toNat * 32 + c.toNat
    let m := Claims.csrWritable n
    let v := (csrValue s n &&& ~~~m) ||| (f (csrValue s n) (rs s a) &&& m)
    n ≤ 0x010 →
    ((n = 0 ∧ 4 < v.toNat % 8) → exec i s = .next (takeTrap { cause := 0x02, val := BitVec.ofNat 64 n } s)) ∧
    (¬ (n = 0 ∧ 4 < v.toNat % 8) →
      ∃ t, exec i s = .next (ends t) ∧ csrValue t n = v ∧ (∀ k ≤ 0x010, k ≠ n → csrValue t k = csrValue s k) ∧
        t = { s with cx := t.cx } ∧ t.cx.s = s.cx.s ∧ t.cx.v = s.cx.v ∧ t.cx.p = s.cx.p ∧ t.cx.g = s.cx.g ∧
        t.cx.pc = s.cx.pc ∧ t.cx.instret = s.cx.instret ∧ t.cx.st = s.cx.st ∧ t.cx.place = s.cx.place))

/-- Writes of the per-core CSRs (R108, R131, R148 to R150, R255, R283). Log 71 reads what R283 leaves open. -/
def Obligations.CoreCsrWrites : Prop :=
  ∀ (i : Instr) (a b c : BitVec 5) (f : Word → Word → Word) (s : State), Claims.csrWriteRow i = some (a, b, c, f) →
    let n := b.toNat * 32 + c.toNat
    let k := s.cx.core
    let old := csrValue s n
    let m := Claims.coreCsrWritable k n
    let v := (old &&& ~~~m) ||| (f old (rs s a) &&& m)
    (0x100 ≤ n ∨ (0x040 ≤ n ∧ n ≤ 0x043 ∧ homeIdx s.cx.key ≠ 0) →
      exec i s = .next (takeTrap { cause := 0x03, val := BitVec.ofNat 64 n } s)) ∧
    (0x040 ≤ n → n ≤ 0x043 → homeIdx s.cx.key = 0 → atHome s → ¬ Claims.coreCsrTakes n v →
      exec i s = .next (takeTrap { cause := 0x02, val := BitVec.ofNat 64 n } s)) ∧
    (n = 0x040 → homeIdx s.cx.key = 0 → atHome s → Claims.coreCsrTakes n v →
      opsAbove s k (scratchSize { getCore s k with lsplit := v }) = true →
      exec i s = .next (updCx s (fun c => { c with st := .inFlight (.lsplitRings v.toNat), again := true, stalled := true, met := none }))) ∧
    (homeIdx s.cx.key = 0 → atHome s → Claims.coreCsrTakes n v →
      (n = 0x041 → exec i s = .next (ends (updCore s k (fun q => { q with lgroup := v })))) ∧
      (n = 0x042 → exec i s = .next (ends (updCore s k (fun q => { q with hresv := v })))) ∧
      (n = 0x043 → exec i s = .next (ends (updCore s k (fun q => { q with txwake := v })))) ∧
      (n = 0x040 → opsAbove s k (scratchSize { getCore s k with lsplit := v }) = false →
        ∃ mm, exec i s = .next (ends { updCore s k (fun q => { q with lsplit := v }) with mem := mm }) ∧
          ∀ x, rdB mm x =
            if winKey (winAddr k 0 (1408 * 1024 - 128 * 1024 * (v.toNat % 16))) ≤ x ∧ x < winKey (winAddr k 0 (1408 * 1024))
            then 0 else rdB s.mem x))

/-- SEGR, IDENT and RDCYC (R134, R137, R138). SEGW (R135). -/
def Obligations.SegmentAndIdentity : Prop :=
  ((∀ (d : BitVec 5) (g : BitVec 3) (s : State),
    exec (.segr d g 0) s = .next (ends (ws s d (BitVec.ofNat 64 (rg s g).base.toNat))) ∧
    exec (.segr d g 1) s = .next (ends (ws s d (BitVec.ofNat 64 (rg s g).limit.toNat))) ∧
    exec (.segr d g 2) s = .next (ends (ws s d (BitVec.ofNat 64 ((rg s g).rights.toNat + 2 ^ 4 * (rg s g).kind.toNat))))) ∧
  (∀ (d : BitVec 5) (s : State),
    let k := s.cx.core
    exec (.ident d 0) s = .next (ends (ws s d (BitVec.ofNat 64 (0x0C9E * 2 ^ 48 + 0x0109 * 2 ^ 32 + 1 * 2 ^ 8)))) ∧
    exec (.ident d 1) s = .next (ends (ws s d (BitVec.ofNat 64
      ((if equipped k then 1 else 0) * 2 ^ 28 + dieOf k * 2 ^ 24 + coreY k * 2 ^ 16 + coreX k * 2 ^ 8)))) ∧
    exec (.ident d 2) s = .next (ends (ws s d (BitVec.ofNat 64 (s.ndev.toNat * 2 ^ 8 + s.dev.toNat))))) ∧
  (∀ (d : BitVec 5) (s : State),
    exec (.rdcyc d 0) s = .next (ends (ws s d s.cycle)) ∧
    exec (.rdcyc d 1) s = .next (ends (ws s d (BitVec.ofNat 64 (s.cycle.toNat * 10 / 33)))) ∧
    exec (.rdcyc d 2) s = .next (ends (ws s d s.cx.instret))) ∧
  (∀ (d x : BitVec 5) (g : BitVec 3), 3 ≤ x.toNat →
    (Instr.segr d g x).wf = false ∧ (Instr.ident d x).wf = false ∧ (Instr.rdcyc d x).wf = false)) ∧
  (∀ (g : BitVec 3) (a b : BitVec 5) (s : State),
    let x := rs s a
    let y := rs s b
    let n : Seg := { base := x.extractLsb' 0 48, limit := y.extractLsb' 0 48, rights := y.extractLsb' 48 4, kind := y.extractLsb' 52 2 }
    let malformed := x.toNat / 2 ^ 48 ≠ 0 ∨ y.toNat / 2 ^ 54 ≠ 0 ∨ n.kind = 3
    let within (h : Seg) : Prop :=
      h.kind = 1 ∧ h.base.toNat ≤ n.base.toNat ∧ n.base.toNat + n.limit.toNat ≤ h.base.toNat + h.limit.toNat ∧
        ∀ k < 4, n.rights.getLsbD k = true → h.rights.getLsbD k = true
    let held := ∃ j : BitVec 3, within (rg s j)
    (malformed → exec (.segw g a b) s = .next (takeTrap { cause := 0x02, val := y } s)) ∧
    (¬ malformed → n.kind = 1 ∧ ¬ held → exec (.segw g a b) s = .next (takeTrap { cause := 0x05, val := x } s)) ∧
    (¬ malformed → ¬ (n.kind = 1 ∧ ¬ held) →
      ∃ v, exec (.segw g a b) s = .next (ends { s with cx := { s.cx with g := v } }) ∧
        ∀ j : BitVec 3, vget v j.toNat {} = if j = g then n else rg s j))

/-- STOP, CTXSV, CTXLD and MARK (R130, R209, R214). Logs 45, 69 and 78 are the model's choices. -/
def Obligations.ContextInstructions : Prop :=
  (∀ (s : State), matrixBusy s s.cx.key = false → travelling s s.cx.key = false → s.cx.deferred = [] →
    (homeIdx s.cx.key = 11 → plainSlot (getCore s (homeCore s.cx.key)) = false) →
    (homeIdx s.cx.key = 0 → atHome s →
      exec .stop s = .next (updCx (freeSetups s s.cx.pour s.cx.key) (fun c => { c with st := .waiting .stopShot, again := false }))) ∧
    (homeIdx s.cx.key ≠ 0 → s.cx.charged = [] → s.cx.gen = none →
      ∃ t, exec .stop s = .next t ∧ t.cx.key = s.cx.key ∧ t.cx.live = false ∧ t.cx.place = .home ∧ t.cx.s = s.cx.s ∧
        t.mem = s.mem)) ∧
  (∀ (d a : BitVec 5) (s : State), homeIdx s.cx.key = 0 → s.saves.length + 2 ≤ 2 ^ 32 →
    let key := keyOf (homeCore s.cx.key) (rs s a).toNat
    let c := getCtx s key
    1 ≤ (rs s a).toNat → (rs s a).toNat ≤ 10 → c.live = true → c.away = false → c.busy = false →
    ∃ t h n, exec (.ctxsv d a) s = .next (ends (ws t d h)) ∧
      0 < n ∧ n < 2 ^ 32 ∧ h.toNat % 2 ^ 32 = n ∧ (∀ v ∈ s.saves, v.handle.toNat % 2 ^ 32 ≠ n) ∧
      (∀ p, findPour s c.pour = some p →
        h = BitVec.ofNat 64 (n + c.tenant.toNat * 2 ^ 32 + p.ox * 2 ^ 36 + p.oy * 2 ^ 42)) ∧
      (getCtx t key).live = false ∧ (∀ v ∈ s.saves, v ∈ t.saves) ∧
      (∃ x ∈ t.saves, x.handle = h ∧ x.pour = c.pour ∧ x.resume = getKettle s (homeCore key) (240 + (rs s a).toNat) ∧
        let y := getCtx t x.key
        y.s = c.s ∧ y.p = c.p ∧ y.g = c.g ∧ y.pc = c.pc ∧ y.frec = c.frec ∧ y.rmode = c.rmode ∧ y.mstat = c.mstat ∧
          ∀ k : BitVec 4, y.rv k = if c.vlive.getLsbD k.toNat then c.rv k else 0)) ∧
  (∀ (d a : BitVec 5) (s : State) (sv : Save) (idx : Nat), homeIdx s.cx.key = 0 →
    s.saves.find? (fun v => v.handle == rs s a) = some sv → (rs s a).toNat / 2 ^ 32 % 16 = s.cx.tenant.toNat → sv.pour = s.cx.pour →
    helperNow s (homeCore s.cx.key) = some idx →
    let core := homeCore s.cx.key
    let c := getCtx s sv.key
    ∃ t, exec (.ctxld d a) s = .next (ends (ws t d (BitVec.ofNat 64 idx))) ∧
      getCtx t (keyOf core idx) = { c with key := keyOf core idx, st := if c.st = .saved true then .parked else .ready } ∧
      getKettle t core (240 + idx) = sv.resume ∧ (∀ v ∈ t.saves, v.handle ≠ rs s a) ∧ 1 ≤ idx ∧ idx ≤ 10) ∧
  (∀ (d a : BitVec 5) (s : State), homeIdx s.cx.key = 0 → (rs s a = 0 ∨ dwOk s (rs s a) = true) →
    exec (.mark d a) s = .next (updCx (startCut s s.cx.pour false .placed [(s.cx.key, d, rs s a)])
      (fun c => { c with st := .waiting (.cut d), again := false })))

namespace Sys2Proof.Claims

/-- An atomic as R170 tabulates it: whether the old value is sign-extended, and from the rounding mode, the width n in bytes,
the old word, y = S[b] and z = S[d] in 8n bits: the new word (none when nothing is written) and the flags it raises. -/
structure AtomRow where
  d : BitVec 5
  a : BitVec 5
  b : BitVec 5
  o : AOrd
  x : Bool
  sign : Bool
  f : Mode → Nat → Nat → Nat → Nat → Option Nat × Flags

/-- The integer rows: the new word modulo 2^(8n), no flag. -/
def plainAtom (f : Nat → Nat → Nat → Int) : Mode → Nat → Nat → Nat → Nat → Option Nat × Flags :=
  fun _ n old y _ => (some (f (8 * n) old y % 2 ^ (8 * n)).toNat, 0)

/-- The float rows, on FP32 or FP64 by the width, with the flags of the operation. -/
def floatAtom (f : Fmt → Mode → Nat → Nat → FR) : Mode → Nat → Nat → Nat → Nat → Option Nat × Flags :=
  fun md n old y _ =>
    let r := f (if n = 4 then .fp32 else .fp64) md old y
    (some r.bits, r.flags)

/-- The table of R170. -/
def atomRow : Instr → Option AtomRow
  | .aadd d a b o x => some ⟨d, a, b, o, x, true, plainAtom (fun _ old y => old + y)⟩
  | .aand d a b o x => some ⟨d, a, b, o, x, false, plainAtom (fun _ old y => Nat.land old y)⟩
  | .aor d a b o x => some ⟨d, a, b, o, x, false, plainAtom (fun _ old y => Nat.lor old y)⟩
  | .axor d a b o x => some ⟨d, a, b, o, x, false, plainAtom (fun _ old y => Nat.xor old y)⟩
  | .amin d a b o x => some ⟨d, a, b, o, x, true, plainAtom (fun n old y => Min.min (signed n old) (signed n y))⟩
  | .amax d a b o x => some ⟨d, a, b, o, x, true, plainAtom (fun n old y => Max.max (signed n old) (signed n y))⟩
  | .aminu d a b o x => some ⟨d, a, b, o, x, false, plainAtom (fun _ old y => Min.min old y)⟩
  | .amaxu d a b o x => some ⟨d, a, b, o, x, false, plainAtom (fun _ old y => Max.max old y)⟩
  | .aswap d a b o x => some ⟨d, a, b, o, x, false, plainAtom (fun _ _ y => y)⟩
  | .acas d a b o x => some ⟨d, a, b, o, x, false, fun _ _ old y z => (if old = z then some y else none, 0)⟩
  | .aaddf d a b o x => some ⟨d, a, b, o, x, false, floatAtom fAdd⟩
  | .aminf d a b o x => some ⟨d, a, b, o, x, false, floatAtom (fun f md => fMinMax f md false)⟩
  | .amaxf d a b o x => some ⟨d, a, b, o, x, false, floatAtom (fun f md => fMinMax f md true)⟩
  | _ => none

/-- Bytes of the word (R169). -/
def AtomRow.n (r : AtomRow) : Nat := if r.x then 8 else 4

/-- The checks of R169 pass and the word is at `va`. -/
def AtomRow.passes (r : AtomRow) (s : State) (va : Nat) : Prop :=
  tagOk (rs s r.a) = true ∧ (rs s r.a).toNat % 2 ^ 48 % r.n = 0 ∧ (rg s 0).kind = 0 ∧
    segGives (rg s 0) ((rs s r.a).toNat % 2 ^ 48) r.n rightA true (.glob va)

/-- An atomic that releases waits for the context's drips (R98, R157, R173). -/
def AtomRow.ordered (r : AtomRow) (s : State) : Prop := r.o = .rel ∨ r.o = .ar → released s

/-- The old word as S[d] receives it (R170). -/
def AtomRow.old (r : AtomRow) (old : Nat) : Word :=
  if r.sign then BitVec.ofInt 64 (signed (8 * r.n) old) else BitVec.ofNat 64 old

/-- The new word and the flags, from the old word. -/
def AtomRow.new (r : AtomRow) (s : State) (old : Nat) : Option Nat × Flags :=
  r.f (modeOf s.cx.rmode) r.n old ((rs s r.b).toNat % 2 ^ (8 * r.n)) ((rs s r.d).toNat % 2 ^ (8 * r.n))

/-- A drip: destination word, pointer and operand registers, whether it is a float drip, and its operation (R172). -/
def dripRow : Instr → Option (BitVec 5 × BitVec 5 × BitVec 5 × Bool × DripOp)
  | .dadd d a b => some (d, a, b, false, .add)
  | .dand d a b => some (d, a, b, false, .band)
  | .dor d a b => some (d, a, b, false, .bor)
  | .dmin d a b => some (d, a, b, false, .min)
  | .dmax d a b => some (d, a, b, false, .max)
  | .daddf d a b => some (d, a, b, true, .addF)
  | .dminf d a b => some (d, a, b, true, .minF)
  | .dmaxf d a b => some (d, a, b, true, .maxF)
  | _ => none

/-- Width of a drip by the format of its pointer, none where the minor refuses the format (R172). -/
def dripSize (float : Bool) (fmt : Nat) : Option Nat :=
  if float then (if fmt = 8 then some 4 else if fmt = 9 then some 8 else none)
  else if fmt = 4 then some 4 else if fmt = 5 then some 8 else none

/-- An instruction that a visitor does not execute where it stands: a held one traps 0x03 with its word, a loose one with
nothing to release goes home with it (R175). -/
def StaysHome (i : Instr) : Prop :=
  ∀ s : State, s.cx.away = true →
    (s.cx.held = true → exec i s = .next (takeTrap { cause := 0x03, val := (encode i).setWidth 64 } s)) ∧
    (s.cx.held = false → released s → exec i s = .next (leaves s (homeCore s.cx.key)))

end Sys2Proof.Claims

/-- Atomics at their home (R169, R170). Checks and the move of an atomic (R169, R171). Log 15 is the model's choice for addresses of another device. -/
def Obligations.AtomicInstructions : Prop :=
  (∀ (i : Instr) (r : Claims.AtomRow) (s s1 : State) (va : Nat) (l : List Byte), Claims.atomRow i = some r →
    r.passes s va → r.ordered s → (s.cx.core = homeOf va ∨ farDev s s.cx.tenant.toNat va ≠ none) →
    reads s (.glob va) r.n l s1 →
    ((r.new s (natOfBytes l)).1 = none → exec i s = .next (ends (ws s1 r.d (r.old (natOfBytes l))))) ∧
    (∀ v s2, (r.new s (natOfBytes l)).1 = some v → writes s1 (.glob va) (bytesOfNat r.n v) 1 s2 →
      exec i s = .next (ends (ws (flag (r.new s (natOfBytes l)).2 s2) r.d (r.old (natOfBytes l)))))) ∧
  (∀ (i : Instr) (r : Claims.AtomRow) (s : State), Claims.atomRow i = some r →
    let ptr := rs s r.a
    let off := ptr.toNat % 2 ^ 48
    let g := rg s 0
    (tagOk ptr = false → exec i s = .next (takeTrap { cause := 0x07, val := ptr } s)) ∧
    (tagOk ptr = true → off % r.n ≠ 0 → exec i s = .next (takeTrap { cause := 0x06, val := ptr } s)) ∧
    (tagOk ptr = true → off % r.n = 0 → (g.kind ≠ 0 ∨ g.rights.getLsbD rightA = false) →
      exec i s = .next (takeTrap { cause := 0x05, val := ptr } s)) ∧
    (tagOk ptr = true → off % r.n = 0 → g.kind = 0 → g.rights.getLsbD rightA = true → g.limit.toNat < off + r.n →
      exec i s = .next (takeTrap { cause := 0x04, val := ptr } s)) ∧
    (∀ va, r.passes s va → Claims.released s → s.cx.core ≠ homeOf va → farDev s s.cx.tenant.toNat va = none →
      (s.cx.binds = [] → exec i s = .next (Claims.leaves s (homeOf va))) ∧
      (∀ k b rest, s.cx.binds = (k, b) :: rest →
        exec i s = .next (takeTrap { cause := 0x11, val := BitVec.ofNat 64 b.ring } s))))

/-- Issue of a drip (R172). -/
def Obligations.DripIssue : Prop :=
  ∀ (i : Instr) (d a b : BitVec 5) (float : Bool) (op : DripOp) (s : State), Claims.dripRow i = some (d, a, b, float, op) →
    let ptr := rs s a
    let off := ptr.toNat % 2 ^ 48
    let g := rg s 0
    (tagOk ptr = false → exec i s = .next (takeTrap { cause := 0x07, val := ptr } s)) ∧
    (tagOk ptr = true → Claims.dripSize float (ptr.toNat / 2 ^ 59) = none →
      exec i s = .next (takeTrap { cause := 0x02, val := ptr } s)) ∧
    (∀ n, tagOk ptr = true → Claims.dripSize float (ptr.toNat / 2 ^ 59) = some n →
      (off % n ≠ 0 → exec i s = .next (takeTrap { cause := 0x06, val := ptr } s)) ∧
      (off % n = 0 → (g.kind ≠ 0 ∨ g.rights.getLsbD rightA = false) →
        exec i s = .next (takeTrap { cause := 0x05, val := ptr } s)) ∧
      (off % n = 0 → g.kind = 0 → g.rights.getLsbD rightA = true → g.limit.toNat < off + n →
        exec i s = .next (takeTrap { cause := 0x04, val := ptr } s)) ∧
      (∀ va, off % n = 0 → g.kind = 0 → Claims.segGives g off n rightA true (.glob va) →
        (rs s d ≠ 0 → dwOk s (rs s d) = false → exec i s = .next (takeTrap { cause := 0x02, val := rs s d } s)) ∧
        (rs s d = 0 ∨ dwOk s (rs s d) = true →
          exec i s = .next (ends (post s s.cx.key (homeOf va)
            (.drip op (BitVec.ofNat 48 va) n (rs s b) s.cx.rmode (rs s d) s.cx.tenant.toNat 2))))))

/-- The MIG group (R177). Log 15 is the model's choice for addresses of another device. -/
def Obligations.MigrationInstructions : Prop :=
  (∀ (a : BitVec 5) (s : State),
    let ptr := rs s a
    let off := ptr.toNat % 2 ^ 48
    let g := rg s 0
    (tagOk ptr = false → exec (.go a) s = .next (takeTrap { cause := 0x07, val := ptr } s)) ∧
    (tagOk ptr = true → g.rights.getLsbD rightR = false → exec (.go a) s = .next (takeTrap { cause := 0x05, val := ptr } s)) ∧
    (tagOk ptr = true → g.rights.getLsbD rightR = true → g.limit.toNat < off + 1 →
      exec (.go a) s = .next (takeTrap { cause := 0x04, val := ptr } s)) ∧
    (∀ va, tagOk ptr = true → Claims.segGives g off 1 rightR false (.glob va) →
      (homeOf va = s.cx.core ∨ farDev s s.cx.tenant.toNat va ≠ none → exec (.go a) s = .next (ends s)) ∧
      (homeOf va ≠ s.cx.core → farDev s s.cx.tenant.toNat va = none → s.cx.binds = [] → Claims.released s → exec (.go a) s = .next (Claims.leaves s (homeOf va))))) ∧
  (∀ (s : State),
    (s.cx.core = homeCore s.cx.key →
      exec .home s = .next (ends { s with cx := { s.cx with held := false } })) ∧
    (s.cx.core ≠ homeCore s.cx.key → s.cx.binds = [] → Claims.released s →
      exec .home s = .next (Claims.leaves s (homeCore s.cx.key))) ∧
    (exec .stay s = .next (ends { s with cx := { s.cx with held := s.cx.away } }))) ∧
  (∀ (d : BitVec 5) (s : State),
    exec (.where d) s = .next (ends (ws s d (BitVec.ofNat 64 (coreX s.cx.core * 2 ^ 8 + coreY s.cx.core * 2 ^ 16 +
      (if s.cx.away then 2 ^ 31 else 0) + (if s.cx.held then 2 ^ 30 else 0)))))) ∧
  (∀ (d a b : BitVec 5) (w : BitVec 2) (s s' : State) (t : Tgt) (l : List Byte),
    tagOk (rs s a) = true → (rs s a).toNat % 2 ^ 48 % 2 ^ w.toNat = 0 →
    (Claims.segGives (rg s 0) ((rs s a).toNat % 2 ^ 48) (2 ^ w.toNat) rightR false t → reads s t (2 ^ w.toNat) l s' →
      exec (.farld d a w) s = .next (ends (ws (cleanFar t (2 ^ w.toNat) s') d (BitVec.ofNat 64 (natOfBytes l))))) ∧
    (Claims.segGives (rg s 0) ((rs s a).toNat % 2 ^ 48) (2 ^ w.toNat) rightW true t →
      writes s t (bytesOfNat (2 ^ w.toNat) (rs s b).toNat) 4 s' → exec (.farst a b w) s = .next (ends (cleanFar t (2 ^ w.toNat) s'))))

/-- Instructions a visitor does not execute where it stands (R175). -/
def Obligations.VisitorAccess : Prop :=
  (∀ (i : Instr) (r : Claims.FmRow) (write x : Bool) (s : State) (va : Nat),
    ((write = false ∧ Claims.loadRow i = some (r, x)) ∨ (write = true ∧ Claims.storeRow i = some (r, x))) →
    tagOk (rs s r.a) = true → (r.off s).toNat % r.n = 0 →
    Claims.segGives (rg s r.g) (r.off s).toNat r.n (if write then rightW else rightR) write (.glob va) →
    s.cx.away = true → homeOf va ≠ s.cx.core →
    (s.cx.held = true → exec i s = .next (takeTrap { cause := 0x03, val := (encode i).setWidth 64 } s)) ∧
    (s.cx.held = false → Claims.released s → exec i s = .next (Claims.leaves s (homeCore s.cx.key)))) ∧
    (∀ d a b, Claims.StaysHome (.kset d a b)) ∧ (∀ a b, Claims.StaysHome (.kadd a b)) ∧
    (∀ d a, Claims.StaysHome (.kread d a)) ∧ (∀ a, Claims.StaysHome (.kwait a)) ∧ (∀ a, Claims.StaysHome (.koff a)) ∧
    (∀ v a, Claims.StaysHome (.recv v a)) ∧ (∀ a b, Claims.StaysHome (.allow a b)) ∧
    (∀ d a, Claims.StaysHome (.avail d a)) ∧ (∀ a b n, Claims.StaysHome (.barset a b n)) ∧
    (∀ n, Claims.StaysHome (.bar n)) ∧ (∀ n, Claims.StaysHome (.bara n)) ∧ (∀ n, Claims.StaysHome (.barw n)) ∧
    (∀ d a b, Claims.StaysHome (.waitw d a b)) ∧ (∀ d a q, Claims.StaysHome (.acquire d a q)) ∧
    (∀ a q, Claims.StaysHome (.publish a q)) ∧ (∀ q a b, Claims.StaysHome (.rdef q a b)) ∧
    (∀ v q b, Claims.StaysHome (.rbind v q b)) ∧ (∀ v, Claims.StaysHome (.runbind v)) ∧
    (∀ d q, Claims.StaysHome (.rhead d q)) ∧ (∀ d q, Claims.StaysHome (.rtail d q)) ∧
    (∀ q b, Claims.StaysHome (.radvh q b)) ∧ (∀ q b, Claims.StaysHome (.radvt q b)) ∧
    (∀ q b, Claims.StaysHome (.rwaitf q b)) ∧ (∀ q b, Claims.StaysHome (.rwaite q b)) ∧
    (∀ k q d p x, Claims.StaysHome (.copy k q d p x)) ∧ (∀ k q d p x, Claims.StaysHome (.copyg k q d p x)) ∧
    (∀ k q d p x, Claims.StaysHome (.copys k q d p x)) ∧ (∀ k q d p x, Claims.StaysHome (.copyw k q d p x)) ∧
    (∀ c a b q n e z g r k j t, Claims.StaysHome (.mma c a b q n e z g r k j t)) ∧
    (∀ c a b q n e z g r k j t, Claims.StaysHome (.mmaj c a b q n e z g r k j t)) ∧
    (∀ c a q n z g r k t, Claims.StaysHome (.mmas c a q n z g r k t)) ∧ (∀ c q g, Claims.StaysHome (.mlda c q g)) ∧
    (∀ c q g r, Claims.StaysHome (.msta c q g r)) ∧ (∀ c g, Claims.StaysHome (.mzero c g)) ∧
    Claims.StaysHome .mwait ∧ (∀ d, Claims.StaysHome (.mstat d)) ∧ (∀ d a n, Claims.StaysHome (.mchk d a n)) ∧
    (∀ d a b, Claims.StaysHome (.ssrch d a b)) ∧ (∀ d a b g, Claims.StaysHome (.sproj d a b g)) ∧
    (∀ d a g, Claims.StaysHome (.schk d a g)) ∧ (∀ d a n, Claims.StaysHome (.lfsr d a n)) ∧
    (∀ d a b g, Claims.StaysHome (.srec d a b g)) ∧ (∀ d a b g, Claims.StaysHome (.sexp d a b g)) ∧
    (∀ d a g, Claims.StaysHome (.prdef d a g)) ∧ (∀ d a g, Claims.StaysHome (.prstate d a g)) ∧
    (∀ a g, Claims.StaysHome (.prtouch a g)) ∧ (∀ d a b g, Claims.StaysHome (.previct d a b g)) ∧
    (∀ a, Claims.StaysHome (.prdel a)) ∧ (∀ a, Claims.StaysHome (.hjoin a)) ∧ (∀ d, Claims.StaysHome (.hstat d)) ∧
    (∀ d a, Claims.StaysHome (.launch d a)) ∧ (∀ d a, Claims.StaysHome (.lstat d a)) ∧
    (∀ a, Claims.StaysHome (.ldefDef a)) ∧ (∀ a, Claims.StaysHome (.ldefRet a)) ∧
    (∀ a b, Claims.StaysHome (.ldefPose a b)) ∧ (∀ a b, Claims.StaysHome (.lprice a b)) ∧
    (∀ d, Claims.StaysHome (.lframe d)) ∧ (∀ d a n, Claims.StaysHome (.lreq d a n)) ∧
    (∀ a b, Claims.StaysHome (.lsplit a b)) ∧ (∀ a b, Claims.StaysHome (.lmerge a b)) ∧
    (∀ d a b, Claims.StaysHome (.ldep d a b)) ∧ (∀ d a n, Claims.StaysHome (.lerr d a n)) ∧
    (∀ a b, Claims.StaysHome (.lorder a b)) ∧ (∀ d a b p, Claims.StaysHome (.lres d a b p)) ∧
    (∀ (i : Instr) (s : State),
      ((∃ d a g p, i = .vld d a g p ∨ i = .vst d a g p) ∨ (∃ d a g p b, i = .vlds d a g p b ∨ i = .vsts d a g p b) ∨
        (∃ d a g p b, i = .vgath d a g p b ∨ i = .vscat d a g p b)) →
      Claims.unbound s → s.cx.away = true →
      (s.cx.held = true → exec i s = .next (takeTrap { cause := 0x03, val := (encode i).setWidth 64 } s)) ∧
      (s.cx.held = false → Claims.released s → exec i s = .next (Claims.leaves s (homeCore s.cx.key))))

namespace Sys2Proof.Claims

/-- The tenant that owns kettle `k` of the context's home core is its own (R186). -/
def owns (s : State) (k : Nat) : Prop := kettleTenant s (homeCore s.cx.key) k = some s.cx.tenant.toNat

/-- A program may name the kettle in KSET, KADD and KOFF: it is no resume or announcement kettle (R186, R375). -/
def programKettle (s : State) (k : Nat) : Prop := k < 240 ∧ isAnnounce (homeCore s.cx.key) k = false

/-- Everything but the core table is as it was, and of the context's home core everything but its kettles, its helper
requests and its inbox. -/
def sameButKettles (s t : State) : Prop :=
  t = { s with cores := t.cores } ∧
    (∀ c, c ≠ homeCore s.cx.key → getCore t c = getCore s c) ∧
    getCore t (homeCore s.cx.key) =
      { getCore s (homeCore s.cx.key) with
        kettles := (getCore t (homeCore s.cx.key)).kettles
        hreqs := (getCore t (homeCore s.cx.key)).hreqs
        inbox := (getCore t (homeCore s.cx.key)).inbox }

/-- A decrement of `d` that meets a count (R187): the count it leaves, whether it saturates, whether the kettle fires. -/
def decrement (count : Int) (d : Nat) : Int × Bool × Bool :=
  (if count - d < -(2 ^ 31) then -(2 ^ 31) else count - d, decide (count - d < -(2 ^ 31)), decide (0 < count ∧ count - d ≤ 0))

end Sys2Proof.Claims

/-- A decrement (R187). That no second request is made while one is pending is the model's reading (log 70). -/
def Obligations.DecrementRule : Prop :=
  ∀ (s : State) (core k d : Nat), k < 240 →
    let old := getKettle s core k
    let r := Claims.decrement old.count d
    let starts := r.2.2 = true ∧ old.entry ≠ 0
    let t := decKettle s core k d
    (getKettle t core k).count = r.1 ∧ (getKettle t core k).ovf = (old.ovf || r.2.1) ∧
    (getKettle t core k).fired = (old.fired || r.2.2) ∧
    ((getKettle t core k).pending = true ↔ old.pending = true ∨ starts) ∧
    (getCore t core).hreqs = (getCore s core).hreqs ++ (if starts ∧ old.pending = false then [.kettle k] else []) ∧
    (∀ c j, c ≠ core ∨ j ≠ k → getKettle t c j = getKettle s c j) ∧
    t = { s with cores := t.cores } ∧ (∀ c, c ≠ core → getCore t c = getCore s c)

/-- KSET to KOFF (R188). The checks of KSET to KOFF (R186, R188); their order is the model's reading (log 22). -/
def Obligations.KettleInstructions : Prop :=
  ((∀ (d a b : BitVec 5) (s : State) (k n : Nat), atHome s → Claims.programKettle s k →
    (rs s d).toNat = n * 2 ^ 32 + k → 1 ≤ n → n < 2 ^ 31 → (rs s a).toNat % 4 = 0 →
    (Claims.owns s k ∨ kettleTenant s (homeCore s.cx.key) k = none) →
    ∃ t, exec (.kset d a b) s = .next (ends t) ∧ Claims.sameButKettles s t ∧
      getKettle t (homeCore s.cx.key) k =
        { count := n, tenant := s.cx.tenant.toNat, owned := true, entry := rs s a, arg := rs s b,
          brew := s.cx.brewCsr.setWidth 32 } ∧
      (∀ j, j ≠ k → getKettle t (homeCore s.cx.key) j = getKettle s (homeCore s.cx.key) j) ∧
      (getCore t (homeCore s.cx.key)).inbox = (getCore s (homeCore s.cx.key)).inbox ∧
      .kettle k ∉ (getCore t (homeCore s.cx.key)).hreqs) ∧
  (∀ (a b : BitVec 5) (s : State) (k : Nat), atHome s → Claims.programKettle s k → (rs s a).toNat = k →
    Claims.owns s k →
    let old := getKettle s (homeCore s.cx.key) k
    let x := ((rs s b).setWidth 32).toInt
    (-(2 ^ 31) ≤ old.count + x → old.count + x < 2 ^ 31 →
      ∃ t, exec (.kadd a b) s = .next (ends t) ∧ Claims.sameButKettles s t ∧
        (getKettle t (homeCore s.cx.key) k).count = old.count + x ∧
        (getKettle t (homeCore s.cx.key) k).fired =
          ((old.fired || decide (0 < old.count ∧ old.count + x ≤ 0)) && !decide (0 < old.count + x)) ∧
        (∀ j, j ≠ k → getKettle t (homeCore s.cx.key) j = getKettle s (homeCore s.cx.key) j)) ∧
    (¬ (-(2 ^ 31) ≤ old.count + x ∧ old.count + x < 2 ^ 31) →
      exec (.kadd a b) s = .next (takeTrap { cause := 0x10, val := BitVec.ofNat 64 k } s))) ∧
  (∀ (d a : BitVec 5) (s : State) (k : Nat), atHome s → (rs s a).toNat = k → k < 256 → Claims.owns s k →
    let old := getKettle s (homeCore s.cx.key) k
    (exec (.kread d a) s = .next (ends (ws s d (BitVec.ofInt 64 old.count)))) ∧
    ((old.count ≤ 0 ∨ s.cx.met ≠ none) → old.ovf = false → exec (.kwait a) s = .next (ends s)) ∧
    ((old.count ≤ 0 ∨ s.cx.met ≠ none) → old.ovf = true → exec (.kwait a) s = .next (takeTrap { cause := 0x10, val := BitVec.ofNat 64 k } s)) ∧
    (0 < old.count → s.cx.met = none →
      exec (.kwait a) s = .next
        { s with cx := { s.cx with st := .waiting (.kettle k), again := true, stalled := false, met := none } })) ∧
  (∀ (a : BitVec 5) (s : State) (k : Nat), atHome s → Claims.programKettle s k → (rs s a).toNat = k →
    Claims.owns s k →
    ∃ t, exec (.koff a) s = .next (ends t) ∧ Claims.sameButKettles s t ∧ getKettle t (homeCore s.cx.key) k = {} ∧
      payloads t (homeCore s.cx.key) k = 0 ∧ .kettle k ∉ (getCore t (homeCore s.cx.key)).hreqs ∧
      (∀ j, j ≠ k → getKettle t (homeCore s.cx.key) j = getKettle s (homeCore s.cx.key) j))) ∧
  ((∀ (i : Instr) (a : BitVec 5) (program : Bool) (s : State), atHome s →
    ((∃ b, i = .kadd a b ∧ program = true) ∨ (∃ d, i = .kread d a ∧ program = false) ∨
      (i = .koff a ∧ program = true) ∨ (i = .kwait a ∧ program = false)) →
    let v := rs s a
    let k := v.toNat
    (256 ≤ k ∨ (program = true ∧ ¬ Claims.programKettle s k) →
      exec i s = .next (takeTrap { cause := 0x02, val := v } s)) ∧
    (k < 256 → (program = true → Claims.programKettle s k) → (i = .kwait a → (getKettle s (homeCore s.cx.key) k).count ≤ 0 ∨ s.cx.met ≠ none) →
      (∀ t, kettleTenant s (homeCore s.cx.key) k = some t → t ≠ s.cx.tenant.toNat →
        exec i s = .next (takeTrap { cause := 0x05, val := v } s)) ∧
      (kettleTenant s (homeCore s.cx.key) k = none → exec i s = .next (takeTrap { cause := 0x02, val := v } s)))) ∧
  (∀ (d a b : BitVec 5) (s : State), atHome s →
    let v := rs s d
    let n := v.toNat / 2 ^ 32
    (v.toNat / 256 % 2 ^ 24 ≠ 0 ∨ n < 1 ∨ 2 ^ 31 ≤ n → exec (.kset d a b) s = .next (takeTrap { cause := 0x02, val := v } s)) ∧
    (v.toNat / 256 % 2 ^ 24 = 0 → 1 ≤ n → n < 2 ^ 31 → (rs s a).toNat % 4 ≠ 0 →
      exec (.kset d a b) s = .next (takeTrap { cause := 0x02, val := rs s a } s)) ∧
    (∀ t, v.toNat / 256 % 2 ^ 24 = 0 → 1 ≤ n → n < 2 ^ 31 → (rs s a).toNat % 4 = 0 → Claims.programKettle s (v.toNat % 256) →
      kettleTenant s (homeCore s.cx.key) (v.toNat % 256) = some t → t ≠ s.cx.tenant.toNat →
      exec (.kset d a b) s = .next (takeTrap { cause := 0x05, val := v } s))) ∧
  (∀ (i : Instr) (s : State), s.cx.away = true → s.cx.held = true →
    (∃ d a b, i = .kset d a b ∨ i = .kadd a b ∨ i = .kread d a ∨ i = .kwait a ∨ i = .koff a) →
    exec i s = .next (takeTrap { cause := 0x03, val := (encode i).setWidth 64 } s)))

/-- SEND, SENDV, RECV, ALLOW and AVAIL (R189, R192, R193). Logs 15, 18 and 75 are the model's choices. -/
def Obligations.MessageInstructions : Prop :=
  (∀ (i : Instr) (d : BitVec 5) (s : State) (payload : BitVec 384) (len : Nat),
    ((∃ a b, i = .send d a b ∧ len = 16 ∧ payload = BitVec.ofNat 384 ((rs s a).toNat + (rs s b).toNat * 2 ^ 64)) ∨
      (∃ v, i = .sendv d v ∧ len = 48 ∧ payload = (rv s v).setWidth 384 ∧ Claims.unbound s)) →
    let w := rs s d
    let key := allowKey (dwCore w) (dwDev w) s.cx.tenant.toNat
    (dwOk s w = false → exec i s = .next (takeTrap { cause := 0x02, val := w } s)) ∧
    (dwOk s w = true → Claims.released s →
      (tgetD (getCore s s.cx.core).allow key 0 = 0 →
        exec i s = .next
          { s with cx := { s.cx with st := .waiting (.allowance key), again := true, stalled := false, met := none } }) ∧
      (tgetD (getCore s s.cx.core).allow key 0 ≠ 0 → dwDev w ≠ 0 →
        ∃ tbl, tgetD tbl key 0 + 1 = tgetD (getCore s s.cx.core).allow key 0 ∧
          let u := updCore s s.cx.core (fun c => { c with allow := tbl })
          (Config.pathFails s.ticks (dwDev w) = false → exec i s = .next (ends u)) ∧
          (Config.pathFails s.ticks (dwDev w) = true → savedIn s s.cx.key = none → s.cx.live = true →
            exec i s = .next (ends (updCx u (fun c =>
              { c with deferred := c.deferred ++ [{ cause := 0x15, val := w, engine := 7, dfr := true, addr := some w }] }))))) ∧
      (tgetD (getCore s s.cx.core).allow key 0 ≠ 0 → dwDev w = 0 →
        ∃ tbl, exec i s = .next (ends (post (updCore s s.cx.core (fun c => { c with allow := tbl })) s.cx.key (dwCore w)
            (.msg w payload len (senderWord s.cx) s.cx.tenant.toNat))) ∧
          tgetD tbl key 0 + 1 = tgetD (getCore s s.cx.core).allow key 0 ∧
          ∀ j, j ≠ key → tget tbl j = tget (getCore s s.cx.core).allow j))) ∧
  (∀ (v : BitVec 4) (a : BitVec 5) (s : State) (k : Nat), atHome s → Claims.unbound s → (rs s a).toNat = k →
    k < 256 → Claims.owns s k →
    ((∀ m ∈ (getCore s (homeCore s.cx.key)).inbox, m.kettle ≠ k) → exec (.recv v a) s = .next (ends (wv s v 0))) ∧
    (∀ pre m post, (getCore s (homeCore s.cx.key)).inbox = pre ++ m :: post → (∀ x ∈ pre, x.kettle ≠ k) → m.kettle = k →
      m.len < 2 ^ 32 →
      exec (.recv v a) s = .next (ends (wv (updCore s (homeCore s.cx.key) (fun c => { c with inbox := pre ++ post })) v
        (BitVec.ofNat 2048 (m.payload.toNat + m.sender.toNat * 2 ^ 384 + m.len * 2 ^ 448 + 2 ^ 480)))))) ∧
  (∀ (a b : BitVec 5) (s : State), atHome s → coreRegOk s (rs s a) = true → dwDev (rs s a) = 0 →
    1 ≤ (rs s b).toNat → (rs s b).toNat ≤ 65535 →
    exec (.allow a b) s = .next (ends (post s s.cx.key (dwCore (rs s a))
      (.grant (homeCore s.cx.key) (rs s b).toNat s.cx.tenant.toNat)))) ∧
  (∀ (a b : BitVec 5) (s : State), atHome s → coreRegOk s (rs s a) = true → dwDev (rs s a) ≠ 0 →
    1 ≤ (rs s b).toNat → (rs s b).toNat ≤ 65535 → exec (.allow a b) s = .next (ends s)) ∧
  (∀ (d a : BitVec 5) (s : State), atHome s → coreRegOk s (rs s a) = true →
    exec (.avail d a) s = .next (ends (ws s d (BitVec.ofNat 64 (tgetD (getCore s (homeCore s.cx.key)).allow
      (allowKey (dwCore (rs s a)) (dwDev (rs s a)) s.cx.tenant.toNat) 0)))))

namespace Sys2Proof.Claims

/-- The context waits for an event that completes its instruction (R13). -/
def waitsForEvent (c : Cond) (s : State) : State := { s with cx := { s.cx with st := .waiting c, again := false } }

/-- The rectangle in S[a] lies in the pour and holds the core, the mask in S[b] names contexts below 11 (R195). -/
def rectangle (p : Pour) (core : Nat) (x m : Word) (b : Barrier) : Prop :=
  x.toNat = b.x0 + b.y0 * 2 ^ 6 + (b.w - 1) * 2 ^ 11 + (b.h - 1) * 2 ^ 17 ∧ b.x0 < 64 ∧ b.y0 < 32 ∧ 1 ≤ b.w ∧ b.w ≤ 64 ∧
    1 ≤ b.h ∧ b.h ≤ 32 ∧ m.toNat = b.mask.toNat ∧ b.mask.toNat < 2 ^ 11 ∧ b.mask ≠ 0 ∧
    p.ox ≤ b.x0 ∧ b.x0 + b.w ≤ p.ox + p.w ∧ p.oy ≤ b.y0 ∧ b.y0 + b.h ≤ p.oy + p.h ∧
    b.x0 ≤ coreX core ∧ coreX core < b.x0 + b.w ∧ b.y0 ≤ coreY core ∧ coreY core < b.y0 + b.h

/-- The context has an arrival at the barrier that is not released (R196). -/
def unreleased (b : Barrier) (i : Nat) : Prop := tget b.last i = some b.phase

/-- The context has not arrived already with the instruction at its pc (R146, R203). -/
def newArrival (s : State) (n : Nat) : Prop := ∀ m, s.cx.barAt = some m → m.1.1 ≠ n ∨ m.2 ≠ s.cx.pc

/-- The context's arrival at its barrier, before a release. -/
def arrived (s : State) (b : Barrier) : Barrier := { b with last := tput b.last (homeIdx s.cx.key) b.phase }

/-- The barrier is complete at its corner core: every context of the mask has arrived there, and so have the partials of the east
and the south, where the rectangle goes on (R196). -/
def cornerDone (b : Barrier) (core : Nat) : Bool :=
  core % 64 == b.x0 && core / 64 == b.y0 && (List.range 11).all (fun i => !bitN b.mask i || tget b.last i == some b.phase)
    && (core % 64 == b.x0 + b.w - 1 || b.east) && (core / 64 == b.y0 + b.h - 1 || b.south)

/-- The state after the context's arrival: what completes the corner is released in its clock, and the release has yet to go on to
the east and the south (R196). -/
def arrival (s : State) (n : Nat) (b : Barrier) : State :=
  let core := homeCore s.cx.key
  let b1 := arrived s b
  setBar s core n
    (if cornerDone b1 core then
      { b1 with phase := b.phase + 1, east := false, south := false, sent := false,
                relEast := decide (core % 64 + 1 < b.x0 + b.w), relSouth := decide (core / 64 + 1 < b.y0 + b.h) }
    else b1)

/-- A publish descriptor of R160: two bases, a size, the version and the current buffer. -/
def descriptor (l : List Byte) (base0 base1 state : Nat) : Prop :=
  ∃ size, 0 < size ∧ size % 256 = 0 ∧ size < 2 ^ 64 ∧ base0 < 2 ^ 64 ∧ base1 < 2 ^ 64 ∧ state < 2 ^ 64 ∧
    l = bytesOfNat 8 base0 ++ bytesOfNat 8 base1 ++ bytesOfNat 8 size ++ bytesOfNat 8 state ++ List.replicate 32 0

end Sys2Proof.Claims

/-- Barriers (R195, R196). Logs 16, 17, 22 and 70 are the model's choices. -/
def Obligations.BarrierInstructions : Prop :=
  ∀ (a b : BitVec 5) (n : BitVec 2) (s : State), atHome s →
    let core := homeCore s.cx.key
    let i := homeIdx s.cx.key
    let bar := getBar s core n.toNat
    (∀ p nb, findPour s s.cx.pour = some p → Claims.rectangle p core (rs s a) (rs s b) nb →
      nb = { x0 := nb.x0, y0 := nb.y0, w := nb.w, h := nb.h, mask := nb.mask } →
      (bar = none → exec (.barset a b n) s = .next (ends (setBar s core n.toNat nb))) ∧
      (∀ old, bar = some old → old.busy = false → exec (.barset a b n) s = .next (ends (setBar s core n.toNat
        { nb with phase := old.phase, relEast := old.relEast, relSouth := old.relSouth }))) ∧
      (∀ old, bar = some old → old.busy = true → exec (.barset a b n) s = .next (takeTrap { cause := 0x02, val := rs s a } s))) ∧
    (∀ p, findPour s s.cx.pour = some p → (∀ nb, ¬ Claims.rectangle p core (rs s a) (rs s b) nb) →
      exec (.barset a b n) s = .next (takeTrap { cause := 0x02, val := rs s a } s)) ∧
    (∀ v, s.cx.met = some v →
      exec (.bar n) s = .next (ends (updCx s (fun c => { c with barAt := none }))) ∧
      exec (.barw n) s = .next (ends (updCx s (fun c => { c with barAt := none })))) ∧
    (bar = none → Claims.newArrival s n.toNat → s.cx.met = none → Claims.released s →
      exec (.bar n) s = .next (takeTrap { cause := 0x02, val := BitVec.ofNat 64 n.toNat } s) ∧
      exec (.bara n) s = .next (takeTrap { cause := 0x02, val := BitVec.ofNat 64 n.toNat } s) ∧
      exec (.barw n) s = .next (takeTrap { cause := 0x02, val := BitVec.ofNat 64 n.toNat } s)) ∧
    (∀ q, bar = some q →
      (Claims.newArrival s n.toNat → s.cx.met = none → Claims.released s →
        (bitN q.mask i = false ∨ Claims.unreleased q i →
          exec (.bar n) s = .next (takeTrap { cause := 0x02, val := BitVec.ofNat 64 n.toNat } s) ∧
          exec (.bara n) s = .next (takeTrap { cause := 0x02, val := BitVec.ofNat 64 n.toNat } s)) ∧
        (bitN q.mask i = true → ¬ Claims.unreleased q i →
          (exec (.bara n) s = .next (ends (Claims.arrival s n.toNat q))) ∧
          (Claims.cornerDone (Claims.arrived s q) core = false → exec (.bar n) s = .next (Claims.waits (.barrier n.toNat q.phase)
            (updCx (Claims.arrival s n.toNat q) (fun c => { c with barAt := some ((n.toNat, q.phase), c.pc) })))) ∧
          (Claims.cornerDone (Claims.arrived s q) core = true →
            exec (.bar n) s = .next (ends (updCx (Claims.arrival s n.toNat q) (fun c => { c with barAt := none })))))) ∧
      (tget q.last i = none → s.cx.met = none → Claims.released s → exec (.barw n) s = .next (takeTrap { cause := 0x02, val := BitVec.ofNat 64 n.toNat } s)) ∧
      (∀ ph, tget q.last i = some ph → s.cx.met = none → Claims.released s →
        (ph = q.phase → exec (.barw n) s = .next (Claims.waits (.barrier n.toNat ph) s)) ∧
        (ph ≠ q.phase →
          exec (.barw n) s = .next (ends (updCx s (fun c => { c with barAt := none }))))) ∧
      (∀ ph, s.cx.barAt = some ((n.toNat, ph), s.cx.pc) → s.cx.met = none →
        (ph = q.phase → exec (.bar n) s = .next (Claims.waits (.barrier n.toNat ph) s)) ∧
        (ph ≠ q.phase →
          exec (.bar n) s = .next (ends (updCx s (fun c => { c with barAt := none }))))))

/-- FENCE, WAITW, PUBLISH and ACQUIRE (R194, R197, R198). Memory is one coherent store: log 6 is the model's choice. ACQUIRE through
a WINDOW g0, and bits of a base above [47:0], follow log 70's readings of R160. -/
def Obligations.OrderingInstructions : Prop :=
  (∀ (sc : Scope) (s : State),
    (exec (.fence sc .acq) s = .next (ends s)) ∧
    (∀ k, k = .rel ∨ k = .full → Claims.released s →
      (s.cx.deferred = [] → exec (.fence sc k) s =
        .next (ends (if k = .full then updCx s (fun c => { c with icode := none }) else s))) ∧
      (∀ ch rest, s.cx.deferred = ch :: rest → s.cx.inh = false →
        exec (.fence sc k) s = .next (takeTrap ch (updCx s (fun c => { c with deferred := rest }))))) ∧
    (engineBusy s s.cx.key = true → exec (.fence sc .eng) s = .next (Claims.waits .engines s)) ∧
    (engineBusy s s.cx.key = false → exec (.fence sc .eng) s = .next (ends s))) ∧
  (∀ (d a b : BitVec 5) (s s' : State) (va : Nat) (l : List Byte), atHome s → tagOk (rs s a) = true →
    (rs s a).toNat % 2 ^ 48 % 8 = 0 → Claims.segGives (rg s 0) ((rs s a).toNat % 2 ^ 48) 8 rightR false (.glob va) →
    reads s (.glob va) 8 l s' → s.cx.met = none →
    (natOfBytes l ≠ (rs s b).toNat →
      exec (.waitw d a b) s = .next (ends (ws s' d (BitVec.ofNat 64 (natOfBytes l))))) ∧
    (natOfBytes l = (rs s b).toNat →
      exec (.waitw d a b) s = .next (Claims.waits (.word false (BitVec.ofNat 48 va) (rs s b)) s'))) ∧
  (∀ (d a b : BitVec 5) (s : State) (v : Word), atHome s → s.cx.met = some v →
    exec (.waitw d a b) s = .next (ends (ws s d v))) ∧
  (∀ (d a : BitVec 5) (sc : Scope) (s s' : State) (t : Tgt) (l : List Byte) (base0 base1 state : Nat), atHome s →
    tagOk (rs s a) = true → (rs s a).toNat % 2 ^ 48 % 64 = 0 →
    Claims.segGives (rg s 0) ((rs s a).toNat % 2 ^ 48) 64 rightR false t → reads s t 64 l s' →
    Claims.descriptor l base0 base1 state →
    exec (.acquire d a sc) s = .next (ends (ws s' d (BitVec.ofNat 64 (if state % 2 = 0 then base0 else base1))))) ∧
  (∀ (a : BitVec 5) (sc : Scope) (s s' s2 : State) (va : Nat) (l : List Byte) (base0 base1 state : Nat), atHome s →
    tagOk (rs s a) = true → (rs s a).toNat % 2 ^ 48 % 64 = 0 →
    Claims.segGives (rg s 0) ((rs s a).toNat % 2 ^ 48) 64 rightA true (.glob va) → reads s (.glob va) 64 l s' →
    Claims.descriptor l base0 base1 state → engineBusy s' s.cx.key = false → Claims.released s' →
    gwrite s' s.cx.tenant.toNat (va + 24) (bytesOfNat 8 ((state / 2 + 1) % 2 ^ 63 * 2 + (1 - state % 2))) 1 s.cx.who = .ok s2 →
    (∀ x ∈ s2.layers, ¬ (x.tenant = s.cx.tenant.toNat ∧ x.planes.toNat = va)) →
    exec (.publish a sc) s = .next (ends s2))

/-- The WORK group (R180 to R183). The order of checks and TVAL of HJOIN and LSTAT are the model's reading (log 22). -/
def Obligations.HelperInstructions : Prop :=
  (∀ (d a b : BitVec 5) (s : State),
    let core := homeCore s.cx.key
    (homeIdx s.cx.key ≠ 0 →
      exec (.hstart d a b) s = .next (takeTrap { cause := 0x03, val := (encode (.hstart d a b)).setWidth 64 } s)) ∧
    (homeIdx s.cx.key = 0 → atHome s → (rs s a).toNat % 2 ^ 48 % 4 ≠ 0 →
      exec (.hstart d a b) s = .next (takeTrap { cause := 0x06, val := rs s a } s)) ∧
    (homeIdx s.cx.key = 0 → atHome s → (rs s a).toNat % 2 ^ 48 % 4 = 0 → Claims.released s →
      (helperNow s core = none → exec (.hstart d a b) s = .next (Claims.waitsForEvent (.helper d)
        (pushReq s core (.hstart s.cx.key d ((rs s a).setWidth 48) (rs s b))))) ∧
      (∀ i, helperNow s core = some i → ∃ h : Ctx,
        exec (.hstart d a b) s = .next (ends (ws { s with ctxs := tput s.ctxs (keyOf core i) h } d (BitVec.ofNat 64 i))) ∧
        1 ≤ i ∧ i ≤ 10 ∧ (getCtx s (keyOf core i)).live = false ∧
        h.key = keyOf core i ∧ h.pour = s.cx.pour ∧ h.st = .ready ∧ h.place = .home ∧ h.pc = (rs s a).setWidth 48 ∧ h.g = s.cx.g ∧
        h.tvec = s.cx.tvec ∧ h.rmode = 0x8 ∧ h.vlive = 0xFFFF ∧ h.tenant = s.cx.tenant ∧ h.instret = 0 ∧
        (∀ r : BitVec 5, h.rs r =
          if r = 2 then rs s b else if r = 3 then BitVec.ofNat 64 i
          else if r = 31 then BitVec.ofNat 64 (((rg s 2).limit.toNat - 16384 * i) / 16 * 16) else 0) ∧
        (∀ r : BitVec 4, h.rv r = 0) ∧ (∀ r : BitVec 3, r ≠ 0 → h.rp r = 0)))) ∧
  (∀ (a : BitVec 5) (s : State), atHome s →
    let live := ((List.range 16).any (fun i => decide (1 ≤ i) && decide (i ≤ 10) && (rs s a).getLsbD i
      && (getCtx s (keyOf (homeCore s.cx.key) i)).live))
    ((∃ i < 64, (i = 0 ∨ 10 < i) ∧ (rs s a).getLsbD i = true) →
      exec (.hjoin a) s = .next (takeTrap { cause := 0x02, val := rs s a } s)) ∧
    ((∀ i < 64, (i = 0 ∨ 10 < i) → (rs s a).getLsbD i = false) →
      (live = false ∨ s.cx.met ≠ none → exec (.hjoin a) s = .next (ends s)) ∧
      (live = true → s.cx.met = none → exec (.hjoin a) s = .next (Claims.waits (.helpersFree (rs s a)) s)))) ∧
  (∀ (d : BitVec 5) (s : State), atHome s →
    ∃ v : Word, exec (.hstat d) s = .next (ends (ws s d v)) ∧
      (∀ i < 64, v.getLsbD i =
        if 1 ≤ i ∧ i ≤ 10 then (getCtx s (keyOf (homeCore s.cx.key) i)).live
        else decide (16 ≤ i ∧ i < 20) && Nat.testBit (Min.min 15 (getCore s (homeCore s.cx.key)).hreqs.length) (i - 16))) ∧
  (∀ (d a : BitVec 5) (s : State), atHome s →
    (2 ^ 32 ≤ (rs s a).toNat → exec (.lstat d a) s = .next (takeTrap { cause := 0x02, val := rs s a } s)) ∧
    ((rs s a).toNat < 2 ^ 32 →
      (findBrew s s.cx.tenant.toNat (rs s a).toNat = none → exec (.lstat d a) s = .next (ends (ws s d 0))) ∧
      (∀ b, findBrew s s.cx.tenant.toNat (rs s a).toNat = some b →
        let unplaced := (∃ k, b.nextIdx ≤ k ∧ k < b.count ∧ k ∉ b.taken) ∨
          ∃ p ∈ s.pours, p.tenant = b.tenant ∧ p.brew = b.num ∧ p.image = none ∧ (p.st = .saved ∨ p.st = .stopped)
        (b.count ≤ b.retired → exec (.lstat d a) s = .next (ends (ws s d 0))) ∧
        (b.retired < b.count → unplaced →
          exec (.lstat d a) s = .next (ends (ws s d (BitVec.ofNat 64 (b.count - b.retired + 1 * 2 ^ 32))))) ∧
        (b.retired < b.count → ¬ unplaced →
          exec (.lstat d a) s = .next (ends (ws s d (BitVec.ofNat 64 (b.count - b.retired + 2 * 2 ^ 32)))))))) ∧
  (∀ (d a : BitVec 5) (s s' : State) (t : Tgt) (l : List Byte), atHome s → tagOk (rs s a) = true →
    (rs s a).toNat % 2 ^ 48 % 64 = 0 → Claims.segGives (rg s 0) ((rs s a).toNat % 2 ^ 48) 64 rightR false t →
    reads s t 64 l s' → Claims.released s' →
    exec (.launch d a) s = .next (Claims.waitsForEvent (.launch d) (updTenant s' s.cx.tenant.toNat (fun q =>
      { q with direct := q.direct ++ [{ key := s.cx.key, d := d, record := BitVec.ofNat 512 (natOfBytes l) }] }))))

namespace Sys2Proof.Claims

/-- The element kind of a type other than code 1 (R216). -/
def plainKind : VType → EK
  | .i32 | .c1 => .sint 32
  | .i16 => .sint 16
  | .i8 => .sint 8
  | .f32 => .flt .fp32
  | .bf16 => .flt .bf16
  | .f16 => .flt .fp16
  | .e4m3 => .flt .e4m3
  | .e5m2 => .flt .e5m2

/-- The kind on a minor that accepts the types of `l` and reads code 1 as `c`; none is a type that traps 0x02 (R218, R223). -/
def kinds (l : List VType) (c : Option EK) (t : VType) : Option EK :=
  if t = .c1 then c else if t ∈ l then some (plainKind t) else none

/-- I, F and f8 of R223, and the two meanings of code 1. -/
def tI : List VType := [.i32, .i16, .i8]
def tF : List VType := [.f32, .bf16, .f16]
def t8 : List VType := [.e4m3, .e5m2]
def u32 : Option EK := some (.uint 32)
def f64 : Option EK := some (.flt .fp64)

/-- An operation on integers, wrapped to the element's width, or on floats, rounded once (R220). -/
def arith (f : Int → Int → Int → Int) (g : Fmt → Mode → Nat → Nat → Nat → FR) (e : EK) (md : Mode) (x y z : Nat) : FR :=
  match e with
  | .flt m => g m md x y z
  | k => { bits := (f (k.int x) (k.int y) (k.int z) % 2 ^ k.width).toNat }

/-- An operation on bit patterns, no flag. -/
def raw (f : Nat → Nat → Nat → Int) (e : EK) (_ : Mode) (x y z : Nat) : FR :=
  { bits := (f x y z % 2 ^ e.width).toNat }

/-- A float operation alone. -/
def floats (g : Fmt → Mode → Nat → FR) : Fmt → Mode → Nat → Nat → Nat → FR := fun f md x _ _ => g f md x

/-- How an instruction makes the elements of vD: the predicate that governs it, the width of an element and the value of
element j in the state; no width where the type is refused (R217, R222). -/
structure ElemRow where
  d : BitVec 4
  p : BitVec 3
  made : Option (Nat × (State → Nat → FR))

/-- A row of R222 or R229: x from vA, y from vB or the scalar, z the old element of vD. -/
def row (e : Option EK) (d a : BitVec 4) (p : BitVec 3) (r : RSrc) (y : State → EK → Nat → Nat)
    (f : EK → Mode → Nat → Nat → Nat → FR) : ElemRow :=
  { d := d, p := p
    made := e.map (fun k => (k.width, fun s j =>
      f k (modeSrc s.cx.rmode r) (elem (rv s a) k.width j) (y s k j) (elem (rv s d) k.width j))) }

/-- The second operand: a register's element, or the low bits of a scalar (R222, R229). -/
def ofReg (b : BitVec 4) : State → EK → Nat → Nat := fun s k j => elem (rv s b) k.width j
def ofScalar (c : BitVec 5) : State → EK → Nat → Nat := fun s k _ => (rs s c).toNat % 2 ^ k.width
def noSecond : State → EK → Nat → Nat := fun _ _ _ => 0

/-- A row that moves bits (R220). -/
def moves (e : Option EK) (d : BitVec 4) (p : BitVec 3) (f : State → Nat → Nat → Nat) : ElemRow :=
  { d := d, p := p, made := e.map (fun k => (k.width, fun s j => { bits := f s k.width j })) }

/-- The active elements below `j` (R230). -/
def activeBelow (p : Word) (w j : Nat) : Nat := ((List.range j).filter (active p w)).length

/-- The tables of R223 (but for VSEL, VCVT and the compares), R228, R229 and the merging rows of R230. -/
def elemRow : Instr → Option ElemRow
  | .vadd d a b p t r => some (row (kinds (tI ++ tF) f64 t) d a p r (ofReg b) (arith (fun x y _ => x + y) (fun f m x y _ => fAdd f m x y)))
  | .vsub d a b p t r => some (row (kinds (tI ++ tF) f64 t) d a p r (ofReg b) (arith (fun x y _ => x - y) (fun f m x y _ => fSub f m x y)))
  | .vmul d a b p t r => some (row (kinds (tI ++ tF) f64 t) d a p r (ofReg b) (arith (fun x y _ => x * y) (fun f m x y _ => fMul f m x y)))
  | .vfma d a b p t r => some (row (kinds (tI ++ tF) f64 t) d a p r (ofReg b) (arith (fun x y z => x * y + z) (fun f m => fFma f m false)))
  | .vfms d a b p t r => some (row (kinds (tI ++ tF) f64 t) d a p r (ofReg b) (arith (fun x y z => z - x * y) (fun f m => fFma f m true)))
  | .vmin d a b p t => some (row (kinds (tI ++ tF) u32 t) d a p .rmode (ofReg b) (arith (fun x y _ => Min.min x y) (fun f m x y _ => fMinMax f m false x y)))
  | .vmax d a b p t => some (row (kinds (tI ++ tF) u32 t) d a p .rmode (ofReg b) (arith (fun x y _ => Max.max x y) (fun f m x y _ => fMinMax f m true x y)))
  | .vabs d a p t => some (row (kinds (tI ++ tF) f64 t) d a p .rmode noSecond (arith (fun x _ _ => x.natAbs) (fun f _ x _ _ => fAbs f x)))
  | .vneg d a p t => some (row (kinds (tI ++ tF) f64 t) d a p .rmode noSecond (arith (fun x _ _ => -x) (fun f _ x _ _ => fNeg f x)))
  | .vshl d a b p t => some (row (kinds tI u32 t) d a p .rmode (ofReg b) (fun e => raw (fun x y _ => x * 2 ^ (y % e.width)) e))
  | .vshr d a b p t => some (row (kinds tI u32 t) d a p .rmode (ofReg b) (fun e => raw (fun x y _ => x / 2 ^ (y % e.width)) e))
  | .vsar d a b p t => some (row (kinds tI u32 t) d a p .rmode (ofReg b) (fun e => raw (fun x y _ => signed e.width x / 2 ^ (y % e.width)) e))
  | .vdiv d a b p t r => some (row (kinds tF f64 t) d a p r (ofReg b) (arith (fun x _ _ => x) (fun f m x y _ => fDiv f m x y)))
  | .vsqrt d a p t r => some (row (kinds tF f64 t) d a p r noSecond (arith (fun x _ _ => x) (floats fSqrt)))
  | .vrcp d a p t r => some (row (kinds tF f64 t) d a p r noSecond (arith (fun x _ _ => x) (floats fRcp)))
  | .vrsq d a p t r => some (row (kinds tF f64 t) d a p r noSecond (arith (fun x _ _ => x) (floats fRsq)))
  | .vexp2 d a p t r => some (row (kinds tF none t) d a p r noSecond (arith (fun x _ _ => x) (floats fExp2)))
  | .vlog2 d a p t r => some (row (kinds tF none t) d a p r noSecond (arith (fun x _ _ => x) (floats fLog2)))
  | .vand d a b p => some (row (some (.uint 32)) d a p .rmode (ofReg b) (raw (fun x y _ => Nat.land x y)))
  | .vor d a b p => some (row (some (.uint 32)) d a p .rmode (ofReg b) (raw (fun x y _ => Nat.lor x y)))
  | .vxor d a b p => some (row (some (.uint 32)) d a p .rmode (ofReg b) (raw (fun x y _ => Nat.xor x y)))
  | .vmov d a p => some (row (some (.uint 32)) d a p .rmode noSecond (raw (fun x _ _ => x)))
  | .vdot d a b p t r =>
    some { d := d, p := p
           made := (kinds ([.i16, .i8, .bf16, .f16] ++ t8) none t).map (fun k => (32, fun s i =>
             dotLane k (modeSrc s.cx.rmode r) (rv s a) (rv s b) i (elem (rv s d) 32 i))) }
  | .vadds d a c p t r => some (row (kinds (tI ++ tF) f64 t) d a p r (ofScalar c) (arith (fun x y _ => x + y) (fun f m x y _ => fAdd f m x y)))
  | .vmuls d a c p t r => some (row (kinds (tI ++ tF) f64 t) d a p r (ofScalar c) (arith (fun x y _ => x * y) (fun f m x y _ => fMul f m x y)))
  | .vfmas d a c p t r => some (row (kinds (tI ++ tF) f64 t) d a p r (ofScalar c) (arith (fun x y z => x * y + z) (fun f m => fFma f m false)))
  | .vmins d a c p t => some (row (kinds (tI ++ tF) u32 t) d a p .rmode (ofScalar c) (arith (fun x y _ => Min.min x y) (fun f m x y _ => fMinMax f m false x y)))
  | .vmaxs d a c p t => some (row (kinds (tI ++ tF) u32 t) d a p .rmode (ofScalar c) (arith (fun x y _ => Max.max x y) (fun f m x y _ => fMinMax f m true x y)))
  | .vsplat d c p t => some (moves (kinds (tI ++ tF ++ t8) f64 t) d p (fun s w _ => (rs s c).toNat % 2 ^ w))
  | .vins d a c p t =>
    some (moves (kinds (tI ++ tF ++ t8) f64 t) d p (fun s w j => if j = 0 then (rs s c).toNat % 2 ^ w else elem (rv s a) w (j - 1)))
  | .vperm d a b p t =>
    some (moves (kinds (tI ++ tF ++ t8) f64 t) d p (fun s w j =>
      elem (rv s a) w ((if w = 64 then elem (rv s b) 32 (2 * j) else elem (rv s b) w j) % (2048 / w))))
  | .vrot d a b p t =>
    some (moves (kinds (tI ++ tF ++ t8) f64 t) d p (fun s w j => elem (rv s a) w ((j + elem (rv s b) 32 0) % (2048 / w))))
  | .vexpd d a p t => some (moves (kinds [.i32, .f32] f64 t) d p (fun s w j => elem (rv s a) w (activeBelow (rp s p) w j)))
  | _ => none

/-- Registers written whole: vD and, where `pair` is set, vD + 1, element by element in turn (R226, R230). -/
def wholeRow : Instr → Option (BitVec 4 × Bool × Option (Nat × (State → Nat → Nat)))
  | .vsel d a b p => some (d, false, some (32, fun s i => if (rp s p).getLsbD i then elem (rv s a) 32 i else elem (rv s b) 32 i))
  | .vzip d a b t =>
    some (d, true, (kinds (tI ++ tF ++ t8) f64 t).map (fun k => (k.width, fun s j =>
      elem (rv s (if j % 2 = 0 then a else b)) k.width (j / 2))))
  | .vunzip d a b t =>
    some (d, true, (kinds (tI ++ tF ++ t8) f64 t).map (fun k => (k.width, fun s j =>
      let n := 2048 / k.width
      let q := if j < n then 2 * j else 2 * (j - n) + 1
      if q < n then elem (rv s a) k.width q else elem (rv s b) k.width (q - n))))
  | .vcmpr d a p t =>
    some (d, false, (kinds [.i32, .f32] f64 t).map (fun k => (k.width, fun s j =>
      (((List.range (2048 / k.width)).filter (active (rp s p) k.width))[j]?).elim 0 (elem (rv s a) k.width))))
  | .viota d p t =>
    some (d, false, (kinds [.i32] u32 t).map (fun k => (k.width, fun s j => activeBelow (rp s p) k.width j)))
  | _ => none

/-- A relation of two elements, and NV (R225). -/
def relation (r : Rel) (e : EK) (md : Mode) (x y : Nat) : Bool × Flags :=
  match e with
  | .flt f => fRel f md r x y
  | k =>
    (match r with
     | .eq => decide (k.int x = k.int y)
     | .lt => decide (k.int x < k.int y)
     | .le => decide (k.int x ≤ k.int y), 0)

/-- The compares (R225). -/
def cmpRow : Instr → Option (BitVec 3 × BitVec 4 × BitVec 4 × BitVec 3 × Option EK × Rel)
  | .vceq d a b p t => some (d, a, b, p, kinds (tI ++ tF) f64 t, .eq)
  | .vclt d a b p t => some (d, a, b, p, kinds (tI ++ tF) u32 t, .lt)
  | .vcle d a b p t => some (d, a, b, p, kinds (tI ++ tF) u32 t, .le)
  | _ => none

/-- A bit of the OR of a list of flags. -/
def anyFlag (n : Nat) (f : Nat → Flags) (k : Nat) : Bool := (List.range n).any (fun j => (f j).getLsbD k)

/-- The values of the active elements of vA, ascending (R231). -/
def activeValues (s : State) (a : BitVec 4) (p : BitVec 3) (w : Nat) : List Nat :=
  ((List.range (2048 / w)).filter (active (rp s p) w)).map (elem (rv s a) w)

/-- The reductions, which write lane 0 or element 0 (R231). -/
def redRow : Instr → Option (BitVec 4 × Option (State → FR))
  | .vrsum d a p t r =>
    some (d, (kinds (tI ++ tF) f64 t).map (fun k s =>
      match k with
      | .flt f => rsum (.flt f) (modeSrc s.cx.rmode r) (activeValues s a p f.width)
      | k => { bits := ((((activeValues s a p k.width).map k.int).sum) % 2 ^ 32).toNat }))
  | .vrmax d a p t => some (d, (kinds (tI ++ tF) u32 t).map (fun k s => rextreme k (modeOf s.cx.rmode) true (activeValues s a p k.width)))
  | .vrmin d a p t => some (d, (kinds (tI ++ tF) u32 t).map (fun k s => rextreme k (modeOf s.cx.rmode) false (activeValues s a p k.width)))
  | .vrand d a p => some (d, some (fun s => { bits := (activeValues s a p 32).foldl Nat.land (2 ^ 32 - 1) }))
  | .vror d a p => some (d, some (fun s => { bits := (activeValues s a p 32).foldl Nat.lor 0 }))
  | _ => none

end Sys2Proof.Claims

/-- Elementwise vector instructions (R217, R222, R223, R228 to R230). Log 66 is the model's reading of the corners it names. -/
def Obligations.VectorElements : Prop :=
  ∀ (i : Instr) (r : Claims.ElemRow) (s : State), Claims.elemRow i = some r → Claims.unbound s →
    (r.made = none → exec i s = .next (takeTrap { cause := 0x02, val := (encode i).setWidth 64 } s)) ∧
    (∀ w f, r.made = some (w, f) →
      ∃ (v : VReg) (fl : Flags), exec i s = .next (ends (flag fl (wv s r.d v))) ∧
        (∀ j < 2048 / w, elem v w j =
          if active (rp s r.p) w j then (f s j).bits % 2 ^ w else elem (rv s r.d) w j) ∧
        (∀ k < 7, fl.getLsbD k = Claims.anyFlag (2048 / w) (fun j => if active (rp s r.p) w j then (f s j).flags else 0) k))

/-- Vector instructions that write every element (R226, R230). The compares (R225). -/
def Obligations.VectorMovesAndCompares : Prop :=
  (∀ (i : Instr) (d : BitVec 4) (pair : Bool) (made : Option (Nat × (State → Nat → Nat))) (s : State),
    Claims.wholeRow i = some (d, pair, made) → i.wf = true → Claims.unbound s →
    (made = none → exec i s = .next (takeTrap { cause := 0x02, val := (encode i).setWidth 64 } s)) ∧
    (∀ w f, made = some (w, f) →
      ∃ v v' : VReg, exec i s = .next (ends (if pair then wv (wv s d v) (d + 1) v' else wv s d v)) ∧
        (∀ j < 2048 / w, elem v w j = f s j % 2 ^ w) ∧
        (pair = true → ∀ j < 2048 / w, elem v' w j = f s (2048 / w + j) % 2 ^ w))) ∧
  (∀ (i : Instr) (d : BitVec 3) (a b : BitVec 4) (p : BitVec 3) (e : Option EK) (r : Rel) (s : State),
    Claims.cmpRow i = some (d, a, b, p, e, r) → Claims.unbound s →
    (e = none → exec i s = .next (takeTrap { cause := 0x02, val := (encode i).setWidth 64 } s)) ∧
    (∀ k, e = some k →
      let w := k.width
      let rel (j : Nat) : Bool × Flags := Claims.relation r k (modeOf s.cx.rmode) (elem (rv s a) w j) (elem (rv s b) w j)
      ∃ (v : Word) (fl : Flags), exec i s = .next (ends (flag fl (wp s d v))) ∧
        (∀ l < 64, v.getLsbD l =
          if (rp s p).getLsbD (if w = 64 then l / 2 * 2 else l)
          then (List.range (2048 / w)).all (fun j => !decide (w * j / 32 ≤ l ∧ l < (w * j + w + 31) / 32) || (rel j).1)
          else (rp s d).getLsbD l) ∧
        (∀ q < 7, fl.getLsbD q = Claims.anyFlag (2048 / w) (fun j => if active (rp s p) w j then (rel j).2 else 0) q)))

/-- Reductions, VSCAN, VEXT and VCVT (R227, R229, R231). Logs 39 and 66 are the model's reading. -/
def Obligations.VectorReductions : Prop :=
  (∀ (i : Instr) (d : BitVec 4) (made : Option (State → FR)) (s : State), Claims.redRow i = some (d, made) → Claims.unbound s →
    (made = none → exec i s = .next (takeTrap { cause := 0x02, val := (encode i).setWidth 64 } s)) ∧
    (∀ f, made = some f →
      exec i s = .next (ends (flag (f s).flags (wv s d (BitVec.ofNat 2048 (f s).bits)))))) ∧
  (∀ (d a : BitVec 4) (p : BitVec 3) (t : VType) (r : RSrc) (s : State), Claims.unbound s →
    let e := Claims.kinds [.i32, .f32] Claims.f64 t
    (e = none → exec (.vscan d a p t r) s = .next (takeTrap { cause := 0x02, val := (encode (.vscan d a p t r)).setWidth 64 } s)) ∧
    (∀ k, e = some k →
      let md := modeSrc s.cx.rmode r
      let x (j : Nat) : Nat := elem (rv s a) k.width j
      let on (j : Nat) : Bool := active (rp s p) k.width j
      ∃ (v : VReg) (fl : Flags), exec (.vscan d a p t r) s = .next (ends (flag fl (wv s d v))) ∧
        let made (j : Nat) : FR :=
          match k with
          | .flt f =>
            (match ((List.range j).filter on).getLast? with
             | none => deliverV f md [f.operand md.ftz (x j)] (snan f [x j]) (f.operand md.ftz (x j))
             | some q => fAdd f md (elem v f.width q) (x j))
          | k => { bits := (((((List.range j).filter on).map (fun q => k.int (x q))).sum + k.int (x j)) % 2 ^ k.width).toNat }
        let holds (neg : Bool) : Bool :=
          match k with
          | .flt f => (List.range (2048 / k.width)).any (fun j => on j && decide (f.operand md.ftz (x j) = .inf neg))
          | _ => false
        (∀ j < 2048 / k.width, elem v k.width j = if on j then (made j).bits % 2 ^ k.width else elem (rv s d) k.width j) ∧
        (∀ q < 7, fl.getLsbD q =
          (Claims.anyFlag (2048 / k.width) (fun j => if on j then (made j).flags else 0) q ||
            (decide (q = 0) && holds false && holds true))))) ∧
  (∀ (a : BitVec 4) (c : BitVec 5) (t : VType) (s : State) (k : EK), Claims.unbound s →
    Claims.kinds (Claims.tI ++ Claims.tF ++ Claims.t8) Claims.f64 t = some k →
    exec (.vext a c t) s = .next (ends (ws s c
      (if k = .sint 32 ∨ k = .sint 16 ∨ k = .sint 8 then BitVec.ofInt 64 (Claims.signed k.width (elem (rv s a) k.width 0))
       else BitVec.ofNat 64 (elem (rv s a) k.width 0))))) ∧
  (∀ (d a : BitVec 4) (st : SType) (p : BitVec 3) (t : VType) (r : RSrc) (s : State) (k : EK), Claims.unbound s →
    Claims.kinds (Claims.tI ++ Claims.tF ++ Claims.t8) Claims.f64 t = some k →
    let src := stKind st
    let n := if src.width = 64 ∨ k.width = 64 then 32 else 64
    let conv (j : Nat) : FR := convEl src k (modeSrc s.cx.rmode r) (elem (rv s a) src.width j)
    ∃ (v : VReg) (fl : Flags), exec (.vcvt d a st p t r) s = .next (ends (flag fl (wv s d v))) ∧
      (∀ j < 2048 / k.width, elem v k.width j =
        if n ≤ j then 0 else if (rp s p).getLsbD j then (conv j).bits % 2 ^ k.width else elem (rv s d) k.width j) ∧
      (∀ q < 7, fl.getLsbD q = Claims.anyFlag n (fun j => if (rp s p).getLsbD j then (conv j).flags else 0) q))

/-- The VPRED group (R236). -/
def Obligations.PredicateInstructions : Prop :=
  ∀ (s : State),
    (∀ d a b, exec (.pand d a b) s = .next (ends (wp s d (rp s a &&& rp s b)))) ∧
    (∀ d a b, exec (.por d a b) s = .next (ends (wp s d (rp s a ||| rp s b)))) ∧
    (∀ d a b, exec (.pxor d a b) s = .next (ends (wp s d (rp s a ^^^ rp s b)))) ∧
    (∀ d a, exec (.pnot d a) s = .next (ends (wp s d (~~~ rp s a)))) ∧
    (∀ (d : BitVec 4) a, exec (.pcnt d a) s = .next (ends (ws s (d.setWidth 5)
      (BitVec.ofNat 64 (Claims.countBits 64 (fun k => (rp s a).getLsbD k)))))) ∧
    (∀ (d : BitVec 4) a, ∃ n, exec (.pfirst d a) s = .next (ends (ws s (d.setWidth 5) (BitVec.ofNat 64 n))) ∧
      (rp s a = 0 → n = 64) ∧ (rp s a ≠ 0 → n < 64 ∧ (rp s a).getLsbD n = true ∧ ∀ k < n, (rp s a).getLsbD k = false)) ∧
    (∀ d (a : BitVec 4), ∃ v : Word, exec (.psetn d a) s = .next (ends (wp s d v)) ∧
      ∀ k < 64, v.getLsbD k = decide (k < (rs s (a.setWidth 5)).toNat))

namespace Sys2Proof.Claims

/-- A vector memory instruction: vD, pointer, segment, predicate, whether it stores, whether it is strided or indexed, and
the byte offset of element j relative to the pointer, from the element's bits and the count (R232). -/
structure VmemRow where
  d : BitVec 4
  a : BitVec 5
  g : BitVec 3
  p : BitVec 3
  store : Bool
  far : Bool
  offs : State → Nat → Nat → Nat → Int

/-- The table of R232. -/
def vmemRow : Instr → Option VmemRow
  | .vld d a g p => some ⟨d, a, g, p, false, false, fun _ bits _ j => (j * bits / 8 : Nat)⟩
  | .vst d a g p => some ⟨d, a, g, p, true, false, fun _ bits _ j => (j * bits / 8 : Nat)⟩
  | .vlds d a g p b => some ⟨d, a, g, p, false, true, fun s _ _ j => j * (rs s b).toInt⟩
  | .vsts d a g p b => some ⟨d, a, g, p, true, true, fun s _ _ j => j * (rs s b).toInt⟩
  | .vgath d a g p b => some ⟨d, a, g, p, false, true, fun s _ n j => signed 32 (elem (rv s b) 32 (if n = 32 then 2 * j else j))⟩
  | .vscat d a g p b => some ⟨d, a, g, p, true, true, fun s _ n j => signed 32 (elem (rv s b) 32 (if n = 32 then 2 * j else j))⟩
  | _ => none

/-- Element size in bits and element count by the pointer's format; none where the format traps 0x02 (R233). -/
def vmemLayout (fmt : Nat) (store far : Bool) : Option (Nat × Nat) :=
  if fmt = 0 ∨ fmt = 4 ∨ fmt = 8 then some (32, 64)
  else if fmt = 1 ∨ fmt = 2 ∨ fmt = 10 ∨ fmt = 11 then some (8, 64)
  else if fmt = 3 ∨ fmt = 6 ∨ fmt = 7 then some (16, 64)
  else if fmt = 5 ∨ fmt = 9 then some (64, 32)
  else if (fmt = 12 ∨ fmt = 18) ∧ far = false then some (4, 64)
  else if fmt = 16 ∧ store = false then some (8, 64)
  else none

/-- The elements that are active: of 32 elements, each by the bit of its lower lane (R217). -/
def VmemRow.actives (r : VmemRow) (s : State) (n : Nat) : List Nat :=
  (List.range n).filter (fun j => (rp s r.p).getLsbD (if n = 32 then 2 * j else j))

/-- The segment offset of element j (R232). -/
def VmemRow.off (r : VmemRow) (s : State) (bits n j : Nat) : Nat :=
  (((rs s r.a).toNat % 2 ^ 48 : Int) + r.offs s bits n j) % 2 ^ 48 |>.toNat

/-- Bytes that an element touches. -/
def bytesOf (bits : Nat) : Nat := if bits < 8 then 1 else bits / 8

/-- Element j is aligned and the segment gives it the address `t` (R234). -/
def VmemRow.at_ (r : VmemRow) (s : State) (bits n j : Nat) (t : Tgt) : Prop :=
  r.off s bits n j % bytesOf bits = 0 ∧
    segGives (rg s r.g) (r.off s bits n j) (bytesOf bits) (if r.store then rightW else rightR) r.store t

/-- The cause with which a window refuses an element (R143). -/
def winFault (s : State) (n : Nat) (write : Bool) : Tgt → Option (BitVec 8)
  | .win wa => winCheck s s.cx.pour s.cx.tenant.toNat wa n write
  | .glob _ => none

/-- An element's wait is over: the window's checks pass and nothing there is waited for, a write of a ring's head or tail
being a release too; or no drip of the context's own is under way to its bytes (R143, R156, R240). -/
def waitDone (s : State) (n : Nat) (write : Bool) : Tgt → Prop
  | .win wa =>
    winCheck s s.cx.pour s.cx.tenant.toNat wa n write = none ∧ winWait s wa write = none ∧
      (write = true → winKind wa = 5 → getRing s (winCore wa) (winOff wa / 32) ≠ none ∧ released s)
  | .glob va => dripsAt s s.cx.key va n = false

/-- An element's page is present (R127). -/
def pageThere (s : State) (n : Nat) (write : Bool) : Tgt → Prop
  | .win _ => True
  | .glob va => absent s s.cx.tenant.toNat write (blocksOf va n) = none

/-- The touches of the elements pass, one after another (R303). -/
def touchesPass (n : Nat) : List Tgt → State → State → Prop
  | [], s, s' => s' = s
  | .win _ :: l, s, s' => touchesPass n l s s'
  | .glob va :: l, s, s' => ∃ s1,
    touchAll s s.cx.tenant.toNat va n (.ctx s.cx.key) s.cx.gen s.cx.depth s.cx.key s.cx.core (homeCore s.cx.key) = .pass s1 ∧
      touchesPass n l s1 s'

/-- The ways of all elements are free: no wait is left, every page is present, every touch passes (R127, R237). -/
def waysFree (n : Nat) (write : Bool) (l : List Tgt) (s s' : State) : Prop :=
  (∀ t ∈ l, waitDone s n write t ∧ pageThere s n write t) ∧ touchesPass n l s s'

/-- The bytes of the elements are read, one after another. -/
def readsEach (n : Nat) : List (Tgt × List Byte) → State → State → Prop
  | [], s, s' => s' = s
  | (.win wa, b) :: l, s, s' => b = winRead s wa n ∧ readsEach n l s s'
  | (.glob va, b) :: l, s, s' => ∃ s1, gread s s.cx.tenant.toNat va n = .ok b s1 ∧ readsEach n l s1 s'

/-- The flags that several conversions raise. -/
def allFlags (l : List FR) : Flags := l.foldl (fun f x => f ||| x.flags) 0

/-- The value of an element that memory gives: a nibble by its place in the byte (R42, R233). -/
def rawOf (bits j : Nat) (b : List Byte) : Nat := if bits < 8 then natOfBytes b / 16 ^ (j % 2) % 16 else natOfBytes b

end Sys2Proof.Claims

/-- The VMEM group (R232 to R235). -/
def Obligations.VectorMemory : Prop :=
  (∀ (i : Instr) (r : Claims.VmemRow) (s : State), Claims.vmemRow i = some r → Claims.unbound s → s.cx.away = true →
    (s.cx.held = true → exec i s = .next (takeTrap { cause := 0x03, val := (encode i).setWidth 64 } s)) ∧
    (s.cx.held = false → Claims.released s → exec i s = .next (Claims.leaves s (homeCore s.cx.key)))) ∧
  ∀ (i : Instr) (r : Claims.VmemRow) (s : State), Claims.vmemRow i = some r → Claims.unbound s → atHome s →
    let ptr := rs s r.a
    let fmt := ptr.toNat / 2 ^ 59
    (tagOk ptr = false → exec i s = .next (takeTrap { cause := 0x07, val := ptr } s)) ∧
    (tagOk ptr = true → Claims.vmemLayout fmt r.store r.far = none →
      exec i s = .next (takeTrap { cause := 0x02, val := ptr } s)) ∧
    (∀ (bits n : Nat) (pre post : List Nat) (j : Nat), tagOk ptr = true → Claims.vmemLayout fmt r.store r.far = some (bits, n) →
      r.actives s n = pre ++ j :: post → (∀ i ∈ pre, ∃ t, r.at_ s bits n i t ∧ Claims.winFault s (Claims.bytesOf bits) r.store t = none) →
      let g := rg s r.g
      let size := Claims.bytesOf bits
      let off := r.off s bits n j
      let tval : Word := ptr.extractLsb' 48 16 ++ BitVec.ofNat 48 off
      let noRight := g.rights.getLsbD (if r.store then rightW else rightR) = false ∨ (r.store = true ∧ g.kind = 2)
      (off % size ≠ 0 → exec i s = .next (takeTrap { cause := 0x06, val := tval } s)) ∧
      (off % size = 0 → noRight → exec i s = .next (takeTrap { cause := 0x05, val := tval } s)) ∧
      (off % size = 0 → ¬ noRight → g.limit.toNat < off + size → exec i s = .next (takeTrap { cause := 0x04, val := tval } s)) ∧
      (∀ t c, r.at_ s bits n j t → Claims.winFault s size r.store t = some c →
        exec i s = .next (takeTrap { cause := c, val := tval } s))) ∧
    (∀ (bits n : Nat) (s1 s2 : State) (acc : List (Tgt × List Byte)), tagOk ptr = true → r.store = false →
      Claims.vmemLayout fmt r.store r.far = some (bits, n) →
      acc.length = (r.actives s n).length →
      (∀ (k j : Nat) (t : Tgt) (b : List Byte), (r.actives s n)[k]? = some j → acc[k]? = some (t, b) → r.at_ s bits n j t) →
      Claims.waysFree (Claims.bytesOf bits) false (acc.map Prod.fst) s s1 → Claims.readsEach (Claims.bytesOf bits) acc s1 s2 →
      let made : List FR := ((r.actives s n).zip acc).map
        (fun x => loadLane fmt (modeOf s.cx.rmode) (Claims.rawOf bits x.1 x.2.2))
      ∃ v : VReg, exec i s = .next (ends (flag (Claims.allFlags made) (wv s2 r.d v))) ∧
        (∀ j < n, j ∉ r.actives s n → elem v (2048 / n) j = elem (rv s r.d) (2048 / n) j) ∧
        (∀ (k j : Nat) (x : FR), (r.actives s n)[k]? = some j → made[k]? = some x →
          elem v (2048 / n) j = x.bits % 2 ^ (2048 / n))) ∧
    (∀ (bits n : Nat) (s1 s2 : State) (tgts : List Tgt), tagOk ptr = true → r.store = true →
      Claims.vmemLayout fmt r.store r.far = some (bits, n) →
      tgts.length = (r.actives s n).length →
      (∀ (k j : Nat) (t : Tgt), (r.actives s n)[k]? = some j → tgts[k]? = some t → r.at_ s bits n j t) →
      Claims.waysFree (Claims.bytesOf bits) true tgts s s1 →
      let value (j : Nat) : FR := storeElem fmt (modeOf s.cx.rmode) (elem (rv s r.d) (2048 / n) j)
      let patches : List (Tgt × List (Byte × Byte)) := (tgts.zip (r.actives s n)).map (fun x => (x.1, elemPatch bits x.2 (value x.2).bits))
      let win := patches.foldl (fun q x => match x.1 with
        | .win wa => winElem q wa x.2
        | .glob _ => q) s1
      let glob := patches.foldl (fun t x => match x.1 with
        | .win _ => t
        | .glob va => putPatch t va x.2) ([] : Patch)
      patchAll s.cx.tenant.toNat s.cx.key s.cx.who (glob.length + 1) glob win = .ok s2 →
      exec i s = .next (ends (flag (Claims.allFlags ((r.actives s n).map value)) s2)))

namespace Sys2Proof.Claims

/-- The wrap value of a ring's counters (R239). -/
def wrapOf (count : Nat) : Nat := count * (2 ^ 32 / count)

/-- Filled slots (R238, R239). -/
def filledOf (r : Ring) : Nat := (((r.tail : Int) - r.head) % wrapOf r.count).toNat

/-- The instruction stalls In flight and executes from its start when the condition is met (R114). -/
def stalls (c : Cond) (s : State) : State := { s with cx := { s.cx with st := .inFlight c, again := true, stalled := true, met := none } }

/-- The ring of the context's home core (R238). -/
def ringOf (s : State) (q : BitVec 4) : Option Ring := getRing s (homeCore s.cx.key) q.toNat

/-- The ring with a counter advanced (R239). -/
def moved (r : Ring) (head : Bool) (n : Nat) : Ring :=
  if head then { r with head := (r.head + n) % wrapOf r.count } else { r with tail := (r.tail + n) % wrapOf r.count }

/-- The 256 bytes at which a stream stands, as a register (R244). -/
def chunk (s : State) (b : Bind) (r : Ring) : VReg :=
  BitVec.ofNat 2048 (natOfBytes (rdBytes s.mem (winKey (winAddr (homeCore s.cx.key) 0
    (r.base + (if b.out then r.tail else r.head) % r.count * 2 ^ r.slog + b.done * b.stride))) 256))

/-- A stream one chunk further: after the last chunk of a slot the ring advances (R244). -/
def streamOn (s : State) (v : BitVec 4) (b : Bind) (r : Ring) : State :=
  if b.perSlot ≤ b.done + 1 then
    setRing (updCx s (fun c => { c with binds := tput c.binds v.toNat { b with done := 0 } })) (homeCore s.cx.key) b.ring
      (moved r (!b.out) 1)
  else updCx s (fun c => { c with binds := tput c.binds v.toNat { b with done := b.done + 1 } })

end Sys2Proof.Claims

/-- The RING group but for streams (R238 to R243). What a release waits for is log 33's reading of R165. -/
def Obligations.RingInstructions : Prop :=
  (∀ (q : BitVec 4) (a b : BitVec 5) (s : State) (slog count : Nat), atHome s →
    let core := homeCore s.cx.key
    let x := rs s a
    let y := rs s b
    let good := y.toNat = slog + count * 2 ^ 8 ∧ 6 ≤ slog ∧ slog ≤ 16 ∧ 2 ≤ count ∧ count ≤ 256
    let fits := x.toNat < 2 ^ 32 ∧ x.toNat % 2 ^ slog = 0 ∧ x.toNat + count * 2 ^ slog ≤ scratchSize (getCore s core)
    ((∀ l c, ¬ (y.toNat = l + c * 2 ^ 8 ∧ 6 ≤ l ∧ l ≤ 16 ∧ 2 ≤ c ∧ c ≤ 256)) →
      exec (.rdef q a b) s = .next (takeTrap { cause := 0x02, val := y } s)) ∧
    (good → ¬ fits → exec (.rdef q a b) s = .next (takeTrap { cause := 0x02, val := x } s)) ∧
    (good → fits → ringInUse s core q.toNat = true →
      exec (.rdef q a b) s = .next (takeTrap { cause := 0x11, val := BitVec.ofNat 64 q.toNat } s)) ∧
    (good → fits → ringInUse s core q.toNat = false →
      exec (.rdef q a b) s = .next (ends (setRing s core q.toNat { base := x.toNat, slog := slog, count := count })))) ∧
  (∀ (i : Instr) (q : BitVec 4) (s : State), atHome s →
    (∃ b d, i = .rwaitf q b ∨ i = .rwaite q b ∨ i = .radvh q b ∨ i = .radvt q b ∨ i = .rhead d q ∨ i = .rtail d q) →
    ((∃ b, i = .rwaitf q b ∨ i = .rwaite q b) → s.cx.met = none) →
    Claims.ringOf s q = none → exec i s = .next (takeTrap { cause := 0x11, val := BitVec.ofNat 64 q.toNat } s)) ∧
  (∀ (q : BitVec 4) (b d : BitVec 5) (s : State) (r : Ring), atHome s → Claims.ringOf s q = some r → 1 ≤ r.count → r.count ≤ 256 →
    r.head < Claims.wrapOf r.count → r.tail < Claims.wrapOf r.count → Claims.filledOf r ≤ r.count →
    let n := (rs s b).toNat
    let core := homeCore s.cx.key
    let misuse := Host.Outcome.next (takeTrap { cause := 0x11, val := BitVec.ofNat 64 q.toNat } s)
    (∀ v, s.cx.met = some v →
      exec (.rwaitf q b) s = .next (ends s) ∧ exec (.rwaite q b) s = .next (ends s)) ∧
    (s.cx.met = none → n = 0 ∨ r.count < n → exec (.rwaitf q b) s = misuse ∧ exec (.rwaite q b) s = misuse) ∧
    (s.cx.met = none → 1 ≤ n → n ≤ r.count →
      (n ≤ Claims.filledOf r → exec (.rwaitf q b) s = .next (ends s)) ∧
      (Claims.filledOf r < n → exec (.rwaitf q b) s = .next (Claims.waits (.ringFilled q.toNat n) s)) ∧
      (n ≤ r.count - Claims.filledOf r → exec (.rwaite q b) s = .next (ends s)) ∧
      (r.count - Claims.filledOf r < n → exec (.rwaite q b) s = .next (Claims.waits (.ringEmpty q.toNat n) s))) ∧
    (Claims.filledOf r < n ∨ streamEnd s core q.toNat true = true → exec (.radvh q b) s = misuse) ∧
    (n ≤ Claims.filledOf r → streamEnd s core q.toNat true = false →
      exec (.radvh q b) s = .next (ends (setRing s core q.toNat (Claims.moved r true n)))) ∧
    (r.count - Claims.filledOf r < n ∨ streamEnd s core q.toNat false = true → exec (.radvt q b) s = misuse) ∧
    (n ≤ r.count - Claims.filledOf r → streamEnd s core q.toNat false = false →
      (Claims.released s →
        exec (.radvt q b) s = .next (ends (setRing s core q.toNat (Claims.moved r false n)))) ∧
      (¬ Claims.released s → exec (.radvt q b) s = .next (Claims.stalls (.ownDrips 0 (2 ^ 48)) s))) ∧
    (exec (.rhead d q) s = .next (ends (ws s d (BitVec.ofNat 64
        (r.head * 2 ^ 32 + (r.base + r.head % r.count * 2 ^ r.slog) % 2 ^ 32)))) ∧
      exec (.rtail d q) s = .next (ends (ws s d (BitVec.ofNat 64
        (r.tail * 2 ^ 32 + (r.base + r.tail % r.count * 2 ^ r.slog) % 2 ^ 32))))))

/-- Streams (R219, R244, R245). What a release waits for is log 33's reading of R165; the order of RBIND's checks is log
24's, TVAL of RUNBIND's trap log 22's. -/
def Obligations.StreamInstructions : Prop :=
  (∀ (v q : BitVec 4) (b : BitVec 5) (s : State) (r : Ring) (stride per : Nat) (out : Bool), atHome s →
    v = 14 ∨ v = 15 → Claims.ringOf s q = some r → ringBound s (homeCore s.cx.key) q.toNat = none → tget s.cx.binds v.toNat = none →
    (rs s b).toNat = stride + per * 2 ^ 32 + out.toNat * 2 ^ 48 → stride < 2 ^ 32 → stride % 4 = 0 → 1 ≤ per → per < 2 ^ 16 →
    (per - 1) * stride + 256 ≤ 2 ^ r.slog →
    exec (.rbind v q b) s = .next (ends (updCx s (fun c =>
      { c with binds := tput c.binds v.toNat { ring := q.toNat, out := out, stride := stride, perSlot := per, done := 0 } })))) ∧
  (∀ (v q : BitVec 4) (b : BitVec 5) (s : State), atHome s → v ≠ 14 → v ≠ 15 →
    exec (.rbind v q b) s = .next (takeTrap { cause := 0x02, val := BitVec.ofNat 64 v.toNat } s)) ∧
  (∀ (v q : BitVec 4) (b : BitVec 5) (s : State), atHome s → v = 14 ∨ v = 15 →
    let stride := (rs s b).toNat % 2 ^ 32
    let per := (rs s b).toNat / 2 ^ 32 % 2 ^ 16
    (2 ^ 49 ≤ (rs s b).toNat ∨ stride % 4 ≠ 0 ∨ per = 0 →
      exec (.rbind v q b) s = .next (takeTrap { cause := 0x02, val := rs s b } s)) ∧
    ((rs s b).toNat < 2 ^ 49 → stride % 4 = 0 → per ≠ 0 →
      (Claims.ringOf s q = none →
        exec (.rbind v q b) s = .next (takeTrap { cause := 0x11, val := BitVec.ofNat 64 q.toNat } s)) ∧
      (∀ r, Claims.ringOf s q = some r →
        (2 ^ r.slog < (per - 1) * stride + 256 →
          exec (.rbind v q b) s = .next (takeTrap { cause := 0x02, val := rs s b } s)) ∧
        ((per - 1) * stride + 256 ≤ 2 ^ r.slog →
          ringBound s (homeCore s.cx.key) q.toNat ≠ none ∨ tget s.cx.binds v.toNat ≠ none →
          exec (.rbind v q b) s = .next (takeTrap { cause := 0x11, val := BitVec.ofNat 64 q.toNat } s))))) ∧
  (∀ (v : BitVec 4) (s : State), atHome s →
    (∀ b, tget s.cx.binds v.toNat = some b →
      exec (.runbind v) s = .next (ends (updCx s (fun c => { c with binds := tdel c.binds v.toNat })))) ∧
    (tget s.cx.binds v.toNat = none → exec (.runbind v) s = .next (takeTrap { cause := 0x11, val := BitVec.ofNat 64 v.toNat } s))) ∧
  (∀ (d a : BitVec 4) (s : State) (b : Bind) (r : Ring), tget s.cx.binds a.toNat = some b → tget s.cx.binds d.toNat = none →
    d ≠ a → getRing s (homeCore s.cx.key) b.ring = some r →
    let off := r.base + r.head % r.count * 2 ^ r.slog + b.done * b.stride
    (b.out = true → exec (.vmov d a 0) s = .next (takeTrap { cause := 0x11, val := BitVec.ofNat 64 b.ring } s)) ∧
    (b.out = false → r.filled = 0 → exec (.vmov d a 0) s = .next
      { s with cx := { s.cx with st := .inFlight (.stream b.ring), again := true, stalled := true, met := none } }) ∧
    (b.out = false → r.filled ≠ 0 → off + 256 ≤ scratchSize (getCore s (homeCore s.cx.key)) →
      exec (.vmov d a 0) s = .next (ends (wv (Claims.streamOn (wv s a (Claims.chunk s b r)) a b r) d (Claims.chunk s b r))))) ∧
  (∀ (d a : BitVec 4) (s : State) (b : Bind) (r : Ring), tget s.cx.binds d.toNat = some b → tget s.cx.binds a.toNat = none →
    d ≠ a → getRing s (homeCore s.cx.key) b.ring = some r → b.out = true → r.empty ≠ 0 →
    let off := r.base + r.tail % r.count * 2 ^ r.slog + b.done * b.stride
    off + 256 ≤ scratchSize (getCore s (homeCore s.cx.key)) →
    (b.done + 1 < b.perSlot ∨ Claims.released s →
      exec (.vmov d a 0) s = .next (ends (Claims.streamOn
        { wv s d (rv s a) with
          mem := wrBytes s.mem (winKey (winAddr (homeCore s.cx.key) 0 off)) (bytesOfNat 256 (rv s a).toNat) } d b r))) ∧
    (b.perSlot ≤ b.done + 1 → ¬ Claims.released s →
      exec (.vmov d a 0) s = .next (Claims.stalls (.ownDrips 0 (2 ^ 48)) s)))

namespace Sys2Proof.Claims

/-- A copy instruction: its minor, the registers of completion operand, source, destination and record, its transform (R248). -/
def copyRow : Instr → Option (Nat × BitVec 5 × BitVec 5 × BitVec 5 × BitVec 5 × Xf)
  | .copy k a b p x => some (0, k, a, b, p, x)
  | .copyg k a b p x => some (1, k, a, b, p, x)
  | .copys k a b p x => some (2, k, a, b, p, x)
  | .copyw k a b p x => some (3, k, a, b, p, x)
  | _ => none

/-- The completion operand holds the destination word `w` and the segment numbers of the two sides (R184, R248). -/
def operandOf (kv : Word) (w gs gd : Nat) : Prop :=
  kv.toNat = w + gs * 2 ^ 40 + gd * 2 ^ 44 ∧ w < 2 ^ 35 ∧ gs < 8 ∧ gd < 8

/-- The checks of R250 that follow the record's, in order, as (cause, TVAL) where one fails: a WINDOW side that leaves the
own scratchpad, elements of a converting copy that are misaligned, the segments. A side whose addresses the record does not
fix is not checked here. -/
def sideChecks (s : State) (minor : Nat) (x : Xf) (a b : Side) : List (Option (BitVec 8 × Word)) :=
  let far (d : Side) : Bool := !d.near (homeCore s.cx.key) d.extent.1 d.extent.2
  let fa := srcFixed minor x
  let fb := dstFixed minor
  [if fa && far a || fb && minor != 3 && far b then some (0x19, 3) else none,
   if converts x && fa && a.misaligned then some (0x06, a.ptr) else none,
   if converts x && fb && b.misaligned then some (0x06, b.ptr) else none,
   if fa then (a.segFault rightR false).map (fun c => (c, a.ptr)) else none,
   if fb then (b.segFault rightW true).map (fun c => (c, b.ptr)) else none]

/-- Operations that wait for an entry of their core's queues enter in issue order, as far as there is room (R250, R262). -/
def entered (c : CoreSt) : CoreSt :=
  { c with
    mq := c.mq ++ c.mstall.take (8 - c.mq.length)
    mstall := c.mstall.drop (8 - c.mq.length)
    cq := c.cq ++ c.cstall.take (16 - c.cq.length)
    cstall := c.cstall.drop (16 - c.cq.length) }

/-- The instruction that issued an operation: none, or its number, kept while it waits (R215, R250, R262). -/
def issuedBy (m : Option (Nat × Addr)) (s : State) : State := { s with cx := { s.cx with mopAt := m } }

/-- The copy's place in the queue of the context's home core: behind all others, with what it captured at issue (R250). -/
def withCopy (s : State) (minor : Nat) (x : Xf) (w : Nat) (a b : Side) (p : Pat) : State :=
  let c := s.cx
  let o : COp :=
    { id := s.nextId, minor := minor, xf := x, src := a.ptr, dst := b.ptr, sseg := a.seg, dseg := b.seg, pat := p
      dest := BitVec.ofNat 64 w, rmode := c.rmode, key := c.key, pour := c.pour, tenant := c.tenant.toNat, gen := c.gen
      targets := if x = .bstr then bstrTargets s c.pour else [] }
  updCore { s with nextId := s.nextId + 1 } (homeCore c.key) (fun k => entered { k with cstall := k.cstall ++ [o] })

/-- The current slot of the transform context starts here (R238, R256). -/
def slotAt (r : Ring) (b : BitSlot) : Nat := r.base + b.counter % r.count * 2 ^ r.slog

/-- Bytes of a core's scratchpad as one number. -/
def scratchNum (m : List Host.Cell) (core off n : Nat) : Nat := rdN m (winKey (winAddr core 0 off)) n

/-- Context 11 at home with a current slot whose input and output areas lie in the scratchpad (R256). -/
def atSlot (s : State) (r : Ring) (b : BitSlot) : Prop :=
  let core := homeCore s.cx.key
  homeIdx s.cx.key = 11 ∧ atHome s ∧ (getCore s core).bits = some b ∧ getRing s core (getCore s core).bitsRing = some r ∧
    b.pos ≤ 8 * b.inLen ∧ b.outPos ≤ 8 * b.outLen ∧ slotAt r b + b.inLen ≤ scratchSize (getCore s core) ∧
    slotAt r b + b.outOff + b.outLen ≤ scratchSize (getCore s core)

/-- The state with the current slot changed. -/
def slotNow (b : BitSlot) (s : State) : State := updCore s (homeCore s.cx.key) (fun c => { c with bits := some b })

/-- The bits of the input from the reader's position on, as a number: past its end they are 0 (R256). -/
def bitsLeft (s : State) (r : Ring) (b : BitSlot) : Nat :=
  scratchNum s.mem (homeCore s.cx.key) (slotAt r b) b.inLen / 2 ^ b.pos

/-- `t` is `s1` but for the output area, in which `n` bits at the writer's position have become `x` (R256, R257). -/
def wroteBits (s s1 t : State) (r : Ring) (b : BitSlot) (x n : Nat) : Prop :=
  let core := homeCore s.cx.key
  let off := slotAt r b + b.outOff
  let old := scratchNum s.mem core off b.outLen
  t = { s1 with mem := t.mem } ∧
    scratchNum t.mem core off b.outLen = old - old / 2 ^ b.outPos % 2 ^ n * 2 ^ b.outPos + x % 2 ^ n * 2 ^ b.outPos ∧
    ∀ y, (y < winKey (winAddr core 0 off) ∨ winKey (winAddr core 0 off) + b.outLen ≤ y) → rdB t.mem y = rdB s.mem y

/-- The event of R256 at a chunk: the copy keeps the lowest failing chunk and its code (R258). -/
def chunkFails (s : State) (f : Nat × Nat × Nat) (code : BitVec 32) : State :=
  updCop s f.1 f.2.1 (fun o =>
    match o.failed with
    | some (k, _) => if f.2.2 < k then { o with failed := some (f.2.2, code) } else o
    | none => { o with failed := some (f.2.2, code) })

end Sys2Proof.Claims

/-- Issue of a copy (R248 to R251). The place of 0x06 of a converting side among the checks, and DLTA as one, are the model's
choice (log 28); the copy kept while the instruction waits for its entry is log 71. -/
def Obligations.CopyInstructions : Prop :=
  ∀ (i : Instr) (minor : Nat) (k ra rb rp : BitVec 5) (x : Xf) (s : State), Claims.copyRow i = some (minor, k, ra, rb, rp, x) →
    atHome s →
    let core := homeCore s.cx.key
    let kv := rs s k
    let pv := rs s rp
    let size := scratchSize (getCore s core)
    ((∀ m, s.cx.mopAt = some m → m.2 ≠ s.cx.pc) → (∀ w gs gd, ¬ (Claims.operandOf kv w gs gd ∧ (w = 0 ∨ dwOk s (BitVec.ofNat 64 w) = true))) →
      exec i s = .next (takeTrap { cause := 0x02, val := kv } s)) ∧
    ((∀ m, s.cx.mopAt = some m → m.2 ≠ s.cx.pc) → ∀ w gs gd, Claims.operandOf kv w gs gd → (w = 0 ∨ dwOk s (BitVec.ofNat 64 w) = true) →
      (pv.toNat % 64 ≠ 0 → exec i s = .next (takeTrap { cause := 0x06, val := pv } s)) ∧
      (pv.toNat % 64 = 0 → size < pv.toNat + 64 → exec i s = .next (takeTrap { cause := 0x04, val := pv } s)) ∧
      (pv.toNat % 64 = 0 → pv.toNat + 64 ≤ size →
        (tagOk (rs s ra) = false → exec i s = .next (takeTrap { cause := 0x07, val := rs s ra } s)) ∧
        (tagOk (rs s ra) = true → tagOk (rs s rb) = false → exec i s = .next (takeTrap { cause := 0x07, val := rs s rb } s)) ∧
        (tagOk (rs s ra) = true → tagOk (rs s rb) = true →
          let p : Pat := BitVec.ofNat 512 (Claims.scratchNum s.mem core pv.toNat 64)
          let a := srcSide x p (rs s ra) (rg s (BitVec.ofNat 3 gs))
          let b := dstSide x p (rs s rb) (rg s (BitVec.ofNat 3 gd))
          (copyRefused minor x a b = true → exec i s = .next (takeTrap { cause := 0x19, val := 3 } s)) ∧
          (copyRefused minor x a b = false → recordBad s minor x p a b = true →
            exec i s = .next (takeTrap { cause := 0x19, val := 4 } s)) ∧
          (copyRefused minor x a b = false → recordBad s minor x p a b = false →
            (∀ c v, (Claims.sideChecks s minor x a b).findSome? id = some (c, v) →
              exec i s = .next (takeTrap { cause := c, val := v } s)) ∧
            ((Claims.sideChecks s minor x a b).findSome? id = none →
              let s1 := Claims.withCopy s minor x w a b p
              let ahead := (getCore s core).cstall.length + (getCore s core).cq.length
              (ahead < 16 → exec i s = .next (ends (Claims.issuedBy none s1))) ∧
              (16 ≤ ahead → exec i s = .next
                (Claims.stalls (.copyQueue s.nextId) (Claims.issuedBy (some (s.nextId, s.cx.pc)) s1)))))))) ∧
    (∀ n, s.cx.mopAt = some (n, s.cx.pc) →
      ((∀ c ∈ s.cores, ∀ o ∈ c.2.cstall, o.id ≠ n) → exec i s = .next (ends (Claims.issuedBy none s))) ∧
      ((∃ c ∈ s.cores, ∃ o ∈ c.2.cstall, o.id = n) → exec i s = .next (Claims.stalls (.copyQueue n) s)))

/-- The BITS group (R256, R257). The TVAL of BHUF's traps (log 22), BGET and BSKIP past the end with a chunk (log 23), BNEXT over
closed slots (log 31) and BPUT past the output (log 32) are the model's choices. -/
def Obligations.BitInstructions : Prop :=
  (∀ (i : Instr) (d a n : BitVec 5) (s : State),
    (i = .bget d n ∨ i = .bpeek d n ∨ i = .bskip a ∨ i = .balign ∨ i = .bput a n ∨ i = .bflush d ∨ i = .bhuf d a ∨ i = .blzc d ∨
      i = .bfail a ∨ i = .bnext d) →
    (homeIdx s.cx.key ≠ 11 → exec i s = .next (takeTrap { cause := 0x03, val := (encode i).setWidth 64 } s)) ∧
    (homeIdx s.cx.key = 11 → atHome s → i ≠ .bnext d → (getCore s (homeCore s.cx.key)).bits = none →
      exec i s = .next (takeTrap { cause := 0x11, val := BitVec.ofNat 64 (getCore s (homeCore s.cx.key)).bitsRing } s))) ∧
  (∀ (d a n : BitVec 5) (s : State) (r : Ring) (b : BitSlot), Claims.atSlot s r b →
    let core := homeCore s.cx.key
    let x := Claims.bitsLeft s r b
    let left := 8 * b.inLen - b.pos
    let m := n.toNat + 1
    let size := scratchSize (getCore s core)
    let misuse := Host.Outcome.next (takeTrap { cause := 0x11, val := BitVec.ofNat 64 (getCore s core).bitsRing } s)
    exec (.bpeek d n) s = .next (ends (ws s d (BitVec.ofNat 64 (x % 2 ^ m)))) ∧
    (m ≤ left → exec (.bget d n) s =
      .next (ends (ws (Claims.slotNow { b with pos := b.pos + m } s) d (BitVec.ofNat 64 (x % 2 ^ m))))) ∧
    (left < m → b.chunk = none → exec (.bget d n) s = misuse) ∧
    (∀ f, left < m → b.chunk = some f → ∃ y, y < 2 ^ m ∧ y % 2 ^ left = x ∧ exec (.bget d n) s =
      .next (ends (ws (Claims.slotNow { b with pos := 8 * b.inLen } (Claims.chunkFails s f 0xFFFF_FFFF)) d
        (BitVec.ofNat 64 y)))) ∧
    (2 ^ 32 ≤ (rs s a).toNat → exec (.bskip a) s = .next (takeTrap { cause := 0x02, val := rs s a } s)) ∧
    ((rs s a).toNat < 2 ^ 32 → (rs s a).toNat ≤ left →
      exec (.bskip a) s = .next (ends (Claims.slotNow { b with pos := b.pos + (rs s a).toNat } s))) ∧
    (∀ f, (rs s a).toNat < 2 ^ 32 → left < (rs s a).toNat → b.chunk = some f → exec (.bskip a) s =
      .next (ends (Claims.slotNow { b with pos := 8 * b.inLen } (Claims.chunkFails s f 0xFFFF_FFFF)))) ∧
    exec .balign s = .next (ends (Claims.slotNow { b with pos := (b.pos + 7) / 8 * 8 } s)) ∧
    (∀ z, z < 32 → z < left → x % 2 ^ (z + 1) = 2 ^ z → exec (.blzc d) s =
      .next (ends (ws (Claims.slotNow { b with pos := b.pos + (z + 1) } s) d (BitVec.ofNat 64 z)))) ∧
    (32 ≤ left → x % 2 ^ 32 = 0 → exec (.blzc d) s =
      .next (ends (ws (Claims.slotNow { b with pos := b.pos + 32 } s) d 32))) ∧
    (b.outPos + m ≤ 8 * b.outLen → ∃ t, exec (.bput a n) s = .next (ends t) ∧
      Claims.wroteBits s (Claims.slotNow { b with outPos := b.outPos + m } s) t r b (rs s a).toNat m) ∧
    (8 * b.outLen < b.outPos + m → b.chunk = none → exec (.bput a n) s = misuse) ∧
    (∀ f, 8 * b.outLen < b.outPos + m → b.chunk = some f →
      exec (.bput a n) s = .next (ends (Claims.chunkFails s f 0xFFFF_FFFE))) ∧
    (b.outPos % 8 = 0 → exec (.bflush d) s = .next (ends (ws s d (BitVec.ofNat 64 (b.outPos / 8))))) ∧
    (b.outPos % 8 ≠ 0 → ∃ t, exec (.bflush d) s = .next (ends t) ∧
      Claims.wroteBits s (ws (Claims.slotNow { b with outPos := (b.outPos + 7) / 8 * 8 } s) d
        (BitVec.ofNat 64 ((b.outPos + 7) / 8))) t r b 0 (8 - b.outPos % 8)) ∧
    (let t := (rs s a).toNat
     let l := Claims.scratchNum s.mem core t 2
     let e := Claims.scratchNum s.mem core (t + 2 + 2 * (x % 2 ^ l)) 2
     let fits := t % 2 = 0 ∧ 1 ≤ l ∧ l ≤ 12 ∧ t + 2 + 2 * 2 ^ l ≤ size
     (t % 2 ≠ 0 → exec (.bhuf d a) s = .next (takeTrap { cause := 0x06, val := rs s a } s)) ∧
     (t % 2 = 0 → size < t + 2 → exec (.bhuf d a) s = .next (takeTrap { cause := 0x04, val := rs s a } s)) ∧
     (t % 2 = 0 → t + 2 ≤ size → (l = 0 ∨ 12 < l) → exec (.bhuf d a) s = .next (takeTrap { cause := 0x02, val := rs s a } s)) ∧
     (fits → 1 ≤ e / 2 ^ 12 → e / 2 ^ 12 ≤ l → e / 2 ^ 12 ≤ left → exec (.bhuf d a) s =
       .next (ends (ws (Claims.slotNow { b with pos := b.pos + e / 2 ^ 12 } s) d (BitVec.ofNat 64 (e % 2 ^ 12))))) ∧
     (∀ f, fits → (e / 2 ^ 12 = 0 ∨ l < e / 2 ^ 12) → b.chunk = some f → exec (.bhuf d a) s =
       .next (ends (ws (Claims.chunkFails s f 0xFFFF_FFFD) d (BitVec.ofNat 64 (e % 2 ^ 12))))) ∧
     (fits → (e / 2 ^ 12 = 0 ∨ l < e / 2 ^ 12) → b.chunk = none → exec (.bhuf d a) s = misuse)) ∧
    (b.chunk = none → exec (.bfail a) s = misuse) ∧
    (∀ f, b.chunk = some f → exec (.bfail a) s =
      .next (ends (closeSlot core (Claims.chunkFails s f ((rs s a).setWidth 32)))))) ∧
  (∀ (d : BitVec 5) (s : State), homeIdx s.cx.key = 11 → atHome s →
    let core := homeCore s.cx.key
    let s1 := closeSlot core s
    let last := (getCore s core).bits.map BitSlot.counter
    (∀ n, nextSlot s1 core last = some n → exec (.bnext d) s =
      .next (ends (ws (Claims.slotNow (openSlot s1 core n).1 s1) d (openSlot s1 core n).2))) ∧
    (nextSlot s1 core last = none → exec (.bnext d) s = .next (ends (ws s1 d (BitVec.allOnes 64)))) ∧
    (∀ r, getRing s core (getCore s core).bitsRing = some r → (getCore s core).bits = none → (getCore s core).closed = [] →
      1 ≤ r.count → r.count ≤ 256 → r.head < Claims.wrapOf r.count → s1 = s ∧
        nextSlot s1 core last = if Claims.filledOf r = 0 then none else some r.head))

namespace Sys2Proof.Claims

/-- An instruction of the MMA group: its kind, accumulator, the two ring handles, the record's register (none: MZERO), the
modifier bits as R100 places them, and G among them (R98, R100). -/
def matrixRow : Instr → Option (MKind × BitVec 2 × BitVec 4 × BitVec 4 × BitVec 5 × BitVec 8 × Bool)
  | .mma c a b sh n e z g r k j t => some (.mma, c, a, b, sh, BitVec.ofBoolListLE [t, j, k, r, g, z, e, n], g)
  | .mmaj c a b sh n e z g r k j t => some (.mmaj, c, a, b, sh, BitVec.ofBoolListLE [t, j, k, r, g, z, e, n], g)
  | .mmas c a sh n z g r k t => some (.mmas, c, a, 0, sh, BitVec.ofBoolListLE [t, false, k, r, g, z, false, n], g)
  | .mlda c sh g => some (.mlda, c, 0, 0, sh, if g then 16 else 0, g)
  | .msta c sh g r => some (.msta, c, 0, 0, sh, (if g then 16 else 0) + (if r then 8 else 0), g)
  | .mzero c g => some (.mzero, c, 0, 0, 0, if g then 16 else 0, g)
  | _ => none

/-- The queue of the context's home core. -/
def queueOf (s : State) : List MOp := (getCore s (homeCore s.cx.key)).mq

/-- The operation behind all others of its core, with what it captured at issue (R262). -/
def withMatrix (s : State) (kind : MKind) (acc : BitVec 2) (qa qb : BitVec 4) (mods : BitVec 8) (v : Word) (shape : Shape) : State :=
  let c := s.cx
  let o : MOp :=
    { id := s.nextId, kind := kind, acc := acc.toNat, qa := qa.toNat, qb := qb.toNat, mods := mods, recOff := v, shape := shape
      segs := c.g, rmode := c.rmode, key := c.key, pour := c.pour, tenant := c.tenant.toNat, gen := c.gen }
  updCore { s with nextId := s.nextId + 1 } (homeCore c.key) (fun k => entered { k with mstall := k.mstall ++ [o] })

/-- The context handles a row of an operation that is in the queue (R269, R274). -/
def handlesRow (s : State) : Prop := ∃ op m, s.cx.row = some (op, m) ∧ ∃ o ∈ queueOf s, o.id = op

/-- Bits of a row that belong to the operation's N columns (R260, R275). -/
def rowBits (o : MOp) : Nat := (if o.shape.fmtAcc = 9 then 64 else 32) * o.shape.n

end Sys2Proof.Claims

/-- The MMA group and MSYS at issue (R262, R269, R275, R280). Logs 33 (what a release waits for) and 71 (an operation that is
waited for again; the window's own checks at issue) are the model's choices. -/
def Obligations.MatrixInstructions : Prop :=
  (∀ (i : Instr) (kind : MKind) (acc : BitVec 2) (qa qb : BitVec 4) (sh : BitVec 5) (mods : BitVec 8) (g : Bool) (s : State),
    Claims.matrixRow i = some (kind, acc, qa, qb, sh, mods, g) → atHome s → (∀ m, s.cx.mopAt = some m → m.2 ≠ s.cx.pc) →
    let core := homeCore s.cx.key
    let v := rs s sh
    let shape : Shape := BitVec.ofNat 512 (Claims.scratchNum s.mem core v.toNat 64)
    (kind ≠ .mzero → (v.toNat % 64 ≠ 0 ∨ scratchSize (getCore s core) < v.toNat + 64) →
      exec i s = .next (takeTrap { cause := 0x13, val := v } s)) ∧
    (kind ≠ .mzero → v.toNat % 64 = 0 → v.toNat + 64 ≤ scratchSize (getCore s core) →
      (∀ o, badField kind (mods.getLsbD 3) shape = some o →
        exec i s = .next (takeTrap { cause := 0x13, val := v, extra := BitVec.ofNat 32 o } s)) ∧
      (badField kind (mods.getLsbD 3) shape = none → kind = .mma ∨ kind = .mmaj ∨ kind = .mmas →
        comboOk kind shape.fmtA shape.fmtB shape.fmtAcc = false → exec i s = .next (takeTrap { cause := 0x02, val := v } s))) ∧
    (∀ f, shapeFault s kind (some qa.toNat) (some qb.toNat) (mods.getLsbD 3) v = some f →
      exec i s = .next (takeTrap { cause := f.cause, val := f.val, extra := BitVec.ofNat 32 f.extra } s)) ∧
    (kind = .mzero → shapeFault s kind (some qa.toNat) (some qb.toNat) (mods.getLsbD 3) v = none) ∧
    (shapeFault s kind (some qa.toNat) (some qb.toNat) (mods.getLsbD 3) v = none →
      (Claims.handlesRow s → exec i s = .next (takeTrap { cause := 0x03, val := (encode i).setWidth 64 } s)) ∧
      (¬ Claims.handlesRow s →
        let s1 := Claims.withMatrix s kind acc qa qb mods v (if kind = .mzero then 0 else shape)
        let kept := Claims.issuedBy (some (s.nextId, s.cx.pc)) s1
        let ahead := (getCore s core).mstall.length + (Claims.queueOf s).length
        (ahead < 8 → g = true → exec i s = .next (ends (Claims.issuedBy none s1))) ∧
        (ahead < 8 → g = false → exec i s = .next (Claims.waitsForEvent (.matrixOp s.nextId) kept)) ∧
        (8 ≤ ahead → exec i s = .next (Claims.stalls (.matrixQueue s.nextId) kept))))) ∧
  (∀ (i : Instr) (kind : MKind) (acc : BitVec 2) (qa qb : BitVec 4) (sh : BitVec 5) (mods : BitVec 8) (g : Bool) (s : State) (n : Nat),
    Claims.matrixRow i = some (kind, acc, qa, qb, sh, mods, g) → atHome s → s.cx.mopAt = some (n, s.cx.pc) →
    let stalled := ∃ c ∈ s.cores, ∃ o ∈ c.2.mstall, o.id = n
    let queued := ∃ c ∈ s.cores, ∃ o ∈ c.2.mq, o.id = n
    (stalled → exec i s = .next (Claims.stalls (.matrixQueue n) s)) ∧
    (¬ stalled → g = false → queued → exec i s = .next (Claims.waitsForEvent (.matrixOp n) s)) ∧
    (¬ stalled → g = true ∨ ¬ queued → exec i s = .next (ends (Claims.issuedBy none s)))) ∧
  (∀ (d a n : BitVec 5) (s : State), atHome s →
    ((∀ c ∈ s.cores, ∀ o ∈ c.2.mq ++ c.2.mstall, o.key ≠ s.cx.key) → exec .mwait s = .next (ends s)) ∧
    ((∃ c ∈ s.cores, ∃ o ∈ c.2.mq ++ c.2.mstall, o.key = s.cx.key) → exec .mwait s = .next (Claims.waits .matrixAll s)) ∧
    ((Claims.queueOf s).length ≤ 8 → exec (.mstat d) s = .next (ends (ws s d (BitVec.ofNat 64
      (ownOps s s.cx.key % 16 + 2 ^ 4 * (Claims.queueOf s).length +
        2 ^ 8 * min 255 (match Claims.queueOf s with
          | o :: _ => (o.rows.filter (fun r => o.phase = .draining ∧ r.st = .waiting)).length
          | [] => 0)))))) ∧
    (5 < n.toNat → exec (.mchk d a n) s = .next (takeTrap { cause := 0x02, val := n.setWidth 64 } s)) ∧
    (n.toNat ≤ 5 →
      (shapeFault s (kindOf n.toNat) none none false (rs s a) = none → exec (.mchk d a n) s = .next (ends (ws s d 0))) ∧
      (∀ f, shapeFault s (kindOf n.toNat) none none false (rs s a) = some f → exec (.mchk d a n) s =
        .next (ends (ws s d (BitVec.ofNat 64 (f.cause.toNat + 256 * f.extra))))))) ∧
  (∀ (d a : BitVec 4) (s : State),
    (heldRow s = none →
      exec (.drrow d) s = .next (takeTrap { cause := 0x03, val := (encode (.drrow d)).setWidth 64 } s) ∧
      exec (.drdone a) s = .next (takeTrap { cause := 0x03, val := (encode (.drdone a)).setWidth 64 } s)) ∧
    (∀ o r, heldRow s = some (o, r) → atHome s → Claims.unbound s →
      exec (.drrow d) s = .next (ends (wv (wv s d (BitVec.ofNat 2048 (r.data.toNat % 2 ^ Claims.rowBits o))) (d + 1)
        (BitVec.ofNat 2048 (r.data.toNat % 2 ^ Claims.rowBits o / 2 ^ 2048)))) ∧
      (Claims.released s → exec (.drdone a) s = .next (ends (updCx (updMop s (opCore s o.id) o.id (fun q =>
        { q with rows := q.rows.map (fun x => if x.m = r.m then
            { x with data := BitVec.ofNat 4096 (((rv s a).toNat + (rv s (a + 1)).toNat * 2 ^ 2048) % 2 ^ Claims.rowBits o)
                     st := .released }
            else x) })) (fun c => { c with row := some (o.id, none) })))) ∧
      (¬ Claims.released s → exec (.drdone a) s = .next (Claims.stalls (.ownDrips 0 (2 ^ 48)) s))))

namespace Sys2Proof.Claims

/-- The checks of R291 on a record's pointer pass: the record is at `t`, and `avail` bytes lie below the limit. -/
def recordAt (g : Seg) (ptr : Word) (write : Bool) (t : Tgt) (avail : Nat) : Prop :=
  let off := ptr.toNat % 2 ^ 48
  tagOk ptr = true ∧ ptr.toNat / 2 ^ 59 = 19 ∧ off % 16 = 0 ∧ (g.kind = 0 ∨ g.kind = 2) ∧ g.rights.getLsbD 0 = true ∧
    (write = true → g.rights.getLsbD 1 = true) ∧ off + 16 ≤ g.limit.toNat ∧
    t = .glob ((g.base.toNat + off) % 2 ^ 48) ∧ avail = g.limit.toNat - off

/-- The record at `t` can be read, with this verdict: the failure of R287, or the record. -/
def recordReads (s : State) (t : Tgt) (avail : Nat) (x : SeedRead) (s' : State) : Prop :=
  ∃ h s1, reads s t 16 h s1 ∧
    ((∃ f, headFault h = some f ∧ x = .error f ∧ s' = s1) ∨
      (headFault h = none ∧ ∃ l, reads s1 t (recBytes h avail) l s' ∧ x = seedVerdict l))

/-- One step of the generator (R285). -/
def gen (x : W32) : W32 := x.ushiftRight 1 ^^^ (if x.getLsbD 0 then 0x8020_0003 else 0)

/-- A state after `n` steps. -/
def genAfter (x : W32) : Nat → W32
  | 0 => x
  | n + 1 => gen (genAfter x n)

/-- The first `n` outputs as a number, the first lowest. -/
def genBits (x : W32) (n : Nat) : Nat := ((List.range n).map (fun i => if (genAfter x i).getLsbD 0 then 2 ^ i else 0)).sum

/-- Lane `l` of a register. -/
def lane (v : VReg) (l : Nat) : Nat := v.toNat / 2 ^ (32 * l) % 2 ^ 32

/-- The best candidate of SSRCH, as lanes: the first nonzero seed of the greatest score; a NaN is below every number (R293). -/
def best (u : Nat → Nat) (score : Nat → Nat) (x : VReg) : Prop :=
  ((∀ l < 64, u l = 0) → x = ofElems 32 [0, 0, 64]) ∧
    (∀ l < 64, u l ≠ 0 → (∀ m < 64, u m ≠ 0 → scoreRank (score m) ≤ scoreRank (score l)) →
      (∀ m < l, u m ≠ 0 → scoreRank (score m) < scoreRank (score l)) → x = ofElems 32 [u l, score l, l])

end Sys2Proof.Claims

/-- The SEED group (R285 to R297). -/
def Obligations.SeedInstructions : Prop :=
  (∀ (d a n : BitVec 5) (s : State), atHome s →
    exec (.lfsr d a n) s = .next (ends (ws s d (BitVec.ofNat 64
      ((Claims.genAfter ((rs s a).setWidth 32) (n.toNat + 1)).toNat +
        Claims.genBits ((rs s a).setWidth 32) (n.toNat + 1) * 2 ^ 32))))) ∧
  (∀ (i : Instr) (d a b : BitVec 5) (v : BitVec 4) (g : BitVec 3) (s : State), atHome s →
    (i = .schk d a g ∨ i = .sexp v a b g ∨ i = .sproj v a b g ∨ i = .srec d a b g) →
    let ptr := rs s a
    let off := ptr.toNat % 2 ^ 48
    let g' := rg s g
    let noRight := (g'.kind ≠ 0 ∧ g'.kind ≠ 2) ∨ g'.rights.getLsbD 0 = false ∨
      (i = .srec d a b g ∧ (g'.kind ≠ 2 ∨ g'.rights.getLsbD 1 = false))
    (tagOk ptr = false ∨ ptr.toNat / 2 ^ 59 ≠ 19 → exec i s = .next (takeTrap { cause := 0x07, val := ptr } s)) ∧
    (tagOk ptr = true → ptr.toNat / 2 ^ 59 = 19 →
      (off % 16 ≠ 0 → exec i s = .next (takeTrap { cause := 0x06, val := ptr } s)) ∧
      (off % 16 = 0 → noRight → exec i s = .next (takeTrap { cause := 0x05, val := ptr } s)) ∧
      (off % 16 = 0 → ¬ noRight → g'.limit.toNat < off + 16 → exec i s = .next (takeTrap { cause := 0x04, val := ptr } s)))) ∧
  (∀ (d a b : BitVec 5) (v : BitVec 4) (g : BitVec 3) (s s' : State) (t : Tgt) (avail : Nat) (x : SeedRead), atHome s →
    Claims.unbound s → Claims.recordAt (rg s g) (rs s a) false t avail → Claims.recordReads s t avail x s' →
    (∀ r, x = .ok r → exec (.schk d a g) s = .next (ends (ws s' d 0))) ∧
    (∀ reason index, x = .error (reason, index) →
      (exec (.schk d a g) s =
        .next (ends (ws s' d (BitVec.ofNat 64 (reason % 2 ^ 8 + index % 2 ^ 16 * 2 ^ 8))))) ∧
      exec (.sexp v a b g) s = .next (takeTrap { cause := 0x14, val := rs s a, extra := BitVec.ofNat 32 reason } s') ∧
      exec (.sproj v a b g) s = .next (takeTrap { cause := 0x14, val := rs s a, extra := BitVec.ofNat 32 reason } s')) ∧
    (∀ r, x = .ok r →
      (r.k * r.n ≤ (rs s b).toNat → exec (.sexp v a b g) s = .next (takeTrap { cause := 0x02, val := rs s b } s')) ∧
      ((rs s b).toNat < r.k * r.n →
        let l := (r.weights (rs s b).toNat (min 64 (r.k * r.n - (rs s b).toNat))).map (fit .fp32 (modeOf s.cx.rmode))
        exec (.sexp v a b g) s =
          .next (ends (flag (l.foldl (fun f e => f ||| e.flags) 0) (wv s' v (ofElems 32 (l.map FR.bits)))))) ∧
      (let off := (rs s b).toNat % 2 ^ 32
       let j := (rs s b).toNat / 2 ^ 32
       (r.j ≤ j → exec (.sproj v a b g) s = .next (takeTrap { cause := 0x02, val := rs s b } s')) ∧
       (j < r.j → j < 16 → off % 4 = 0 → off + 4 * (r.k * r.n) ≤ scratchSize (getCore s (homeCore s.cx.key)) →
         let tile := tileAt s' (homeCore s.cx.key) off (r.k * r.n)
         let l := (List.range (seedGroups r.n)).map (groupGrad r tile (lfsrBits (r.k * r.n) (r.seeds.getD j 0)))
         exec (.sproj v a b g) s =
           .next (ends (flag (l.foldl (fun f e => f ||| e.flags) 0) (wv s' v (ofElems 32 (l.map FR.bits))))))))) ∧
  (∀ (d a : BitVec 4) (b : BitVec 5) (s : State) (off k n : Nat), atHome s → Claims.unbound s →
    (rs s b).toNat = off + k * 2 ^ 32 + n * 2 ^ 40 → off < 2 ^ 32 → 1 ≤ k → k ≤ 128 → 1 ≤ n → n ≤ 128 → off % 4 = 0 →
    off + 4 * (k * n) ≤ scratchSize (getCore s (homeCore s.cx.key)) →
    let tile := tileAt s (homeCore s.cx.key) off (k * n)
    let score (l : Nat) : FR := candScore tile (BitVec.ofNat 32 (Claims.lane (rv s a) l))
    ∃ x, Claims.best (Claims.lane (rv s a)) (fun l => (score l).bits) x ∧ exec (.ssrch d a b) s = .next (ends
      (flag (((List.range 64).map score).foldl (fun f e => f ||| e.flags) 0)
        (wv (wv s d (ofElems 32 ((List.range 64).map (fun l => (score l).bits)))) (d + 1) x)))) ∧
  (∀ (d a b : BitVec 5) (g : BitVec 3) (s s1 s2 : State) (va avail : Nat) (r : SeedRec) (m : List Byte), atHome s →
    (rg s g).kind = 2 → Claims.recordAt (rg s g) (rs s a) true (.glob va) avail → (rs s b).toNat % 16 = 0 →
    let core := homeCore s.cx.key
    let size := seedSize r.n r.j
    let l := rdScratch s core (rs s b).toNat size
    (rs s b).toNat + size ≤ scratchSize (getCore s core) → headFault (l.take 16) = none → seedVerdict l = .ok r → size ≤ avail →
    Claims.touched s va size true s1 →
    gread s1 s.cx.tenant.toNat va 4 = .ok m s2 →
    (natOfBytes m ≠ 0 → exec (.srec d a b g) s = .next (takeTrap { cause := 0x05, val := rs s a } s2)) ∧
    (∀ s3 s4 s5, natOfBytes m = 0 → gwrite s2 s.cx.tenant.toNat va (bytesOfNat 4 0xFFFF_FFFF) 1 s.cx.who = .ok s3 →
      gwrite s3 s.cx.tenant.toNat (va + 4) (l.drop 4) 3 s.cx.who = .ok s4 →
      gwrite s4 s.cx.tenant.toNat va (bytesOfNat 4 0x5EED_0E9A) 3 s.cx.who = .ok s5 →
      exec (.srec d a b g) s = .next (ends (ws s5 d (BitVec.ofNat 64 size)))))

namespace Sys2Proof.Claims

/-- The 16 bytes of a segment (R23). -/
def segBytes (g : Seg) : List Byte :=
  bytesOfNat 6 g.base.toNat ++ bytesOfNat 6 g.limit.toNat ++ bytesOfNat 1 g.rights.toNat ++ bytesOfNat 1 g.kind.toNat ++
    List.replicate 2 0

/-- The 64 bytes describe the range `r`, and `r` keeps the limits of R301. -/
def describes (l : List Byte) (r : Range) : Prop :=
  l = bytesOfNat 8 r.base ++ bytesOfNat 8 r.len ++ bytesOfNat 8 r.state ++ bytesOfNat 4 r.entry ++ bytesOfNat 1 r.blog ++
      List.replicate 3 0 ++ segBytes r.code ++ segBytes r.data ∧
    12 ≤ r.blog ∧ r.blog ≤ 20 ∧ r.base % 2 ^ r.blog = 0 ∧ 0 < r.len ∧ r.len % 2 ^ r.blog = 0 ∧ r.base + r.len ≤ 2 ^ 48 ∧
    r.state % 8 = 0 ∧ r.state < 2 ^ 48 ∧ r.entry < 2 ^ 32 ∧ r.entry % 4 = 0 ∧ r.code.kind = 0 ∧ r.code.rights.getLsbD 2 = true ∧
    r.data.kind = 0

/-- Two intervals share no address. -/
def apart (a n b m : Nat) : Prop := a + n ≤ b ∨ b + m ≤ a

/-- A new range keeps apart from its own table, from the ranges of the tenant and from their tables (R301). -/
def rangeFits (l : Tbl Range) (r : Range) : Prop :=
  apart r.state (tableBytes r) r.base r.len ∧
    ∀ x ∈ l, apart r.base r.len x.2.base x.2.len ∧ apart r.state (tableBytes r) x.2.base x.2.len ∧
      apart x.2.state (tableBytes x.2) r.base r.len

/-- The ranges of the context's tenant. -/
def rangesOf (s : State) : Tbl Range := (getTenant s s.cx.tenant.toNat).ranges

/-- The memory operand gN[sA] of R312 gives the address `va`. -/
def procAt (s : State) (a : BitVec 5) (g : BitVec 3) (va : Nat) : Prop :=
  atHome s ∧ tagOk (rs s a) = true ∧ (rg s g).kind = 0 ∧ segGives (rg s g) ((rs s a).toNat % 2 ^ 48) 1 rightR false (.glob va)

/-- The update or the read of a fill-state table meets an absent page at `x`: the work pauses as engine work of the context
(engine 8), which waits for its resume kettle and then executes the instruction again (R146, R302). -/
def tableWait (x : Nat) (s : State) : State :=
  engineFault { s with cx := { s.cx with st := .waiting .tablePage, again := true, stalled := false, met := none } }
    s.cx.key s.cx.tenant.toNat (BitVec.ofNat 64 x) 8

/-- The state of the block that holds `va`, from its two bits of the fill-state table: the block's number and state (R301, R302). -/
def blockAt (s : State) (r : Range) (va b st : Nat) (s' : State) : Prop :=
  b = (va - r.base) / 2 ^ r.blog ∧
    ∃ x, gread s s.cx.tenant.toNat (r.state + b / 4) 1 = .ok [x] s' ∧ st = x.toNat / 2 ^ (2 * (b % 4)) % 4

end Sys2Proof.Claims

/-- The PROC group (R301 to R314). That a mere read of a fill-state table whose page is absent pauses as engine work of the context
(`Claims.tableWait`) is the model's choice (log 20), as is what an error on the path of a table does, for which R315 has no cause
(log 77): the clauses speak of reads that succeed. -/
def Obligations.ProceduralInstructions : Prop :=
  (∀ (i : Instr) (d a b : BitVec 5) (g : BitVec 3) (s : State),
    i = .prdef d a g ∨ i = .prstate d a g ∨ i = .previct d a b g ∨ i = .prtouch a g → atHome s →
    (tagOk (rs s a) = false → exec i s = .next (takeTrap { cause := 0x07, val := rs s a } s)) ∧
    (tagOk (rs s a) = true → (rg s g).kind ≠ 0 → exec i s = .next (takeTrap { cause := 0x05, val := rs s a } s))) ∧
  (∀ (d a : BitVec 5) (g : BitVec 3) (s s1 : State) (va : Nat) (l : List Byte), Claims.procAt s a g va →
    ((rs s a).toNat % 64 ≠ 0 → exec (.prdef d a g) s = .next (takeTrap { cause := 0x06, val := rs s a } s)) ∧
    ((rs s a).toNat % 64 = 0 → dripsAt s s.cx.key va 64 = false → gread s s.cx.tenant.toNat va 64 = .ok l s1 →
      ((∀ r, Claims.describes l r → ¬ Claims.rangeFits (Claims.rangesOf s) r) →
        exec (.prdef d a g) s = .next (takeTrap { cause := 0x02, val := rs s a } s1)) ∧
      ((∀ n < 16, tget (Claims.rangesOf s) n ≠ none) →
        exec (.prdef d a g) s = .next (takeTrap { cause := 0x02, val := rs s a } s1)) ∧
      (∀ r n, Claims.describes l r → Claims.rangeFits (Claims.rangesOf s) r → n < 16 → tget (Claims.rangesOf s) n = none →
        (∀ m < n, tget (Claims.rangesOf s) m ≠ none) →
        exec (.prdef d a g) s = .next (ends (ws (updTenant s1 s.cx.tenant.toNat (fun t =>
          { t with ranges := tput t.ranges n r })) d (BitVec.ofNat 64 n)))))) ∧
  (∀ (a : BitVec 5) (s : State), atHome s →
    (16 ≤ (rs s a).toNat ∨ tget (Claims.rangesOf s) (rs s a).toNat = none →
      exec (.prdel a) s = .next (takeTrap { cause := 0x02, val := rs s a } s)) ∧
    (∀ r, (rs s a).toNat < 16 → tget (Claims.rangesOf s) (rs s a).toNat = some r →
      (rangeFilling s s.cx.tenant.toNat (rs s a).toNat r = .ok true →
        exec (.prdel a) s = .next (Claims.waits (.rangeIdle (rs s a).toNat) s)) ∧
      (rangeFilling s s.cx.tenant.toNat (rs s a).toNat r = .ok false → exec (.prdel a) s =
        .next (ends (updTenant s s.cx.tenant.toNat (fun t => { t with ranges := tdel t.ranges (rs s a).toNat })))) ∧
      (∀ x, rangeFilling s s.cx.tenant.toNat (rs s a).toNat r = .error (.page x) → exec (.prdel a) s = .next (Claims.tableWait x s)))) ∧
  (∀ (d a b : BitVec 5) (g : BitVec 3) (s : State) (va : Nat), Claims.procAt s a g va →
    rangeAt s s.cx.tenant.toNat va = none →
    (exec (.prstate d a g) s = .next (ends (ws s d 0))) ∧
    (exec (.prtouch a g) s = .next (ends s)) ∧
    exec (.previct d a b g) s = .next (takeTrap { cause := 0x02, val := rs s a } s)) ∧
  (∀ (d a b : BitVec 5) (g : BitVec 3) (s : State) (va n : Nat) (r : Range), Claims.procAt s a g va →
    rangeAt s s.cx.tenant.toNat va = some (n, r) →
    (∀ x, blockState s s.cx.tenant.toNat r (r.blockOf va) = .page x →
      exec (.prstate d a g) s = .next (Claims.tableWait x s) ∧ exec (.prtouch a g) s = .next (Claims.tableWait x s)) ∧
    (∀ blk st s1, Claims.blockAt s r va blk st s1 →
      exec (.prstate d a g) s =
        .next (ends (ws s1 d (BitVec.ofNat 64 (blk * 2 ^ 32 + 2 ^ 15 + n * 2 ^ 8 + st)))) ∧
      (st ≠ 0 → exec (.prtouch a g) s = .next (ends s1)) ∧
      (∀ s2, st = 0 → startFill s1 s.cx.tenant.toNat n r blk (s.cx.depth + 1) [] s.cx.key s.cx.core (homeCore s.cx.key) = .ok s2 →
        exec (.prtouch a g) s = .next (ends s2)) ∧
      ((rs s b).toNat = 1 → blk < r.len / 2 ^ r.blog →
        (st = 0 ∨ st = 1 → exec (.previct d a b g) s = .next (ends (ws s1 d 0))) ∧
        (∀ s2, st = 2 ∨ st = 3 → setBlockState s1 s.cx.tenant.toNat r blk 0 s.cx.who = .ok s2 →
          exec (.previct d a b g) s = .next (ends (ws s2 d 1))))) ∧
    ((rs s b = 0 ∨ 2 ^ 32 ≤ (rs s b).toNat) →
      exec (.previct d a b g) s = .next (takeTrap { cause := 0x02, val := rs s b } s)) ∧
    (∀ count s1, 1 ≤ (rs s b).toNat → (rs s b).toNat < 2 ^ 32 →
      evict s.cx.tenant.toNat s.cx.who r (min (rs s b).toNat (r.len / 2 ^ r.blog - r.blockOf va)) (r.blockOf va) 0 s = .ok count s1 →
      exec (.previct d a b g) s = .next (ends (ws s1 d (BitVec.ofNat 64 count))))) ∧
  (∀ (a : BitVec 5) (s : State), s.cx.gen = none →
    exec .prdone s = .next (takeTrap { cause := 0x03, val := (encode .prdone).setWidth 64 } s) ∧
    exec (.prfail a) s = .next (takeTrap { cause := 0x03, val := (encode (.prfail a)).setWidth 64 } s)) ∧
  (∀ (a : BitVec 5) (s : State) (h : GenHold), s.cx.gen = some h → atHome s →
    (engineBusy s s.cx.key = true → exec .prdone s = .next (Claims.waits .engines s)) ∧
    (∀ r s1, engineBusy s s.cx.key = false → Claims.released s → s.cx.deferred = [] →
      tget (getTenant s h.tenant).ranges h.range = some r → setBlockState s h.tenant r h.block 2 s.cx.who = .ok s1 →
      exec .prdone s = .next (ends (fillDone h s1)) ∧
        (fillDone h s1).cx.gen = none ∧
        ∀ f ∈ (fillDone h s1).fills, ¬ (f.tenant = h.tenant ∧ f.range = h.range ∧ f.block = h.block)) ∧
    (∀ ch rest, engineBusy s s.cx.key = false → Claims.released s → s.cx.deferred = ch :: rest → s.cx.inh = false →
      let s1 := updCx s (fun c => { c with deferred := rest })
      exec .prdone s = .next (takeTrap ch (failFills (chainBound s1)
        [{ tenant := h.tenant, range := h.range, block := h.block, cause := 0x09,
           code := BitVec.ofNat 32 (0xFFFF * 2 ^ 16 + ch.cause.toNat), key := s.cx.key }]
        (updCx s1 (fun c => { c with gen := none }))))) ∧
    (exec (.prfail a) s = .next (ends (failFills (chainBound s)
      [{ tenant := h.tenant, range := h.range, block := h.block, cause := 0x09, code := (rs s a).setWidth 32, key := s.cx.key }]
      (updCx s (fun c => { c with gen := none }))))))

namespace Sys2Proof.Claims

/-- The instructions of RAST without a handle: they execute on the equipped core of the square the context stands in (R317). -/
def nearRow (i : Instr) : Prop :=
  (∃ d a n, i = .rview d a n) ∨ (∃ d a b, i = .rbox d a b) ∨ (∃ d a b, i = .rtri d a b) ∨ (∃ d a b, i = .rbin d a b) ∨
    (∃ d a b l, i = .ordtok d a b l) ∨ (∃ d a, i = .ordb d a) ∨ (∃ d a, i = .orde d a) ∨ ∃ d a p o, i = .blnda d a p o

/-- Where a RAST instruction executes (R317, R322, R324): handles of views have 21 bits, those of setups 32. -/
def rastTarget (s : State) (i : Instr) (core : Nat) : Prop :=
  (nearRow i ∧ core = coreAt (coreX s.cx.core ||| 1) (coreY s.cx.core ||| 1)) ∨
    (∃ d v b n p, i = .rsetup d v b n p ∧ (rs s b).toNat < 2 ^ 21 ∧ core = coreAt ((rs s b).toNat % 64) ((rs s b).toNat / 64 % 32) ∧
      (rs s b).toNat / 64 % 32 < 24 ∧ equipped core = true) ∨
    (∃ d a p f e, i = .rcover d a p f e ∧ (rs s a).toNat < 2 ^ 32 ∧
      core = coreAt ((rs s a).toNat % 64) ((rs s a).toNat / 64 % 32) ∧ (rs s a).toNat / 64 % 32 < 24 ∧ equipped core = true)

/-- The order domain in S[d] has been read, with no drip of the context's own under way to it (R331): its record is at `m.va`, its bytes from 8 on are zero (R329). -/
def domainReads (s : State) (d : BitVec 5) (m : Domain) (s' : State) : Prop :=
  let p := rs s d
  tagOk p = true ∧ p.toNat % 64 = 0 ∧ (rg s 0).kind = 0 ∧
    segGives (rg s 0) (p.toNat % 2 ^ 48) 64 rightA true (.glob m.va) ∧ m.next < 2 ^ 32 ∧ m.opened < 2 ^ 32 ∧
    dripsAt s s.cx.key m.va 64 = false ∧
    gread s s.cx.tenant.toNat m.va 64 = .ok (bytesOfNat 4 m.next ++ bytesOfNat 4 m.opened ++ List.replicate 56 0) s'

/-- NEXT and OPEN are written: `s'` is the state (R330). -/
def domainWrites (s : State) (va next opened : Nat) (s' : State) : Prop :=
  gwrite s s.cx.tenant.toNat va (bytesOfNat 4 next ++ bytesOfNat 4 opened) 1 s.cx.who = .ok s'

/-- The token of R330: key and sequence number from S[a], mask from S[b]. -/
def tokenOf (s : State) (m : Domain) (x mask : Word) : Token :=
  { tenant := s.cx.tenant.toNat, dom := BitVec.ofNat 48 m.va, pour := s.cx.pour, key := x.toNat % 2 ^ 32
    seq := x.toNat / 2 ^ 32 % 2 ^ 31, mask := mask }

/-- The live view of a selected view, and whether it was rejected (R322). -/
def liveView : ViewRes → Option SView
  | .live v => some v
  | _ => none
def viewRejected : ViewRes → Bool
  | .rejected => true
  | _ => false

/-- The context's pour holds the token `t` that S[a] names, open in the domain. -/
def holdsToken (s : State) (m : Domain) (x : Word) (t : Token) : Prop :=
  (domTokens s m.va).find? (fun u => u.pour == s.cx.pour && u.key == x.toNat % 2 ^ 32 && u.seq == x.toNat / 2 ^ 32 % 2 ^ 31) = some t

end Sys2Proof.Claims

/-- The RAST group (R317 to R331). Logs 33, 38, 39, 40 and 77 are the model's choices. -/
def Obligations.RasterInstructions : Prop :=
  (∀ (i : Instr) (s : State) (core : Nat), Claims.rastTarget s i core → s.cx.core ≠ core →
    (∀ k b rest, s.cx.binds = (k, b) :: rest → exec i s = .next (takeTrap { cause := 0x11, val := BitVec.ofNat 64 b.ring } s)) ∧
    (Claims.unbound s → (homeIdx s.cx.key = 11 ∨ (s.cx.away = true ∧ s.cx.held = true)) →
      exec i s = .next (takeTrap { cause := 0x0B, val := (encode i).setWidth 64 } s)) ∧
    (Claims.unbound s → homeIdx s.cx.key ≠ 11 → ¬ (s.cx.away = true ∧ s.cx.held = true) → Claims.released s →
      exec i s = .next (Claims.leaves s core))) ∧
  (∀ (d a b : BitVec 5) (v : BitVec 4) (x y f : Bool) (p : BitVec 3) (w : BitVec 4) (s : State),
    ((2 ^ 21 ≤ (rs s b).toNat ∨ 24 ≤ (rs s b).toNat / 64 % 32 ∨ equipped (handleCore (rs s b)) = false) →
      exec (.rsetup d v b x y) s = .next (takeTrap { cause := 0x02, val := rs s b } s)) ∧
    ((2 ^ 32 ≤ (rs s a).toNat ∨ 24 ≤ (rs s a).toNat / 64 % 32 ∨ equipped (handleCore (rs s a)) = false) →
      exec (.rcover d a p f w) s = .next (takeTrap { cause := 0x02, val := rs s a } s))) ∧
  (∀ (d a : BitVec 5) (n : BitVec 2) (s : State) (t : Tgt), Claims.rastTarget s (.rview d a n) s.cx.core →
    tagOk (rs s a) = true → (rs s a).toNat % 2 ^ 48 % 256 = 0 →
    Claims.segGives (rg s 0) ((rs s a).toNat % 2 ^ 48) 10240 rightR false t →
    (∀ k, tget (getCore s s.cx.core).banks n.toNat = some k → k.pour ≠ s.cx.pour →
      exec (.rview d a n) s = .next (Claims.waits (.viewBank n.toNat) s)) ∧
    (∀ l s1, (∀ k, tget (getCore s s.cx.core).banks n.toNat = some k → k.pour = s.cx.pour) → reads s t 10240 l s1 →
      let table : BitVec 81920 := BitVec.ofNat 81920 (natOfBytes l)
      exec (.rview d a n) s = .next (ends (ws (updCore s1 s.cx.core (fun c =>
        { c with banks := tput c.banks n.toNat { pour := s.cx.pour, table := table } })) d
        (BitVec.ofNat 64 (coreX s.cx.core + coreY s.cx.core * 2 ^ 6 + n.toNat * 2 ^ 11 +
          ((List.range 128).filter (fun j => viewValid (viewEntry table j))).length * 2 ^ 13)))))) ∧
  (∀ (d b : BitVec 5) (v : BitVec 4) (cn cp : Bool) (s : State), Claims.rastTarget s (.rsetup d v b cn cp) s.cx.core →
    Claims.unbound s →
    let bank := tget (getCore s s.cx.core).banks ((rs s b).toNat / 2 ^ 11 % 4)
    ((∀ k, bank = some k → k.pour ≠ s.cx.pour) →
      exec (.rsetup d v b cn cp) s = .next (takeTrap { cause := 0x05, val := rs s b } s)) ∧
    (∀ k, bank = some k → k.pour = s.cx.pour → takeSetup s s.cx.core = none →
      exec (.rsetup d v b cn cp) s = .next (Claims.waits .setupSlot s)) ∧
    (∀ k slot, bank = some k → k.pour = s.cx.pour → takeSetup s s.cx.core = some slot →
      let res := (selectedViews (rv s v)).map (setupView k.table (rv s v) cp cn)
      let views := res.filterMap Claims.liveView
      exec (.rsetup d v b cn cp) s = .next (ends (ws (updCore s s.cx.core (fun c =>
        { c with setups := tput c.setups slot { pour := s.cx.pour, key := s.cx.key, views := views } })) d
        (BitVec.ofNat 64 (coreX s.cx.core + coreY s.cx.core * 2 ^ 6 + slot * 2 ^ 11 + views.length * 2 ^ 16 +
          (res.filter Claims.viewRejected).length * 2 ^ 24)))))) ∧
  (∀ (d a : BitVec 5) (p : BitVec 3) (f : Bool) (e : BitVec 4) (s : State), Claims.rastTarget s (.rcover d a p f e) s.cx.core →
    Claims.unbound s →
    let slot := (rs s a).toNat / 2 ^ 11 % 32
    let put (w : VReg × VReg) (s : State) : State := if f then wv (wv s e w.1) (e + 1) w.2 else s
    ((∀ x, tget (getCore s s.cx.core).setups slot = some x → ¬ (x.key = s.cx.key ∧ x.pour = s.cx.pour)) →
      exec (.rcover d a p f e) s = .next (takeTrap { cause := 0x02, val := rs s a } s)) ∧
    (∀ x, tget (getCore s s.cx.core).setups slot = some x → x.key = s.cx.key → x.pour = s.cx.pour →
      (nextBlock x.views x.visited = none → exec (.rcover d a p f e) s = .next (ends (put (0, 0)
        (wp (ws (updCore s s.cx.core (fun c => { c with setups := tdel c.setups slot })) d 0) p 0)))) ∧
      (∀ b views n, nextBlock x.views x.visited = some (b, views, n) →
        b.mask ≠ 0 ∧ (∀ i < 64, b.mask.getLsbD i = b.v.covers (8 * b.bx + i % 8) (8 * b.by_ + i / 8)) ∧
        exec (.rcover d a p f e) s = .next (ends (put b.weights (wp (ws (updCore s s.cx.core (fun c =>
          { c with setups := tput c.setups slot { x with views := views, visited := n } })) d
          (BitVec.ofNat 64 (b.v.view + b.bx * 2 ^ 7 + b.by_ * 2 ^ 18 + 2 ^ 63))) p b.mask)))))) ∧
  (∀ (d b : BitVec 5) (x y z : BitVec 4) (s : State), Claims.rastTarget s (.rbox d x y) s.cx.core → Claims.unbound s →
    exec (.rbox d x y) s = .next (ends (ws s d (boxWord (rv s x) (rv s y)))) ∧
    exec (.rtri z x y) s = .next (ends (wv s z (triLanes (rv s x) (rv s y)))) ∧
    (∀ view e, (rs s b).toNat = view + e * 2 ^ 8 → view < 128 → e < 256 → -126 ≤ Claims.signed 8 e →
      exec (.rbin d x b) s = .next (ends (ws s d (BitVec.ofNat 64 (binKey (rv s x) view (Claims.signed 8 e)))))) ∧
    (∀ view e, (rs s b).toNat = view + e * 2 ^ 8 → view < 128 → e < 256 → Claims.signed 8 e < -126 →
      exec (.rbin d x b) s = .next (takeTrap { cause := 0x02, val := rs s b } s))) ∧
  (∀ (d a b : BitVec 5) (last : Bool) (s s1 : State) (m : Domain), Claims.rastTarget s (.ordb d a) s.cx.core →
    Claims.domainReads s d m s1 →
    let x := rs s a
    let t := Claims.tokenOf s m x (rs s b)
    let taken := ∃ u ∈ domTokens s m.va, u.key = t.key ∧ u.seq = t.seq
    ((t.seq < m.next ∨ taken ∨ (rs s b = 0 ∧ last = false)) →
      exec (.ordtok d a b last) s = .next (takeTrap { cause := 0x02, val := x } s1)) ∧
    ((m.next < t.seq ∨ (m.next = t.seq ∧ 4096 ≤ (getCore s (homeOf m.va)).tokens.length)) → ¬ taken →
      ¬ (rs s b = 0 ∧ last = false) →
      exec (.ordtok d a b last) s = .next (Claims.waits (.ordSeq (BitVec.ofNat 48 m.va) t.seq) s1)) ∧
    (∀ s2, m.next = t.seq → ¬ taken → ¬ (rs s b = 0 ∧ last = false) → (getCore s (homeOf m.va)).tokens.length < 4096 →
      Claims.domainWrites s1 m.va (if last then t.seq + 1 else m.next) (if rs s b = 0 then m.opened else m.opened + 1) s2 →
      exec (.ordtok d a b last) s = .next (ends (if rs s b = 0 then s2
        else updCore s2 (homeOf m.va) (fun c => { c with tokens := c.tokens ++ [t] })))) ∧
    ((∀ u, ¬ Claims.holdsToken s m x u) →
      exec (.ordb d a) s = .next (takeTrap { cause := 0x02, val := x } s1) ∧
      exec (.orde d a) s = .next (takeTrap { cause := 0x02, val := x } s1)) ∧
    (∀ u, Claims.holdsToken s m x u →
      ((∃ w ∈ domTokens s m.va, w.key = u.key ∧ w.seq < u.seq ∧ w.mask &&& u.mask ≠ 0) →
        exec (.ordb d a) s = .next (Claims.waits (.ordBlock u.dom u.key u.seq u.mask) s1)) ∧
      ((∀ w ∈ domTokens s m.va, w.key = u.key → w.seq < u.seq → w.mask &&& u.mask = 0) →
        exec (.ordb d a) s = .next (ends s1)) ∧
      (∀ s2, Claims.released s → Claims.domainWrites s1 m.va m.next (m.opened + 2 ^ 32 - 1) s2 →
        exec (.orde d a) s = .next (ends (closeToken s2 u))))) ∧
  (∀ (d : BitVec 4) (a : BitVec 5) (p o : BitVec 3) (s : State), Claims.rastTarget s (.blnda d a p o) s.cx.core → Claims.unbound s →
    let ptr := rs s a
    let g := if (rg s 0).kind = 0 then rg s 0 else { rg s 0 with rights := 0 }
    (tagOk ptr = false → exec (.blnda d a p o) s = .next (takeTrap { cause := 0x07, val := ptr } s)) ∧
    (tagOk ptr = true → blendOp (ptr.toNat / 2 ^ 59) o = none →
      exec (.blnda d a p o) s = .next (takeTrap { cause := 0x02, val := ptr } s)) ∧
    (∀ n op, tagOk ptr = true → blendOp (ptr.toNat / 2 ^ 59) o = some (n, op) →
      let lanes := ((List.range 64).filter (fun j => (rp s p).getLsbD j)).map (fun j =>
        (j, (BitVec.ofInt 48 (ptr.toNat % 2 ^ 48 + Claims.signed 32 (Claims.lane (rv s (d + 1)) j))).toNat))
      (∀ c val, elemsCheck s g ptr (8 * n) rightA true lanes = .error (c, val) →
        exec (.blnda d a p o) s = .next (takeTrap { cause := c, val := val } s)) ∧
      (∀ l, elemsCheck s g ptr (8 * n) rightA true lanes = .ok l →
        exec (.blnda d a p o) s =
          .next (ends (sendLanes n op (fun j => Claims.lane (rv s d) j % 2 ^ (8 * n)) l s)))))

namespace Sys2Proof.Claims

/-- The context's tenant. -/
def tenantOf (s : State) : Nat := s.cx.tenant.toNat

/-- The LCB of the context's tenant is read and keeps R338, the ids are below its CAP. -/
def lcbReads (s : State) (ids : List Nat) (m : Lcb) (s' : State) : Prop := lcbOf (tenantOf s) s = .ok m s' ∧ ∀ i ∈ ids, i < m.cap

/-- The same, and the layer `id` is live (R343, R352). -/
def layerReads (s : State) (id : Nat) (m : Lcb) (l : Layer) (s' : State) : Prop :=
  lcbReads s [id] m s' ∧ findLayer s' (tenantOf s) id = some l

/-- An id field of R346. -/
def idField (x : Word) (i : Nat) : Nat := x.toNat / 2 ^ (16 * i) % 2 ^ 16

/-- The instructions of LAYER on one live layer, with the register that names it (R346). -/
def oneLayer : Instr → Option (BitVec 5)
  | .ldefRet a => some a
  | .lerr _ a _ => some a
  | .lreq _ a _ => some a
  | _ => none

/-- Two 32-bit numbers as a word. -/
def twoWords (lo hi : Nat) : Word := BitVec.ofNat 64 (lo + hi * 2 ^ 32)

/-- A count that saturates (R350). -/
def counted (x : W32) (n : Nat) : W32 := BitVec.ofNat 32 (min (x.toNat + n) (2 ^ 32 - 1))

/-- A mask of 64 bits. -/
def maskOf (f : Nat → Bool) : Word := BitVec.ofNat 64 (((List.range 64).map (fun i => if f i then 2 ^ i else 0)).sum)

/-- The layer of a child: what it takes from its parent (R354). -/
def childOf (p k : Layer) : Layer :=
  { k with age := p.age, frame := p.frame, err := p.err, price := p.price, deps := p.deps, order := p.order
           parent := BitVec.ofNat 32 (p.id + 0xFFFF * 2 ^ 16) }

/-- The place of an FP32 pattern that is no NaN among the others: -0 is below +0 (R170). -/
def floatRank (x : W32) : Int := if x.toNat < 2 ^ 31 then x.toNat else 2 ^ 31 - 1 - x.toNat

/-- The lesser and the greater of two FP32 patterns as AMINF and AMAXF have it: a NaN gives the canonical NaN (R170, R355). -/
def lesserF (x y : W32) : W32 :=
  if (Fmt.fp32.value x.toNat).isNaN || (Fmt.fp32.value y.toNat).isNaN then 0x7FC0_0000 else if floatRank y < floatRank x then y else x
def greaterF (x y : W32) : W32 :=
  if (Fmt.fp32.value x.toNat).isNaN || (Fmt.fp32.value y.toNat).isNaN then 0x7FC0_0000 else if floatRank x < floatRank y then y else x

/-- Entry `i` of the dependencies of `p` followed by those of `q`, and whether entry `x` is heavier than `y` (R355). -/
def depEntry (p q : Layer) (i : Nat) : Dep :=
  (p.deps.toList ++ q.deps.toList).getD i { caster := 0xFFFF_FFFF, weight := 0, x := 0, y := 0 }
def outweighs (x y : Dep) : Bool := ltV (Fmt.fp32.value y.weight.toNat) (Fmt.fp32.value x.weight.toNat)

/-- The entry goes before another: it is heavier, or as heavy and the earlier (R355). -/
def goesFirst (e : Nat → Dep) (i j : Nat) : Bool := outweighs (e i) (e j) || (!outweighs (e j) (e i) && decide (i < j))

/-- The entry is occupied and the first of its caster's (R355). -/
def standsFor (e : Nat → Dep) (i : Nat) : Bool :=
  decide ((e i).caster ≠ 0xFFFF_FFFF) &&
    (List.range 8).all (fun j => decide (j = i) || decide ((e j).caster ≠ (e i).caster) || goesFirst e i j)

/-- The dependencies of a merged layer: one entry per caster, the four heaviest, at their own places (R355; the places are log 70). -/
def unionDeps (p q : Layer) (n : Nat) : Dep :=
  let e := depEntry p q
  let kept := (List.range 8).filter (fun i => standsFor e i &&
    decide (((List.range 8).filter (fun j => standsFor e j && goesFirst e j i && decide (j ≠ i))).length < 4))
  (kept.map e).getD n { caster := 0xFFFF_FFFF, weight := 0, x := 0, y := 0 }

/-- The layer that LMERGE makes of the layer `k` that LDEF.DEF would make (R355). -/
def mergedLayer (p q k : Layer) : Layer :=
  { k with
    age := BitVec.ofNat 32 (max p.age.toNat q.age.toNat)
    err := greaterF p.err q.err
    price := lesserF p.price q.price
    frame := BitVec.ofNat 32 (min p.frame.toNat q.frame.toNat)
    order := BitVec.ofNat 32 (min p.order.toNat q.order.toNat)
    deps := #v[unionDeps p q 0, unionDeps p q 1, unionDeps p q 2, unionDeps p q 3]
    parent := BitVec.ofNat 32 (p.id + q.id * 2 ^ 16) }

/-- No occupied dependency of the layer has a NaN as its weight: LDEP writes none (R353). -/
def weighed (l : Layer) : Prop := ∀ d ∈ l.deps.toList, (Fmt.fp32.value d.weight.toNat).isNaN = false

/-- The unit writes the descriptor of a layer back, live or not (R340). -/
def writesBack (m : Lcb) (l : Layer) (live : Bool) (s s' : State) : Prop :=
  gwrite s l.tenant (m.table.toNat + 256 * l.id) (l.bytes live) 3 s.cx.who = .ok s'

/-- The fields that a layer takes from its descriptor (R340, R347). -/
def asDescribed (d : List Byte) (l : Layer) : Prop :=
  let n := natOfBytes d
  l.group.toNat = n / 2 ^ 40 % 2 ^ 8 ∧ l.order.toNat = n / 2 ^ 64 % 2 ^ 32 ∧ l.w = n / 2 ^ 96 % 2 ^ 16 ∧
    l.h = n / 2 ^ 112 % 2 ^ 16 ∧ l.planes.toNat = n / 2 ^ 128 % 2 ^ 64 ∧ l.price.toNat = n / 2 ^ 224 % 2 ^ 32 ∧
    l.cpose.toNat = n / 2 ^ 704 % 2 ^ 384 ∧ 1 ≤ l.w ∧ l.w ≤ 4096 ∧ 1 ≤ l.h ∧ l.h ≤ 4096 ∧ l.planes.toNat % 64 = 0

/-- A layer as it is retired, with its child word (R354, R355). -/
def goneLayer (l : Layer) (a b : Nat) : Layer := { l with pending := false, child := BitVec.ofNat 32 (a + b * 2 ^ 16) }

end Sys2Proof.Claims

/-- LAYER on live layers (R346 to R356). LAYER: layers made and retired (R347, R348, R354, R355). Logs 37, 39 and 41 (corners,
the sign of a zero, a close that an abandoned LFRAME began), 66 (LMERGE of a layer with itself) and 70 (header bytes that are not
looked at, the places of a merged layer's dependencies) are the model's choices. -/
def Obligations.LayerInstructions : Prop :=
  ((∀ (i : Instr) (a : BitVec 5) (s : State), Claims.oneLayer i = some a → atHome s →
    let x := rs s a
    let id := Claims.idField x 0
    (2 ^ 16 ≤ x.toNat → exec i s = .next (takeTrap { cause := 0x02, val := x } s)) ∧
    (x.toNat < 2 ^ 16 →
      ((getTenant s (Claims.tenantOf s)).lcb = 0 → exec i s = .next (takeTrap { cause := 0x18, val := 0xFFFF_FFFF } s)) ∧
      (∀ m s1, lcbOf (Claims.tenantOf s) s = .ok m s1 → (m.cap ≤ id ∨ findLayer s1 (Claims.tenantOf s) id = none) →
        exec i s = .next (takeTrap { cause := 0x18, val := BitVec.ofNat 64 id } s)))) ∧
  (∀ (d a b n : BitVec 5) (s s1 : State) (m : Lcb) (l : Layer), atHome s → (rs s a).toNat < 2 ^ 16 →
    Claims.layerReads s (rs s a).toNat m l s1 →
    let y := rs s b
    let v := Fmt.fp32.value (y.toNat % 2 ^ 32)
    (n.toNat ≤ 4 → exec (.lerr d a n) s = .next (ends (ws s1 d (
      if n = 0 then Claims.twoWords l.err.toNat l.price.toNat
      else if n = 1 then Claims.twoWords l.age.toNat l.frame.toNat
      else if n = 2 then Claims.twoWords l.holes.toNat l.samples.toNat
      else if n = 3 then Claims.twoWords (l.group.toNat * 2 ^ 8 + (if l.pending then 2 else 0) + 1) l.order.toNat
      else Claims.twoWords l.parent.toNat l.child.toNat)))) ∧
    (2 ^ 32 ≤ y.toNat ∨ v.isNaN = true ∨ ltV v (.fin false 0 0) = true →
      exec (.lprice a b) s = .next (takeTrap { cause := 0x02, val := y } s)) ∧
    (y.toNat < 2 ^ 32 → v.isNaN = false → ltV v (.fin false 0 0) = false →
      exec (.lprice a b) s = .next (ends (putLayer s1 { l with price := y.setWidth 32 }))) ∧
    (2 ^ 40 ≤ y.toNat → exec (.lorder a b) s = .next (takeTrap { cause := 0x02, val := y } s)) ∧
    (y.toNat < 2 ^ 40 → exec (.lorder a b) s =
      .next (ends (putLayer s1 { l with order := y.setWidth 32, group := BitVec.ofNat 8 (y.toNat / 2 ^ 32) }))) ∧
    exec (.lreq d a true) s = .next (ends (ws (putLayer s1 { l with pending := false }) d (if l.pending then 1 else 0))) ∧
    (l.pending = true → exec (.lreq d a false) s = .next (ends (ws s1 d 0))) ∧
    (∀ s2, l.pending = false → postRec l.tenant m (reqRecord m l) s1.cx.key s1 = .ok false s2 →
      exec (.lreq d a false) s = .next (ends (ws s2 d 0))) ∧
    (∀ s2, l.pending = false → postRec l.tenant m (reqRecord m l) s1.cx.key s1 = .ok true s2 →
      exec (.lreq d a false) s =
        .next (ends (ws (notifyLcb l.tenant m s.cx.key (putLayer s2 { l with pending := true })) d 1)))) ∧
  (∀ (d a b : BitVec 5) (s s1 : State) (m : Lcb) (l c : Layer) (x y : Nat), atHome s →
    (rs s a).toNat = x + y * 2 ^ 16 → x < 2 ^ 16 → y < 2 ^ 16 →
    let w := rs s b
    (2 ^ 32 ≤ w.toNat ∨ finNonNeg (Fmt.fp32.value (w.toNat % 2 ^ 32)) = false →
      exec (.ldep d a b) s = .next (takeTrap { cause := 0x02, val := w } s)) ∧
    (w.toNat < 2 ^ 32 → finNonNeg (Fmt.fp32.value w.toNat) = true →
      (x = y → exec (.ldep d a b) s = .next (takeTrap { cause := 0x02, val := rs s a } s)) ∧
      (x ≠ y → Claims.lcbReads s [x, y] m s1 → findLayer s1 (Claims.tenantOf s) x = some l →
        findLayer s1 (Claims.tenantOf s) y = some c →
        let r := depUpdate l.deps (BitVec.ofNat 32 y) (w.setWidth 32) (snapBits m.view (some c))
        exec (.ldep d a b) s = .next (ends (ws (putLayer s1 { l with deps := r.1 }) d (BitVec.ofNat 64 r.2)))))) ∧
  (∀ (d b : BitVec 4) (a : BitVec 5) (p : BitVec 3) (s s1 s2 s3 : State) (m : Lcb) (l : Layer) (pr planes : List Byte), atHome s →
    Claims.unbound s → (rs s a).toNat < 2 ^ 16 → Claims.layerReads s (rs s a).toNat m l s1 →
    reads s1 (.glob (l.planes.toNat % 2 ^ 48)) 64 pr s2 →
    reads s2 (.glob ((byteAt pr (8 * (byteAt pr 24 8 % 2)) 8 + 256) % 2 ^ 48)) (8 * l.w * l.h) planes s3 →
    let got (i : Nat) := sampleAt l planes (Claims.lane (rv s b) i)
    let holes := ((List.range 64).filter (fun i => (got i).isNone)).length
    exec (.lwarp d a b p) s = .next (ends (wp (wv (wv
      (putLayer s3 { l with holes := Claims.counted l.holes holes, samples := Claims.counted l.samples 64 })
      d (ofElems 32 ((List.range 64).map (fun i => match got i with
        | some x => x.1
        | none => 0))))
      (d + 1) (ofElems 32 ((List.range 64).map (fun i => match got i with
        | some x => x.2
        | none => 0x7F80_0000))))
      p (Claims.maskOf (fun i => (got i).isNone))))) ∧
  (∀ (d a b : BitVec 4) (p : BitVec 3) (s : State), atHome s → Claims.unbound s →
    let near (i : Nat) := nearerB (Claims.lane (rv s (a + 1)) i) (Claims.lane (rv s (b + 1)) i)
    let mix (x y : VReg) := ofElems 32 ((List.range 64).map (fun i => if near i then Claims.lane y i else Claims.lane x i))
    exec (.lres d a b p) s = .next (ends (wp (wv (wv s d (mix (rv s a) (rv s b)))
      (d + 1) (mix (rv s (a + 1)) (rv s (b + 1)))) p (Claims.maskOf near))))) ∧
  ((∀ (a b : BitVec 5) (s : State), atHome s → (rs s a).toNat < 2 ^ 16 →
    let id := (rs s a).toNat
    let t := Claims.tenantOf s
    (∀ m s1 v, Claims.lcbReads s [id] m s1 → acceptLayer t id m [] [] s1 = .bad v →
      exec (.ldefDef a) s = .next (takeTrap { cause := 0x18, val := BitVec.ofNat 64 v } s)) ∧
    (∀ m s1 l, Claims.layerReads s id m l s1 →
      exec (.ldefDef a) s = .next (takeTrap { cause := 0x18, val := BitVec.ofNat 64 id } s)) ∧
    (∀ m s1 l s2, Claims.lcbReads s [id] m s1 → acceptLayer t id m [] [] s1 = .ok l s2 →
      l.tenant = t ∧ l.id = id ∧ l.pending = false ∧ l.age = 0 ∧ l.err = 0 ∧ l.holes = 0 ∧ l.samples = 0 ∧ l.frame = m.frame ∧
        l.parent = 0xFFFF_FFFF ∧ l.child = 0xFFFF_FFFF ∧
        (∀ d s0, gread s1 t (m.table.toNat + 256 * id) 256 = .ok d s0 → Claims.asDescribed d l) ∧
        exec (.ldefDef a) s = .next (ends (putLayer s2 l))) ∧
    (∀ m s1 l s2, Claims.layerReads s id m l s1 →
      gwrite s1 l.tenant (m.table.toNat + 256 * l.id) (({ l with pending := false } : Layer).bytes false) 3 s.cx.who = .ok s2 →
      exec (.ldefRet a) s = .next (ends (retireLayer s2 l.tenant l.id))) ∧
    (∀ m l t q s1 s2, tagOk (rs s b) = true → (rs s b).toNat % 4 = 0 →
      Claims.segGives (rg s 0) ((rs s b).toNat % 2 ^ 48) 48 rightR false t → Claims.layerReads s id m l s1 →
      reads s1 t 48 q s2 →
      exec (.ldefPose a b) s = .next (ends (putLayer s2 { l with cpose := BitVec.ofNat 384 (natOfBytes q) })))) ∧
  (∀ (a b : BitVec 5) (s s1 s2 s3 s4 s5 s6 : State) (m : Lcb) (p c1 c2 : Nat) (l k1 k2 : Layer), atHome s →
    (rs s a).toNat = p → (rs s b).toNat = c1 + c2 * 2 ^ 16 → p < 2 ^ 16 → c1 < 2 ^ 16 → c2 < 2 ^ 16 →
    Claims.lcbReads s [p, c1, c2] m s1 → findLayer s1 (Claims.tenantOf s) p = some l → c1 ≠ p → c2 ≠ p → c2 ≠ c1 →
    acceptLayer (Claims.tenantOf s) c1 m [p] [] s1 = .ok k1 s2 → acceptLayer (Claims.tenantOf s) c2 m [p] [k1] s2 = .ok k2 s3 →
    Claims.writesBack m (Claims.goneLayer l c1 c2) false
      (putLayer (putLayer (retireLayer s3 l.tenant p) (Claims.childOf l k1)) (Claims.childOf l k2)) s4 →
    Claims.writesBack m (Claims.childOf l k1) true s4 s5 → Claims.writesBack m (Claims.childOf l k2) true s5 s6 →
    exec (.lsplit a b) s = .next (ends s6)) ∧
  (∀ (a b : BitVec 5) (s s1 s2 s3 s4 s5 : State) (m : Lcb) (p q c : Nat) (lp lq k : Layer), atHome s → Claims.weighed lp →
    Claims.weighed lq →
    (rs s a).toNat = p + q * 2 ^ 16 → (rs s b).toNat = c → p < 2 ^ 16 → q < 2 ^ 16 → c < 2 ^ 16 →
    Claims.lcbReads s [p, q, c] m s1 → findLayer s1 (Claims.tenantOf s) p = some lp →
    findLayer s1 (Claims.tenantOf s) q = some lq → c ≠ p → c ≠ q →
    acceptLayer (Claims.tenantOf s) c m [p, q] [] s1 = .ok k s2 →
    let r := Claims.mergedLayer lp lq k
    Claims.writesBack m (Claims.goneLayer lp c 0xFFFF) false (putLayer (retireLayer (retireLayer s2 lp.tenant p) lq.tenant q) r) s3 →
    Claims.writesBack m (Claims.goneLayer lq c 0xFFFF) false s3 s4 → Claims.writesBack m r true s4 s5 →
    exec (.lmerge a b) s = .next (ends s5)) ∧
  (∀ (d : BitVec 5) (s : State), atHome s →
    let t := Claims.tenantOf s
    (closeBusy s t = true →
      exec (.lframe d) s = .next (Claims.waits (.lframeTurn s.nextId d) { s with nextId := s.nextId + 1 })) ∧
    (closeBusy s t = false → (getTenant s t).lcb = 0 →
      exec (.lframe d) s = .next (takeTrap { cause := 0x18, val := 0xFFFF_FFFF } s)) ∧
    (∀ m s1 s2, closeBusy s t = false → lcbOf t s = .ok m s1 →
      gwrite s1 t ((getTenant s1 t).lcb.toNat + 12) (bytesOfNat 4 (m.frame + 1).toNat) 3 s.cx.who = .ok s2 →
      exec (.lframe d) s = .next (Claims.waitsForEvent (.lframe d) { s2 with closes := s2.closes ++
        [{ tenant := t, key := s.cx.key, lcb := { m with frame := m.frame + 1 }
           todo := (List.range 8).map (fun u => (s2.layers.filter (fun l => l.tenant == t && l.id % 8 == u)).map Layer.id) }] }))))

namespace Sys2Proof.Claims

/-- A context waits or stalls on a condition (R13). -/
def waitsOn (c : Ctx) (w : Cond) : Prop := c.st = .waiting w ∨ c.st = .inFlight w

/-- What holds when the wait on some of the conditions of R13 is over, in plain words of the state. -/
def waitOver (s : State) (c : Ctx) : Cond → Prop
  | .kettle k => (getKettle s (homeCore c.key) k).count ≤ 0
  | .ringFilled q n => ∀ r, getRing s (homeCore c.key) q = some r → n ≤ r.filled
  | .ringEmpty q n => ∀ r, getRing s (homeCore c.key) q = some r → n ≤ r.empty
  | .barrier n phase => ∀ b, getBar s (homeCore c.key) n = some b → b.phase ≠ phase
  | .allowance key => tgetD (getCore s c.core).allow key 0 ≠ 0
  | .matrixAll => ∀ x ∈ s.cores, ∀ o ∈ x.2.mq ++ x.2.mstall, o.key ≠ c.key
  | .copyQueue n | .matrixQueue n =>
    (∀ x ∈ s.cores, ∀ o ∈ x.2.cstall, o.id ≠ n) ∧ ∀ x ∈ s.cores, ∀ o ∈ x.2.mstall, o.id ≠ n
  | .helpersFree m => m &&& liveMask s (homeCore c.key) = 0
  | .targetHome key => (getCtx s key).away = false
  | .fullService => s.phase = 2
  | w => condMet s c w = true

/-- An upcall leaves the trap registers of context 0 so: its own resume address, TCAUSE.UP set, the pc at UPVEC (R205). -/
def upcalled (c : Ctx) (u : Upcall) : Ctx :=
  let ch : Charge := { cause := 0x08, val := u.va, engine := u.engine, count := BitVec.ofNat 32 u.reqs.length, reqs := u.reqs }
  { trapRegs c ch with
    tcause := causeWord true true false u.engine 0x08
    frec := { recordOf c ch with up := true }
    pc := offField c.upvec }

/-- Only the context of a key differs, and what an abandoned wait leaves is withdrawn (R203). -/
def onlyCtx (s t : State) (key : Nat) : Prop :=
  (∀ k, k ≠ key → getCtx t k = getCtx s k) ∧ t.mem = s.mem ∧ t.net = s.net ∧ t.pours = s.pours

/-- A helper as it starts (R179): entry, s2, s3, s4, all from context 0 but what a launch sets. -/
def helper (s : State) (core i : Nat) (pc : Addr) (s2 s3 s4 : Word) (h : Ctx) : Prop :=
  let c0 := getCtx s (keyOf core 0)
  h.key = keyOf core i ∧ h.pour = c0.pour ∧ h.st = .ready ∧ h.place = .home ∧ h.pc = pc ∧ h.g = c0.g ∧ h.tvec = c0.tvec ∧
    h.rmode = 0x8 ∧ h.vlive = 0xFFFF ∧ h.tenant = c0.tenant ∧ h.instret = 0 ∧ h.charged = [] ∧ h.deferred = [] ∧
    (∀ r : BitVec 5, h.rs r =
      if r = 2 then s2 else if r = 3 then s3 else if r = 4 then s4
      else if r = 31 then BitVec.ofNat 64 (((c0.rg 2).limit.toNat - 16384 * i) / 16 * 16) else 0) ∧
    (∀ r : BitVec 4, h.rv r = 0) ∧ (∀ r : BitVec 3, r ≠ 0 → h.rp r = 0)

end Sys2Proof.Claims

/-- Events at contexts (R13, R16, R33, R113, R128, R203, R205). Logs 6 and 15 (which word a fetch gives), 14 (events) and 35 (the
fault record) are the model's choices. -/
def Obligations.ContextEvents : Prop :=
  (∀ (s : State) (slot : Nat), pickSlot s s.args.a = some slot →
    let s1 := switchTo s (slotKey s s.args.a slot)
    Claims.fetchDue s1 →
    (s1.cx.fetched = true → exec .instructionFetch s = .next s) ∧
    (s1.cx.fetched = false →
      (∀ w s', Claims.fetches s1 w s' → exec .instructionFetch s =
        .next (updCx s' (fun c => { c with ir := w, fetched := true }))) ∧
      (∀ cause, Claims.fetchTraps s1 cause → exec .instructionFetch s =
        .next (takeTrap { cause := cause, val := s1.cx.pc.setWidth 64, engine := 1 } s1)) ∧
      (∀ a, Claims.fetchPages s1 a → homeIdx s1.cx.key ≠ 0 → ¬ Claims.noHandler s1 → atHome s1 →
        (∀ v ∈ s1.saves, v.key ≠ s1.cx.key) → exec .instructionFetch s = .next (Claims.parked a 1 s1)))) ∧
  (∀ (s : State) (c : Ctx) (w : Cond), getCtx s s.args.a = c → Claims.waitsOn c w → (∀ n d, w ≠ .lframeTurn n d) →
    (c.stopped = false → Claims.waitOver s c w →
      exec .waitWake s = .next (updCtx s s.args.a (fun c => { c with st := .ready, met := metOf s c w }))) ∧
    (c.stopped = true ∨ ¬ Claims.waitOver s c w → exec .waitWake s = .next s)) ∧
  (∀ (s : State) (c : Ctx) (n : Nat) (d : BitVec 5), getCtx s s.args.a = c → c.st = .waiting (.lframeTurn n d) →
    (wakes s c = true → mayIssue s c = true → exec .waitWake s =
      beginClose d (switchTo (updCtx s s.args.a (fun c => { c with st := .ready, again := false })) s.args.a)) ∧
    (wakes s c = false ∨ mayIssue s c = false → exec .waitWake s = .next s)) ∧
  (∀ (s : State) (key : Nat) (c : Ctx) (w : Cond) (ch : Charge) (rest : List Charge), s.args.a = key → getCtx s key = c → c.key = key →
    s.cx.key ≠ key ∨ s.cx = c → homeIdx key ≠ 11 → c.st = .waiting w → c.charged = ch :: rest → mayIssue s c = true →
    c.inh = false →
    (c.tvec &&& offMask ≠ 0 → ∃ t, exec .chargedCauseDeliver s = .next t ∧ Claims.onlyCtx s t key ∧
      getCtx t key = { Claims.trapRegs { c with charged := rest } ch with pc := Claims.offField c.tvec })) ∧
  (∀ (s : State) (c : Ctx), getCtx s s.args.a = c →
    (c.live = true → savedIn s s.args.a = none → exec .storePathError s = .next (putCtx s { c with deferred := c.deferred ++
      [{ cause := if s.args.flag then 0x16 else 0x15, val := s.args.word.setWidth 64, engine := 2, dfr := true
         addr := some (s.args.word.setWidth 64) }] })) ∧
    (c.live = false → exec .storePathError s = .next s)) ∧
  (∀ (s : State) (core : Nat) (c : Ctx) (u : Upcall) (rest : List Upcall), s.args.a = core → getCtx s (keyOf core 0) = c →
    c.key = keyOf core 0 → c.upcalls = u :: rest → c.inh = false → mayIssue s c = true →
    c.place = .home ∨ (∃ x i, c.place = .visitor x i) → (c.again = false ∨ c.stalled = false) →
    c.st = .ready ∨ (∃ w, c.st = .waiting w) →
    ∃ t, exec .upcallDeliver s = .next t ∧ Claims.onlyCtx s t (keyOf core 0) ∧
      getCtx t (keyOf core 0) = Claims.upcalled { c with upcalls := rest } u) ∧
  (∀ (s : State) (r : HReq) (i : Nat), assignable s s.args.a = some (r, i) →
    exec .helperAssign s = .next (serveReq (updCore s s.args.a (fun c => { c with hreqs := c.hreqs.erase r })) s.args.a i r) ∧
      (∀ q ∈ (getCore s s.args.a).hreqs, r.rank ≤ q.rank) ∧ isFree s s.args.a i = true ∧ i ≤ 10 ∧
      (let low := match r with
        | .drain _ _ => 1
        | _ => (getCore s s.args.a).hresv.toNat % 16 + 1
       low ≤ i ∧ ∀ j, low ≤ j → j < i → isFree s s.args.a j = false) ∧
      (∀ k, r = .kettle k → ∃ t h, exec .helperAssign s = .next t ∧ getCtx t (keyOf s.args.a i) = h ∧
        (getKettle t s.args.a k).pending = false ∧
        Claims.helper s s.args.a i ((getKettle s s.args.a k).entry.setWidth 48) (BitVec.ofNat 64 k) (getKettle s s.args.a k).arg
          (BitVec.ofNat 64 (payloads s s.args.a k)) h)) ∧
  (∀ (s : State), assignable s s.args.a = none → exec .helperAssign s = .next s)

namespace Sys2Proof.Claims

/-- The packet whose number the event names is under way, not paused, and first of its sender's packets to its core (R156). -/
def arrives (s : State) (p : Packet) : Prop := arriving s s.args.a = some p ∧ p.paused = false

/-- What a drip or a lane makes of the old word and its operand in `n` bytes: the new word and the flags (R172, R331). -/
def dripNew (op : DripOp) (n : Nat) (rmode : Word) (old y : Nat) : Nat × Flags :=
  let f : Fmt := if n = 2 then .fp16 else if n = 4 then .fp32 else .fp64
  let num (x : Int) : Nat × Flags := ((x % 2 ^ (8 * n)).toNat, 0)
  match op with
  | .add => num (old + y)
  | .band => (Nat.land old y, 0)
  | .bor | .bor8 => (Nat.lor old y, 0)
  | .min => num (Min.min (signed (8 * n) old) (signed (8 * n) y))
  | .max => num (Max.max (signed (8 * n) old) (signed (8 * n) y))
  | .addSat8 => num (Min.min 255 (old + y))
  | .minU8 => num (Min.min old y)
  | .maxU8 => num (Max.max old y)
  | .addF => ((fAdd f (modeOf rmode) old y).bits, (fAdd f (modeOf rmode) old y).flags)
  | .minF => ((fMinMax f (modeOf rmode) false old y).bits, (fMinMax f (modeOf rmode) false old y).flags)
  | .maxF => ((fMinMax f (modeOf rmode) true old y).bits, (fMinMax f (modeOf rmode) true old y).flags)

/-- The state without the packet, whose core has taken it in this clock (R168). -/
def landed (s : State) (p : Packet) : State :=
  { s with net := s.net.filter (fun q => q.id != p.id), arrived := tput s.arrived p.dst p.rank }

/-- The first free inbox slot (R190). -/
def inboxSlot (c : CoreSt) (i : Nat) : Prop :=
  i < 128 ∧ (∀ x ∈ c.inbox, x.slot ≠ i) ∧ ∀ j < i, ∃ x ∈ c.inbox, x.slot = j

/-- A payload stands in the inbox (R190, R192). -/
def withPayload (s : State) (core : Nat) (x : InSlot) : State := updCore s core (fun c => { c with inbox := c.inbox ++ [x] })

/-- The contexts of the barrier on this core have all arrived in its phase (R196). -/
def allHere (b : Barrier) : Prop := ∀ i < 11, b.mask.getLsbD i = true → tget b.last i = some b.phase

/-- The release reaches a core: the next phase begins; the release goes on east, and south in column x0 (R196). -/
def nextPhase (b : Barrier) (core : Nat) : Barrier :=
  { b with
    phase := b.phase + 1, east := false, south := false, sent := false
    relEast := decide (coreX core + 1 < b.x0 + b.w)
    relSouth := decide (coreX core = b.x0 ∧ coreY core + 1 < b.y0 + b.h) }

/-- A partial reaches a core: at the corner, what it completes is released in its clock (R196). -/
def afterPartial (b : Barrier) (core : Nat) : Barrier := if cornerDone b core then nextPhase b core else b

/-- An access of another device to `n` bytes at `va` reaches its home here: it is translated, no block it touches is to be filled
(R166, R382). -/
def comesFrom (s : State) (n va : Nat) (l : List Byte) (s' : State) : Prop :=
  s.args.flag = true ∧ s.args.a = n ∧ 1 ≤ n ∧ n ≤ 256 ∧ va = s.args.word.toNat % 2 ^ 48 ∧ filledAt s s.args.b va = true ∧
    filledAt s s.args.b (va + n - 1) = true ∧ farDev s s.args.b va = none ∧ gread s s.args.b va n = .ok l s'

end Sys2Proof.Claims

/-- Arrivals (R173, R176, R187 to R193, R196, R375). Logs 14, 15, 16, 17, 18, 74 and 76 (events, other devices,
barriers, allowances, the order of one sender's packets and of one clock's arrivals) are the model's choices. -/
def Obligations.ArrivalEvents : Prop :=
  (∀ (s : State) (p : Packet) (w : Word) (payload : Option (BitVec 128)) (src : DecSrc) (t : Nat), Claims.arrives s p →
    p.body = .dec w payload src t → isAnnounce (dwCore w) (dwKet w) = false → logging s (dwCore w) = false →
    s.args.flag = false →
    let core := dwCore w
    let k := dwKet w
    (kettleTenant s core k ≠ some t → exec .kettleDecrement s = .next (discardDec (Claims.landed s p) w src t)) ∧
    (kettleTenant s core k = some t →
      (payload = none → exec .kettleDecrement s = .next (decKettle (Claims.landed s p) core k (dwDec w))) ∧
      (∀ x i, payload = some x → Claims.inboxSlot (getCore s core) i → exec .kettleDecrement s =
        .next (decKettle (Claims.withPayload (Claims.landed s p) core
          { slot := i, sender := decSender src t, kettle := k, len := 16, payload := x.setWidth 384 }) core k (dwDec w))) ∧
      (∀ x, payload = some x → (∀ i, ¬ Claims.inboxSlot (getCore s core) i) → exec .kettleDecrement s = .next s))) ∧
  (∀ (s : State) (p : Packet) (w sender : Word) (payload : BitVec 384) (len t i : Nat), Claims.arrives s p →
    p.body = .msg w payload len sender t → isAnnounce (dwCore w) (dwKet w) = false → logging s (dwCore w) = false →
    s.args.flag = false →
    (kettleTenant s (dwCore w) (dwKet w) ≠ some t →
      exec .messageArrive s = .next (discardDec (Claims.landed s p) w (.message p.src) t)) ∧
    (kettleTenant s (dwCore w) (dwKet w) = some t → Claims.inboxSlot (getCore s (dwCore w)) i → exec .messageArrive s =
      .next (decKettle (Claims.withPayload (Claims.landed s p) (dwCore w)
        { slot := i, sender := sender, kettle := dwKet w, len := len, payload := payload }) (dwCore w) (dwKet w) (dwDec w)))) ∧
  (∀ (s : State) (w : Word) (i : Nat), s.args.flag = true → w = s.args.word.setWidth 64 → dwDev w = 0 → dwOk s w = true →
    isAnnounce (dwCore w) (dwKet w) = false → logging s (dwCore w) = false →
    let t := s.args.b
    (kettleTenant s (dwCore w) (dwKet w) ≠ some t → exec .kettleDecrement s = .next s ∧ exec .messageArrive s = .next s) ∧
    (kettleTenant s (dwCore w) (dwKet w) = some t →
      (s.args.bytes = [] → exec .kettleDecrement s = .next (decKettle s (dwCore w) (dwKet w) (dwDec w))) ∧
      (Claims.inboxSlot (getCore s (dwCore w)) i → s.args.bytes.length ≤ 48 → exec .messageArrive s =
        .next (decKettle (Claims.withPayload s (dwCore w)
          { slot := i, sender := BitVec.ofNat 64 s.args.c, kettle := dwKet w, len := s.args.bytes.length
            payload := BitVec.ofNat 384 (natOfBytes s.args.bytes) }) (dwCore w) (dwKet w) (dwDec w))))) ∧
  (∀ (s : State) (p : Packet) (w : Word) (payload : Option (BitVec 128)) (src : DecSrc) (t : Nat), Claims.arrives s p →
    p.body = .dec w payload src t → isAnnounce (dwCore w) (dwKet w) = true →
    let q := dwKet w - 224
    let n := dwDec w
    let u := tgetD (getTenant s t).queues q {}
    (coreX (dwCore w) ≠ t → exec .announcementArrive s = .next (discardDec (Claims.landed s p) w src t)) ∧
    (coreX (dwCore w) = t → u.base ≠ 0 → ((getTenant s t).enabled = true ∨ u.kept + n ≤ u.slots) →
      exec .announcementArrive s = .next (setTenant (Claims.landed s p) t
        { getTenant s t with queues := tput (getTenant s t).queues q { u with kept := u.kept + n } })) ∧
    (coreX (dwCore w) = t → u.base ≠ 0 → (getTenant s t).enabled = false → u.slots < u.kept + n →
      exec .announcementArrive s = .next (setTenant (Claims.landed s p) t
        { getTenant s t with queues := tput (getTenant s t).queues q { u with kept := u.slots }
                             annDiscarded := (getTenant s t).annDiscarded + 1 }))) ∧
  (∀ (s : State) (p : Packet) (dest n t : Nat), s.args.flag = false → Claims.arrives s p → p.body = .grant dest n t →
    logging s p.dst = false →
    let key := allowKey dest 0 t
    let a := (getCore s p.dst).allow
    (holdsShot s p.dst t = false → exec .allowGrantArrive s = .next (Claims.landed s p)) ∧
    (∀ m, holdsShot s p.dst t = true → tget a key = some m → exec .allowGrantArrive s =
      .next (updCore (Claims.landed s p) p.dst (fun c => { c with allow := tput c.allow key (min 65535 (m + n)) }))) ∧
    (holdsShot s p.dst t = true → tget a key = none → Config.allowEntries ≤ a.length → exec .allowGrantArrive s = .next s) ∧
    (holdsShot s p.dst t = true → tget a key = none → a.length < Config.allowEntries → exec .allowGrantArrive s =
      .next (updCore (Claims.landed s p) p.dst (fun c => { c with allow := tput c.allow key n })))) ∧
  (∀ (s : State) (m : Nat), s.args.flag = true → logging s s.args.a = false → holdsShot s s.args.a s.args.b = true →
    let w : Word := s.args.word.setWidth 64
    let key := allowKey (dwCore w) (dwDev w) s.args.b
    coreRegOk s w = true → dwDev w ≠ 0 → s.args.c < 65536 → tget (getCore s s.args.a).allow key = some m →
    exec .allowGrantArrive s =
      .next (updCore s s.args.a (fun c => { c with allow := tput c.allow key (min 65535 (m + s.args.c)) }))) ∧
  (∀ (s s1 s2 s3 : State) (p : Packet) (op : DripOp) (va : Addr) (n t kind : Nat) (val rmode notify : Word) (l : List Byte),
    s.args.flag = false → Claims.arrives s p → p.body = .drip op va n val rmode notify t kind →
    touchAll s t va.toNat n (.drip p.id) (ctxOf s p.src).gen 0 p.src (homeOf va.toNat) (homeCore p.src) = .pass s1 →
    gread s1 t va.toNat n = .ok l s2 →
    let r := Claims.dripNew op n rmode (natOfBytes l) (val.toNat % 2 ^ (8 * n))
    n = 1 ∨ n = 2 ∨ n = 4 ∨ n = 8 → gwrite s2 t va.toNat (bytesOfNat n r.1) kind p.who = .ok s3 →
    exec .dripArrive s = .next (
      let s4 := Claims.landed (flagFor s3 p.src r.2) p
      if notify = 0 then s4 else postDec s4 p.src notify none (.drip p.src) t)) ∧
  (∀ (s s1 s2 : State) (n va : Nat) (l : List Byte), Claims.comesFrom s n va l s1 →
    (s.args.c = 0 → exec .dripArrive s = .next s1) ∧
    (s.args.c = 1 → s.args.bytes.length = n → gwrite s s.args.b va s.args.bytes farKind (noWho s) = .ok s2 →
      exec .dripArrive s = .next s2)) ∧
  (∀ (s : State) (p : Packet) (key : Nat), Claims.arrives s p → p.body = .migrate key →
    mayMove s key = true → (getCore s p.dst).powered = true →
    (p.dst = homeCore key → exec .migrationArrive s = .next (reachHome (Claims.landed s p) key)) ∧
    (p.dst ≠ homeCore key → exec .migrationArrive s =
      .next (updCore (updCtx (Claims.landed s p) key (fun c => { c with place := .queued p.dst })) p.dst
        (fun c => { c with arrivals := c.arrivals ++ [key] })))) ∧
  (∀ (s : State) (key slot : Nat) (rest : List Nat), (getCore s s.args.a).arrivals = key :: rest → mayMove s key = true →
    12 ≤ slot → slot < 16 → tget (getCore s s.args.a).slots slot = none →
    (∀ i, 12 ≤ i → i < slot → tget (getCore s s.args.a).slots i ≠ none) →
    exec .visitorAdmit s = .next (updCore (updCtx (updCore s s.args.a (fun c => { c with arrivals := rest })) key
      (fun c => { c with place := .visitor s.args.a slot })) s.args.a (fun c => { c with slots := tput c.slots slot key }))) ∧
  (∀ (s : State) (b e : Barrier), getBar s s.args.a s.args.b = some b →
    let core := s.args.a
    let n := s.args.b
    (b.relEast = false → b.relSouth = false → b.sent = false → coreX core = b.x0 → coreY core = b.y0 → Claims.allHere b →
      (b.w = 1 ∨ b.east = true) → (b.h = 1 ∨ b.south = true) → exec .barrierSweepHop s =
        .next (setBar s core n (Claims.nextPhase b core))) ∧
    (b.relEast = false → b.relSouth = false → b.sent = false → coreX core ≠ b.x0 → Claims.allHere b →
      (coreX core + 1 = b.x0 + b.w ∨ b.east = true) → getBar s (core - 1) n = some e → b.same e = true →
      exec .barrierSweepHop s = .next (setBar (setBar s (core - 1) n (Claims.afterPartial { e with east := true } (core - 1))) core n { b with sent := true })) ∧
    (b.relEast = false → b.relSouth = false → b.sent = false → coreX core = b.x0 → coreY core ≠ b.y0 → Claims.allHere b →
      (b.w = 1 ∨ b.east = true) → (coreY core + 1 = b.y0 + b.h ∨ b.south = true) → getBar s (core - 64) n = some e → b.same e = true →
      exec .barrierSweepHop s = .next (setBar (setBar s (core - 64) n (Claims.afterPartial { e with south := true } (core - 64))) core n { b with sent := true })) ∧
    (b.relEast = true → getBar s (core + 1) n = some e → exec .barrierSweepHop s =
      .next (setBar (setBar s (core + 1) n (Claims.nextPhase e (core + 1))) core n { b with relEast := false })) ∧
    (b.relEast = false → b.relSouth = true → getBar s (core + 64) n = some e → exec .barrierSweepHop s =
      .next (setBar (setBar s (core + 64) n (Claims.nextPhase e (core + 64))) core n { b with relSouth := false })))

namespace Sys2Proof.Claims

/-- `n` bytes of a launch record from an offset on (R21). -/
def recField (r : BitVec 512) (off n : Nat) : Nat := r.toNat / 2 ^ (8 * off) % 2 ^ (8 * n)

/-- The lowest code of R25 whose fault a record has, 0 for none; the table is what was read at its address (R23). Where a record
has several faults the model takes the lowest code. -/
def recordFault (s : State) (r : BitVec 512) (table : Option (Vector Seg 8)) : Nat :=
  let f := recField r
  let g3 := (table.map (fun g => vget g 3 {})).getD {}
  let done := BitVec.ofNat 64 (f 32 8)
  let faults : List (Nat × Bool) :=
    [(1, decide (f 52 12 ≠ 0 ∨ f 31 1 / 8 ≠ 0)), (2, decide (f 20 2 < 1 ∨ 64 < f 20 2 ∨ f 22 2 < 1 ∨ 24 < f 22 2)),
      (3, decide (f 24 4 < 1 ∨ 65535 < f 24 4)), (4, decide (7 < f 28 1)), (5, decide (10 < f 29 1)), (6, decide (8 < f 30 1)),
      (7, table.isNone), (8, decide (f 0 8 % 4 ≠ 0 ∨ g3.limit.toNat ≤ f 0 8 ∨ g3.rights.getLsbD 2 = false)),
      (9, decide (done ≠ 0 ∧ dwOk s done = false))]
  ((faults.find? (fun x => x.2)).map Prod.fst).getD 0

/-- A brew number is taken (R25). -/
def numbered (t : Nat) (s : State) : State := updTenant s t (fun x => { x with nextBrew := (x.nextBrew + 1) % 2 ^ 32 })

/-- A completion message with its payload, where the record names a usable destination word (R20). One for another device leaves the
part; where the fabric path there fails it is counted (R382; logs 15 and 75). -/
def completion (s : State) (t num idx status : Nat) (done : Word) : State :=
  if done ≠ 0 ∧ dwOk s done = true then
    if dwDev done = 0 then
      post s schedKey (dwCore done) (.dec done (some (BitVec.ofNat 128 (num + idx * 2 ^ 32 + status * 2 ^ 64))) .counted t)
    else if Config.pathFails s.ticks (dwDev done) = true then
      updTenant s t (fun x => { x with decDiscarded := x.decDiscarded + 1 })
    else s
  else s

/-- What a record leads to, with `code` its fault: a brew, or a completion message, or for code 9 a count or nothing (R25). -/
def judged (s : State) (t q : Nat) (r : BitVec 512) (g : Vector Seg 8) (code : Nat) : State :=
  let num := (getTenant s t).nextBrew
  if code = 0 then
    { numbered t s with brews := s.brews ++ [{ tenant := t, num := num, queue := q, record := r, segs := g }] }
  else if code = 9 then
    if q = 8 then numbered t s else updTenant (numbered t s) t (fun x => { x with rejected9 := x.rejected9 + 1 })
  else completion (numbered t s) t (num % 2 ^ 32) 0xFFFF_FFFF code (BitVec.ofNat 64 (recField r 32 8))

/-- An event completes the instruction a context waits in, with a value for its destination; a context that steps then traps 0x0F
with the instruction in TVAL (R210). -/
def finished (s : State) (key : Nat) (d : BitVec 5) (v : Word) : State :=
  let c := getCtx s key
  let c1 := { c.ws d v with pc := c.pc + 4, instret := c.instret + 1, st := .ready, again := false, met := none }
  if c.stepping = true then
    onCtx (putCtx s { c1 with stepping := false }) key (takeTrap { cause := 0x0F, val := c.pc.setWidth 64 })
  else putCtx s c1

/-- Context 0 of a core as placement leaves it, until it starts (steps 3 to 6 of R28). -/
def control (b : Brew) (p : Pour) (core : Nat) (c : Ctx) : Prop :=
  c.key = keyOf core 0 ∧ c.pour = p.id ∧ c.st = .waiting .start ∧ c.place = .home ∧ c.pc = BitVec.ofNat 48 (recField b.record 0 8) ∧
    c.g = b.segs ∧
    (∀ r : BitVec 5, c.rs r = if r = 2 then BitVec.ofNat 64 p.idx
      else if r = 3 then padd (BitVec.ofNat 64 (recField b.record 8 8)) (BitVec.ofNat 64 (p.idx * recField b.record 16 4))
      else 0) ∧
    (∀ r : BitVec 4, c.rv r = 0) ∧ (∀ r : BitVec 3, r ≠ 0 → c.rp r = 0) ∧ c.rmode = 0x8 ∧ c.vlive = 0xFFFF ∧ c.tvec = 0 ∧
    c.upvec = 0 ∧ c.tcause = 0 ∧ c.tenant = BitVec.ofNat 4 p.tenant ∧
    c.pourCsr = BitVec.ofNat 64 (p.ox + p.oy * 2 ^ 8 + p.w * 2 ^ 16 + p.h * 2 ^ 24 + p.idx * 2 ^ 32) ∧
    (∀ i, (h : i < 4) → c.dbg.getLsbD (4 + i) = p.breaks[i].isSome) ∧
    c.brewCsr = BitVec.ofNat 64 (b.num + recField b.record 28 1 * 2 ^ 32)

/-- The cores of a rectangle (R18). -/
def inRect (w h ox oy k : Nat) : Prop := ox ≤ coreX k ∧ coreX k < ox + w ∧ oy ≤ coreY k ∧ coreY k < oy + h

/-- A shot's core as placement leaves it: nothing of an earlier shot is on it (R28, R29). -/
def freshShot (k : CoreSt) (id lsplit hresv : Nat) : Prop :=
  k.shot = some id ∧ k.starting = true ∧ k.lsplit = BitVec.ofNat 64 lsplit ∧ k.hresv = BitVec.ofNat 64 hresv ∧ k.txwake = 0 ∧
    k.lgroup = 0 ∧ k.kettles = [] ∧ k.inbox = [] ∧ k.rings = [] ∧ k.allow = [] ∧ k.bars = [] ∧ k.mq = [] ∧ k.cq = [] ∧
    k.hreqs = [] ∧ k.zfActive = true ∧ k.zfScratch = 0 ∧ k.zfAcc = 0

/-- The window bytes of a core's scratchpad and accumulator store (R142). -/
def ownByte (core a : Nat) : Prop := winKey (winAddr core 0 0) ≤ a ∧ a < winKey (winAddr core 2 0)

/-- The shot of a core is over (R19): its control context waits in STOP at home, no helper and no transform context is live,
nothing it issued is under way (packets, operations, fills and their late failures, closes; what a saved pour left there is not its),
and no cause or upcall is left that context 0 could still take. -/
def shotOver (s : State) (core : Nat) : Prop :=
  let k := getCore s core
  let c0 := getCtx s (keyOf core 0)
  k.starting = false ∧ c0.st = .waiting .stopShot ∧ c0.place = .home ∧ (∀ i, 1 ≤ i → i ≤ 11 → (getCtx s (keyOf core i)).st = .free) ∧
    k.cq = [] ∧ k.mq = [] ∧ k.cstall = [] ∧ k.mstall = [] ∧ k.hreqs = [] ∧ (∀ x ∈ k.kettles, x.2.pending = false) ∧ (∀ p ∈ s.net, homeCore p.src = core → savedIn s p.src ≠ none) ∧
    (∀ c ∈ s.closes, homeCore c.key = core → savedIn s c.key ≠ none) ∧ (∀ f ∈ s.lateFails, homeCore f.key = core → savedIn s f.key ≠ none) ∧
    (∀ f ∈ s.fills, ∀ y, f.starter = some y → ¬ (k.shot = some y.1 ∧ homeCore y.2 = core)) ∧ (c0.inh = true ∨ (c0.charged = [] ∧ c0.upcalls = []))

/-- The shot of a core has retired. -/
def retired (s : State) (core : Nat) : Prop := (getCore s core).starting = false ∧ (getCtx s (keyOf core 0)).st = .free

end Sys2Proof.Claims

/-- Acceptance, placement, start, zero-fill and retirement (R19 to R29, R36). Which of several faults a rejected record reports is
the model's choice (log 51); how cores are held, and which pour a tenant has next while they are, is logs 43 and 70's reading of R26 and R38. A completion to another device is log 15, a rejected record with a bad DONE word log 44,
zero bytes from placement on and the zero-fill counters log 21, causes held with INH at retirement log 61. -/
def Obligations.PlacementEvents : Prop :=
  (∀ (s s1 s2 : State) (t q : Nat) (u : Queue) (l : List Byte) (g : Vector Seg 8), s.args.a = t → s.args.b = q → q < 8 →
    (getTenant s t).enabled = true → tgetD (getTenant s t).queues q {} = u → u.kept ≠ 0 → u.base ≠ 0 → u.slots ≠ 0 →
    gread s t (u.base.toNat + 64 * (u.next % u.slots)) 64 = .ok l s1 →
    let r : BitVec 512 := BitVec.ofNat 512 (natOfBytes l)
    readTable s1 t (Claims.recField r 40 8) = .ok g s2 →
    exec .acceptRecord s = .next (updTenant (Claims.judged s2 t q r g (Claims.recordFault s1 r (some g))) t (fun x =>
      { x with queues := tput x.queues q { u with next := (u.next + 1) % Claims.wrapOf u.slots, kept := u.kept - 1 } }))) ∧
  (∀ (s s1 : State) (t : Nat) (x : Direct) (rest : List Direct) (g : Vector Seg 8), s.args.a = t → s.args.b = 8 →
    (getTenant s t).enabled = true → (getTenant s t).direct = x :: rest →
    readTable s t (Claims.recField x.record 40 8) = .ok g s1 →
    let code := Claims.recordFault s x.record (some g)
    exec .acceptRecord s = .next (Claims.finished
      (updTenant (Claims.judged s1 t 8 x.record g code) t (fun y => { y with direct := rest })) x.key x.d
      (BitVec.ofNat 64 (if code = 0 then (getTenant s t).nextBrew else 2 ^ 63 + code)))) ∧
  (∀ (s : State) (c : Cand) (ox oy : Nat), nextPlacement s = some (c, ox, oy) →
    let b := c.brew
    let w := b.width
    let h := b.height
    let neverRan : Prop := ∀ q, c.saved = some q → q.image = none
    let id := (c.saved.map Pour.id).getD s.nextId
    ((∀ k, Claims.inRect w h ox oy k → (getCore s k).shot = none) ∧
      ox + w ≤ (if s.phase = 2 then 64 else 32) ∧ oy + h ≤ (if s.phase = 2 then 24 else 12) ∧
      (∀ k, Claims.inRect w h ox oy k → ∀ x ∈ s.heldCores, x.1 = k → x.2 = (b.tenant, b.num, c.idx)) ∧
      (b.even = true → ox % 2 = 0 ∧ oy % 2 = 0) ∧ (getTenant s b.tenant).enabled = true ∧
      (∀ x < 16, (getTenant s x).enabled = true →
        ((x : Int) - (s.lastTenant + 1)) % 16 < ((b.tenant : Int) - (s.lastTenant + 1)) % 16 →
        ∀ c', tenantCand s x = some c' → originOf s c' = none) ∧
      (neverRan → ∀ x y, x < 64 → (y < oy ∨ y = oy ∧ x < ox) → fitsAt s c x y = false)) ∧
    (neverRan → (∀ k, Claims.inRect w h ox oy k → (getCore s k).powered = true) → ∃ t, exec .placePour s = .next t ∧
      t.pours = s.pours.filter (fun q => q.id != id) ++ [
        { id := id, tenant := b.tenant, brew := b.num, idx := c.idx, w := w, h := h, ox := ox, oy := oy
          order := s.nextId, breaks := s.breaks }] ∧
      t.nextId = s.nextId + 1 ∧ t.lastTenant = b.tenant ∧ t.net = s.net ∧ t.tenants = s.tenants ∧
      (∀ k, Claims.inRect w h ox oy k →
        Claims.freshShot (getCore t k) id (Claims.recField b.record 30 1) (Claims.recField b.record 29 1) ∧
        (∃ q, findPour t id = some q ∧ Claims.control b q k (getCtx t (keyOf k 0))) ∧
        (∀ i, 1 ≤ i → i < 12 → (getCtx t (keyOf k i)).st = .free) ∧ (∀ a, Claims.ownByte k a → rdB t.mem a = 0)) ∧
      (∀ k, ¬ Claims.inRect w h ox oy k →
        { getCore t k with slots := (getCore s k).slots, arrivals := (getCore s k).arrivals } = getCore s k) ∧
      (∀ a, (∀ k, Claims.inRect w h ox oy k → ¬ Claims.ownByte k a) → rdB t.mem a = rdB s.mem a))) ∧
  (∀ (s : State) (core : Nat) (p : Pour), s.args.a = core → shotPour s core = some p → (getCore s core).starting = true →
    p.st = .placed → exec .controlContextStart s =
      .next (updCtx (setCore s core { getCore s core with starting := false }) (keyOf core 0) (fun c => { c with st := .ready }))) ∧
  (∀ (s : State) (k : CoreSt), getCore s s.args.a = k →
    let lines := scratchSize k / 128
    let a := min (k.zfScratch + 2) lines
    let b := min (k.zfAcc + 2) 2048
    (k.zfActive = true → exec .zeroFillStep s = .next (setCore s s.args.a
      { k with zfScratch := a, zfAcc := b, zfActive := decide (¬ (a = lines ∧ b = 2048)) })) ∧
    (k.zfActive = false → exec .zeroFillStep s = .next s)) ∧
  (∀ (s : State) (core : Nat) (p : Pour) (b : Brew), s.args.a = core → shotPour s core = some p → p.st = .placed →
    findBrew s p.tenant p.brew = some b → Claims.shotOver s core →
    ∃ t, exec .shotRetire s = .next t ∧ (getCtx t (keyOf core 0)).st = .free ∧ (getCore t core).kettles = [] ∧
      (getCore t core).inbox = [] ∧ (getCore t core).allow = [] ∧
      ((∃ k, Claims.inRect p.w p.h p.ox p.oy k ∧ k ≠ core ∧ ¬ Claims.retired s k) →
        t.pours = s.pours ∧ t.net = s.net ∧ t.brews = s.brews ∧ t.mem = s.mem ∧ (getCore t core).shot = some p.id) ∧
      ((∀ k, Claims.inRect p.w p.h p.ox p.oy k → k ≠ core → Claims.retired s k) → Claims.inRect p.w p.h p.ox p.oy core → p.ox + p.w ≤ 64 →
        t.pours = s.pours.filter (fun x => x.id != p.id) ∧
        findBrew t p.tenant p.brew = some { b with retired := b.retired + 1 } ∧
        (∀ k, Claims.inRect p.w p.h p.ox p.oy k → (getCore t k).shot = none) ∧
        ((∀ c ∈ allCtxs s, c.key ≠ schedKey) → core < 1536 →
          t.net = (Claims.completion s p.tenant (p.brew % 2 ^ 32) p.idx 0 b.dest).net)))

namespace Sys2Proof.Claims

/-- The cut of pour `a` has one unit left, or its units still to record are `k` and then `rest`; no joined operation of them is
in its supply phase, unit `k` is still, and no cause is due there (R212, R213). -/
def cutAt (s : State) (a : Nat) (c : Cut) (p : Pour) (k : Nat) (rest : List Nat) : Prop :=
  s.cuts.find? (fun x => x.pour == a) = some c ∧ findPour s a = some p ∧ c.units = k :: rest ∧ k ∉ rest ∧
    (∀ u ∈ c.units, ∀ o, headOp s u = some o → o.phase ≠ .supply) ∧ unitStill s k = true ∧ deliverDue s k = s

/-- The state without the cut of a pour. -/
def withoutCut (s : State) (a : Nat) : State := { s with cuts := s.cuts.filter (fun x => x.pour != a) }

/-- The state with the dirty lines of a pour's cores written back (R151, R212). -/
def writtenBack (s : State) (p : Pour) : State := { s with dirty := s.dirty.filter (fun d => !p.cores.contains d.core) }

/-- A pour may be cut for another: its slice has expired and it still stands (R31). -/
def cuttable (p : Pour) : Prop := p.expired = true ∧ (p.st = .placed ∨ p.st = .cutting)

end Sys2Proof.Claims

/-- Slices, pre-emption, cuts, checkpoints, resumption (R31, R32, R38, R212 to R214). The steps of a cut are the model's form
(log 45); a resumption counts as a placement (log 70); under which keys a saved pour's work goes on is log 69. -/
def Obligations.CutEvents : Prop :=
  (∀ (s : State) (p : Pour), findPour s s.args.a = some p → p.st = .placed → ∃ t, exec .sliceExpire s = .next t ∧
    findPour t s.args.a = some { p with expired := true } ∧ t = { s with pours := t.pours } ∧
    ∀ id, id ≠ s.args.a → findPour t id = findPour s id) ∧
  (∀ (s : State), (∀ k ∈ s.cuts, k.frees = false) →
    ((∀ c ∈ waitingCands s, victimFor s c = none) → exec .preemptCut s = .next s) ∧
    (∀ (i : Nat) (c : Cand) (p : Pour), (waitingCands s)[i]? = some c → victimFor s c = some p →
      (∀ j c', j < i → (waitingCands s)[j]? = some c' → victimFor s c' = none) →
      findPour s p.id = some p → p.st = .placed → (∀ k ∈ s.cuts, k.pour ≠ p.id) →
      (originOf s c = none ∧ Claims.cuttable p ∧
        (p.tenant ≠ c.brew.tenant → ∀ q ∈ s.pours, Claims.cuttable q → q.tenant ≠ c.brew.tenant → p.order ≤ q.order) ∧
        (p.tenant = c.brew.tenant → ∀ q ∈ s.pours, Claims.cuttable q → q.tenant = c.brew.tenant)) ∧
      ∃ t, exec .preemptCut s = .next t ∧ findPour t p.id = some { p with st := .cutting } ∧
        t.cuts = s.cuts ++ [{ pour := p.id, units := p.cores, frees := true, next := .saved }] ∧
        t.heldCores = s.heldCores ++ p.cores.map (fun k => (k, c.brew.tenant, c.brew.num, c.idx)) ∧
        t = { s with pours := t.pours, cuts := t.cuts, heldCores := t.heldCores })) ∧
  (∀ (s : State) (c : Cut) (p : Pour) (k : Nat) (rest : List Nat) (o : MOp) (j : Join),
    s.cuts.find? (fun x => x.pour == s.args.a) = some c → findPour s s.args.a = some p → c.units = k :: rest →
    headOp s k = some o → o.phase = .supply → s.joins.find? (fun x => x.pour == o.pour && x.tag == o.shape.jtag) = some j →
    (joinReady s j = true → exec .markerArrive s = .next (computeJoin s j)) ∧
    (∀ x ∈ j.parts, joinReady s j = false → (∀ y ∈ j.parts, x.role ≤ y.role) →
      exec .markerArrive s = .next (abandonJoin s j x.role))) ∧
  (∀ (s : State) (c : Cut) (p : Pour) (k : Nat) (rest : List Nat), Claims.cutAt s s.args.a c p k rest →
    (rest ≠ [] → ∃ t, exec .markerArrive s = .next t ∧ t.cuts.find? (fun x => x.pour == s.args.a) = some { c with units := rest } ∧
      t = { s with cuts := t.cuts } ∧ ∀ id, id ≠ s.args.a → t.cuts.find? (fun x => x.pour == id) = s.cuts.find? (fun x => x.pour == id)) ∧
    (rest = [] → c.frees = true → c.marks = [] → ∃ t, exec .markerArrive s = .next t ∧
      findPour t p.id = some { p with st := c.next, image := some { capture (Claims.withoutCut s p.id) p with serial := s.nextId } } ∧
      (capture (Claims.withoutCut s p.id) p).ox = p.ox ∧ (capture (Claims.withoutCut s p.id) p).oy = p.oy ∧
      (∀ key, (getCtx s key).key = key → (getCtx s key).pour = p.id → (getCtx t key).st = .free) ∧
      (∀ u ∈ p.cores, (getCore t u).shot = none) ∧ (∀ x ∈ t.cuts, x.pour ≠ p.id) ∧ t.mem = s.mem ∧ t.brews = s.brews) ∧
    (∀ key d w, rest = [] → c.frees = false → c.marks = [(key, d, w)] →
      let s1 := Claims.withoutCut (Claims.writtenBack s p) p.id
      let ck (s : State) : Ckpt :=
        { tenant := p.tenant, brew := p.brew, idx := p.idx, image := capture s p
          saves := s1.saves.filter (fun v => v.pour == p.id), dests := [w] }
      let kept (x : Ckpt) : State :=
        updPour { s1 with ckpts := tput s.ckpts s.nextId x, nextId := s.nextId + 1 } p.id (fun q => { q with st := .placed })
      ((getCtx s key).st = .waiting (.cut d) → exec .markerArrive s =
        .next (Claims.finished (kept (ck (Claims.finished s1 key d 0))) key d (BitVec.ofNat 64 s.nextId))) ∧
      ((getCtx s key).st ≠ .waiting (.cut d) → exec .markerArrive s = .next (kept (ck s1))))) ∧
  (∀ (s : State) (c : Ckpt), tget s.ckpts s.args.a = some c →
    (c.stored = false → exec .checkpointStored s = .next ((c.dests.filter (fun w => w != 0)).foldl
      (fun t w => postDec t schedKey w none .counted c.tenant)
      { s with ckpts := tput s.ckpts s.args.a { c with stored := true } })) ∧
    (c.stored = true → exec .checkpointStored s = .next s)) ∧
  (∀ (s : State) (c : Cand) (p : Pour) (img : Image), nextPlacement s = some (c, img.ox, img.oy) → c.saved = some p →
    p.image = some img → findPour s p.id = some p → p.w = c.brew.width → p.h = c.brew.height →
    (∀ k, Claims.inRect p.w p.h img.ox img.oy k → (getCore s k).powered = true) →
    (img.ctxs.map Ctx.key).Nodup → Memory.wf img.cells = true →
    (∀ x ∈ img.cells, ∃ k, Claims.inRect p.w p.h img.ox img.oy k ∧ Claims.ownByte k x.1) →
    ∃ t, exec .pourResume s = .next t ∧
      findPour t p.id =
        some { p with ox := img.ox, oy := img.oy, st := .placed, expired := false, order := s.nextId, image := none } ∧
      t.lastTenant = c.brew.tenant ∧ t.brews = s.brews ∧
      (∀ x ∈ img.ctxs, x.place = .home →
        let y := getCtx t x.key
        y.pc = x.pc ∧ y.s = x.s ∧ y.v = x.v ∧ y.p = x.p ∧ y.g = x.g ∧ y.rmode = x.rmode ∧ y.tcause = x.tcause ∧ y.trpc = x.trpc ∧
          y.place = .home ∧ (x.st = .ready → y.st = .ready ∧ y.again = x.again) ∧
          (∀ n d, x.st = .waiting (.helper d) ∨ x.st = .waiting (.launch d) ∨ x.st = .waiting (.lframeTurn n d) →
            y.st = .ready ∧ y.again = true)) ∧
      (∀ k a, Claims.inRect p.w p.h img.ox img.oy k → Claims.ownByte k a → rdB t.mem a = rdB img.cells a) ∧
      (∀ a, (∀ k, Claims.inRect p.w p.h img.ox img.oy k → ¬ Claims.ownByte k a) → rdB t.mem a = rdB s.mem a))

namespace Sys2Proof.Claims

/-- The copy `o` of a core, numbered as the event names it, runs on a core whose pour runs, and is not paused (R254). -/
def copyRuns (s : State) (o : COp) : Prop :=
  (getCore s s.args.a).cq.find? (fun x => x.id == s.args.b) = some o ∧ o.running = true ∧ o.paused = false ∧
    running s s.args.a = true

/-- The cause of a failure status (R253). -/
def statusCause (n : Nat) : BitVec 8 :=
  if n = 9 then 0x15 else if n = 10 then 0x16 else if n = 12 then 0x09 else if n = 13 then 0x0A else 0x19

/-- A copy leaves the queue, which lets the oldest copies waiting for an entry in, and reports: a decrement to DEST, with the payload of
R253 when it failed, or without DEST the cause charged to its context (R253). A decrement to another device leaves the part, or is
charged with 0x15 where the fabric path fails (logs 15 and 75). -/
def copyEnds (s : State) (core : Nat) (o : COp) (r : Option CFail) : State :=
  let s1 := updCore s core (fun c => entered { c with cq := c.cq.filter (fun x => x.id != o.id) })
  let send (p : Option (BitVec 128)) : State :=
    if dwDev o.dest = 0 then post s1 o.key (dwCore o.dest) (.dec o.dest p (.copy o.key) o.tenant)
    else if Config.pathFails s.ticks (dwDev o.dest) = true then
      reportTo s1 o.key o.tenant (fun t => charge t o.key { cause := 0x15, val := o.dest, engine := 3, addr := some o.dest })
    else s1
  match r with
  | none => if o.dest = 0 then s1 else send none
  | some f =>
    if o.dest = 0 then
      charge s1 o.key (if f.status = 12 ∨ f.status = 13 then
        { cause := statusCause f.status, val := BitVec.ofNat 64 f.addr, engine := 3, extra := BitVec.ofNat 32 f.u64 }
      else { cause := statusCause f.status, val := BitVec.ofNat 64 f.u64, engine := 3, extra := BitVec.ofNat 32 f.index })
    else send (some (BitVec.ofNat 128 (f.status + f.index % 2 ^ 32 * 2 ^ 32 + f.u64 % 2 ^ 64 * 2 ^ 64)))

/-- A plain copy of one row of whole bytes: no transform, both sides contiguous with equal elements (R247, R251). -/
def oneRow (o : COp) : Prop :=
  o.xf = .none ∧ o.minor = 0 ∧ o.a.c1 = 1 ∧ o.a.c2 = 1 ∧ o.b.c1 = 1 ∧ o.b.c2 = 1 ∧ 1 ≤ o.a.c0 ∧ o.a.c0 = o.b.c0 ∧
    o.a.bits = o.b.bits ∧ 1 ≤ o.a.bits ∧ o.a.c0 * o.a.bits % 8 = 0

end Sys2Proof.Claims

/-- Copies, BSTR delivery and TXWAKE (R251 to R259). A copy's bytes move in one step (log 27); where copies that wait for an
entry of the queue stand is log 71; a decrement to another device is logs 15 and 75. -/
def Obligations.CopyEvents : Prop :=
  (∀ (s : State) (o : COp) (pre post : List COp), running s s.args.a = true → (getCore s s.args.a).cq = pre ++ o :: post →
    (∀ x ∈ pre, x.running = true) → o.running = false →
    (((getCore s s.args.a).cq.filter (fun x => x.running)).length < 4 →
      exec .copyStart s = .next (updCop s s.args.a o.id (fun x => { x with running := true }))) ∧
    (4 ≤ ((getCore s s.args.a).cq.filter (fun x => x.running)).length → exec .copyStart s = .next s)) ∧
  (∀ (s : State) (o : COp), Claims.copyRuns s o → o.xf ≠ .bstr →
    let core := s.args.a
    let j := o.job core
    (∀ c n a, o.err = some (c, n, a) → exec .copyComplete s = .next (Claims.copyEnds s core o (some
      (accessStatus { cause := c, code := n, addr := a } o.errAt.1)))) ∧
    (∀ i s1, o.err = none → planCopy j o s = .paused i s1 →
      exec .copyComplete s = .next (updCop s1 core o.id (fun o => { o with paused := true, pauseAt := (i, 0) }))) ∧
    (∀ p s1 i s2, o.err = none → planCopy j o s = .ok p s1 → probePlan j o.b p.pieces s1 = .paused i s2 →
      exec .copyComplete s = .next (updCop s2 core o.id (fun o => { o with paused := true, pauseAt := (i, 0) }))) ∧
    (∀ p s1 n r s2, o.err = none → planCopy j o s = .ok p s1 → probePlan j o.b p.pieces s1 = .ok (n, r) s2 →
      exec .copyComplete s = .next (Claims.copyEnds (flagFor (writePlan j o.b (p.pieces.take n) s2) o.key p.flags) core o
        (match r with
         | some f => some f
         | none => p.stop))) ∧
    (∀ l s1 s2, o.err = none → Claims.oneRow o → eRead j (o.a.addr 0) (o.a.c0 * o.a.bits / 8) s = .ok l s1 →
      eProbe j (o.b.addr 0) l.length s1 = .ok () s2 →
      exec .copyComplete s = .next (Claims.copyEnds (flagFor (eWrite j (o.b.addr 0) l s2) o.key 0) core o none))) ∧
  (∀ (b : Side) (l : List Nat) (j0 j1 j2 : Nat), j0 < b.c0 → j1 < b.c1 → j2 < b.c2 →
    (transposed b l).getD (j0 + b.c0 * (j1 + b.c1 * j2)) 0 = l.getD (j1 + b.c1 * (j0 + b.c0 * j2)) 0) ∧
  (∀ (s : State) (o o1 : COp), Claims.copyRuns s o → o.xf = .bstr →
    let s1 := settleCopy s.args.a s.args.b s
    copyAt s1 s.args.a s.args.b = some o1 → (o1.more = false) → (∀ c ∈ o1.chunks, c.popped = true) →
    (∀ k code, o1.failed = some (k, code) → o1.err = none ∨ k ≤ o1.errAt.2 → exec .copyComplete s =
      .next (Claims.copyEnds s1 s.args.a o1 (some { status := 8, index := k, u64 := code.toNat }))) ∧
    (∀ c n a, o1.err = some (c, n, a) → (∀ k code, o1.failed = some (k, code) → o1.errAt.2 < k) → exec .copyComplete s =
      .next (Claims.copyEnds s1 s.args.a o1 (some (accessStatus { cause := c, code := n, addr := a } o1.errAt.1)))) ∧
    (o1.failed = none → o1.err = none → exec .copyComplete s = .next (Claims.copyEnds s1 s.args.a o1 none))) ∧
  (∀ (s s1 : State) (o : COp) (core ring : Nat) (r : Ring) (l : List Byte), Claims.copyRuns s o → o.xf = .bstr →
    settleCopy s.args.a s.args.b s = s → o.failed = none → o.err = none → o.next < o.a.c1 →
    o.targets[o.next % o.targets.length]? = some (core, ring) → getRing s core ring = some r →
    Claims.filledOf r < r.count → r.count ≤ 256 → r.tail < Claims.wrapOf r.count → r.head < Claims.wrapOf r.count →
    eRead (o.job s.args.a) (o.srcAt o.next) o.a.c0 s = .ok l s1 →
    let off := r.base + r.tail % r.count * 2 ^ r.slog
    let n := (o.a.c0 + 255) / 256 * 256
    off + n + o.b.c0 ≤ scratchSize (getCore s1 core) →
    ∃ t, exec .bstrDeliver s = .next t ∧ getRing t core ring = some { r with tail := (r.tail + 1) % Claims.wrapOf r.count } ∧
      rdBytes t.mem (winKey (winAddr core 0 off)) o.a.c0 = l ∧
      rdBytes t.mem (winKey (winAddr core 0 (off + n))) o.b.c0 = List.replicate o.b.c0 0 ∧
      copyAt t s.args.a s.args.b =
        some { o with next := o.next + 1, chunks := o.chunks ++ [{ k := o.next, core := core }] }) ∧
  (∀ (s : State) (core : Nat) (r : Ring), s.args.a = core →
    let k := getCore s core
    let q := k.txwake.toNat / 2 ^ 60 % 16
    running s core = true → (getCtx s (keyOf core 0)).st ≠ .free → (getCtx s (keyOf core 11)).st = .free →
    k.txwake.getLsbD 59 = true → getRing s core q = some r → k.txwake.toNat / 2 ^ 49 % 2 ^ 9 ≤ r.filled →
    ∃ t h, exec .txwakeStart s = .next t ∧ getCtx t (keyOf core 11) = h ∧
      Claims.helper s core 11 (BitVec.ofNat 48 (4 * (k.txwake.toNat / 4 % 2 ^ 46))) (BitVec.ofNat 64 q) 0 0 h ∧
      getCore t core = { k with bits := none, bitsRing := q } ∧ t.mem = s.mem ∧ t.net = s.net)

namespace Sys2Proof.Claims

/-- The operation at the head of the core's matrix queue. -/
def atHead (s : State) (core : Nat) (o : MOp) : Prop := ∃ rest, (getCore s core).mq = o :: rest

/-- The operation has its results: rows and flags; with DRAIN each row asks for a drain handler (R270, R274). -/
def hasRows (s : State) (core : Nat) (o : MOp) (rows : List DrainRow) (f : Flags) : State :=
  let drain := o.mods.getLsbD 3
  let s1 := updMop s core o.id (fun o =>
    { o with phase := if drain then .draining else .computed, rows := rows, flags := f.setWidth 64 })
  if drain then updCore s1 core (fun c => { c with hreqs := c.hreqs ++ rows.map (fun x => .drain o.id x.m) }) else s1

/-- The operation leaves the queue, and the instruction that waits for it completes (R262). -/
def opEnds (s : State) (core : Nat) (o : MOp) : State :=
  let s1 := updCore s core (fun c => entered { c with mq := c.mq.filter (fun x => x.id != o.id) })
  if (getCtx s1 o.key).st = .waiting (.matrixOp o.id) then
    finished (updCtx s1 o.key (fun c => { c with mopAt := none })) o.key 0 0
  else s1

/-- Byte 0 of row m of tile `acc` in the window space (R260). -/
def tileRow (core acc m : Nat) : Nat := winKey (winAddr core 1 (65536 * acc + 512 * m))

/-- The memory `m` holds the operation's rows in its tile, and is otherwise the state's (R270). -/
def rowsStored (s : State) (core : Nat) (o : MOp) (m : List Host.Cell) : Prop :=
  let n := (if o.shape.fmtAcc = 9 then 8 else 4) * o.shape.n
  (∀ r ∈ o.rows, ∀ i < n, rdB m (tileRow core o.acc r.m + i) = BitVec.ofNat 8 (r.data.toNat / 2 ^ (8 * i))) ∧
    ∀ a, (∀ r ∈ o.rows, a < tileRow core o.acc r.m ∨ tileRow core o.acc r.m + n ≤ a) → rdB m a = rdB s.mem a

/-- The value of a finite number in units of 2^E, which its exponent does not lie below. -/
def inUnits (E : Int) : FVal → Int
  | .fin n m e => (if n then -1 else 1) * (m * 2 ^ (e - E).toNat : Nat)
  | _ => 0

/-- The values are finite, and no exponent lies below E. -/
def finiteFrom (E : Int) (l : List FVal) : Prop := ∀ v ∈ l, ∃ n m e, v = .fin n m e ∧ E ≤ e

/-- An element of MMAS after `j` seeds: each adds its coefficient times the sum of the row's elements under the seed's signs, plus for
an output 0 and minus for 1, with one rounding (R65, R285, R290). -/
def seeded (r : SeedRec) (sat neg : Bool) (a : List FVal) (n acc : Nat) : Nat → Nat
  | 0 => acc
  | j + 1 =>
    let sign (k : Nat) : Bool := (genAfter (r.seeds.getD j 0) (k * r.n + n)).getLsbD 0
    let t := (accAny 8 sat false neg a ((List.range r.k).map (fun k => .fin (sign k) 1 0)) 0).bits
    (fit .fp32 { sat := sat } (addV .rne (Fmt.fp32.value (seeded r sat neg a n acc j))
      (mulV (r.coef j (n / 16)) (Fmt.fp32.value t)))).bits

/-- The pointer and the segment of a seeded operation pass reason 10 (R287). -/
def recordNamed (o : MOp) : Prop :=
  let p := o.shape.dest
  let g := vget o.segs o.shape.seg {}
  tagOk p = true ∧ p.toNat / 2 ^ 59 = 19 ∧ p.toNat % 2 ^ 48 % 16 = 0 ∧ (g.kind = 0 ∨ g.kind = 2) ∧ g.rights.getLsbD 0 = true

/-- Every role of a join is there and has supplied (R278). -/
def allSupplied (s : State) (j : Join) : Prop :=
  ∃ p rest o, j.parts = p :: rest ∧ partOp s p = some o ∧
    ∀ r < o.shape.jcount, ∃ q ∈ j.parts, q.role = r ∧ q.supplied = true

end Sys2Proof.Claims

/-- Matrix operations and joins (R62 to R66, R262, R267 to R279, R290). Results appear in one step (log 27). -/
def Obligations.MatrixEvents : Prop :=
  (∀ (s : State) (o : MOp), Claims.atHead s s.args.a o → running s s.args.a = true → o.paused = false → o.phase = .queued →
    let core := s.args.a
    let full := ∀ q ∈ o.rings, ∃ r, getRing s core q = some r ∧ 0 < r.filled
    o.err = none →
    (o.kind = .mzero → exec .matrixOpStart s = .next (updMop s core o.id (fun o => { o with phase := .computed }))) ∧
    (o.kind = .mma → full →
      let a := panelA s core o.qa o.shape
      let b := panelB s core o.qb o.shape
      let x := rowsOf o (fun m n => accAny o.shape.fmtAcc (o.mods.getLsbD 0) (o.shape.fmtA == 16) (o.mods.getLsbD 7 != o.mods.getLsbD 6) (a.getD m [])
        (b.getD n []) (if o.mods.getLsbD 5 then 0 else tileElem s core o m n))
      exec .matrixOpStart s = .next (Claims.hasRows s core o x.1 x.2)) ∧
    (o.kind = .mma ∨ o.kind = .mmas → ¬ full → exec .matrixOpStart s = .next s) ∧
    (o.kind = .mmas → full →
      let seed (reason : Nat) : Charge := { cause := 0x14, val := o.shape.dest, engine := 5, extra := BitVec.ofNat 32 reason }
      let g := vget o.segs o.shape.seg {}
      let off := o.shape.dest.toNat % 2 ^ 48
      (¬ Claims.recordNamed o → exec .matrixOpStart s = .next (matFail s core o (seed 10))) ∧
      (Claims.recordNamed o → g.limit.toNat ≤ off → exec .matrixOpStart s = .next (matFail s core o (seed 9))) ∧
      (∀ x s1, Claims.recordNamed o → off < g.limit.toNat →
        eRecord (o.job core 4) (o.destAt 0) (g.limit.toNat - off) s = .ok x s1 →
        (∀ reason i, x = .error (reason, i) → exec .matrixOpStart s = .next (matFail s1 core o (seed reason))) ∧
        (∀ r, x = .ok r → ¬ (r.k = o.shape.k ∧ r.n = o.shape.n) → exec .matrixOpStart s = .next (matFail s1 core o (seed 11))) ∧
        (∀ r, x = .ok r → r.k = o.shape.k → r.n = o.shape.n → o.shape.fmtAcc = 8 →
          ∃ rows f, exec .matrixOpStart s = .next (Claims.hasRows s1 core o rows f) ∧
            rows.map DrainRow.m = List.range o.shape.m ∧
            ∀ y ∈ rows, ∀ n < o.shape.n, 32 * o.shape.n ≤ 4096 → y.data.toNat / 2 ^ (32 * n) % 2 ^ 32 =
              Claims.seeded r (o.mods.getLsbD 0) (o.mods.getLsbD 7 != o.mods.getLsbD 6)
                ((panelA s1 core o.qa o.shape).getD y.m []) n (if o.mods.getLsbD 5 then 0 else tileElem s1 core o y.m n) r.j))) ∧
    (o.kind = .msta → exec .matrixOpStart s =
      .next (Claims.hasRows s core o (rowsOf o (fun m n => { bits := tileElem s core o m n })).1
        (rowsOf o (fun m n => { bits := tileElem s core o m n })).2)) ∧
    (∀ rows s1, o.kind = .mlda → readRows o (o.job core 4) (upFrom 0 o.shape.m) s = .ok rows s1 →
      let x := rowsOf o (fun m n => loadElem o (rowRaw o (rows.getD m []) m n))
      exec .matrixOpStart s = .next (Claims.hasRows s1 core o x.1 x.2)) ∧
    (o.kind = .mmaj → (∀ j ∈ s.joins, ¬ (j.pour = o.pour ∧ j.tag = o.shape.jtag)) →
      exec .matrixOpStart s = .next (
        let s1 := updMop s core o.id (fun o => { o with phase := .supply })
        { s1 with joins := s1.joins ++ [{ pour := o.pour, tag := o.shape.jtag,
                                          parts := [{ core := core, op := o.id, role := o.shape.role, supplied := ringsFilled s core o }] }] }))) ∧
  (∀ (code : Nat) (f : Fmt) (a b : List FVal) (sat neg : Bool) (acc : Nat) (E F : Int),
    code = 8 ∧ f = .fp32 ∨ code = 9 ∧ f = .fp64 → a.length = b.length → 1 ≤ a.length → a.length ≤ 16 →
    Claims.finiteFrom E a → Claims.finiteFrom F b →
    ∃ g, g.isFin = true ∧ Claims.inUnits (E + F) g = (if neg then -1 else 1) *
        ((a.zip b).map (fun p => Claims.inUnits E p.1 * Claims.inUnits F p.2)).sum ∧
      (accAny code sat false neg a b acc).bits = (fAdd f { sat := sat } acc (fit f { sat := sat } g).bits).bits) ∧
  (∀ (code : Nat) (a b a' b' : List FVal) (sat ts neg : Bool) (acc : Nat), a.length = 16 → b.length = 16 →
    (accAny code sat ts neg (a ++ a') (b ++ b') acc).bits =
      (accAny code sat ts neg a' b' (accAny code sat ts neg a b acc).bits).bits) ∧
  (∀ (a b : List Int) (neg : Bool) (acc : Nat), acc < 2 ^ 32 →
    let dot := ((a.zip b).map (fun p => p.1 * p.2)).foldl (fun x y => x + y) 0
    (accInt false neg (a.map intV) (b.map intV) acc).bits = (((acc : Int) + (if neg then -dot else dot)) % 2 ^ 32).toNat) ∧
  (∀ (s : State) (o : MOp), Claims.atHead s s.args.a o → o.paused = false → o.err = none →
    o.phase = .computed ∨ (o.phase = .draining ∧ ∀ r ∈ o.rows, r.st = .released) →
    let core := s.args.a
    (o.kind = .mzero → ∃ m, exec .matrixOpComplete s = .next (Claims.opEnds { s with mem := m } core o) ∧
      ∀ a, rdB m a = if Claims.tileRow core o.acc 0 ≤ a ∧ a < Claims.tileRow core o.acc 0 + 65536 then 0 else rdB s.mem a) ∧
    ((o.rows.map DrainRow.m).Nodup → (if o.shape.fmtAcc = 9 then 8 else 4) * o.shape.n ≤ 512 →
      (o.kind = .mma ∨ o.kind = .mmas ∨ o.kind = .mmaj → ∃ m, Claims.rowsStored s core o m ∧ exec .matrixOpComplete s =
        .next (Claims.opEnds (mstatFor (popRings { s with mem := m } core (popped o)) o.key (mstatFlags (o.flags.setWidth 7))) core o)) ∧
      (o.kind = .mlda → ∃ m, Claims.rowsStored s core o m ∧ exec .matrixOpComplete s =
        .next (Claims.opEnds (flagFor { s with mem := m } o.key (o.flags.setWidth 7)) core o))) ∧
    (∀ q, q ∈ popped o ↔
      ((o.mods.getLsbD 2 = false ∧ q ∈ ringsA o.kind o.qa o.shape) ∨ (o.mods.getLsbD 1 = false ∧ q ∈ ringsB o.kind o.qb o.shape)) ∧
      ¬ (suppliesA o.kind o.shape = true ∧ suppliesB o.kind o.shape = true ∧ o.qa = o.qb ∧
          (o.mods.getLsbD 2 = true ∨ o.mods.getLsbD 1 = true) ∧ q = o.qa)) ∧
    (∀ n s1, o.kind = .msta → probePieces o (o.job core 4) (storePieces o).1 s = .ok (n, none) s1 → exec .matrixOpComplete s =
      .next (Claims.opEnds (flagFor (((storePieces o).1.take n).foldl (writePiece o (o.job core 4)) s1) o.key (storePieces o).2)
        core o))) ∧
  (∀ (s : State) (j : Join), s.joins.find? (fun x => x.pour == s.args.a && x.tag == s.args.b) = some j →
    (Claims.allSupplied s j → (j.parts.map (fun p => (p.core, p.op))).Nodup →
      (∃ t, exec .joinComputeBegin s = .next t ∧ (∀ x ∈ t.joins, ¬ (x.pour = s.args.a ∧ x.tag = s.args.b)) ∧ t.mem = s.mem ∧
        ∀ p ∈ j.parts, ∀ o, partOp s p = some o → partOp t p =
          some { o with phase := if o.mods.getLsbD 3 then .draining else .computed, rows := (joinRows s j p.core o).1
                        flags := (joinRows s j p.core o).2.setWidth 64 }) ∧
      (∀ core o ca oa cb ob, roleOp s j (o.shape.role / o.shape.gc * o.shape.gc) = some (ca, oa) →
        roleOp s j (o.shape.role % o.shape.gc) = some (cb, ob) →
        joinRows s j core o = mulRows s core o (panelA s ca oa.qa oa.shape) (panelB s cb ob.qb ob.shape)) ∧
      exec .joinAbandon s = .next s) ∧
    (∀ p o c role n, j.parts = [p] → (getCore s p.core).mq = [o] → o.id = p.op → o.shape.jcount = n → role < n →
      (∀ r < role, p.role = r ∧ p.supplied = true) → ¬ (p.role = role ∧ p.supplied = true) → getCtx s o.key = c → c.key = o.key →
      savedIn s o.key = none → c.st ≠ .free → c.st ≠ .waiting (.matrixOp o.id) → c.mopAt = none → (c.inh = false ∨ c.charged.length < 4) →
      exec .joinComputeBegin s = .next s ∧ exec .joinAbandon s = .next (updCore
        (putCtx { s with joins := s.joins.filter (fun x => !(x.pour == j.pour && x.tag == j.tag)) }
          { c with charged := c.charged ++ [{ cause := 0x12, val := BitVec.ofNat 64 j.tag, engine := 9
                                              extra := BitVec.ofNat 32 role }] })
        p.core (fun k => Claims.entered { k with mq := [] }))))

namespace Sys2Proof.Claims

/-- A close's processing of a layer: age, error, homography, counts, PENDING (R348). -/
def closedLayer (s : State) (c : Close) (l : Layer) : Layer :=
  let age : W32 := BitVec.ofNat 32 (min (l.age.toNat + 1) (2 ^ 32 - 1))
  let e := errorOf s c.lcb l age.toNat (cornerShift c.lcb.view l) (holeRatio l)
  { l with
    age := age, err := e, hom := homography c.lcb.view l.cpose, holes := 0, samples := 0
    pending := l.pending || ltV (f32 l.price.toNat) (f32 e.toNat) }

/-- The record that processing decides to post: of a layer whose error passes its price and that is not PENDING (R348, R349). -/
def closeRecord (s : State) (c : Close) (l : Layer) : List LRec :=
  let x := closedLayer s c l
  if x.pending = true ∧ l.pending = false then
    [{ id := l.id, frame := c.lcb.frame, err := x.err, age := x.age, d := BitVec.ofNat 32 (rnBits (cornerShift c.lcb.view l))
       h := BitVec.ofNat 32 (rnBits (holeRatio l)) }]
  else []

/-- The close is over: its LFRAME, if it still waits, delivers the number of records posted (R348). -/
def closeEnds (s : State) (c : Close) (n : Nat) : State :=
  let s1 := { s with closes := s.closes.filter (fun x => x.tenant != c.tenant) }
  match (getCtx s1 c.key).st with
  | .waiting (.lframe d) => finished s1 c.key d (BitVec.ofNat 64 n)
  | _ => s1

end Sys2Proof.Claims

/-- A frame close (R146, R348, R349, R357). An error without a value (log 10), a corner that is not projectable (log 37), the sign of an
exact zero (log 39), what a trap of LFRAME sets back and the pause of the close's work at a page fault (log 70) are the model's
readings. -/
def Obligations.CloseEvents : Prop :=
  (∀ (s : State) (c : Close) (u id : Nat) (rest : List Nat), s.closes.find? (fun x => x.tenant == s.args.a) = some c →
    s.args.b = u → c.todo[u]? = some (id :: rest) →
    (findLayer s s.args.a id = none → ∃ t, exec .layerCloseProcess s = .next t ∧ t = { s with closes := t.closes } ∧
      t.closes.find? (fun x => x.tenant == s.args.a) = some { c with todo := c.todo.set u rest }) ∧
    (∀ l, findLayer s s.args.a id = some l → ∃ t, exec .layerCloseProcess s = .next t ∧
      findLayer t s.args.a id = some (Claims.closedLayer s c l) ∧
      t.closes.find? (fun x => x.tenant == s.args.a) = some { c with
        todo := c.todo.set u rest, processed := c.processed ++ [id], undo := c.undo ++ [l], decided := c.decided ++ Claims.closeRecord s c l } ∧
      (∀ t' i', (t', i') ≠ (s.args.a, id) → findLayer t t' i' = findLayer s t' i') ∧
      t = { s with closes := t.closes, layers := t.layers })) ∧
  (∀ (s : State) (c : Close), s.closes.find? (fun x => x.tenant == s.args.a) = some c → c.paused = false →
    ((∃ l ∈ c.todo, l ≠ []) → exec .layerPostRecords s = .next s) ∧
    ((∀ l ∈ c.todo, l = []) → c.decided = [] → c.processed = [] →
      exec .layerPostRecords s = .next (Claims.closeEnds s c 0)) ∧
    (∀ n s1 s2, (∀ l ∈ c.todo, l = []) → postAll c (sortBy LRec.id c.decided) s = .ok n s1 →
      writeBackAll c.tenant c.lcb c.key (sortBy id c.processed) s1 = .ok () s2 →
      exec .layerPostRecords s = .next (Claims.closeEnds (if n = 0 ∨ c.lcb.notify = 0 then s2
        else postDec s2 c.key c.lcb.notify none .counted c.tenant) c n)) ∧
    (∀ a, (∀ l ∈ c.todo, l = []) → postAll c (sortBy LRec.id c.decided) s = .page a →
      (homeIdx c.key = 0 ∨ (getCtx s (keyOf (homeCore c.key) 0)).upvec &&& offMask = 0 → ∀ d, s.cx.key = c.key →
        s.cx.st = .waiting (.lframe d) → (c.undone s).cx = s.cx →
        exec .layerPostRecords s = .next (takeTrap { cause := 0x08, val := BitVec.ofNat 64 a } (c.undone s))) ∧
      (homeIdx c.key ≠ 0 → (getCtx s (keyOf (homeCore c.key) 0)).upvec &&& offMask ≠ 0 → ∃ t, exec .layerPostRecords s = .next t ∧ (∃ x ∈ t.closes, x = { c with paused := true }) ∧ t.layers = s.layers)) ∧
    (∀ e a, (∀ l ∈ c.todo, l = []) → postAll c (sortBy LRec.id c.decided) s = .error e a →
      ∀ d, s.cx.key = c.key → s.cx.st = .waiting (.lframe d) → (c.undone s).cx = s.cx →
        exec .layerPostRecords s = .next (takeTrap { cause := e, val := BitVec.ofNat 64 a } (c.undone s)) ∧
        (c.undone s).closes = s.closes.filter (fun x => x.tenant != c.tenant) ∧
        ((∀ x ∈ c.undo, ∀ y ∈ c.undo, x.id = y.id → x = y) → ∀ u ∈ c.undo, u.tenant = c.tenant → ∀ l, findLayer s c.tenant u.id = some l →
          ∃ l', findLayer (c.undone s) c.tenant u.id = some l' ∧ l'.age = u.age ∧ l'.err = u.err ∧ l'.hom = u.hom)))

namespace Sys2Proof.Claims

/-- The candidate level of R369. -/
def level (record : List (BitVec 8)) (temp : Int) (duty : Nat) : Nat :=
  if Config.tsevere record ≤ temp ∨ duty ≤ 4 then 2 else if Config.tcons record ≤ temp ∨ duty ≤ 12 then 1 else 0

/-- LEVEL after an interval (R369): it rises at once; it falls when this is the second interval in a row whose candidate is lower
and whose temperature is two degrees below the threshold of the level held. -/
def levelAfter (record : List (BitVec 8)) (k : CoreSt) (temp : Int) (duty : Nat) : Nat :=
  let held := k.pstate.toNat
  let edge := if held = 2 then Config.tsevere record else Config.tcons record
  if level record temp duty < held ∧ ¬ (temp + 2 ≤ edge ∧ 1 ≤ k.lower) then held else level record temp duty

/-- The core clocks a core has had at half clock `h` of the reference (R15, R368, R381): the clocks it skipped are none of its own. -/
def coreClocks (k : CoreSt) (h : Nat) : Nat := (h - k.skipped) / 2

/-- The frame whose turn it is, the bytes of its entry in the frame table, and the address of its mapping entry (R147). -/
def sweepAt (s : State) : Nat := s.frameTable.toNat + 8 * (s.sweep % 0x90_0000)
def sweepEntry (s : State) : Nat := rdN s.mem (sweepAt s) 8
def sweepPte (s : State) : Nat := sweepEntry s / 8 % 2 ^ 45 * 8

/-- An 8-byte entry that can be read now: in the backed map, and not held back by reduced service (R144, R381). -/
def entryOpen (s : State) (a : Nat) : Prop :=
  backed a = true ∧ backed (a + 7) = true ∧ ¬ (s.phase ≠ 2 ∧ a < 0x90_0000_0000)

/-- A core that owns nothing that keeps it on (R366). -/
def idleCore (s : State) (core : Nat) : Prop :=
  let k := getCore s core
  k.shot = none ∧ k.slots = [] ∧ k.arrivals = [] ∧ k.banks = [] ∧ k.setups = [] ∧
    ∀ v ∈ s.saves, homeCore v.key = core → (getCtx s v.key).st = .free

/-- The model's cold queue (log 50): at its address a count of the entries software has taken, then a count of those appended,
and from byte 64 on as many slots as the watermark says. -/
def coldAppended (s : State) : Nat := rdN s.mem (s.coldQueue.toNat + 8) 8
def coldWaiting (s : State) : Nat := (coldAppended s + 2 ^ 64 - rdN s.mem s.coldQueue.toNat 8) % 2 ^ 64
def coldPlace (s : State) : Nat := s.coldQueue.toNat + 64 + 8 * (coldAppended s % s.watermark.toNat)

/-- The sweeper runs: its queue is open and holds fewer frames than the watermark (R147). -/
def sweeps (s : State) : Prop :=
  entryOpen s s.coldQueue.toNat ∧ entryOpen s (s.coldQueue.toNat + 8) ∧ coldWaiting s < s.watermark.toNat

/-- A frame the sweeper passes over: free or pinned (R147), or with an entry R147 does not allow (log 49). -/
def passedOver (s : State) : Prop :=
  sweepEntry s % 2 = 1 ∨ sweepPte s = 0 ∨ sweepEntry s / 2 % 4 ≠ 0 ∨ 2 ^ 48 ≤ sweepEntry s ∨ backed (sweepPte s) = false

end Sys2Proof.Claims

/-- What the part does by itself (R147, R148, R154, R255, R366 to R371) and bring-up (R378, R380, R381). The model's choices:
a frame whose table entry R147 does not allow is passed over (log 49); the cold queue's layout and that it is read and consumed
there (log 50); an LSPLIT write waits for operations stalled for an entry too (log 71); temperatures, duties, budgets and self-refresh are given from outside (log 58); how intervals in a row are
counted (log 57); that a context saved alone keeps its core on (log 52); the numbers that go on over a reset (log 48). -/
def Obligations.PartEvents : Prop :=
  ((∀ (s : State), let k := s.args.a
    let v : Word := s.args.word.setWidth 64 &&& 0xF
    (8 < v.toNat → exec .lsplitCsrWrite s = .next s) ∧
    (v.toNat ≤ 8 → opsAbove s k (scratchSize { getCore s k with lsplit := v }) = true → exec .lsplitCsrWrite s = .next s) ∧
    (v.toNat ≤ 8 → opsAbove s k (scratchSize { getCore s k with lsplit := v }) = false →
      ∃ m, exec .lsplitCsrWrite s = .next { updCore s k (fun q => { q with lsplit := v }) with mem := m } ∧
        ∀ x, rdB m x =
          if winKey (winAddr k 0 (1408 * 1024 - 128 * 1024 * v.toNat)) ≤ x ∧ x < winKey (winAddr k 0 (1408 * 1024)) then 0
          else rdB s.mem x)) ∧
  (∀ (s : State), let v : Word := s.args.word.setWidth 64 &&& 0xFFFE_FFFF_FFFF_FFFC
    let thr := v.toNat / 2 ^ 49 % 2 ^ 9
    let refused := 256 < thr ∨ (v.getLsbD 59 = true ∧ thr = 0)
    (refused → exec .txwakeCsrWrite s = .next s) ∧
    (¬ refused → exec .txwakeCsrWrite s = .next (updCore s s.args.a (fun q => { q with txwake := v })))) ∧
  (∀ (s : State), s.args.bytes.length = 1536 + 96 → (∀ d ∈ s.args.bytes.take 1536, 1 ≤ d.toNat ∧ d.toNat ≤ 16) →
    ∃ t, exec .fdutyUpdate s = .next t ∧ t = { s with cores := t.cores } ∧
      (∀ k < 1536, let d := (s.args.bytes.getD k 0).toNat
        let c := (s.args.bytes.getD (1536 + clusterOf k) 0).toInt
        (getCore t k).pstate = BitVec.ofNat 2 (Claims.levelAfter s.record (getCore s k) c d) ∧
          (∀ later : Nat, s.halves ≤ later → (getCore t k).duty later =
            if Claims.coreClocks (getCore s k) s.halves % 16 = 0 ∨
                Claims.coreClocks (getCore s k) later / 16 ≠ Claims.coreClocks (getCore s k) s.halves / 16
              then BitVec.ofNat 5 d else (getCore s k).duty s.halves) ∧
          { getCore t k with fduty := (getCore s k).fduty, nextDuty := (getCore s k).nextDuty, pstate := (getCore s k).pstate, lower := (getCore s k).lower } = getCore s k) ∧
      ∀ k, 1536 ≤ k → getCore t k = getCore s k) ∧
  (∀ (s : State), let k := getCore s s.args.a
    ∃ t, exec .forcedClockSkip s = .next t ∧ t = updCore s s.args.a (fun q => { q with skipped := q.skipped + s.span }) ∧
      Claims.coreClocks (getCore t s.args.a) (s.halves + s.span) = Claims.coreClocks k s.halves ∧
      (getCore t s.args.a).duty (s.halves + s.span) = k.duty s.halves) ∧
  (∀ (s : State), s.args.a < 12 → exec .hbmBudgetRefill s = .next { s with budgets := tput s.budgets s.args.a s.args.b }) ∧
  (∀ (s : State), (s.args.flag = true → exec .selfRefreshEnter s = .next s) ∧
    (s.args.flag = false → ∃ t, exec .selfRefreshEnter s = .next t ∧ t = { s with refresh := t.refresh } ∧
      ∀ c, c ∈ t.refresh ↔ c = s.args.a ∨ c ∈ s.refresh) ∧
    (∃ t, exec .selfRefreshExit s = .next t ∧ t = { s with refresh := t.refresh } ∧
      ∀ c, c ∈ t.refresh ↔ c ≠ s.args.a ∧ c ∈ s.refresh)) ∧
  (∀ (s : State), let core := s.args.a
    (Claims.idleCore s core → exec .corePowerOff s = .next (updCore s core (fun k => { k with powered := false }))) ∧
    (¬ Claims.idleCore s core → exec .corePowerOff s = .next s) ∧
    ((getCore s core).powered = true → exec .corePowerUp s = .next s) ∧
    ((getCore s core).powered = false → (∃ p ∈ s.net, p.dst = core ∧ ∃ key, p.body = .migrate key) ∨
        (∃ c ox oy, nextPlacement s = some (c, ox, oy) ∧ Claims.inRect c.brew.width c.brew.height ox oy core ∧ ox + c.brew.width ≤ 64) →
      ∃ m, exec .corePowerUp s =
        .next (updCore { s with mem := m } core (fun k => { k with powered := true, zfActive := true })) ∧
        (∀ x, Claims.ownByte core x → rdB m x = 0) ∧ ∀ x, ¬ Claims.ownByte core x → rdB m x = rdB s.mem x)) ∧
  (∀ (s : State), let pte := Claims.sweepPte s
    let frame := s.sweep % 0x90_0000
    let on : State := { s with sweep := (frame + 1) % 0x90_0000 }
    (¬ Claims.sweeps s → exec .clockSweeperVisit s = .next s) ∧
    (Claims.sweeps s → backed (Claims.sweepAt s) = false → exec .clockSweeperVisit s = .next on) ∧
    (Claims.sweeps s → Claims.entryOpen s (Claims.sweepAt s) →
      (Claims.passedOver s → exec .clockSweeperVisit s = .next on) ∧
      (¬ Claims.passedOver s → Claims.entryOpen s pte →
        ((rdN s.mem pte 8).testBit 2 = false → ¬ Claims.entryOpen s (Claims.coldPlace s) → exec .clockSweeperVisit s = .next on) ∧
        ((rdN s.mem pte 8).testBit 2 = false → Claims.entryOpen s (Claims.coldPlace s) →
          ∃ m c r, exec .clockSweeperVisit s = .next { on with mem := m, macs := c, treeRoot := r } ∧ rdN m (Claims.coldPlace s) 8 = frame ∧
            rdN m (s.coldQueue.toNat + 8) 8 = (Claims.coldAppended s + 1) % 2 ^ 64 ∧
            ∀ x, (x < s.coldQueue.toNat + 8 ∨ s.coldQueue.toNat + 16 ≤ x) →
              (x < Claims.coldPlace s ∨ Claims.coldPlace s + 8 ≤ x) → rdB m x = rdB s.mem x) ∧
        ((rdN s.mem pte 8).testBit 2 = true → ∃ m c r, exec .clockSweeperVisit s = .next { on with mem := m, macs := c, treeRoot := r } ∧
          rdN m pte 8 = rdN s.mem pte 8 - 4 ∧ ∀ x, (x < pte ∨ pte + 8 ≤ x) → rdB m x = rdB s.mem x))))) ∧
  ((∀ (s : State), let ok := s.args.flag = true ∧ 1 ≤ s.args.a ∧ s.args.a ≤ 16 ∧ s.args.b < s.args.a
    ∃ t, exec .deviceReset s = .next t ∧
      t = { State.reset with
              phase := t.phase, ndev := t.ndev, dev := t.dev, agenda := s.agenda, ticks := s.ticks
              nextId := s.nextId, record := s.args.bytes } ∧ t.cycle = 0 ∧
      (ok → t.phase = 1 ∧ t.ndev.toNat = s.args.a ∧ t.dev.toNat = s.args.b) ∧ (¬ ok → t.phase = 0)) ∧
  (∀ (s : State), (s.phase = 1 → s.args.a < 12 → ∃ t, exec .stackTrained s = .next t ∧ t = { s with trained := t.trained } ∧
      ∀ x, x ∈ t.trained ↔ x = s.args.a ∨ x ∈ s.trained) ∧
    (s.phase ≠ 1 → exec .stackTrained s = .next s)) ∧
  (∀ (s : State), (s.phase = 1 → s.trained.length = 12 → ∃ t, exec .fullService s = .next t ∧ t.phase = 2 ∧
      (s.lateFaults = [] → s.lateFails = [] → s.lateLcb = [] → t = { s with phase := 2, agenda := s.hostWait ++ s.agenda, hostWait := [] })) ∧
    (s.phase ≠ 1 ∨ s.trained.length ≠ 12 → exec .fullService s = .next s)))

namespace Sys2Proof.Claims

/-- The commands of the host but RESYNC and ATTEST (R373). -/
def hostCommand : Instr → Bool
  | .mread | .mwrite | .kmsg | .tset | .tget | .dset | .inval | .treset => true
  | .pcmdStop | .pcmdResume | .pcmdDiscard | .pcmdResumeCheckpoint | .pcmdReadState | .pcmdWriteState => true
  | .cupLoad | .cupBreak | .cupLaunch | .cupContinue | .cupDelete | .cupRegs | .cupRegsAt | .cupCsr | .cupCsrAt => true
  | .cupPreds | .cupRing | .cupKettle | .cupMq | .cupShape | .cupTile | .cupExamine | .cupCtx | .cupFill => true
  | .cupLayer | .cupDeps => true
  | _ => false

/-- The state with the host's answer; the answer of a command that gives nothing, and of one that is refused. -/
def answered (r : Resp) (s : State) : State := { s with response := r }
def accepted (s : State) : State := answered (.ok []) s
def refused (s : State) : State := answered .error s

/-- Bytes as words of eight, little-endian. -/
def inWords (l : List Byte) : List Word :=
  (List.range ((l.length + 7) / 8)).map (fun i => BitVec.ofNat 64 (natOfBytes ((l.drop (8 * i)).take 8)))

/-- The limits of a write of the 8 bytes at a descriptor offset (R374). -/
def descLimits (t : Tenant) (off : Nat) (v : Word) : Prop :=
  let lo := v.toNat % 2 ^ 32
  let hi := v.toNat / 2 ^ 32
  let q := tgetD t.queues ((off - 80) / 16) {}
  if off = 0 then lo < 4 ∧ (lo % 2 = 1 → 1 ≤ hi ∧ hi ≤ 1000000)
  else if off = 8 then v.toNat % 4096 = 0
  else if off = 16 ∨ off = 24 then v.toNat % 65536 = 0
  else if off = 32 then v.toNat % 64 = 0
  else if off = 40 then v = 0
  else if off < 80 then t.enabled = false
  else if off < 208 then
    if off % 16 = 0 then v.toNat % 64 = 0 ∧ (v ≠ 0 → q.slots ≠ 0) else lo ≤ 65536 ∧ (q.base ≠ 0 → lo ≠ 0)
  else if off < 336 then if off % 16 = 0 then v.toNat % 2 ^ 30 = 0 else v.toNat < 2 ^ 24
  else v = 0

/-- The 8 bytes a descriptor shows at an offset (R374). -/
def descShows (t : Tenant) (off : Nat) : Word :=
  let q := tgetD t.queues ((off - 80) / 16) {}
  let w := tgetD t.windows ((off - 208) / 16) {}
  if off = 0 then BitVec.ofNat 64 (t.enabled.toNat + 2 * t.trace.toNat + 2 ^ 32 * t.slice)
  else if off = 8 then t.root
  else if off = 16 then t.saveArea
  else if off = 24 then t.saveSize
  else if off = 32 then t.faultQ
  else if 80 ≤ off ∧ off < 208 then if off % 16 = 0 then q.base else BitVec.ofNat 64 (q.slots + 2 ^ 32 * q.next)
  else if 208 ≤ off ∧ off < 336 then if off % 16 = 0 then w.base else BitVec.ofNat 64 (w.len + 2 ^ 16 * w.dev)
  else 0

/-- The 8 bytes that hold a field read-only show it as it was (R374): NEXT of a launch queue. -/
def descAfter (t : Tenant) (off : Nat) (v : Word) : Word :=
  if 48 ≤ off ∧ off < 80 then 0
  else if 80 ≤ off ∧ off < 208 ∧ off % 16 = 8 then
    BitVec.ofNat 64 (v.toNat % 2 ^ 32 + 2 ^ 32 * (tgetD t.queues ((off - 80) / 16) {}).next)
  else v

/-- What RESYNC tells of a tenant (R378): flags, brews accepted and not retired, pours placed, pours faulted, NEXT of each
queue, the fault queue's TAIL, and the four counts. -/
def tenantTells (s : State) (n : Nat) : List Word :=
  let t := getTenant s n
  let w (x : Nat) : Word := BitVec.ofNat 64 x
  [w (t.enabled.toNat + 2 * t.trace.toNat),
    w (s.brews.filter (fun b => decide (b.tenant = n ∧ b.retired < b.count))).length,
    w (s.pours.filter (fun p => decide (p.tenant = n ∧ (p.st = .placed ∨ p.st = .cutting)))).length,
    w (s.pours.filter (fun p => decide (p.tenant = n ∧ p.st = .faulted))).length]
    ++ (List.range 8).map (fun q => w (tgetD t.queues q {}).next)
    ++ [w (faultTail s n), w t.annDiscarded, w t.faultsDropped, w t.decDiscarded, w t.rejected9]

/-- A command waits in its turn: for HBM4E, or behind one that does (R373, R381). -/
def inLine (i : Instr) (s : State) : State := answered .none { s with hostWait := s.hostWait ++ [.event i s.args] }

/-- A write of the reset values of an LCB by a tenant reset, at an offset (R338). -/
def lcbPut (s : State) (n : Nat) (a off : Nat) (l : List Byte) : GWrite := gwrite s n (a + off) l 3 (noWho s)

/-- FRAME 0, KA 0.5 and KD 16.0, as they stand from offset 12 on (R338). -/
def lcbFresh : List Byte := [0, 0, 0, 0, 0, 0, 0, 0x3F, 0, 0, 0x80, 0x41]

/-- The kettle of a decrement of the host (R191, R373). -/
def hostKettle (s : State) (t : Nat) (w : Word) : Prop :=
  s.args.a = t ∧ t < 16 ∧ s.args.word.toNat < 2 ^ 64 ∧ s.args.word.setWidth 64 = w ∧ dwOk s w = true

/-- A run of a line's dirty bytes begins at byte `i` (R167). -/
def runAt (d : Dirty) (i : Nat) : Prop := i < 128 ∧ d.mask.getLsbD i = true ∧ (i = 0 ∨ d.mask.getLsbD (i - 1) = false)

/-- A tenant's trace is enabled: its dirty lines are written back first, each with its entries of kind 0, and no other line (R167). -/
def wroteBack (s u : State) (tenant : Nat) : Prop :=
  u = { s with dirty := u.dirty, traces := u.traces, landed := u.landed } ∧
  (∀ d, d ∈ u.dirty ↔ d ∈ s.dirty ∧ d.tenant ≠ tenant) ∧
  (∀ cl, ∀ e ∈ tgetD u.traces cl [], e ∈ tgetD s.traces cl [] ∨ (e.tenant = tenant ∧ e.w0.toNat < 2 ^ 62)) ∧
  ∀ d ∈ s.dirty, d.tenant = tenant → ∀ i, runAt d i →
    let l := tgetD u.traces (clusterOf (homeOf (128 * d.line + i))) []
    l.length < 4096 → ∃ e ∈ l, e.tenant = tenant ∧ e.w1.toNat % 2 ^ 48 = (128 * d.line + i) % 2 ^ 48

end Sys2Proof.Claims

/-- The host's commands (R373 to R380). The layout of the answers and which commands wait are the model's choice (logs 54 to 56);
what translations and blocks INVAL drops follows log 9. Also: KMSG to another device is accepted and changes nothing (log 15), a tenant
reset drops checkpoints (log 46), a queue's base is refused while its slots are 0 (log 59), and the entries of lines that a trace
enabled writes back (log 73). -/
def Obligations.HostCommands : Prop :=
  (∀ (i : Instr) (s : State), Claims.hostCommand i = true →
    (s.phase = 0 → exec i s = .next (Claims.answered .none s)) ∧
    (s.phase ≠ 0 → s.hostWait ≠ [] → exec i s = .next (Claims.inLine i s))) ∧
  (∀ (i : Instr) (s : State), i = .resync ∨ i = .attest → s.hostWait ≠ [] → exec i s = .next (Claims.inLine i s)) ∧
  (∀ (s : State) (t va n : Nat), s.phase ≠ 0 → s.hostWait = [] → s.args.a = t → s.args.b = va →
    let bad := 16 ≤ t ∨ n = 0 ∨ 4096 < n ∨ 2 ^ 48 < va + n
    (s.args.c = n → (bad → exec .mread s = .next (Claims.refused s)) ∧
      (∀ l s1, ¬ bad → gread s t va n = .ok l s1 → exec .mread s = .next (Claims.answered (.ok (Claims.inWords l)) s1)) ∧
      (¬ bad → gread s t va n = .wait → exec .mread s = .next (Claims.inLine .mread s)) ∧
      (∀ a, ¬ bad → gread s t va n = .page a → exec .mread s = .next (Claims.refused s)) ∧
      (∀ e a, ¬ bad → gread s t va n = .error e a → exec .mread s = .next (Claims.refused s))) ∧
    (s.args.bytes.length = n → (bad → exec .mwrite s = .next (Claims.refused s)) ∧
      (¬ bad → ∃ key < 2 ^ 15, (∀ s1, gwrite s t va s.args.bytes 3 key = .ok s1 → exec .mwrite s = .next (Claims.accepted s1)) ∧
        (gwrite s t va s.args.bytes 3 key = .wait → exec .mwrite s = .next (Claims.inLine .mwrite s)) ∧
        (∀ a, gwrite s t va s.args.bytes 3 key = .page a → exec .mwrite s = .next (Claims.refused s)) ∧
        (∀ e a, gwrite s t va s.args.bytes 3 key = .error e a → exec .mwrite s = .next (Claims.refused s))))) ∧
  (∀ (s : State) (t : Nat) (w : Word), s.phase ≠ 0 → s.hostWait = [] → Claims.hostKettle s t w →
    let core := dwCore w
    let k := dwKet w
    (dwDev w ≠ 0 → exec .kmsg s = .next (Claims.accepted s)) ∧
    (dwDev w = 0 → kettleTenant s core k ≠ some t → exec .kmsg s = .next (Claims.refused s)) ∧
    (dwDev w = 0 → kettleTenant s core k = some t → isAnnounce core k = false → logging s core = false →
      exec .kmsg s = .next (Claims.accepted (decKettle s core k (dwDec w)))) ∧
    (dwDev w = 0 → kettleTenant s core k = some t → isAnnounce core k = true →
      let u := tgetD (getTenant s t).queues (k - 224) {}
      u.base ≠ 0 → (getTenant s t).enabled = true → exec .kmsg s = .next (Claims.accepted
        (updTenant s t (fun x => { x with queues := tput x.queues (k - 224) { u with kept := u.kept + dwDec w } }))))) ∧
  (∀ (s : State) (w : Word), s.phase ≠ 0 → s.hostWait = [] → s.args.word.setWidth 64 = w →
    (16 ≤ s.args.a ∨ 2 ^ 64 ≤ s.args.word.toNat ∨ dwOk s w = false) → exec .kmsg s = .next (Claims.refused s)) ∧
  (∀ (s : State) (t off : Nat) (v : Word), s.phase ≠ 0 → s.hostWait = [] → s.args.a = t → s.args.b = off → s.args.word.setWidth 64 = v →
    (16 ≤ t ∨ off % 8 ≠ 0 ∨ 512 ≤ off → exec .tset s = .next (Claims.refused s) ∧ exec .tget s = .next (Claims.refused s)) ∧
    (t < 16 → off % 8 = 0 → off < 512 →
      exec .tget s = .next (Claims.answered (.ok [Claims.descShows (getTenant s t) off]) s) ∧
      (¬ Claims.descLimits (getTenant s t) off v → exec .tset s = .next (Claims.refused s)) ∧
      (Claims.descLimits (getTenant s t) off v → ∃ x u, exec .tset s = .next (Claims.accepted (setTenant u t x)) ∧
        (x.trace = false ∨ (getTenant s t).trace = true → u = s) ∧
        (x.trace = true → (getTenant s t).trace = false → Claims.wroteBack s u t) ∧
        Claims.descShows x off = Claims.descAfter (getTenant s t) off v ∧
        (∀ o, o % 8 = 0 → o ≠ off → Claims.descShows x o = Claims.descShows (getTenant s t) o) ∧
        (∀ j < 32, x.secret.toNat / 2 ^ (8 * j) % 2 ^ 8 =
          if 48 ≤ off ∧ off < 80 ∧ off ≤ 48 + j ∧ 48 + j < off + 8 then v.toNat / 2 ^ (8 * (48 + j - off)) % 2 ^ 8
          else (getTenant s t).secret.toNat / 2 ^ (8 * j) % 2 ^ 8)))) ∧
  (∀ (s : State) (v : Word), s.phase ≠ 0 → s.hostWait = [] → s.args.word.setWidth 64 = v →
    (s.args.a = 0 → exec .dset s = .next (Claims.accepted { s with frameTable := v })) ∧
    (s.args.a = 1 → exec .dset s = .next (Claims.accepted { s with coldQueue := v })) ∧
    (s.args.a = 2 → exec .dset s = .next (Claims.accepted { s with watermark := v })) ∧
    (s.args.a = 3 → s.args.b < 16 → v.toNat % 128 = 0 → v.toNat < 2 ^ 48 →
      exec .dset s = .next (Claims.accepted (updTenant s s.args.b (fun t => { t with lcb := v })))) ∧
    (3 < s.args.a ∨ (s.args.a = 3 ∧ (16 ≤ s.args.b ∨ v.toNat % 128 ≠ 0 ∨ 2 ^ 48 ≤ v.toNat)) →
      exec .dset s = .next (Claims.refused s))) ∧
  (∀ (s : State), s.phase ≠ 0 → s.hostWait = [] →
    (16 ≤ s.args.a ∨ 2 ^ 96 ≤ s.args.word.toNat → exec .inval s = .next (Claims.refused s)) ∧
    (s.args.a < 16 → s.args.word.toNat < 2 ^ 96 → ∃ t, exec .inval s = .next (Claims.accepted t) ∧
      t = { s with tlb := t.tlb, resident := t.resident, macs := t.macs, treeRoot := t.treeRoot } ∧
      (∀ e, e ∈ t.tlb ↔ e ∈ s.tlb ∧ ¬ (e.tenant = s.args.a ∧ s.args.word.getLsbD e.cluster = true)) ∧
      ∀ r, r ∈ t.resident ↔ r ∈ s.resident ∧
        ¬ (r.tenant = s.args.a ∧ s.args.word.getLsbD (clusterOf (homeOf (256 * r.block))) = true))) ∧
  (∀ (s : State) (n : Nat), s.phase ≠ 0 → s.hostWait = [] → s.args.a = n →
    (16 ≤ n → exec .treset s = .next (Claims.refused s)) ∧
    (n < 16 → ∃ t, exec .treset s = .next (Claims.accepted t) ∧ (∀ p ∈ t.pours, p.tenant ≠ n) ∧ (∀ b ∈ t.brews, b.tenant ≠ n) ∧
      (∀ l ∈ t.layers, l.tenant ≠ n) ∧ (∀ c ∈ t.closes, c.tenant ≠ n) ∧ (∀ f ∈ t.fills, f.tenant ≠ n) ∧
      (∀ c ∈ t.ckpts, c.2.tenant ≠ n) ∧ (∀ h ∈ t.heldCores, h.2.1 ≠ n) ∧ (∀ b ∈ t.cupBrews, b.1 ≠ n) ∧
      (let x := getTenant t n
       let y := getTenant s n
       x.nextBrew = 0 ∧ x.direct = [] ∧ x.ranges = [] ∧ x.enabled = y.enabled ∧ x.root = y.root ∧ x.secret = y.secret ∧
         x.slice = y.slice ∧ x.lcb = y.lcb ∧
         ∀ q, (tgetD x.queues q {}).base = (tgetD y.queues q {}).base ∧ (tgetD x.queues q {}).slots = (tgetD y.queues q {}).slots ∧
           (tgetD x.queues q {}).next = 0 ∧ (tgetD x.queues q {}).kept = 0) ∧
      (∀ p ∈ s.pours, p.tenant = n → (∀ k ∈ t.cores, (∀ x ∈ k.2.tokens, x.pour ≠ p.id) ∧ (∀ x ∈ k.2.banks, x.2.pour ≠ p.id) ∧
          (∀ x ∈ k.2.setups, x.2.pour ≠ p.id) ∧ ∀ x ∈ k.2.slots, (getCtx s x.2).pour = p.id → (getCtx s x.2).key = x.2 →
            (getCtx s x.2).st = .free) ∧
        (p.st = .placed ∨ p.st = .cutting → ∀ k, Claims.inRect p.w p.h p.ox p.oy k → p.ox + p.w ≤ 64 →
          (getCore t k).shot = none ∧ (getCore t k).kettles = [] ∧ (getCore t k).allow = [] ∧ (getCore t k).rings = [])) ∧
      ((getTenant s n).lcb = 0 → (∀ p ∈ s.pours, p.tenant ≠ n) → t.mem = s.mem) ∧
      ((getTenant s n).lcb ≠ 0 → let a := (getTenant s n).lcb.toNat
        ∃ u, u.tenants = t.tenants ∧ u.pours = t.pours ∧ ((∀ p ∈ s.pours, p.tenant ≠ n) → u.mem = s.mem) ∧
          (Claims.lcbPut u n a 12 Claims.lcbFresh = .wait → t = { u with lateLcb := u.lateLcb ++ [n] }) ∧
          ∀ s1 s2, Claims.lcbPut u n a 12 Claims.lcbFresh = .ok s1 → Claims.lcbPut s1 n a 96 [0, 0, 0, 0] = .ok s2 → t = s2))) ∧
  (∀ (s : State), s.hostWait = [] → let w (x : Nat) : Word := BitVec.ofNat 64 x
    let words (x : BitVec 512) : List Word := (List.range 8).map (fun i => w (x.toNat / 2 ^ (64 * i)))
    exec .resync s = .next (Claims.answered (.ok ([w s.phase, w s.trained.length] ++ words Config.firmwareHash
      ++ words (Config.recordHash s.ndev s.dev s.record) ++ (List.range 8).map (fun d => w (dieLevel s d))
      ++ (List.range 16).flatMap (Claims.tenantTells s))) s) ∧
    (s.phase < 256 → exec .attest s = .next (Claims.answered (.ok (Claims.inWords (bytesOfNat 32 s.args.word.toNat
      ++ bytesOfNat 32 Config.identityKey.toNat ++ bytesOfNat 64 Config.firmwareHash.toNat ++ bytesOfNat 64 (Config.recordHash s.ndev s.dev s.record).toNat
      ++ bytesOfNat 1 s.phase ++ bytesOfNat 64 (Config.signature (attestReport s s.args.word)).toNat))) s)))

namespace Sys2Proof.Claims

/-- The pour the operands name: tenant, brew number and index (R373). -/
def named (s : State) (p : Pour) : Prop :=
  s.phase ≠ 0 ∧ s.hostWait = [] ∧ s.pours.find? (fun q => q.tenant == s.args.a && q.brew == s.args.b && q.idx == s.args.c) = some p

/-- The operands name no pour that has a record; `unplaced` if they name one that was accepted and never placed, of brew `b`. -/
def unnamed (s : State) : Prop := s.phase ≠ 0 ∧ s.hostWait = [] ∧ argPour s = none
def unplaced (s : State) (b : Brew) : Prop :=
  findBrew s s.args.a s.args.b = some b ∧ b.nextIdx ≤ s.args.c ∧ s.args.c < b.count ∧ s.args.c ∉ b.taken

/-- It does not run, and this is its recorded state. -/
def onImage (s : State) (p : Pour) (img : Image) : Prop := named s p ∧ p.image = some img

/-- Context `key` of the recorded state. -/
def recorded (img : Image) (key : Nat) (c : Ctx) : Prop := img.ctxs.find? (fun x => x.key == key) = some c

/-- The image in which a context stands instead of the one of its key. -/
def withCtx (img : Image) (c : Ctx) : Image := { img with ctxs := mapFirst (fun x => x.key == c.key) (fun _ => c) img.ctxs }

/-- The pour with a recorded state, and in a state of its life. -/
def withImage (s : State) (p : Pour) (img : Image) : State := updPour s p.id (fun q => { q with image := some img })
def withSt (s : State) (p : Pour) (st : PourSt) : State := updPour s p.id (fun q => { q with st := st })

/-- Number and value of every register of a list that is not zero. -/
def nonzero (l : List (Nat × Word)) : List Word := l.flatMap (fun x => if x.2 = 0 then [] else [BitVec.ofNat 64 x.1, x.2])

/-- The operands of PCMD's reads and writes of recorded state: context key, class, index and value (R373). -/
def pieceAt (s : State) (key cls i : Nat) (x : Word) : Prop :=
  s.args.d = key ∧ s.args.word.toNat / 2 ^ 64 % 2 ^ 16 = cls ∧ s.args.word.toNat / 2 ^ 80 % 2 ^ 64 = i ∧
    BitVec.ofNat 64 (s.args.word.toNat % 2 ^ 64) = x

/-- A context that fills a block, on the part or recorded by a cut; a context that asks for the block there (R303, R306). -/
def generates (s : State) (t n b : Nat) (c : Ctx) : Prop :=
  (c ∈ allCtxs s ∨ ∃ p ∈ s.pours, p.tenant = t ∧ ∃ img, p.image = some img ∧ c ∈ img.ctxs) ∧
    ∃ g, c.gen = some g ∧ g.tenant = t ∧ g.range = n ∧ g.block = b
def asks (s : State) (t n b k : Nat) : Prop :=
  ∃ f ∈ s.fills, f.tenant = t ∧ f.range = n ∧ f.block = b ∧ ∃ q ∈ f.reqs, reqKey s q = some k

/-- An instruction of the context is In flight, stalled or with its stall just over (R13). -/
def atWork (c : Ctx) : Prop := (∃ w, c.st = .inFlight w) ∨ (c.again = true ∧ c.stalled = true)

/-- Every generator of the recorded state generates in another image too. -/
def keepsGens (old new : Image) : Prop := ∀ x ∈ old.ctxs, ∀ g, x.gen = some g → ∃ y ∈ new.ctxs, y.gen = some g

/-- The core of the stop: the home core of the lowest context that escalation stopped, else the pour's first core (the model's
choice, log 53). -/
def stopAt (img : Image) (core : Nat) : Prop :=
  (∃ c ∈ img.ctxs, c.stopped = true ∧ homeCore c.key = core ∧ ∀ x ∈ img.ctxs, x.stopped = true → c.key ≤ x.key) ∨
    ((∀ x ∈ img.ctxs, x.stopped = false) ∧ core = 64 * img.oy + img.ox)

end Sys2Proof.Claims

/-- PCMD (R201, R214, R373). Operand layout and conditions are the model's choice (logs 46, 54 and 81). Cupping's commands that act (R299, R337). -/
def Obligations.PourAndCuppingActs : Prop :=
  ((∀ (i : Instr) (s : State), Claims.unnamed s →
    (i = .pcmdResume ∨ i = .pcmdResumeCheckpoint ∨ i = .pcmdReadState ∨ i = .pcmdWriteState → exec i s = .next (Claims.refused s)) ∧
    (i = .pcmdStop ∨ i = .pcmdDiscard → (∀ b, ¬ Claims.unplaced s b) → exec i s = .next (Claims.refused s))) ∧
  (∀ (s : State) (b : Brew), Claims.unnamed s → Claims.unplaced s b →
    let taken : Brew := { b with taken := b.taken ++ [s.args.c] }
    (∃ t, exec .pcmdStop s = .next (Claims.accepted t) ∧ findBrew t s.args.a s.args.b = some taken ∧
      t.pours = s.pours ++ [{ id := s.nextId, tenant := b.tenant, brew := b.num, idx := s.args.c, w := b.width, h := b.height
                              ox := 0, oy := 0, st := .stopped }] ∧
      t = { s with pours := t.pours, brews := t.brews, nextId := s.nextId + 1 }) ∧
    ((∀ q ∈ s.pours, q.id ≠ s.nextId) → (∀ c ∈ allCtxs s, c.pour ≠ s.nextId) →
      (∀ k ∈ s.cores, ∀ x ∈ k.2.tokens, x.pour ≠ s.nextId) → ∃ t, exec .pcmdDiscard s = .next (Claims.accepted t) ∧ t.pours = s.pours ∧
      findBrew t s.args.a s.args.b = some { taken with retired := b.retired + 1 } ∧ t.mem = s.mem)) ∧
  (∀ (s : State) (p : Pour), Claims.named s p → findPour s p.id = some p →
    (p.st = .placed → (∀ c ∈ s.cuts, c.pour ≠ p.id) → ∃ t, exec .pcmdStop s = .next (Claims.accepted t) ∧
      findPour t p.id = some { p with st := .cutting } ∧
      t.cuts = s.cuts ++ [{ pour := p.id, units := p.cores, frees := true, next := .stopped }] ∧
      t = { s with pours := t.pours, cuts := t.cuts }) ∧
    (p.st = .saved → exec .pcmdStop s = .next (Claims.accepted (Claims.withSt s p .stopped))) ∧
    (p.st = .stopped ∨ p.st = .faulted → exec .pcmdStop s = .next (Claims.accepted s)) ∧
    (p.st = .placed ∨ p.st = .cutting ∨ p.st = .saved → exec .pcmdResume s = .next (Claims.refused s)) ∧
    (p.st = .stopped ∨ p.st = .faulted → exec .pcmdResume s = .next (Claims.accepted (Claims.withSt s p .saved))) ∧
    (p.image = none → exec .pcmdReadState s = .next (Claims.refused s) ∧ exec .pcmdWriteState s = .next (Claims.refused s)) ∧
    (∃ t, exec .pcmdDiscard s = .next (Claims.accepted t) ∧ (∀ q ∈ t.pours, q.id ≠ p.id) ∧ (∀ q ∈ t.net, ∃ r ∈ s.net, r.id = q.id) ∧
      (∀ v ∈ t.saves, v.pour ≠ p.id) ∧
      ∀ b, findBrew s p.tenant p.brew = some b → findBrew t p.tenant p.brew = some { b with retired := b.retired + 1 })) ∧
  (∀ (s : State) (p : Pour) (img : Image), Claims.onImage s p img →
    let still := p.st = .stopped ∨ p.st = .faulted
    (∀ c, tget s.ckpts s.args.d = some c →
      let same := c.stored = true ∧ c.tenant = p.tenant ∧ c.brew = p.brew ∧ c.idx = p.idx ∧ still
      (same → Claims.keepsGens img c.image → ∃ t, exec .pcmdResumeCheckpoint s = .next (Claims.accepted t) ∧
        t = { updPour s p.id (fun q => { q with st := .saved, image := some c.image, ox := c.image.ox, oy := c.image.oy }) with
          saves := s.saves.filter (fun v => v.pour != p.id) ++ c.saves
          net := t.net, fills := t.fills, lateFails := t.lateFails } ∧ t.net.map Packet.id = s.net.map Packet.id) ∧
      (same → ∃ t, exec .pcmdResumeCheckpoint s = .next (Claims.accepted t)) ∧
      (¬ same → exec .pcmdResumeCheckpoint s = .next (Claims.refused s))) ∧
    (tget s.ckpts s.args.d = none → exec .pcmdResumeCheckpoint s = .next (Claims.refused s))) ∧
  (∀ (s : State) (p : Pour) (img : Image) (key cls i : Nat) (c : Ctx) (x : Word), Claims.onImage s p img →
    Claims.pieceAt s key cls i x → Claims.recorded img key c →
    let reads (v : Word) := exec .pcmdReadState s = .next (Claims.answered (.ok [v]) s)
    let writes (c1 : Ctx) := exec .pcmdWriteState s = .next (Claims.accepted (Claims.withImage s p (Claims.withCtx img c1)))
    (cls = 0 → i < 32 → reads (c.rs (BitVec.ofNat 5 i)) ∧ writes (c.ws (BitVec.ofNat 5 i) x)) ∧
    (cls = 1 → i < 8 → reads (c.rp (BitVec.ofNat 3 i)) ∧ writes (c.wp (BitVec.ofNat 3 i) x)) ∧
    (cls = 2 → i < 512 → reads (BitVec.ofNat 64 ((vget c.v (i / 32) 0).toNat / 2 ^ (64 * (i % 32)) % 2 ^ 64)) ∧
      ∃ r : VReg, writes { c with v := vset c.v (i / 32) r } ∧
        ∀ j < 32, r.toNat / 2 ^ (64 * j) % 2 ^ 64 = if j = i % 32 then x.toNat else (vget c.v (i / 32) 0).toNat / 2 ^ (64 * j) % 2 ^ 64) ∧
    (cls = 3 → i = 0 → reads (c.pc.setWidth 64) ∧
      (x.toNat < 2 ^ 48 → x.toNat % 4 = 0 → writes { c with pc := x.setWidth 48, again := false, fetched := false }) ∧
      (2 ^ 48 ≤ x.toNat ∨ x.toNat % 4 ≠ 0 → exec .pcmdWriteState s = .next (Claims.refused s))) ∧
    (cls = 4 → 0x100 ≤ i → i < 0x104 → reads (vget c.bpa (i - 0x100) 0) ∧
      writes { c with bpa := vset c.bpa (i - 0x100) (x &&& 0x0000_FFFF_FFFF_FFFC) }) ∧
    (cls = 4 → i = 0x005 → reads c.tval ∧ writes { c with tval := x }) ∧
    (cls = 5 → i < 16 → i % 2 = 0 → reads ((vget c.g (i / 2) {}).base.setWidth 64) ∧
      (x.toNat < 2 ^ 48 → (vget c.g (i / 2) {}).kind ≠ 3 →
        writes { c with g := vset c.g (i / 2) { vget c.g (i / 2) {} with base := x.setWidth 48 } })) ∧
    (cls = 6 → winKind i ≤ 1 → i % 8 = 0 → winRange (viewOf s p img) i 8 = true → (∃ k ∈ img.cores, k.1 = winCore i) →
      ∃ m, exec .pcmdWriteState s = .next (Claims.accepted (Claims.withImage s p { img with cells := m })) ∧
        rdN m (winKey i) 8 = x.toNat ∧ ∀ a, (a < winKey i ∨ winKey i + 8 ≤ a) → rdB m a = rdB img.cells a) ∧
    (∀ k, cls = 8 → img.cores.find? (fun k => k.1 == homeCore key) = some k →
      reads (BitVec.ofNat 64 (tgetD k.2.allow i 0)) ∧
      (2 ^ 16 ≤ x.toNat → exec .pcmdWriteState s = .next (Claims.refused s))) ∧
    (cls = 9 → i < 8 → reads (BitVec.ofNat 64 (natOfBytes ((c.frec.bytes.drop (8 * i)).take 8))) ∧
      ∃ f : FaultRec, writes { c with frec := f } ∧ (i = 0 → f.cause = x.setWidth 8) ∧ (i = 1 → f.addr = x) ∧ (i = 2 → f.trpc = x) ∧
        (i ≠ 0 → f.cause = c.frec.cause) ∧ (i ≠ 1 → f.addr = c.frec.addr) ∧ (i ≠ 2 → f.trpc = c.frec.trpc)) ∧
    (cls = 10 → i = 0 → reads c.instret ∧ writes { c with instret := x }) ∧
    (∀ core k n, core = homeCore key → img.cores.find? (fun k => k.1 == core) = some k →
      let writesCore (f : CoreSt → CoreSt) := exec .pcmdWriteState s = .next (Claims.accepted (Claims.withImage s p (updImgCore img core f)))
      (∀ o, cls = 11 → i = 32 * n + 1 → k.2.cq[n]? = some o → reads o.src ∧
        ∃ l, writesCore (fun k => { k with cq := l }) ∧ ∀ m, l[m]? = if m = n then some { o with src := x } else k.2.cq[m]?) ∧
      (∀ o, cls = 12 → i = 2 ^ 14 * n + 1 → k.2.mq[n]? = some o → reads o.recOff ∧
        ∃ l, writesCore (fun k => { k with mq := l }) ∧ ∀ m, l[m]? = if m = n then some { o with recOff := x } else k.2.mq[m]?)) ∧
    (∀ n q w y len sender tenant, cls = 13 → i = 16 * n + 2 → img.logs[n]? = some q → q.body = .msg w y len sender tenant →
      reads sender ∧ ∃ l, exec .pcmdWriteState s = .next (Claims.accepted (Claims.withImage s p { img with logs := l })) ∧
        ∀ m, l[m]? = if m = n then some { q with body := .msg w y len x tenant } else img.logs[m]?) ∧
    (∀ v, cls = 14 → v = 14 ∨ v = 15 → i = 2 * v → (tget c.binds v = none → reads 0) ∧
      (∀ b, tget c.binds v = some b → reads (BitVec.ofNat 64 (b.stride + b.perSlot * 2 ^ 32 + b.out.toNat * 2 ^ 48 + b.ring * 2 ^ 52 + 2 ^ 63))) ∧
      (x.getLsbD 63 = false → writes { c with binds := tdel c.binds v })) ∧
    (cls = 15 → i = 1 → reads (c.pc.setWidth 64)) ∧
    (15 ≤ cls → exec .pcmdWriteState s = .next (Claims.refused s)) ∧
    (17 < cls → exec .pcmdReadState s = .next (Claims.refused s)))) ∧
  ((∀ (s : State), s.phase ≠ 0 → s.hostWait = [] → s.args.a < 16 → s.args.b + s.args.d ≤ 2 ^ 48 → s.args.c + s.args.bytes.length ≤ 2 ^ 48 →
    ∃ key, ∀ s1 s2, gwrite s s.args.a s.args.b (s.args.bytes.take s.args.d) 3 key = .ok s1 →
      gwrite s1 s.args.a s.args.c (s.args.bytes.drop s.args.d) 3 key = .ok s2 →
      exec .cupLoad s = .next (Claims.accepted s2)) ∧
  (∀ (s : State), s.phase ≠ 0 → s.hostWait = [] →
    (∀ i < 4, vget s.breaks i none = none → (∀ j < i, vget s.breaks j none ≠ none) →
      let off : Addr := BitVec.ofNat 48 (s.args.word.toNat / 4 % 2 ^ 46 * 4)
      exec .cupBreak s = .next (Claims.answered (.ok [BitVec.ofNat 64 i]) { s with breaks := vset s.breaks i (some off) })) ∧
    ((∀ j < 4, vget s.breaks j none ≠ none) → exec .cupBreak s = .next (Claims.refused s))) ∧
  (∀ (s : State) (u : Queue), s.phase ≠ 0 → s.hostWait = [] → s.args.a < 16 → tgetD (getTenant s s.args.a).queues 0 {} = u →
    (u.base = 0 ∨ u.slots ≤ u.kept ∨ s.args.bytes.length ≠ 64 → exec .cupLaunch s = .next (Claims.refused s)) ∧
    (u.base ≠ 0 → u.kept < u.slots → s.args.bytes.length = 64 → ∃ key, ∀ s1,
      gwrite s s.args.a (u.base.toNat + 64 * ((u.next + u.kept) % u.slots)) s.args.bytes 3 key = .ok s1 →
      exec .cupLaunch s = .next (Claims.accepted
        (updTenant s1 s.args.a (fun t => { t with queues := tput t.queues 0 { u with kept := u.kept + 1 } }))))) ∧
  (∀ (s : State) (p : Pour) (img : Image), Claims.onImage s p img →
    (p.st = .stopped ∨ p.st = .faulted → exec .cupContinue s = .next (Claims.accepted { Claims.withSt (Claims.withImage s p
      { img with ctxs := img.ctxs.map (fun c => if c.stopped then
          { c with tcause := c.tcause &&& 0x7FFF_FFFF_FFFF_FFFF, dbg := c.dbg ||| 2, stopped := false } else c) })
      p .saved with cupBrews := s.cupBrews ++ [(p.tenant, p.brew)] })) ∧
    (p.st = .saved → exec .cupContinue s = .next (Claims.refused s)) ∧
    (3 < s.args.d → exec .cupDelete s = .next (Claims.refused s)) ∧
    (s.args.d ≤ 3 → ∃ f : Word → Word, exec .cupDelete s = .next (Claims.accepted (Claims.withImage
        (updPour { s with breaks := vset s.breaks s.args.d none } p.id (fun q => { q with breaks := vset q.breaks s.args.d none })) p
        { img with ctxs := img.ctxs.map (fun c => { c with dbg := f c.dbg }) })) ∧
      ∀ (w : Word) (j : Nat), (f w).getLsbD j = (w.getLsbD j && decide (j ≠ 4 + s.args.d)))) ∧
  (∀ (s : State), Claims.unnamed s → s.args.d ≤ 3 →
    exec .cupDelete s = .next (Claims.accepted { s with breaks := vset s.breaks s.args.d none })))

/-- Cupping's commands that read (R299, R316, R334, R337, R360, R362). Layouts are the model's choice (logs 53 and 54). -/
def Obligations.CuppingReads : Prop :=
  (∀ (s : State) (p : Pour) (img : Image) (core : Nat), Claims.onImage s p img → Claims.stopAt img core →
    let ok (l : List Word) : Out := .next (Claims.answered (.ok l) s)
    let v := viewOf s p img
    let d := s.args.d
    let home (c : Ctx) : CoreSt := ((img.cores.find? (fun k => k.1 == homeCore c.key)).map Prod.snd).getD {}
    let regs (c : Ctx) : List Word := Claims.nonzero ((List.range 31).map (fun i => (i + 1, c.rs (BitVec.ofNat 5 (i + 1)))))
    (∀ c, Claims.recorded img (keyOf core 0) c → exec .cupRegs s = ok (regs c) ∧
      exec .cupPreds s = ok (Claims.nonzero ((List.range 7).map (fun i => (i + 1, c.rp (BitVec.ofNat 3 (i + 1)))))) ∧
      (d = 0x004 → exec .cupCsr s = ok [c.tcause]) ∧ (d = 0x005 → exec .cupCsr s = ok [c.tval]) ∧
      (d = 0x00C → exec .cupCsr s = ok [if img.phase = 2 then (home c).pstate.setWidth 64 else 3]) ∧
      (d = 0x00D → exec .cupCsr s = ok [((home c).duty img.halves).setWidth 64]) ∧ (d = 0x00E → exec .cupCsr s = ok [img.cycle]) ∧
      (d = 0x040 → exec .cupCsr s = ok [(home c).lsplit]) ∧
      (csrKnown d = true → exec .cupCsr s = ok [imgCsr img c d]) ∧ (csrKnown d = false → exec .cupCsr s = .next (Claims.refused s))) ∧
    (∀ c, Claims.recorded img d c → exec .cupRegsAt s = ok (regs c) ∧
      (s.args.word.toNat % 2 ^ 16 = 0x004 → exec .cupCsrAt s = ok [c.tcause]) ∧
      (s.args.word.toNat % 2 ^ 16 = 0x006 → exec .cupCsrAt s = ok [c.trpc])) ∧
    ((∀ c ∈ img.ctxs, c.key ≠ d) → exec .cupRegsAt s = .next (Claims.refused s)) ∧
    (d < 16 → exec .cupRing s = ok (Claims.inWords (ringBytes v core d))) ∧
    (16 ≤ d → exec .cupRing s = .next (Claims.refused s)) ∧
    (∀ k, s.args.word.toNat % 2 ^ 16 = k → k < 256 → (∃ x ∈ img.cores, x.1 = d) →
      exec .cupKettle s = ok (Claims.inWords (kettleBytes v d k))) ∧
    (∀ x, img.cores.find? (fun k => k.1 == core) = some x → ∃ l, exec .cupMq s = ok l ∧ l.length = 2 * x.2.mq.length ∧
      ∀ n o, x.2.mq[n]? = some o → l[2 * n + 1]? = some o.recOff) ∧
    (d + 64 ≤ 1408 * 1024 →
      let r : Shape := BitVec.ofNat 512 (natOfBytes (rdBytes img.cells (winKey (winAddr core 0 d)) 64))
      exec .cupShape s = ok (([r.m, r.n, r.k, r.fmtA, r.fmtB, r.fmtAcc, r.flags, r.strideA, r.offA, r.strideB, r.offB, r.lda, r.ldb,
        r.qsa, r.qsb, r.drain, r.jcount, r.jrole, r.jtag, r.dest.toNat] : List Nat).map (BitVec.ofNat 64))) ∧
    (∀ rows cols, s.args.word.toNat % 2 ^ 16 = rows → s.args.word.toNat / 2 ^ 16 % 2 ^ 16 = cols → d < 4 → rows ≤ 128 → cols ≤ 128 →
      ∃ l, exec .cupTile s = ok l ∧ l.length = rows * cols ∧ ∀ m n, m < rows → n < cols → l[m * cols + n]? =
        some (BitVec.ofNat 64 (natOfBytes (rdBytes img.cells (Claims.tileRow core d m + 4 * n) 4)))) ∧
    (∀ c n l s1, Claims.recorded img (keyOf core 0) c → d < 8 → s.args.word.toNat / 2 ^ 64 % 2 ^ 16 = n → n ≠ 0 →
      (vget c.g d {}).kind = 0 →
      gread s p.tenant (((vget c.g d {}).base.toNat + s.args.word.toNat % 2 ^ 64) % 2 ^ 48) (4 * n) = .ok l s1 →
      exec .cupExamine s = ok ((List.range n).map (fun i => BitVec.ofNat 64 (natOfBytes ((l.drop (4 * i)).take 4))))) ∧
    (∃ l, exec .cupCtx s = ok l ∧ l.length = 5 * img.ctxs.length ∧
      ∀ c ∈ img.ctxs, ∃ i < img.ctxs.length, l[5 * i + 1]? = some (c.pc.setWidth 64) ∧
        ∀ w, l[5 * i]? = some w → w.toNat % 2 ^ 16 = c.key % 2 ^ 15 ∧ (Claims.atWork c → w.toNat / 2 ^ 16 % 8 = 2)) ∧
    (∀ va, s.args.word.toNat % 2 ^ 48 = va → (∀ r ∈ (getTenant s p.tenant).ranges, va < r.2.base ∨ r.2.base + r.2.len ≤ va) →
      exec .cupFill s = ok [0]) ∧
    (∀ va n r l s1, s.args.word.toNat % 2 ^ 48 = va → rangeAt s p.tenant va = some (n, r) →
      let b := (va - r.base) / 2 ^ r.blog
      gread s p.tenant (r.state + b / 4) 1 = .ok l s1 →
      let st := (l.headD 0).toNat / 2 ^ (2 * (b % 4)) % 4
      ∃ more, exec .cupFill s = ok (BitVec.ofNat 64 (st + n * 2 ^ 8 + 2 ^ 15 + b * 2 ^ 32) :: more) ∧ (st ≠ 1 → more = []) ∧
        (st = 1 → ∃ gen reqs, more = gen :: reqs ∧
          ((gen = BitVec.allOnes 64 ∧ ∀ c, ¬ Claims.generates s p.tenant n b c) ∨
            ∃ c, Claims.generates s p.tenant n b c ∧ gen = BitVec.ofNat 64 (c.key % 2 ^ 15)) ∧
          ∀ w, w ∈ reqs ↔ ∃ k, Claims.asks s p.tenant n b k ∧ w = BitVec.ofNat 64 (k % 2 ^ 15)))) ∧
  (∀ (s : State) (b : Brew) (n : Nat) (l : List Byte) (s1 : State), Claims.unnamed s → findBrew s s.args.a s.args.b = some b →
    s.args.d < 8 → s.args.word.toNat / 2 ^ 64 % 2 ^ 16 = n → n ≠ 0 →
    (b.retired ≠ b.count → exec .cupExamine s = .next (Claims.refused s)) ∧
    (b.retired = b.count → (vget b.segs s.args.d {}).kind = 0 →
      gread s b.tenant (((vget b.segs s.args.d {}).base.toNat + s.args.word.toNat % 2 ^ 64) % 2 ^ 48) (4 * n) = .ok l s1 →
      exec .cupExamine s = .next (Claims.answered
        (.ok ((List.range n).map (fun i => BitVec.ofNat 64 (natOfBytes ((l.drop (4 * i)).take 4))))) s))) ∧
  (∀ (s : State) (i : Instr), Claims.unnamed s → (i = .cupRegs ∨ i = .cupRegsAt ∨ i = .cupCsr ∨ i = .cupCsrAt ∨
      i = .cupPreds ∨ i = .cupRing ∨ i = .cupKettle ∨ i = .cupMq ∨ i = .cupShape ∨ i = .cupTile ∨ i = .cupCtx ∨ i = .cupFill ∨
      i = .cupContinue) → exec i s = .next (Claims.refused s)) ∧
  (∀ (s : State) (t id : Nat) (l : Layer), s.phase ≠ 0 → s.hostWait = [] → s.args.a = t → s.args.d = id → t < 16 → id < 65536 →
    s.layers.find? (fun x => x.tenant == t && x.id == id) = some l →
    exec .cupLayer s = .next (Claims.answered (.ok (1 :: Claims.inWords (l.bytes true))) s) ∧
    ((∀ i < 4, (l.deps.toList.getD i {caster := 0, weight := 0, x := 0, y := 0}).caster = 0xFFFF_FFFF) →
      exec .cupDeps s = .next (Claims.answered (.ok [l.parent.setWidth 64, l.child.setWidth 64]) s))) ∧
  (∀ (s : State) (t id : Nat), s.phase ≠ 0 → s.hostWait = [] → s.args.a = t → s.args.d = id → t < 16 → id < 65536 →
    (∀ x ∈ s.layers, ¬ (x.tenant = t ∧ x.id = id)) →
    let a := (getTenant s t).lcb.toNat
    (a = 0 → exec .cupLayer s = .next (Claims.refused s) ∧ exec .cupDeps s = .next (Claims.refused s)) ∧
    ∀ m s1, a ≠ 0 → gread s t a 16 = .ok m s1 →
      let table := natOfBytes (m.take 8)
      let cap := natOfBytes ((m.drop 8).take 4)
      (cap ≤ id → exec .cupLayer s = .next (Claims.refused s) ∧ exec .cupDeps s = .next (Claims.refused s)) ∧
      ∀ l s2, id < cap → gread s t (table + 256 * id) 256 = .ok l s2 →
        exec .cupLayer s = .next (Claims.answered (.ok (0 :: Claims.inWords l)) s) ∧
        ∃ r, exec .cupDeps s = .next (Claims.answered (.ok r) s))

/-- The state after reset (R374, R381; logs 1, 2 and 3). -/
def Obligations.ResetState : Prop :=
  State.reset.phase = 1 ∧ State.reset.mem = [] ∧ Memory.wf State.reset.mem = true ∧ (∀ a, rdB State.reset.mem a = 0) ∧
  (∀ t, let x := getTenant State.reset t
    x.enabled = false ∧ x.trace = false ∧ x.slice = 0 ∧ x.root = 0 ∧ x.saveArea = 0 ∧ x.saveSize = 0 ∧ x.faultQ = 0 ∧ x.secret = 0 ∧
      (∀ q, let u := tgetD x.queues q {}; u.base = 0 ∧ u.slots = 0 ∧ u.next = 0 ∧ u.kept = 0) ∧
      (∀ w, let u := tgetD x.windows w {}; u.base = 0 ∧ u.len = 0 ∧ u.dev = 0) ∧ x.lcb = 0 ∧ x.ranges = [] ∧ x.direct = [] ∧
      x.nextBrew = 0 ∧ x.annDiscarded = 0 ∧ x.faultsDropped = 0 ∧ x.decDiscarded = 0 ∧ x.rejected9 = 0) ∧ State.reset.brews = [] ∧ State.reset.pours = [] ∧ State.reset.cuts = [] ∧
  State.reset.ckpts = [] ∧ State.reset.saves = [] ∧ State.reset.net = [] ∧ State.reset.joins = [] ∧
  State.reset.fills = [] ∧ State.reset.layers = [] ∧ State.reset.closes = [] ∧
  State.reset.tlb = [] ∧ State.reset.resident = [] ∧ State.reset.traces = [] ∧ State.reset.hostWait = [] ∧ State.reset.breaks = Vector.replicate 4 none ∧
  (∀ key, let c := getCtx State.reset key
    c.st = .free ∧ c.pc = 0 ∧ c.s = Vector.replicate 32 0 ∧ c.v = Vector.replicate 16 0 ∧ c.p = Vector.replicate 8 0 ∧
    c.g = Vector.replicate 8 { base := 0, limit := 0, rights := 0, kind := 0 } ∧ (c.rmode, c.vlive, c.tvec, c.upvec, c.tcause, c.tval, c.trpc, c.dbg) = (0, 0, 0, 0, 0, 0, 0, 0) ∧
    c.bpa = Vector.replicate 4 0 ∧ c.instret = 0 ∧ c.charged = [] ∧ c.deferred = [] ∧ c.upcalls = [] ∧ c.binds = []) ∧
  (∀ k, (getCore State.reset k).powered = true ∧ (getCore State.reset k).shot = none ∧
    (getCore State.reset k).kettles = [] ∧ (getCore State.reset k).rings = [] ∧ (getCore State.reset k).bars = [] ∧
    (getCore State.reset k).mq = [] ∧ (getCore State.reset k).cq = [] ∧ (getCore State.reset k).lsplit = 0 ∧
    (getCore State.reset k).fduty = 16 ∧ (getCore State.reset k).nextDuty = none ∧ (getCore State.reset k).pstate = 0) ∧
  State.reset.cycle = 0 ∧ State.reset.halves = 0 ∧ State.reset.dirty = [] ∧ State.reset.macs = [] ∧ State.reset.treeRoot = [] ∧
  State.reset.record = [] ∧ State.reset.cupBrews = []

/-- The invariant of memory. -/
def Obligations.StepKeepsMemory : Prop :=
  ∀ s s' : State, Memory.wf s.mem = true → Sys2Proof.Machine.step s = .next s' → Memory.wf s'.mem = true

/-- Nothing ends a run. -/
def Obligations.StepsNeverRefuse : Prop :=
  (∀ (i : Instr) (s : State), ∃ t, exec i s = .next t) ∧ ∀ s : State, ∃ t, Sys2Proof.Machine.step s = .next t
end

