-- ==== Sys2Proof/Laws/Memory.lean ====
section
/-! SUPPORT. Laws of tables and of memory: read after write, the canonical form of memory and that every memory operation keeps
it. -/

namespace Sys2Proof.Laws
open Sys2Proof Sys2Proof.Machine

/-! Tables -/

@[simp] theorem tget_tput_same {α : Type} (t : Tbl α) (n : Nat) (a : α) : tget (tput t n a) n = some a := by
  induction t with
  | nil => simp [tput, tget]
  | cons c t ih =>
    obtain ⟨k, b⟩ := c
    simp only [tput]
    split
    · simp [tget]
    · split
      · simp [tget]
      · simp [tget, *]

theorem tget_tput_other {α : Type} (t : Tbl α) {n j : Nat} (a : α) (h : j ≠ n) : tget (tput t n a) j = tget t j := by
  induction t with
  | nil => simp [tput, tget, Ne.symm h]
  | cons c t ih =>
    obtain ⟨k, b⟩ := c
    simp only [tput]
    split
    · simp [tget, Ne.symm h]
    · split
      · subst k; simp [tget, Ne.symm h]
      · simp [tget, ih]

@[simp] theorem tget_tdel_same {α : Type} (t : Tbl α) (n : Nat) : tget (tdel t n) n = none := by
  induction t with
  | nil => rfl
  | cons c t ih =>
    obtain ⟨k, b⟩ := c
    simp only [tdel]
    split
    · exact ih
    · simp [tget, *]

theorem tget_tdel_other {α : Type} (t : Tbl α) {n j : Nat} (h : j ≠ n) : tget (tdel t n) j = tget t j := by
  induction t with
  | nil => rfl
  | cons c t ih =>
    obtain ⟨k, b⟩ := c
    simp only [tdel]
    split
    · subst k; simp [tget, Ne.symm h, ih]
    · simp [tget, ih]

@[simp] theorem tgetD_tput_same {α : Type} (t : Tbl α) (n : Nat) (a d : α) : tgetD (tput t n a) n d = a := by simp [tgetD]

theorem tgetD_tput_other {α : Type} (t : Tbl α) {n j : Nat} (a d : α) (h : j ≠ n) : tgetD (tput t n a) j d = tgetD t j d := by
  simp [tgetD, tget_tput_other t a h]

/-! Register files -/

@[simp] theorem vget_vset_same {α : Type} {n : Nat} (v : Vector α n) {i : Nat} (a d : α) (h : i < n) :
    vget (vset v i a) i d = a := by
  simp [vget, vset, List.getD, Vector.toList_setIfInBounds, h]

theorem vget_vset_other {α : Type} {n : Nat} (v : Vector α n) {i j : Nat} (a d : α) (h : j ≠ i) :
    vget (vset v i a) j d = vget v j d := by
  simp [vget, vset, List.getD, Vector.toList_setIfInBounds, Ne.symm h]

/-! The canonical form of memory -/

/-- Keys strictly rising, and no entry equal to what an unlisted address reads as. -/
def Canonical (m : List Host.Cell) : Prop := m.Pairwise (fun a b => a.1 < b.1) ∧ ∀ c ∈ m, c.2 ≠ unlisted

theorem canonical_cons {c : Host.Cell} {m : List Host.Cell} :
    Canonical (c :: m) ↔ (∀ d ∈ m, c.1 < d.1) ∧ c.2 ≠ unlisted ∧ Canonical m := by
  simp only [Canonical, List.pairwise_cons, List.mem_cons, forall_eq_or_imp]
  constructor
  · rintro ⟨⟨a, b⟩, c, d⟩; exact ⟨a, c, b, d⟩
  · rintro ⟨a, c, b, d⟩; exact ⟨⟨a, b⟩, c, d⟩

theorem wf_iff (m : List Host.Cell) : Memory.wf m = true ↔ Canonical m := by
  induction m with
  | nil => simp [Memory.wf, Canonical]
  | cons c t ih =>
    obtain ⟨k, b⟩ := c
    cases t with
    | nil => simp [Memory.wf, Canonical]
    | cons d t =>
      obtain ⟨j, e⟩ := d
      simp only [Memory.wf, Bool.and_eq_true, decide_eq_true_eq, bne_iff_ne, ih]
      rw [canonical_cons (c := (k, b))]
      constructor
      · rintro ⟨⟨hk, hb⟩, ht⟩
        refine ⟨?_, hb, ht⟩
        intro d hd
        rcases List.mem_cons.mp hd with rfl | hd
        · exact hk
        · exact Nat.lt_trans hk ((canonical_cons.mp ht).1 d hd)
      · rintro ⟨hk, hb, ht⟩
        exact ⟨⟨hk (j, e) List.mem_cons_self, hb⟩, ht⟩

theorem mem_tdel {m : List Host.Cell} {n : Nat} {c : Host.Cell} (h : c ∈ tdel m n) : c ∈ m := by
  induction m with
  | nil => exact h
  | cons d t ih =>
    obtain ⟨k, b⟩ := d
    simp only [tdel] at h
    split at h
    · exact List.mem_cons_of_mem _ (ih h)
    · rcases List.mem_cons.mp h with h | h
      · exact h ▸ List.mem_cons_self
      · exact List.mem_cons_of_mem _ (ih h)

theorem canonical_tdel {m : List Host.Cell} (n : Nat) (h : Canonical m) : Canonical (tdel m n) := by
  induction m with
  | nil => exact h
  | cons d t ih =>
    obtain ⟨k, b⟩ := d
    obtain ⟨h1, h2, h3⟩ := canonical_cons.mp h
    simp only [tdel]
    split
    · exact ih h3
    · exact canonical_cons.mpr ⟨fun d hd => h1 d (mem_tdel hd), h2, ih h3⟩

theorem mem_tput {m : List Host.Cell} {n : Nat} {b : Byte} {c : Host.Cell} (h : c ∈ tput m n b) : c = (n, b) ∨ c ∈ m := by
  induction m with
  | nil => simpa [tput] using h
  | cons d t ih =>
    obtain ⟨k, e⟩ := d
    simp only [tput] at h
    split at h
    · simpa using h
    · split at h
      · rcases List.mem_cons.mp h with h | h
        · exact .inl h
        · exact .inr (List.mem_cons_of_mem _ h)
      · rcases List.mem_cons.mp h with h | h
        · exact .inr (h ▸ List.mem_cons_self)
        · rcases ih h with h | h
          · exact .inl h
          · exact .inr (List.mem_cons_of_mem _ h)

theorem canonical_tput {m : List Host.Cell} (n : Nat) {b : Byte} (hb : b ≠ unlisted) (h : Canonical m) :
    Canonical (tput m n b) := by
  induction m with
  | nil => exact canonical_cons.mpr ⟨by simp, hb, h⟩
  | cons d t ih =>
    obtain ⟨k, e⟩ := d
    obtain ⟨h1, h2, h3⟩ := canonical_cons.mp h
    simp only [tput]
    split
    · refine canonical_cons.mpr ⟨?_, hb, h⟩
      intro d hd
      rcases List.mem_cons.mp hd with rfl | hd
      · assumption
      · exact Nat.lt_trans ‹n < k› (h1 d hd)
    · split
      · subst k; exact canonical_cons.mpr ⟨h1, hb, h3⟩
      · refine canonical_cons.mpr ⟨?_, h2, ih h3⟩
        intro d hd
        rcases mem_tput hd with rfl | hd
        · show k < n; omega
        · exact h1 d hd

/-- A write of one byte keeps the form. -/
theorem wf_wrB {m : List Host.Cell} (a : Nat) (b : Byte) (h : Memory.wf m = true) : Memory.wf (wrB m a b) = true := by
  rw [wf_iff] at *
  rw [wrB]
  split
  · exact canonical_tdel a h
  · exact canonical_tput a ‹_› h

/-- A write of bytes keeps the form. -/
theorem wf_wrBytes (l : List Byte) : ∀ {m : List Host.Cell} (a : Nat), Memory.wf m = true → Memory.wf (wrBytes m a l) = true := by
  induction l with
  | nil => exact fun _ h => h
  | cons b t ih => exact fun a h => ih (a + 1) (wf_wrB a b h)

/-- Clearing an interval keeps the form. -/
theorem wf_eraseRange {m : List Host.Cell} (lo hi : Nat) (h : Memory.wf m = true) : Memory.wf (eraseRange m lo hi) = true := by
  rw [wf_iff] at *
  exact ⟨h.1.filter _, fun c hc => h.2 c (List.mem_filter.mp hc).1⟩

/-- Setting A and D in table entries keeps the form. -/
theorem wf_markEntries (w : Bool) (l : List Nat) :
    ∀ {s : State}, Memory.wf s.mem = true → Memory.wf (markEntries s w l).mem = true := by
  induction l with
  | nil => exact fun h => h
  | cons a t ih =>
    intro s h
    unfold markEntries
    dsimp only
    split
    · exact ih h
    · exact ih (wf_wrBytes _ a h)

/-- Memory after reset has the form. -/
theorem wf_reset : Memory.wf State.reset.mem = true := rfl

/-! Read after write -/

@[simp] theorem rdB_wrB_same (m : List Host.Cell) (a : Nat) (b : Byte) : rdB (wrB m a b) a = b := by
  rw [rdB, wrB]
  split
  · subst b; simp
  · simp

theorem rdB_wrB_other (m : List Host.Cell) {a x : Nat} (b : Byte) (h : x ≠ a) : rdB (wrB m a b) x = rdB m x := by
  rw [rdB, wrB]
  split
  · rw [tget_tdel_other m h]; rfl
  · rw [tget_tput_other m b h]; rfl

/-- A byte outside the bytes written reads as before. -/
theorem rdB_wrBytes_outside (l : List Byte) : ∀ (m : List Host.Cell) {a x : Nat}, x < a ∨ a + l.length ≤ x →
    rdB (wrBytes m a l) x = rdB m x := by
  induction l with
  | nil => exact fun _ _ _ _ => rfl
  | cons b t ih =>
    intro m a x h
    simp only [List.length_cons] at h
    rw [wrBytes, ih _ (by omega), rdB_wrB_other _ _ (by omega)]

/-- A byte inside them reads as what was written. -/
theorem rdB_wrBytes_inside (l : List Byte) : ∀ (m : List Host.Cell) (a : Nat) (i : Nat) (h : i < l.length),
    rdB (wrBytes m a l) (a + i) = l[i] := by
  induction l with
  | nil => intro _ _ i h; simp at h
  | cons b t ih =>
    intro m a i h
    cases i with
    | zero =>
      rw [wrBytes, Nat.add_zero, rdB_wrBytes_outside t _ (by omega)]
      simp
    | succ i =>
      have e : a + (i + 1) = a + 1 + i := by omega
      rw [wrBytes, e, ih]
      rfl

/-- A byte of a cleared interval reads as an unlisted one. -/
theorem tget_filter {m : List Host.Cell} (f : Nat → Bool) (x : Nat) :
    tget (m.filter (fun c => f c.1)) x = if f x then tget m x else none := by
  induction m with
  | nil => simp [tget]
  | cons c t ih =>
    obtain ⟨k, b⟩ := c
    by_cases hk : f k = true
    · by_cases e : k = x
      · subst e; simp [tget, hk]
      · simp [tget, hk, e, ih]
    · have hk : f k = false := by simpa using hk
      by_cases e : k = x
      · subst e; simp [hk, ih]
      · simp [tget, hk, e, ih]

/-- Clearing an interval: what a byte reads as afterwards. -/
theorem rdB_eraseRange (m : List Host.Cell) (lo hi x : Nat) :
    rdB (eraseRange m lo hi) x = if x < lo ∨ hi ≤ x then rdB m x else unlisted := by
  have h := tget_filter (m := m) (fun a => a < lo || decide (hi ≤ a)) x
  rw [rdB, eraseRange, h]
  by_cases c : x < lo ∨ hi ≤ x
  · rw [if_pos (by simpa using c), if_pos c]; rfl
  · rw [if_neg (by simpa using c), if_neg c]; rfl

/-- Reading back bytes just written. -/
theorem rdBytes_wrBytes (m : List Host.Cell) (a : Nat) (l : List Byte) : rdBytes (wrBytes m a l) a l.length = l := by
  suffices h : ∀ n k, k + n = l.length → (upFrom (a + k) n).map (rdB (wrBytes m a l)) = l.drop k by
    have := h l.length 0 (by omega)
    simpa [rdBytes] using this
  intro n
  induction n with
  | zero => intro k hk; rw [List.drop_eq_nil_of_le (by omega)]; rfl
  | succ n ih =>
    intro k hk
    have hl : k < l.length := by omega
    have e : upFrom (a + k) (n + 1) = (a + k) :: upFrom (a + (k + 1)) n := by rw [upFrom, Nat.add_assoc]
    rw [e, List.map_cons, ih (k + 1) (by omega), rdB_wrBytes_inside l m a k hl, List.drop_eq_getElem_cons hl]

end Sys2Proof.Laws
end

