-- ==== Sys2Proof/Laws/Access.lean ====
section
/-! SUPPORT. Laws of the accesses of the issuing context: when one passes, told by a test that can be evaluated, and what
each way to write memory leaves of its canonical form. -/

namespace Sys2Proof.Laws
open Sys2Proof Sys2Proof.Machine

/-- A read passes. -/
def readable (s : State) (t : Tgt) (n : Nat) : Bool :=
  match t with
  | .win wa => (winCheck s s.cx.pour s.cx.tenant.toNat wa n false).isNone && (winWait s wa false).isNone
  | .glob va =>
    !dripsAt s s.cx.key va n && (absent s s.cx.tenant.toNat false (blocksOf va n)).isNone &&
      match touchAll s s.cx.tenant.toNat va n (.ctx s.cx.key) s.cx.gen s.cx.depth s.cx.key s.cx.core (homeCore s.cx.key) with
      | .pass s1 => (match gread s1 s1.cx.tenant.toNat va n with
        | .ok _ _ => true
        | _ => false)
      | _ => false

theorem reads_of_readable {s : State} {t : Tgt} {n : Nat} (h : readable s t n = true) : ∃ l s', reads s t n l s' := by
  cases t with
  | win wa =>
    simp only [readable, Bool.and_eq_true, Option.isNone_iff_eq_none] at h
    exact ⟨_, s, h.1, h.2, rfl, rfl⟩
  | glob va =>
    simp only [readable, Bool.and_eq_true, Bool.not_eq_true', Option.isNone_iff_eq_none] at h
    obtain ⟨⟨h1, ha⟩, h2⟩ := h
    split at h2
    · split at h2
      · rename_i s1 ht _ l s2 hg
        exact ⟨l, s2, h1, ha, s1, ht, hg⟩
      · cases h2
    · cases h2

/-- The bytes a read gives and the state after it; the state before where it does not pass. -/
def readBytes (s : State) (t : Tgt) (n : Nat) : List Byte × State :=
  match t with
  | .win wa => (winRead s wa n, s)
  | .glob va =>
      match touchAll s s.cx.tenant.toNat va n (.ctx s.cx.key) s.cx.gen s.cx.depth s.cx.key s.cx.core (homeCore s.cx.key) with
      | .pass s1 => (match gread s1 s1.cx.tenant.toNat va n with
        | .ok l s' => (l, s')
        | _ => ([], s))
      | _ => ([], s)

theorem reads_readBytes {s : State} {t : Tgt} {n : Nat} (h : readable s t n = true) :
    reads s t n (readBytes s t n).1 (readBytes s t n).2 := by
  obtain ⟨l, s', h'⟩ := reads_of_readable h
  cases t with
  | win wa => obtain ⟨h1, h2, rfl, rfl⟩ := h'; exact ⟨h1, h2, rfl, rfl⟩
  | glob va =>
    obtain ⟨h1, ha, s1, h2, h3⟩ := h'
    simp only [readBytes, h2, h3]
    exact ⟨h1, ha, s1, h2, h3⟩

/-- A write passes. -/
def writable (s : State) (t : Tgt) (l : List Byte) (kind : Nat) : Bool :=
  match t with
  | .win wa =>
    (winCheck s s.cx.pour s.cx.tenant.toNat wa l.length true).isNone && (winWait s wa true).isNone &&
      (decide (winKind wa ≠ 5) || ((getRing s (winCore wa) (winOff wa / 32)).isSome && !dripping s s.cx.key))
  | .glob va =>
    !dripsAt s s.cx.key va l.length && (absent s s.cx.tenant.toNat true (blocksOf va l.length)).isNone &&
      match touchAll s s.cx.tenant.toNat va l.length (.ctx s.cx.key) s.cx.gen s.cx.depth s.cx.key s.cx.core (homeCore s.cx.key) with
      | .pass s1 => (match gwrite s1 s1.cx.tenant.toNat va l kind s1.cx.who with
        | .ok _ => true
        | _ => false)
      | _ => false

/-- The state after a write; the state before where it does not pass. -/
def written (s : State) (t : Tgt) (l : List Byte) (kind : Nat) : State :=
  match t with
  | .win wa => winWrite s s.cx.key wa l
  | .glob va =>
      match touchAll s s.cx.tenant.toNat va l.length (.ctx s.cx.key) s.cx.gen s.cx.depth s.cx.key s.cx.core (homeCore s.cx.key) with
      | .pass s1 => (match gwrite s1 s1.cx.tenant.toNat va l kind s1.cx.who with
        | .ok s' => s'
        | _ => s)
      | _ => s

theorem writes_written {s : State} {t : Tgt} {l : List Byte} {kind : Nat} (h : writable s t l kind = true) :
    writes s t l kind (written s t l kind) := by
  cases t with
  | win wa =>
    simp only [writable, Bool.and_eq_true, Option.isNone_iff_eq_none, Bool.or_eq_true, decide_eq_true_eq,
      Bool.not_eq_true'] at h
    exact ⟨h.1.1, h.1.2, fun e => h.2.elim (fun n => absurd e n) id, rfl⟩
  | glob va =>
    simp only [writable, Bool.and_eq_true, Bool.not_eq_true', Option.isNone_iff_eq_none] at h
    obtain ⟨⟨h1, ha⟩, h2⟩ := h
    split at h2
    · rename_i s1 ht
      split at h2
      · rename_i s2 hg
        refine ⟨h1, ha, s1, ht, ?_⟩
        simp only [written, ht, hg]
      · cases h2
    · cases h2

/-! What an access does to memory -/

theorem wf_translate {s s' : State} {t va pa : Nat} {w : Bool} (h : Sys2Proof.Machine.translate s t va w = .ok pa s')
    (hm : Memory.wf s.mem = true) : Memory.wf s'.mem = true := by
  unfold Sys2Proof.Machine.translate at h
  dsimp only at h
  split at h <;> (repeat' (split at h)) <;>
    first | (cases h; done) | (cases h; exact hm) | (cases h; exact wf_markEntries _ _ hm)

theorem sealAs_mem (o : Option Nat) (s : State) (b : Nat) : (sealAs o s b).mem = s.mem := rfl

theorem sealBlock_mem (s : State) (r : Resident) : (sealBlock s r).mem = s.mem := by unfold sealBlock; split <;> rfl

theorem foldl_sealBlock_mem (l : List Resident) : ∀ s : State, (l.foldl sealBlock s).mem = s.mem := by
  induction l with
  | nil => intro s; rfl
  | cons r l ih => intro s; rw [List.foldl_cons, ih, sealBlock_mem]

/-- Blocks that leave cluster memory leave every byte (log 9). -/
@[simp] theorem writeOut_mem (f : Resident → Bool) (s : State) : (writeOut f s).mem = s.mem := foldl_sealBlock_mem _ _

theorem makeRoom_mem (s : State) (t va : Nat) : (makeRoom s t va).mem = s.mem := by
  unfold makeRoom
  dsimp only
  split
  · rfl
  · split
    · exact writeOut_mem _ _
    · rfl

/-- A cluster that takes a block leaves every byte (log 9). -/
@[simp] theorem keepBlock_mem (s : State) (t va pa : Nat) (w : Bool) : (keepBlock s t va pa w).mem = s.mem := makeRoom_mem _ _ _

/-- A clock passes: no byte changes. -/
@[simp] theorem clockTick_mem (s : State) : (clockTick s).mem = s.mem := writeOut_mem _ _

theorem wf_gpath {s s' : State} {t va pa : Nat} {w whole : Bool} (h : gpath s t va w whole = .ok pa s')
    (hm : Memory.wf s.mem = true) : Memory.wf s'.mem = true := by
  unfold gpath at h
  dsimp only at h
  split at h
  · split at h <;> cases h
  · split at h
    · split at h
      · cases h
      · cases h; exact hm
    · split at h
      · cases h
      · cases h
      · cases h
      · rename_i he
        split at h
        · cases h
        · split at h
          · cases h
          · cases h; rw [keepBlock_mem]; exact wf_translate he hm

theorem wf_greadL {t : Nat} (l : List (Nat × Nat)) : ∀ {s s' : State} {x : List Byte}, greadL s t l = .ok x s' →
    Memory.wf s.mem = true → Memory.wf s'.mem = true := by
  induction l with
  | nil => intro s s' x h hm; simp only [greadL] at h; cases h; exact hm
  | cons c l ih =>
    intro s s' x h hm
    obtain ⟨va, n⟩ := c
    simp only [greadL] at h
    split at h
    · cases h
    · cases h
    · cases h
    · rename_i hp
      split at h
      · rename_i hr
        cases h
        exact ih hr (wf_gpath hp hm)
      · rename_i hne
        exact absurd h (hne _ _)
    · split at h
      · rename_i hr
        cases h
        exact ih hr hm
      · rename_i hne
        exact absurd h (hne _ _)

/-- A read of a tenant's space keeps the form of memory. -/
theorem wf_gread {s s' : State} {t va n : Nat} {l : List Byte} (h : gread s t va n = .ok l s')
    (hm : Memory.wf s.mem = true) : Memory.wf s'.mem = true := wf_greadL _ h hm

theorem dirtyPut_mem (s : State) (t va n who : Nat) : (dirtyPut s t va n who).mem = s.mem := by
  unfold dirtyPut
  dsimp only
  split <;> split <;> rfl

theorem traceArrival_mem (s : State) (t va kind n who : Nat) : (traceArrival s t va kind n who).mem = s.mem := by
  unfold traceArrival
  split
  · rfl
  · split
    · exact dirtyPut_mem _ _ _ _ _
    · rfl

theorem wf_arrive {s : State} (t va pa : Nat) (l : List Byte) (kind who : Nat) (hm : Memory.wf s.mem = true) :
    Memory.wf (arrive s t va pa l kind who).mem = true := by
  unfold arrive
  rw [traceArrival_mem]
  exact wf_wrBytes l pa hm

theorem wf_gwriteL {t kind who : Nat} (b : List (Nat × Nat)) : ∀ {s s' : State} {l : List Byte},
    gwriteL s t kind who b l = .ok s' → Memory.wf s.mem = true → Memory.wf s'.mem = true := by
  induction b with
  | nil => intro s s' l h hm; simp only [gwriteL] at h; cases h; exact hm
  | cons c b ih =>
    intro s s' l h hm
    obtain ⟨va, n⟩ := c
    simp only [gwriteL] at h
    split at h
    · cases h
    · cases h
    · cases h
    · rename_i hp
      exact ih h (wf_arrive _ _ _ _ _ _ (wf_gpath hp hm))
    · exact ih h hm

/-- A write to a tenant's space keeps the form of memory. -/
theorem wf_gwrite {s s' : State} {t va kind who : Nat} {l : List Byte} (h : gwrite s t va l kind who = .ok s')
    (hm : Memory.wf s.mem = true) : Memory.wf s'.mem = true := wf_gwriteL _ h hm

end Sys2Proof.Laws
end

