-- ==== Sys2Proof/Laws/Decode.lean ====
section
/-! SUPPORT. Reading back the fields of a packed word: what `fld`, `bv` and `flag` read from `pack`, and the codes of the named
fields (R3, R93, R94, R98, R99, R103, R104). -/

namespace Sys2Proof.Laws
open Sys2Proof

theorem pack_nil (b : Nat) : pack b [] = b := by simp [pack]
theorem pack_cons (b v lo : Nat) (l : List (Nat × Nat)) : pack b ((v, lo) :: l) = v * 2 ^ lo + pack b l := by simp [pack]

/-- A number whose bits `lo` to `lo + w − 1` are zero, in its high and low parts. -/
theorem split_at {r lo w : Nat} (h : r / 2 ^ lo % 2 ^ w = 0) : r = r / 2 ^ (lo + w) * 2 ^ (lo + w) + r % 2 ^ lo := by
  have h1 := Nat.div_add_mod r (2 ^ lo)
  have h2 := Nat.div_add_mod (r / 2 ^ lo) (2 ^ w)
  rw [h, Nat.div_div_eq_div_mul, ← Nat.pow_add, Nat.add_zero] at h2
  rw [← h2, ← Nat.mul_assoc, ← Nat.pow_add] at h1
  rw [Nat.mul_comm]; exact h1.symm

theorem add_read {v lo w r : Nat} (hv : v < 2 ^ w) (h : r / 2 ^ lo % 2 ^ w = 0) : (v * 2 ^ lo + r) / 2 ^ lo % 2 ^ w = v := by
  rw [Nat.mul_comm, Nat.mul_add_div (Nat.two_pow_pos lo), Nat.add_mod, h, Nat.add_zero, Nat.mod_mod, Nat.mod_eq_of_lt hv]

theorem add_below {v lo r k n : Nat} (hk : k + n ≤ lo) : (v * 2 ^ lo + r) / 2 ^ k % 2 ^ n = r / 2 ^ k % 2 ^ n := by
  obtain ⟨j, rfl⟩ := Nat.exists_eq_add_of_le hk
  have e : v * 2 ^ (k + n + j) + r = 2 ^ k * (2 ^ n * (2 ^ j * v)) + r := by
    rw [Nat.pow_add, Nat.pow_add, Nat.mul_comm v]; simp only [Nat.mul_assoc]
  rw [e, Nat.mul_add_div (Nat.two_pow_pos k), Nat.mul_add_mod]

theorem add_above {v lo w r k n : Nat} (hv : v < 2 ^ w) (h : r / 2 ^ lo % 2 ^ w = 0) (hk : lo + w ≤ k) :
    (v * 2 ^ lo + r) / 2 ^ k % 2 ^ n = r / 2 ^ k % 2 ^ n := by
  obtain ⟨j, rfl⟩ := Nat.exists_eq_add_of_le hk
  have low : v * 2 ^ lo + r % 2 ^ lo < 2 ^ (lo + w) := by
    have h1 : r % 2 ^ lo < 2 ^ lo := Nat.mod_lt _ (Nat.two_pow_pos lo)
    have h2 : (v + 1) * 2 ^ lo ≤ 2 ^ w * 2 ^ lo := Nat.mul_le_mul_right _ hv
    rw [Nat.add_mul, Nat.one_mul] at h2
    rw [Nat.pow_add, Nat.mul_comm (2 ^ lo)]; omega
  have q : (v * 2 ^ lo + r) / 2 ^ (lo + w) = r / 2 ^ (lo + w) := by
    have e : v * 2 ^ lo + r = 2 ^ (lo + w) * (r / 2 ^ (lo + w)) + (v * 2 ^ lo + r % 2 ^ lo) := by
      have := split_at h
      rw [Nat.mul_comm] at this
      omega
    rw [e, Nat.mul_add_div (Nat.two_pow_pos _), Nat.div_eq_of_lt low, Nat.add_zero]
  rw [Nat.pow_add, ← Nat.div_div_eq_div_mul, ← Nat.div_div_eq_div_mul, q]

/-- A field of a word: its value, its lowest bit, its width. -/
structure Field where
  val : Nat
  lo : Nat
  width : Nat

/-- The fields as `pack` takes them. -/
def strip (l : List Field) : List (Nat × Nat) := l.map (fun f => (f.val, f.lo))

theorem strip_cons (f : Field) (l : List Field) : strip (f :: l) = (f.val, f.lo) :: strip l := rfl

/-- Bits `k` to `k + n − 1` meet no field of the layout. -/
def apart (k n : Nat) (l : List (Nat × Nat)) : Bool := l.all (fun f => decide (k + n ≤ f.1) || decide (f.1 + f.2 ≤ k))

/-- The fields of a layout, as (lowest bit, width), meet neither each other nor a bit set in `base`. -/
def laidOut (base : Nat) : List (Nat × Nat) → Bool
  | [] => true
  | (lo, w) :: l => base / 2 ^ lo % 2 ^ w == 0 && apart lo w l && laidOut base l

/-- Every value fits its field. -/
def Fits : List Field → Prop
  | [] => True
  | f :: l => f.val < 2 ^ f.width ∧ Fits l

def places (l : List Field) : List (Nat × Nat) := l.map (fun f => (f.lo, f.width))

theorem read_base {base k n : Nat} : ∀ {l : List Field}, laidOut base (places l) = true → Fits l → apart k n (places l) = true →
    pack base (strip l) / 2 ^ k % 2 ^ n = base / 2 ^ k % 2 ^ n
  | [], _, _, _ => by simp [strip, pack_nil]
  | f :: l, hl, hf, ha => by
    simp only [places, List.map_cons, laidOut, Bool.and_eq_true, beq_iff_eq] at hl
    simp only [places, apart, List.map_cons, List.all_cons, Bool.and_eq_true, Bool.or_eq_true, decide_eq_true_eq] at ha
    have z := read_base hl.2 hf.2 hl.1.2
    rw [hl.1.1] at z
    have ih := read_base hl.2 hf.2 (k := k) (n := n) (by simpa [apart, places] using ha.2)
    rw [strip_cons, pack_cons]
    rcases ha.1 with h | h
    · rw [add_below h]; exact ih
    · rw [add_above hf.1 z h]; exact ih

theorem read_field {base : Nat} : ∀ {l : List Field}, laidOut base (places l) = true → Fits l → ∀ f, f ∈ l →
    pack base (strip l) / 2 ^ f.lo % 2 ^ f.width = f.val
  | g :: l, hl, hf, f, hm => by
    simp only [places, List.map_cons, laidOut, Bool.and_eq_true, beq_iff_eq] at hl
    have z := read_base hl.2 hf.2 hl.1.2
    rw [hl.1.1] at z
    rw [strip_cons, pack_cons]
    rcases List.mem_cons.mp hm with rfl | hm
    · exact add_read hf.1 z
    · have ih := read_field hl.2 hf.2 f hm
      have ap : f.lo + f.width ≤ g.lo ∨ g.lo + g.width ≤ f.lo := by
        have := List.all_eq_true.mp hl.1.2 (f.lo, f.width) (List.mem_map.mpr ⟨f, hm, rfl⟩)
        simp only [Bool.or_eq_true, decide_eq_true_eq] at this
        omega
      rcases ap with h | h
      · rw [add_below h]; exact ih
      · rw [add_above hf.1 z h]; exact ih

/-- Every field lies in the low 32 bits. -/
def inWord (l : List (Nat × Nat)) : Bool := l.all (fun f => decide (f.1 + f.2 ≤ 32))

theorem pack_lt {base : Nat} {l : List Field} (hl : laidOut base (places l) = true) (hf : Fits l) (hw : inWord (places l) = true)
    (hb : base < 2 ^ 32) : pack base (strip l) < 2 ^ 32 := by
  have ap (n : Nat) : apart 32 n (places l) = true := by
    rw [apart, List.all_eq_true]
    intro f hm
    have := List.all_eq_true.mp hw f hm
    simp only [decide_eq_true_eq] at this
    simp [this]
  have h := read_base (k := 32) (n := pack base (strip l) / 2 ^ 32) hl hf (ap _)
  rw [Nat.mod_eq_of_lt Nat.lt_two_pow_self, Nat.div_eq_of_lt hb, Nat.zero_mod] at h
  exact (Nat.div_eq_zero_iff_lt (Nat.two_pow_pos 32)).mp h

theorem read_const {base k n x W : Nat} {l : List Field} (hw : pack base (strip l) = W) (hl : laidOut base (places l) = true)
    (hf : Fits l) (ha : apart k n (places l) = true) (hb : base / 2 ^ k % 2 ^ n = x) : fld W k n = x := by
  rw [fld, ← hw, read_base hl hf ha, hb]

theorem read_code {base v lo n W : Nat} {l : List Field} (hw : pack base (strip l) = W) (hl : laidOut base (places l) = true)
    (hf : Fits l) (hm : Field.mk v lo n ∈ l) : fld W lo n = v := by
  rw [fld, ← hw]; exact read_field hl hf _ hm

theorem read_bv {base lo n W : Nat} {d : BitVec n} {l : List Field} (hw : pack base (strip l) = W)
    (hl : laidOut base (places l) = true) (hf : Fits l) (hm : Field.mk d.toNat lo n ∈ l) : bv n W lo = d := by
  apply BitVec.eq_of_toNat_eq
  rw [bv, BitVec.toNat_ofNat]
  exact read_code hw hl hf hm

theorem read_flag {base lo W : Nat} {b : Bool} {l : List Field} (hw : pack base (strip l) = W)
    (hl : laidOut base (places l) = true) (hf : Fits l) (hm : Field.mk b.toNat lo 1 ∈ l) : flag W lo = b := by
  have h : W / 2 ^ lo % 2 = b.toNat := read_code hw hl hf hm
  rw [flag, h]; cases b <;> rfl
end Sys2Proof.Laws
namespace Sys2Proof
theorem VType.code_lt (t : VType) : t.code < 2 ^ 3 := by cases t <;> decide
theorem VType.eBit_lt (t : VType) : t.eBit < 2 ^ 1 := by cases t <;> decide
theorem RSrc.code_lt (t : RSrc) : t.code < 2 ^ 2 := by cases t <;> decide
theorem SType.code_lt (t : SType) : t.code < 2 ^ 4 := by cases t <;> decide
theorem Xf.code_lt (t : Xf) : t.code < 2 ^ 4 := by cases t <;> decide
theorem Scope.code_lt (t : Scope) : t.code < 2 ^ 3 := by cases t <;> decide
theorem FKind.code_lt (t : FKind) : t.code < 2 ^ 2 := by cases t <;> decide
theorem AOrd.code_lt (t : AOrd) : t.code < 2 ^ 2 := by cases t <;> decide
theorem VType.of_code {n w lo : Nat} {t : VType} (h : n = t.code) (h2 : fld w lo 1 = t.eBit) :
    VType.ofCode n (flag w lo) = some t := by
  have h3 : w / 2 ^ lo % 2 = t.eBit := h2
  rw [h, flag, h3]; cases t <;> rfl
theorem RSrc.of_code {n : Nat} {t : RSrc} (h : n = t.code) : RSrc.ofCode n = t := by rw [h]; cases t <;> rfl
theorem AOrd.of_code {n : Nat} {t : AOrd} (h : n = t.code) : AOrd.ofCode n = t := by rw [h]; cases t <;> rfl
theorem FKind.of_code {n : Nat} {t : FKind} (h : n = t.code) : FKind.ofCode n = t := by rw [h]; cases t <;> rfl
theorem SType.of_code {n : Nat} {t : SType} (h : n = t.code) : SType.ofCode n = some t := by rw [h]; cases t <;> rfl
theorem Xf.of_code {n : Nat} {t : Xf} (h : n = t.code) : Xf.ofCode n = some t := by rw [h]; cases t <;> rfl
theorem Scope.of_code {n : Nat} {t : Scope} (h : n = t.code) : Scope.ofCode n = some t := by rw [h]; cases t <;> rfl
end Sys2Proof
namespace Sys2Proof.Laws
theorem decodeNat_01 (W : Nat) (h : fld W 26 6 = 0x01) : decodeNat W = decAlu W := by unfold decodeNat; rw [h]; rfl
theorem decodeNat_02 (W : Nat) (h : fld W 26 6 = 0x02) : decodeNat W = decAlui W := by unfold decodeNat; rw [h]; rfl
theorem decodeNat_03 (W : Nat) (h : fld W 26 6 = 0x03) : decodeNat W = decIm W := by unfold decodeNat; rw [h]; rfl
theorem decodeNat_08 (W : Nat) (h : fld W 26 6 = 0x08) : decodeNat W = decBr W := by unfold decodeNat; rw [h]; rfl
theorem decodeNat_09 (W : Nat) (h : fld W 26 6 = 0x09) : decodeNat W = decJal W := by unfold decodeNat; rw [h]; rfl
theorem decodeNat_0a (W : Nat) (h : fld W 26 6 = 0x0A) : decodeNat W = decJalr W := by unfold decodeNat; rw [h]; rfl
theorem decodeNat_0c (W : Nat) (h : fld W 26 6 = 0x0C) : decodeNat W = decLd W := by unfold decodeNat; rw [h]; rfl
theorem decodeNat_0d (W : Nat) (h : fld W 26 6 = 0x0D) : decodeNat W = decLds W := by unfold decodeNat; rw [h]; rfl
theorem decodeNat_0e (W : Nat) (h : fld W 26 6 = 0x0E) : decodeNat W = decSt W := by unfold decodeNat; rw [h]; rfl
theorem decodeNat_0f (W : Nat) (h : fld W 26 6 = 0x0F) : decodeNat W = decLda W := by unfold decodeNat; rw [h]; rfl
theorem decodeNat_10 (W : Nat) (h : fld W 26 6 = 0x10) : decodeNat W = decStl W := by unfold decodeNat; rw [h]; rfl
theorem decodeNat_11 (W : Nat) (h : fld W 26 6 = 0x11) : decodeNat W = decSys W := by unfold decodeNat; rw [h]; rfl
theorem decodeNat_14 (W : Nat) (h : fld W 26 6 = 0x14) : decodeNat W = decAtom W := by unfold decodeNat; rw [h]; rfl
theorem decodeNat_15 (W : Nat) (h : fld W 26 6 = 0x15) : decodeNat W = decDrip W := by unfold decodeNat; rw [h]; rfl
theorem decodeNat_16 (W : Nat) (h : fld W 26 6 = 0x16) : decodeNat W = decMig W := by unfold decodeNat; rw [h]; rfl
theorem decodeNat_17 (W : Nat) (h : fld W 26 6 = 0x17) : decodeNat W = decKet W := by unfold decodeNat; rw [h]; rfl
theorem decodeNat_18 (W : Nat) (h : fld W 26 6 = 0x18) : decodeNat W = decSync W := by unfold decodeNat; rw [h]; rfl
theorem decodeNat_19 (W : Nat) (h : fld W 26 6 = 0x19) : decodeNat W = decWork W := by unfold decodeNat; rw [h]; rfl
theorem decodeNat_20 (W : Nat) (h : fld W 26 6 = 0x20) : decodeNat W = decVop W := by unfold decodeNat; rw [h]; rfl
theorem decodeNat_21 (W : Nat) (h : fld W 26 6 = 0x21) : decodeNat W = decVsc W := by unfold decodeNat; rw [h]; rfl
theorem decodeNat_22 (W : Nat) (h : fld W 26 6 = 0x22) : decodeNat W = decVperm W := by unfold decodeNat; rw [h]; rfl
theorem decodeNat_23 (W : Nat) (h : fld W 26 6 = 0x23) : decodeNat W = decVred W := by unfold decodeNat; rw [h]; rfl
theorem decodeNat_24 (W : Nat) (h : fld W 26 6 = 0x24) : decodeNat W = decVmem W := by unfold decodeNat; rw [h]; rfl
theorem decodeNat_25 (W : Nat) (h : fld W 26 6 = 0x25) : decodeNat W = decVpred W := by unfold decodeNat; rw [h]; rfl
theorem decodeNat_28 (W : Nat) (h : fld W 26 6 = 0x28) : decodeNat W = decRing W := by unfold decodeNat; rw [h]; rfl
theorem decodeNat_29 (W : Nat) (h : fld W 26 6 = 0x29) : decodeNat W = decCopy W := by unfold decodeNat; rw [h]; rfl
theorem decodeNat_2a (W : Nat) (h : fld W 26 6 = 0x2A) : decodeNat W = decBits W := by unfold decodeNat; rw [h]; rfl
theorem decodeNat_30 (W : Nat) (h : fld W 26 6 = 0x30) : decodeNat W = decMma W := by unfold decodeNat; rw [h]; rfl
theorem decodeNat_31 (W : Nat) (h : fld W 26 6 = 0x31) : decodeNat W = decMsys W := by unfold decodeNat; rw [h]; rfl
theorem decodeNat_32 (W : Nat) (h : fld W 26 6 = 0x32) : decodeNat W = decSeed W := by unfold decodeNat; rw [h]; rfl
theorem decodeNat_33 (W : Nat) (h : fld W 26 6 = 0x33) : decodeNat W = decProc W := by unfold decodeNat; rw [h]; rfl
theorem decodeNat_38 (W : Nat) (h : fld W 26 6 = 0x38) : decodeNat W = decRast W := by unfold decodeNat; rw [h]; rfl
theorem decodeNat_3a (W : Nat) (h : fld W 26 6 = 0x3A) : decodeNat W = decLayer W := by unfold decodeNat; rw [h]; rfl

end Sys2Proof.Laws
end

