-- ==== Sys2Proof/Laws/State.lean ====
section
/-! SUPPORT. What each named update leaves of the state: one lemma per field per update, true by unfolding, and the register
files' read after write (R8, R95, R216). -/

namespace Sys2Proof.Laws
open Sys2Proof Sys2Proof.Machine

set_option Elab.async false

@[simp] theorem updCx_mem (s : State) (f : Ctx → Ctx) : (updCx s f).mem = s.mem := rfl
@[simp] theorem updCx_macs (s : State) (f : Ctx → Ctx) : (updCx s f).macs = s.macs := rfl
@[simp] theorem updCx_bad (s : State) (f : Ctx → Ctx) : (updCx s f).bad = s.bad := rfl
@[simp] theorem updCx_tlb (s : State) (f : Ctx → Ctx) : (updCx s f).tlb = s.tlb := rfl
@[simp] theorem updCx_ctxs (s : State) (f : Ctx → Ctx) : (updCx s f).ctxs = s.ctxs := rfl
@[simp] theorem updCx_cores (s : State) (f : Ctx → Ctx) : (updCx s f).cores = s.cores := rfl
@[simp] theorem updCx_net (s : State) (f : Ctx → Ctx) : (updCx s f).net = s.net := rfl
@[simp] theorem updCx_nextId (s : State) (f : Ctx → Ctx) : (updCx s f).nextId = s.nextId := rfl
@[simp] theorem updCx_tenants (s : State) (f : Ctx → Ctx) : (updCx s f).tenants = s.tenants := rfl
@[simp] theorem updCx_brews (s : State) (f : Ctx → Ctx) : (updCx s f).brews = s.brews := rfl
@[simp] theorem updCx_pours (s : State) (f : Ctx → Ctx) : (updCx s f).pours = s.pours := rfl
@[simp] theorem updCx_cuts (s : State) (f : Ctx → Ctx) : (updCx s f).cuts = s.cuts := rfl
@[simp] theorem updCx_ckpts (s : State) (f : Ctx → Ctx) : (updCx s f).ckpts = s.ckpts := rfl
@[simp] theorem updCx_saves (s : State) (f : Ctx → Ctx) : (updCx s f).saves = s.saves := rfl
@[simp] theorem updCx_joins (s : State) (f : Ctx → Ctx) : (updCx s f).joins = s.joins := rfl
@[simp] theorem updCx_fills (s : State) (f : Ctx → Ctx) : (updCx s f).fills = s.fills := rfl
@[simp] theorem updCx_layers (s : State) (f : Ctx → Ctx) : (updCx s f).layers = s.layers := rfl
@[simp] theorem updCx_closes (s : State) (f : Ctx → Ctx) : (updCx s f).closes = s.closes := rfl
@[simp] theorem updCx_traces (s : State) (f : Ctx → Ctx) : (updCx s f).traces = s.traces := rfl
@[simp] theorem updCx_lastTenant (s : State) (f : Ctx → Ctx) : (updCx s f).lastTenant = s.lastTenant := rfl
@[simp] theorem updCx_lastCore (s : State) (f : Ctx → Ctx) : (updCx s f).lastCore = s.lastCore := rfl
@[simp] theorem updCx_heldCores (s : State) (f : Ctx → Ctx) : (updCx s f).heldCores = s.heldCores := rfl
@[simp] theorem updCx_breaks (s : State) (f : Ctx → Ctx) : (updCx s f).breaks = s.breaks := rfl
@[simp] theorem updCx_cycle (s : State) (f : Ctx → Ctx) : (updCx s f).cycle = s.cycle := rfl
@[simp] theorem updCx_ticks (s : State) (f : Ctx → Ctx) : (updCx s f).ticks = s.ticks := rfl
@[simp] theorem updCx_phase (s : State) (f : Ctx → Ctx) : (updCx s f).phase = s.phase := rfl
@[simp] theorem updCx_trained (s : State) (f : Ctx → Ctx) : (updCx s f).trained = s.trained := rfl
@[simp] theorem updCx_budgets (s : State) (f : Ctx → Ctx) : (updCx s f).budgets = s.budgets := rfl
@[simp] theorem updCx_refresh (s : State) (f : Ctx → Ctx) : (updCx s f).refresh = s.refresh := rfl
@[simp] theorem updCx_frameTable (s : State) (f : Ctx → Ctx) : (updCx s f).frameTable = s.frameTable := rfl
@[simp] theorem updCx_coldQueue (s : State) (f : Ctx → Ctx) : (updCx s f).coldQueue = s.coldQueue := rfl
@[simp] theorem updCx_watermark (s : State) (f : Ctx → Ctx) : (updCx s f).watermark = s.watermark := rfl
@[simp] theorem updCx_resident (s : State) (f : Ctx → Ctx) : (updCx s f).resident = s.resident := rfl
@[simp] theorem updCx_landed (s : State) (f : Ctx → Ctx) : (updCx s f).landed = s.landed := rfl
@[simp] theorem updCx_lateFails (s : State) (f : Ctx → Ctx) : (updCx s f).lateFails = s.lateFails := rfl
@[simp] theorem updCx_lateFaults (s : State) (f : Ctx → Ctx) : (updCx s f).lateFaults = s.lateFaults := rfl
@[simp] theorem updCx_hostWait (s : State) (f : Ctx → Ctx) : (updCx s f).hostWait = s.hostWait := rfl
@[simp] theorem updCx_lateLcb (s : State) (f : Ctx → Ctx) : (updCx s f).lateLcb = s.lateLcb := rfl
@[simp] theorem updCx_cupBrews (s : State) (f : Ctx → Ctx) : (updCx s f).cupBrews = s.cupBrews := rfl
@[simp] theorem updCx_treeRoot (s : State) (f : Ctx → Ctx) : (updCx s f).treeRoot = s.treeRoot := rfl
@[simp] theorem updCx_dirty (s : State) (f : Ctx → Ctx) : (updCx s f).dirty = s.dirty := rfl
@[simp] theorem updCx_arrived (s : State) (f : Ctx → Ctx) : (updCx s f).arrived = s.arrived := rfl
@[simp] theorem updCx_halves (s : State) (f : Ctx → Ctx) : (updCx s f).halves = s.halves := rfl
@[simp] theorem updCx_span (s : State) (f : Ctx → Ctx) : (updCx s f).span = s.span := rfl
@[simp] theorem updCx_record (s : State) (f : Ctx → Ctx) : (updCx s f).record = s.record := rfl
@[simp] theorem updCx_sweep (s : State) (f : Ctx → Ctx) : (updCx s f).sweep = s.sweep := rfl
@[simp] theorem updCx_ndev (s : State) (f : Ctx → Ctx) : (updCx s f).ndev = s.ndev := rfl
@[simp] theorem updCx_dev (s : State) (f : Ctx → Ctx) : (updCx s f).dev = s.dev := rfl
@[simp] theorem updCx_args (s : State) (f : Ctx → Ctx) : (updCx s f).args = s.args := rfl
@[simp] theorem updCx_agenda (s : State) (f : Ctx → Ctx) : (updCx s f).agenda = s.agenda := rfl
@[simp] theorem updCx_response (s : State) (f : Ctx → Ctx) : (updCx s f).response = s.response := rfl

@[simp] theorem ws_mem (s : State) (i : BitVec 5) (v : Word) : (ws s i v).mem = s.mem := rfl
@[simp] theorem ws_macs (s : State) (i : BitVec 5) (v : Word) : (ws s i v).macs = s.macs := rfl
@[simp] theorem ws_bad (s : State) (i : BitVec 5) (v : Word) : (ws s i v).bad = s.bad := rfl
@[simp] theorem ws_tlb (s : State) (i : BitVec 5) (v : Word) : (ws s i v).tlb = s.tlb := rfl
@[simp] theorem ws_ctxs (s : State) (i : BitVec 5) (v : Word) : (ws s i v).ctxs = s.ctxs := rfl
@[simp] theorem ws_cores (s : State) (i : BitVec 5) (v : Word) : (ws s i v).cores = s.cores := rfl
@[simp] theorem ws_net (s : State) (i : BitVec 5) (v : Word) : (ws s i v).net = s.net := rfl
@[simp] theorem ws_nextId (s : State) (i : BitVec 5) (v : Word) : (ws s i v).nextId = s.nextId := rfl
@[simp] theorem ws_tenants (s : State) (i : BitVec 5) (v : Word) : (ws s i v).tenants = s.tenants := rfl
@[simp] theorem ws_brews (s : State) (i : BitVec 5) (v : Word) : (ws s i v).brews = s.brews := rfl
@[simp] theorem ws_pours (s : State) (i : BitVec 5) (v : Word) : (ws s i v).pours = s.pours := rfl
@[simp] theorem ws_cuts (s : State) (i : BitVec 5) (v : Word) : (ws s i v).cuts = s.cuts := rfl
@[simp] theorem ws_ckpts (s : State) (i : BitVec 5) (v : Word) : (ws s i v).ckpts = s.ckpts := rfl
@[simp] theorem ws_saves (s : State) (i : BitVec 5) (v : Word) : (ws s i v).saves = s.saves := rfl
@[simp] theorem ws_joins (s : State) (i : BitVec 5) (v : Word) : (ws s i v).joins = s.joins := rfl
@[simp] theorem ws_fills (s : State) (i : BitVec 5) (v : Word) : (ws s i v).fills = s.fills := rfl
@[simp] theorem ws_layers (s : State) (i : BitVec 5) (v : Word) : (ws s i v).layers = s.layers := rfl
@[simp] theorem ws_closes (s : State) (i : BitVec 5) (v : Word) : (ws s i v).closes = s.closes := rfl
@[simp] theorem ws_traces (s : State) (i : BitVec 5) (v : Word) : (ws s i v).traces = s.traces := rfl
@[simp] theorem ws_lastTenant (s : State) (i : BitVec 5) (v : Word) : (ws s i v).lastTenant = s.lastTenant := rfl
@[simp] theorem ws_lastCore (s : State) (i : BitVec 5) (v : Word) : (ws s i v).lastCore = s.lastCore := rfl
@[simp] theorem ws_heldCores (s : State) (i : BitVec 5) (v : Word) : (ws s i v).heldCores = s.heldCores := rfl
@[simp] theorem ws_breaks (s : State) (i : BitVec 5) (v : Word) : (ws s i v).breaks = s.breaks := rfl
@[simp] theorem ws_cycle (s : State) (i : BitVec 5) (v : Word) : (ws s i v).cycle = s.cycle := rfl
@[simp] theorem ws_ticks (s : State) (i : BitVec 5) (v : Word) : (ws s i v).ticks = s.ticks := rfl
@[simp] theorem ws_phase (s : State) (i : BitVec 5) (v : Word) : (ws s i v).phase = s.phase := rfl
@[simp] theorem ws_trained (s : State) (i : BitVec 5) (v : Word) : (ws s i v).trained = s.trained := rfl
@[simp] theorem ws_budgets (s : State) (i : BitVec 5) (v : Word) : (ws s i v).budgets = s.budgets := rfl
@[simp] theorem ws_refresh (s : State) (i : BitVec 5) (v : Word) : (ws s i v).refresh = s.refresh := rfl
@[simp] theorem ws_frameTable (s : State) (i : BitVec 5) (v : Word) : (ws s i v).frameTable = s.frameTable := rfl
@[simp] theorem ws_coldQueue (s : State) (i : BitVec 5) (v : Word) : (ws s i v).coldQueue = s.coldQueue := rfl
@[simp] theorem ws_watermark (s : State) (i : BitVec 5) (v : Word) : (ws s i v).watermark = s.watermark := rfl
@[simp] theorem ws_resident (s : State) (i : BitVec 5) (v : Word) : (ws s i v).resident = s.resident := rfl
@[simp] theorem ws_landed (s : State) (i : BitVec 5) (v : Word) : (ws s i v).landed = s.landed := rfl
@[simp] theorem ws_lateFails (s : State) (i : BitVec 5) (v : Word) : (ws s i v).lateFails = s.lateFails := rfl
@[simp] theorem ws_lateFaults (s : State) (i : BitVec 5) (v : Word) : (ws s i v).lateFaults = s.lateFaults := rfl
@[simp] theorem ws_hostWait (s : State) (i : BitVec 5) (v : Word) : (ws s i v).hostWait = s.hostWait := rfl
@[simp] theorem ws_lateLcb (s : State) (i : BitVec 5) (v : Word) : (ws s i v).lateLcb = s.lateLcb := rfl
@[simp] theorem ws_cupBrews (s : State) (i : BitVec 5) (v : Word) : (ws s i v).cupBrews = s.cupBrews := rfl
@[simp] theorem ws_treeRoot (s : State) (i : BitVec 5) (v : Word) : (ws s i v).treeRoot = s.treeRoot := rfl
@[simp] theorem ws_dirty (s : State) (i : BitVec 5) (v : Word) : (ws s i v).dirty = s.dirty := rfl
@[simp] theorem ws_arrived (s : State) (i : BitVec 5) (v : Word) : (ws s i v).arrived = s.arrived := rfl
@[simp] theorem ws_halves (s : State) (i : BitVec 5) (v : Word) : (ws s i v).halves = s.halves := rfl
@[simp] theorem ws_span (s : State) (i : BitVec 5) (v : Word) : (ws s i v).span = s.span := rfl
@[simp] theorem ws_record (s : State) (i : BitVec 5) (v : Word) : (ws s i v).record = s.record := rfl
@[simp] theorem ws_sweep (s : State) (i : BitVec 5) (v : Word) : (ws s i v).sweep = s.sweep := rfl
@[simp] theorem ws_ndev (s : State) (i : BitVec 5) (v : Word) : (ws s i v).ndev = s.ndev := rfl
@[simp] theorem ws_dev (s : State) (i : BitVec 5) (v : Word) : (ws s i v).dev = s.dev := rfl
@[simp] theorem ws_args (s : State) (i : BitVec 5) (v : Word) : (ws s i v).args = s.args := rfl
@[simp] theorem ws_agenda (s : State) (i : BitVec 5) (v : Word) : (ws s i v).agenda = s.agenda := rfl
@[simp] theorem ws_response (s : State) (i : BitVec 5) (v : Word) : (ws s i v).response = s.response := rfl

@[simp] theorem wp_mem (s : State) (i : BitVec 3) (v : Word) : (wp s i v).mem = s.mem := rfl
@[simp] theorem wp_macs (s : State) (i : BitVec 3) (v : Word) : (wp s i v).macs = s.macs := rfl
@[simp] theorem wp_bad (s : State) (i : BitVec 3) (v : Word) : (wp s i v).bad = s.bad := rfl
@[simp] theorem wp_tlb (s : State) (i : BitVec 3) (v : Word) : (wp s i v).tlb = s.tlb := rfl
@[simp] theorem wp_ctxs (s : State) (i : BitVec 3) (v : Word) : (wp s i v).ctxs = s.ctxs := rfl
@[simp] theorem wp_cores (s : State) (i : BitVec 3) (v : Word) : (wp s i v).cores = s.cores := rfl
@[simp] theorem wp_net (s : State) (i : BitVec 3) (v : Word) : (wp s i v).net = s.net := rfl
@[simp] theorem wp_nextId (s : State) (i : BitVec 3) (v : Word) : (wp s i v).nextId = s.nextId := rfl
@[simp] theorem wp_tenants (s : State) (i : BitVec 3) (v : Word) : (wp s i v).tenants = s.tenants := rfl
@[simp] theorem wp_brews (s : State) (i : BitVec 3) (v : Word) : (wp s i v).brews = s.brews := rfl
@[simp] theorem wp_pours (s : State) (i : BitVec 3) (v : Word) : (wp s i v).pours = s.pours := rfl
@[simp] theorem wp_cuts (s : State) (i : BitVec 3) (v : Word) : (wp s i v).cuts = s.cuts := rfl
@[simp] theorem wp_ckpts (s : State) (i : BitVec 3) (v : Word) : (wp s i v).ckpts = s.ckpts := rfl
@[simp] theorem wp_saves (s : State) (i : BitVec 3) (v : Word) : (wp s i v).saves = s.saves := rfl
@[simp] theorem wp_joins (s : State) (i : BitVec 3) (v : Word) : (wp s i v).joins = s.joins := rfl
@[simp] theorem wp_fills (s : State) (i : BitVec 3) (v : Word) : (wp s i v).fills = s.fills := rfl
@[simp] theorem wp_layers (s : State) (i : BitVec 3) (v : Word) : (wp s i v).layers = s.layers := rfl
@[simp] theorem wp_closes (s : State) (i : BitVec 3) (v : Word) : (wp s i v).closes = s.closes := rfl
@[simp] theorem wp_traces (s : State) (i : BitVec 3) (v : Word) : (wp s i v).traces = s.traces := rfl
@[simp] theorem wp_lastTenant (s : State) (i : BitVec 3) (v : Word) : (wp s i v).lastTenant = s.lastTenant := rfl
@[simp] theorem wp_lastCore (s : State) (i : BitVec 3) (v : Word) : (wp s i v).lastCore = s.lastCore := rfl
@[simp] theorem wp_heldCores (s : State) (i : BitVec 3) (v : Word) : (wp s i v).heldCores = s.heldCores := rfl
@[simp] theorem wp_breaks (s : State) (i : BitVec 3) (v : Word) : (wp s i v).breaks = s.breaks := rfl
@[simp] theorem wp_cycle (s : State) (i : BitVec 3) (v : Word) : (wp s i v).cycle = s.cycle := rfl
@[simp] theorem wp_ticks (s : State) (i : BitVec 3) (v : Word) : (wp s i v).ticks = s.ticks := rfl
@[simp] theorem wp_phase (s : State) (i : BitVec 3) (v : Word) : (wp s i v).phase = s.phase := rfl
@[simp] theorem wp_trained (s : State) (i : BitVec 3) (v : Word) : (wp s i v).trained = s.trained := rfl
@[simp] theorem wp_budgets (s : State) (i : BitVec 3) (v : Word) : (wp s i v).budgets = s.budgets := rfl
@[simp] theorem wp_refresh (s : State) (i : BitVec 3) (v : Word) : (wp s i v).refresh = s.refresh := rfl
@[simp] theorem wp_frameTable (s : State) (i : BitVec 3) (v : Word) : (wp s i v).frameTable = s.frameTable := rfl
@[simp] theorem wp_coldQueue (s : State) (i : BitVec 3) (v : Word) : (wp s i v).coldQueue = s.coldQueue := rfl
@[simp] theorem wp_watermark (s : State) (i : BitVec 3) (v : Word) : (wp s i v).watermark = s.watermark := rfl
@[simp] theorem wp_resident (s : State) (i : BitVec 3) (v : Word) : (wp s i v).resident = s.resident := rfl
@[simp] theorem wp_landed (s : State) (i : BitVec 3) (v : Word) : (wp s i v).landed = s.landed := rfl
@[simp] theorem wp_lateFails (s : State) (i : BitVec 3) (v : Word) : (wp s i v).lateFails = s.lateFails := rfl
@[simp] theorem wp_lateFaults (s : State) (i : BitVec 3) (v : Word) : (wp s i v).lateFaults = s.lateFaults := rfl
@[simp] theorem wp_hostWait (s : State) (i : BitVec 3) (v : Word) : (wp s i v).hostWait = s.hostWait := rfl
@[simp] theorem wp_lateLcb (s : State) (i : BitVec 3) (v : Word) : (wp s i v).lateLcb = s.lateLcb := rfl
@[simp] theorem wp_cupBrews (s : State) (i : BitVec 3) (v : Word) : (wp s i v).cupBrews = s.cupBrews := rfl
@[simp] theorem wp_treeRoot (s : State) (i : BitVec 3) (v : Word) : (wp s i v).treeRoot = s.treeRoot := rfl
@[simp] theorem wp_dirty (s : State) (i : BitVec 3) (v : Word) : (wp s i v).dirty = s.dirty := rfl
@[simp] theorem wp_arrived (s : State) (i : BitVec 3) (v : Word) : (wp s i v).arrived = s.arrived := rfl
@[simp] theorem wp_halves (s : State) (i : BitVec 3) (v : Word) : (wp s i v).halves = s.halves := rfl
@[simp] theorem wp_span (s : State) (i : BitVec 3) (v : Word) : (wp s i v).span = s.span := rfl
@[simp] theorem wp_record (s : State) (i : BitVec 3) (v : Word) : (wp s i v).record = s.record := rfl
@[simp] theorem wp_sweep (s : State) (i : BitVec 3) (v : Word) : (wp s i v).sweep = s.sweep := rfl
@[simp] theorem wp_ndev (s : State) (i : BitVec 3) (v : Word) : (wp s i v).ndev = s.ndev := rfl
@[simp] theorem wp_dev (s : State) (i : BitVec 3) (v : Word) : (wp s i v).dev = s.dev := rfl
@[simp] theorem wp_args (s : State) (i : BitVec 3) (v : Word) : (wp s i v).args = s.args := rfl
@[simp] theorem wp_agenda (s : State) (i : BitVec 3) (v : Word) : (wp s i v).agenda = s.agenda := rfl
@[simp] theorem wp_response (s : State) (i : BitVec 3) (v : Word) : (wp s i v).response = s.response := rfl

@[simp] theorem wv_mem (s : State) (i : BitVec 4) (v : VReg) : (wv s i v).mem = s.mem := rfl
@[simp] theorem wv_macs (s : State) (i : BitVec 4) (v : VReg) : (wv s i v).macs = s.macs := rfl
@[simp] theorem wv_bad (s : State) (i : BitVec 4) (v : VReg) : (wv s i v).bad = s.bad := rfl
@[simp] theorem wv_tlb (s : State) (i : BitVec 4) (v : VReg) : (wv s i v).tlb = s.tlb := rfl
@[simp] theorem wv_ctxs (s : State) (i : BitVec 4) (v : VReg) : (wv s i v).ctxs = s.ctxs := rfl
@[simp] theorem wv_cores (s : State) (i : BitVec 4) (v : VReg) : (wv s i v).cores = s.cores := rfl
@[simp] theorem wv_net (s : State) (i : BitVec 4) (v : VReg) : (wv s i v).net = s.net := rfl
@[simp] theorem wv_nextId (s : State) (i : BitVec 4) (v : VReg) : (wv s i v).nextId = s.nextId := rfl
@[simp] theorem wv_tenants (s : State) (i : BitVec 4) (v : VReg) : (wv s i v).tenants = s.tenants := rfl
@[simp] theorem wv_brews (s : State) (i : BitVec 4) (v : VReg) : (wv s i v).brews = s.brews := rfl
@[simp] theorem wv_pours (s : State) (i : BitVec 4) (v : VReg) : (wv s i v).pours = s.pours := rfl
@[simp] theorem wv_cuts (s : State) (i : BitVec 4) (v : VReg) : (wv s i v).cuts = s.cuts := rfl
@[simp] theorem wv_ckpts (s : State) (i : BitVec 4) (v : VReg) : (wv s i v).ckpts = s.ckpts := rfl
@[simp] theorem wv_saves (s : State) (i : BitVec 4) (v : VReg) : (wv s i v).saves = s.saves := rfl
@[simp] theorem wv_joins (s : State) (i : BitVec 4) (v : VReg) : (wv s i v).joins = s.joins := rfl
@[simp] theorem wv_fills (s : State) (i : BitVec 4) (v : VReg) : (wv s i v).fills = s.fills := rfl
@[simp] theorem wv_layers (s : State) (i : BitVec 4) (v : VReg) : (wv s i v).layers = s.layers := rfl
@[simp] theorem wv_closes (s : State) (i : BitVec 4) (v : VReg) : (wv s i v).closes = s.closes := rfl
@[simp] theorem wv_traces (s : State) (i : BitVec 4) (v : VReg) : (wv s i v).traces = s.traces := rfl
@[simp] theorem wv_lastTenant (s : State) (i : BitVec 4) (v : VReg) : (wv s i v).lastTenant = s.lastTenant := rfl
@[simp] theorem wv_lastCore (s : State) (i : BitVec 4) (v : VReg) : (wv s i v).lastCore = s.lastCore := rfl
@[simp] theorem wv_heldCores (s : State) (i : BitVec 4) (v : VReg) : (wv s i v).heldCores = s.heldCores := rfl
@[simp] theorem wv_breaks (s : State) (i : BitVec 4) (v : VReg) : (wv s i v).breaks = s.breaks := rfl
@[simp] theorem wv_cycle (s : State) (i : BitVec 4) (v : VReg) : (wv s i v).cycle = s.cycle := rfl
@[simp] theorem wv_ticks (s : State) (i : BitVec 4) (v : VReg) : (wv s i v).ticks = s.ticks := rfl
@[simp] theorem wv_phase (s : State) (i : BitVec 4) (v : VReg) : (wv s i v).phase = s.phase := rfl
@[simp] theorem wv_trained (s : State) (i : BitVec 4) (v : VReg) : (wv s i v).trained = s.trained := rfl
@[simp] theorem wv_budgets (s : State) (i : BitVec 4) (v : VReg) : (wv s i v).budgets = s.budgets := rfl
@[simp] theorem wv_refresh (s : State) (i : BitVec 4) (v : VReg) : (wv s i v).refresh = s.refresh := rfl
@[simp] theorem wv_frameTable (s : State) (i : BitVec 4) (v : VReg) : (wv s i v).frameTable = s.frameTable := rfl
@[simp] theorem wv_coldQueue (s : State) (i : BitVec 4) (v : VReg) : (wv s i v).coldQueue = s.coldQueue := rfl
@[simp] theorem wv_watermark (s : State) (i : BitVec 4) (v : VReg) : (wv s i v).watermark = s.watermark := rfl
@[simp] theorem wv_resident (s : State) (i : BitVec 4) (v : VReg) : (wv s i v).resident = s.resident := rfl
@[simp] theorem wv_landed (s : State) (i : BitVec 4) (v : VReg) : (wv s i v).landed = s.landed := rfl
@[simp] theorem wv_lateFails (s : State) (i : BitVec 4) (v : VReg) : (wv s i v).lateFails = s.lateFails := rfl
@[simp] theorem wv_lateFaults (s : State) (i : BitVec 4) (v : VReg) : (wv s i v).lateFaults = s.lateFaults := rfl
@[simp] theorem wv_hostWait (s : State) (i : BitVec 4) (v : VReg) : (wv s i v).hostWait = s.hostWait := rfl
@[simp] theorem wv_lateLcb (s : State) (i : BitVec 4) (v : VReg) : (wv s i v).lateLcb = s.lateLcb := rfl
@[simp] theorem wv_cupBrews (s : State) (i : BitVec 4) (v : VReg) : (wv s i v).cupBrews = s.cupBrews := rfl
@[simp] theorem wv_treeRoot (s : State) (i : BitVec 4) (v : VReg) : (wv s i v).treeRoot = s.treeRoot := rfl
@[simp] theorem wv_dirty (s : State) (i : BitVec 4) (v : VReg) : (wv s i v).dirty = s.dirty := rfl
@[simp] theorem wv_arrived (s : State) (i : BitVec 4) (v : VReg) : (wv s i v).arrived = s.arrived := rfl
@[simp] theorem wv_halves (s : State) (i : BitVec 4) (v : VReg) : (wv s i v).halves = s.halves := rfl
@[simp] theorem wv_span (s : State) (i : BitVec 4) (v : VReg) : (wv s i v).span = s.span := rfl
@[simp] theorem wv_record (s : State) (i : BitVec 4) (v : VReg) : (wv s i v).record = s.record := rfl
@[simp] theorem wv_sweep (s : State) (i : BitVec 4) (v : VReg) : (wv s i v).sweep = s.sweep := rfl
@[simp] theorem wv_ndev (s : State) (i : BitVec 4) (v : VReg) : (wv s i v).ndev = s.ndev := rfl
@[simp] theorem wv_dev (s : State) (i : BitVec 4) (v : VReg) : (wv s i v).dev = s.dev := rfl
@[simp] theorem wv_args (s : State) (i : BitVec 4) (v : VReg) : (wv s i v).args = s.args := rfl
@[simp] theorem wv_agenda (s : State) (i : BitVec 4) (v : VReg) : (wv s i v).agenda = s.agenda := rfl
@[simp] theorem wv_response (s : State) (i : BitVec 4) (v : VReg) : (wv s i v).response = s.response := rfl

@[simp] theorem completesAt_mem (s : State) (pc : Addr) : (completesAt pc s).mem = s.mem := rfl
@[simp] theorem completesAt_macs (s : State) (pc : Addr) : (completesAt pc s).macs = s.macs := rfl
@[simp] theorem completesAt_bad (s : State) (pc : Addr) : (completesAt pc s).bad = s.bad := rfl
@[simp] theorem completesAt_tlb (s : State) (pc : Addr) : (completesAt pc s).tlb = s.tlb := rfl
@[simp] theorem completesAt_ctxs (s : State) (pc : Addr) : (completesAt pc s).ctxs = s.ctxs := rfl
@[simp] theorem completesAt_cores (s : State) (pc : Addr) : (completesAt pc s).cores = s.cores := rfl
@[simp] theorem completesAt_net (s : State) (pc : Addr) : (completesAt pc s).net = s.net := rfl
@[simp] theorem completesAt_nextId (s : State) (pc : Addr) : (completesAt pc s).nextId = s.nextId := rfl
@[simp] theorem completesAt_tenants (s : State) (pc : Addr) : (completesAt pc s).tenants = s.tenants := rfl
@[simp] theorem completesAt_brews (s : State) (pc : Addr) : (completesAt pc s).brews = s.brews := rfl
@[simp] theorem completesAt_pours (s : State) (pc : Addr) : (completesAt pc s).pours = s.pours := rfl
@[simp] theorem completesAt_cuts (s : State) (pc : Addr) : (completesAt pc s).cuts = s.cuts := rfl
@[simp] theorem completesAt_ckpts (s : State) (pc : Addr) : (completesAt pc s).ckpts = s.ckpts := rfl
@[simp] theorem completesAt_saves (s : State) (pc : Addr) : (completesAt pc s).saves = s.saves := rfl
@[simp] theorem completesAt_joins (s : State) (pc : Addr) : (completesAt pc s).joins = s.joins := rfl
@[simp] theorem completesAt_fills (s : State) (pc : Addr) : (completesAt pc s).fills = s.fills := rfl
@[simp] theorem completesAt_layers (s : State) (pc : Addr) : (completesAt pc s).layers = s.layers := rfl
@[simp] theorem completesAt_closes (s : State) (pc : Addr) : (completesAt pc s).closes = s.closes := rfl
@[simp] theorem completesAt_traces (s : State) (pc : Addr) : (completesAt pc s).traces = s.traces := rfl
@[simp] theorem completesAt_lastTenant (s : State) (pc : Addr) : (completesAt pc s).lastTenant = s.lastTenant := rfl
@[simp] theorem completesAt_lastCore (s : State) (pc : Addr) : (completesAt pc s).lastCore = s.lastCore := rfl
@[simp] theorem completesAt_heldCores (s : State) (pc : Addr) : (completesAt pc s).heldCores = s.heldCores := rfl
@[simp] theorem completesAt_breaks (s : State) (pc : Addr) : (completesAt pc s).breaks = s.breaks := rfl
@[simp] theorem completesAt_cycle (s : State) (pc : Addr) : (completesAt pc s).cycle = s.cycle := rfl
@[simp] theorem completesAt_ticks (s : State) (pc : Addr) : (completesAt pc s).ticks = s.ticks := rfl
@[simp] theorem completesAt_phase (s : State) (pc : Addr) : (completesAt pc s).phase = s.phase := rfl
@[simp] theorem completesAt_trained (s : State) (pc : Addr) : (completesAt pc s).trained = s.trained := rfl
@[simp] theorem completesAt_budgets (s : State) (pc : Addr) : (completesAt pc s).budgets = s.budgets := rfl
@[simp] theorem completesAt_refresh (s : State) (pc : Addr) : (completesAt pc s).refresh = s.refresh := rfl
@[simp] theorem completesAt_frameTable (s : State) (pc : Addr) : (completesAt pc s).frameTable = s.frameTable := rfl
@[simp] theorem completesAt_coldQueue (s : State) (pc : Addr) : (completesAt pc s).coldQueue = s.coldQueue := rfl
@[simp] theorem completesAt_watermark (s : State) (pc : Addr) : (completesAt pc s).watermark = s.watermark := rfl
@[simp] theorem completesAt_resident (s : State) (pc : Addr) : (completesAt pc s).resident = s.resident := rfl
@[simp] theorem completesAt_landed (s : State) (pc : Addr) : (completesAt pc s).landed = s.landed := rfl
@[simp] theorem completesAt_lateFails (s : State) (pc : Addr) : (completesAt pc s).lateFails = s.lateFails := rfl
@[simp] theorem completesAt_lateFaults (s : State) (pc : Addr) : (completesAt pc s).lateFaults = s.lateFaults := rfl
@[simp] theorem completesAt_hostWait (s : State) (pc : Addr) : (completesAt pc s).hostWait = s.hostWait := rfl
@[simp] theorem completesAt_lateLcb (s : State) (pc : Addr) : (completesAt pc s).lateLcb = s.lateLcb := rfl
@[simp] theorem completesAt_cupBrews (s : State) (pc : Addr) : (completesAt pc s).cupBrews = s.cupBrews := rfl
@[simp] theorem completesAt_treeRoot (s : State) (pc : Addr) : (completesAt pc s).treeRoot = s.treeRoot := rfl
@[simp] theorem completesAt_dirty (s : State) (pc : Addr) : (completesAt pc s).dirty = s.dirty := rfl
@[simp] theorem completesAt_arrived (s : State) (pc : Addr) : (completesAt pc s).arrived = s.arrived := rfl
@[simp] theorem completesAt_halves (s : State) (pc : Addr) : (completesAt pc s).halves = s.halves := rfl
@[simp] theorem completesAt_span (s : State) (pc : Addr) : (completesAt pc s).span = s.span := rfl
@[simp] theorem completesAt_record (s : State) (pc : Addr) : (completesAt pc s).record = s.record := rfl
@[simp] theorem completesAt_sweep (s : State) (pc : Addr) : (completesAt pc s).sweep = s.sweep := rfl
@[simp] theorem completesAt_ndev (s : State) (pc : Addr) : (completesAt pc s).ndev = s.ndev := rfl
@[simp] theorem completesAt_dev (s : State) (pc : Addr) : (completesAt pc s).dev = s.dev := rfl
@[simp] theorem completesAt_args (s : State) (pc : Addr) : (completesAt pc s).args = s.args := rfl
@[simp] theorem completesAt_agenda (s : State) (pc : Addr) : (completesAt pc s).agenda = s.agenda := rfl
@[simp] theorem completesAt_response (s : State) (pc : Addr) : (completesAt pc s).response = s.response := rfl

@[simp] theorem completes_mem (s : State) : (completes s).mem = s.mem := rfl
@[simp] theorem completes_macs (s : State) : (completes s).macs = s.macs := rfl
@[simp] theorem completes_bad (s : State) : (completes s).bad = s.bad := rfl
@[simp] theorem completes_tlb (s : State) : (completes s).tlb = s.tlb := rfl
@[simp] theorem completes_ctxs (s : State) : (completes s).ctxs = s.ctxs := rfl
@[simp] theorem completes_cores (s : State) : (completes s).cores = s.cores := rfl
@[simp] theorem completes_net (s : State) : (completes s).net = s.net := rfl
@[simp] theorem completes_nextId (s : State) : (completes s).nextId = s.nextId := rfl
@[simp] theorem completes_tenants (s : State) : (completes s).tenants = s.tenants := rfl
@[simp] theorem completes_brews (s : State) : (completes s).brews = s.brews := rfl
@[simp] theorem completes_pours (s : State) : (completes s).pours = s.pours := rfl
@[simp] theorem completes_cuts (s : State) : (completes s).cuts = s.cuts := rfl
@[simp] theorem completes_ckpts (s : State) : (completes s).ckpts = s.ckpts := rfl
@[simp] theorem completes_saves (s : State) : (completes s).saves = s.saves := rfl
@[simp] theorem completes_joins (s : State) : (completes s).joins = s.joins := rfl
@[simp] theorem completes_fills (s : State) : (completes s).fills = s.fills := rfl
@[simp] theorem completes_layers (s : State) : (completes s).layers = s.layers := rfl
@[simp] theorem completes_closes (s : State) : (completes s).closes = s.closes := rfl
@[simp] theorem completes_traces (s : State) : (completes s).traces = s.traces := rfl
@[simp] theorem completes_lastTenant (s : State) : (completes s).lastTenant = s.lastTenant := rfl
@[simp] theorem completes_lastCore (s : State) : (completes s).lastCore = s.lastCore := rfl
@[simp] theorem completes_heldCores (s : State) : (completes s).heldCores = s.heldCores := rfl
@[simp] theorem completes_breaks (s : State) : (completes s).breaks = s.breaks := rfl
@[simp] theorem completes_cycle (s : State) : (completes s).cycle = s.cycle := rfl
@[simp] theorem completes_ticks (s : State) : (completes s).ticks = s.ticks := rfl
@[simp] theorem completes_phase (s : State) : (completes s).phase = s.phase := rfl
@[simp] theorem completes_trained (s : State) : (completes s).trained = s.trained := rfl
@[simp] theorem completes_budgets (s : State) : (completes s).budgets = s.budgets := rfl
@[simp] theorem completes_refresh (s : State) : (completes s).refresh = s.refresh := rfl
@[simp] theorem completes_frameTable (s : State) : (completes s).frameTable = s.frameTable := rfl
@[simp] theorem completes_coldQueue (s : State) : (completes s).coldQueue = s.coldQueue := rfl
@[simp] theorem completes_watermark (s : State) : (completes s).watermark = s.watermark := rfl
@[simp] theorem completes_resident (s : State) : (completes s).resident = s.resident := rfl
@[simp] theorem completes_landed (s : State) : (completes s).landed = s.landed := rfl
@[simp] theorem completes_lateFails (s : State) : (completes s).lateFails = s.lateFails := rfl
@[simp] theorem completes_lateFaults (s : State) : (completes s).lateFaults = s.lateFaults := rfl
@[simp] theorem completes_hostWait (s : State) : (completes s).hostWait = s.hostWait := rfl
@[simp] theorem completes_lateLcb (s : State) : (completes s).lateLcb = s.lateLcb := rfl
@[simp] theorem completes_cupBrews (s : State) : (completes s).cupBrews = s.cupBrews := rfl
@[simp] theorem completes_treeRoot (s : State) : (completes s).treeRoot = s.treeRoot := rfl
@[simp] theorem completes_dirty (s : State) : (completes s).dirty = s.dirty := rfl
@[simp] theorem completes_arrived (s : State) : (completes s).arrived = s.arrived := rfl
@[simp] theorem completes_halves (s : State) : (completes s).halves = s.halves := rfl
@[simp] theorem completes_span (s : State) : (completes s).span = s.span := rfl
@[simp] theorem completes_record (s : State) : (completes s).record = s.record := rfl
@[simp] theorem completes_sweep (s : State) : (completes s).sweep = s.sweep := rfl
@[simp] theorem completes_ndev (s : State) : (completes s).ndev = s.ndev := rfl
@[simp] theorem completes_dev (s : State) : (completes s).dev = s.dev := rfl
@[simp] theorem completes_args (s : State) : (completes s).args = s.args := rfl
@[simp] theorem completes_agenda (s : State) : (completes s).agenda = s.agenda := rfl
@[simp] theorem completes_response (s : State) : (completes s).response = s.response := rfl

@[simp] theorem setCore_mem (s : State) (n : Nat) (c : CoreSt) : (setCore s n c).mem = s.mem := rfl
@[simp] theorem setCore_macs (s : State) (n : Nat) (c : CoreSt) : (setCore s n c).macs = s.macs := rfl
@[simp] theorem setCore_bad (s : State) (n : Nat) (c : CoreSt) : (setCore s n c).bad = s.bad := rfl
@[simp] theorem setCore_tlb (s : State) (n : Nat) (c : CoreSt) : (setCore s n c).tlb = s.tlb := rfl
@[simp] theorem setCore_cx (s : State) (n : Nat) (c : CoreSt) : (setCore s n c).cx = s.cx := rfl
@[simp] theorem setCore_ctxs (s : State) (n : Nat) (c : CoreSt) : (setCore s n c).ctxs = s.ctxs := rfl
@[simp] theorem setCore_net (s : State) (n : Nat) (c : CoreSt) : (setCore s n c).net = s.net := rfl
@[simp] theorem setCore_nextId (s : State) (n : Nat) (c : CoreSt) : (setCore s n c).nextId = s.nextId := rfl
@[simp] theorem setCore_tenants (s : State) (n : Nat) (c : CoreSt) : (setCore s n c).tenants = s.tenants := rfl
@[simp] theorem setCore_brews (s : State) (n : Nat) (c : CoreSt) : (setCore s n c).brews = s.brews := rfl
@[simp] theorem setCore_pours (s : State) (n : Nat) (c : CoreSt) : (setCore s n c).pours = s.pours := rfl
@[simp] theorem setCore_cuts (s : State) (n : Nat) (c : CoreSt) : (setCore s n c).cuts = s.cuts := rfl
@[simp] theorem setCore_ckpts (s : State) (n : Nat) (c : CoreSt) : (setCore s n c).ckpts = s.ckpts := rfl
@[simp] theorem setCore_saves (s : State) (n : Nat) (c : CoreSt) : (setCore s n c).saves = s.saves := rfl
@[simp] theorem setCore_joins (s : State) (n : Nat) (c : CoreSt) : (setCore s n c).joins = s.joins := rfl
@[simp] theorem setCore_fills (s : State) (n : Nat) (c : CoreSt) : (setCore s n c).fills = s.fills := rfl
@[simp] theorem setCore_layers (s : State) (n : Nat) (c : CoreSt) : (setCore s n c).layers = s.layers := rfl
@[simp] theorem setCore_closes (s : State) (n : Nat) (c : CoreSt) : (setCore s n c).closes = s.closes := rfl
@[simp] theorem setCore_traces (s : State) (n : Nat) (c : CoreSt) : (setCore s n c).traces = s.traces := rfl
@[simp] theorem setCore_lastTenant (s : State) (n : Nat) (c : CoreSt) : (setCore s n c).lastTenant = s.lastTenant := rfl
@[simp] theorem setCore_lastCore (s : State) (n : Nat) (c : CoreSt) : (setCore s n c).lastCore = s.lastCore := rfl
@[simp] theorem setCore_heldCores (s : State) (n : Nat) (c : CoreSt) : (setCore s n c).heldCores = s.heldCores := rfl
@[simp] theorem setCore_breaks (s : State) (n : Nat) (c : CoreSt) : (setCore s n c).breaks = s.breaks := rfl
@[simp] theorem setCore_cycle (s : State) (n : Nat) (c : CoreSt) : (setCore s n c).cycle = s.cycle := rfl
@[simp] theorem setCore_ticks (s : State) (n : Nat) (c : CoreSt) : (setCore s n c).ticks = s.ticks := rfl
@[simp] theorem setCore_phase (s : State) (n : Nat) (c : CoreSt) : (setCore s n c).phase = s.phase := rfl
@[simp] theorem setCore_trained (s : State) (n : Nat) (c : CoreSt) : (setCore s n c).trained = s.trained := rfl
@[simp] theorem setCore_budgets (s : State) (n : Nat) (c : CoreSt) : (setCore s n c).budgets = s.budgets := rfl
@[simp] theorem setCore_refresh (s : State) (n : Nat) (c : CoreSt) : (setCore s n c).refresh = s.refresh := rfl
@[simp] theorem setCore_frameTable (s : State) (n : Nat) (c : CoreSt) : (setCore s n c).frameTable = s.frameTable := rfl
@[simp] theorem setCore_coldQueue (s : State) (n : Nat) (c : CoreSt) : (setCore s n c).coldQueue = s.coldQueue := rfl
@[simp] theorem setCore_watermark (s : State) (n : Nat) (c : CoreSt) : (setCore s n c).watermark = s.watermark := rfl
@[simp] theorem setCore_resident (s : State) (n : Nat) (c : CoreSt) : (setCore s n c).resident = s.resident := rfl
@[simp] theorem setCore_landed (s : State) (n : Nat) (c : CoreSt) : (setCore s n c).landed = s.landed := rfl
@[simp] theorem setCore_lateFails (s : State) (n : Nat) (c : CoreSt) : (setCore s n c).lateFails = s.lateFails := rfl
@[simp] theorem setCore_lateFaults (s : State) (n : Nat) (c : CoreSt) : (setCore s n c).lateFaults = s.lateFaults := rfl
@[simp] theorem setCore_hostWait (s : State) (n : Nat) (c : CoreSt) : (setCore s n c).hostWait = s.hostWait := rfl
@[simp] theorem setCore_lateLcb (s : State) (n : Nat) (c : CoreSt) : (setCore s n c).lateLcb = s.lateLcb := rfl
@[simp] theorem setCore_cupBrews (s : State) (n : Nat) (c : CoreSt) : (setCore s n c).cupBrews = s.cupBrews := rfl
@[simp] theorem setCore_treeRoot (s : State) (n : Nat) (c : CoreSt) : (setCore s n c).treeRoot = s.treeRoot := rfl
@[simp] theorem setCore_dirty (s : State) (n : Nat) (c : CoreSt) : (setCore s n c).dirty = s.dirty := rfl
@[simp] theorem setCore_arrived (s : State) (n : Nat) (c : CoreSt) : (setCore s n c).arrived = s.arrived := rfl
@[simp] theorem setCore_halves (s : State) (n : Nat) (c : CoreSt) : (setCore s n c).halves = s.halves := rfl
@[simp] theorem setCore_span (s : State) (n : Nat) (c : CoreSt) : (setCore s n c).span = s.span := rfl
@[simp] theorem setCore_record (s : State) (n : Nat) (c : CoreSt) : (setCore s n c).record = s.record := rfl
@[simp] theorem setCore_sweep (s : State) (n : Nat) (c : CoreSt) : (setCore s n c).sweep = s.sweep := rfl
@[simp] theorem setCore_ndev (s : State) (n : Nat) (c : CoreSt) : (setCore s n c).ndev = s.ndev := rfl
@[simp] theorem setCore_dev (s : State) (n : Nat) (c : CoreSt) : (setCore s n c).dev = s.dev := rfl
@[simp] theorem setCore_args (s : State) (n : Nat) (c : CoreSt) : (setCore s n c).args = s.args := rfl
@[simp] theorem setCore_agenda (s : State) (n : Nat) (c : CoreSt) : (setCore s n c).agenda = s.agenda := rfl
@[simp] theorem setCore_response (s : State) (n : Nat) (c : CoreSt) : (setCore s n c).response = s.response := rfl

@[simp] theorem updCore_mem (s : State) (n : Nat) (f : CoreSt → CoreSt) : (updCore s n f).mem = s.mem := rfl
@[simp] theorem updCore_macs (s : State) (n : Nat) (f : CoreSt → CoreSt) : (updCore s n f).macs = s.macs := rfl
@[simp] theorem updCore_bad (s : State) (n : Nat) (f : CoreSt → CoreSt) : (updCore s n f).bad = s.bad := rfl
@[simp] theorem updCore_tlb (s : State) (n : Nat) (f : CoreSt → CoreSt) : (updCore s n f).tlb = s.tlb := rfl
@[simp] theorem updCore_cx (s : State) (n : Nat) (f : CoreSt → CoreSt) : (updCore s n f).cx = s.cx := rfl
@[simp] theorem updCore_ctxs (s : State) (n : Nat) (f : CoreSt → CoreSt) : (updCore s n f).ctxs = s.ctxs := rfl
@[simp] theorem updCore_net (s : State) (n : Nat) (f : CoreSt → CoreSt) : (updCore s n f).net = s.net := rfl
@[simp] theorem updCore_nextId (s : State) (n : Nat) (f : CoreSt → CoreSt) : (updCore s n f).nextId = s.nextId := rfl
@[simp] theorem updCore_tenants (s : State) (n : Nat) (f : CoreSt → CoreSt) : (updCore s n f).tenants = s.tenants := rfl
@[simp] theorem updCore_brews (s : State) (n : Nat) (f : CoreSt → CoreSt) : (updCore s n f).brews = s.brews := rfl
@[simp] theorem updCore_pours (s : State) (n : Nat) (f : CoreSt → CoreSt) : (updCore s n f).pours = s.pours := rfl
@[simp] theorem updCore_cuts (s : State) (n : Nat) (f : CoreSt → CoreSt) : (updCore s n f).cuts = s.cuts := rfl
@[simp] theorem updCore_ckpts (s : State) (n : Nat) (f : CoreSt → CoreSt) : (updCore s n f).ckpts = s.ckpts := rfl
@[simp] theorem updCore_saves (s : State) (n : Nat) (f : CoreSt → CoreSt) : (updCore s n f).saves = s.saves := rfl
@[simp] theorem updCore_joins (s : State) (n : Nat) (f : CoreSt → CoreSt) : (updCore s n f).joins = s.joins := rfl
@[simp] theorem updCore_fills (s : State) (n : Nat) (f : CoreSt → CoreSt) : (updCore s n f).fills = s.fills := rfl
@[simp] theorem updCore_layers (s : State) (n : Nat) (f : CoreSt → CoreSt) : (updCore s n f).layers = s.layers := rfl
@[simp] theorem updCore_closes (s : State) (n : Nat) (f : CoreSt → CoreSt) : (updCore s n f).closes = s.closes := rfl
@[simp] theorem updCore_traces (s : State) (n : Nat) (f : CoreSt → CoreSt) : (updCore s n f).traces = s.traces := rfl
@[simp] theorem updCore_lastTenant (s : State) (n : Nat) (f : CoreSt → CoreSt) : (updCore s n f).lastTenant = s.lastTenant := rfl
@[simp] theorem updCore_lastCore (s : State) (n : Nat) (f : CoreSt → CoreSt) : (updCore s n f).lastCore = s.lastCore := rfl
@[simp] theorem updCore_heldCores (s : State) (n : Nat) (f : CoreSt → CoreSt) : (updCore s n f).heldCores = s.heldCores := rfl
@[simp] theorem updCore_breaks (s : State) (n : Nat) (f : CoreSt → CoreSt) : (updCore s n f).breaks = s.breaks := rfl
@[simp] theorem updCore_cycle (s : State) (n : Nat) (f : CoreSt → CoreSt) : (updCore s n f).cycle = s.cycle := rfl
@[simp] theorem updCore_ticks (s : State) (n : Nat) (f : CoreSt → CoreSt) : (updCore s n f).ticks = s.ticks := rfl
@[simp] theorem updCore_phase (s : State) (n : Nat) (f : CoreSt → CoreSt) : (updCore s n f).phase = s.phase := rfl
@[simp] theorem updCore_trained (s : State) (n : Nat) (f : CoreSt → CoreSt) : (updCore s n f).trained = s.trained := rfl
@[simp] theorem updCore_budgets (s : State) (n : Nat) (f : CoreSt → CoreSt) : (updCore s n f).budgets = s.budgets := rfl
@[simp] theorem updCore_refresh (s : State) (n : Nat) (f : CoreSt → CoreSt) : (updCore s n f).refresh = s.refresh := rfl
@[simp] theorem updCore_frameTable (s : State) (n : Nat) (f : CoreSt → CoreSt) : (updCore s n f).frameTable = s.frameTable := rfl
@[simp] theorem updCore_coldQueue (s : State) (n : Nat) (f : CoreSt → CoreSt) : (updCore s n f).coldQueue = s.coldQueue := rfl
@[simp] theorem updCore_watermark (s : State) (n : Nat) (f : CoreSt → CoreSt) : (updCore s n f).watermark = s.watermark := rfl
@[simp] theorem updCore_resident (s : State) (n : Nat) (f : CoreSt → CoreSt) : (updCore s n f).resident = s.resident := rfl
@[simp] theorem updCore_landed (s : State) (n : Nat) (f : CoreSt → CoreSt) : (updCore s n f).landed = s.landed := rfl
@[simp] theorem updCore_lateFails (s : State) (n : Nat) (f : CoreSt → CoreSt) : (updCore s n f).lateFails = s.lateFails := rfl
@[simp] theorem updCore_lateFaults (s : State) (n : Nat) (f : CoreSt → CoreSt) : (updCore s n f).lateFaults = s.lateFaults := rfl
@[simp] theorem updCore_hostWait (s : State) (n : Nat) (f : CoreSt → CoreSt) : (updCore s n f).hostWait = s.hostWait := rfl
@[simp] theorem updCore_lateLcb (s : State) (n : Nat) (f : CoreSt → CoreSt) : (updCore s n f).lateLcb = s.lateLcb := rfl
@[simp] theorem updCore_cupBrews (s : State) (n : Nat) (f : CoreSt → CoreSt) : (updCore s n f).cupBrews = s.cupBrews := rfl
@[simp] theorem updCore_treeRoot (s : State) (n : Nat) (f : CoreSt → CoreSt) : (updCore s n f).treeRoot = s.treeRoot := rfl
@[simp] theorem updCore_dirty (s : State) (n : Nat) (f : CoreSt → CoreSt) : (updCore s n f).dirty = s.dirty := rfl
@[simp] theorem updCore_arrived (s : State) (n : Nat) (f : CoreSt → CoreSt) : (updCore s n f).arrived = s.arrived := rfl
@[simp] theorem updCore_halves (s : State) (n : Nat) (f : CoreSt → CoreSt) : (updCore s n f).halves = s.halves := rfl
@[simp] theorem updCore_span (s : State) (n : Nat) (f : CoreSt → CoreSt) : (updCore s n f).span = s.span := rfl
@[simp] theorem updCore_record (s : State) (n : Nat) (f : CoreSt → CoreSt) : (updCore s n f).record = s.record := rfl
@[simp] theorem updCore_sweep (s : State) (n : Nat) (f : CoreSt → CoreSt) : (updCore s n f).sweep = s.sweep := rfl
@[simp] theorem updCore_ndev (s : State) (n : Nat) (f : CoreSt → CoreSt) : (updCore s n f).ndev = s.ndev := rfl
@[simp] theorem updCore_dev (s : State) (n : Nat) (f : CoreSt → CoreSt) : (updCore s n f).dev = s.dev := rfl
@[simp] theorem updCore_args (s : State) (n : Nat) (f : CoreSt → CoreSt) : (updCore s n f).args = s.args := rfl
@[simp] theorem updCore_agenda (s : State) (n : Nat) (f : CoreSt → CoreSt) : (updCore s n f).agenda = s.agenda := rfl
@[simp] theorem updCore_response (s : State) (n : Nat) (f : CoreSt → CoreSt) : (updCore s n f).response = s.response := rfl

@[simp] theorem setKettle_mem (s : State) (n k : Nat) (v : Kettle) : (setKettle s n k v).mem = s.mem := rfl
@[simp] theorem setKettle_macs (s : State) (n k : Nat) (v : Kettle) : (setKettle s n k v).macs = s.macs := rfl
@[simp] theorem setKettle_bad (s : State) (n k : Nat) (v : Kettle) : (setKettle s n k v).bad = s.bad := rfl
@[simp] theorem setKettle_tlb (s : State) (n k : Nat) (v : Kettle) : (setKettle s n k v).tlb = s.tlb := rfl
@[simp] theorem setKettle_cx (s : State) (n k : Nat) (v : Kettle) : (setKettle s n k v).cx = s.cx := rfl
@[simp] theorem setKettle_ctxs (s : State) (n k : Nat) (v : Kettle) : (setKettle s n k v).ctxs = s.ctxs := rfl
@[simp] theorem setKettle_net (s : State) (n k : Nat) (v : Kettle) : (setKettle s n k v).net = s.net := rfl
@[simp] theorem setKettle_nextId (s : State) (n k : Nat) (v : Kettle) : (setKettle s n k v).nextId = s.nextId := rfl
@[simp] theorem setKettle_tenants (s : State) (n k : Nat) (v : Kettle) : (setKettle s n k v).tenants = s.tenants := rfl
@[simp] theorem setKettle_brews (s : State) (n k : Nat) (v : Kettle) : (setKettle s n k v).brews = s.brews := rfl
@[simp] theorem setKettle_pours (s : State) (n k : Nat) (v : Kettle) : (setKettle s n k v).pours = s.pours := rfl
@[simp] theorem setKettle_cuts (s : State) (n k : Nat) (v : Kettle) : (setKettle s n k v).cuts = s.cuts := rfl
@[simp] theorem setKettle_ckpts (s : State) (n k : Nat) (v : Kettle) : (setKettle s n k v).ckpts = s.ckpts := rfl
@[simp] theorem setKettle_saves (s : State) (n k : Nat) (v : Kettle) : (setKettle s n k v).saves = s.saves := rfl
@[simp] theorem setKettle_joins (s : State) (n k : Nat) (v : Kettle) : (setKettle s n k v).joins = s.joins := rfl
@[simp] theorem setKettle_fills (s : State) (n k : Nat) (v : Kettle) : (setKettle s n k v).fills = s.fills := rfl
@[simp] theorem setKettle_layers (s : State) (n k : Nat) (v : Kettle) : (setKettle s n k v).layers = s.layers := rfl
@[simp] theorem setKettle_closes (s : State) (n k : Nat) (v : Kettle) : (setKettle s n k v).closes = s.closes := rfl
@[simp] theorem setKettle_traces (s : State) (n k : Nat) (v : Kettle) : (setKettle s n k v).traces = s.traces := rfl
@[simp] theorem setKettle_lastTenant (s : State) (n k : Nat) (v : Kettle) : (setKettle s n k v).lastTenant = s.lastTenant := rfl
@[simp] theorem setKettle_lastCore (s : State) (n k : Nat) (v : Kettle) : (setKettle s n k v).lastCore = s.lastCore := rfl
@[simp] theorem setKettle_heldCores (s : State) (n k : Nat) (v : Kettle) : (setKettle s n k v).heldCores = s.heldCores := rfl
@[simp] theorem setKettle_breaks (s : State) (n k : Nat) (v : Kettle) : (setKettle s n k v).breaks = s.breaks := rfl
@[simp] theorem setKettle_cycle (s : State) (n k : Nat) (v : Kettle) : (setKettle s n k v).cycle = s.cycle := rfl
@[simp] theorem setKettle_ticks (s : State) (n k : Nat) (v : Kettle) : (setKettle s n k v).ticks = s.ticks := rfl
@[simp] theorem setKettle_phase (s : State) (n k : Nat) (v : Kettle) : (setKettle s n k v).phase = s.phase := rfl
@[simp] theorem setKettle_trained (s : State) (n k : Nat) (v : Kettle) : (setKettle s n k v).trained = s.trained := rfl
@[simp] theorem setKettle_budgets (s : State) (n k : Nat) (v : Kettle) : (setKettle s n k v).budgets = s.budgets := rfl
@[simp] theorem setKettle_refresh (s : State) (n k : Nat) (v : Kettle) : (setKettle s n k v).refresh = s.refresh := rfl
@[simp] theorem setKettle_frameTable (s : State) (n k : Nat) (v : Kettle) : (setKettle s n k v).frameTable = s.frameTable := rfl
@[simp] theorem setKettle_coldQueue (s : State) (n k : Nat) (v : Kettle) : (setKettle s n k v).coldQueue = s.coldQueue := rfl
@[simp] theorem setKettle_watermark (s : State) (n k : Nat) (v : Kettle) : (setKettle s n k v).watermark = s.watermark := rfl
@[simp] theorem setKettle_resident (s : State) (n k : Nat) (v : Kettle) : (setKettle s n k v).resident = s.resident := rfl
@[simp] theorem setKettle_landed (s : State) (n k : Nat) (v : Kettle) : (setKettle s n k v).landed = s.landed := rfl
@[simp] theorem setKettle_lateFails (s : State) (n k : Nat) (v : Kettle) : (setKettle s n k v).lateFails = s.lateFails := rfl
@[simp] theorem setKettle_lateFaults (s : State) (n k : Nat) (v : Kettle) : (setKettle s n k v).lateFaults = s.lateFaults := rfl
@[simp] theorem setKettle_hostWait (s : State) (n k : Nat) (v : Kettle) : (setKettle s n k v).hostWait = s.hostWait := rfl
@[simp] theorem setKettle_lateLcb (s : State) (n k : Nat) (v : Kettle) : (setKettle s n k v).lateLcb = s.lateLcb := rfl
@[simp] theorem setKettle_cupBrews (s : State) (n k : Nat) (v : Kettle) : (setKettle s n k v).cupBrews = s.cupBrews := rfl
@[simp] theorem setKettle_treeRoot (s : State) (n k : Nat) (v : Kettle) : (setKettle s n k v).treeRoot = s.treeRoot := rfl
@[simp] theorem setKettle_dirty (s : State) (n k : Nat) (v : Kettle) : (setKettle s n k v).dirty = s.dirty := rfl
@[simp] theorem setKettle_arrived (s : State) (n k : Nat) (v : Kettle) : (setKettle s n k v).arrived = s.arrived := rfl
@[simp] theorem setKettle_halves (s : State) (n k : Nat) (v : Kettle) : (setKettle s n k v).halves = s.halves := rfl
@[simp] theorem setKettle_span (s : State) (n k : Nat) (v : Kettle) : (setKettle s n k v).span = s.span := rfl
@[simp] theorem setKettle_record (s : State) (n k : Nat) (v : Kettle) : (setKettle s n k v).record = s.record := rfl
@[simp] theorem setKettle_sweep (s : State) (n k : Nat) (v : Kettle) : (setKettle s n k v).sweep = s.sweep := rfl
@[simp] theorem setKettle_ndev (s : State) (n k : Nat) (v : Kettle) : (setKettle s n k v).ndev = s.ndev := rfl
@[simp] theorem setKettle_dev (s : State) (n k : Nat) (v : Kettle) : (setKettle s n k v).dev = s.dev := rfl
@[simp] theorem setKettle_args (s : State) (n k : Nat) (v : Kettle) : (setKettle s n k v).args = s.args := rfl
@[simp] theorem setKettle_agenda (s : State) (n k : Nat) (v : Kettle) : (setKettle s n k v).agenda = s.agenda := rfl
@[simp] theorem setKettle_response (s : State) (n k : Nat) (v : Kettle) : (setKettle s n k v).response = s.response := rfl

@[simp] theorem setTenant_mem (s : State) (n : Nat) (v : Tenant) : (setTenant s n v).mem = s.mem := rfl
@[simp] theorem setTenant_macs (s : State) (n : Nat) (v : Tenant) : (setTenant s n v).macs = s.macs := rfl
@[simp] theorem setTenant_bad (s : State) (n : Nat) (v : Tenant) : (setTenant s n v).bad = s.bad := rfl
@[simp] theorem setTenant_tlb (s : State) (n : Nat) (v : Tenant) : (setTenant s n v).tlb = s.tlb := rfl
@[simp] theorem setTenant_cx (s : State) (n : Nat) (v : Tenant) : (setTenant s n v).cx = s.cx := rfl
@[simp] theorem setTenant_ctxs (s : State) (n : Nat) (v : Tenant) : (setTenant s n v).ctxs = s.ctxs := rfl
@[simp] theorem setTenant_cores (s : State) (n : Nat) (v : Tenant) : (setTenant s n v).cores = s.cores := rfl
@[simp] theorem setTenant_net (s : State) (n : Nat) (v : Tenant) : (setTenant s n v).net = s.net := rfl
@[simp] theorem setTenant_nextId (s : State) (n : Nat) (v : Tenant) : (setTenant s n v).nextId = s.nextId := rfl
@[simp] theorem setTenant_brews (s : State) (n : Nat) (v : Tenant) : (setTenant s n v).brews = s.brews := rfl
@[simp] theorem setTenant_pours (s : State) (n : Nat) (v : Tenant) : (setTenant s n v).pours = s.pours := rfl
@[simp] theorem setTenant_cuts (s : State) (n : Nat) (v : Tenant) : (setTenant s n v).cuts = s.cuts := rfl
@[simp] theorem setTenant_ckpts (s : State) (n : Nat) (v : Tenant) : (setTenant s n v).ckpts = s.ckpts := rfl
@[simp] theorem setTenant_saves (s : State) (n : Nat) (v : Tenant) : (setTenant s n v).saves = s.saves := rfl
@[simp] theorem setTenant_joins (s : State) (n : Nat) (v : Tenant) : (setTenant s n v).joins = s.joins := rfl
@[simp] theorem setTenant_fills (s : State) (n : Nat) (v : Tenant) : (setTenant s n v).fills = s.fills := rfl
@[simp] theorem setTenant_layers (s : State) (n : Nat) (v : Tenant) : (setTenant s n v).layers = s.layers := rfl
@[simp] theorem setTenant_closes (s : State) (n : Nat) (v : Tenant) : (setTenant s n v).closes = s.closes := rfl
@[simp] theorem setTenant_traces (s : State) (n : Nat) (v : Tenant) : (setTenant s n v).traces = s.traces := rfl
@[simp] theorem setTenant_lastTenant (s : State) (n : Nat) (v : Tenant) : (setTenant s n v).lastTenant = s.lastTenant := rfl
@[simp] theorem setTenant_lastCore (s : State) (n : Nat) (v : Tenant) : (setTenant s n v).lastCore = s.lastCore := rfl
@[simp] theorem setTenant_heldCores (s : State) (n : Nat) (v : Tenant) : (setTenant s n v).heldCores = s.heldCores := rfl
@[simp] theorem setTenant_breaks (s : State) (n : Nat) (v : Tenant) : (setTenant s n v).breaks = s.breaks := rfl
@[simp] theorem setTenant_cycle (s : State) (n : Nat) (v : Tenant) : (setTenant s n v).cycle = s.cycle := rfl
@[simp] theorem setTenant_ticks (s : State) (n : Nat) (v : Tenant) : (setTenant s n v).ticks = s.ticks := rfl
@[simp] theorem setTenant_phase (s : State) (n : Nat) (v : Tenant) : (setTenant s n v).phase = s.phase := rfl
@[simp] theorem setTenant_trained (s : State) (n : Nat) (v : Tenant) : (setTenant s n v).trained = s.trained := rfl
@[simp] theorem setTenant_budgets (s : State) (n : Nat) (v : Tenant) : (setTenant s n v).budgets = s.budgets := rfl
@[simp] theorem setTenant_refresh (s : State) (n : Nat) (v : Tenant) : (setTenant s n v).refresh = s.refresh := rfl
@[simp] theorem setTenant_frameTable (s : State) (n : Nat) (v : Tenant) : (setTenant s n v).frameTable = s.frameTable := rfl
@[simp] theorem setTenant_coldQueue (s : State) (n : Nat) (v : Tenant) : (setTenant s n v).coldQueue = s.coldQueue := rfl
@[simp] theorem setTenant_watermark (s : State) (n : Nat) (v : Tenant) : (setTenant s n v).watermark = s.watermark := rfl
@[simp] theorem setTenant_resident (s : State) (n : Nat) (v : Tenant) : (setTenant s n v).resident = s.resident := rfl
@[simp] theorem setTenant_landed (s : State) (n : Nat) (v : Tenant) : (setTenant s n v).landed = s.landed := rfl
@[simp] theorem setTenant_lateFails (s : State) (n : Nat) (v : Tenant) : (setTenant s n v).lateFails = s.lateFails := rfl
@[simp] theorem setTenant_lateFaults (s : State) (n : Nat) (v : Tenant) : (setTenant s n v).lateFaults = s.lateFaults := rfl
@[simp] theorem setTenant_hostWait (s : State) (n : Nat) (v : Tenant) : (setTenant s n v).hostWait = s.hostWait := rfl
@[simp] theorem setTenant_lateLcb (s : State) (n : Nat) (v : Tenant) : (setTenant s n v).lateLcb = s.lateLcb := rfl
@[simp] theorem setTenant_cupBrews (s : State) (n : Nat) (v : Tenant) : (setTenant s n v).cupBrews = s.cupBrews := rfl
@[simp] theorem setTenant_treeRoot (s : State) (n : Nat) (v : Tenant) : (setTenant s n v).treeRoot = s.treeRoot := rfl
@[simp] theorem setTenant_dirty (s : State) (n : Nat) (v : Tenant) : (setTenant s n v).dirty = s.dirty := rfl
@[simp] theorem setTenant_arrived (s : State) (n : Nat) (v : Tenant) : (setTenant s n v).arrived = s.arrived := rfl
@[simp] theorem setTenant_halves (s : State) (n : Nat) (v : Tenant) : (setTenant s n v).halves = s.halves := rfl
@[simp] theorem setTenant_span (s : State) (n : Nat) (v : Tenant) : (setTenant s n v).span = s.span := rfl
@[simp] theorem setTenant_record (s : State) (n : Nat) (v : Tenant) : (setTenant s n v).record = s.record := rfl
@[simp] theorem setTenant_sweep (s : State) (n : Nat) (v : Tenant) : (setTenant s n v).sweep = s.sweep := rfl
@[simp] theorem setTenant_ndev (s : State) (n : Nat) (v : Tenant) : (setTenant s n v).ndev = s.ndev := rfl
@[simp] theorem setTenant_dev (s : State) (n : Nat) (v : Tenant) : (setTenant s n v).dev = s.dev := rfl
@[simp] theorem setTenant_args (s : State) (n : Nat) (v : Tenant) : (setTenant s n v).args = s.args := rfl
@[simp] theorem setTenant_agenda (s : State) (n : Nat) (v : Tenant) : (setTenant s n v).agenda = s.agenda := rfl
@[simp] theorem setTenant_response (s : State) (n : Nat) (v : Tenant) : (setTenant s n v).response = s.response := rfl

@[simp] theorem updTenant_mem (s : State) (n : Nat) (f : Tenant → Tenant) : (updTenant s n f).mem = s.mem := rfl
@[simp] theorem updTenant_macs (s : State) (n : Nat) (f : Tenant → Tenant) : (updTenant s n f).macs = s.macs := rfl
@[simp] theorem updTenant_bad (s : State) (n : Nat) (f : Tenant → Tenant) : (updTenant s n f).bad = s.bad := rfl
@[simp] theorem updTenant_tlb (s : State) (n : Nat) (f : Tenant → Tenant) : (updTenant s n f).tlb = s.tlb := rfl
@[simp] theorem updTenant_cx (s : State) (n : Nat) (f : Tenant → Tenant) : (updTenant s n f).cx = s.cx := rfl
@[simp] theorem updTenant_ctxs (s : State) (n : Nat) (f : Tenant → Tenant) : (updTenant s n f).ctxs = s.ctxs := rfl
@[simp] theorem updTenant_cores (s : State) (n : Nat) (f : Tenant → Tenant) : (updTenant s n f).cores = s.cores := rfl
@[simp] theorem updTenant_net (s : State) (n : Nat) (f : Tenant → Tenant) : (updTenant s n f).net = s.net := rfl
@[simp] theorem updTenant_nextId (s : State) (n : Nat) (f : Tenant → Tenant) : (updTenant s n f).nextId = s.nextId := rfl
@[simp] theorem updTenant_brews (s : State) (n : Nat) (f : Tenant → Tenant) : (updTenant s n f).brews = s.brews := rfl
@[simp] theorem updTenant_pours (s : State) (n : Nat) (f : Tenant → Tenant) : (updTenant s n f).pours = s.pours := rfl
@[simp] theorem updTenant_cuts (s : State) (n : Nat) (f : Tenant → Tenant) : (updTenant s n f).cuts = s.cuts := rfl
@[simp] theorem updTenant_ckpts (s : State) (n : Nat) (f : Tenant → Tenant) : (updTenant s n f).ckpts = s.ckpts := rfl
@[simp] theorem updTenant_saves (s : State) (n : Nat) (f : Tenant → Tenant) : (updTenant s n f).saves = s.saves := rfl
@[simp] theorem updTenant_joins (s : State) (n : Nat) (f : Tenant → Tenant) : (updTenant s n f).joins = s.joins := rfl
@[simp] theorem updTenant_fills (s : State) (n : Nat) (f : Tenant → Tenant) : (updTenant s n f).fills = s.fills := rfl
@[simp] theorem updTenant_layers (s : State) (n : Nat) (f : Tenant → Tenant) : (updTenant s n f).layers = s.layers := rfl
@[simp] theorem updTenant_closes (s : State) (n : Nat) (f : Tenant → Tenant) : (updTenant s n f).closes = s.closes := rfl
@[simp] theorem updTenant_traces (s : State) (n : Nat) (f : Tenant → Tenant) : (updTenant s n f).traces = s.traces := rfl
@[simp] theorem updTenant_lastTenant (s : State) (n : Nat) (f : Tenant → Tenant) : (updTenant s n f).lastTenant = s.lastTenant := rfl
@[simp] theorem updTenant_lastCore (s : State) (n : Nat) (f : Tenant → Tenant) : (updTenant s n f).lastCore = s.lastCore := rfl
@[simp] theorem updTenant_heldCores (s : State) (n : Nat) (f : Tenant → Tenant) : (updTenant s n f).heldCores = s.heldCores := rfl
@[simp] theorem updTenant_breaks (s : State) (n : Nat) (f : Tenant → Tenant) : (updTenant s n f).breaks = s.breaks := rfl
@[simp] theorem updTenant_cycle (s : State) (n : Nat) (f : Tenant → Tenant) : (updTenant s n f).cycle = s.cycle := rfl
@[simp] theorem updTenant_ticks (s : State) (n : Nat) (f : Tenant → Tenant) : (updTenant s n f).ticks = s.ticks := rfl
@[simp] theorem updTenant_phase (s : State) (n : Nat) (f : Tenant → Tenant) : (updTenant s n f).phase = s.phase := rfl
@[simp] theorem updTenant_trained (s : State) (n : Nat) (f : Tenant → Tenant) : (updTenant s n f).trained = s.trained := rfl
@[simp] theorem updTenant_budgets (s : State) (n : Nat) (f : Tenant → Tenant) : (updTenant s n f).budgets = s.budgets := rfl
@[simp] theorem updTenant_refresh (s : State) (n : Nat) (f : Tenant → Tenant) : (updTenant s n f).refresh = s.refresh := rfl
@[simp] theorem updTenant_frameTable (s : State) (n : Nat) (f : Tenant → Tenant) : (updTenant s n f).frameTable = s.frameTable := rfl
@[simp] theorem updTenant_coldQueue (s : State) (n : Nat) (f : Tenant → Tenant) : (updTenant s n f).coldQueue = s.coldQueue := rfl
@[simp] theorem updTenant_watermark (s : State) (n : Nat) (f : Tenant → Tenant) : (updTenant s n f).watermark = s.watermark := rfl
@[simp] theorem updTenant_resident (s : State) (n : Nat) (f : Tenant → Tenant) : (updTenant s n f).resident = s.resident := rfl
@[simp] theorem updTenant_landed (s : State) (n : Nat) (f : Tenant → Tenant) : (updTenant s n f).landed = s.landed := rfl
@[simp] theorem updTenant_lateFails (s : State) (n : Nat) (f : Tenant → Tenant) : (updTenant s n f).lateFails = s.lateFails := rfl
@[simp] theorem updTenant_lateFaults (s : State) (n : Nat) (f : Tenant → Tenant) : (updTenant s n f).lateFaults = s.lateFaults := rfl
@[simp] theorem updTenant_hostWait (s : State) (n : Nat) (f : Tenant → Tenant) : (updTenant s n f).hostWait = s.hostWait := rfl
@[simp] theorem updTenant_lateLcb (s : State) (n : Nat) (f : Tenant → Tenant) : (updTenant s n f).lateLcb = s.lateLcb := rfl
@[simp] theorem updTenant_cupBrews (s : State) (n : Nat) (f : Tenant → Tenant) : (updTenant s n f).cupBrews = s.cupBrews := rfl
@[simp] theorem updTenant_treeRoot (s : State) (n : Nat) (f : Tenant → Tenant) : (updTenant s n f).treeRoot = s.treeRoot := rfl
@[simp] theorem updTenant_dirty (s : State) (n : Nat) (f : Tenant → Tenant) : (updTenant s n f).dirty = s.dirty := rfl
@[simp] theorem updTenant_arrived (s : State) (n : Nat) (f : Tenant → Tenant) : (updTenant s n f).arrived = s.arrived := rfl
@[simp] theorem updTenant_halves (s : State) (n : Nat) (f : Tenant → Tenant) : (updTenant s n f).halves = s.halves := rfl
@[simp] theorem updTenant_span (s : State) (n : Nat) (f : Tenant → Tenant) : (updTenant s n f).span = s.span := rfl
@[simp] theorem updTenant_record (s : State) (n : Nat) (f : Tenant → Tenant) : (updTenant s n f).record = s.record := rfl
@[simp] theorem updTenant_sweep (s : State) (n : Nat) (f : Tenant → Tenant) : (updTenant s n f).sweep = s.sweep := rfl
@[simp] theorem updTenant_ndev (s : State) (n : Nat) (f : Tenant → Tenant) : (updTenant s n f).ndev = s.ndev := rfl
@[simp] theorem updTenant_dev (s : State) (n : Nat) (f : Tenant → Tenant) : (updTenant s n f).dev = s.dev := rfl
@[simp] theorem updTenant_args (s : State) (n : Nat) (f : Tenant → Tenant) : (updTenant s n f).args = s.args := rfl
@[simp] theorem updTenant_agenda (s : State) (n : Nat) (f : Tenant → Tenant) : (updTenant s n f).agenda = s.agenda := rfl
@[simp] theorem updTenant_response (s : State) (n : Nat) (f : Tenant → Tenant) : (updTenant s n f).response = s.response := rfl

@[simp] theorem updPour_mem (s : State) (n : Nat) (f : Pour → Pour) : (updPour s n f).mem = s.mem := rfl
@[simp] theorem updPour_macs (s : State) (n : Nat) (f : Pour → Pour) : (updPour s n f).macs = s.macs := rfl
@[simp] theorem updPour_bad (s : State) (n : Nat) (f : Pour → Pour) : (updPour s n f).bad = s.bad := rfl
@[simp] theorem updPour_tlb (s : State) (n : Nat) (f : Pour → Pour) : (updPour s n f).tlb = s.tlb := rfl
@[simp] theorem updPour_cx (s : State) (n : Nat) (f : Pour → Pour) : (updPour s n f).cx = s.cx := rfl
@[simp] theorem updPour_ctxs (s : State) (n : Nat) (f : Pour → Pour) : (updPour s n f).ctxs = s.ctxs := rfl
@[simp] theorem updPour_cores (s : State) (n : Nat) (f : Pour → Pour) : (updPour s n f).cores = s.cores := rfl
@[simp] theorem updPour_net (s : State) (n : Nat) (f : Pour → Pour) : (updPour s n f).net = s.net := rfl
@[simp] theorem updPour_nextId (s : State) (n : Nat) (f : Pour → Pour) : (updPour s n f).nextId = s.nextId := rfl
@[simp] theorem updPour_tenants (s : State) (n : Nat) (f : Pour → Pour) : (updPour s n f).tenants = s.tenants := rfl
@[simp] theorem updPour_brews (s : State) (n : Nat) (f : Pour → Pour) : (updPour s n f).brews = s.brews := rfl
@[simp] theorem updPour_cuts (s : State) (n : Nat) (f : Pour → Pour) : (updPour s n f).cuts = s.cuts := rfl
@[simp] theorem updPour_ckpts (s : State) (n : Nat) (f : Pour → Pour) : (updPour s n f).ckpts = s.ckpts := rfl
@[simp] theorem updPour_saves (s : State) (n : Nat) (f : Pour → Pour) : (updPour s n f).saves = s.saves := rfl
@[simp] theorem updPour_joins (s : State) (n : Nat) (f : Pour → Pour) : (updPour s n f).joins = s.joins := rfl
@[simp] theorem updPour_fills (s : State) (n : Nat) (f : Pour → Pour) : (updPour s n f).fills = s.fills := rfl
@[simp] theorem updPour_layers (s : State) (n : Nat) (f : Pour → Pour) : (updPour s n f).layers = s.layers := rfl
@[simp] theorem updPour_closes (s : State) (n : Nat) (f : Pour → Pour) : (updPour s n f).closes = s.closes := rfl
@[simp] theorem updPour_traces (s : State) (n : Nat) (f : Pour → Pour) : (updPour s n f).traces = s.traces := rfl
@[simp] theorem updPour_lastTenant (s : State) (n : Nat) (f : Pour → Pour) : (updPour s n f).lastTenant = s.lastTenant := rfl
@[simp] theorem updPour_lastCore (s : State) (n : Nat) (f : Pour → Pour) : (updPour s n f).lastCore = s.lastCore := rfl
@[simp] theorem updPour_heldCores (s : State) (n : Nat) (f : Pour → Pour) : (updPour s n f).heldCores = s.heldCores := rfl
@[simp] theorem updPour_breaks (s : State) (n : Nat) (f : Pour → Pour) : (updPour s n f).breaks = s.breaks := rfl
@[simp] theorem updPour_cycle (s : State) (n : Nat) (f : Pour → Pour) : (updPour s n f).cycle = s.cycle := rfl
@[simp] theorem updPour_ticks (s : State) (n : Nat) (f : Pour → Pour) : (updPour s n f).ticks = s.ticks := rfl
@[simp] theorem updPour_phase (s : State) (n : Nat) (f : Pour → Pour) : (updPour s n f).phase = s.phase := rfl
@[simp] theorem updPour_trained (s : State) (n : Nat) (f : Pour → Pour) : (updPour s n f).trained = s.trained := rfl
@[simp] theorem updPour_budgets (s : State) (n : Nat) (f : Pour → Pour) : (updPour s n f).budgets = s.budgets := rfl
@[simp] theorem updPour_refresh (s : State) (n : Nat) (f : Pour → Pour) : (updPour s n f).refresh = s.refresh := rfl
@[simp] theorem updPour_frameTable (s : State) (n : Nat) (f : Pour → Pour) : (updPour s n f).frameTable = s.frameTable := rfl
@[simp] theorem updPour_coldQueue (s : State) (n : Nat) (f : Pour → Pour) : (updPour s n f).coldQueue = s.coldQueue := rfl
@[simp] theorem updPour_watermark (s : State) (n : Nat) (f : Pour → Pour) : (updPour s n f).watermark = s.watermark := rfl
@[simp] theorem updPour_resident (s : State) (n : Nat) (f : Pour → Pour) : (updPour s n f).resident = s.resident := rfl
@[simp] theorem updPour_landed (s : State) (n : Nat) (f : Pour → Pour) : (updPour s n f).landed = s.landed := rfl
@[simp] theorem updPour_lateFails (s : State) (n : Nat) (f : Pour → Pour) : (updPour s n f).lateFails = s.lateFails := rfl
@[simp] theorem updPour_lateFaults (s : State) (n : Nat) (f : Pour → Pour) : (updPour s n f).lateFaults = s.lateFaults := rfl
@[simp] theorem updPour_hostWait (s : State) (n : Nat) (f : Pour → Pour) : (updPour s n f).hostWait = s.hostWait := rfl
@[simp] theorem updPour_lateLcb (s : State) (n : Nat) (f : Pour → Pour) : (updPour s n f).lateLcb = s.lateLcb := rfl
@[simp] theorem updPour_cupBrews (s : State) (n : Nat) (f : Pour → Pour) : (updPour s n f).cupBrews = s.cupBrews := rfl
@[simp] theorem updPour_treeRoot (s : State) (n : Nat) (f : Pour → Pour) : (updPour s n f).treeRoot = s.treeRoot := rfl
@[simp] theorem updPour_dirty (s : State) (n : Nat) (f : Pour → Pour) : (updPour s n f).dirty = s.dirty := rfl
@[simp] theorem updPour_arrived (s : State) (n : Nat) (f : Pour → Pour) : (updPour s n f).arrived = s.arrived := rfl
@[simp] theorem updPour_halves (s : State) (n : Nat) (f : Pour → Pour) : (updPour s n f).halves = s.halves := rfl
@[simp] theorem updPour_span (s : State) (n : Nat) (f : Pour → Pour) : (updPour s n f).span = s.span := rfl
@[simp] theorem updPour_record (s : State) (n : Nat) (f : Pour → Pour) : (updPour s n f).record = s.record := rfl
@[simp] theorem updPour_sweep (s : State) (n : Nat) (f : Pour → Pour) : (updPour s n f).sweep = s.sweep := rfl
@[simp] theorem updPour_ndev (s : State) (n : Nat) (f : Pour → Pour) : (updPour s n f).ndev = s.ndev := rfl
@[simp] theorem updPour_dev (s : State) (n : Nat) (f : Pour → Pour) : (updPour s n f).dev = s.dev := rfl
@[simp] theorem updPour_args (s : State) (n : Nat) (f : Pour → Pour) : (updPour s n f).args = s.args := rfl
@[simp] theorem updPour_agenda (s : State) (n : Nat) (f : Pour → Pour) : (updPour s n f).agenda = s.agenda := rfl
@[simp] theorem updPour_response (s : State) (n : Nat) (f : Pour → Pour) : (updPour s n f).response = s.response := rfl

@[simp] theorem updBrew_mem (s : State) (n k : Nat) (f : Brew → Brew) : (updBrew s n k f).mem = s.mem := rfl
@[simp] theorem updBrew_macs (s : State) (n k : Nat) (f : Brew → Brew) : (updBrew s n k f).macs = s.macs := rfl
@[simp] theorem updBrew_bad (s : State) (n k : Nat) (f : Brew → Brew) : (updBrew s n k f).bad = s.bad := rfl
@[simp] theorem updBrew_tlb (s : State) (n k : Nat) (f : Brew → Brew) : (updBrew s n k f).tlb = s.tlb := rfl
@[simp] theorem updBrew_cx (s : State) (n k : Nat) (f : Brew → Brew) : (updBrew s n k f).cx = s.cx := rfl
@[simp] theorem updBrew_ctxs (s : State) (n k : Nat) (f : Brew → Brew) : (updBrew s n k f).ctxs = s.ctxs := rfl
@[simp] theorem updBrew_cores (s : State) (n k : Nat) (f : Brew → Brew) : (updBrew s n k f).cores = s.cores := rfl
@[simp] theorem updBrew_net (s : State) (n k : Nat) (f : Brew → Brew) : (updBrew s n k f).net = s.net := rfl
@[simp] theorem updBrew_nextId (s : State) (n k : Nat) (f : Brew → Brew) : (updBrew s n k f).nextId = s.nextId := rfl
@[simp] theorem updBrew_tenants (s : State) (n k : Nat) (f : Brew → Brew) : (updBrew s n k f).tenants = s.tenants := rfl
@[simp] theorem updBrew_pours (s : State) (n k : Nat) (f : Brew → Brew) : (updBrew s n k f).pours = s.pours := rfl
@[simp] theorem updBrew_cuts (s : State) (n k : Nat) (f : Brew → Brew) : (updBrew s n k f).cuts = s.cuts := rfl
@[simp] theorem updBrew_ckpts (s : State) (n k : Nat) (f : Brew → Brew) : (updBrew s n k f).ckpts = s.ckpts := rfl
@[simp] theorem updBrew_saves (s : State) (n k : Nat) (f : Brew → Brew) : (updBrew s n k f).saves = s.saves := rfl
@[simp] theorem updBrew_joins (s : State) (n k : Nat) (f : Brew → Brew) : (updBrew s n k f).joins = s.joins := rfl
@[simp] theorem updBrew_fills (s : State) (n k : Nat) (f : Brew → Brew) : (updBrew s n k f).fills = s.fills := rfl
@[simp] theorem updBrew_layers (s : State) (n k : Nat) (f : Brew → Brew) : (updBrew s n k f).layers = s.layers := rfl
@[simp] theorem updBrew_closes (s : State) (n k : Nat) (f : Brew → Brew) : (updBrew s n k f).closes = s.closes := rfl
@[simp] theorem updBrew_traces (s : State) (n k : Nat) (f : Brew → Brew) : (updBrew s n k f).traces = s.traces := rfl
@[simp] theorem updBrew_lastTenant (s : State) (n k : Nat) (f : Brew → Brew) : (updBrew s n k f).lastTenant = s.lastTenant := rfl
@[simp] theorem updBrew_lastCore (s : State) (n k : Nat) (f : Brew → Brew) : (updBrew s n k f).lastCore = s.lastCore := rfl
@[simp] theorem updBrew_heldCores (s : State) (n k : Nat) (f : Brew → Brew) : (updBrew s n k f).heldCores = s.heldCores := rfl
@[simp] theorem updBrew_breaks (s : State) (n k : Nat) (f : Brew → Brew) : (updBrew s n k f).breaks = s.breaks := rfl
@[simp] theorem updBrew_cycle (s : State) (n k : Nat) (f : Brew → Brew) : (updBrew s n k f).cycle = s.cycle := rfl
@[simp] theorem updBrew_ticks (s : State) (n k : Nat) (f : Brew → Brew) : (updBrew s n k f).ticks = s.ticks := rfl
@[simp] theorem updBrew_phase (s : State) (n k : Nat) (f : Brew → Brew) : (updBrew s n k f).phase = s.phase := rfl
@[simp] theorem updBrew_trained (s : State) (n k : Nat) (f : Brew → Brew) : (updBrew s n k f).trained = s.trained := rfl
@[simp] theorem updBrew_budgets (s : State) (n k : Nat) (f : Brew → Brew) : (updBrew s n k f).budgets = s.budgets := rfl
@[simp] theorem updBrew_refresh (s : State) (n k : Nat) (f : Brew → Brew) : (updBrew s n k f).refresh = s.refresh := rfl
@[simp] theorem updBrew_frameTable (s : State) (n k : Nat) (f : Brew → Brew) : (updBrew s n k f).frameTable = s.frameTable := rfl
@[simp] theorem updBrew_coldQueue (s : State) (n k : Nat) (f : Brew → Brew) : (updBrew s n k f).coldQueue = s.coldQueue := rfl
@[simp] theorem updBrew_watermark (s : State) (n k : Nat) (f : Brew → Brew) : (updBrew s n k f).watermark = s.watermark := rfl
@[simp] theorem updBrew_resident (s : State) (n k : Nat) (f : Brew → Brew) : (updBrew s n k f).resident = s.resident := rfl
@[simp] theorem updBrew_landed (s : State) (n k : Nat) (f : Brew → Brew) : (updBrew s n k f).landed = s.landed := rfl
@[simp] theorem updBrew_lateFails (s : State) (n k : Nat) (f : Brew → Brew) : (updBrew s n k f).lateFails = s.lateFails := rfl
@[simp] theorem updBrew_lateFaults (s : State) (n k : Nat) (f : Brew → Brew) : (updBrew s n k f).lateFaults = s.lateFaults := rfl
@[simp] theorem updBrew_hostWait (s : State) (n k : Nat) (f : Brew → Brew) : (updBrew s n k f).hostWait = s.hostWait := rfl
@[simp] theorem updBrew_lateLcb (s : State) (n k : Nat) (f : Brew → Brew) : (updBrew s n k f).lateLcb = s.lateLcb := rfl
@[simp] theorem updBrew_cupBrews (s : State) (n k : Nat) (f : Brew → Brew) : (updBrew s n k f).cupBrews = s.cupBrews := rfl
@[simp] theorem updBrew_treeRoot (s : State) (n k : Nat) (f : Brew → Brew) : (updBrew s n k f).treeRoot = s.treeRoot := rfl
@[simp] theorem updBrew_dirty (s : State) (n k : Nat) (f : Brew → Brew) : (updBrew s n k f).dirty = s.dirty := rfl
@[simp] theorem updBrew_arrived (s : State) (n k : Nat) (f : Brew → Brew) : (updBrew s n k f).arrived = s.arrived := rfl
@[simp] theorem updBrew_halves (s : State) (n k : Nat) (f : Brew → Brew) : (updBrew s n k f).halves = s.halves := rfl
@[simp] theorem updBrew_span (s : State) (n k : Nat) (f : Brew → Brew) : (updBrew s n k f).span = s.span := rfl
@[simp] theorem updBrew_record (s : State) (n k : Nat) (f : Brew → Brew) : (updBrew s n k f).record = s.record := rfl
@[simp] theorem updBrew_sweep (s : State) (n k : Nat) (f : Brew → Brew) : (updBrew s n k f).sweep = s.sweep := rfl
@[simp] theorem updBrew_ndev (s : State) (n k : Nat) (f : Brew → Brew) : (updBrew s n k f).ndev = s.ndev := rfl
@[simp] theorem updBrew_dev (s : State) (n k : Nat) (f : Brew → Brew) : (updBrew s n k f).dev = s.dev := rfl
@[simp] theorem updBrew_args (s : State) (n k : Nat) (f : Brew → Brew) : (updBrew s n k f).args = s.args := rfl
@[simp] theorem updBrew_agenda (s : State) (n k : Nat) (f : Brew → Brew) : (updBrew s n k f).agenda = s.agenda := rfl
@[simp] theorem updBrew_response (s : State) (n k : Nat) (f : Brew → Brew) : (updBrew s n k f).response = s.response := rfl

@[simp] theorem post_mem (s : State) (a b : Nat) (x : Body) : (post s a b x).mem = s.mem := rfl
@[simp] theorem post_macs (s : State) (a b : Nat) (x : Body) : (post s a b x).macs = s.macs := rfl
@[simp] theorem post_bad (s : State) (a b : Nat) (x : Body) : (post s a b x).bad = s.bad := rfl
@[simp] theorem post_tlb (s : State) (a b : Nat) (x : Body) : (post s a b x).tlb = s.tlb := rfl
@[simp] theorem post_cx (s : State) (a b : Nat) (x : Body) : (post s a b x).cx = s.cx := rfl
@[simp] theorem post_ctxs (s : State) (a b : Nat) (x : Body) : (post s a b x).ctxs = s.ctxs := rfl
@[simp] theorem post_cores (s : State) (a b : Nat) (x : Body) : (post s a b x).cores = s.cores := rfl
@[simp] theorem post_tenants (s : State) (a b : Nat) (x : Body) : (post s a b x).tenants = s.tenants := rfl
@[simp] theorem post_brews (s : State) (a b : Nat) (x : Body) : (post s a b x).brews = s.brews := rfl
@[simp] theorem post_pours (s : State) (a b : Nat) (x : Body) : (post s a b x).pours = s.pours := rfl
@[simp] theorem post_cuts (s : State) (a b : Nat) (x : Body) : (post s a b x).cuts = s.cuts := rfl
@[simp] theorem post_ckpts (s : State) (a b : Nat) (x : Body) : (post s a b x).ckpts = s.ckpts := rfl
@[simp] theorem post_saves (s : State) (a b : Nat) (x : Body) : (post s a b x).saves = s.saves := rfl
@[simp] theorem post_joins (s : State) (a b : Nat) (x : Body) : (post s a b x).joins = s.joins := rfl
@[simp] theorem post_fills (s : State) (a b : Nat) (x : Body) : (post s a b x).fills = s.fills := rfl
@[simp] theorem post_layers (s : State) (a b : Nat) (x : Body) : (post s a b x).layers = s.layers := rfl
@[simp] theorem post_closes (s : State) (a b : Nat) (x : Body) : (post s a b x).closes = s.closes := rfl
@[simp] theorem post_traces (s : State) (a b : Nat) (x : Body) : (post s a b x).traces = s.traces := rfl
@[simp] theorem post_lastTenant (s : State) (a b : Nat) (x : Body) : (post s a b x).lastTenant = s.lastTenant := rfl
@[simp] theorem post_lastCore (s : State) (a b : Nat) (x : Body) : (post s a b x).lastCore = s.lastCore := rfl
@[simp] theorem post_heldCores (s : State) (a b : Nat) (x : Body) : (post s a b x).heldCores = s.heldCores := rfl
@[simp] theorem post_breaks (s : State) (a b : Nat) (x : Body) : (post s a b x).breaks = s.breaks := rfl
@[simp] theorem post_cycle (s : State) (a b : Nat) (x : Body) : (post s a b x).cycle = s.cycle := rfl
@[simp] theorem post_ticks (s : State) (a b : Nat) (x : Body) : (post s a b x).ticks = s.ticks := rfl
@[simp] theorem post_phase (s : State) (a b : Nat) (x : Body) : (post s a b x).phase = s.phase := rfl
@[simp] theorem post_trained (s : State) (a b : Nat) (x : Body) : (post s a b x).trained = s.trained := rfl
@[simp] theorem post_budgets (s : State) (a b : Nat) (x : Body) : (post s a b x).budgets = s.budgets := rfl
@[simp] theorem post_refresh (s : State) (a b : Nat) (x : Body) : (post s a b x).refresh = s.refresh := rfl
@[simp] theorem post_frameTable (s : State) (a b : Nat) (x : Body) : (post s a b x).frameTable = s.frameTable := rfl
@[simp] theorem post_coldQueue (s : State) (a b : Nat) (x : Body) : (post s a b x).coldQueue = s.coldQueue := rfl
@[simp] theorem post_watermark (s : State) (a b : Nat) (x : Body) : (post s a b x).watermark = s.watermark := rfl
@[simp] theorem post_resident (s : State) (a b : Nat) (x : Body) : (post s a b x).resident = s.resident := rfl
@[simp] theorem post_landed (s : State) (a b : Nat) (x : Body) : (post s a b x).landed = s.landed := rfl
@[simp] theorem post_lateFails (s : State) (a b : Nat) (x : Body) : (post s a b x).lateFails = s.lateFails := rfl
@[simp] theorem post_lateFaults (s : State) (a b : Nat) (x : Body) : (post s a b x).lateFaults = s.lateFaults := rfl
@[simp] theorem post_hostWait (s : State) (a b : Nat) (x : Body) : (post s a b x).hostWait = s.hostWait := rfl
@[simp] theorem post_lateLcb (s : State) (a b : Nat) (x : Body) : (post s a b x).lateLcb = s.lateLcb := rfl
@[simp] theorem post_cupBrews (s : State) (a b : Nat) (x : Body) : (post s a b x).cupBrews = s.cupBrews := rfl
@[simp] theorem post_treeRoot (s : State) (a b : Nat) (x : Body) : (post s a b x).treeRoot = s.treeRoot := rfl
@[simp] theorem post_dirty (s : State) (a b : Nat) (x : Body) : (post s a b x).dirty = s.dirty := rfl
@[simp] theorem post_arrived (s : State) (a b : Nat) (x : Body) : (post s a b x).arrived = s.arrived := rfl
@[simp] theorem post_halves (s : State) (a b : Nat) (x : Body) : (post s a b x).halves = s.halves := rfl
@[simp] theorem post_span (s : State) (a b : Nat) (x : Body) : (post s a b x).span = s.span := rfl
@[simp] theorem post_record (s : State) (a b : Nat) (x : Body) : (post s a b x).record = s.record := rfl
@[simp] theorem post_sweep (s : State) (a b : Nat) (x : Body) : (post s a b x).sweep = s.sweep := rfl
@[simp] theorem post_ndev (s : State) (a b : Nat) (x : Body) : (post s a b x).ndev = s.ndev := rfl
@[simp] theorem post_dev (s : State) (a b : Nat) (x : Body) : (post s a b x).dev = s.dev := rfl
@[simp] theorem post_args (s : State) (a b : Nat) (x : Body) : (post s a b x).args = s.args := rfl
@[simp] theorem post_agenda (s : State) (a b : Nat) (x : Body) : (post s a b x).agenda = s.agenda := rfl
@[simp] theorem post_response (s : State) (a b : Nat) (x : Body) : (post s a b x).response = s.response := rfl

@[simp] theorem dropPacket_mem (s : State) (n : Nat) : (dropPacket s n).mem = s.mem := rfl
@[simp] theorem dropPacket_macs (s : State) (n : Nat) : (dropPacket s n).macs = s.macs := rfl
@[simp] theorem dropPacket_bad (s : State) (n : Nat) : (dropPacket s n).bad = s.bad := rfl
@[simp] theorem dropPacket_tlb (s : State) (n : Nat) : (dropPacket s n).tlb = s.tlb := rfl
@[simp] theorem dropPacket_cx (s : State) (n : Nat) : (dropPacket s n).cx = s.cx := rfl
@[simp] theorem dropPacket_ctxs (s : State) (n : Nat) : (dropPacket s n).ctxs = s.ctxs := rfl
@[simp] theorem dropPacket_cores (s : State) (n : Nat) : (dropPacket s n).cores = s.cores := rfl
@[simp] theorem dropPacket_nextId (s : State) (n : Nat) : (dropPacket s n).nextId = s.nextId := rfl
@[simp] theorem dropPacket_tenants (s : State) (n : Nat) : (dropPacket s n).tenants = s.tenants := rfl
@[simp] theorem dropPacket_brews (s : State) (n : Nat) : (dropPacket s n).brews = s.brews := rfl
@[simp] theorem dropPacket_pours (s : State) (n : Nat) : (dropPacket s n).pours = s.pours := rfl
@[simp] theorem dropPacket_cuts (s : State) (n : Nat) : (dropPacket s n).cuts = s.cuts := rfl
@[simp] theorem dropPacket_ckpts (s : State) (n : Nat) : (dropPacket s n).ckpts = s.ckpts := rfl
@[simp] theorem dropPacket_saves (s : State) (n : Nat) : (dropPacket s n).saves = s.saves := rfl
@[simp] theorem dropPacket_joins (s : State) (n : Nat) : (dropPacket s n).joins = s.joins := rfl
@[simp] theorem dropPacket_fills (s : State) (n : Nat) : (dropPacket s n).fills = s.fills := rfl
@[simp] theorem dropPacket_layers (s : State) (n : Nat) : (dropPacket s n).layers = s.layers := rfl
@[simp] theorem dropPacket_closes (s : State) (n : Nat) : (dropPacket s n).closes = s.closes := rfl
@[simp] theorem dropPacket_traces (s : State) (n : Nat) : (dropPacket s n).traces = s.traces := rfl
@[simp] theorem dropPacket_lastTenant (s : State) (n : Nat) : (dropPacket s n).lastTenant = s.lastTenant := rfl
@[simp] theorem dropPacket_lastCore (s : State) (n : Nat) : (dropPacket s n).lastCore = s.lastCore := rfl
@[simp] theorem dropPacket_heldCores (s : State) (n : Nat) : (dropPacket s n).heldCores = s.heldCores := rfl
@[simp] theorem dropPacket_breaks (s : State) (n : Nat) : (dropPacket s n).breaks = s.breaks := rfl
@[simp] theorem dropPacket_cycle (s : State) (n : Nat) : (dropPacket s n).cycle = s.cycle := rfl
@[simp] theorem dropPacket_ticks (s : State) (n : Nat) : (dropPacket s n).ticks = s.ticks := rfl
@[simp] theorem dropPacket_phase (s : State) (n : Nat) : (dropPacket s n).phase = s.phase := rfl
@[simp] theorem dropPacket_trained (s : State) (n : Nat) : (dropPacket s n).trained = s.trained := rfl
@[simp] theorem dropPacket_budgets (s : State) (n : Nat) : (dropPacket s n).budgets = s.budgets := rfl
@[simp] theorem dropPacket_refresh (s : State) (n : Nat) : (dropPacket s n).refresh = s.refresh := rfl
@[simp] theorem dropPacket_frameTable (s : State) (n : Nat) : (dropPacket s n).frameTable = s.frameTable := rfl
@[simp] theorem dropPacket_coldQueue (s : State) (n : Nat) : (dropPacket s n).coldQueue = s.coldQueue := rfl
@[simp] theorem dropPacket_watermark (s : State) (n : Nat) : (dropPacket s n).watermark = s.watermark := rfl
@[simp] theorem dropPacket_resident (s : State) (n : Nat) : (dropPacket s n).resident = s.resident := rfl
@[simp] theorem dropPacket_landed (s : State) (n : Nat) : (dropPacket s n).landed = s.landed := rfl
@[simp] theorem dropPacket_lateFails (s : State) (n : Nat) : (dropPacket s n).lateFails = s.lateFails := rfl
@[simp] theorem dropPacket_lateFaults (s : State) (n : Nat) : (dropPacket s n).lateFaults = s.lateFaults := rfl
@[simp] theorem dropPacket_hostWait (s : State) (n : Nat) : (dropPacket s n).hostWait = s.hostWait := rfl
@[simp] theorem dropPacket_lateLcb (s : State) (n : Nat) : (dropPacket s n).lateLcb = s.lateLcb := rfl
@[simp] theorem dropPacket_cupBrews (s : State) (n : Nat) : (dropPacket s n).cupBrews = s.cupBrews := rfl
@[simp] theorem dropPacket_treeRoot (s : State) (n : Nat) : (dropPacket s n).treeRoot = s.treeRoot := rfl
@[simp] theorem dropPacket_dirty (s : State) (n : Nat) : (dropPacket s n).dirty = s.dirty := rfl
@[simp] theorem dropPacket_halves (s : State) (n : Nat) : (dropPacket s n).halves = s.halves := rfl
@[simp] theorem dropPacket_span (s : State) (n : Nat) : (dropPacket s n).span = s.span := rfl
@[simp] theorem dropPacket_record (s : State) (n : Nat) : (dropPacket s n).record = s.record := rfl
@[simp] theorem dropPacket_sweep (s : State) (n : Nat) : (dropPacket s n).sweep = s.sweep := rfl
@[simp] theorem dropPacket_ndev (s : State) (n : Nat) : (dropPacket s n).ndev = s.ndev := rfl
@[simp] theorem dropPacket_dev (s : State) (n : Nat) : (dropPacket s n).dev = s.dev := rfl
@[simp] theorem dropPacket_args (s : State) (n : Nat) : (dropPacket s n).args = s.args := rfl
@[simp] theorem dropPacket_agenda (s : State) (n : Nat) : (dropPacket s n).agenda = s.agenda := rfl
@[simp] theorem dropPacket_response (s : State) (n : Nat) : (dropPacket s n).response = s.response := rfl

@[simp] theorem updCx_cx (s : State) (f : Ctx → Ctx) : (updCx s f).cx = f s.cx := rfl
@[simp] theorem completesAt_cx (s : State) (pc : Addr) : (completesAt pc s).cx = s.cx.completed pc := rfl

@[simp] theorem ctx_ws_key (c : Ctx) (i : BitVec 5) (v : Word) : (c.ws i v).key = c.key := by unfold Ctx.ws; split <;> rfl
@[simp] theorem ctx_ws_pour (c : Ctx) (i : BitVec 5) (v : Word) : (c.ws i v).pour = c.pour := by unfold Ctx.ws; split <;> rfl
@[simp] theorem ctx_ws_st (c : Ctx) (i : BitVec 5) (v : Word) : (c.ws i v).st = c.st := by unfold Ctx.ws; split <;> rfl
@[simp] theorem ctx_ws_place (c : Ctx) (i : BitVec 5) (v : Word) : (c.ws i v).place = c.place := by unfold Ctx.ws; split <;> rfl
@[simp] theorem ctx_ws_held (c : Ctx) (i : BitVec 5) (v : Word) : (c.ws i v).held = c.held := by unfold Ctx.ws; split <;> rfl
@[simp] theorem ctx_ws_pc (c : Ctx) (i : BitVec 5) (v : Word) : (c.ws i v).pc = c.pc := by unfold Ctx.ws; split <;> rfl
@[simp] theorem ctx_ws_v (c : Ctx) (i : BitVec 5) (v : Word) : (c.ws i v).v = c.v := by unfold Ctx.ws; split <;> rfl
@[simp] theorem ctx_ws_homeV (c : Ctx) (i : BitVec 5) (v : Word) : (c.ws i v).homeV = c.homeV := by unfold Ctx.ws; split <;> rfl
@[simp] theorem ctx_ws_p (c : Ctx) (i : BitVec 5) (v : Word) : (c.ws i v).p = c.p := by unfold Ctx.ws; split <;> rfl
@[simp] theorem ctx_ws_g (c : Ctx) (i : BitVec 5) (v : Word) : (c.ws i v).g = c.g := by unfold Ctx.ws; split <;> rfl
@[simp] theorem ctx_ws_rmode (c : Ctx) (i : BitVec 5) (v : Word) : (c.ws i v).rmode = c.rmode := by unfold Ctx.ws; split <;> rfl
@[simp] theorem ctx_ws_vlive (c : Ctx) (i : BitVec 5) (v : Word) : (c.ws i v).vlive = c.vlive := by unfold Ctx.ws; split <;> rfl
@[simp] theorem ctx_ws_tvec (c : Ctx) (i : BitVec 5) (v : Word) : (c.ws i v).tvec = c.tvec := by unfold Ctx.ws; split <;> rfl
@[simp] theorem ctx_ws_upvec (c : Ctx) (i : BitVec 5) (v : Word) : (c.ws i v).upvec = c.upvec := by unfold Ctx.ws; split <;> rfl
@[simp] theorem ctx_ws_tcause (c : Ctx) (i : BitVec 5) (v : Word) : (c.ws i v).tcause = c.tcause := by unfold Ctx.ws; split <;> rfl
@[simp] theorem ctx_ws_tval (c : Ctx) (i : BitVec 5) (v : Word) : (c.ws i v).tval = c.tval := by unfold Ctx.ws; split <;> rfl
@[simp] theorem ctx_ws_trpc (c : Ctx) (i : BitVec 5) (v : Word) : (c.ws i v).trpc = c.trpc := by unfold Ctx.ws; split <;> rfl
@[simp] theorem ctx_ws_dbg (c : Ctx) (i : BitVec 5) (v : Word) : (c.ws i v).dbg = c.dbg := by unfold Ctx.ws; split <;> rfl
@[simp] theorem ctx_ws_pourCsr (c : Ctx) (i : BitVec 5) (v : Word) : (c.ws i v).pourCsr = c.pourCsr := by unfold Ctx.ws; split <;> rfl
@[simp] theorem ctx_ws_brewCsr (c : Ctx) (i : BitVec 5) (v : Word) : (c.ws i v).brewCsr = c.brewCsr := by unfold Ctx.ws; split <;> rfl
@[simp] theorem ctx_ws_tenant (c : Ctx) (i : BitVec 5) (v : Word) : (c.ws i v).tenant = c.tenant := by unfold Ctx.ws; split <;> rfl
@[simp] theorem ctx_ws_mstat (c : Ctx) (i : BitVec 5) (v : Word) : (c.ws i v).mstat = c.mstat := by unfold Ctx.ws; split <;> rfl
@[simp] theorem ctx_ws_bpa (c : Ctx) (i : BitVec 5) (v : Word) : (c.ws i v).bpa = c.bpa := by unfold Ctx.ws; split <;> rfl
@[simp] theorem ctx_ws_instret (c : Ctx) (i : BitVec 5) (v : Word) : (c.ws i v).instret = c.instret := by unfold Ctx.ws; split <;> rfl
@[simp] theorem ctx_ws_frec (c : Ctx) (i : BitVec 5) (v : Word) : (c.ws i v).frec = c.frec := by unfold Ctx.ws; split <;> rfl
@[simp] theorem ctx_ws_charged (c : Ctx) (i : BitVec 5) (v : Word) : (c.ws i v).charged = c.charged := by unfold Ctx.ws; split <;> rfl
@[simp] theorem ctx_ws_deferred (c : Ctx) (i : BitVec 5) (v : Word) : (c.ws i v).deferred = c.deferred := by unfold Ctx.ws; split <;> rfl
@[simp] theorem ctx_ws_upcalls (c : Ctx) (i : BitVec 5) (v : Word) : (c.ws i v).upcalls = c.upcalls := by unfold Ctx.ws; split <;> rfl
@[simp] theorem ctx_ws_binds (c : Ctx) (i : BitVec 5) (v : Word) : (c.ws i v).binds = c.binds := by unfold Ctx.ws; split <;> rfl
@[simp] theorem ctx_ws_row (c : Ctx) (i : BitVec 5) (v : Word) : (c.ws i v).row = c.row := by unfold Ctx.ws; split <;> rfl
@[simp] theorem ctx_ws_gen (c : Ctx) (i : BitVec 5) (v : Word) : (c.ws i v).gen = c.gen := by unfold Ctx.ws; split <;> rfl
@[simp] theorem ctx_ws_barAt (c : Ctx) (i : BitVec 5) (v : Word) : (c.ws i v).barAt = c.barAt := by unfold Ctx.ws; split <;> rfl
@[simp] theorem ctx_ws_mopAt (c : Ctx) (i : BitVec 5) (v : Word) : (c.ws i v).mopAt = c.mopAt := by unfold Ctx.ws; split <;> rfl
@[simp] theorem ctx_ws_passed (c : Ctx) (i : BitVec 5) (v : Word) : (c.ws i v).passed = c.passed := by unfold Ctx.ws; split <;> rfl
@[simp] theorem ctx_ws_stepping (c : Ctx) (i : BitVec 5) (v : Word) : (c.ws i v).stepping = c.stepping := by unfold Ctx.ws; split <;> rfl
@[simp] theorem ctx_ws_again (c : Ctx) (i : BitVec 5) (v : Word) : (c.ws i v).again = c.again := by unfold Ctx.ws; split <;> rfl
@[simp] theorem ctx_ws_met (c : Ctx) (i : BitVec 5) (v : Word) : (c.ws i v).met = c.met := by unfold Ctx.ws; split <;> rfl
@[simp] theorem ctx_ws_writes (c : Ctx) (i : BitVec 5) (v : Word) : (c.ws i v).writes = c.writes := by unfold Ctx.ws; split <;> rfl
@[simp] theorem ctx_ws_icode (c : Ctx) (i : BitVec 5) (v : Word) : (c.ws i v).icode = c.icode := by unfold Ctx.ws; split <;> rfl
@[simp] theorem ctx_ws_stalled (c : Ctx) (i : BitVec 5) (v : Word) : (c.ws i v).stalled = c.stalled := by unfold Ctx.ws; split <;> rfl
@[simp] theorem ctx_ws_stopped (c : Ctx) (i : BitVec 5) (v : Word) : (c.ws i v).stopped = c.stopped := by unfold Ctx.ws; split <;> rfl
@[simp] theorem ctx_ws_ir (c : Ctx) (i : BitVec 5) (v : Word) : (c.ws i v).ir = c.ir := by unfold Ctx.ws; split <;> rfl

@[simp] theorem ctx_wp_key (c : Ctx) (i : BitVec 3) (v : Word) : (c.wp i v).key = c.key := by unfold Ctx.wp; split <;> rfl
@[simp] theorem ctx_wp_pour (c : Ctx) (i : BitVec 3) (v : Word) : (c.wp i v).pour = c.pour := by unfold Ctx.wp; split <;> rfl
@[simp] theorem ctx_wp_st (c : Ctx) (i : BitVec 3) (v : Word) : (c.wp i v).st = c.st := by unfold Ctx.wp; split <;> rfl
@[simp] theorem ctx_wp_place (c : Ctx) (i : BitVec 3) (v : Word) : (c.wp i v).place = c.place := by unfold Ctx.wp; split <;> rfl
@[simp] theorem ctx_wp_held (c : Ctx) (i : BitVec 3) (v : Word) : (c.wp i v).held = c.held := by unfold Ctx.wp; split <;> rfl
@[simp] theorem ctx_wp_pc (c : Ctx) (i : BitVec 3) (v : Word) : (c.wp i v).pc = c.pc := by unfold Ctx.wp; split <;> rfl
@[simp] theorem ctx_wp_s (c : Ctx) (i : BitVec 3) (v : Word) : (c.wp i v).s = c.s := by unfold Ctx.wp; split <;> rfl
@[simp] theorem ctx_wp_v (c : Ctx) (i : BitVec 3) (v : Word) : (c.wp i v).v = c.v := by unfold Ctx.wp; split <;> rfl
@[simp] theorem ctx_wp_homeV (c : Ctx) (i : BitVec 3) (v : Word) : (c.wp i v).homeV = c.homeV := by unfold Ctx.wp; split <;> rfl
@[simp] theorem ctx_wp_g (c : Ctx) (i : BitVec 3) (v : Word) : (c.wp i v).g = c.g := by unfold Ctx.wp; split <;> rfl
@[simp] theorem ctx_wp_rmode (c : Ctx) (i : BitVec 3) (v : Word) : (c.wp i v).rmode = c.rmode := by unfold Ctx.wp; split <;> rfl
@[simp] theorem ctx_wp_vlive (c : Ctx) (i : BitVec 3) (v : Word) : (c.wp i v).vlive = c.vlive := by unfold Ctx.wp; split <;> rfl
@[simp] theorem ctx_wp_tvec (c : Ctx) (i : BitVec 3) (v : Word) : (c.wp i v).tvec = c.tvec := by unfold Ctx.wp; split <;> rfl
@[simp] theorem ctx_wp_upvec (c : Ctx) (i : BitVec 3) (v : Word) : (c.wp i v).upvec = c.upvec := by unfold Ctx.wp; split <;> rfl
@[simp] theorem ctx_wp_tcause (c : Ctx) (i : BitVec 3) (v : Word) : (c.wp i v).tcause = c.tcause := by unfold Ctx.wp; split <;> rfl
@[simp] theorem ctx_wp_tval (c : Ctx) (i : BitVec 3) (v : Word) : (c.wp i v).tval = c.tval := by unfold Ctx.wp; split <;> rfl
@[simp] theorem ctx_wp_trpc (c : Ctx) (i : BitVec 3) (v : Word) : (c.wp i v).trpc = c.trpc := by unfold Ctx.wp; split <;> rfl
@[simp] theorem ctx_wp_dbg (c : Ctx) (i : BitVec 3) (v : Word) : (c.wp i v).dbg = c.dbg := by unfold Ctx.wp; split <;> rfl
@[simp] theorem ctx_wp_pourCsr (c : Ctx) (i : BitVec 3) (v : Word) : (c.wp i v).pourCsr = c.pourCsr := by unfold Ctx.wp; split <;> rfl
@[simp] theorem ctx_wp_brewCsr (c : Ctx) (i : BitVec 3) (v : Word) : (c.wp i v).brewCsr = c.brewCsr := by unfold Ctx.wp; split <;> rfl
@[simp] theorem ctx_wp_tenant (c : Ctx) (i : BitVec 3) (v : Word) : (c.wp i v).tenant = c.tenant := by unfold Ctx.wp; split <;> rfl
@[simp] theorem ctx_wp_mstat (c : Ctx) (i : BitVec 3) (v : Word) : (c.wp i v).mstat = c.mstat := by unfold Ctx.wp; split <;> rfl
@[simp] theorem ctx_wp_bpa (c : Ctx) (i : BitVec 3) (v : Word) : (c.wp i v).bpa = c.bpa := by unfold Ctx.wp; split <;> rfl
@[simp] theorem ctx_wp_instret (c : Ctx) (i : BitVec 3) (v : Word) : (c.wp i v).instret = c.instret := by unfold Ctx.wp; split <;> rfl
@[simp] theorem ctx_wp_frec (c : Ctx) (i : BitVec 3) (v : Word) : (c.wp i v).frec = c.frec := by unfold Ctx.wp; split <;> rfl
@[simp] theorem ctx_wp_charged (c : Ctx) (i : BitVec 3) (v : Word) : (c.wp i v).charged = c.charged := by unfold Ctx.wp; split <;> rfl
@[simp] theorem ctx_wp_deferred (c : Ctx) (i : BitVec 3) (v : Word) : (c.wp i v).deferred = c.deferred := by unfold Ctx.wp; split <;> rfl
@[simp] theorem ctx_wp_upcalls (c : Ctx) (i : BitVec 3) (v : Word) : (c.wp i v).upcalls = c.upcalls := by unfold Ctx.wp; split <;> rfl
@[simp] theorem ctx_wp_binds (c : Ctx) (i : BitVec 3) (v : Word) : (c.wp i v).binds = c.binds := by unfold Ctx.wp; split <;> rfl
@[simp] theorem ctx_wp_row (c : Ctx) (i : BitVec 3) (v : Word) : (c.wp i v).row = c.row := by unfold Ctx.wp; split <;> rfl
@[simp] theorem ctx_wp_gen (c : Ctx) (i : BitVec 3) (v : Word) : (c.wp i v).gen = c.gen := by unfold Ctx.wp; split <;> rfl
@[simp] theorem ctx_wp_barAt (c : Ctx) (i : BitVec 3) (v : Word) : (c.wp i v).barAt = c.barAt := by unfold Ctx.wp; split <;> rfl
@[simp] theorem ctx_wp_mopAt (c : Ctx) (i : BitVec 3) (v : Word) : (c.wp i v).mopAt = c.mopAt := by unfold Ctx.wp; split <;> rfl
@[simp] theorem ctx_wp_passed (c : Ctx) (i : BitVec 3) (v : Word) : (c.wp i v).passed = c.passed := by unfold Ctx.wp; split <;> rfl
@[simp] theorem ctx_wp_stepping (c : Ctx) (i : BitVec 3) (v : Word) : (c.wp i v).stepping = c.stepping := by unfold Ctx.wp; split <;> rfl
@[simp] theorem ctx_wp_again (c : Ctx) (i : BitVec 3) (v : Word) : (c.wp i v).again = c.again := by unfold Ctx.wp; split <;> rfl
@[simp] theorem ctx_wp_met (c : Ctx) (i : BitVec 3) (v : Word) : (c.wp i v).met = c.met := by unfold Ctx.wp; split <;> rfl
@[simp] theorem ctx_wp_writes (c : Ctx) (i : BitVec 3) (v : Word) : (c.wp i v).writes = c.writes := by unfold Ctx.wp; split <;> rfl
@[simp] theorem ctx_wp_icode (c : Ctx) (i : BitVec 3) (v : Word) : (c.wp i v).icode = c.icode := by unfold Ctx.wp; split <;> rfl
@[simp] theorem ctx_wp_stalled (c : Ctx) (i : BitVec 3) (v : Word) : (c.wp i v).stalled = c.stalled := by unfold Ctx.wp; split <;> rfl
@[simp] theorem ctx_wp_stopped (c : Ctx) (i : BitVec 3) (v : Word) : (c.wp i v).stopped = c.stopped := by unfold Ctx.wp; split <;> rfl
@[simp] theorem ctx_wp_ir (c : Ctx) (i : BitVec 3) (v : Word) : (c.wp i v).ir = c.ir := by unfold Ctx.wp; split <;> rfl

@[simp] theorem ctx_wv_key (c : Ctx) (i : BitVec 4) (v : VReg) : (c.wv i v).key = c.key := rfl
@[simp] theorem ctx_wv_pour (c : Ctx) (i : BitVec 4) (v : VReg) : (c.wv i v).pour = c.pour := rfl
@[simp] theorem ctx_wv_st (c : Ctx) (i : BitVec 4) (v : VReg) : (c.wv i v).st = c.st := rfl
@[simp] theorem ctx_wv_place (c : Ctx) (i : BitVec 4) (v : VReg) : (c.wv i v).place = c.place := rfl
@[simp] theorem ctx_wv_held (c : Ctx) (i : BitVec 4) (v : VReg) : (c.wv i v).held = c.held := rfl
@[simp] theorem ctx_wv_pc (c : Ctx) (i : BitVec 4) (v : VReg) : (c.wv i v).pc = c.pc := rfl
@[simp] theorem ctx_wv_s (c : Ctx) (i : BitVec 4) (v : VReg) : (c.wv i v).s = c.s := rfl
@[simp] theorem ctx_wv_homeV (c : Ctx) (i : BitVec 4) (v : VReg) : (c.wv i v).homeV = c.homeV := rfl
@[simp] theorem ctx_wv_p (c : Ctx) (i : BitVec 4) (v : VReg) : (c.wv i v).p = c.p := rfl
@[simp] theorem ctx_wv_g (c : Ctx) (i : BitVec 4) (v : VReg) : (c.wv i v).g = c.g := rfl
@[simp] theorem ctx_wv_rmode (c : Ctx) (i : BitVec 4) (v : VReg) : (c.wv i v).rmode = c.rmode := rfl
@[simp] theorem ctx_wv_tvec (c : Ctx) (i : BitVec 4) (v : VReg) : (c.wv i v).tvec = c.tvec := rfl
@[simp] theorem ctx_wv_upvec (c : Ctx) (i : BitVec 4) (v : VReg) : (c.wv i v).upvec = c.upvec := rfl
@[simp] theorem ctx_wv_tcause (c : Ctx) (i : BitVec 4) (v : VReg) : (c.wv i v).tcause = c.tcause := rfl
@[simp] theorem ctx_wv_tval (c : Ctx) (i : BitVec 4) (v : VReg) : (c.wv i v).tval = c.tval := rfl
@[simp] theorem ctx_wv_trpc (c : Ctx) (i : BitVec 4) (v : VReg) : (c.wv i v).trpc = c.trpc := rfl
@[simp] theorem ctx_wv_dbg (c : Ctx) (i : BitVec 4) (v : VReg) : (c.wv i v).dbg = c.dbg := rfl
@[simp] theorem ctx_wv_pourCsr (c : Ctx) (i : BitVec 4) (v : VReg) : (c.wv i v).pourCsr = c.pourCsr := rfl
@[simp] theorem ctx_wv_brewCsr (c : Ctx) (i : BitVec 4) (v : VReg) : (c.wv i v).brewCsr = c.brewCsr := rfl
@[simp] theorem ctx_wv_tenant (c : Ctx) (i : BitVec 4) (v : VReg) : (c.wv i v).tenant = c.tenant := rfl
@[simp] theorem ctx_wv_mstat (c : Ctx) (i : BitVec 4) (v : VReg) : (c.wv i v).mstat = c.mstat := rfl
@[simp] theorem ctx_wv_bpa (c : Ctx) (i : BitVec 4) (v : VReg) : (c.wv i v).bpa = c.bpa := rfl
@[simp] theorem ctx_wv_instret (c : Ctx) (i : BitVec 4) (v : VReg) : (c.wv i v).instret = c.instret := rfl
@[simp] theorem ctx_wv_frec (c : Ctx) (i : BitVec 4) (v : VReg) : (c.wv i v).frec = c.frec := rfl
@[simp] theorem ctx_wv_charged (c : Ctx) (i : BitVec 4) (v : VReg) : (c.wv i v).charged = c.charged := rfl
@[simp] theorem ctx_wv_deferred (c : Ctx) (i : BitVec 4) (v : VReg) : (c.wv i v).deferred = c.deferred := rfl
@[simp] theorem ctx_wv_upcalls (c : Ctx) (i : BitVec 4) (v : VReg) : (c.wv i v).upcalls = c.upcalls := rfl
@[simp] theorem ctx_wv_binds (c : Ctx) (i : BitVec 4) (v : VReg) : (c.wv i v).binds = c.binds := rfl
@[simp] theorem ctx_wv_row (c : Ctx) (i : BitVec 4) (v : VReg) : (c.wv i v).row = c.row := rfl
@[simp] theorem ctx_wv_gen (c : Ctx) (i : BitVec 4) (v : VReg) : (c.wv i v).gen = c.gen := rfl
@[simp] theorem ctx_wv_barAt (c : Ctx) (i : BitVec 4) (v : VReg) : (c.wv i v).barAt = c.barAt := rfl
@[simp] theorem ctx_wv_mopAt (c : Ctx) (i : BitVec 4) (v : VReg) : (c.wv i v).mopAt = c.mopAt := rfl
@[simp] theorem ctx_wv_passed (c : Ctx) (i : BitVec 4) (v : VReg) : (c.wv i v).passed = c.passed := rfl
@[simp] theorem ctx_wv_stepping (c : Ctx) (i : BitVec 4) (v : VReg) : (c.wv i v).stepping = c.stepping := rfl
@[simp] theorem ctx_wv_again (c : Ctx) (i : BitVec 4) (v : VReg) : (c.wv i v).again = c.again := rfl
@[simp] theorem ctx_wv_met (c : Ctx) (i : BitVec 4) (v : VReg) : (c.wv i v).met = c.met := rfl
@[simp] theorem ctx_wv_writes (c : Ctx) (i : BitVec 4) (v : VReg) : (c.wv i v).writes = c.writes := rfl
@[simp] theorem ctx_wv_icode (c : Ctx) (i : BitVec 4) (v : VReg) : (c.wv i v).icode = c.icode := rfl
@[simp] theorem ctx_wv_stalled (c : Ctx) (i : BitVec 4) (v : VReg) : (c.wv i v).stalled = c.stalled := rfl
@[simp] theorem ctx_wv_stopped (c : Ctx) (i : BitVec 4) (v : VReg) : (c.wv i v).stopped = c.stopped := rfl
@[simp] theorem ctx_wv_ir (c : Ctx) (i : BitVec 4) (v : VReg) : (c.wv i v).ir = c.ir := rfl

@[simp] theorem completed_key (c : Ctx) (pc : Addr) : (c.completed pc).key = c.key := rfl
@[simp] theorem completed_pour (c : Ctx) (pc : Addr) : (c.completed pc).pour = c.pour := rfl
@[simp] theorem completed_place (c : Ctx) (pc : Addr) : (c.completed pc).place = c.place := rfl
@[simp] theorem completed_held (c : Ctx) (pc : Addr) : (c.completed pc).held = c.held := rfl
@[simp] theorem completed_s (c : Ctx) (pc : Addr) : (c.completed pc).s = c.s := rfl
@[simp] theorem completed_v (c : Ctx) (pc : Addr) : (c.completed pc).v = c.v := rfl
@[simp] theorem completed_homeV (c : Ctx) (pc : Addr) : (c.completed pc).homeV = c.homeV := rfl
@[simp] theorem completed_p (c : Ctx) (pc : Addr) : (c.completed pc).p = c.p := rfl
@[simp] theorem completed_g (c : Ctx) (pc : Addr) : (c.completed pc).g = c.g := rfl
@[simp] theorem completed_rmode (c : Ctx) (pc : Addr) : (c.completed pc).rmode = c.rmode := rfl
@[simp] theorem completed_vlive (c : Ctx) (pc : Addr) : (c.completed pc).vlive = c.vlive := rfl
@[simp] theorem completed_tvec (c : Ctx) (pc : Addr) : (c.completed pc).tvec = c.tvec := rfl
@[simp] theorem completed_upvec (c : Ctx) (pc : Addr) : (c.completed pc).upvec = c.upvec := rfl
@[simp] theorem completed_tcause (c : Ctx) (pc : Addr) : (c.completed pc).tcause = c.tcause := rfl
@[simp] theorem completed_tval (c : Ctx) (pc : Addr) : (c.completed pc).tval = c.tval := rfl
@[simp] theorem completed_trpc (c : Ctx) (pc : Addr) : (c.completed pc).trpc = c.trpc := rfl
@[simp] theorem completed_dbg (c : Ctx) (pc : Addr) : (c.completed pc).dbg = c.dbg := rfl
@[simp] theorem completed_pourCsr (c : Ctx) (pc : Addr) : (c.completed pc).pourCsr = c.pourCsr := rfl
@[simp] theorem completed_brewCsr (c : Ctx) (pc : Addr) : (c.completed pc).brewCsr = c.brewCsr := rfl
@[simp] theorem completed_tenant (c : Ctx) (pc : Addr) : (c.completed pc).tenant = c.tenant := rfl
@[simp] theorem completed_mstat (c : Ctx) (pc : Addr) : (c.completed pc).mstat = c.mstat := rfl
@[simp] theorem completed_bpa (c : Ctx) (pc : Addr) : (c.completed pc).bpa = c.bpa := rfl
@[simp] theorem completed_frec (c : Ctx) (pc : Addr) : (c.completed pc).frec = c.frec := rfl
@[simp] theorem completed_charged (c : Ctx) (pc : Addr) : (c.completed pc).charged = c.charged := rfl
@[simp] theorem completed_deferred (c : Ctx) (pc : Addr) : (c.completed pc).deferred = c.deferred := rfl
@[simp] theorem completed_upcalls (c : Ctx) (pc : Addr) : (c.completed pc).upcalls = c.upcalls := rfl
@[simp] theorem completed_binds (c : Ctx) (pc : Addr) : (c.completed pc).binds = c.binds := rfl
@[simp] theorem completed_row (c : Ctx) (pc : Addr) : (c.completed pc).row = c.row := rfl
@[simp] theorem completed_gen (c : Ctx) (pc : Addr) : (c.completed pc).gen = c.gen := rfl
@[simp] theorem completed_barAt (c : Ctx) (pc : Addr) : (c.completed pc).barAt = c.barAt := rfl
@[simp] theorem completed_mopAt (c : Ctx) (pc : Addr) : (c.completed pc).mopAt = c.mopAt := rfl
@[simp] theorem completed_passed (c : Ctx) (pc : Addr) : (c.completed pc).passed = c.passed := rfl
@[simp] theorem completed_stepping (c : Ctx) (pc : Addr) : (c.completed pc).stepping = c.stepping := rfl
@[simp] theorem completed_stalled (c : Ctx) (pc : Addr) : (c.completed pc).stalled = c.stalled := rfl
@[simp] theorem completed_stopped (c : Ctx) (pc : Addr) : (c.completed pc).stopped = c.stopped := rfl
@[simp] theorem completed_ir (c : Ctx) (pc : Addr) : (c.completed pc).ir = c.ir := rfl

@[simp] theorem completed_pc (c : Ctx) (pc : Addr) : (c.completed pc).pc = pc := rfl
@[simp] theorem completed_instret (c : Ctx) (pc : Addr) : (c.completed pc).instret = c.instret + 1 := rfl
@[simp] theorem completed_st (c : Ctx) (pc : Addr) : (c.completed pc).st = .ready := rfl
@[simp] theorem completed_again (c : Ctx) (pc : Addr) : (c.completed pc).again = false := rfl
@[simp] theorem completed_met (c : Ctx) (pc : Addr) : (c.completed pc).met = none := rfl
@[simp] theorem completed_writes (c : Ctx) (pc : Addr) : (c.completed pc).writes = c.writes := rfl
@[simp] theorem completed_icode (c : Ctx) (pc : Addr) : (c.completed pc).icode = c.icode := rfl

/-- Cores and tenants read back. -/
@[simp] theorem getCore_setCore (s : State) (n : Nat) (c : CoreSt) : getCore (setCore s n c) n = c := by
  simp [getCore, setCore]

theorem getCore_setCore_other (s : State) {n k : Nat} (c : CoreSt) (h : k ≠ n) : getCore (setCore s n c) k = getCore s k := by
  simp [getCore, setCore, tgetD_tput_other _ _ _ h]

@[simp] theorem getTenant_setTenant (s : State) (n : Nat) (v : Tenant) : getTenant (setTenant s n v) n = v := by
  simp [getTenant, setTenant]

theorem getTenant_setTenant_other (s : State) {n k : Nat} (v : Tenant) (h : k ≠ n) :
    getTenant (setTenant s n v) k = getTenant s k := by
  simp [getTenant, setTenant, tgetD_tput_other _ _ _ h]

/-- An instruction that is not stepped completes. -/
theorem doneAt_eq {s : State} (h : unstepped s) (pc : Addr) : doneAt pc s = .next (completesAt pc s) := by
  have h : s.cx.stepping = false := h
  simp only [doneAt, h]; rfl

theorem done_eq {s : State} (h : unstepped s) : done s = .next (completes s) := doneAt_eq h _

/-- A check that does not fail. -/
@[simp] theorem failIf_false (cause : BitVec 8) (v : Word) (k : State → Out) (s : State) : failIf false cause v k s = k s := rfl

@[simp] theorem failIf_true (cause : BitVec 8) (v : Word) (k : State → Out) (s : State) :
    failIf true cause v k s = trap cause v s := rfl

/-- At home an instruction that visitors do not execute goes on. -/
theorem homeOnly_eq {s : State} (h : atHome s) (w : W32) (k : State → Out) : homeOnly w k s = k s := by
  have e : s.cx.away = false := by
    have h : s.cx.place = .home := h
    rw [Ctx.away, h]; rfl
  simp only [homeOnly, e]; rfl

/-- A release goes on when no drip of the context is under way. -/
theorem releaseThen_go {s : State} (k : State → Out) (h : dripping s s.cx.key = false) : releaseThen k s = k s := by
  simp [releaseThen, h]

/-- A read that passes. -/
theorem readThen_eq {s s' : State} {t : Tgt} {n : Nat} {l : List Byte} (h : reads s t n l s') (p : Word)
    (k : List Byte → State → Out) : readThen t n p k s = k l s' := by
  cases t with
  | win wa =>
    obtain ⟨h1, h2, rfl, rfl⟩ := h
    simp [readThen, winThen, h1, h2]
  | glob va =>
    obtain ⟨h1, ha, s1, h2, h3⟩ := h
    simp [readThen, globThen, ownThen, presentThen, touchThen, pathRead, h1, ha, h2, h3]

/-- A write that passes. -/
theorem writeThen_eq {s s' : State} {t : Tgt} {l : List Byte} {kind : Nat} (h : writes s t l kind s') (p : Word) (later : Bool)
    (k : State → Out) : writeThen t l p kind later k s = k s' := by
  cases t with
  | win wa =>
    obtain ⟨h1, h2, h3, rfl⟩ := h
    by_cases w : winKind wa = 5
    · obtain ⟨hr, hd⟩ := h3 w
      obtain ⟨x, hx⟩ := Option.isSome_iff_exists.mp hr
      simp [writeThen, winThen, h1, h2, w, hx, releaseThen_go _ hd]
    · simp [writeThen, winThen, h1, h2, w]
  | glob va =>
    obtain ⟨h1, ha, s1, h2, h3⟩ := h
    simp [writeThen, globThen, ownThen, presentThen, touchThen, h1, ha, h2, h3]

end Sys2Proof.Laws
end

