-- ==== Sys2Proof/Laws/Ops.lean ====
section
/-! SUPPORT. What each shared operation of a meaning can answer: one equation for each of its outcomes, which proofs cite
instead of unfolding the operation. -/

namespace Sys2Proof.Laws
open Sys2Proof Sys2Proof.Machine

/-! Completing and waiting (R112, R210, R13) -/

/-- With single-step, the completed instruction is followed by the trap 0x0F (R210). -/
theorem done_stepped {s : State} (h : s.cx.stepping = true) :
    done s = .next (takeTrap { cause := 0x0F, val := s.cx.pc.setWidth 64 } (completes s)) := by
  simp [done, doneAt, h, completes, completesAt, Ctx.completed, updCx, pcNext]

theorem trap_eq (c : BitVec 8) (v : Word) (s : State) : trap c v s = .next (takeTrap { cause := c, val := v } s) := rfl

theorem waitFor_eq (c : Cond) (s : State) :
    waitFor c s = .next { s with cx := { s.cx with st := .waiting c, again := true, stalled := false, met := none } } := rfl

theorem stallFor_eq (c : Cond) (s : State) :
    stallFor c s = .next { s with cx := { s.cx with st := .inFlight c, again := true, stalled := true, met := none } } := rfl

theorem waitEvent_eq (c : Cond) (s : State) :
    waitEvent c s = .next { s with cx := { s.cx with st := .waiting c, again := false } } := rfl

/-! Checks -/

theorem tagThen_ok {p : Word} (h : tagOk p = true) (k : State → Out) (s : State) : tagThen p k s = k s := by
  simp [tagThen, h]

theorem tagThen_bad {p : Word} (h : tagOk p = false) (k : State → Out) (s : State) :
    tagThen p k s = .next (takeTrap { cause := 0x07, val := p } s) := by
  simp [tagThen, h, trap]

/-- The three ends of a segment check, in the order of R124. -/
theorem segThen_right {g : Seg} {off n r : Nat} {w : Bool} (p : Word) (k : Tgt → State → Out) (s : State)
    (h : segCheck g off n r w = .error 0x05) : segThen g off n r w p k s = .next (takeTrap { cause := 0x05, val := p } s) := by
  simp [segThen, h, trap]

theorem segThen_limit {g : Seg} {off n r : Nat} {w : Bool} (p : Word) (k : Tgt → State → Out) (s : State)
    (h : segCheck g off n r w = .error 0x04) : segThen g off n r w p k s = .next (takeTrap { cause := 0x04, val := p } s) := by
  simp [segThen, h, trap]

theorem segThen_ok {g : Seg} {off n r : Nat} {w : Bool} {t : Tgt} (p : Word) (k : Tgt → State → Out) (s : State)
    (h : segCheck g off n r w = .ok t) : segThen g off n r w p k s = k t s := by
  simp [segThen, h]

theorem ringThen_some {s : State} {q : BitVec 4} {r : Ring} (k : Ring → State → Out)
    (h : getRing s (homeCore s.cx.key) q.toNat = some r) : ringThen q k s = k r s := by
  simp [ringThen, h]

theorem ringThen_none {s : State} {q : BitVec 4} (k : Ring → State → Out)
    (h : getRing s (homeCore s.cx.key) q.toNat = none) :
    ringThen q k s = .next (takeTrap { cause := 0x11, val := ringVal q } s) := by
  simp [ringThen, h, trap]

/-! Where an instruction executes (R175) and releases (R157, R173) -/

theorem homeOnly_home {s : State} (w : W32) (k : State → Out) (h : s.cx.away = false) : homeOnly w k s = k s := by
  simp [homeOnly, h]

theorem homeOnly_held {s : State} (w : W32) (k : State → Out) (h : s.cx.away = true) (hh : s.cx.held = true) :
    homeOnly w k s = .next (takeTrap { cause := 0x03, val := w.setWidth 64 } s) := by
  simp [homeOnly, h, hh, trap]

theorem homeOnly_loose {s : State} (w : W32) (k : State → Out) (h : s.cx.away = true) (hh : s.cx.held = false)
    (hd : dripping s s.cx.key = false) : homeOnly w k s = .next (depart (homeCore s.cx.key) s) := by
  simp [homeOnly, h, hh, releaseThen, hd]

/-- A release with a drip under way keeps the instruction In flight (R13, R173). -/
theorem releaseThen_wait {s : State} (k : State → Out) (h : dripping s s.cx.key = true) :
    releaseThen k s = stallFor (.ownDrips 0 (2 ^ 48)) s := by
  simp [releaseThen, h]

/-! Vector registers without stream bindings (R219, R244) -/

theorem vecThen_none {s : State} {srcs dsts : List (BitVec 4)} (k : State → Out) (h : hinders s srcs dsts = .none) :
    vecThen srcs dsts k s = k s := by
  rw [vecThen, h]; rfl

end Sys2Proof.Laws
end

