-- ==== Sys2Proof/Laws/PerInstr.lean ====
section
/-! SUPPORT. What holds of every instruction as syntax, one lemma per constructor. RoundTrip: the word of a well-formed
instruction fits 32 bits and decodes to that instruction (R91, R93, R105, R106). -/

namespace Sys2Proof.Laws
open Sys2Proof

set_option Elab.async false

/-- The word of the instruction, where it has one, decodes to the instruction. -/
def RoundTrip.Statement (i : Instr) : Prop :=
  i.wf = true → ∀ n, encodeNat i = some n → n < 2 ^ 32 ∧ ∃ c, decodeNat n = .ok c ∧ c.instr = i

/-- A step without an encoding has no word. -/
theorem noWord {i : Instr} (h : encodeNat i = none) : RoundTrip.Statement i := by
  intro _ n hn
  rw [h] at hn
  cases hn

theorem RoundTrip.add (d : BitVec 5) (a : BitVec 5) (b : BitVec 5) (w : Bool) : RoundTrip.Statement (.add d a b w) := by
  intro hwf W hw
  have hw : pack 0x04000000 (strip [⟨d.toNat, 21, 5⟩, ⟨a.toNat, 16, 5⟩, ⟨b.toNat, 11, 5⟩, ⟨w.toNat, 0, 1⟩]) = W := Option.some.inj hw
  have ok : laidOut 0x04000000 [(21, 5), (16, 5), (11, 5), (0, 1)] = true := by decide +kernel
  have ft : Fits [⟨d.toNat, 21, 5⟩, ⟨a.toNat, 16, 5⟩, ⟨b.toNat, 11, 5⟩, ⟨w.toNat, 0, 1⟩] := ⟨d.isLt, a.isLt, b.isLt, w.toNat_lt, trivial⟩
  have em : fld W 26 6 = 0x01 := read_const hw ok ft (show apart 26 6 [(21, 5), (16, 5), (11, 5), (0, 1)] = true by decide +kernel) (by decide +kernel)
  have ej : fld W 5 6 = 0 := read_const hw ok ft (show apart 5 6 [(21, 5), (16, 5), (11, 5), (0, 1)] = true by decide +kernel) (by decide +kernel)
  have ez1 : fld W 1 4 = 0 := read_const hw ok ft (show apart 1 4 [(21, 5), (16, 5), (11, 5), (0, 1)] = true by decide +kernel) (by decide +kernel)
  have ef1 : bv 5 W 21 = d := read_bv hw ok ft (.head _)
  have ef2 : bv 5 W 16 = a := read_bv hw ok ft (.tail _ (.head _))
  have ef3 : bv 5 W 11 = b := read_bv hw ok ft (.tail _ (.tail _ (.head _)))
  have ef4 : flag W 0 = w := read_flag hw ok ft (.tail _ (.tail _ (.tail _ (.head _))))
  refine ⟨hw ▸ pack_lt ok ft (show inWord [(21, 5), (16, 5), (11, 5), (0, 1)] = true by decide +kernel) (by decide +kernel), .core (.add d a b w), ?_, rfl⟩
  rw [decodeNat_01 W em, decAlu]
  simp only [ej, ez1, ef1, ef2, ef3, ef4, zeros, List.all, beq_self_eq_true, Bool.and_self, if_true]

theorem RoundTrip.sub (d : BitVec 5) (a : BitVec 5) (b : BitVec 5) (w : Bool) : RoundTrip.Statement (.sub d a b w) := by
  intro hwf W hw
  have hw : pack 0x04000020 (strip [⟨d.toNat, 21, 5⟩, ⟨a.toNat, 16, 5⟩, ⟨b.toNat, 11, 5⟩, ⟨w.toNat, 0, 1⟩]) = W := Option.some.inj hw
  have ok : laidOut 0x04000020 [(21, 5), (16, 5), (11, 5), (0, 1)] = true := by decide +kernel
  have ft : Fits [⟨d.toNat, 21, 5⟩, ⟨a.toNat, 16, 5⟩, ⟨b.toNat, 11, 5⟩, ⟨w.toNat, 0, 1⟩] := ⟨d.isLt, a.isLt, b.isLt, w.toNat_lt, trivial⟩
  have em : fld W 26 6 = 0x01 := read_const hw ok ft (show apart 26 6 [(21, 5), (16, 5), (11, 5), (0, 1)] = true by decide +kernel) (by decide +kernel)
  have ej : fld W 5 6 = 1 := read_const hw ok ft (show apart 5 6 [(21, 5), (16, 5), (11, 5), (0, 1)] = true by decide +kernel) (by decide +kernel)
  have ez1 : fld W 1 4 = 0 := read_const hw ok ft (show apart 1 4 [(21, 5), (16, 5), (11, 5), (0, 1)] = true by decide +kernel) (by decide +kernel)
  have ef1 : bv 5 W 21 = d := read_bv hw ok ft (.head _)
  have ef2 : bv 5 W 16 = a := read_bv hw ok ft (.tail _ (.head _))
  have ef3 : bv 5 W 11 = b := read_bv hw ok ft (.tail _ (.tail _ (.head _)))
  have ef4 : flag W 0 = w := read_flag hw ok ft (.tail _ (.tail _ (.tail _ (.head _))))
  refine ⟨hw ▸ pack_lt ok ft (show inWord [(21, 5), (16, 5), (11, 5), (0, 1)] = true by decide +kernel) (by decide +kernel), .core (.sub d a b w), ?_, rfl⟩
  rw [decodeNat_01 W em, decAlu]
  simp only [ej, ez1, ef1, ef2, ef3, ef4, zeros, List.all, beq_self_eq_true, Bool.and_self, if_true]

theorem RoundTrip.and (d : BitVec 5) (a : BitVec 5) (b : BitVec 5) (w : Bool) : RoundTrip.Statement (.and d a b w) := by
  intro hwf W hw
  have hw : pack 0x04000040 (strip [⟨d.toNat, 21, 5⟩, ⟨a.toNat, 16, 5⟩, ⟨b.toNat, 11, 5⟩, ⟨w.toNat, 0, 1⟩]) = W := Option.some.inj hw
  have ok : laidOut 0x04000040 [(21, 5), (16, 5), (11, 5), (0, 1)] = true := by decide +kernel
  have ft : Fits [⟨d.toNat, 21, 5⟩, ⟨a.toNat, 16, 5⟩, ⟨b.toNat, 11, 5⟩, ⟨w.toNat, 0, 1⟩] := ⟨d.isLt, a.isLt, b.isLt, w.toNat_lt, trivial⟩
  have em : fld W 26 6 = 0x01 := read_const hw ok ft (show apart 26 6 [(21, 5), (16, 5), (11, 5), (0, 1)] = true by decide +kernel) (by decide +kernel)
  have ej : fld W 5 6 = 2 := read_const hw ok ft (show apart 5 6 [(21, 5), (16, 5), (11, 5), (0, 1)] = true by decide +kernel) (by decide +kernel)
  have ez1 : fld W 1 4 = 0 := read_const hw ok ft (show apart 1 4 [(21, 5), (16, 5), (11, 5), (0, 1)] = true by decide +kernel) (by decide +kernel)
  have ef1 : bv 5 W 21 = d := read_bv hw ok ft (.head _)
  have ef2 : bv 5 W 16 = a := read_bv hw ok ft (.tail _ (.head _))
  have ef3 : bv 5 W 11 = b := read_bv hw ok ft (.tail _ (.tail _ (.head _)))
  have ef4 : flag W 0 = w := read_flag hw ok ft (.tail _ (.tail _ (.tail _ (.head _))))
  refine ⟨hw ▸ pack_lt ok ft (show inWord [(21, 5), (16, 5), (11, 5), (0, 1)] = true by decide +kernel) (by decide +kernel), .core (.and d a b w), ?_, rfl⟩
  rw [decodeNat_01 W em, decAlu]
  simp only [ej, ez1, ef1, ef2, ef3, ef4, zeros, List.all, beq_self_eq_true, Bool.and_self, if_true]

theorem RoundTrip.or (d : BitVec 5) (a : BitVec 5) (b : BitVec 5) (w : Bool) : RoundTrip.Statement (.or d a b w) := by
  intro hwf W hw
  have hw : pack 0x04000060 (strip [⟨d.toNat, 21, 5⟩, ⟨a.toNat, 16, 5⟩, ⟨b.toNat, 11, 5⟩, ⟨w.toNat, 0, 1⟩]) = W := Option.some.inj hw
  have ok : laidOut 0x04000060 [(21, 5), (16, 5), (11, 5), (0, 1)] = true := by decide +kernel
  have ft : Fits [⟨d.toNat, 21, 5⟩, ⟨a.toNat, 16, 5⟩, ⟨b.toNat, 11, 5⟩, ⟨w.toNat, 0, 1⟩] := ⟨d.isLt, a.isLt, b.isLt, w.toNat_lt, trivial⟩
  have em : fld W 26 6 = 0x01 := read_const hw ok ft (show apart 26 6 [(21, 5), (16, 5), (11, 5), (0, 1)] = true by decide +kernel) (by decide +kernel)
  have ej : fld W 5 6 = 3 := read_const hw ok ft (show apart 5 6 [(21, 5), (16, 5), (11, 5), (0, 1)] = true by decide +kernel) (by decide +kernel)
  have ez1 : fld W 1 4 = 0 := read_const hw ok ft (show apart 1 4 [(21, 5), (16, 5), (11, 5), (0, 1)] = true by decide +kernel) (by decide +kernel)
  have ef1 : bv 5 W 21 = d := read_bv hw ok ft (.head _)
  have ef2 : bv 5 W 16 = a := read_bv hw ok ft (.tail _ (.head _))
  have ef3 : bv 5 W 11 = b := read_bv hw ok ft (.tail _ (.tail _ (.head _)))
  have ef4 : flag W 0 = w := read_flag hw ok ft (.tail _ (.tail _ (.tail _ (.head _))))
  refine ⟨hw ▸ pack_lt ok ft (show inWord [(21, 5), (16, 5), (11, 5), (0, 1)] = true by decide +kernel) (by decide +kernel), .core (.or d a b w), ?_, rfl⟩
  rw [decodeNat_01 W em, decAlu]
  simp only [ej, ez1, ef1, ef2, ef3, ef4, zeros, List.all, beq_self_eq_true, Bool.and_self, if_true]

theorem RoundTrip.xor (d : BitVec 5) (a : BitVec 5) (b : BitVec 5) (w : Bool) : RoundTrip.Statement (.xor d a b w) := by
  intro hwf W hw
  have hw : pack 0x04000080 (strip [⟨d.toNat, 21, 5⟩, ⟨a.toNat, 16, 5⟩, ⟨b.toNat, 11, 5⟩, ⟨w.toNat, 0, 1⟩]) = W := Option.some.inj hw
  have ok : laidOut 0x04000080 [(21, 5), (16, 5), (11, 5), (0, 1)] = true := by decide +kernel
  have ft : Fits [⟨d.toNat, 21, 5⟩, ⟨a.toNat, 16, 5⟩, ⟨b.toNat, 11, 5⟩, ⟨w.toNat, 0, 1⟩] := ⟨d.isLt, a.isLt, b.isLt, w.toNat_lt, trivial⟩
  have em : fld W 26 6 = 0x01 := read_const hw ok ft (show apart 26 6 [(21, 5), (16, 5), (11, 5), (0, 1)] = true by decide +kernel) (by decide +kernel)
  have ej : fld W 5 6 = 4 := read_const hw ok ft (show apart 5 6 [(21, 5), (16, 5), (11, 5), (0, 1)] = true by decide +kernel) (by decide +kernel)
  have ez1 : fld W 1 4 = 0 := read_const hw ok ft (show apart 1 4 [(21, 5), (16, 5), (11, 5), (0, 1)] = true by decide +kernel) (by decide +kernel)
  have ef1 : bv 5 W 21 = d := read_bv hw ok ft (.head _)
  have ef2 : bv 5 W 16 = a := read_bv hw ok ft (.tail _ (.head _))
  have ef3 : bv 5 W 11 = b := read_bv hw ok ft (.tail _ (.tail _ (.head _)))
  have ef4 : flag W 0 = w := read_flag hw ok ft (.tail _ (.tail _ (.tail _ (.head _))))
  refine ⟨hw ▸ pack_lt ok ft (show inWord [(21, 5), (16, 5), (11, 5), (0, 1)] = true by decide +kernel) (by decide +kernel), .core (.xor d a b w), ?_, rfl⟩
  rw [decodeNat_01 W em, decAlu]
  simp only [ej, ez1, ef1, ef2, ef3, ef4, zeros, List.all, beq_self_eq_true, Bool.and_self, if_true]

theorem RoundTrip.andn (d : BitVec 5) (a : BitVec 5) (b : BitVec 5) (w : Bool) : RoundTrip.Statement (.andn d a b w) := by
  intro hwf W hw
  have hw : pack 0x040000A0 (strip [⟨d.toNat, 21, 5⟩, ⟨a.toNat, 16, 5⟩, ⟨b.toNat, 11, 5⟩, ⟨w.toNat, 0, 1⟩]) = W := Option.some.inj hw
  have ok : laidOut 0x040000A0 [(21, 5), (16, 5), (11, 5), (0, 1)] = true := by decide +kernel
  have ft : Fits [⟨d.toNat, 21, 5⟩, ⟨a.toNat, 16, 5⟩, ⟨b.toNat, 11, 5⟩, ⟨w.toNat, 0, 1⟩] := ⟨d.isLt, a.isLt, b.isLt, w.toNat_lt, trivial⟩
  have em : fld W 26 6 = 0x01 := read_const hw ok ft (show apart 26 6 [(21, 5), (16, 5), (11, 5), (0, 1)] = true by decide +kernel) (by decide +kernel)
  have ej : fld W 5 6 = 5 := read_const hw ok ft (show apart 5 6 [(21, 5), (16, 5), (11, 5), (0, 1)] = true by decide +kernel) (by decide +kernel)
  have ez1 : fld W 1 4 = 0 := read_const hw ok ft (show apart 1 4 [(21, 5), (16, 5), (11, 5), (0, 1)] = true by decide +kernel) (by decide +kernel)
  have ef1 : bv 5 W 21 = d := read_bv hw ok ft (.head _)
  have ef2 : bv 5 W 16 = a := read_bv hw ok ft (.tail _ (.head _))
  have ef3 : bv 5 W 11 = b := read_bv hw ok ft (.tail _ (.tail _ (.head _)))
  have ef4 : flag W 0 = w := read_flag hw ok ft (.tail _ (.tail _ (.tail _ (.head _))))
  refine ⟨hw ▸ pack_lt ok ft (show inWord [(21, 5), (16, 5), (11, 5), (0, 1)] = true by decide +kernel) (by decide +kernel), .core (.andn d a b w), ?_, rfl⟩
  rw [decodeNat_01 W em, decAlu]
  simp only [ej, ez1, ef1, ef2, ef3, ef4, zeros, List.all, beq_self_eq_true, Bool.and_self, if_true]

theorem RoundTrip.sll (d : BitVec 5) (a : BitVec 5) (b : BitVec 5) (w : Bool) : RoundTrip.Statement (.sll d a b w) := by
  intro hwf W hw
  have hw : pack 0x040000C0 (strip [⟨d.toNat, 21, 5⟩, ⟨a.toNat, 16, 5⟩, ⟨b.toNat, 11, 5⟩, ⟨w.toNat, 0, 1⟩]) = W := Option.some.inj hw
  have ok : laidOut 0x040000C0 [(21, 5), (16, 5), (11, 5), (0, 1)] = true := by decide +kernel
  have ft : Fits [⟨d.toNat, 21, 5⟩, ⟨a.toNat, 16, 5⟩, ⟨b.toNat, 11, 5⟩, ⟨w.toNat, 0, 1⟩] := ⟨d.isLt, a.isLt, b.isLt, w.toNat_lt, trivial⟩
  have em : fld W 26 6 = 0x01 := read_const hw ok ft (show apart 26 6 [(21, 5), (16, 5), (11, 5), (0, 1)] = true by decide +kernel) (by decide +kernel)
  have ej : fld W 5 6 = 6 := read_const hw ok ft (show apart 5 6 [(21, 5), (16, 5), (11, 5), (0, 1)] = true by decide +kernel) (by decide +kernel)
  have ez1 : fld W 1 4 = 0 := read_const hw ok ft (show apart 1 4 [(21, 5), (16, 5), (11, 5), (0, 1)] = true by decide +kernel) (by decide +kernel)
  have ef1 : bv 5 W 21 = d := read_bv hw ok ft (.head _)
  have ef2 : bv 5 W 16 = a := read_bv hw ok ft (.tail _ (.head _))
  have ef3 : bv 5 W 11 = b := read_bv hw ok ft (.tail _ (.tail _ (.head _)))
  have ef4 : flag W 0 = w := read_flag hw ok ft (.tail _ (.tail _ (.tail _ (.head _))))
  refine ⟨hw ▸ pack_lt ok ft (show inWord [(21, 5), (16, 5), (11, 5), (0, 1)] = true by decide +kernel) (by decide +kernel), .core (.sll d a b w), ?_, rfl⟩
  rw [decodeNat_01 W em, decAlu]
  simp only [ej, ez1, ef1, ef2, ef3, ef4, zeros, List.all, beq_self_eq_true, Bool.and_self, if_true]

theorem RoundTrip.srl (d : BitVec 5) (a : BitVec 5) (b : BitVec 5) (w : Bool) : RoundTrip.Statement (.srl d a b w) := by
  intro hwf W hw
  have hw : pack 0x040000E0 (strip [⟨d.toNat, 21, 5⟩, ⟨a.toNat, 16, 5⟩, ⟨b.toNat, 11, 5⟩, ⟨w.toNat, 0, 1⟩]) = W := Option.some.inj hw
  have ok : laidOut 0x040000E0 [(21, 5), (16, 5), (11, 5), (0, 1)] = true := by decide +kernel
  have ft : Fits [⟨d.toNat, 21, 5⟩, ⟨a.toNat, 16, 5⟩, ⟨b.toNat, 11, 5⟩, ⟨w.toNat, 0, 1⟩] := ⟨d.isLt, a.isLt, b.isLt, w.toNat_lt, trivial⟩
  have em : fld W 26 6 = 0x01 := read_const hw ok ft (show apart 26 6 [(21, 5), (16, 5), (11, 5), (0, 1)] = true by decide +kernel) (by decide +kernel)
  have ej : fld W 5 6 = 7 := read_const hw ok ft (show apart 5 6 [(21, 5), (16, 5), (11, 5), (0, 1)] = true by decide +kernel) (by decide +kernel)
  have ez1 : fld W 1 4 = 0 := read_const hw ok ft (show apart 1 4 [(21, 5), (16, 5), (11, 5), (0, 1)] = true by decide +kernel) (by decide +kernel)
  have ef1 : bv 5 W 21 = d := read_bv hw ok ft (.head _)
  have ef2 : bv 5 W 16 = a := read_bv hw ok ft (.tail _ (.head _))
  have ef3 : bv 5 W 11 = b := read_bv hw ok ft (.tail _ (.tail _ (.head _)))
  have ef4 : flag W 0 = w := read_flag hw ok ft (.tail _ (.tail _ (.tail _ (.head _))))
  refine ⟨hw ▸ pack_lt ok ft (show inWord [(21, 5), (16, 5), (11, 5), (0, 1)] = true by decide +kernel) (by decide +kernel), .core (.srl d a b w), ?_, rfl⟩
  rw [decodeNat_01 W em, decAlu]
  simp only [ej, ez1, ef1, ef2, ef3, ef4, zeros, List.all, beq_self_eq_true, Bool.and_self, if_true]

theorem RoundTrip.sra (d : BitVec 5) (a : BitVec 5) (b : BitVec 5) (w : Bool) : RoundTrip.Statement (.sra d a b w) := by
  intro hwf W hw
  have hw : pack 0x04000100 (strip [⟨d.toNat, 21, 5⟩, ⟨a.toNat, 16, 5⟩, ⟨b.toNat, 11, 5⟩, ⟨w.toNat, 0, 1⟩]) = W := Option.some.inj hw
  have ok : laidOut 0x04000100 [(21, 5), (16, 5), (11, 5), (0, 1)] = true := by decide +kernel
  have ft : Fits [⟨d.toNat, 21, 5⟩, ⟨a.toNat, 16, 5⟩, ⟨b.toNat, 11, 5⟩, ⟨w.toNat, 0, 1⟩] := ⟨d.isLt, a.isLt, b.isLt, w.toNat_lt, trivial⟩
  have em : fld W 26 6 = 0x01 := read_const hw ok ft (show apart 26 6 [(21, 5), (16, 5), (11, 5), (0, 1)] = true by decide +kernel) (by decide +kernel)
  have ej : fld W 5 6 = 8 := read_const hw ok ft (show apart 5 6 [(21, 5), (16, 5), (11, 5), (0, 1)] = true by decide +kernel) (by decide +kernel)
  have ez1 : fld W 1 4 = 0 := read_const hw ok ft (show apart 1 4 [(21, 5), (16, 5), (11, 5), (0, 1)] = true by decide +kernel) (by decide +kernel)
  have ef1 : bv 5 W 21 = d := read_bv hw ok ft (.head _)
  have ef2 : bv 5 W 16 = a := read_bv hw ok ft (.tail _ (.head _))
  have ef3 : bv 5 W 11 = b := read_bv hw ok ft (.tail _ (.tail _ (.head _)))
  have ef4 : flag W 0 = w := read_flag hw ok ft (.tail _ (.tail _ (.tail _ (.head _))))
  refine ⟨hw ▸ pack_lt ok ft (show inWord [(21, 5), (16, 5), (11, 5), (0, 1)] = true by decide +kernel) (by decide +kernel), .core (.sra d a b w), ?_, rfl⟩
  rw [decodeNat_01 W em, decAlu]
  simp only [ej, ez1, ef1, ef2, ef3, ef4, zeros, List.all, beq_self_eq_true, Bool.and_self, if_true]

theorem RoundTrip.mul (d : BitVec 5) (a : BitVec 5) (b : BitVec 5) (w : Bool) : RoundTrip.Statement (.mul d a b w) := by
  intro hwf W hw
  have hw : pack 0x04000120 (strip [⟨d.toNat, 21, 5⟩, ⟨a.toNat, 16, 5⟩, ⟨b.toNat, 11, 5⟩, ⟨w.toNat, 0, 1⟩]) = W := Option.some.inj hw
  have ok : laidOut 0x04000120 [(21, 5), (16, 5), (11, 5), (0, 1)] = true := by decide +kernel
  have ft : Fits [⟨d.toNat, 21, 5⟩, ⟨a.toNat, 16, 5⟩, ⟨b.toNat, 11, 5⟩, ⟨w.toNat, 0, 1⟩] := ⟨d.isLt, a.isLt, b.isLt, w.toNat_lt, trivial⟩
  have em : fld W 26 6 = 0x01 := read_const hw ok ft (show apart 26 6 [(21, 5), (16, 5), (11, 5), (0, 1)] = true by decide +kernel) (by decide +kernel)
  have ej : fld W 5 6 = 9 := read_const hw ok ft (show apart 5 6 [(21, 5), (16, 5), (11, 5), (0, 1)] = true by decide +kernel) (by decide +kernel)
  have ez1 : fld W 1 4 = 0 := read_const hw ok ft (show apart 1 4 [(21, 5), (16, 5), (11, 5), (0, 1)] = true by decide +kernel) (by decide +kernel)
  have ef1 : bv 5 W 21 = d := read_bv hw ok ft (.head _)
  have ef2 : bv 5 W 16 = a := read_bv hw ok ft (.tail _ (.head _))
  have ef3 : bv 5 W 11 = b := read_bv hw ok ft (.tail _ (.tail _ (.head _)))
  have ef4 : flag W 0 = w := read_flag hw ok ft (.tail _ (.tail _ (.tail _ (.head _))))
  refine ⟨hw ▸ pack_lt ok ft (show inWord [(21, 5), (16, 5), (11, 5), (0, 1)] = true by decide +kernel) (by decide +kernel), .core (.mul d a b w), ?_, rfl⟩
  rw [decodeNat_01 W em, decAlu]
  simp only [ej, ez1, ef1, ef2, ef3, ef4, zeros, List.all, beq_self_eq_true, Bool.and_self, if_true]

theorem RoundTrip.mulh (d : BitVec 5) (a : BitVec 5) (b : BitVec 5) : RoundTrip.Statement (.mulh d a b) := by
  intro hwf W hw
  have hw : pack 0x04000140 (strip [⟨d.toNat, 21, 5⟩, ⟨a.toNat, 16, 5⟩, ⟨b.toNat, 11, 5⟩]) = W := Option.some.inj hw
  have ok : laidOut 0x04000140 [(21, 5), (16, 5), (11, 5)] = true := by decide +kernel
  have ft : Fits [⟨d.toNat, 21, 5⟩, ⟨a.toNat, 16, 5⟩, ⟨b.toNat, 11, 5⟩] := ⟨d.isLt, a.isLt, b.isLt, trivial⟩
  have em : fld W 26 6 = 0x01 := read_const hw ok ft (show apart 26 6 [(21, 5), (16, 5), (11, 5)] = true by decide +kernel) (by decide +kernel)
  have ej : fld W 5 6 = 10 := read_const hw ok ft (show apart 5 6 [(21, 5), (16, 5), (11, 5)] = true by decide +kernel) (by decide +kernel)
  have ez1 : fld W 1 4 = 0 := read_const hw ok ft (show apart 1 4 [(21, 5), (16, 5), (11, 5)] = true by decide +kernel) (by decide +kernel)
  have ez2 : fld W 0 1 = 0 := read_const hw ok ft (show apart 0 1 [(21, 5), (16, 5), (11, 5)] = true by decide +kernel) (by decide +kernel)
  have ef1 : bv 5 W 21 = d := read_bv hw ok ft (.head _)
  have ef2 : bv 5 W 16 = a := read_bv hw ok ft (.tail _ (.head _))
  have ef3 : bv 5 W 11 = b := read_bv hw ok ft (.tail _ (.tail _ (.head _)))
  refine ⟨hw ▸ pack_lt ok ft (show inWord [(21, 5), (16, 5), (11, 5)] = true by decide +kernel) (by decide +kernel), .core (.mulh d a b), ?_, rfl⟩
  rw [decodeNat_01 W em, decAlu]
  simp only [ej, ez1, ez2, ef1, ef2, ef3, zeros, List.all, beq_self_eq_true, Bool.and_self, if_true]

theorem RoundTrip.mulhu (d : BitVec 5) (a : BitVec 5) (b : BitVec 5) : RoundTrip.Statement (.mulhu d a b) := by
  intro hwf W hw
  have hw : pack 0x04000160 (strip [⟨d.toNat, 21, 5⟩, ⟨a.toNat, 16, 5⟩, ⟨b.toNat, 11, 5⟩]) = W := Option.some.inj hw
  have ok : laidOut 0x04000160 [(21, 5), (16, 5), (11, 5)] = true := by decide +kernel
  have ft : Fits [⟨d.toNat, 21, 5⟩, ⟨a.toNat, 16, 5⟩, ⟨b.toNat, 11, 5⟩] := ⟨d.isLt, a.isLt, b.isLt, trivial⟩
  have em : fld W 26 6 = 0x01 := read_const hw ok ft (show apart 26 6 [(21, 5), (16, 5), (11, 5)] = true by decide +kernel) (by decide +kernel)
  have ej : fld W 5 6 = 11 := read_const hw ok ft (show apart 5 6 [(21, 5), (16, 5), (11, 5)] = true by decide +kernel) (by decide +kernel)
  have ez1 : fld W 1 4 = 0 := read_const hw ok ft (show apart 1 4 [(21, 5), (16, 5), (11, 5)] = true by decide +kernel) (by decide +kernel)
  have ez2 : fld W 0 1 = 0 := read_const hw ok ft (show apart 0 1 [(21, 5), (16, 5), (11, 5)] = true by decide +kernel) (by decide +kernel)
  have ef1 : bv 5 W 21 = d := read_bv hw ok ft (.head _)
  have ef2 : bv 5 W 16 = a := read_bv hw ok ft (.tail _ (.head _))
  have ef3 : bv 5 W 11 = b := read_bv hw ok ft (.tail _ (.tail _ (.head _)))
  refine ⟨hw ▸ pack_lt ok ft (show inWord [(21, 5), (16, 5), (11, 5)] = true by decide +kernel) (by decide +kernel), .core (.mulhu d a b), ?_, rfl⟩
  rw [decodeNat_01 W em, decAlu]
  simp only [ej, ez1, ez2, ef1, ef2, ef3, zeros, List.all, beq_self_eq_true, Bool.and_self, if_true]

theorem RoundTrip.div (d : BitVec 5) (a : BitVec 5) (b : BitVec 5) (w : Bool) : RoundTrip.Statement (.div d a b w) := by
  intro hwf W hw
  have hw : pack 0x04000180 (strip [⟨d.toNat, 21, 5⟩, ⟨a.toNat, 16, 5⟩, ⟨b.toNat, 11, 5⟩, ⟨w.toNat, 0, 1⟩]) = W := Option.some.inj hw
  have ok : laidOut 0x04000180 [(21, 5), (16, 5), (11, 5), (0, 1)] = true := by decide +kernel
  have ft : Fits [⟨d.toNat, 21, 5⟩, ⟨a.toNat, 16, 5⟩, ⟨b.toNat, 11, 5⟩, ⟨w.toNat, 0, 1⟩] := ⟨d.isLt, a.isLt, b.isLt, w.toNat_lt, trivial⟩
  have em : fld W 26 6 = 0x01 := read_const hw ok ft (show apart 26 6 [(21, 5), (16, 5), (11, 5), (0, 1)] = true by decide +kernel) (by decide +kernel)
  have ej : fld W 5 6 = 12 := read_const hw ok ft (show apart 5 6 [(21, 5), (16, 5), (11, 5), (0, 1)] = true by decide +kernel) (by decide +kernel)
  have ez1 : fld W 1 4 = 0 := read_const hw ok ft (show apart 1 4 [(21, 5), (16, 5), (11, 5), (0, 1)] = true by decide +kernel) (by decide +kernel)
  have ef1 : bv 5 W 21 = d := read_bv hw ok ft (.head _)
  have ef2 : bv 5 W 16 = a := read_bv hw ok ft (.tail _ (.head _))
  have ef3 : bv 5 W 11 = b := read_bv hw ok ft (.tail _ (.tail _ (.head _)))
  have ef4 : flag W 0 = w := read_flag hw ok ft (.tail _ (.tail _ (.tail _ (.head _))))
  refine ⟨hw ▸ pack_lt ok ft (show inWord [(21, 5), (16, 5), (11, 5), (0, 1)] = true by decide +kernel) (by decide +kernel), .core (.div d a b w), ?_, rfl⟩
  rw [decodeNat_01 W em, decAlu]
  simp only [ej, ez1, ef1, ef2, ef3, ef4, zeros, List.all, beq_self_eq_true, Bool.and_self, if_true]

theorem RoundTrip.divu (d : BitVec 5) (a : BitVec 5) (b : BitVec 5) (w : Bool) : RoundTrip.Statement (.divu d a b w) := by
  intro hwf W hw
  have hw : pack 0x040001A0 (strip [⟨d.toNat, 21, 5⟩, ⟨a.toNat, 16, 5⟩, ⟨b.toNat, 11, 5⟩, ⟨w.toNat, 0, 1⟩]) = W := Option.some.inj hw
  have ok : laidOut 0x040001A0 [(21, 5), (16, 5), (11, 5), (0, 1)] = true := by decide +kernel
  have ft : Fits [⟨d.toNat, 21, 5⟩, ⟨a.toNat, 16, 5⟩, ⟨b.toNat, 11, 5⟩, ⟨w.toNat, 0, 1⟩] := ⟨d.isLt, a.isLt, b.isLt, w.toNat_lt, trivial⟩
  have em : fld W 26 6 = 0x01 := read_const hw ok ft (show apart 26 6 [(21, 5), (16, 5), (11, 5), (0, 1)] = true by decide +kernel) (by decide +kernel)
  have ej : fld W 5 6 = 13 := read_const hw ok ft (show apart 5 6 [(21, 5), (16, 5), (11, 5), (0, 1)] = true by decide +kernel) (by decide +kernel)
  have ez1 : fld W 1 4 = 0 := read_const hw ok ft (show apart 1 4 [(21, 5), (16, 5), (11, 5), (0, 1)] = true by decide +kernel) (by decide +kernel)
  have ef1 : bv 5 W 21 = d := read_bv hw ok ft (.head _)
  have ef2 : bv 5 W 16 = a := read_bv hw ok ft (.tail _ (.head _))
  have ef3 : bv 5 W 11 = b := read_bv hw ok ft (.tail _ (.tail _ (.head _)))
  have ef4 : flag W 0 = w := read_flag hw ok ft (.tail _ (.tail _ (.tail _ (.head _))))
  refine ⟨hw ▸ pack_lt ok ft (show inWord [(21, 5), (16, 5), (11, 5), (0, 1)] = true by decide +kernel) (by decide +kernel), .core (.divu d a b w), ?_, rfl⟩
  rw [decodeNat_01 W em, decAlu]
  simp only [ej, ez1, ef1, ef2, ef3, ef4, zeros, List.all, beq_self_eq_true, Bool.and_self, if_true]

theorem RoundTrip.rem (d : BitVec 5) (a : BitVec 5) (b : BitVec 5) (w : Bool) : RoundTrip.Statement (.rem d a b w) := by
  intro hwf W hw
  have hw : pack 0x040001C0 (strip [⟨d.toNat, 21, 5⟩, ⟨a.toNat, 16, 5⟩, ⟨b.toNat, 11, 5⟩, ⟨w.toNat, 0, 1⟩]) = W := Option.some.inj hw
  have ok : laidOut 0x040001C0 [(21, 5), (16, 5), (11, 5), (0, 1)] = true := by decide +kernel
  have ft : Fits [⟨d.toNat, 21, 5⟩, ⟨a.toNat, 16, 5⟩, ⟨b.toNat, 11, 5⟩, ⟨w.toNat, 0, 1⟩] := ⟨d.isLt, a.isLt, b.isLt, w.toNat_lt, trivial⟩
  have em : fld W 26 6 = 0x01 := read_const hw ok ft (show apart 26 6 [(21, 5), (16, 5), (11, 5), (0, 1)] = true by decide +kernel) (by decide +kernel)
  have ej : fld W 5 6 = 14 := read_const hw ok ft (show apart 5 6 [(21, 5), (16, 5), (11, 5), (0, 1)] = true by decide +kernel) (by decide +kernel)
  have ez1 : fld W 1 4 = 0 := read_const hw ok ft (show apart 1 4 [(21, 5), (16, 5), (11, 5), (0, 1)] = true by decide +kernel) (by decide +kernel)
  have ef1 : bv 5 W 21 = d := read_bv hw ok ft (.head _)
  have ef2 : bv 5 W 16 = a := read_bv hw ok ft (.tail _ (.head _))
  have ef3 : bv 5 W 11 = b := read_bv hw ok ft (.tail _ (.tail _ (.head _)))
  have ef4 : flag W 0 = w := read_flag hw ok ft (.tail _ (.tail _ (.tail _ (.head _))))
  refine ⟨hw ▸ pack_lt ok ft (show inWord [(21, 5), (16, 5), (11, 5), (0, 1)] = true by decide +kernel) (by decide +kernel), .core (.rem d a b w), ?_, rfl⟩
  rw [decodeNat_01 W em, decAlu]
  simp only [ej, ez1, ef1, ef2, ef3, ef4, zeros, List.all, beq_self_eq_true, Bool.and_self, if_true]

theorem RoundTrip.remu (d : BitVec 5) (a : BitVec 5) (b : BitVec 5) (w : Bool) : RoundTrip.Statement (.remu d a b w) := by
  intro hwf W hw
  have hw : pack 0x040001E0 (strip [⟨d.toNat, 21, 5⟩, ⟨a.toNat, 16, 5⟩, ⟨b.toNat, 11, 5⟩, ⟨w.toNat, 0, 1⟩]) = W := Option.some.inj hw
  have ok : laidOut 0x040001E0 [(21, 5), (16, 5), (11, 5), (0, 1)] = true := by decide +kernel
  have ft : Fits [⟨d.toNat, 21, 5⟩, ⟨a.toNat, 16, 5⟩, ⟨b.toNat, 11, 5⟩, ⟨w.toNat, 0, 1⟩] := ⟨d.isLt, a.isLt, b.isLt, w.toNat_lt, trivial⟩
  have em : fld W 26 6 = 0x01 := read_const hw ok ft (show apart 26 6 [(21, 5), (16, 5), (11, 5), (0, 1)] = true by decide +kernel) (by decide +kernel)
  have ej : fld W 5 6 = 15 := read_const hw ok ft (show apart 5 6 [(21, 5), (16, 5), (11, 5), (0, 1)] = true by decide +kernel) (by decide +kernel)
  have ez1 : fld W 1 4 = 0 := read_const hw ok ft (show apart 1 4 [(21, 5), (16, 5), (11, 5), (0, 1)] = true by decide +kernel) (by decide +kernel)
  have ef1 : bv 5 W 21 = d := read_bv hw ok ft (.head _)
  have ef2 : bv 5 W 16 = a := read_bv hw ok ft (.tail _ (.head _))
  have ef3 : bv 5 W 11 = b := read_bv hw ok ft (.tail _ (.tail _ (.head _)))
  have ef4 : flag W 0 = w := read_flag hw ok ft (.tail _ (.tail _ (.tail _ (.head _))))
  refine ⟨hw ▸ pack_lt ok ft (show inWord [(21, 5), (16, 5), (11, 5), (0, 1)] = true by decide +kernel) (by decide +kernel), .core (.remu d a b w), ?_, rfl⟩
  rw [decodeNat_01 W em, decAlu]
  simp only [ej, ez1, ef1, ef2, ef3, ef4, zeros, List.all, beq_self_eq_true, Bool.and_self, if_true]

theorem RoundTrip.min (d : BitVec 5) (a : BitVec 5) (b : BitVec 5) (w : Bool) : RoundTrip.Statement (.min d a b w) := by
  intro hwf W hw
  have hw : pack 0x04000200 (strip [⟨d.toNat, 21, 5⟩, ⟨a.toNat, 16, 5⟩, ⟨b.toNat, 11, 5⟩, ⟨w.toNat, 0, 1⟩]) = W := Option.some.inj hw
  have ok : laidOut 0x04000200 [(21, 5), (16, 5), (11, 5), (0, 1)] = true := by decide +kernel
  have ft : Fits [⟨d.toNat, 21, 5⟩, ⟨a.toNat, 16, 5⟩, ⟨b.toNat, 11, 5⟩, ⟨w.toNat, 0, 1⟩] := ⟨d.isLt, a.isLt, b.isLt, w.toNat_lt, trivial⟩
  have em : fld W 26 6 = 0x01 := read_const hw ok ft (show apart 26 6 [(21, 5), (16, 5), (11, 5), (0, 1)] = true by decide +kernel) (by decide +kernel)
  have ej : fld W 5 6 = 16 := read_const hw ok ft (show apart 5 6 [(21, 5), (16, 5), (11, 5), (0, 1)] = true by decide +kernel) (by decide +kernel)
  have ez1 : fld W 1 4 = 0 := read_const hw ok ft (show apart 1 4 [(21, 5), (16, 5), (11, 5), (0, 1)] = true by decide +kernel) (by decide +kernel)
  have ef1 : bv 5 W 21 = d := read_bv hw ok ft (.head _)
  have ef2 : bv 5 W 16 = a := read_bv hw ok ft (.tail _ (.head _))
  have ef3 : bv 5 W 11 = b := read_bv hw ok ft (.tail _ (.tail _ (.head _)))
  have ef4 : flag W 0 = w := read_flag hw ok ft (.tail _ (.tail _ (.tail _ (.head _))))
  refine ⟨hw ▸ pack_lt ok ft (show inWord [(21, 5), (16, 5), (11, 5), (0, 1)] = true by decide +kernel) (by decide +kernel), .core (.min d a b w), ?_, rfl⟩
  rw [decodeNat_01 W em, decAlu]
  simp only [ej, ez1, ef1, ef2, ef3, ef4, zeros, List.all, beq_self_eq_true, Bool.and_self, if_true]

theorem RoundTrip.max (d : BitVec 5) (a : BitVec 5) (b : BitVec 5) (w : Bool) : RoundTrip.Statement (.max d a b w) := by
  intro hwf W hw
  have hw : pack 0x04000220 (strip [⟨d.toNat, 21, 5⟩, ⟨a.toNat, 16, 5⟩, ⟨b.toNat, 11, 5⟩, ⟨w.toNat, 0, 1⟩]) = W := Option.some.inj hw
  have ok : laidOut 0x04000220 [(21, 5), (16, 5), (11, 5), (0, 1)] = true := by decide +kernel
  have ft : Fits [⟨d.toNat, 21, 5⟩, ⟨a.toNat, 16, 5⟩, ⟨b.toNat, 11, 5⟩, ⟨w.toNat, 0, 1⟩] := ⟨d.isLt, a.isLt, b.isLt, w.toNat_lt, trivial⟩
  have em : fld W 26 6 = 0x01 := read_const hw ok ft (show apart 26 6 [(21, 5), (16, 5), (11, 5), (0, 1)] = true by decide +kernel) (by decide +kernel)
  have ej : fld W 5 6 = 17 := read_const hw ok ft (show apart 5 6 [(21, 5), (16, 5), (11, 5), (0, 1)] = true by decide +kernel) (by decide +kernel)
  have ez1 : fld W 1 4 = 0 := read_const hw ok ft (show apart 1 4 [(21, 5), (16, 5), (11, 5), (0, 1)] = true by decide +kernel) (by decide +kernel)
  have ef1 : bv 5 W 21 = d := read_bv hw ok ft (.head _)
  have ef2 : bv 5 W 16 = a := read_bv hw ok ft (.tail _ (.head _))
  have ef3 : bv 5 W 11 = b := read_bv hw ok ft (.tail _ (.tail _ (.head _)))
  have ef4 : flag W 0 = w := read_flag hw ok ft (.tail _ (.tail _ (.tail _ (.head _))))
  refine ⟨hw ▸ pack_lt ok ft (show inWord [(21, 5), (16, 5), (11, 5), (0, 1)] = true by decide +kernel) (by decide +kernel), .core (.max d a b w), ?_, rfl⟩
  rw [decodeNat_01 W em, decAlu]
  simp only [ej, ez1, ef1, ef2, ef3, ef4, zeros, List.all, beq_self_eq_true, Bool.and_self, if_true]

theorem RoundTrip.minu (d : BitVec 5) (a : BitVec 5) (b : BitVec 5) (w : Bool) : RoundTrip.Statement (.minu d a b w) := by
  intro hwf W hw
  have hw : pack 0x04000240 (strip [⟨d.toNat, 21, 5⟩, ⟨a.toNat, 16, 5⟩, ⟨b.toNat, 11, 5⟩, ⟨w.toNat, 0, 1⟩]) = W := Option.some.inj hw
  have ok : laidOut 0x04000240 [(21, 5), (16, 5), (11, 5), (0, 1)] = true := by decide +kernel
  have ft : Fits [⟨d.toNat, 21, 5⟩, ⟨a.toNat, 16, 5⟩, ⟨b.toNat, 11, 5⟩, ⟨w.toNat, 0, 1⟩] := ⟨d.isLt, a.isLt, b.isLt, w.toNat_lt, trivial⟩
  have em : fld W 26 6 = 0x01 := read_const hw ok ft (show apart 26 6 [(21, 5), (16, 5), (11, 5), (0, 1)] = true by decide +kernel) (by decide +kernel)
  have ej : fld W 5 6 = 18 := read_const hw ok ft (show apart 5 6 [(21, 5), (16, 5), (11, 5), (0, 1)] = true by decide +kernel) (by decide +kernel)
  have ez1 : fld W 1 4 = 0 := read_const hw ok ft (show apart 1 4 [(21, 5), (16, 5), (11, 5), (0, 1)] = true by decide +kernel) (by decide +kernel)
  have ef1 : bv 5 W 21 = d := read_bv hw ok ft (.head _)
  have ef2 : bv 5 W 16 = a := read_bv hw ok ft (.tail _ (.head _))
  have ef3 : bv 5 W 11 = b := read_bv hw ok ft (.tail _ (.tail _ (.head _)))
  have ef4 : flag W 0 = w := read_flag hw ok ft (.tail _ (.tail _ (.tail _ (.head _))))
  refine ⟨hw ▸ pack_lt ok ft (show inWord [(21, 5), (16, 5), (11, 5), (0, 1)] = true by decide +kernel) (by decide +kernel), .core (.minu d a b w), ?_, rfl⟩
  rw [decodeNat_01 W em, decAlu]
  simp only [ej, ez1, ef1, ef2, ef3, ef4, zeros, List.all, beq_self_eq_true, Bool.and_self, if_true]

theorem RoundTrip.maxu (d : BitVec 5) (a : BitVec 5) (b : BitVec 5) (w : Bool) : RoundTrip.Statement (.maxu d a b w) := by
  intro hwf W hw
  have hw : pack 0x04000260 (strip [⟨d.toNat, 21, 5⟩, ⟨a.toNat, 16, 5⟩, ⟨b.toNat, 11, 5⟩, ⟨w.toNat, 0, 1⟩]) = W := Option.some.inj hw
  have ok : laidOut 0x04000260 [(21, 5), (16, 5), (11, 5), (0, 1)] = true := by decide +kernel
  have ft : Fits [⟨d.toNat, 21, 5⟩, ⟨a.toNat, 16, 5⟩, ⟨b.toNat, 11, 5⟩, ⟨w.toNat, 0, 1⟩] := ⟨d.isLt, a.isLt, b.isLt, w.toNat_lt, trivial⟩
  have em : fld W 26 6 = 0x01 := read_const hw ok ft (show apart 26 6 [(21, 5), (16, 5), (11, 5), (0, 1)] = true by decide +kernel) (by decide +kernel)
  have ej : fld W 5 6 = 19 := read_const hw ok ft (show apart 5 6 [(21, 5), (16, 5), (11, 5), (0, 1)] = true by decide +kernel) (by decide +kernel)
  have ez1 : fld W 1 4 = 0 := read_const hw ok ft (show apart 1 4 [(21, 5), (16, 5), (11, 5), (0, 1)] = true by decide +kernel) (by decide +kernel)
  have ef1 : bv 5 W 21 = d := read_bv hw ok ft (.head _)
  have ef2 : bv 5 W 16 = a := read_bv hw ok ft (.tail _ (.head _))
  have ef3 : bv 5 W 11 = b := read_bv hw ok ft (.tail _ (.tail _ (.head _)))
  have ef4 : flag W 0 = w := read_flag hw ok ft (.tail _ (.tail _ (.tail _ (.head _))))
  refine ⟨hw ▸ pack_lt ok ft (show inWord [(21, 5), (16, 5), (11, 5), (0, 1)] = true by decide +kernel) (by decide +kernel), .core (.maxu d a b w), ?_, rfl⟩
  rw [decodeNat_01 W em, decAlu]
  simp only [ej, ez1, ef1, ef2, ef3, ef4, zeros, List.all, beq_self_eq_true, Bool.and_self, if_true]

theorem RoundTrip.ceq (d : BitVec 5) (a : BitVec 5) (b : BitVec 5) (w : Bool) : RoundTrip.Statement (.ceq d a b w) := by
  intro hwf W hw
  have hw : pack 0x04000280 (strip [⟨d.toNat, 21, 5⟩, ⟨a.toNat, 16, 5⟩, ⟨b.toNat, 11, 5⟩, ⟨w.toNat, 0, 1⟩]) = W := Option.some.inj hw
  have ok : laidOut 0x04000280 [(21, 5), (16, 5), (11, 5), (0, 1)] = true := by decide +kernel
  have ft : Fits [⟨d.toNat, 21, 5⟩, ⟨a.toNat, 16, 5⟩, ⟨b.toNat, 11, 5⟩, ⟨w.toNat, 0, 1⟩] := ⟨d.isLt, a.isLt, b.isLt, w.toNat_lt, trivial⟩
  have em : fld W 26 6 = 0x01 := read_const hw ok ft (show apart 26 6 [(21, 5), (16, 5), (11, 5), (0, 1)] = true by decide +kernel) (by decide +kernel)
  have ej : fld W 5 6 = 20 := read_const hw ok ft (show apart 5 6 [(21, 5), (16, 5), (11, 5), (0, 1)] = true by decide +kernel) (by decide +kernel)
  have ez1 : fld W 1 4 = 0 := read_const hw ok ft (show apart 1 4 [(21, 5), (16, 5), (11, 5), (0, 1)] = true by decide +kernel) (by decide +kernel)
  have ef1 : bv 5 W 21 = d := read_bv hw ok ft (.head _)
  have ef2 : bv 5 W 16 = a := read_bv hw ok ft (.tail _ (.head _))
  have ef3 : bv 5 W 11 = b := read_bv hw ok ft (.tail _ (.tail _ (.head _)))
  have ef4 : flag W 0 = w := read_flag hw ok ft (.tail _ (.tail _ (.tail _ (.head _))))
  refine ⟨hw ▸ pack_lt ok ft (show inWord [(21, 5), (16, 5), (11, 5), (0, 1)] = true by decide +kernel) (by decide +kernel), .core (.ceq d a b w), ?_, rfl⟩
  rw [decodeNat_01 W em, decAlu]
  simp only [ej, ez1, ef1, ef2, ef3, ef4, zeros, List.all, beq_self_eq_true, Bool.and_self, if_true]

theorem RoundTrip.cne (d : BitVec 5) (a : BitVec 5) (b : BitVec 5) (w : Bool) : RoundTrip.Statement (.cne d a b w) := by
  intro hwf W hw
  have hw : pack 0x040002A0 (strip [⟨d.toNat, 21, 5⟩, ⟨a.toNat, 16, 5⟩, ⟨b.toNat, 11, 5⟩, ⟨w.toNat, 0, 1⟩]) = W := Option.some.inj hw
  have ok : laidOut 0x040002A0 [(21, 5), (16, 5), (11, 5), (0, 1)] = true := by decide +kernel
  have ft : Fits [⟨d.toNat, 21, 5⟩, ⟨a.toNat, 16, 5⟩, ⟨b.toNat, 11, 5⟩, ⟨w.toNat, 0, 1⟩] := ⟨d.isLt, a.isLt, b.isLt, w.toNat_lt, trivial⟩
  have em : fld W 26 6 = 0x01 := read_const hw ok ft (show apart 26 6 [(21, 5), (16, 5), (11, 5), (0, 1)] = true by decide +kernel) (by decide +kernel)
  have ej : fld W 5 6 = 21 := read_const hw ok ft (show apart 5 6 [(21, 5), (16, 5), (11, 5), (0, 1)] = true by decide +kernel) (by decide +kernel)
  have ez1 : fld W 1 4 = 0 := read_const hw ok ft (show apart 1 4 [(21, 5), (16, 5), (11, 5), (0, 1)] = true by decide +kernel) (by decide +kernel)
  have ef1 : bv 5 W 21 = d := read_bv hw ok ft (.head _)
  have ef2 : bv 5 W 16 = a := read_bv hw ok ft (.tail _ (.head _))
  have ef3 : bv 5 W 11 = b := read_bv hw ok ft (.tail _ (.tail _ (.head _)))
  have ef4 : flag W 0 = w := read_flag hw ok ft (.tail _ (.tail _ (.tail _ (.head _))))
  refine ⟨hw ▸ pack_lt ok ft (show inWord [(21, 5), (16, 5), (11, 5), (0, 1)] = true by decide +kernel) (by decide +kernel), .core (.cne d a b w), ?_, rfl⟩
  rw [decodeNat_01 W em, decAlu]
  simp only [ej, ez1, ef1, ef2, ef3, ef4, zeros, List.all, beq_self_eq_true, Bool.and_self, if_true]

theorem RoundTrip.clt (d : BitVec 5) (a : BitVec 5) (b : BitVec 5) (w : Bool) : RoundTrip.Statement (.clt d a b w) := by
  intro hwf W hw
  have hw : pack 0x040002C0 (strip [⟨d.toNat, 21, 5⟩, ⟨a.toNat, 16, 5⟩, ⟨b.toNat, 11, 5⟩, ⟨w.toNat, 0, 1⟩]) = W := Option.some.inj hw
  have ok : laidOut 0x040002C0 [(21, 5), (16, 5), (11, 5), (0, 1)] = true := by decide +kernel
  have ft : Fits [⟨d.toNat, 21, 5⟩, ⟨a.toNat, 16, 5⟩, ⟨b.toNat, 11, 5⟩, ⟨w.toNat, 0, 1⟩] := ⟨d.isLt, a.isLt, b.isLt, w.toNat_lt, trivial⟩
  have em : fld W 26 6 = 0x01 := read_const hw ok ft (show apart 26 6 [(21, 5), (16, 5), (11, 5), (0, 1)] = true by decide +kernel) (by decide +kernel)
  have ej : fld W 5 6 = 22 := read_const hw ok ft (show apart 5 6 [(21, 5), (16, 5), (11, 5), (0, 1)] = true by decide +kernel) (by decide +kernel)
  have ez1 : fld W 1 4 = 0 := read_const hw ok ft (show apart 1 4 [(21, 5), (16, 5), (11, 5), (0, 1)] = true by decide +kernel) (by decide +kernel)
  have ef1 : bv 5 W 21 = d := read_bv hw ok ft (.head _)
  have ef2 : bv 5 W 16 = a := read_bv hw ok ft (.tail _ (.head _))
  have ef3 : bv 5 W 11 = b := read_bv hw ok ft (.tail _ (.tail _ (.head _)))
  have ef4 : flag W 0 = w := read_flag hw ok ft (.tail _ (.tail _ (.tail _ (.head _))))
  refine ⟨hw ▸ pack_lt ok ft (show inWord [(21, 5), (16, 5), (11, 5), (0, 1)] = true by decide +kernel) (by decide +kernel), .core (.clt d a b w), ?_, rfl⟩
  rw [decodeNat_01 W em, decAlu]
  simp only [ej, ez1, ef1, ef2, ef3, ef4, zeros, List.all, beq_self_eq_true, Bool.and_self, if_true]

theorem RoundTrip.cltu (d : BitVec 5) (a : BitVec 5) (b : BitVec 5) (w : Bool) : RoundTrip.Statement (.cltu d a b w) := by
  intro hwf W hw
  have hw : pack 0x040002E0 (strip [⟨d.toNat, 21, 5⟩, ⟨a.toNat, 16, 5⟩, ⟨b.toNat, 11, 5⟩, ⟨w.toNat, 0, 1⟩]) = W := Option.some.inj hw
  have ok : laidOut 0x040002E0 [(21, 5), (16, 5), (11, 5), (0, 1)] = true := by decide +kernel
  have ft : Fits [⟨d.toNat, 21, 5⟩, ⟨a.toNat, 16, 5⟩, ⟨b.toNat, 11, 5⟩, ⟨w.toNat, 0, 1⟩] := ⟨d.isLt, a.isLt, b.isLt, w.toNat_lt, trivial⟩
  have em : fld W 26 6 = 0x01 := read_const hw ok ft (show apart 26 6 [(21, 5), (16, 5), (11, 5), (0, 1)] = true by decide +kernel) (by decide +kernel)
  have ej : fld W 5 6 = 23 := read_const hw ok ft (show apart 5 6 [(21, 5), (16, 5), (11, 5), (0, 1)] = true by decide +kernel) (by decide +kernel)
  have ez1 : fld W 1 4 = 0 := read_const hw ok ft (show apart 1 4 [(21, 5), (16, 5), (11, 5), (0, 1)] = true by decide +kernel) (by decide +kernel)
  have ef1 : bv 5 W 21 = d := read_bv hw ok ft (.head _)
  have ef2 : bv 5 W 16 = a := read_bv hw ok ft (.tail _ (.head _))
  have ef3 : bv 5 W 11 = b := read_bv hw ok ft (.tail _ (.tail _ (.head _)))
  have ef4 : flag W 0 = w := read_flag hw ok ft (.tail _ (.tail _ (.tail _ (.head _))))
  refine ⟨hw ▸ pack_lt ok ft (show inWord [(21, 5), (16, 5), (11, 5), (0, 1)] = true by decide +kernel) (by decide +kernel), .core (.cltu d a b w), ?_, rfl⟩
  rw [decodeNat_01 W em, decAlu]
  simp only [ej, ez1, ef1, ef2, ef3, ef4, zeros, List.all, beq_self_eq_true, Bool.and_self, if_true]

theorem RoundTrip.cle (d : BitVec 5) (a : BitVec 5) (b : BitVec 5) (w : Bool) : RoundTrip.Statement (.cle d a b w) := by
  intro hwf W hw
  have hw : pack 0x04000300 (strip [⟨d.toNat, 21, 5⟩, ⟨a.toNat, 16, 5⟩, ⟨b.toNat, 11, 5⟩, ⟨w.toNat, 0, 1⟩]) = W := Option.some.inj hw
  have ok : laidOut 0x04000300 [(21, 5), (16, 5), (11, 5), (0, 1)] = true := by decide +kernel
  have ft : Fits [⟨d.toNat, 21, 5⟩, ⟨a.toNat, 16, 5⟩, ⟨b.toNat, 11, 5⟩, ⟨w.toNat, 0, 1⟩] := ⟨d.isLt, a.isLt, b.isLt, w.toNat_lt, trivial⟩
  have em : fld W 26 6 = 0x01 := read_const hw ok ft (show apart 26 6 [(21, 5), (16, 5), (11, 5), (0, 1)] = true by decide +kernel) (by decide +kernel)
  have ej : fld W 5 6 = 24 := read_const hw ok ft (show apart 5 6 [(21, 5), (16, 5), (11, 5), (0, 1)] = true by decide +kernel) (by decide +kernel)
  have ez1 : fld W 1 4 = 0 := read_const hw ok ft (show apart 1 4 [(21, 5), (16, 5), (11, 5), (0, 1)] = true by decide +kernel) (by decide +kernel)
  have ef1 : bv 5 W 21 = d := read_bv hw ok ft (.head _)
  have ef2 : bv 5 W 16 = a := read_bv hw ok ft (.tail _ (.head _))
  have ef3 : bv 5 W 11 = b := read_bv hw ok ft (.tail _ (.tail _ (.head _)))
  have ef4 : flag W 0 = w := read_flag hw ok ft (.tail _ (.tail _ (.tail _ (.head _))))
  refine ⟨hw ▸ pack_lt ok ft (show inWord [(21, 5), (16, 5), (11, 5), (0, 1)] = true by decide +kernel) (by decide +kernel), .core (.cle d a b w), ?_, rfl⟩
  rw [decodeNat_01 W em, decAlu]
  simp only [ej, ez1, ef1, ef2, ef3, ef4, zeros, List.all, beq_self_eq_true, Bool.and_self, if_true]

theorem RoundTrip.cleu (d : BitVec 5) (a : BitVec 5) (b : BitVec 5) (w : Bool) : RoundTrip.Statement (.cleu d a b w) := by
  intro hwf W hw
  have hw : pack 0x04000320 (strip [⟨d.toNat, 21, 5⟩, ⟨a.toNat, 16, 5⟩, ⟨b.toNat, 11, 5⟩, ⟨w.toNat, 0, 1⟩]) = W := Option.some.inj hw
  have ok : laidOut 0x04000320 [(21, 5), (16, 5), (11, 5), (0, 1)] = true := by decide +kernel
  have ft : Fits [⟨d.toNat, 21, 5⟩, ⟨a.toNat, 16, 5⟩, ⟨b.toNat, 11, 5⟩, ⟨w.toNat, 0, 1⟩] := ⟨d.isLt, a.isLt, b.isLt, w.toNat_lt, trivial⟩
  have em : fld W 26 6 = 0x01 := read_const hw ok ft (show apart 26 6 [(21, 5), (16, 5), (11, 5), (0, 1)] = true by decide +kernel) (by decide +kernel)
  have ej : fld W 5 6 = 25 := read_const hw ok ft (show apart 5 6 [(21, 5), (16, 5), (11, 5), (0, 1)] = true by decide +kernel) (by decide +kernel)
  have ez1 : fld W 1 4 = 0 := read_const hw ok ft (show apart 1 4 [(21, 5), (16, 5), (11, 5), (0, 1)] = true by decide +kernel) (by decide +kernel)
  have ef1 : bv 5 W 21 = d := read_bv hw ok ft (.head _)
  have ef2 : bv 5 W 16 = a := read_bv hw ok ft (.tail _ (.head _))
  have ef3 : bv 5 W 11 = b := read_bv hw ok ft (.tail _ (.tail _ (.head _)))
  have ef4 : flag W 0 = w := read_flag hw ok ft (.tail _ (.tail _ (.tail _ (.head _))))
  refine ⟨hw ▸ pack_lt ok ft (show inWord [(21, 5), (16, 5), (11, 5), (0, 1)] = true by decide +kernel) (by decide +kernel), .core (.cleu d a b w), ?_, rfl⟩
  rw [decodeNat_01 W em, decAlu]
  simp only [ej, ez1, ef1, ef2, ef3, ef4, zeros, List.all, beq_self_eq_true, Bool.and_self, if_true]

theorem RoundTrip.clz (d : BitVec 5) (a : BitVec 5) (w : Bool) : RoundTrip.Statement (.clz d a w) := by
  intro hwf W hw
  have hw : pack 0x04000340 (strip [⟨d.toNat, 21, 5⟩, ⟨a.toNat, 16, 5⟩, ⟨w.toNat, 0, 1⟩]) = W := Option.some.inj hw
  have ok : laidOut 0x04000340 [(21, 5), (16, 5), (0, 1)] = true := by decide +kernel
  have ft : Fits [⟨d.toNat, 21, 5⟩, ⟨a.toNat, 16, 5⟩, ⟨w.toNat, 0, 1⟩] := ⟨d.isLt, a.isLt, w.toNat_lt, trivial⟩
  have em : fld W 26 6 = 0x01 := read_const hw ok ft (show apart 26 6 [(21, 5), (16, 5), (0, 1)] = true by decide +kernel) (by decide +kernel)
  have ej : fld W 5 6 = 26 := read_const hw ok ft (show apart 5 6 [(21, 5), (16, 5), (0, 1)] = true by decide +kernel) (by decide +kernel)
  have ez1 : fld W 1 4 = 0 := read_const hw ok ft (show apart 1 4 [(21, 5), (16, 5), (0, 1)] = true by decide +kernel) (by decide +kernel)
  have ez2 : fld W 11 5 = 0 := read_const hw ok ft (show apart 11 5 [(21, 5), (16, 5), (0, 1)] = true by decide +kernel) (by decide +kernel)
  have ef1 : bv 5 W 21 = d := read_bv hw ok ft (.head _)
  have ef2 : bv 5 W 16 = a := read_bv hw ok ft (.tail _ (.head _))
  have ef3 : flag W 0 = w := read_flag hw ok ft (.tail _ (.tail _ (.head _)))
  refine ⟨hw ▸ pack_lt ok ft (show inWord [(21, 5), (16, 5), (0, 1)] = true by decide +kernel) (by decide +kernel), .core (.clz d a w), ?_, rfl⟩
  rw [decodeNat_01 W em, decAlu]
  simp only [ej, ez1, ez2, ef1, ef2, ef3, zeros, List.all, beq_self_eq_true, Bool.and_self, if_true]

theorem RoundTrip.ctz (d : BitVec 5) (a : BitVec 5) (w : Bool) : RoundTrip.Statement (.ctz d a w) := by
  intro hwf W hw
  have hw : pack 0x04000360 (strip [⟨d.toNat, 21, 5⟩, ⟨a.toNat, 16, 5⟩, ⟨w.toNat, 0, 1⟩]) = W := Option.some.inj hw
  have ok : laidOut 0x04000360 [(21, 5), (16, 5), (0, 1)] = true := by decide +kernel
  have ft : Fits [⟨d.toNat, 21, 5⟩, ⟨a.toNat, 16, 5⟩, ⟨w.toNat, 0, 1⟩] := ⟨d.isLt, a.isLt, w.toNat_lt, trivial⟩
  have em : fld W 26 6 = 0x01 := read_const hw ok ft (show apart 26 6 [(21, 5), (16, 5), (0, 1)] = true by decide +kernel) (by decide +kernel)
  have ej : fld W 5 6 = 27 := read_const hw ok ft (show apart 5 6 [(21, 5), (16, 5), (0, 1)] = true by decide +kernel) (by decide +kernel)
  have ez1 : fld W 1 4 = 0 := read_const hw ok ft (show apart 1 4 [(21, 5), (16, 5), (0, 1)] = true by decide +kernel) (by decide +kernel)
  have ez2 : fld W 11 5 = 0 := read_const hw ok ft (show apart 11 5 [(21, 5), (16, 5), (0, 1)] = true by decide +kernel) (by decide +kernel)
  have ef1 : bv 5 W 21 = d := read_bv hw ok ft (.head _)
  have ef2 : bv 5 W 16 = a := read_bv hw ok ft (.tail _ (.head _))
  have ef3 : flag W 0 = w := read_flag hw ok ft (.tail _ (.tail _ (.head _)))
  refine ⟨hw ▸ pack_lt ok ft (show inWord [(21, 5), (16, 5), (0, 1)] = true by decide +kernel) (by decide +kernel), .core (.ctz d a w), ?_, rfl⟩
  rw [decodeNat_01 W em, decAlu]
  simp only [ej, ez1, ez2, ef1, ef2, ef3, zeros, List.all, beq_self_eq_true, Bool.and_self, if_true]

theorem RoundTrip.popc (d : BitVec 5) (a : BitVec 5) (w : Bool) : RoundTrip.Statement (.popc d a w) := by
  intro hwf W hw
  have hw : pack 0x04000380 (strip [⟨d.toNat, 21, 5⟩, ⟨a.toNat, 16, 5⟩, ⟨w.toNat, 0, 1⟩]) = W := Option.some.inj hw
  have ok : laidOut 0x04000380 [(21, 5), (16, 5), (0, 1)] = true := by decide +kernel
  have ft : Fits [⟨d.toNat, 21, 5⟩, ⟨a.toNat, 16, 5⟩, ⟨w.toNat, 0, 1⟩] := ⟨d.isLt, a.isLt, w.toNat_lt, trivial⟩
  have em : fld W 26 6 = 0x01 := read_const hw ok ft (show apart 26 6 [(21, 5), (16, 5), (0, 1)] = true by decide +kernel) (by decide +kernel)
  have ej : fld W 5 6 = 28 := read_const hw ok ft (show apart 5 6 [(21, 5), (16, 5), (0, 1)] = true by decide +kernel) (by decide +kernel)
  have ez1 : fld W 1 4 = 0 := read_const hw ok ft (show apart 1 4 [(21, 5), (16, 5), (0, 1)] = true by decide +kernel) (by decide +kernel)
  have ez2 : fld W 11 5 = 0 := read_const hw ok ft (show apart 11 5 [(21, 5), (16, 5), (0, 1)] = true by decide +kernel) (by decide +kernel)
  have ef1 : bv 5 W 21 = d := read_bv hw ok ft (.head _)
  have ef2 : bv 5 W 16 = a := read_bv hw ok ft (.tail _ (.head _))
  have ef3 : flag W 0 = w := read_flag hw ok ft (.tail _ (.tail _ (.head _)))
  refine ⟨hw ▸ pack_lt ok ft (show inWord [(21, 5), (16, 5), (0, 1)] = true by decide +kernel) (by decide +kernel), .core (.popc d a w), ?_, rfl⟩
  rw [decodeNat_01 W em, decAlu]
  simp only [ej, ez1, ez2, ef1, ef2, ef3, zeros, List.all, beq_self_eq_true, Bool.and_self, if_true]

theorem RoundTrip.padd (d : BitVec 5) (a : BitVec 5) (b : BitVec 5) : RoundTrip.Statement (.padd d a b) := by
  intro hwf W hw
  have hw : pack 0x040003A0 (strip [⟨d.toNat, 21, 5⟩, ⟨a.toNat, 16, 5⟩, ⟨b.toNat, 11, 5⟩]) = W := Option.some.inj hw
  have ok : laidOut 0x040003A0 [(21, 5), (16, 5), (11, 5)] = true := by decide +kernel
  have ft : Fits [⟨d.toNat, 21, 5⟩, ⟨a.toNat, 16, 5⟩, ⟨b.toNat, 11, 5⟩] := ⟨d.isLt, a.isLt, b.isLt, trivial⟩
  have em : fld W 26 6 = 0x01 := read_const hw ok ft (show apart 26 6 [(21, 5), (16, 5), (11, 5)] = true by decide +kernel) (by decide +kernel)
  have ej : fld W 5 6 = 29 := read_const hw ok ft (show apart 5 6 [(21, 5), (16, 5), (11, 5)] = true by decide +kernel) (by decide +kernel)
  have ez1 : fld W 1 4 = 0 := read_const hw ok ft (show apart 1 4 [(21, 5), (16, 5), (11, 5)] = true by decide +kernel) (by decide +kernel)
  have ez2 : fld W 0 1 = 0 := read_const hw ok ft (show apart 0 1 [(21, 5), (16, 5), (11, 5)] = true by decide +kernel) (by decide +kernel)
  have ef1 : bv 5 W 21 = d := read_bv hw ok ft (.head _)
  have ef2 : bv 5 W 16 = a := read_bv hw ok ft (.tail _ (.head _))
  have ef3 : bv 5 W 11 = b := read_bv hw ok ft (.tail _ (.tail _ (.head _)))
  refine ⟨hw ▸ pack_lt ok ft (show inWord [(21, 5), (16, 5), (11, 5)] = true by decide +kernel) (by decide +kernel), .core (.padd d a b), ?_, rfl⟩
  rw [decodeNat_01 W em, decAlu]
  simp only [ej, ez1, ez2, ef1, ef2, ef3, zeros, List.all, beq_self_eq_true, Bool.and_self, if_true]

theorem RoundTrip.ptag (d : BitVec 5) (a : BitVec 5) : RoundTrip.Statement (.ptag d a) := by
  intro hwf W hw
  have hw : pack 0x040003C0 (strip [⟨d.toNat, 21, 5⟩, ⟨a.toNat, 16, 5⟩]) = W := Option.some.inj hw
  have ok : laidOut 0x040003C0 [(21, 5), (16, 5)] = true := by decide +kernel
  have ft : Fits [⟨d.toNat, 21, 5⟩, ⟨a.toNat, 16, 5⟩] := ⟨d.isLt, a.isLt, trivial⟩
  have em : fld W 26 6 = 0x01 := read_const hw ok ft (show apart 26 6 [(21, 5), (16, 5)] = true by decide +kernel) (by decide +kernel)
  have ej : fld W 5 6 = 30 := read_const hw ok ft (show apart 5 6 [(21, 5), (16, 5)] = true by decide +kernel) (by decide +kernel)
  have ez1 : fld W 1 4 = 0 := read_const hw ok ft (show apart 1 4 [(21, 5), (16, 5)] = true by decide +kernel) (by decide +kernel)
  have ez2 : fld W 11 5 = 0 := read_const hw ok ft (show apart 11 5 [(21, 5), (16, 5)] = true by decide +kernel) (by decide +kernel)
  have ez3 : fld W 0 1 = 0 := read_const hw ok ft (show apart 0 1 [(21, 5), (16, 5)] = true by decide +kernel) (by decide +kernel)
  have ef1 : bv 5 W 21 = d := read_bv hw ok ft (.head _)
  have ef2 : bv 5 W 16 = a := read_bv hw ok ft (.tail _ (.head _))
  refine ⟨hw ▸ pack_lt ok ft (show inWord [(21, 5), (16, 5)] = true by decide +kernel) (by decide +kernel), .core (.ptag d a), ?_, rfl⟩
  rw [decodeNat_01 W em, decAlu]
  simp only [ej, ez1, ez2, ez3, ef1, ef2, zeros, List.all, beq_self_eq_true, Bool.and_self, if_true]

theorem RoundTrip.psett (d : BitVec 5) (a : BitVec 5) (b : BitVec 5) : RoundTrip.Statement (.psett d a b) := by
  intro hwf W hw
  have hw : pack 0x040003E0 (strip [⟨d.toNat, 21, 5⟩, ⟨a.toNat, 16, 5⟩, ⟨b.toNat, 11, 5⟩]) = W := Option.some.inj hw
  have ok : laidOut 0x040003E0 [(21, 5), (16, 5), (11, 5)] = true := by decide +kernel
  have ft : Fits [⟨d.toNat, 21, 5⟩, ⟨a.toNat, 16, 5⟩, ⟨b.toNat, 11, 5⟩] := ⟨d.isLt, a.isLt, b.isLt, trivial⟩
  have em : fld W 26 6 = 0x01 := read_const hw ok ft (show apart 26 6 [(21, 5), (16, 5), (11, 5)] = true by decide +kernel) (by decide +kernel)
  have ej : fld W 5 6 = 31 := read_const hw ok ft (show apart 5 6 [(21, 5), (16, 5), (11, 5)] = true by decide +kernel) (by decide +kernel)
  have ez1 : fld W 1 4 = 0 := read_const hw ok ft (show apart 1 4 [(21, 5), (16, 5), (11, 5)] = true by decide +kernel) (by decide +kernel)
  have ez2 : fld W 0 1 = 0 := read_const hw ok ft (show apart 0 1 [(21, 5), (16, 5), (11, 5)] = true by decide +kernel) (by decide +kernel)
  have ef1 : bv 5 W 21 = d := read_bv hw ok ft (.head _)
  have ef2 : bv 5 W 16 = a := read_bv hw ok ft (.tail _ (.head _))
  have ef3 : bv 5 W 11 = b := read_bv hw ok ft (.tail _ (.tail _ (.head _)))
  refine ⟨hw ▸ pack_lt ok ft (show inWord [(21, 5), (16, 5), (11, 5)] = true by decide +kernel) (by decide +kernel), .core (.psett d a b), ?_, rfl⟩
  rw [decodeNat_01 W em, decAlu]
  simp only [ej, ez1, ez2, ef1, ef2, ef3, zeros, List.all, beq_self_eq_true, Bool.and_self, if_true]

theorem RoundTrip.cmovnz (d : BitVec 5) (a : BitVec 5) (b : BitVec 5) : RoundTrip.Statement (.cmovnz d a b) := by
  intro hwf W hw
  have hw : pack 0x04000400 (strip [⟨d.toNat, 21, 5⟩, ⟨a.toNat, 16, 5⟩, ⟨b.toNat, 11, 5⟩]) = W := Option.some.inj hw
  have ok : laidOut 0x04000400 [(21, 5), (16, 5), (11, 5)] = true := by decide +kernel
  have ft : Fits [⟨d.toNat, 21, 5⟩, ⟨a.toNat, 16, 5⟩, ⟨b.toNat, 11, 5⟩] := ⟨d.isLt, a.isLt, b.isLt, trivial⟩
  have em : fld W 26 6 = 0x01 := read_const hw ok ft (show apart 26 6 [(21, 5), (16, 5), (11, 5)] = true by decide +kernel) (by decide +kernel)
  have ej : fld W 5 6 = 32 := read_const hw ok ft (show apart 5 6 [(21, 5), (16, 5), (11, 5)] = true by decide +kernel) (by decide +kernel)
  have ez1 : fld W 1 4 = 0 := read_const hw ok ft (show apart 1 4 [(21, 5), (16, 5), (11, 5)] = true by decide +kernel) (by decide +kernel)
  have ez2 : fld W 0 1 = 0 := read_const hw ok ft (show apart 0 1 [(21, 5), (16, 5), (11, 5)] = true by decide +kernel) (by decide +kernel)
  have ef1 : bv 5 W 21 = d := read_bv hw ok ft (.head _)
  have ef2 : bv 5 W 16 = a := read_bv hw ok ft (.tail _ (.head _))
  have ef3 : bv 5 W 11 = b := read_bv hw ok ft (.tail _ (.tail _ (.head _)))
  refine ⟨hw ▸ pack_lt ok ft (show inWord [(21, 5), (16, 5), (11, 5)] = true by decide +kernel) (by decide +kernel), .core (.cmovnz d a b), ?_, rfl⟩
  rw [decodeNat_01 W em, decAlu]
  simp only [ej, ez1, ez2, ef1, ef2, ef3, zeros, List.all, beq_self_eq_true, Bool.and_self, if_true]

theorem RoundTrip.cmovz (d : BitVec 5) (a : BitVec 5) (b : BitVec 5) : RoundTrip.Statement (.cmovz d a b) := by
  intro hwf W hw
  have hw : pack 0x04000420 (strip [⟨d.toNat, 21, 5⟩, ⟨a.toNat, 16, 5⟩, ⟨b.toNat, 11, 5⟩]) = W := Option.some.inj hw
  have ok : laidOut 0x04000420 [(21, 5), (16, 5), (11, 5)] = true := by decide +kernel
  have ft : Fits [⟨d.toNat, 21, 5⟩, ⟨a.toNat, 16, 5⟩, ⟨b.toNat, 11, 5⟩] := ⟨d.isLt, a.isLt, b.isLt, trivial⟩
  have em : fld W 26 6 = 0x01 := read_const hw ok ft (show apart 26 6 [(21, 5), (16, 5), (11, 5)] = true by decide +kernel) (by decide +kernel)
  have ej : fld W 5 6 = 33 := read_const hw ok ft (show apart 5 6 [(21, 5), (16, 5), (11, 5)] = true by decide +kernel) (by decide +kernel)
  have ez1 : fld W 1 4 = 0 := read_const hw ok ft (show apart 1 4 [(21, 5), (16, 5), (11, 5)] = true by decide +kernel) (by decide +kernel)
  have ez2 : fld W 0 1 = 0 := read_const hw ok ft (show apart 0 1 [(21, 5), (16, 5), (11, 5)] = true by decide +kernel) (by decide +kernel)
  have ef1 : bv 5 W 21 = d := read_bv hw ok ft (.head _)
  have ef2 : bv 5 W 16 = a := read_bv hw ok ft (.tail _ (.head _))
  have ef3 : bv 5 W 11 = b := read_bv hw ok ft (.tail _ (.tail _ (.head _)))
  refine ⟨hw ▸ pack_lt ok ft (show inWord [(21, 5), (16, 5), (11, 5)] = true by decide +kernel) (by decide +kernel), .core (.cmovz d a b), ?_, rfl⟩
  rw [decodeNat_01 W em, decAlu]
  simp only [ej, ez1, ez2, ef1, ef2, ef3, zeros, List.all, beq_self_eq_true, Bool.and_self, if_true]

theorem RoundTrip.addi (d : BitVec 5) (a : BitVec 5) (i : BitVec 12) : RoundTrip.Statement (.addi d a i) := by
  intro hwf W hw
  have hw : pack 0x08000000 (strip [⟨d.toNat, 21, 5⟩, ⟨a.toNat, 16, 5⟩, ⟨i.toNat, 0, 12⟩]) = W := Option.some.inj hw
  have ok : laidOut 0x08000000 [(21, 5), (16, 5), (0, 12)] = true := by decide +kernel
  have ft : Fits [⟨d.toNat, 21, 5⟩, ⟨a.toNat, 16, 5⟩, ⟨i.toNat, 0, 12⟩] := ⟨d.isLt, a.isLt, i.isLt, trivial⟩
  have em : fld W 26 6 = 0x02 := read_const hw ok ft (show apart 26 6 [(21, 5), (16, 5), (0, 12)] = true by decide +kernel) (by decide +kernel)
  have ej : fld W 12 4 = 0 := read_const hw ok ft (show apart 12 4 [(21, 5), (16, 5), (0, 12)] = true by decide +kernel) (by decide +kernel)
  have ef1 : bv 5 W 21 = d := read_bv hw ok ft (.head _)
  have ef2 : bv 5 W 16 = a := read_bv hw ok ft (.tail _ (.head _))
  have ef3 : bv 12 W 0 = i := read_bv hw ok ft (.tail _ (.tail _ (.head _)))
  refine ⟨hw ▸ pack_lt ok ft (show inWord [(21, 5), (16, 5), (0, 12)] = true by decide +kernel) (by decide +kernel), .core (.addi d a i), ?_, rfl⟩
  rw [decodeNat_02 W em, decAlui]
  simp only [ej, ef1, ef2, ef3]

theorem RoundTrip.andi (d : BitVec 5) (a : BitVec 5) (i : BitVec 12) : RoundTrip.Statement (.andi d a i) := by
  intro hwf W hw
  have hw : pack 0x08001000 (strip [⟨d.toNat, 21, 5⟩, ⟨a.toNat, 16, 5⟩, ⟨i.toNat, 0, 12⟩]) = W := Option.some.inj hw
  have ok : laidOut 0x08001000 [(21, 5), (16, 5), (0, 12)] = true := by decide +kernel
  have ft : Fits [⟨d.toNat, 21, 5⟩, ⟨a.toNat, 16, 5⟩, ⟨i.toNat, 0, 12⟩] := ⟨d.isLt, a.isLt, i.isLt, trivial⟩
  have em : fld W 26 6 = 0x02 := read_const hw ok ft (show apart 26 6 [(21, 5), (16, 5), (0, 12)] = true by decide +kernel) (by decide +kernel)
  have ej : fld W 12 4 = 1 := read_const hw ok ft (show apart 12 4 [(21, 5), (16, 5), (0, 12)] = true by decide +kernel) (by decide +kernel)
  have ef1 : bv 5 W 21 = d := read_bv hw ok ft (.head _)
  have ef2 : bv 5 W 16 = a := read_bv hw ok ft (.tail _ (.head _))
  have ef3 : bv 12 W 0 = i := read_bv hw ok ft (.tail _ (.tail _ (.head _)))
  refine ⟨hw ▸ pack_lt ok ft (show inWord [(21, 5), (16, 5), (0, 12)] = true by decide +kernel) (by decide +kernel), .core (.andi d a i), ?_, rfl⟩
  rw [decodeNat_02 W em, decAlui]
  simp only [ej, ef1, ef2, ef3]

theorem RoundTrip.ori (d : BitVec 5) (a : BitVec 5) (i : BitVec 12) : RoundTrip.Statement (.ori d a i) := by
  intro hwf W hw
  have hw : pack 0x08002000 (strip [⟨d.toNat, 21, 5⟩, ⟨a.toNat, 16, 5⟩, ⟨i.toNat, 0, 12⟩]) = W := Option.some.inj hw
  have ok : laidOut 0x08002000 [(21, 5), (16, 5), (0, 12)] = true := by decide +kernel
  have ft : Fits [⟨d.toNat, 21, 5⟩, ⟨a.toNat, 16, 5⟩, ⟨i.toNat, 0, 12⟩] := ⟨d.isLt, a.isLt, i.isLt, trivial⟩
  have em : fld W 26 6 = 0x02 := read_const hw ok ft (show apart 26 6 [(21, 5), (16, 5), (0, 12)] = true by decide +kernel) (by decide +kernel)
  have ej : fld W 12 4 = 2 := read_const hw ok ft (show apart 12 4 [(21, 5), (16, 5), (0, 12)] = true by decide +kernel) (by decide +kernel)
  have ef1 : bv 5 W 21 = d := read_bv hw ok ft (.head _)
  have ef2 : bv 5 W 16 = a := read_bv hw ok ft (.tail _ (.head _))
  have ef3 : bv 12 W 0 = i := read_bv hw ok ft (.tail _ (.tail _ (.head _)))
  refine ⟨hw ▸ pack_lt ok ft (show inWord [(21, 5), (16, 5), (0, 12)] = true by decide +kernel) (by decide +kernel), .core (.ori d a i), ?_, rfl⟩
  rw [decodeNat_02 W em, decAlui]
  simp only [ej, ef1, ef2, ef3]

theorem RoundTrip.xori (d : BitVec 5) (a : BitVec 5) (i : BitVec 12) : RoundTrip.Statement (.xori d a i) := by
  intro hwf W hw
  have hw : pack 0x08003000 (strip [⟨d.toNat, 21, 5⟩, ⟨a.toNat, 16, 5⟩, ⟨i.toNat, 0, 12⟩]) = W := Option.some.inj hw
  have ok : laidOut 0x08003000 [(21, 5), (16, 5), (0, 12)] = true := by decide +kernel
  have ft : Fits [⟨d.toNat, 21, 5⟩, ⟨a.toNat, 16, 5⟩, ⟨i.toNat, 0, 12⟩] := ⟨d.isLt, a.isLt, i.isLt, trivial⟩
  have em : fld W 26 6 = 0x02 := read_const hw ok ft (show apart 26 6 [(21, 5), (16, 5), (0, 12)] = true by decide +kernel) (by decide +kernel)
  have ej : fld W 12 4 = 3 := read_const hw ok ft (show apart 12 4 [(21, 5), (16, 5), (0, 12)] = true by decide +kernel) (by decide +kernel)
  have ef1 : bv 5 W 21 = d := read_bv hw ok ft (.head _)
  have ef2 : bv 5 W 16 = a := read_bv hw ok ft (.tail _ (.head _))
  have ef3 : bv 12 W 0 = i := read_bv hw ok ft (.tail _ (.tail _ (.head _)))
  refine ⟨hw ▸ pack_lt ok ft (show inWord [(21, 5), (16, 5), (0, 12)] = true by decide +kernel) (by decide +kernel), .core (.xori d a i), ?_, rfl⟩
  rw [decodeNat_02 W em, decAlui]
  simp only [ej, ef1, ef2, ef3]

theorem RoundTrip.slli (d : BitVec 5) (a : BitVec 5) (i : BitVec 6) : RoundTrip.Statement (.slli d a i) := by
  intro hwf W hw
  have hw : pack 0x08004000 (strip [⟨d.toNat, 21, 5⟩, ⟨a.toNat, 16, 5⟩, ⟨i.toNat, 0, 6⟩]) = W := Option.some.inj hw
  have ok : laidOut 0x08004000 [(21, 5), (16, 5), (0, 6)] = true := by decide +kernel
  have ft : Fits [⟨d.toNat, 21, 5⟩, ⟨a.toNat, 16, 5⟩, ⟨i.toNat, 0, 6⟩] := ⟨d.isLt, a.isLt, i.isLt, trivial⟩
  have em : fld W 26 6 = 0x02 := read_const hw ok ft (show apart 26 6 [(21, 5), (16, 5), (0, 6)] = true by decide +kernel) (by decide +kernel)
  have ej : fld W 12 4 = 4 := read_const hw ok ft (show apart 12 4 [(21, 5), (16, 5), (0, 6)] = true by decide +kernel) (by decide +kernel)
  have ez1 : fld W 6 6 = 0 := read_const hw ok ft (show apart 6 6 [(21, 5), (16, 5), (0, 6)] = true by decide +kernel) (by decide +kernel)
  have ef1 : bv 5 W 21 = d := read_bv hw ok ft (.head _)
  have ef2 : bv 5 W 16 = a := read_bv hw ok ft (.tail _ (.head _))
  have ef3 : bv 6 W 0 = i := read_bv hw ok ft (.tail _ (.tail _ (.head _)))
  refine ⟨hw ▸ pack_lt ok ft (show inWord [(21, 5), (16, 5), (0, 6)] = true by decide +kernel) (by decide +kernel), .core (.slli d a i), ?_, rfl⟩
  rw [decodeNat_02 W em, decAlui]
  simp only [ej, ez1, ef1, ef2, ef3, zeros, List.all, beq_self_eq_true, Bool.and_self, if_true]

theorem RoundTrip.srli (d : BitVec 5) (a : BitVec 5) (i : BitVec 6) : RoundTrip.Statement (.srli d a i) := by
  intro hwf W hw
  have hw : pack 0x08005000 (strip [⟨d.toNat, 21, 5⟩, ⟨a.toNat, 16, 5⟩, ⟨i.toNat, 0, 6⟩]) = W := Option.some.inj hw
  have ok : laidOut 0x08005000 [(21, 5), (16, 5), (0, 6)] = true := by decide +kernel
  have ft : Fits [⟨d.toNat, 21, 5⟩, ⟨a.toNat, 16, 5⟩, ⟨i.toNat, 0, 6⟩] := ⟨d.isLt, a.isLt, i.isLt, trivial⟩
  have em : fld W 26 6 = 0x02 := read_const hw ok ft (show apart 26 6 [(21, 5), (16, 5), (0, 6)] = true by decide +kernel) (by decide +kernel)
  have ej : fld W 12 4 = 5 := read_const hw ok ft (show apart 12 4 [(21, 5), (16, 5), (0, 6)] = true by decide +kernel) (by decide +kernel)
  have ez1 : fld W 6 6 = 0 := read_const hw ok ft (show apart 6 6 [(21, 5), (16, 5), (0, 6)] = true by decide +kernel) (by decide +kernel)
  have ef1 : bv 5 W 21 = d := read_bv hw ok ft (.head _)
  have ef2 : bv 5 W 16 = a := read_bv hw ok ft (.tail _ (.head _))
  have ef3 : bv 6 W 0 = i := read_bv hw ok ft (.tail _ (.tail _ (.head _)))
  refine ⟨hw ▸ pack_lt ok ft (show inWord [(21, 5), (16, 5), (0, 6)] = true by decide +kernel) (by decide +kernel), .core (.srli d a i), ?_, rfl⟩
  rw [decodeNat_02 W em, decAlui]
  simp only [ej, ez1, ef1, ef2, ef3, zeros, List.all, beq_self_eq_true, Bool.and_self, if_true]

theorem RoundTrip.srai (d : BitVec 5) (a : BitVec 5) (i : BitVec 6) : RoundTrip.Statement (.srai d a i) := by
  intro hwf W hw
  have hw : pack 0x08006000 (strip [⟨d.toNat, 21, 5⟩, ⟨a.toNat, 16, 5⟩, ⟨i.toNat, 0, 6⟩]) = W := Option.some.inj hw
  have ok : laidOut 0x08006000 [(21, 5), (16, 5), (0, 6)] = true := by decide +kernel
  have ft : Fits [⟨d.toNat, 21, 5⟩, ⟨a.toNat, 16, 5⟩, ⟨i.toNat, 0, 6⟩] := ⟨d.isLt, a.isLt, i.isLt, trivial⟩
  have em : fld W 26 6 = 0x02 := read_const hw ok ft (show apart 26 6 [(21, 5), (16, 5), (0, 6)] = true by decide +kernel) (by decide +kernel)
  have ej : fld W 12 4 = 6 := read_const hw ok ft (show apart 12 4 [(21, 5), (16, 5), (0, 6)] = true by decide +kernel) (by decide +kernel)
  have ez1 : fld W 6 6 = 0 := read_const hw ok ft (show apart 6 6 [(21, 5), (16, 5), (0, 6)] = true by decide +kernel) (by decide +kernel)
  have ef1 : bv 5 W 21 = d := read_bv hw ok ft (.head _)
  have ef2 : bv 5 W 16 = a := read_bv hw ok ft (.tail _ (.head _))
  have ef3 : bv 6 W 0 = i := read_bv hw ok ft (.tail _ (.tail _ (.head _)))
  refine ⟨hw ▸ pack_lt ok ft (show inWord [(21, 5), (16, 5), (0, 6)] = true by decide +kernel) (by decide +kernel), .core (.srai d a i), ?_, rfl⟩
  rw [decodeNat_02 W em, decAlui]
  simp only [ej, ez1, ef1, ef2, ef3, zeros, List.all, beq_self_eq_true, Bool.and_self, if_true]

theorem RoundTrip.ceqi (d : BitVec 5) (a : BitVec 5) (i : BitVec 12) : RoundTrip.Statement (.ceqi d a i) := by
  intro hwf W hw
  have hw : pack 0x08007000 (strip [⟨d.toNat, 21, 5⟩, ⟨a.toNat, 16, 5⟩, ⟨i.toNat, 0, 12⟩]) = W := Option.some.inj hw
  have ok : laidOut 0x08007000 [(21, 5), (16, 5), (0, 12)] = true := by decide +kernel
  have ft : Fits [⟨d.toNat, 21, 5⟩, ⟨a.toNat, 16, 5⟩, ⟨i.toNat, 0, 12⟩] := ⟨d.isLt, a.isLt, i.isLt, trivial⟩
  have em : fld W 26 6 = 0x02 := read_const hw ok ft (show apart 26 6 [(21, 5), (16, 5), (0, 12)] = true by decide +kernel) (by decide +kernel)
  have ej : fld W 12 4 = 7 := read_const hw ok ft (show apart 12 4 [(21, 5), (16, 5), (0, 12)] = true by decide +kernel) (by decide +kernel)
  have ef1 : bv 5 W 21 = d := read_bv hw ok ft (.head _)
  have ef2 : bv 5 W 16 = a := read_bv hw ok ft (.tail _ (.head _))
  have ef3 : bv 12 W 0 = i := read_bv hw ok ft (.tail _ (.tail _ (.head _)))
  refine ⟨hw ▸ pack_lt ok ft (show inWord [(21, 5), (16, 5), (0, 12)] = true by decide +kernel) (by decide +kernel), .core (.ceqi d a i), ?_, rfl⟩
  rw [decodeNat_02 W em, decAlui]
  simp only [ej, ef1, ef2, ef3]

theorem RoundTrip.clti (d : BitVec 5) (a : BitVec 5) (i : BitVec 12) : RoundTrip.Statement (.clti d a i) := by
  intro hwf W hw
  have hw : pack 0x08008000 (strip [⟨d.toNat, 21, 5⟩, ⟨a.toNat, 16, 5⟩, ⟨i.toNat, 0, 12⟩]) = W := Option.some.inj hw
  have ok : laidOut 0x08008000 [(21, 5), (16, 5), (0, 12)] = true := by decide +kernel
  have ft : Fits [⟨d.toNat, 21, 5⟩, ⟨a.toNat, 16, 5⟩, ⟨i.toNat, 0, 12⟩] := ⟨d.isLt, a.isLt, i.isLt, trivial⟩
  have em : fld W 26 6 = 0x02 := read_const hw ok ft (show apart 26 6 [(21, 5), (16, 5), (0, 12)] = true by decide +kernel) (by decide +kernel)
  have ej : fld W 12 4 = 8 := read_const hw ok ft (show apart 12 4 [(21, 5), (16, 5), (0, 12)] = true by decide +kernel) (by decide +kernel)
  have ef1 : bv 5 W 21 = d := read_bv hw ok ft (.head _)
  have ef2 : bv 5 W 16 = a := read_bv hw ok ft (.tail _ (.head _))
  have ef3 : bv 12 W 0 = i := read_bv hw ok ft (.tail _ (.tail _ (.head _)))
  refine ⟨hw ▸ pack_lt ok ft (show inWord [(21, 5), (16, 5), (0, 12)] = true by decide +kernel) (by decide +kernel), .core (.clti d a i), ?_, rfl⟩
  rw [decodeNat_02 W em, decAlui]
  simp only [ej, ef1, ef2, ef3]

theorem RoundTrip.cltui (d : BitVec 5) (a : BitVec 5) (i : BitVec 12) : RoundTrip.Statement (.cltui d a i) := by
  intro hwf W hw
  have hw : pack 0x08009000 (strip [⟨d.toNat, 21, 5⟩, ⟨a.toNat, 16, 5⟩, ⟨i.toNat, 0, 12⟩]) = W := Option.some.inj hw
  have ok : laidOut 0x08009000 [(21, 5), (16, 5), (0, 12)] = true := by decide +kernel
  have ft : Fits [⟨d.toNat, 21, 5⟩, ⟨a.toNat, 16, 5⟩, ⟨i.toNat, 0, 12⟩] := ⟨d.isLt, a.isLt, i.isLt, trivial⟩
  have em : fld W 26 6 = 0x02 := read_const hw ok ft (show apart 26 6 [(21, 5), (16, 5), (0, 12)] = true by decide +kernel) (by decide +kernel)
  have ej : fld W 12 4 = 9 := read_const hw ok ft (show apart 12 4 [(21, 5), (16, 5), (0, 12)] = true by decide +kernel) (by decide +kernel)
  have ef1 : bv 5 W 21 = d := read_bv hw ok ft (.head _)
  have ef2 : bv 5 W 16 = a := read_bv hw ok ft (.tail _ (.head _))
  have ef3 : bv 12 W 0 = i := read_bv hw ok ft (.tail _ (.tail _ (.head _)))
  refine ⟨hw ▸ pack_lt ok ft (show inWord [(21, 5), (16, 5), (0, 12)] = true by decide +kernel) (by decide +kernel), .core (.cltui d a i), ?_, rfl⟩
  rw [decodeNat_02 W em, decAlui]
  simp only [ej, ef1, ef2, ef3]

theorem RoundTrip.muli (d : BitVec 5) (a : BitVec 5) (i : BitVec 12) : RoundTrip.Statement (.muli d a i) := by
  intro hwf W hw
  have hw : pack 0x0800A000 (strip [⟨d.toNat, 21, 5⟩, ⟨a.toNat, 16, 5⟩, ⟨i.toNat, 0, 12⟩]) = W := Option.some.inj hw
  have ok : laidOut 0x0800A000 [(21, 5), (16, 5), (0, 12)] = true := by decide +kernel
  have ft : Fits [⟨d.toNat, 21, 5⟩, ⟨a.toNat, 16, 5⟩, ⟨i.toNat, 0, 12⟩] := ⟨d.isLt, a.isLt, i.isLt, trivial⟩
  have em : fld W 26 6 = 0x02 := read_const hw ok ft (show apart 26 6 [(21, 5), (16, 5), (0, 12)] = true by decide +kernel) (by decide +kernel)
  have ej : fld W 12 4 = 10 := read_const hw ok ft (show apart 12 4 [(21, 5), (16, 5), (0, 12)] = true by decide +kernel) (by decide +kernel)
  have ef1 : bv 5 W 21 = d := read_bv hw ok ft (.head _)
  have ef2 : bv 5 W 16 = a := read_bv hw ok ft (.tail _ (.head _))
  have ef3 : bv 12 W 0 = i := read_bv hw ok ft (.tail _ (.tail _ (.head _)))
  refine ⟨hw ▸ pack_lt ok ft (show inWord [(21, 5), (16, 5), (0, 12)] = true by decide +kernel) (by decide +kernel), .core (.muli d a i), ?_, rfl⟩
  rw [decodeNat_02 W em, decAlui]
  simp only [ej, ef1, ef2, ef3]

theorem RoundTrip.paddi (d : BitVec 5) (a : BitVec 5) (i : BitVec 12) : RoundTrip.Statement (.paddi d a i) := by
  intro hwf W hw
  have hw : pack 0x0800B000 (strip [⟨d.toNat, 21, 5⟩, ⟨a.toNat, 16, 5⟩, ⟨i.toNat, 0, 12⟩]) = W := Option.some.inj hw
  have ok : laidOut 0x0800B000 [(21, 5), (16, 5), (0, 12)] = true := by decide +kernel
  have ft : Fits [⟨d.toNat, 21, 5⟩, ⟨a.toNat, 16, 5⟩, ⟨i.toNat, 0, 12⟩] := ⟨d.isLt, a.isLt, i.isLt, trivial⟩
  have em : fld W 26 6 = 0x02 := read_const hw ok ft (show apart 26 6 [(21, 5), (16, 5), (0, 12)] = true by decide +kernel) (by decide +kernel)
  have ej : fld W 12 4 = 11 := read_const hw ok ft (show apart 12 4 [(21, 5), (16, 5), (0, 12)] = true by decide +kernel) (by decide +kernel)
  have ef1 : bv 5 W 21 = d := read_bv hw ok ft (.head _)
  have ef2 : bv 5 W 16 = a := read_bv hw ok ft (.tail _ (.head _))
  have ef3 : bv 12 W 0 = i := read_bv hw ok ft (.tail _ (.tail _ (.head _)))
  refine ⟨hw ▸ pack_lt ok ft (show inWord [(21, 5), (16, 5), (0, 12)] = true by decide +kernel) (by decide +kernel), .core (.paddi d a i), ?_, rfl⟩
  rw [decodeNat_02 W em, decAlui]
  simp only [ej, ef1, ef2, ef3]

theorem RoundTrip.imz (d : BitVec 5) (q : BitVec 2) (i : BitVec 16) : RoundTrip.Statement (.imz d q i) := by
  intro hwf W hw
  have hw : pack 0x0C000000 (strip [⟨d.toNat, 21, 5⟩, ⟨q.toNat, 19, 2⟩, ⟨i.toNat, 0, 16⟩]) = W := Option.some.inj hw
  have ok : laidOut 0x0C000000 [(21, 5), (19, 2), (0, 16)] = true := by decide +kernel
  have ft : Fits [⟨d.toNat, 21, 5⟩, ⟨q.toNat, 19, 2⟩, ⟨i.toNat, 0, 16⟩] := ⟨d.isLt, q.isLt, i.isLt, trivial⟩
  have em : fld W 26 6 = 0x03 := read_const hw ok ft (show apart 26 6 [(21, 5), (19, 2), (0, 16)] = true by decide +kernel) (by decide +kernel)
  have ej : fld W 18 1 = 0 := read_const hw ok ft (show apart 18 1 [(21, 5), (19, 2), (0, 16)] = true by decide +kernel) (by decide +kernel)
  have ez1 : fld W 16 2 = 0 := read_const hw ok ft (show apart 16 2 [(21, 5), (19, 2), (0, 16)] = true by decide +kernel) (by decide +kernel)
  have ef1 : bv 5 W 21 = d := read_bv hw ok ft (.head _)
  have ef2 : bv 2 W 19 = q := read_bv hw ok ft (.tail _ (.head _))
  have ef3 : bv 16 W 0 = i := read_bv hw ok ft (.tail _ (.tail _ (.head _)))
  refine ⟨hw ▸ pack_lt ok ft (show inWord [(21, 5), (19, 2), (0, 16)] = true by decide +kernel) (by decide +kernel), .core (.imz d q i), ?_, rfl⟩
  rw [decodeNat_03 W em, decIm]
  simp only [ej, ez1, ef1, ef2, ef3, zeros, List.all, beq_self_eq_true, Bool.and_self, if_true]

theorem RoundTrip.imk (d : BitVec 5) (q : BitVec 2) (i : BitVec 16) : RoundTrip.Statement (.imk d q i) := by
  intro hwf W hw
  have hw : pack 0x0C040000 (strip [⟨d.toNat, 21, 5⟩, ⟨q.toNat, 19, 2⟩, ⟨i.toNat, 0, 16⟩]) = W := Option.some.inj hw
  have ok : laidOut 0x0C040000 [(21, 5), (19, 2), (0, 16)] = true := by decide +kernel
  have ft : Fits [⟨d.toNat, 21, 5⟩, ⟨q.toNat, 19, 2⟩, ⟨i.toNat, 0, 16⟩] := ⟨d.isLt, q.isLt, i.isLt, trivial⟩
  have em : fld W 26 6 = 0x03 := read_const hw ok ft (show apart 26 6 [(21, 5), (19, 2), (0, 16)] = true by decide +kernel) (by decide +kernel)
  have ej : fld W 18 1 = 1 := read_const hw ok ft (show apart 18 1 [(21, 5), (19, 2), (0, 16)] = true by decide +kernel) (by decide +kernel)
  have ez1 : fld W 16 2 = 0 := read_const hw ok ft (show apart 16 2 [(21, 5), (19, 2), (0, 16)] = true by decide +kernel) (by decide +kernel)
  have ef1 : bv 5 W 21 = d := read_bv hw ok ft (.head _)
  have ef2 : bv 2 W 19 = q := read_bv hw ok ft (.tail _ (.head _))
  have ef3 : bv 16 W 0 = i := read_bv hw ok ft (.tail _ (.tail _ (.head _)))
  refine ⟨hw ▸ pack_lt ok ft (show inWord [(21, 5), (19, 2), (0, 16)] = true by decide +kernel) (by decide +kernel), .core (.imk d q i), ?_, rfl⟩
  rw [decodeNat_03 W em, decIm]
  simp only [ej, ez1, ef1, ef2, ef3, zeros, List.all, beq_self_eq_true, Bool.and_self, if_true]

theorem RoundTrip.bz (a : BitVec 5) (o : BitVec 18) : RoundTrip.Statement (.bz a o) := by
  intro hwf W hw
  have hw : pack 0x20000000 (strip [⟨a.toNat, 18, 5⟩, ⟨o.toNat, 0, 18⟩]) = W := Option.some.inj hw
  have ok : laidOut 0x20000000 [(18, 5), (0, 18)] = true := by decide +kernel
  have ft : Fits [⟨a.toNat, 18, 5⟩, ⟨o.toNat, 0, 18⟩] := ⟨a.isLt, o.isLt, trivial⟩
  have em : fld W 26 6 = 0x08 := read_const hw ok ft (show apart 26 6 [(18, 5), (0, 18)] = true by decide +kernel) (by decide +kernel)
  have ej : fld W 23 3 = 0 := read_const hw ok ft (show apart 23 3 [(18, 5), (0, 18)] = true by decide +kernel) (by decide +kernel)
  have ef1 : bv 5 W 18 = a := read_bv hw ok ft (.head _)
  have ef2 : bv 18 W 0 = o := read_bv hw ok ft (.tail _ (.head _))
  refine ⟨hw ▸ pack_lt ok ft (show inWord [(18, 5), (0, 18)] = true by decide +kernel) (by decide +kernel), .core (.bz a o), ?_, rfl⟩
  rw [decodeNat_08 W em, decBr]
  simp only [ej, ef1, ef2]

theorem RoundTrip.bnz (a : BitVec 5) (o : BitVec 18) : RoundTrip.Statement (.bnz a o) := by
  intro hwf W hw
  have hw : pack 0x20800000 (strip [⟨a.toNat, 18, 5⟩, ⟨o.toNat, 0, 18⟩]) = W := Option.some.inj hw
  have ok : laidOut 0x20800000 [(18, 5), (0, 18)] = true := by decide +kernel
  have ft : Fits [⟨a.toNat, 18, 5⟩, ⟨o.toNat, 0, 18⟩] := ⟨a.isLt, o.isLt, trivial⟩
  have em : fld W 26 6 = 0x08 := read_const hw ok ft (show apart 26 6 [(18, 5), (0, 18)] = true by decide +kernel) (by decide +kernel)
  have ej : fld W 23 3 = 1 := read_const hw ok ft (show apart 23 3 [(18, 5), (0, 18)] = true by decide +kernel) (by decide +kernel)
  have ef1 : bv 5 W 18 = a := read_bv hw ok ft (.head _)
  have ef2 : bv 18 W 0 = o := read_bv hw ok ft (.tail _ (.head _))
  refine ⟨hw ▸ pack_lt ok ft (show inWord [(18, 5), (0, 18)] = true by decide +kernel) (by decide +kernel), .core (.bnz a o), ?_, rfl⟩
  rw [decodeNat_08 W em, decBr]
  simp only [ej, ef1, ef2]

theorem RoundTrip.blt (a : BitVec 5) (o : BitVec 18) : RoundTrip.Statement (.blt a o) := by
  intro hwf W hw
  have hw : pack 0x21000000 (strip [⟨a.toNat, 18, 5⟩, ⟨o.toNat, 0, 18⟩]) = W := Option.some.inj hw
  have ok : laidOut 0x21000000 [(18, 5), (0, 18)] = true := by decide +kernel
  have ft : Fits [⟨a.toNat, 18, 5⟩, ⟨o.toNat, 0, 18⟩] := ⟨a.isLt, o.isLt, trivial⟩
  have em : fld W 26 6 = 0x08 := read_const hw ok ft (show apart 26 6 [(18, 5), (0, 18)] = true by decide +kernel) (by decide +kernel)
  have ej : fld W 23 3 = 2 := read_const hw ok ft (show apart 23 3 [(18, 5), (0, 18)] = true by decide +kernel) (by decide +kernel)
  have ef1 : bv 5 W 18 = a := read_bv hw ok ft (.head _)
  have ef2 : bv 18 W 0 = o := read_bv hw ok ft (.tail _ (.head _))
  refine ⟨hw ▸ pack_lt ok ft (show inWord [(18, 5), (0, 18)] = true by decide +kernel) (by decide +kernel), .core (.blt a o), ?_, rfl⟩
  rw [decodeNat_08 W em, decBr]
  simp only [ej, ef1, ef2]

theorem RoundTrip.bge (a : BitVec 5) (o : BitVec 18) : RoundTrip.Statement (.bge a o) := by
  intro hwf W hw
  have hw : pack 0x21800000 (strip [⟨a.toNat, 18, 5⟩, ⟨o.toNat, 0, 18⟩]) = W := Option.some.inj hw
  have ok : laidOut 0x21800000 [(18, 5), (0, 18)] = true := by decide +kernel
  have ft : Fits [⟨a.toNat, 18, 5⟩, ⟨o.toNat, 0, 18⟩] := ⟨a.isLt, o.isLt, trivial⟩
  have em : fld W 26 6 = 0x08 := read_const hw ok ft (show apart 26 6 [(18, 5), (0, 18)] = true by decide +kernel) (by decide +kernel)
  have ej : fld W 23 3 = 3 := read_const hw ok ft (show apart 23 3 [(18, 5), (0, 18)] = true by decide +kernel) (by decide +kernel)
  have ef1 : bv 5 W 18 = a := read_bv hw ok ft (.head _)
  have ef2 : bv 18 W 0 = o := read_bv hw ok ft (.tail _ (.head _))
  refine ⟨hw ▸ pack_lt ok ft (show inWord [(18, 5), (0, 18)] = true by decide +kernel) (by decide +kernel), .core (.bge a o), ?_, rfl⟩
  rw [decodeNat_08 W em, decBr]
  simp only [ej, ef1, ef2]

theorem RoundTrip.bgt (a : BitVec 5) (o : BitVec 18) : RoundTrip.Statement (.bgt a o) := by
  intro hwf W hw
  have hw : pack 0x22000000 (strip [⟨a.toNat, 18, 5⟩, ⟨o.toNat, 0, 18⟩]) = W := Option.some.inj hw
  have ok : laidOut 0x22000000 [(18, 5), (0, 18)] = true := by decide +kernel
  have ft : Fits [⟨a.toNat, 18, 5⟩, ⟨o.toNat, 0, 18⟩] := ⟨a.isLt, o.isLt, trivial⟩
  have em : fld W 26 6 = 0x08 := read_const hw ok ft (show apart 26 6 [(18, 5), (0, 18)] = true by decide +kernel) (by decide +kernel)
  have ej : fld W 23 3 = 4 := read_const hw ok ft (show apart 23 3 [(18, 5), (0, 18)] = true by decide +kernel) (by decide +kernel)
  have ef1 : bv 5 W 18 = a := read_bv hw ok ft (.head _)
  have ef2 : bv 18 W 0 = o := read_bv hw ok ft (.tail _ (.head _))
  refine ⟨hw ▸ pack_lt ok ft (show inWord [(18, 5), (0, 18)] = true by decide +kernel) (by decide +kernel), .core (.bgt a o), ?_, rfl⟩
  rw [decodeNat_08 W em, decBr]
  simp only [ej, ef1, ef2]

theorem RoundTrip.ble (a : BitVec 5) (o : BitVec 18) : RoundTrip.Statement (.ble a o) := by
  intro hwf W hw
  have hw : pack 0x22800000 (strip [⟨a.toNat, 18, 5⟩, ⟨o.toNat, 0, 18⟩]) = W := Option.some.inj hw
  have ok : laidOut 0x22800000 [(18, 5), (0, 18)] = true := by decide +kernel
  have ft : Fits [⟨a.toNat, 18, 5⟩, ⟨o.toNat, 0, 18⟩] := ⟨a.isLt, o.isLt, trivial⟩
  have em : fld W 26 6 = 0x08 := read_const hw ok ft (show apart 26 6 [(18, 5), (0, 18)] = true by decide +kernel) (by decide +kernel)
  have ej : fld W 23 3 = 5 := read_const hw ok ft (show apart 23 3 [(18, 5), (0, 18)] = true by decide +kernel) (by decide +kernel)
  have ef1 : bv 5 W 18 = a := read_bv hw ok ft (.head _)
  have ef2 : bv 18 W 0 = o := read_bv hw ok ft (.tail _ (.head _))
  refine ⟨hw ▸ pack_lt ok ft (show inWord [(18, 5), (0, 18)] = true by decide +kernel) (by decide +kernel), .core (.ble a o), ?_, rfl⟩
  rw [decodeNat_08 W em, decBr]
  simp only [ej, ef1, ef2]

theorem RoundTrip.jal (d : BitVec 5) (o : BitVec 21) : RoundTrip.Statement (.jal d o) := by
  intro hwf W hw
  have hw : pack 0x24000000 (strip [⟨d.toNat, 21, 5⟩, ⟨o.toNat, 0, 21⟩]) = W := Option.some.inj hw
  have ok : laidOut 0x24000000 [(21, 5), (0, 21)] = true := by decide +kernel
  have ft : Fits [⟨d.toNat, 21, 5⟩, ⟨o.toNat, 0, 21⟩] := ⟨d.isLt, o.isLt, trivial⟩
  have em : fld W 26 6 = 0x09 := read_const hw ok ft (show apart 26 6 [(21, 5), (0, 21)] = true by decide +kernel) (by decide +kernel)
  have ef1 : bv 5 W 21 = d := read_bv hw ok ft (.head _)
  have ef2 : bv 21 W 0 = o := read_bv hw ok ft (.tail _ (.head _))
  refine ⟨hw ▸ pack_lt ok ft (show inWord [(21, 5), (0, 21)] = true by decide +kernel) (by decide +kernel), .core (.jal d o), ?_, rfl⟩
  rw [decodeNat_09 W em, decJal]
  simp only [ef1, ef2]

theorem RoundTrip.jalr (d : BitVec 5) (a : BitVec 5) (i : BitVec 16) : RoundTrip.Statement (.jalr d a i) := by
  intro hwf W hw
  have hw : pack 0x28000000 (strip [⟨d.toNat, 21, 5⟩, ⟨a.toNat, 16, 5⟩, ⟨i.toNat, 0, 16⟩]) = W := Option.some.inj hw
  have ok : laidOut 0x28000000 [(21, 5), (16, 5), (0, 16)] = true := by decide +kernel
  have ft : Fits [⟨d.toNat, 21, 5⟩, ⟨a.toNat, 16, 5⟩, ⟨i.toNat, 0, 16⟩] := ⟨d.isLt, a.isLt, i.isLt, trivial⟩
  have em : fld W 26 6 = 0x0A := read_const hw ok ft (show apart 26 6 [(21, 5), (16, 5), (0, 16)] = true by decide +kernel) (by decide +kernel)
  have ef1 : bv 5 W 21 = d := read_bv hw ok ft (.head _)
  have ef2 : bv 5 W 16 = a := read_bv hw ok ft (.tail _ (.head _))
  have ef3 : bv 16 W 0 = i := read_bv hw ok ft (.tail _ (.tail _ (.head _)))
  refine ⟨hw ▸ pack_lt ok ft (show inWord [(21, 5), (16, 5), (0, 16)] = true by decide +kernel) (by decide +kernel), .core (.jalr d a i), ?_, rfl⟩
  rw [decodeNat_0a W em, decJalr]
  simp only [ef1, ef2, ef3]

theorem RoundTrip.ld (d : BitVec 5) (a : BitVec 5) (g : BitVec 3) (w : BitVec 2) (o : BitVec 11) : RoundTrip.Statement (.ld d a g w o) := by
  intro hwf W hw
  have hw : pack 0x30000000 (strip [⟨d.toNat, 21, 5⟩, ⟨a.toNat, 16, 5⟩, ⟨g.toNat, 13, 3⟩, ⟨w.toNat, 11, 2⟩, ⟨o.toNat, 0, 11⟩]) = W := Option.some.inj hw
  have ok : laidOut 0x30000000 [(21, 5), (16, 5), (13, 3), (11, 2), (0, 11)] = true := by decide +kernel
  have ft : Fits [⟨d.toNat, 21, 5⟩, ⟨a.toNat, 16, 5⟩, ⟨g.toNat, 13, 3⟩, ⟨w.toNat, 11, 2⟩, ⟨o.toNat, 0, 11⟩] := ⟨d.isLt, a.isLt, g.isLt, w.isLt, o.isLt, trivial⟩
  have em : fld W 26 6 = 0x0C := read_const hw ok ft (show apart 26 6 [(21, 5), (16, 5), (13, 3), (11, 2), (0, 11)] = true by decide +kernel) (by decide +kernel)
  have ef1 : bv 5 W 21 = d := read_bv hw ok ft (.head _)
  have ef2 : bv 5 W 16 = a := read_bv hw ok ft (.tail _ (.head _))
  have ef3 : bv 3 W 13 = g := read_bv hw ok ft (.tail _ (.tail _ (.head _)))
  have ef4 : bv 2 W 11 = w := read_bv hw ok ft (.tail _ (.tail _ (.tail _ (.head _))))
  have ef5 : bv 11 W 0 = o := read_bv hw ok ft (.tail _ (.tail _ (.tail _ (.tail _ (.head _)))))
  refine ⟨hw ▸ pack_lt ok ft (show inWord [(21, 5), (16, 5), (13, 3), (11, 2), (0, 11)] = true by decide +kernel) (by decide +kernel), .core (.ld d a g w o), ?_, rfl⟩
  rw [decodeNat_0c W em, decLd]
  simp only [ef1, ef2, ef3, ef4, ef5]

theorem RoundTrip.lds (d : BitVec 5) (a : BitVec 5) (g : BitVec 3) (w : BitVec 2) (o : BitVec 11) : RoundTrip.Statement (.lds d a g w o) := by
  intro hwf W hw
  have hw : pack 0x34000000 (strip [⟨d.toNat, 21, 5⟩, ⟨a.toNat, 16, 5⟩, ⟨g.toNat, 13, 3⟩, ⟨w.toNat, 11, 2⟩, ⟨o.toNat, 0, 11⟩]) = W := Option.some.inj hw
  have ok : laidOut 0x34000000 [(21, 5), (16, 5), (13, 3), (11, 2), (0, 11)] = true := by decide +kernel
  have ft : Fits [⟨d.toNat, 21, 5⟩, ⟨a.toNat, 16, 5⟩, ⟨g.toNat, 13, 3⟩, ⟨w.toNat, 11, 2⟩, ⟨o.toNat, 0, 11⟩] := ⟨d.isLt, a.isLt, g.isLt, w.isLt, o.isLt, trivial⟩
  have em : fld W 26 6 = 0x0D := read_const hw ok ft (show apart 26 6 [(21, 5), (16, 5), (13, 3), (11, 2), (0, 11)] = true by decide +kernel) (by decide +kernel)
  have ef1 : bv 5 W 21 = d := read_bv hw ok ft (.head _)
  have ef2 : bv 5 W 16 = a := read_bv hw ok ft (.tail _ (.head _))
  have ef3 : bv 3 W 13 = g := read_bv hw ok ft (.tail _ (.tail _ (.head _)))
  have ef4 : bv 2 W 11 = w := read_bv hw ok ft (.tail _ (.tail _ (.tail _ (.head _))))
  have ef5 : bv 11 W 0 = o := read_bv hw ok ft (.tail _ (.tail _ (.tail _ (.tail _ (.head _)))))
  refine ⟨hw ▸ pack_lt ok ft (show inWord [(21, 5), (16, 5), (13, 3), (11, 2), (0, 11)] = true by decide +kernel) (by decide +kernel), .core (.lds d a g w o), ?_, rfl⟩
  rw [decodeNat_0d W em, decLds]
  simp only [ef1, ef2, ef3, ef4, ef5]

theorem RoundTrip.st (d : BitVec 5) (a : BitVec 5) (g : BitVec 3) (w : BitVec 2) (o : BitVec 11) : RoundTrip.Statement (.st d a g w o) := by
  intro hwf W hw
  have hw : pack 0x38000000 (strip [⟨d.toNat, 21, 5⟩, ⟨a.toNat, 16, 5⟩, ⟨g.toNat, 13, 3⟩, ⟨w.toNat, 11, 2⟩, ⟨o.toNat, 0, 11⟩]) = W := Option.some.inj hw
  have ok : laidOut 0x38000000 [(21, 5), (16, 5), (13, 3), (11, 2), (0, 11)] = true := by decide +kernel
  have ft : Fits [⟨d.toNat, 21, 5⟩, ⟨a.toNat, 16, 5⟩, ⟨g.toNat, 13, 3⟩, ⟨w.toNat, 11, 2⟩, ⟨o.toNat, 0, 11⟩] := ⟨d.isLt, a.isLt, g.isLt, w.isLt, o.isLt, trivial⟩
  have em : fld W 26 6 = 0x0E := read_const hw ok ft (show apart 26 6 [(21, 5), (16, 5), (13, 3), (11, 2), (0, 11)] = true by decide +kernel) (by decide +kernel)
  have ef1 : bv 5 W 21 = d := read_bv hw ok ft (.head _)
  have ef2 : bv 5 W 16 = a := read_bv hw ok ft (.tail _ (.head _))
  have ef3 : bv 3 W 13 = g := read_bv hw ok ft (.tail _ (.tail _ (.head _)))
  have ef4 : bv 2 W 11 = w := read_bv hw ok ft (.tail _ (.tail _ (.tail _ (.head _))))
  have ef5 : bv 11 W 0 = o := read_bv hw ok ft (.tail _ (.tail _ (.tail _ (.tail _ (.head _)))))
  refine ⟨hw ▸ pack_lt ok ft (show inWord [(21, 5), (16, 5), (13, 3), (11, 2), (0, 11)] = true by decide +kernel) (by decide +kernel), .core (.st d a g w o), ?_, rfl⟩
  rw [decodeNat_0e W em, decSt]
  simp only [ef1, ef2, ef3, ef4, ef5]

theorem RoundTrip.lda (d : BitVec 5) (a : BitVec 5) (g : BitVec 3) (w : BitVec 2) (o : BitVec 11) : RoundTrip.Statement (.lda d a g w o) := by
  intro hwf W hw
  have hw : pack 0x3C000000 (strip [⟨d.toNat, 21, 5⟩, ⟨a.toNat, 16, 5⟩, ⟨g.toNat, 13, 3⟩, ⟨w.toNat, 11, 2⟩, ⟨o.toNat, 0, 11⟩]) = W := Option.some.inj hw
  have ok : laidOut 0x3C000000 [(21, 5), (16, 5), (13, 3), (11, 2), (0, 11)] = true := by decide +kernel
  have ft : Fits [⟨d.toNat, 21, 5⟩, ⟨a.toNat, 16, 5⟩, ⟨g.toNat, 13, 3⟩, ⟨w.toNat, 11, 2⟩, ⟨o.toNat, 0, 11⟩] := ⟨d.isLt, a.isLt, g.isLt, w.isLt, o.isLt, trivial⟩
  have em : fld W 26 6 = 0x0F := read_const hw ok ft (show apart 26 6 [(21, 5), (16, 5), (13, 3), (11, 2), (0, 11)] = true by decide +kernel) (by decide +kernel)
  have ef1 : bv 5 W 21 = d := read_bv hw ok ft (.head _)
  have ef2 : bv 5 W 16 = a := read_bv hw ok ft (.tail _ (.head _))
  have ef3 : bv 3 W 13 = g := read_bv hw ok ft (.tail _ (.tail _ (.head _)))
  have ef4 : bv 2 W 11 = w := read_bv hw ok ft (.tail _ (.tail _ (.tail _ (.head _))))
  have ef5 : bv 11 W 0 = o := read_bv hw ok ft (.tail _ (.tail _ (.tail _ (.tail _ (.head _)))))
  refine ⟨hw ▸ pack_lt ok ft (show inWord [(21, 5), (16, 5), (13, 3), (11, 2), (0, 11)] = true by decide +kernel) (by decide +kernel), .core (.lda d a g w o), ?_, rfl⟩
  rw [decodeNat_0f W em, decLda]
  simp only [ef1, ef2, ef3, ef4, ef5]

theorem RoundTrip.stl (d : BitVec 5) (a : BitVec 5) (g : BitVec 3) (w : BitVec 2) (o : BitVec 11) : RoundTrip.Statement (.stl d a g w o) := by
  intro hwf W hw
  have hw : pack 0x40000000 (strip [⟨d.toNat, 21, 5⟩, ⟨a.toNat, 16, 5⟩, ⟨g.toNat, 13, 3⟩, ⟨w.toNat, 11, 2⟩, ⟨o.toNat, 0, 11⟩]) = W := Option.some.inj hw
  have ok : laidOut 0x40000000 [(21, 5), (16, 5), (13, 3), (11, 2), (0, 11)] = true := by decide +kernel
  have ft : Fits [⟨d.toNat, 21, 5⟩, ⟨a.toNat, 16, 5⟩, ⟨g.toNat, 13, 3⟩, ⟨w.toNat, 11, 2⟩, ⟨o.toNat, 0, 11⟩] := ⟨d.isLt, a.isLt, g.isLt, w.isLt, o.isLt, trivial⟩
  have em : fld W 26 6 = 0x10 := read_const hw ok ft (show apart 26 6 [(21, 5), (16, 5), (13, 3), (11, 2), (0, 11)] = true by decide +kernel) (by decide +kernel)
  have ef1 : bv 5 W 21 = d := read_bv hw ok ft (.head _)
  have ef2 : bv 5 W 16 = a := read_bv hw ok ft (.tail _ (.head _))
  have ef3 : bv 3 W 13 = g := read_bv hw ok ft (.tail _ (.tail _ (.head _)))
  have ef4 : bv 2 W 11 = w := read_bv hw ok ft (.tail _ (.tail _ (.tail _ (.head _))))
  have ef5 : bv 11 W 0 = o := read_bv hw ok ft (.tail _ (.tail _ (.tail _ (.tail _ (.head _)))))
  refine ⟨hw ▸ pack_lt ok ft (show inWord [(21, 5), (16, 5), (13, 3), (11, 2), (0, 11)] = true by decide +kernel) (by decide +kernel), .core (.stl d a g w o), ?_, rfl⟩
  rw [decodeNat_10 W em, decStl]
  simp only [ef1, ef2, ef3, ef4, ef5]

theorem RoundTrip.csrr (d : BitVec 5) (b : BitVec 5) (c : BitVec 5) : RoundTrip.Statement (.csrr d b c) := by
  intro hwf W hw
  have hw : pack 0x44000060 (strip [⟨d.toNat, 21, 5⟩, ⟨b.toNat, 11, 5⟩, ⟨c.toNat, 0, 5⟩]) = W := Option.some.inj hw
  have ok : laidOut 0x44000060 [(21, 5), (11, 5), (0, 5)] = true := by decide +kernel
  have ft : Fits [⟨d.toNat, 21, 5⟩, ⟨b.toNat, 11, 5⟩, ⟨c.toNat, 0, 5⟩] := ⟨d.isLt, b.isLt, c.isLt, trivial⟩
  have em : fld W 26 6 = 0x11 := read_const hw ok ft (show apart 26 6 [(21, 5), (11, 5), (0, 5)] = true by decide +kernel) (by decide +kernel)
  have ej : fld W 5 6 = 3 := read_const hw ok ft (show apart 5 6 [(21, 5), (11, 5), (0, 5)] = true by decide +kernel) (by decide +kernel)
  have ez1 : fld W 16 5 = 0 := read_const hw ok ft (show apart 16 5 [(21, 5), (11, 5), (0, 5)] = true by decide +kernel) (by decide +kernel)
  have ef1 : bv 5 W 21 = d := read_bv hw ok ft (.head _)
  have ef2 : bv 5 W 11 = b := read_bv hw ok ft (.tail _ (.head _))
  have ef3 : bv 5 W 0 = c := read_bv hw ok ft (.tail _ (.tail _ (.head _)))
  refine ⟨hw ▸ pack_lt ok ft (show inWord [(21, 5), (11, 5), (0, 5)] = true by decide +kernel) (by decide +kernel), .core (.csrr d b c), ?_, rfl⟩
  rw [decodeNat_11 W em, decSys]
  simp only [ej, ez1, ef1, ef2, ef3, zeros, List.all, beq_self_eq_true, Bool.and_self, if_true]

theorem RoundTrip.csrw (a : BitVec 5) (b : BitVec 5) (c : BitVec 5) : RoundTrip.Statement (.csrw a b c) := by
  intro hwf W hw
  have hw : pack 0x44000080 (strip [⟨a.toNat, 16, 5⟩, ⟨b.toNat, 11, 5⟩, ⟨c.toNat, 0, 5⟩]) = W := Option.some.inj hw
  have ok : laidOut 0x44000080 [(16, 5), (11, 5), (0, 5)] = true := by decide +kernel
  have ft : Fits [⟨a.toNat, 16, 5⟩, ⟨b.toNat, 11, 5⟩, ⟨c.toNat, 0, 5⟩] := ⟨a.isLt, b.isLt, c.isLt, trivial⟩
  have em : fld W 26 6 = 0x11 := read_const hw ok ft (show apart 26 6 [(16, 5), (11, 5), (0, 5)] = true by decide +kernel) (by decide +kernel)
  have ej : fld W 5 6 = 4 := read_const hw ok ft (show apart 5 6 [(16, 5), (11, 5), (0, 5)] = true by decide +kernel) (by decide +kernel)
  have ez1 : fld W 21 5 = 0 := read_const hw ok ft (show apart 21 5 [(16, 5), (11, 5), (0, 5)] = true by decide +kernel) (by decide +kernel)
  have ef1 : bv 5 W 16 = a := read_bv hw ok ft (.head _)
  have ef2 : bv 5 W 11 = b := read_bv hw ok ft (.tail _ (.head _))
  have ef3 : bv 5 W 0 = c := read_bv hw ok ft (.tail _ (.tail _ (.head _)))
  refine ⟨hw ▸ pack_lt ok ft (show inWord [(16, 5), (11, 5), (0, 5)] = true by decide +kernel) (by decide +kernel), .core (.csrw a b c), ?_, rfl⟩
  rw [decodeNat_11 W em, decSys]
  simp only [ej, ez1, ef1, ef2, ef3, zeros, List.all, beq_self_eq_true, Bool.and_self, if_true]

theorem RoundTrip.csrset (a : BitVec 5) (b : BitVec 5) (c : BitVec 5) : RoundTrip.Statement (.csrset a b c) := by
  intro hwf W hw
  have hw : pack 0x440000A0 (strip [⟨a.toNat, 16, 5⟩, ⟨b.toNat, 11, 5⟩, ⟨c.toNat, 0, 5⟩]) = W := Option.some.inj hw
  have ok : laidOut 0x440000A0 [(16, 5), (11, 5), (0, 5)] = true := by decide +kernel
  have ft : Fits [⟨a.toNat, 16, 5⟩, ⟨b.toNat, 11, 5⟩, ⟨c.toNat, 0, 5⟩] := ⟨a.isLt, b.isLt, c.isLt, trivial⟩
  have em : fld W 26 6 = 0x11 := read_const hw ok ft (show apart 26 6 [(16, 5), (11, 5), (0, 5)] = true by decide +kernel) (by decide +kernel)
  have ej : fld W 5 6 = 5 := read_const hw ok ft (show apart 5 6 [(16, 5), (11, 5), (0, 5)] = true by decide +kernel) (by decide +kernel)
  have ez1 : fld W 21 5 = 0 := read_const hw ok ft (show apart 21 5 [(16, 5), (11, 5), (0, 5)] = true by decide +kernel) (by decide +kernel)
  have ef1 : bv 5 W 16 = a := read_bv hw ok ft (.head _)
  have ef2 : bv 5 W 11 = b := read_bv hw ok ft (.tail _ (.head _))
  have ef3 : bv 5 W 0 = c := read_bv hw ok ft (.tail _ (.tail _ (.head _)))
  refine ⟨hw ▸ pack_lt ok ft (show inWord [(16, 5), (11, 5), (0, 5)] = true by decide +kernel) (by decide +kernel), .core (.csrset a b c), ?_, rfl⟩
  rw [decodeNat_11 W em, decSys]
  simp only [ej, ez1, ef1, ef2, ef3, zeros, List.all, beq_self_eq_true, Bool.and_self, if_true]

theorem RoundTrip.csrclr (a : BitVec 5) (b : BitVec 5) (c : BitVec 5) : RoundTrip.Statement (.csrclr a b c) := by
  intro hwf W hw
  have hw : pack 0x440000C0 (strip [⟨a.toNat, 16, 5⟩, ⟨b.toNat, 11, 5⟩, ⟨c.toNat, 0, 5⟩]) = W := Option.some.inj hw
  have ok : laidOut 0x440000C0 [(16, 5), (11, 5), (0, 5)] = true := by decide +kernel
  have ft : Fits [⟨a.toNat, 16, 5⟩, ⟨b.toNat, 11, 5⟩, ⟨c.toNat, 0, 5⟩] := ⟨a.isLt, b.isLt, c.isLt, trivial⟩
  have em : fld W 26 6 = 0x11 := read_const hw ok ft (show apart 26 6 [(16, 5), (11, 5), (0, 5)] = true by decide +kernel) (by decide +kernel)
  have ej : fld W 5 6 = 6 := read_const hw ok ft (show apart 5 6 [(16, 5), (11, 5), (0, 5)] = true by decide +kernel) (by decide +kernel)
  have ez1 : fld W 21 5 = 0 := read_const hw ok ft (show apart 21 5 [(16, 5), (11, 5), (0, 5)] = true by decide +kernel) (by decide +kernel)
  have ef1 : bv 5 W 16 = a := read_bv hw ok ft (.head _)
  have ef2 : bv 5 W 11 = b := read_bv hw ok ft (.tail _ (.head _))
  have ef3 : bv 5 W 0 = c := read_bv hw ok ft (.tail _ (.tail _ (.head _)))
  refine ⟨hw ▸ pack_lt ok ft (show inWord [(16, 5), (11, 5), (0, 5)] = true by decide +kernel) (by decide +kernel), .core (.csrclr a b c), ?_, rfl⟩
  rw [decodeNat_11 W em, decSys]
  simp only [ej, ez1, ef1, ef2, ef3, zeros, List.all, beq_self_eq_true, Bool.and_self, if_true]

theorem RoundTrip.segw (g : BitVec 3) (a : BitVec 5) (b : BitVec 5) : RoundTrip.Statement (.segw g a b) := by
  intro hwf W hw
  have hw : pack 0x440000E0 (strip [⟨g.toNat, 21, 3⟩, ⟨a.toNat, 16, 5⟩, ⟨b.toNat, 11, 5⟩]) = W := Option.some.inj hw
  have ok : laidOut 0x440000E0 [(21, 3), (16, 5), (11, 5)] = true := by decide +kernel
  have ft : Fits [⟨g.toNat, 21, 3⟩, ⟨a.toNat, 16, 5⟩, ⟨b.toNat, 11, 5⟩] := ⟨g.isLt, a.isLt, b.isLt, trivial⟩
  have em : fld W 26 6 = 0x11 := read_const hw ok ft (show apart 26 6 [(21, 3), (16, 5), (11, 5)] = true by decide +kernel) (by decide +kernel)
  have ej : fld W 5 6 = 7 := read_const hw ok ft (show apart 5 6 [(21, 3), (16, 5), (11, 5)] = true by decide +kernel) (by decide +kernel)
  have ez1 : fld W 0 5 = 0 := read_const hw ok ft (show apart 0 5 [(21, 3), (16, 5), (11, 5)] = true by decide +kernel) (by decide +kernel)
  have ez2 : fld W 24 2 = 0 := read_const hw ok ft (show apart 24 2 [(21, 3), (16, 5), (11, 5)] = true by decide +kernel) (by decide +kernel)
  have ef1 : bv 3 W 21 = g := read_bv hw ok ft (.head _)
  have ef2 : bv 5 W 16 = a := read_bv hw ok ft (.tail _ (.head _))
  have ef3 : bv 5 W 11 = b := read_bv hw ok ft (.tail _ (.tail _ (.head _)))
  refine ⟨hw ▸ pack_lt ok ft (show inWord [(21, 3), (16, 5), (11, 5)] = true by decide +kernel) (by decide +kernel), .core (.segw g a b), ?_, rfl⟩
  rw [decodeNat_11 W em, decSys]
  simp only [ej, ez1, ez2, ef1, ef2, ef3, zeros, List.all, beq_self_eq_true, Bool.and_self, if_true]

theorem RoundTrip.segr (d : BitVec 5) (g : BitVec 3) (s : BitVec 5) : RoundTrip.Statement (.segr d g s) := by
  intro hwf W hw
  have hw : pack 0x44000100 (strip [⟨d.toNat, 21, 5⟩, ⟨g.toNat, 16, 3⟩, ⟨s.toNat, 0, 5⟩]) = W := Option.some.inj hw
  have ok : laidOut 0x44000100 [(21, 5), (16, 3), (0, 5)] = true := by decide +kernel
  have ft : Fits [⟨d.toNat, 21, 5⟩, ⟨g.toNat, 16, 3⟩, ⟨s.toNat, 0, 5⟩] := ⟨d.isLt, g.isLt, s.isLt, trivial⟩
  have em : fld W 26 6 = 0x11 := read_const hw ok ft (show apart 26 6 [(21, 5), (16, 3), (0, 5)] = true by decide +kernel) (by decide +kernel)
  have ej : fld W 5 6 = 8 := read_const hw ok ft (show apart 5 6 [(21, 5), (16, 3), (0, 5)] = true by decide +kernel) (by decide +kernel)
  have ez1 : fld W 11 5 = 0 := read_const hw ok ft (show apart 11 5 [(21, 5), (16, 3), (0, 5)] = true by decide +kernel) (by decide +kernel)
  have ez2 : fld W 19 2 = 0 := read_const hw ok ft (show apart 19 2 [(21, 5), (16, 3), (0, 5)] = true by decide +kernel) (by decide +kernel)
  have ef1 : bv 5 W 21 = d := read_bv hw ok ft (.head _)
  have ef2 : bv 3 W 16 = g := read_bv hw ok ft (.tail _ (.head _))
  have ef3 : bv 5 W 0 = s := read_bv hw ok ft (.tail _ (.tail _ (.head _)))
  refine ⟨hw ▸ pack_lt ok ft (show inWord [(21, 5), (16, 3), (0, 5)] = true by decide +kernel) (by decide +kernel), .core (.segr d g s), ?_, rfl⟩
  rw [decodeNat_11 W em, decSys]
  simp only [ej, ez1, ez2, ef1, ef2, ef3, zeros, List.all, beq_self_eq_true, Bool.and_self, if_true, wfOr, hwf]

theorem RoundTrip.ident (d : BitVec 5) (s : BitVec 5) : RoundTrip.Statement (.ident d s) := by
  intro hwf W hw
  have hw : pack 0x44000120 (strip [⟨d.toNat, 21, 5⟩, ⟨s.toNat, 0, 5⟩]) = W := Option.some.inj hw
  have ok : laidOut 0x44000120 [(21, 5), (0, 5)] = true := by decide +kernel
  have ft : Fits [⟨d.toNat, 21, 5⟩, ⟨s.toNat, 0, 5⟩] := ⟨d.isLt, s.isLt, trivial⟩
  have em : fld W 26 6 = 0x11 := read_const hw ok ft (show apart 26 6 [(21, 5), (0, 5)] = true by decide +kernel) (by decide +kernel)
  have ej : fld W 5 6 = 9 := read_const hw ok ft (show apart 5 6 [(21, 5), (0, 5)] = true by decide +kernel) (by decide +kernel)
  have ez1 : fld W 11 10 = 0 := read_const hw ok ft (show apart 11 10 [(21, 5), (0, 5)] = true by decide +kernel) (by decide +kernel)
  have ef1 : bv 5 W 21 = d := read_bv hw ok ft (.head _)
  have ef2 : bv 5 W 0 = s := read_bv hw ok ft (.tail _ (.head _))
  refine ⟨hw ▸ pack_lt ok ft (show inWord [(21, 5), (0, 5)] = true by decide +kernel) (by decide +kernel), .core (.ident d s), ?_, rfl⟩
  rw [decodeNat_11 W em, decSys]
  simp only [ej, ez1, ef1, ef2, zeros, List.all, beq_self_eq_true, Bool.and_self, if_true, wfOr, hwf]

theorem RoundTrip.rdcyc (d : BitVec 5) (s : BitVec 5) : RoundTrip.Statement (.rdcyc d s) := by
  intro hwf W hw
  have hw : pack 0x44000140 (strip [⟨d.toNat, 21, 5⟩, ⟨s.toNat, 0, 5⟩]) = W := Option.some.inj hw
  have ok : laidOut 0x44000140 [(21, 5), (0, 5)] = true := by decide +kernel
  have ft : Fits [⟨d.toNat, 21, 5⟩, ⟨s.toNat, 0, 5⟩] := ⟨d.isLt, s.isLt, trivial⟩
  have em : fld W 26 6 = 0x11 := read_const hw ok ft (show apart 26 6 [(21, 5), (0, 5)] = true by decide +kernel) (by decide +kernel)
  have ej : fld W 5 6 = 10 := read_const hw ok ft (show apart 5 6 [(21, 5), (0, 5)] = true by decide +kernel) (by decide +kernel)
  have ez1 : fld W 11 10 = 0 := read_const hw ok ft (show apart 11 10 [(21, 5), (0, 5)] = true by decide +kernel) (by decide +kernel)
  have ef1 : bv 5 W 21 = d := read_bv hw ok ft (.head _)
  have ef2 : bv 5 W 0 = s := read_bv hw ok ft (.tail _ (.head _))
  refine ⟨hw ▸ pack_lt ok ft (show inWord [(21, 5), (0, 5)] = true by decide +kernel) (by decide +kernel), .core (.rdcyc d s), ?_, rfl⟩
  rw [decodeNat_11 W em, decSys]
  simp only [ej, ez1, ef1, ef2, zeros, List.all, beq_self_eq_true, Bool.and_self, if_true, wfOr, hwf]

theorem RoundTrip.trap (a : BitVec 5) : RoundTrip.Statement (.trap a) := by
  intro hwf W hw
  have hw : pack 0x44000160 (strip [⟨a.toNat, 16, 5⟩]) = W := Option.some.inj hw
  have ok : laidOut 0x44000160 [(16, 5)] = true := by decide +kernel
  have ft : Fits [⟨a.toNat, 16, 5⟩] := ⟨a.isLt, trivial⟩
  have em : fld W 26 6 = 0x11 := read_const hw ok ft (show apart 26 6 [(16, 5)] = true by decide +kernel) (by decide +kernel)
  have ej : fld W 5 6 = 11 := read_const hw ok ft (show apart 5 6 [(16, 5)] = true by decide +kernel) (by decide +kernel)
  have ez1 : fld W 0 5 = 0 := read_const hw ok ft (show apart 0 5 [(16, 5)] = true by decide +kernel) (by decide +kernel)
  have ez2 : fld W 11 5 = 0 := read_const hw ok ft (show apart 11 5 [(16, 5)] = true by decide +kernel) (by decide +kernel)
  have ez3 : fld W 21 5 = 0 := read_const hw ok ft (show apart 21 5 [(16, 5)] = true by decide +kernel) (by decide +kernel)
  have ef1 : bv 5 W 16 = a := read_bv hw ok ft (.head _)
  refine ⟨hw ▸ pack_lt ok ft (show inWord [(16, 5)] = true by decide +kernel) (by decide +kernel), .core (.trap a), ?_, rfl⟩
  rw [decodeNat_11 W em, decSys]
  simp only [ej, ez1, ez2, ez3, ef1, zeros, List.all, beq_self_eq_true, Bool.and_self, if_true]

theorem RoundTrip.brk (i : BitVec 5) : RoundTrip.Statement (.brk i) := by
  intro hwf W hw
  have hw : pack 0x44000180 (strip [⟨i.toNat, 0, 5⟩]) = W := Option.some.inj hw
  have ok : laidOut 0x44000180 [(0, 5)] = true := by decide +kernel
  have ft : Fits [⟨i.toNat, 0, 5⟩] := ⟨i.isLt, trivial⟩
  have em : fld W 26 6 = 0x11 := read_const hw ok ft (show apart 26 6 [(0, 5)] = true by decide +kernel) (by decide +kernel)
  have ej : fld W 5 6 = 12 := read_const hw ok ft (show apart 5 6 [(0, 5)] = true by decide +kernel) (by decide +kernel)
  have ez1 : fld W 11 15 = 0 := read_const hw ok ft (show apart 11 15 [(0, 5)] = true by decide +kernel) (by decide +kernel)
  have ef1 : bv 5 W 0 = i := read_bv hw ok ft (.head _)
  refine ⟨hw ▸ pack_lt ok ft (show inWord [(0, 5)] = true by decide +kernel) (by decide +kernel), .core (.brk i), ?_, rfl⟩
  rw [decodeNat_11 W em, decSys]
  simp only [ej, ez1, ef1, zeros, List.all, beq_self_eq_true, Bool.and_self, if_true]

theorem RoundTrip.frec (d : BitVec 4) : RoundTrip.Statement (.frec d) := by
  intro hwf W hw
  have hw : pack 0x440001E0 (strip [⟨d.toNat, 21, 4⟩]) = W := Option.some.inj hw
  have ok : laidOut 0x440001E0 [(21, 4)] = true := by decide +kernel
  have ft : Fits [⟨d.toNat, 21, 4⟩] := ⟨d.isLt, trivial⟩
  have em : fld W 26 6 = 0x11 := read_const hw ok ft (show apart 26 6 [(21, 4)] = true by decide +kernel) (by decide +kernel)
  have ej : fld W 5 6 = 15 := read_const hw ok ft (show apart 5 6 [(21, 4)] = true by decide +kernel) (by decide +kernel)
  have ez1 : fld W 25 1 = 0 := read_const hw ok ft (show apart 25 1 [(21, 4)] = true by decide +kernel) (by decide +kernel)
  have ez2 : fld W 0 5 = 0 := read_const hw ok ft (show apart 0 5 [(21, 4)] = true by decide +kernel) (by decide +kernel)
  have ez3 : fld W 11 10 = 0 := read_const hw ok ft (show apart 11 10 [(21, 4)] = true by decide +kernel) (by decide +kernel)
  have ef1 : bv 4 W 21 = d := read_bv hw ok ft (.head _)
  refine ⟨hw ▸ pack_lt ok ft (show inWord [(21, 4)] = true by decide +kernel) (by decide +kernel), .core (.frec d), ?_, rfl⟩
  rw [decodeNat_11 W em, decSys]
  simp only [ej, ez1, ez2, ez3, ef1, zeros, List.all, beq_self_eq_true, Bool.and_self, if_true]

theorem RoundTrip.ctxsv (d : BitVec 5) (a : BitVec 5) : RoundTrip.Statement (.ctxsv d a) := by
  intro hwf W hw
  have hw : pack 0x44000200 (strip [⟨d.toNat, 21, 5⟩, ⟨a.toNat, 16, 5⟩]) = W := Option.some.inj hw
  have ok : laidOut 0x44000200 [(21, 5), (16, 5)] = true := by decide +kernel
  have ft : Fits [⟨d.toNat, 21, 5⟩, ⟨a.toNat, 16, 5⟩] := ⟨d.isLt, a.isLt, trivial⟩
  have em : fld W 26 6 = 0x11 := read_const hw ok ft (show apart 26 6 [(21, 5), (16, 5)] = true by decide +kernel) (by decide +kernel)
  have ej : fld W 5 6 = 16 := read_const hw ok ft (show apart 5 6 [(21, 5), (16, 5)] = true by decide +kernel) (by decide +kernel)
  have ez1 : fld W 0 5 = 0 := read_const hw ok ft (show apart 0 5 [(21, 5), (16, 5)] = true by decide +kernel) (by decide +kernel)
  have ez2 : fld W 11 5 = 0 := read_const hw ok ft (show apart 11 5 [(21, 5), (16, 5)] = true by decide +kernel) (by decide +kernel)
  have ef1 : bv 5 W 21 = d := read_bv hw ok ft (.head _)
  have ef2 : bv 5 W 16 = a := read_bv hw ok ft (.tail _ (.head _))
  refine ⟨hw ▸ pack_lt ok ft (show inWord [(21, 5), (16, 5)] = true by decide +kernel) (by decide +kernel), .core (.ctxsv d a), ?_, rfl⟩
  rw [decodeNat_11 W em, decSys]
  simp only [ej, ez1, ez2, ef1, ef2, zeros, List.all, beq_self_eq_true, Bool.and_self, if_true]

theorem RoundTrip.ctxld (d : BitVec 5) (a : BitVec 5) : RoundTrip.Statement (.ctxld d a) := by
  intro hwf W hw
  have hw : pack 0x44000220 (strip [⟨d.toNat, 21, 5⟩, ⟨a.toNat, 16, 5⟩]) = W := Option.some.inj hw
  have ok : laidOut 0x44000220 [(21, 5), (16, 5)] = true := by decide +kernel
  have ft : Fits [⟨d.toNat, 21, 5⟩, ⟨a.toNat, 16, 5⟩] := ⟨d.isLt, a.isLt, trivial⟩
  have em : fld W 26 6 = 0x11 := read_const hw ok ft (show apart 26 6 [(21, 5), (16, 5)] = true by decide +kernel) (by decide +kernel)
  have ej : fld W 5 6 = 17 := read_const hw ok ft (show apart 5 6 [(21, 5), (16, 5)] = true by decide +kernel) (by decide +kernel)
  have ez1 : fld W 0 5 = 0 := read_const hw ok ft (show apart 0 5 [(21, 5), (16, 5)] = true by decide +kernel) (by decide +kernel)
  have ez2 : fld W 11 5 = 0 := read_const hw ok ft (show apart 11 5 [(21, 5), (16, 5)] = true by decide +kernel) (by decide +kernel)
  have ef1 : bv 5 W 21 = d := read_bv hw ok ft (.head _)
  have ef2 : bv 5 W 16 = a := read_bv hw ok ft (.tail _ (.head _))
  refine ⟨hw ▸ pack_lt ok ft (show inWord [(21, 5), (16, 5)] = true by decide +kernel) (by decide +kernel), .core (.ctxld d a), ?_, rfl⟩
  rw [decodeNat_11 W em, decSys]
  simp only [ej, ez1, ez2, ef1, ef2, zeros, List.all, beq_self_eq_true, Bool.and_self, if_true]

theorem RoundTrip.mark (d : BitVec 5) (a : BitVec 5) : RoundTrip.Statement (.mark d a) := by
  intro hwf W hw
  have hw : pack 0x44000240 (strip [⟨d.toNat, 21, 5⟩, ⟨a.toNat, 16, 5⟩]) = W := Option.some.inj hw
  have ok : laidOut 0x44000240 [(21, 5), (16, 5)] = true := by decide +kernel
  have ft : Fits [⟨d.toNat, 21, 5⟩, ⟨a.toNat, 16, 5⟩] := ⟨d.isLt, a.isLt, trivial⟩
  have em : fld W 26 6 = 0x11 := read_const hw ok ft (show apart 26 6 [(21, 5), (16, 5)] = true by decide +kernel) (by decide +kernel)
  have ej : fld W 5 6 = 18 := read_const hw ok ft (show apart 5 6 [(21, 5), (16, 5)] = true by decide +kernel) (by decide +kernel)
  have ez1 : fld W 0 5 = 0 := read_const hw ok ft (show apart 0 5 [(21, 5), (16, 5)] = true by decide +kernel) (by decide +kernel)
  have ez2 : fld W 11 5 = 0 := read_const hw ok ft (show apart 11 5 [(21, 5), (16, 5)] = true by decide +kernel) (by decide +kernel)
  have ef1 : bv 5 W 21 = d := read_bv hw ok ft (.head _)
  have ef2 : bv 5 W 16 = a := read_bv hw ok ft (.tail _ (.head _))
  refine ⟨hw ▸ pack_lt ok ft (show inWord [(21, 5), (16, 5)] = true by decide +kernel) (by decide +kernel), .core (.mark d a), ?_, rfl⟩
  rw [decodeNat_11 W em, decSys]
  simp only [ej, ez1, ez2, ef1, ef2, zeros, List.all, beq_self_eq_true, Bool.and_self, if_true]

theorem RoundTrip.aadd (d : BitVec 5) (a : BitVec 5) (b : BitVec 5) (o : AOrd) (x : Bool) : RoundTrip.Statement (.aadd d a b o x) := by
  intro hwf W hw
  have hw : pack 0x50000000 (strip [⟨d.toNat, 21, 5⟩, ⟨a.toNat, 16, 5⟩, ⟨b.toNat, 11, 5⟩, ⟨o.code, 3, 2⟩, ⟨x.toNat, 2, 1⟩]) = W := Option.some.inj hw
  have ok : laidOut 0x50000000 [(21, 5), (16, 5), (11, 5), (3, 2), (2, 1)] = true := by decide +kernel
  have ft : Fits [⟨d.toNat, 21, 5⟩, ⟨a.toNat, 16, 5⟩, ⟨b.toNat, 11, 5⟩, ⟨o.code, 3, 2⟩, ⟨x.toNat, 2, 1⟩] := ⟨d.isLt, a.isLt, b.isLt, o.code_lt, x.toNat_lt, trivial⟩
  have em : fld W 26 6 = 0x14 := read_const hw ok ft (show apart 26 6 [(21, 5), (16, 5), (11, 5), (3, 2), (2, 1)] = true by decide +kernel) (by decide +kernel)
  have ej : fld W 5 6 = 0 := read_const hw ok ft (show apart 5 6 [(21, 5), (16, 5), (11, 5), (3, 2), (2, 1)] = true by decide +kernel) (by decide +kernel)
  have ez1 : fld W 0 2 = 0 := read_const hw ok ft (show apart 0 2 [(21, 5), (16, 5), (11, 5), (3, 2), (2, 1)] = true by decide +kernel) (by decide +kernel)
  have ef1 : bv 5 W 21 = d := read_bv hw ok ft (.head _)
  have ef2 : bv 5 W 16 = a := read_bv hw ok ft (.tail _ (.head _))
  have ef3 : bv 5 W 11 = b := read_bv hw ok ft (.tail _ (.tail _ (.head _)))
  have ef4 : AOrd.ofCode (fld W 3 2) = o := AOrd.of_code (read_code hw ok ft (.tail _ (.tail _ (.tail _ (.head _)))))
  have ef5 : flag W 2 = x := read_flag hw ok ft (.tail _ (.tail _ (.tail _ (.tail _ (.head _)))))
  refine ⟨hw ▸ pack_lt ok ft (show inWord [(21, 5), (16, 5), (11, 5), (3, 2), (2, 1)] = true by decide +kernel) (by decide +kernel), .core (.aadd d a b o x), ?_, rfl⟩
  rw [decodeNat_14 W em, decAtom]
  simp only [ej, ez1, ef1, ef2, ef3, ef4, ef5, zeros, List.all, beq_self_eq_true, Bool.and_self, if_true]

theorem RoundTrip.aand (d : BitVec 5) (a : BitVec 5) (b : BitVec 5) (o : AOrd) (x : Bool) : RoundTrip.Statement (.aand d a b o x) := by
  intro hwf W hw
  have hw : pack 0x50000020 (strip [⟨d.toNat, 21, 5⟩, ⟨a.toNat, 16, 5⟩, ⟨b.toNat, 11, 5⟩, ⟨o.code, 3, 2⟩, ⟨x.toNat, 2, 1⟩]) = W := Option.some.inj hw
  have ok : laidOut 0x50000020 [(21, 5), (16, 5), (11, 5), (3, 2), (2, 1)] = true := by decide +kernel
  have ft : Fits [⟨d.toNat, 21, 5⟩, ⟨a.toNat, 16, 5⟩, ⟨b.toNat, 11, 5⟩, ⟨o.code, 3, 2⟩, ⟨x.toNat, 2, 1⟩] := ⟨d.isLt, a.isLt, b.isLt, o.code_lt, x.toNat_lt, trivial⟩
  have em : fld W 26 6 = 0x14 := read_const hw ok ft (show apart 26 6 [(21, 5), (16, 5), (11, 5), (3, 2), (2, 1)] = true by decide +kernel) (by decide +kernel)
  have ej : fld W 5 6 = 1 := read_const hw ok ft (show apart 5 6 [(21, 5), (16, 5), (11, 5), (3, 2), (2, 1)] = true by decide +kernel) (by decide +kernel)
  have ez1 : fld W 0 2 = 0 := read_const hw ok ft (show apart 0 2 [(21, 5), (16, 5), (11, 5), (3, 2), (2, 1)] = true by decide +kernel) (by decide +kernel)
  have ef1 : bv 5 W 21 = d := read_bv hw ok ft (.head _)
  have ef2 : bv 5 W 16 = a := read_bv hw ok ft (.tail _ (.head _))
  have ef3 : bv 5 W 11 = b := read_bv hw ok ft (.tail _ (.tail _ (.head _)))
  have ef4 : AOrd.ofCode (fld W 3 2) = o := AOrd.of_code (read_code hw ok ft (.tail _ (.tail _ (.tail _ (.head _)))))
  have ef5 : flag W 2 = x := read_flag hw ok ft (.tail _ (.tail _ (.tail _ (.tail _ (.head _)))))
  refine ⟨hw ▸ pack_lt ok ft (show inWord [(21, 5), (16, 5), (11, 5), (3, 2), (2, 1)] = true by decide +kernel) (by decide +kernel), .core (.aand d a b o x), ?_, rfl⟩
  rw [decodeNat_14 W em, decAtom]
  simp only [ej, ez1, ef1, ef2, ef3, ef4, ef5, zeros, List.all, beq_self_eq_true, Bool.and_self, if_true]

theorem RoundTrip.aor (d : BitVec 5) (a : BitVec 5) (b : BitVec 5) (o : AOrd) (x : Bool) : RoundTrip.Statement (.aor d a b o x) := by
  intro hwf W hw
  have hw : pack 0x50000040 (strip [⟨d.toNat, 21, 5⟩, ⟨a.toNat, 16, 5⟩, ⟨b.toNat, 11, 5⟩, ⟨o.code, 3, 2⟩, ⟨x.toNat, 2, 1⟩]) = W := Option.some.inj hw
  have ok : laidOut 0x50000040 [(21, 5), (16, 5), (11, 5), (3, 2), (2, 1)] = true := by decide +kernel
  have ft : Fits [⟨d.toNat, 21, 5⟩, ⟨a.toNat, 16, 5⟩, ⟨b.toNat, 11, 5⟩, ⟨o.code, 3, 2⟩, ⟨x.toNat, 2, 1⟩] := ⟨d.isLt, a.isLt, b.isLt, o.code_lt, x.toNat_lt, trivial⟩
  have em : fld W 26 6 = 0x14 := read_const hw ok ft (show apart 26 6 [(21, 5), (16, 5), (11, 5), (3, 2), (2, 1)] = true by decide +kernel) (by decide +kernel)
  have ej : fld W 5 6 = 2 := read_const hw ok ft (show apart 5 6 [(21, 5), (16, 5), (11, 5), (3, 2), (2, 1)] = true by decide +kernel) (by decide +kernel)
  have ez1 : fld W 0 2 = 0 := read_const hw ok ft (show apart 0 2 [(21, 5), (16, 5), (11, 5), (3, 2), (2, 1)] = true by decide +kernel) (by decide +kernel)
  have ef1 : bv 5 W 21 = d := read_bv hw ok ft (.head _)
  have ef2 : bv 5 W 16 = a := read_bv hw ok ft (.tail _ (.head _))
  have ef3 : bv 5 W 11 = b := read_bv hw ok ft (.tail _ (.tail _ (.head _)))
  have ef4 : AOrd.ofCode (fld W 3 2) = o := AOrd.of_code (read_code hw ok ft (.tail _ (.tail _ (.tail _ (.head _)))))
  have ef5 : flag W 2 = x := read_flag hw ok ft (.tail _ (.tail _ (.tail _ (.tail _ (.head _)))))
  refine ⟨hw ▸ pack_lt ok ft (show inWord [(21, 5), (16, 5), (11, 5), (3, 2), (2, 1)] = true by decide +kernel) (by decide +kernel), .core (.aor d a b o x), ?_, rfl⟩
  rw [decodeNat_14 W em, decAtom]
  simp only [ej, ez1, ef1, ef2, ef3, ef4, ef5, zeros, List.all, beq_self_eq_true, Bool.and_self, if_true]

theorem RoundTrip.axor (d : BitVec 5) (a : BitVec 5) (b : BitVec 5) (o : AOrd) (x : Bool) : RoundTrip.Statement (.axor d a b o x) := by
  intro hwf W hw
  have hw : pack 0x50000060 (strip [⟨d.toNat, 21, 5⟩, ⟨a.toNat, 16, 5⟩, ⟨b.toNat, 11, 5⟩, ⟨o.code, 3, 2⟩, ⟨x.toNat, 2, 1⟩]) = W := Option.some.inj hw
  have ok : laidOut 0x50000060 [(21, 5), (16, 5), (11, 5), (3, 2), (2, 1)] = true := by decide +kernel
  have ft : Fits [⟨d.toNat, 21, 5⟩, ⟨a.toNat, 16, 5⟩, ⟨b.toNat, 11, 5⟩, ⟨o.code, 3, 2⟩, ⟨x.toNat, 2, 1⟩] := ⟨d.isLt, a.isLt, b.isLt, o.code_lt, x.toNat_lt, trivial⟩
  have em : fld W 26 6 = 0x14 := read_const hw ok ft (show apart 26 6 [(21, 5), (16, 5), (11, 5), (3, 2), (2, 1)] = true by decide +kernel) (by decide +kernel)
  have ej : fld W 5 6 = 3 := read_const hw ok ft (show apart 5 6 [(21, 5), (16, 5), (11, 5), (3, 2), (2, 1)] = true by decide +kernel) (by decide +kernel)
  have ez1 : fld W 0 2 = 0 := read_const hw ok ft (show apart 0 2 [(21, 5), (16, 5), (11, 5), (3, 2), (2, 1)] = true by decide +kernel) (by decide +kernel)
  have ef1 : bv 5 W 21 = d := read_bv hw ok ft (.head _)
  have ef2 : bv 5 W 16 = a := read_bv hw ok ft (.tail _ (.head _))
  have ef3 : bv 5 W 11 = b := read_bv hw ok ft (.tail _ (.tail _ (.head _)))
  have ef4 : AOrd.ofCode (fld W 3 2) = o := AOrd.of_code (read_code hw ok ft (.tail _ (.tail _ (.tail _ (.head _)))))
  have ef5 : flag W 2 = x := read_flag hw ok ft (.tail _ (.tail _ (.tail _ (.tail _ (.head _)))))
  refine ⟨hw ▸ pack_lt ok ft (show inWord [(21, 5), (16, 5), (11, 5), (3, 2), (2, 1)] = true by decide +kernel) (by decide +kernel), .core (.axor d a b o x), ?_, rfl⟩
  rw [decodeNat_14 W em, decAtom]
  simp only [ej, ez1, ef1, ef2, ef3, ef4, ef5, zeros, List.all, beq_self_eq_true, Bool.and_self, if_true]

theorem RoundTrip.amin (d : BitVec 5) (a : BitVec 5) (b : BitVec 5) (o : AOrd) (x : Bool) : RoundTrip.Statement (.amin d a b o x) := by
  intro hwf W hw
  have hw : pack 0x50000080 (strip [⟨d.toNat, 21, 5⟩, ⟨a.toNat, 16, 5⟩, ⟨b.toNat, 11, 5⟩, ⟨o.code, 3, 2⟩, ⟨x.toNat, 2, 1⟩]) = W := Option.some.inj hw
  have ok : laidOut 0x50000080 [(21, 5), (16, 5), (11, 5), (3, 2), (2, 1)] = true := by decide +kernel
  have ft : Fits [⟨d.toNat, 21, 5⟩, ⟨a.toNat, 16, 5⟩, ⟨b.toNat, 11, 5⟩, ⟨o.code, 3, 2⟩, ⟨x.toNat, 2, 1⟩] := ⟨d.isLt, a.isLt, b.isLt, o.code_lt, x.toNat_lt, trivial⟩
  have em : fld W 26 6 = 0x14 := read_const hw ok ft (show apart 26 6 [(21, 5), (16, 5), (11, 5), (3, 2), (2, 1)] = true by decide +kernel) (by decide +kernel)
  have ej : fld W 5 6 = 4 := read_const hw ok ft (show apart 5 6 [(21, 5), (16, 5), (11, 5), (3, 2), (2, 1)] = true by decide +kernel) (by decide +kernel)
  have ez1 : fld W 0 2 = 0 := read_const hw ok ft (show apart 0 2 [(21, 5), (16, 5), (11, 5), (3, 2), (2, 1)] = true by decide +kernel) (by decide +kernel)
  have ef1 : bv 5 W 21 = d := read_bv hw ok ft (.head _)
  have ef2 : bv 5 W 16 = a := read_bv hw ok ft (.tail _ (.head _))
  have ef3 : bv 5 W 11 = b := read_bv hw ok ft (.tail _ (.tail _ (.head _)))
  have ef4 : AOrd.ofCode (fld W 3 2) = o := AOrd.of_code (read_code hw ok ft (.tail _ (.tail _ (.tail _ (.head _)))))
  have ef5 : flag W 2 = x := read_flag hw ok ft (.tail _ (.tail _ (.tail _ (.tail _ (.head _)))))
  refine ⟨hw ▸ pack_lt ok ft (show inWord [(21, 5), (16, 5), (11, 5), (3, 2), (2, 1)] = true by decide +kernel) (by decide +kernel), .core (.amin d a b o x), ?_, rfl⟩
  rw [decodeNat_14 W em, decAtom]
  simp only [ej, ez1, ef1, ef2, ef3, ef4, ef5, zeros, List.all, beq_self_eq_true, Bool.and_self, if_true]

theorem RoundTrip.amax (d : BitVec 5) (a : BitVec 5) (b : BitVec 5) (o : AOrd) (x : Bool) : RoundTrip.Statement (.amax d a b o x) := by
  intro hwf W hw
  have hw : pack 0x500000A0 (strip [⟨d.toNat, 21, 5⟩, ⟨a.toNat, 16, 5⟩, ⟨b.toNat, 11, 5⟩, ⟨o.code, 3, 2⟩, ⟨x.toNat, 2, 1⟩]) = W := Option.some.inj hw
  have ok : laidOut 0x500000A0 [(21, 5), (16, 5), (11, 5), (3, 2), (2, 1)] = true := by decide +kernel
  have ft : Fits [⟨d.toNat, 21, 5⟩, ⟨a.toNat, 16, 5⟩, ⟨b.toNat, 11, 5⟩, ⟨o.code, 3, 2⟩, ⟨x.toNat, 2, 1⟩] := ⟨d.isLt, a.isLt, b.isLt, o.code_lt, x.toNat_lt, trivial⟩
  have em : fld W 26 6 = 0x14 := read_const hw ok ft (show apart 26 6 [(21, 5), (16, 5), (11, 5), (3, 2), (2, 1)] = true by decide +kernel) (by decide +kernel)
  have ej : fld W 5 6 = 5 := read_const hw ok ft (show apart 5 6 [(21, 5), (16, 5), (11, 5), (3, 2), (2, 1)] = true by decide +kernel) (by decide +kernel)
  have ez1 : fld W 0 2 = 0 := read_const hw ok ft (show apart 0 2 [(21, 5), (16, 5), (11, 5), (3, 2), (2, 1)] = true by decide +kernel) (by decide +kernel)
  have ef1 : bv 5 W 21 = d := read_bv hw ok ft (.head _)
  have ef2 : bv 5 W 16 = a := read_bv hw ok ft (.tail _ (.head _))
  have ef3 : bv 5 W 11 = b := read_bv hw ok ft (.tail _ (.tail _ (.head _)))
  have ef4 : AOrd.ofCode (fld W 3 2) = o := AOrd.of_code (read_code hw ok ft (.tail _ (.tail _ (.tail _ (.head _)))))
  have ef5 : flag W 2 = x := read_flag hw ok ft (.tail _ (.tail _ (.tail _ (.tail _ (.head _)))))
  refine ⟨hw ▸ pack_lt ok ft (show inWord [(21, 5), (16, 5), (11, 5), (3, 2), (2, 1)] = true by decide +kernel) (by decide +kernel), .core (.amax d a b o x), ?_, rfl⟩
  rw [decodeNat_14 W em, decAtom]
  simp only [ej, ez1, ef1, ef2, ef3, ef4, ef5, zeros, List.all, beq_self_eq_true, Bool.and_self, if_true]

theorem RoundTrip.aminu (d : BitVec 5) (a : BitVec 5) (b : BitVec 5) (o : AOrd) (x : Bool) : RoundTrip.Statement (.aminu d a b o x) := by
  intro hwf W hw
  have hw : pack 0x500000C0 (strip [⟨d.toNat, 21, 5⟩, ⟨a.toNat, 16, 5⟩, ⟨b.toNat, 11, 5⟩, ⟨o.code, 3, 2⟩, ⟨x.toNat, 2, 1⟩]) = W := Option.some.inj hw
  have ok : laidOut 0x500000C0 [(21, 5), (16, 5), (11, 5), (3, 2), (2, 1)] = true := by decide +kernel
  have ft : Fits [⟨d.toNat, 21, 5⟩, ⟨a.toNat, 16, 5⟩, ⟨b.toNat, 11, 5⟩, ⟨o.code, 3, 2⟩, ⟨x.toNat, 2, 1⟩] := ⟨d.isLt, a.isLt, b.isLt, o.code_lt, x.toNat_lt, trivial⟩
  have em : fld W 26 6 = 0x14 := read_const hw ok ft (show apart 26 6 [(21, 5), (16, 5), (11, 5), (3, 2), (2, 1)] = true by decide +kernel) (by decide +kernel)
  have ej : fld W 5 6 = 6 := read_const hw ok ft (show apart 5 6 [(21, 5), (16, 5), (11, 5), (3, 2), (2, 1)] = true by decide +kernel) (by decide +kernel)
  have ez1 : fld W 0 2 = 0 := read_const hw ok ft (show apart 0 2 [(21, 5), (16, 5), (11, 5), (3, 2), (2, 1)] = true by decide +kernel) (by decide +kernel)
  have ef1 : bv 5 W 21 = d := read_bv hw ok ft (.head _)
  have ef2 : bv 5 W 16 = a := read_bv hw ok ft (.tail _ (.head _))
  have ef3 : bv 5 W 11 = b := read_bv hw ok ft (.tail _ (.tail _ (.head _)))
  have ef4 : AOrd.ofCode (fld W 3 2) = o := AOrd.of_code (read_code hw ok ft (.tail _ (.tail _ (.tail _ (.head _)))))
  have ef5 : flag W 2 = x := read_flag hw ok ft (.tail _ (.tail _ (.tail _ (.tail _ (.head _)))))
  refine ⟨hw ▸ pack_lt ok ft (show inWord [(21, 5), (16, 5), (11, 5), (3, 2), (2, 1)] = true by decide +kernel) (by decide +kernel), .core (.aminu d a b o x), ?_, rfl⟩
  rw [decodeNat_14 W em, decAtom]
  simp only [ej, ez1, ef1, ef2, ef3, ef4, ef5, zeros, List.all, beq_self_eq_true, Bool.and_self, if_true]

theorem RoundTrip.amaxu (d : BitVec 5) (a : BitVec 5) (b : BitVec 5) (o : AOrd) (x : Bool) : RoundTrip.Statement (.amaxu d a b o x) := by
  intro hwf W hw
  have hw : pack 0x500000E0 (strip [⟨d.toNat, 21, 5⟩, ⟨a.toNat, 16, 5⟩, ⟨b.toNat, 11, 5⟩, ⟨o.code, 3, 2⟩, ⟨x.toNat, 2, 1⟩]) = W := Option.some.inj hw
  have ok : laidOut 0x500000E0 [(21, 5), (16, 5), (11, 5), (3, 2), (2, 1)] = true := by decide +kernel
  have ft : Fits [⟨d.toNat, 21, 5⟩, ⟨a.toNat, 16, 5⟩, ⟨b.toNat, 11, 5⟩, ⟨o.code, 3, 2⟩, ⟨x.toNat, 2, 1⟩] := ⟨d.isLt, a.isLt, b.isLt, o.code_lt, x.toNat_lt, trivial⟩
  have em : fld W 26 6 = 0x14 := read_const hw ok ft (show apart 26 6 [(21, 5), (16, 5), (11, 5), (3, 2), (2, 1)] = true by decide +kernel) (by decide +kernel)
  have ej : fld W 5 6 = 7 := read_const hw ok ft (show apart 5 6 [(21, 5), (16, 5), (11, 5), (3, 2), (2, 1)] = true by decide +kernel) (by decide +kernel)
  have ez1 : fld W 0 2 = 0 := read_const hw ok ft (show apart 0 2 [(21, 5), (16, 5), (11, 5), (3, 2), (2, 1)] = true by decide +kernel) (by decide +kernel)
  have ef1 : bv 5 W 21 = d := read_bv hw ok ft (.head _)
  have ef2 : bv 5 W 16 = a := read_bv hw ok ft (.tail _ (.head _))
  have ef3 : bv 5 W 11 = b := read_bv hw ok ft (.tail _ (.tail _ (.head _)))
  have ef4 : AOrd.ofCode (fld W 3 2) = o := AOrd.of_code (read_code hw ok ft (.tail _ (.tail _ (.tail _ (.head _)))))
  have ef5 : flag W 2 = x := read_flag hw ok ft (.tail _ (.tail _ (.tail _ (.tail _ (.head _)))))
  refine ⟨hw ▸ pack_lt ok ft (show inWord [(21, 5), (16, 5), (11, 5), (3, 2), (2, 1)] = true by decide +kernel) (by decide +kernel), .core (.amaxu d a b o x), ?_, rfl⟩
  rw [decodeNat_14 W em, decAtom]
  simp only [ej, ez1, ef1, ef2, ef3, ef4, ef5, zeros, List.all, beq_self_eq_true, Bool.and_self, if_true]

theorem RoundTrip.aswap (d : BitVec 5) (a : BitVec 5) (b : BitVec 5) (o : AOrd) (x : Bool) : RoundTrip.Statement (.aswap d a b o x) := by
  intro hwf W hw
  have hw : pack 0x50000100 (strip [⟨d.toNat, 21, 5⟩, ⟨a.toNat, 16, 5⟩, ⟨b.toNat, 11, 5⟩, ⟨o.code, 3, 2⟩, ⟨x.toNat, 2, 1⟩]) = W := Option.some.inj hw
  have ok : laidOut 0x50000100 [(21, 5), (16, 5), (11, 5), (3, 2), (2, 1)] = true := by decide +kernel
  have ft : Fits [⟨d.toNat, 21, 5⟩, ⟨a.toNat, 16, 5⟩, ⟨b.toNat, 11, 5⟩, ⟨o.code, 3, 2⟩, ⟨x.toNat, 2, 1⟩] := ⟨d.isLt, a.isLt, b.isLt, o.code_lt, x.toNat_lt, trivial⟩
  have em : fld W 26 6 = 0x14 := read_const hw ok ft (show apart 26 6 [(21, 5), (16, 5), (11, 5), (3, 2), (2, 1)] = true by decide +kernel) (by decide +kernel)
  have ej : fld W 5 6 = 8 := read_const hw ok ft (show apart 5 6 [(21, 5), (16, 5), (11, 5), (3, 2), (2, 1)] = true by decide +kernel) (by decide +kernel)
  have ez1 : fld W 0 2 = 0 := read_const hw ok ft (show apart 0 2 [(21, 5), (16, 5), (11, 5), (3, 2), (2, 1)] = true by decide +kernel) (by decide +kernel)
  have ef1 : bv 5 W 21 = d := read_bv hw ok ft (.head _)
  have ef2 : bv 5 W 16 = a := read_bv hw ok ft (.tail _ (.head _))
  have ef3 : bv 5 W 11 = b := read_bv hw ok ft (.tail _ (.tail _ (.head _)))
  have ef4 : AOrd.ofCode (fld W 3 2) = o := AOrd.of_code (read_code hw ok ft (.tail _ (.tail _ (.tail _ (.head _)))))
  have ef5 : flag W 2 = x := read_flag hw ok ft (.tail _ (.tail _ (.tail _ (.tail _ (.head _)))))
  refine ⟨hw ▸ pack_lt ok ft (show inWord [(21, 5), (16, 5), (11, 5), (3, 2), (2, 1)] = true by decide +kernel) (by decide +kernel), .core (.aswap d a b o x), ?_, rfl⟩
  rw [decodeNat_14 W em, decAtom]
  simp only [ej, ez1, ef1, ef2, ef3, ef4, ef5, zeros, List.all, beq_self_eq_true, Bool.and_self, if_true]

theorem RoundTrip.acas (d : BitVec 5) (a : BitVec 5) (b : BitVec 5) (o : AOrd) (x : Bool) : RoundTrip.Statement (.acas d a b o x) := by
  intro hwf W hw
  have hw : pack 0x50000120 (strip [⟨d.toNat, 21, 5⟩, ⟨a.toNat, 16, 5⟩, ⟨b.toNat, 11, 5⟩, ⟨o.code, 3, 2⟩, ⟨x.toNat, 2, 1⟩]) = W := Option.some.inj hw
  have ok : laidOut 0x50000120 [(21, 5), (16, 5), (11, 5), (3, 2), (2, 1)] = true := by decide +kernel
  have ft : Fits [⟨d.toNat, 21, 5⟩, ⟨a.toNat, 16, 5⟩, ⟨b.toNat, 11, 5⟩, ⟨o.code, 3, 2⟩, ⟨x.toNat, 2, 1⟩] := ⟨d.isLt, a.isLt, b.isLt, o.code_lt, x.toNat_lt, trivial⟩
  have em : fld W 26 6 = 0x14 := read_const hw ok ft (show apart 26 6 [(21, 5), (16, 5), (11, 5), (3, 2), (2, 1)] = true by decide +kernel) (by decide +kernel)
  have ej : fld W 5 6 = 9 := read_const hw ok ft (show apart 5 6 [(21, 5), (16, 5), (11, 5), (3, 2), (2, 1)] = true by decide +kernel) (by decide +kernel)
  have ez1 : fld W 0 2 = 0 := read_const hw ok ft (show apart 0 2 [(21, 5), (16, 5), (11, 5), (3, 2), (2, 1)] = true by decide +kernel) (by decide +kernel)
  have ef1 : bv 5 W 21 = d := read_bv hw ok ft (.head _)
  have ef2 : bv 5 W 16 = a := read_bv hw ok ft (.tail _ (.head _))
  have ef3 : bv 5 W 11 = b := read_bv hw ok ft (.tail _ (.tail _ (.head _)))
  have ef4 : AOrd.ofCode (fld W 3 2) = o := AOrd.of_code (read_code hw ok ft (.tail _ (.tail _ (.tail _ (.head _)))))
  have ef5 : flag W 2 = x := read_flag hw ok ft (.tail _ (.tail _ (.tail _ (.tail _ (.head _)))))
  refine ⟨hw ▸ pack_lt ok ft (show inWord [(21, 5), (16, 5), (11, 5), (3, 2), (2, 1)] = true by decide +kernel) (by decide +kernel), .core (.acas d a b o x), ?_, rfl⟩
  rw [decodeNat_14 W em, decAtom]
  simp only [ej, ez1, ef1, ef2, ef3, ef4, ef5, zeros, List.all, beq_self_eq_true, Bool.and_self, if_true]

theorem RoundTrip.aaddf (d : BitVec 5) (a : BitVec 5) (b : BitVec 5) (o : AOrd) (x : Bool) : RoundTrip.Statement (.aaddf d a b o x) := by
  intro hwf W hw
  have hw : pack 0x50000140 (strip [⟨d.toNat, 21, 5⟩, ⟨a.toNat, 16, 5⟩, ⟨b.toNat, 11, 5⟩, ⟨o.code, 3, 2⟩, ⟨x.toNat, 2, 1⟩]) = W := Option.some.inj hw
  have ok : laidOut 0x50000140 [(21, 5), (16, 5), (11, 5), (3, 2), (2, 1)] = true := by decide +kernel
  have ft : Fits [⟨d.toNat, 21, 5⟩, ⟨a.toNat, 16, 5⟩, ⟨b.toNat, 11, 5⟩, ⟨o.code, 3, 2⟩, ⟨x.toNat, 2, 1⟩] := ⟨d.isLt, a.isLt, b.isLt, o.code_lt, x.toNat_lt, trivial⟩
  have em : fld W 26 6 = 0x14 := read_const hw ok ft (show apart 26 6 [(21, 5), (16, 5), (11, 5), (3, 2), (2, 1)] = true by decide +kernel) (by decide +kernel)
  have ej : fld W 5 6 = 10 := read_const hw ok ft (show apart 5 6 [(21, 5), (16, 5), (11, 5), (3, 2), (2, 1)] = true by decide +kernel) (by decide +kernel)
  have ez1 : fld W 0 2 = 0 := read_const hw ok ft (show apart 0 2 [(21, 5), (16, 5), (11, 5), (3, 2), (2, 1)] = true by decide +kernel) (by decide +kernel)
  have ef1 : bv 5 W 21 = d := read_bv hw ok ft (.head _)
  have ef2 : bv 5 W 16 = a := read_bv hw ok ft (.tail _ (.head _))
  have ef3 : bv 5 W 11 = b := read_bv hw ok ft (.tail _ (.tail _ (.head _)))
  have ef4 : AOrd.ofCode (fld W 3 2) = o := AOrd.of_code (read_code hw ok ft (.tail _ (.tail _ (.tail _ (.head _)))))
  have ef5 : flag W 2 = x := read_flag hw ok ft (.tail _ (.tail _ (.tail _ (.tail _ (.head _)))))
  refine ⟨hw ▸ pack_lt ok ft (show inWord [(21, 5), (16, 5), (11, 5), (3, 2), (2, 1)] = true by decide +kernel) (by decide +kernel), .core (.aaddf d a b o x), ?_, rfl⟩
  rw [decodeNat_14 W em, decAtom]
  simp only [ej, ez1, ef1, ef2, ef3, ef4, ef5, zeros, List.all, beq_self_eq_true, Bool.and_self, if_true]

theorem RoundTrip.aminf (d : BitVec 5) (a : BitVec 5) (b : BitVec 5) (o : AOrd) (x : Bool) : RoundTrip.Statement (.aminf d a b o x) := by
  intro hwf W hw
  have hw : pack 0x50000160 (strip [⟨d.toNat, 21, 5⟩, ⟨a.toNat, 16, 5⟩, ⟨b.toNat, 11, 5⟩, ⟨o.code, 3, 2⟩, ⟨x.toNat, 2, 1⟩]) = W := Option.some.inj hw
  have ok : laidOut 0x50000160 [(21, 5), (16, 5), (11, 5), (3, 2), (2, 1)] = true := by decide +kernel
  have ft : Fits [⟨d.toNat, 21, 5⟩, ⟨a.toNat, 16, 5⟩, ⟨b.toNat, 11, 5⟩, ⟨o.code, 3, 2⟩, ⟨x.toNat, 2, 1⟩] := ⟨d.isLt, a.isLt, b.isLt, o.code_lt, x.toNat_lt, trivial⟩
  have em : fld W 26 6 = 0x14 := read_const hw ok ft (show apart 26 6 [(21, 5), (16, 5), (11, 5), (3, 2), (2, 1)] = true by decide +kernel) (by decide +kernel)
  have ej : fld W 5 6 = 11 := read_const hw ok ft (show apart 5 6 [(21, 5), (16, 5), (11, 5), (3, 2), (2, 1)] = true by decide +kernel) (by decide +kernel)
  have ez1 : fld W 0 2 = 0 := read_const hw ok ft (show apart 0 2 [(21, 5), (16, 5), (11, 5), (3, 2), (2, 1)] = true by decide +kernel) (by decide +kernel)
  have ef1 : bv 5 W 21 = d := read_bv hw ok ft (.head _)
  have ef2 : bv 5 W 16 = a := read_bv hw ok ft (.tail _ (.head _))
  have ef3 : bv 5 W 11 = b := read_bv hw ok ft (.tail _ (.tail _ (.head _)))
  have ef4 : AOrd.ofCode (fld W 3 2) = o := AOrd.of_code (read_code hw ok ft (.tail _ (.tail _ (.tail _ (.head _)))))
  have ef5 : flag W 2 = x := read_flag hw ok ft (.tail _ (.tail _ (.tail _ (.tail _ (.head _)))))
  refine ⟨hw ▸ pack_lt ok ft (show inWord [(21, 5), (16, 5), (11, 5), (3, 2), (2, 1)] = true by decide +kernel) (by decide +kernel), .core (.aminf d a b o x), ?_, rfl⟩
  rw [decodeNat_14 W em, decAtom]
  simp only [ej, ez1, ef1, ef2, ef3, ef4, ef5, zeros, List.all, beq_self_eq_true, Bool.and_self, if_true]

theorem RoundTrip.amaxf (d : BitVec 5) (a : BitVec 5) (b : BitVec 5) (o : AOrd) (x : Bool) : RoundTrip.Statement (.amaxf d a b o x) := by
  intro hwf W hw
  have hw : pack 0x50000180 (strip [⟨d.toNat, 21, 5⟩, ⟨a.toNat, 16, 5⟩, ⟨b.toNat, 11, 5⟩, ⟨o.code, 3, 2⟩, ⟨x.toNat, 2, 1⟩]) = W := Option.some.inj hw
  have ok : laidOut 0x50000180 [(21, 5), (16, 5), (11, 5), (3, 2), (2, 1)] = true := by decide +kernel
  have ft : Fits [⟨d.toNat, 21, 5⟩, ⟨a.toNat, 16, 5⟩, ⟨b.toNat, 11, 5⟩, ⟨o.code, 3, 2⟩, ⟨x.toNat, 2, 1⟩] := ⟨d.isLt, a.isLt, b.isLt, o.code_lt, x.toNat_lt, trivial⟩
  have em : fld W 26 6 = 0x14 := read_const hw ok ft (show apart 26 6 [(21, 5), (16, 5), (11, 5), (3, 2), (2, 1)] = true by decide +kernel) (by decide +kernel)
  have ej : fld W 5 6 = 12 := read_const hw ok ft (show apart 5 6 [(21, 5), (16, 5), (11, 5), (3, 2), (2, 1)] = true by decide +kernel) (by decide +kernel)
  have ez1 : fld W 0 2 = 0 := read_const hw ok ft (show apart 0 2 [(21, 5), (16, 5), (11, 5), (3, 2), (2, 1)] = true by decide +kernel) (by decide +kernel)
  have ef1 : bv 5 W 21 = d := read_bv hw ok ft (.head _)
  have ef2 : bv 5 W 16 = a := read_bv hw ok ft (.tail _ (.head _))
  have ef3 : bv 5 W 11 = b := read_bv hw ok ft (.tail _ (.tail _ (.head _)))
  have ef4 : AOrd.ofCode (fld W 3 2) = o := AOrd.of_code (read_code hw ok ft (.tail _ (.tail _ (.tail _ (.head _)))))
  have ef5 : flag W 2 = x := read_flag hw ok ft (.tail _ (.tail _ (.tail _ (.tail _ (.head _)))))
  refine ⟨hw ▸ pack_lt ok ft (show inWord [(21, 5), (16, 5), (11, 5), (3, 2), (2, 1)] = true by decide +kernel) (by decide +kernel), .core (.amaxf d a b o x), ?_, rfl⟩
  rw [decodeNat_14 W em, decAtom]
  simp only [ej, ez1, ef1, ef2, ef3, ef4, ef5, zeros, List.all, beq_self_eq_true, Bool.and_self, if_true]

theorem RoundTrip.dadd (d : BitVec 5) (a : BitVec 5) (b : BitVec 5) : RoundTrip.Statement (.dadd d a b) := by
  intro hwf W hw
  have hw : pack 0x54000000 (strip [⟨d.toNat, 21, 5⟩, ⟨a.toNat, 16, 5⟩, ⟨b.toNat, 11, 5⟩]) = W := Option.some.inj hw
  have ok : laidOut 0x54000000 [(21, 5), (16, 5), (11, 5)] = true := by decide +kernel
  have ft : Fits [⟨d.toNat, 21, 5⟩, ⟨a.toNat, 16, 5⟩, ⟨b.toNat, 11, 5⟩] := ⟨d.isLt, a.isLt, b.isLt, trivial⟩
  have em : fld W 26 6 = 0x15 := read_const hw ok ft (show apart 26 6 [(21, 5), (16, 5), (11, 5)] = true by decide +kernel) (by decide +kernel)
  have ej : fld W 5 6 = 0 := read_const hw ok ft (show apart 5 6 [(21, 5), (16, 5), (11, 5)] = true by decide +kernel) (by decide +kernel)
  have ez1 : fld W 0 5 = 0 := read_const hw ok ft (show apart 0 5 [(21, 5), (16, 5), (11, 5)] = true by decide +kernel) (by decide +kernel)
  have ef1 : bv 5 W 21 = d := read_bv hw ok ft (.head _)
  have ef2 : bv 5 W 16 = a := read_bv hw ok ft (.tail _ (.head _))
  have ef3 : bv 5 W 11 = b := read_bv hw ok ft (.tail _ (.tail _ (.head _)))
  refine ⟨hw ▸ pack_lt ok ft (show inWord [(21, 5), (16, 5), (11, 5)] = true by decide +kernel) (by decide +kernel), .core (.dadd d a b), ?_, rfl⟩
  rw [decodeNat_15 W em, decDrip]
  simp only [ej, ez1, ef1, ef2, ef3, zeros, List.all, beq_self_eq_true, Bool.and_self, if_true]

theorem RoundTrip.dand (d : BitVec 5) (a : BitVec 5) (b : BitVec 5) : RoundTrip.Statement (.dand d a b) := by
  intro hwf W hw
  have hw : pack 0x54000020 (strip [⟨d.toNat, 21, 5⟩, ⟨a.toNat, 16, 5⟩, ⟨b.toNat, 11, 5⟩]) = W := Option.some.inj hw
  have ok : laidOut 0x54000020 [(21, 5), (16, 5), (11, 5)] = true := by decide +kernel
  have ft : Fits [⟨d.toNat, 21, 5⟩, ⟨a.toNat, 16, 5⟩, ⟨b.toNat, 11, 5⟩] := ⟨d.isLt, a.isLt, b.isLt, trivial⟩
  have em : fld W 26 6 = 0x15 := read_const hw ok ft (show apart 26 6 [(21, 5), (16, 5), (11, 5)] = true by decide +kernel) (by decide +kernel)
  have ej : fld W 5 6 = 1 := read_const hw ok ft (show apart 5 6 [(21, 5), (16, 5), (11, 5)] = true by decide +kernel) (by decide +kernel)
  have ez1 : fld W 0 5 = 0 := read_const hw ok ft (show apart 0 5 [(21, 5), (16, 5), (11, 5)] = true by decide +kernel) (by decide +kernel)
  have ef1 : bv 5 W 21 = d := read_bv hw ok ft (.head _)
  have ef2 : bv 5 W 16 = a := read_bv hw ok ft (.tail _ (.head _))
  have ef3 : bv 5 W 11 = b := read_bv hw ok ft (.tail _ (.tail _ (.head _)))
  refine ⟨hw ▸ pack_lt ok ft (show inWord [(21, 5), (16, 5), (11, 5)] = true by decide +kernel) (by decide +kernel), .core (.dand d a b), ?_, rfl⟩
  rw [decodeNat_15 W em, decDrip]
  simp only [ej, ez1, ef1, ef2, ef3, zeros, List.all, beq_self_eq_true, Bool.and_self, if_true]

theorem RoundTrip.dor (d : BitVec 5) (a : BitVec 5) (b : BitVec 5) : RoundTrip.Statement (.dor d a b) := by
  intro hwf W hw
  have hw : pack 0x54000040 (strip [⟨d.toNat, 21, 5⟩, ⟨a.toNat, 16, 5⟩, ⟨b.toNat, 11, 5⟩]) = W := Option.some.inj hw
  have ok : laidOut 0x54000040 [(21, 5), (16, 5), (11, 5)] = true := by decide +kernel
  have ft : Fits [⟨d.toNat, 21, 5⟩, ⟨a.toNat, 16, 5⟩, ⟨b.toNat, 11, 5⟩] := ⟨d.isLt, a.isLt, b.isLt, trivial⟩
  have em : fld W 26 6 = 0x15 := read_const hw ok ft (show apart 26 6 [(21, 5), (16, 5), (11, 5)] = true by decide +kernel) (by decide +kernel)
  have ej : fld W 5 6 = 2 := read_const hw ok ft (show apart 5 6 [(21, 5), (16, 5), (11, 5)] = true by decide +kernel) (by decide +kernel)
  have ez1 : fld W 0 5 = 0 := read_const hw ok ft (show apart 0 5 [(21, 5), (16, 5), (11, 5)] = true by decide +kernel) (by decide +kernel)
  have ef1 : bv 5 W 21 = d := read_bv hw ok ft (.head _)
  have ef2 : bv 5 W 16 = a := read_bv hw ok ft (.tail _ (.head _))
  have ef3 : bv 5 W 11 = b := read_bv hw ok ft (.tail _ (.tail _ (.head _)))
  refine ⟨hw ▸ pack_lt ok ft (show inWord [(21, 5), (16, 5), (11, 5)] = true by decide +kernel) (by decide +kernel), .core (.dor d a b), ?_, rfl⟩
  rw [decodeNat_15 W em, decDrip]
  simp only [ej, ez1, ef1, ef2, ef3, zeros, List.all, beq_self_eq_true, Bool.and_self, if_true]

theorem RoundTrip.dmin (d : BitVec 5) (a : BitVec 5) (b : BitVec 5) : RoundTrip.Statement (.dmin d a b) := by
  intro hwf W hw
  have hw : pack 0x54000060 (strip [⟨d.toNat, 21, 5⟩, ⟨a.toNat, 16, 5⟩, ⟨b.toNat, 11, 5⟩]) = W := Option.some.inj hw
  have ok : laidOut 0x54000060 [(21, 5), (16, 5), (11, 5)] = true := by decide +kernel
  have ft : Fits [⟨d.toNat, 21, 5⟩, ⟨a.toNat, 16, 5⟩, ⟨b.toNat, 11, 5⟩] := ⟨d.isLt, a.isLt, b.isLt, trivial⟩
  have em : fld W 26 6 = 0x15 := read_const hw ok ft (show apart 26 6 [(21, 5), (16, 5), (11, 5)] = true by decide +kernel) (by decide +kernel)
  have ej : fld W 5 6 = 3 := read_const hw ok ft (show apart 5 6 [(21, 5), (16, 5), (11, 5)] = true by decide +kernel) (by decide +kernel)
  have ez1 : fld W 0 5 = 0 := read_const hw ok ft (show apart 0 5 [(21, 5), (16, 5), (11, 5)] = true by decide +kernel) (by decide +kernel)
  have ef1 : bv 5 W 21 = d := read_bv hw ok ft (.head _)
  have ef2 : bv 5 W 16 = a := read_bv hw ok ft (.tail _ (.head _))
  have ef3 : bv 5 W 11 = b := read_bv hw ok ft (.tail _ (.tail _ (.head _)))
  refine ⟨hw ▸ pack_lt ok ft (show inWord [(21, 5), (16, 5), (11, 5)] = true by decide +kernel) (by decide +kernel), .core (.dmin d a b), ?_, rfl⟩
  rw [decodeNat_15 W em, decDrip]
  simp only [ej, ez1, ef1, ef2, ef3, zeros, List.all, beq_self_eq_true, Bool.and_self, if_true]

theorem RoundTrip.dmax (d : BitVec 5) (a : BitVec 5) (b : BitVec 5) : RoundTrip.Statement (.dmax d a b) := by
  intro hwf W hw
  have hw : pack 0x54000080 (strip [⟨d.toNat, 21, 5⟩, ⟨a.toNat, 16, 5⟩, ⟨b.toNat, 11, 5⟩]) = W := Option.some.inj hw
  have ok : laidOut 0x54000080 [(21, 5), (16, 5), (11, 5)] = true := by decide +kernel
  have ft : Fits [⟨d.toNat, 21, 5⟩, ⟨a.toNat, 16, 5⟩, ⟨b.toNat, 11, 5⟩] := ⟨d.isLt, a.isLt, b.isLt, trivial⟩
  have em : fld W 26 6 = 0x15 := read_const hw ok ft (show apart 26 6 [(21, 5), (16, 5), (11, 5)] = true by decide +kernel) (by decide +kernel)
  have ej : fld W 5 6 = 4 := read_const hw ok ft (show apart 5 6 [(21, 5), (16, 5), (11, 5)] = true by decide +kernel) (by decide +kernel)
  have ez1 : fld W 0 5 = 0 := read_const hw ok ft (show apart 0 5 [(21, 5), (16, 5), (11, 5)] = true by decide +kernel) (by decide +kernel)
  have ef1 : bv 5 W 21 = d := read_bv hw ok ft (.head _)
  have ef2 : bv 5 W 16 = a := read_bv hw ok ft (.tail _ (.head _))
  have ef3 : bv 5 W 11 = b := read_bv hw ok ft (.tail _ (.tail _ (.head _)))
  refine ⟨hw ▸ pack_lt ok ft (show inWord [(21, 5), (16, 5), (11, 5)] = true by decide +kernel) (by decide +kernel), .core (.dmax d a b), ?_, rfl⟩
  rw [decodeNat_15 W em, decDrip]
  simp only [ej, ez1, ef1, ef2, ef3, zeros, List.all, beq_self_eq_true, Bool.and_self, if_true]

theorem RoundTrip.daddf (d : BitVec 5) (a : BitVec 5) (b : BitVec 5) : RoundTrip.Statement (.daddf d a b) := by
  intro hwf W hw
  have hw : pack 0x540000A0 (strip [⟨d.toNat, 21, 5⟩, ⟨a.toNat, 16, 5⟩, ⟨b.toNat, 11, 5⟩]) = W := Option.some.inj hw
  have ok : laidOut 0x540000A0 [(21, 5), (16, 5), (11, 5)] = true := by decide +kernel
  have ft : Fits [⟨d.toNat, 21, 5⟩, ⟨a.toNat, 16, 5⟩, ⟨b.toNat, 11, 5⟩] := ⟨d.isLt, a.isLt, b.isLt, trivial⟩
  have em : fld W 26 6 = 0x15 := read_const hw ok ft (show apart 26 6 [(21, 5), (16, 5), (11, 5)] = true by decide +kernel) (by decide +kernel)
  have ej : fld W 5 6 = 5 := read_const hw ok ft (show apart 5 6 [(21, 5), (16, 5), (11, 5)] = true by decide +kernel) (by decide +kernel)
  have ez1 : fld W 0 5 = 0 := read_const hw ok ft (show apart 0 5 [(21, 5), (16, 5), (11, 5)] = true by decide +kernel) (by decide +kernel)
  have ef1 : bv 5 W 21 = d := read_bv hw ok ft (.head _)
  have ef2 : bv 5 W 16 = a := read_bv hw ok ft (.tail _ (.head _))
  have ef3 : bv 5 W 11 = b := read_bv hw ok ft (.tail _ (.tail _ (.head _)))
  refine ⟨hw ▸ pack_lt ok ft (show inWord [(21, 5), (16, 5), (11, 5)] = true by decide +kernel) (by decide +kernel), .core (.daddf d a b), ?_, rfl⟩
  rw [decodeNat_15 W em, decDrip]
  simp only [ej, ez1, ef1, ef2, ef3, zeros, List.all, beq_self_eq_true, Bool.and_self, if_true]

theorem RoundTrip.dminf (d : BitVec 5) (a : BitVec 5) (b : BitVec 5) : RoundTrip.Statement (.dminf d a b) := by
  intro hwf W hw
  have hw : pack 0x540000C0 (strip [⟨d.toNat, 21, 5⟩, ⟨a.toNat, 16, 5⟩, ⟨b.toNat, 11, 5⟩]) = W := Option.some.inj hw
  have ok : laidOut 0x540000C0 [(21, 5), (16, 5), (11, 5)] = true := by decide +kernel
  have ft : Fits [⟨d.toNat, 21, 5⟩, ⟨a.toNat, 16, 5⟩, ⟨b.toNat, 11, 5⟩] := ⟨d.isLt, a.isLt, b.isLt, trivial⟩
  have em : fld W 26 6 = 0x15 := read_const hw ok ft (show apart 26 6 [(21, 5), (16, 5), (11, 5)] = true by decide +kernel) (by decide +kernel)
  have ej : fld W 5 6 = 6 := read_const hw ok ft (show apart 5 6 [(21, 5), (16, 5), (11, 5)] = true by decide +kernel) (by decide +kernel)
  have ez1 : fld W 0 5 = 0 := read_const hw ok ft (show apart 0 5 [(21, 5), (16, 5), (11, 5)] = true by decide +kernel) (by decide +kernel)
  have ef1 : bv 5 W 21 = d := read_bv hw ok ft (.head _)
  have ef2 : bv 5 W 16 = a := read_bv hw ok ft (.tail _ (.head _))
  have ef3 : bv 5 W 11 = b := read_bv hw ok ft (.tail _ (.tail _ (.head _)))
  refine ⟨hw ▸ pack_lt ok ft (show inWord [(21, 5), (16, 5), (11, 5)] = true by decide +kernel) (by decide +kernel), .core (.dminf d a b), ?_, rfl⟩
  rw [decodeNat_15 W em, decDrip]
  simp only [ej, ez1, ef1, ef2, ef3, zeros, List.all, beq_self_eq_true, Bool.and_self, if_true]

theorem RoundTrip.dmaxf (d : BitVec 5) (a : BitVec 5) (b : BitVec 5) : RoundTrip.Statement (.dmaxf d a b) := by
  intro hwf W hw
  have hw : pack 0x540000E0 (strip [⟨d.toNat, 21, 5⟩, ⟨a.toNat, 16, 5⟩, ⟨b.toNat, 11, 5⟩]) = W := Option.some.inj hw
  have ok : laidOut 0x540000E0 [(21, 5), (16, 5), (11, 5)] = true := by decide +kernel
  have ft : Fits [⟨d.toNat, 21, 5⟩, ⟨a.toNat, 16, 5⟩, ⟨b.toNat, 11, 5⟩] := ⟨d.isLt, a.isLt, b.isLt, trivial⟩
  have em : fld W 26 6 = 0x15 := read_const hw ok ft (show apart 26 6 [(21, 5), (16, 5), (11, 5)] = true by decide +kernel) (by decide +kernel)
  have ej : fld W 5 6 = 7 := read_const hw ok ft (show apart 5 6 [(21, 5), (16, 5), (11, 5)] = true by decide +kernel) (by decide +kernel)
  have ez1 : fld W 0 5 = 0 := read_const hw ok ft (show apart 0 5 [(21, 5), (16, 5), (11, 5)] = true by decide +kernel) (by decide +kernel)
  have ef1 : bv 5 W 21 = d := read_bv hw ok ft (.head _)
  have ef2 : bv 5 W 16 = a := read_bv hw ok ft (.tail _ (.head _))
  have ef3 : bv 5 W 11 = b := read_bv hw ok ft (.tail _ (.tail _ (.head _)))
  refine ⟨hw ▸ pack_lt ok ft (show inWord [(21, 5), (16, 5), (11, 5)] = true by decide +kernel) (by decide +kernel), .core (.dmaxf d a b), ?_, rfl⟩
  rw [decodeNat_15 W em, decDrip]
  simp only [ej, ez1, ef1, ef2, ef3, zeros, List.all, beq_self_eq_true, Bool.and_self, if_true]

theorem RoundTrip.go (a : BitVec 5) : RoundTrip.Statement (.go a) := by
  intro hwf W hw
  have hw : pack 0x58000000 (strip [⟨a.toNat, 16, 5⟩]) = W := Option.some.inj hw
  have ok : laidOut 0x58000000 [(16, 5)] = true := by decide +kernel
  have ft : Fits [⟨a.toNat, 16, 5⟩] := ⟨a.isLt, trivial⟩
  have em : fld W 26 6 = 0x16 := read_const hw ok ft (show apart 26 6 [(16, 5)] = true by decide +kernel) (by decide +kernel)
  have ej : fld W 5 6 = 0 := read_const hw ok ft (show apart 5 6 [(16, 5)] = true by decide +kernel) (by decide +kernel)
  have ez1 : fld W 0 5 = 0 := read_const hw ok ft (show apart 0 5 [(16, 5)] = true by decide +kernel) (by decide +kernel)
  have ez2 : fld W 11 5 = 0 := read_const hw ok ft (show apart 11 5 [(16, 5)] = true by decide +kernel) (by decide +kernel)
  have ez3 : fld W 21 5 = 0 := read_const hw ok ft (show apart 21 5 [(16, 5)] = true by decide +kernel) (by decide +kernel)
  have ef1 : bv 5 W 16 = a := read_bv hw ok ft (.head _)
  refine ⟨hw ▸ pack_lt ok ft (show inWord [(16, 5)] = true by decide +kernel) (by decide +kernel), .core (.go a), ?_, rfl⟩
  rw [decodeNat_16 W em, decMig]
  simp only [ej, ez1, ez2, ez3, ef1, zeros, List.all, beq_self_eq_true, Bool.and_self, if_true]

theorem RoundTrip.where (d : BitVec 5) : RoundTrip.Statement (.where d) := by
  intro hwf W hw
  have hw : pack 0x58000040 (strip [⟨d.toNat, 21, 5⟩]) = W := Option.some.inj hw
  have ok : laidOut 0x58000040 [(21, 5)] = true := by decide +kernel
  have ft : Fits [⟨d.toNat, 21, 5⟩] := ⟨d.isLt, trivial⟩
  have em : fld W 26 6 = 0x16 := read_const hw ok ft (show apart 26 6 [(21, 5)] = true by decide +kernel) (by decide +kernel)
  have ej : fld W 5 6 = 2 := read_const hw ok ft (show apart 5 6 [(21, 5)] = true by decide +kernel) (by decide +kernel)
  have ez1 : fld W 0 5 = 0 := read_const hw ok ft (show apart 0 5 [(21, 5)] = true by decide +kernel) (by decide +kernel)
  have ez2 : fld W 11 10 = 0 := read_const hw ok ft (show apart 11 10 [(21, 5)] = true by decide +kernel) (by decide +kernel)
  have ef1 : bv 5 W 21 = d := read_bv hw ok ft (.head _)
  refine ⟨hw ▸ pack_lt ok ft (show inWord [(21, 5)] = true by decide +kernel) (by decide +kernel), .core (.where d), ?_, rfl⟩
  rw [decodeNat_16 W em, decMig]
  simp only [ej, ez1, ez2, ef1, zeros, List.all, beq_self_eq_true, Bool.and_self, if_true]

theorem RoundTrip.farld (d : BitVec 5) (a : BitVec 5) (w : BitVec 2) : RoundTrip.Statement (.farld d a w) := by
  intro hwf W hw
  have hw : pack 0x58000080 (strip [⟨d.toNat, 21, 5⟩, ⟨a.toNat, 16, 5⟩, ⟨w.toNat, 11, 2⟩]) = W := Option.some.inj hw
  have ok : laidOut 0x58000080 [(21, 5), (16, 5), (11, 2)] = true := by decide +kernel
  have ft : Fits [⟨d.toNat, 21, 5⟩, ⟨a.toNat, 16, 5⟩, ⟨w.toNat, 11, 2⟩] := ⟨d.isLt, a.isLt, w.isLt, trivial⟩
  have em : fld W 26 6 = 0x16 := read_const hw ok ft (show apart 26 6 [(21, 5), (16, 5), (11, 2)] = true by decide +kernel) (by decide +kernel)
  have ej : fld W 5 6 = 4 := read_const hw ok ft (show apart 5 6 [(21, 5), (16, 5), (11, 2)] = true by decide +kernel) (by decide +kernel)
  have ez1 : fld W 0 5 = 0 := read_const hw ok ft (show apart 0 5 [(21, 5), (16, 5), (11, 2)] = true by decide +kernel) (by decide +kernel)
  have ez2 : fld W 13 3 = 0 := read_const hw ok ft (show apart 13 3 [(21, 5), (16, 5), (11, 2)] = true by decide +kernel) (by decide +kernel)
  have ef1 : bv 5 W 21 = d := read_bv hw ok ft (.head _)
  have ef2 : bv 5 W 16 = a := read_bv hw ok ft (.tail _ (.head _))
  have ef3 : bv 2 W 11 = w := read_bv hw ok ft (.tail _ (.tail _ (.head _)))
  refine ⟨hw ▸ pack_lt ok ft (show inWord [(21, 5), (16, 5), (11, 2)] = true by decide +kernel) (by decide +kernel), .core (.farld d a w), ?_, rfl⟩
  rw [decodeNat_16 W em, decMig]
  simp only [ej, ez1, ez2, ef1, ef2, ef3, zeros, List.all, beq_self_eq_true, Bool.and_self, if_true]

theorem RoundTrip.farst (a : BitVec 5) (b : BitVec 5) (w : BitVec 2) : RoundTrip.Statement (.farst a b w) := by
  intro hwf W hw
  have hw : pack 0x580000A0 (strip [⟨a.toNat, 16, 5⟩, ⟨b.toNat, 11, 5⟩, ⟨w.toNat, 0, 2⟩]) = W := Option.some.inj hw
  have ok : laidOut 0x580000A0 [(16, 5), (11, 5), (0, 2)] = true := by decide +kernel
  have ft : Fits [⟨a.toNat, 16, 5⟩, ⟨b.toNat, 11, 5⟩, ⟨w.toNat, 0, 2⟩] := ⟨a.isLt, b.isLt, w.isLt, trivial⟩
  have em : fld W 26 6 = 0x16 := read_const hw ok ft (show apart 26 6 [(16, 5), (11, 5), (0, 2)] = true by decide +kernel) (by decide +kernel)
  have ej : fld W 5 6 = 5 := read_const hw ok ft (show apart 5 6 [(16, 5), (11, 5), (0, 2)] = true by decide +kernel) (by decide +kernel)
  have ez1 : fld W 2 3 = 0 := read_const hw ok ft (show apart 2 3 [(16, 5), (11, 5), (0, 2)] = true by decide +kernel) (by decide +kernel)
  have ez2 : fld W 21 5 = 0 := read_const hw ok ft (show apart 21 5 [(16, 5), (11, 5), (0, 2)] = true by decide +kernel) (by decide +kernel)
  have ef1 : bv 5 W 16 = a := read_bv hw ok ft (.head _)
  have ef2 : bv 5 W 11 = b := read_bv hw ok ft (.tail _ (.head _))
  have ef3 : bv 2 W 0 = w := read_bv hw ok ft (.tail _ (.tail _ (.head _)))
  refine ⟨hw ▸ pack_lt ok ft (show inWord [(16, 5), (11, 5), (0, 2)] = true by decide +kernel) (by decide +kernel), .core (.farst a b w), ?_, rfl⟩
  rw [decodeNat_16 W em, decMig]
  simp only [ej, ez1, ez2, ef1, ef2, ef3, zeros, List.all, beq_self_eq_true, Bool.and_self, if_true]

theorem RoundTrip.kset (d : BitVec 5) (a : BitVec 5) (b : BitVec 5) : RoundTrip.Statement (.kset d a b) := by
  intro hwf W hw
  have hw : pack 0x5C000000 (strip [⟨d.toNat, 21, 5⟩, ⟨a.toNat, 16, 5⟩, ⟨b.toNat, 11, 5⟩]) = W := Option.some.inj hw
  have ok : laidOut 0x5C000000 [(21, 5), (16, 5), (11, 5)] = true := by decide +kernel
  have ft : Fits [⟨d.toNat, 21, 5⟩, ⟨a.toNat, 16, 5⟩, ⟨b.toNat, 11, 5⟩] := ⟨d.isLt, a.isLt, b.isLt, trivial⟩
  have em : fld W 26 6 = 0x17 := read_const hw ok ft (show apart 26 6 [(21, 5), (16, 5), (11, 5)] = true by decide +kernel) (by decide +kernel)
  have ej : fld W 5 6 = 0 := read_const hw ok ft (show apart 5 6 [(21, 5), (16, 5), (11, 5)] = true by decide +kernel) (by decide +kernel)
  have ez1 : fld W 0 5 = 0 := read_const hw ok ft (show apart 0 5 [(21, 5), (16, 5), (11, 5)] = true by decide +kernel) (by decide +kernel)
  have ef1 : bv 5 W 21 = d := read_bv hw ok ft (.head _)
  have ef2 : bv 5 W 16 = a := read_bv hw ok ft (.tail _ (.head _))
  have ef3 : bv 5 W 11 = b := read_bv hw ok ft (.tail _ (.tail _ (.head _)))
  refine ⟨hw ▸ pack_lt ok ft (show inWord [(21, 5), (16, 5), (11, 5)] = true by decide +kernel) (by decide +kernel), .core (.kset d a b), ?_, rfl⟩
  rw [decodeNat_17 W em, decKet]
  simp only [ej, ez1, ef1, ef2, ef3, zeros, List.all, beq_self_eq_true, Bool.and_self, if_true]

theorem RoundTrip.kadd (a : BitVec 5) (b : BitVec 5) : RoundTrip.Statement (.kadd a b) := by
  intro hwf W hw
  have hw : pack 0x5C000020 (strip [⟨a.toNat, 16, 5⟩, ⟨b.toNat, 11, 5⟩]) = W := Option.some.inj hw
  have ok : laidOut 0x5C000020 [(16, 5), (11, 5)] = true := by decide +kernel
  have ft : Fits [⟨a.toNat, 16, 5⟩, ⟨b.toNat, 11, 5⟩] := ⟨a.isLt, b.isLt, trivial⟩
  have em : fld W 26 6 = 0x17 := read_const hw ok ft (show apart 26 6 [(16, 5), (11, 5)] = true by decide +kernel) (by decide +kernel)
  have ej : fld W 5 6 = 1 := read_const hw ok ft (show apart 5 6 [(16, 5), (11, 5)] = true by decide +kernel) (by decide +kernel)
  have ez1 : fld W 0 5 = 0 := read_const hw ok ft (show apart 0 5 [(16, 5), (11, 5)] = true by decide +kernel) (by decide +kernel)
  have ez2 : fld W 21 5 = 0 := read_const hw ok ft (show apart 21 5 [(16, 5), (11, 5)] = true by decide +kernel) (by decide +kernel)
  have ef1 : bv 5 W 16 = a := read_bv hw ok ft (.head _)
  have ef2 : bv 5 W 11 = b := read_bv hw ok ft (.tail _ (.head _))
  refine ⟨hw ▸ pack_lt ok ft (show inWord [(16, 5), (11, 5)] = true by decide +kernel) (by decide +kernel), .core (.kadd a b), ?_, rfl⟩
  rw [decodeNat_17 W em, decKet]
  simp only [ej, ez1, ez2, ef1, ef2, zeros, List.all, beq_self_eq_true, Bool.and_self, if_true]

theorem RoundTrip.kread (d : BitVec 5) (a : BitVec 5) : RoundTrip.Statement (.kread d a) := by
  intro hwf W hw
  have hw : pack 0x5C000040 (strip [⟨d.toNat, 21, 5⟩, ⟨a.toNat, 16, 5⟩]) = W := Option.some.inj hw
  have ok : laidOut 0x5C000040 [(21, 5), (16, 5)] = true := by decide +kernel
  have ft : Fits [⟨d.toNat, 21, 5⟩, ⟨a.toNat, 16, 5⟩] := ⟨d.isLt, a.isLt, trivial⟩
  have em : fld W 26 6 = 0x17 := read_const hw ok ft (show apart 26 6 [(21, 5), (16, 5)] = true by decide +kernel) (by decide +kernel)
  have ej : fld W 5 6 = 2 := read_const hw ok ft (show apart 5 6 [(21, 5), (16, 5)] = true by decide +kernel) (by decide +kernel)
  have ez1 : fld W 0 5 = 0 := read_const hw ok ft (show apart 0 5 [(21, 5), (16, 5)] = true by decide +kernel) (by decide +kernel)
  have ez2 : fld W 11 5 = 0 := read_const hw ok ft (show apart 11 5 [(21, 5), (16, 5)] = true by decide +kernel) (by decide +kernel)
  have ef1 : bv 5 W 21 = d := read_bv hw ok ft (.head _)
  have ef2 : bv 5 W 16 = a := read_bv hw ok ft (.tail _ (.head _))
  refine ⟨hw ▸ pack_lt ok ft (show inWord [(21, 5), (16, 5)] = true by decide +kernel) (by decide +kernel), .core (.kread d a), ?_, rfl⟩
  rw [decodeNat_17 W em, decKet]
  simp only [ej, ez1, ez2, ef1, ef2, zeros, List.all, beq_self_eq_true, Bool.and_self, if_true]

theorem RoundTrip.kwait (a : BitVec 5) : RoundTrip.Statement (.kwait a) := by
  intro hwf W hw
  have hw : pack 0x5C000060 (strip [⟨a.toNat, 16, 5⟩]) = W := Option.some.inj hw
  have ok : laidOut 0x5C000060 [(16, 5)] = true := by decide +kernel
  have ft : Fits [⟨a.toNat, 16, 5⟩] := ⟨a.isLt, trivial⟩
  have em : fld W 26 6 = 0x17 := read_const hw ok ft (show apart 26 6 [(16, 5)] = true by decide +kernel) (by decide +kernel)
  have ej : fld W 5 6 = 3 := read_const hw ok ft (show apart 5 6 [(16, 5)] = true by decide +kernel) (by decide +kernel)
  have ez1 : fld W 0 5 = 0 := read_const hw ok ft (show apart 0 5 [(16, 5)] = true by decide +kernel) (by decide +kernel)
  have ez2 : fld W 11 5 = 0 := read_const hw ok ft (show apart 11 5 [(16, 5)] = true by decide +kernel) (by decide +kernel)
  have ez3 : fld W 21 5 = 0 := read_const hw ok ft (show apart 21 5 [(16, 5)] = true by decide +kernel) (by decide +kernel)
  have ef1 : bv 5 W 16 = a := read_bv hw ok ft (.head _)
  refine ⟨hw ▸ pack_lt ok ft (show inWord [(16, 5)] = true by decide +kernel) (by decide +kernel), .core (.kwait a), ?_, rfl⟩
  rw [decodeNat_17 W em, decKet]
  simp only [ej, ez1, ez2, ez3, ef1, zeros, List.all, beq_self_eq_true, Bool.and_self, if_true]

theorem RoundTrip.koff (a : BitVec 5) : RoundTrip.Statement (.koff a) := by
  intro hwf W hw
  have hw : pack 0x5C000080 (strip [⟨a.toNat, 16, 5⟩]) = W := Option.some.inj hw
  have ok : laidOut 0x5C000080 [(16, 5)] = true := by decide +kernel
  have ft : Fits [⟨a.toNat, 16, 5⟩] := ⟨a.isLt, trivial⟩
  have em : fld W 26 6 = 0x17 := read_const hw ok ft (show apart 26 6 [(16, 5)] = true by decide +kernel) (by decide +kernel)
  have ej : fld W 5 6 = 4 := read_const hw ok ft (show apart 5 6 [(16, 5)] = true by decide +kernel) (by decide +kernel)
  have ez1 : fld W 0 5 = 0 := read_const hw ok ft (show apart 0 5 [(16, 5)] = true by decide +kernel) (by decide +kernel)
  have ez2 : fld W 11 5 = 0 := read_const hw ok ft (show apart 11 5 [(16, 5)] = true by decide +kernel) (by decide +kernel)
  have ez3 : fld W 21 5 = 0 := read_const hw ok ft (show apart 21 5 [(16, 5)] = true by decide +kernel) (by decide +kernel)
  have ef1 : bv 5 W 16 = a := read_bv hw ok ft (.head _)
  refine ⟨hw ▸ pack_lt ok ft (show inWord [(16, 5)] = true by decide +kernel) (by decide +kernel), .core (.koff a), ?_, rfl⟩
  rw [decodeNat_17 W em, decKet]
  simp only [ej, ez1, ez2, ez3, ef1, zeros, List.all, beq_self_eq_true, Bool.and_self, if_true]

theorem RoundTrip.send (d : BitVec 5) (a : BitVec 5) (b : BitVec 5) : RoundTrip.Statement (.send d a b) := by
  intro hwf W hw
  have hw : pack 0x5C0000A0 (strip [⟨d.toNat, 21, 5⟩, ⟨a.toNat, 16, 5⟩, ⟨b.toNat, 11, 5⟩]) = W := Option.some.inj hw
  have ok : laidOut 0x5C0000A0 [(21, 5), (16, 5), (11, 5)] = true := by decide +kernel
  have ft : Fits [⟨d.toNat, 21, 5⟩, ⟨a.toNat, 16, 5⟩, ⟨b.toNat, 11, 5⟩] := ⟨d.isLt, a.isLt, b.isLt, trivial⟩
  have em : fld W 26 6 = 0x17 := read_const hw ok ft (show apart 26 6 [(21, 5), (16, 5), (11, 5)] = true by decide +kernel) (by decide +kernel)
  have ej : fld W 5 6 = 5 := read_const hw ok ft (show apart 5 6 [(21, 5), (16, 5), (11, 5)] = true by decide +kernel) (by decide +kernel)
  have ez1 : fld W 0 5 = 0 := read_const hw ok ft (show apart 0 5 [(21, 5), (16, 5), (11, 5)] = true by decide +kernel) (by decide +kernel)
  have ef1 : bv 5 W 21 = d := read_bv hw ok ft (.head _)
  have ef2 : bv 5 W 16 = a := read_bv hw ok ft (.tail _ (.head _))
  have ef3 : bv 5 W 11 = b := read_bv hw ok ft (.tail _ (.tail _ (.head _)))
  refine ⟨hw ▸ pack_lt ok ft (show inWord [(21, 5), (16, 5), (11, 5)] = true by decide +kernel) (by decide +kernel), .core (.send d a b), ?_, rfl⟩
  rw [decodeNat_17 W em, decKet]
  simp only [ej, ez1, ef1, ef2, ef3, zeros, List.all, beq_self_eq_true, Bool.and_self, if_true]

theorem RoundTrip.sendv (d : BitVec 5) (v : BitVec 4) : RoundTrip.Statement (.sendv d v) := by
  intro hwf W hw
  have hw : pack 0x5C0000C0 (strip [⟨d.toNat, 21, 5⟩, ⟨v.toNat, 16, 4⟩]) = W := Option.some.inj hw
  have ok : laidOut 0x5C0000C0 [(21, 5), (16, 4)] = true := by decide +kernel
  have ft : Fits [⟨d.toNat, 21, 5⟩, ⟨v.toNat, 16, 4⟩] := ⟨d.isLt, v.isLt, trivial⟩
  have em : fld W 26 6 = 0x17 := read_const hw ok ft (show apart 26 6 [(21, 5), (16, 4)] = true by decide +kernel) (by decide +kernel)
  have ej : fld W 5 6 = 6 := read_const hw ok ft (show apart 5 6 [(21, 5), (16, 4)] = true by decide +kernel) (by decide +kernel)
  have ez1 : fld W 20 1 = 0 := read_const hw ok ft (show apart 20 1 [(21, 5), (16, 4)] = true by decide +kernel) (by decide +kernel)
  have ez2 : fld W 0 5 = 0 := read_const hw ok ft (show apart 0 5 [(21, 5), (16, 4)] = true by decide +kernel) (by decide +kernel)
  have ez3 : fld W 11 5 = 0 := read_const hw ok ft (show apart 11 5 [(21, 5), (16, 4)] = true by decide +kernel) (by decide +kernel)
  have ef1 : bv 5 W 21 = d := read_bv hw ok ft (.head _)
  have ef2 : bv 4 W 16 = v := read_bv hw ok ft (.tail _ (.head _))
  refine ⟨hw ▸ pack_lt ok ft (show inWord [(21, 5), (16, 4)] = true by decide +kernel) (by decide +kernel), .core (.sendv d v), ?_, rfl⟩
  rw [decodeNat_17 W em, decKet]
  simp only [ej, ez1, ez2, ez3, ef1, ef2, zeros, List.all, beq_self_eq_true, Bool.and_self, if_true]

theorem RoundTrip.recv (v : BitVec 4) (a : BitVec 5) : RoundTrip.Statement (.recv v a) := by
  intro hwf W hw
  have hw : pack 0x5C0000E0 (strip [⟨v.toNat, 21, 4⟩, ⟨a.toNat, 16, 5⟩]) = W := Option.some.inj hw
  have ok : laidOut 0x5C0000E0 [(21, 4), (16, 5)] = true := by decide +kernel
  have ft : Fits [⟨v.toNat, 21, 4⟩, ⟨a.toNat, 16, 5⟩] := ⟨v.isLt, a.isLt, trivial⟩
  have em : fld W 26 6 = 0x17 := read_const hw ok ft (show apart 26 6 [(21, 4), (16, 5)] = true by decide +kernel) (by decide +kernel)
  have ej : fld W 5 6 = 7 := read_const hw ok ft (show apart 5 6 [(21, 4), (16, 5)] = true by decide +kernel) (by decide +kernel)
  have ez1 : fld W 25 1 = 0 := read_const hw ok ft (show apart 25 1 [(21, 4), (16, 5)] = true by decide +kernel) (by decide +kernel)
  have ez2 : fld W 0 5 = 0 := read_const hw ok ft (show apart 0 5 [(21, 4), (16, 5)] = true by decide +kernel) (by decide +kernel)
  have ez3 : fld W 11 5 = 0 := read_const hw ok ft (show apart 11 5 [(21, 4), (16, 5)] = true by decide +kernel) (by decide +kernel)
  have ef1 : bv 4 W 21 = v := read_bv hw ok ft (.head _)
  have ef2 : bv 5 W 16 = a := read_bv hw ok ft (.tail _ (.head _))
  refine ⟨hw ▸ pack_lt ok ft (show inWord [(21, 4), (16, 5)] = true by decide +kernel) (by decide +kernel), .core (.recv v a), ?_, rfl⟩
  rw [decodeNat_17 W em, decKet]
  simp only [ej, ez1, ez2, ez3, ef1, ef2, zeros, List.all, beq_self_eq_true, Bool.and_self, if_true]

theorem RoundTrip.allow (a : BitVec 5) (b : BitVec 5) : RoundTrip.Statement (.allow a b) := by
  intro hwf W hw
  have hw : pack 0x5C000100 (strip [⟨a.toNat, 16, 5⟩, ⟨b.toNat, 11, 5⟩]) = W := Option.some.inj hw
  have ok : laidOut 0x5C000100 [(16, 5), (11, 5)] = true := by decide +kernel
  have ft : Fits [⟨a.toNat, 16, 5⟩, ⟨b.toNat, 11, 5⟩] := ⟨a.isLt, b.isLt, trivial⟩
  have em : fld W 26 6 = 0x17 := read_const hw ok ft (show apart 26 6 [(16, 5), (11, 5)] = true by decide +kernel) (by decide +kernel)
  have ej : fld W 5 6 = 8 := read_const hw ok ft (show apart 5 6 [(16, 5), (11, 5)] = true by decide +kernel) (by decide +kernel)
  have ez1 : fld W 0 5 = 0 := read_const hw ok ft (show apart 0 5 [(16, 5), (11, 5)] = true by decide +kernel) (by decide +kernel)
  have ez2 : fld W 21 5 = 0 := read_const hw ok ft (show apart 21 5 [(16, 5), (11, 5)] = true by decide +kernel) (by decide +kernel)
  have ef1 : bv 5 W 16 = a := read_bv hw ok ft (.head _)
  have ef2 : bv 5 W 11 = b := read_bv hw ok ft (.tail _ (.head _))
  refine ⟨hw ▸ pack_lt ok ft (show inWord [(16, 5), (11, 5)] = true by decide +kernel) (by decide +kernel), .core (.allow a b), ?_, rfl⟩
  rw [decodeNat_17 W em, decKet]
  simp only [ej, ez1, ez2, ef1, ef2, zeros, List.all, beq_self_eq_true, Bool.and_self, if_true]

theorem RoundTrip.avail (d : BitVec 5) (a : BitVec 5) : RoundTrip.Statement (.avail d a) := by
  intro hwf W hw
  have hw : pack 0x5C000120 (strip [⟨d.toNat, 21, 5⟩, ⟨a.toNat, 16, 5⟩]) = W := Option.some.inj hw
  have ok : laidOut 0x5C000120 [(21, 5), (16, 5)] = true := by decide +kernel
  have ft : Fits [⟨d.toNat, 21, 5⟩, ⟨a.toNat, 16, 5⟩] := ⟨d.isLt, a.isLt, trivial⟩
  have em : fld W 26 6 = 0x17 := read_const hw ok ft (show apart 26 6 [(21, 5), (16, 5)] = true by decide +kernel) (by decide +kernel)
  have ej : fld W 5 6 = 9 := read_const hw ok ft (show apart 5 6 [(21, 5), (16, 5)] = true by decide +kernel) (by decide +kernel)
  have ez1 : fld W 0 5 = 0 := read_const hw ok ft (show apart 0 5 [(21, 5), (16, 5)] = true by decide +kernel) (by decide +kernel)
  have ez2 : fld W 11 5 = 0 := read_const hw ok ft (show apart 11 5 [(21, 5), (16, 5)] = true by decide +kernel) (by decide +kernel)
  have ef1 : bv 5 W 21 = d := read_bv hw ok ft (.head _)
  have ef2 : bv 5 W 16 = a := read_bv hw ok ft (.tail _ (.head _))
  refine ⟨hw ▸ pack_lt ok ft (show inWord [(21, 5), (16, 5)] = true by decide +kernel) (by decide +kernel), .core (.avail d a), ?_, rfl⟩
  rw [decodeNat_17 W em, decKet]
  simp only [ej, ez1, ez2, ef1, ef2, zeros, List.all, beq_self_eq_true, Bool.and_self, if_true]

theorem RoundTrip.fence (s : Scope) (k : FKind) : RoundTrip.Statement (.fence s k) := by
  intro hwf W hw
  have hw : pack 0x60000000 (strip [⟨s.code, 2, 3⟩, ⟨k.code, 0, 2⟩]) = W := Option.some.inj hw
  have ok : laidOut 0x60000000 [(2, 3), (0, 2)] = true := by decide +kernel
  have ft : Fits [⟨s.code, 2, 3⟩, ⟨k.code, 0, 2⟩] := ⟨s.code_lt, k.code_lt, trivial⟩
  have em : fld W 26 6 = 0x18 := read_const hw ok ft (show apart 26 6 [(2, 3), (0, 2)] = true by decide +kernel) (by decide +kernel)
  have ej : fld W 5 6 = 0 := read_const hw ok ft (show apart 5 6 [(2, 3), (0, 2)] = true by decide +kernel) (by decide +kernel)
  have ez1 : fld W 11 15 = 0 := read_const hw ok ft (show apart 11 15 [(2, 3), (0, 2)] = true by decide +kernel) (by decide +kernel)
  have ef1 : Scope.ofCode (fld W 2 3) = some s := Scope.of_code (read_code hw ok ft (.head _))
  have ef2 : FKind.ofCode (fld W 0 2) = k := FKind.of_code (read_code hw ok ft (.tail _ (.head _)))
  refine ⟨hw ▸ pack_lt ok ft (show inWord [(2, 3), (0, 2)] = true by decide +kernel) (by decide +kernel), .core (.fence s k), ?_, rfl⟩
  rw [decodeNat_18 W em, decSync]
  simp only [ej, ez1, ef1, ef2, zeros, List.all, beq_self_eq_true, Bool.and_self, if_true, opt]

theorem RoundTrip.barset (a : BitVec 5) (b : BitVec 5) (n : BitVec 2) : RoundTrip.Statement (.barset a b n) := by
  intro hwf W hw
  have hw : pack 0x60000020 (strip [⟨a.toNat, 16, 5⟩, ⟨b.toNat, 11, 5⟩, ⟨n.toNat, 0, 2⟩]) = W := Option.some.inj hw
  have ok : laidOut 0x60000020 [(16, 5), (11, 5), (0, 2)] = true := by decide +kernel
  have ft : Fits [⟨a.toNat, 16, 5⟩, ⟨b.toNat, 11, 5⟩, ⟨n.toNat, 0, 2⟩] := ⟨a.isLt, b.isLt, n.isLt, trivial⟩
  have em : fld W 26 6 = 0x18 := read_const hw ok ft (show apart 26 6 [(16, 5), (11, 5), (0, 2)] = true by decide +kernel) (by decide +kernel)
  have ej : fld W 5 6 = 1 := read_const hw ok ft (show apart 5 6 [(16, 5), (11, 5), (0, 2)] = true by decide +kernel) (by decide +kernel)
  have ez1 : fld W 2 3 = 0 := read_const hw ok ft (show apart 2 3 [(16, 5), (11, 5), (0, 2)] = true by decide +kernel) (by decide +kernel)
  have ez2 : fld W 21 5 = 0 := read_const hw ok ft (show apart 21 5 [(16, 5), (11, 5), (0, 2)] = true by decide +kernel) (by decide +kernel)
  have ef1 : bv 5 W 16 = a := read_bv hw ok ft (.head _)
  have ef2 : bv 5 W 11 = b := read_bv hw ok ft (.tail _ (.head _))
  have ef3 : bv 2 W 0 = n := read_bv hw ok ft (.tail _ (.tail _ (.head _)))
  refine ⟨hw ▸ pack_lt ok ft (show inWord [(16, 5), (11, 5), (0, 2)] = true by decide +kernel) (by decide +kernel), .core (.barset a b n), ?_, rfl⟩
  rw [decodeNat_18 W em, decSync]
  simp only [ej, ez1, ez2, ef1, ef2, ef3, zeros, List.all, beq_self_eq_true, Bool.and_self, if_true]

theorem RoundTrip.bar (n : BitVec 2) : RoundTrip.Statement (.bar n) := by
  intro hwf W hw
  have hw : pack 0x60000040 (strip [⟨n.toNat, 0, 2⟩]) = W := Option.some.inj hw
  have ok : laidOut 0x60000040 [(0, 2)] = true := by decide +kernel
  have ft : Fits [⟨n.toNat, 0, 2⟩] := ⟨n.isLt, trivial⟩
  have em : fld W 26 6 = 0x18 := read_const hw ok ft (show apart 26 6 [(0, 2)] = true by decide +kernel) (by decide +kernel)
  have ej : fld W 5 6 = 2 := read_const hw ok ft (show apart 5 6 [(0, 2)] = true by decide +kernel) (by decide +kernel)
  have ez1 : fld W 2 3 = 0 := read_const hw ok ft (show apart 2 3 [(0, 2)] = true by decide +kernel) (by decide +kernel)
  have ez2 : fld W 11 15 = 0 := read_const hw ok ft (show apart 11 15 [(0, 2)] = true by decide +kernel) (by decide +kernel)
  have ef1 : bv 2 W 0 = n := read_bv hw ok ft (.head _)
  refine ⟨hw ▸ pack_lt ok ft (show inWord [(0, 2)] = true by decide +kernel) (by decide +kernel), .core (.bar n), ?_, rfl⟩
  rw [decodeNat_18 W em, decSync]
  simp only [ej, ez1, ez2, ef1, zeros, List.all, beq_self_eq_true, Bool.and_self, if_true]

theorem RoundTrip.bara (n : BitVec 2) : RoundTrip.Statement (.bara n) := by
  intro hwf W hw
  have hw : pack 0x60000060 (strip [⟨n.toNat, 0, 2⟩]) = W := Option.some.inj hw
  have ok : laidOut 0x60000060 [(0, 2)] = true := by decide +kernel
  have ft : Fits [⟨n.toNat, 0, 2⟩] := ⟨n.isLt, trivial⟩
  have em : fld W 26 6 = 0x18 := read_const hw ok ft (show apart 26 6 [(0, 2)] = true by decide +kernel) (by decide +kernel)
  have ej : fld W 5 6 = 3 := read_const hw ok ft (show apart 5 6 [(0, 2)] = true by decide +kernel) (by decide +kernel)
  have ez1 : fld W 2 3 = 0 := read_const hw ok ft (show apart 2 3 [(0, 2)] = true by decide +kernel) (by decide +kernel)
  have ez2 : fld W 11 15 = 0 := read_const hw ok ft (show apart 11 15 [(0, 2)] = true by decide +kernel) (by decide +kernel)
  have ef1 : bv 2 W 0 = n := read_bv hw ok ft (.head _)
  refine ⟨hw ▸ pack_lt ok ft (show inWord [(0, 2)] = true by decide +kernel) (by decide +kernel), .core (.bara n), ?_, rfl⟩
  rw [decodeNat_18 W em, decSync]
  simp only [ej, ez1, ez2, ef1, zeros, List.all, beq_self_eq_true, Bool.and_self, if_true]

theorem RoundTrip.barw (n : BitVec 2) : RoundTrip.Statement (.barw n) := by
  intro hwf W hw
  have hw : pack 0x60000080 (strip [⟨n.toNat, 0, 2⟩]) = W := Option.some.inj hw
  have ok : laidOut 0x60000080 [(0, 2)] = true := by decide +kernel
  have ft : Fits [⟨n.toNat, 0, 2⟩] := ⟨n.isLt, trivial⟩
  have em : fld W 26 6 = 0x18 := read_const hw ok ft (show apart 26 6 [(0, 2)] = true by decide +kernel) (by decide +kernel)
  have ej : fld W 5 6 = 4 := read_const hw ok ft (show apart 5 6 [(0, 2)] = true by decide +kernel) (by decide +kernel)
  have ez1 : fld W 2 3 = 0 := read_const hw ok ft (show apart 2 3 [(0, 2)] = true by decide +kernel) (by decide +kernel)
  have ez2 : fld W 11 15 = 0 := read_const hw ok ft (show apart 11 15 [(0, 2)] = true by decide +kernel) (by decide +kernel)
  have ef1 : bv 2 W 0 = n := read_bv hw ok ft (.head _)
  refine ⟨hw ▸ pack_lt ok ft (show inWord [(0, 2)] = true by decide +kernel) (by decide +kernel), .core (.barw n), ?_, rfl⟩
  rw [decodeNat_18 W em, decSync]
  simp only [ej, ez1, ez2, ef1, zeros, List.all, beq_self_eq_true, Bool.and_self, if_true]

theorem RoundTrip.waitw (d : BitVec 5) (a : BitVec 5) (b : BitVec 5) : RoundTrip.Statement (.waitw d a b) := by
  intro hwf W hw
  have hw : pack 0x600000A0 (strip [⟨d.toNat, 21, 5⟩, ⟨a.toNat, 16, 5⟩, ⟨b.toNat, 11, 5⟩]) = W := Option.some.inj hw
  have ok : laidOut 0x600000A0 [(21, 5), (16, 5), (11, 5)] = true := by decide +kernel
  have ft : Fits [⟨d.toNat, 21, 5⟩, ⟨a.toNat, 16, 5⟩, ⟨b.toNat, 11, 5⟩] := ⟨d.isLt, a.isLt, b.isLt, trivial⟩
  have em : fld W 26 6 = 0x18 := read_const hw ok ft (show apart 26 6 [(21, 5), (16, 5), (11, 5)] = true by decide +kernel) (by decide +kernel)
  have ej : fld W 5 6 = 5 := read_const hw ok ft (show apart 5 6 [(21, 5), (16, 5), (11, 5)] = true by decide +kernel) (by decide +kernel)
  have ez1 : fld W 0 5 = 0 := read_const hw ok ft (show apart 0 5 [(21, 5), (16, 5), (11, 5)] = true by decide +kernel) (by decide +kernel)
  have ef1 : bv 5 W 21 = d := read_bv hw ok ft (.head _)
  have ef2 : bv 5 W 16 = a := read_bv hw ok ft (.tail _ (.head _))
  have ef3 : bv 5 W 11 = b := read_bv hw ok ft (.tail _ (.tail _ (.head _)))
  refine ⟨hw ▸ pack_lt ok ft (show inWord [(21, 5), (16, 5), (11, 5)] = true by decide +kernel) (by decide +kernel), .core (.waitw d a b), ?_, rfl⟩
  rw [decodeNat_18 W em, decSync]
  simp only [ej, ez1, ef1, ef2, ef3, zeros, List.all, beq_self_eq_true, Bool.and_self, if_true]

theorem RoundTrip.publish (a : BitVec 5) (s : Scope) : RoundTrip.Statement (.publish a s) := by
  intro hwf W hw
  have hw : pack 0x600000C0 (strip [⟨a.toNat, 16, 5⟩, ⟨s.code, 2, 3⟩]) = W := Option.some.inj hw
  have ok : laidOut 0x600000C0 [(16, 5), (2, 3)] = true := by decide +kernel
  have ft : Fits [⟨a.toNat, 16, 5⟩, ⟨s.code, 2, 3⟩] := ⟨a.isLt, s.code_lt, trivial⟩
  have em : fld W 26 6 = 0x18 := read_const hw ok ft (show apart 26 6 [(16, 5), (2, 3)] = true by decide +kernel) (by decide +kernel)
  have ej : fld W 5 6 = 6 := read_const hw ok ft (show apart 5 6 [(16, 5), (2, 3)] = true by decide +kernel) (by decide +kernel)
  have ez1 : fld W 0 2 = 0 := read_const hw ok ft (show apart 0 2 [(16, 5), (2, 3)] = true by decide +kernel) (by decide +kernel)
  have ez2 : fld W 11 5 = 0 := read_const hw ok ft (show apart 11 5 [(16, 5), (2, 3)] = true by decide +kernel) (by decide +kernel)
  have ez3 : fld W 21 5 = 0 := read_const hw ok ft (show apart 21 5 [(16, 5), (2, 3)] = true by decide +kernel) (by decide +kernel)
  have ef1 : bv 5 W 16 = a := read_bv hw ok ft (.head _)
  have ef2 : Scope.ofCode (fld W 2 3) = some s := Scope.of_code (read_code hw ok ft (.tail _ (.head _)))
  refine ⟨hw ▸ pack_lt ok ft (show inWord [(16, 5), (2, 3)] = true by decide +kernel) (by decide +kernel), .core (.publish a s), ?_, rfl⟩
  rw [decodeNat_18 W em, decSync]
  simp only [ej, ez1, ez2, ez3, ef1, ef2, zeros, List.all, beq_self_eq_true, Bool.and_self, if_true, opt]

theorem RoundTrip.acquire (d : BitVec 5) (a : BitVec 5) (s : Scope) : RoundTrip.Statement (.acquire d a s) := by
  intro hwf W hw
  have hw : pack 0x600000E0 (strip [⟨d.toNat, 21, 5⟩, ⟨a.toNat, 16, 5⟩, ⟨s.code, 2, 3⟩]) = W := Option.some.inj hw
  have ok : laidOut 0x600000E0 [(21, 5), (16, 5), (2, 3)] = true := by decide +kernel
  have ft : Fits [⟨d.toNat, 21, 5⟩, ⟨a.toNat, 16, 5⟩, ⟨s.code, 2, 3⟩] := ⟨d.isLt, a.isLt, s.code_lt, trivial⟩
  have em : fld W 26 6 = 0x18 := read_const hw ok ft (show apart 26 6 [(21, 5), (16, 5), (2, 3)] = true by decide +kernel) (by decide +kernel)
  have ej : fld W 5 6 = 7 := read_const hw ok ft (show apart 5 6 [(21, 5), (16, 5), (2, 3)] = true by decide +kernel) (by decide +kernel)
  have ez1 : fld W 0 2 = 0 := read_const hw ok ft (show apart 0 2 [(21, 5), (16, 5), (2, 3)] = true by decide +kernel) (by decide +kernel)
  have ez2 : fld W 11 5 = 0 := read_const hw ok ft (show apart 11 5 [(21, 5), (16, 5), (2, 3)] = true by decide +kernel) (by decide +kernel)
  have ef1 : bv 5 W 21 = d := read_bv hw ok ft (.head _)
  have ef2 : bv 5 W 16 = a := read_bv hw ok ft (.tail _ (.head _))
  have ef3 : Scope.ofCode (fld W 2 3) = some s := Scope.of_code (read_code hw ok ft (.tail _ (.tail _ (.head _))))
  refine ⟨hw ▸ pack_lt ok ft (show inWord [(21, 5), (16, 5), (2, 3)] = true by decide +kernel) (by decide +kernel), .core (.acquire d a s), ?_, rfl⟩
  rw [decodeNat_18 W em, decSync]
  simp only [ej, ez1, ez2, ef1, ef2, ef3, zeros, List.all, beq_self_eq_true, Bool.and_self, if_true, opt]

theorem RoundTrip.hstart (d : BitVec 5) (a : BitVec 5) (b : BitVec 5) : RoundTrip.Statement (.hstart d a b) := by
  intro hwf W hw
  have hw : pack 0x64000000 (strip [⟨d.toNat, 21, 5⟩, ⟨a.toNat, 16, 5⟩, ⟨b.toNat, 11, 5⟩]) = W := Option.some.inj hw
  have ok : laidOut 0x64000000 [(21, 5), (16, 5), (11, 5)] = true := by decide +kernel
  have ft : Fits [⟨d.toNat, 21, 5⟩, ⟨a.toNat, 16, 5⟩, ⟨b.toNat, 11, 5⟩] := ⟨d.isLt, a.isLt, b.isLt, trivial⟩
  have em : fld W 26 6 = 0x19 := read_const hw ok ft (show apart 26 6 [(21, 5), (16, 5), (11, 5)] = true by decide +kernel) (by decide +kernel)
  have ej : fld W 5 6 = 0 := read_const hw ok ft (show apart 5 6 [(21, 5), (16, 5), (11, 5)] = true by decide +kernel) (by decide +kernel)
  have ez1 : fld W 0 5 = 0 := read_const hw ok ft (show apart 0 5 [(21, 5), (16, 5), (11, 5)] = true by decide +kernel) (by decide +kernel)
  have ef1 : bv 5 W 21 = d := read_bv hw ok ft (.head _)
  have ef2 : bv 5 W 16 = a := read_bv hw ok ft (.tail _ (.head _))
  have ef3 : bv 5 W 11 = b := read_bv hw ok ft (.tail _ (.tail _ (.head _)))
  refine ⟨hw ▸ pack_lt ok ft (show inWord [(21, 5), (16, 5), (11, 5)] = true by decide +kernel) (by decide +kernel), .core (.hstart d a b), ?_, rfl⟩
  rw [decodeNat_19 W em, decWork]
  simp only [ej, ez1, ef1, ef2, ef3, zeros, List.all, beq_self_eq_true, Bool.and_self, if_true]

theorem RoundTrip.hjoin (a : BitVec 5) : RoundTrip.Statement (.hjoin a) := by
  intro hwf W hw
  have hw : pack 0x64000020 (strip [⟨a.toNat, 16, 5⟩]) = W := Option.some.inj hw
  have ok : laidOut 0x64000020 [(16, 5)] = true := by decide +kernel
  have ft : Fits [⟨a.toNat, 16, 5⟩] := ⟨a.isLt, trivial⟩
  have em : fld W 26 6 = 0x19 := read_const hw ok ft (show apart 26 6 [(16, 5)] = true by decide +kernel) (by decide +kernel)
  have ej : fld W 5 6 = 1 := read_const hw ok ft (show apart 5 6 [(16, 5)] = true by decide +kernel) (by decide +kernel)
  have ez1 : fld W 0 5 = 0 := read_const hw ok ft (show apart 0 5 [(16, 5)] = true by decide +kernel) (by decide +kernel)
  have ez2 : fld W 11 5 = 0 := read_const hw ok ft (show apart 11 5 [(16, 5)] = true by decide +kernel) (by decide +kernel)
  have ez3 : fld W 21 5 = 0 := read_const hw ok ft (show apart 21 5 [(16, 5)] = true by decide +kernel) (by decide +kernel)
  have ef1 : bv 5 W 16 = a := read_bv hw ok ft (.head _)
  refine ⟨hw ▸ pack_lt ok ft (show inWord [(16, 5)] = true by decide +kernel) (by decide +kernel), .core (.hjoin a), ?_, rfl⟩
  rw [decodeNat_19 W em, decWork]
  simp only [ej, ez1, ez2, ez3, ef1, zeros, List.all, beq_self_eq_true, Bool.and_self, if_true]

theorem RoundTrip.hstat (d : BitVec 5) : RoundTrip.Statement (.hstat d) := by
  intro hwf W hw
  have hw : pack 0x64000040 (strip [⟨d.toNat, 21, 5⟩]) = W := Option.some.inj hw
  have ok : laidOut 0x64000040 [(21, 5)] = true := by decide +kernel
  have ft : Fits [⟨d.toNat, 21, 5⟩] := ⟨d.isLt, trivial⟩
  have em : fld W 26 6 = 0x19 := read_const hw ok ft (show apart 26 6 [(21, 5)] = true by decide +kernel) (by decide +kernel)
  have ej : fld W 5 6 = 2 := read_const hw ok ft (show apart 5 6 [(21, 5)] = true by decide +kernel) (by decide +kernel)
  have ez1 : fld W 0 5 = 0 := read_const hw ok ft (show apart 0 5 [(21, 5)] = true by decide +kernel) (by decide +kernel)
  have ez2 : fld W 11 10 = 0 := read_const hw ok ft (show apart 11 10 [(21, 5)] = true by decide +kernel) (by decide +kernel)
  have ef1 : bv 5 W 21 = d := read_bv hw ok ft (.head _)
  refine ⟨hw ▸ pack_lt ok ft (show inWord [(21, 5)] = true by decide +kernel) (by decide +kernel), .core (.hstat d), ?_, rfl⟩
  rw [decodeNat_19 W em, decWork]
  simp only [ej, ez1, ez2, ef1, zeros, List.all, beq_self_eq_true, Bool.and_self, if_true]

theorem RoundTrip.launch (d : BitVec 5) (a : BitVec 5) : RoundTrip.Statement (.launch d a) := by
  intro hwf W hw
  have hw : pack 0x64000060 (strip [⟨d.toNat, 21, 5⟩, ⟨a.toNat, 16, 5⟩]) = W := Option.some.inj hw
  have ok : laidOut 0x64000060 [(21, 5), (16, 5)] = true := by decide +kernel
  have ft : Fits [⟨d.toNat, 21, 5⟩, ⟨a.toNat, 16, 5⟩] := ⟨d.isLt, a.isLt, trivial⟩
  have em : fld W 26 6 = 0x19 := read_const hw ok ft (show apart 26 6 [(21, 5), (16, 5)] = true by decide +kernel) (by decide +kernel)
  have ej : fld W 5 6 = 3 := read_const hw ok ft (show apart 5 6 [(21, 5), (16, 5)] = true by decide +kernel) (by decide +kernel)
  have ez1 : fld W 0 5 = 0 := read_const hw ok ft (show apart 0 5 [(21, 5), (16, 5)] = true by decide +kernel) (by decide +kernel)
  have ez2 : fld W 11 5 = 0 := read_const hw ok ft (show apart 11 5 [(21, 5), (16, 5)] = true by decide +kernel) (by decide +kernel)
  have ef1 : bv 5 W 21 = d := read_bv hw ok ft (.head _)
  have ef2 : bv 5 W 16 = a := read_bv hw ok ft (.tail _ (.head _))
  refine ⟨hw ▸ pack_lt ok ft (show inWord [(21, 5), (16, 5)] = true by decide +kernel) (by decide +kernel), .core (.launch d a), ?_, rfl⟩
  rw [decodeNat_19 W em, decWork]
  simp only [ej, ez1, ez2, ef1, ef2, zeros, List.all, beq_self_eq_true, Bool.and_self, if_true]

theorem RoundTrip.lstat (d : BitVec 5) (a : BitVec 5) : RoundTrip.Statement (.lstat d a) := by
  intro hwf W hw
  have hw : pack 0x64000080 (strip [⟨d.toNat, 21, 5⟩, ⟨a.toNat, 16, 5⟩]) = W := Option.some.inj hw
  have ok : laidOut 0x64000080 [(21, 5), (16, 5)] = true := by decide +kernel
  have ft : Fits [⟨d.toNat, 21, 5⟩, ⟨a.toNat, 16, 5⟩] := ⟨d.isLt, a.isLt, trivial⟩
  have em : fld W 26 6 = 0x19 := read_const hw ok ft (show apart 26 6 [(21, 5), (16, 5)] = true by decide +kernel) (by decide +kernel)
  have ej : fld W 5 6 = 4 := read_const hw ok ft (show apart 5 6 [(21, 5), (16, 5)] = true by decide +kernel) (by decide +kernel)
  have ez1 : fld W 0 5 = 0 := read_const hw ok ft (show apart 0 5 [(21, 5), (16, 5)] = true by decide +kernel) (by decide +kernel)
  have ez2 : fld W 11 5 = 0 := read_const hw ok ft (show apart 11 5 [(21, 5), (16, 5)] = true by decide +kernel) (by decide +kernel)
  have ef1 : bv 5 W 21 = d := read_bv hw ok ft (.head _)
  have ef2 : bv 5 W 16 = a := read_bv hw ok ft (.tail _ (.head _))
  refine ⟨hw ▸ pack_lt ok ft (show inWord [(21, 5), (16, 5)] = true by decide +kernel) (by decide +kernel), .core (.lstat d a), ?_, rfl⟩
  rw [decodeNat_19 W em, decWork]
  simp only [ej, ez1, ez2, ef1, ef2, zeros, List.all, beq_self_eq_true, Bool.and_self, if_true]

theorem RoundTrip.vadd (d : BitVec 4) (a : BitVec 4) (b : BitVec 4) (p : BitVec 3) (ty : VType) (rs : RSrc) : RoundTrip.Statement (.vadd d a b p ty rs) := by
  intro hwf W hw
  have hw : pack 0x80000000 (strip [⟨d.toNat, 22, 4⟩, ⟨a.toNat, 18, 4⟩, ⟨b.toNat, 14, 4⟩, ⟨p.toNat, 11, 3⟩, ⟨ty.code, 2, 3⟩, ⟨ty.eBit, 10, 1⟩, ⟨rs.code, 0, 2⟩]) = W := Option.some.inj hw
  have ok : laidOut 0x80000000 [(22, 4), (18, 4), (14, 4), (11, 3), (2, 3), (10, 1), (0, 2)] = true := by decide +kernel
  have ft : Fits [⟨d.toNat, 22, 4⟩, ⟨a.toNat, 18, 4⟩, ⟨b.toNat, 14, 4⟩, ⟨p.toNat, 11, 3⟩, ⟨ty.code, 2, 3⟩, ⟨ty.eBit, 10, 1⟩, ⟨rs.code, 0, 2⟩] := ⟨d.isLt, a.isLt, b.isLt, p.isLt, ty.code_lt, ty.eBit_lt, rs.code_lt, trivial⟩
  have em : fld W 26 6 = 0x20 := read_const hw ok ft (show apart 26 6 [(22, 4), (18, 4), (14, 4), (11, 3), (2, 3), (10, 1), (0, 2)] = true by decide +kernel) (by decide +kernel)
  have ej : fld W 5 5 = 0 := read_const hw ok ft (show apart 5 5 [(22, 4), (18, 4), (14, 4), (11, 3), (2, 3), (10, 1), (0, 2)] = true by decide +kernel) (by decide +kernel)
  have ef1 : bv 4 W 22 = d := read_bv hw ok ft (.head _)
  have ef2 : bv 4 W 18 = a := read_bv hw ok ft (.tail _ (.head _))
  have ef3 : bv 4 W 14 = b := read_bv hw ok ft (.tail _ (.tail _ (.head _)))
  have ef4 : bv 3 W 11 = p := read_bv hw ok ft (.tail _ (.tail _ (.tail _ (.head _))))
  have ef5 : VType.ofCode (fld W 2 3) (flag W 10) = some ty := VType.of_code (read_code hw ok ft (.tail _ (.tail _ (.tail _ (.tail _ (.head _)))))) (read_code hw ok ft (.tail _ (.tail _ (.tail _ (.tail _ (.tail _ (.head _)))))))
  have ef6 : RSrc.ofCode (fld W 0 2) = rs := RSrc.of_code (read_code hw ok ft (.tail _ (.tail _ (.tail _ (.tail _ (.tail _ (.tail _ (.head _))))))))
  refine ⟨hw ▸ pack_lt ok ft (show inWord [(22, 4), (18, 4), (14, 4), (11, 3), (2, 3), (10, 1), (0, 2)] = true by decide +kernel) (by decide +kernel), .core (.vadd d a b p ty rs), ?_, rfl⟩
  rw [decodeNat_20 W em, decVop]
  simp only [ej, ef1, ef2, ef3, ef4, ef5, ef6, typ, opt, wfOr, hwf, if_true]

theorem RoundTrip.vsub (d : BitVec 4) (a : BitVec 4) (b : BitVec 4) (p : BitVec 3) (ty : VType) (rs : RSrc) : RoundTrip.Statement (.vsub d a b p ty rs) := by
  intro hwf W hw
  have hw : pack 0x80000020 (strip [⟨d.toNat, 22, 4⟩, ⟨a.toNat, 18, 4⟩, ⟨b.toNat, 14, 4⟩, ⟨p.toNat, 11, 3⟩, ⟨ty.code, 2, 3⟩, ⟨ty.eBit, 10, 1⟩, ⟨rs.code, 0, 2⟩]) = W := Option.some.inj hw
  have ok : laidOut 0x80000020 [(22, 4), (18, 4), (14, 4), (11, 3), (2, 3), (10, 1), (0, 2)] = true := by decide +kernel
  have ft : Fits [⟨d.toNat, 22, 4⟩, ⟨a.toNat, 18, 4⟩, ⟨b.toNat, 14, 4⟩, ⟨p.toNat, 11, 3⟩, ⟨ty.code, 2, 3⟩, ⟨ty.eBit, 10, 1⟩, ⟨rs.code, 0, 2⟩] := ⟨d.isLt, a.isLt, b.isLt, p.isLt, ty.code_lt, ty.eBit_lt, rs.code_lt, trivial⟩
  have em : fld W 26 6 = 0x20 := read_const hw ok ft (show apart 26 6 [(22, 4), (18, 4), (14, 4), (11, 3), (2, 3), (10, 1), (0, 2)] = true by decide +kernel) (by decide +kernel)
  have ej : fld W 5 5 = 1 := read_const hw ok ft (show apart 5 5 [(22, 4), (18, 4), (14, 4), (11, 3), (2, 3), (10, 1), (0, 2)] = true by decide +kernel) (by decide +kernel)
  have ef1 : bv 4 W 22 = d := read_bv hw ok ft (.head _)
  have ef2 : bv 4 W 18 = a := read_bv hw ok ft (.tail _ (.head _))
  have ef3 : bv 4 W 14 = b := read_bv hw ok ft (.tail _ (.tail _ (.head _)))
  have ef4 : bv 3 W 11 = p := read_bv hw ok ft (.tail _ (.tail _ (.tail _ (.head _))))
  have ef5 : VType.ofCode (fld W 2 3) (flag W 10) = some ty := VType.of_code (read_code hw ok ft (.tail _ (.tail _ (.tail _ (.tail _ (.head _)))))) (read_code hw ok ft (.tail _ (.tail _ (.tail _ (.tail _ (.tail _ (.head _)))))))
  have ef6 : RSrc.ofCode (fld W 0 2) = rs := RSrc.of_code (read_code hw ok ft (.tail _ (.tail _ (.tail _ (.tail _ (.tail _ (.tail _ (.head _))))))))
  refine ⟨hw ▸ pack_lt ok ft (show inWord [(22, 4), (18, 4), (14, 4), (11, 3), (2, 3), (10, 1), (0, 2)] = true by decide +kernel) (by decide +kernel), .core (.vsub d a b p ty rs), ?_, rfl⟩
  rw [decodeNat_20 W em, decVop]
  simp only [ej, ef1, ef2, ef3, ef4, ef5, ef6, typ, opt, wfOr, hwf, if_true]

theorem RoundTrip.vmul (d : BitVec 4) (a : BitVec 4) (b : BitVec 4) (p : BitVec 3) (ty : VType) (rs : RSrc) : RoundTrip.Statement (.vmul d a b p ty rs) := by
  intro hwf W hw
  have hw : pack 0x80000040 (strip [⟨d.toNat, 22, 4⟩, ⟨a.toNat, 18, 4⟩, ⟨b.toNat, 14, 4⟩, ⟨p.toNat, 11, 3⟩, ⟨ty.code, 2, 3⟩, ⟨ty.eBit, 10, 1⟩, ⟨rs.code, 0, 2⟩]) = W := Option.some.inj hw
  have ok : laidOut 0x80000040 [(22, 4), (18, 4), (14, 4), (11, 3), (2, 3), (10, 1), (0, 2)] = true := by decide +kernel
  have ft : Fits [⟨d.toNat, 22, 4⟩, ⟨a.toNat, 18, 4⟩, ⟨b.toNat, 14, 4⟩, ⟨p.toNat, 11, 3⟩, ⟨ty.code, 2, 3⟩, ⟨ty.eBit, 10, 1⟩, ⟨rs.code, 0, 2⟩] := ⟨d.isLt, a.isLt, b.isLt, p.isLt, ty.code_lt, ty.eBit_lt, rs.code_lt, trivial⟩
  have em : fld W 26 6 = 0x20 := read_const hw ok ft (show apart 26 6 [(22, 4), (18, 4), (14, 4), (11, 3), (2, 3), (10, 1), (0, 2)] = true by decide +kernel) (by decide +kernel)
  have ej : fld W 5 5 = 2 := read_const hw ok ft (show apart 5 5 [(22, 4), (18, 4), (14, 4), (11, 3), (2, 3), (10, 1), (0, 2)] = true by decide +kernel) (by decide +kernel)
  have ef1 : bv 4 W 22 = d := read_bv hw ok ft (.head _)
  have ef2 : bv 4 W 18 = a := read_bv hw ok ft (.tail _ (.head _))
  have ef3 : bv 4 W 14 = b := read_bv hw ok ft (.tail _ (.tail _ (.head _)))
  have ef4 : bv 3 W 11 = p := read_bv hw ok ft (.tail _ (.tail _ (.tail _ (.head _))))
  have ef5 : VType.ofCode (fld W 2 3) (flag W 10) = some ty := VType.of_code (read_code hw ok ft (.tail _ (.tail _ (.tail _ (.tail _ (.head _)))))) (read_code hw ok ft (.tail _ (.tail _ (.tail _ (.tail _ (.tail _ (.head _)))))))
  have ef6 : RSrc.ofCode (fld W 0 2) = rs := RSrc.of_code (read_code hw ok ft (.tail _ (.tail _ (.tail _ (.tail _ (.tail _ (.tail _ (.head _))))))))
  refine ⟨hw ▸ pack_lt ok ft (show inWord [(22, 4), (18, 4), (14, 4), (11, 3), (2, 3), (10, 1), (0, 2)] = true by decide +kernel) (by decide +kernel), .core (.vmul d a b p ty rs), ?_, rfl⟩
  rw [decodeNat_20 W em, decVop]
  simp only [ej, ef1, ef2, ef3, ef4, ef5, ef6, typ, opt, wfOr, hwf, if_true]

theorem RoundTrip.vfma (d : BitVec 4) (a : BitVec 4) (b : BitVec 4) (p : BitVec 3) (ty : VType) (rs : RSrc) : RoundTrip.Statement (.vfma d a b p ty rs) := by
  intro hwf W hw
  have hw : pack 0x80000060 (strip [⟨d.toNat, 22, 4⟩, ⟨a.toNat, 18, 4⟩, ⟨b.toNat, 14, 4⟩, ⟨p.toNat, 11, 3⟩, ⟨ty.code, 2, 3⟩, ⟨ty.eBit, 10, 1⟩, ⟨rs.code, 0, 2⟩]) = W := Option.some.inj hw
  have ok : laidOut 0x80000060 [(22, 4), (18, 4), (14, 4), (11, 3), (2, 3), (10, 1), (0, 2)] = true := by decide +kernel
  have ft : Fits [⟨d.toNat, 22, 4⟩, ⟨a.toNat, 18, 4⟩, ⟨b.toNat, 14, 4⟩, ⟨p.toNat, 11, 3⟩, ⟨ty.code, 2, 3⟩, ⟨ty.eBit, 10, 1⟩, ⟨rs.code, 0, 2⟩] := ⟨d.isLt, a.isLt, b.isLt, p.isLt, ty.code_lt, ty.eBit_lt, rs.code_lt, trivial⟩
  have em : fld W 26 6 = 0x20 := read_const hw ok ft (show apart 26 6 [(22, 4), (18, 4), (14, 4), (11, 3), (2, 3), (10, 1), (0, 2)] = true by decide +kernel) (by decide +kernel)
  have ej : fld W 5 5 = 3 := read_const hw ok ft (show apart 5 5 [(22, 4), (18, 4), (14, 4), (11, 3), (2, 3), (10, 1), (0, 2)] = true by decide +kernel) (by decide +kernel)
  have ef1 : bv 4 W 22 = d := read_bv hw ok ft (.head _)
  have ef2 : bv 4 W 18 = a := read_bv hw ok ft (.tail _ (.head _))
  have ef3 : bv 4 W 14 = b := read_bv hw ok ft (.tail _ (.tail _ (.head _)))
  have ef4 : bv 3 W 11 = p := read_bv hw ok ft (.tail _ (.tail _ (.tail _ (.head _))))
  have ef5 : VType.ofCode (fld W 2 3) (flag W 10) = some ty := VType.of_code (read_code hw ok ft (.tail _ (.tail _ (.tail _ (.tail _ (.head _)))))) (read_code hw ok ft (.tail _ (.tail _ (.tail _ (.tail _ (.tail _ (.head _)))))))
  have ef6 : RSrc.ofCode (fld W 0 2) = rs := RSrc.of_code (read_code hw ok ft (.tail _ (.tail _ (.tail _ (.tail _ (.tail _ (.tail _ (.head _))))))))
  refine ⟨hw ▸ pack_lt ok ft (show inWord [(22, 4), (18, 4), (14, 4), (11, 3), (2, 3), (10, 1), (0, 2)] = true by decide +kernel) (by decide +kernel), .core (.vfma d a b p ty rs), ?_, rfl⟩
  rw [decodeNat_20 W em, decVop]
  simp only [ej, ef1, ef2, ef3, ef4, ef5, ef6, typ, opt, wfOr, hwf, if_true]

theorem RoundTrip.vfms (d : BitVec 4) (a : BitVec 4) (b : BitVec 4) (p : BitVec 3) (ty : VType) (rs : RSrc) : RoundTrip.Statement (.vfms d a b p ty rs) := by
  intro hwf W hw
  have hw : pack 0x80000080 (strip [⟨d.toNat, 22, 4⟩, ⟨a.toNat, 18, 4⟩, ⟨b.toNat, 14, 4⟩, ⟨p.toNat, 11, 3⟩, ⟨ty.code, 2, 3⟩, ⟨ty.eBit, 10, 1⟩, ⟨rs.code, 0, 2⟩]) = W := Option.some.inj hw
  have ok : laidOut 0x80000080 [(22, 4), (18, 4), (14, 4), (11, 3), (2, 3), (10, 1), (0, 2)] = true := by decide +kernel
  have ft : Fits [⟨d.toNat, 22, 4⟩, ⟨a.toNat, 18, 4⟩, ⟨b.toNat, 14, 4⟩, ⟨p.toNat, 11, 3⟩, ⟨ty.code, 2, 3⟩, ⟨ty.eBit, 10, 1⟩, ⟨rs.code, 0, 2⟩] := ⟨d.isLt, a.isLt, b.isLt, p.isLt, ty.code_lt, ty.eBit_lt, rs.code_lt, trivial⟩
  have em : fld W 26 6 = 0x20 := read_const hw ok ft (show apart 26 6 [(22, 4), (18, 4), (14, 4), (11, 3), (2, 3), (10, 1), (0, 2)] = true by decide +kernel) (by decide +kernel)
  have ej : fld W 5 5 = 4 := read_const hw ok ft (show apart 5 5 [(22, 4), (18, 4), (14, 4), (11, 3), (2, 3), (10, 1), (0, 2)] = true by decide +kernel) (by decide +kernel)
  have ef1 : bv 4 W 22 = d := read_bv hw ok ft (.head _)
  have ef2 : bv 4 W 18 = a := read_bv hw ok ft (.tail _ (.head _))
  have ef3 : bv 4 W 14 = b := read_bv hw ok ft (.tail _ (.tail _ (.head _)))
  have ef4 : bv 3 W 11 = p := read_bv hw ok ft (.tail _ (.tail _ (.tail _ (.head _))))
  have ef5 : VType.ofCode (fld W 2 3) (flag W 10) = some ty := VType.of_code (read_code hw ok ft (.tail _ (.tail _ (.tail _ (.tail _ (.head _)))))) (read_code hw ok ft (.tail _ (.tail _ (.tail _ (.tail _ (.tail _ (.head _)))))))
  have ef6 : RSrc.ofCode (fld W 0 2) = rs := RSrc.of_code (read_code hw ok ft (.tail _ (.tail _ (.tail _ (.tail _ (.tail _ (.tail _ (.head _))))))))
  refine ⟨hw ▸ pack_lt ok ft (show inWord [(22, 4), (18, 4), (14, 4), (11, 3), (2, 3), (10, 1), (0, 2)] = true by decide +kernel) (by decide +kernel), .core (.vfms d a b p ty rs), ?_, rfl⟩
  rw [decodeNat_20 W em, decVop]
  simp only [ej, ef1, ef2, ef3, ef4, ef5, ef6, typ, opt, wfOr, hwf, if_true]

theorem RoundTrip.vmin (d : BitVec 4) (a : BitVec 4) (b : BitVec 4) (p : BitVec 3) (ty : VType) : RoundTrip.Statement (.vmin d a b p ty) := by
  intro hwf W hw
  have hw : pack 0x800000A0 (strip [⟨d.toNat, 22, 4⟩, ⟨a.toNat, 18, 4⟩, ⟨b.toNat, 14, 4⟩, ⟨p.toNat, 11, 3⟩, ⟨ty.code, 2, 3⟩, ⟨ty.eBit, 10, 1⟩]) = W := Option.some.inj hw
  have ok : laidOut 0x800000A0 [(22, 4), (18, 4), (14, 4), (11, 3), (2, 3), (10, 1)] = true := by decide +kernel
  have ft : Fits [⟨d.toNat, 22, 4⟩, ⟨a.toNat, 18, 4⟩, ⟨b.toNat, 14, 4⟩, ⟨p.toNat, 11, 3⟩, ⟨ty.code, 2, 3⟩, ⟨ty.eBit, 10, 1⟩] := ⟨d.isLt, a.isLt, b.isLt, p.isLt, ty.code_lt, ty.eBit_lt, trivial⟩
  have em : fld W 26 6 = 0x20 := read_const hw ok ft (show apart 26 6 [(22, 4), (18, 4), (14, 4), (11, 3), (2, 3), (10, 1)] = true by decide +kernel) (by decide +kernel)
  have ej : fld W 5 5 = 5 := read_const hw ok ft (show apart 5 5 [(22, 4), (18, 4), (14, 4), (11, 3), (2, 3), (10, 1)] = true by decide +kernel) (by decide +kernel)
  have ez1 : fld W 0 2 = 0 := read_const hw ok ft (show apart 0 2 [(22, 4), (18, 4), (14, 4), (11, 3), (2, 3), (10, 1)] = true by decide +kernel) (by decide +kernel)
  have ef1 : bv 4 W 22 = d := read_bv hw ok ft (.head _)
  have ef2 : bv 4 W 18 = a := read_bv hw ok ft (.tail _ (.head _))
  have ef3 : bv 4 W 14 = b := read_bv hw ok ft (.tail _ (.tail _ (.head _)))
  have ef4 : bv 3 W 11 = p := read_bv hw ok ft (.tail _ (.tail _ (.tail _ (.head _))))
  have ef5 : VType.ofCode (fld W 2 3) (flag W 10) = some ty := VType.of_code (read_code hw ok ft (.tail _ (.tail _ (.tail _ (.tail _ (.head _)))))) (read_code hw ok ft (.tail _ (.tail _ (.tail _ (.tail _ (.tail _ (.head _)))))))
  refine ⟨hw ▸ pack_lt ok ft (show inWord [(22, 4), (18, 4), (14, 4), (11, 3), (2, 3), (10, 1)] = true by decide +kernel) (by decide +kernel), .core (.vmin d a b p ty), ?_, rfl⟩
  rw [decodeNat_20 W em, decVop]
  simp only [ej, ez1, ef1, ef2, ef3, ef4, ef5, zeros, List.all, beq_self_eq_true, Bool.and_self, if_true, typ, opt]

theorem RoundTrip.vmax (d : BitVec 4) (a : BitVec 4) (b : BitVec 4) (p : BitVec 3) (ty : VType) : RoundTrip.Statement (.vmax d a b p ty) := by
  intro hwf W hw
  have hw : pack 0x800000C0 (strip [⟨d.toNat, 22, 4⟩, ⟨a.toNat, 18, 4⟩, ⟨b.toNat, 14, 4⟩, ⟨p.toNat, 11, 3⟩, ⟨ty.code, 2, 3⟩, ⟨ty.eBit, 10, 1⟩]) = W := Option.some.inj hw
  have ok : laidOut 0x800000C0 [(22, 4), (18, 4), (14, 4), (11, 3), (2, 3), (10, 1)] = true := by decide +kernel
  have ft : Fits [⟨d.toNat, 22, 4⟩, ⟨a.toNat, 18, 4⟩, ⟨b.toNat, 14, 4⟩, ⟨p.toNat, 11, 3⟩, ⟨ty.code, 2, 3⟩, ⟨ty.eBit, 10, 1⟩] := ⟨d.isLt, a.isLt, b.isLt, p.isLt, ty.code_lt, ty.eBit_lt, trivial⟩
  have em : fld W 26 6 = 0x20 := read_const hw ok ft (show apart 26 6 [(22, 4), (18, 4), (14, 4), (11, 3), (2, 3), (10, 1)] = true by decide +kernel) (by decide +kernel)
  have ej : fld W 5 5 = 6 := read_const hw ok ft (show apart 5 5 [(22, 4), (18, 4), (14, 4), (11, 3), (2, 3), (10, 1)] = true by decide +kernel) (by decide +kernel)
  have ez1 : fld W 0 2 = 0 := read_const hw ok ft (show apart 0 2 [(22, 4), (18, 4), (14, 4), (11, 3), (2, 3), (10, 1)] = true by decide +kernel) (by decide +kernel)
  have ef1 : bv 4 W 22 = d := read_bv hw ok ft (.head _)
  have ef2 : bv 4 W 18 = a := read_bv hw ok ft (.tail _ (.head _))
  have ef3 : bv 4 W 14 = b := read_bv hw ok ft (.tail _ (.tail _ (.head _)))
  have ef4 : bv 3 W 11 = p := read_bv hw ok ft (.tail _ (.tail _ (.tail _ (.head _))))
  have ef5 : VType.ofCode (fld W 2 3) (flag W 10) = some ty := VType.of_code (read_code hw ok ft (.tail _ (.tail _ (.tail _ (.tail _ (.head _)))))) (read_code hw ok ft (.tail _ (.tail _ (.tail _ (.tail _ (.tail _ (.head _)))))))
  refine ⟨hw ▸ pack_lt ok ft (show inWord [(22, 4), (18, 4), (14, 4), (11, 3), (2, 3), (10, 1)] = true by decide +kernel) (by decide +kernel), .core (.vmax d a b p ty), ?_, rfl⟩
  rw [decodeNat_20 W em, decVop]
  simp only [ej, ez1, ef1, ef2, ef3, ef4, ef5, zeros, List.all, beq_self_eq_true, Bool.and_self, if_true, typ, opt]

theorem RoundTrip.vabs (d : BitVec 4) (a : BitVec 4) (p : BitVec 3) (ty : VType) : RoundTrip.Statement (.vabs d a p ty) := by
  intro hwf W hw
  have hw : pack 0x800000E0 (strip [⟨d.toNat, 22, 4⟩, ⟨a.toNat, 18, 4⟩, ⟨p.toNat, 11, 3⟩, ⟨ty.code, 2, 3⟩, ⟨ty.eBit, 10, 1⟩]) = W := Option.some.inj hw
  have ok : laidOut 0x800000E0 [(22, 4), (18, 4), (11, 3), (2, 3), (10, 1)] = true := by decide +kernel
  have ft : Fits [⟨d.toNat, 22, 4⟩, ⟨a.toNat, 18, 4⟩, ⟨p.toNat, 11, 3⟩, ⟨ty.code, 2, 3⟩, ⟨ty.eBit, 10, 1⟩] := ⟨d.isLt, a.isLt, p.isLt, ty.code_lt, ty.eBit_lt, trivial⟩
  have em : fld W 26 6 = 0x20 := read_const hw ok ft (show apart 26 6 [(22, 4), (18, 4), (11, 3), (2, 3), (10, 1)] = true by decide +kernel) (by decide +kernel)
  have ej : fld W 5 5 = 7 := read_const hw ok ft (show apart 5 5 [(22, 4), (18, 4), (11, 3), (2, 3), (10, 1)] = true by decide +kernel) (by decide +kernel)
  have ez1 : fld W 14 4 = 0 := read_const hw ok ft (show apart 14 4 [(22, 4), (18, 4), (11, 3), (2, 3), (10, 1)] = true by decide +kernel) (by decide +kernel)
  have ez2 : fld W 0 2 = 0 := read_const hw ok ft (show apart 0 2 [(22, 4), (18, 4), (11, 3), (2, 3), (10, 1)] = true by decide +kernel) (by decide +kernel)
  have ef1 : bv 4 W 22 = d := read_bv hw ok ft (.head _)
  have ef2 : bv 4 W 18 = a := read_bv hw ok ft (.tail _ (.head _))
  have ef3 : bv 3 W 11 = p := read_bv hw ok ft (.tail _ (.tail _ (.head _)))
  have ef4 : VType.ofCode (fld W 2 3) (flag W 10) = some ty := VType.of_code (read_code hw ok ft (.tail _ (.tail _ (.tail _ (.head _))))) (read_code hw ok ft (.tail _ (.tail _ (.tail _ (.tail _ (.head _))))))
  refine ⟨hw ▸ pack_lt ok ft (show inWord [(22, 4), (18, 4), (11, 3), (2, 3), (10, 1)] = true by decide +kernel) (by decide +kernel), .core (.vabs d a p ty), ?_, rfl⟩
  rw [decodeNat_20 W em, decVop]
  simp only [ej, ez1, ez2, ef1, ef2, ef3, ef4, zeros, List.all, beq_self_eq_true, Bool.and_self, if_true, typ, opt]

theorem RoundTrip.vneg (d : BitVec 4) (a : BitVec 4) (p : BitVec 3) (ty : VType) : RoundTrip.Statement (.vneg d a p ty) := by
  intro hwf W hw
  have hw : pack 0x80000100 (strip [⟨d.toNat, 22, 4⟩, ⟨a.toNat, 18, 4⟩, ⟨p.toNat, 11, 3⟩, ⟨ty.code, 2, 3⟩, ⟨ty.eBit, 10, 1⟩]) = W := Option.some.inj hw
  have ok : laidOut 0x80000100 [(22, 4), (18, 4), (11, 3), (2, 3), (10, 1)] = true := by decide +kernel
  have ft : Fits [⟨d.toNat, 22, 4⟩, ⟨a.toNat, 18, 4⟩, ⟨p.toNat, 11, 3⟩, ⟨ty.code, 2, 3⟩, ⟨ty.eBit, 10, 1⟩] := ⟨d.isLt, a.isLt, p.isLt, ty.code_lt, ty.eBit_lt, trivial⟩
  have em : fld W 26 6 = 0x20 := read_const hw ok ft (show apart 26 6 [(22, 4), (18, 4), (11, 3), (2, 3), (10, 1)] = true by decide +kernel) (by decide +kernel)
  have ej : fld W 5 5 = 8 := read_const hw ok ft (show apart 5 5 [(22, 4), (18, 4), (11, 3), (2, 3), (10, 1)] = true by decide +kernel) (by decide +kernel)
  have ez1 : fld W 14 4 = 0 := read_const hw ok ft (show apart 14 4 [(22, 4), (18, 4), (11, 3), (2, 3), (10, 1)] = true by decide +kernel) (by decide +kernel)
  have ez2 : fld W 0 2 = 0 := read_const hw ok ft (show apart 0 2 [(22, 4), (18, 4), (11, 3), (2, 3), (10, 1)] = true by decide +kernel) (by decide +kernel)
  have ef1 : bv 4 W 22 = d := read_bv hw ok ft (.head _)
  have ef2 : bv 4 W 18 = a := read_bv hw ok ft (.tail _ (.head _))
  have ef3 : bv 3 W 11 = p := read_bv hw ok ft (.tail _ (.tail _ (.head _)))
  have ef4 : VType.ofCode (fld W 2 3) (flag W 10) = some ty := VType.of_code (read_code hw ok ft (.tail _ (.tail _ (.tail _ (.head _))))) (read_code hw ok ft (.tail _ (.tail _ (.tail _ (.tail _ (.head _))))))
  refine ⟨hw ▸ pack_lt ok ft (show inWord [(22, 4), (18, 4), (11, 3), (2, 3), (10, 1)] = true by decide +kernel) (by decide +kernel), .core (.vneg d a p ty), ?_, rfl⟩
  rw [decodeNat_20 W em, decVop]
  simp only [ej, ez1, ez2, ef1, ef2, ef3, ef4, zeros, List.all, beq_self_eq_true, Bool.and_self, if_true, typ, opt]

theorem RoundTrip.vand (d : BitVec 4) (a : BitVec 4) (b : BitVec 4) (p : BitVec 3) : RoundTrip.Statement (.vand d a b p) := by
  intro hwf W hw
  have hw : pack 0x80000120 (strip [⟨d.toNat, 22, 4⟩, ⟨a.toNat, 18, 4⟩, ⟨b.toNat, 14, 4⟩, ⟨p.toNat, 11, 3⟩]) = W := Option.some.inj hw
  have ok : laidOut 0x80000120 [(22, 4), (18, 4), (14, 4), (11, 3)] = true := by decide +kernel
  have ft : Fits [⟨d.toNat, 22, 4⟩, ⟨a.toNat, 18, 4⟩, ⟨b.toNat, 14, 4⟩, ⟨p.toNat, 11, 3⟩] := ⟨d.isLt, a.isLt, b.isLt, p.isLt, trivial⟩
  have em : fld W 26 6 = 0x20 := read_const hw ok ft (show apart 26 6 [(22, 4), (18, 4), (14, 4), (11, 3)] = true by decide +kernel) (by decide +kernel)
  have ej : fld W 5 5 = 9 := read_const hw ok ft (show apart 5 5 [(22, 4), (18, 4), (14, 4), (11, 3)] = true by decide +kernel) (by decide +kernel)
  have ez1 : fld W 0 5 = 0 := read_const hw ok ft (show apart 0 5 [(22, 4), (18, 4), (14, 4), (11, 3)] = true by decide +kernel) (by decide +kernel)
  have ez2 : fld W 10 1 = 0 := read_const hw ok ft (show apart 10 1 [(22, 4), (18, 4), (14, 4), (11, 3)] = true by decide +kernel) (by decide +kernel)
  have ef1 : bv 4 W 22 = d := read_bv hw ok ft (.head _)
  have ef2 : bv 4 W 18 = a := read_bv hw ok ft (.tail _ (.head _))
  have ef3 : bv 4 W 14 = b := read_bv hw ok ft (.tail _ (.tail _ (.head _)))
  have ef4 : bv 3 W 11 = p := read_bv hw ok ft (.tail _ (.tail _ (.tail _ (.head _))))
  refine ⟨hw ▸ pack_lt ok ft (show inWord [(22, 4), (18, 4), (14, 4), (11, 3)] = true by decide +kernel) (by decide +kernel), .core (.vand d a b p), ?_, rfl⟩
  rw [decodeNat_20 W em, decVop]
  simp only [ej, ez1, ez2, ef1, ef2, ef3, ef4, zeros, List.all, beq_self_eq_true, Bool.and_self, if_true]

theorem RoundTrip.vor (d : BitVec 4) (a : BitVec 4) (b : BitVec 4) (p : BitVec 3) : RoundTrip.Statement (.vor d a b p) := by
  intro hwf W hw
  have hw : pack 0x80000140 (strip [⟨d.toNat, 22, 4⟩, ⟨a.toNat, 18, 4⟩, ⟨b.toNat, 14, 4⟩, ⟨p.toNat, 11, 3⟩]) = W := Option.some.inj hw
  have ok : laidOut 0x80000140 [(22, 4), (18, 4), (14, 4), (11, 3)] = true := by decide +kernel
  have ft : Fits [⟨d.toNat, 22, 4⟩, ⟨a.toNat, 18, 4⟩, ⟨b.toNat, 14, 4⟩, ⟨p.toNat, 11, 3⟩] := ⟨d.isLt, a.isLt, b.isLt, p.isLt, trivial⟩
  have em : fld W 26 6 = 0x20 := read_const hw ok ft (show apart 26 6 [(22, 4), (18, 4), (14, 4), (11, 3)] = true by decide +kernel) (by decide +kernel)
  have ej : fld W 5 5 = 10 := read_const hw ok ft (show apart 5 5 [(22, 4), (18, 4), (14, 4), (11, 3)] = true by decide +kernel) (by decide +kernel)
  have ez1 : fld W 0 5 = 0 := read_const hw ok ft (show apart 0 5 [(22, 4), (18, 4), (14, 4), (11, 3)] = true by decide +kernel) (by decide +kernel)
  have ez2 : fld W 10 1 = 0 := read_const hw ok ft (show apart 10 1 [(22, 4), (18, 4), (14, 4), (11, 3)] = true by decide +kernel) (by decide +kernel)
  have ef1 : bv 4 W 22 = d := read_bv hw ok ft (.head _)
  have ef2 : bv 4 W 18 = a := read_bv hw ok ft (.tail _ (.head _))
  have ef3 : bv 4 W 14 = b := read_bv hw ok ft (.tail _ (.tail _ (.head _)))
  have ef4 : bv 3 W 11 = p := read_bv hw ok ft (.tail _ (.tail _ (.tail _ (.head _))))
  refine ⟨hw ▸ pack_lt ok ft (show inWord [(22, 4), (18, 4), (14, 4), (11, 3)] = true by decide +kernel) (by decide +kernel), .core (.vor d a b p), ?_, rfl⟩
  rw [decodeNat_20 W em, decVop]
  simp only [ej, ez1, ez2, ef1, ef2, ef3, ef4, zeros, List.all, beq_self_eq_true, Bool.and_self, if_true]

theorem RoundTrip.vxor (d : BitVec 4) (a : BitVec 4) (b : BitVec 4) (p : BitVec 3) : RoundTrip.Statement (.vxor d a b p) := by
  intro hwf W hw
  have hw : pack 0x80000160 (strip [⟨d.toNat, 22, 4⟩, ⟨a.toNat, 18, 4⟩, ⟨b.toNat, 14, 4⟩, ⟨p.toNat, 11, 3⟩]) = W := Option.some.inj hw
  have ok : laidOut 0x80000160 [(22, 4), (18, 4), (14, 4), (11, 3)] = true := by decide +kernel
  have ft : Fits [⟨d.toNat, 22, 4⟩, ⟨a.toNat, 18, 4⟩, ⟨b.toNat, 14, 4⟩, ⟨p.toNat, 11, 3⟩] := ⟨d.isLt, a.isLt, b.isLt, p.isLt, trivial⟩
  have em : fld W 26 6 = 0x20 := read_const hw ok ft (show apart 26 6 [(22, 4), (18, 4), (14, 4), (11, 3)] = true by decide +kernel) (by decide +kernel)
  have ej : fld W 5 5 = 11 := read_const hw ok ft (show apart 5 5 [(22, 4), (18, 4), (14, 4), (11, 3)] = true by decide +kernel) (by decide +kernel)
  have ez1 : fld W 0 5 = 0 := read_const hw ok ft (show apart 0 5 [(22, 4), (18, 4), (14, 4), (11, 3)] = true by decide +kernel) (by decide +kernel)
  have ez2 : fld W 10 1 = 0 := read_const hw ok ft (show apart 10 1 [(22, 4), (18, 4), (14, 4), (11, 3)] = true by decide +kernel) (by decide +kernel)
  have ef1 : bv 4 W 22 = d := read_bv hw ok ft (.head _)
  have ef2 : bv 4 W 18 = a := read_bv hw ok ft (.tail _ (.head _))
  have ef3 : bv 4 W 14 = b := read_bv hw ok ft (.tail _ (.tail _ (.head _)))
  have ef4 : bv 3 W 11 = p := read_bv hw ok ft (.tail _ (.tail _ (.tail _ (.head _))))
  refine ⟨hw ▸ pack_lt ok ft (show inWord [(22, 4), (18, 4), (14, 4), (11, 3)] = true by decide +kernel) (by decide +kernel), .core (.vxor d a b p), ?_, rfl⟩
  rw [decodeNat_20 W em, decVop]
  simp only [ej, ez1, ez2, ef1, ef2, ef3, ef4, zeros, List.all, beq_self_eq_true, Bool.and_self, if_true]

theorem RoundTrip.vshl (d : BitVec 4) (a : BitVec 4) (b : BitVec 4) (p : BitVec 3) (ty : VType) : RoundTrip.Statement (.vshl d a b p ty) := by
  intro hwf W hw
  have hw : pack 0x80000180 (strip [⟨d.toNat, 22, 4⟩, ⟨a.toNat, 18, 4⟩, ⟨b.toNat, 14, 4⟩, ⟨p.toNat, 11, 3⟩, ⟨ty.code, 2, 3⟩, ⟨ty.eBit, 10, 1⟩]) = W := Option.some.inj hw
  have ok : laidOut 0x80000180 [(22, 4), (18, 4), (14, 4), (11, 3), (2, 3), (10, 1)] = true := by decide +kernel
  have ft : Fits [⟨d.toNat, 22, 4⟩, ⟨a.toNat, 18, 4⟩, ⟨b.toNat, 14, 4⟩, ⟨p.toNat, 11, 3⟩, ⟨ty.code, 2, 3⟩, ⟨ty.eBit, 10, 1⟩] := ⟨d.isLt, a.isLt, b.isLt, p.isLt, ty.code_lt, ty.eBit_lt, trivial⟩
  have em : fld W 26 6 = 0x20 := read_const hw ok ft (show apart 26 6 [(22, 4), (18, 4), (14, 4), (11, 3), (2, 3), (10, 1)] = true by decide +kernel) (by decide +kernel)
  have ej : fld W 5 5 = 12 := read_const hw ok ft (show apart 5 5 [(22, 4), (18, 4), (14, 4), (11, 3), (2, 3), (10, 1)] = true by decide +kernel) (by decide +kernel)
  have ez1 : fld W 0 2 = 0 := read_const hw ok ft (show apart 0 2 [(22, 4), (18, 4), (14, 4), (11, 3), (2, 3), (10, 1)] = true by decide +kernel) (by decide +kernel)
  have ef1 : bv 4 W 22 = d := read_bv hw ok ft (.head _)
  have ef2 : bv 4 W 18 = a := read_bv hw ok ft (.tail _ (.head _))
  have ef3 : bv 4 W 14 = b := read_bv hw ok ft (.tail _ (.tail _ (.head _)))
  have ef4 : bv 3 W 11 = p := read_bv hw ok ft (.tail _ (.tail _ (.tail _ (.head _))))
  have ef5 : VType.ofCode (fld W 2 3) (flag W 10) = some ty := VType.of_code (read_code hw ok ft (.tail _ (.tail _ (.tail _ (.tail _ (.head _)))))) (read_code hw ok ft (.tail _ (.tail _ (.tail _ (.tail _ (.tail _ (.head _)))))))
  refine ⟨hw ▸ pack_lt ok ft (show inWord [(22, 4), (18, 4), (14, 4), (11, 3), (2, 3), (10, 1)] = true by decide +kernel) (by decide +kernel), .core (.vshl d a b p ty), ?_, rfl⟩
  rw [decodeNat_20 W em, decVop]
  simp only [ej, ez1, ef1, ef2, ef3, ef4, ef5, zeros, List.all, beq_self_eq_true, Bool.and_self, if_true, typ, opt]

theorem RoundTrip.vshr (d : BitVec 4) (a : BitVec 4) (b : BitVec 4) (p : BitVec 3) (ty : VType) : RoundTrip.Statement (.vshr d a b p ty) := by
  intro hwf W hw
  have hw : pack 0x800001A0 (strip [⟨d.toNat, 22, 4⟩, ⟨a.toNat, 18, 4⟩, ⟨b.toNat, 14, 4⟩, ⟨p.toNat, 11, 3⟩, ⟨ty.code, 2, 3⟩, ⟨ty.eBit, 10, 1⟩]) = W := Option.some.inj hw
  have ok : laidOut 0x800001A0 [(22, 4), (18, 4), (14, 4), (11, 3), (2, 3), (10, 1)] = true := by decide +kernel
  have ft : Fits [⟨d.toNat, 22, 4⟩, ⟨a.toNat, 18, 4⟩, ⟨b.toNat, 14, 4⟩, ⟨p.toNat, 11, 3⟩, ⟨ty.code, 2, 3⟩, ⟨ty.eBit, 10, 1⟩] := ⟨d.isLt, a.isLt, b.isLt, p.isLt, ty.code_lt, ty.eBit_lt, trivial⟩
  have em : fld W 26 6 = 0x20 := read_const hw ok ft (show apart 26 6 [(22, 4), (18, 4), (14, 4), (11, 3), (2, 3), (10, 1)] = true by decide +kernel) (by decide +kernel)
  have ej : fld W 5 5 = 13 := read_const hw ok ft (show apart 5 5 [(22, 4), (18, 4), (14, 4), (11, 3), (2, 3), (10, 1)] = true by decide +kernel) (by decide +kernel)
  have ez1 : fld W 0 2 = 0 := read_const hw ok ft (show apart 0 2 [(22, 4), (18, 4), (14, 4), (11, 3), (2, 3), (10, 1)] = true by decide +kernel) (by decide +kernel)
  have ef1 : bv 4 W 22 = d := read_bv hw ok ft (.head _)
  have ef2 : bv 4 W 18 = a := read_bv hw ok ft (.tail _ (.head _))
  have ef3 : bv 4 W 14 = b := read_bv hw ok ft (.tail _ (.tail _ (.head _)))
  have ef4 : bv 3 W 11 = p := read_bv hw ok ft (.tail _ (.tail _ (.tail _ (.head _))))
  have ef5 : VType.ofCode (fld W 2 3) (flag W 10) = some ty := VType.of_code (read_code hw ok ft (.tail _ (.tail _ (.tail _ (.tail _ (.head _)))))) (read_code hw ok ft (.tail _ (.tail _ (.tail _ (.tail _ (.tail _ (.head _)))))))
  refine ⟨hw ▸ pack_lt ok ft (show inWord [(22, 4), (18, 4), (14, 4), (11, 3), (2, 3), (10, 1)] = true by decide +kernel) (by decide +kernel), .core (.vshr d a b p ty), ?_, rfl⟩
  rw [decodeNat_20 W em, decVop]
  simp only [ej, ez1, ef1, ef2, ef3, ef4, ef5, zeros, List.all, beq_self_eq_true, Bool.and_self, if_true, typ, opt]

theorem RoundTrip.vsar (d : BitVec 4) (a : BitVec 4) (b : BitVec 4) (p : BitVec 3) (ty : VType) : RoundTrip.Statement (.vsar d a b p ty) := by
  intro hwf W hw
  have hw : pack 0x800001C0 (strip [⟨d.toNat, 22, 4⟩, ⟨a.toNat, 18, 4⟩, ⟨b.toNat, 14, 4⟩, ⟨p.toNat, 11, 3⟩, ⟨ty.code, 2, 3⟩, ⟨ty.eBit, 10, 1⟩]) = W := Option.some.inj hw
  have ok : laidOut 0x800001C0 [(22, 4), (18, 4), (14, 4), (11, 3), (2, 3), (10, 1)] = true := by decide +kernel
  have ft : Fits [⟨d.toNat, 22, 4⟩, ⟨a.toNat, 18, 4⟩, ⟨b.toNat, 14, 4⟩, ⟨p.toNat, 11, 3⟩, ⟨ty.code, 2, 3⟩, ⟨ty.eBit, 10, 1⟩] := ⟨d.isLt, a.isLt, b.isLt, p.isLt, ty.code_lt, ty.eBit_lt, trivial⟩
  have em : fld W 26 6 = 0x20 := read_const hw ok ft (show apart 26 6 [(22, 4), (18, 4), (14, 4), (11, 3), (2, 3), (10, 1)] = true by decide +kernel) (by decide +kernel)
  have ej : fld W 5 5 = 14 := read_const hw ok ft (show apart 5 5 [(22, 4), (18, 4), (14, 4), (11, 3), (2, 3), (10, 1)] = true by decide +kernel) (by decide +kernel)
  have ez1 : fld W 0 2 = 0 := read_const hw ok ft (show apart 0 2 [(22, 4), (18, 4), (14, 4), (11, 3), (2, 3), (10, 1)] = true by decide +kernel) (by decide +kernel)
  have ef1 : bv 4 W 22 = d := read_bv hw ok ft (.head _)
  have ef2 : bv 4 W 18 = a := read_bv hw ok ft (.tail _ (.head _))
  have ef3 : bv 4 W 14 = b := read_bv hw ok ft (.tail _ (.tail _ (.head _)))
  have ef4 : bv 3 W 11 = p := read_bv hw ok ft (.tail _ (.tail _ (.tail _ (.head _))))
  have ef5 : VType.ofCode (fld W 2 3) (flag W 10) = some ty := VType.of_code (read_code hw ok ft (.tail _ (.tail _ (.tail _ (.tail _ (.head _)))))) (read_code hw ok ft (.tail _ (.tail _ (.tail _ (.tail _ (.tail _ (.head _)))))))
  refine ⟨hw ▸ pack_lt ok ft (show inWord [(22, 4), (18, 4), (14, 4), (11, 3), (2, 3), (10, 1)] = true by decide +kernel) (by decide +kernel), .core (.vsar d a b p ty), ?_, rfl⟩
  rw [decodeNat_20 W em, decVop]
  simp only [ej, ez1, ef1, ef2, ef3, ef4, ef5, zeros, List.all, beq_self_eq_true, Bool.and_self, if_true, typ, opt]

theorem RoundTrip.vdiv (d : BitVec 4) (a : BitVec 4) (b : BitVec 4) (p : BitVec 3) (ty : VType) (rs : RSrc) : RoundTrip.Statement (.vdiv d a b p ty rs) := by
  intro hwf W hw
  have hw : pack 0x800001E0 (strip [⟨d.toNat, 22, 4⟩, ⟨a.toNat, 18, 4⟩, ⟨b.toNat, 14, 4⟩, ⟨p.toNat, 11, 3⟩, ⟨ty.code, 2, 3⟩, ⟨ty.eBit, 10, 1⟩, ⟨rs.code, 0, 2⟩]) = W := Option.some.inj hw
  have ok : laidOut 0x800001E0 [(22, 4), (18, 4), (14, 4), (11, 3), (2, 3), (10, 1), (0, 2)] = true := by decide +kernel
  have ft : Fits [⟨d.toNat, 22, 4⟩, ⟨a.toNat, 18, 4⟩, ⟨b.toNat, 14, 4⟩, ⟨p.toNat, 11, 3⟩, ⟨ty.code, 2, 3⟩, ⟨ty.eBit, 10, 1⟩, ⟨rs.code, 0, 2⟩] := ⟨d.isLt, a.isLt, b.isLt, p.isLt, ty.code_lt, ty.eBit_lt, rs.code_lt, trivial⟩
  have em : fld W 26 6 = 0x20 := read_const hw ok ft (show apart 26 6 [(22, 4), (18, 4), (14, 4), (11, 3), (2, 3), (10, 1), (0, 2)] = true by decide +kernel) (by decide +kernel)
  have ej : fld W 5 5 = 15 := read_const hw ok ft (show apart 5 5 [(22, 4), (18, 4), (14, 4), (11, 3), (2, 3), (10, 1), (0, 2)] = true by decide +kernel) (by decide +kernel)
  have ef1 : bv 4 W 22 = d := read_bv hw ok ft (.head _)
  have ef2 : bv 4 W 18 = a := read_bv hw ok ft (.tail _ (.head _))
  have ef3 : bv 4 W 14 = b := read_bv hw ok ft (.tail _ (.tail _ (.head _)))
  have ef4 : bv 3 W 11 = p := read_bv hw ok ft (.tail _ (.tail _ (.tail _ (.head _))))
  have ef5 : VType.ofCode (fld W 2 3) (flag W 10) = some ty := VType.of_code (read_code hw ok ft (.tail _ (.tail _ (.tail _ (.tail _ (.head _)))))) (read_code hw ok ft (.tail _ (.tail _ (.tail _ (.tail _ (.tail _ (.head _)))))))
  have ef6 : RSrc.ofCode (fld W 0 2) = rs := RSrc.of_code (read_code hw ok ft (.tail _ (.tail _ (.tail _ (.tail _ (.tail _ (.tail _ (.head _))))))))
  refine ⟨hw ▸ pack_lt ok ft (show inWord [(22, 4), (18, 4), (14, 4), (11, 3), (2, 3), (10, 1), (0, 2)] = true by decide +kernel) (by decide +kernel), .core (.vdiv d a b p ty rs), ?_, rfl⟩
  rw [decodeNat_20 W em, decVop]
  simp only [ej, ef1, ef2, ef3, ef4, ef5, ef6, typ, opt, wfOr, hwf, if_true]

theorem RoundTrip.vsqrt (d : BitVec 4) (a : BitVec 4) (p : BitVec 3) (ty : VType) (rs : RSrc) : RoundTrip.Statement (.vsqrt d a p ty rs) := by
  intro hwf W hw
  have hw : pack 0x80000200 (strip [⟨d.toNat, 22, 4⟩, ⟨a.toNat, 18, 4⟩, ⟨p.toNat, 11, 3⟩, ⟨ty.code, 2, 3⟩, ⟨ty.eBit, 10, 1⟩, ⟨rs.code, 0, 2⟩]) = W := Option.some.inj hw
  have ok : laidOut 0x80000200 [(22, 4), (18, 4), (11, 3), (2, 3), (10, 1), (0, 2)] = true := by decide +kernel
  have ft : Fits [⟨d.toNat, 22, 4⟩, ⟨a.toNat, 18, 4⟩, ⟨p.toNat, 11, 3⟩, ⟨ty.code, 2, 3⟩, ⟨ty.eBit, 10, 1⟩, ⟨rs.code, 0, 2⟩] := ⟨d.isLt, a.isLt, p.isLt, ty.code_lt, ty.eBit_lt, rs.code_lt, trivial⟩
  have em : fld W 26 6 = 0x20 := read_const hw ok ft (show apart 26 6 [(22, 4), (18, 4), (11, 3), (2, 3), (10, 1), (0, 2)] = true by decide +kernel) (by decide +kernel)
  have ej : fld W 5 5 = 16 := read_const hw ok ft (show apart 5 5 [(22, 4), (18, 4), (11, 3), (2, 3), (10, 1), (0, 2)] = true by decide +kernel) (by decide +kernel)
  have ez1 : fld W 14 4 = 0 := read_const hw ok ft (show apart 14 4 [(22, 4), (18, 4), (11, 3), (2, 3), (10, 1), (0, 2)] = true by decide +kernel) (by decide +kernel)
  have ef1 : bv 4 W 22 = d := read_bv hw ok ft (.head _)
  have ef2 : bv 4 W 18 = a := read_bv hw ok ft (.tail _ (.head _))
  have ef3 : bv 3 W 11 = p := read_bv hw ok ft (.tail _ (.tail _ (.head _)))
  have ef4 : VType.ofCode (fld W 2 3) (flag W 10) = some ty := VType.of_code (read_code hw ok ft (.tail _ (.tail _ (.tail _ (.head _))))) (read_code hw ok ft (.tail _ (.tail _ (.tail _ (.tail _ (.head _))))))
  have ef5 : RSrc.ofCode (fld W 0 2) = rs := RSrc.of_code (read_code hw ok ft (.tail _ (.tail _ (.tail _ (.tail _ (.tail _ (.head _)))))))
  refine ⟨hw ▸ pack_lt ok ft (show inWord [(22, 4), (18, 4), (11, 3), (2, 3), (10, 1), (0, 2)] = true by decide +kernel) (by decide +kernel), .core (.vsqrt d a p ty rs), ?_, rfl⟩
  rw [decodeNat_20 W em, decVop]
  simp only [ej, ez1, ef1, ef2, ef3, ef4, ef5, zeros, List.all, beq_self_eq_true, Bool.and_self, if_true, typ, opt, wfOr, hwf]

theorem RoundTrip.vrcp (d : BitVec 4) (a : BitVec 4) (p : BitVec 3) (ty : VType) (rs : RSrc) : RoundTrip.Statement (.vrcp d a p ty rs) := by
  intro hwf W hw
  have hw : pack 0x80000220 (strip [⟨d.toNat, 22, 4⟩, ⟨a.toNat, 18, 4⟩, ⟨p.toNat, 11, 3⟩, ⟨ty.code, 2, 3⟩, ⟨ty.eBit, 10, 1⟩, ⟨rs.code, 0, 2⟩]) = W := Option.some.inj hw
  have ok : laidOut 0x80000220 [(22, 4), (18, 4), (11, 3), (2, 3), (10, 1), (0, 2)] = true := by decide +kernel
  have ft : Fits [⟨d.toNat, 22, 4⟩, ⟨a.toNat, 18, 4⟩, ⟨p.toNat, 11, 3⟩, ⟨ty.code, 2, 3⟩, ⟨ty.eBit, 10, 1⟩, ⟨rs.code, 0, 2⟩] := ⟨d.isLt, a.isLt, p.isLt, ty.code_lt, ty.eBit_lt, rs.code_lt, trivial⟩
  have em : fld W 26 6 = 0x20 := read_const hw ok ft (show apart 26 6 [(22, 4), (18, 4), (11, 3), (2, 3), (10, 1), (0, 2)] = true by decide +kernel) (by decide +kernel)
  have ej : fld W 5 5 = 17 := read_const hw ok ft (show apart 5 5 [(22, 4), (18, 4), (11, 3), (2, 3), (10, 1), (0, 2)] = true by decide +kernel) (by decide +kernel)
  have ez1 : fld W 14 4 = 0 := read_const hw ok ft (show apart 14 4 [(22, 4), (18, 4), (11, 3), (2, 3), (10, 1), (0, 2)] = true by decide +kernel) (by decide +kernel)
  have ef1 : bv 4 W 22 = d := read_bv hw ok ft (.head _)
  have ef2 : bv 4 W 18 = a := read_bv hw ok ft (.tail _ (.head _))
  have ef3 : bv 3 W 11 = p := read_bv hw ok ft (.tail _ (.tail _ (.head _)))
  have ef4 : VType.ofCode (fld W 2 3) (flag W 10) = some ty := VType.of_code (read_code hw ok ft (.tail _ (.tail _ (.tail _ (.head _))))) (read_code hw ok ft (.tail _ (.tail _ (.tail _ (.tail _ (.head _))))))
  have ef5 : RSrc.ofCode (fld W 0 2) = rs := RSrc.of_code (read_code hw ok ft (.tail _ (.tail _ (.tail _ (.tail _ (.tail _ (.head _)))))))
  refine ⟨hw ▸ pack_lt ok ft (show inWord [(22, 4), (18, 4), (11, 3), (2, 3), (10, 1), (0, 2)] = true by decide +kernel) (by decide +kernel), .core (.vrcp d a p ty rs), ?_, rfl⟩
  rw [decodeNat_20 W em, decVop]
  simp only [ej, ez1, ef1, ef2, ef3, ef4, ef5, zeros, List.all, beq_self_eq_true, Bool.and_self, if_true, typ, opt, wfOr, hwf]

theorem RoundTrip.vrsq (d : BitVec 4) (a : BitVec 4) (p : BitVec 3) (ty : VType) (rs : RSrc) : RoundTrip.Statement (.vrsq d a p ty rs) := by
  intro hwf W hw
  have hw : pack 0x80000240 (strip [⟨d.toNat, 22, 4⟩, ⟨a.toNat, 18, 4⟩, ⟨p.toNat, 11, 3⟩, ⟨ty.code, 2, 3⟩, ⟨ty.eBit, 10, 1⟩, ⟨rs.code, 0, 2⟩]) = W := Option.some.inj hw
  have ok : laidOut 0x80000240 [(22, 4), (18, 4), (11, 3), (2, 3), (10, 1), (0, 2)] = true := by decide +kernel
  have ft : Fits [⟨d.toNat, 22, 4⟩, ⟨a.toNat, 18, 4⟩, ⟨p.toNat, 11, 3⟩, ⟨ty.code, 2, 3⟩, ⟨ty.eBit, 10, 1⟩, ⟨rs.code, 0, 2⟩] := ⟨d.isLt, a.isLt, p.isLt, ty.code_lt, ty.eBit_lt, rs.code_lt, trivial⟩
  have em : fld W 26 6 = 0x20 := read_const hw ok ft (show apart 26 6 [(22, 4), (18, 4), (11, 3), (2, 3), (10, 1), (0, 2)] = true by decide +kernel) (by decide +kernel)
  have ej : fld W 5 5 = 18 := read_const hw ok ft (show apart 5 5 [(22, 4), (18, 4), (11, 3), (2, 3), (10, 1), (0, 2)] = true by decide +kernel) (by decide +kernel)
  have ez1 : fld W 14 4 = 0 := read_const hw ok ft (show apart 14 4 [(22, 4), (18, 4), (11, 3), (2, 3), (10, 1), (0, 2)] = true by decide +kernel) (by decide +kernel)
  have ef1 : bv 4 W 22 = d := read_bv hw ok ft (.head _)
  have ef2 : bv 4 W 18 = a := read_bv hw ok ft (.tail _ (.head _))
  have ef3 : bv 3 W 11 = p := read_bv hw ok ft (.tail _ (.tail _ (.head _)))
  have ef4 : VType.ofCode (fld W 2 3) (flag W 10) = some ty := VType.of_code (read_code hw ok ft (.tail _ (.tail _ (.tail _ (.head _))))) (read_code hw ok ft (.tail _ (.tail _ (.tail _ (.tail _ (.head _))))))
  have ef5 : RSrc.ofCode (fld W 0 2) = rs := RSrc.of_code (read_code hw ok ft (.tail _ (.tail _ (.tail _ (.tail _ (.tail _ (.head _)))))))
  refine ⟨hw ▸ pack_lt ok ft (show inWord [(22, 4), (18, 4), (11, 3), (2, 3), (10, 1), (0, 2)] = true by decide +kernel) (by decide +kernel), .core (.vrsq d a p ty rs), ?_, rfl⟩
  rw [decodeNat_20 W em, decVop]
  simp only [ej, ez1, ef1, ef2, ef3, ef4, ef5, zeros, List.all, beq_self_eq_true, Bool.and_self, if_true, typ, opt, wfOr, hwf]

theorem RoundTrip.vexp2 (d : BitVec 4) (a : BitVec 4) (p : BitVec 3) (ty : VType) (rs : RSrc) : RoundTrip.Statement (.vexp2 d a p ty rs) := by
  intro hwf W hw
  have hw : pack 0x80000260 (strip [⟨d.toNat, 22, 4⟩, ⟨a.toNat, 18, 4⟩, ⟨p.toNat, 11, 3⟩, ⟨ty.code, 2, 3⟩, ⟨ty.eBit, 10, 1⟩, ⟨rs.code, 0, 2⟩]) = W := Option.some.inj hw
  have ok : laidOut 0x80000260 [(22, 4), (18, 4), (11, 3), (2, 3), (10, 1), (0, 2)] = true := by decide +kernel
  have ft : Fits [⟨d.toNat, 22, 4⟩, ⟨a.toNat, 18, 4⟩, ⟨p.toNat, 11, 3⟩, ⟨ty.code, 2, 3⟩, ⟨ty.eBit, 10, 1⟩, ⟨rs.code, 0, 2⟩] := ⟨d.isLt, a.isLt, p.isLt, ty.code_lt, ty.eBit_lt, rs.code_lt, trivial⟩
  have em : fld W 26 6 = 0x20 := read_const hw ok ft (show apart 26 6 [(22, 4), (18, 4), (11, 3), (2, 3), (10, 1), (0, 2)] = true by decide +kernel) (by decide +kernel)
  have ej : fld W 5 5 = 19 := read_const hw ok ft (show apart 5 5 [(22, 4), (18, 4), (11, 3), (2, 3), (10, 1), (0, 2)] = true by decide +kernel) (by decide +kernel)
  have ez1 : fld W 14 4 = 0 := read_const hw ok ft (show apart 14 4 [(22, 4), (18, 4), (11, 3), (2, 3), (10, 1), (0, 2)] = true by decide +kernel) (by decide +kernel)
  have ef1 : bv 4 W 22 = d := read_bv hw ok ft (.head _)
  have ef2 : bv 4 W 18 = a := read_bv hw ok ft (.tail _ (.head _))
  have ef3 : bv 3 W 11 = p := read_bv hw ok ft (.tail _ (.tail _ (.head _)))
  have ef4 : VType.ofCode (fld W 2 3) (flag W 10) = some ty := VType.of_code (read_code hw ok ft (.tail _ (.tail _ (.tail _ (.head _))))) (read_code hw ok ft (.tail _ (.tail _ (.tail _ (.tail _ (.head _))))))
  have ef5 : RSrc.ofCode (fld W 0 2) = rs := RSrc.of_code (read_code hw ok ft (.tail _ (.tail _ (.tail _ (.tail _ (.tail _ (.head _)))))))
  refine ⟨hw ▸ pack_lt ok ft (show inWord [(22, 4), (18, 4), (11, 3), (2, 3), (10, 1), (0, 2)] = true by decide +kernel) (by decide +kernel), .core (.vexp2 d a p ty rs), ?_, rfl⟩
  rw [decodeNat_20 W em, decVop]
  simp only [ej, ez1, ef1, ef2, ef3, ef4, ef5, zeros, List.all, beq_self_eq_true, Bool.and_self, if_true, typ, opt, wfOr, hwf]

theorem RoundTrip.vlog2 (d : BitVec 4) (a : BitVec 4) (p : BitVec 3) (ty : VType) (rs : RSrc) : RoundTrip.Statement (.vlog2 d a p ty rs) := by
  intro hwf W hw
  have hw : pack 0x80000280 (strip [⟨d.toNat, 22, 4⟩, ⟨a.toNat, 18, 4⟩, ⟨p.toNat, 11, 3⟩, ⟨ty.code, 2, 3⟩, ⟨ty.eBit, 10, 1⟩, ⟨rs.code, 0, 2⟩]) = W := Option.some.inj hw
  have ok : laidOut 0x80000280 [(22, 4), (18, 4), (11, 3), (2, 3), (10, 1), (0, 2)] = true := by decide +kernel
  have ft : Fits [⟨d.toNat, 22, 4⟩, ⟨a.toNat, 18, 4⟩, ⟨p.toNat, 11, 3⟩, ⟨ty.code, 2, 3⟩, ⟨ty.eBit, 10, 1⟩, ⟨rs.code, 0, 2⟩] := ⟨d.isLt, a.isLt, p.isLt, ty.code_lt, ty.eBit_lt, rs.code_lt, trivial⟩
  have em : fld W 26 6 = 0x20 := read_const hw ok ft (show apart 26 6 [(22, 4), (18, 4), (11, 3), (2, 3), (10, 1), (0, 2)] = true by decide +kernel) (by decide +kernel)
  have ej : fld W 5 5 = 20 := read_const hw ok ft (show apart 5 5 [(22, 4), (18, 4), (11, 3), (2, 3), (10, 1), (0, 2)] = true by decide +kernel) (by decide +kernel)
  have ez1 : fld W 14 4 = 0 := read_const hw ok ft (show apart 14 4 [(22, 4), (18, 4), (11, 3), (2, 3), (10, 1), (0, 2)] = true by decide +kernel) (by decide +kernel)
  have ef1 : bv 4 W 22 = d := read_bv hw ok ft (.head _)
  have ef2 : bv 4 W 18 = a := read_bv hw ok ft (.tail _ (.head _))
  have ef3 : bv 3 W 11 = p := read_bv hw ok ft (.tail _ (.tail _ (.head _)))
  have ef4 : VType.ofCode (fld W 2 3) (flag W 10) = some ty := VType.of_code (read_code hw ok ft (.tail _ (.tail _ (.tail _ (.head _))))) (read_code hw ok ft (.tail _ (.tail _ (.tail _ (.tail _ (.head _))))))
  have ef5 : RSrc.ofCode (fld W 0 2) = rs := RSrc.of_code (read_code hw ok ft (.tail _ (.tail _ (.tail _ (.tail _ (.tail _ (.head _)))))))
  refine ⟨hw ▸ pack_lt ok ft (show inWord [(22, 4), (18, 4), (11, 3), (2, 3), (10, 1), (0, 2)] = true by decide +kernel) (by decide +kernel), .core (.vlog2 d a p ty rs), ?_, rfl⟩
  rw [decodeNat_20 W em, decVop]
  simp only [ej, ez1, ef1, ef2, ef3, ef4, ef5, zeros, List.all, beq_self_eq_true, Bool.and_self, if_true, typ, opt, wfOr, hwf]

theorem RoundTrip.vceq (d : BitVec 3) (a : BitVec 4) (b : BitVec 4) (p : BitVec 3) (ty : VType) : RoundTrip.Statement (.vceq d a b p ty) := by
  intro hwf W hw
  have hw : pack 0x800002A0 (strip [⟨d.toNat, 22, 3⟩, ⟨a.toNat, 18, 4⟩, ⟨b.toNat, 14, 4⟩, ⟨p.toNat, 11, 3⟩, ⟨ty.code, 2, 3⟩, ⟨ty.eBit, 10, 1⟩]) = W := Option.some.inj hw
  have ok : laidOut 0x800002A0 [(22, 3), (18, 4), (14, 4), (11, 3), (2, 3), (10, 1)] = true := by decide +kernel
  have ft : Fits [⟨d.toNat, 22, 3⟩, ⟨a.toNat, 18, 4⟩, ⟨b.toNat, 14, 4⟩, ⟨p.toNat, 11, 3⟩, ⟨ty.code, 2, 3⟩, ⟨ty.eBit, 10, 1⟩] := ⟨d.isLt, a.isLt, b.isLt, p.isLt, ty.code_lt, ty.eBit_lt, trivial⟩
  have em : fld W 26 6 = 0x20 := read_const hw ok ft (show apart 26 6 [(22, 3), (18, 4), (14, 4), (11, 3), (2, 3), (10, 1)] = true by decide +kernel) (by decide +kernel)
  have ej : fld W 5 5 = 21 := read_const hw ok ft (show apart 5 5 [(22, 3), (18, 4), (14, 4), (11, 3), (2, 3), (10, 1)] = true by decide +kernel) (by decide +kernel)
  have ez1 : fld W 25 1 = 0 := read_const hw ok ft (show apart 25 1 [(22, 3), (18, 4), (14, 4), (11, 3), (2, 3), (10, 1)] = true by decide +kernel) (by decide +kernel)
  have ez2 : fld W 0 2 = 0 := read_const hw ok ft (show apart 0 2 [(22, 3), (18, 4), (14, 4), (11, 3), (2, 3), (10, 1)] = true by decide +kernel) (by decide +kernel)
  have ef1 : bv 3 W 22 = d := read_bv hw ok ft (.head _)
  have ef2 : bv 4 W 18 = a := read_bv hw ok ft (.tail _ (.head _))
  have ef3 : bv 4 W 14 = b := read_bv hw ok ft (.tail _ (.tail _ (.head _)))
  have ef4 : bv 3 W 11 = p := read_bv hw ok ft (.tail _ (.tail _ (.tail _ (.head _))))
  have ef5 : VType.ofCode (fld W 2 3) (flag W 10) = some ty := VType.of_code (read_code hw ok ft (.tail _ (.tail _ (.tail _ (.tail _ (.head _)))))) (read_code hw ok ft (.tail _ (.tail _ (.tail _ (.tail _ (.tail _ (.head _)))))))
  refine ⟨hw ▸ pack_lt ok ft (show inWord [(22, 3), (18, 4), (14, 4), (11, 3), (2, 3), (10, 1)] = true by decide +kernel) (by decide +kernel), .core (.vceq d a b p ty), ?_, rfl⟩
  rw [decodeNat_20 W em, decVop]
  simp only [ej, ez1, ez2, ef1, ef2, ef3, ef4, ef5, zeros, List.all, beq_self_eq_true, Bool.and_self, if_true, typ, opt]

theorem RoundTrip.vclt (d : BitVec 3) (a : BitVec 4) (b : BitVec 4) (p : BitVec 3) (ty : VType) : RoundTrip.Statement (.vclt d a b p ty) := by
  intro hwf W hw
  have hw : pack 0x800002C0 (strip [⟨d.toNat, 22, 3⟩, ⟨a.toNat, 18, 4⟩, ⟨b.toNat, 14, 4⟩, ⟨p.toNat, 11, 3⟩, ⟨ty.code, 2, 3⟩, ⟨ty.eBit, 10, 1⟩]) = W := Option.some.inj hw
  have ok : laidOut 0x800002C0 [(22, 3), (18, 4), (14, 4), (11, 3), (2, 3), (10, 1)] = true := by decide +kernel
  have ft : Fits [⟨d.toNat, 22, 3⟩, ⟨a.toNat, 18, 4⟩, ⟨b.toNat, 14, 4⟩, ⟨p.toNat, 11, 3⟩, ⟨ty.code, 2, 3⟩, ⟨ty.eBit, 10, 1⟩] := ⟨d.isLt, a.isLt, b.isLt, p.isLt, ty.code_lt, ty.eBit_lt, trivial⟩
  have em : fld W 26 6 = 0x20 := read_const hw ok ft (show apart 26 6 [(22, 3), (18, 4), (14, 4), (11, 3), (2, 3), (10, 1)] = true by decide +kernel) (by decide +kernel)
  have ej : fld W 5 5 = 22 := read_const hw ok ft (show apart 5 5 [(22, 3), (18, 4), (14, 4), (11, 3), (2, 3), (10, 1)] = true by decide +kernel) (by decide +kernel)
  have ez1 : fld W 25 1 = 0 := read_const hw ok ft (show apart 25 1 [(22, 3), (18, 4), (14, 4), (11, 3), (2, 3), (10, 1)] = true by decide +kernel) (by decide +kernel)
  have ez2 : fld W 0 2 = 0 := read_const hw ok ft (show apart 0 2 [(22, 3), (18, 4), (14, 4), (11, 3), (2, 3), (10, 1)] = true by decide +kernel) (by decide +kernel)
  have ef1 : bv 3 W 22 = d := read_bv hw ok ft (.head _)
  have ef2 : bv 4 W 18 = a := read_bv hw ok ft (.tail _ (.head _))
  have ef3 : bv 4 W 14 = b := read_bv hw ok ft (.tail _ (.tail _ (.head _)))
  have ef4 : bv 3 W 11 = p := read_bv hw ok ft (.tail _ (.tail _ (.tail _ (.head _))))
  have ef5 : VType.ofCode (fld W 2 3) (flag W 10) = some ty := VType.of_code (read_code hw ok ft (.tail _ (.tail _ (.tail _ (.tail _ (.head _)))))) (read_code hw ok ft (.tail _ (.tail _ (.tail _ (.tail _ (.tail _ (.head _)))))))
  refine ⟨hw ▸ pack_lt ok ft (show inWord [(22, 3), (18, 4), (14, 4), (11, 3), (2, 3), (10, 1)] = true by decide +kernel) (by decide +kernel), .core (.vclt d a b p ty), ?_, rfl⟩
  rw [decodeNat_20 W em, decVop]
  simp only [ej, ez1, ez2, ef1, ef2, ef3, ef4, ef5, zeros, List.all, beq_self_eq_true, Bool.and_self, if_true, typ, opt]

theorem RoundTrip.vcle (d : BitVec 3) (a : BitVec 4) (b : BitVec 4) (p : BitVec 3) (ty : VType) : RoundTrip.Statement (.vcle d a b p ty) := by
  intro hwf W hw
  have hw : pack 0x800002E0 (strip [⟨d.toNat, 22, 3⟩, ⟨a.toNat, 18, 4⟩, ⟨b.toNat, 14, 4⟩, ⟨p.toNat, 11, 3⟩, ⟨ty.code, 2, 3⟩, ⟨ty.eBit, 10, 1⟩]) = W := Option.some.inj hw
  have ok : laidOut 0x800002E0 [(22, 3), (18, 4), (14, 4), (11, 3), (2, 3), (10, 1)] = true := by decide +kernel
  have ft : Fits [⟨d.toNat, 22, 3⟩, ⟨a.toNat, 18, 4⟩, ⟨b.toNat, 14, 4⟩, ⟨p.toNat, 11, 3⟩, ⟨ty.code, 2, 3⟩, ⟨ty.eBit, 10, 1⟩] := ⟨d.isLt, a.isLt, b.isLt, p.isLt, ty.code_lt, ty.eBit_lt, trivial⟩
  have em : fld W 26 6 = 0x20 := read_const hw ok ft (show apart 26 6 [(22, 3), (18, 4), (14, 4), (11, 3), (2, 3), (10, 1)] = true by decide +kernel) (by decide +kernel)
  have ej : fld W 5 5 = 23 := read_const hw ok ft (show apart 5 5 [(22, 3), (18, 4), (14, 4), (11, 3), (2, 3), (10, 1)] = true by decide +kernel) (by decide +kernel)
  have ez1 : fld W 25 1 = 0 := read_const hw ok ft (show apart 25 1 [(22, 3), (18, 4), (14, 4), (11, 3), (2, 3), (10, 1)] = true by decide +kernel) (by decide +kernel)
  have ez2 : fld W 0 2 = 0 := read_const hw ok ft (show apart 0 2 [(22, 3), (18, 4), (14, 4), (11, 3), (2, 3), (10, 1)] = true by decide +kernel) (by decide +kernel)
  have ef1 : bv 3 W 22 = d := read_bv hw ok ft (.head _)
  have ef2 : bv 4 W 18 = a := read_bv hw ok ft (.tail _ (.head _))
  have ef3 : bv 4 W 14 = b := read_bv hw ok ft (.tail _ (.tail _ (.head _)))
  have ef4 : bv 3 W 11 = p := read_bv hw ok ft (.tail _ (.tail _ (.tail _ (.head _))))
  have ef5 : VType.ofCode (fld W 2 3) (flag W 10) = some ty := VType.of_code (read_code hw ok ft (.tail _ (.tail _ (.tail _ (.tail _ (.head _)))))) (read_code hw ok ft (.tail _ (.tail _ (.tail _ (.tail _ (.tail _ (.head _)))))))
  refine ⟨hw ▸ pack_lt ok ft (show inWord [(22, 3), (18, 4), (14, 4), (11, 3), (2, 3), (10, 1)] = true by decide +kernel) (by decide +kernel), .core (.vcle d a b p ty), ?_, rfl⟩
  rw [decodeNat_20 W em, decVop]
  simp only [ej, ez1, ez2, ef1, ef2, ef3, ef4, ef5, zeros, List.all, beq_self_eq_true, Bool.and_self, if_true, typ, opt]

theorem RoundTrip.vsel (d : BitVec 4) (a : BitVec 4) (b : BitVec 4) (p : BitVec 3) : RoundTrip.Statement (.vsel d a b p) := by
  intro hwf W hw
  have hw : pack 0x80000300 (strip [⟨d.toNat, 22, 4⟩, ⟨a.toNat, 18, 4⟩, ⟨b.toNat, 14, 4⟩, ⟨p.toNat, 11, 3⟩]) = W := Option.some.inj hw
  have ok : laidOut 0x80000300 [(22, 4), (18, 4), (14, 4), (11, 3)] = true := by decide +kernel
  have ft : Fits [⟨d.toNat, 22, 4⟩, ⟨a.toNat, 18, 4⟩, ⟨b.toNat, 14, 4⟩, ⟨p.toNat, 11, 3⟩] := ⟨d.isLt, a.isLt, b.isLt, p.isLt, trivial⟩
  have em : fld W 26 6 = 0x20 := read_const hw ok ft (show apart 26 6 [(22, 4), (18, 4), (14, 4), (11, 3)] = true by decide +kernel) (by decide +kernel)
  have ej : fld W 5 5 = 24 := read_const hw ok ft (show apart 5 5 [(22, 4), (18, 4), (14, 4), (11, 3)] = true by decide +kernel) (by decide +kernel)
  have ez1 : fld W 0 5 = 0 := read_const hw ok ft (show apart 0 5 [(22, 4), (18, 4), (14, 4), (11, 3)] = true by decide +kernel) (by decide +kernel)
  have ez2 : fld W 10 1 = 0 := read_const hw ok ft (show apart 10 1 [(22, 4), (18, 4), (14, 4), (11, 3)] = true by decide +kernel) (by decide +kernel)
  have ef1 : bv 4 W 22 = d := read_bv hw ok ft (.head _)
  have ef2 : bv 4 W 18 = a := read_bv hw ok ft (.tail _ (.head _))
  have ef3 : bv 4 W 14 = b := read_bv hw ok ft (.tail _ (.tail _ (.head _)))
  have ef4 : bv 3 W 11 = p := read_bv hw ok ft (.tail _ (.tail _ (.tail _ (.head _))))
  refine ⟨hw ▸ pack_lt ok ft (show inWord [(22, 4), (18, 4), (14, 4), (11, 3)] = true by decide +kernel) (by decide +kernel), .core (.vsel d a b p), ?_, rfl⟩
  rw [decodeNat_20 W em, decVop]
  simp only [ej, ez1, ez2, ef1, ef2, ef3, ef4, zeros, List.all, beq_self_eq_true, Bool.and_self, if_true]

theorem RoundTrip.vcvt (d : BitVec 4) (a : BitVec 4) (s : SType) (p : BitVec 3) (ty : VType) (rs : RSrc) : RoundTrip.Statement (.vcvt d a s p ty rs) := by
  intro hwf W hw
  have hw : pack 0x80000320 (strip [⟨d.toNat, 22, 4⟩, ⟨a.toNat, 18, 4⟩, ⟨s.code, 14, 4⟩, ⟨p.toNat, 11, 3⟩, ⟨ty.code, 2, 3⟩, ⟨ty.eBit, 10, 1⟩, ⟨rs.code, 0, 2⟩]) = W := Option.some.inj hw
  have ok : laidOut 0x80000320 [(22, 4), (18, 4), (14, 4), (11, 3), (2, 3), (10, 1), (0, 2)] = true := by decide +kernel
  have ft : Fits [⟨d.toNat, 22, 4⟩, ⟨a.toNat, 18, 4⟩, ⟨s.code, 14, 4⟩, ⟨p.toNat, 11, 3⟩, ⟨ty.code, 2, 3⟩, ⟨ty.eBit, 10, 1⟩, ⟨rs.code, 0, 2⟩] := ⟨d.isLt, a.isLt, s.code_lt, p.isLt, ty.code_lt, ty.eBit_lt, rs.code_lt, trivial⟩
  have em : fld W 26 6 = 0x20 := read_const hw ok ft (show apart 26 6 [(22, 4), (18, 4), (14, 4), (11, 3), (2, 3), (10, 1), (0, 2)] = true by decide +kernel) (by decide +kernel)
  have ej : fld W 5 5 = 25 := read_const hw ok ft (show apart 5 5 [(22, 4), (18, 4), (14, 4), (11, 3), (2, 3), (10, 1), (0, 2)] = true by decide +kernel) (by decide +kernel)
  have ef1 : bv 4 W 22 = d := read_bv hw ok ft (.head _)
  have ef2 : bv 4 W 18 = a := read_bv hw ok ft (.tail _ (.head _))
  have ef3 : SType.ofCode (fld W 14 4) = some s := SType.of_code (read_code hw ok ft (.tail _ (.tail _ (.head _))))
  have ef4 : bv 3 W 11 = p := read_bv hw ok ft (.tail _ (.tail _ (.tail _ (.head _))))
  have ef5 : VType.ofCode (fld W 2 3) (flag W 10) = some ty := VType.of_code (read_code hw ok ft (.tail _ (.tail _ (.tail _ (.tail _ (.head _)))))) (read_code hw ok ft (.tail _ (.tail _ (.tail _ (.tail _ (.tail _ (.head _)))))))
  have ef6 : RSrc.ofCode (fld W 0 2) = rs := RSrc.of_code (read_code hw ok ft (.tail _ (.tail _ (.tail _ (.tail _ (.tail _ (.tail _ (.head _))))))))
  refine ⟨hw ▸ pack_lt ok ft (show inWord [(22, 4), (18, 4), (14, 4), (11, 3), (2, 3), (10, 1), (0, 2)] = true by decide +kernel) (by decide +kernel), .core (.vcvt d a s p ty rs), ?_, rfl⟩
  rw [decodeNat_20 W em, decVop]
  simp only [ej, ef1, ef2, ef3, ef4, ef5, ef6, typ, opt, wfOr, hwf, if_true]

theorem RoundTrip.vmov (d : BitVec 4) (a : BitVec 4) (p : BitVec 3) : RoundTrip.Statement (.vmov d a p) := by
  intro hwf W hw
  have hw : pack 0x80000340 (strip [⟨d.toNat, 22, 4⟩, ⟨a.toNat, 18, 4⟩, ⟨p.toNat, 11, 3⟩]) = W := Option.some.inj hw
  have ok : laidOut 0x80000340 [(22, 4), (18, 4), (11, 3)] = true := by decide +kernel
  have ft : Fits [⟨d.toNat, 22, 4⟩, ⟨a.toNat, 18, 4⟩, ⟨p.toNat, 11, 3⟩] := ⟨d.isLt, a.isLt, p.isLt, trivial⟩
  have em : fld W 26 6 = 0x20 := read_const hw ok ft (show apart 26 6 [(22, 4), (18, 4), (11, 3)] = true by decide +kernel) (by decide +kernel)
  have ej : fld W 5 5 = 26 := read_const hw ok ft (show apart 5 5 [(22, 4), (18, 4), (11, 3)] = true by decide +kernel) (by decide +kernel)
  have ez1 : fld W 14 4 = 0 := read_const hw ok ft (show apart 14 4 [(22, 4), (18, 4), (11, 3)] = true by decide +kernel) (by decide +kernel)
  have ez2 : fld W 0 5 = 0 := read_const hw ok ft (show apart 0 5 [(22, 4), (18, 4), (11, 3)] = true by decide +kernel) (by decide +kernel)
  have ez3 : fld W 10 1 = 0 := read_const hw ok ft (show apart 10 1 [(22, 4), (18, 4), (11, 3)] = true by decide +kernel) (by decide +kernel)
  have ef1 : bv 4 W 22 = d := read_bv hw ok ft (.head _)
  have ef2 : bv 4 W 18 = a := read_bv hw ok ft (.tail _ (.head _))
  have ef3 : bv 3 W 11 = p := read_bv hw ok ft (.tail _ (.tail _ (.head _)))
  refine ⟨hw ▸ pack_lt ok ft (show inWord [(22, 4), (18, 4), (11, 3)] = true by decide +kernel) (by decide +kernel), .core (.vmov d a p), ?_, rfl⟩
  rw [decodeNat_20 W em, decVop]
  simp only [ej, ez1, ez2, ez3, ef1, ef2, ef3, zeros, List.all, beq_self_eq_true, Bool.and_self, if_true]

theorem RoundTrip.vdot (d : BitVec 4) (a : BitVec 4) (b : BitVec 4) (p : BitVec 3) (ty : VType) (rs : RSrc) : RoundTrip.Statement (.vdot d a b p ty rs) := by
  intro hwf W hw
  have hw : pack 0x80000360 (strip [⟨d.toNat, 22, 4⟩, ⟨a.toNat, 18, 4⟩, ⟨b.toNat, 14, 4⟩, ⟨p.toNat, 11, 3⟩, ⟨ty.code, 2, 3⟩, ⟨ty.eBit, 10, 1⟩, ⟨rs.code, 0, 2⟩]) = W := Option.some.inj hw
  have ok : laidOut 0x80000360 [(22, 4), (18, 4), (14, 4), (11, 3), (2, 3), (10, 1), (0, 2)] = true := by decide +kernel
  have ft : Fits [⟨d.toNat, 22, 4⟩, ⟨a.toNat, 18, 4⟩, ⟨b.toNat, 14, 4⟩, ⟨p.toNat, 11, 3⟩, ⟨ty.code, 2, 3⟩, ⟨ty.eBit, 10, 1⟩, ⟨rs.code, 0, 2⟩] := ⟨d.isLt, a.isLt, b.isLt, p.isLt, ty.code_lt, ty.eBit_lt, rs.code_lt, trivial⟩
  have em : fld W 26 6 = 0x20 := read_const hw ok ft (show apart 26 6 [(22, 4), (18, 4), (14, 4), (11, 3), (2, 3), (10, 1), (0, 2)] = true by decide +kernel) (by decide +kernel)
  have ej : fld W 5 5 = 27 := read_const hw ok ft (show apart 5 5 [(22, 4), (18, 4), (14, 4), (11, 3), (2, 3), (10, 1), (0, 2)] = true by decide +kernel) (by decide +kernel)
  have ef1 : bv 4 W 22 = d := read_bv hw ok ft (.head _)
  have ef2 : bv 4 W 18 = a := read_bv hw ok ft (.tail _ (.head _))
  have ef3 : bv 4 W 14 = b := read_bv hw ok ft (.tail _ (.tail _ (.head _)))
  have ef4 : bv 3 W 11 = p := read_bv hw ok ft (.tail _ (.tail _ (.tail _ (.head _))))
  have ef5 : VType.ofCode (fld W 2 3) (flag W 10) = some ty := VType.of_code (read_code hw ok ft (.tail _ (.tail _ (.tail _ (.tail _ (.head _)))))) (read_code hw ok ft (.tail _ (.tail _ (.tail _ (.tail _ (.tail _ (.head _)))))))
  have ef6 : RSrc.ofCode (fld W 0 2) = rs := RSrc.of_code (read_code hw ok ft (.tail _ (.tail _ (.tail _ (.tail _ (.tail _ (.tail _ (.head _))))))))
  refine ⟨hw ▸ pack_lt ok ft (show inWord [(22, 4), (18, 4), (14, 4), (11, 3), (2, 3), (10, 1), (0, 2)] = true by decide +kernel) (by decide +kernel), .core (.vdot d a b p ty rs), ?_, rfl⟩
  rw [decodeNat_20 W em, decVop]
  simp only [ej, ef1, ef2, ef3, ef4, ef5, ef6, typ, opt, wfOr, hwf, if_true]

theorem RoundTrip.vadds (d : BitVec 4) (a : BitVec 4) (s : BitVec 5) (p : BitVec 3) (ty : VType) (rs : RSrc) : RoundTrip.Statement (.vadds d a s p ty rs) := by
  intro hwf W hw
  have hw : pack 0x84000000 (strip [⟨d.toNat, 22, 4⟩, ⟨a.toNat, 18, 4⟩, ⟨s.toNat, 13, 5⟩, ⟨p.toNat, 10, 3⟩, ⟨ty.code, 2, 3⟩, ⟨ty.eBit, 9, 1⟩, ⟨rs.code, 0, 2⟩]) = W := Option.some.inj hw
  have ok : laidOut 0x84000000 [(22, 4), (18, 4), (13, 5), (10, 3), (2, 3), (9, 1), (0, 2)] = true := by decide +kernel
  have ft : Fits [⟨d.toNat, 22, 4⟩, ⟨a.toNat, 18, 4⟩, ⟨s.toNat, 13, 5⟩, ⟨p.toNat, 10, 3⟩, ⟨ty.code, 2, 3⟩, ⟨ty.eBit, 9, 1⟩, ⟨rs.code, 0, 2⟩] := ⟨d.isLt, a.isLt, s.isLt, p.isLt, ty.code_lt, ty.eBit_lt, rs.code_lt, trivial⟩
  have em : fld W 26 6 = 0x21 := read_const hw ok ft (show apart 26 6 [(22, 4), (18, 4), (13, 5), (10, 3), (2, 3), (9, 1), (0, 2)] = true by decide +kernel) (by decide +kernel)
  have ej : fld W 5 4 = 0 := read_const hw ok ft (show apart 5 4 [(22, 4), (18, 4), (13, 5), (10, 3), (2, 3), (9, 1), (0, 2)] = true by decide +kernel) (by decide +kernel)
  have ef1 : bv 4 W 22 = d := read_bv hw ok ft (.head _)
  have ef2 : bv 4 W 18 = a := read_bv hw ok ft (.tail _ (.head _))
  have ef3 : bv 5 W 13 = s := read_bv hw ok ft (.tail _ (.tail _ (.head _)))
  have ef4 : bv 3 W 10 = p := read_bv hw ok ft (.tail _ (.tail _ (.tail _ (.head _))))
  have ef5 : VType.ofCode (fld W 2 3) (flag W 9) = some ty := VType.of_code (read_code hw ok ft (.tail _ (.tail _ (.tail _ (.tail _ (.head _)))))) (read_code hw ok ft (.tail _ (.tail _ (.tail _ (.tail _ (.tail _ (.head _)))))))
  have ef6 : RSrc.ofCode (fld W 0 2) = rs := RSrc.of_code (read_code hw ok ft (.tail _ (.tail _ (.tail _ (.tail _ (.tail _ (.tail _ (.head _))))))))
  refine ⟨hw ▸ pack_lt ok ft (show inWord [(22, 4), (18, 4), (13, 5), (10, 3), (2, 3), (9, 1), (0, 2)] = true by decide +kernel) (by decide +kernel), .core (.vadds d a s p ty rs), ?_, rfl⟩
  rw [decodeNat_21 W em, decVsc]
  simp only [ej, ef1, ef2, ef3, ef4, ef5, ef6, typ, opt, wfOr, hwf, if_true]

theorem RoundTrip.vmuls (d : BitVec 4) (a : BitVec 4) (s : BitVec 5) (p : BitVec 3) (ty : VType) (rs : RSrc) : RoundTrip.Statement (.vmuls d a s p ty rs) := by
  intro hwf W hw
  have hw : pack 0x84000020 (strip [⟨d.toNat, 22, 4⟩, ⟨a.toNat, 18, 4⟩, ⟨s.toNat, 13, 5⟩, ⟨p.toNat, 10, 3⟩, ⟨ty.code, 2, 3⟩, ⟨ty.eBit, 9, 1⟩, ⟨rs.code, 0, 2⟩]) = W := Option.some.inj hw
  have ok : laidOut 0x84000020 [(22, 4), (18, 4), (13, 5), (10, 3), (2, 3), (9, 1), (0, 2)] = true := by decide +kernel
  have ft : Fits [⟨d.toNat, 22, 4⟩, ⟨a.toNat, 18, 4⟩, ⟨s.toNat, 13, 5⟩, ⟨p.toNat, 10, 3⟩, ⟨ty.code, 2, 3⟩, ⟨ty.eBit, 9, 1⟩, ⟨rs.code, 0, 2⟩] := ⟨d.isLt, a.isLt, s.isLt, p.isLt, ty.code_lt, ty.eBit_lt, rs.code_lt, trivial⟩
  have em : fld W 26 6 = 0x21 := read_const hw ok ft (show apart 26 6 [(22, 4), (18, 4), (13, 5), (10, 3), (2, 3), (9, 1), (0, 2)] = true by decide +kernel) (by decide +kernel)
  have ej : fld W 5 4 = 1 := read_const hw ok ft (show apart 5 4 [(22, 4), (18, 4), (13, 5), (10, 3), (2, 3), (9, 1), (0, 2)] = true by decide +kernel) (by decide +kernel)
  have ef1 : bv 4 W 22 = d := read_bv hw ok ft (.head _)
  have ef2 : bv 4 W 18 = a := read_bv hw ok ft (.tail _ (.head _))
  have ef3 : bv 5 W 13 = s := read_bv hw ok ft (.tail _ (.tail _ (.head _)))
  have ef4 : bv 3 W 10 = p := read_bv hw ok ft (.tail _ (.tail _ (.tail _ (.head _))))
  have ef5 : VType.ofCode (fld W 2 3) (flag W 9) = some ty := VType.of_code (read_code hw ok ft (.tail _ (.tail _ (.tail _ (.tail _ (.head _)))))) (read_code hw ok ft (.tail _ (.tail _ (.tail _ (.tail _ (.tail _ (.head _)))))))
  have ef6 : RSrc.ofCode (fld W 0 2) = rs := RSrc.of_code (read_code hw ok ft (.tail _ (.tail _ (.tail _ (.tail _ (.tail _ (.tail _ (.head _))))))))
  refine ⟨hw ▸ pack_lt ok ft (show inWord [(22, 4), (18, 4), (13, 5), (10, 3), (2, 3), (9, 1), (0, 2)] = true by decide +kernel) (by decide +kernel), .core (.vmuls d a s p ty rs), ?_, rfl⟩
  rw [decodeNat_21 W em, decVsc]
  simp only [ej, ef1, ef2, ef3, ef4, ef5, ef6, typ, opt, wfOr, hwf, if_true]

theorem RoundTrip.vfmas (d : BitVec 4) (a : BitVec 4) (s : BitVec 5) (p : BitVec 3) (ty : VType) (rs : RSrc) : RoundTrip.Statement (.vfmas d a s p ty rs) := by
  intro hwf W hw
  have hw : pack 0x84000040 (strip [⟨d.toNat, 22, 4⟩, ⟨a.toNat, 18, 4⟩, ⟨s.toNat, 13, 5⟩, ⟨p.toNat, 10, 3⟩, ⟨ty.code, 2, 3⟩, ⟨ty.eBit, 9, 1⟩, ⟨rs.code, 0, 2⟩]) = W := Option.some.inj hw
  have ok : laidOut 0x84000040 [(22, 4), (18, 4), (13, 5), (10, 3), (2, 3), (9, 1), (0, 2)] = true := by decide +kernel
  have ft : Fits [⟨d.toNat, 22, 4⟩, ⟨a.toNat, 18, 4⟩, ⟨s.toNat, 13, 5⟩, ⟨p.toNat, 10, 3⟩, ⟨ty.code, 2, 3⟩, ⟨ty.eBit, 9, 1⟩, ⟨rs.code, 0, 2⟩] := ⟨d.isLt, a.isLt, s.isLt, p.isLt, ty.code_lt, ty.eBit_lt, rs.code_lt, trivial⟩
  have em : fld W 26 6 = 0x21 := read_const hw ok ft (show apart 26 6 [(22, 4), (18, 4), (13, 5), (10, 3), (2, 3), (9, 1), (0, 2)] = true by decide +kernel) (by decide +kernel)
  have ej : fld W 5 4 = 2 := read_const hw ok ft (show apart 5 4 [(22, 4), (18, 4), (13, 5), (10, 3), (2, 3), (9, 1), (0, 2)] = true by decide +kernel) (by decide +kernel)
  have ef1 : bv 4 W 22 = d := read_bv hw ok ft (.head _)
  have ef2 : bv 4 W 18 = a := read_bv hw ok ft (.tail _ (.head _))
  have ef3 : bv 5 W 13 = s := read_bv hw ok ft (.tail _ (.tail _ (.head _)))
  have ef4 : bv 3 W 10 = p := read_bv hw ok ft (.tail _ (.tail _ (.tail _ (.head _))))
  have ef5 : VType.ofCode (fld W 2 3) (flag W 9) = some ty := VType.of_code (read_code hw ok ft (.tail _ (.tail _ (.tail _ (.tail _ (.head _)))))) (read_code hw ok ft (.tail _ (.tail _ (.tail _ (.tail _ (.tail _ (.head _)))))))
  have ef6 : RSrc.ofCode (fld W 0 2) = rs := RSrc.of_code (read_code hw ok ft (.tail _ (.tail _ (.tail _ (.tail _ (.tail _ (.tail _ (.head _))))))))
  refine ⟨hw ▸ pack_lt ok ft (show inWord [(22, 4), (18, 4), (13, 5), (10, 3), (2, 3), (9, 1), (0, 2)] = true by decide +kernel) (by decide +kernel), .core (.vfmas d a s p ty rs), ?_, rfl⟩
  rw [decodeNat_21 W em, decVsc]
  simp only [ej, ef1, ef2, ef3, ef4, ef5, ef6, typ, opt, wfOr, hwf, if_true]

theorem RoundTrip.vmins (d : BitVec 4) (a : BitVec 4) (s : BitVec 5) (p : BitVec 3) (ty : VType) : RoundTrip.Statement (.vmins d a s p ty) := by
  intro hwf W hw
  have hw : pack 0x84000060 (strip [⟨d.toNat, 22, 4⟩, ⟨a.toNat, 18, 4⟩, ⟨s.toNat, 13, 5⟩, ⟨p.toNat, 10, 3⟩, ⟨ty.code, 2, 3⟩, ⟨ty.eBit, 9, 1⟩]) = W := Option.some.inj hw
  have ok : laidOut 0x84000060 [(22, 4), (18, 4), (13, 5), (10, 3), (2, 3), (9, 1)] = true := by decide +kernel
  have ft : Fits [⟨d.toNat, 22, 4⟩, ⟨a.toNat, 18, 4⟩, ⟨s.toNat, 13, 5⟩, ⟨p.toNat, 10, 3⟩, ⟨ty.code, 2, 3⟩, ⟨ty.eBit, 9, 1⟩] := ⟨d.isLt, a.isLt, s.isLt, p.isLt, ty.code_lt, ty.eBit_lt, trivial⟩
  have em : fld W 26 6 = 0x21 := read_const hw ok ft (show apart 26 6 [(22, 4), (18, 4), (13, 5), (10, 3), (2, 3), (9, 1)] = true by decide +kernel) (by decide +kernel)
  have ej : fld W 5 4 = 3 := read_const hw ok ft (show apart 5 4 [(22, 4), (18, 4), (13, 5), (10, 3), (2, 3), (9, 1)] = true by decide +kernel) (by decide +kernel)
  have ez1 : fld W 0 2 = 0 := read_const hw ok ft (show apart 0 2 [(22, 4), (18, 4), (13, 5), (10, 3), (2, 3), (9, 1)] = true by decide +kernel) (by decide +kernel)
  have ef1 : bv 4 W 22 = d := read_bv hw ok ft (.head _)
  have ef2 : bv 4 W 18 = a := read_bv hw ok ft (.tail _ (.head _))
  have ef3 : bv 5 W 13 = s := read_bv hw ok ft (.tail _ (.tail _ (.head _)))
  have ef4 : bv 3 W 10 = p := read_bv hw ok ft (.tail _ (.tail _ (.tail _ (.head _))))
  have ef5 : VType.ofCode (fld W 2 3) (flag W 9) = some ty := VType.of_code (read_code hw ok ft (.tail _ (.tail _ (.tail _ (.tail _ (.head _)))))) (read_code hw ok ft (.tail _ (.tail _ (.tail _ (.tail _ (.tail _ (.head _)))))))
  refine ⟨hw ▸ pack_lt ok ft (show inWord [(22, 4), (18, 4), (13, 5), (10, 3), (2, 3), (9, 1)] = true by decide +kernel) (by decide +kernel), .core (.vmins d a s p ty), ?_, rfl⟩
  rw [decodeNat_21 W em, decVsc]
  simp only [ej, ez1, ef1, ef2, ef3, ef4, ef5, zeros, List.all, beq_self_eq_true, Bool.and_self, if_true, typ, opt]

theorem RoundTrip.vmaxs (d : BitVec 4) (a : BitVec 4) (s : BitVec 5) (p : BitVec 3) (ty : VType) : RoundTrip.Statement (.vmaxs d a s p ty) := by
  intro hwf W hw
  have hw : pack 0x84000080 (strip [⟨d.toNat, 22, 4⟩, ⟨a.toNat, 18, 4⟩, ⟨s.toNat, 13, 5⟩, ⟨p.toNat, 10, 3⟩, ⟨ty.code, 2, 3⟩, ⟨ty.eBit, 9, 1⟩]) = W := Option.some.inj hw
  have ok : laidOut 0x84000080 [(22, 4), (18, 4), (13, 5), (10, 3), (2, 3), (9, 1)] = true := by decide +kernel
  have ft : Fits [⟨d.toNat, 22, 4⟩, ⟨a.toNat, 18, 4⟩, ⟨s.toNat, 13, 5⟩, ⟨p.toNat, 10, 3⟩, ⟨ty.code, 2, 3⟩, ⟨ty.eBit, 9, 1⟩] := ⟨d.isLt, a.isLt, s.isLt, p.isLt, ty.code_lt, ty.eBit_lt, trivial⟩
  have em : fld W 26 6 = 0x21 := read_const hw ok ft (show apart 26 6 [(22, 4), (18, 4), (13, 5), (10, 3), (2, 3), (9, 1)] = true by decide +kernel) (by decide +kernel)
  have ej : fld W 5 4 = 4 := read_const hw ok ft (show apart 5 4 [(22, 4), (18, 4), (13, 5), (10, 3), (2, 3), (9, 1)] = true by decide +kernel) (by decide +kernel)
  have ez1 : fld W 0 2 = 0 := read_const hw ok ft (show apart 0 2 [(22, 4), (18, 4), (13, 5), (10, 3), (2, 3), (9, 1)] = true by decide +kernel) (by decide +kernel)
  have ef1 : bv 4 W 22 = d := read_bv hw ok ft (.head _)
  have ef2 : bv 4 W 18 = a := read_bv hw ok ft (.tail _ (.head _))
  have ef3 : bv 5 W 13 = s := read_bv hw ok ft (.tail _ (.tail _ (.head _)))
  have ef4 : bv 3 W 10 = p := read_bv hw ok ft (.tail _ (.tail _ (.tail _ (.head _))))
  have ef5 : VType.ofCode (fld W 2 3) (flag W 9) = some ty := VType.of_code (read_code hw ok ft (.tail _ (.tail _ (.tail _ (.tail _ (.head _)))))) (read_code hw ok ft (.tail _ (.tail _ (.tail _ (.tail _ (.tail _ (.head _)))))))
  refine ⟨hw ▸ pack_lt ok ft (show inWord [(22, 4), (18, 4), (13, 5), (10, 3), (2, 3), (9, 1)] = true by decide +kernel) (by decide +kernel), .core (.vmaxs d a s p ty), ?_, rfl⟩
  rw [decodeNat_21 W em, decVsc]
  simp only [ej, ez1, ef1, ef2, ef3, ef4, ef5, zeros, List.all, beq_self_eq_true, Bool.and_self, if_true, typ, opt]

theorem RoundTrip.vsplat (d : BitVec 4) (s : BitVec 5) (p : BitVec 3) (ty : VType) : RoundTrip.Statement (.vsplat d s p ty) := by
  intro hwf W hw
  have hw : pack 0x840000A0 (strip [⟨d.toNat, 22, 4⟩, ⟨s.toNat, 13, 5⟩, ⟨p.toNat, 10, 3⟩, ⟨ty.code, 2, 3⟩, ⟨ty.eBit, 9, 1⟩]) = W := Option.some.inj hw
  have ok : laidOut 0x840000A0 [(22, 4), (13, 5), (10, 3), (2, 3), (9, 1)] = true := by decide +kernel
  have ft : Fits [⟨d.toNat, 22, 4⟩, ⟨s.toNat, 13, 5⟩, ⟨p.toNat, 10, 3⟩, ⟨ty.code, 2, 3⟩, ⟨ty.eBit, 9, 1⟩] := ⟨d.isLt, s.isLt, p.isLt, ty.code_lt, ty.eBit_lt, trivial⟩
  have em : fld W 26 6 = 0x21 := read_const hw ok ft (show apart 26 6 [(22, 4), (13, 5), (10, 3), (2, 3), (9, 1)] = true by decide +kernel) (by decide +kernel)
  have ej : fld W 5 4 = 5 := read_const hw ok ft (show apart 5 4 [(22, 4), (13, 5), (10, 3), (2, 3), (9, 1)] = true by decide +kernel) (by decide +kernel)
  have ez1 : fld W 18 4 = 0 := read_const hw ok ft (show apart 18 4 [(22, 4), (13, 5), (10, 3), (2, 3), (9, 1)] = true by decide +kernel) (by decide +kernel)
  have ez2 : fld W 0 2 = 0 := read_const hw ok ft (show apart 0 2 [(22, 4), (13, 5), (10, 3), (2, 3), (9, 1)] = true by decide +kernel) (by decide +kernel)
  have ef1 : bv 4 W 22 = d := read_bv hw ok ft (.head _)
  have ef2 : bv 5 W 13 = s := read_bv hw ok ft (.tail _ (.head _))
  have ef3 : bv 3 W 10 = p := read_bv hw ok ft (.tail _ (.tail _ (.head _)))
  have ef4 : VType.ofCode (fld W 2 3) (flag W 9) = some ty := VType.of_code (read_code hw ok ft (.tail _ (.tail _ (.tail _ (.head _))))) (read_code hw ok ft (.tail _ (.tail _ (.tail _ (.tail _ (.head _))))))
  refine ⟨hw ▸ pack_lt ok ft (show inWord [(22, 4), (13, 5), (10, 3), (2, 3), (9, 1)] = true by decide +kernel) (by decide +kernel), .core (.vsplat d s p ty), ?_, rfl⟩
  rw [decodeNat_21 W em, decVsc]
  simp only [ej, ez1, ez2, ef1, ef2, ef3, ef4, zeros, List.all, beq_self_eq_true, Bool.and_self, if_true, typ, opt]

theorem RoundTrip.vins (d : BitVec 4) (a : BitVec 4) (s : BitVec 5) (p : BitVec 3) (ty : VType) : RoundTrip.Statement (.vins d a s p ty) := by
  intro hwf W hw
  have hw : pack 0x840000C0 (strip [⟨d.toNat, 22, 4⟩, ⟨a.toNat, 18, 4⟩, ⟨s.toNat, 13, 5⟩, ⟨p.toNat, 10, 3⟩, ⟨ty.code, 2, 3⟩, ⟨ty.eBit, 9, 1⟩]) = W := Option.some.inj hw
  have ok : laidOut 0x840000C0 [(22, 4), (18, 4), (13, 5), (10, 3), (2, 3), (9, 1)] = true := by decide +kernel
  have ft : Fits [⟨d.toNat, 22, 4⟩, ⟨a.toNat, 18, 4⟩, ⟨s.toNat, 13, 5⟩, ⟨p.toNat, 10, 3⟩, ⟨ty.code, 2, 3⟩, ⟨ty.eBit, 9, 1⟩] := ⟨d.isLt, a.isLt, s.isLt, p.isLt, ty.code_lt, ty.eBit_lt, trivial⟩
  have em : fld W 26 6 = 0x21 := read_const hw ok ft (show apart 26 6 [(22, 4), (18, 4), (13, 5), (10, 3), (2, 3), (9, 1)] = true by decide +kernel) (by decide +kernel)
  have ej : fld W 5 4 = 6 := read_const hw ok ft (show apart 5 4 [(22, 4), (18, 4), (13, 5), (10, 3), (2, 3), (9, 1)] = true by decide +kernel) (by decide +kernel)
  have ez1 : fld W 0 2 = 0 := read_const hw ok ft (show apart 0 2 [(22, 4), (18, 4), (13, 5), (10, 3), (2, 3), (9, 1)] = true by decide +kernel) (by decide +kernel)
  have ef1 : bv 4 W 22 = d := read_bv hw ok ft (.head _)
  have ef2 : bv 4 W 18 = a := read_bv hw ok ft (.tail _ (.head _))
  have ef3 : bv 5 W 13 = s := read_bv hw ok ft (.tail _ (.tail _ (.head _)))
  have ef4 : bv 3 W 10 = p := read_bv hw ok ft (.tail _ (.tail _ (.tail _ (.head _))))
  have ef5 : VType.ofCode (fld W 2 3) (flag W 9) = some ty := VType.of_code (read_code hw ok ft (.tail _ (.tail _ (.tail _ (.tail _ (.head _)))))) (read_code hw ok ft (.tail _ (.tail _ (.tail _ (.tail _ (.tail _ (.head _)))))))
  refine ⟨hw ▸ pack_lt ok ft (show inWord [(22, 4), (18, 4), (13, 5), (10, 3), (2, 3), (9, 1)] = true by decide +kernel) (by decide +kernel), .core (.vins d a s p ty), ?_, rfl⟩
  rw [decodeNat_21 W em, decVsc]
  simp only [ej, ez1, ef1, ef2, ef3, ef4, ef5, zeros, List.all, beq_self_eq_true, Bool.and_self, if_true, typ, opt]

theorem RoundTrip.vext (a : BitVec 4) (s : BitVec 5) (ty : VType) : RoundTrip.Statement (.vext a s ty) := by
  intro hwf W hw
  have hw : pack 0x840000E0 (strip [⟨a.toNat, 18, 4⟩, ⟨s.toNat, 13, 5⟩, ⟨ty.code, 2, 3⟩, ⟨ty.eBit, 9, 1⟩]) = W := Option.some.inj hw
  have ok : laidOut 0x840000E0 [(18, 4), (13, 5), (2, 3), (9, 1)] = true := by decide +kernel
  have ft : Fits [⟨a.toNat, 18, 4⟩, ⟨s.toNat, 13, 5⟩, ⟨ty.code, 2, 3⟩, ⟨ty.eBit, 9, 1⟩] := ⟨a.isLt, s.isLt, ty.code_lt, ty.eBit_lt, trivial⟩
  have em : fld W 26 6 = 0x21 := read_const hw ok ft (show apart 26 6 [(18, 4), (13, 5), (2, 3), (9, 1)] = true by decide +kernel) (by decide +kernel)
  have ej : fld W 5 4 = 7 := read_const hw ok ft (show apart 5 4 [(18, 4), (13, 5), (2, 3), (9, 1)] = true by decide +kernel) (by decide +kernel)
  have ez1 : fld W 10 3 = 0 := read_const hw ok ft (show apart 10 3 [(18, 4), (13, 5), (2, 3), (9, 1)] = true by decide +kernel) (by decide +kernel)
  have ez2 : fld W 22 4 = 0 := read_const hw ok ft (show apart 22 4 [(18, 4), (13, 5), (2, 3), (9, 1)] = true by decide +kernel) (by decide +kernel)
  have ez3 : fld W 0 2 = 0 := read_const hw ok ft (show apart 0 2 [(18, 4), (13, 5), (2, 3), (9, 1)] = true by decide +kernel) (by decide +kernel)
  have ef1 : bv 4 W 18 = a := read_bv hw ok ft (.head _)
  have ef2 : bv 5 W 13 = s := read_bv hw ok ft (.tail _ (.head _))
  have ef3 : VType.ofCode (fld W 2 3) (flag W 9) = some ty := VType.of_code (read_code hw ok ft (.tail _ (.tail _ (.head _)))) (read_code hw ok ft (.tail _ (.tail _ (.tail _ (.head _)))))
  refine ⟨hw ▸ pack_lt ok ft (show inWord [(18, 4), (13, 5), (2, 3), (9, 1)] = true by decide +kernel) (by decide +kernel), .core (.vext a s ty), ?_, rfl⟩
  rw [decodeNat_21 W em, decVsc]
  simp only [ej, ez1, ez2, ez3, ef1, ef2, ef3, zeros, List.all, beq_self_eq_true, Bool.and_self, if_true, typ, opt]

theorem RoundTrip.vperm (d : BitVec 4) (a : BitVec 4) (b : BitVec 4) (p : BitVec 3) (ty : VType) : RoundTrip.Statement (.vperm d a b p ty) := by
  intro hwf W hw
  have hw : pack 0x88000000 (strip [⟨d.toNat, 22, 4⟩, ⟨a.toNat, 18, 4⟩, ⟨b.toNat, 14, 4⟩, ⟨p.toNat, 11, 3⟩, ⟨ty.code, 2, 3⟩, ⟨ty.eBit, 10, 1⟩]) = W := Option.some.inj hw
  have ok : laidOut 0x88000000 [(22, 4), (18, 4), (14, 4), (11, 3), (2, 3), (10, 1)] = true := by decide +kernel
  have ft : Fits [⟨d.toNat, 22, 4⟩, ⟨a.toNat, 18, 4⟩, ⟨b.toNat, 14, 4⟩, ⟨p.toNat, 11, 3⟩, ⟨ty.code, 2, 3⟩, ⟨ty.eBit, 10, 1⟩] := ⟨d.isLt, a.isLt, b.isLt, p.isLt, ty.code_lt, ty.eBit_lt, trivial⟩
  have em : fld W 26 6 = 0x22 := read_const hw ok ft (show apart 26 6 [(22, 4), (18, 4), (14, 4), (11, 3), (2, 3), (10, 1)] = true by decide +kernel) (by decide +kernel)
  have ej : fld W 5 5 = 0 := read_const hw ok ft (show apart 5 5 [(22, 4), (18, 4), (14, 4), (11, 3), (2, 3), (10, 1)] = true by decide +kernel) (by decide +kernel)
  have ez1 : fld W 0 2 = 0 := read_const hw ok ft (show apart 0 2 [(22, 4), (18, 4), (14, 4), (11, 3), (2, 3), (10, 1)] = true by decide +kernel) (by decide +kernel)
  have ef1 : bv 4 W 22 = d := read_bv hw ok ft (.head _)
  have ef2 : bv 4 W 18 = a := read_bv hw ok ft (.tail _ (.head _))
  have ef3 : bv 4 W 14 = b := read_bv hw ok ft (.tail _ (.tail _ (.head _)))
  have ef4 : bv 3 W 11 = p := read_bv hw ok ft (.tail _ (.tail _ (.tail _ (.head _))))
  have ef5 : VType.ofCode (fld W 2 3) (flag W 10) = some ty := VType.of_code (read_code hw ok ft (.tail _ (.tail _ (.tail _ (.tail _ (.head _)))))) (read_code hw ok ft (.tail _ (.tail _ (.tail _ (.tail _ (.tail _ (.head _)))))))
  refine ⟨hw ▸ pack_lt ok ft (show inWord [(22, 4), (18, 4), (14, 4), (11, 3), (2, 3), (10, 1)] = true by decide +kernel) (by decide +kernel), .core (.vperm d a b p ty), ?_, rfl⟩
  rw [decodeNat_22 W em, decVperm]
  simp only [ej, ez1, ef1, ef2, ef3, ef4, ef5, zeros, List.all, beq_self_eq_true, Bool.and_self, if_true, typ, opt]

theorem RoundTrip.vrot (d : BitVec 4) (a : BitVec 4) (b : BitVec 4) (p : BitVec 3) (ty : VType) : RoundTrip.Statement (.vrot d a b p ty) := by
  intro hwf W hw
  have hw : pack 0x88000020 (strip [⟨d.toNat, 22, 4⟩, ⟨a.toNat, 18, 4⟩, ⟨b.toNat, 14, 4⟩, ⟨p.toNat, 11, 3⟩, ⟨ty.code, 2, 3⟩, ⟨ty.eBit, 10, 1⟩]) = W := Option.some.inj hw
  have ok : laidOut 0x88000020 [(22, 4), (18, 4), (14, 4), (11, 3), (2, 3), (10, 1)] = true := by decide +kernel
  have ft : Fits [⟨d.toNat, 22, 4⟩, ⟨a.toNat, 18, 4⟩, ⟨b.toNat, 14, 4⟩, ⟨p.toNat, 11, 3⟩, ⟨ty.code, 2, 3⟩, ⟨ty.eBit, 10, 1⟩] := ⟨d.isLt, a.isLt, b.isLt, p.isLt, ty.code_lt, ty.eBit_lt, trivial⟩
  have em : fld W 26 6 = 0x22 := read_const hw ok ft (show apart 26 6 [(22, 4), (18, 4), (14, 4), (11, 3), (2, 3), (10, 1)] = true by decide +kernel) (by decide +kernel)
  have ej : fld W 5 5 = 1 := read_const hw ok ft (show apart 5 5 [(22, 4), (18, 4), (14, 4), (11, 3), (2, 3), (10, 1)] = true by decide +kernel) (by decide +kernel)
  have ez1 : fld W 0 2 = 0 := read_const hw ok ft (show apart 0 2 [(22, 4), (18, 4), (14, 4), (11, 3), (2, 3), (10, 1)] = true by decide +kernel) (by decide +kernel)
  have ef1 : bv 4 W 22 = d := read_bv hw ok ft (.head _)
  have ef2 : bv 4 W 18 = a := read_bv hw ok ft (.tail _ (.head _))
  have ef3 : bv 4 W 14 = b := read_bv hw ok ft (.tail _ (.tail _ (.head _)))
  have ef4 : bv 3 W 11 = p := read_bv hw ok ft (.tail _ (.tail _ (.tail _ (.head _))))
  have ef5 : VType.ofCode (fld W 2 3) (flag W 10) = some ty := VType.of_code (read_code hw ok ft (.tail _ (.tail _ (.tail _ (.tail _ (.head _)))))) (read_code hw ok ft (.tail _ (.tail _ (.tail _ (.tail _ (.tail _ (.head _)))))))
  refine ⟨hw ▸ pack_lt ok ft (show inWord [(22, 4), (18, 4), (14, 4), (11, 3), (2, 3), (10, 1)] = true by decide +kernel) (by decide +kernel), .core (.vrot d a b p ty), ?_, rfl⟩
  rw [decodeNat_22 W em, decVperm]
  simp only [ej, ez1, ef1, ef2, ef3, ef4, ef5, zeros, List.all, beq_self_eq_true, Bool.and_self, if_true, typ, opt]

theorem RoundTrip.vzip (d : BitVec 4) (a : BitVec 4) (b : BitVec 4) (ty : VType) : RoundTrip.Statement (.vzip d a b ty) := by
  intro hwf W hw
  have hw : pack 0x88000040 (strip [⟨d.toNat, 22, 4⟩, ⟨a.toNat, 18, 4⟩, ⟨b.toNat, 14, 4⟩, ⟨ty.code, 2, 3⟩, ⟨ty.eBit, 10, 1⟩]) = W := Option.some.inj hw
  have ok : laidOut 0x88000040 [(22, 4), (18, 4), (14, 4), (2, 3), (10, 1)] = true := by decide +kernel
  have ft : Fits [⟨d.toNat, 22, 4⟩, ⟨a.toNat, 18, 4⟩, ⟨b.toNat, 14, 4⟩, ⟨ty.code, 2, 3⟩, ⟨ty.eBit, 10, 1⟩] := ⟨d.isLt, a.isLt, b.isLt, ty.code_lt, ty.eBit_lt, trivial⟩
  have em : fld W 26 6 = 0x22 := read_const hw ok ft (show apart 26 6 [(22, 4), (18, 4), (14, 4), (2, 3), (10, 1)] = true by decide +kernel) (by decide +kernel)
  have ej : fld W 5 5 = 2 := read_const hw ok ft (show apart 5 5 [(22, 4), (18, 4), (14, 4), (2, 3), (10, 1)] = true by decide +kernel) (by decide +kernel)
  have ez1 : fld W 11 3 = 0 := read_const hw ok ft (show apart 11 3 [(22, 4), (18, 4), (14, 4), (2, 3), (10, 1)] = true by decide +kernel) (by decide +kernel)
  have ez2 : fld W 0 2 = 0 := read_const hw ok ft (show apart 0 2 [(22, 4), (18, 4), (14, 4), (2, 3), (10, 1)] = true by decide +kernel) (by decide +kernel)
  have ef1 : bv 4 W 22 = d := read_bv hw ok ft (.head _)
  have ef2 : bv 4 W 18 = a := read_bv hw ok ft (.tail _ (.head _))
  have ef3 : bv 4 W 14 = b := read_bv hw ok ft (.tail _ (.tail _ (.head _)))
  have ef4 : VType.ofCode (fld W 2 3) (flag W 10) = some ty := VType.of_code (read_code hw ok ft (.tail _ (.tail _ (.tail _ (.head _))))) (read_code hw ok ft (.tail _ (.tail _ (.tail _ (.tail _ (.head _))))))
  refine ⟨hw ▸ pack_lt ok ft (show inWord [(22, 4), (18, 4), (14, 4), (2, 3), (10, 1)] = true by decide +kernel) (by decide +kernel), .core (.vzip d a b ty), ?_, rfl⟩
  rw [decodeNat_22 W em, decVperm]
  simp only [ej, ez1, ez2, ef1, ef2, ef3, ef4, zeros, List.all, beq_self_eq_true, Bool.and_self, if_true, typ, opt, wfOr, hwf]

theorem RoundTrip.vunzip (d : BitVec 4) (a : BitVec 4) (b : BitVec 4) (ty : VType) : RoundTrip.Statement (.vunzip d a b ty) := by
  intro hwf W hw
  have hw : pack 0x88000060 (strip [⟨d.toNat, 22, 4⟩, ⟨a.toNat, 18, 4⟩, ⟨b.toNat, 14, 4⟩, ⟨ty.code, 2, 3⟩, ⟨ty.eBit, 10, 1⟩]) = W := Option.some.inj hw
  have ok : laidOut 0x88000060 [(22, 4), (18, 4), (14, 4), (2, 3), (10, 1)] = true := by decide +kernel
  have ft : Fits [⟨d.toNat, 22, 4⟩, ⟨a.toNat, 18, 4⟩, ⟨b.toNat, 14, 4⟩, ⟨ty.code, 2, 3⟩, ⟨ty.eBit, 10, 1⟩] := ⟨d.isLt, a.isLt, b.isLt, ty.code_lt, ty.eBit_lt, trivial⟩
  have em : fld W 26 6 = 0x22 := read_const hw ok ft (show apart 26 6 [(22, 4), (18, 4), (14, 4), (2, 3), (10, 1)] = true by decide +kernel) (by decide +kernel)
  have ej : fld W 5 5 = 3 := read_const hw ok ft (show apart 5 5 [(22, 4), (18, 4), (14, 4), (2, 3), (10, 1)] = true by decide +kernel) (by decide +kernel)
  have ez1 : fld W 11 3 = 0 := read_const hw ok ft (show apart 11 3 [(22, 4), (18, 4), (14, 4), (2, 3), (10, 1)] = true by decide +kernel) (by decide +kernel)
  have ez2 : fld W 0 2 = 0 := read_const hw ok ft (show apart 0 2 [(22, 4), (18, 4), (14, 4), (2, 3), (10, 1)] = true by decide +kernel) (by decide +kernel)
  have ef1 : bv 4 W 22 = d := read_bv hw ok ft (.head _)
  have ef2 : bv 4 W 18 = a := read_bv hw ok ft (.tail _ (.head _))
  have ef3 : bv 4 W 14 = b := read_bv hw ok ft (.tail _ (.tail _ (.head _)))
  have ef4 : VType.ofCode (fld W 2 3) (flag W 10) = some ty := VType.of_code (read_code hw ok ft (.tail _ (.tail _ (.tail _ (.head _))))) (read_code hw ok ft (.tail _ (.tail _ (.tail _ (.tail _ (.head _))))))
  refine ⟨hw ▸ pack_lt ok ft (show inWord [(22, 4), (18, 4), (14, 4), (2, 3), (10, 1)] = true by decide +kernel) (by decide +kernel), .core (.vunzip d a b ty), ?_, rfl⟩
  rw [decodeNat_22 W em, decVperm]
  simp only [ej, ez1, ez2, ef1, ef2, ef3, ef4, zeros, List.all, beq_self_eq_true, Bool.and_self, if_true, typ, opt, wfOr, hwf]

theorem RoundTrip.vcmpr (d : BitVec 4) (a : BitVec 4) (p : BitVec 3) (ty : VType) : RoundTrip.Statement (.vcmpr d a p ty) := by
  intro hwf W hw
  have hw : pack 0x88000080 (strip [⟨d.toNat, 22, 4⟩, ⟨a.toNat, 18, 4⟩, ⟨p.toNat, 11, 3⟩, ⟨ty.code, 2, 3⟩, ⟨ty.eBit, 10, 1⟩]) = W := Option.some.inj hw
  have ok : laidOut 0x88000080 [(22, 4), (18, 4), (11, 3), (2, 3), (10, 1)] = true := by decide +kernel
  have ft : Fits [⟨d.toNat, 22, 4⟩, ⟨a.toNat, 18, 4⟩, ⟨p.toNat, 11, 3⟩, ⟨ty.code, 2, 3⟩, ⟨ty.eBit, 10, 1⟩] := ⟨d.isLt, a.isLt, p.isLt, ty.code_lt, ty.eBit_lt, trivial⟩
  have em : fld W 26 6 = 0x22 := read_const hw ok ft (show apart 26 6 [(22, 4), (18, 4), (11, 3), (2, 3), (10, 1)] = true by decide +kernel) (by decide +kernel)
  have ej : fld W 5 5 = 4 := read_const hw ok ft (show apart 5 5 [(22, 4), (18, 4), (11, 3), (2, 3), (10, 1)] = true by decide +kernel) (by decide +kernel)
  have ez1 : fld W 14 4 = 0 := read_const hw ok ft (show apart 14 4 [(22, 4), (18, 4), (11, 3), (2, 3), (10, 1)] = true by decide +kernel) (by decide +kernel)
  have ez2 : fld W 0 2 = 0 := read_const hw ok ft (show apart 0 2 [(22, 4), (18, 4), (11, 3), (2, 3), (10, 1)] = true by decide +kernel) (by decide +kernel)
  have ef1 : bv 4 W 22 = d := read_bv hw ok ft (.head _)
  have ef2 : bv 4 W 18 = a := read_bv hw ok ft (.tail _ (.head _))
  have ef3 : bv 3 W 11 = p := read_bv hw ok ft (.tail _ (.tail _ (.head _)))
  have ef4 : VType.ofCode (fld W 2 3) (flag W 10) = some ty := VType.of_code (read_code hw ok ft (.tail _ (.tail _ (.tail _ (.head _))))) (read_code hw ok ft (.tail _ (.tail _ (.tail _ (.tail _ (.head _))))))
  refine ⟨hw ▸ pack_lt ok ft (show inWord [(22, 4), (18, 4), (11, 3), (2, 3), (10, 1)] = true by decide +kernel) (by decide +kernel), .core (.vcmpr d a p ty), ?_, rfl⟩
  rw [decodeNat_22 W em, decVperm]
  simp only [ej, ez1, ez2, ef1, ef2, ef3, ef4, zeros, List.all, beq_self_eq_true, Bool.and_self, if_true, typ, opt]

theorem RoundTrip.vexpd (d : BitVec 4) (a : BitVec 4) (p : BitVec 3) (ty : VType) : RoundTrip.Statement (.vexpd d a p ty) := by
  intro hwf W hw
  have hw : pack 0x880000A0 (strip [⟨d.toNat, 22, 4⟩, ⟨a.toNat, 18, 4⟩, ⟨p.toNat, 11, 3⟩, ⟨ty.code, 2, 3⟩, ⟨ty.eBit, 10, 1⟩]) = W := Option.some.inj hw
  have ok : laidOut 0x880000A0 [(22, 4), (18, 4), (11, 3), (2, 3), (10, 1)] = true := by decide +kernel
  have ft : Fits [⟨d.toNat, 22, 4⟩, ⟨a.toNat, 18, 4⟩, ⟨p.toNat, 11, 3⟩, ⟨ty.code, 2, 3⟩, ⟨ty.eBit, 10, 1⟩] := ⟨d.isLt, a.isLt, p.isLt, ty.code_lt, ty.eBit_lt, trivial⟩
  have em : fld W 26 6 = 0x22 := read_const hw ok ft (show apart 26 6 [(22, 4), (18, 4), (11, 3), (2, 3), (10, 1)] = true by decide +kernel) (by decide +kernel)
  have ej : fld W 5 5 = 5 := read_const hw ok ft (show apart 5 5 [(22, 4), (18, 4), (11, 3), (2, 3), (10, 1)] = true by decide +kernel) (by decide +kernel)
  have ez1 : fld W 14 4 = 0 := read_const hw ok ft (show apart 14 4 [(22, 4), (18, 4), (11, 3), (2, 3), (10, 1)] = true by decide +kernel) (by decide +kernel)
  have ez2 : fld W 0 2 = 0 := read_const hw ok ft (show apart 0 2 [(22, 4), (18, 4), (11, 3), (2, 3), (10, 1)] = true by decide +kernel) (by decide +kernel)
  have ef1 : bv 4 W 22 = d := read_bv hw ok ft (.head _)
  have ef2 : bv 4 W 18 = a := read_bv hw ok ft (.tail _ (.head _))
  have ef3 : bv 3 W 11 = p := read_bv hw ok ft (.tail _ (.tail _ (.head _)))
  have ef4 : VType.ofCode (fld W 2 3) (flag W 10) = some ty := VType.of_code (read_code hw ok ft (.tail _ (.tail _ (.tail _ (.head _))))) (read_code hw ok ft (.tail _ (.tail _ (.tail _ (.tail _ (.head _))))))
  refine ⟨hw ▸ pack_lt ok ft (show inWord [(22, 4), (18, 4), (11, 3), (2, 3), (10, 1)] = true by decide +kernel) (by decide +kernel), .core (.vexpd d a p ty), ?_, rfl⟩
  rw [decodeNat_22 W em, decVperm]
  simp only [ej, ez1, ez2, ef1, ef2, ef3, ef4, zeros, List.all, beq_self_eq_true, Bool.and_self, if_true, typ, opt]

theorem RoundTrip.viota (d : BitVec 4) (p : BitVec 3) (ty : VType) : RoundTrip.Statement (.viota d p ty) := by
  intro hwf W hw
  have hw : pack 0x880000C0 (strip [⟨d.toNat, 22, 4⟩, ⟨p.toNat, 11, 3⟩, ⟨ty.code, 2, 3⟩, ⟨ty.eBit, 10, 1⟩]) = W := Option.some.inj hw
  have ok : laidOut 0x880000C0 [(22, 4), (11, 3), (2, 3), (10, 1)] = true := by decide +kernel
  have ft : Fits [⟨d.toNat, 22, 4⟩, ⟨p.toNat, 11, 3⟩, ⟨ty.code, 2, 3⟩, ⟨ty.eBit, 10, 1⟩] := ⟨d.isLt, p.isLt, ty.code_lt, ty.eBit_lt, trivial⟩
  have em : fld W 26 6 = 0x22 := read_const hw ok ft (show apart 26 6 [(22, 4), (11, 3), (2, 3), (10, 1)] = true by decide +kernel) (by decide +kernel)
  have ej : fld W 5 5 = 6 := read_const hw ok ft (show apart 5 5 [(22, 4), (11, 3), (2, 3), (10, 1)] = true by decide +kernel) (by decide +kernel)
  have ez1 : fld W 14 8 = 0 := read_const hw ok ft (show apart 14 8 [(22, 4), (11, 3), (2, 3), (10, 1)] = true by decide +kernel) (by decide +kernel)
  have ez2 : fld W 0 2 = 0 := read_const hw ok ft (show apart 0 2 [(22, 4), (11, 3), (2, 3), (10, 1)] = true by decide +kernel) (by decide +kernel)
  have ef1 : bv 4 W 22 = d := read_bv hw ok ft (.head _)
  have ef2 : bv 3 W 11 = p := read_bv hw ok ft (.tail _ (.head _))
  have ef3 : VType.ofCode (fld W 2 3) (flag W 10) = some ty := VType.of_code (read_code hw ok ft (.tail _ (.tail _ (.head _)))) (read_code hw ok ft (.tail _ (.tail _ (.tail _ (.head _)))))
  refine ⟨hw ▸ pack_lt ok ft (show inWord [(22, 4), (11, 3), (2, 3), (10, 1)] = true by decide +kernel) (by decide +kernel), .core (.viota d p ty), ?_, rfl⟩
  rw [decodeNat_22 W em, decVperm]
  simp only [ej, ez1, ez2, ef1, ef2, ef3, zeros, List.all, beq_self_eq_true, Bool.and_self, if_true, typ, opt]

theorem RoundTrip.vrsum (d : BitVec 4) (a : BitVec 4) (p : BitVec 3) (ty : VType) (rs : RSrc) : RoundTrip.Statement (.vrsum d a p ty rs) := by
  intro hwf W hw
  have hw : pack 0x8C000000 (strip [⟨d.toNat, 22, 4⟩, ⟨a.toNat, 18, 4⟩, ⟨p.toNat, 11, 3⟩, ⟨ty.code, 2, 3⟩, ⟨ty.eBit, 10, 1⟩, ⟨rs.code, 0, 2⟩]) = W := Option.some.inj hw
  have ok : laidOut 0x8C000000 [(22, 4), (18, 4), (11, 3), (2, 3), (10, 1), (0, 2)] = true := by decide +kernel
  have ft : Fits [⟨d.toNat, 22, 4⟩, ⟨a.toNat, 18, 4⟩, ⟨p.toNat, 11, 3⟩, ⟨ty.code, 2, 3⟩, ⟨ty.eBit, 10, 1⟩, ⟨rs.code, 0, 2⟩] := ⟨d.isLt, a.isLt, p.isLt, ty.code_lt, ty.eBit_lt, rs.code_lt, trivial⟩
  have em : fld W 26 6 = 0x23 := read_const hw ok ft (show apart 26 6 [(22, 4), (18, 4), (11, 3), (2, 3), (10, 1), (0, 2)] = true by decide +kernel) (by decide +kernel)
  have ej : fld W 5 5 = 0 := read_const hw ok ft (show apart 5 5 [(22, 4), (18, 4), (11, 3), (2, 3), (10, 1), (0, 2)] = true by decide +kernel) (by decide +kernel)
  have ez1 : fld W 14 4 = 0 := read_const hw ok ft (show apart 14 4 [(22, 4), (18, 4), (11, 3), (2, 3), (10, 1), (0, 2)] = true by decide +kernel) (by decide +kernel)
  have ef1 : bv 4 W 22 = d := read_bv hw ok ft (.head _)
  have ef2 : bv 4 W 18 = a := read_bv hw ok ft (.tail _ (.head _))
  have ef3 : bv 3 W 11 = p := read_bv hw ok ft (.tail _ (.tail _ (.head _)))
  have ef4 : VType.ofCode (fld W 2 3) (flag W 10) = some ty := VType.of_code (read_code hw ok ft (.tail _ (.tail _ (.tail _ (.head _))))) (read_code hw ok ft (.tail _ (.tail _ (.tail _ (.tail _ (.head _))))))
  have ef5 : RSrc.ofCode (fld W 0 2) = rs := RSrc.of_code (read_code hw ok ft (.tail _ (.tail _ (.tail _ (.tail _ (.tail _ (.head _)))))))
  refine ⟨hw ▸ pack_lt ok ft (show inWord [(22, 4), (18, 4), (11, 3), (2, 3), (10, 1), (0, 2)] = true by decide +kernel) (by decide +kernel), .core (.vrsum d a p ty rs), ?_, rfl⟩
  rw [decodeNat_23 W em, decVred]
  simp only [ej, ez1, ef1, ef2, ef3, ef4, ef5, zeros, List.all, beq_self_eq_true, Bool.and_self, if_true, typ, opt, wfOr, hwf]

theorem RoundTrip.vrmax (d : BitVec 4) (a : BitVec 4) (p : BitVec 3) (ty : VType) : RoundTrip.Statement (.vrmax d a p ty) := by
  intro hwf W hw
  have hw : pack 0x8C000020 (strip [⟨d.toNat, 22, 4⟩, ⟨a.toNat, 18, 4⟩, ⟨p.toNat, 11, 3⟩, ⟨ty.code, 2, 3⟩, ⟨ty.eBit, 10, 1⟩]) = W := Option.some.inj hw
  have ok : laidOut 0x8C000020 [(22, 4), (18, 4), (11, 3), (2, 3), (10, 1)] = true := by decide +kernel
  have ft : Fits [⟨d.toNat, 22, 4⟩, ⟨a.toNat, 18, 4⟩, ⟨p.toNat, 11, 3⟩, ⟨ty.code, 2, 3⟩, ⟨ty.eBit, 10, 1⟩] := ⟨d.isLt, a.isLt, p.isLt, ty.code_lt, ty.eBit_lt, trivial⟩
  have em : fld W 26 6 = 0x23 := read_const hw ok ft (show apart 26 6 [(22, 4), (18, 4), (11, 3), (2, 3), (10, 1)] = true by decide +kernel) (by decide +kernel)
  have ej : fld W 5 5 = 1 := read_const hw ok ft (show apart 5 5 [(22, 4), (18, 4), (11, 3), (2, 3), (10, 1)] = true by decide +kernel) (by decide +kernel)
  have ez1 : fld W 14 4 = 0 := read_const hw ok ft (show apart 14 4 [(22, 4), (18, 4), (11, 3), (2, 3), (10, 1)] = true by decide +kernel) (by decide +kernel)
  have ez2 : fld W 0 2 = 0 := read_const hw ok ft (show apart 0 2 [(22, 4), (18, 4), (11, 3), (2, 3), (10, 1)] = true by decide +kernel) (by decide +kernel)
  have ef1 : bv 4 W 22 = d := read_bv hw ok ft (.head _)
  have ef2 : bv 4 W 18 = a := read_bv hw ok ft (.tail _ (.head _))
  have ef3 : bv 3 W 11 = p := read_bv hw ok ft (.tail _ (.tail _ (.head _)))
  have ef4 : VType.ofCode (fld W 2 3) (flag W 10) = some ty := VType.of_code (read_code hw ok ft (.tail _ (.tail _ (.tail _ (.head _))))) (read_code hw ok ft (.tail _ (.tail _ (.tail _ (.tail _ (.head _))))))
  refine ⟨hw ▸ pack_lt ok ft (show inWord [(22, 4), (18, 4), (11, 3), (2, 3), (10, 1)] = true by decide +kernel) (by decide +kernel), .core (.vrmax d a p ty), ?_, rfl⟩
  rw [decodeNat_23 W em, decVred]
  simp only [ej, ez1, ez2, ef1, ef2, ef3, ef4, zeros, List.all, beq_self_eq_true, Bool.and_self, if_true, typ, opt]

theorem RoundTrip.vrmin (d : BitVec 4) (a : BitVec 4) (p : BitVec 3) (ty : VType) : RoundTrip.Statement (.vrmin d a p ty) := by
  intro hwf W hw
  have hw : pack 0x8C000040 (strip [⟨d.toNat, 22, 4⟩, ⟨a.toNat, 18, 4⟩, ⟨p.toNat, 11, 3⟩, ⟨ty.code, 2, 3⟩, ⟨ty.eBit, 10, 1⟩]) = W := Option.some.inj hw
  have ok : laidOut 0x8C000040 [(22, 4), (18, 4), (11, 3), (2, 3), (10, 1)] = true := by decide +kernel
  have ft : Fits [⟨d.toNat, 22, 4⟩, ⟨a.toNat, 18, 4⟩, ⟨p.toNat, 11, 3⟩, ⟨ty.code, 2, 3⟩, ⟨ty.eBit, 10, 1⟩] := ⟨d.isLt, a.isLt, p.isLt, ty.code_lt, ty.eBit_lt, trivial⟩
  have em : fld W 26 6 = 0x23 := read_const hw ok ft (show apart 26 6 [(22, 4), (18, 4), (11, 3), (2, 3), (10, 1)] = true by decide +kernel) (by decide +kernel)
  have ej : fld W 5 5 = 2 := read_const hw ok ft (show apart 5 5 [(22, 4), (18, 4), (11, 3), (2, 3), (10, 1)] = true by decide +kernel) (by decide +kernel)
  have ez1 : fld W 14 4 = 0 := read_const hw ok ft (show apart 14 4 [(22, 4), (18, 4), (11, 3), (2, 3), (10, 1)] = true by decide +kernel) (by decide +kernel)
  have ez2 : fld W 0 2 = 0 := read_const hw ok ft (show apart 0 2 [(22, 4), (18, 4), (11, 3), (2, 3), (10, 1)] = true by decide +kernel) (by decide +kernel)
  have ef1 : bv 4 W 22 = d := read_bv hw ok ft (.head _)
  have ef2 : bv 4 W 18 = a := read_bv hw ok ft (.tail _ (.head _))
  have ef3 : bv 3 W 11 = p := read_bv hw ok ft (.tail _ (.tail _ (.head _)))
  have ef4 : VType.ofCode (fld W 2 3) (flag W 10) = some ty := VType.of_code (read_code hw ok ft (.tail _ (.tail _ (.tail _ (.head _))))) (read_code hw ok ft (.tail _ (.tail _ (.tail _ (.tail _ (.head _))))))
  refine ⟨hw ▸ pack_lt ok ft (show inWord [(22, 4), (18, 4), (11, 3), (2, 3), (10, 1)] = true by decide +kernel) (by decide +kernel), .core (.vrmin d a p ty), ?_, rfl⟩
  rw [decodeNat_23 W em, decVred]
  simp only [ej, ez1, ez2, ef1, ef2, ef3, ef4, zeros, List.all, beq_self_eq_true, Bool.and_self, if_true, typ, opt]

theorem RoundTrip.vrand (d : BitVec 4) (a : BitVec 4) (p : BitVec 3) : RoundTrip.Statement (.vrand d a p) := by
  intro hwf W hw
  have hw : pack 0x8C000060 (strip [⟨d.toNat, 22, 4⟩, ⟨a.toNat, 18, 4⟩, ⟨p.toNat, 11, 3⟩]) = W := Option.some.inj hw
  have ok : laidOut 0x8C000060 [(22, 4), (18, 4), (11, 3)] = true := by decide +kernel
  have ft : Fits [⟨d.toNat, 22, 4⟩, ⟨a.toNat, 18, 4⟩, ⟨p.toNat, 11, 3⟩] := ⟨d.isLt, a.isLt, p.isLt, trivial⟩
  have em : fld W 26 6 = 0x23 := read_const hw ok ft (show apart 26 6 [(22, 4), (18, 4), (11, 3)] = true by decide +kernel) (by decide +kernel)
  have ej : fld W 5 5 = 3 := read_const hw ok ft (show apart 5 5 [(22, 4), (18, 4), (11, 3)] = true by decide +kernel) (by decide +kernel)
  have ez1 : fld W 14 4 = 0 := read_const hw ok ft (show apart 14 4 [(22, 4), (18, 4), (11, 3)] = true by decide +kernel) (by decide +kernel)
  have ez2 : fld W 0 5 = 0 := read_const hw ok ft (show apart 0 5 [(22, 4), (18, 4), (11, 3)] = true by decide +kernel) (by decide +kernel)
  have ez3 : fld W 10 1 = 0 := read_const hw ok ft (show apart 10 1 [(22, 4), (18, 4), (11, 3)] = true by decide +kernel) (by decide +kernel)
  have ef1 : bv 4 W 22 = d := read_bv hw ok ft (.head _)
  have ef2 : bv 4 W 18 = a := read_bv hw ok ft (.tail _ (.head _))
  have ef3 : bv 3 W 11 = p := read_bv hw ok ft (.tail _ (.tail _ (.head _)))
  refine ⟨hw ▸ pack_lt ok ft (show inWord [(22, 4), (18, 4), (11, 3)] = true by decide +kernel) (by decide +kernel), .core (.vrand d a p), ?_, rfl⟩
  rw [decodeNat_23 W em, decVred]
  simp only [ej, ez1, ez2, ez3, ef1, ef2, ef3, zeros, List.all, beq_self_eq_true, Bool.and_self, if_true]

theorem RoundTrip.vror (d : BitVec 4) (a : BitVec 4) (p : BitVec 3) : RoundTrip.Statement (.vror d a p) := by
  intro hwf W hw
  have hw : pack 0x8C000080 (strip [⟨d.toNat, 22, 4⟩, ⟨a.toNat, 18, 4⟩, ⟨p.toNat, 11, 3⟩]) = W := Option.some.inj hw
  have ok : laidOut 0x8C000080 [(22, 4), (18, 4), (11, 3)] = true := by decide +kernel
  have ft : Fits [⟨d.toNat, 22, 4⟩, ⟨a.toNat, 18, 4⟩, ⟨p.toNat, 11, 3⟩] := ⟨d.isLt, a.isLt, p.isLt, trivial⟩
  have em : fld W 26 6 = 0x23 := read_const hw ok ft (show apart 26 6 [(22, 4), (18, 4), (11, 3)] = true by decide +kernel) (by decide +kernel)
  have ej : fld W 5 5 = 4 := read_const hw ok ft (show apart 5 5 [(22, 4), (18, 4), (11, 3)] = true by decide +kernel) (by decide +kernel)
  have ez1 : fld W 14 4 = 0 := read_const hw ok ft (show apart 14 4 [(22, 4), (18, 4), (11, 3)] = true by decide +kernel) (by decide +kernel)
  have ez2 : fld W 0 5 = 0 := read_const hw ok ft (show apart 0 5 [(22, 4), (18, 4), (11, 3)] = true by decide +kernel) (by decide +kernel)
  have ez3 : fld W 10 1 = 0 := read_const hw ok ft (show apart 10 1 [(22, 4), (18, 4), (11, 3)] = true by decide +kernel) (by decide +kernel)
  have ef1 : bv 4 W 22 = d := read_bv hw ok ft (.head _)
  have ef2 : bv 4 W 18 = a := read_bv hw ok ft (.tail _ (.head _))
  have ef3 : bv 3 W 11 = p := read_bv hw ok ft (.tail _ (.tail _ (.head _)))
  refine ⟨hw ▸ pack_lt ok ft (show inWord [(22, 4), (18, 4), (11, 3)] = true by decide +kernel) (by decide +kernel), .core (.vror d a p), ?_, rfl⟩
  rw [decodeNat_23 W em, decVred]
  simp only [ej, ez1, ez2, ez3, ef1, ef2, ef3, zeros, List.all, beq_self_eq_true, Bool.and_self, if_true]

theorem RoundTrip.vscan (d : BitVec 4) (a : BitVec 4) (p : BitVec 3) (ty : VType) (rs : RSrc) : RoundTrip.Statement (.vscan d a p ty rs) := by
  intro hwf W hw
  have hw : pack 0x8C0000A0 (strip [⟨d.toNat, 22, 4⟩, ⟨a.toNat, 18, 4⟩, ⟨p.toNat, 11, 3⟩, ⟨ty.code, 2, 3⟩, ⟨ty.eBit, 10, 1⟩, ⟨rs.code, 0, 2⟩]) = W := Option.some.inj hw
  have ok : laidOut 0x8C0000A0 [(22, 4), (18, 4), (11, 3), (2, 3), (10, 1), (0, 2)] = true := by decide +kernel
  have ft : Fits [⟨d.toNat, 22, 4⟩, ⟨a.toNat, 18, 4⟩, ⟨p.toNat, 11, 3⟩, ⟨ty.code, 2, 3⟩, ⟨ty.eBit, 10, 1⟩, ⟨rs.code, 0, 2⟩] := ⟨d.isLt, a.isLt, p.isLt, ty.code_lt, ty.eBit_lt, rs.code_lt, trivial⟩
  have em : fld W 26 6 = 0x23 := read_const hw ok ft (show apart 26 6 [(22, 4), (18, 4), (11, 3), (2, 3), (10, 1), (0, 2)] = true by decide +kernel) (by decide +kernel)
  have ej : fld W 5 5 = 5 := read_const hw ok ft (show apart 5 5 [(22, 4), (18, 4), (11, 3), (2, 3), (10, 1), (0, 2)] = true by decide +kernel) (by decide +kernel)
  have ez1 : fld W 14 4 = 0 := read_const hw ok ft (show apart 14 4 [(22, 4), (18, 4), (11, 3), (2, 3), (10, 1), (0, 2)] = true by decide +kernel) (by decide +kernel)
  have ef1 : bv 4 W 22 = d := read_bv hw ok ft (.head _)
  have ef2 : bv 4 W 18 = a := read_bv hw ok ft (.tail _ (.head _))
  have ef3 : bv 3 W 11 = p := read_bv hw ok ft (.tail _ (.tail _ (.head _)))
  have ef4 : VType.ofCode (fld W 2 3) (flag W 10) = some ty := VType.of_code (read_code hw ok ft (.tail _ (.tail _ (.tail _ (.head _))))) (read_code hw ok ft (.tail _ (.tail _ (.tail _ (.tail _ (.head _))))))
  have ef5 : RSrc.ofCode (fld W 0 2) = rs := RSrc.of_code (read_code hw ok ft (.tail _ (.tail _ (.tail _ (.tail _ (.tail _ (.head _)))))))
  refine ⟨hw ▸ pack_lt ok ft (show inWord [(22, 4), (18, 4), (11, 3), (2, 3), (10, 1), (0, 2)] = true by decide +kernel) (by decide +kernel), .core (.vscan d a p ty rs), ?_, rfl⟩
  rw [decodeNat_23 W em, decVred]
  simp only [ej, ez1, ef1, ef2, ef3, ef4, ef5, zeros, List.all, beq_self_eq_true, Bool.and_self, if_true, typ, opt, wfOr, hwf]

theorem RoundTrip.vld (d : BitVec 4) (a : BitVec 5) (g : BitVec 3) (p : BitVec 3) : RoundTrip.Statement (.vld d a g p) := by
  intro hwf W hw
  have hw : pack 0x90000000 (strip [⟨d.toNat, 22, 4⟩, ⟨a.toNat, 17, 5⟩, ⟨g.toNat, 14, 3⟩, ⟨p.toNat, 11, 3⟩]) = W := Option.some.inj hw
  have ok : laidOut 0x90000000 [(22, 4), (17, 5), (14, 3), (11, 3)] = true := by decide +kernel
  have ft : Fits [⟨d.toNat, 22, 4⟩, ⟨a.toNat, 17, 5⟩, ⟨g.toNat, 14, 3⟩, ⟨p.toNat, 11, 3⟩] := ⟨d.isLt, a.isLt, g.isLt, p.isLt, trivial⟩
  have em : fld W 26 6 = 0x24 := read_const hw ok ft (show apart 26 6 [(22, 4), (17, 5), (14, 3), (11, 3)] = true by decide +kernel) (by decide +kernel)
  have ej : fld W 8 3 = 0 := read_const hw ok ft (show apart 8 3 [(22, 4), (17, 5), (14, 3), (11, 3)] = true by decide +kernel) (by decide +kernel)
  have ez1 : fld W 0 8 = 0 := read_const hw ok ft (show apart 0 8 [(22, 4), (17, 5), (14, 3), (11, 3)] = true by decide +kernel) (by decide +kernel)
  have ef1 : bv 4 W 22 = d := read_bv hw ok ft (.head _)
  have ef2 : bv 5 W 17 = a := read_bv hw ok ft (.tail _ (.head _))
  have ef3 : bv 3 W 14 = g := read_bv hw ok ft (.tail _ (.tail _ (.head _)))
  have ef4 : bv 3 W 11 = p := read_bv hw ok ft (.tail _ (.tail _ (.tail _ (.head _))))
  refine ⟨hw ▸ pack_lt ok ft (show inWord [(22, 4), (17, 5), (14, 3), (11, 3)] = true by decide +kernel) (by decide +kernel), .core (.vld d a g p), ?_, rfl⟩
  rw [decodeNat_24 W em, decVmem]
  simp only [ej, ez1, ef1, ef2, ef3, ef4, zeros, List.all, beq_self_eq_true, Bool.and_self, if_true]

theorem RoundTrip.vst (d : BitVec 4) (a : BitVec 5) (g : BitVec 3) (p : BitVec 3) : RoundTrip.Statement (.vst d a g p) := by
  intro hwf W hw
  have hw : pack 0x90000100 (strip [⟨d.toNat, 22, 4⟩, ⟨a.toNat, 17, 5⟩, ⟨g.toNat, 14, 3⟩, ⟨p.toNat, 11, 3⟩]) = W := Option.some.inj hw
  have ok : laidOut 0x90000100 [(22, 4), (17, 5), (14, 3), (11, 3)] = true := by decide +kernel
  have ft : Fits [⟨d.toNat, 22, 4⟩, ⟨a.toNat, 17, 5⟩, ⟨g.toNat, 14, 3⟩, ⟨p.toNat, 11, 3⟩] := ⟨d.isLt, a.isLt, g.isLt, p.isLt, trivial⟩
  have em : fld W 26 6 = 0x24 := read_const hw ok ft (show apart 26 6 [(22, 4), (17, 5), (14, 3), (11, 3)] = true by decide +kernel) (by decide +kernel)
  have ej : fld W 8 3 = 1 := read_const hw ok ft (show apart 8 3 [(22, 4), (17, 5), (14, 3), (11, 3)] = true by decide +kernel) (by decide +kernel)
  have ez1 : fld W 0 8 = 0 := read_const hw ok ft (show apart 0 8 [(22, 4), (17, 5), (14, 3), (11, 3)] = true by decide +kernel) (by decide +kernel)
  have ef1 : bv 4 W 22 = d := read_bv hw ok ft (.head _)
  have ef2 : bv 5 W 17 = a := read_bv hw ok ft (.tail _ (.head _))
  have ef3 : bv 3 W 14 = g := read_bv hw ok ft (.tail _ (.tail _ (.head _)))
  have ef4 : bv 3 W 11 = p := read_bv hw ok ft (.tail _ (.tail _ (.tail _ (.head _))))
  refine ⟨hw ▸ pack_lt ok ft (show inWord [(22, 4), (17, 5), (14, 3), (11, 3)] = true by decide +kernel) (by decide +kernel), .core (.vst d a g p), ?_, rfl⟩
  rw [decodeNat_24 W em, decVmem]
  simp only [ej, ez1, ef1, ef2, ef3, ef4, zeros, List.all, beq_self_eq_true, Bool.and_self, if_true]

theorem RoundTrip.vlds (d : BitVec 4) (a : BitVec 5) (g : BitVec 3) (p : BitVec 3) (s : BitVec 5) : RoundTrip.Statement (.vlds d a g p s) := by
  intro hwf W hw
  have hw : pack 0x90000200 (strip [⟨d.toNat, 22, 4⟩, ⟨a.toNat, 17, 5⟩, ⟨g.toNat, 14, 3⟩, ⟨p.toNat, 11, 3⟩, ⟨s.toNat, 3, 5⟩]) = W := Option.some.inj hw
  have ok : laidOut 0x90000200 [(22, 4), (17, 5), (14, 3), (11, 3), (3, 5)] = true := by decide +kernel
  have ft : Fits [⟨d.toNat, 22, 4⟩, ⟨a.toNat, 17, 5⟩, ⟨g.toNat, 14, 3⟩, ⟨p.toNat, 11, 3⟩, ⟨s.toNat, 3, 5⟩] := ⟨d.isLt, a.isLt, g.isLt, p.isLt, s.isLt, trivial⟩
  have em : fld W 26 6 = 0x24 := read_const hw ok ft (show apart 26 6 [(22, 4), (17, 5), (14, 3), (11, 3), (3, 5)] = true by decide +kernel) (by decide +kernel)
  have ej : fld W 8 3 = 2 := read_const hw ok ft (show apart 8 3 [(22, 4), (17, 5), (14, 3), (11, 3), (3, 5)] = true by decide +kernel) (by decide +kernel)
  have ez1 : fld W 0 3 = 0 := read_const hw ok ft (show apart 0 3 [(22, 4), (17, 5), (14, 3), (11, 3), (3, 5)] = true by decide +kernel) (by decide +kernel)
  have ef1 : bv 4 W 22 = d := read_bv hw ok ft (.head _)
  have ef2 : bv 5 W 17 = a := read_bv hw ok ft (.tail _ (.head _))
  have ef3 : bv 3 W 14 = g := read_bv hw ok ft (.tail _ (.tail _ (.head _)))
  have ef4 : bv 3 W 11 = p := read_bv hw ok ft (.tail _ (.tail _ (.tail _ (.head _))))
  have ef5 : bv 5 W 3 = s := read_bv hw ok ft (.tail _ (.tail _ (.tail _ (.tail _ (.head _)))))
  refine ⟨hw ▸ pack_lt ok ft (show inWord [(22, 4), (17, 5), (14, 3), (11, 3), (3, 5)] = true by decide +kernel) (by decide +kernel), .core (.vlds d a g p s), ?_, rfl⟩
  rw [decodeNat_24 W em, decVmem]
  simp only [ej, ez1, ef1, ef2, ef3, ef4, ef5, zeros, List.all, beq_self_eq_true, Bool.and_self, if_true]

theorem RoundTrip.vsts (d : BitVec 4) (a : BitVec 5) (g : BitVec 3) (p : BitVec 3) (s : BitVec 5) : RoundTrip.Statement (.vsts d a g p s) := by
  intro hwf W hw
  have hw : pack 0x90000300 (strip [⟨d.toNat, 22, 4⟩, ⟨a.toNat, 17, 5⟩, ⟨g.toNat, 14, 3⟩, ⟨p.toNat, 11, 3⟩, ⟨s.toNat, 3, 5⟩]) = W := Option.some.inj hw
  have ok : laidOut 0x90000300 [(22, 4), (17, 5), (14, 3), (11, 3), (3, 5)] = true := by decide +kernel
  have ft : Fits [⟨d.toNat, 22, 4⟩, ⟨a.toNat, 17, 5⟩, ⟨g.toNat, 14, 3⟩, ⟨p.toNat, 11, 3⟩, ⟨s.toNat, 3, 5⟩] := ⟨d.isLt, a.isLt, g.isLt, p.isLt, s.isLt, trivial⟩
  have em : fld W 26 6 = 0x24 := read_const hw ok ft (show apart 26 6 [(22, 4), (17, 5), (14, 3), (11, 3), (3, 5)] = true by decide +kernel) (by decide +kernel)
  have ej : fld W 8 3 = 3 := read_const hw ok ft (show apart 8 3 [(22, 4), (17, 5), (14, 3), (11, 3), (3, 5)] = true by decide +kernel) (by decide +kernel)
  have ez1 : fld W 0 3 = 0 := read_const hw ok ft (show apart 0 3 [(22, 4), (17, 5), (14, 3), (11, 3), (3, 5)] = true by decide +kernel) (by decide +kernel)
  have ef1 : bv 4 W 22 = d := read_bv hw ok ft (.head _)
  have ef2 : bv 5 W 17 = a := read_bv hw ok ft (.tail _ (.head _))
  have ef3 : bv 3 W 14 = g := read_bv hw ok ft (.tail _ (.tail _ (.head _)))
  have ef4 : bv 3 W 11 = p := read_bv hw ok ft (.tail _ (.tail _ (.tail _ (.head _))))
  have ef5 : bv 5 W 3 = s := read_bv hw ok ft (.tail _ (.tail _ (.tail _ (.tail _ (.head _)))))
  refine ⟨hw ▸ pack_lt ok ft (show inWord [(22, 4), (17, 5), (14, 3), (11, 3), (3, 5)] = true by decide +kernel) (by decide +kernel), .core (.vsts d a g p s), ?_, rfl⟩
  rw [decodeNat_24 W em, decVmem]
  simp only [ej, ez1, ef1, ef2, ef3, ef4, ef5, zeros, List.all, beq_self_eq_true, Bool.and_self, if_true]

theorem RoundTrip.vgath (d : BitVec 4) (a : BitVec 5) (g : BitVec 3) (p : BitVec 3) (b : BitVec 4) : RoundTrip.Statement (.vgath d a g p b) := by
  intro hwf W hw
  have hw : pack 0x90000400 (strip [⟨d.toNat, 22, 4⟩, ⟨a.toNat, 17, 5⟩, ⟨g.toNat, 14, 3⟩, ⟨p.toNat, 11, 3⟩, ⟨b.toNat, 3, 4⟩]) = W := Option.some.inj hw
  have ok : laidOut 0x90000400 [(22, 4), (17, 5), (14, 3), (11, 3), (3, 4)] = true := by decide +kernel
  have ft : Fits [⟨d.toNat, 22, 4⟩, ⟨a.toNat, 17, 5⟩, ⟨g.toNat, 14, 3⟩, ⟨p.toNat, 11, 3⟩, ⟨b.toNat, 3, 4⟩] := ⟨d.isLt, a.isLt, g.isLt, p.isLt, b.isLt, trivial⟩
  have em : fld W 26 6 = 0x24 := read_const hw ok ft (show apart 26 6 [(22, 4), (17, 5), (14, 3), (11, 3), (3, 4)] = true by decide +kernel) (by decide +kernel)
  have ej : fld W 8 3 = 4 := read_const hw ok ft (show apart 8 3 [(22, 4), (17, 5), (14, 3), (11, 3), (3, 4)] = true by decide +kernel) (by decide +kernel)
  have ez1 : fld W 7 1 = 0 := read_const hw ok ft (show apart 7 1 [(22, 4), (17, 5), (14, 3), (11, 3), (3, 4)] = true by decide +kernel) (by decide +kernel)
  have ez2 : fld W 0 3 = 0 := read_const hw ok ft (show apart 0 3 [(22, 4), (17, 5), (14, 3), (11, 3), (3, 4)] = true by decide +kernel) (by decide +kernel)
  have ef1 : bv 4 W 22 = d := read_bv hw ok ft (.head _)
  have ef2 : bv 5 W 17 = a := read_bv hw ok ft (.tail _ (.head _))
  have ef3 : bv 3 W 14 = g := read_bv hw ok ft (.tail _ (.tail _ (.head _)))
  have ef4 : bv 3 W 11 = p := read_bv hw ok ft (.tail _ (.tail _ (.tail _ (.head _))))
  have ef5 : bv 4 W 3 = b := read_bv hw ok ft (.tail _ (.tail _ (.tail _ (.tail _ (.head _)))))
  refine ⟨hw ▸ pack_lt ok ft (show inWord [(22, 4), (17, 5), (14, 3), (11, 3), (3, 4)] = true by decide +kernel) (by decide +kernel), .core (.vgath d a g p b), ?_, rfl⟩
  rw [decodeNat_24 W em, decVmem]
  simp only [ej, ez1, ez2, ef1, ef2, ef3, ef4, ef5, zeros, List.all, beq_self_eq_true, Bool.and_self, if_true]

theorem RoundTrip.vscat (d : BitVec 4) (a : BitVec 5) (g : BitVec 3) (p : BitVec 3) (b : BitVec 4) : RoundTrip.Statement (.vscat d a g p b) := by
  intro hwf W hw
  have hw : pack 0x90000500 (strip [⟨d.toNat, 22, 4⟩, ⟨a.toNat, 17, 5⟩, ⟨g.toNat, 14, 3⟩, ⟨p.toNat, 11, 3⟩, ⟨b.toNat, 3, 4⟩]) = W := Option.some.inj hw
  have ok : laidOut 0x90000500 [(22, 4), (17, 5), (14, 3), (11, 3), (3, 4)] = true := by decide +kernel
  have ft : Fits [⟨d.toNat, 22, 4⟩, ⟨a.toNat, 17, 5⟩, ⟨g.toNat, 14, 3⟩, ⟨p.toNat, 11, 3⟩, ⟨b.toNat, 3, 4⟩] := ⟨d.isLt, a.isLt, g.isLt, p.isLt, b.isLt, trivial⟩
  have em : fld W 26 6 = 0x24 := read_const hw ok ft (show apart 26 6 [(22, 4), (17, 5), (14, 3), (11, 3), (3, 4)] = true by decide +kernel) (by decide +kernel)
  have ej : fld W 8 3 = 5 := read_const hw ok ft (show apart 8 3 [(22, 4), (17, 5), (14, 3), (11, 3), (3, 4)] = true by decide +kernel) (by decide +kernel)
  have ez1 : fld W 7 1 = 0 := read_const hw ok ft (show apart 7 1 [(22, 4), (17, 5), (14, 3), (11, 3), (3, 4)] = true by decide +kernel) (by decide +kernel)
  have ez2 : fld W 0 3 = 0 := read_const hw ok ft (show apart 0 3 [(22, 4), (17, 5), (14, 3), (11, 3), (3, 4)] = true by decide +kernel) (by decide +kernel)
  have ef1 : bv 4 W 22 = d := read_bv hw ok ft (.head _)
  have ef2 : bv 5 W 17 = a := read_bv hw ok ft (.tail _ (.head _))
  have ef3 : bv 3 W 14 = g := read_bv hw ok ft (.tail _ (.tail _ (.head _)))
  have ef4 : bv 3 W 11 = p := read_bv hw ok ft (.tail _ (.tail _ (.tail _ (.head _))))
  have ef5 : bv 4 W 3 = b := read_bv hw ok ft (.tail _ (.tail _ (.tail _ (.tail _ (.head _)))))
  refine ⟨hw ▸ pack_lt ok ft (show inWord [(22, 4), (17, 5), (14, 3), (11, 3), (3, 4)] = true by decide +kernel) (by decide +kernel), .core (.vscat d a g p b), ?_, rfl⟩
  rw [decodeNat_24 W em, decVmem]
  simp only [ej, ez1, ez2, ef1, ef2, ef3, ef4, ef5, zeros, List.all, beq_self_eq_true, Bool.and_self, if_true]

theorem RoundTrip.pand (d : BitVec 3) (a : BitVec 3) (b : BitVec 3) : RoundTrip.Statement (.pand d a b) := by
  intro hwf W hw
  have hw : pack 0x94000000 (strip [⟨d.toNat, 22, 3⟩, ⟨a.toNat, 18, 3⟩, ⟨b.toNat, 14, 3⟩]) = W := Option.some.inj hw
  have ok : laidOut 0x94000000 [(22, 3), (18, 3), (14, 3)] = true := by decide +kernel
  have ft : Fits [⟨d.toNat, 22, 3⟩, ⟨a.toNat, 18, 3⟩, ⟨b.toNat, 14, 3⟩] := ⟨d.isLt, a.isLt, b.isLt, trivial⟩
  have em : fld W 26 6 = 0x25 := read_const hw ok ft (show apart 26 6 [(22, 3), (18, 3), (14, 3)] = true by decide +kernel) (by decide +kernel)
  have ej : fld W 5 5 = 0 := read_const hw ok ft (show apart 5 5 [(22, 3), (18, 3), (14, 3)] = true by decide +kernel) (by decide +kernel)
  have ez1 : fld W 17 1 = 0 := read_const hw ok ft (show apart 17 1 [(22, 3), (18, 3), (14, 3)] = true by decide +kernel) (by decide +kernel)
  have ez2 : fld W 21 1 = 0 := read_const hw ok ft (show apart 21 1 [(22, 3), (18, 3), (14, 3)] = true by decide +kernel) (by decide +kernel)
  have ez3 : fld W 25 1 = 0 := read_const hw ok ft (show apart 25 1 [(22, 3), (18, 3), (14, 3)] = true by decide +kernel) (by decide +kernel)
  have ez4 : fld W 0 5 = 0 := read_const hw ok ft (show apart 0 5 [(22, 3), (18, 3), (14, 3)] = true by decide +kernel) (by decide +kernel)
  have ez5 : fld W 10 4 = 0 := read_const hw ok ft (show apart 10 4 [(22, 3), (18, 3), (14, 3)] = true by decide +kernel) (by decide +kernel)
  have ef1 : bv 3 W 22 = d := read_bv hw ok ft (.head _)
  have ef2 : bv 3 W 18 = a := read_bv hw ok ft (.tail _ (.head _))
  have ef3 : bv 3 W 14 = b := read_bv hw ok ft (.tail _ (.tail _ (.head _)))
  refine ⟨hw ▸ pack_lt ok ft (show inWord [(22, 3), (18, 3), (14, 3)] = true by decide +kernel) (by decide +kernel), .core (.pand d a b), ?_, rfl⟩
  rw [decodeNat_25 W em, decVpred]
  simp only [ej, ez1, ez2, ez3, ez4, ez5, ef1, ef2, ef3, zeros, List.all, beq_self_eq_true, Bool.and_self, if_true]

theorem RoundTrip.por (d : BitVec 3) (a : BitVec 3) (b : BitVec 3) : RoundTrip.Statement (.por d a b) := by
  intro hwf W hw
  have hw : pack 0x94000020 (strip [⟨d.toNat, 22, 3⟩, ⟨a.toNat, 18, 3⟩, ⟨b.toNat, 14, 3⟩]) = W := Option.some.inj hw
  have ok : laidOut 0x94000020 [(22, 3), (18, 3), (14, 3)] = true := by decide +kernel
  have ft : Fits [⟨d.toNat, 22, 3⟩, ⟨a.toNat, 18, 3⟩, ⟨b.toNat, 14, 3⟩] := ⟨d.isLt, a.isLt, b.isLt, trivial⟩
  have em : fld W 26 6 = 0x25 := read_const hw ok ft (show apart 26 6 [(22, 3), (18, 3), (14, 3)] = true by decide +kernel) (by decide +kernel)
  have ej : fld W 5 5 = 1 := read_const hw ok ft (show apart 5 5 [(22, 3), (18, 3), (14, 3)] = true by decide +kernel) (by decide +kernel)
  have ez1 : fld W 17 1 = 0 := read_const hw ok ft (show apart 17 1 [(22, 3), (18, 3), (14, 3)] = true by decide +kernel) (by decide +kernel)
  have ez2 : fld W 21 1 = 0 := read_const hw ok ft (show apart 21 1 [(22, 3), (18, 3), (14, 3)] = true by decide +kernel) (by decide +kernel)
  have ez3 : fld W 25 1 = 0 := read_const hw ok ft (show apart 25 1 [(22, 3), (18, 3), (14, 3)] = true by decide +kernel) (by decide +kernel)
  have ez4 : fld W 0 5 = 0 := read_const hw ok ft (show apart 0 5 [(22, 3), (18, 3), (14, 3)] = true by decide +kernel) (by decide +kernel)
  have ez5 : fld W 10 4 = 0 := read_const hw ok ft (show apart 10 4 [(22, 3), (18, 3), (14, 3)] = true by decide +kernel) (by decide +kernel)
  have ef1 : bv 3 W 22 = d := read_bv hw ok ft (.head _)
  have ef2 : bv 3 W 18 = a := read_bv hw ok ft (.tail _ (.head _))
  have ef3 : bv 3 W 14 = b := read_bv hw ok ft (.tail _ (.tail _ (.head _)))
  refine ⟨hw ▸ pack_lt ok ft (show inWord [(22, 3), (18, 3), (14, 3)] = true by decide +kernel) (by decide +kernel), .core (.por d a b), ?_, rfl⟩
  rw [decodeNat_25 W em, decVpred]
  simp only [ej, ez1, ez2, ez3, ez4, ez5, ef1, ef2, ef3, zeros, List.all, beq_self_eq_true, Bool.and_self, if_true]

theorem RoundTrip.pxor (d : BitVec 3) (a : BitVec 3) (b : BitVec 3) : RoundTrip.Statement (.pxor d a b) := by
  intro hwf W hw
  have hw : pack 0x94000040 (strip [⟨d.toNat, 22, 3⟩, ⟨a.toNat, 18, 3⟩, ⟨b.toNat, 14, 3⟩]) = W := Option.some.inj hw
  have ok : laidOut 0x94000040 [(22, 3), (18, 3), (14, 3)] = true := by decide +kernel
  have ft : Fits [⟨d.toNat, 22, 3⟩, ⟨a.toNat, 18, 3⟩, ⟨b.toNat, 14, 3⟩] := ⟨d.isLt, a.isLt, b.isLt, trivial⟩
  have em : fld W 26 6 = 0x25 := read_const hw ok ft (show apart 26 6 [(22, 3), (18, 3), (14, 3)] = true by decide +kernel) (by decide +kernel)
  have ej : fld W 5 5 = 2 := read_const hw ok ft (show apart 5 5 [(22, 3), (18, 3), (14, 3)] = true by decide +kernel) (by decide +kernel)
  have ez1 : fld W 17 1 = 0 := read_const hw ok ft (show apart 17 1 [(22, 3), (18, 3), (14, 3)] = true by decide +kernel) (by decide +kernel)
  have ez2 : fld W 21 1 = 0 := read_const hw ok ft (show apart 21 1 [(22, 3), (18, 3), (14, 3)] = true by decide +kernel) (by decide +kernel)
  have ez3 : fld W 25 1 = 0 := read_const hw ok ft (show apart 25 1 [(22, 3), (18, 3), (14, 3)] = true by decide +kernel) (by decide +kernel)
  have ez4 : fld W 0 5 = 0 := read_const hw ok ft (show apart 0 5 [(22, 3), (18, 3), (14, 3)] = true by decide +kernel) (by decide +kernel)
  have ez5 : fld W 10 4 = 0 := read_const hw ok ft (show apart 10 4 [(22, 3), (18, 3), (14, 3)] = true by decide +kernel) (by decide +kernel)
  have ef1 : bv 3 W 22 = d := read_bv hw ok ft (.head _)
  have ef2 : bv 3 W 18 = a := read_bv hw ok ft (.tail _ (.head _))
  have ef3 : bv 3 W 14 = b := read_bv hw ok ft (.tail _ (.tail _ (.head _)))
  refine ⟨hw ▸ pack_lt ok ft (show inWord [(22, 3), (18, 3), (14, 3)] = true by decide +kernel) (by decide +kernel), .core (.pxor d a b), ?_, rfl⟩
  rw [decodeNat_25 W em, decVpred]
  simp only [ej, ez1, ez2, ez3, ez4, ez5, ef1, ef2, ef3, zeros, List.all, beq_self_eq_true, Bool.and_self, if_true]

theorem RoundTrip.pnot (d : BitVec 3) (a : BitVec 3) : RoundTrip.Statement (.pnot d a) := by
  intro hwf W hw
  have hw : pack 0x94000060 (strip [⟨d.toNat, 22, 3⟩, ⟨a.toNat, 18, 3⟩]) = W := Option.some.inj hw
  have ok : laidOut 0x94000060 [(22, 3), (18, 3)] = true := by decide +kernel
  have ft : Fits [⟨d.toNat, 22, 3⟩, ⟨a.toNat, 18, 3⟩] := ⟨d.isLt, a.isLt, trivial⟩
  have em : fld W 26 6 = 0x25 := read_const hw ok ft (show apart 26 6 [(22, 3), (18, 3)] = true by decide +kernel) (by decide +kernel)
  have ej : fld W 5 5 = 3 := read_const hw ok ft (show apart 5 5 [(22, 3), (18, 3)] = true by decide +kernel) (by decide +kernel)
  have ez1 : fld W 21 1 = 0 := read_const hw ok ft (show apart 21 1 [(22, 3), (18, 3)] = true by decide +kernel) (by decide +kernel)
  have ez2 : fld W 25 1 = 0 := read_const hw ok ft (show apart 25 1 [(22, 3), (18, 3)] = true by decide +kernel) (by decide +kernel)
  have ez3 : fld W 0 5 = 0 := read_const hw ok ft (show apart 0 5 [(22, 3), (18, 3)] = true by decide +kernel) (by decide +kernel)
  have ez4 : fld W 10 8 = 0 := read_const hw ok ft (show apart 10 8 [(22, 3), (18, 3)] = true by decide +kernel) (by decide +kernel)
  have ef1 : bv 3 W 22 = d := read_bv hw ok ft (.head _)
  have ef2 : bv 3 W 18 = a := read_bv hw ok ft (.tail _ (.head _))
  refine ⟨hw ▸ pack_lt ok ft (show inWord [(22, 3), (18, 3)] = true by decide +kernel) (by decide +kernel), .core (.pnot d a), ?_, rfl⟩
  rw [decodeNat_25 W em, decVpred]
  simp only [ej, ez1, ez2, ez3, ez4, ef1, ef2, zeros, List.all, beq_self_eq_true, Bool.and_self, if_true]

theorem RoundTrip.pcnt (d : BitVec 4) (a : BitVec 3) : RoundTrip.Statement (.pcnt d a) := by
  intro hwf W hw
  have hw : pack 0x94000080 (strip [⟨d.toNat, 22, 4⟩, ⟨a.toNat, 18, 3⟩]) = W := Option.some.inj hw
  have ok : laidOut 0x94000080 [(22, 4), (18, 3)] = true := by decide +kernel
  have ft : Fits [⟨d.toNat, 22, 4⟩, ⟨a.toNat, 18, 3⟩] := ⟨d.isLt, a.isLt, trivial⟩
  have em : fld W 26 6 = 0x25 := read_const hw ok ft (show apart 26 6 [(22, 4), (18, 3)] = true by decide +kernel) (by decide +kernel)
  have ej : fld W 5 5 = 4 := read_const hw ok ft (show apart 5 5 [(22, 4), (18, 3)] = true by decide +kernel) (by decide +kernel)
  have ez1 : fld W 21 1 = 0 := read_const hw ok ft (show apart 21 1 [(22, 4), (18, 3)] = true by decide +kernel) (by decide +kernel)
  have ez2 : fld W 0 5 = 0 := read_const hw ok ft (show apart 0 5 [(22, 4), (18, 3)] = true by decide +kernel) (by decide +kernel)
  have ez3 : fld W 10 8 = 0 := read_const hw ok ft (show apart 10 8 [(22, 4), (18, 3)] = true by decide +kernel) (by decide +kernel)
  have ef1 : bv 4 W 22 = d := read_bv hw ok ft (.head _)
  have ef2 : bv 3 W 18 = a := read_bv hw ok ft (.tail _ (.head _))
  refine ⟨hw ▸ pack_lt ok ft (show inWord [(22, 4), (18, 3)] = true by decide +kernel) (by decide +kernel), .core (.pcnt d a), ?_, rfl⟩
  rw [decodeNat_25 W em, decVpred]
  simp only [ej, ez1, ez2, ez3, ef1, ef2, zeros, List.all, beq_self_eq_true, Bool.and_self, if_true]

theorem RoundTrip.pfirst (d : BitVec 4) (a : BitVec 3) : RoundTrip.Statement (.pfirst d a) := by
  intro hwf W hw
  have hw : pack 0x940000A0 (strip [⟨d.toNat, 22, 4⟩, ⟨a.toNat, 18, 3⟩]) = W := Option.some.inj hw
  have ok : laidOut 0x940000A0 [(22, 4), (18, 3)] = true := by decide +kernel
  have ft : Fits [⟨d.toNat, 22, 4⟩, ⟨a.toNat, 18, 3⟩] := ⟨d.isLt, a.isLt, trivial⟩
  have em : fld W 26 6 = 0x25 := read_const hw ok ft (show apart 26 6 [(22, 4), (18, 3)] = true by decide +kernel) (by decide +kernel)
  have ej : fld W 5 5 = 5 := read_const hw ok ft (show apart 5 5 [(22, 4), (18, 3)] = true by decide +kernel) (by decide +kernel)
  have ez1 : fld W 21 1 = 0 := read_const hw ok ft (show apart 21 1 [(22, 4), (18, 3)] = true by decide +kernel) (by decide +kernel)
  have ez2 : fld W 0 5 = 0 := read_const hw ok ft (show apart 0 5 [(22, 4), (18, 3)] = true by decide +kernel) (by decide +kernel)
  have ez3 : fld W 10 8 = 0 := read_const hw ok ft (show apart 10 8 [(22, 4), (18, 3)] = true by decide +kernel) (by decide +kernel)
  have ef1 : bv 4 W 22 = d := read_bv hw ok ft (.head _)
  have ef2 : bv 3 W 18 = a := read_bv hw ok ft (.tail _ (.head _))
  refine ⟨hw ▸ pack_lt ok ft (show inWord [(22, 4), (18, 3)] = true by decide +kernel) (by decide +kernel), .core (.pfirst d a), ?_, rfl⟩
  rw [decodeNat_25 W em, decVpred]
  simp only [ej, ez1, ez2, ez3, ef1, ef2, zeros, List.all, beq_self_eq_true, Bool.and_self, if_true]

theorem RoundTrip.psetn (d : BitVec 3) (a : BitVec 4) : RoundTrip.Statement (.psetn d a) := by
  intro hwf W hw
  have hw : pack 0x940000C0 (strip [⟨d.toNat, 22, 3⟩, ⟨a.toNat, 18, 4⟩]) = W := Option.some.inj hw
  have ok : laidOut 0x940000C0 [(22, 3), (18, 4)] = true := by decide +kernel
  have ft : Fits [⟨d.toNat, 22, 3⟩, ⟨a.toNat, 18, 4⟩] := ⟨d.isLt, a.isLt, trivial⟩
  have em : fld W 26 6 = 0x25 := read_const hw ok ft (show apart 26 6 [(22, 3), (18, 4)] = true by decide +kernel) (by decide +kernel)
  have ej : fld W 5 5 = 6 := read_const hw ok ft (show apart 5 5 [(22, 3), (18, 4)] = true by decide +kernel) (by decide +kernel)
  have ez1 : fld W 25 1 = 0 := read_const hw ok ft (show apart 25 1 [(22, 3), (18, 4)] = true by decide +kernel) (by decide +kernel)
  have ez2 : fld W 0 5 = 0 := read_const hw ok ft (show apart 0 5 [(22, 3), (18, 4)] = true by decide +kernel) (by decide +kernel)
  have ez3 : fld W 10 8 = 0 := read_const hw ok ft (show apart 10 8 [(22, 3), (18, 4)] = true by decide +kernel) (by decide +kernel)
  have ef1 : bv 3 W 22 = d := read_bv hw ok ft (.head _)
  have ef2 : bv 4 W 18 = a := read_bv hw ok ft (.tail _ (.head _))
  refine ⟨hw ▸ pack_lt ok ft (show inWord [(22, 3), (18, 4)] = true by decide +kernel) (by decide +kernel), .core (.psetn d a), ?_, rfl⟩
  rw [decodeNat_25 W em, decVpred]
  simp only [ej, ez1, ez2, ez3, ef1, ef2, zeros, List.all, beq_self_eq_true, Bool.and_self, if_true]

theorem RoundTrip.rdef (q : BitVec 4) (a : BitVec 5) (b : BitVec 5) : RoundTrip.Statement (.rdef q a b) := by
  intro hwf W hw
  have hw : pack 0xA0000000 (strip [⟨q.toNat, 21, 4⟩, ⟨a.toNat, 16, 5⟩, ⟨b.toNat, 11, 5⟩]) = W := Option.some.inj hw
  have ok : laidOut 0xA0000000 [(21, 4), (16, 5), (11, 5)] = true := by decide +kernel
  have ft : Fits [⟨q.toNat, 21, 4⟩, ⟨a.toNat, 16, 5⟩, ⟨b.toNat, 11, 5⟩] := ⟨q.isLt, a.isLt, b.isLt, trivial⟩
  have em : fld W 26 6 = 0x28 := read_const hw ok ft (show apart 26 6 [(21, 4), (16, 5), (11, 5)] = true by decide +kernel) (by decide +kernel)
  have ej : fld W 5 6 = 0 := read_const hw ok ft (show apart 5 6 [(21, 4), (16, 5), (11, 5)] = true by decide +kernel) (by decide +kernel)
  have ez1 : fld W 25 1 = 0 := read_const hw ok ft (show apart 25 1 [(21, 4), (16, 5), (11, 5)] = true by decide +kernel) (by decide +kernel)
  have ez2 : fld W 0 5 = 0 := read_const hw ok ft (show apart 0 5 [(21, 4), (16, 5), (11, 5)] = true by decide +kernel) (by decide +kernel)
  have ef1 : bv 4 W 21 = q := read_bv hw ok ft (.head _)
  have ef2 : bv 5 W 16 = a := read_bv hw ok ft (.tail _ (.head _))
  have ef3 : bv 5 W 11 = b := read_bv hw ok ft (.tail _ (.tail _ (.head _)))
  refine ⟨hw ▸ pack_lt ok ft (show inWord [(21, 4), (16, 5), (11, 5)] = true by decide +kernel) (by decide +kernel), .core (.rdef q a b), ?_, rfl⟩
  rw [decodeNat_28 W em, decRing]
  simp only [ej, ez1, ez2, ef1, ef2, ef3, zeros, List.all, beq_self_eq_true, Bool.and_self, if_true]

theorem RoundTrip.rwaitf (q : BitVec 4) (b : BitVec 5) : RoundTrip.Statement (.rwaitf q b) := by
  intro hwf W hw
  have hw : pack 0xA0000020 (strip [⟨q.toNat, 16, 4⟩, ⟨b.toNat, 11, 5⟩]) = W := Option.some.inj hw
  have ok : laidOut 0xA0000020 [(16, 4), (11, 5)] = true := by decide +kernel
  have ft : Fits [⟨q.toNat, 16, 4⟩, ⟨b.toNat, 11, 5⟩] := ⟨q.isLt, b.isLt, trivial⟩
  have em : fld W 26 6 = 0x28 := read_const hw ok ft (show apart 26 6 [(16, 4), (11, 5)] = true by decide +kernel) (by decide +kernel)
  have ej : fld W 5 6 = 1 := read_const hw ok ft (show apart 5 6 [(16, 4), (11, 5)] = true by decide +kernel) (by decide +kernel)
  have ez1 : fld W 20 1 = 0 := read_const hw ok ft (show apart 20 1 [(16, 4), (11, 5)] = true by decide +kernel) (by decide +kernel)
  have ez2 : fld W 0 5 = 0 := read_const hw ok ft (show apart 0 5 [(16, 4), (11, 5)] = true by decide +kernel) (by decide +kernel)
  have ez3 : fld W 21 5 = 0 := read_const hw ok ft (show apart 21 5 [(16, 4), (11, 5)] = true by decide +kernel) (by decide +kernel)
  have ef1 : bv 4 W 16 = q := read_bv hw ok ft (.head _)
  have ef2 : bv 5 W 11 = b := read_bv hw ok ft (.tail _ (.head _))
  refine ⟨hw ▸ pack_lt ok ft (show inWord [(16, 4), (11, 5)] = true by decide +kernel) (by decide +kernel), .core (.rwaitf q b), ?_, rfl⟩
  rw [decodeNat_28 W em, decRing]
  simp only [ej, ez1, ez2, ez3, ef1, ef2, zeros, List.all, beq_self_eq_true, Bool.and_self, if_true]

theorem RoundTrip.rwaite (q : BitVec 4) (b : BitVec 5) : RoundTrip.Statement (.rwaite q b) := by
  intro hwf W hw
  have hw : pack 0xA0000040 (strip [⟨q.toNat, 16, 4⟩, ⟨b.toNat, 11, 5⟩]) = W := Option.some.inj hw
  have ok : laidOut 0xA0000040 [(16, 4), (11, 5)] = true := by decide +kernel
  have ft : Fits [⟨q.toNat, 16, 4⟩, ⟨b.toNat, 11, 5⟩] := ⟨q.isLt, b.isLt, trivial⟩
  have em : fld W 26 6 = 0x28 := read_const hw ok ft (show apart 26 6 [(16, 4), (11, 5)] = true by decide +kernel) (by decide +kernel)
  have ej : fld W 5 6 = 2 := read_const hw ok ft (show apart 5 6 [(16, 4), (11, 5)] = true by decide +kernel) (by decide +kernel)
  have ez1 : fld W 20 1 = 0 := read_const hw ok ft (show apart 20 1 [(16, 4), (11, 5)] = true by decide +kernel) (by decide +kernel)
  have ez2 : fld W 0 5 = 0 := read_const hw ok ft (show apart 0 5 [(16, 4), (11, 5)] = true by decide +kernel) (by decide +kernel)
  have ez3 : fld W 21 5 = 0 := read_const hw ok ft (show apart 21 5 [(16, 4), (11, 5)] = true by decide +kernel) (by decide +kernel)
  have ef1 : bv 4 W 16 = q := read_bv hw ok ft (.head _)
  have ef2 : bv 5 W 11 = b := read_bv hw ok ft (.tail _ (.head _))
  refine ⟨hw ▸ pack_lt ok ft (show inWord [(16, 4), (11, 5)] = true by decide +kernel) (by decide +kernel), .core (.rwaite q b), ?_, rfl⟩
  rw [decodeNat_28 W em, decRing]
  simp only [ej, ez1, ez2, ez3, ef1, ef2, zeros, List.all, beq_self_eq_true, Bool.and_self, if_true]

theorem RoundTrip.radvh (q : BitVec 4) (b : BitVec 5) : RoundTrip.Statement (.radvh q b) := by
  intro hwf W hw
  have hw : pack 0xA0000060 (strip [⟨q.toNat, 16, 4⟩, ⟨b.toNat, 11, 5⟩]) = W := Option.some.inj hw
  have ok : laidOut 0xA0000060 [(16, 4), (11, 5)] = true := by decide +kernel
  have ft : Fits [⟨q.toNat, 16, 4⟩, ⟨b.toNat, 11, 5⟩] := ⟨q.isLt, b.isLt, trivial⟩
  have em : fld W 26 6 = 0x28 := read_const hw ok ft (show apart 26 6 [(16, 4), (11, 5)] = true by decide +kernel) (by decide +kernel)
  have ej : fld W 5 6 = 3 := read_const hw ok ft (show apart 5 6 [(16, 4), (11, 5)] = true by decide +kernel) (by decide +kernel)
  have ez1 : fld W 20 1 = 0 := read_const hw ok ft (show apart 20 1 [(16, 4), (11, 5)] = true by decide +kernel) (by decide +kernel)
  have ez2 : fld W 0 5 = 0 := read_const hw ok ft (show apart 0 5 [(16, 4), (11, 5)] = true by decide +kernel) (by decide +kernel)
  have ez3 : fld W 21 5 = 0 := read_const hw ok ft (show apart 21 5 [(16, 4), (11, 5)] = true by decide +kernel) (by decide +kernel)
  have ef1 : bv 4 W 16 = q := read_bv hw ok ft (.head _)
  have ef2 : bv 5 W 11 = b := read_bv hw ok ft (.tail _ (.head _))
  refine ⟨hw ▸ pack_lt ok ft (show inWord [(16, 4), (11, 5)] = true by decide +kernel) (by decide +kernel), .core (.radvh q b), ?_, rfl⟩
  rw [decodeNat_28 W em, decRing]
  simp only [ej, ez1, ez2, ez3, ef1, ef2, zeros, List.all, beq_self_eq_true, Bool.and_self, if_true]

theorem RoundTrip.radvt (q : BitVec 4) (b : BitVec 5) : RoundTrip.Statement (.radvt q b) := by
  intro hwf W hw
  have hw : pack 0xA0000080 (strip [⟨q.toNat, 16, 4⟩, ⟨b.toNat, 11, 5⟩]) = W := Option.some.inj hw
  have ok : laidOut 0xA0000080 [(16, 4), (11, 5)] = true := by decide +kernel
  have ft : Fits [⟨q.toNat, 16, 4⟩, ⟨b.toNat, 11, 5⟩] := ⟨q.isLt, b.isLt, trivial⟩
  have em : fld W 26 6 = 0x28 := read_const hw ok ft (show apart 26 6 [(16, 4), (11, 5)] = true by decide +kernel) (by decide +kernel)
  have ej : fld W 5 6 = 4 := read_const hw ok ft (show apart 5 6 [(16, 4), (11, 5)] = true by decide +kernel) (by decide +kernel)
  have ez1 : fld W 20 1 = 0 := read_const hw ok ft (show apart 20 1 [(16, 4), (11, 5)] = true by decide +kernel) (by decide +kernel)
  have ez2 : fld W 0 5 = 0 := read_const hw ok ft (show apart 0 5 [(16, 4), (11, 5)] = true by decide +kernel) (by decide +kernel)
  have ez3 : fld W 21 5 = 0 := read_const hw ok ft (show apart 21 5 [(16, 4), (11, 5)] = true by decide +kernel) (by decide +kernel)
  have ef1 : bv 4 W 16 = q := read_bv hw ok ft (.head _)
  have ef2 : bv 5 W 11 = b := read_bv hw ok ft (.tail _ (.head _))
  refine ⟨hw ▸ pack_lt ok ft (show inWord [(16, 4), (11, 5)] = true by decide +kernel) (by decide +kernel), .core (.radvt q b), ?_, rfl⟩
  rw [decodeNat_28 W em, decRing]
  simp only [ej, ez1, ez2, ez3, ef1, ef2, zeros, List.all, beq_self_eq_true, Bool.and_self, if_true]

theorem RoundTrip.rhead (d : BitVec 5) (q : BitVec 4) : RoundTrip.Statement (.rhead d q) := by
  intro hwf W hw
  have hw : pack 0xA00000A0 (strip [⟨d.toNat, 21, 5⟩, ⟨q.toNat, 16, 4⟩]) = W := Option.some.inj hw
  have ok : laidOut 0xA00000A0 [(21, 5), (16, 4)] = true := by decide +kernel
  have ft : Fits [⟨d.toNat, 21, 5⟩, ⟨q.toNat, 16, 4⟩] := ⟨d.isLt, q.isLt, trivial⟩
  have em : fld W 26 6 = 0x28 := read_const hw ok ft (show apart 26 6 [(21, 5), (16, 4)] = true by decide +kernel) (by decide +kernel)
  have ej : fld W 5 6 = 5 := read_const hw ok ft (show apart 5 6 [(21, 5), (16, 4)] = true by decide +kernel) (by decide +kernel)
  have ez1 : fld W 20 1 = 0 := read_const hw ok ft (show apart 20 1 [(21, 5), (16, 4)] = true by decide +kernel) (by decide +kernel)
  have ez2 : fld W 0 5 = 0 := read_const hw ok ft (show apart 0 5 [(21, 5), (16, 4)] = true by decide +kernel) (by decide +kernel)
  have ez3 : fld W 11 5 = 0 := read_const hw ok ft (show apart 11 5 [(21, 5), (16, 4)] = true by decide +kernel) (by decide +kernel)
  have ef1 : bv 5 W 21 = d := read_bv hw ok ft (.head _)
  have ef2 : bv 4 W 16 = q := read_bv hw ok ft (.tail _ (.head _))
  refine ⟨hw ▸ pack_lt ok ft (show inWord [(21, 5), (16, 4)] = true by decide +kernel) (by decide +kernel), .core (.rhead d q), ?_, rfl⟩
  rw [decodeNat_28 W em, decRing]
  simp only [ej, ez1, ez2, ez3, ef1, ef2, zeros, List.all, beq_self_eq_true, Bool.and_self, if_true]

theorem RoundTrip.rtail (d : BitVec 5) (q : BitVec 4) : RoundTrip.Statement (.rtail d q) := by
  intro hwf W hw
  have hw : pack 0xA00000C0 (strip [⟨d.toNat, 21, 5⟩, ⟨q.toNat, 16, 4⟩]) = W := Option.some.inj hw
  have ok : laidOut 0xA00000C0 [(21, 5), (16, 4)] = true := by decide +kernel
  have ft : Fits [⟨d.toNat, 21, 5⟩, ⟨q.toNat, 16, 4⟩] := ⟨d.isLt, q.isLt, trivial⟩
  have em : fld W 26 6 = 0x28 := read_const hw ok ft (show apart 26 6 [(21, 5), (16, 4)] = true by decide +kernel) (by decide +kernel)
  have ej : fld W 5 6 = 6 := read_const hw ok ft (show apart 5 6 [(21, 5), (16, 4)] = true by decide +kernel) (by decide +kernel)
  have ez1 : fld W 20 1 = 0 := read_const hw ok ft (show apart 20 1 [(21, 5), (16, 4)] = true by decide +kernel) (by decide +kernel)
  have ez2 : fld W 0 5 = 0 := read_const hw ok ft (show apart 0 5 [(21, 5), (16, 4)] = true by decide +kernel) (by decide +kernel)
  have ez3 : fld W 11 5 = 0 := read_const hw ok ft (show apart 11 5 [(21, 5), (16, 4)] = true by decide +kernel) (by decide +kernel)
  have ef1 : bv 5 W 21 = d := read_bv hw ok ft (.head _)
  have ef2 : bv 4 W 16 = q := read_bv hw ok ft (.tail _ (.head _))
  refine ⟨hw ▸ pack_lt ok ft (show inWord [(21, 5), (16, 4)] = true by decide +kernel) (by decide +kernel), .core (.rtail d q), ?_, rfl⟩
  rw [decodeNat_28 W em, decRing]
  simp only [ej, ez1, ez2, ez3, ef1, ef2, zeros, List.all, beq_self_eq_true, Bool.and_self, if_true]

theorem RoundTrip.rbind (v : BitVec 4) (q : BitVec 4) (b : BitVec 5) : RoundTrip.Statement (.rbind v q b) := by
  intro hwf W hw
  have hw : pack 0xA00000E0 (strip [⟨v.toNat, 21, 4⟩, ⟨q.toNat, 16, 4⟩, ⟨b.toNat, 11, 5⟩]) = W := Option.some.inj hw
  have ok : laidOut 0xA00000E0 [(21, 4), (16, 4), (11, 5)] = true := by decide +kernel
  have ft : Fits [⟨v.toNat, 21, 4⟩, ⟨q.toNat, 16, 4⟩, ⟨b.toNat, 11, 5⟩] := ⟨v.isLt, q.isLt, b.isLt, trivial⟩
  have em : fld W 26 6 = 0x28 := read_const hw ok ft (show apart 26 6 [(21, 4), (16, 4), (11, 5)] = true by decide +kernel) (by decide +kernel)
  have ej : fld W 5 6 = 7 := read_const hw ok ft (show apart 5 6 [(21, 4), (16, 4), (11, 5)] = true by decide +kernel) (by decide +kernel)
  have ez1 : fld W 20 1 = 0 := read_const hw ok ft (show apart 20 1 [(21, 4), (16, 4), (11, 5)] = true by decide +kernel) (by decide +kernel)
  have ez2 : fld W 25 1 = 0 := read_const hw ok ft (show apart 25 1 [(21, 4), (16, 4), (11, 5)] = true by decide +kernel) (by decide +kernel)
  have ez3 : fld W 0 5 = 0 := read_const hw ok ft (show apart 0 5 [(21, 4), (16, 4), (11, 5)] = true by decide +kernel) (by decide +kernel)
  have ef1 : bv 4 W 21 = v := read_bv hw ok ft (.head _)
  have ef2 : bv 4 W 16 = q := read_bv hw ok ft (.tail _ (.head _))
  have ef3 : bv 5 W 11 = b := read_bv hw ok ft (.tail _ (.tail _ (.head _)))
  refine ⟨hw ▸ pack_lt ok ft (show inWord [(21, 4), (16, 4), (11, 5)] = true by decide +kernel) (by decide +kernel), .core (.rbind v q b), ?_, rfl⟩
  rw [decodeNat_28 W em, decRing]
  simp only [ej, ez1, ez2, ez3, ef1, ef2, ef3, zeros, List.all, beq_self_eq_true, Bool.and_self, if_true]

theorem RoundTrip.runbind (v : BitVec 4) : RoundTrip.Statement (.runbind v) := by
  intro hwf W hw
  have hw : pack 0xA0000100 (strip [⟨v.toNat, 21, 4⟩]) = W := Option.some.inj hw
  have ok : laidOut 0xA0000100 [(21, 4)] = true := by decide +kernel
  have ft : Fits [⟨v.toNat, 21, 4⟩] := ⟨v.isLt, trivial⟩
  have em : fld W 26 6 = 0x28 := read_const hw ok ft (show apart 26 6 [(21, 4)] = true by decide +kernel) (by decide +kernel)
  have ej : fld W 5 6 = 8 := read_const hw ok ft (show apart 5 6 [(21, 4)] = true by decide +kernel) (by decide +kernel)
  have ez1 : fld W 25 1 = 0 := read_const hw ok ft (show apart 25 1 [(21, 4)] = true by decide +kernel) (by decide +kernel)
  have ez2 : fld W 0 5 = 0 := read_const hw ok ft (show apart 0 5 [(21, 4)] = true by decide +kernel) (by decide +kernel)
  have ez3 : fld W 11 10 = 0 := read_const hw ok ft (show apart 11 10 [(21, 4)] = true by decide +kernel) (by decide +kernel)
  have ef1 : bv 4 W 21 = v := read_bv hw ok ft (.head _)
  refine ⟨hw ▸ pack_lt ok ft (show inWord [(21, 4)] = true by decide +kernel) (by decide +kernel), .core (.runbind v), ?_, rfl⟩
  rw [decodeNat_28 W em, decRing]
  simp only [ej, ez1, ez2, ez3, ef1, zeros, List.all, beq_self_eq_true, Bool.and_self, if_true]

theorem RoundTrip.copy (k : BitVec 5) (s : BitVec 5) (d : BitVec 5) (p : BitVec 5) (x : Xf) : RoundTrip.Statement (.copy k s d p x) := by
  intro hwf W hw
  have hw : pack 0xA4000000 (strip [⟨k.toNat, 21, 5⟩, ⟨s.toNat, 16, 5⟩, ⟨d.toNat, 11, 5⟩, ⟨p.toNat, 6, 5⟩, ⟨x.code, 0, 4⟩]) = W := Option.some.inj hw
  have ok : laidOut 0xA4000000 [(21, 5), (16, 5), (11, 5), (6, 5), (0, 4)] = true := by decide +kernel
  have ft : Fits [⟨k.toNat, 21, 5⟩, ⟨s.toNat, 16, 5⟩, ⟨d.toNat, 11, 5⟩, ⟨p.toNat, 6, 5⟩, ⟨x.code, 0, 4⟩] := ⟨k.isLt, s.isLt, d.isLt, p.isLt, x.code_lt, trivial⟩
  have em : fld W 26 6 = 0x29 := read_const hw ok ft (show apart 26 6 [(21, 5), (16, 5), (11, 5), (6, 5), (0, 4)] = true by decide +kernel) (by decide +kernel)
  have ej : fld W 4 2 = 0 := read_const hw ok ft (show apart 4 2 [(21, 5), (16, 5), (11, 5), (6, 5), (0, 4)] = true by decide +kernel) (by decide +kernel)
  have ef1 : bv 5 W 21 = k := read_bv hw ok ft (.head _)
  have ef2 : bv 5 W 16 = s := read_bv hw ok ft (.tail _ (.head _))
  have ef3 : bv 5 W 11 = d := read_bv hw ok ft (.tail _ (.tail _ (.head _)))
  have ef4 : bv 5 W 6 = p := read_bv hw ok ft (.tail _ (.tail _ (.tail _ (.head _))))
  have ef5 : Xf.ofCode (fld W 0 4) = some x := Xf.of_code (read_code hw ok ft (.tail _ (.tail _ (.tail _ (.tail _ (.head _))))))
  refine ⟨hw ▸ pack_lt ok ft (show inWord [(21, 5), (16, 5), (11, 5), (6, 5), (0, 4)] = true by decide +kernel) (by decide +kernel), .core (.copy k s d p x), ?_, rfl⟩
  rw [decodeNat_29 W em, decCopy]
  simp only [ej, ef1, ef2, ef3, ef4, ef5, opt]

theorem RoundTrip.copyg (k : BitVec 5) (s : BitVec 5) (d : BitVec 5) (p : BitVec 5) (x : Xf) : RoundTrip.Statement (.copyg k s d p x) := by
  intro hwf W hw
  have hw : pack 0xA4000010 (strip [⟨k.toNat, 21, 5⟩, ⟨s.toNat, 16, 5⟩, ⟨d.toNat, 11, 5⟩, ⟨p.toNat, 6, 5⟩, ⟨x.code, 0, 4⟩]) = W := Option.some.inj hw
  have ok : laidOut 0xA4000010 [(21, 5), (16, 5), (11, 5), (6, 5), (0, 4)] = true := by decide +kernel
  have ft : Fits [⟨k.toNat, 21, 5⟩, ⟨s.toNat, 16, 5⟩, ⟨d.toNat, 11, 5⟩, ⟨p.toNat, 6, 5⟩, ⟨x.code, 0, 4⟩] := ⟨k.isLt, s.isLt, d.isLt, p.isLt, x.code_lt, trivial⟩
  have em : fld W 26 6 = 0x29 := read_const hw ok ft (show apart 26 6 [(21, 5), (16, 5), (11, 5), (6, 5), (0, 4)] = true by decide +kernel) (by decide +kernel)
  have ej : fld W 4 2 = 1 := read_const hw ok ft (show apart 4 2 [(21, 5), (16, 5), (11, 5), (6, 5), (0, 4)] = true by decide +kernel) (by decide +kernel)
  have ef1 : bv 5 W 21 = k := read_bv hw ok ft (.head _)
  have ef2 : bv 5 W 16 = s := read_bv hw ok ft (.tail _ (.head _))
  have ef3 : bv 5 W 11 = d := read_bv hw ok ft (.tail _ (.tail _ (.head _)))
  have ef4 : bv 5 W 6 = p := read_bv hw ok ft (.tail _ (.tail _ (.tail _ (.head _))))
  have ef5 : Xf.ofCode (fld W 0 4) = some x := Xf.of_code (read_code hw ok ft (.tail _ (.tail _ (.tail _ (.tail _ (.head _))))))
  refine ⟨hw ▸ pack_lt ok ft (show inWord [(21, 5), (16, 5), (11, 5), (6, 5), (0, 4)] = true by decide +kernel) (by decide +kernel), .core (.copyg k s d p x), ?_, rfl⟩
  rw [decodeNat_29 W em, decCopy]
  simp only [ej, ef1, ef2, ef3, ef4, ef5, opt]

theorem RoundTrip.copys (k : BitVec 5) (s : BitVec 5) (d : BitVec 5) (p : BitVec 5) (x : Xf) : RoundTrip.Statement (.copys k s d p x) := by
  intro hwf W hw
  have hw : pack 0xA4000020 (strip [⟨k.toNat, 21, 5⟩, ⟨s.toNat, 16, 5⟩, ⟨d.toNat, 11, 5⟩, ⟨p.toNat, 6, 5⟩, ⟨x.code, 0, 4⟩]) = W := Option.some.inj hw
  have ok : laidOut 0xA4000020 [(21, 5), (16, 5), (11, 5), (6, 5), (0, 4)] = true := by decide +kernel
  have ft : Fits [⟨k.toNat, 21, 5⟩, ⟨s.toNat, 16, 5⟩, ⟨d.toNat, 11, 5⟩, ⟨p.toNat, 6, 5⟩, ⟨x.code, 0, 4⟩] := ⟨k.isLt, s.isLt, d.isLt, p.isLt, x.code_lt, trivial⟩
  have em : fld W 26 6 = 0x29 := read_const hw ok ft (show apart 26 6 [(21, 5), (16, 5), (11, 5), (6, 5), (0, 4)] = true by decide +kernel) (by decide +kernel)
  have ej : fld W 4 2 = 2 := read_const hw ok ft (show apart 4 2 [(21, 5), (16, 5), (11, 5), (6, 5), (0, 4)] = true by decide +kernel) (by decide +kernel)
  have ef1 : bv 5 W 21 = k := read_bv hw ok ft (.head _)
  have ef2 : bv 5 W 16 = s := read_bv hw ok ft (.tail _ (.head _))
  have ef3 : bv 5 W 11 = d := read_bv hw ok ft (.tail _ (.tail _ (.head _)))
  have ef4 : bv 5 W 6 = p := read_bv hw ok ft (.tail _ (.tail _ (.tail _ (.head _))))
  have ef5 : Xf.ofCode (fld W 0 4) = some x := Xf.of_code (read_code hw ok ft (.tail _ (.tail _ (.tail _ (.tail _ (.head _))))))
  refine ⟨hw ▸ pack_lt ok ft (show inWord [(21, 5), (16, 5), (11, 5), (6, 5), (0, 4)] = true by decide +kernel) (by decide +kernel), .core (.copys k s d p x), ?_, rfl⟩
  rw [decodeNat_29 W em, decCopy]
  simp only [ej, ef1, ef2, ef3, ef4, ef5, opt]

theorem RoundTrip.copyw (k : BitVec 5) (s : BitVec 5) (d : BitVec 5) (p : BitVec 5) (x : Xf) : RoundTrip.Statement (.copyw k s d p x) := by
  intro hwf W hw
  have hw : pack 0xA4000030 (strip [⟨k.toNat, 21, 5⟩, ⟨s.toNat, 16, 5⟩, ⟨d.toNat, 11, 5⟩, ⟨p.toNat, 6, 5⟩, ⟨x.code, 0, 4⟩]) = W := Option.some.inj hw
  have ok : laidOut 0xA4000030 [(21, 5), (16, 5), (11, 5), (6, 5), (0, 4)] = true := by decide +kernel
  have ft : Fits [⟨k.toNat, 21, 5⟩, ⟨s.toNat, 16, 5⟩, ⟨d.toNat, 11, 5⟩, ⟨p.toNat, 6, 5⟩, ⟨x.code, 0, 4⟩] := ⟨k.isLt, s.isLt, d.isLt, p.isLt, x.code_lt, trivial⟩
  have em : fld W 26 6 = 0x29 := read_const hw ok ft (show apart 26 6 [(21, 5), (16, 5), (11, 5), (6, 5), (0, 4)] = true by decide +kernel) (by decide +kernel)
  have ej : fld W 4 2 = 3 := read_const hw ok ft (show apart 4 2 [(21, 5), (16, 5), (11, 5), (6, 5), (0, 4)] = true by decide +kernel) (by decide +kernel)
  have ef1 : bv 5 W 21 = k := read_bv hw ok ft (.head _)
  have ef2 : bv 5 W 16 = s := read_bv hw ok ft (.tail _ (.head _))
  have ef3 : bv 5 W 11 = d := read_bv hw ok ft (.tail _ (.tail _ (.head _)))
  have ef4 : bv 5 W 6 = p := read_bv hw ok ft (.tail _ (.tail _ (.tail _ (.head _))))
  have ef5 : Xf.ofCode (fld W 0 4) = some x := Xf.of_code (read_code hw ok ft (.tail _ (.tail _ (.tail _ (.tail _ (.head _))))))
  refine ⟨hw ▸ pack_lt ok ft (show inWord [(21, 5), (16, 5), (11, 5), (6, 5), (0, 4)] = true by decide +kernel) (by decide +kernel), .core (.copyw k s d p x), ?_, rfl⟩
  rw [decodeNat_29 W em, decCopy]
  simp only [ej, ef1, ef2, ef3, ef4, ef5, opt]

theorem RoundTrip.bget (d : BitVec 5) (n : BitVec 5) : RoundTrip.Statement (.bget d n) := by
  intro hwf W hw
  have hw : pack 0xA8000000 (strip [⟨d.toNat, 21, 5⟩, ⟨n.toNat, 0, 5⟩]) = W := Option.some.inj hw
  have ok : laidOut 0xA8000000 [(21, 5), (0, 5)] = true := by decide +kernel
  have ft : Fits [⟨d.toNat, 21, 5⟩, ⟨n.toNat, 0, 5⟩] := ⟨d.isLt, n.isLt, trivial⟩
  have em : fld W 26 6 = 0x2A := read_const hw ok ft (show apart 26 6 [(21, 5), (0, 5)] = true by decide +kernel) (by decide +kernel)
  have ej : fld W 5 6 = 0 := read_const hw ok ft (show apart 5 6 [(21, 5), (0, 5)] = true by decide +kernel) (by decide +kernel)
  have ez1 : fld W 11 10 = 0 := read_const hw ok ft (show apart 11 10 [(21, 5), (0, 5)] = true by decide +kernel) (by decide +kernel)
  have ef1 : bv 5 W 21 = d := read_bv hw ok ft (.head _)
  have ef2 : bv 5 W 0 = n := read_bv hw ok ft (.tail _ (.head _))
  refine ⟨hw ▸ pack_lt ok ft (show inWord [(21, 5), (0, 5)] = true by decide +kernel) (by decide +kernel), .core (.bget d n), ?_, rfl⟩
  rw [decodeNat_2a W em, decBits]
  simp only [ej, ez1, ef1, ef2, zeros, List.all, beq_self_eq_true, Bool.and_self, if_true]

theorem RoundTrip.bpeek (d : BitVec 5) (n : BitVec 5) : RoundTrip.Statement (.bpeek d n) := by
  intro hwf W hw
  have hw : pack 0xA8000020 (strip [⟨d.toNat, 21, 5⟩, ⟨n.toNat, 0, 5⟩]) = W := Option.some.inj hw
  have ok : laidOut 0xA8000020 [(21, 5), (0, 5)] = true := by decide +kernel
  have ft : Fits [⟨d.toNat, 21, 5⟩, ⟨n.toNat, 0, 5⟩] := ⟨d.isLt, n.isLt, trivial⟩
  have em : fld W 26 6 = 0x2A := read_const hw ok ft (show apart 26 6 [(21, 5), (0, 5)] = true by decide +kernel) (by decide +kernel)
  have ej : fld W 5 6 = 1 := read_const hw ok ft (show apart 5 6 [(21, 5), (0, 5)] = true by decide +kernel) (by decide +kernel)
  have ez1 : fld W 11 10 = 0 := read_const hw ok ft (show apart 11 10 [(21, 5), (0, 5)] = true by decide +kernel) (by decide +kernel)
  have ef1 : bv 5 W 21 = d := read_bv hw ok ft (.head _)
  have ef2 : bv 5 W 0 = n := read_bv hw ok ft (.tail _ (.head _))
  refine ⟨hw ▸ pack_lt ok ft (show inWord [(21, 5), (0, 5)] = true by decide +kernel) (by decide +kernel), .core (.bpeek d n), ?_, rfl⟩
  rw [decodeNat_2a W em, decBits]
  simp only [ej, ez1, ef1, ef2, zeros, List.all, beq_self_eq_true, Bool.and_self, if_true]

theorem RoundTrip.bskip (a : BitVec 5) : RoundTrip.Statement (.bskip a) := by
  intro hwf W hw
  have hw : pack 0xA8000040 (strip [⟨a.toNat, 16, 5⟩]) = W := Option.some.inj hw
  have ok : laidOut 0xA8000040 [(16, 5)] = true := by decide +kernel
  have ft : Fits [⟨a.toNat, 16, 5⟩] := ⟨a.isLt, trivial⟩
  have em : fld W 26 6 = 0x2A := read_const hw ok ft (show apart 26 6 [(16, 5)] = true by decide +kernel) (by decide +kernel)
  have ej : fld W 5 6 = 2 := read_const hw ok ft (show apart 5 6 [(16, 5)] = true by decide +kernel) (by decide +kernel)
  have ez1 : fld W 0 5 = 0 := read_const hw ok ft (show apart 0 5 [(16, 5)] = true by decide +kernel) (by decide +kernel)
  have ez2 : fld W 11 5 = 0 := read_const hw ok ft (show apart 11 5 [(16, 5)] = true by decide +kernel) (by decide +kernel)
  have ez3 : fld W 21 5 = 0 := read_const hw ok ft (show apart 21 5 [(16, 5)] = true by decide +kernel) (by decide +kernel)
  have ef1 : bv 5 W 16 = a := read_bv hw ok ft (.head _)
  refine ⟨hw ▸ pack_lt ok ft (show inWord [(16, 5)] = true by decide +kernel) (by decide +kernel), .core (.bskip a), ?_, rfl⟩
  rw [decodeNat_2a W em, decBits]
  simp only [ej, ez1, ez2, ez3, ef1, zeros, List.all, beq_self_eq_true, Bool.and_self, if_true]

theorem RoundTrip.bput (a : BitVec 5) (n : BitVec 5) : RoundTrip.Statement (.bput a n) := by
  intro hwf W hw
  have hw : pack 0xA8000080 (strip [⟨a.toNat, 16, 5⟩, ⟨n.toNat, 0, 5⟩]) = W := Option.some.inj hw
  have ok : laidOut 0xA8000080 [(16, 5), (0, 5)] = true := by decide +kernel
  have ft : Fits [⟨a.toNat, 16, 5⟩, ⟨n.toNat, 0, 5⟩] := ⟨a.isLt, n.isLt, trivial⟩
  have em : fld W 26 6 = 0x2A := read_const hw ok ft (show apart 26 6 [(16, 5), (0, 5)] = true by decide +kernel) (by decide +kernel)
  have ej : fld W 5 6 = 4 := read_const hw ok ft (show apart 5 6 [(16, 5), (0, 5)] = true by decide +kernel) (by decide +kernel)
  have ez1 : fld W 11 5 = 0 := read_const hw ok ft (show apart 11 5 [(16, 5), (0, 5)] = true by decide +kernel) (by decide +kernel)
  have ez2 : fld W 21 5 = 0 := read_const hw ok ft (show apart 21 5 [(16, 5), (0, 5)] = true by decide +kernel) (by decide +kernel)
  have ef1 : bv 5 W 16 = a := read_bv hw ok ft (.head _)
  have ef2 : bv 5 W 0 = n := read_bv hw ok ft (.tail _ (.head _))
  refine ⟨hw ▸ pack_lt ok ft (show inWord [(16, 5), (0, 5)] = true by decide +kernel) (by decide +kernel), .core (.bput a n), ?_, rfl⟩
  rw [decodeNat_2a W em, decBits]
  simp only [ej, ez1, ez2, ef1, ef2, zeros, List.all, beq_self_eq_true, Bool.and_self, if_true]

theorem RoundTrip.bflush (d : BitVec 5) : RoundTrip.Statement (.bflush d) := by
  intro hwf W hw
  have hw : pack 0xA80000A0 (strip [⟨d.toNat, 21, 5⟩]) = W := Option.some.inj hw
  have ok : laidOut 0xA80000A0 [(21, 5)] = true := by decide +kernel
  have ft : Fits [⟨d.toNat, 21, 5⟩] := ⟨d.isLt, trivial⟩
  have em : fld W 26 6 = 0x2A := read_const hw ok ft (show apart 26 6 [(21, 5)] = true by decide +kernel) (by decide +kernel)
  have ej : fld W 5 6 = 5 := read_const hw ok ft (show apart 5 6 [(21, 5)] = true by decide +kernel) (by decide +kernel)
  have ez1 : fld W 0 5 = 0 := read_const hw ok ft (show apart 0 5 [(21, 5)] = true by decide +kernel) (by decide +kernel)
  have ez2 : fld W 11 10 = 0 := read_const hw ok ft (show apart 11 10 [(21, 5)] = true by decide +kernel) (by decide +kernel)
  have ef1 : bv 5 W 21 = d := read_bv hw ok ft (.head _)
  refine ⟨hw ▸ pack_lt ok ft (show inWord [(21, 5)] = true by decide +kernel) (by decide +kernel), .core (.bflush d), ?_, rfl⟩
  rw [decodeNat_2a W em, decBits]
  simp only [ej, ez1, ez2, ef1, zeros, List.all, beq_self_eq_true, Bool.and_self, if_true]

theorem RoundTrip.bhuf (d : BitVec 5) (a : BitVec 5) : RoundTrip.Statement (.bhuf d a) := by
  intro hwf W hw
  have hw : pack 0xA80000C0 (strip [⟨d.toNat, 21, 5⟩, ⟨a.toNat, 16, 5⟩]) = W := Option.some.inj hw
  have ok : laidOut 0xA80000C0 [(21, 5), (16, 5)] = true := by decide +kernel
  have ft : Fits [⟨d.toNat, 21, 5⟩, ⟨a.toNat, 16, 5⟩] := ⟨d.isLt, a.isLt, trivial⟩
  have em : fld W 26 6 = 0x2A := read_const hw ok ft (show apart 26 6 [(21, 5), (16, 5)] = true by decide +kernel) (by decide +kernel)
  have ej : fld W 5 6 = 6 := read_const hw ok ft (show apart 5 6 [(21, 5), (16, 5)] = true by decide +kernel) (by decide +kernel)
  have ez1 : fld W 0 5 = 0 := read_const hw ok ft (show apart 0 5 [(21, 5), (16, 5)] = true by decide +kernel) (by decide +kernel)
  have ez2 : fld W 11 5 = 0 := read_const hw ok ft (show apart 11 5 [(21, 5), (16, 5)] = true by decide +kernel) (by decide +kernel)
  have ef1 : bv 5 W 21 = d := read_bv hw ok ft (.head _)
  have ef2 : bv 5 W 16 = a := read_bv hw ok ft (.tail _ (.head _))
  refine ⟨hw ▸ pack_lt ok ft (show inWord [(21, 5), (16, 5)] = true by decide +kernel) (by decide +kernel), .core (.bhuf d a), ?_, rfl⟩
  rw [decodeNat_2a W em, decBits]
  simp only [ej, ez1, ez2, ef1, ef2, zeros, List.all, beq_self_eq_true, Bool.and_self, if_true]

theorem RoundTrip.blzc (d : BitVec 5) : RoundTrip.Statement (.blzc d) := by
  intro hwf W hw
  have hw : pack 0xA80000E0 (strip [⟨d.toNat, 21, 5⟩]) = W := Option.some.inj hw
  have ok : laidOut 0xA80000E0 [(21, 5)] = true := by decide +kernel
  have ft : Fits [⟨d.toNat, 21, 5⟩] := ⟨d.isLt, trivial⟩
  have em : fld W 26 6 = 0x2A := read_const hw ok ft (show apart 26 6 [(21, 5)] = true by decide +kernel) (by decide +kernel)
  have ej : fld W 5 6 = 7 := read_const hw ok ft (show apart 5 6 [(21, 5)] = true by decide +kernel) (by decide +kernel)
  have ez1 : fld W 0 5 = 0 := read_const hw ok ft (show apart 0 5 [(21, 5)] = true by decide +kernel) (by decide +kernel)
  have ez2 : fld W 11 10 = 0 := read_const hw ok ft (show apart 11 10 [(21, 5)] = true by decide +kernel) (by decide +kernel)
  have ef1 : bv 5 W 21 = d := read_bv hw ok ft (.head _)
  refine ⟨hw ▸ pack_lt ok ft (show inWord [(21, 5)] = true by decide +kernel) (by decide +kernel), .core (.blzc d), ?_, rfl⟩
  rw [decodeNat_2a W em, decBits]
  simp only [ej, ez1, ez2, ef1, zeros, List.all, beq_self_eq_true, Bool.and_self, if_true]

theorem RoundTrip.bnext (d : BitVec 5) : RoundTrip.Statement (.bnext d) := by
  intro hwf W hw
  have hw : pack 0xA8000100 (strip [⟨d.toNat, 21, 5⟩]) = W := Option.some.inj hw
  have ok : laidOut 0xA8000100 [(21, 5)] = true := by decide +kernel
  have ft : Fits [⟨d.toNat, 21, 5⟩] := ⟨d.isLt, trivial⟩
  have em : fld W 26 6 = 0x2A := read_const hw ok ft (show apart 26 6 [(21, 5)] = true by decide +kernel) (by decide +kernel)
  have ej : fld W 5 6 = 8 := read_const hw ok ft (show apart 5 6 [(21, 5)] = true by decide +kernel) (by decide +kernel)
  have ez1 : fld W 0 5 = 0 := read_const hw ok ft (show apart 0 5 [(21, 5)] = true by decide +kernel) (by decide +kernel)
  have ez2 : fld W 11 10 = 0 := read_const hw ok ft (show apart 11 10 [(21, 5)] = true by decide +kernel) (by decide +kernel)
  have ef1 : bv 5 W 21 = d := read_bv hw ok ft (.head _)
  refine ⟨hw ▸ pack_lt ok ft (show inWord [(21, 5)] = true by decide +kernel) (by decide +kernel), .core (.bnext d), ?_, rfl⟩
  rw [decodeNat_2a W em, decBits]
  simp only [ej, ez1, ez2, ef1, zeros, List.all, beq_self_eq_true, Bool.and_self, if_true]

theorem RoundTrip.bfail (a : BitVec 5) : RoundTrip.Statement (.bfail a) := by
  intro hwf W hw
  have hw : pack 0xA8000120 (strip [⟨a.toNat, 16, 5⟩]) = W := Option.some.inj hw
  have ok : laidOut 0xA8000120 [(16, 5)] = true := by decide +kernel
  have ft : Fits [⟨a.toNat, 16, 5⟩] := ⟨a.isLt, trivial⟩
  have em : fld W 26 6 = 0x2A := read_const hw ok ft (show apart 26 6 [(16, 5)] = true by decide +kernel) (by decide +kernel)
  have ej : fld W 5 6 = 9 := read_const hw ok ft (show apart 5 6 [(16, 5)] = true by decide +kernel) (by decide +kernel)
  have ez1 : fld W 0 5 = 0 := read_const hw ok ft (show apart 0 5 [(16, 5)] = true by decide +kernel) (by decide +kernel)
  have ez2 : fld W 11 5 = 0 := read_const hw ok ft (show apart 11 5 [(16, 5)] = true by decide +kernel) (by decide +kernel)
  have ez3 : fld W 21 5 = 0 := read_const hw ok ft (show apart 21 5 [(16, 5)] = true by decide +kernel) (by decide +kernel)
  have ef1 : bv 5 W 16 = a := read_bv hw ok ft (.head _)
  refine ⟨hw ▸ pack_lt ok ft (show inWord [(16, 5)] = true by decide +kernel) (by decide +kernel), .core (.bfail a), ?_, rfl⟩
  rw [decodeNat_2a W em, decBits]
  simp only [ej, ez1, ez2, ez3, ef1, zeros, List.all, beq_self_eq_true, Bool.and_self, if_true]

theorem RoundTrip.mma (c : BitVec 2) (a : BitVec 4) (b : BitVec 4) (s : BitVec 5) (n : Bool) (e : Bool) (z : Bool) (g : Bool) (r : Bool) (k : Bool) (j : Bool) (t : Bool) : RoundTrip.Statement (.mma c a b s n e z g r k j t) := by
  intro hwf W hw
  have hw : pack 0xC0000000 (strip [⟨c.toNat, 24, 2⟩, ⟨a.toNat, 20, 4⟩, ⟨b.toNat, 16, 4⟩, ⟨s.toNat, 11, 5⟩, ⟨n.toNat, 7, 1⟩, ⟨e.toNat, 6, 1⟩, ⟨z.toNat, 5, 1⟩, ⟨g.toNat, 4, 1⟩, ⟨r.toNat, 3, 1⟩, ⟨k.toNat, 2, 1⟩, ⟨j.toNat, 1, 1⟩, ⟨t.toNat, 0, 1⟩]) = W := Option.some.inj hw
  have ok : laidOut 0xC0000000 [(24, 2), (20, 4), (16, 4), (11, 5), (7, 1), (6, 1), (5, 1), (4, 1), (3, 1), (2, 1), (1, 1), (0, 1)] = true := by decide +kernel
  have ft : Fits [⟨c.toNat, 24, 2⟩, ⟨a.toNat, 20, 4⟩, ⟨b.toNat, 16, 4⟩, ⟨s.toNat, 11, 5⟩, ⟨n.toNat, 7, 1⟩, ⟨e.toNat, 6, 1⟩, ⟨z.toNat, 5, 1⟩, ⟨g.toNat, 4, 1⟩, ⟨r.toNat, 3, 1⟩, ⟨k.toNat, 2, 1⟩, ⟨j.toNat, 1, 1⟩, ⟨t.toNat, 0, 1⟩] := ⟨c.isLt, a.isLt, b.isLt, s.isLt, n.toNat_lt, e.toNat_lt, z.toNat_lt, g.toNat_lt, r.toNat_lt, k.toNat_lt, j.toNat_lt, t.toNat_lt, trivial⟩
  have em : fld W 26 6 = 0x30 := read_const hw ok ft (show apart 26 6 [(24, 2), (20, 4), (16, 4), (11, 5), (7, 1), (6, 1), (5, 1), (4, 1), (3, 1), (2, 1), (1, 1), (0, 1)] = true by decide +kernel) (by decide +kernel)
  have ej : fld W 8 3 = 0 := read_const hw ok ft (show apart 8 3 [(24, 2), (20, 4), (16, 4), (11, 5), (7, 1), (6, 1), (5, 1), (4, 1), (3, 1), (2, 1), (1, 1), (0, 1)] = true by decide +kernel) (by decide +kernel)
  have ef1 : bv 2 W 24 = c := read_bv hw ok ft (.head _)
  have ef2 : bv 4 W 20 = a := read_bv hw ok ft (.tail _ (.head _))
  have ef3 : bv 4 W 16 = b := read_bv hw ok ft (.tail _ (.tail _ (.head _)))
  have ef4 : bv 5 W 11 = s := read_bv hw ok ft (.tail _ (.tail _ (.tail _ (.head _))))
  have ef5 : flag W 7 = n := read_flag hw ok ft (.tail _ (.tail _ (.tail _ (.tail _ (.head _)))))
  have ef6 : flag W 6 = e := read_flag hw ok ft (.tail _ (.tail _ (.tail _ (.tail _ (.tail _ (.head _))))))
  have ef7 : flag W 5 = z := read_flag hw ok ft (.tail _ (.tail _ (.tail _ (.tail _ (.tail _ (.tail _ (.head _)))))))
  have ef8 : flag W 4 = g := read_flag hw ok ft (.tail _ (.tail _ (.tail _ (.tail _ (.tail _ (.tail _ (.tail _ (.head _))))))))
  have ef9 : flag W 3 = r := read_flag hw ok ft (.tail _ (.tail _ (.tail _ (.tail _ (.tail _ (.tail _ (.tail _ (.tail _ (.head _)))))))))
  have ef10 : flag W 2 = k := read_flag hw ok ft (.tail _ (.tail _ (.tail _ (.tail _ (.tail _ (.tail _ (.tail _ (.tail _ (.tail _ (.head _))))))))))
  have ef11 : flag W 1 = j := read_flag hw ok ft (.tail _ (.tail _ (.tail _ (.tail _ (.tail _ (.tail _ (.tail _ (.tail _ (.tail _ (.tail _ (.head _)))))))))))
  have ef12 : flag W 0 = t := read_flag hw ok ft (.tail _ (.tail _ (.tail _ (.tail _ (.tail _ (.tail _ (.tail _ (.tail _ (.tail _ (.tail _ (.tail _ (.head _))))))))))))
  refine ⟨hw ▸ pack_lt ok ft (show inWord [(24, 2), (20, 4), (16, 4), (11, 5), (7, 1), (6, 1), (5, 1), (4, 1), (3, 1), (2, 1), (1, 1), (0, 1)] = true by decide +kernel) (by decide +kernel), .core (.mma c a b s n e z g r k j t), ?_, rfl⟩
  rw [decodeNat_30 W em, decMma]
  simp only [ej, ef1, ef2, ef3, ef4, ef5, ef6, ef7, ef8, ef9, ef10, ef11, ef12]

theorem RoundTrip.mmaj (c : BitVec 2) (a : BitVec 4) (b : BitVec 4) (s : BitVec 5) (n : Bool) (e : Bool) (z : Bool) (g : Bool) (r : Bool) (k : Bool) (j : Bool) (t : Bool) : RoundTrip.Statement (.mmaj c a b s n e z g r k j t) := by
  intro hwf W hw
  have hw : pack 0xC0000100 (strip [⟨c.toNat, 24, 2⟩, ⟨a.toNat, 20, 4⟩, ⟨b.toNat, 16, 4⟩, ⟨s.toNat, 11, 5⟩, ⟨n.toNat, 7, 1⟩, ⟨e.toNat, 6, 1⟩, ⟨z.toNat, 5, 1⟩, ⟨g.toNat, 4, 1⟩, ⟨r.toNat, 3, 1⟩, ⟨k.toNat, 2, 1⟩, ⟨j.toNat, 1, 1⟩, ⟨t.toNat, 0, 1⟩]) = W := Option.some.inj hw
  have ok : laidOut 0xC0000100 [(24, 2), (20, 4), (16, 4), (11, 5), (7, 1), (6, 1), (5, 1), (4, 1), (3, 1), (2, 1), (1, 1), (0, 1)] = true := by decide +kernel
  have ft : Fits [⟨c.toNat, 24, 2⟩, ⟨a.toNat, 20, 4⟩, ⟨b.toNat, 16, 4⟩, ⟨s.toNat, 11, 5⟩, ⟨n.toNat, 7, 1⟩, ⟨e.toNat, 6, 1⟩, ⟨z.toNat, 5, 1⟩, ⟨g.toNat, 4, 1⟩, ⟨r.toNat, 3, 1⟩, ⟨k.toNat, 2, 1⟩, ⟨j.toNat, 1, 1⟩, ⟨t.toNat, 0, 1⟩] := ⟨c.isLt, a.isLt, b.isLt, s.isLt, n.toNat_lt, e.toNat_lt, z.toNat_lt, g.toNat_lt, r.toNat_lt, k.toNat_lt, j.toNat_lt, t.toNat_lt, trivial⟩
  have em : fld W 26 6 = 0x30 := read_const hw ok ft (show apart 26 6 [(24, 2), (20, 4), (16, 4), (11, 5), (7, 1), (6, 1), (5, 1), (4, 1), (3, 1), (2, 1), (1, 1), (0, 1)] = true by decide +kernel) (by decide +kernel)
  have ej : fld W 8 3 = 1 := read_const hw ok ft (show apart 8 3 [(24, 2), (20, 4), (16, 4), (11, 5), (7, 1), (6, 1), (5, 1), (4, 1), (3, 1), (2, 1), (1, 1), (0, 1)] = true by decide +kernel) (by decide +kernel)
  have ef1 : bv 2 W 24 = c := read_bv hw ok ft (.head _)
  have ef2 : bv 4 W 20 = a := read_bv hw ok ft (.tail _ (.head _))
  have ef3 : bv 4 W 16 = b := read_bv hw ok ft (.tail _ (.tail _ (.head _)))
  have ef4 : bv 5 W 11 = s := read_bv hw ok ft (.tail _ (.tail _ (.tail _ (.head _))))
  have ef5 : flag W 7 = n := read_flag hw ok ft (.tail _ (.tail _ (.tail _ (.tail _ (.head _)))))
  have ef6 : flag W 6 = e := read_flag hw ok ft (.tail _ (.tail _ (.tail _ (.tail _ (.tail _ (.head _))))))
  have ef7 : flag W 5 = z := read_flag hw ok ft (.tail _ (.tail _ (.tail _ (.tail _ (.tail _ (.tail _ (.head _)))))))
  have ef8 : flag W 4 = g := read_flag hw ok ft (.tail _ (.tail _ (.tail _ (.tail _ (.tail _ (.tail _ (.tail _ (.head _))))))))
  have ef9 : flag W 3 = r := read_flag hw ok ft (.tail _ (.tail _ (.tail _ (.tail _ (.tail _ (.tail _ (.tail _ (.tail _ (.head _)))))))))
  have ef10 : flag W 2 = k := read_flag hw ok ft (.tail _ (.tail _ (.tail _ (.tail _ (.tail _ (.tail _ (.tail _ (.tail _ (.tail _ (.head _))))))))))
  have ef11 : flag W 1 = j := read_flag hw ok ft (.tail _ (.tail _ (.tail _ (.tail _ (.tail _ (.tail _ (.tail _ (.tail _ (.tail _ (.tail _ (.head _)))))))))))
  have ef12 : flag W 0 = t := read_flag hw ok ft (.tail _ (.tail _ (.tail _ (.tail _ (.tail _ (.tail _ (.tail _ (.tail _ (.tail _ (.tail _ (.tail _ (.head _))))))))))))
  refine ⟨hw ▸ pack_lt ok ft (show inWord [(24, 2), (20, 4), (16, 4), (11, 5), (7, 1), (6, 1), (5, 1), (4, 1), (3, 1), (2, 1), (1, 1), (0, 1)] = true by decide +kernel) (by decide +kernel), .core (.mmaj c a b s n e z g r k j t), ?_, rfl⟩
  rw [decodeNat_30 W em, decMma]
  simp only [ej, ef1, ef2, ef3, ef4, ef5, ef6, ef7, ef8, ef9, ef10, ef11, ef12]

theorem RoundTrip.mmas (c : BitVec 2) (a : BitVec 4) (s : BitVec 5) (n : Bool) (z : Bool) (g : Bool) (r : Bool) (k : Bool) (t : Bool) : RoundTrip.Statement (.mmas c a s n z g r k t) := by
  intro hwf W hw
  have hw : pack 0xC0000200 (strip [⟨c.toNat, 24, 2⟩, ⟨a.toNat, 20, 4⟩, ⟨s.toNat, 11, 5⟩, ⟨n.toNat, 7, 1⟩, ⟨z.toNat, 5, 1⟩, ⟨g.toNat, 4, 1⟩, ⟨r.toNat, 3, 1⟩, ⟨k.toNat, 2, 1⟩, ⟨t.toNat, 0, 1⟩]) = W := Option.some.inj hw
  have ok : laidOut 0xC0000200 [(24, 2), (20, 4), (11, 5), (7, 1), (5, 1), (4, 1), (3, 1), (2, 1), (0, 1)] = true := by decide +kernel
  have ft : Fits [⟨c.toNat, 24, 2⟩, ⟨a.toNat, 20, 4⟩, ⟨s.toNat, 11, 5⟩, ⟨n.toNat, 7, 1⟩, ⟨z.toNat, 5, 1⟩, ⟨g.toNat, 4, 1⟩, ⟨r.toNat, 3, 1⟩, ⟨k.toNat, 2, 1⟩, ⟨t.toNat, 0, 1⟩] := ⟨c.isLt, a.isLt, s.isLt, n.toNat_lt, z.toNat_lt, g.toNat_lt, r.toNat_lt, k.toNat_lt, t.toNat_lt, trivial⟩
  have em : fld W 26 6 = 0x30 := read_const hw ok ft (show apart 26 6 [(24, 2), (20, 4), (11, 5), (7, 1), (5, 1), (4, 1), (3, 1), (2, 1), (0, 1)] = true by decide +kernel) (by decide +kernel)
  have ej : fld W 8 3 = 2 := read_const hw ok ft (show apart 8 3 [(24, 2), (20, 4), (11, 5), (7, 1), (5, 1), (4, 1), (3, 1), (2, 1), (0, 1)] = true by decide +kernel) (by decide +kernel)
  have ez1 : fld W 1 1 = 0 := read_const hw ok ft (show apart 1 1 [(24, 2), (20, 4), (11, 5), (7, 1), (5, 1), (4, 1), (3, 1), (2, 1), (0, 1)] = true by decide +kernel) (by decide +kernel)
  have ez2 : fld W 6 1 = 0 := read_const hw ok ft (show apart 6 1 [(24, 2), (20, 4), (11, 5), (7, 1), (5, 1), (4, 1), (3, 1), (2, 1), (0, 1)] = true by decide +kernel) (by decide +kernel)
  have ez3 : fld W 16 4 = 0 := read_const hw ok ft (show apart 16 4 [(24, 2), (20, 4), (11, 5), (7, 1), (5, 1), (4, 1), (3, 1), (2, 1), (0, 1)] = true by decide +kernel) (by decide +kernel)
  have ef1 : bv 2 W 24 = c := read_bv hw ok ft (.head _)
  have ef2 : bv 4 W 20 = a := read_bv hw ok ft (.tail _ (.head _))
  have ef3 : bv 5 W 11 = s := read_bv hw ok ft (.tail _ (.tail _ (.head _)))
  have ef4 : flag W 7 = n := read_flag hw ok ft (.tail _ (.tail _ (.tail _ (.head _))))
  have ef5 : flag W 5 = z := read_flag hw ok ft (.tail _ (.tail _ (.tail _ (.tail _ (.head _)))))
  have ef6 : flag W 4 = g := read_flag hw ok ft (.tail _ (.tail _ (.tail _ (.tail _ (.tail _ (.head _))))))
  have ef7 : flag W 3 = r := read_flag hw ok ft (.tail _ (.tail _ (.tail _ (.tail _ (.tail _ (.tail _ (.head _)))))))
  have ef8 : flag W 2 = k := read_flag hw ok ft (.tail _ (.tail _ (.tail _ (.tail _ (.tail _ (.tail _ (.tail _ (.head _))))))))
  have ef9 : flag W 0 = t := read_flag hw ok ft (.tail _ (.tail _ (.tail _ (.tail _ (.tail _ (.tail _ (.tail _ (.tail _ (.head _)))))))))
  refine ⟨hw ▸ pack_lt ok ft (show inWord [(24, 2), (20, 4), (11, 5), (7, 1), (5, 1), (4, 1), (3, 1), (2, 1), (0, 1)] = true by decide +kernel) (by decide +kernel), .core (.mmas c a s n z g r k t), ?_, rfl⟩
  rw [decodeNat_30 W em, decMma]
  simp only [ej, ez1, ez2, ez3, ef1, ef2, ef3, ef4, ef5, ef6, ef7, ef8, ef9, zeros, List.all, beq_self_eq_true, Bool.and_self, if_true]

theorem RoundTrip.mlda (c : BitVec 2) (s : BitVec 5) (g : Bool) : RoundTrip.Statement (.mlda c s g) := by
  intro hwf W hw
  have hw : pack 0xC0000300 (strip [⟨c.toNat, 24, 2⟩, ⟨s.toNat, 11, 5⟩, ⟨g.toNat, 4, 1⟩]) = W := Option.some.inj hw
  have ok : laidOut 0xC0000300 [(24, 2), (11, 5), (4, 1)] = true := by decide +kernel
  have ft : Fits [⟨c.toNat, 24, 2⟩, ⟨s.toNat, 11, 5⟩, ⟨g.toNat, 4, 1⟩] := ⟨c.isLt, s.isLt, g.toNat_lt, trivial⟩
  have em : fld W 26 6 = 0x30 := read_const hw ok ft (show apart 26 6 [(24, 2), (11, 5), (4, 1)] = true by decide +kernel) (by decide +kernel)
  have ej : fld W 8 3 = 3 := read_const hw ok ft (show apart 8 3 [(24, 2), (11, 5), (4, 1)] = true by decide +kernel) (by decide +kernel)
  have ez1 : fld W 0 4 = 0 := read_const hw ok ft (show apart 0 4 [(24, 2), (11, 5), (4, 1)] = true by decide +kernel) (by decide +kernel)
  have ez2 : fld W 5 3 = 0 := read_const hw ok ft (show apart 5 3 [(24, 2), (11, 5), (4, 1)] = true by decide +kernel) (by decide +kernel)
  have ez3 : fld W 16 8 = 0 := read_const hw ok ft (show apart 16 8 [(24, 2), (11, 5), (4, 1)] = true by decide +kernel) (by decide +kernel)
  have ef1 : bv 2 W 24 = c := read_bv hw ok ft (.head _)
  have ef2 : bv 5 W 11 = s := read_bv hw ok ft (.tail _ (.head _))
  have ef3 : flag W 4 = g := read_flag hw ok ft (.tail _ (.tail _ (.head _)))
  refine ⟨hw ▸ pack_lt ok ft (show inWord [(24, 2), (11, 5), (4, 1)] = true by decide +kernel) (by decide +kernel), .core (.mlda c s g), ?_, rfl⟩
  rw [decodeNat_30 W em, decMma]
  simp only [ej, ez1, ez2, ez3, ef1, ef2, ef3, zeros, List.all, beq_self_eq_true, Bool.and_self, if_true]

theorem RoundTrip.msta (c : BitVec 2) (s : BitVec 5) (g : Bool) (r : Bool) : RoundTrip.Statement (.msta c s g r) := by
  intro hwf W hw
  have hw : pack 0xC0000400 (strip [⟨c.toNat, 24, 2⟩, ⟨s.toNat, 11, 5⟩, ⟨g.toNat, 4, 1⟩, ⟨r.toNat, 3, 1⟩]) = W := Option.some.inj hw
  have ok : laidOut 0xC0000400 [(24, 2), (11, 5), (4, 1), (3, 1)] = true := by decide +kernel
  have ft : Fits [⟨c.toNat, 24, 2⟩, ⟨s.toNat, 11, 5⟩, ⟨g.toNat, 4, 1⟩, ⟨r.toNat, 3, 1⟩] := ⟨c.isLt, s.isLt, g.toNat_lt, r.toNat_lt, trivial⟩
  have em : fld W 26 6 = 0x30 := read_const hw ok ft (show apart 26 6 [(24, 2), (11, 5), (4, 1), (3, 1)] = true by decide +kernel) (by decide +kernel)
  have ej : fld W 8 3 = 4 := read_const hw ok ft (show apart 8 3 [(24, 2), (11, 5), (4, 1), (3, 1)] = true by decide +kernel) (by decide +kernel)
  have ez1 : fld W 0 3 = 0 := read_const hw ok ft (show apart 0 3 [(24, 2), (11, 5), (4, 1), (3, 1)] = true by decide +kernel) (by decide +kernel)
  have ez2 : fld W 5 3 = 0 := read_const hw ok ft (show apart 5 3 [(24, 2), (11, 5), (4, 1), (3, 1)] = true by decide +kernel) (by decide +kernel)
  have ez3 : fld W 16 8 = 0 := read_const hw ok ft (show apart 16 8 [(24, 2), (11, 5), (4, 1), (3, 1)] = true by decide +kernel) (by decide +kernel)
  have ef1 : bv 2 W 24 = c := read_bv hw ok ft (.head _)
  have ef2 : bv 5 W 11 = s := read_bv hw ok ft (.tail _ (.head _))
  have ef3 : flag W 4 = g := read_flag hw ok ft (.tail _ (.tail _ (.head _)))
  have ef4 : flag W 3 = r := read_flag hw ok ft (.tail _ (.tail _ (.tail _ (.head _))))
  refine ⟨hw ▸ pack_lt ok ft (show inWord [(24, 2), (11, 5), (4, 1), (3, 1)] = true by decide +kernel) (by decide +kernel), .core (.msta c s g r), ?_, rfl⟩
  rw [decodeNat_30 W em, decMma]
  simp only [ej, ez1, ez2, ez3, ef1, ef2, ef3, ef4, zeros, List.all, beq_self_eq_true, Bool.and_self, if_true]

theorem RoundTrip.mzero (c : BitVec 2) (g : Bool) : RoundTrip.Statement (.mzero c g) := by
  intro hwf W hw
  have hw : pack 0xC0000500 (strip [⟨c.toNat, 24, 2⟩, ⟨g.toNat, 4, 1⟩]) = W := Option.some.inj hw
  have ok : laidOut 0xC0000500 [(24, 2), (4, 1)] = true := by decide +kernel
  have ft : Fits [⟨c.toNat, 24, 2⟩, ⟨g.toNat, 4, 1⟩] := ⟨c.isLt, g.toNat_lt, trivial⟩
  have em : fld W 26 6 = 0x30 := read_const hw ok ft (show apart 26 6 [(24, 2), (4, 1)] = true by decide +kernel) (by decide +kernel)
  have ej : fld W 8 3 = 5 := read_const hw ok ft (show apart 8 3 [(24, 2), (4, 1)] = true by decide +kernel) (by decide +kernel)
  have ez1 : fld W 0 4 = 0 := read_const hw ok ft (show apart 0 4 [(24, 2), (4, 1)] = true by decide +kernel) (by decide +kernel)
  have ez2 : fld W 5 3 = 0 := read_const hw ok ft (show apart 5 3 [(24, 2), (4, 1)] = true by decide +kernel) (by decide +kernel)
  have ez3 : fld W 11 13 = 0 := read_const hw ok ft (show apart 11 13 [(24, 2), (4, 1)] = true by decide +kernel) (by decide +kernel)
  have ef1 : bv 2 W 24 = c := read_bv hw ok ft (.head _)
  have ef2 : flag W 4 = g := read_flag hw ok ft (.tail _ (.head _))
  refine ⟨hw ▸ pack_lt ok ft (show inWord [(24, 2), (4, 1)] = true by decide +kernel) (by decide +kernel), .core (.mzero c g), ?_, rfl⟩
  rw [decodeNat_30 W em, decMma]
  simp only [ej, ez1, ez2, ez3, ef1, ef2, zeros, List.all, beq_self_eq_true, Bool.and_self, if_true]

theorem RoundTrip.mstat (d : BitVec 5) : RoundTrip.Statement (.mstat d) := by
  intro hwf W hw
  have hw : pack 0xC4000020 (strip [⟨d.toNat, 21, 5⟩]) = W := Option.some.inj hw
  have ok : laidOut 0xC4000020 [(21, 5)] = true := by decide +kernel
  have ft : Fits [⟨d.toNat, 21, 5⟩] := ⟨d.isLt, trivial⟩
  have em : fld W 26 6 = 0x31 := read_const hw ok ft (show apart 26 6 [(21, 5)] = true by decide +kernel) (by decide +kernel)
  have ej : fld W 5 6 = 1 := read_const hw ok ft (show apart 5 6 [(21, 5)] = true by decide +kernel) (by decide +kernel)
  have ez1 : fld W 0 5 = 0 := read_const hw ok ft (show apart 0 5 [(21, 5)] = true by decide +kernel) (by decide +kernel)
  have ez2 : fld W 11 10 = 0 := read_const hw ok ft (show apart 11 10 [(21, 5)] = true by decide +kernel) (by decide +kernel)
  have ef1 : bv 5 W 21 = d := read_bv hw ok ft (.head _)
  refine ⟨hw ▸ pack_lt ok ft (show inWord [(21, 5)] = true by decide +kernel) (by decide +kernel), .core (.mstat d), ?_, rfl⟩
  rw [decodeNat_31 W em, decMsys]
  simp only [ej, ez1, ez2, ef1, zeros, List.all, beq_self_eq_true, Bool.and_self, if_true]

theorem RoundTrip.drrow (d : BitVec 4) : RoundTrip.Statement (.drrow d) := by
  intro hwf W hw
  have hw : pack 0xC4000040 (strip [⟨d.toNat, 21, 4⟩]) = W := Option.some.inj hw
  have ok : laidOut 0xC4000040 [(21, 4)] = true := by decide +kernel
  have ft : Fits [⟨d.toNat, 21, 4⟩] := ⟨d.isLt, trivial⟩
  have em : fld W 26 6 = 0x31 := read_const hw ok ft (show apart 26 6 [(21, 4)] = true by decide +kernel) (by decide +kernel)
  have ej : fld W 5 6 = 2 := read_const hw ok ft (show apart 5 6 [(21, 4)] = true by decide +kernel) (by decide +kernel)
  have ez1 : fld W 25 1 = 0 := read_const hw ok ft (show apart 25 1 [(21, 4)] = true by decide +kernel) (by decide +kernel)
  have ez2 : fld W 0 5 = 0 := read_const hw ok ft (show apart 0 5 [(21, 4)] = true by decide +kernel) (by decide +kernel)
  have ez3 : fld W 11 10 = 0 := read_const hw ok ft (show apart 11 10 [(21, 4)] = true by decide +kernel) (by decide +kernel)
  have ef1 : bv 4 W 21 = d := read_bv hw ok ft (.head _)
  refine ⟨hw ▸ pack_lt ok ft (show inWord [(21, 4)] = true by decide +kernel) (by decide +kernel), .core (.drrow d), ?_, rfl⟩
  rw [decodeNat_31 W em, decMsys]
  simp only [ej, ez1, ez2, ez3, ef1, zeros, List.all, beq_self_eq_true, Bool.and_self, if_true, wfOr, hwf]

theorem RoundTrip.drdone (a : BitVec 4) : RoundTrip.Statement (.drdone a) := by
  intro hwf W hw
  have hw : pack 0xC4000060 (strip [⟨a.toNat, 16, 4⟩]) = W := Option.some.inj hw
  have ok : laidOut 0xC4000060 [(16, 4)] = true := by decide +kernel
  have ft : Fits [⟨a.toNat, 16, 4⟩] := ⟨a.isLt, trivial⟩
  have em : fld W 26 6 = 0x31 := read_const hw ok ft (show apart 26 6 [(16, 4)] = true by decide +kernel) (by decide +kernel)
  have ej : fld W 5 6 = 3 := read_const hw ok ft (show apart 5 6 [(16, 4)] = true by decide +kernel) (by decide +kernel)
  have ez1 : fld W 20 1 = 0 := read_const hw ok ft (show apart 20 1 [(16, 4)] = true by decide +kernel) (by decide +kernel)
  have ez2 : fld W 0 5 = 0 := read_const hw ok ft (show apart 0 5 [(16, 4)] = true by decide +kernel) (by decide +kernel)
  have ez3 : fld W 11 5 = 0 := read_const hw ok ft (show apart 11 5 [(16, 4)] = true by decide +kernel) (by decide +kernel)
  have ez4 : fld W 21 5 = 0 := read_const hw ok ft (show apart 21 5 [(16, 4)] = true by decide +kernel) (by decide +kernel)
  have ef1 : bv 4 W 16 = a := read_bv hw ok ft (.head _)
  refine ⟨hw ▸ pack_lt ok ft (show inWord [(16, 4)] = true by decide +kernel) (by decide +kernel), .core (.drdone a), ?_, rfl⟩
  rw [decodeNat_31 W em, decMsys]
  simp only [ej, ez1, ez2, ez3, ez4, ef1, zeros, List.all, beq_self_eq_true, Bool.and_self, if_true, wfOr, hwf]

theorem RoundTrip.mchk (d : BitVec 5) (a : BitVec 5) (n : BitVec 5) : RoundTrip.Statement (.mchk d a n) := by
  intro hwf W hw
  have hw : pack 0xC4000080 (strip [⟨d.toNat, 21, 5⟩, ⟨a.toNat, 16, 5⟩, ⟨n.toNat, 0, 5⟩]) = W := Option.some.inj hw
  have ok : laidOut 0xC4000080 [(21, 5), (16, 5), (0, 5)] = true := by decide +kernel
  have ft : Fits [⟨d.toNat, 21, 5⟩, ⟨a.toNat, 16, 5⟩, ⟨n.toNat, 0, 5⟩] := ⟨d.isLt, a.isLt, n.isLt, trivial⟩
  have em : fld W 26 6 = 0x31 := read_const hw ok ft (show apart 26 6 [(21, 5), (16, 5), (0, 5)] = true by decide +kernel) (by decide +kernel)
  have ej : fld W 5 6 = 4 := read_const hw ok ft (show apart 5 6 [(21, 5), (16, 5), (0, 5)] = true by decide +kernel) (by decide +kernel)
  have ez1 : fld W 11 5 = 0 := read_const hw ok ft (show apart 11 5 [(21, 5), (16, 5), (0, 5)] = true by decide +kernel) (by decide +kernel)
  have ef1 : bv 5 W 21 = d := read_bv hw ok ft (.head _)
  have ef2 : bv 5 W 16 = a := read_bv hw ok ft (.tail _ (.head _))
  have ef3 : bv 5 W 0 = n := read_bv hw ok ft (.tail _ (.tail _ (.head _)))
  refine ⟨hw ▸ pack_lt ok ft (show inWord [(21, 5), (16, 5), (0, 5)] = true by decide +kernel) (by decide +kernel), .core (.mchk d a n), ?_, rfl⟩
  rw [decodeNat_31 W em, decMsys]
  simp only [ej, ez1, ef1, ef2, ef3, zeros, List.all, beq_self_eq_true, Bool.and_self, if_true]

theorem RoundTrip.sexp (d : BitVec 4) (a : BitVec 5) (b : BitVec 5) (g : BitVec 3) : RoundTrip.Statement (.sexp d a b g) := by
  intro hwf W hw
  have hw : pack 0xC8000000 (strip [⟨d.toNat, 21, 4⟩, ⟨a.toNat, 16, 5⟩, ⟨b.toNat, 11, 5⟩, ⟨g.toNat, 0, 3⟩]) = W := Option.some.inj hw
  have ok : laidOut 0xC8000000 [(21, 4), (16, 5), (11, 5), (0, 3)] = true := by decide +kernel
  have ft : Fits [⟨d.toNat, 21, 4⟩, ⟨a.toNat, 16, 5⟩, ⟨b.toNat, 11, 5⟩, ⟨g.toNat, 0, 3⟩] := ⟨d.isLt, a.isLt, b.isLt, g.isLt, trivial⟩
  have em : fld W 26 6 = 0x32 := read_const hw ok ft (show apart 26 6 [(21, 4), (16, 5), (11, 5), (0, 3)] = true by decide +kernel) (by decide +kernel)
  have ej : fld W 5 6 = 0 := read_const hw ok ft (show apart 5 6 [(21, 4), (16, 5), (11, 5), (0, 3)] = true by decide +kernel) (by decide +kernel)
  have ez1 : fld W 25 1 = 0 := read_const hw ok ft (show apart 25 1 [(21, 4), (16, 5), (11, 5), (0, 3)] = true by decide +kernel) (by decide +kernel)
  have ez2 : fld W 3 2 = 0 := read_const hw ok ft (show apart 3 2 [(21, 4), (16, 5), (11, 5), (0, 3)] = true by decide +kernel) (by decide +kernel)
  have ef1 : bv 4 W 21 = d := read_bv hw ok ft (.head _)
  have ef2 : bv 5 W 16 = a := read_bv hw ok ft (.tail _ (.head _))
  have ef3 : bv 5 W 11 = b := read_bv hw ok ft (.tail _ (.tail _ (.head _)))
  have ef4 : bv 3 W 0 = g := read_bv hw ok ft (.tail _ (.tail _ (.tail _ (.head _))))
  refine ⟨hw ▸ pack_lt ok ft (show inWord [(21, 4), (16, 5), (11, 5), (0, 3)] = true by decide +kernel) (by decide +kernel), .core (.sexp d a b g), ?_, rfl⟩
  rw [decodeNat_32 W em, decSeed]
  simp only [ej, ez1, ez2, ef1, ef2, ef3, ef4, zeros, List.all, beq_self_eq_true, Bool.and_self, if_true]

theorem RoundTrip.ssrch (d : BitVec 4) (a : BitVec 4) (b : BitVec 5) : RoundTrip.Statement (.ssrch d a b) := by
  intro hwf W hw
  have hw : pack 0xC8000020 (strip [⟨d.toNat, 21, 4⟩, ⟨a.toNat, 16, 4⟩, ⟨b.toNat, 11, 5⟩]) = W := Option.some.inj hw
  have ok : laidOut 0xC8000020 [(21, 4), (16, 4), (11, 5)] = true := by decide +kernel
  have ft : Fits [⟨d.toNat, 21, 4⟩, ⟨a.toNat, 16, 4⟩, ⟨b.toNat, 11, 5⟩] := ⟨d.isLt, a.isLt, b.isLt, trivial⟩
  have em : fld W 26 6 = 0x32 := read_const hw ok ft (show apart 26 6 [(21, 4), (16, 4), (11, 5)] = true by decide +kernel) (by decide +kernel)
  have ej : fld W 5 6 = 1 := read_const hw ok ft (show apart 5 6 [(21, 4), (16, 4), (11, 5)] = true by decide +kernel) (by decide +kernel)
  have ez1 : fld W 20 1 = 0 := read_const hw ok ft (show apart 20 1 [(21, 4), (16, 4), (11, 5)] = true by decide +kernel) (by decide +kernel)
  have ez2 : fld W 25 1 = 0 := read_const hw ok ft (show apart 25 1 [(21, 4), (16, 4), (11, 5)] = true by decide +kernel) (by decide +kernel)
  have ez3 : fld W 0 5 = 0 := read_const hw ok ft (show apart 0 5 [(21, 4), (16, 4), (11, 5)] = true by decide +kernel) (by decide +kernel)
  have ef1 : bv 4 W 21 = d := read_bv hw ok ft (.head _)
  have ef2 : bv 4 W 16 = a := read_bv hw ok ft (.tail _ (.head _))
  have ef3 : bv 5 W 11 = b := read_bv hw ok ft (.tail _ (.tail _ (.head _)))
  refine ⟨hw ▸ pack_lt ok ft (show inWord [(21, 4), (16, 4), (11, 5)] = true by decide +kernel) (by decide +kernel), .core (.ssrch d a b), ?_, rfl⟩
  rw [decodeNat_32 W em, decSeed]
  simp only [ej, ez1, ez2, ez3, ef1, ef2, ef3, zeros, List.all, beq_self_eq_true, Bool.and_self, if_true, wfOr, hwf]

theorem RoundTrip.sproj (d : BitVec 4) (a : BitVec 5) (b : BitVec 5) (g : BitVec 3) : RoundTrip.Statement (.sproj d a b g) := by
  intro hwf W hw
  have hw : pack 0xC8000040 (strip [⟨d.toNat, 21, 4⟩, ⟨a.toNat, 16, 5⟩, ⟨b.toNat, 11, 5⟩, ⟨g.toNat, 0, 3⟩]) = W := Option.some.inj hw
  have ok : laidOut 0xC8000040 [(21, 4), (16, 5), (11, 5), (0, 3)] = true := by decide +kernel
  have ft : Fits [⟨d.toNat, 21, 4⟩, ⟨a.toNat, 16, 5⟩, ⟨b.toNat, 11, 5⟩, ⟨g.toNat, 0, 3⟩] := ⟨d.isLt, a.isLt, b.isLt, g.isLt, trivial⟩
  have em : fld W 26 6 = 0x32 := read_const hw ok ft (show apart 26 6 [(21, 4), (16, 5), (11, 5), (0, 3)] = true by decide +kernel) (by decide +kernel)
  have ej : fld W 5 6 = 2 := read_const hw ok ft (show apart 5 6 [(21, 4), (16, 5), (11, 5), (0, 3)] = true by decide +kernel) (by decide +kernel)
  have ez1 : fld W 25 1 = 0 := read_const hw ok ft (show apart 25 1 [(21, 4), (16, 5), (11, 5), (0, 3)] = true by decide +kernel) (by decide +kernel)
  have ez2 : fld W 3 2 = 0 := read_const hw ok ft (show apart 3 2 [(21, 4), (16, 5), (11, 5), (0, 3)] = true by decide +kernel) (by decide +kernel)
  have ef1 : bv 4 W 21 = d := read_bv hw ok ft (.head _)
  have ef2 : bv 5 W 16 = a := read_bv hw ok ft (.tail _ (.head _))
  have ef3 : bv 5 W 11 = b := read_bv hw ok ft (.tail _ (.tail _ (.head _)))
  have ef4 : bv 3 W 0 = g := read_bv hw ok ft (.tail _ (.tail _ (.tail _ (.head _))))
  refine ⟨hw ▸ pack_lt ok ft (show inWord [(21, 4), (16, 5), (11, 5), (0, 3)] = true by decide +kernel) (by decide +kernel), .core (.sproj d a b g), ?_, rfl⟩
  rw [decodeNat_32 W em, decSeed]
  simp only [ej, ez1, ez2, ef1, ef2, ef3, ef4, zeros, List.all, beq_self_eq_true, Bool.and_self, if_true]

theorem RoundTrip.schk (d : BitVec 5) (a : BitVec 5) (g : BitVec 3) : RoundTrip.Statement (.schk d a g) := by
  intro hwf W hw
  have hw : pack 0xC8000060 (strip [⟨d.toNat, 21, 5⟩, ⟨a.toNat, 16, 5⟩, ⟨g.toNat, 0, 3⟩]) = W := Option.some.inj hw
  have ok : laidOut 0xC8000060 [(21, 5), (16, 5), (0, 3)] = true := by decide +kernel
  have ft : Fits [⟨d.toNat, 21, 5⟩, ⟨a.toNat, 16, 5⟩, ⟨g.toNat, 0, 3⟩] := ⟨d.isLt, a.isLt, g.isLt, trivial⟩
  have em : fld W 26 6 = 0x32 := read_const hw ok ft (show apart 26 6 [(21, 5), (16, 5), (0, 3)] = true by decide +kernel) (by decide +kernel)
  have ej : fld W 5 6 = 3 := read_const hw ok ft (show apart 5 6 [(21, 5), (16, 5), (0, 3)] = true by decide +kernel) (by decide +kernel)
  have ez1 : fld W 3 2 = 0 := read_const hw ok ft (show apart 3 2 [(21, 5), (16, 5), (0, 3)] = true by decide +kernel) (by decide +kernel)
  have ez2 : fld W 11 5 = 0 := read_const hw ok ft (show apart 11 5 [(21, 5), (16, 5), (0, 3)] = true by decide +kernel) (by decide +kernel)
  have ef1 : bv 5 W 21 = d := read_bv hw ok ft (.head _)
  have ef2 : bv 5 W 16 = a := read_bv hw ok ft (.tail _ (.head _))
  have ef3 : bv 3 W 0 = g := read_bv hw ok ft (.tail _ (.tail _ (.head _)))
  refine ⟨hw ▸ pack_lt ok ft (show inWord [(21, 5), (16, 5), (0, 3)] = true by decide +kernel) (by decide +kernel), .core (.schk d a g), ?_, rfl⟩
  rw [decodeNat_32 W em, decSeed]
  simp only [ej, ez1, ez2, ef1, ef2, ef3, zeros, List.all, beq_self_eq_true, Bool.and_self, if_true]

theorem RoundTrip.lfsr (d : BitVec 5) (a : BitVec 5) (n : BitVec 5) : RoundTrip.Statement (.lfsr d a n) := by
  intro hwf W hw
  have hw : pack 0xC8000080 (strip [⟨d.toNat, 21, 5⟩, ⟨a.toNat, 16, 5⟩, ⟨n.toNat, 0, 5⟩]) = W := Option.some.inj hw
  have ok : laidOut 0xC8000080 [(21, 5), (16, 5), (0, 5)] = true := by decide +kernel
  have ft : Fits [⟨d.toNat, 21, 5⟩, ⟨a.toNat, 16, 5⟩, ⟨n.toNat, 0, 5⟩] := ⟨d.isLt, a.isLt, n.isLt, trivial⟩
  have em : fld W 26 6 = 0x32 := read_const hw ok ft (show apart 26 6 [(21, 5), (16, 5), (0, 5)] = true by decide +kernel) (by decide +kernel)
  have ej : fld W 5 6 = 4 := read_const hw ok ft (show apart 5 6 [(21, 5), (16, 5), (0, 5)] = true by decide +kernel) (by decide +kernel)
  have ez1 : fld W 11 5 = 0 := read_const hw ok ft (show apart 11 5 [(21, 5), (16, 5), (0, 5)] = true by decide +kernel) (by decide +kernel)
  have ef1 : bv 5 W 21 = d := read_bv hw ok ft (.head _)
  have ef2 : bv 5 W 16 = a := read_bv hw ok ft (.tail _ (.head _))
  have ef3 : bv 5 W 0 = n := read_bv hw ok ft (.tail _ (.tail _ (.head _)))
  refine ⟨hw ▸ pack_lt ok ft (show inWord [(21, 5), (16, 5), (0, 5)] = true by decide +kernel) (by decide +kernel), .core (.lfsr d a n), ?_, rfl⟩
  rw [decodeNat_32 W em, decSeed]
  simp only [ej, ez1, ef1, ef2, ef3, zeros, List.all, beq_self_eq_true, Bool.and_self, if_true]

theorem RoundTrip.srec (d : BitVec 5) (a : BitVec 5) (b : BitVec 5) (g : BitVec 3) : RoundTrip.Statement (.srec d a b g) := by
  intro hwf W hw
  have hw : pack 0xC80000A0 (strip [⟨d.toNat, 21, 5⟩, ⟨a.toNat, 16, 5⟩, ⟨b.toNat, 11, 5⟩, ⟨g.toNat, 0, 3⟩]) = W := Option.some.inj hw
  have ok : laidOut 0xC80000A0 [(21, 5), (16, 5), (11, 5), (0, 3)] = true := by decide +kernel
  have ft : Fits [⟨d.toNat, 21, 5⟩, ⟨a.toNat, 16, 5⟩, ⟨b.toNat, 11, 5⟩, ⟨g.toNat, 0, 3⟩] := ⟨d.isLt, a.isLt, b.isLt, g.isLt, trivial⟩
  have em : fld W 26 6 = 0x32 := read_const hw ok ft (show apart 26 6 [(21, 5), (16, 5), (11, 5), (0, 3)] = true by decide +kernel) (by decide +kernel)
  have ej : fld W 5 6 = 5 := read_const hw ok ft (show apart 5 6 [(21, 5), (16, 5), (11, 5), (0, 3)] = true by decide +kernel) (by decide +kernel)
  have ez1 : fld W 3 2 = 0 := read_const hw ok ft (show apart 3 2 [(21, 5), (16, 5), (11, 5), (0, 3)] = true by decide +kernel) (by decide +kernel)
  have ef1 : bv 5 W 21 = d := read_bv hw ok ft (.head _)
  have ef2 : bv 5 W 16 = a := read_bv hw ok ft (.tail _ (.head _))
  have ef3 : bv 5 W 11 = b := read_bv hw ok ft (.tail _ (.tail _ (.head _)))
  have ef4 : bv 3 W 0 = g := read_bv hw ok ft (.tail _ (.tail _ (.tail _ (.head _))))
  refine ⟨hw ▸ pack_lt ok ft (show inWord [(21, 5), (16, 5), (11, 5), (0, 3)] = true by decide +kernel) (by decide +kernel), .core (.srec d a b g), ?_, rfl⟩
  rw [decodeNat_32 W em, decSeed]
  simp only [ej, ez1, ef1, ef2, ef3, ef4, zeros, List.all, beq_self_eq_true, Bool.and_self, if_true]

theorem RoundTrip.prdef (d : BitVec 5) (a : BitVec 5) (g : BitVec 3) : RoundTrip.Statement (.prdef d a g) := by
  intro hwf W hw
  have hw : pack 0xCC000000 (strip [⟨d.toNat, 21, 5⟩, ⟨a.toNat, 16, 5⟩, ⟨g.toNat, 0, 3⟩]) = W := Option.some.inj hw
  have ok : laidOut 0xCC000000 [(21, 5), (16, 5), (0, 3)] = true := by decide +kernel
  have ft : Fits [⟨d.toNat, 21, 5⟩, ⟨a.toNat, 16, 5⟩, ⟨g.toNat, 0, 3⟩] := ⟨d.isLt, a.isLt, g.isLt, trivial⟩
  have em : fld W 26 6 = 0x33 := read_const hw ok ft (show apart 26 6 [(21, 5), (16, 5), (0, 3)] = true by decide +kernel) (by decide +kernel)
  have ej : fld W 5 6 = 0 := read_const hw ok ft (show apart 5 6 [(21, 5), (16, 5), (0, 3)] = true by decide +kernel) (by decide +kernel)
  have ez1 : fld W 3 2 = 0 := read_const hw ok ft (show apart 3 2 [(21, 5), (16, 5), (0, 3)] = true by decide +kernel) (by decide +kernel)
  have ez2 : fld W 11 5 = 0 := read_const hw ok ft (show apart 11 5 [(21, 5), (16, 5), (0, 3)] = true by decide +kernel) (by decide +kernel)
  have ef1 : bv 5 W 21 = d := read_bv hw ok ft (.head _)
  have ef2 : bv 5 W 16 = a := read_bv hw ok ft (.tail _ (.head _))
  have ef3 : bv 3 W 0 = g := read_bv hw ok ft (.tail _ (.tail _ (.head _)))
  refine ⟨hw ▸ pack_lt ok ft (show inWord [(21, 5), (16, 5), (0, 3)] = true by decide +kernel) (by decide +kernel), .core (.prdef d a g), ?_, rfl⟩
  rw [decodeNat_33 W em, decProc]
  simp only [ej, ez1, ez2, ef1, ef2, ef3, zeros, List.all, beq_self_eq_true, Bool.and_self, if_true]

theorem RoundTrip.prdel (a : BitVec 5) : RoundTrip.Statement (.prdel a) := by
  intro hwf W hw
  have hw : pack 0xCC000020 (strip [⟨a.toNat, 16, 5⟩]) = W := Option.some.inj hw
  have ok : laidOut 0xCC000020 [(16, 5)] = true := by decide +kernel
  have ft : Fits [⟨a.toNat, 16, 5⟩] := ⟨a.isLt, trivial⟩
  have em : fld W 26 6 = 0x33 := read_const hw ok ft (show apart 26 6 [(16, 5)] = true by decide +kernel) (by decide +kernel)
  have ej : fld W 5 6 = 1 := read_const hw ok ft (show apart 5 6 [(16, 5)] = true by decide +kernel) (by decide +kernel)
  have ez1 : fld W 0 5 = 0 := read_const hw ok ft (show apart 0 5 [(16, 5)] = true by decide +kernel) (by decide +kernel)
  have ez2 : fld W 11 5 = 0 := read_const hw ok ft (show apart 11 5 [(16, 5)] = true by decide +kernel) (by decide +kernel)
  have ez3 : fld W 21 5 = 0 := read_const hw ok ft (show apart 21 5 [(16, 5)] = true by decide +kernel) (by decide +kernel)
  have ef1 : bv 5 W 16 = a := read_bv hw ok ft (.head _)
  refine ⟨hw ▸ pack_lt ok ft (show inWord [(16, 5)] = true by decide +kernel) (by decide +kernel), .core (.prdel a), ?_, rfl⟩
  rw [decodeNat_33 W em, decProc]
  simp only [ej, ez1, ez2, ez3, ef1, zeros, List.all, beq_self_eq_true, Bool.and_self, if_true]

theorem RoundTrip.prfail (a : BitVec 5) : RoundTrip.Statement (.prfail a) := by
  intro hwf W hw
  have hw : pack 0xCC000060 (strip [⟨a.toNat, 16, 5⟩]) = W := Option.some.inj hw
  have ok : laidOut 0xCC000060 [(16, 5)] = true := by decide +kernel
  have ft : Fits [⟨a.toNat, 16, 5⟩] := ⟨a.isLt, trivial⟩
  have em : fld W 26 6 = 0x33 := read_const hw ok ft (show apart 26 6 [(16, 5)] = true by decide +kernel) (by decide +kernel)
  have ej : fld W 5 6 = 3 := read_const hw ok ft (show apart 5 6 [(16, 5)] = true by decide +kernel) (by decide +kernel)
  have ez1 : fld W 0 5 = 0 := read_const hw ok ft (show apart 0 5 [(16, 5)] = true by decide +kernel) (by decide +kernel)
  have ez2 : fld W 11 5 = 0 := read_const hw ok ft (show apart 11 5 [(16, 5)] = true by decide +kernel) (by decide +kernel)
  have ez3 : fld W 21 5 = 0 := read_const hw ok ft (show apart 21 5 [(16, 5)] = true by decide +kernel) (by decide +kernel)
  have ef1 : bv 5 W 16 = a := read_bv hw ok ft (.head _)
  refine ⟨hw ▸ pack_lt ok ft (show inWord [(16, 5)] = true by decide +kernel) (by decide +kernel), .core (.prfail a), ?_, rfl⟩
  rw [decodeNat_33 W em, decProc]
  simp only [ej, ez1, ez2, ez3, ef1, zeros, List.all, beq_self_eq_true, Bool.and_self, if_true]

theorem RoundTrip.prstate (d : BitVec 5) (a : BitVec 5) (g : BitVec 3) : RoundTrip.Statement (.prstate d a g) := by
  intro hwf W hw
  have hw : pack 0xCC000080 (strip [⟨d.toNat, 21, 5⟩, ⟨a.toNat, 16, 5⟩, ⟨g.toNat, 0, 3⟩]) = W := Option.some.inj hw
  have ok : laidOut 0xCC000080 [(21, 5), (16, 5), (0, 3)] = true := by decide +kernel
  have ft : Fits [⟨d.toNat, 21, 5⟩, ⟨a.toNat, 16, 5⟩, ⟨g.toNat, 0, 3⟩] := ⟨d.isLt, a.isLt, g.isLt, trivial⟩
  have em : fld W 26 6 = 0x33 := read_const hw ok ft (show apart 26 6 [(21, 5), (16, 5), (0, 3)] = true by decide +kernel) (by decide +kernel)
  have ej : fld W 5 6 = 4 := read_const hw ok ft (show apart 5 6 [(21, 5), (16, 5), (0, 3)] = true by decide +kernel) (by decide +kernel)
  have ez1 : fld W 3 2 = 0 := read_const hw ok ft (show apart 3 2 [(21, 5), (16, 5), (0, 3)] = true by decide +kernel) (by decide +kernel)
  have ez2 : fld W 11 5 = 0 := read_const hw ok ft (show apart 11 5 [(21, 5), (16, 5), (0, 3)] = true by decide +kernel) (by decide +kernel)
  have ef1 : bv 5 W 21 = d := read_bv hw ok ft (.head _)
  have ef2 : bv 5 W 16 = a := read_bv hw ok ft (.tail _ (.head _))
  have ef3 : bv 3 W 0 = g := read_bv hw ok ft (.tail _ (.tail _ (.head _)))
  refine ⟨hw ▸ pack_lt ok ft (show inWord [(21, 5), (16, 5), (0, 3)] = true by decide +kernel) (by decide +kernel), .core (.prstate d a g), ?_, rfl⟩
  rw [decodeNat_33 W em, decProc]
  simp only [ej, ez1, ez2, ef1, ef2, ef3, zeros, List.all, beq_self_eq_true, Bool.and_self, if_true]

theorem RoundTrip.previct (d : BitVec 5) (a : BitVec 5) (b : BitVec 5) (g : BitVec 3) : RoundTrip.Statement (.previct d a b g) := by
  intro hwf W hw
  have hw : pack 0xCC0000A0 (strip [⟨d.toNat, 21, 5⟩, ⟨a.toNat, 16, 5⟩, ⟨b.toNat, 11, 5⟩, ⟨g.toNat, 0, 3⟩]) = W := Option.some.inj hw
  have ok : laidOut 0xCC0000A0 [(21, 5), (16, 5), (11, 5), (0, 3)] = true := by decide +kernel
  have ft : Fits [⟨d.toNat, 21, 5⟩, ⟨a.toNat, 16, 5⟩, ⟨b.toNat, 11, 5⟩, ⟨g.toNat, 0, 3⟩] := ⟨d.isLt, a.isLt, b.isLt, g.isLt, trivial⟩
  have em : fld W 26 6 = 0x33 := read_const hw ok ft (show apart 26 6 [(21, 5), (16, 5), (11, 5), (0, 3)] = true by decide +kernel) (by decide +kernel)
  have ej : fld W 5 6 = 5 := read_const hw ok ft (show apart 5 6 [(21, 5), (16, 5), (11, 5), (0, 3)] = true by decide +kernel) (by decide +kernel)
  have ez1 : fld W 3 2 = 0 := read_const hw ok ft (show apart 3 2 [(21, 5), (16, 5), (11, 5), (0, 3)] = true by decide +kernel) (by decide +kernel)
  have ef1 : bv 5 W 21 = d := read_bv hw ok ft (.head _)
  have ef2 : bv 5 W 16 = a := read_bv hw ok ft (.tail _ (.head _))
  have ef3 : bv 5 W 11 = b := read_bv hw ok ft (.tail _ (.tail _ (.head _)))
  have ef4 : bv 3 W 0 = g := read_bv hw ok ft (.tail _ (.tail _ (.tail _ (.head _))))
  refine ⟨hw ▸ pack_lt ok ft (show inWord [(21, 5), (16, 5), (11, 5), (0, 3)] = true by decide +kernel) (by decide +kernel), .core (.previct d a b g), ?_, rfl⟩
  rw [decodeNat_33 W em, decProc]
  simp only [ej, ez1, ef1, ef2, ef3, ef4, zeros, List.all, beq_self_eq_true, Bool.and_self, if_true]

theorem RoundTrip.prtouch (a : BitVec 5) (g : BitVec 3) : RoundTrip.Statement (.prtouch a g) := by
  intro hwf W hw
  have hw : pack 0xCC0000C0 (strip [⟨a.toNat, 16, 5⟩, ⟨g.toNat, 0, 3⟩]) = W := Option.some.inj hw
  have ok : laidOut 0xCC0000C0 [(16, 5), (0, 3)] = true := by decide +kernel
  have ft : Fits [⟨a.toNat, 16, 5⟩, ⟨g.toNat, 0, 3⟩] := ⟨a.isLt, g.isLt, trivial⟩
  have em : fld W 26 6 = 0x33 := read_const hw ok ft (show apart 26 6 [(16, 5), (0, 3)] = true by decide +kernel) (by decide +kernel)
  have ej : fld W 5 6 = 6 := read_const hw ok ft (show apart 5 6 [(16, 5), (0, 3)] = true by decide +kernel) (by decide +kernel)
  have ez1 : fld W 3 2 = 0 := read_const hw ok ft (show apart 3 2 [(16, 5), (0, 3)] = true by decide +kernel) (by decide +kernel)
  have ez2 : fld W 11 5 = 0 := read_const hw ok ft (show apart 11 5 [(16, 5), (0, 3)] = true by decide +kernel) (by decide +kernel)
  have ez3 : fld W 21 5 = 0 := read_const hw ok ft (show apart 21 5 [(16, 5), (0, 3)] = true by decide +kernel) (by decide +kernel)
  have ef1 : bv 5 W 16 = a := read_bv hw ok ft (.head _)
  have ef2 : bv 3 W 0 = g := read_bv hw ok ft (.tail _ (.head _))
  refine ⟨hw ▸ pack_lt ok ft (show inWord [(16, 5), (0, 3)] = true by decide +kernel) (by decide +kernel), .core (.prtouch a g), ?_, rfl⟩
  rw [decodeNat_33 W em, decProc]
  simp only [ej, ez1, ez2, ez3, ef1, ef2, zeros, List.all, beq_self_eq_true, Bool.and_self, if_true]

theorem RoundTrip.rview (d : BitVec 5) (a : BitVec 5) (n : BitVec 2) : RoundTrip.Statement (.rview d a n) := by
  intro hwf W hw
  have hw : pack 0xE0000000 (strip [⟨d.toNat, 21, 5⟩, ⟨a.toNat, 16, 5⟩, ⟨n.toNat, 0, 2⟩]) = W := Option.some.inj hw
  have ok : laidOut 0xE0000000 [(21, 5), (16, 5), (0, 2)] = true := by decide +kernel
  have ft : Fits [⟨d.toNat, 21, 5⟩, ⟨a.toNat, 16, 5⟩, ⟨n.toNat, 0, 2⟩] := ⟨d.isLt, a.isLt, n.isLt, trivial⟩
  have em : fld W 26 6 = 0x38 := read_const hw ok ft (show apart 26 6 [(21, 5), (16, 5), (0, 2)] = true by decide +kernel) (by decide +kernel)
  have ej : fld W 5 6 = 0 := read_const hw ok ft (show apart 5 6 [(21, 5), (16, 5), (0, 2)] = true by decide +kernel) (by decide +kernel)
  have ez1 : fld W 2 3 = 0 := read_const hw ok ft (show apart 2 3 [(21, 5), (16, 5), (0, 2)] = true by decide +kernel) (by decide +kernel)
  have ez2 : fld W 11 5 = 0 := read_const hw ok ft (show apart 11 5 [(21, 5), (16, 5), (0, 2)] = true by decide +kernel) (by decide +kernel)
  have ef1 : bv 5 W 21 = d := read_bv hw ok ft (.head _)
  have ef2 : bv 5 W 16 = a := read_bv hw ok ft (.tail _ (.head _))
  have ef3 : bv 2 W 0 = n := read_bv hw ok ft (.tail _ (.tail _ (.head _)))
  refine ⟨hw ▸ pack_lt ok ft (show inWord [(21, 5), (16, 5), (0, 2)] = true by decide +kernel) (by decide +kernel), .core (.rview d a n), ?_, rfl⟩
  rw [decodeNat_38 W em, decRast]
  simp only [ej, ez1, ez2, ef1, ef2, ef3, zeros, List.all, beq_self_eq_true, Bool.and_self, if_true]

theorem RoundTrip.rsetup (d : BitVec 5) (v : BitVec 4) (b : BitVec 5) (n : Bool) (p : Bool) : RoundTrip.Statement (.rsetup d v b n p) := by
  intro hwf W hw
  have hw : pack 0xE0000020 (strip [⟨d.toNat, 21, 5⟩, ⟨v.toNat, 16, 4⟩, ⟨b.toNat, 11, 5⟩, ⟨n.toNat, 1, 1⟩, ⟨p.toNat, 0, 1⟩]) = W := Option.some.inj hw
  have ok : laidOut 0xE0000020 [(21, 5), (16, 4), (11, 5), (1, 1), (0, 1)] = true := by decide +kernel
  have ft : Fits [⟨d.toNat, 21, 5⟩, ⟨v.toNat, 16, 4⟩, ⟨b.toNat, 11, 5⟩, ⟨n.toNat, 1, 1⟩, ⟨p.toNat, 0, 1⟩] := ⟨d.isLt, v.isLt, b.isLt, n.toNat_lt, p.toNat_lt, trivial⟩
  have em : fld W 26 6 = 0x38 := read_const hw ok ft (show apart 26 6 [(21, 5), (16, 4), (11, 5), (1, 1), (0, 1)] = true by decide +kernel) (by decide +kernel)
  have ej : fld W 5 6 = 1 := read_const hw ok ft (show apart 5 6 [(21, 5), (16, 4), (11, 5), (1, 1), (0, 1)] = true by decide +kernel) (by decide +kernel)
  have ez1 : fld W 20 1 = 0 := read_const hw ok ft (show apart 20 1 [(21, 5), (16, 4), (11, 5), (1, 1), (0, 1)] = true by decide +kernel) (by decide +kernel)
  have ez2 : fld W 2 3 = 0 := read_const hw ok ft (show apart 2 3 [(21, 5), (16, 4), (11, 5), (1, 1), (0, 1)] = true by decide +kernel) (by decide +kernel)
  have ef1 : bv 5 W 21 = d := read_bv hw ok ft (.head _)
  have ef2 : bv 4 W 16 = v := read_bv hw ok ft (.tail _ (.head _))
  have ef3 : bv 5 W 11 = b := read_bv hw ok ft (.tail _ (.tail _ (.head _)))
  have ef4 : flag W 1 = n := read_flag hw ok ft (.tail _ (.tail _ (.tail _ (.head _))))
  have ef5 : flag W 0 = p := read_flag hw ok ft (.tail _ (.tail _ (.tail _ (.tail _ (.head _)))))
  refine ⟨hw ▸ pack_lt ok ft (show inWord [(21, 5), (16, 4), (11, 5), (1, 1), (0, 1)] = true by decide +kernel) (by decide +kernel), .core (.rsetup d v b n p), ?_, rfl⟩
  rw [decodeNat_38 W em, decRast]
  simp only [ej, ez1, ez2, ef1, ef2, ef3, ef4, ef5, zeros, List.all, beq_self_eq_true, Bool.and_self, if_true]

theorem RoundTrip.rcover (d : BitVec 5) (a : BitVec 5) (p : BitVec 3) (f : Bool) (e : BitVec 4) : RoundTrip.Statement (.rcover d a p f e) := by
  intro hwf W hw
  have hw : pack 0xE0000040 (strip [⟨d.toNat, 21, 5⟩, ⟨a.toNat, 16, 5⟩, ⟨p.toNat, 11, 3⟩, ⟨f.toNat, 4, 1⟩, ⟨e.toNat, 0, 4⟩]) = W := Option.some.inj hw
  have ok : laidOut 0xE0000040 [(21, 5), (16, 5), (11, 3), (4, 1), (0, 4)] = true := by decide +kernel
  have ft : Fits [⟨d.toNat, 21, 5⟩, ⟨a.toNat, 16, 5⟩, ⟨p.toNat, 11, 3⟩, ⟨f.toNat, 4, 1⟩, ⟨e.toNat, 0, 4⟩] := ⟨d.isLt, a.isLt, p.isLt, f.toNat_lt, e.isLt, trivial⟩
  have em : fld W 26 6 = 0x38 := read_const hw ok ft (show apart 26 6 [(21, 5), (16, 5), (11, 3), (4, 1), (0, 4)] = true by decide +kernel) (by decide +kernel)
  have ej : fld W 5 6 = 2 := read_const hw ok ft (show apart 5 6 [(21, 5), (16, 5), (11, 3), (4, 1), (0, 4)] = true by decide +kernel) (by decide +kernel)
  have ez1 : fld W 14 2 = 0 := read_const hw ok ft (show apart 14 2 [(21, 5), (16, 5), (11, 3), (4, 1), (0, 4)] = true by decide +kernel) (by decide +kernel)
  have ef1 : bv 5 W 21 = d := read_bv hw ok ft (.head _)
  have ef2 : bv 5 W 16 = a := read_bv hw ok ft (.tail _ (.head _))
  have ef3 : bv 3 W 11 = p := read_bv hw ok ft (.tail _ (.tail _ (.head _)))
  have ef4 : flag W 4 = f := read_flag hw ok ft (.tail _ (.tail _ (.tail _ (.head _))))
  have ef5 : bv 4 W 0 = e := read_bv hw ok ft (.tail _ (.tail _ (.tail _ (.tail _ (.head _)))))
  refine ⟨hw ▸ pack_lt ok ft (show inWord [(21, 5), (16, 5), (11, 3), (4, 1), (0, 4)] = true by decide +kernel) (by decide +kernel), .core (.rcover d a p f e), ?_, rfl⟩
  rw [decodeNat_38 W em, decRast]
  simp only [ej, ez1, ef1, ef2, ef3, ef4, ef5, zeros, List.all, beq_self_eq_true, Bool.and_self, if_true, wfOr, hwf]

theorem RoundTrip.rbox (d : BitVec 5) (a : BitVec 4) (b : BitVec 4) : RoundTrip.Statement (.rbox d a b) := by
  intro hwf W hw
  have hw : pack 0xE0000060 (strip [⟨d.toNat, 21, 5⟩, ⟨a.toNat, 16, 4⟩, ⟨b.toNat, 11, 4⟩]) = W := Option.some.inj hw
  have ok : laidOut 0xE0000060 [(21, 5), (16, 4), (11, 4)] = true := by decide +kernel
  have ft : Fits [⟨d.toNat, 21, 5⟩, ⟨a.toNat, 16, 4⟩, ⟨b.toNat, 11, 4⟩] := ⟨d.isLt, a.isLt, b.isLt, trivial⟩
  have em : fld W 26 6 = 0x38 := read_const hw ok ft (show apart 26 6 [(21, 5), (16, 4), (11, 4)] = true by decide +kernel) (by decide +kernel)
  have ej : fld W 5 6 = 3 := read_const hw ok ft (show apart 5 6 [(21, 5), (16, 4), (11, 4)] = true by decide +kernel) (by decide +kernel)
  have ez1 : fld W 15 1 = 0 := read_const hw ok ft (show apart 15 1 [(21, 5), (16, 4), (11, 4)] = true by decide +kernel) (by decide +kernel)
  have ez2 : fld W 20 1 = 0 := read_const hw ok ft (show apart 20 1 [(21, 5), (16, 4), (11, 4)] = true by decide +kernel) (by decide +kernel)
  have ez3 : fld W 0 5 = 0 := read_const hw ok ft (show apart 0 5 [(21, 5), (16, 4), (11, 4)] = true by decide +kernel) (by decide +kernel)
  have ef1 : bv 5 W 21 = d := read_bv hw ok ft (.head _)
  have ef2 : bv 4 W 16 = a := read_bv hw ok ft (.tail _ (.head _))
  have ef3 : bv 4 W 11 = b := read_bv hw ok ft (.tail _ (.tail _ (.head _)))
  refine ⟨hw ▸ pack_lt ok ft (show inWord [(21, 5), (16, 4), (11, 4)] = true by decide +kernel) (by decide +kernel), .core (.rbox d a b), ?_, rfl⟩
  rw [decodeNat_38 W em, decRast]
  simp only [ej, ez1, ez2, ez3, ef1, ef2, ef3, zeros, List.all, beq_self_eq_true, Bool.and_self, if_true]

theorem RoundTrip.rtri (d : BitVec 4) (a : BitVec 4) (b : BitVec 4) : RoundTrip.Statement (.rtri d a b) := by
  intro hwf W hw
  have hw : pack 0xE0000080 (strip [⟨d.toNat, 21, 4⟩, ⟨a.toNat, 16, 4⟩, ⟨b.toNat, 11, 4⟩]) = W := Option.some.inj hw
  have ok : laidOut 0xE0000080 [(21, 4), (16, 4), (11, 4)] = true := by decide +kernel
  have ft : Fits [⟨d.toNat, 21, 4⟩, ⟨a.toNat, 16, 4⟩, ⟨b.toNat, 11, 4⟩] := ⟨d.isLt, a.isLt, b.isLt, trivial⟩
  have em : fld W 26 6 = 0x38 := read_const hw ok ft (show apart 26 6 [(21, 4), (16, 4), (11, 4)] = true by decide +kernel) (by decide +kernel)
  have ej : fld W 5 6 = 4 := read_const hw ok ft (show apart 5 6 [(21, 4), (16, 4), (11, 4)] = true by decide +kernel) (by decide +kernel)
  have ez1 : fld W 15 1 = 0 := read_const hw ok ft (show apart 15 1 [(21, 4), (16, 4), (11, 4)] = true by decide +kernel) (by decide +kernel)
  have ez2 : fld W 20 1 = 0 := read_const hw ok ft (show apart 20 1 [(21, 4), (16, 4), (11, 4)] = true by decide +kernel) (by decide +kernel)
  have ez3 : fld W 25 1 = 0 := read_const hw ok ft (show apart 25 1 [(21, 4), (16, 4), (11, 4)] = true by decide +kernel) (by decide +kernel)
  have ez4 : fld W 0 5 = 0 := read_const hw ok ft (show apart 0 5 [(21, 4), (16, 4), (11, 4)] = true by decide +kernel) (by decide +kernel)
  have ef1 : bv 4 W 21 = d := read_bv hw ok ft (.head _)
  have ef2 : bv 4 W 16 = a := read_bv hw ok ft (.tail _ (.head _))
  have ef3 : bv 4 W 11 = b := read_bv hw ok ft (.tail _ (.tail _ (.head _)))
  refine ⟨hw ▸ pack_lt ok ft (show inWord [(21, 4), (16, 4), (11, 4)] = true by decide +kernel) (by decide +kernel), .core (.rtri d a b), ?_, rfl⟩
  rw [decodeNat_38 W em, decRast]
  simp only [ej, ez1, ez2, ez3, ez4, ef1, ef2, ef3, zeros, List.all, beq_self_eq_true, Bool.and_self, if_true]

theorem RoundTrip.rbin (d : BitVec 5) (a : BitVec 4) (b : BitVec 5) : RoundTrip.Statement (.rbin d a b) := by
  intro hwf W hw
  have hw : pack 0xE00000A0 (strip [⟨d.toNat, 21, 5⟩, ⟨a.toNat, 16, 4⟩, ⟨b.toNat, 11, 5⟩]) = W := Option.some.inj hw
  have ok : laidOut 0xE00000A0 [(21, 5), (16, 4), (11, 5)] = true := by decide +kernel
  have ft : Fits [⟨d.toNat, 21, 5⟩, ⟨a.toNat, 16, 4⟩, ⟨b.toNat, 11, 5⟩] := ⟨d.isLt, a.isLt, b.isLt, trivial⟩
  have em : fld W 26 6 = 0x38 := read_const hw ok ft (show apart 26 6 [(21, 5), (16, 4), (11, 5)] = true by decide +kernel) (by decide +kernel)
  have ej : fld W 5 6 = 5 := read_const hw ok ft (show apart 5 6 [(21, 5), (16, 4), (11, 5)] = true by decide +kernel) (by decide +kernel)
  have ez1 : fld W 20 1 = 0 := read_const hw ok ft (show apart 20 1 [(21, 5), (16, 4), (11, 5)] = true by decide +kernel) (by decide +kernel)
  have ez2 : fld W 0 5 = 0 := read_const hw ok ft (show apart 0 5 [(21, 5), (16, 4), (11, 5)] = true by decide +kernel) (by decide +kernel)
  have ef1 : bv 5 W 21 = d := read_bv hw ok ft (.head _)
  have ef2 : bv 4 W 16 = a := read_bv hw ok ft (.tail _ (.head _))
  have ef3 : bv 5 W 11 = b := read_bv hw ok ft (.tail _ (.tail _ (.head _)))
  refine ⟨hw ▸ pack_lt ok ft (show inWord [(21, 5), (16, 4), (11, 5)] = true by decide +kernel) (by decide +kernel), .core (.rbin d a b), ?_, rfl⟩
  rw [decodeNat_38 W em, decRast]
  simp only [ej, ez1, ez2, ef1, ef2, ef3, zeros, List.all, beq_self_eq_true, Bool.and_self, if_true]

theorem RoundTrip.ordb (d : BitVec 5) (a : BitVec 5) : RoundTrip.Statement (.ordb d a) := by
  intro hwf W hw
  have hw : pack 0xE00000C0 (strip [⟨d.toNat, 21, 5⟩, ⟨a.toNat, 16, 5⟩]) = W := Option.some.inj hw
  have ok : laidOut 0xE00000C0 [(21, 5), (16, 5)] = true := by decide +kernel
  have ft : Fits [⟨d.toNat, 21, 5⟩, ⟨a.toNat, 16, 5⟩] := ⟨d.isLt, a.isLt, trivial⟩
  have em : fld W 26 6 = 0x38 := read_const hw ok ft (show apart 26 6 [(21, 5), (16, 5)] = true by decide +kernel) (by decide +kernel)
  have ej : fld W 5 6 = 6 := read_const hw ok ft (show apart 5 6 [(21, 5), (16, 5)] = true by decide +kernel) (by decide +kernel)
  have ez1 : fld W 0 5 = 0 := read_const hw ok ft (show apart 0 5 [(21, 5), (16, 5)] = true by decide +kernel) (by decide +kernel)
  have ez2 : fld W 11 5 = 0 := read_const hw ok ft (show apart 11 5 [(21, 5), (16, 5)] = true by decide +kernel) (by decide +kernel)
  have ef1 : bv 5 W 21 = d := read_bv hw ok ft (.head _)
  have ef2 : bv 5 W 16 = a := read_bv hw ok ft (.tail _ (.head _))
  refine ⟨hw ▸ pack_lt ok ft (show inWord [(21, 5), (16, 5)] = true by decide +kernel) (by decide +kernel), .core (.ordb d a), ?_, rfl⟩
  rw [decodeNat_38 W em, decRast]
  simp only [ej, ez1, ez2, ef1, ef2, zeros, List.all, beq_self_eq_true, Bool.and_self, if_true]

theorem RoundTrip.orde (d : BitVec 5) (a : BitVec 5) : RoundTrip.Statement (.orde d a) := by
  intro hwf W hw
  have hw : pack 0xE00000E0 (strip [⟨d.toNat, 21, 5⟩, ⟨a.toNat, 16, 5⟩]) = W := Option.some.inj hw
  have ok : laidOut 0xE00000E0 [(21, 5), (16, 5)] = true := by decide +kernel
  have ft : Fits [⟨d.toNat, 21, 5⟩, ⟨a.toNat, 16, 5⟩] := ⟨d.isLt, a.isLt, trivial⟩
  have em : fld W 26 6 = 0x38 := read_const hw ok ft (show apart 26 6 [(21, 5), (16, 5)] = true by decide +kernel) (by decide +kernel)
  have ej : fld W 5 6 = 7 := read_const hw ok ft (show apart 5 6 [(21, 5), (16, 5)] = true by decide +kernel) (by decide +kernel)
  have ez1 : fld W 0 5 = 0 := read_const hw ok ft (show apart 0 5 [(21, 5), (16, 5)] = true by decide +kernel) (by decide +kernel)
  have ez2 : fld W 11 5 = 0 := read_const hw ok ft (show apart 11 5 [(21, 5), (16, 5)] = true by decide +kernel) (by decide +kernel)
  have ef1 : bv 5 W 21 = d := read_bv hw ok ft (.head _)
  have ef2 : bv 5 W 16 = a := read_bv hw ok ft (.tail _ (.head _))
  refine ⟨hw ▸ pack_lt ok ft (show inWord [(21, 5), (16, 5)] = true by decide +kernel) (by decide +kernel), .core (.orde d a), ?_, rfl⟩
  rw [decodeNat_38 W em, decRast]
  simp only [ej, ez1, ez2, ef1, ef2, zeros, List.all, beq_self_eq_true, Bool.and_self, if_true]

theorem RoundTrip.blnda (d : BitVec 4) (a : BitVec 5) (p : BitVec 3) (o : BitVec 3) : RoundTrip.Statement (.blnda d a p o) := by
  intro hwf W hw
  have hw : pack 0xE0000100 (strip [⟨d.toNat, 21, 4⟩, ⟨a.toNat, 16, 5⟩, ⟨p.toNat, 11, 3⟩, ⟨o.toNat, 0, 3⟩]) = W := Option.some.inj hw
  have ok : laidOut 0xE0000100 [(21, 4), (16, 5), (11, 3), (0, 3)] = true := by decide +kernel
  have ft : Fits [⟨d.toNat, 21, 4⟩, ⟨a.toNat, 16, 5⟩, ⟨p.toNat, 11, 3⟩, ⟨o.toNat, 0, 3⟩] := ⟨d.isLt, a.isLt, p.isLt, o.isLt, trivial⟩
  have em : fld W 26 6 = 0x38 := read_const hw ok ft (show apart 26 6 [(21, 4), (16, 5), (11, 3), (0, 3)] = true by decide +kernel) (by decide +kernel)
  have ej : fld W 5 6 = 8 := read_const hw ok ft (show apart 5 6 [(21, 4), (16, 5), (11, 3), (0, 3)] = true by decide +kernel) (by decide +kernel)
  have ez1 : fld W 14 2 = 0 := read_const hw ok ft (show apart 14 2 [(21, 4), (16, 5), (11, 3), (0, 3)] = true by decide +kernel) (by decide +kernel)
  have ez2 : fld W 25 1 = 0 := read_const hw ok ft (show apart 25 1 [(21, 4), (16, 5), (11, 3), (0, 3)] = true by decide +kernel) (by decide +kernel)
  have ez3 : fld W 3 2 = 0 := read_const hw ok ft (show apart 3 2 [(21, 4), (16, 5), (11, 3), (0, 3)] = true by decide +kernel) (by decide +kernel)
  have ef1 : bv 4 W 21 = d := read_bv hw ok ft (.head _)
  have ef2 : bv 5 W 16 = a := read_bv hw ok ft (.tail _ (.head _))
  have ef3 : bv 3 W 11 = p := read_bv hw ok ft (.tail _ (.tail _ (.head _)))
  have ef4 : bv 3 W 0 = o := read_bv hw ok ft (.tail _ (.tail _ (.tail _ (.head _))))
  refine ⟨hw ▸ pack_lt ok ft (show inWord [(21, 4), (16, 5), (11, 3), (0, 3)] = true by decide +kernel) (by decide +kernel), .core (.blnda d a p o), ?_, rfl⟩
  rw [decodeNat_38 W em, decRast]
  simp only [ej, ez1, ez2, ez3, ef1, ef2, ef3, ef4, zeros, List.all, beq_self_eq_true, Bool.and_self, if_true, wfOr, hwf]

theorem RoundTrip.ordtok (d : BitVec 5) (a : BitVec 5) (b : BitVec 5) (l : Bool) : RoundTrip.Statement (.ordtok d a b l) := by
  intro hwf W hw
  have hw : pack 0xE0000120 (strip [⟨d.toNat, 21, 5⟩, ⟨a.toNat, 16, 5⟩, ⟨b.toNat, 11, 5⟩, ⟨l.toNat, 0, 1⟩]) = W := Option.some.inj hw
  have ok : laidOut 0xE0000120 [(21, 5), (16, 5), (11, 5), (0, 1)] = true := by decide +kernel
  have ft : Fits [⟨d.toNat, 21, 5⟩, ⟨a.toNat, 16, 5⟩, ⟨b.toNat, 11, 5⟩, ⟨l.toNat, 0, 1⟩] := ⟨d.isLt, a.isLt, b.isLt, l.toNat_lt, trivial⟩
  have em : fld W 26 6 = 0x38 := read_const hw ok ft (show apart 26 6 [(21, 5), (16, 5), (11, 5), (0, 1)] = true by decide +kernel) (by decide +kernel)
  have ej : fld W 5 6 = 9 := read_const hw ok ft (show apart 5 6 [(21, 5), (16, 5), (11, 5), (0, 1)] = true by decide +kernel) (by decide +kernel)
  have ez1 : fld W 1 4 = 0 := read_const hw ok ft (show apart 1 4 [(21, 5), (16, 5), (11, 5), (0, 1)] = true by decide +kernel) (by decide +kernel)
  have ef1 : bv 5 W 21 = d := read_bv hw ok ft (.head _)
  have ef2 : bv 5 W 16 = a := read_bv hw ok ft (.tail _ (.head _))
  have ef3 : bv 5 W 11 = b := read_bv hw ok ft (.tail _ (.tail _ (.head _)))
  have ef4 : flag W 0 = l := read_flag hw ok ft (.tail _ (.tail _ (.tail _ (.head _))))
  refine ⟨hw ▸ pack_lt ok ft (show inWord [(21, 5), (16, 5), (11, 5), (0, 1)] = true by decide +kernel) (by decide +kernel), .core (.ordtok d a b l), ?_, rfl⟩
  rw [decodeNat_38 W em, decRast]
  simp only [ej, ez1, ef1, ef2, ef3, ef4, zeros, List.all, beq_self_eq_true, Bool.and_self, if_true]

theorem RoundTrip.ldefDef (a : BitVec 5) : RoundTrip.Statement (.ldefDef a) := by
  intro hwf W hw
  have hw : pack 0xE8000000 (strip [⟨a.toNat, 16, 5⟩]) = W := Option.some.inj hw
  have ok : laidOut 0xE8000000 [(16, 5)] = true := by decide +kernel
  have ft : Fits [⟨a.toNat, 16, 5⟩] := ⟨a.isLt, trivial⟩
  have em : fld W 26 6 = 0x3A := read_const hw ok ft (show apart 26 6 [(16, 5)] = true by decide +kernel) (by decide +kernel)
  have ej : fld W 5 6 = 0 := read_const hw ok ft (show apart 5 6 [(16, 5)] = true by decide +kernel) (by decide +kernel)
  have ej2 : fld W 0 5 = 0 := read_const hw ok ft (show apart 0 5 [(16, 5)] = true by decide +kernel) (by decide +kernel)
  have ez1 : fld W 11 5 = 0 := read_const hw ok ft (show apart 11 5 [(16, 5)] = true by decide +kernel) (by decide +kernel)
  have ez2 : fld W 21 5 = 0 := read_const hw ok ft (show apart 21 5 [(16, 5)] = true by decide +kernel) (by decide +kernel)
  have ef1 : bv 5 W 16 = a := read_bv hw ok ft (.head _)
  refine ⟨hw ▸ pack_lt ok ft (show inWord [(16, 5)] = true by decide +kernel) (by decide +kernel), .layer (.ldefDef a), ?_, rfl⟩
  rw [decodeNat_3a W em, decLayer]
  simp only [ej, ej2, ez1, ez2, ef1, zeros, List.all, beq_self_eq_true, Bool.and_self, if_true]

theorem RoundTrip.ldefRet (a : BitVec 5) : RoundTrip.Statement (.ldefRet a) := by
  intro hwf W hw
  have hw : pack 0xE8000001 (strip [⟨a.toNat, 16, 5⟩]) = W := Option.some.inj hw
  have ok : laidOut 0xE8000001 [(16, 5)] = true := by decide +kernel
  have ft : Fits [⟨a.toNat, 16, 5⟩] := ⟨a.isLt, trivial⟩
  have em : fld W 26 6 = 0x3A := read_const hw ok ft (show apart 26 6 [(16, 5)] = true by decide +kernel) (by decide +kernel)
  have ej : fld W 5 6 = 0 := read_const hw ok ft (show apart 5 6 [(16, 5)] = true by decide +kernel) (by decide +kernel)
  have ej2 : fld W 0 5 = 1 := read_const hw ok ft (show apart 0 5 [(16, 5)] = true by decide +kernel) (by decide +kernel)
  have ez1 : fld W 11 5 = 0 := read_const hw ok ft (show apart 11 5 [(16, 5)] = true by decide +kernel) (by decide +kernel)
  have ez2 : fld W 21 5 = 0 := read_const hw ok ft (show apart 21 5 [(16, 5)] = true by decide +kernel) (by decide +kernel)
  have ef1 : bv 5 W 16 = a := read_bv hw ok ft (.head _)
  refine ⟨hw ▸ pack_lt ok ft (show inWord [(16, 5)] = true by decide +kernel) (by decide +kernel), .layer (.ldefRet a), ?_, rfl⟩
  rw [decodeNat_3a W em, decLayer]
  simp only [ej, ej2, ez1, ez2, ef1, zeros, List.all, beq_self_eq_true, Bool.and_self, if_true]

theorem RoundTrip.ldefPose (a : BitVec 5) (b : BitVec 5) : RoundTrip.Statement (.ldefPose a b) := by
  intro hwf W hw
  have hw : pack 0xE8000002 (strip [⟨a.toNat, 16, 5⟩, ⟨b.toNat, 11, 5⟩]) = W := Option.some.inj hw
  have ok : laidOut 0xE8000002 [(16, 5), (11, 5)] = true := by decide +kernel
  have ft : Fits [⟨a.toNat, 16, 5⟩, ⟨b.toNat, 11, 5⟩] := ⟨a.isLt, b.isLt, trivial⟩
  have em : fld W 26 6 = 0x3A := read_const hw ok ft (show apart 26 6 [(16, 5), (11, 5)] = true by decide +kernel) (by decide +kernel)
  have ej : fld W 5 6 = 0 := read_const hw ok ft (show apart 5 6 [(16, 5), (11, 5)] = true by decide +kernel) (by decide +kernel)
  have ej2 : fld W 0 5 = 2 := read_const hw ok ft (show apart 0 5 [(16, 5), (11, 5)] = true by decide +kernel) (by decide +kernel)
  have ez1 : fld W 21 5 = 0 := read_const hw ok ft (show apart 21 5 [(16, 5), (11, 5)] = true by decide +kernel) (by decide +kernel)
  have ef1 : bv 5 W 16 = a := read_bv hw ok ft (.head _)
  have ef2 : bv 5 W 11 = b := read_bv hw ok ft (.tail _ (.head _))
  refine ⟨hw ▸ pack_lt ok ft (show inWord [(16, 5), (11, 5)] = true by decide +kernel) (by decide +kernel), .layer (.ldefPose a b), ?_, rfl⟩
  rw [decodeNat_3a W em, decLayer]
  simp only [ej, ej2, ez1, ef1, ef2, zeros, List.all, beq_self_eq_true, Bool.and_self, if_true]

theorem RoundTrip.lwarp (d : BitVec 4) (a : BitVec 5) (b : BitVec 4) (p : BitVec 3) : RoundTrip.Statement (.lwarp d a b p) := by
  intro hwf W hw
  have hwf : LayerOp.wf (.lwarp d a b p) = true := hwf
  have hw : pack 0xE8000020 (strip [⟨d.toNat, 21, 4⟩, ⟨a.toNat, 16, 5⟩, ⟨b.toNat, 11, 4⟩, ⟨p.toNat, 0, 3⟩]) = W := Option.some.inj hw
  have ok : laidOut 0xE8000020 [(21, 4), (16, 5), (11, 4), (0, 3)] = true := by decide +kernel
  have ft : Fits [⟨d.toNat, 21, 4⟩, ⟨a.toNat, 16, 5⟩, ⟨b.toNat, 11, 4⟩, ⟨p.toNat, 0, 3⟩] := ⟨d.isLt, a.isLt, b.isLt, p.isLt, trivial⟩
  have em : fld W 26 6 = 0x3A := read_const hw ok ft (show apart 26 6 [(21, 4), (16, 5), (11, 4), (0, 3)] = true by decide +kernel) (by decide +kernel)
  have ej : fld W 5 6 = 1 := read_const hw ok ft (show apart 5 6 [(21, 4), (16, 5), (11, 4), (0, 3)] = true by decide +kernel) (by decide +kernel)
  have ez1 : fld W 15 1 = 0 := read_const hw ok ft (show apart 15 1 [(21, 4), (16, 5), (11, 4), (0, 3)] = true by decide +kernel) (by decide +kernel)
  have ez2 : fld W 25 1 = 0 := read_const hw ok ft (show apart 25 1 [(21, 4), (16, 5), (11, 4), (0, 3)] = true by decide +kernel) (by decide +kernel)
  have ez3 : fld W 3 2 = 0 := read_const hw ok ft (show apart 3 2 [(21, 4), (16, 5), (11, 4), (0, 3)] = true by decide +kernel) (by decide +kernel)
  have ef1 : bv 4 W 21 = d := read_bv hw ok ft (.head _)
  have ef2 : bv 5 W 16 = a := read_bv hw ok ft (.tail _ (.head _))
  have ef3 : bv 4 W 11 = b := read_bv hw ok ft (.tail _ (.tail _ (.head _)))
  have ef4 : bv 3 W 0 = p := read_bv hw ok ft (.tail _ (.tail _ (.tail _ (.head _))))
  refine ⟨hw ▸ pack_lt ok ft (show inWord [(21, 4), (16, 5), (11, 4), (0, 3)] = true by decide +kernel) (by decide +kernel), .layer (.lwarp d a b p), ?_, rfl⟩
  rw [decodeNat_3a W em, decLayer]
  simp only [ej, ez1, ez2, ez3, ef1, ef2, ef3, ef4, zeros, List.all, beq_self_eq_true, Bool.and_self, if_true, layOr, hwf]

theorem RoundTrip.lerr (d : BitVec 5) (a : BitVec 5) (n : BitVec 5) : RoundTrip.Statement (.lerr d a n) := by
  intro hwf W hw
  have hwf : LayerOp.wf (.lerr d a n) = true := hwf
  have hw : pack 0xE8000040 (strip [⟨d.toNat, 21, 5⟩, ⟨a.toNat, 16, 5⟩, ⟨n.toNat, 0, 5⟩]) = W := Option.some.inj hw
  have ok : laidOut 0xE8000040 [(21, 5), (16, 5), (0, 5)] = true := by decide +kernel
  have ft : Fits [⟨d.toNat, 21, 5⟩, ⟨a.toNat, 16, 5⟩, ⟨n.toNat, 0, 5⟩] := ⟨d.isLt, a.isLt, n.isLt, trivial⟩
  have em : fld W 26 6 = 0x3A := read_const hw ok ft (show apart 26 6 [(21, 5), (16, 5), (0, 5)] = true by decide +kernel) (by decide +kernel)
  have ej : fld W 5 6 = 2 := read_const hw ok ft (show apart 5 6 [(21, 5), (16, 5), (0, 5)] = true by decide +kernel) (by decide +kernel)
  have ez1 : fld W 11 5 = 0 := read_const hw ok ft (show apart 11 5 [(21, 5), (16, 5), (0, 5)] = true by decide +kernel) (by decide +kernel)
  have ef1 : bv 5 W 21 = d := read_bv hw ok ft (.head _)
  have ef2 : bv 5 W 16 = a := read_bv hw ok ft (.tail _ (.head _))
  have ef3 : bv 5 W 0 = n := read_bv hw ok ft (.tail _ (.tail _ (.head _)))
  refine ⟨hw ▸ pack_lt ok ft (show inWord [(21, 5), (16, 5), (0, 5)] = true by decide +kernel) (by decide +kernel), .layer (.lerr d a n), ?_, rfl⟩
  rw [decodeNat_3a W em, decLayer]
  simp only [ej, ez1, ef1, ef2, ef3, zeros, List.all, beq_self_eq_true, Bool.and_self, if_true, layOr, hwf]

theorem RoundTrip.lprice (a : BitVec 5) (b : BitVec 5) : RoundTrip.Statement (.lprice a b) := by
  intro hwf W hw
  have hw : pack 0xE8000060 (strip [⟨a.toNat, 16, 5⟩, ⟨b.toNat, 11, 5⟩]) = W := Option.some.inj hw
  have ok : laidOut 0xE8000060 [(16, 5), (11, 5)] = true := by decide +kernel
  have ft : Fits [⟨a.toNat, 16, 5⟩, ⟨b.toNat, 11, 5⟩] := ⟨a.isLt, b.isLt, trivial⟩
  have em : fld W 26 6 = 0x3A := read_const hw ok ft (show apart 26 6 [(16, 5), (11, 5)] = true by decide +kernel) (by decide +kernel)
  have ej : fld W 5 6 = 3 := read_const hw ok ft (show apart 5 6 [(16, 5), (11, 5)] = true by decide +kernel) (by decide +kernel)
  have ez1 : fld W 0 5 = 0 := read_const hw ok ft (show apart 0 5 [(16, 5), (11, 5)] = true by decide +kernel) (by decide +kernel)
  have ez2 : fld W 21 5 = 0 := read_const hw ok ft (show apart 21 5 [(16, 5), (11, 5)] = true by decide +kernel) (by decide +kernel)
  have ef1 : bv 5 W 16 = a := read_bv hw ok ft (.head _)
  have ef2 : bv 5 W 11 = b := read_bv hw ok ft (.tail _ (.head _))
  refine ⟨hw ▸ pack_lt ok ft (show inWord [(16, 5), (11, 5)] = true by decide +kernel) (by decide +kernel), .layer (.lprice a b), ?_, rfl⟩
  rw [decodeNat_3a W em, decLayer]
  simp only [ej, ez1, ez2, ef1, ef2, zeros, List.all, beq_self_eq_true, Bool.and_self, if_true]

theorem RoundTrip.lframe (d : BitVec 5) : RoundTrip.Statement (.lframe d) := by
  intro hwf W hw
  have hw : pack 0xE8000080 (strip [⟨d.toNat, 21, 5⟩]) = W := Option.some.inj hw
  have ok : laidOut 0xE8000080 [(21, 5)] = true := by decide +kernel
  have ft : Fits [⟨d.toNat, 21, 5⟩] := ⟨d.isLt, trivial⟩
  have em : fld W 26 6 = 0x3A := read_const hw ok ft (show apart 26 6 [(21, 5)] = true by decide +kernel) (by decide +kernel)
  have ej : fld W 5 6 = 4 := read_const hw ok ft (show apart 5 6 [(21, 5)] = true by decide +kernel) (by decide +kernel)
  have ez1 : fld W 0 5 = 0 := read_const hw ok ft (show apart 0 5 [(21, 5)] = true by decide +kernel) (by decide +kernel)
  have ez2 : fld W 11 10 = 0 := read_const hw ok ft (show apart 11 10 [(21, 5)] = true by decide +kernel) (by decide +kernel)
  have ef1 : bv 5 W 21 = d := read_bv hw ok ft (.head _)
  refine ⟨hw ▸ pack_lt ok ft (show inWord [(21, 5)] = true by decide +kernel) (by decide +kernel), .layer (.lframe d), ?_, rfl⟩
  rw [decodeNat_3a W em, decLayer]
  simp only [ej, ez1, ez2, ef1, zeros, List.all, beq_self_eq_true, Bool.and_self, if_true]

theorem RoundTrip.lreq (d : BitVec 5) (a : BitVec 5) (n : Bool) : RoundTrip.Statement (.lreq d a n) := by
  intro hwf W hw
  have hw : pack 0xE80000A0 (strip [⟨d.toNat, 21, 5⟩, ⟨a.toNat, 16, 5⟩, ⟨n.toNat, 0, 1⟩]) = W := Option.some.inj hw
  have ok : laidOut 0xE80000A0 [(21, 5), (16, 5), (0, 1)] = true := by decide +kernel
  have ft : Fits [⟨d.toNat, 21, 5⟩, ⟨a.toNat, 16, 5⟩, ⟨n.toNat, 0, 1⟩] := ⟨d.isLt, a.isLt, n.toNat_lt, trivial⟩
  have em : fld W 26 6 = 0x3A := read_const hw ok ft (show apart 26 6 [(21, 5), (16, 5), (0, 1)] = true by decide +kernel) (by decide +kernel)
  have ej : fld W 5 6 = 5 := read_const hw ok ft (show apart 5 6 [(21, 5), (16, 5), (0, 1)] = true by decide +kernel) (by decide +kernel)
  have ez1 : fld W 1 4 = 0 := read_const hw ok ft (show apart 1 4 [(21, 5), (16, 5), (0, 1)] = true by decide +kernel) (by decide +kernel)
  have ez2 : fld W 11 5 = 0 := read_const hw ok ft (show apart 11 5 [(21, 5), (16, 5), (0, 1)] = true by decide +kernel) (by decide +kernel)
  have ef1 : bv 5 W 21 = d := read_bv hw ok ft (.head _)
  have ef2 : bv 5 W 16 = a := read_bv hw ok ft (.tail _ (.head _))
  have ef3 : flag W 0 = n := read_flag hw ok ft (.tail _ (.tail _ (.head _)))
  refine ⟨hw ▸ pack_lt ok ft (show inWord [(21, 5), (16, 5), (0, 1)] = true by decide +kernel) (by decide +kernel), .layer (.lreq d a n), ?_, rfl⟩
  rw [decodeNat_3a W em, decLayer]
  simp only [ej, ez1, ez2, ef1, ef2, ef3, zeros, List.all, beq_self_eq_true, Bool.and_self, if_true]

theorem RoundTrip.lsplit (a : BitVec 5) (b : BitVec 5) : RoundTrip.Statement (.lsplit a b) := by
  intro hwf W hw
  have hw : pack 0xE80000C0 (strip [⟨a.toNat, 16, 5⟩, ⟨b.toNat, 11, 5⟩]) = W := Option.some.inj hw
  have ok : laidOut 0xE80000C0 [(16, 5), (11, 5)] = true := by decide +kernel
  have ft : Fits [⟨a.toNat, 16, 5⟩, ⟨b.toNat, 11, 5⟩] := ⟨a.isLt, b.isLt, trivial⟩
  have em : fld W 26 6 = 0x3A := read_const hw ok ft (show apart 26 6 [(16, 5), (11, 5)] = true by decide +kernel) (by decide +kernel)
  have ej : fld W 5 6 = 6 := read_const hw ok ft (show apart 5 6 [(16, 5), (11, 5)] = true by decide +kernel) (by decide +kernel)
  have ez1 : fld W 0 5 = 0 := read_const hw ok ft (show apart 0 5 [(16, 5), (11, 5)] = true by decide +kernel) (by decide +kernel)
  have ez2 : fld W 21 5 = 0 := read_const hw ok ft (show apart 21 5 [(16, 5), (11, 5)] = true by decide +kernel) (by decide +kernel)
  have ef1 : bv 5 W 16 = a := read_bv hw ok ft (.head _)
  have ef2 : bv 5 W 11 = b := read_bv hw ok ft (.tail _ (.head _))
  refine ⟨hw ▸ pack_lt ok ft (show inWord [(16, 5), (11, 5)] = true by decide +kernel) (by decide +kernel), .layer (.lsplit a b), ?_, rfl⟩
  rw [decodeNat_3a W em, decLayer]
  simp only [ej, ez1, ez2, ef1, ef2, zeros, List.all, beq_self_eq_true, Bool.and_self, if_true]

theorem RoundTrip.lmerge (a : BitVec 5) (b : BitVec 5) : RoundTrip.Statement (.lmerge a b) := by
  intro hwf W hw
  have hw : pack 0xE80000E0 (strip [⟨a.toNat, 16, 5⟩, ⟨b.toNat, 11, 5⟩]) = W := Option.some.inj hw
  have ok : laidOut 0xE80000E0 [(16, 5), (11, 5)] = true := by decide +kernel
  have ft : Fits [⟨a.toNat, 16, 5⟩, ⟨b.toNat, 11, 5⟩] := ⟨a.isLt, b.isLt, trivial⟩
  have em : fld W 26 6 = 0x3A := read_const hw ok ft (show apart 26 6 [(16, 5), (11, 5)] = true by decide +kernel) (by decide +kernel)
  have ej : fld W 5 6 = 7 := read_const hw ok ft (show apart 5 6 [(16, 5), (11, 5)] = true by decide +kernel) (by decide +kernel)
  have ez1 : fld W 0 5 = 0 := read_const hw ok ft (show apart 0 5 [(16, 5), (11, 5)] = true by decide +kernel) (by decide +kernel)
  have ez2 : fld W 21 5 = 0 := read_const hw ok ft (show apart 21 5 [(16, 5), (11, 5)] = true by decide +kernel) (by decide +kernel)
  have ef1 : bv 5 W 16 = a := read_bv hw ok ft (.head _)
  have ef2 : bv 5 W 11 = b := read_bv hw ok ft (.tail _ (.head _))
  refine ⟨hw ▸ pack_lt ok ft (show inWord [(16, 5), (11, 5)] = true by decide +kernel) (by decide +kernel), .layer (.lmerge a b), ?_, rfl⟩
  rw [decodeNat_3a W em, decLayer]
  simp only [ej, ez1, ez2, ef1, ef2, zeros, List.all, beq_self_eq_true, Bool.and_self, if_true]

theorem RoundTrip.ldep (d : BitVec 5) (a : BitVec 5) (b : BitVec 5) : RoundTrip.Statement (.ldep d a b) := by
  intro hwf W hw
  have hw : pack 0xE8000100 (strip [⟨d.toNat, 21, 5⟩, ⟨a.toNat, 16, 5⟩, ⟨b.toNat, 11, 5⟩]) = W := Option.some.inj hw
  have ok : laidOut 0xE8000100 [(21, 5), (16, 5), (11, 5)] = true := by decide +kernel
  have ft : Fits [⟨d.toNat, 21, 5⟩, ⟨a.toNat, 16, 5⟩, ⟨b.toNat, 11, 5⟩] := ⟨d.isLt, a.isLt, b.isLt, trivial⟩
  have em : fld W 26 6 = 0x3A := read_const hw ok ft (show apart 26 6 [(21, 5), (16, 5), (11, 5)] = true by decide +kernel) (by decide +kernel)
  have ej : fld W 5 6 = 8 := read_const hw ok ft (show apart 5 6 [(21, 5), (16, 5), (11, 5)] = true by decide +kernel) (by decide +kernel)
  have ez1 : fld W 0 5 = 0 := read_const hw ok ft (show apart 0 5 [(21, 5), (16, 5), (11, 5)] = true by decide +kernel) (by decide +kernel)
  have ef1 : bv 5 W 21 = d := read_bv hw ok ft (.head _)
  have ef2 : bv 5 W 16 = a := read_bv hw ok ft (.tail _ (.head _))
  have ef3 : bv 5 W 11 = b := read_bv hw ok ft (.tail _ (.tail _ (.head _)))
  refine ⟨hw ▸ pack_lt ok ft (show inWord [(21, 5), (16, 5), (11, 5)] = true by decide +kernel) (by decide +kernel), .layer (.ldep d a b), ?_, rfl⟩
  rw [decodeNat_3a W em, decLayer]
  simp only [ej, ez1, ef1, ef2, ef3, zeros, List.all, beq_self_eq_true, Bool.and_self, if_true]

theorem RoundTrip.lorder (a : BitVec 5) (b : BitVec 5) : RoundTrip.Statement (.lorder a b) := by
  intro hwf W hw
  have hw : pack 0xE8000120 (strip [⟨a.toNat, 16, 5⟩, ⟨b.toNat, 11, 5⟩]) = W := Option.some.inj hw
  have ok : laidOut 0xE8000120 [(16, 5), (11, 5)] = true := by decide +kernel
  have ft : Fits [⟨a.toNat, 16, 5⟩, ⟨b.toNat, 11, 5⟩] := ⟨a.isLt, b.isLt, trivial⟩
  have em : fld W 26 6 = 0x3A := read_const hw ok ft (show apart 26 6 [(16, 5), (11, 5)] = true by decide +kernel) (by decide +kernel)
  have ej : fld W 5 6 = 9 := read_const hw ok ft (show apart 5 6 [(16, 5), (11, 5)] = true by decide +kernel) (by decide +kernel)
  have ez1 : fld W 0 5 = 0 := read_const hw ok ft (show apart 0 5 [(16, 5), (11, 5)] = true by decide +kernel) (by decide +kernel)
  have ez2 : fld W 21 5 = 0 := read_const hw ok ft (show apart 21 5 [(16, 5), (11, 5)] = true by decide +kernel) (by decide +kernel)
  have ef1 : bv 5 W 16 = a := read_bv hw ok ft (.head _)
  have ef2 : bv 5 W 11 = b := read_bv hw ok ft (.tail _ (.head _))
  refine ⟨hw ▸ pack_lt ok ft (show inWord [(16, 5), (11, 5)] = true by decide +kernel) (by decide +kernel), .layer (.lorder a b), ?_, rfl⟩
  rw [decodeNat_3a W em, decLayer]
  simp only [ej, ez1, ez2, ef1, ef2, zeros, List.all, beq_self_eq_true, Bool.and_self, if_true]

theorem RoundTrip.lres (d : BitVec 4) (a : BitVec 4) (b : BitVec 4) (p : BitVec 3) : RoundTrip.Statement (.lres d a b p) := by
  intro hwf W hw
  have hwf : LayerOp.wf (.lres d a b p) = true := hwf
  have hw : pack 0xE8000140 (strip [⟨d.toNat, 21, 4⟩, ⟨a.toNat, 16, 4⟩, ⟨b.toNat, 11, 4⟩, ⟨p.toNat, 0, 3⟩]) = W := Option.some.inj hw
  have ok : laidOut 0xE8000140 [(21, 4), (16, 4), (11, 4), (0, 3)] = true := by decide +kernel
  have ft : Fits [⟨d.toNat, 21, 4⟩, ⟨a.toNat, 16, 4⟩, ⟨b.toNat, 11, 4⟩, ⟨p.toNat, 0, 3⟩] := ⟨d.isLt, a.isLt, b.isLt, p.isLt, trivial⟩
  have em : fld W 26 6 = 0x3A := read_const hw ok ft (show apart 26 6 [(21, 4), (16, 4), (11, 4), (0, 3)] = true by decide +kernel) (by decide +kernel)
  have ej : fld W 5 6 = 10 := read_const hw ok ft (show apart 5 6 [(21, 4), (16, 4), (11, 4), (0, 3)] = true by decide +kernel) (by decide +kernel)
  have ez1 : fld W 15 1 = 0 := read_const hw ok ft (show apart 15 1 [(21, 4), (16, 4), (11, 4), (0, 3)] = true by decide +kernel) (by decide +kernel)
  have ez2 : fld W 20 1 = 0 := read_const hw ok ft (show apart 20 1 [(21, 4), (16, 4), (11, 4), (0, 3)] = true by decide +kernel) (by decide +kernel)
  have ez3 : fld W 25 1 = 0 := read_const hw ok ft (show apart 25 1 [(21, 4), (16, 4), (11, 4), (0, 3)] = true by decide +kernel) (by decide +kernel)
  have ez4 : fld W 3 2 = 0 := read_const hw ok ft (show apart 3 2 [(21, 4), (16, 4), (11, 4), (0, 3)] = true by decide +kernel) (by decide +kernel)
  have ef1 : bv 4 W 21 = d := read_bv hw ok ft (.head _)
  have ef2 : bv 4 W 16 = a := read_bv hw ok ft (.tail _ (.head _))
  have ef3 : bv 4 W 11 = b := read_bv hw ok ft (.tail _ (.tail _ (.head _)))
  have ef4 : bv 3 W 0 = p := read_bv hw ok ft (.tail _ (.tail _ (.tail _ (.head _))))
  refine ⟨hw ▸ pack_lt ok ft (show inWord [(21, 4), (16, 4), (11, 4), (0, 3)] = true by decide +kernel) (by decide +kernel), .layer (.lres d a b p), ?_, rfl⟩
  rw [decodeNat_3a W em, decLayer]
  simp only [ej, ez1, ez2, ez3, ez4, ef1, ef2, ef3, ef4, zeros, List.all, beq_self_eq_true, Bool.and_self, if_true, layOr, hwf]

theorem RoundTrip.nop : RoundTrip.Statement .nop := by
  intro hwf W hw
  have hw : pack 0x44000000 (strip []) = W := Option.some.inj hw
  have ok : laidOut 0x44000000 [] = true := by decide +kernel
  have ft : Fits [] := trivial
  have em : fld W 26 6 = 0x11 := read_const hw ok ft (show apart 26 6 [] = true by decide +kernel) (by decide +kernel)
  have ej : fld W 5 6 = 0 := read_const hw ok ft (show apart 5 6 [] = true by decide +kernel) (by decide +kernel)
  have ez1 : fld W 0 5 = 0 := read_const hw ok ft (show apart 0 5 [] = true by decide +kernel) (by decide +kernel)
  have ez2 : fld W 11 15 = 0 := read_const hw ok ft (show apart 11 15 [] = true by decide +kernel) (by decide +kernel)
  refine ⟨hw ▸ pack_lt ok ft (show inWord [] = true by decide +kernel) (by decide +kernel), .core .nop, ?_, rfl⟩
  rw [decodeNat_11 W em, decSys]
  simp only [ej, ez1, ez2, zeros, List.all, beq_self_eq_true, Bool.and_self, if_true]

theorem RoundTrip.yield : RoundTrip.Statement .yield := by
  intro hwf W hw
  have hw : pack 0x44000020 (strip []) = W := Option.some.inj hw
  have ok : laidOut 0x44000020 [] = true := by decide +kernel
  have ft : Fits [] := trivial
  have em : fld W 26 6 = 0x11 := read_const hw ok ft (show apart 26 6 [] = true by decide +kernel) (by decide +kernel)
  have ej : fld W 5 6 = 1 := read_const hw ok ft (show apart 5 6 [] = true by decide +kernel) (by decide +kernel)
  have ez1 : fld W 0 5 = 0 := read_const hw ok ft (show apart 0 5 [] = true by decide +kernel) (by decide +kernel)
  have ez2 : fld W 11 15 = 0 := read_const hw ok ft (show apart 11 15 [] = true by decide +kernel) (by decide +kernel)
  refine ⟨hw ▸ pack_lt ok ft (show inWord [] = true by decide +kernel) (by decide +kernel), .core .yield, ?_, rfl⟩
  rw [decodeNat_11 W em, decSys]
  simp only [ej, ez1, ez2, zeros, List.all, beq_self_eq_true, Bool.and_self, if_true]

theorem RoundTrip.stop : RoundTrip.Statement .stop := by
  intro hwf W hw
  have hw : pack 0x44000040 (strip []) = W := Option.some.inj hw
  have ok : laidOut 0x44000040 [] = true := by decide +kernel
  have ft : Fits [] := trivial
  have em : fld W 26 6 = 0x11 := read_const hw ok ft (show apart 26 6 [] = true by decide +kernel) (by decide +kernel)
  have ej : fld W 5 6 = 2 := read_const hw ok ft (show apart 5 6 [] = true by decide +kernel) (by decide +kernel)
  have ez1 : fld W 0 5 = 0 := read_const hw ok ft (show apart 0 5 [] = true by decide +kernel) (by decide +kernel)
  have ez2 : fld W 11 15 = 0 := read_const hw ok ft (show apart 11 15 [] = true by decide +kernel) (by decide +kernel)
  refine ⟨hw ▸ pack_lt ok ft (show inWord [] = true by decide +kernel) (by decide +kernel), .core .stop, ?_, rfl⟩
  rw [decodeNat_11 W em, decSys]
  simp only [ej, ez1, ez2, zeros, List.all, beq_self_eq_true, Bool.and_self, if_true]

theorem RoundTrip.tret : RoundTrip.Statement .tret := by
  intro hwf W hw
  have hw : pack 0x440001A0 (strip []) = W := Option.some.inj hw
  have ok : laidOut 0x440001A0 [] = true := by decide +kernel
  have ft : Fits [] := trivial
  have em : fld W 26 6 = 0x11 := read_const hw ok ft (show apart 26 6 [] = true by decide +kernel) (by decide +kernel)
  have ej : fld W 5 6 = 13 := read_const hw ok ft (show apart 5 6 [] = true by decide +kernel) (by decide +kernel)
  have ez1 : fld W 0 5 = 0 := read_const hw ok ft (show apart 0 5 [] = true by decide +kernel) (by decide +kernel)
  have ez2 : fld W 11 15 = 0 := read_const hw ok ft (show apart 11 15 [] = true by decide +kernel) (by decide +kernel)
  refine ⟨hw ▸ pack_lt ok ft (show inWord [] = true by decide +kernel) (by decide +kernel), .core .tret, ?_, rfl⟩
  rw [decodeNat_11 W em, decSys]
  simp only [ej, ez1, ez2, zeros, List.all, beq_self_eq_true, Bool.and_self, if_true]

theorem RoundTrip.uret : RoundTrip.Statement .uret := by
  intro hwf W hw
  have hw : pack 0x440001C0 (strip []) = W := Option.some.inj hw
  have ok : laidOut 0x440001C0 [] = true := by decide +kernel
  have ft : Fits [] := trivial
  have em : fld W 26 6 = 0x11 := read_const hw ok ft (show apart 26 6 [] = true by decide +kernel) (by decide +kernel)
  have ej : fld W 5 6 = 14 := read_const hw ok ft (show apart 5 6 [] = true by decide +kernel) (by decide +kernel)
  have ez1 : fld W 0 5 = 0 := read_const hw ok ft (show apart 0 5 [] = true by decide +kernel) (by decide +kernel)
  have ez2 : fld W 11 15 = 0 := read_const hw ok ft (show apart 11 15 [] = true by decide +kernel) (by decide +kernel)
  refine ⟨hw ▸ pack_lt ok ft (show inWord [] = true by decide +kernel) (by decide +kernel), .core .uret, ?_, rfl⟩
  rw [decodeNat_11 W em, decSys]
  simp only [ej, ez1, ez2, zeros, List.all, beq_self_eq_true, Bool.and_self, if_true]

theorem RoundTrip.home : RoundTrip.Statement .home := by
  intro hwf W hw
  have hw : pack 0x58000020 (strip []) = W := Option.some.inj hw
  have ok : laidOut 0x58000020 [] = true := by decide +kernel
  have ft : Fits [] := trivial
  have em : fld W 26 6 = 0x16 := read_const hw ok ft (show apart 26 6 [] = true by decide +kernel) (by decide +kernel)
  have ej : fld W 5 6 = 1 := read_const hw ok ft (show apart 5 6 [] = true by decide +kernel) (by decide +kernel)
  have ez1 : fld W 0 5 = 0 := read_const hw ok ft (show apart 0 5 [] = true by decide +kernel) (by decide +kernel)
  have ez2 : fld W 11 15 = 0 := read_const hw ok ft (show apart 11 15 [] = true by decide +kernel) (by decide +kernel)
  refine ⟨hw ▸ pack_lt ok ft (show inWord [] = true by decide +kernel) (by decide +kernel), .core .home, ?_, rfl⟩
  rw [decodeNat_16 W em, decMig]
  simp only [ej, ez1, ez2, zeros, List.all, beq_self_eq_true, Bool.and_self, if_true]

theorem RoundTrip.stay : RoundTrip.Statement .stay := by
  intro hwf W hw
  have hw : pack 0x58000060 (strip []) = W := Option.some.inj hw
  have ok : laidOut 0x58000060 [] = true := by decide +kernel
  have ft : Fits [] := trivial
  have em : fld W 26 6 = 0x16 := read_const hw ok ft (show apart 26 6 [] = true by decide +kernel) (by decide +kernel)
  have ej : fld W 5 6 = 3 := read_const hw ok ft (show apart 5 6 [] = true by decide +kernel) (by decide +kernel)
  have ez1 : fld W 0 5 = 0 := read_const hw ok ft (show apart 0 5 [] = true by decide +kernel) (by decide +kernel)
  have ez2 : fld W 11 15 = 0 := read_const hw ok ft (show apart 11 15 [] = true by decide +kernel) (by decide +kernel)
  refine ⟨hw ▸ pack_lt ok ft (show inWord [] = true by decide +kernel) (by decide +kernel), .core .stay, ?_, rfl⟩
  rw [decodeNat_16 W em, decMig]
  simp only [ej, ez1, ez2, zeros, List.all, beq_self_eq_true, Bool.and_self, if_true]

theorem RoundTrip.balign : RoundTrip.Statement .balign := by
  intro hwf W hw
  have hw : pack 0xA8000060 (strip []) = W := Option.some.inj hw
  have ok : laidOut 0xA8000060 [] = true := by decide +kernel
  have ft : Fits [] := trivial
  have em : fld W 26 6 = 0x2A := read_const hw ok ft (show apart 26 6 [] = true by decide +kernel) (by decide +kernel)
  have ej : fld W 5 6 = 3 := read_const hw ok ft (show apart 5 6 [] = true by decide +kernel) (by decide +kernel)
  have ez1 : fld W 0 5 = 0 := read_const hw ok ft (show apart 0 5 [] = true by decide +kernel) (by decide +kernel)
  have ez2 : fld W 11 15 = 0 := read_const hw ok ft (show apart 11 15 [] = true by decide +kernel) (by decide +kernel)
  refine ⟨hw ▸ pack_lt ok ft (show inWord [] = true by decide +kernel) (by decide +kernel), .core .balign, ?_, rfl⟩
  rw [decodeNat_2a W em, decBits]
  simp only [ej, ez1, ez2, zeros, List.all, beq_self_eq_true, Bool.and_self, if_true]

theorem RoundTrip.mwait : RoundTrip.Statement .mwait := by
  intro hwf W hw
  have hw : pack 0xC4000000 (strip []) = W := Option.some.inj hw
  have ok : laidOut 0xC4000000 [] = true := by decide +kernel
  have ft : Fits [] := trivial
  have em : fld W 26 6 = 0x31 := read_const hw ok ft (show apart 26 6 [] = true by decide +kernel) (by decide +kernel)
  have ej : fld W 5 6 = 0 := read_const hw ok ft (show apart 5 6 [] = true by decide +kernel) (by decide +kernel)
  have ez1 : fld W 0 5 = 0 := read_const hw ok ft (show apart 0 5 [] = true by decide +kernel) (by decide +kernel)
  have ez2 : fld W 11 15 = 0 := read_const hw ok ft (show apart 11 15 [] = true by decide +kernel) (by decide +kernel)
  refine ⟨hw ▸ pack_lt ok ft (show inWord [] = true by decide +kernel) (by decide +kernel), .core .mwait, ?_, rfl⟩
  rw [decodeNat_31 W em, decMsys]
  simp only [ej, ez1, ez2, zeros, List.all, beq_self_eq_true, Bool.and_self, if_true]

theorem RoundTrip.prdone : RoundTrip.Statement .prdone := by
  intro hwf W hw
  have hw : pack 0xCC000040 (strip []) = W := Option.some.inj hw
  have ok : laidOut 0xCC000040 [] = true := by decide +kernel
  have ft : Fits [] := trivial
  have em : fld W 26 6 = 0x33 := read_const hw ok ft (show apart 26 6 [] = true by decide +kernel) (by decide +kernel)
  have ej : fld W 5 6 = 2 := read_const hw ok ft (show apart 5 6 [] = true by decide +kernel) (by decide +kernel)
  have ez1 : fld W 0 5 = 0 := read_const hw ok ft (show apart 0 5 [] = true by decide +kernel) (by decide +kernel)
  have ez2 : fld W 11 15 = 0 := read_const hw ok ft (show apart 11 15 [] = true by decide +kernel) (by decide +kernel)
  refine ⟨hw ▸ pack_lt ok ft (show inWord [] = true by decide +kernel) (by decide +kernel), .core .prdone, ?_, rfl⟩
  rw [decodeNat_33 W em, decProc]
  simp only [ej, ez1, ez2, zeros, List.all, beq_self_eq_true, Bool.and_self, if_true]

theorem RoundTrip.instructionFetch : RoundTrip.Statement .instructionFetch := noWord rfl

theorem RoundTrip.chargedCauseDeliver : RoundTrip.Statement .chargedCauseDeliver := noWord rfl

theorem RoundTrip.storePathError : RoundTrip.Statement .storePathError := noWord rfl

theorem RoundTrip.upcallDeliver : RoundTrip.Statement .upcallDeliver := noWord rfl

theorem RoundTrip.waitWake : RoundTrip.Statement .waitWake := noWord rfl

theorem RoundTrip.announcementArrive : RoundTrip.Statement .announcementArrive := noWord rfl

theorem RoundTrip.acceptRecord : RoundTrip.Statement .acceptRecord := noWord rfl

theorem RoundTrip.placePour : RoundTrip.Statement .placePour := noWord rfl

theorem RoundTrip.controlContextStart : RoundTrip.Statement .controlContextStart := noWord rfl

theorem RoundTrip.zeroFillStep : RoundTrip.Statement .zeroFillStep := noWord rfl

theorem RoundTrip.shotRetire : RoundTrip.Statement .shotRetire := noWord rfl

theorem RoundTrip.sliceExpire : RoundTrip.Statement .sliceExpire := noWord rfl

theorem RoundTrip.preemptCut : RoundTrip.Statement .preemptCut := noWord rfl

theorem RoundTrip.markerArrive : RoundTrip.Statement .markerArrive := noWord rfl

theorem RoundTrip.pourResume : RoundTrip.Statement .pourResume := noWord rfl

theorem RoundTrip.checkpointStored : RoundTrip.Statement .checkpointStored := noWord rfl

theorem RoundTrip.helperAssign : RoundTrip.Statement .helperAssign := noWord rfl

theorem RoundTrip.kettleDecrement : RoundTrip.Statement .kettleDecrement := noWord rfl

theorem RoundTrip.messageArrive : RoundTrip.Statement .messageArrive := noWord rfl

theorem RoundTrip.allowGrantArrive : RoundTrip.Statement .allowGrantArrive := noWord rfl

theorem RoundTrip.dripArrive : RoundTrip.Statement .dripArrive := noWord rfl

theorem RoundTrip.migrationArrive : RoundTrip.Statement .migrationArrive := noWord rfl

theorem RoundTrip.visitorAdmit : RoundTrip.Statement .visitorAdmit := noWord rfl

theorem RoundTrip.txwakeStart : RoundTrip.Statement .txwakeStart := noWord rfl

theorem RoundTrip.barrierSweepHop : RoundTrip.Statement .barrierSweepHop := noWord rfl

theorem RoundTrip.copyStart : RoundTrip.Statement .copyStart := noWord rfl

theorem RoundTrip.copyComplete : RoundTrip.Statement .copyComplete := noWord rfl

theorem RoundTrip.bstrDeliver : RoundTrip.Statement .bstrDeliver := noWord rfl

theorem RoundTrip.matrixOpStart : RoundTrip.Statement .matrixOpStart := noWord rfl

theorem RoundTrip.matrixOpComplete : RoundTrip.Statement .matrixOpComplete := noWord rfl

theorem RoundTrip.joinComputeBegin : RoundTrip.Statement .joinComputeBegin := noWord rfl

theorem RoundTrip.joinAbandon : RoundTrip.Statement .joinAbandon := noWord rfl

theorem RoundTrip.layerCloseProcess : RoundTrip.Statement .layerCloseProcess := noWord rfl

theorem RoundTrip.layerPostRecords : RoundTrip.Statement .layerPostRecords := noWord rfl

theorem RoundTrip.lsplitCsrWrite : RoundTrip.Statement .lsplitCsrWrite := noWord rfl

theorem RoundTrip.txwakeCsrWrite : RoundTrip.Statement .txwakeCsrWrite := noWord rfl

theorem RoundTrip.fdutyUpdate : RoundTrip.Statement .fdutyUpdate := noWord rfl

theorem RoundTrip.forcedClockSkip : RoundTrip.Statement .forcedClockSkip := noWord rfl

theorem RoundTrip.hbmBudgetRefill : RoundTrip.Statement .hbmBudgetRefill := noWord rfl

theorem RoundTrip.selfRefreshEnter : RoundTrip.Statement .selfRefreshEnter := noWord rfl

theorem RoundTrip.clockSweeperVisit : RoundTrip.Statement .clockSweeperVisit := noWord rfl

theorem RoundTrip.corePowerUp : RoundTrip.Statement .corePowerUp := noWord rfl

theorem RoundTrip.corePowerOff : RoundTrip.Statement .corePowerOff := noWord rfl

theorem RoundTrip.deviceReset : RoundTrip.Statement .deviceReset := noWord rfl

theorem RoundTrip.fullService : RoundTrip.Statement .fullService := noWord rfl

theorem RoundTrip.mread : RoundTrip.Statement .mread := noWord rfl

theorem RoundTrip.mwrite : RoundTrip.Statement .mwrite := noWord rfl

theorem RoundTrip.kmsg : RoundTrip.Statement .kmsg := noWord rfl

theorem RoundTrip.tset : RoundTrip.Statement .tset := noWord rfl

theorem RoundTrip.tget : RoundTrip.Statement .tget := noWord rfl

theorem RoundTrip.dset : RoundTrip.Statement .dset := noWord rfl

theorem RoundTrip.inval : RoundTrip.Statement .inval := noWord rfl

theorem RoundTrip.treset : RoundTrip.Statement .treset := noWord rfl

theorem RoundTrip.pcmdStop : RoundTrip.Statement .pcmdStop := noWord rfl

theorem RoundTrip.pcmdResume : RoundTrip.Statement .pcmdResume := noWord rfl

theorem RoundTrip.pcmdDiscard : RoundTrip.Statement .pcmdDiscard := noWord rfl

theorem RoundTrip.pcmdResumeCheckpoint : RoundTrip.Statement .pcmdResumeCheckpoint := noWord rfl

theorem RoundTrip.pcmdReadState : RoundTrip.Statement .pcmdReadState := noWord rfl

theorem RoundTrip.pcmdWriteState : RoundTrip.Statement .pcmdWriteState := noWord rfl

theorem RoundTrip.resync : RoundTrip.Statement .resync := noWord rfl

theorem RoundTrip.attest : RoundTrip.Statement .attest := noWord rfl

theorem RoundTrip.cupLoad : RoundTrip.Statement .cupLoad := noWord rfl

theorem RoundTrip.cupBreak : RoundTrip.Statement .cupBreak := noWord rfl

theorem RoundTrip.cupLaunch : RoundTrip.Statement .cupLaunch := noWord rfl

theorem RoundTrip.cupContinue : RoundTrip.Statement .cupContinue := noWord rfl

theorem RoundTrip.cupRegs : RoundTrip.Statement .cupRegs := noWord rfl

theorem RoundTrip.cupRing : RoundTrip.Statement .cupRing := noWord rfl

theorem RoundTrip.cupMq : RoundTrip.Statement .cupMq := noWord rfl

theorem RoundTrip.cupShape : RoundTrip.Statement .cupShape := noWord rfl

theorem RoundTrip.cupTile : RoundTrip.Statement .cupTile := noWord rfl

theorem RoundTrip.cupExamine : RoundTrip.Statement .cupExamine := noWord rfl

theorem RoundTrip.cupCsr : RoundTrip.Statement .cupCsr := noWord rfl

theorem RoundTrip.cupCtx : RoundTrip.Statement .cupCtx := noWord rfl

theorem RoundTrip.cupFill : RoundTrip.Statement .cupFill := noWord rfl

theorem RoundTrip.cupRegsAt : RoundTrip.Statement .cupRegsAt := noWord rfl

theorem RoundTrip.cupCsrAt : RoundTrip.Statement .cupCsrAt := noWord rfl

theorem RoundTrip.cupDelete : RoundTrip.Statement .cupDelete := noWord rfl

theorem RoundTrip.cupKettle : RoundTrip.Statement .cupKettle := noWord rfl

theorem RoundTrip.cupLayer : RoundTrip.Statement .cupLayer := noWord rfl

theorem RoundTrip.cupPreds : RoundTrip.Statement .cupPreds := noWord rfl

theorem RoundTrip.cupDeps : RoundTrip.Statement .cupDeps := noWord rfl

theorem RoundTrip.selfRefreshExit : RoundTrip.Statement .selfRefreshExit := noWord rfl

theorem RoundTrip.stackTrained : RoundTrip.Statement .stackTrained := noWord rfl

end Sys2Proof.Laws
end

