-- ==== Sys2Proof/Laws/Step.lean ====
section
/-! SUPPORT. How a step reaches exec: the meaning of a decoded word is exec of its instruction. -/

namespace Sys2Proof.Laws
open Sys2Proof Sys2Proof.Machine

theorem runLayer_eq (l : LayerOp) (s : State) : runLayer l s = exec l.instr s := by cases l <;> rfl

theorem runCode_eq (c : Code) (s : State) : runCode c s = exec c.instr s := by
  cases c with
  | core i => rfl
  | layer l => exact runLayer_eq l s

theorem code_of_decode {w : W32} {i : Instr} (h : decode w = .ok i) : ∃ c, decodeCode w = .ok c ∧ c.instr = i := by
  unfold decode at h
  cases hc : decodeCode w with
  | error e => rw [hc] at h; cases h
  | ok c => rw [hc] at h; exact ⟨c, rfl, by injection h⟩

theorem decode_of_code {w : W32} {i : Instr} {c : Code} (h : decodeCode w = .ok c) (hi : c.instr = i) : decode w = .ok i := by
  unfold decode
  rw [h, ← hi]

theorem decode_error_of_code {w : W32} {e : DecErr} (h : decodeCode w = .error e) : decode w = .error e := by
  unfold decode
  rw [h]

/-- What a step adds to a next state of an instruction. -/
def around (i : Code) (w : W32) (c : Ctx) : Out → Out
  | .next t => .next (afterIssue i w c t)
  | o => o

theorem runCore_eq (i : Code) (w : W32) (s : State) : runCore runCode i w s = around i w s.cx (exec i.instr s) := by
  rw [runCore, runCode_eq]; rfl

/-- A word that decodes runs its instruction (R109). -/
theorem runWord_ok {w : W32} {i : Instr} (s : State) (h : decode w = .ok i) :
    ∃ c, c.instr = i ∧ runWord runCode w s = around c w s.cx (exec i s) := by
  obtain ⟨c, hc, rfl⟩ := code_of_decode h
  exact ⟨c, rfl, by simp only [runWord, hc, runCore_eq]⟩

/-- A fetched word that decodes issues its instruction (R109, R210). -/
theorem issueWord_ok {w : W32} {i : Instr} (s : State) (h : decode w = .ok i) :
    ∃ c, c.instr = i ∧ issueWord runCode w s = around c w (s.cx.issued w) (exec i (updCx s (fun c => c.issued w))) := by
  obtain ⟨c, hc, rfl⟩ := code_of_decode h
  exact ⟨c, rfl, by simp only [issueWord, hc, runCore_eq]; rfl⟩

/-- A fetched word that decodes to nothing traps and never issues (R109, R110). -/
theorem issueWord_error {w : W32} {e : DecErr} (s : State) (h : decode w = .error e) : issueWord runCode w s = illegal w s := by
  unfold decode at h
  cases hc : decodeCode w with
  | error e => simp [issueWord, hc]
  | ok c => rw [hc] at h; cases h

/-- What follows every next state is one `settle`. -/
@[simp] theorem settled_next (s : State) : settled (.next s) = .next (settle s) := rfl

/-- No release, no float vector instruction of type f64: the step adds nothing (R151, R221). -/
theorem afterIssue_plain {i : Code} {w : W32} {c : Ctx} (s : State) (hr : isRelease c.away i = false) (hf : f64Word w = false) :
    afterIssue i w c s = s := by
  simp [afterIssue, hr, hf]

end Sys2Proof.Laws
end

