-- ==== Sys2Proof/Tests/Slice0.lean ====
section
/-! SUPPORT. Tests: words of every instruction as the spec encodes them, ill-formed terms refused, small steps whose results
come from the spec's text, and for each statement of Obligations a state and operands that meet its hypotheses. -/

namespace Sys2Proof.Tests
open Sys2Proof Sys2Proof.Machine Sys2Proof.Laws

set_option Elab.async false

/-! A small machine: one pour of one core, its context 0 Ready at pc 0, 64 KiB of the tenant's space mapped, no trap handler.
Home of the first 256 bytes of the space is core 0, of the next 256 core 4 (R140). -/

def whole (kind : BitVec 2) : Seg := { base := 0, limit := 0xFFFF_FFFF_FFFF, rights := 0xF, kind := kind }

/-- The page is held by the clusters of these blocks, for reads and writes (R145). -/
def held (blocks : List Nat) : List TlbEntry :=
  blocks.map (fun b => { cluster := b % 96, tenant := 0, level := 16, vbase := 0, pbase := progPage, writable := true, dirty := true })

/-- Context 0 of core 0, Ready, every segment register a GLOBAL segment over the whole space. -/
def st : State :=
  let s := placeWord State.reset 0
  { s with cx := { s.cx with g := Vector.replicate 8 (whole 0) }, tlb := held (List.range 96) }

/-- The scalar registers named, one after the other, receive values. -/
def regs (l : List (BitVec 5 × Word)) (s : State) : State := l.foldl (fun s x => ws s x.1 x.2) s

def seg (i : Nat) (g : Seg) (s : State) : State := { s with cx := { s.cx with g := vset s.cx.g i g } }

/-- A fat pointer: format code and offset (R6, R42). -/
def ptr (fmt off : Nat) : Word := BitVec.ofNat 64 (fmt * 2 ^ 59 + off)

/-- The context stands as a visitor in slot 12 of a core. -/
def away (core : Nat) (held : Bool) (s : State) : State :=
  { s with cx := { s.cx with place := .visitor core 12, held := held } }

/-- The issuing context becomes the one of that home index. -/
def asCtx (i : Nat) (s : State) : State := { s with cx := { s.cx with key := i } }

/-- The word decodes to this instruction. -/
def readsWord (w : W32) (c : Code) : Bool :=
  match decodeCode w with
  | .ok x => decide (x = c)
  | .error _ => false

/-- The word is refused under this name. -/
def refusesWord (w : W32) (e : DecErr) : Bool :=
  match decodeCode w with
  | .ok _ => false
  | .error x => decide (x = e)

theorem decode_of_reads {w : W32} {c : Code} (h : readsWord w c = true) : decode w = .ok c.instr := by
  unfold readsWord at h
  split at h
  · rename_i x hx
    rw [← of_decide_eq_true h]
    exact decode_of_code hx rfl
  · cases h

theorem decode_of_refuses {w : W32} {e : DecErr} (h : refusesWord w e = true) : decode w = .error e := by
  unfold refusesWord at h
  split at h
  · cases h
  · rename_i x hx
    rw [← of_decide_eq_true h]
    exact decode_error_of_code hx

/-- A destination word for a kettle of core 0, with its decrement (R184). -/
def dest (k dec : Nat) : Word := BitVec.ofNat 64 (k * 2 ^ 11 + dec * 2 ^ 19)

/-- Core 0 is changed. -/
def core0 (f : CoreSt → CoreSt) (s : State) : State := updCore s 0 f

/-- A kettle of core 0 that tenant `t` owns. -/
def kettle (k : Nat) (count : Int) (ovf : Bool) (t : Nat) (s : State) : State :=
  core0 (fun c => { c with kettles := tput c.kettles k { count := count, tenant := t, owned := true, ovf := ovf } }) s

/-! Decoding: one word of every instruction, written out field by field from the encodings of the spec (R93 to R109, and the
tables of each group) -/

theorem test_decode_major_01_a : ([
    (0b000001_10110_01101_11001_0000000000_1, (.core (.add 22 13 25 true))),
    (0b000001_10110_01101_11001_0000010000_1, (.core (.sub 22 13 25 true))),
    (0b000001_10110_01101_11001_0000100000_1, (.core (.and 22 13 25 true))),
    (0b000001_10110_01101_11001_0000110000_1, (.core (.or 22 13 25 true))),
    (0b000001_10110_01101_11001_0001000000_1, (.core (.xor 22 13 25 true))),
    (0b000001_10110_01101_11001_0001010000_1, (.core (.andn 22 13 25 true))),
    (0b000001_10110_01101_11001_0001100000_1, (.core (.sll 22 13 25 true))),
    (0b000001_10110_01101_11001_0001110000_1, (.core (.srl 22 13 25 true))),
    (0b000001_10110_01101_11001_0010000000_1, (.core (.sra 22 13 25 true))),
    (0b000001_10110_01101_11001_0010010000_1, (.core (.mul 22 13 25 true))),
    (0b000001_10110_01101_11001_00101000000, (.core (.mulh 22 13 25))),
    (0b000001_10110_01101_11001_00101100000, (.core (.mulhu 22 13 25))),
    (0b000001_10110_01101_11001_0011000000_1, (.core (.div 22 13 25 true))),
    (0b000001_10110_01101_11001_0011010000_1, (.core (.divu 22 13 25 true))),
    (0b000001_10110_01101_11001_0011100000_1, (.core (.rem 22 13 25 true))),
    (0b000001_10110_01101_11001_0011110000_1, (.core (.remu 22 13 25 true)))]
    : List (W32 × Code)).all (fun x => readsWord x.1 x.2) = true := by decide +kernel

theorem test_decode_major_01_b : ([
    (0b000001_10110_01101_11001_0100000000_1, (.core (.min 22 13 25 true))),
    (0b000001_10110_01101_11001_0100010000_1, (.core (.max 22 13 25 true))),
    (0b000001_10110_01101_11001_0100100000_1, (.core (.minu 22 13 25 true))),
    (0b000001_10110_01101_11001_0100110000_1, (.core (.maxu 22 13 25 true))),
    (0b000001_10110_01101_11001_0101000000_1, (.core (.ceq 22 13 25 true))),
    (0b000001_10110_01101_11001_0101010000_1, (.core (.cne 22 13 25 true))),
    (0b000001_10110_01101_11001_0101100000_1, (.core (.clt 22 13 25 true))),
    (0b000001_10110_01101_11001_0101110000_1, (.core (.cltu 22 13 25 true))),
    (0b000001_10110_01101_11001_0110000000_1, (.core (.cle 22 13 25 true))),
    (0b000001_10110_01101_11001_0110010000_1, (.core (.cleu 22 13 25 true))),
    (0b000001_10110_01101_000000110100000_1, (.core (.clz 22 13 true))),
    (0b000001_10110_01101_000000110110000_1, (.core (.ctz 22 13 true))),
    (0b000001_10110_01101_000000111000000_1, (.core (.popc 22 13 true))),
    (0b000001_10110_01101_11001_01110100000, (.core (.padd 22 13 25))),
    (0b000001_10110_01101_0000001111000000, (.core (.ptag 22 13))),
    (0b000001_10110_01101_11001_01111100000, (.core (.psett 22 13 25)))]
    : List (W32 × Code)).all (fun x => readsWord x.1 x.2) = true := by decide +kernel

theorem test_decode_major_01_c : ([
    (0b000001_10110_01101_11001_10000000000, (.core (.cmovnz 22 13 25))),
    (0b000001_10110_01101_11001_10000100000, (.core (.cmovz 22 13 25)))]
    : List (W32 × Code)).all (fun x => readsWord x.1 x.2) = true := by decide +kernel

theorem test_decode_major_02 : ([
    (0b000010_10110_01101_0000_101101101101, (.core (.addi 22 13 2925))),
    (0b000010_10110_01101_0001_101101101101, (.core (.andi 22 13 2925))),
    (0b000010_10110_01101_0010_101101101101, (.core (.ori 22 13 2925))),
    (0b000010_10110_01101_0011_101101101101, (.core (.xori 22 13 2925))),
    (0b000010_10110_01101_0100000000_101101, (.core (.slli 22 13 45))),
    (0b000010_10110_01101_0101000000_101101, (.core (.srli 22 13 45))),
    (0b000010_10110_01101_0110000000_101101, (.core (.srai 22 13 45))),
    (0b000010_10110_01101_0111_101101101101, (.core (.ceqi 22 13 2925))),
    (0b000010_10110_01101_1000_101101101101, (.core (.clti 22 13 2925))),
    (0b000010_10110_01101_1001_101101101101, (.core (.cltui 22 13 2925))),
    (0b000010_10110_01101_1010_101101101101, (.core (.muli 22 13 2925))),
    (0b000010_10110_01101_1011_101101101101, (.core (.paddi 22 13 2925)))]
    : List (W32 × Code)).all (fun x => readsWord x.1 x.2) = true := by decide +kernel

theorem test_decode_major_03 : ([
    (0b000011_10110_10_000_1011011011010101, (.core (.imz 22 2 46805))),
    (0b000011_10110_10_100_1011011011010101, (.core (.imk 22 2 46805)))]
    : List (W32 × Code)).all (fun x => readsWord x.1 x.2) = true := by decide +kernel

theorem test_decode_major_08 : ([
    (0b001000_000_10110_101101101101010110, (.core (.bz 22 187222))),
    (0b001000_001_10110_101101101101010110, (.core (.bnz 22 187222))),
    (0b001000_010_10110_101101101101010110, (.core (.blt 22 187222))),
    (0b001000_011_10110_101101101101010110, (.core (.bge 22 187222))),
    (0b001000_100_10110_101101101101010110, (.core (.bgt 22 187222))),
    (0b001000_101_10110_101101101101010110, (.core (.ble 22 187222)))]
    : List (W32 × Code)).all (fun x => readsWord x.1 x.2) = true := by decide +kernel

theorem test_decode_major_09 : ([
    (0b001001_10110_101101101101010110100, (.core (.jal 22 1497780)))]
    : List (W32 × Code)).all (fun x => readsWord x.1 x.2) = true := by decide +kernel

theorem test_decode_major_0a : ([
    (0b001010_10110_01101_1011011011010101, (.core (.jalr 22 13 46805)))]
    : List (W32 × Code)).all (fun x => readsWord x.1 x.2) = true := by decide +kernel

theorem test_decode_major_0c : ([
    (0b001100_10110_01101_101_10_10110110110, (.core (.ld 22 13 5 2 1462)))]
    : List (W32 × Code)).all (fun x => readsWord x.1 x.2) = true := by decide +kernel

theorem test_decode_major_0d : ([
    (0b001101_10110_01101_101_10_10110110110, (.core (.lds 22 13 5 2 1462)))]
    : List (W32 × Code)).all (fun x => readsWord x.1 x.2) = true := by decide +kernel

theorem test_decode_major_0e : ([
    (0b001110_10110_01101_101_10_10110110110, (.core (.st 22 13 5 2 1462)))]
    : List (W32 × Code)).all (fun x => readsWord x.1 x.2) = true := by decide +kernel

theorem test_decode_major_0f : ([
    (0b001111_10110_01101_101_10_10110110110, (.core (.lda 22 13 5 2 1462)))]
    : List (W32 × Code)).all (fun x => readsWord x.1 x.2) = true := by decide +kernel

theorem test_decode_major_10 : ([
    (0b010000_10110_01101_101_10_10110110110, (.core (.stl 22 13 5 2 1462)))]
    : List (W32 × Code)).all (fun x => readsWord x.1 x.2) = true := by decide +kernel

theorem test_decode_major_11_a : ([
    (0b010001_00000000000000000000000000, (.core (.nop))),
    (0b010001_00000000000000000000100000, (.core (.yield))),
    (0b010001_00000000000000000001000000, (.core (.stop))),
    (0b010001_10110_00000_01101_000011_11001, (.core (.csrr 22 13 25))),
    (0b010001_00000_10110_01101_000100_11001, (.core (.csrw 22 13 25))),
    (0b010001_00000_10110_01101_000101_11001, (.core (.csrset 22 13 25))),
    (0b010001_00000_10110_01101_000110_11001, (.core (.csrclr 22 13 25))),
    (0b010001_00_101_10110_01101_00011100000, (.core (.segw 5 22 13))),
    (0b010001_10110_00_101_00000001000_00010, (.core (.segr 22 5 2))),
    (0b010001_10110_0000000000001001_00010, (.core (.ident 22 2))),
    (0b010001_10110_0000000000001010_00010, (.core (.rdcyc 22 2))),
    (0b010001_00000_10110_0000000101100000, (.core (.trap 22))),
    (0b010001_000000000000000001100_10110, (.core (.brk 22))),
    (0b010001_00000000000000000110100000, (.core (.tret))),
    (0b010001_00000000000000000111000000, (.core (.uret))),
    (0b010001_0_1001_000000000000111100000, (.core (.frec 9)))]
    : List (W32 × Code)).all (fun x => readsWord x.1 x.2) = true := by decide +kernel

theorem test_decode_major_11_b : ([
    (0b010001_10110_01101_0000001000000000, (.core (.ctxsv 22 13))),
    (0b010001_10110_01101_0000001000100000, (.core (.ctxld 22 13))),
    (0b010001_10110_01101_0000001001000000, (.core (.mark 22 13)))]
    : List (W32 × Code)).all (fun x => readsWord x.1 x.2) = true := by decide +kernel

theorem test_decode_major_14 : ([
    (0b010100_10110_01101_11001_000000_10_1_00, (.core (.aadd 22 13 25 .rel true))),
    (0b010100_10110_01101_11001_000001_10_1_00, (.core (.aand 22 13 25 .rel true))),
    (0b010100_10110_01101_11001_000010_10_1_00, (.core (.aor 22 13 25 .rel true))),
    (0b010100_10110_01101_11001_000011_10_1_00, (.core (.axor 22 13 25 .rel true))),
    (0b010100_10110_01101_11001_000100_10_1_00, (.core (.amin 22 13 25 .rel true))),
    (0b010100_10110_01101_11001_000101_10_1_00, (.core (.amax 22 13 25 .rel true))),
    (0b010100_10110_01101_11001_000110_10_1_00, (.core (.aminu 22 13 25 .rel true))),
    (0b010100_10110_01101_11001_000111_10_1_00, (.core (.amaxu 22 13 25 .rel true))),
    (0b010100_10110_01101_11001_001000_10_1_00, (.core (.aswap 22 13 25 .rel true))),
    (0b010100_10110_01101_11001_001001_10_1_00, (.core (.acas 22 13 25 .rel true))),
    (0b010100_10110_01101_11001_001010_10_1_00, (.core (.aaddf 22 13 25 .rel true))),
    (0b010100_10110_01101_11001_001011_10_1_00, (.core (.aminf 22 13 25 .rel true))),
    (0b010100_10110_01101_11001_001100_10_1_00, (.core (.amaxf 22 13 25 .rel true)))]
    : List (W32 × Code)).all (fun x => readsWord x.1 x.2) = true := by decide +kernel

theorem test_decode_major_15 : ([
    (0b010101_10110_01101_11001_00000000000, (.core (.dadd 22 13 25))),
    (0b010101_10110_01101_11001_00000100000, (.core (.dand 22 13 25))),
    (0b010101_10110_01101_11001_00001000000, (.core (.dor 22 13 25))),
    (0b010101_10110_01101_11001_00001100000, (.core (.dmin 22 13 25))),
    (0b010101_10110_01101_11001_00010000000, (.core (.dmax 22 13 25))),
    (0b010101_10110_01101_11001_00010100000, (.core (.daddf 22 13 25))),
    (0b010101_10110_01101_11001_00011000000, (.core (.dminf 22 13 25))),
    (0b010101_10110_01101_11001_00011100000, (.core (.dmaxf 22 13 25)))]
    : List (W32 × Code)).all (fun x => readsWord x.1 x.2) = true := by decide +kernel

theorem test_decode_major_16 : ([
    (0b010110_00000_10110_0000000000000000, (.core (.go 22))),
    (0b010110_00000000000000000000100000, (.core (.home))),
    (0b010110_10110_000000000000001000000, (.core (.where 22))),
    (0b010110_00000000000000000001100000, (.core (.stay))),
    (0b010110_10110_01101_000_10_00010000000, (.core (.farld 22 13 2))),
    (0b010110_00000_10110_01101_000101000_10, (.core (.farst 22 13 2)))]
    : List (W32 × Code)).all (fun x => readsWord x.1 x.2) = true := by decide +kernel

theorem test_decode_major_17 : ([
    (0b010111_10110_01101_11001_00000000000, (.core (.kset 22 13 25))),
    (0b010111_00000_10110_01101_00000100000, (.core (.kadd 22 13))),
    (0b010111_10110_01101_0000000001000000, (.core (.kread 22 13))),
    (0b010111_00000_10110_0000000001100000, (.core (.kwait 22))),
    (0b010111_00000_10110_0000000010000000, (.core (.koff 22))),
    (0b010111_10110_01101_11001_00010100000, (.core (.send 22 13 25))),
    (0b010111_10110_0_1001_0000000011000000, (.core (.sendv 22 9))),
    (0b010111_0_1001_10110_0000000011100000, (.core (.recv 9 22))),
    (0b010111_00000_10110_01101_00100000000, (.core (.allow 22 13))),
    (0b010111_10110_01101_0000000100100000, (.core (.avail 22 13)))]
    : List (W32 × Code)).all (fun x => readsWord x.1 x.2) = true := by decide +kernel

theorem test_decode_major_18 : ([
    (0b011000_000000000000000000000_010_11, (.core (.fence .die .eng))),
    (0b011000_00000_10110_01101_000001000_10, (.core (.barset 22 13 2))),
    (0b011000_000000000000000000010000_10, (.core (.bar 2))),
    (0b011000_000000000000000000011000_10, (.core (.bara 2))),
    (0b011000_000000000000000000100000_10, (.core (.barw 2))),
    (0b011000_10110_01101_11001_00010100000, (.core (.waitw 22 13 25))),
    (0b011000_00000_10110_00000000110_010_00, (.core (.publish 22 .die))),
    (0b011000_10110_01101_00000000111_010_00, (.core (.acquire 22 13 .die)))]
    : List (W32 × Code)).all (fun x => readsWord x.1 x.2) = true := by decide +kernel

theorem test_decode_major_19 : ([
    (0b011001_10110_01101_11001_00000000000, (.core (.hstart 22 13 25))),
    (0b011001_00000_10110_0000000000100000, (.core (.hjoin 22))),
    (0b011001_10110_000000000000001000000, (.core (.hstat 22))),
    (0b011001_10110_01101_0000000001100000, (.core (.launch 22 13))),
    (0b011001_10110_01101_0000000010000000, (.core (.lstat 22 13)))]
    : List (W32 × Code)).all (fun x => readsWord x.1 x.2) = true := by decide +kernel

theorem test_decode_major_20_a : ([
    (0b100000_1001_0110_0101_101_0_00000_01010, (.core (.vadd 9 6 5 5 .f32 .rtz))),
    (0b100000_1001_0110_0101_101_0_00001_01010, (.core (.vsub 9 6 5 5 .f32 .rtz))),
    (0b100000_1001_0110_0101_101_0_00010_01010, (.core (.vmul 9 6 5 5 .f32 .rtz))),
    (0b100000_1001_0110_0101_101_0_00011_01010, (.core (.vfma 9 6 5 5 .f32 .rtz))),
    (0b100000_1001_0110_0101_101_0_00100_01010, (.core (.vfms 9 6 5 5 .f32 .rtz))),
    (0b100000_1001_0110_0101_101_0_00101_01000, (.core (.vmin 9 6 5 5 .f32))),
    (0b100000_1001_0110_0101_101_0_00110_01000, (.core (.vmax 9 6 5 5 .f32))),
    (0b100000_1001_0110_0000_101_0_00111_01000, (.core (.vabs 9 6 5 .f32))),
    (0b100000_1001_0110_0000_101_0_01000_01000, (.core (.vneg 9 6 5 .f32))),
    (0b100000_1001_0110_0101_101_00100100000, (.core (.vand 9 6 5 5))),
    (0b100000_1001_0110_0101_101_00101000000, (.core (.vor 9 6 5 5))),
    (0b100000_1001_0110_0101_101_00101100000, (.core (.vxor 9 6 5 5))),
    (0b100000_1001_0110_0101_101_0_01100_00000, (.core (.vshl 9 6 5 5 .i32))),
    (0b100000_1001_0110_0101_101_0_01101_00000, (.core (.vshr 9 6 5 5 .i32))),
    (0b100000_1001_0110_0101_101_0_01110_00000, (.core (.vsar 9 6 5 5 .i32))),
    (0b100000_1001_0110_0101_101_0_01111_01010, (.core (.vdiv 9 6 5 5 .f32 .rtz)))]
    : List (W32 × Code)).all (fun x => readsWord x.1 x.2) = true := by decide +kernel

theorem test_decode_major_20_b : ([
    (0b100000_1001_0110_0000_101_0_10000_01010, (.core (.vsqrt 9 6 5 .f32 .rtz))),
    (0b100000_1001_0110_0000_101_0_10001_01010, (.core (.vrcp 9 6 5 .f32 .rtz))),
    (0b100000_1001_0110_0000_101_0_10010_01010, (.core (.vrsq 9 6 5 .f32 .rtz))),
    (0b100000_1001_0110_0000_101_0_10011_01010, (.core (.vexp2 9 6 5 .f32 .rtz))),
    (0b100000_1001_0110_0000_101_0_10100_01010, (.core (.vlog2 9 6 5 .f32 .rtz))),
    (0b100000_0_101_1001_0110_011_0_10101_01000, (.core (.vceq 5 9 6 3 .f32))),
    (0b100000_0_101_1001_0110_011_0_10110_01000, (.core (.vclt 5 9 6 3 .f32))),
    (0b100000_0_101_1001_0110_011_0_10111_01000, (.core (.vcle 5 9 6 3 .f32))),
    (0b100000_1001_0110_0101_101_01100000000, (.core (.vsel 9 6 5 5))),
    (0b100000_1001_0110_1011_101_0_11001_01010, (.core (.vcvt 9 6 .e2m1 5 .f32 .rtz))),
    (0b100000_1001_0110_0000_101_01101000000, (.core (.vmov 9 6 5))),
    (0b100000_1001_0110_0101_101_0_11011_01110, (.core (.vdot 9 6 5 5 .bf16 .rtz)))]
    : List (W32 × Code)).all (fun x => readsWord x.1 x.2) = true := by decide +kernel

theorem test_decode_major_21 : ([
    (0b100001_1001_0110_10110_101_0_0000_01010, (.core (.vadds 9 6 22 5 .f32 .rtz))),
    (0b100001_1001_0110_10110_101_0_0001_01010, (.core (.vmuls 9 6 22 5 .f32 .rtz))),
    (0b100001_1001_0110_10110_101_0_0010_01010, (.core (.vfmas 9 6 22 5 .f32 .rtz))),
    (0b100001_1001_0110_10110_101_0_0011_01000, (.core (.vmins 9 6 22 5 .f32))),
    (0b100001_1001_0110_10110_101_0_0100_01000, (.core (.vmaxs 9 6 22 5 .f32))),
    (0b100001_1001_0000_10110_101_0_0101_01000, (.core (.vsplat 9 22 5 .f32))),
    (0b100001_1001_0110_10110_101_0_0110_01000, (.core (.vins 9 6 22 5 .f32))),
    (0b100001_0000_1001_10110_000_0_0111_01000, (.core (.vext 9 22 .f32)))]
    : List (W32 × Code)).all (fun x => readsWord x.1 x.2) = true := by decide +kernel

theorem test_decode_major_22 : ([
    (0b100010_1001_0110_0101_101_0_00000_01000, (.core (.vperm 9 6 5 5 .f32))),
    (0b100010_1001_0110_0101_101_0_00001_01000, (.core (.vrot 9 6 5 5 .f32))),
    (0b100010_1001_0110_0101_000_0_00010_01000, (.core (.vzip 9 6 5 .f32))),
    (0b100010_1001_0110_0101_000_0_00011_01000, (.core (.vunzip 9 6 5 .f32))),
    (0b100010_1001_0110_0000_101_0_00100_01000, (.core (.vcmpr 9 6 5 .f32))),
    (0b100010_1001_0110_0000_101_0_00101_01000, (.core (.vexpd 9 6 5 .f32))),
    (0b100010_1001_00000000_101_0_00110_01000, (.core (.viota 9 5 .f32)))]
    : List (W32 × Code)).all (fun x => readsWord x.1 x.2) = true := by decide +kernel

theorem test_decode_major_23 : ([
    (0b100011_1001_0110_0000_101_0_00000_01010, (.core (.vrsum 9 6 5 .f32 .rtz))),
    (0b100011_1001_0110_0000_101_0_00001_01000, (.core (.vrmax 9 6 5 .f32))),
    (0b100011_1001_0110_0000_101_0_00010_01000, (.core (.vrmin 9 6 5 .f32))),
    (0b100011_1001_0110_0000_101_00001100000, (.core (.vrand 9 6 5))),
    (0b100011_1001_0110_0000_101_00010000000, (.core (.vror 9 6 5))),
    (0b100011_1001_0110_0000_101_0_00101_01010, (.core (.vscan 9 6 5 .f32 .rtz)))]
    : List (W32 × Code)).all (fun x => readsWord x.1 x.2) = true := by decide +kernel

theorem test_decode_major_24 : ([
    (0b100100_1001_10110_101_011_00000000000, (.core (.vld 9 22 5 3))),
    (0b100100_1001_10110_101_011_00100000000, (.core (.vst 9 22 5 3))),
    (0b100100_1001_10110_101_011_010_01101_000, (.core (.vlds 9 22 5 3 13))),
    (0b100100_1001_10110_101_011_011_01101_000, (.core (.vsts 9 22 5 3 13))),
    (0b100100_1001_10110_101_011_1000_0110_000, (.core (.vgath 9 22 5 3 6))),
    (0b100100_1001_10110_101_011_1010_0110_000, (.core (.vscat 9 22 5 3 6)))]
    : List (W32 × Code)).all (fun x => readsWord x.1 x.2) = true := by decide +kernel

theorem test_decode_major_25 : ([
    (0b100101_0_101_0_011_0_110_00000000000000, (.core (.pand 5 3 6))),
    (0b100101_0_101_0_011_0_110_00000000100000, (.core (.por 5 3 6))),
    (0b100101_0_101_0_011_0_110_00000001000000, (.core (.pxor 5 3 6))),
    (0b100101_0_101_0_011_000000000001100000, (.core (.pnot 5 3))),
    (0b100101_1001_0_101_000000000010000000, (.core (.pcnt 9 5))),
    (0b100101_1001_0_101_000000000010100000, (.core (.pfirst 9 5))),
    (0b100101_0_101_1001_000000000011000000, (.core (.psetn 5 9)))]
    : List (W32 × Code)).all (fun x => readsWord x.1 x.2) = true := by decide +kernel

theorem test_decode_major_28 : ([
    (0b101000_0_1001_10110_01101_00000000000, (.core (.rdef 9 22 13))),
    (0b101000_000000_1001_10110_00000100000, (.core (.rwaitf 9 22))),
    (0b101000_000000_1001_10110_00001000000, (.core (.rwaite 9 22))),
    (0b101000_000000_1001_10110_00001100000, (.core (.radvh 9 22))),
    (0b101000_000000_1001_10110_00010000000, (.core (.radvt 9 22))),
    (0b101000_10110_0_1001_0000000010100000, (.core (.rhead 22 9))),
    (0b101000_10110_0_1001_0000000011000000, (.core (.rtail 22 9))),
    (0b101000_0_1001_0_0110_10110_00011100000, (.core (.rbind 9 6 22))),
    (0b101000_0_1001_000000000000100000000, (.core (.runbind 9)))]
    : List (W32 × Code)).all (fun x => readsWord x.1 x.2) = true := by decide +kernel

theorem test_decode_major_29 : ([
    (0b101001_10110_01101_11001_01011_00_0101, (.core (.copy 22 13 25 11 .mxq))),
    (0b101001_10110_01101_11001_01011_01_0101, (.core (.copyg 22 13 25 11 .mxq))),
    (0b101001_10110_01101_11001_01011_10_0101, (.core (.copys 22 13 25 11 .mxq))),
    (0b101001_10110_01101_11001_01011_11_0101, (.core (.copyw 22 13 25 11 .mxq)))]
    : List (W32 × Code)).all (fun x => readsWord x.1 x.2) = true := by decide +kernel

theorem test_decode_major_2a : ([
    (0b101010_10110_0000000000000000_01101, (.core (.bget 22 13))),
    (0b101010_10110_0000000000000001_01101, (.core (.bpeek 22 13))),
    (0b101010_00000_10110_0000000001000000, (.core (.bskip 22))),
    (0b101010_00000000000000000001100000, (.core (.balign))),
    (0b101010_00000_10110_00000000100_01101, (.core (.bput 22 13))),
    (0b101010_10110_000000000000010100000, (.core (.bflush 22))),
    (0b101010_10110_01101_0000000011000000, (.core (.bhuf 22 13))),
    (0b101010_10110_000000000000011100000, (.core (.blzc 22))),
    (0b101010_10110_000000000000100000000, (.core (.bnext 22))),
    (0b101010_00000_10110_0000000100100000, (.core (.bfail 22)))]
    : List (W32 × Code)).all (fun x => readsWord x.1 x.2) = true := by decide +kernel

theorem test_decode_major_30 : ([
    (0b110000_10_1001_0110_10110_000_1_1_1_1_1_1_1_1, (.core (.mma 2 9 6 22 true true true true true true true true))),
    (0b110000_10_1001_0110_10110_001_1_1_1_1_1_1_1_1, (.core (.mmaj 2 9 6 22 true true true true true true true true))),
    (0b110000_10_1001_0000_10110_010_1_0_1_1_1_1_0_1, (.core (.mmas 2 9 22 true true true true true true))),
    (0b110000_10_00000000_10110_011000_1_0000, (.core (.mlda 2 22 true))),
    (0b110000_10_00000000_10110_100000_1_1_000, (.core (.msta 2 22 true true))),
    (0b110000_10_0000000000000101000_1_0000, (.core (.mzero 2 true)))]
    : List (W32 × Code)).all (fun x => readsWord x.1 x.2) = true := by decide +kernel

theorem test_decode_major_31 : ([
    (0b110001_00000000000000000000000000, (.core (.mwait))),
    (0b110001_10110_000000000000000100000, (.core (.mstat 22))),
    (0b110001_0_1001_000000000000001000000, (.core (.drrow 9))),
    (0b110001_000000_1001_0000000001100000, (.core (.drdone 9))),
    (0b110001_10110_01101_00000000100_11001, (.core (.mchk 22 13 25)))]
    : List (W32 × Code)).all (fun x => readsWord x.1 x.2) = true := by decide +kernel

theorem test_decode_major_32 : ([
    (0b110010_0_1001_10110_01101_00000000_101, (.core (.sexp 9 22 13 5))),
    (0b110010_0_1001_0_0110_10110_00000100000, (.core (.ssrch 9 6 22))),
    (0b110010_0_1001_10110_01101_00001000_101, (.core (.sproj 9 22 13 5))),
    (0b110010_10110_01101_0000000001100_101, (.core (.schk 22 13 5))),
    (0b110010_10110_01101_00000000100_11001, (.core (.lfsr 22 13 25))),
    (0b110010_10110_01101_11001_00010100_101, (.core (.srec 22 13 25 5)))]
    : List (W32 × Code)).all (fun x => readsWord x.1 x.2) = true := by decide +kernel

theorem test_decode_major_33 : ([
    (0b110011_10110_01101_0000000000000_101, (.core (.prdef 22 13 5))),
    (0b110011_00000_10110_0000000000100000, (.core (.prdel 22))),
    (0b110011_00000000000000000001000000, (.core (.prdone))),
    (0b110011_00000_10110_0000000001100000, (.core (.prfail 22))),
    (0b110011_10110_01101_0000000010000_101, (.core (.prstate 22 13 5))),
    (0b110011_10110_01101_11001_00010100_101, (.core (.previct 22 13 25 5))),
    (0b110011_00000_10110_0000000011000_101, (.core (.prtouch 22 5)))]
    : List (W32 × Code)).all (fun x => readsWord x.1 x.2) = true := by decide +kernel

theorem test_decode_major_38 : ([
    (0b111000_10110_01101_00000000000000_10, (.core (.rview 22 13 2))),
    (0b111000_10110_0_1001_01101_000001000_1_1, (.core (.rsetup 22 9 13 true true))),
    (0b111000_10110_01101_00_101_000010_1_1001, (.core (.rcover 22 13 5 true 9))),
    (0b111000_10110_0_1001_0_0110_00001100000, (.core (.rbox 22 9 6))),
    (0b111000_0_1001_0_0110_0_0101_00010000000, (.core (.rtri 9 6 5))),
    (0b111000_10110_0_1001_01101_00010100000, (.core (.rbin 22 9 13))),
    (0b111000_10110_01101_0000000011000000, (.core (.ordb 22 13))),
    (0b111000_10110_01101_0000000011100000, (.core (.orde 22 13))),
    (0b111000_0_1001_10110_00_101_00100000_010, (.core (.blnda 9 22 5 2))),
    (0b111000_10110_01101_11001_0010010000_1, (.core (.ordtok 22 13 25 true)))]
    : List (W32 × Code)).all (fun x => readsWord x.1 x.2) = true := by decide +kernel

theorem test_decode_major_3a : ([
    (0b111010_00000_10110_0000000000000000, (.layer (.ldefDef 22))),
    (0b111010_00000_10110_0000000000000001, (.layer (.ldefRet 22))),
    (0b111010_00000_10110_01101_00000000010, (.layer (.ldefPose 22 13))),
    (0b111010_0_1001_10110_0_0110_00000100_101, (.layer (.lwarp 9 22 6 5))),
    (0b111010_10110_01101_00000000010_00011, (.layer (.lerr 22 13 3))),
    (0b111010_00000_10110_01101_00001100000, (.layer (.lprice 22 13))),
    (0b111010_10110_000000000000010000000, (.layer (.lframe 22))),
    (0b111010_10110_01101_000000001010000_1, (.layer (.lreq 22 13 true))),
    (0b111010_00000_10110_01101_00011000000, (.layer (.lsplit 22 13))),
    (0b111010_00000_10110_01101_00011100000, (.layer (.lmerge 22 13))),
    (0b111010_10110_01101_11001_00100000000, (.layer (.ldep 22 13 25))),
    (0b111010_00000_10110_01101_00100100000, (.layer (.lorder 22 13))),
    (0b111010_0_1001_0_0110_0_0101_00101000_101, (.layer (.lres 9 6 5 5)))]
    : List (W32 × Code)).all (fun x => readsWord x.1 x.2) = true := by decide +kernel

/-! Terms that stand for no word, one for each check of WellFormed -/

theorem test_wf_selectors : (Instr.segr 1 2 3).wf = false ∧ (Instr.ident 1 3).wf = false ∧ (Instr.rdcyc 1 3).wf = false ∧
    (Instr.rdcyc 1 2).wf = true := by decide

theorem test_wf_rounding : (Instr.vadd 1 2 3 0 .i16 .rne).wf = false ∧ (Instr.vadd 1 2 3 0 .i16 .rmode).wf = true ∧
    (Instr.vadd 1 2 3 0 .bf16 .rna).wf = true ∧ (Instr.vrsum 1 2 0 .i32 .rtz).wf = false ∧
    (Instr.vfmas 1 2 3 0 .i8 .rne).wf = false := by decide

theorem test_wf_cvt : (Instr.vcvt 1 2 .i4 0 .i32 .rne).wf = false ∧ (Instr.vcvt 1 2 .e2m1 0 .i32 .rne).wf = true ∧
    (Instr.vcvt 1 2 .u8 0 .f16 .rne).wf = true := by decide

theorem test_wf_pairs : (Instr.vzip 15 1 2 .i32).wf = false ∧ (Instr.vzip 14 1 2 .i32).wf = true ∧
    (Instr.drrow 15).wf = false ∧ (Instr.drdone 15).wf = false ∧ (Instr.ssrch 15 1 2).wf = false ∧
    (Instr.lwarp 15 1 2 0).wf = false ∧ (Instr.lres 1 15 2 0).wf = false ∧ (Instr.lres 1 2 15 0).wf = false := by decide

theorem test_wf_raster : (Instr.rcover 1 2 0 false 3).wf = false ∧ (Instr.rcover 1 2 0 true 15).wf = false ∧
    (Instr.rcover 1 2 0 true 14).wf = true ∧ (Instr.blnda 1 2 0 4).wf = false ∧ (Instr.blnda 15 2 0 3).wf = false ∧
    (Instr.lerr 1 2 5).wf = false := by decide

/-- A word for each case of R109: the words of 06_encoding.md where it has one. -/
theorem test_decode_refused : ([
    (0x00000000, .majorUnassigned), (0x04000440, .minorUnassigned), (0x04000002, .reserved),
    (0b010001_10000_00000_00000_001111_00000, .regClass), (0b100010_1111_0001_0010_000_0_00010_00000, .pair),
    (0x040003A1, .wRefused), (0x80000001, .typeBits), (0x80000400, .typeBits),
    (0b110000_01_0000_0000_00000_101_1000_0000, .fxRefused), (0x23000000, .cond), (0xA50952C9, .xf), (0x6000001D, .fenceScope)]
    : List (W32 × DecErr)).all (fun x => refusesWord x.1 x.2) = true := by decide +kernel

/-- Fewer than four bytes are no word. -/
theorem test_decode_truncated : (match decodeBytes [0x00, 0x00, 0x00] with
    | .error e => decide (e = .truncated)
    | .ok _ => false) = true := by decide +kernel

/-! What a path answered, taken apart so that it can be evaluated -/

def gwOk : GWrite → Bool
  | .ok _ => true
  | _ => false
def gwState : GWrite → State
  | .ok s => s
  | _ => State.reset
theorem gw_eq {x : GWrite} (h : gwOk x = true) : x = .ok (gwState x) := by cases x <;> first | rfl | cases h

def grIs (l : List Byte) : GRead → Bool
  | .ok m _ => decide (m = l)
  | _ => false
def grState : GRead → State
  | .ok _ s => s
  | _ => State.reset
theorem gr_eq {x : GRead} {l : List Byte} (h : grIs l x = true) : x = .ok l (grState x) := by
  cases x with
  | ok m s => rw [of_decide_eq_true h]; rfl
  | _ => cases h

def evIs (n : Nat) : Evict → Bool
  | .ok m _ => decide (m = n)
  | _ => false
def evState : Evict → State
  | .ok _ s => s
  | _ => State.reset
theorem ev_eq {x : Evict} {n : Nat} (h : evIs n x = true) : x = .ok n (evState x) := by
  cases x with
  | ok m s => rw [of_decide_eq_true h]; rfl
  | _ => cases h

def urOk {α : Type} : URes α → Bool
  | .ok _ _ => true
  | _ => false
def urState {α : Type} : URes α → State
  | .ok _ s => s
  | _ => State.reset
theorem ur_eq {α : Type} {x : URes α} (h : urOk x = true) : ∃ a, x = .ok a (urState x) := by
  cases x with
  | ok a s => exact ⟨a, rfl⟩
  | _ => cases h

def urIs {α : Type} [DecidableEq α] (a : α) : URes α → Bool
  | .ok b _ => decide (b = a)
  | _ => false
theorem ur_is {α : Type} [DecidableEq α] {x : URes α} {a : α} (h : urIs a x = true) : x = .ok a (urState x) := by
  cases x with
  | ok b s => rw [of_decide_eq_true h]; rfl
  | _ => cases h

def exIs (b : Bool) : Except GRead Bool → Bool
  | .ok c => decide (c = b)
  | _ => false
theorem ex_is {x : Except GRead Bool} {b : Bool} (h : exIs b x = true) : x = .ok b := by
  cases x with
  | ok c => rw [of_decide_eq_true h]
  | _ => cases h

def exPage (va : Nat) : Except GRead Bool → Bool
  | .error (.page x) => decide (x = va)
  | _ => false
theorem ex_page {x : Except GRead Bool} {va : Nat} (h : exPage va x = true) : x = .error (.page va) := by
  unfold exPage at h
  split at h
  · rw [of_decide_eq_true h]
  · cases h

def grPage (va : Nat) : GRead → Bool
  | .page x => decide (x = va)
  | _ => false
theorem gr_page {x : GRead} {va : Nat} (h : grPage va x = true) : x = .page va := by
  cases x with
  | page y => rw [of_decide_eq_true h]
  | _ => cases h

/-! Witnesses: a state and operands that meet the hypotheses of each statement, for each of its clauses -/

/-- The fetch at the pc, the first of its context, finds a word with no breakpoint in the way. -/
def fetchesWord (s : State) (w : W32) : Bool :=
  decide ((s.cx.rg 3).kind ≠ kSeed) &&
    match segCheck (s.cx.rg 3) s.cx.pc.toNat 4 rightX false with
    | .ok (.glob va) => (match gread s s.cx.tenant.toNat va 4 with
      | .ok l s1 => s1.cx.icode.isNone && decide (bpHit s1.cx = none) && decide (w = Claims.littleWord l)
      | _ => false)
    | _ => false

theorem fetches_of {s : State} {w : W32} (h : fetchesWord s w = true) : ∃ s', Claims.fetches s w s' ∧ bpHit s'.cx = none := by
  unfold fetchesWord at h
  simp only [Bool.and_eq_true, decide_eq_true_eq] at h
  obtain ⟨h3, h⟩ := h
  split at h
  · rename_i va ht
    split at h
    · rename_i l s1 hg
      simp only [Bool.and_eq_true, decide_eq_true_eq, Option.isNone_iff_eq_none] at h
      obtain ⟨⟨hi, hb⟩, hw⟩ := h
      refine ⟨updCx s1 (fun c => { c with icode := some { mem := s1.mem, tlb := s1.tlb, resident := s1.resident } }),
        ⟨h3, .glob va, ht, l, s1, hg, ?_⟩, hb⟩
      unfold Claims.wordFrom
      rw [hi]
      exact ⟨hw, rfl⟩
    · cases h
  · cases h

/-- After reset with a word placed: what the next step sees. -/
def stepSt (w : W32) : State := { placeWord State.reset w with agenda := [.issue 0] }
def stepS1 (w : W32) : State := Claims.issuing { clockTick (stepSt w) with agenda := [] } 0 0

theorem witness_StepRunsDecoded : ∃ (s : State) (core slot : Nat) (rest : List Turn) (w : W32) (i : Instr) (s' : State),
    s.agenda = .issue core :: rest ∧ pickSlot { clockTick s with agenda := rest } core = some slot ∧
    Claims.fetchDue (Claims.issuing { clockTick s with agenda := rest } core slot) ∧
    Claims.fetches (Claims.issuing { clockTick s with agenda := rest } core slot) w s' ∧ bpHit s'.cx = none ∧
    decode w = .ok i := by
  have h : fetchesWord (stepS1 0x44000000) 0x44000000 = true := by decide +kernel
  obtain ⟨s', h1, h2⟩ := fetches_of h
  exact ⟨stepSt 0x44000000, 0, 0, [], 0x44000000, .nop, s', rfl, by decide +kernel,
    ⟨by decide +kernel, .inl (by decide +kernel)⟩, h1, h2, decode_of_reads (c := .core .nop) (by decide +kernel)⟩

theorem witness_StepTakesTurns : ∃ (s : State) (core slot : Nat) (i : Instr),
    s.agenda = [.issue core] ∧ pickSlot { clockTick s with agenda := [] } core = some slot ∧
    (Claims.issuing { clockTick s with agenda := [] } core slot).cx.again = true ∧
    (Claims.issuing { clockTick s with agenda := [] } core slot).cx.charged = [] ∧
    decode (Claims.issuing { clockTick s with agenda := [] } core slot).cx.ir = .ok i :=
  ⟨updCx (stepSt 0) (fun c => { c with again := true, ir := 0x44000000 }), 0, 0, .nop, rfl, by decide +kernel, by decide +kernel,
    by decide +kernel, decode_of_reads (c := .core .nop) (by decide +kernel)⟩

theorem witness_StepTakesTurns_event : ([.event .forcedClockSkip {}] : List Turn) =
    ({ State.reset with agenda := [.event .forcedClockSkip {}] } : State).agenda ∧ encodeNat .forcedClockSkip = none := ⟨rfl, rfl⟩

theorem witness_DecodeEncodeAgree : (Instr.lds 31 30 7 3 0x7FF).wf = true ∧
    encodeNat (.lds 31 30 7 3 0x7FF) = some 0b001101_11111_11110_111_11_11111111111 := by decide +kernel

theorem witness_DecodeUnique : decode 0xA50952C1 = .ok (.copy 8 9 10 11 .cvt) :=
  decode_of_reads (c := .core (.copy 8 9 10 11 .cvt)) (by decide +kernel)

theorem witness_IllegalWordTraps : ∃ (s : State) (core slot : Nat) (rest : List Turn) (w : W32) (e : DecErr) (s' : State),
    s.agenda = .issue core :: rest ∧ pickSlot { clockTick s with agenda := rest } core = some slot ∧
    Claims.fetchDue (Claims.issuing { clockTick s with agenda := rest } core slot) ∧
    Claims.fetches (Claims.issuing { clockTick s with agenda := rest } core slot) w s' ∧ bpHit s'.cx = none ∧
    decode w = .error e := by
  have h : fetchesWord (stepS1 0x2300_0000) 0x2300_0000 = true := by decide +kernel
  obtain ⟨s', h1, h2⟩ := fetches_of h
  exact ⟨stepSt 0x2300_0000, 0, 0, [], 0x2300_0000, .cond, s', rfl, by decide +kernel,
    ⟨by decide +kernel, .inl (by decide +kernel)⟩, h1, h2, decode_of_refuses (by decide +kernel)⟩

/-! 02: scalar -/

theorem witness_RegisterFile : (31 : BitVec 5) ≠ 0 ∧ rs (ws st 31 5) 31 = 5 ∧ rs (ws st 0 5) 0 = 0 ∧ rp (wp st 7 1) 7 = 1 ∧
    rp (wp st 0 1) 0 = BitVec.allOnes 64 := by decide +kernel

theorem witness_AluResults : ∃ r, Claims.aluRow (.cmovz 3 1 2) = some r ∧ unstepped st ∧ ¬ r.zeroDivisor st :=
  ⟨_, rfl, by unfold unstepped; decide +kernel, by unfold Claims.AluRow.zeroDivisor; decide +kernel⟩

theorem witness_AluResults_divides : ∃ r, Claims.aluRow (.div 3 1 2 false) = some r ∧
    ¬ r.zeroDivisor (regs [(1, 0x8000_0000_0000_0000), (2, BitVec.ofInt 64 (-1))] st) :=
  ⟨_, rfl, by unfold Claims.AluRow.zeroDivisor; decide +kernel⟩

/-- With W the divisor is the low word alone. -/
theorem witness_AluResults_zero : ∃ r, Claims.aluRow (.remu 3 1 2 true) = some r ∧
    r.zeroDivisor (regs [(1, 7), (2, 0x1_0000_0000)] st) :=
  ⟨_, rfl, by unfold Claims.AluRow.zeroDivisor; decide +kernel⟩

theorem witness_ImmediateResults : ∃ d a f, Claims.aluiRow (.srai 3 1 63) = some (d, a, f) ∧ unstepped st :=
  ⟨_, _, _, rfl, by unfold unstepped; decide +kernel⟩

theorem witness_BranchAndJumpResults : ∃ a o t, Claims.branchRow (.ble 3 (BitVec.ofInt 18 (-131072))) = some (a, o, t) ∧
    unstepped st ∧ t (rs st a).toInt = true :=
  ⟨_, _, _, rfl, by unfold unstepped; decide +kernel, by decide +kernel⟩

/-- A JALR target that is aligned, one that is not, one that wraps below zero. -/
theorem witness_BranchAndJumpResults_jalr :
    ((((rs (regs [(1, 0x1000)] st) 1).toNat : Int) % 2 ^ 48 + (4 : BitVec 16).toInt) % 2 ^ 48).toNat % 4 = 0 ∧
    ((((rs (regs [(1, 0x1002)] st) 1).toNat : Int) % 2 ^ 48 + (4 : BitVec 16).toInt) % 2 ^ 48).toNat % 4 ≠ 0 ∧
    ((((rs st 1).toNat : Int) % 2 ^ 48 + (BitVec.ofInt 16 (-4)).toInt) % 2 ^ 48).toNat = 2 ^ 48 - 4 := by decide +kernel

/-! 03: memory -/

/-- A window segment over the core's scratchpad: kind 0 of core 0. -/
def winSeg : Seg := whole kWindow

theorem segGives_glob (g : Seg) (off n r : Nat) (w : Bool)
    (h : decide (g.rights.getLsbD r = true ∧ ¬ (w = true ∧ g.kind = 2) ∧ off + n ≤ g.limit.toNat ∧ g.kind ≠ 1) = true) :
    Claims.segGives g off n r w (.glob ((g.base.toNat + off) % 2 ^ 48)) := by
  have h := of_decide_eq_true h
  exact ⟨h.1, h.2.1, h.2.2.1, by rw [if_neg h.2.2.2]⟩

theorem segGives_win (g : Seg) (off n r : Nat) (w : Bool)
    (h : decide (g.rights.getLsbD r = true ∧ ¬ (w = true ∧ g.kind = 2) ∧ off + n ≤ g.limit.toNat ∧ g.kind = 1) = true) :
    Claims.segGives g off n r w (.win ((g.base.toNat + off) % 2 ^ 48)) := by
  have h := of_decide_eq_true h
  exact ⟨h.1, h.2.1, h.2.2.1, by rw [if_pos h.2.2.2]⟩

def ldRow : Claims.FmRow := ⟨3, 1, 0, 3, 0⟩
def ldSt : State := regs [(1, ptr 0 0xF8)] st

theorem ldSt_passes (w : Bool) : ldRow.passes w ldSt (.glob 0xF8) := by
  refine ⟨by decide +kernel, by decide +kernel, ?_, .inl (by unfold atHome; decide +kernel)⟩
  cases w <;> exact segGives_glob (whole 0) 0xF8 8 _ _ (by decide)

theorem witness_LoadResults : ∃ (s s' : State) (t : Tgt) (l : List Byte) (sign : Bool),
    Claims.loadRow (.lds 3 1 0 3 0) = some (ldRow, sign) ∧ unstepped s ∧ ldRow.passes false s t ∧ reads s t ldRow.n l s' :=
  ⟨ldSt, _, .glob 0xF8, _, true, rfl, by unfold unstepped; decide +kernel, ldSt_passes false, reads_readBytes (by decide +kernel)⟩

def winSt : State := seg 2 winSeg (regs [(1, ptr 0 (1408 * 1024 - 8))] st)
def winRow : Claims.FmRow := ⟨3, 1, 2, 3, 0⟩

theorem winSt_passes (w : Bool) : winRow.passes w winSt (.win (1408 * 1024 - 8)) := by
  refine ⟨by decide +kernel, by decide +kernel, ?_, .inl (by unfold atHome; decide +kernel)⟩
  cases w <;> exact segGives_win winSeg (1408 * 1024 - 8) 8 _ _ (by decide)

/-- The last bytes of a scratchpad, through a window. -/
theorem witness_LoadResults_window : ∃ (s s' : State) (t : Tgt) (l : List Byte), unstepped s ∧ winRow.passes false s t ∧
    reads s t winRow.n l s' :=
  ⟨winSt, _, .win (1408 * 1024 - 8), _, by unfold unstepped; decide +kernel, winSt_passes false, reads_readBytes (by decide +kernel)⟩

theorem witness_StoreResults : ∃ (s s' : State) (t : Tgt), Claims.storeRow (.stl 3 1 0 3 0) = some (ldRow, true) ∧
    unstepped s ∧ ldRow.passes true s t ∧ Claims.released s ∧ s.cx.deferred = [] ∧
    writes s t (bytesOfNat ldRow.n (rs s ldRow.d).toNat) 0 s' :=
  ⟨ldSt, _, _, rfl, by unfold unstepped; decide +kernel, ldSt_passes true, by unfold Claims.released; decide +kernel,
    by decide +kernel, writes_written (by decide +kernel)⟩

theorem witness_StoreResults_window : ∃ (s s' : State) (t : Tgt), winRow.passes true s t ∧
    writes s t (bytesOfNat winRow.n (rs s winRow.d).toNat) 0 s' :=
  ⟨winSt, _, _, winSt_passes true, writes_written (by decide +kernel)⟩

/-- Each check of FmCheckTraps fails for some operands, with the ones before it passed; the limit is missed by one byte. -/
theorem witness_FmCheckTraps :
    (∃ r x, Claims.loadRow (.ld 3 1 0 3 0) = some (r, x)) ∧ (∃ r x, Claims.storeRow (.st 3 1 0 3 0) = some (r, x)) ∧
    tagOk (rs (regs [(1, ptr 20 0)] st) 1) = false ∧
    (ldRow.off (regs [(1, ptr 19 4)] st)).toNat % ldRow.n ≠ 0 ∧ tagOk (rs (regs [(1, ptr 5 4)] st) 1) = true ∧
    (rg (seg 0 { whole 0 with rights := 0xE } st) 0).rights.getLsbD rightR = false ∧
    (rg (seg 0 (whole kSeed) st) 0).kind = 2 ∧
    (rg (seg 0 { whole 0 with limit := 0xFF } ldSt) 0).limit.toNat < (ldRow.off ldSt).toNat + ldRow.n ∧
    (ldRow.off ldSt).toNat + ldRow.n ≤ (0x100 : Addr).toNat := by
  refine ⟨⟨_, _, rfl⟩, ⟨_, _, rfl⟩, ?_⟩
  decide +kernel

/-- The block of the pointer has an uncorrectable error. -/
def badSt : State := { ldSt with bad := [progPage / 256] }

theorem badSt_touched (w : Bool) : Claims.touched badSt 0xF8 8 w badSt := by
  cases w <;> exact ⟨by decide +kernel, by decide +kernel, rfl⟩

theorem witness_PathErrors_load : ∃ (s s1 : State) (va bad : Nat) (c : BitVec 8), ldRow.passes false s (.glob va) ∧
    Claims.touched s va ldRow.n false s1 ∧ gread s1 s1.cx.tenant.toNat va ldRow.n = .error c bad :=
  ⟨badSt, badSt, 0xF8, 0xF8, 0x15, ⟨by decide +kernel, by decide +kernel, segGives_glob (whole 0) 0xF8 8 _ _ (by decide),
    .inl (by unfold atHome; decide +kernel)⟩, badSt_touched false, rfl⟩

theorem witness_PathErrors_store : ∃ (s s1 : State) (va bad : Nat) (c : BitVec 8), ldRow.passes true s (.glob va) ∧ unstepped s ∧
    Claims.touched s va ldRow.n true s1 ∧
    gwrite s1 s1.cx.tenant.toNat va (bytesOfNat ldRow.n (rs s ldRow.d).toNat) 0 s1.cx.who = .error c bad :=
  ⟨badSt, badSt, 0xF8, 0xF8, 0x15, ⟨by decide +kernel, by decide +kernel, segGives_glob (whole 0) 0xF8 8 _ _ (by decide),
    .inl (by unfold atHome; decide +kernel)⟩, by unfold unstepped; decide +kernel, badSt_touched true, rfl⟩

theorem witness_PathErrors_deferred : ∃ (s : State) (t : Tgt) (ch : Charge) (rest : List Charge), ldRow.passes true s t ∧
    Claims.released s ∧ s.cx.deferred = ch :: rest ∧ s.cx.inh = false :=
  ⟨updCx ldSt (fun c => { c with deferred := [{ cause := 0x15, val := 0xF8 }] }), _, _, _,
    ⟨by decide +kernel, by decide +kernel, segGives_glob (whole 0) 0xF8 8 _ _ (by decide),
    .inl (by unfold atHome; decide +kernel)⟩, by unfold Claims.released; decide +kernel, rfl, by decide +kernel⟩

/-- Accesses that end at a block's end, and at a scratchpad's. -/
theorem witness_AccessFrames : ∃ (s s' s'' : State) (l : List Byte), reads s (.glob 0xF8) 8 l s' ∧
    writes s (.glob 0xF8) (bytesOfNat 8 5) 0 s'' ∧ farDev s s.cx.tenant.toNat 0xF8 = none ∧ 0 < (bytesOfNat 8 5).length ∧
    0xF8 % 256 + (bytesOfNat 8 5).length ≤ 256 :=
  ⟨ldSt, _, _, _, reads_readBytes (by decide +kernel), writes_written (by decide +kernel), by decide +kernel, by decide, by decide⟩

/-- An address of another device (R382). -/
def farSt : State := updTenant ldSt 0 (fun t => { t with windows := [(0, { base := 0, len := 1, dev := 1 })] })

theorem farSt_path (w : Bool) (h : Config.pathFails farSt.ticks 1 = false) :
    gpath farSt farSt.cx.tenant.toNat 0xF8 w false = .far := by
  have hd : farDev farSt farSt.cx.tenant.toNat 0xF8 = some 1 := by decide +kernel
  unfold gpath
  rw [hd]
  simp only [h]
  rfl

theorem witness_AccessFrames_far (h : Config.pathFails farSt.ticks 1 = false) :
    ∃ s'', writes farSt (.glob 0xF8) (bytesOfNat 8 5) 0 s'' ∧ farDev farSt farSt.cx.tenant.toNat 0xF8 ≠ none := by
  refine ⟨farSt, ⟨by decide +kernel, ?_, farSt, rfl, ?_⟩, by decide +kernel⟩
  · show absent farSt farSt.cx.tenant.toNat true [(0xF8, 8)] = none
    simp only [absent]
    rw [show (0xF8 : Nat) % 2 ^ 48 = 0xF8 from rfl, show ((8 : Nat) == 256) = false from rfl, farSt_path true h]
  · show gwriteL farSt farSt.cx.tenant.toNat 0 farSt.cx.who [(0xF8, 8)] (bytesOfNat 8 5) = .ok farSt
    have e : gpath farSt farSt.cx.tenant.toNat (0xF8 % 2 ^ 48) true ((8 : Nat) == 256) = .far := farSt_path true h
    rw [gwriteL, e]
    rfl

theorem witness_AccessFrames_window : ∃ (s s' s'' : State) (wa : Nat) (l : List Byte), winKind wa = 0 ∧
    reads s (.win wa) 8 l s' ∧ writes s (.win wa) (bytesOfNat 8 5) 0 s'' :=
  ⟨winSt, _, _, 1408 * 1024 - 8, _, by decide, reads_readBytes (by decide +kernel), writes_written (by decide +kernel)⟩

/-! 04: traps and system -/

def handled : State := updCx st (fun c => { c with tvec := 0x100 })

theorem witness_TrapEntry : Claims.deliverable handled ∧ homeIdx handled.cx.key ≠ 11 ∧
    Claims.deliverable (asCtx 11 handled) ∧ homeIdx (asCtx 11 handled).cx.key = 11 := by
  unfold Claims.deliverable
  decide +kernel

theorem witness_Escalation : ∃ (s : State) (p : Pour), (s.cx.tvec &&& offMask = 0 ∨ s.cx.inh = true) ∧ s.cx.gen = none ∧
    homeIdx s.cx.key ≠ 11 ∧ (getTenant s s.cx.tenant.toNat).faultQ = 0 ∧ findPour s s.cx.pour = some p ∧ p.st = .placed ∧
    (∀ c ∈ s.cuts, c.pour ≠ s.cx.pour) :=
  ⟨st, _, .inl (by decide +kernel), by decide +kernel, by decide +kernel, by decide +kernel, rfl, by decide +kernel,
    by decide +kernel⟩

theorem witness_Escalation_inh : (updCx handled (fun c => { c with tcause := 0x8000_0000_0000_0000 })).cx.inh = true := by
  decide +kernel

/-- A fifth cause finds four held. -/
theorem witness_Escalation_fifth :
    let ch : Charge := { cause := 0x15, val := 0, engine := 3 }
    let s : State := updCx handled (fun c => { c with tcause := 0x8000_0000_0000_0000, charged := List.replicate 4 ch })
    ∃ p, (getCtx s 0).live = true ∧ (getCtx s 0).gen = none ∧ (getCtx s 0).inh = true ∧ 4 ≤ (getCtx s 0).charged.length ∧
      findPour s (getCtx s 0).pour = some p ∧ p.st = .placed ∧ (∀ x ∈ s.cuts, x.pour ≠ (getCtx s 0).pour) ∧
      (getCtx st 0).inh = false :=
  ⟨_, by decide +kernel, by decide +kernel, by decide +kernel, by decide +kernel, rfl, by decide +kernel, by decide +kernel, by decide +kernel⟩

/-- A fault queue of two slots at 0x3100, its header at 0x3000: `n` slots are filled. -/
def queued (n : Nat) : State :=
  written (updTenant st 0 (fun t => { t with faultQ := 0x3000 })) (.glob 0x3000) (bytesOfNat 8 0x3100 ++ bytesOfNat 4 2 ++ bytesOfNat 4 0 ++ bytesOfNat 4 n) 0

def anEntry : FaultEntry := { tenant := 0, bytes := List.replicate 128 7, who := 0 }

theorem witness_Escalation_append : (getTenant (queued 1) 0).faultQ ≠ 0 ∧ (∀ x ∈ (queued 1).lateFaults, x.tenant ≠ 0) ∧
    (∃ s1, gread (queued 2) 0 0x3000 20 = .ok (bytesOfNat 8 0x3100 ++ bytesOfNat 4 2 ++ bytesOfNat 4 0 ++ bytesOfNat 4 2) s1) ∧
    (∃ s1 s2 s3, gread (queued 1) 0 0x3000 20 = .ok (bytesOfNat 8 0x3100 ++ bytesOfNat 4 2 ++ bytesOfNat 4 0 ++ bytesOfNat 4 1) s1 ∧
      gwrite s1 0 (0x3100 + 128 * (1 % 2)) anEntry.bytes 3 0 = .ok s2 ∧ gwrite s2 0 (0x3000 + 16) (bytesOfNat 4 2) 3 0 = .ok s3) :=
  ⟨by decide +kernel, by decide +kernel, ⟨_, gr_eq (by decide +kernel)⟩,
    ⟨_, _, _, gr_eq (by decide +kernel), gw_eq (by decide +kernel), gw_eq (by decide +kernel)⟩⟩

theorem witness_TrapInstructions : st.cx.inh = false ∧
    (updCx st (fun c => { c with tcause := 0xC000_0000_0000_0008 })).cx.up = true ∧
    (updCx st (fun c => { c with tcause := 0x8000_0000_0000_0000 })).cx.inh = true ∧
    (updCx st (fun c => { c with tcause := 0x8000_0000_0000_0000 })).cx.up = false ∧
    homeIdx (asCtx 1 st).cx.key ≠ 0 ∧ homeIdx st.cx.key = 0 ∧ st.cx.up = false ∧ unstepped st := by
  unfold unstepped
  decide +kernel

/-- The lowest and the highest number of each clause. -/
theorem witness_CsrAccess : (∃ f, (0x000, f) ∈ Claims.csrReads) ∧ (∃ f, (0x043, f) ∈ Claims.csrReads) ∧ atHome st ∧
    (0x043 : Nat) = (2 : BitVec 5).toNat * 32 + (3 : BitVec 5).toNat ∧
    0x100 ≤ (8 : BitVec 5).toNat * 32 + (0 : BitVec 5).toNat ∧
    0x010 < (0 : BitVec 5).toNat * 32 + (17 : BitVec 5).toNat ∧ (1 : BitVec 5).toNat * 32 + (31 : BitVec 5).toNat < 0x040 ∧
    0x043 < (2 : BitVec 5).toNat * 32 + (4 : BitVec 5).toNat ∧ (7 : BitVec 5).toNat * 32 + (31 : BitVec 5).toNat < 0x100 ∧
    (away 5 true st).cx.away = true ∧ (away 5 true st).cx.held = true ∧ unstepped (away 5 false st) := by
  refine ⟨⟨_, List.mem_cons_self⟩, ⟨fun s => (getCore s s.cx.core).txwake, ?_⟩, ?_⟩
  · simp [Claims.csrReads]
  · unfold atHome unstepped
    decide +kernel

/-- RMODE with RM of 4 and of 5; a read-only register. -/
theorem witness_CsrAccess_write : (∃ a b c f, Claims.csrWriteRow (.csrset 1 0 0) = some (a, b, c, f)) ∧
    ¬ (4 < (((csrValue st 0 &&& ~~~Claims.csrWritable 0) ||| (4 &&& Claims.csrWritable 0)).toNat % 8)) ∧
    4 < (((csrValue st 0 &&& ~~~Claims.csrWritable 0) ||| (5 &&& Claims.csrWritable 0)).toNat % 8) ∧
    Claims.csrWritable 0x010 = 0x3F ∧ Claims.csrWritable 0x00F = 0 := by
  refine ⟨⟨_, _, _, _, rfl⟩, ?_⟩
  decide +kernel

theorem witness_CoreCsrWrites : (∃ a b c f, Claims.csrWriteRow (.csrw 1 2 0) = some (a, b, c, f)) ∧
    homeIdx (asCtx 1 st).cx.key ≠ 0 ∧ homeIdx st.cx.key = 0 ∧ atHome st ∧ unstepped st ∧
    csrRefused 0x040 8 = false ∧ csrRefused 0x041 0x80 = false ∧ csrRefused 0x042 0 = false ∧
    csrRefused 0x043 0 = false ∧ opsAbove st 0 (scratchSize { getCore st 0 with lsplit := 8 }) = false := by
  refine ⟨⟨_, _, _, _, rfl⟩, ?_⟩
  unfold atHome unstepped
  decide +kernel

/-- SEGW: a bit of S[a] too high; a window that no register contains; one that g1 just contains; a GLOBAL segment. -/
theorem witness_SegmentAndIdentity : unstepped st ∧ 3 ≤ (3 : BitVec 5).toNat ∧
    (0x1_0000_0000_0000 : Word).toNat / 2 ^ 48 ≠ 0 ∧ (0x10_0000_0000_0000 : Word).extractLsb' 52 2 = 1#2 ∧
    (∀ j : BitVec 3, (rg st j).kind ≠ 1) ∧
    (rg (seg 1 { base := 0x100, limit := 0x40, rights := 3, kind := 1 } st) 1).base.toNat +
      (rg (seg 1 { base := 0x100, limit := 0x40, rights := 3, kind := 1 } st) 1).limit.toNat = 0x120 + 0x20 ∧
    (0x000F_FFFF_FFFF_FFFF : Word).toNat / 2 ^ 54 = 0 ∧ (0x000F_FFFF_FFFF_FFFF : Word).extractLsb' 52 2 = 0#2 := by
  unfold unstepped
  decide +kernel

/-- A second context, a helper, Ready at home beside context 0. -/
def helped : State :=
  regs [(1, 1)] { st with ctxs := [(1, { st.cx with key := 1 })] }

theorem witness_ContextInstructions_stop : matrixBusy st st.cx.key = false ∧ travelling st st.cx.key = false ∧
    st.cx.deferred = [] ∧ homeIdx st.cx.key ≠ 11 ∧ homeIdx st.cx.key = 0 ∧ atHome st ∧
    matrixBusy (asCtx 1 st) 1 = false ∧ travelling (asCtx 1 st) 1 = false ∧ homeIdx (asCtx 1 st).cx.key ≠ 0 ∧
    (asCtx 1 st).cx.charged = [] ∧ (asCtx 1 st).cx.gen = none := by
  unfold atHome
  decide +kernel

theorem witness_ContextInstructions_save : homeIdx helped.cx.key = 0 ∧ unstepped helped ∧ helped.saves.length + 2 ≤ 2 ^ 32 ∧
    1 ≤ (rs helped 1).toNat ∧ (rs helped 1).toNat ≤ 10 ∧ (getCtx helped (keyOf 0 1)).live = true ∧
    (getCtx helped (keyOf 0 1)).away = false ∧ (getCtx helped (keyOf 0 1)).busy = false := by
  unfold unstepped
  decide +kernel

/-- The handle of that save: serial, tenant and origin (R209). -/
theorem test_ctxsv_handle : (match exec (.ctxsv 5 1) helped with
    | .next t => decide (rs t 5 = 1#64) && t.saves.any (fun v => v.handle == 1) && !(getCtx t 1).live
    | _ => false) = true := by decide +kernel

/-- A helper saved alone; it and its work have a key of their own. -/
def savedSt : State :=
  regs [(1, 7)] { st with
    saves := [{ handle := 7, pour := 0, key := asideKey 1 1, resume := {} }]
    ctxs := [(asideKey 1 1, { st.cx with key := asideKey 1 1, st := .saved false })] }

theorem witness_ContextInstructions_load : ∃ sv idx, homeIdx savedSt.cx.key = 0 ∧ unstepped savedSt ∧
    savedSt.saves.find? (fun v => v.handle == rs savedSt 1) = some sv ∧
    (getCtx savedSt sv.key).tenant = savedSt.cx.tenant ∧ sv.pour = savedSt.cx.pour ∧
    helperNow savedSt (homeCore savedSt.cx.key) = some idx :=
  ⟨_, 1, by decide +kernel, by unfold unstepped; decide +kernel, rfl, by decide +kernel, by decide +kernel, by decide +kernel⟩

/-- MARK with no destination, and with a kettle of the core. -/
theorem witness_ContextInstructions_mark : homeIdx st.cx.key = 0 ∧ rs st 1 = 0 ∧ dwOk st (dest 0 1) = true := by decide +kernel

/-! 05: atomics, drips, migration -/

def atSt : State := regs [(1, ptr 4 0xFC), (2, 5), (3, 7)] st

theorem atSt_passes : ∀ r, Claims.atomRow (.acas 3 1 2 .ar false) = some r → r.passes atSt 0xFC := by
  intro r h
  cases h
  exact ⟨by decide +kernel, by decide +kernel, by decide +kernel,
    segGives_glob (whole 0) 0xFC 4 _ _ (by decide)⟩

/-- The word is zero: a comparand of 7 differs, one of 0 is equal. -/
theorem witness_AtomicInstructions : ∃ r s1 l, Claims.atomRow (.acas 3 1 2 .ar false) = some r ∧ unstepped atSt ∧
    r.passes atSt 0xFC ∧ r.ordered atSt ∧ atSt.cx.core = homeOf 0xFC ∧ reads atSt (.glob 0xFC) r.n l s1 ∧
    (r.new atSt (natOfBytes l)).1 = none :=
  ⟨_, _, _, rfl, by unfold unstepped; decide +kernel, atSt_passes _ rfl,
    fun _ => by unfold Claims.released; decide +kernel, by decide +kernel, reads_readBytes (by decide +kernel), by decide +kernel⟩

def atSt0 : State := regs [(1, ptr 4 0xFC), (2, 5)] st

theorem witness_AtomicInstructions_writes : ∃ r s1 l s2, Claims.atomRow (.acas 3 1 2 .ar false) = some r ∧
    reads atSt0 (.glob 0xFC) r.n l s1 ∧ (r.new atSt0 (natOfBytes l)).1 = some 5 ∧
    writes s1 (.glob 0xFC) (bytesOfNat r.n 5) 1 s2 :=
  ⟨_, _, _, _, rfl, reads_readBytes (by decide +kernel), by decide +kernel, writes_written (by decide +kernel)⟩

theorem witness_AtomicInstructions_checks : (∃ r, Claims.atomRow (.aadd 3 1 2 .rlx true) = some r) ∧
    tagOk (ptr 20 0) = false ∧ tagOk (ptr 5 4) = true ∧ (ptr 5 4).toNat % 2 ^ 48 % 8 ≠ 0 ∧
    (rg (seg 0 (whole 1) st) 0).kind ≠ 0 ∧ (rg (seg 0 { whole 0 with rights := 7 } st) 0).rights.getLsbD rightA = false ∧
    (rg (seg 0 { whole 0 with limit := 7 } st) 0).limit.toNat < 0 + 8 := by
  refine ⟨⟨_, rfl⟩, ?_⟩
  decide +kernel

def farAt : State := regs [(1, ptr 4 0x100)] st

theorem witness_AtomicInstructions_moves : ∃ r, Claims.atomRow (.aadd 3 1 2 .rel false) = some r ∧ r.passes farAt 0x100 ∧
    Claims.released farAt ∧ farAt.cx.core ≠ homeOf 0x100 ∧ farAt.cx.binds = [] ∧
    (updCx farAt (fun c => { c with binds := [(14, { ring := 2, out := false, stride := 4, perSlot := 1 })] })).cx.binds ≠ [] :=
  ⟨_, rfl, ⟨by decide +kernel, by decide +kernel, by decide +kernel, segGives_glob (whole 0) 0x100 4 _ _ (by decide)⟩,
    by unfold Claims.released; decide +kernel, by decide +kernel, by decide +kernel, by decide +kernel⟩

theorem witness_DripIssue : (∃ d a b f op, Claims.dripRow (.dmaxf 3 1 2) = some (d, a, b, f, op)) ∧
    tagOk (ptr 20 0) = false ∧ tagOk (ptr 4 0) = true ∧ Claims.dripSize true ((ptr 4 0).toNat / 2 ^ 59) = none ∧
    Claims.dripSize true ((ptr 9 8).toNat / 2 ^ 59) = some 8 ∧ (ptr 9 4).toNat % 2 ^ 48 % 8 ≠ 0 ∧
    (rg (seg 0 (whole 2) st) 0).kind ≠ 0 ∧ (rg (seg 0 { whole 0 with limit := 15 } st) 0).limit.toNat < 8 + 8 ∧
    Claims.segGives (rg st 0) 8 8 rightA true (.glob 8) ∧ dwOk st (dest 255 255) = true ∧ dwOk st 0x8000_0000_0000_0000 = false ∧
    rs st 3 = 0 ∧ unstepped st := by
  refine ⟨⟨_, _, _, _, _, rfl⟩, by decide +kernel, by decide +kernel, by decide +kernel, by decide +kernel, by decide +kernel,
    by decide +kernel, by decide +kernel, segGives_glob (whole 0) 8 8 _ _ (by decide), by decide +kernel, by decide +kernel,
    by decide +kernel, by unfold unstepped; decide +kernel⟩

theorem witness_MigrationInstructions : tagOk (ptr 20 0) = false ∧ tagOk (ptr 0 0x100) = true ∧
    (rg (seg 0 { whole 0 with rights := 6 } st) 0).rights.getLsbD rightR = false ∧
    (rg (seg 0 { whole 0 with limit := 0x100 } st) 0).limit.toNat < 0x100 + 1 ∧
    Claims.segGives (rg st 0) 0xFF 1 rightR false (.glob 0xFF) ∧ homeOf 0xFF = st.cx.core ∧ homeOf 0x100 ≠ st.cx.core ∧
    st.cx.binds = [] ∧ Claims.released st ∧ unstepped st ∧ st.cx.core = homeCore st.cx.key ∧
    (away 5 true st).cx.core ≠ homeCore (away 5 true st).cx.key := by
  refine ⟨by decide +kernel, by decide +kernel, by decide +kernel, by decide +kernel,
    segGives_glob (whole 0) 0xFF 1 _ _ (by decide), by decide +kernel, by decide +kernel, by decide +kernel,
    by unfold Claims.released; decide +kernel, by unfold unstepped; decide +kernel, by decide +kernel, by decide +kernel⟩

theorem witness_MigrationInstructions_far : ∃ s' s'' l, Claims.segGives (rg farAt 0) 0x100 4 rightR false (.glob 0x100) ∧
    reads farAt (.glob 0x100) 4 l s' ∧ writes farAt (.glob 0x100) (bytesOfNat 4 5) 0 s'' :=
  ⟨_, _, _, segGives_glob (whole 0) 0x100 4 _ _ (by decide), reads_readBytes (by decide +kernel),
    writes_written (by decide +kernel)⟩

/-- A visitor of core 5 whose word is at home on core 0, held and loose. -/
theorem witness_VisitorAccess : (∃ r x, Claims.loadRow (.lda 3 1 0 3 0) = some (r, x)) ∧
    tagOk (rs (away 5 true ldSt) 1) = true ∧ Claims.segGives (rg (away 5 true ldSt) 0) 0xF8 8 rightR false (.glob 0xF8) ∧
    (away 5 true ldSt).cx.away = true ∧ homeOf 0xF8 ≠ (away 5 true ldSt).cx.core ∧ (away 5 true ldSt).cx.held = true ∧
    (away 5 false ldSt).cx.held = false ∧ Claims.released (away 5 false ldSt) := by
  refine ⟨⟨_, _, rfl⟩, by decide +kernel, segGives_glob (whole 0) 0xF8 8 _ _ (by decide), by decide +kernel, by decide +kernel,
    by decide +kernel, by decide +kernel, by unfold Claims.released; decide +kernel⟩

/-! 06: kettles and messages -/

theorem witness_DecrementRule : (239 : Nat) < 240 ∧ Claims.decrement (-(2 ^ 31)) 255 = (-(2 ^ 31), true, false) ∧
    Claims.decrement 1 1 = (0, false, true) := by decide

def kSt : State := regs [(1, 0x1_0000_00DF), (2, 0x400), (3, 0xDF)] (kettle 0xDF 5 false 0 st)

/-- The last kettle a program may name on core 0, and its first announcement kettle. -/
theorem witness_KettleInstructions : atHome kSt ∧ unstepped kSt ∧ Claims.programKettle kSt 0xDF ∧
    (rs kSt 1).toNat = 1 * 2 ^ 32 + 0xDF ∧ (rs kSt 2).toNat % 4 = 0 ∧ Claims.owns kSt 0xDF ∧ (rs kSt 3).toNat = 0xDF ∧
    kettleTenant st 0 0xDF = none ∧ ¬ Claims.programKettle kSt 0xE0 := by
  unfold atHome unstepped Claims.programKettle Claims.owns
  decide +kernel

/-- KADD up to the greatest count and one past it; KWAIT on a count that is zero, with and without OVF, and on one above. -/
theorem witness_KettleInstructions_counts :
    (getKettle kSt 0 0xDF).count + ((0x7FFF_FFFA : Word).setWidth 32).toInt < 2 ^ 31 ∧
    ¬ ((getKettle kSt 0 0xDF).count + ((0x7FFF_FFFB : Word).setWidth 32).toInt < 2 ^ 31) ∧
    0 < (getKettle kSt 0 0xDF).count ∧ (getKettle (kettle 255 0 true 0 st) 0 255).count ≤ 0 ∧
    (getKettle (kettle 255 0 true 0 st) 0 255).ovf = true ∧ (getKettle (kettle 255 0 false 0 st) 0 255).ovf = false ∧
    Claims.owns (kettle 255 0 true 0 st) 255 := by
  unfold Claims.owns
  decide +kernel

/-- Kettles no register may name, kettles of another tenant, of nobody; KSET registers that are refused. -/
theorem witness_KettleInstructions_traps : 256 ≤ (256 : Word).toNat ∧ ¬ Claims.programKettle kSt 240 ∧
    kettleTenant (kettle 3 1 false 2 st) 0 3 = some 2 ∧ (2 : Nat) ≠ st.cx.tenant.toNat ∧ kettleTenant st 0 3 = none ∧
    Claims.programKettle st 3 ∧ (getKettle st 0 3).count ≤ 0 ∧
    (0x1_0000_0100 : Word).toNat / 256 % 2 ^ 24 ≠ 0 ∧ (0x0000_0003 : Word).toNat / 2 ^ 32 < 1 ∧
    2 ^ 31 ≤ (0x8000_0000_0000_0003 : Word).toNat / 2 ^ 32 ∧ (0x402 : Word).toNat % 4 ≠ 0 ∧
    (away 5 true st).cx.away = true ∧ (away 5 true st).cx.held = true := by
  unfold Claims.programKettle
  decide +kernel

def sendSt : State :=
  regs [(3, dest 5 1)] (core0 (fun c => { c with allow := [(allowKey 0 0 0, 1)] }) st)

theorem witness_MessageInstructions_send :
    (∃ a b, Instr.send 3 1 2 = .send 3 a b) ∧ dwOk st 0 = false ∧ dwOk sendSt (rs sendSt 3) = true ∧ Claims.released sendSt ∧
    tgetD (getCore sendSt 0).allow (allowKey (dwCore (rs sendSt 3)) (dwDev (rs sendSt 3)) 0) 0 ≠ 0 ∧ dwDev (rs sendSt 3) = 0 ∧
    tgetD (getCore st 0).allow (allowKey 0 0 0) 0 = 0 ∧ unstepped sendSt ∧ Claims.unbound sendSt := by
  refine ⟨⟨_, _, rfl⟩, ?_⟩
  unfold Claims.released unstepped Claims.unbound
  decide +kernel

def inboxSt : State :=
  regs [(1, 5)] (kettle 5 0 false 0 (core0 (fun c => { c with inbox :=
    [{ slot := 0, sender := 9, kettle := 4, len := 16, payload := 1 }, { slot := 1, sender := 9, kettle := 5, len := 48, payload := 2 }] }) st))

theorem witness_MessageInstructions_recv : ∃ pre m post, atHome inboxSt ∧ unstepped inboxSt ∧ Claims.unbound inboxSt ∧
    (rs inboxSt 1).toNat = 5 ∧ Claims.owns inboxSt 5 ∧ (getCore inboxSt 0).inbox = pre ++ m :: post ∧
    (∀ x ∈ pre, x.kettle ≠ 5) ∧ m.kettle = 5 ∧ m.len < 2 ^ 32 :=
  ⟨[{ slot := 0, sender := 9, kettle := 4, len := 16, payload := 1 }], _, [], by unfold atHome; decide +kernel,
    by unfold unstepped; decide +kernel, by unfold Claims.unbound; decide +kernel, by decide +kernel,
    by unfold Claims.owns; decide +kernel, rfl, by decide +kernel, by decide +kernel, by decide +kernel⟩

theorem witness_MessageInstructions_recv_none : Claims.owns (kettle 5 0 false 0 st) 5 ∧
    (∀ m ∈ (getCore (kettle 5 0 false 0 st) 0).inbox, m.kettle ≠ 5) := by
  unfold Claims.owns
  decide +kernel

theorem witness_MessageInstructions_allow : coreRegOk st 0x5C1 = true ∧ dwDev 0x5C1 = 0 ∧ 1 ≤ (1 : Word).toNat ∧
    (65535 : Word).toNat ≤ 65535 ∧ atHome st ∧ unstepped st := by
  unfold atHome unstepped
  decide +kernel

/-! 07: barriers, ordering, helpers -/

def barNew : Barrier := { x0 := 0, y0 := 0, w := 1, h := 1, mask := 0x400 }
def barSt (b : Barrier) : State := regs [(1, 0), (2, 0x400)] (setBar st 0 3 b)

theorem witness_BarrierInstructions_set : ∃ p, findPour st st.cx.pour = some p ∧ Claims.rectangle p 0 0 0x400 barNew ∧
    getBar st 0 3 = none ∧ (∃ old, getBar (barSt { barNew with last := [(10, 0)] }) 0 3 = some old ∧ old.busy = true) ∧
    (∀ nb, ¬ Claims.rectangle p 0 0 0x800 nb) := by
  refine ⟨_, rfl, by unfold Claims.rectangle; decide +kernel, by decide +kernel, ⟨_, rfl, by decide +kernel⟩, ?_⟩
  intro nb h
  unfold Claims.rectangle at h
  have h1 := h.2.2.2.2.2.2.2.1
  have h2 := h.2.2.2.2.2.2.2.2.1
  rw [← h1] at h2
  exact absurd h2 (by decide)

theorem witness_BarrierInstructions_none : getBar st 0 3 = none ∧ st.cx.barAt = none ∧ Claims.released st := by
  unfold Claims.released
  decide +kernel

/-- Context 10 in the mask of the barrier, context 0 not in it; an arrival not released, one that is. -/
theorem witness_BarrierInstructions_arrive : ∃ q, getBar (asCtx 10 (barSt barNew)) 0 3 = some q ∧ bitN q.mask 10 = true ∧
    ¬ Claims.unreleased q 10 ∧ bitN q.mask 0 = false ∧ Claims.unreleased { q with last := [(10, 0)] } 10 ∧
    tget q.last 10 = none ∧ tget ({ q with last := [(10, 0)], phase := 1 } : Barrier).last 10 = some 0 ∧
    (0 : Nat) ≠ ({ q with last := [(10, 0)], phase := 1 } : Barrier).phase := by
  refine ⟨barNew, rfl, ?_⟩
  unfold Claims.unreleased
  decide +kernel

/-- An operation of context 0 in the matrix queue. -/
def mop (k : MKind) (mods : BitVec 8) (shape : Shape) : MOp :=
  { id := 1, kind := k, acc := 0, qa := 0, qb := 0, mods := mods, recOff := 0, shape := shape, segs := st.cx.g, rmode := 0
    key := 0, pour := 0, tenant := 0 }

def busySt : State := core0 (fun c => { c with mq := [mop .mma 0 0] }) st

theorem witness_OrderingInstructions_fence : unstepped st ∧ Claims.released st ∧ st.cx.deferred = [] ∧
    engineBusy busySt 0 = true ∧ engineBusy st 0 = false ∧
    (∃ ch rest, (updCx st (fun c => { c with deferred := [{ cause := 0x15, val := 8 }] })).cx.deferred = ch :: rest) := by
  refine ⟨by unfold unstepped; decide +kernel, by unfold Claims.released; decide +kernel, by decide +kernel, by decide +kernel,
    by decide +kernel, ⟨_, _, rfl⟩⟩

theorem witness_OrderingInstructions_waitw : ∃ s' l, atHome ldSt ∧ tagOk (rs ldSt 1) = true ∧
    (rs ldSt 1).toNat % 2 ^ 48 % 8 = 0 ∧ Claims.segGives (rg ldSt 0) ((rs ldSt 1).toNat % 2 ^ 48) 8 rightR false (.glob 0xF8) ∧
    reads ldSt (.glob 0xF8) 8 l s' ∧ natOfBytes l = (rs ldSt 2).toNat ∧ natOfBytes l ≠ (1 : Word).toNat :=
  ⟨_, _, by unfold atHome; decide +kernel, by decide +kernel, by decide +kernel,
    segGives_glob (whole 0) 0xF8 8 _ _ (by decide), reads_readBytes (by decide +kernel), by decide +kernel, by decide +kernel⟩

/-- A publish descriptor at 0xC0: bases 0x1000 and 0x2000, 256 bytes, version 4, buffer 1. -/
def descBytes : List Byte :=
  bytesOfNat 8 0x1000 ++ bytesOfNat 8 0x2000 ++ bytesOfNat 8 256 ++ bytesOfNat 8 9 ++ List.replicate 32 0
def descSt : State := regs [(1, ptr 0 0xC0)] (written st (.glob 0xC0) descBytes 0)

theorem desc_is : Claims.descriptor descBytes 0x1000 0x2000 9 :=
  ⟨256, by decide, by decide, by decide, by decide, by decide, by decide, rfl⟩

theorem descSt_reads : ∃ s', reads descSt (.glob 0xC0) 64 descBytes s' ∧ engineBusy s' descSt.cx.key = false ∧
    dripping s' s'.cx.key = false ∧ s'.layers = [] := by
  have h := reads_readBytes (s := descSt) (t := .glob 0xC0) (n := 64) (by decide +kernel)
  have e : (readBytes descSt (.glob 0xC0) 64).1 = descBytes := by decide +kernel
  rw [e] at h
  exact ⟨_, h, by decide +kernel, by decide +kernel, by decide +kernel⟩

theorem witness_OrderingInstructions_acquire : ∃ s', atHome descSt ∧ unstepped descSt ∧ tagOk (rs descSt 1) = true ∧
    (rs descSt 1).toNat % 2 ^ 48 % 64 = 0 ∧ Claims.segGives (rg descSt 0) 0xC0 64 rightR false (.glob 0xC0) ∧
    Claims.segGives (rg descSt 0) 0xC0 64 rightA true (.glob 0xC0) ∧ reads descSt (.glob 0xC0) 64 descBytes s' ∧
    Claims.descriptor descBytes 0x1000 0x2000 9 ∧ engineBusy s' descSt.cx.key = false ∧ Claims.released s' := by
  obtain ⟨s', h1, h2, h3, _⟩ := descSt_reads
  exact ⟨s', by unfold atHome; decide +kernel, by unfold unstepped; decide +kernel, by decide +kernel, by decide +kernel,
    segGives_glob (whole 0) 0xC0 64 _ _ (by decide), segGives_glob (whole 0) 0xC0 64 _ _ (by decide), h1, desc_is, h2, h3⟩

/-- The state word the publish of `descSt` writes can be written. -/
theorem witness_OrderingInstructions_publish :
    (match gwrite (readBytes descSt (.glob 0xC0) 64).2 0 (0xC0 + 24) (bytesOfNat 8 ((9 / 2 + 1) % 2 ^ 63 * 2 + (1 - 9 % 2))) 1 0 with
      | .ok s2 => s2.layers.isEmpty
      | _ => false) = true := by decide +kernel

theorem witness_HelperInstructions_hstart : homeIdx (asCtx 1 st).cx.key ≠ 0 ∧ homeIdx st.cx.key = 0 ∧ atHome st ∧
    (0x402 : Word).toNat % 2 ^ 48 % 4 ≠ 0 ∧ Claims.released st ∧ helperNow st 0 = some 1 ∧ unstepped st ∧
    helperNow (core0 (fun c => { c with hreqs := [.kettle 5] }) st) 0 = none := by
  unfold atHome Claims.released unstepped
  decide +kernel

theorem witness_HelperInstructions_hjoin :
    (∃ i < 64, (i = 0 ∨ 10 < i) ∧ (0x800 : Word).getLsbD i = true) ∧
    (∀ i < 64, (i = 0 ∨ 10 < i) → (0x7FE : Word).getLsbD i = false) ∧
    ((List.range 16).any (fun i => decide (1 ≤ i) && decide (i ≤ 10) && (0x7FE : Word).getLsbD i
      && (getCtx helped (keyOf 0 i)).live)) = true ∧
    ((List.range 16).any (fun i => decide (1 ≤ i) && decide (i ≤ 10) && (0x7FE : Word).getLsbD i
      && (getCtx st (keyOf 0 i)).live)) = false := by decide +kernel

def brewSt : State := { st with brews := [{ tenant := 0, num := 0, queue := 0, record := 0, segs := st.cx.g }] }

theorem witness_HelperInstructions_lstat : 2 ^ 32 ≤ (0x1_0000_0000 : Word).toNat ∧ (0xFFFF_FFFF : Word).toNat < 2 ^ 32 ∧
    findBrew st 0 0xFFFF_FFFF = none ∧ (∃ b, findBrew brewSt 0 0 = some b) := by
  refine ⟨by decide, by decide, by decide +kernel, ⟨_, rfl⟩⟩

theorem witness_HelperInstructions_launch : ∃ s' l, atHome descSt ∧ tagOk (rs descSt 1) = true ∧
    (rs descSt 1).toNat % 2 ^ 48 % 64 = 0 ∧ Claims.segGives (rg descSt 0) 0xC0 64 rightR false (.glob 0xC0) ∧
    reads descSt (.glob 0xC0) 64 l s' ∧ Claims.released s' := by
  obtain ⟨s', h1, _, h3, _⟩ := descSt_reads
  exact ⟨s', _, by unfold atHome; decide +kernel, by decide +kernel, by decide +kernel,
    segGives_glob (whole 0) 0xC0 64 _ _ (by decide), h1, h3⟩

/-! 08 and 09: vectors -/

theorem witness_VectorElements : Claims.unbound st ∧ unstepped st ∧
    (∃ r, Claims.elemRow (.vshl 1 2 3 0 .f32) = some r ∧ r.made = none) ∧
    (∃ r w f, Claims.elemRow (.vfma 1 2 3 0 .c1 .rna) = some r ∧ r.made = some (w, f) ∧ w = 64) ∧
    (∃ r w f, Claims.elemRow (.vsplat 1 2 7 .e5m2) = some r ∧ r.made = some (w, f) ∧ w = 8) :=
  ⟨by unfold Claims.unbound; decide +kernel, by unfold unstepped; decide +kernel, ⟨_, rfl, rfl⟩, ⟨_, _, _, rfl, rfl, rfl⟩,
    ⟨_, _, _, rfl, rfl, rfl⟩⟩

theorem witness_VectorMovesAndCompares : Claims.unbound st ∧ unstepped st ∧ (Instr.vzip 14 2 3 .i16).wf = true ∧
    (∃ d p m, Claims.wholeRow (.vzip 14 2 3 .i16) = some (d, p, some m)) ∧
    (∃ d p, Claims.wholeRow (.viota 1 0 .f32) = some (d, p, none)) ∧
    (∃ d a b p k r, Claims.cmpRow (.vcle 7 2 3 1 .c1) = some (d, a, b, p, some k, r)) ∧
    (∃ d a b p r, Claims.cmpRow (.vceq 7 2 3 1 .e4m3) = some (d, a, b, p, none, r)) :=
  ⟨by unfold Claims.unbound; decide +kernel, by unfold unstepped; decide +kernel, by decide, ⟨_, _, _, rfl⟩, ⟨_, _, rfl⟩,
    ⟨_, _, _, _, _, _, rfl⟩, ⟨_, _, _, _, _, rfl⟩⟩

theorem witness_VectorReductions : (∃ d f, Claims.redRow (.vrsum 1 2 0 .bf16 .rtz) = some (d, some f)) ∧
    (∃ d, Claims.redRow (.vrmax 1 2 0 .e4m3) = some (d, none)) ∧ Claims.kinds [.i32, .f32] Claims.f64 .i16 = none ∧
    Claims.kinds [.i32, .f32] Claims.f64 .c1 = some (.flt .fp64) ∧
    Claims.kinds (Claims.tI ++ Claims.tF ++ Claims.t8) Claims.f64 .e5m2 = some (.flt .e5m2) :=
  ⟨⟨_, _, rfl⟩, ⟨_, rfl⟩, by decide, by decide, by decide⟩

theorem witness_PredicateInstructions : unstepped st ∧ rp st 1 = 0 ∧ rp st 0 ≠ 0 := by
  unfold unstepped
  decide +kernel

def vmSt : State := { ldSt with cx := { ldSt.cx with p := vset ldSt.cx.p 1 0x8000_0000_0000_0000 } }

def vmRow (store : Bool) : Claims.VmemRow := ⟨1, 1, 0, 1, store, false, fun _ bits _ j => (j * bits / 8 : Nat)⟩

/-- One element is active, the last; the pointer stands so that it ends the block. -/
def vmSt63 : State := regs [(1, ptr 0 0)] vmSt

theorem vm_at (store : Bool) : (vmRow store).at_ vmSt63 32 64 63 (.glob 0xFC) := by
  cases store
  · exact ⟨by decide +kernel, segGives_glob (whole 0) 0xFC 4 _ _ (by decide)⟩
  · exact ⟨by decide +kernel, segGives_glob (whole 0) 0xFC 4 _ _ (by decide)⟩

theorem vm_actives (store : Bool) : (vmRow store).actives vmSt63 64 = [63] := by cases store <;> decide +kernel

theorem vm_ways (store : Bool) : Claims.waysFree (Claims.bytesOf 32) store [.glob 0xFC] vmSt63 vmSt63 := by
  refine ⟨fun t h => ?_, vmSt63, rfl, rfl⟩
  rw [List.mem_singleton.mp h]
  cases store <;> exact ⟨(by decide +kernel : dripsAt vmSt63 vmSt63.cx.key 0xFC 4 = false),
    (by decide +kernel : absent vmSt63 vmSt63.cx.tenant.toNat _ (blocksOf 0xFC 4) = none)⟩

theorem witness_VectorMemory_load : ∃ s1 s2 acc, Claims.vmemRow (.vld 1 1 0 1) = some (vmRow false) ∧ Claims.unbound vmSt63 ∧
    atHome vmSt63 ∧ tagOk (rs vmSt63 (vmRow false).a) = true ∧ unstepped vmSt63 ∧
    Claims.vmemLayout ((rs vmSt63 (vmRow false).a).toNat / 2 ^ 59) false false = some (32, 64) ∧
    acc.length = ((vmRow false).actives vmSt63 64).length ∧
    (∀ (k j : Nat) (t : Tgt) (b : List Byte), ((vmRow false).actives vmSt63 64)[k]? = some j → acc[k]? = some (t, b) →
      (vmRow false).at_ vmSt63 32 64 j t) ∧
    Claims.waysFree (Claims.bytesOf 32) false (acc.map Prod.fst) vmSt63 s1 ∧ Claims.readsEach (Claims.bytesOf 32) acc s1 s2 := by
  refine ⟨vmSt63, _, [(.glob 0xFC, [0, 0, 0, 0])], rfl, by unfold Claims.unbound; decide +kernel,
    by unfold atHome; decide +kernel, by decide +kernel, by unfold unstepped; decide +kernel, by decide +kernel, ?_, ?_,
    vm_ways false, ⟨_, gr_eq (by decide +kernel), rfl⟩⟩
  · rw [vm_actives]; rfl
  · intro k j t b hk hb
    rw [vm_actives] at hk
    cases k with
    | zero => cases hk; cases hb; exact vm_at false
    | succ k => cases hk

theorem witness_VectorMemory_store : ∃ s1 s2 tgts, Claims.vmemRow (.vst 1 1 0 1) = some (vmRow true) ∧
    tagOk (rs vmSt63 (vmRow true).a) = true ∧
    Claims.vmemLayout ((rs vmSt63 (vmRow true).a).toNat / 2 ^ 59) true false = some (32, 64) ∧
    tgts.length = ((vmRow true).actives vmSt63 64).length ∧
    (∀ (k j : Nat) (t : Tgt), ((vmRow true).actives vmSt63 64)[k]? = some j → tgts[k]? = some t →
      (vmRow true).at_ vmSt63 32 64 j t) ∧
    Claims.waysFree (Claims.bytesOf 32) true tgts vmSt63 s1 ∧
    (let glob := putPatch ([] : Patch) 0xFC (elemPatch 32 63 (storeElem 0 (modeOf vmSt63.cx.rmode) (elem (rv vmSt63 1) 32 63)).bits)
     patchAll vmSt63.cx.tenant.toNat vmSt63.cx.key vmSt63.cx.who (glob.length + 1) glob s1 = .ok s2 ∧ s2.cx.stepping = false) := by
  refine ⟨vmSt63, _, [.glob 0xFC], rfl, by decide +kernel, by decide +kernel, ?_, ?_, vm_ways true, rfl, rfl⟩
  · rw [vm_actives]; rfl
  · intro k j t hk hb
    rw [vm_actives] at hk
    cases k with
    | zero => cases hk; cases hb; exact vm_at true
    | succ k => cases hk

theorem witness_VectorMemory_traps : tagOk (ptr 20 0) = false ∧ tagOk (ptr 12 0) = true ∧
    Claims.vmemLayout ((ptr 12 0).toNat / 2 ^ 59) true true = none ∧
    Claims.vmemLayout ((ptr 12 0).toNat / 2 ^ 59) true false = some (4, 64) ∧
    Claims.vmemLayout 16 true false = none ∧ Claims.vmemLayout 16 false true = some (8, 64) := by decide

/-! 10 and 11: rings, streams, copies, the bit reader -/

def ringOne : Ring := { base := 0x100, slog := 8, count := 3, head := 2 ^ 32 - 2, tail := 1 }

/-- Ring 1 of core 0 is defined; its counters stand just below the wrap value 3 · ⌊2^32 / 3⌋ and just above it. -/
def ringSt : State := regs [(1, 1), (2, 2), (3, 3), (4, 4)] (setRing st 0 1 ringOne)

theorem witness_RingInstructions_define : atHome st ∧ (0x10006 : Word).toNat = 6 + 256 * 2 ^ 8 ∧
    (0x40 : Word).toNat % 2 ^ 6 = 0 ∧ (1408 * 1024 - 256 * 64) + 256 * 2 ^ 6 ≤ scratchSize (getCore st 0) ∧
    ¬ ((0x20 : Word).toNat % 2 ^ 6 = 0) ∧ ringInUse st 0 1 = false ∧ unstepped st ∧
    ringInUse (updCx (core0 (fun c => { c with rings := c.rings }) st) (fun c =>
      { c with binds := [(14, { ring := 1, out := false, stride := 4, perSlot := 1 })] })) 0 1 = true := by
  unfold atHome unstepped
  decide +kernel

theorem witness_RingInstructions_bad : ∀ l c, ¬ ((0x105 : Word).toNat = l + c * 2 ^ 8 ∧ 6 ≤ l ∧ l ≤ 16 ∧ 2 ≤ c ∧ c ≤ 256) := by
  intro l c h
  have : (0x105 : Word).toNat = 0x105 := rfl
  omega

theorem witness_RingInstructions_none : (∃ b d, Instr.rtail 7 15 = .rwaitf 15 b ∨ Instr.rtail 7 15 = .rtail d 15) ∧
    Claims.ringOf st 15 = none := ⟨⟨0, 7, .inr rfl⟩, by decide +kernel⟩

/-- Two slots are filled and one is empty: counts of 1, 2, 3 and 4 reach every clause. -/
theorem witness_RingInstructions_moves : atHome ringSt ∧ Claims.ringOf ringSt 1 = some ringOne ∧ 1 ≤ ringOne.count ∧
    ringOne.head < Claims.wrapOf ringOne.count ∧ ringOne.tail < Claims.wrapOf ringOne.count ∧ Claims.filledOf ringOne = 2 ∧
    (rs ringSt 4).toNat = 4 ∧ streamEnd ringSt 0 1 true = false ∧ streamEnd ringSt 0 1 false = false ∧ unstepped ringSt := by
  unfold atHome unstepped
  decide +kernel

def bound (out : Bool) : State := updCx ringSt (fun c => { c with binds := [(14, { ring := 1, out := out, stride := 0, perSlot := 1 })] })

theorem witness_StreamInstructions_bind : Claims.ringOf ringSt 1 = some ringOne ∧ ringBound ringSt 0 1 = none ∧
    tget ringSt.cx.binds 14 = none ∧ (0x1_FFFF_0000_0000 : Word).toNat = 0 + 0xFFFF * 2 ^ 32 + true.toNat * 2 ^ 48 ∧
    (0xFFFF - 1) * 0 + 256 ≤ 2 ^ ringOne.slog ∧ (13 : BitVec 4) ≠ 14 ∧ (13 : BitVec 4) ≠ 15 ∧
    (∃ b, tget (bound false).cx.binds 14 = some b) ∧ tget (bound false).cx.binds 15 = none := by
  refine ⟨by decide +kernel, by decide +kernel, by decide +kernel, by decide, by decide, by decide, by decide, ⟨_, rfl⟩,
    by decide +kernel⟩

theorem witness_StreamInstructions_in : ∃ b r, tget (bound false).cx.binds 14 = some b ∧ tget (bound false).cx.binds 3 = none ∧
    getRing (bound false) 0 b.ring = some r ∧ b.out = false ∧ r.filled ≠ 0 ∧
    r.base + r.head % r.count * 2 ^ r.slog + b.done * b.stride + 256 ≤ scratchSize (getCore (bound false) 0) ∧
    unstepped (bound false) ∧ ({ r with tail := r.head } : Ring).filled = 0 := by
  refine ⟨{ ring := 1, out := false, stride := 0, perSlot := 1 }, ringOne, ?_⟩
  unfold unstepped
  decide +kernel

theorem witness_StreamInstructions_out : ∃ b r, tget (bound true).cx.binds 14 = some b ∧ tget (bound true).cx.binds 3 = none ∧
    getRing (bound true) 0 b.ring = some r ∧ b.out = true ∧ r.empty ≠ 0 ∧
    r.base + r.tail % r.count * 2 ^ r.slog + b.done * b.stride + 256 ≤ scratchSize (getCore (bound true) 0) ∧
    unstepped (bound true) := by
  refine ⟨{ ring := 1, out := true, stride := 0, perSlot := 1 }, ringOne, ?_⟩
  unfold unstepped
  decide +kernel

/-- A record that moves one byte, in the last 64 bytes of the scratchpad; one that is all zero stands before it. -/
def copyRec : List Byte := bytesOfNat 16 0x1_00000001_00000001_00000001 ++ bytesOfNat 16 0 ++ bytesOfNat 32 0x1_00000001_00000001
def copySt : State :=
  regs [(1, dest 3 1 + 0x1000_0000_0000), (2, ptr 0 0x40), (3, ptr 0 0x80), (4, 1408 * 1024 - 64), (5, 1408 * 1024 - 128)]
    (wrScratch st 0 (1408 * 1024 - 64) copyRec)
def copyPat (off : Nat) : Pat := BitVec.ofNat 512 (Claims.scratchNum copySt.mem 0 off 64)
def copySides (off : Nat) : Side × Side :=
  (srcSide .none (copyPat off) (ptr 0 0x40) (whole 0), dstSide .none (copyPat off) (ptr 0 0x80) (whole 0))

theorem witness_CopyInstructions : (∃ m k a b p x, Claims.copyRow (.copy 1 2 3 4 .none) = some (m, k, a, b, p, x)) ∧
    atHome copySt ∧ Claims.operandOf (rs copySt 1) (dest 3 1).toNat 0 1 ∧ dwOk copySt (BitVec.ofNat 64 (dest 3 1).toNat) = true ∧
    (rs copySt 4).toNat % 64 = 0 ∧ (rs copySt 4).toNat + 64 ≤ scratchSize (getCore copySt 0) ∧
    tagOk (rs copySt 2) = true ∧ tagOk (rs copySt 3) = true ∧
    copyRefused 0 .none (copySides (1408 * 1024 - 64)).1 (copySides (1408 * 1024 - 64)).2 = false ∧
    recordBad copySt 0 .none (copyPat (1408 * 1024 - 64)) (copySides (1408 * 1024 - 64)).1 (copySides (1408 * 1024 - 64)).2 = false ∧
    (Claims.sideChecks copySt 0 .none (copySides (1408 * 1024 - 64)).1 (copySides (1408 * 1024 - 64)).2).findSome? id = none ∧
    (∀ m, copySt.cx.mopAt = some m → m.2 ≠ copySt.cx.pc) ∧
    (getCore copySt 0).cstall.length + (getCore copySt 0).cq.length < 16 ∧ unstepped copySt := by
  refine ⟨⟨_, _, _, _, _, _, rfl⟩, ?_⟩
  refine ⟨by unfold atHome; decide +kernel, by unfold Claims.operandOf; decide +kernel, ?_⟩
  have hm : copySt.cx.mopAt = none := by decide +kernel
  refine ⟨by decide +kernel, by decide +kernel, by decide +kernel, by decide +kernel, by decide +kernel, by decide +kernel,
    by decide +kernel, by decide +kernel, fun m h => ?_, by unfold unstepped; decide +kernel⟩
  rw [hm] at h; cases h

theorem witness_CopyInstructions_record : (rs copySt 5).toNat % 64 = 0 ∧
    copyRefused 0 .none (copySides (1408 * 1024 - 128)).1 (copySides (1408 * 1024 - 128)).2 = false ∧
    recordBad copySt 0 .none (copyPat (1408 * 1024 - 128)) (copySides (1408 * 1024 - 128)).1 (copySides (1408 * 1024 - 128)).2
      = true := by decide +kernel

theorem witness_CopyInstructions_bad : ∀ w gs gd, ¬ (Claims.operandOf (0x8000_0000_0000 : Word) w gs gd) := by
  intro w gs gd h
  unfold Claims.operandOf at h
  have : (0x8000_0000_0000 : Word).toNat = 0x8000_0000_0000 := rfl
  omega

theorem witness_CopyInstructions_traps : (0x20 : Word).toNat % 64 ≠ 0 ∧
    scratchSize (getCore copySt 0) < (BitVec.ofNat 64 (1408 * 1024) : Word).toNat + 64 ∧ tagOk (ptr 20 0) = false ∧
    Claims.operandOf 0x7700_0000_0000 0 7 7 ∧
    copyRefused 0 .dlta (srcSide .dlta 0 (ptr 2 0) (whole 0)) (dstSide .dlta 0 (ptr 4 0) (whole 0)) = true ∧
    copyRefused 0 .dlta (srcSide .dlta 0 (ptr 1 0) (whole 0)) (dstSide .dlta 0 (ptr 4 0) (whole 0)) = false := by
  unfold Claims.operandOf
  decide +kernel

def fullSt : State :=
  let o : COp := { id := 9, minor := 0, xf := .none, src := 0, dst := 0, sseg := {}, dseg := {}, pat := 0, dest := 0, rmode := 0,
                   key := 0, pour := 0, tenant := 0 }
  core0 (fun c => { c with cq := List.replicate 16 o }) copySt

theorem witness_CopyInstructions_full : 16 ≤ (getCore fullSt 0).cstall.length + (getCore fullSt 0).cq.length := by decide +kernel

/-- An instruction that has issued its copy executes again: the copy has its entry, and still waits for one. -/
theorem witness_CopyInstructions_again :
    (updCx copySt (fun c => { c with mopAt := some (9, c.pc) })).cx.mopAt =
      some (9, (updCx copySt (fun c => { c with mopAt := some (9, c.pc) })).cx.pc) ∧
    (getCore copySt 0).cstall = [] ∧
    (getCore (core0 (fun c => { c with cstall := c.cq.take 1 }) fullSt) 0).cstall.any (fun o => o.id == 9) = true := by
  decide +kernel

/-- Context 11 at a slot of 12 input bytes and 8 output bytes, 3 bits read, 60 bits written. -/
def bitSlot (chunk : Option (Nat × Nat × Nat)) : BitSlot :=
  { counter := 4, chunk := chunk, inLen := 12, outOff := 0x10, outLen := 8, pos := 3, outPos := 60 }
def bitSt (chunk : Option (Nat × Nat × Nat)) : State :=
  let s := setRing st 0 2 { base := 0x100, slog := 8, count := 2, head := 4, tail := 5 }
  regs [(1, 93), (2, 94), (3, 0x1_0000_0000), (4, 0x41), (5, 0x200)] (asCtx 11 (core0 (fun c => { c with bits := some (bitSlot chunk), bitsRing := 2 })
    (wrScratch (wrScratch s 0 0x100 (bytesOfNat 12 0x1_0000_0000)) 0 0x200 (bytesOfNat 6 0x1005_1007_0001))))

theorem witness_BitInstructions : homeIdx st.cx.key ≠ 11 ∧ homeIdx (bitSt none).cx.key = 11 ∧ atHome (bitSt none) ∧
    Instr.bfail 1 ≠ .bnext 1 ∧ (getCore (asCtx 11 st) 0).bits = none := by
  unfold atHome
  decide +kernel

theorem witness_BitInstructions_slot : ∃ r, Claims.atSlot (bitSt (some (0, 1, 0))) r (bitSlot (some (0, 1, 0))) ∧
    Claims.atSlot (bitSt none) r (bitSlot none) ∧ unstepped (bitSt none) ∧ 8 * 12 - 3 = (rs (bitSt none) 1).toNat ∧
    8 * 12 - 3 < (rs (bitSt none) 2).toNat ∧ 2 ^ 32 ≤ (rs (bitSt none) 3).toNat := by
  refine ⟨{ base := 0x100, slog := 8, count := 2, head := 4, tail := 5 }, ?_⟩
  unfold Claims.atSlot atHome unstepped
  decide +kernel

/-- BLZC finds its 1 at place 29 of what is left; BPUT of 4 bits just fits, of 5 does not; BFLUSH fills 4 bits; tables at
0x200 of index width 1 and at an odd offset. -/
theorem witness_BitInstructions_bits :
    Claims.bitsLeft (bitSt none) { base := 0x100, slog := 8, count := 2, head := 4, tail := 5 } (bitSlot none) % 2 ^ (29 + 1) = 2 ^ 29 ∧
    60 + 4 ≤ 8 * 8 ∧ 8 * 8 < 60 + 5 ∧ (60 : Nat) % 8 ≠ 0 ∧ (rs (bitSt none) 4).toNat % 2 ≠ 0 ∧ (rs (bitSt none) 5).toNat % 2 = 0 ∧
    Claims.scratchNum (bitSt none).mem 0 0x200 2 = 1 ∧ Claims.scratchNum (bitSt none).mem 0 0x202 2 / 2 ^ 12 = 1 ∧
    Claims.scratchNum (bitSt none).mem 0 0x300 2 = 0 := by decide +kernel

/-- BNEXT with one filled slot, and with none. -/
theorem witness_BitInstructions_next : ∃ r,
    let s := core0 (fun c => { c with bits := none }) (bitSt none)
    homeIdx s.cx.key = 11 ∧ atHome s ∧ unstepped s ∧ getRing s 0 (getCore s 0).bitsRing = some r ∧ (getCore s 0).closed = [] ∧
      r.head < Claims.wrapOf r.count ∧ Claims.filledOf r = 1 ∧ nextSlot (closeSlot 0 s) 0 none = some 4 ∧
      nextSlot (closeSlot 0 (core0 (fun c => { c with rings := tput c.rings 2 { r with tail := 4 } }) s)) 0 none = none := by
  refine ⟨{ base := 0x100, slog := 8, count := 2, head := 4, tail := 5 }, ?_⟩
  unfold atHome unstepped
  decide +kernel

/-! 12: matrix -/

/-- A record of one by one by one BF16 elements (R264), and one of FP16 times BF16 which R268 does not combine. -/
def shapeBytes (fmtA : Nat) : List Byte :=
  bytesOfNat 6 0x1_0001_0001 ++ bytesOfNat 2 (fmtA + 7 * 256) ++ bytesOfNat 14 8 ++ bytesOfNat 2 0xFFFF ++ bytesOfNat 8 0
    ++ bytesOfNat 32 1

def matSt : State :=
  let s := setRing (setRing st 0 1 { base := 0x1000, slog := 8, count := 2 }) 0 2 { base := 0x2000, slog := 8, count := 2 }
  regs [(1, 0x400), (2, 0x440), (3, 0x480), (4, 1408 * 1024)]
    (wrScratch (wrScratch s 0 0x400 (shapeBytes 7)) 0 0x440 (shapeBytes 6))

def shapeIn (off : Nat) : Shape := BitVec.ofNat 512 (Claims.scratchNum matSt.mem 0 off 64)

theorem witness_MatrixInstructions : (∃ k c a b h m g, Claims.matrixRow (.mma 3 1 2 1 true true true true true true true true)
      = some (k, c, a, b, h, m, g)) ∧ atHome matSt ∧ matSt.cx.mopAt = none ∧
    (rs matSt 1).toNat % 64 = 0 ∧ badField .mma false (shapeIn 0x400) = none ∧
    shapeFault matSt .mma (some 1) (some 2) false (rs matSt 1) = none ∧ (getCore matSt 0).mstall.length + (Claims.queueOf matSt).length < 8 ∧
    unstepped matSt := by
  refine ⟨⟨_, _, _, _, _, _, _, rfl⟩, ?_⟩
  unfold atHome unstepped
  decide +kernel

/-- A record past the scratchpad, a field out of range, a combination R268 lacks, a ring that is not defined. -/
theorem witness_MatrixInstructions_faults : scratchSize (getCore matSt 0) < (rs matSt 4).toNat + 64 ∧
    badField .mma false (shapeIn 0x480) = some 0 ∧ badField .mma false (shapeIn 0x440) = none ∧
    comboOk .mma (shapeIn 0x440).fmtA (shapeIn 0x440).fmtB (shapeIn 0x440).fmtAcc = false ∧
    shapeFault matSt .mma (some 1) (some 3) false (rs matSt 1) = some { cause := 0x11, val := 3 } ∧
    shapeFault matSt .mzero (some 0) (some 0) false 0 = none := by decide +kernel

def mopOf (rows : List DrainRow) : MOp :=
  { mop .mma 8 (shapeIn 0x400) with phase := .draining, rows := rows }

def rowSt : State :=
  let s := core0 (fun c => { c with mq := [mopOf [{ m := 0, data := 5, st := .held 0 }]] }) st
  { s with cx := { s.cx with row := some (1, some 0) } }

theorem witness_MatrixInstructions_queue : (∃ o ∈ Claims.queueOf rowSt, o.key = rowSt.cx.key) ∧
    (∀ o ∈ Claims.queueOf matSt, o.key ≠ matSt.cx.key) ∧ 5 < (6 : BitVec 5).toNat ∧ (5 : BitVec 5).toNat ≤ 5 ∧
    8 ≤ (getCore (core0 (fun c => { c with mq := List.replicate 8 (mop .mzero 0 0) }) st) 0).mstall.length +
      (Claims.queueOf (core0 (fun c => { c with mq := List.replicate 8 (mop .mzero 0 0) }) st)).length := by
  refine ⟨⟨_, List.mem_cons_self, rfl⟩, ?_⟩
  decide +kernel

/-- Executed again: the operation waits for an entry, is in the queue, and is gone. -/
theorem witness_MatrixInstructions_again : (∃ k c a b h m g, Claims.matrixRow (.mzero 1 false) = some (k, c, a, b, h, m, g)) ∧
    (updCx st (fun c => { c with mopAt := some (9, c.pc) })).cx.mopAt =
      some (9, (updCx st (fun c => { c with mopAt := some (9, c.pc) })).cx.pc) ∧
    (core0 (fun c => { c with mstall := [{ mop .mzero 0 0 with id := 9 }] }) st).cores.any (fun c => c.2.mstall.any (fun o => o.id == 9)) = true ∧
    (core0 (fun c => { c with mq := [{ mop .mzero 0 0 with id := 9 }] }) st).cores.any (fun c => c.2.mq.any (fun o => o.id == 9)) = true ∧
    st.cores.all (fun c => c.2.mstall.isEmpty && c.2.mq.isEmpty) = true :=
  ⟨⟨_, _, _, _, _, _, _, rfl⟩, by decide +kernel⟩

theorem witness_MatrixInstructions_row : heldRow st = none ∧
    (∃ o r, heldRow rowSt = some (o, r)) ∧ atHome rowSt ∧ Claims.unbound rowSt ∧ unstepped rowSt ∧ Claims.handlesRow rowSt := by
  refine ⟨by decide +kernel, ⟨_, _, rfl⟩, by unfold atHome; decide +kernel, by unfold Claims.unbound; decide +kernel,
    by unfold unstepped; decide +kernel, ⟨1, some 0, rfl, _, List.mem_cons_self, rfl⟩⟩

theorem witness_MatrixInstructions_free : ¬ Claims.handlesRow matSt := by
  rintro ⟨op, m, h, _⟩
  exact absurd h (by
    have : matSt.cx.row = none := by decide +kernel
    rw [this]
    exact nofun)

/-! 13: seeded records -/

/-- A record with K, N and J of 1, seed 1, coefficient 1 (R286). -/
def seedBytes : List Byte :=
  bytesOfNat 4 0x5EED_0E9A ++ bytesOfNat 4 0x1_0001 ++ bytesOfNat 2 0x101 ++ bytesOfNat 6 0 ++ bytesOfNat 4 1 ++ bytesOfNat 2 0x3F80

/-- The record stands at 0x40; a header with a bad MAGIC (all zero) at 0x80. -/
def seedSt : State := regs [(1, ptr 19 0x40), (2, ptr 19 0x80), (3, 1)] (written st (.glob 0x40) seedBytes 0)

theorem witness_SeedInstructions_at : Claims.recordAt (rg seedSt 0) (rs seedSt 1) false (.glob 0x40) (0xFFFF_FFFF_FFFF - 0x40) ∧
    Claims.recordAt (rg seedSt 0) (rs seedSt 2) false (.glob 0x80) (0xFFFF_FFFF_FFFF - 0x80) ∧ atHome seedSt ∧
    Claims.unbound seedSt ∧ unstepped seedSt := by
  unfold Claims.recordAt atHome Claims.unbound unstepped
  decide +kernel

theorem recordReads_of {s : State} {t : Tgt} {avail : Nat} (h1 : readable s t 16 = true)
    (h2 : headFault (readBytes s t 16).1 = none)
    (h3 : readable (readBytes s t 16).2 t (recBytes (readBytes s t 16).1 avail) = true) :
    Claims.recordReads s t avail
      (seedVerdict (readBytes (readBytes s t 16).2 t (recBytes (readBytes s t 16).1 avail)).1)
      (readBytes (readBytes s t 16).2 t (recBytes (readBytes s t 16).1 avail)).2 :=
  ⟨_, _, reads_readBytes h1, .inr ⟨h2, _, reads_readBytes h3, rfl⟩⟩

/-- The verdict is this record. -/
def gives (x : SeedRead) (r : SeedRec) : Bool :=
  match x with
  | .ok y => decide (y = r)
  | .error _ => false

theorem ok_of_gives {x : SeedRead} {r : SeedRec} (h : gives x r = true) : x = .ok r := by
  unfold gives at h
  split at h
  · rw [of_decide_eq_true h]
  · cases h

def seedRec : SeedRec := { k := 1, n := 1, j := 1, seeds := [1], coefs := [0x3F80] }

theorem witness_SeedInstructions : ∃ x s' r, Claims.recordReads seedSt (.glob 0x40) (0xFFFF_FFFF_FFFF - 0x40) x s' ∧ x = .ok r ∧
    r.k * r.n ≤ (rs seedSt 3).toNat ∧ (rs seedSt 4).toNat < r.k * r.n ∧ (rs seedSt 4).toNat / 2 ^ 32 < r.j ∧
    r.j ≤ (0x1_0000_0000 : Word).toNat / 2 ^ 32 ∧
    (rs seedSt 4).toNat % 2 ^ 32 + 4 * (r.k * r.n) ≤ scratchSize (getCore seedSt 0) :=
  ⟨_, _, seedRec, recordReads_of (by decide +kernel) (by decide +kernel) (by decide +kernel), ok_of_gives (by decide +kernel), by decide +kernel, by decide +kernel,
    by decide +kernel, by decide +kernel, by decide +kernel⟩

theorem witness_SeedInstructions_bad : ∃ f s', Claims.recordReads seedSt (.glob 0x80) (0xFFFF_FFFF_FFFF - 0x80) (.error f) s' :=
  ⟨_, _, _, _, reads_readBytes (by decide +kernel), .inl ⟨(1, 0), by decide +kernel, rfl, rfl⟩⟩

/-- SSRCH over the least and the greatest K and N. -/
theorem witness_SeedInstructions_search : (0x8080_0000_0000 : Word).toNat = 0 + 128 * 2 ^ 32 + 128 * 2 ^ 40 ∧
    0 + 4 * (128 * 128) ≤ scratchSize (getCore st 0) ∧ (0x101_0015_FFFC : Word).toNat = 0x15FFFC + 1 * 2 ^ 32 + 1 * 2 ^ 40 ∧
    0x15FFFC + 4 * (1 * 1) ≤ scratchSize (getCore st 0) := by decide +kernel

def recSt : State := seg 3 (whole kSeed) (regs [(1, ptr 19 0x40), (2, 0x10)] (wrScratch st 0 0x10 seedBytes))

theorem witness_SeedInstructions_record : ∃ r m s2 s3 s4 s5, (rg recSt 3).kind = 2 ∧
    Claims.recordAt (rg recSt 3) (rs recSt 1) true (.glob 0x40) (0xFFFF_FFFF_FFFF - 0x40) ∧ (rs recSt 2).toNat % 16 = 0 ∧
    seedVerdict (rdScratch recSt 0 0x10 (seedSize 1 1)) = .ok r ∧ r.n = 1 ∧ r.j = 1 ∧
    headFault ((rdScratch recSt 0 0x10 (seedSize 1 1)).take 16) = none ∧
    Claims.touched recSt 0x40 (seedSize 1 1) true recSt ∧
    gread recSt 0 0x40 4 = .ok m s2 ∧ natOfBytes m = 0 ∧
    gwrite recSt 0 0x40 (bytesOfNat 4 0xFFFF_FFFF) 1 0 = .ok s3 ∧
    gwrite s3 0 (0x40 + 4) ((rdScratch recSt 0 0x10 (seedSize 1 1)).drop 4) 3 0 = .ok s4 ∧
    gwrite s4 0 0x40 (bytesOfNat 4 0x5EED_0E9A) 3 0 = .ok s5 := by
  refine ⟨seedRec, _, _, _, _, _, by decide +kernel, by unfold Claims.recordAt; decide +kernel, by decide +kernel,
    ok_of_gives (by decide +kernel), ?_, ?_, ?_,
    ⟨by decide +kernel, by decide +kernel, rfl⟩, gr_eq (l := [0, 0, 0, 0]) (by decide +kernel), ?_, gw_eq (by decide +kernel),
    gw_eq (by decide +kernel), gw_eq (by decide +kernel)⟩
  all_goals decide +kernel

/-! 14: procedural ranges -/

def rangeA : Range :=
  { base := 0x4000, len := 0x4000, state := 0x2000, entry := 0x400, blog := 12, code := whole 0, data := whole 0 }

def rangeBytes (r : Range) : List Byte :=
  bytesOfNat 8 r.base ++ bytesOfNat 8 r.len ++ bytesOfNat 8 r.state ++ bytesOfNat 4 r.entry ++ bytesOfNat 1 r.blog ++
    List.replicate 3 0 ++ Claims.segBytes r.code ++ Claims.segBytes r.data

theorem rangeA_describes : Claims.describes (rangeBytes rangeA) rangeA := ⟨rfl, by decide⟩

/-- The descriptor stands at 0x40; S[2] and S[3] point into the range, at its last block and at its first, S[4] to no range. -/
def procSt : State :=
  regs [(1, ptr 0 0x40), (2, ptr 0 0x7FFF), (3, ptr 0 0x4000), (4, ptr 0 0x3FFF), (5, 1)] (written st (.glob 0x40) (rangeBytes rangeA) 0)

def ranged : State := updTenant procSt 0 (fun t => { t with ranges := [(0, rangeA)] })

theorem procAt_of {s : State} {a : BitVec 5} {g : BitVec 3} {va : Nat}
    (h : (decide (s.cx.place = .home) && tagOk (rs s a) && decide ((rg s g).kind = 0) && (rg s g).rights.getLsbD rightR &&
      decide ((rs s a).toNat % 2 ^ 48 + 1 ≤ (rg s g).limit.toNat) &&
      decide (va = ((rg s g).base.toNat + (rs s a).toNat % 2 ^ 48) % 2 ^ 48)) = true) : Claims.procAt s a g va := by
  simp only [Bool.and_eq_true, decide_eq_true_eq] at h
  obtain ⟨⟨⟨⟨⟨h1, h2⟩, h3⟩, h4⟩, h5⟩, h6⟩ := h
  exact ⟨h1, h2, h3, h4, nofun, h5, by rw [if_neg (by rw [h3]; decide)]; rw [h6]⟩

theorem witness_ProceduralInstructions_checks : tagOk (ptr 20 0) = false ∧ (rg (seg 0 (whole 1) st) 0).kind ≠ 0 ∧
    (0x20 : Word).toNat % 64 ≠ 0 := by decide +kernel

theorem witness_ProceduralInstructions_define : ∃ l s1 r, Claims.procAt procSt 1 0 0x40 ∧ (rs procSt 1).toNat % 64 = 0 ∧
    gread procSt 0 0x40 64 = .ok l s1 ∧ Claims.describes l r ∧ Claims.rangeFits (Claims.rangesOf procSt) r ∧
    tget (Claims.rangesOf procSt) 0 = none ∧ unstepped procSt :=
  ⟨rangeBytes rangeA, _, rangeA, procAt_of (by decide +kernel), by decide +kernel, gr_eq (by decide +kernel), rangeA_describes,
    by unfold Claims.rangeFits Claims.apart; decide +kernel, by decide +kernel, by unfold unstepped; decide +kernel⟩

/-- A range beside another whose ranges meet at one address is refused, and so is a full table. -/
theorem witness_ProceduralInstructions_clash : ¬ Claims.rangeFits [(0, rangeA)] { rangeA with base := 0x7000, len := 0x1000 } ∧
    (∀ n < 16, tget ((List.range 16).map (fun i => (i, rangeA))) n ≠ none) := by
  unfold Claims.rangeFits Claims.apart
  decide +kernel

def filling : State :=
  { ranged with fills := [{ tenant := 0, range := 0, block := 0, depth := 1 }] }

theorem witness_ProceduralInstructions_delete : 16 ≤ (16 : Word).toNat ∧ tget (Claims.rangesOf procSt) 15 = none ∧
    (∃ r, tget (Claims.rangesOf ranged) 0 = some r ∧ rangeFilling ranged 0 0 r = .ok false ∧ rangeFilling filling 0 0 r = .ok true) :=
  ⟨by decide, by decide +kernel, rangeA, by decide +kernel, ex_is (by decide +kernel), ex_is (by decide +kernel)⟩

/-- The page of the state table is absent. -/
def rangeB : Range := { rangeA with state := 0x20000 }
def unmapped : State := updTenant procSt 0 (fun t => { t with ranges := [(0, rangeB)] })

theorem witness_ProceduralInstructions_absent : Claims.procAt unmapped 3 0 0x4000 ∧
    rangeAt unmapped 0 0x4000 = some (0, rangeB) ∧ blockState unmapped 0 rangeB (rangeB.blockOf 0x4000) = .page 0x20000 ∧
    rangeFilling unmapped 0 0 rangeB = .error (.page 0x20000) :=
  ⟨procAt_of (by decide +kernel), by decide +kernel, gr_page (by decide +kernel), ex_page (by decide +kernel)⟩

theorem witness_ProceduralInstructions_none : Claims.procAt ranged 4 0 0x3FFF ∧ rangeAt ranged 0 0x3FFF = none :=
  ⟨procAt_of (by decide +kernel), by decide +kernel⟩

/-- The state table lists every block as Empty, or the first as Filled. -/
def filled : State := written ranged (.glob 0x2000) [0x02] 0

theorem witness_ProceduralInstructions_blocks : ∃ s1 s1' s2 s2',
    Claims.procAt ranged 3 0 0x4000 ∧ rangeAt ranged 0 0x4000 = some (0, rangeA) ∧ rangeAt ranged 0 0x7FFF = some (0, rangeA) ∧
    Claims.blockAt ranged rangeA 0x4000 0 0 s1 ∧ startFill s1 0 0 rangeA 0 (ranged.cx.depth + 1) [] 0 0 0 = .ok s2 ∧
    Claims.blockAt filled rangeA 0x4000 0 2 s1' ∧ setBlockState s1' 0 rangeA 0 0 ranged.cx.who = .ok s2' ∧ (rs ranged 5).toNat = 1 ∧
    0 < rangeA.len / 2 ^ rangeA.blog ∧ rs ranged 6 = 0 ∧ 2 ^ 32 ≤ (0x1_0000_0000 : Word).toNat :=
  ⟨_, _, _, _, procAt_of (by decide +kernel), by decide +kernel, by decide +kernel, ⟨by decide, 0, gr_eq (by decide +kernel), by decide⟩,
    gw_eq (by decide +kernel),
    ⟨by decide, 2, gr_eq (by decide +kernel), by decide⟩, gw_eq (by decide +kernel), by decide +kernel, by decide, by decide +kernel, by decide⟩

theorem witness_ProceduralInstructions_evict : ∃ count s1,
    evict 0 filled.cx.who rangeA (min (rs filled 5).toNat (rangeA.len / 2 ^ rangeA.blog - rangeA.blockOf 0x4000)) (rangeA.blockOf 0x4000) 0 filled
      = .ok count s1 := ⟨1, _, ev_eq (by decide +kernel)⟩

def holder : State := { filling with cx := { filling.cx with gen := some { tenant := 0, range := 0, block := 0, depth := 1 } } }

theorem witness_ProceduralInstructions_done : ∃ h r s1, holder.cx.gen = some h ∧ atHome holder ∧ engineBusy holder 0 = false ∧
    Claims.released holder ∧ holder.cx.deferred = [] ∧ unstepped holder ∧ tget (getTenant holder h.tenant).ranges h.range = some r ∧
    setBlockState holder h.tenant r h.block 2 holder.cx.who = .ok s1 ∧ st.cx.gen = none :=
  ⟨_, _, _, rfl, by unfold atHome; decide +kernel, by decide +kernel, by unfold Claims.released; decide +kernel, by decide +kernel,
    by unfold unstepped; decide +kernel, rfl, gw_eq (by decide +kernel), by decide +kernel⟩

theorem witness_ProceduralInstructions_busy : engineBusy { busySt with cx := { busySt.cx with gen := holder.cx.gen } } 0 = true := by
  decide +kernel

/-! 15: raster -/

/-- The context stands on core (1, 1), which is equipped; its domain is at 0x40, its view table at 0x100 of the tenant's space. -/
def rst : State := regs [(1, ptr 0 0x40), (2, ptr 0 0x100), (3, 65), (4, 0x3_0000_0005), (5, 0xF0)] (away 65 false st)

theorem witness_RasterInstructions_target : Claims.rastTarget st (.rview 1 2 3) 65 ∧ st.cx.core ≠ 65 ∧
    (∃ k b rest, (bound false).cx.binds = (k, b) :: rest) ∧ Claims.unbound st ∧ homeIdx (asCtx 11 st).cx.key = 11 ∧
    homeIdx st.cx.key ≠ 11 ∧ (away 5 true st).cx.away = true ∧ (away 5 true st).cx.held = true ∧ Claims.released st :=
  ⟨.inl ⟨.inl ⟨_, _, _, rfl⟩, by decide +kernel⟩, by decide +kernel, ⟨_, _, _, rfl⟩, by unfold Claims.unbound; decide +kernel,
    by decide +kernel, by decide +kernel, by decide +kernel, by decide +kernel, by unfold Claims.released; decide +kernel⟩

/-- Handles: a bit too high, a row too high, a core without the unit; the greatest good one. -/
theorem witness_RasterInstructions_handles : 2 ^ 21 ≤ (0x20_0000 : Word).toNat ∧ 24 ≤ (0x600 : Word).toNat / 64 % 32 ∧
    equipped (handleCore 64) = false ∧ 2 ^ 32 ≤ (0x1_0000_0000 : Word).toNat ∧
    Claims.rastTarget (regs [(3, 0x5FF + 0x1800)] st) (.rsetup 1 2 3 true true) (coreAt 63 23) :=
  ⟨by decide, by decide, by decide +kernel, by decide,
    .inr (.inl ⟨1, 2, 3, true, true, rfl, by decide +kernel, by decide +kernel, by decide +kernel, by decide +kernel⟩)⟩

theorem rst_target (i : Instr) (h : Claims.nearRow i) : Claims.rastTarget rst i rst.cx.core :=
  .inl ⟨h, by decide +kernel⟩

theorem witness_RasterInstructions_view : Claims.rastTarget rst (.rview 1 2 3) rst.cx.core ∧ tagOk (rs rst 2) = true ∧
    (rs rst 2).toNat % 2 ^ 48 % 256 = 0 ∧ Claims.segGives (rg rst 0) 0x100 10240 rightR false (.glob 0x100) ∧
    readable rst (.glob 0x100) 10240 = true ∧ unstepped rst :=
  ⟨rst_target _ (.inl ⟨_, _, _, rfl⟩), by decide +kernel, by decide +kernel, segGives_glob (whole 0) 0x100 10240 _ _ (by decide),
    by decide +kernel, by unfold unstepped; decide +kernel⟩

/-- Bank 0 of core (1, 1) belongs to a pour, setup slot 0 to a context. -/
def banked (p : Nat) (setup : Option Setup) : State :=
  updCore rst 65 (fun c => { c with banks := [(0, { pour := p, table := 0 })], setups := (setup.map (fun x => (0, x))).toList })

theorem witness_RasterInstructions_setup : Claims.rastTarget (banked 0 none) (.rsetup 1 2 3 true true) (banked 0 none).cx.core ∧
    Claims.unbound (banked 0 none) ∧
    (∃ k, tget (getCore (banked 0 none) 65).banks ((rs (banked 0 none) 3).toNat / 2 ^ 11 % 4) = some k ∧ k.pour = 0) ∧
    (∃ k, tget (getCore (banked 1 none) 65).banks 0 = some k ∧ k.pour ≠ 0) ∧ takeSetup (banked 0 none) 65 = some 0 ∧
    takeSetup (updCore rst 65 (fun c => { c with setups := (List.range 32).map (fun i => (i, { pour := 0, key := 7, views := [] })) })) 65
      = none :=
  ⟨.inr (.inl ⟨1, 2, 3, true, true, rfl, by decide +kernel, by decide +kernel, by decide +kernel, by decide +kernel⟩),
    by unfold Claims.unbound; decide +kernel, ⟨_, rfl, rfl⟩, ⟨_, rfl, by decide⟩, by decide +kernel, by decide +kernel⟩

/-- A triangle of one pixel: view 0, vertices (0, 0), (1, 0), (0, 1) in 1/256 of a pixel at the pixel's centre. -/
def tri : SView :=
  { view := 0, x0 := 0, y0 := 0, x1 := 512, y1 := 0, x2 := 0, y2 := 512, area := 262144, vx := 0, vy := 0, vw := 8, vh := 8 }

theorem witness_RasterInstructions_cover :
    (∃ x, tget (getCore (banked 0 (some { pour := 0, key := 0, views := [tri] })) 65).setups ((rs rst 3).toNat / 2 ^ 11 % 32) = some x ∧
      x.key = rst.cx.key ∧ x.pour = rst.cx.pour ∧ (nextBlock x.views x.visited).isSome = true) ∧
    nextBlock [] 0 = none ∧
    (∀ x, tget (getCore (banked 0 none) 65).setups 0 = some x → ¬ (x.key = rst.cx.key ∧ x.pour = rst.cx.pour)) := by
  refine ⟨⟨_, rfl, by decide +kernel, by decide +kernel, by decide +kernel⟩, by decide +kernel, ?_⟩
  intro x h
  exact absurd h (by
    have : tget (getCore (banked 0 none) 65).setups 0 = none := by decide +kernel
    rw [this]
    exact nofun)

/-- RBIN's exponent at -126 and at -127. -/
theorem witness_RasterInstructions_bin : Claims.rastTarget rst (.rbox 1 2 3) rst.cx.core ∧
    (0x827F : Word).toNat = 127 + 0x82 * 2 ^ 8 ∧ -126 ≤ Claims.signed 8 0x82 ∧ Claims.signed 8 0x81 < -126 ∧ Claims.unbound rst :=
  ⟨rst_target _ (.inr (.inl ⟨_, _, _, rfl⟩)), by decide, by decide, by decide, by unfold Claims.unbound; decide +kernel⟩

/-- The domain's next sequence number is 3, as S[4] names it; one token is open. -/
def domSt : State := written rst (.glob 0x40) (bytesOfNat 4 3 ++ bytesOfNat 4 1 ++ List.replicate 56 0) 0
def dom (n o : Nat) : Domain := { va := 0x40, next := n, opened := o }
def tok (seq : Nat) : Token := { tenant := 0, dom := 0x40, pour := 0, key := 5, seq := seq, mask := 0xF0 }
def tokSt (l : List Token) : State := updCore domSt 0 (fun c => { c with tokens := l })

theorem witness_RasterInstructions_domain : ∃ s1 s2, Claims.domainReads domSt 1 (dom 3 1) s1 ∧
    (Claims.tokenOf domSt (dom 3 1) (rs domSt 4) (rs domSt 5)) = tok 3 ∧
    (∀ u ∈ domTokens domSt 0x40, ¬ (u.key = 5 ∧ u.seq = 3)) ∧ rs domSt 5 ≠ 0 ∧ (getCore domSt (homeOf 0x40)).tokens.length < 4096 ∧
    Claims.domainWrites s1 0x40 3 2 s2 :=
  ⟨_, _, ⟨by decide +kernel, by decide +kernel, by decide +kernel, segGives_glob (whole 0) 0x40 64 _ _ (by decide), by decide,
    by decide, by decide +kernel, gr_eq (by decide +kernel)⟩, by decide +kernel, by decide +kernel, by decide +kernel, by decide +kernel,
    gw_eq (by decide +kernel)⟩

/-- A token that is held, with one before it on the same pixels, and with one on others. -/
theorem witness_RasterInstructions_tokens : Claims.holdsToken (tokSt [tok 2, tok 3]) (dom 4 2) (rs rst 4) (tok 3) ∧
    (∃ w ∈ domTokens (tokSt [tok 2, tok 3]) 0x40, w.key = 5 ∧ w.seq < 3 ∧ w.mask &&& 0xF0 ≠ 0) ∧
    (∀ w ∈ domTokens (tokSt [{ tok 2 with mask := 0xF }, tok 3]) 0x40, w.key = 5 → w.seq < 3 → w.mask &&& 0xF0 = 0) ∧
    (∀ u, ¬ Claims.holdsToken (tokSt [tok 2]) (dom 3 1) (rs rst 4) u) ∧ Claims.released (tokSt [tok 3]) := by
  refine ⟨by unfold Claims.holdsToken; decide +kernel, by decide +kernel, by decide +kernel, ?_,
    by unfold Claims.released; decide +kernel⟩
  intro u h
  have : (domTokens (tokSt [tok 2]) (dom 3 1).va).find? (fun u => u.pour == (tokSt [tok 2]).cx.pour && u.key == (rs rst 4).toNat % 2 ^ 32
      && u.seq == (rs rst 4).toNat / 2 ^ 32 % 2 ^ 31) = none := by decide +kernel
  unfold Claims.holdsToken at h
  rw [this] at h
  cases h

theorem witness_RasterInstructions_blend : Claims.rastTarget rst (.blnda 1 2 1 3) rst.cx.core ∧ tagOk (ptr 20 0) = false ∧
    blendOp ((ptr 8 0).toNat / 2 ^ 59) 3 = none ∧ (∃ n op, blendOp ((ptr 8 0).toNat / 2 ^ 59) 0 = some (n, op)) ∧
    (∃ l, elemsCheck rst (whole 0) (ptr 8 0xF8) 32 rightA true [(63, 0xFC)] = .ok l) ∧
    (∃ c v, elemsCheck rst (whole 0) (ptr 8 0xF8) 32 rightA true [(63, 0xFD)] = .error (c, v)) :=
  ⟨rst_target _ (.inr (.inr (.inr (.inr (.inr (.inr (.inr ⟨_, _, _, _, rfl⟩))))))), by decide, rfl, ⟨_, _, rfl⟩,
    ⟨_, rfl⟩, ⟨_, _, rfl⟩⟩

/-! 16: layers -/

/-- An LCB of eight layers at 0x1000, its table at 0x2000, no request ring; descriptors of layers 1 to 4 of one pixel, each
with its pair of planes. -/
def lcbBytes : List Byte := bytesOfNat 8 0x2000 ++ bytesOfNat 4 8 ++ bytesOfNat 116 0
def layerBytes (id : Nat) : List Byte := bytesOfNat 12 id ++ bytesOfNat 4 0x1_0001 ++ bytesOfNat 240 (0x4000 + 64 * id)
def pairBytes : List Byte := bytesOfNat 8 0x5000 ++ bytesOfNat 8 0x6000 ++ bytesOfNat 48 0x200

/-- The bytes that are not zero, as cells from a virtual address on, in the page that is mapped. -/
def cells (va : Nat) (l : List Byte) : List Host.Cell :=
  ((List.range l.length).zip l).filterMap (fun x => if x.2 = 0 then none else some (progPage + va + x.1, x.2))

def layMem : List Host.Cell :=
  cells 0x1000 lcbBytes ++ ([1, 2, 3, 4].map (fun i => cells (0x2000 + 256 * i) (layerBytes i))).flatten ++
    ([1, 2, 3, 4].map (fun i => cells (0x4000 + 64 * i) pairBytes)).flatten

def laySt : State :=
  regs [(1, 1), (2, 0x2_0001), (3, 0x4_0003), (4, 3), (5, 8), (6, ptr 0 0x3000)]
    { updTenant st 0 (fun t => { t with lcb := 0x1000 }) with
      mem := layMem }

def layer (id : Nat) : Layer :=
  { tenant := 0, id := id, group := 0, order := 0, w := 1, h := 1, planes := BitVec.ofNat 64 (0x4000 + 64 * id), price := 0
    rpose := 0, cpose := 0, deps := Vector.replicate 4 { caster := 0, weight := 0, x := 0, y := 0 }, parent := 0xFFFF_FFFF
    child := 0xFFFF_FFFF }

/-- Layers 1 and 2 are live. -/
def live : State := { laySt with layers := [layer 1, layer 2] }

def lcb : Lcb := { table := 0x2000, cap := 8, frame := 0, ka := 0, kd := 0, ring := 0, view := 0, drops := 0, notify := 0 }

def urLcb (a : Lcb) : URes Lcb → Bool
  | .ok b _ => decide (b.table = a.table ∧ b.cap = a.cap ∧ b.frame = a.frame ∧ b.ka = a.ka ∧ b.kd = a.kd ∧ b.ring = a.ring
      ∧ b.view = a.view ∧ b.drops = a.drops ∧ b.notify = a.notify)
  | _ => false
theorem lcb_is {x : URes Lcb} {a : Lcb} (h : urLcb a x = true) : x = .ok a (urState x) := by
  cases x with
  | ok b s =>
    obtain ⟨⟩ := a
    obtain ⟨⟩ := b
    have h := of_decide_eq_true h
    simp only at h
    obtain ⟨rfl, rfl, rfl, rfl, rfl, rfl, rfl, rfl, rfl⟩ := h
    rfl
  | _ => cases h

theorem live_lcb : lcbOf 0 live = .ok lcb (urState (lcbOf 0 live)) := lcb_is (by decide +kernel)
theorem lay_lcb : lcbOf 0 laySt = .ok lcb (urState (lcbOf 0 laySt)) := lcb_is (by decide +kernel)

theorem witness_LayerInstructions_one : (∃ a, Claims.oneLayer (.lerr 2 1 4) = some a) ∧ atHome live ∧
    2 ^ 16 ≤ (0x1_0000 : Word).toNat ∧ (0xFFFF : Word).toNat < 2 ^ 16 ∧ (getTenant st 0).lcb = 0 ∧
    lcbOf 0 live = .ok lcb (urState (lcbOf 0 live)) ∧ lcb.cap ≤ (rs live 5).toNat ∧
    findLayer (urState (lcbOf 0 live)) 0 (rs live 4).toNat = none ∧ unstepped live ∧
    Claims.layerReads live 1 lcb (layer 1) (urState (lcbOf 0 live)) :=
  ⟨⟨_, rfl⟩, by unfold atHome; decide +kernel, by decide, by decide, by decide +kernel, live_lcb, by decide +kernel, by decide +kernel,
    by unfold unstepped; decide +kernel, ⟨live_lcb, by decide⟩, by decide +kernel⟩

/-- Prices: a NaN, a negative number, one bit too many; -0, which is not negative. -/
theorem witness_LayerInstructions_price : (Fmt.fp32.value 0x7FC0_0000).isNaN = true ∧ ltV (Fmt.fp32.value 0x8000_0001) (.fin false 0 0) = true ∧
    ltV (Fmt.fp32.value 0x8000_0000) (.fin false 0 0) = false ∧ (Fmt.fp32.value 0x8000_0000).isNaN = false ∧
    2 ^ 40 ≤ (0x100_0000_0000 : Word).toNat ∧ (0xFF_FFFF_FFFF : Word).toNat < 2 ^ 40 ∧
    finNonNeg (Fmt.fp32.value 0x7F80_0000) = false ∧ finNonNeg (Fmt.fp32.value 0) = true := by decide

theorem witness_LayerInstructions_request : (layer 1).pending = false ∧ ({ layer 1 with pending := true } : Layer).pending = true ∧
    ∃ s2, postRec 0 lcb (reqRecord lcb (layer 1)) 0 (urState (lcbOf 0 live)) = .ok false s2 := by
  refine ⟨rfl, rfl, _, ur_is (by decide +kernel)⟩

/-- A request ring at 0x3000 that has room. -/
theorem witness_LayerInstructions_posts : ∃ s2, postRec 0 { lcb with ring := 0x3000 } (reqRecord lcb (layer 1)) 0
    { live with mem := cells 0x3000 (bytesOfNat 8 0x3040 ++ bytesOfNat 56 4) } = .ok true s2 := ⟨_, ur_is (by decide +kernel)⟩

theorem witness_LayerInstructions_dep : (rs live 2).toNat = 1 + 2 * 2 ^ 16 ∧ Claims.lcbReads live [1, 2] lcb (urState (lcbOf 0 live)) ∧
    findLayer (urState (lcbOf 0 live)) 0 1 = some (layer 1) ∧ findLayer (urState (lcbOf 0 live)) 0 2 = some (layer 2) :=
  ⟨by decide +kernel, ⟨live_lcb, by decide⟩, by decide +kernel, by decide +kernel⟩

theorem witness_LayerInstructions_warp : ∃ pr planes s2 s3, Claims.unbound live ∧
    reads (urState (lcbOf 0 live)) (.glob ((layer 1).planes.toNat % 2 ^ 48)) 64 pr s2 ∧
    reads s2 (.glob ((byteAt pr (8 * (byteAt pr 24 8 % 2)) 8 + 256) % 2 ^ 48)) (8 * (layer 1).w * (layer 1).h) planes s3 :=
  ⟨_, _, _, _, by unfold Claims.unbound; decide +kernel, reads_readBytes (by decide +kernel), reads_readBytes (by decide +kernel)⟩

theorem lay_accepts : ∃ l, acceptLayer 0 1 lcb [] [] (urState (lcbOf 0 laySt)) =
    .ok l (urState (acceptLayer 0 1 lcb [] [] (urState (lcbOf 0 laySt)))) := ur_eq (by decide +kernel)

theorem witness_LayerInstructions_define : (∃ l s2, Claims.lcbReads laySt [1] lcb (urState (lcbOf 0 laySt)) ∧
      acceptLayer 0 1 lcb [] [] (urState (lcbOf 0 laySt)) = .ok l s2) ∧
    (∃ s2, gwrite (urState (lcbOf 0 live)) 0 (lcb.table.toNat + 256 * 1) (({ layer 1 with pending := false } : Layer).bytes false) 3 0
      = .ok s2) := by
  obtain ⟨l, h⟩ := lay_accepts
  exact ⟨⟨l, _, ⟨lay_lcb, by decide⟩, h⟩, ⟨_, gw_eq (by decide +kernel)⟩⟩

/-- A descriptor that LDEF.DEF does not accept: layer 5's is all zero. -/
theorem witness_LayerInstructions_refused : (match acceptLayer 0 5 lcb [] [] (urState (lcbOf 0 laySt)) with
    | .bad v => decide (v = 5)
    | _ => false) = true := by decide +kernel

theorem witness_LayerInstructions_pose : ∃ q s1 s2, tagOk (rs live 6) = true ∧ (rs live 6).toNat % 4 = 0 ∧
    Claims.segGives (rg live 0) 0x3000 48 rightR false (.glob 0x3000) ∧ Claims.layerReads live 1 lcb (layer 1) s1 ∧
    reads s1 (.glob 0x3000) 48 q s2 :=
  ⟨_, _, _, by decide +kernel, by decide +kernel, segGives_glob (whole 0) 0x3000 48 _ _ (by decide),
    ⟨⟨live_lcb, by decide⟩, by decide +kernel⟩, reads_readBytes (by decide +kernel)⟩

def one : State := { laySt with layers := [layer 1] }
/-- What was accepted. -/
def accepted (x : URes Layer) : Layer :=
  match x with
  | .ok l _ => l
  | _ => layer 0
theorem accepted_eq {x : URes Layer} (h : urOk x = true) : x = .ok (accepted x) (urState x) := by
  cases x with
  | ok l s => rfl
  | _ => cases h

theorem witness_LayerInstructions_split : ∃ s1 s2 s3 s4 k1 k2, (rs one 1).toNat = 1 ∧ (rs one 3).toNat = 3 + 4 * 2 ^ 16 ∧
    Claims.lcbReads one [1, 3, 4] lcb s1 ∧ findLayer s1 0 1 = some (layer 1) ∧
    acceptLayer 0 3 lcb [1] [] s1 = .ok k1 s2 ∧ acceptLayer 0 4 lcb [1] [k1] s2 = .ok k2 s3 ∧
    remake lcb 0 0 [Claims.goneLayer (layer 1) 3 4] [Claims.childOf (layer 1) k1, Claims.childOf (layer 1) k2] s3 = .ok () s4 :=
  ⟨_, _, _, _, _, _, by decide +kernel, by decide +kernel, ⟨lcb_is (by decide +kernel), by decide⟩, by decide +kernel,
    accepted_eq (by decide +kernel), accepted_eq (by decide +kernel), ur_is (by decide +kernel)⟩

theorem witness_LayerInstructions_merge : ∃ s1 s2 s3 k, (rs live 2).toNat = 1 + 2 * 2 ^ 16 ∧ (rs live 4).toNat = 3 ∧
    Claims.lcbReads live [1, 2, 3] lcb s1 ∧ findLayer s1 0 1 = some (layer 1) ∧ findLayer s1 0 2 = some (layer 2) ∧
    acceptLayer 0 3 lcb [1, 2] [] s1 = .ok k s2 ∧
    remake lcb 0 0 [Claims.goneLayer (layer 1) 3 0xFFFF, Claims.goneLayer (layer 2) 3 0xFFFF] [merged (layer 1) (layer 2) k] s2
      = .ok () s3 :=
  ⟨_, _, _, _, by decide +kernel, by decide +kernel, ⟨live_lcb, by decide⟩, by decide +kernel, by decide +kernel,
    accepted_eq (by decide +kernel), ur_is (by decide +kernel)⟩

theorem witness_LayerInstructions_frame : closeBusy live 0 = false ∧
    closeBusy { live with closes := [{ tenant := 0, key := 0, lcb := lcb, todo := [] }] } 0 = true ∧ closeBusy st 0 = false ∧
    (∃ s2, gwrite (urState (lcbOf 0 live)) 0 ((getTenant (urState (lcbOf 0 live)) 0).lcb.toNat + 12)
      (bytesOfNat 4 (lcb.frame + 1).toNat) 3 0 = .ok s2) :=
  ⟨by decide +kernel, by decide +kernel, by decide +kernel, ⟨_, gw_eq (by decide +kernel)⟩⟩

/-! Events at contexts -/

/-- The step's operand `a`. -/
def onA (a : Nat) (s : State) : State := { s with args := { a := a } }

/-- The context waits. -/
def waitSt (w : Cond) (s : State) : State := { s with cx := { s.cx with st := .waiting w } }

theorem witness_ContextEvents_fetch : ∃ s slot w s' i, pickSlot s s.args.a = some slot ∧
    Claims.fetchDue (switchTo s (slotKey s s.args.a slot)) ∧ Claims.fetches (switchTo s (slotKey s s.args.a slot)) w s' ∧
    bpHit s'.cx = none ∧ decode w = .ok i := by
  have h : fetchesWord (switchTo (placeWord State.reset 0x44000000) 0) 0x44000000 = true := by decide +kernel
  obtain ⟨s', h1, h2⟩ := fetches_of h
  exact ⟨placeWord State.reset 0x44000000, 0, _, s', .nop, by decide +kernel, ⟨by decide +kernel, .inl (by decide +kernel)⟩, h1, h2,
    decode_of_reads (c := .core .nop) (by decide +kernel)⟩

theorem witness_ContextEvents_illegal : ∃ s slot w s' e, pickSlot s s.args.a = some slot ∧
    Claims.fetchDue (switchTo s (slotKey s s.args.a slot)) ∧ Claims.fetches (switchTo s (slotKey s s.args.a slot)) w s' ∧
    bpHit s'.cx = none ∧ decode w = .error e := by
  have h : fetchesWord (switchTo (placeWord State.reset 0xFFFFFFFF) 0) 0xFFFFFFFF = true := by decide +kernel
  obtain ⟨s', h1, h2⟩ := fetches_of h
  exact ⟨placeWord State.reset 0xFFFFFFFF, 0, _, s', _, by decide +kernel, ⟨by decide +kernel, .inl (by decide +kernel)⟩, h1, h2,
    decode_of_refuses (e := .majorUnassigned) (by decide +kernel)⟩

/-- Waits that are over, each at the boundary of its condition, and the same waits one short of it. -/
theorem witness_ContextEvents_waits :
    (let s := waitSt (.kettle 5) (kettle 5 0 false 0 st)
     Claims.waitsOn (getCtx s s.args.a) (.kettle 5) ∧ mayIssue s s.cx = true ∧ Claims.waitOver s s.cx (.kettle 5)) ∧
    (let s := waitSt (.kettle 5) (kettle 5 1 false 0 st)
     Claims.waitsOn (getCtx s s.args.a) (.kettle 5) ∧ ¬ Claims.waitOver s s.cx (.kettle 5)) ∧
    (let s := waitSt .matrixAll st
     Claims.waitsOn (getCtx s s.args.a) .matrixAll ∧ mayIssue s s.cx = true ∧ Claims.waitOver s s.cx .matrixAll) ∧
    (let s := waitSt .fullService st
     Claims.waitsOn (getCtx s s.args.a) .fullService ∧ ¬ Claims.waitOver s s.cx .fullService) := by
  unfold Claims.waitsOn Claims.waitOver
  decide +kernel

/-- An LFRAME's turn comes when no close of its tenant is in progress and none that arrived before waits. -/
theorem witness_ContextEvents_turn :
    (let s := waitSt (.lframeTurn 7 3) st
     (getCtx s s.args.a).st = .waiting (.lframeTurn 7 3) ∧ wakes s s.cx = true) ∧
    (let s := waitSt (.lframeTurn 7 3) { st with closes :=
        [{ tenant := 0, key := 1, lcb := { table := 0, cap := 0, frame := 0, ka := 0, kd := 0, ring := 0, view := 0, drops := 0, notify := 0 }, todo := [] }] }
     (getCtx s s.args.a).st = .waiting (.lframeTurn 7 3) ∧ wakes s s.cx = false) := by decide +kernel

def aCharge : Charge := { cause := 0x15, val := 0x40, engine := 3 }

theorem witness_ContextEvents_charged : ∃ (s : State) (w : Cond), getCtx s s.args.a = s.cx ∧ s.cx.key = s.args.a ∧ homeIdx s.args.a ≠ 11 ∧
    s.cx.st = .waiting w ∧ s.cx.charged = [aCharge] ∧ mayIssue s s.cx = true ∧ s.cx.inh = false ∧ s.cx.tvec &&& offMask ≠ 0 :=
  ⟨{ st with cx := { st.cx with st := .waiting (.kettle 5), charged := [aCharge], tvec := 0x800 } }, .kettle 5, by decide +kernel⟩

theorem witness_ContextEvents_stored : (getCtx st st.args.a).live = true ∧
    (getCtx (onA 7 st) (onA 7 st).args.a).live = false := by decide +kernel

def upSt : State := { st with cx := { st.cx with upcalls := [{ va := 0x4000, engine := 2, reqs := [] }] } }

theorem witness_ContextEvents_upcall : getCtx upSt (keyOf upSt.args.a 0) = upSt.cx ∧ upSt.cx.key = keyOf upSt.args.a 0 ∧
    upSt.cx.upcalls = [{ va := 0x4000, engine := 2, reqs := [] }] ∧ upSt.cx.inh = false ∧ mayIssue upSt upSt.cx = true ∧
    upSt.cx.place = .home ∧ upSt.cx.st = .ready ∧ upSt.cx.again = false ∧ (waitSt (.kettle 5) upSt).cx.stalled = false := by decide +kernel

/-- A kettle's handler is due; beside it waits a request of a lower class. -/
def helpSt : State :=
  core0 (fun c => { c with
    kettles := [(5, { owned := true, entry := 0x800, arg := 0x99, pending := true })]
    hreqs := [.hstart 0 3 0x900 0, .kettle 5] }) st

theorem witness_ContextEvents_helper : assignable helpSt helpSt.args.a = some (.kettle 5, 1) := by decide +kernel
theorem witness_ContextEvents_noHelper : assignable st st.args.a = none := by decide +kernel

/-! Arrivals -/

/-- A decrement, and a message of 5 bytes, from outside for kettle 5 of core 0. -/
def fromFar (l : List Byte) (s : State) : State :=
  { s with args := { flag := true, word := (dest 5 1).setWidth 256, b := 0, c := 3, bytes := l } }

theorem witness_ArrivalEvents_far :
    (let w := dest 5 1
     let s := fromFar (bytesOfNat 5 7) (kettle 5 1 false 0 st)
     s.args.flag = true ∧ w = s.args.word.setWidth 64 ∧ dwDev w = 0 ∧ dwOk s w = true ∧ isAnnounce (dwCore w) (dwKet w) = false ∧
       logging s (dwCore w) = false ∧ kettleTenant s (dwCore w) (dwKet w) = some s.args.b ∧ s.args.bytes.length ≤ 48 ∧
       (getCore s 0).inbox = [] ∧ kettleTenant (fromFar [] st) 0 5 ≠ some 0 ∧ (fromFar [] st).args.bytes = []) := by decide +kernel

/-- Core 4 of device 1 grants core 0 two more sends. -/
theorem witness_ArrivalEvents_farGrant :
    (let w : Word := BitVec.ofNat 64 (2 ^ 27 + 4)
     let key := allowKey (dwCore w) 1 0
     let s : State := { core0 (fun c => { c with allow := [(key, 3)] }) st with
       ndev := 2, args := { flag := true, word := w.setWidth 256, a := 0, b := 0, c := 2 } }
     s.args.flag = true ∧ logging s s.args.a = false ∧ holdsShot s s.args.a s.args.b = true ∧ w = s.args.word.setWidth 64 ∧
       coreRegOk s w = true ∧ dwDev w = 1 ∧ s.args.c < 65536 ∧ tget (getCore s s.args.a).allow key = some 3) := by decide +kernel

/-- A packet numbered 1 is under way to core 0, and the step's operand names it. -/
def netSt (b : Body) (s : State) : State :=
  onA 1 { s with arrived := [], net := [{ id := 1, src := 0, who := 0, dst := 0, body := b }] }

theorem arrives_netSt (b : Body) (s : State) : Claims.arrives (netSt b s) { id := 1, src := 0, who := 0, dst := 0, body := b } :=
  ⟨by simp [arriving, netSt, onA, inOrder, tget], rfl⟩

theorem witness_ArrivalEvents_decrement :
    isAnnounce (dwCore (dest 5 1)) (dwKet (dest 5 1)) = false ∧
    (let b : Body := .dec (dest 5 1) none (.message 0) 0
     logging (netSt b st) 0 = false ∧ kettleTenant (netSt b st) 0 5 ≠ some 0 ∧
     kettleTenant (netSt b (kettle 5 1 false 0 st)) 0 5 = some 0) := by decide +kernel

theorem witness_ArrivalEvents_inbox : Claims.inboxSlot (getCore st 0) 0 ∧
    (let full : CoreSt := { inbox := (List.range 128).map (fun i => { slot := i, sender := 0, kettle := 5, len := 16, payload := 0 }) }
     ∀ i, ¬ Claims.inboxSlot full i) := by
  refine ⟨⟨by decide, by decide +kernel, by intro j h; exact absurd h (by omega)⟩, ?_⟩
  rintro full i ⟨h1, h2, -⟩
  exact h2 { slot := i, sender := 0, kettle := 5, len := 16, payload := 0 }
    (List.mem_map.mpr ⟨i, List.mem_range.mpr h1, rfl⟩) rfl

theorem witness_ArrivalEvents_message :
    (let b : Body := .msg (dest 5 1) 0 16 0 0
     logging (netSt b st) 0 = false ∧ kettleTenant (netSt b st) 0 5 ≠ some 0 ∧
     kettleTenant (netSt b (kettle 5 1 false 0 st)) 0 5 = some 0 ∧
     Claims.inboxSlot (getCore (netSt b (kettle 5 1 false 0 st)) 0) 0) := by
  refine ⟨by decide +kernel, by decide +kernel, by decide +kernel, ⟨by decide, by decide +kernel, by intro j h; exact absurd h (by omega)⟩⟩

/-- The announcement kettle of queue 0 of tenant 0 is kettle 224 of core 0 (R375). -/
theorem witness_ArrivalEvents_announce :
    isAnnounce (dwCore (dest 224 1)) (dwKet (dest 224 1)) = true ∧ coreX (dwCore (dest 224 1)) ≠ 1 ∧ coreX (dwCore (dest 224 1)) = 0 ∧
    (let t (k : Nat) : Tenant := { queues := [(0, { base := 0x8000, slots := 4, kept := k })] }
     (tgetD (t 3).queues 0 {}).kept + 1 ≤ (tgetD (t 3).queues 0 {}).slots ∧
     (tgetD (t 4).queues 0 {}).slots < (tgetD (t 4).queues 0 {}).kept + 1 ∧ (tgetD (t 4).queues 0 {}).base ≠ 0 ∧ (t 4).enabled = false) := by
  decide +kernel

theorem witness_ArrivalEvents_grant :
    (let b : Body := .grant 5 3 0
     let key := allowKey 5 0 0
     (netSt b st).args.flag = false ∧ logging (netSt b st) 0 = false ∧ holdsShot (netSt b State.reset) 0 0 = false ∧ holdsShot (netSt b st) 0 0 = true ∧
     tget (getCore (netSt b st) 0).allow key = none ∧ (getCore (netSt b st) 0).allow.length < Config.allowEntries ∧
     (let s := core0 (fun c => { c with allow := [(key, 65534)] }) st
      holdsShot (netSt b s) 0 0 = true ∧ tget (getCore (netSt b s) 0).allow key = some 65534) ∧
     (let s := core0 (fun c => { c with allow := (List.range Config.allowEntries).map (fun i => (allowKey (i + 6) 0 0, 1)) }) st
      holdsShot (netSt b s) 0 0 = true ∧ tget (getCore (netSt b s) 0).allow key = none ∧
      Config.allowEntries ≤ (getCore (netSt b s) 0).allow.length)) := by decide +kernel

def touchPasses (x : Touch) : Bool :=
  match x with
  | .pass _ => true
  | _ => false
def touchState (x : Touch) : State :=
  match x with
  | .pass s => s
  | _ => State.reset
theorem touch_eq {x : Touch} (h : touchPasses x = true) : x = .pass (touchState x) := by cases x <;> first | rfl | cases h

/-- A drip of 4 bytes to 0x40 arrives at its home. -/
def dripBody : Body := .drip .add 0x40 4 7 0 (dest 5 1) 0 2
def dripSt : State := netSt dripBody (written st (.glob 0x40) (bytesOfNat 4 0xFFFF_FFFF) 0)

theorem witness_ArrivalEvents_drip : ∃ s1 s2 s3, touchAll dripSt 0 0x40 4 (.drip 1) (getCtx dripSt 0).gen 0 0 (homeOf 0x40) (homeCore 0) = .pass s1 ∧
    gread s1 0 0x40 4 = .ok (bytesOfNat 4 0xFFFF_FFFF) s2 ∧
    gwrite s2 0 0x40 (bytesOfNat 4 (Claims.dripNew .add 4 0 0xFFFF_FFFF 7).1) 2 0 = .ok s3 :=
  ⟨_, _, _, touch_eq (by decide +kernel), gr_eq (by decide +kernel), gw_eq (by decide +kernel)⟩

theorem test_drip_wraps : (Claims.dripNew .add 4 0 0xFFFF_FFFF 7).1 = 6 := by decide +kernel

theorem witness_ArrivalEvents_migrate :
    (let s := netSt (.migrate 0) st
     mayMove s 0 = true ∧ (getCore s 0).powered = true ∧ 0 = homeCore 0) ∧
    (let s : State := { st with net := [{ id := 1, src := 0, who := 0, dst := 4, body := .migrate 0 }] }
     mayMove s 0 = true ∧ (getCore s 4).powered = true ∧ 4 ≠ homeCore 0) := by decide +kernel

theorem witness_ArrivalEvents_admit :
    (let s := onA 4 (updCore st 4 (fun c => { c with arrivals := [0], slots := [(12, 99)] }))
     (getCore s s.args.a).arrivals = [0] ∧ mayMove s 0 = true ∧ tget (getCore s s.args.a).slots 13 = none ∧
     (∀ i, 12 ≤ i → i < 13 → tget (getCore s s.args.a).slots i ≠ none)) := by
  refine ⟨by decide +kernel, by decide +kernel, by decide +kernel, fun i h1 h2 => ?_⟩
  obtain rfl : i = 12 := by omega
  decide +kernel

/-- A 2 by 2 barrier on cores 0, 1, 64, 65; context 0 of each arrives in phase 0. -/
def bar22 : Barrier := { x0 := 0, y0 := 0, w := 2, h := 2, mask := 1, last := [(0, 0)] }

def sweepSt (a : Nat) (l : List (Nat × Barrier)) : State :=
  { l.foldl (fun s x => updCore s x.1 (fun c => { c with bars := [(3, x.2)] })) st with args := { a := a, b := 3 } }

theorem allHere_bar22 (b : Barrier) (hm : b.mask = 1) (hl : b.last = [(0, 0)]) (hp : b.phase = 0) : Claims.allHere b := by
  intro i h1 h2
  rw [hm] at h2
  have : i = 0 := (by decide : ∀ i < 11, BitVec.getLsbD (1 : BitVec 16) i = true → i = 0) i h1 h2
  subst this
  rw [hl, hp]
  rfl

theorem witness_ArrivalEvents_sweep :
    (let b : Barrier := { bar22 with east := true, south := true }
     getBar (sweepSt 0 [(0, b)]) 0 3 = some b ∧ Claims.allHere b ∧ (b.w = 1 ∨ b.east = true) ∧ (b.h = 1 ∨ b.south = true) ∧
       coreX 0 = b.x0 ∧ coreY 0 = b.y0) ∧
    (let s := sweepSt 1 [(0, bar22), (1, bar22)]
     getBar s 1 3 = some bar22 ∧ coreX 1 ≠ bar22.x0 ∧ Claims.allHere bar22 ∧ coreX 1 + 1 = bar22.x0 + bar22.w ∧
       getBar s (1 - 1) 3 = some bar22 ∧ bar22.same bar22 = true) ∧
    (let b : Barrier := { bar22 with east := true }
     let s := sweepSt 64 [(0, bar22), (64, b)]
     getBar s 64 3 = some b ∧ coreX 64 = b.x0 ∧ coreY 64 ≠ b.y0 ∧ Claims.allHere b ∧ b.east = true ∧ coreY 64 + 1 = b.y0 + b.h ∧
       getBar s (64 - 64) 3 = some bar22 ∧ b.same bar22 = true) ∧
    (let b : Barrier := { bar22 with relEast := true }
     getBar (sweepSt 0 [(0, b), (1, bar22)]) 0 3 = some b ∧ getBar (sweepSt 0 [(0, b), (1, bar22)]) (0 + 1) 3 = some bar22) ∧
    (let b : Barrier := { bar22 with relSouth := true }
     getBar (sweepSt 0 [(0, b), (64, bar22)]) 0 3 = some b ∧ b.relEast = false ∧
       getBar (sweepSt 0 [(0, b), (64, bar22)]) (0 + 64) 3 = some bar22) := by
  refine ⟨⟨by decide +kernel, allHere_bar22 _ rfl rfl rfl, by decide⟩,
    ⟨by decide +kernel, by decide, allHere_bar22 _ rfl rfl rfl, by decide +kernel⟩,
    ⟨by decide +kernel, by decide, by decide, allHere_bar22 _ rfl rfl rfl, by decide +kernel⟩, by decide +kernel, by decide +kernel⟩

/-! Launch queues, placement, retirement -/

/-- A launch record from its fields: byte offset and value (R21). -/
def recordOf (l : List (Nat × Nat)) : BitVec 512 := BitVec.ofNat 512 (l.foldl (fun n x => n + x.2 * 2 ^ (8 * x.1)) 0)

/-- One pour of one core; entry 0x400, segment table at 0x9000. -/
def recA : BitVec 512 := recordOf [(0, 0x400), (20, 1), (22, 1), (24, 1), (40, 0x9000)]

def brewA : Brew := { tenant := 0, num := 0, queue := 0, record := recA, segs := Vector.replicate 8 (whole 0) }

/-- The record stands in slot 0 of a queue of four slots, its table beside it. -/
def queueSt : State :=
  onA 0 (updTenant (written (written st (.glob 0x8000) (bytesOfNat 64 recA.toNat) 0) (.glob 0x9000)
    ((List.replicate 8 (Claims.segBytes (whole 0))).flatten) 0) 0
    (fun t => { t with enabled := true, queues := [(0, { base := 0x8000, slots := 4, next := 0, kept := 1 })] }))

def trOk : TableRead → Bool
  | .ok _ _ => true
  | _ => false
def trState : TableRead → State
  | .ok _ s => s
  | _ => State.reset
def trSegs : TableRead → Vector Seg 8
  | .ok g _ => g
  | _ => Vector.replicate 8 {}
theorem tr_eq {x : TableRead} (h : trOk x = true) : x = .ok (trSegs x) (trState x) := by cases x <;> first | rfl | cases h

theorem witness_PlacementEvents_queued : ∃ u s1 g s2, queueSt.args.b < 8 ∧ (getTenant queueSt queueSt.args.a).enabled = true ∧
    tgetD (getTenant queueSt 0).queues 0 {} = u ∧ u.kept ≠ 0 ∧ u.base ≠ 0 ∧ u.slots ≠ 0 ∧
    gread queueSt 0 (u.base.toNat + 64 * (u.next % u.slots)) 64 = .ok (bytesOfNat 64 recA.toNat) s1 ∧
    readTable s1 0 (Claims.recField recA 40 8) = .ok g s2 :=
  ⟨_, _, _, _, by decide +kernel, by decide +kernel, rfl, by decide +kernel, by decide +kernel, by decide +kernel,
    gr_eq (by decide +kernel), tr_eq (by decide +kernel)⟩

/-- The record of the queue has no fault, and every code of R25 has a record that earns it. -/
theorem test_launch_faults :
    let g := some (Vector.replicate 8 (whole 0))
    let code (l : List (Nat × Nat)) := Claims.recordFault st (recordOf l) g
    Claims.recordFault st recA g = 0 ∧ code [(52, 1)] = 1 ∧ code [(20, 65), (22, 24)] = 2 ∧
      code [(20, 64), (22, 24), (24, 65536)] = 3 ∧ code [(20, 64), (22, 24), (24, 65535), (28, 8)] = 4 ∧
      code [(20, 64), (22, 24), (24, 65535), (28, 7), (29, 11)] = 5 ∧
      code [(20, 64), (22, 24), (24, 65535), (28, 7), (29, 10), (30, 9)] = 6 ∧
      Claims.recordFault st recA none = 7 ∧ code [(0, 0x402), (20, 1), (22, 1), (24, 1)] = 8 ∧
      code [(0, 0x400), (20, 1), (22, 1), (24, 1), (32, 1)] = 9 := by decide +kernel

def directSt : State :=
  updTenant { queueSt with args := { a := 0, b := 8 } } 0 (fun t => { t with direct := [{ key := 0, d := 3, record := recA }] })

theorem witness_PlacementEvents_direct : ∃ g s1, (getTenant directSt 0).enabled = true ∧
    (getTenant directSt 0).direct = [{ key := 0, d := 3, record := recA }] ∧ (getCtx directSt 0).stepping = false ∧
    readTable directSt 0 (Claims.recField recA 40 8) = .ok g s1 :=
  ⟨_, _, by decide +kernel, by decide +kernel, by decide +kernel, tr_eq (by decide +kernel)⟩

/-- The scheduler places next what this accepts. -/
def placesNext (s : State) (f : Cand → Nat → Nat → Bool) : Bool :=
  match nextPlacement s with
  | some (c, x, y) => f c x y
  | none => false
theorem places_of {s : State} {f : Cand → Nat → Nat → Bool} (h : placesNext s f = true) :
    ∃ c x y, nextPlacement s = some (c, x, y) ∧ f c x y = true := by
  unfold placesNext at h
  split at h
  · exact ⟨_, _, _, ‹_›, h⟩
  · cases h

/-- A tenant has a brew, and no pour stands anywhere; or a pour of one core stands at the origin. -/
def wantSt (pours : List Pour) : State := { State.reset with tenants := [(0, { enabled := true })], brews := [brewA], pours := pours }

theorem getCore_none {s : State} (h : s.cores = []) (k : Nat) : (getCore s k).powered = true := by
  unfold getCore
  rw [h]
  rfl

theorem witness_PlacementEvents_place : ∃ c ox oy, nextPlacement (wantSt []) = some (c, ox, oy) ∧ c.saved = none ∧
    ∀ k, Claims.inRect c.brew.width c.brew.height ox oy k → (getCore (wantSt []) k).powered = true := by
  obtain ⟨c, x, y, h1, h2⟩ := places_of (s := wantSt []) (f := fun c _ _ => decide (c.saved = none)) (by decide +kernel)
  exact ⟨c, x, y, h1, of_decide_eq_true h2, fun k _ => getCore_none rfl k⟩

def startSt : State := { core0 (fun c => { c with starting := true }) st with brews := [brewA] }

theorem witness_PlacementEvents_start : ∃ p, startSt.args.a = 0 ∧ shotPour startSt 0 = some p ∧
    findBrew startSt p.tenant p.brew = some brewA ∧ (getCore startSt 0).starting = true ∧ p.st = .placed := by
  refine ⟨{ id := 0, tenant := 0, brew := 0, idx := 0, w := 1, h := 1, ox := 0, oy := 0 }, ?_⟩
  decide +kernel

theorem witness_PlacementEvents_zeroFill : (getCore st 0).zfActive = false ∧
    (getCore (core0 (fun c => { c with zfActive := true }) st) 0).zfActive = true := by decide +kernel

/-- The shot of core 0 is over; its pour has one core, or a second whose shot is still to start. -/
def overSt (p : Pour) : State :=
  { core0 (fun c => { c with scan := 15 }) (updCore (waitSt .stopShot st) 1 (fun c => { c with shot := some 0, starting := true })) with
    brews := [brewA], pours := [p] }

def oneCore : Pour := { id := 0, tenant := 0, brew := 0, idx := 0, w := 1, h := 1, ox := 0, oy := 0 }

theorem shotOver_overSt (p : Pour) (h : p = oneCore ∨ p = { oneCore with w := 2 }) : Claims.shotOver (overSt p) 0 := by
  have helpers : ∀ q ∈ [oneCore, { oneCore with w := 2 }], ∀ i < 12, 1 ≤ i → (getCtx (overSt q) (keyOf 0 i)).st = .free := by
    decide +kernel
  have rest : ∀ q ∈ [oneCore, { oneCore with w := 2 }],
      let k := getCore (overSt q) 0
      let c0 := getCtx (overSt q) (keyOf 0 0)
      k.starting = false ∧ c0.st = .waiting .stopShot ∧ c0.place = .home ∧
        (k.cq = [] ∧ k.mq = [] ∧ k.cstall = [] ∧ k.mstall = [] ∧ k.hreqs = []) ∧
        (∀ x ∈ k.kettles, x.2.pending = false) ∧ (overSt q).net = [] ∧ (overSt q).closes = [] ∧ (overSt q).lateFails = [] ∧ (overSt q).fills = [] ∧
        c0.charged = [] ∧ c0.upcalls = [] := by
    decide +kernel
  have mem : p ∈ [oneCore, { oneCore with w := 2 }] := by simpa using h
  obtain ⟨h1, h2, h3, ⟨h4, h5, h6, h7, h8⟩, h9, hn, hc, hl, hf, h10, h11⟩ := rest p mem
  refine ⟨h1, h2, h3, fun i a b => helpers p mem i (by omega) a, h4, h5, h6, h7, h8, h9, ?_, ?_, ?_, ?_, .inr ⟨h10, h11⟩⟩
  · rw [hn]; simp
  · rw [hc]; simp
  · rw [hl]; simp
  · rw [hf]; simp

theorem witness_PlacementEvents_retire :
    (let s := overSt oneCore
     shotPour s 0 = some oneCore ∧ oneCore.st = .placed ∧ findBrew s oneCore.tenant oneCore.brew = some brewA ∧ Claims.shotOver s 0 ∧
       (∀ k, Claims.inRect 1 1 0 0 k → k ≠ 0 → Claims.retired s k) ∧ Claims.inRect 1 1 0 0 0 ∧ 0 + oneCore.w ≤ 64) ∧
    (let p := { oneCore with w := 2 }
     let s := overSt p
     shotPour s 0 = some p ∧ findBrew s p.tenant p.brew = some brewA ∧ Claims.shotOver s 0 ∧
       ∃ k, Claims.inRect 2 1 0 0 k ∧ k ≠ 0 ∧ ¬ Claims.retired s k) := by
  refine ⟨⟨by decide +kernel, rfl, by decide +kernel, shotOver_overSt _ (.inl rfl), ?_, by unfold Claims.inRect; decide, by decide⟩,
    by decide +kernel, by decide +kernel, shotOver_overSt _ (.inr rfl), 1, by unfold Claims.inRect; decide, by decide, ?_⟩
  · intro k h hk
    unfold Claims.inRect coreX coreY at h
    omega
  · unfold Claims.retired
    decide +kernel

/-! Slices, cuts, checkpoints, resumption -/

theorem witness_CutEvents_slice : findPour st st.args.a = some oneCore ∧ oneCore.st = .placed := by decide +kernel

/-- A pour of tenant 1 holds core 0 and its slice has expired; a brew of tenant 0 asks for all the 32 by 12 cores of reduced
service. -/
def preemptSt : State :=
  { updCore (wantSt [{ oneCore with id := 9, tenant := 1, expired := true }]) 0 (fun c => { c with shot := some 9 }) with
    brews := [{ brewA with record := recordOf [(0, 0x400), (20, 32), (22, 12), (24, 1), (40, 0x9000)] }] }

def waitsFor (s : State) (i : Nat) (f : Cand → Bool) : Bool :=
  match (waitingCands s)[i]? with
  | some c => f c
  | none => false
theorem waits_of {s : State} {i : Nat} {f : Cand → Bool} (h : waitsFor s i f = true) :
    ∃ c, (waitingCands s)[i]? = some c ∧ f c = true := by
  unfold waitsFor at h
  split at h
  · exact ⟨_, ‹_›, h⟩
  · cases h

def isPour (a : Option Pour) (b : Option Pour) : Bool := decide (a = b)

/-- The first that waits has a victim. -/
theorem witness_CutEvents_preempt : ∃ c p, (∀ k ∈ preemptSt.cuts, k.frees = false) ∧ (waitingCands preemptSt)[0]? = some c ∧
    victimFor preemptSt c = some p ∧ findPour preemptSt p.id = some p ∧ p.st = .placed ∧ (∀ k ∈ preemptSt.cuts, k.pour ≠ p.id) := by
  let p : Pour := { oneCore with id := 9, tenant := 1, expired := true }
  obtain ⟨c, h1, h2⟩ := waits_of (s := preemptSt) (i := 0) (f := fun c => isPour (victimFor preemptSt c) (some p)) (by decide +kernel)
  exact ⟨c, p, by decide +kernel, h1, of_decide_eq_true h2, by decide +kernel, rfl, by decide +kernel⟩

/-- The first that waits has none, as the pour in its way is its own tenant's and of a higher priority; the second has it. -/
def secondSt : State :=
  let wide (t : Nat) : Brew := { brewA with tenant := t, record := recordOf [(0, 0x400), (20, 32), (22, 12), (24, 1), (40, 0x9000)] }
  { preemptSt with
    tenants := [(0, { enabled := true }), (1, { enabled := true })], lastTenant := 0
    brews := [wide 1, { wide 0 with num := 1 }, { brewA with tenant := 1, num := 7, nextIdx := 1, record := recordOf [(20, 1), (22, 1), (24, 1), (28, 3)] }]
    pours := [{ oneCore with id := 9, tenant := 1, brew := 7, expired := true }] }

theorem witness_CutEvents_second : ∃ c p, (∀ k ∈ secondSt.cuts, k.frees = false) ∧ (waitingCands secondSt)[1]? = some c ∧
    victimFor secondSt c = some p ∧
    (∀ j c', j < 1 → (waitingCands secondSt)[j]? = some c' → victimFor secondSt c' = none) ∧
    findPour secondSt p.id = some p ∧ p.st = .placed ∧ (∀ k ∈ secondSt.cuts, k.pour ≠ p.id) := by
  let p : Pour := { oneCore with id := 9, tenant := 1, brew := 7, expired := true }
  obtain ⟨c, h1, h2⟩ := waits_of (s := secondSt) (i := 1) (f := fun c => isPour (victimFor secondSt c) (some p)) (by decide +kernel)
  obtain ⟨d, h3, h4⟩ := waits_of (s := secondSt) (i := 0) (f := fun c => isPour (victimFor secondSt c) none) (by decide +kernel)
  refine ⟨c, p, by decide +kernel, h1, of_decide_eq_true h2, fun j c' hj hc => ?_, by decide +kernel, rfl, by decide +kernel⟩
  obtain rfl : j = 0 := by omega
  rw [h3] at hc
  obtain rfl := Option.some.inj hc
  exact of_decide_eq_true h4

/-- Nobody waits: nothing is cut. -/
theorem witness_CutEvents_idle : (∀ k ∈ st.cuts, k.frees = false) ∧ (∀ c ∈ waitingCands st, victimFor st c = none) := by
  have h : waitingCands st = [] := List.isEmpty_iff.mp (by decide +kernel)
  rw [h]
  exact ⟨by decide +kernel, by simp⟩

def cutSt (c : Cut) (s : State) : State := { s with cuts := [c], pours := [{ oneCore with st := .cutting }] }

def supplyOp : MOp := { mop .mmaj 0 0 with phase := .supply }
def supplySt : State :=
  { cutSt { pour := 0, units := [0], frees := true, next := .saved } (core0 (fun c => { c with mq := [supplyOp] }) st) with
    joins := [{ pour := 0, tag := supplyOp.shape.jtag }] }

theorem witness_CutEvents_join : ∃ c p k rest o j, supplySt.cuts.find? (fun x => x.pour == supplySt.args.a) = some c ∧
    findPour supplySt supplySt.args.a = some p ∧ c.units = k :: rest ∧ headOp supplySt k = some o ∧ o.phase = .supply ∧
    supplySt.joins.find? (fun x => x.pour == o.pour && x.tag == o.shape.jtag) = some j :=
  ⟨_, _, 0, [], supplyOp, { pour := 0, tag := supplyOp.shape.jtag }, rfl, rfl, rfl, by decide +kernel, rfl, by decide +kernel⟩

theorem cutAt_cutSt {c : Cut} {k : Nat} {rest : List Nat} (hc : c.units = k :: rest) (hn : k ∉ rest) (hp : c.pour = 0)
    (hq : ∀ u ∈ c.units, headOp (cutSt c st) u = none) (hs : unitStill (cutSt c st) k = true) (hd : deliverDue (cutSt c st) k = cutSt c st) :
    Claims.cutAt (cutSt c st) 0 c { oneCore with st := .cutting } k rest :=
  ⟨by simp [cutSt, hp], rfl, hc, hn, fun u hu o ho => (by rw [hq u hu] at ho; cases ho), hs, hd⟩

theorem witness_CutEvents_unit :
    Claims.cutAt (cutSt { pour := 0, units := [0, 1], frees := true, next := .saved } st) 0
      { pour := 0, units := [0, 1], frees := true, next := .saved } { oneCore with st := .cutting } 0 [1] :=
  cutAt_cutSt rfl (by decide) rfl (by decide +kernel) (by decide +kernel) (by decide +kernel)

theorem witness_CutEvents_last :
    Claims.cutAt (cutSt { pour := 0, units := [0], frees := true, next := .saved } st) 0
      { pour := 0, units := [0], frees := true, next := .saved } { oneCore with st := .cutting } 0 [] :=
  cutAt_cutSt rfl (by decide) rfl (by decide +kernel) (by decide +kernel) (by decide +kernel)

theorem witness_CutEvents_mark :
    let c : Cut := { pour := 0, units := [0], frees := false, next := .saved, marks := [(0, 3, 0)] }
    Claims.cutAt (cutSt c st) 0 c { oneCore with st := .cutting } 0 [] ∧ (getCtx (cutSt c st) 0).stepping = false :=
  ⟨cutAt_cutSt rfl (by decide) rfl (by decide +kernel) (by decide +kernel) (by decide +kernel), by decide +kernel⟩

theorem witness_CutEvents_stored : ∀ b ∈ [false, true],
    tget (onA 5 { st with ckpts := [(5, { tenant := 0, brew := 0, idx := 0, image := {}, saves := [], dests := [dest 5 1, 0], stored := b })] }).ckpts 5
      = some { tenant := 0, brew := 0, idx := 0, image := {}, saves := [], dests := [dest 5 1, 0], stored := b } := by decide +kernel

/-- A saved pour of one core with its context 0. -/
def savedImg : Image := { ctxs := [{ st.cx with pour := 9 }], cores := [(0, {})], cells := [(winKey 0, 7)] }
def savedPour : Pour := { oneCore with id := 9, st := .saved, image := some savedImg }

theorem witness_CutEvents_resume : ∃ c, nextPlacement (wantSt [savedPour]) = some (c, savedImg.ox, savedImg.oy) ∧ c.saved = some savedPour ∧
    savedPour.image = some savedImg ∧ findPour (wantSt [savedPour]) savedPour.id = some savedPour ∧ savedPour.w = c.brew.width ∧
    savedPour.h = c.brew.height ∧
    (∀ k, Claims.inRect savedPour.w savedPour.h 0 0 k → (getCore (wantSt [savedPour]) k).powered = true) ∧
    (savedImg.ctxs.map Ctx.key).Nodup ∧ Memory.wf savedImg.cells = true ∧
    (∀ x ∈ savedImg.cells, ∃ k, Claims.inRect savedPour.w savedPour.h 0 0 k ∧ Claims.ownByte k x.1) := by
  obtain ⟨c, x, y, h1, h2⟩ := places_of (s := wantSt [savedPour])
    (f := fun c x y => decide (c.saved = some savedPour) && decide (x = 0) && decide (y = 0) && decide (c.brew.width = 1) &&
      decide (c.brew.height = 1)) (by decide +kernel)
  simp only [Bool.and_eq_true, decide_eq_true_eq] at h2
  obtain ⟨⟨⟨⟨h2, h3⟩, h4⟩, h5⟩, h6⟩ := h2
  subst h3; subst h4
  refine ⟨c, h1, h2, rfl, by decide +kernel, h5.symm, h6.symm, fun k _ => getCore_none rfl k, by decide +kernel, by decide +kernel, ?_⟩
  intro x hx
  rw [List.mem_singleton.mp hx]
  exact ⟨0, by unfold Claims.inRect; decide, by unfold Claims.ownByte; decide +kernel⟩

/-! Engines: copies, matrix operations, frame closes -/

def eoOk {α : Type} : EOut α → Bool
  | .ok _ _ => true
  | _ => false
def eoState {α : Type} : EOut α → State
  | .ok _ s => s
  | .paused _ s => s
  | _ => State.reset
theorem eo_eq {α : Type} {x : EOut α} (h : eoOk x = true) : ∃ a, x = .ok a (eoState x) := by
  cases x with
  | ok a s => exact ⟨a, rfl⟩
  | _ => cases h
def eoIs {α : Type} [DecidableEq α] (a : α) : EOut α → Bool
  | .ok b _ => decide (b = a)
  | _ => false
theorem eo_is {α : Type} [DecidableEq α] {x : EOut α} {a : α} (h : eoIs a x = true) : x = .ok a (eoState x) := by
  cases x with
  | ok b s => rw [of_decide_eq_true h]; rfl
  | _ => cases h
def eoPauses {α : Type} (n : Nat) : EOut α → Bool
  | .paused i _ => decide (i = n)
  | _ => false
theorem eo_paused {α : Type} {x : EOut α} {n : Nat} (h : eoPauses n x = true) : x = .paused n (eoState x) := by
  cases x with
  | paused i s => rw [of_decide_eq_true h]; rfl
  | _ => cases h

/-- A copy of one byte from a source to 0x80, numbered 1, of context 0 of core 0. -/
def copyOf (src : Word) (run : Bool) : COp :=
  { id := 1, minor := 0, xf := .none, src := src, dst := ptr 0 0x80, sseg := whole 0, dseg := whole 0
    pat := BitVec.ofNat 512 (natOfBytes copyRec), dest := 0, rmode := 0, key := 0, pour := 0, tenant := 0, running := run }

def copyRunSt (l : List COp) : State := { core0 (fun c => { c with cq := l }) st with args := { a := 0, b := 1 } }

theorem witness_CopyEvents_start : running (copyRunSt []) 0 = true ∧
    (getCore (copyRunSt [copyOf 0 true, copyOf 0 false]) 0).cq = [copyOf 0 true] ++ copyOf 0 false :: [] ∧
    ((getCore (copyRunSt [copyOf 0 true, copyOf 0 false]) 0).cq.filter (fun x => x.running)).length < 4 ∧
    (let l := List.replicate 4 (copyOf 0 true)
     (getCore (copyRunSt (l ++ [copyOf 0 false])) 0).cq = l ++ copyOf 0 false :: [] ∧ (∀ x ∈ l, x.running = true) ∧
       4 ≤ ((getCore (copyRunSt (l ++ [copyOf 0 false])) 0).cq.filter (fun x => x.running)).length) := by decide +kernel

theorem copyRuns_of {l : List COp} {o : COp}
    (h : ((getCore (copyRunSt l) 0).cq.find? (fun x => x.id == 1) == some o && o.running && !o.paused && running (copyRunSt l) 0) = true) :
    Claims.copyRuns (copyRunSt l) o := by
  simp only [Bool.and_eq_true, beq_iff_eq, Bool.not_eq_true'] at h
  obtain ⟨⟨⟨h1, h2⟩, h3⟩, h4⟩ := h
  exact ⟨h1, h2, h3, h4⟩

def goodCopy : COp := copyOf (ptr 0 0x40) true

theorem witness_CopyEvents_complete : ∃ p s1 n r s2, Claims.copyRuns (copyRunSt [goodCopy]) goodCopy ∧ goodCopy.xf ≠ .bstr ∧
    goodCopy.err = none ∧ planCopy (goodCopy.job 0) goodCopy (copyRunSt [goodCopy]) = .ok p s1 ∧
    probePlan (goodCopy.job 0) goodCopy.b p.pieces s1 = .ok (n, r) s2 := by
  have h0 : (eoOk (planCopy (goodCopy.job 0) goodCopy (copyRunSt [goodCopy])) &&
      (match planCopy (goodCopy.job 0) goodCopy (copyRunSt [goodCopy]) with
        | .ok p s1 => eoOk (probePlan (goodCopy.job 0) goodCopy.b p.pieces s1)
        | _ => false)) = true := by decide +kernel
  rw [Bool.and_eq_true] at h0
  obtain ⟨p, hp⟩ := eo_eq h0.1
  have h1 := h0.2
  rw [hp] at h1
  obtain ⟨⟨n, r⟩, hq⟩ := eo_eq h1
  exact ⟨p, _, n, r, _, copyRuns_of (by decide +kernel), by decide, rfl, hp, hq⟩

theorem witness_CopyEvents_row : ∃ s1 s2, goodCopy.err = none ∧ Claims.oneRow goodCopy ∧
    eRead (goodCopy.job 0) (goodCopy.a.addr 0) (goodCopy.a.c0 * goodCopy.a.bits / 8) (copyRunSt [goodCopy]) = .ok [0] s1 ∧
    eProbe (goodCopy.job 0) (goodCopy.b.addr 0) 1 s1 = .ok () s2 :=
  ⟨_, _, rfl, by unfold Claims.oneRow; decide +kernel, eo_is (by decide +kernel), eo_is (by decide +kernel)⟩

/-- A source page that is not mapped, and a copy that failed at an access. -/
theorem witness_CopyEvents_paused : ∃ s1,
    planCopy ((copyOf (ptr 0 0x20000) true).job 0) (copyOf (ptr 0 0x20000) true) (copyRunSt [copyOf (ptr 0 0x20000) true]) = .paused 0 s1 ∧
    Claims.copyRuns (copyRunSt [copyOf (ptr 0 0x20000) true]) (copyOf (ptr 0 0x20000) true) ∧
    Claims.copyRuns (copyRunSt [{ goodCopy with err := some (0x15, 0, 0x40) }]) { goodCopy with err := some (0x15, 0, 0x40) } :=
  ⟨_, eo_paused (by decide +kernel), copyRuns_of (by decide +kernel), copyRuns_of (by decide +kernel)⟩

theorem witness_CopyEvents_transposed : ∃ (b : Side), 0 < b.c0 ∧ 0 < b.c1 ∧ 0 < b.c2 := ⟨goodCopy.b, by decide +kernel⟩

/-- A BSTR copy of one chunk of one byte; its chunk is popped, or it is still to be delivered to ring 1. -/
def bstrOp (next : Nat) (chunks : List Chunk) (failed : Option (Nat × BitVec 32)) : COp :=
  { goodCopy with xf := .bstr, targets := [(0, 1)], next := next, chunks := chunks, failed := failed }

def bstrSt (o : COp) : State := setRing (copyRunSt [o]) 0 1 { base := 0x100, slog := 10, count := 3 }

theorem bstr_runs {o : COp} (h : (getCore (bstrSt o) 0).cq.find? (fun x => x.id == 1) = some o ∧ o.running = true ∧ o.paused = false ∧
    running (bstrSt o) 0 = true) : Claims.copyRuns (bstrSt o) o := h

theorem witness_CopyEvents_bstrEnds :
    let chunks : List Chunk := [{ k := 0, core := 0, st := .written, popped := true }]
    ∀ f ∈ [none, some (0, (5 : BitVec 32))],
      let o := bstrOp 1 chunks f
      Claims.copyRuns (bstrSt o) o ∧ o.xf = .bstr ∧ copyAt (settleCopy 0 1 (bstrSt o)) 0 1 = some o ∧ o.more = false ∧
        (∀ c ∈ o.chunks, c.popped = true) ∧ o.err = none := by
  unfold Claims.copyRuns
  decide +kernel

theorem witness_CopyEvents_deliver : ∃ r s1,
    let o := bstrOp 0 [] none
    let s := bstrSt o
    Claims.copyRuns s o ∧ settleCopy 0 1 s = s ∧ o.next < o.a.c1 ∧ o.targets[o.next % o.targets.length]? = some (0, 1) ∧
      getRing s 0 1 = some r ∧ Claims.filledOf r < r.count ∧ r.count ≤ 256 ∧ r.tail < Claims.wrapOf r.count ∧
      r.head < Claims.wrapOf r.count ∧ eRead (o.job 0) (o.srcAt o.next) o.a.c0 s = .ok [0] s1 ∧
      r.base + r.tail % r.count * 2 ^ r.slog + (o.a.c0 + 255) / 256 * 256 + o.b.c0 ≤ scratchSize (getCore s1 0) :=
  ⟨{ base := 0x100, slog := 10, count := 3 }, _, by unfold Claims.copyRuns; decide +kernel, by decide +kernel, by decide +kernel,
    by decide +kernel, by decide +kernel, by decide +kernel, by decide, by decide +kernel, by decide +kernel, eo_is (by decide +kernel),
    by decide +kernel⟩

/-- TXWAKE of ring 1, entry 0x400, with a threshold of 1 slot. -/
def wakeSt : State :=
  core0 (fun c => { c with txwake := BitVec.ofNat 64 (2 ^ 60 + 2 ^ 59 + 2 ^ 49 + 0x400) }) (setRing st 0 1 { base := 0x100, slog := 8, count := 3, tail := 1 })

theorem witness_CopyEvents_wake : ∃ r,
    let k := getCore wakeSt 0
    running wakeSt 0 = true ∧ (getCtx wakeSt (keyOf 0 0)).st ≠ .free ∧ (getCtx wakeSt (keyOf 0 11)).st = .free ∧
      k.txwake.getLsbD 59 = true ∧ getRing wakeSt 0 (k.txwake.toNat / 2 ^ 60 % 16) = some r ∧
      k.txwake.toNat / 2 ^ 49 % 2 ^ 9 ≤ r.filled :=
  ⟨{ base := 0x100, slog := 8, count := 3, tail := 1 }, by decide +kernel⟩

/-! Matrix operations -/

/-- Core 0 has one operation; rings 1 and 2 have a filled slot, ring 3 none. -/
def opSt (o : MOp) : State :=
  let s := setRing (setRing matSt 0 1 { base := 0x1000, slog := 8, count := 2, tail := 1 }) 0 2 { base := 0x2000, slog := 8, count := 2, tail := 1 }
  core0 (fun c => { c with mq := [o] }) (setRing s 0 3 { base := 0x3000, slog := 8, count := 2 })

def opOf (k : MKind) (qb : Nat) : MOp := { mop k 0 (shapeIn 0x400) with qa := 1, qb := qb }

theorem witness_MatrixEvents_start : ∀ k ∈ [MKind.mzero, .mma, .msta, .mmaj],
    let o := opOf k 2
    (getCore (opSt o) 0).mq = [o] ∧ running (opSt o) 0 = true ∧ o.paused = false ∧ o.phase = .queued ∧ o.err = none ∧
      (∀ q ∈ [1, 2], (getRing (opSt o) 0 q).any (fun r => decide (0 < r.filled)) = true) ∧ (opSt o).joins = [] := by decide +kernel

theorem witness_MatrixEvents_full : (∀ q ∈ (opOf .mma 2).rings, ∃ r, getRing (opSt (opOf .mma 2)) 0 q = some r ∧ 0 < r.filled) ∧
    ¬ (∀ q ∈ (opOf .mma 3).rings, ∃ r, getRing (opSt (opOf .mma 3)) 0 q = some r ∧ 0 < r.filled) := by
  have h1 : (opOf .mma 2).rings = [1, 2] := by decide +kernel
  have h2 : (3 : Nat) ∈ (opOf .mma 3).rings := by decide +kernel
  have g1 : getRing (opSt (opOf .mma 2)) 0 1 = some { base := 0x1000, slog := 8, count := 2, tail := 1 } := by decide +kernel
  have g2 : getRing (opSt (opOf .mma 2)) 0 2 = some { base := 0x2000, slog := 8, count := 2, tail := 1 } := by decide +kernel
  have g3 : getRing (opSt (opOf .mma 3)) 0 3 = some { base := 0x3000, slog := 8, count := 2 } := by decide +kernel
  refine ⟨?_, fun h => ?_⟩
  · rw [h1]
    intro q hq
    rcases List.mem_cons.mp hq with rfl | hq
    · exact ⟨_, g1, by decide⟩
    · rw [List.mem_singleton.mp hq]
      exact ⟨_, g2, by decide⟩
  · obtain ⟨r, hr, hf⟩ := h 3 h2
    rw [g3] at hr
    cases hr
    exact absurd hf (by decide)

theorem witness_MatrixEvents_load : ∃ rows s1,
    readRows (opOf .mlda 0) ((opOf .mlda 0).job 0 4) (upFrom 0 (opOf .mlda 0).shape.m) (opSt (opOf .mlda 0)) = .ok rows s1 := by
  obtain ⟨a, h⟩ := eo_eq (x := readRows (opOf .mlda 0) ((opOf .mlda 0).job 0 4) (upFrom 0 (opOf .mlda 0).shape.m) (opSt (opOf .mlda 0)))
    (by decide +kernel)
  exact ⟨a, _, h⟩

/-- An operation with one row, computed, or draining with its row released. -/
def doneOp (k : MKind) (ph : MPhase) : MOp := { opOf k 2 with phase := ph, rows := [{ m := 0, data := 0x3F80_0000, st := .released }] }

theorem witness_MatrixEvents_complete : ∀ k ∈ [MKind.mzero, .mma, .mmas, .mmaj, .mlda, .msta], ∀ ph ∈ [MPhase.computed, .draining],
    let o := doneOp k ph
    (getCore (opSt o) 0).mq = [o] ∧ o.paused = false ∧ o.err = none ∧ (o.phase = .computed ∨ (o.phase = .draining ∧ ∀ r ∈ o.rows, r.st = .released)) ∧
      (getCtx (opSt o) o.key).stepping = false ∧ (o.rows.map DrainRow.m).Nodup ∧ (if o.shape.fmtAcc = 9 then 8 else 4) * o.shape.n ≤ 512 := by
  decide +kernel

theorem witness_MatrixEvents_store : ∃ n s1,
    probePieces (doneOp .msta .computed) ((doneOp .msta .computed).job 0 4) (storePieces (doneOp .msta .computed)).1 (opSt (doneOp .msta .computed))
      = .ok (n, none) s1 := ⟨1, _, eo_is (by decide +kernel)⟩

/-- A join of two participants on cores 0 and 1, of which the second is here or not. -/
def joinShape (role : Nat) : Shape :=
  BitVec.ofNat 512 ((shapeIn 0x400).toNat % 2 ^ 256 + (2 + (role + 8) * 256 + 7 * 65536) * 2 ^ 256)
def joinOp (role : Nat) : MOp := { opOf .mmaj 2 with shape := joinShape role, phase := .supply }
def joinSt (parts : List Part) : State :=
  let s := updCore (core0 (fun c => { c with mq := [joinOp 0] }) st) 1 (fun c => { c with mq := [joinOp 1] })
  { s with joins := [{ pour := 0, tag := 7, parts := parts }], args := { a := 0, b := 7 } }
def part (role : Nat) : Part := { core := role, op := 1, role := role, supplied := true }

theorem witness_MatrixEvents_join :
    let j : Join := { pour := 0, tag := 7, parts := [part 0, part 1] }
    (joinSt [part 0, part 1]).joins.find? (fun x => x.pour == 0 && x.tag == 7) = some j ∧ Claims.allSupplied (joinSt [part 0, part 1]) j ∧
      (j.parts.map (fun p => (p.core, p.op))).Nodup ∧
      roleOp (joinSt [part 0, part 1]) j ((joinOp 1).shape.role / (joinOp 1).shape.gc * (joinOp 1).shape.gc) = some (0, joinOp 0) ∧
      roleOp (joinSt [part 0, part 1]) j ((joinOp 1).shape.role % (joinOp 1).shape.gc) = some (1, joinOp 1) := by
  refine ⟨by decide +kernel, ⟨part 0, [part 1], joinOp 0, rfl, by decide +kernel, ?_⟩, by decide +kernel, by decide +kernel, by decide +kernel⟩
  have h : (joinOp 0).shape.jcount = 2 := by decide +kernel
  rw [h]
  intro r hr
  rcases (by omega : r = 0 ∨ r = 1) with rfl | rfl
  · exact ⟨part 0, List.mem_cons_self, rfl, rfl⟩
  · exact ⟨part 1, List.mem_cons_of_mem _ List.mem_cons_self, rfl, rfl⟩

theorem witness_MatrixEvents_abandon :
    let s := joinSt [part 0]
    let j : Join := { pour := 0, tag := 7, parts := [part 0] }
    let c := getCtx s (joinOp 0).key
    s.joins.find? (fun x => x.pour == 0 && x.tag == 7) = some j ∧ (getCore s (part 0).core).mq = [joinOp 0] ∧ (joinOp 0).id = (part 0).op ∧
      (joinOp 0).shape.jcount = 2 ∧ (∀ r < 1, (part 0).role = r ∧ (part 0).supplied = true) ∧
      ¬ ((part 0).role = 1 ∧ (part 0).supplied = true) ∧ c.key = (joinOp 0).key ∧ c.st ≠ .free ∧
      c.st ≠ .waiting (.matrixOp (joinOp 0).id) ∧ c.mopAt = none ∧ c.inh = false := by decide +kernel

/-! Frame closes -/

def closeOf (todo : List (List Nat)) (d : List LRec) (m : Lcb) : Close :=
  { tenant := 0, key := 0, lcb := m, todo := todo, decided := d }
def closeSt (c : Close) : State := { waitSt (.lframe 3) live with closes := [c], args := { a := 0, b := 1 } }

theorem witness_CloseEvents_process : (closeSt (closeOf [[], [1, 5], []] [] lcb)).closes.find? (fun x => x.tenant == 0) =
      some (closeOf [[], [1, 5], []] [] lcb) ∧ (closeOf [[], [1, 5], []] [] lcb).todo[1]? = some [1, 5] ∧
    findLayer (closeSt (closeOf [[], [1, 5], []] [] lcb)) 0 1 = some (layer 1) ∧
    findLayer (closeSt (closeOf [[], [5], []] [] lcb)) 0 5 = none ∧ (closeOf [[], [1, 5], []] [] lcb).paused = false ∧
    (getCtx (closeSt (closeOf [[], [1, 5], []] [] lcb)) 0).stepping = false ∧ (∃ l ∈ (closeOf [[], [1, 5], []] [] lcb).todo, l ≠ []) := by
  decide +kernel

def aRec : LRec := { id := 1, frame := 1, err := 0x3F80_0000, age := 1, d := 0, h := 0 }

def urPage {α : Type} : URes α → Option Nat
  | .page a => some a
  | _ => none
theorem page_of {α : Type} {x : URes α} {a : Nat} (h : urPage x = some a) : x = .page a := by cases x <;> cases h; rfl
def urError {α : Type} : URes α → Option (BitVec 8 × Nat)
  | .error c a => some (c, a)
  | _ => none
theorem error_of {α : Type} {x : URes α} {c : BitVec 8} {a : Nat} (h : urError x = some (c, a)) : x = .error c a := by
  cases x <;> cases h; rfl

/-- With no request ring a record is dropped and counted; a ring at 0x20000 is not mapped; one at 0x3000 lies in a bad block. -/
theorem witness_CloseEvents_posts : ∃ n s1 s2,
    postAll (closeOf [] [aRec] lcb) (sortBy LRec.id [aRec]) (closeSt (closeOf [] [aRec] lcb)) = .ok n s1 ∧
    writeBackAll 0 lcb 0 (sortBy id (closeOf [] [aRec] lcb).processed) s1 = .ok () s2 ∧
    (∀ l ∈ (closeOf [[], []] [] lcb).todo, l = []) ∧ (closeOf [[], []] [] lcb).decided = [] ∧ (closeOf [[], []] [] lcb).processed = [] := by
  obtain ⟨n, h⟩ := ur_eq (x := postAll (closeOf [] [aRec] lcb) (sortBy LRec.id [aRec]) (closeSt (closeOf [] [aRec] lcb))) (by decide +kernel)
  exact ⟨n, _, _, h, rfl, by decide +kernel⟩

theorem witness_CloseEvents_page : ∃ a,
    postAll (closeOf [] [aRec] { lcb with ring := 0x20000 }) (sortBy LRec.id [aRec]) (closeSt (closeOf [] [aRec] { lcb with ring := 0x20000 })) = .page a :=
  ⟨_, page_of (a := 0x20000) (by decide +kernel)⟩

def badClose : Close := closeOf [] [aRec] { lcb with ring := 0x3000 }
def badCloseSt : State :=
  { closeSt badClose with bad := [(progPage + 0x3000) / 256] }

theorem witness_CloseEvents_error : ∃ e a, postAll badClose (sortBy LRec.id [aRec]) badCloseSt = .error e a ∧
    badCloseSt.cx.key = badClose.key ∧ badCloseSt.cx.st = .waiting (.lframe 3) ∧ (badClose.undone badCloseSt).cx = badCloseSt.cx ∧
    (∀ l ∈ badClose.todo, l = []) ∧ badClose.paused = false :=
  ⟨_, _, error_of (c := 0x15) (a := 0x3000) (by decide +kernel), by decide +kernel⟩

/-! The part by itself, and the host -/

def onWord (a : Nat) (w : BitVec 256) (s : State) : State := { s with args := { a := a, word := w } }

/-- LSPLIT 8 and 9; a matrix operation whose ring ends above the smaller scratchpad. -/
def highOp : State :=
  let s := setRing st 0 1 { base := 1408 * 1024 - 512, slog := 8, count := 2 }
  core0 (fun c => { c with mq := [{ mop .mma 0 (shapeIn 0x400) with qa := 1, qb := 1 }] }) s

theorem witness_PartEvents_lsplit : 8 < ((onWord 0 9 st).args.word.setWidth 64 &&& (0xF : Word)).toNat ∧
    ((onWord 0 8 st).args.word.setWidth 64 &&& (0xF : Word)).toNat ≤ 8 ∧
    opsAbove st 0 (scratchSize { getCore st 0 with lsplit := 8 }) = false ∧
    opsAbove highOp 0 (scratchSize { getCore highOp 0 with lsplit := 8 }) = true := by decide +kernel

/-- Thresholds 257, 256 and 0, the last with the enable bit. -/
theorem witness_PartEvents_txwake :
    let v (x : Nat) : Word := (BitVec.ofNat 64 x) &&& 0xFFFE_FFFF_FFFF_FFFC
    256 < (v (257 * 2 ^ 49)).toNat / 2 ^ 49 % 2 ^ 9 ∧ (v (256 * 2 ^ 49 + 2 ^ 59)).toNat / 2 ^ 49 % 2 ^ 9 = 256 ∧
    (v (2 ^ 59)).getLsbD 59 = true ∧ (v (2 ^ 59)).toNat / 2 ^ 49 % 2 ^ 9 = 0 := by decide +kernel

theorem witness_PartEvents_duty : ∃ l : List Byte, l.length = 1536 + 96 ∧ ∀ d ∈ l.take 1536, 1 ≤ d.toNat ∧ d.toNat ≤ 16 := by
  refine ⟨List.replicate 1632 16, by rw [List.length_replicate], fun d hd => ?_⟩
  rw [(List.mem_replicate.mp (List.mem_of_mem_take hd)).2]
  decide

theorem witness_PartEvents_stack : (onA 11 st).args.a < 12 ∧ (onA 11 st).phase = 1 ∧ st.trained.length ≠ 12 ∧
    (List.range 12).length = 12 ∧ ({ st with phase := 2 } : State).phase ≠ 1 ∧ (onA 0 st).args.flag = false ∧
    ({ st with args := { flag := true } } : State).args.flag = true := by decide +kernel

/-- Core 4 is idle, core 0 is not; core 4 is off and a context comes to it. -/
theorem witness_PartEvents_power : Claims.idleCore st 4 ∧ ¬ Claims.idleCore st 0 ∧ (getCore st 4).powered = true ∧
    (let s := updCore { st with net := [{ id := 1, src := 0, who := 0, dst := 4, body := .migrate 0 }] } 4 (fun c => { c with powered := false })
     (getCore s 4).powered = false ∧ ∃ p ∈ s.net, p.dst = 4 ∧ ∃ key, p.body = .migrate key) := by
  refine ⟨by unfold Claims.idleCore; decide +kernel, by unfold Claims.idleCore; decide +kernel, by decide +kernel, by decide +kernel,
    _, List.mem_cons_self, rfl, 0, rfl⟩

/-- The frame table at 0x100 0000 0000 with an entry for frame 0 (R147), whose mapping entry at 0x100 0000 1000 has A set or clear. -/
def frameSt (entry pte : Nat) : State :=
  { State.reset with
    mem := wrBytes (wrBytes [] 0x100_0000_0000 (bytesOfNat 8 entry)) 0x100_0000_1000 (bytesOfNat 8 pte)
    frameTable := 0x100_0000_0000, coldQueue := 0x100_0000_2000, watermark := 1 }

theorem entryOpen_of {s : State} {a : Nat} (h : (backed a && backed (a + 7) && !(s.phase != 2 && decide (a < 0x90_0000_0000))) = true) :
    Claims.entryOpen s a := by
  unfold Claims.entryOpen
  simp only [Bool.and_eq_true, Bool.not_eq_true', Bool.and_eq_false_iff, bne_eq_false_iff_eq, decide_eq_false_iff_not] at h
  obtain ⟨⟨h1, h2⟩, h3⟩ := h
  exact ⟨h1, h2, fun h => h3.elim (fun e => h.1 e) (fun e => e h.2)⟩

theorem sweeps_frameSt (entry pte : Nat) (h : frameSt entry pte = frameSt 0x100_0000_1000 5 ∨ frameSt entry pte = frameSt 0x100_0000_1000 1) :
    Claims.sweeps (frameSt entry pte) ∧ Claims.entryOpen (frameSt entry pte) (Claims.sweepAt (frameSt entry pte)) ∧
      ¬ Claims.passedOver (frameSt entry pte) ∧ Claims.entryOpen (frameSt entry pte) (Claims.sweepPte (frameSt entry pte)) := by
  rcases h with h | h <;> rw [h] <;>
    exact ⟨⟨entryOpen_of (by decide +kernel), entryOpen_of (by decide +kernel), by decide +kernel⟩, entryOpen_of (by decide +kernel),
      by unfold Claims.passedOver; decide +kernel, entryOpen_of (by decide +kernel)⟩

/-- A frame whose A bit is set; one whose A bit is clear, that the queue has room for; frames that are passed over. -/
theorem witness_PartEvents_sweep :
    (rdN (frameSt 0x100_0000_1000 5).mem (Claims.sweepPte (frameSt 0x100_0000_1000 5)) 8).testBit 2 = true ∧
    (rdN (frameSt 0x100_0000_1000 1).mem (Claims.sweepPte (frameSt 0x100_0000_1000 1)) 8).testBit 2 = false ∧
    Claims.entryOpen (frameSt 0x100_0000_1000 1) (Claims.coldPlace (frameSt 0x100_0000_1000 1)) ∧
    (∀ x ∈ [0x100_0000_1001, 0, 0x100_0000_1002, 0x7000_0000_0000, 2 ^ 48 + 0x100_0000_1000], Claims.passedOver (frameSt x 1)) ∧
    ¬ Claims.sweeps { frameSt 0 1 with watermark := 0 } ∧
    backed (Claims.sweepAt { frameSt 0 1 with frameTable := 0x7000_0000_0000 }) = false := by
  refine ⟨by decide +kernel, by decide +kernel, entryOpen_of (by decide +kernel), by unfold Claims.passedOver; decide +kernel, ?_, by decide +kernel⟩
  rintro ⟨-, -, h⟩
  exact absurd h (by decide +kernel)

theorem witness_PartEvents_reset : (1 ≤ 16 ∧ 16 ≤ 16 ∧ 15 < 16) ∧ ¬ (17 ≤ 16) ∧ ¬ (16 < 16) ∧
    ({ st with trained := List.range 12 } : State).trained.length = 12 ∧
    st.lateFaults = [] ∧ st.lateFails = [] ∧ st.lateLcb = [] := by decide +kernel

/-! The host -/

theorem witness_HostCommands_phase : Claims.hostCommand .mread = true ∧ Claims.hostCommand .cupDeps = true ∧
    ({ st with phase := 0 } : State).phase = 0 ∧ st.phase ≠ 0 ∧ st.hostWait = [] ∧
    ({ st with hostWait := [.event .tget {}] } : State).hostWait ≠ [] := by decide +kernel

/-- A length of 4096 up to the end of the space, and one past it; a mapped word, a page that is not mapped, a bad block. -/
theorem witness_HostCommands_memory : (∃ l s1, gread st 0 0x40 8 = .ok l s1) ∧ (∃ s1, gwrite st 0 0x40 [1, 2] 3 7 = .ok s1) ∧
    ¬ (16 ≤ 15 ∨ 4096 = 0 ∨ 4096 < 4096 ∨ 2 ^ 48 < (2 ^ 48 - 4096) + 4096) ∧ (2 ^ 48 < (2 ^ 48 - 4095) + 4096) :=
  ⟨⟨_, _, gr_eq (l := List.replicate 8 0) (by decide +kernel)⟩, ⟨_, gw_eq (by decide +kernel)⟩, by decide, by decide⟩

def grError : GRead → Option (BitVec 8 × Nat)
  | .error c a => some (c, a)
  | _ => none
theorem gr_error {x : GRead} {c : BitVec 8} {a : Nat} (h : grError x = some (c, a)) : x = .error c a := by cases x <;> cases h; rfl
def gwPage : GWrite → Option Nat
  | .page a => some a
  | _ => none
theorem gw_page {x : GWrite} {a : Nat} (h : gwPage x = some a) : x = .page a := by cases x <;> cases h; rfl

theorem witness_HostCommands_faults : gread st 0 0x20000 8 = .page 0x20000 ∧
    gread { st with bad := [(progPage + 0x3000) / 256] } 0 0x3000 8 = .error 0x15 0x3000 ∧
    gwrite st 0 0x20000 [1] 3 7 = .page 0x20000 :=
  ⟨gr_page (by decide +kernel), gr_error (by decide +kernel), gw_page (by decide +kernel)⟩

/-- A page of the tenant that stands in HBM4E: in reduced service a read, a write and the reset of an LCB wait. -/
def hbmSt : State :=
  updTenant { st with phase := 1, tlb := (List.range 96).map (fun c =>
    { cluster := c, tenant := 0, level := 16, vbase := 0, pbase := 0x1_0000, writable := true, dirty := true }) } 0
    (fun t => { t with lcb := 0x1000 })

def grWaits : GRead → Bool
  | .wait => true
  | _ => false
theorem gr_waits {x : GRead} (h : grWaits x = true) : x = .wait := by cases x <;> first | rfl | cases h
def gwWaits : GWrite → Bool
  | .wait => true
  | _ => false
theorem gw_waits {x : GWrite} (h : gwWaits x = true) : x = .wait := by cases x <;> first | rfl | cases h

theorem witness_HostCommands_waits : gread hbmSt 0 0x40 8 = .wait ∧ gwrite hbmSt 0 0x40 [1] 3 7 = .wait ∧
    Claims.lcbPut hbmSt 0 0x1000 12 Claims.lcbFresh = .wait ∧ (getTenant hbmSt 0).lcb ≠ 0 ∧
    (∃ s1 s2, Claims.lcbPut st 0 0x1000 12 Claims.lcbFresh = .ok s1 ∧ Claims.lcbPut s1 0 0x1000 96 [0, 0, 0, 0] = .ok s2) :=
  ⟨gr_waits (by decide +kernel), gw_waits (by decide +kernel), gw_waits (by decide +kernel), by decide +kernel,
    ⟨_, _, gw_eq (by decide +kernel), gw_eq (by decide +kernel)⟩⟩

/-- A decrement of the host for kettle 5 of core 0, owned or not, and one for another device. -/
theorem witness_HostCommands_kmsg :
    (let w := dest 5 1
     let s := onWord 0 (w.setWidth 256) (kettle 5 1 false 0 st)
     Claims.hostKettle s 0 w ∧ dwDev w = 0 ∧ kettleTenant s 0 5 = some 0 ∧ isAnnounce 0 5 = false ∧ logging s 0 = false ∧
       kettleTenant (onWord 0 (w.setWidth 256) st) 0 5 ≠ some 0 ∧ Claims.hostKettle (onWord 0 (w.setWidth 256) st) 0 w) ∧
    (let w := dest 224 1
     let s := onWord 0 (w.setWidth 256) (updTenant st 0 (fun t => { t with enabled := true, queues := [(0, { base := 0x8000, slots := 4 })] }))
     Claims.hostKettle s 0 w ∧ isAnnounce (dwCore w) (dwKet w) = true ∧ kettleTenant s (dwCore w) (dwKet w) = some 0 ∧
       (tgetD (getTenant s 0).queues 0 {}).base ≠ 0 ∧ (getTenant s 0).enabled = true) ∧
    dwOk st 0 = false ∧ 2 ^ 64 ≤ (BitVec.ofNat 256 (2 ^ 64)).toNat := by
  unfold Claims.hostKettle
  decide +kernel

theorem witness_HostCommands_kmsg_device :
    let w : Word := dest 5 1 + 2 ^ 27
    let s := onWord 0 (w.setWidth 256) { st with ndev := 2 }
    Claims.hostKettle s 0 w ∧ dwDev w ≠ 0 := by
  unfold Claims.hostKettle
  decide +kernel

/-- A slice of 1000000 with ENABLE, and one of 0; a root that is aligned, and one that is not. -/
theorem witness_HostCommands_descriptor :
    Claims.descLimits {} 0 (BitVec.ofNat 64 (1 + 1000000 * 2 ^ 32)) ∧ ¬ Claims.descLimits {} 0 1 ∧ Claims.descLimits {} 8 0x1000 ∧
    ¬ Claims.descLimits {} 8 0x800 ∧ Claims.descLimits {} 72 5 ∧ ¬ Claims.descLimits { enabled := true } 72 5 ∧
    Claims.descLimits {} 88 0x10000 ∧ ¬ Claims.descLimits {} 80 0x40 ∧ Claims.descLimits {} 208 0x40000000 ∧
    ¬ Claims.descLimits {} 504 1 := by
  simp +decide [Claims.descLimits]

theorem witness_HostCommands_inval : (onWord 15 (BitVec.ofNat 256 (2 ^ 96 - 1)) st).args.word.toNat < 2 ^ 96 ∧
    2 ^ 96 ≤ (onWord 15 (BitVec.ofNat 256 (2 ^ 96)) st).args.word.toNat ∧ (getTenant st 0).lcb = 0 ∧
    (∀ p ∈ st.pours, p.tenant ≠ 1) ∧ st.phase < 256 := by decide +kernel

/-! Stopped pours and the debugger -/

/-- A pour of one core with its recorded state: context 0, and the core with a ring, a kettle and a matrix operation. -/
def dbgCtx (stopped : Bool) : Ctx := { st.cx with stopped := stopped, s := vset st.cx.s 1 7, tcause := 2 }
def dbgImg (stopped : Bool) : Image :=
  { ctxs := [dbgCtx stopped], cores := [(0, { rings := [(1, ringOne)], mq := [mop .mma 0 0] })], cells := [] }
def dbgPour (ps : PourSt) (stopped : Bool) : Pour := { oneCore with st := ps, image := some (dbgImg stopped) }
def dbgSt (p : Pour) : State := { st with pours := [p], args := { a := 0, b := 0, c := 0, d := 0 } }

theorem onImage_dbgSt (ps : PourSt) (b : Bool) : Claims.onImage (dbgSt (dbgPour ps b)) (dbgPour ps b) (dbgImg b) := by
  refine ⟨⟨by change (1 : Nat) ≠ 0; decide, rfl, ?_⟩, rfl⟩
  cases ps <;> cases b <;> rfl

theorem witness_PourAndCuppingActs_named : (∀ ps : PourSt, Claims.named (dbgSt { oneCore with st := ps }) { oneCore with st := ps }) ∧
    findPour (dbgSt oneCore) oneCore.id = some oneCore ∧ (∀ c ∈ (dbgSt oneCore).cuts, c.pour ≠ oneCore.id) ∧
    argPour (dbgSt { oneCore with idx := 1 }) = none ∧ oneCore.image = none ∧
    (∃ b, findBrew { dbgSt oneCore with brews := [brewA] } oneCore.tenant oneCore.brew = some b) := by
  refine ⟨fun ps => ⟨by change (1 : Nat) ≠ 0; decide, rfl, ?_⟩, rfl, by decide, rfl, rfl, ⟨brewA, rfl⟩⟩
  cases ps <;> rfl

/-- The operands name pour 0 of a brew of which none was placed; or pour 1, which it has not. -/
def unplacedSt (idx : Nat) : State := { wantSt [] with phase := 1, args := { c := idx } }

theorem witness_PourAndCuppingActs_unplaced : Claims.unnamed (unplacedSt 0) ∧ Claims.unplaced (unplacedSt 0) brewA ∧
    (∀ q ∈ (unplacedSt 0).pours, q.id ≠ (unplacedSt 0).nextId) ∧ (unplacedSt 0).cores = [] ∧
    (∀ c ∈ allCtxs { unplacedSt 0 with nextId := 5 }, c.pour ≠ 5) ∧ Claims.unnamed (unplacedSt 1) ∧
    (∀ b, ¬ Claims.unplaced (unplacedSt 1) b) := by
  refine ⟨by unfold Claims.unnamed; decide +kernel, by unfold Claims.unplaced; decide +kernel, by decide +kernel, rfl,
    by decide +kernel, by unfold Claims.unnamed; decide +kernel, ?_⟩
  rintro b ⟨h1, h2, h3, -⟩
  have hb : findBrew (unplacedSt 1) 0 0 = some brewA := by decide +kernel
  rw [show findBrew (unplacedSt 1) (unplacedSt 1).args.a (unplacedSt 1).args.b = some brewA from hb] at h1
  obtain rfl := Option.some.inj h1
  exact absurd h3 (by decide +kernel)

def ckA (stored : Bool) : Ckpt := { tenant := 0, brew := 0, idx := 0, image := {}, saves := [], dests := [], stored := stored }

theorem witness_PourAndCuppingActs_image : (∀ ps b, Claims.onImage (dbgSt (dbgPour ps b)) (dbgPour ps b) (dbgImg b)) ∧
    tget [(0, ckA true)] (dbgSt oneCore).args.d = some (ckA true) ∧ tget [(0, ckA false)] (dbgSt oneCore).args.d = some (ckA false) ∧
    tget (dbgSt oneCore).ckpts (dbgSt oneCore).args.d = none :=
  ⟨onImage_dbgSt, rfl, rfl, rfl⟩

/-- The operand word of a piece: value, class, index. -/
def pieceSt (cls i : Nat) (x : Nat) (p : Pour) : State :=
  { dbgSt p with args := { d := 0, word := BitVec.ofNat 256 (x + cls * 2 ^ 64 + i * 2 ^ 80) } }

theorem witness_PourAndCuppingActs_piece : Claims.recorded (dbgImg true) 0 (dbgCtx true) ∧
    (∀ x ∈ [(0, 31), (1, 7), (2, 511), (3, 0), (4, 0x103), (4, 5), (5, 14), (6, 8), (8, 0), (9, 0)],
      Claims.pieceAt (pieceSt x.1 x.2 0x1234 (dbgPour .stopped true)) 0 x.1 x.2 0x1234) ∧
    (2 ^ 48 ≤ (0x1_0000_0000_0000 : Word).toNat ∧ (0x402 : Word).toNat % 4 ≠ 0 ∧ (0x400 : Word).toNat % 4 = 0) ∧
    (vget (dbgCtx true).g 7 {}).kind ≠ 3 := by
  refine ⟨rfl, ?_, by decide, by decide +kernel⟩
  unfold Claims.pieceAt
  decide +kernel

/-- A word and two bytes of data go to 0x40 and 0x80; a record goes to the queue at 0x8000. -/
def loadSt : State := { st with args := { a := 0, b := 0x40, c := 0x80, d := 4, bytes := [1, 2, 3, 4, 5, 6] } }
def launchSt : State :=
  updTenant { st with args := { bytes := bytesOfNat 64 recA.toNat } } 0
    (fun t => { t with queues := [(0, { base := 0x8000, slots := 4, kept := 3 })] })

theorem witness_PourAndCuppingActs_load : ∃ s1 s2, loadSt.args.a < 16 ∧ loadSt.args.b + loadSt.args.d ≤ 2 ^ 48 ∧
    loadSt.args.c + loadSt.args.bytes.length ≤ 2 ^ 48 ∧
    gwrite loadSt loadSt.args.a loadSt.args.b (loadSt.args.bytes.take loadSt.args.d) 3 7 = .ok s1 ∧
    gwrite s1 loadSt.args.a loadSt.args.c (loadSt.args.bytes.drop loadSt.args.d) 3 7 = .ok s2 :=
  ⟨_, _, by decide, by decide, by decide, gw_eq (by decide +kernel), gw_eq (by decide +kernel)⟩

theorem witness_PourAndCuppingActs_breaks : vget st.breaks 0 none = none ∧
    (let s := { st with breaks := vset st.breaks 0 (some 8) }
     vget s.breaks 1 none = none ∧ vget s.breaks 0 none ≠ none) ∧
    (∀ j < 4, vget (Vector.replicate 4 (some (8 : Addr))) j none ≠ none) := by decide +kernel

theorem witness_PourAndCuppingActs_launch : ∃ u s1, tgetD (getTenant launchSt 0).queues 0 {} = u ∧ u.base ≠ 0 ∧ u.kept < u.slots ∧
    launchSt.args.bytes.length = 64 ∧
    gwrite launchSt 0 (u.base.toNat + 64 * ((u.next + u.kept) % u.slots)) launchSt.args.bytes 3 7 = .ok s1 ∧
    (tgetD (getTenant st 0).queues 0 {}).base = 0 :=
  ⟨{ base := 0x8000, slots := 4, kept := 3 }, _, by decide +kernel, by decide, by decide, by decide +kernel, gw_eq (by decide +kernel),
    by decide +kernel⟩

/-! What the debugger reads -/

theorem witness_CuppingReads_stop : Claims.stopAt (dbgImg true) 0 ∧ Claims.stopAt (dbgImg false) 0 ∧
    Claims.recorded (dbgImg true) (keyOf 0 0) (dbgCtx true) ∧
    (∃ x, (dbgImg true).cores.find? (fun k => k.1 == 0) = some x ∧ x.2.mq[0]? = some (mop .mma 0 0)) ∧
    csrKnown 0x103 = true ∧ csrKnown 0x104 = false ∧ (∃ x ∈ (dbgImg true).cores, x.1 = 0) ∧
    (∀ c ∈ (dbgImg true).ctxs, c.key ≠ 7) := by
  refine ⟨.inl ⟨_, List.mem_cons_self, rfl, by decide +kernel, by decide +kernel⟩, .inr (by decide +kernel), rfl,
    ⟨_, rfl, by decide +kernel⟩, by decide +kernel, by decide +kernel, by decide +kernel, by decide +kernel⟩

theorem witness_CuppingReads_examine : ∃ l s1, (vget (dbgCtx true).g 0 {}).kind = 0 ∧
    gread (dbgSt (dbgPour .stopped true)) 0 (((vget (dbgCtx true).g 0 {}).base.toNat + 0x40) % 2 ^ 48) (4 * 2) = .ok l s1 :=
  ⟨List.replicate 8 0, _, by decide +kernel, gr_eq (by decide +kernel)⟩

theorem witness_CuppingReads_fill : ∃ l s1,
    (∀ r ∈ (getTenant st 0).ranges, 0x4000 < r.2.base ∨ r.2.base + r.2.len ≤ 0x4000) ∧ rangeAt ranged 0 0x4000 = some (0, rangeA) ∧
    gread ranged 0 (rangeA.state + (0x4000 - rangeA.base) / 2 ^ rangeA.blog / 4) 1 = .ok l s1 :=
  ⟨[0], _, by decide +kernel, by decide +kernel, gr_eq (by decide +kernel)⟩

theorem witness_CuppingReads_layer : ∃ l, live.layers.find? (fun x => x.tenant == 0 && x.id == 1) = some l ∧
    let off : Layer := { layer 1 with deps := Vector.replicate 4 { caster := 0xFFFF_FFFF, weight := 0, x := 0, y := 0 } }
    ∀ i < 4, (off.deps.toList.getD i {caster := 0, weight := 0, x := 0, y := 0}).caster = 0xFFFF_FFFF :=
  ⟨layer 1, by decide +kernel, by decide +kernel⟩

/-- A generator and a requester of a block: in the state, and in a pour's recorded state. -/
theorem witness_CuppingReads_asks : Claims.asks { filling with fills := [{ tenant := 0, range := 0, block := 0, depth := 1, reqs := [.ctx 7] }] } 0 0 0 7 ∧
    Claims.asks { filling with
      fills := [{ tenant := 0, range := 0, block := 0, depth := 1, reqs := [.copy 0 3] }]
      pours := [{ oneCore with image := some { cores := [(0, { cq := [{ goodCopy with id := 3, key := 7 }] })] } }] } 0 0 0 7 ∧
    Claims.generates holder 0 0 0 holder.cx ∧
    Claims.generates { st with pours := [{ oneCore with image := some { ctxs := [holder.cx] } }] } 0 0 0 holder.cx := by
  have h : holder.cx.gen = some { tenant := 0, range := 0, block := 0, depth := 1 } := by decide +kernel
  refine ⟨⟨_, List.mem_cons_self, rfl, rfl, rfl, _, List.mem_cons_self, rfl⟩,
    ⟨_, List.mem_cons_self, rfl, rfl, rfl, _, List.mem_cons_self, by decide +kernel⟩,
    ⟨.inl ?_, _, h, rfl, rfl, rfl⟩, ⟨.inr ⟨_, List.mem_cons_self, rfl, _, rfl, List.mem_cons_self⟩, _, h, rfl, rfl, rfl⟩⟩
  unfold allCtxs
  exact List.mem_cons_self

/-- Every pour of a brew has retired; its segment 0 is GLOBAL. -/
theorem witness_CuppingReads_retired :
    let s : State := { st with pours := [], brews := [{ brewA with nextIdx := 1, retired := 1 }], args := { word := BitVec.ofNat 256 (0x40 + 2 * 2 ^ 64) } }
    Claims.unnamed s ∧ findBrew s s.args.a s.args.b = some { brewA with nextIdx := 1, retired := 1 } ∧ brewA.count = 1 ∧ brewA.retired ≠ brewA.count ∧
      (vget brewA.segs 0 {}).kind = 0 ∧ s.args.word.toNat / 2 ^ 64 % 2 ^ 16 = 2 ∧
      (∃ l s1, gread s 0 (((vget brewA.segs 0 {}).base.toNat + s.args.word.toNat % 2 ^ 64) % 2 ^ 48) (4 * 2) = .ok l s1) := by
  refine ⟨by unfold Claims.unnamed; decide +kernel, by decide +kernel, by decide +kernel, by decide +kernel, by decide +kernel, by decide +kernel,
    List.replicate 8 0, _, gr_eq (by decide +kernel)⟩

/-- Layer 3 is not live; the LCB gives table and CAP. -/
theorem witness_CuppingReads_table : (∀ x ∈ live.layers, ¬ (x.tenant = 0 ∧ x.id = 3)) ∧ (getTenant live 0).lcb.toNat ≠ 0 ∧
    (∃ s1, gread live 0 0x1000 16 = .ok (lcbBytes.take 16) s1) ∧ natOfBytes (lcbBytes.take 8) = 0x2000 ∧
    natOfBytes ((lcbBytes.drop 8).take 4) = 8 ∧ (∃ s2, gread live 0 (0x2000 + 256 * 3) 256 = .ok (layerBytes 3) s2) ∧
    (getTenant st 0).lcb.toNat = 0 :=
  ⟨by decide +kernel, by decide +kernel, ⟨_, gr_eq (by decide +kernel)⟩, by decide +kernel, by decide +kernel, ⟨_, gr_eq (by decide +kernel)⟩,
    by decide +kernel⟩

/-! Invariants -/

def outNext : Out → Bool
  | .next _ => true
  | _ => false
def outState : Out → State
  | .next s => s
  | _ => State.reset
theorem out_eq {x : Out} (h : outNext x = true) : x = .next (outState x) := by cases x <;> first | rfl | cases h
theorem witness_StepKeepsMemory : ∃ s s', Memory.wf s.mem = true ∧ step s = .next s' :=
  ⟨stepSt 0x44000000, _, by decide +kernel, out_eq (by decide +kernel)⟩

/-! Values the spec works out by hand -/

/-- The words of "Worked encodings" (the chapter of R93). -/
theorem test_worked_words : ([
    (0x2093_FFFC, .core (.bnz 4 0x3FFFC)), (0x4405_1080, .core (.csrw 5 2 0)), (0x6000_000D, .core (.fence .dev .rel)),
    (0x8048_D068, .core (.vfma 1 2 3 2 .f32 .rmode)),
    (0x5064_281C, .core (.aadd 3 4 5 .ar true)), (0xA509_52C1, .core (.copy 8 9 10 11 .cvt)),
    (0xC123_3830, .core (.mma 1 2 3 7 false false true true false false false false))] : List (W32 × Code)).all (fun x => readsWord x.1 x.2) = true := by decide +kernel

/-- The worked word of VADD.F8.E5M2.RNE is encoded so; VADD does not round E5M2, so it traps 0x01 (R110, R218). -/
theorem test_worked_e5m2 : encode (.vadd 4 5 6 0 .e5m2 .rne) = 0x8115_841D ∧ refusesWord 0x8115_841D .typeBits = true := by decide +kernel

def narrow (f : Fmt) (rm : RM) (sat : Bool) (v : FVal) : Nat × Flags :=
  ((fit f { rm := rm, sat := sat } v).bits, (fit f { rm := rm, sat := sat } v).flags)

/-- The table "Conversions at the edges of the narrow formats". -/
theorem test_narrow_e4m3 :
    narrow .e4m3 .rne true (.fin false 460 0) = (0x7E, fNX) ∧ narrow .e4m3 .rne true (.fin false 464 0) = (0x7E, fNX) ∧
    narrow .e4m3 .rne true (.fin false 470 0) = (0x7E, fOF ||| fNX ||| fSH) ∧
    narrow .e4m3 .rne false (.fin false 470 0) = (0x7F, fOF ||| fNX) ∧
    narrow .e4m3 .rtz false (.fin false 500 0) = (0x7E, fOF ||| fNX) ∧
    narrow .e4m3 .rne true (.fin false 1 (-10)) = (0, fNX ||| fUF) ∧ narrow .e4m3 .rne true (.fin false 3 (-11)) = (1, fNX ||| fUF) ∧
    narrow .e4m3 .rne false (.inf false) = (0x7F, fSH) := by decide +kernel

theorem test_narrow_others :
    narrow .e5m2 .rne true (.fin false 61440 0) = (0x7B, fOF ||| fNX ||| fSH) ∧
    narrow .e5m2 .rne false (.fin false 61440 0) = (0x7C, fOF ||| fNX) ∧
    (∀ sat ∈ [true, false], narrow .e2m1 .rne sat (.fin false 5 0) = (6, fNX) ∧
      narrow .e2m1 .rne sat (.fin false 7 0) = (7, fOF ||| fNX ||| fSH) ∧ narrow .e2m1 .rne sat (.fin false 1 (-2)) = (0, fNX ||| fUF) ∧
      narrow .e2m1 .rne sat .nan = (0, fNV)) := by decide +kernel

/-- "A TS8 product by shift and add". -/
theorem test_ts8 : eqV (ts8Value 0x0B) (.fin false 7 (-3)) = true ∧ eqV (Fmt.e4m3.value 0x55) (.fin false 13 0) = true ∧
    eqV (mulV (ts8Value 0x0B) (Fmt.e4m3.value 0x55)) (.fin false 91 (-3)) = true ∧ eqV (ts8Value 0) (.fin false 2 0) = true ∧
    eqV (ts8Value 0x88) (.fin true 2 0) = true ∧ (ts8Value 0x80).isZero = true ∧ (ts8Value 0xF7).isZero = true := by decide +kernel

/-- "An MX block whose scale sum leaves range": K = 32, all elements 1. -/
theorem test_mx_scales :
    let row (scale : Nat) := List.replicate 32 (scaled scale (Fmt.e4m3.value 0x38))
    (accElem .fp32 false false false (row 0xFE) (row 0x01) 0).bits = 0x4280_0000 ∧
    (accElem .fp32 false false false (row 0xFE) (row 0x01) 0).flags = 0 ∧
    (accElem .fp32 true false false (row 0xC1) (row 0xC1) 0).bits = 0x7F7F_FFFF ∧
    (accElem .fp32 true false false (row 0xC1) (row 0xC1) 0).flags = fSC ||| fOF ||| fNX ||| fSH ∧
    (accElem .fp32 false false false (row 0xC1) (row 0xC1) 0).bits = 0x7F80_0000 ∧
    (accElem .fp32 false false false (row 0xC1) (row 0xC1) 0).flags = fSC ||| fOF ||| fNX := by decide +kernel

/-- "Two contexts, one value, two roundings". -/
theorem test_bf16 : narrow .bf16 .rne true (Fmt.fp32.value 0x3F80_8000) = (0x3F80, fNX) ∧
    narrow .bf16 .rna true (Fmt.fp32.value 0x3F80_8000) = (0x3F81, fNX) := by decide +kernel

/-- "The generator stepped by hand". -/
theorem test_generator : (List.range 8).map (fun i => lfsrAfter i 1) = [0x0000_0001, 0x8020_0003, 0xC030_0002, 0x6018_0001,
      0xB02C_0003, 0xD836_0002, 0x6C1B_0001, 0xB62D_8003] ∧
    lfsrAfter 8 1 = 0xDB36_C002 ∧ lfsrBits 8 1 = [true, true, false, true, true, false, true, true] := by decide +kernel

/-- "A frame close worked through": layer 3 and caster 7. -/
def fbits (l : List Nat) : Nat := (l.zip (List.range l.length)).foldl (fun n x => n + x.1 * 2 ^ (32 * x.2)) 0
def placed (x y : Nat) : BitVec 384 := BitVec.ofNat 384 (fbits [0x3F80_0000, 0, 0, x, 0, 0x3F80_0000, 0, y, 0, 0, 0x3F80_0000, 0])
def unitView : BitVec 512 :=
  BitVec.ofNat 512 (fbits [0x3F80_0000, 0, 0, 0, 0, 0x3F80_0000, 0, 0, 0, 0, 0x3F80_0000, 0, 0, 0, 0, 0x3F80_0000])
def workedClose : Close :=
  { tenant := 0, key := 0, todo := [], lcb := { lcb with frame := 42, ka := 0x3F00_0000, kd := 0x4180_0000, view := unitView } }
def workedDeps : Vector Dep 4 :=
  vset (Vector.replicate 4 { caster := 0xFFFF_FFFF, weight := 0, x := 0, y := 0 }) 0
    { caster := 7, weight := 0x3F00_0000, x := 0x41F0_0000, y := 0x4220_0000 }
def workedLayer : Layer :=
  { layer 3 with
      w := 4, h := 4, price := 0x4100_0000, age := 1, holes := 16, samples := 64
      rpose := placed 0x4120_0000 0x41A0_0000, cpose := placed 0x4150_0000 0x4198_0000, deps := workedDeps }
def workedSt : State := { State.reset with layers := [workedLayer, { layer 7 with cpose := placed 0x4208_0000 0x4224_0000 }] }

theorem test_close :
    let x := processLayer workedClose workedLayer workedSt
    x.1.err = 0x4120_0000 ∧ x.1.age = 2 ∧ x.1.pending = true ∧ x.1.holes = 0 ∧
    x.2.map LRec.bytes = some ([0x03, 0, 0, 0, 0x2A, 0, 0, 0, 0, 0, 0x20, 0x41, 2, 0, 0, 0, 0, 0, 0x40, 0x40, 0, 0, 0x80, 0x3E] ++
      List.replicate 8 0) := by decide +kernel

/-- H = [[1, 0, -13], [0, 1, -19], [0, 0, 1]]. -/
theorem test_homography :
    let h := homography unitView workedLayer.cpose
    h.toNat % 2 ^ 32 = 0x3F80_0000 ∧ h.toNat / 2 ^ 64 % 2 ^ 32 = 0xC150_0000 ∧ h.toNat / 2 ^ 128 % 2 ^ 32 = 0x3F80_0000 ∧
    h.toNat / 2 ^ 160 % 2 ^ 32 = 0xC198_0000 ∧ h.toNat / 2 ^ 256 = 0x3F80_0000 := by decide +kernel

/-! Fetches that fail, absent pages, blocks to fill, steps that trap 0x0F -/

/-- The fetch fails with this cause. -/
def failsWith (s : State) (c : BitVec 8) : Bool :=
  decide ((s.cx.rg 3).kind = kSeed ∧ c = 0x05) || (decide ((s.cx.rg 3).kind ≠ kSeed) &&
    match segCheck (s.cx.rg 3) s.cx.pc.toNat 4 rightX false with
    | .error e => decide (c = e)
    | .ok (.win wa) => decide (winCheck s s.cx.pour s.cx.tenant.toNat wa 4 false = some c)
    | .ok (.glob va) => decide ((grError (gread s s.cx.tenant.toNat va 4)).map Prod.fst = some c))

theorem fetchTraps_of {s : State} {c : BitVec 8} (h : failsWith s c = true) : Claims.fetchTraps s c := by
  simp only [failsWith, Bool.or_eq_true, Bool.and_eq_true, decide_eq_true_eq] at h
  rcases h with h | ⟨h1, h2⟩
  · exact .inl h
  · refine .inr ⟨h1, ?_⟩
    revert h2
    cases segCheck (s.cx.rg 3) s.cx.pc.toNat 4 rightX false with
    | error e => intro h2; simpa using h2
    | ok t =>
      cases t with
      | win wa => intro h2; simpa using h2
      | glob va =>
        intro h2
        obtain ⟨x, hx, rfl⟩ := Option.map_eq_some_iff.mp (of_decide_eq_true h2)
        exact ⟨x.2, gr_error hx⟩

/-- The limit of g3 is 0x12 and the pc 0x10; g3 without X; a SEED segment; a bad block. -/
theorem witness_FetchFaults_traps :
    Claims.fetchTraps (seg 3 { whole 0 with limit := 0x12 } (updCx st (fun c => { c with pc := 0x10 }))) 0x04 ∧
    Claims.fetchTraps (seg 3 { whole 0 with rights := 0x3 } st) 0x05 ∧ Claims.fetchTraps (seg 3 (whole 2) st) 0x05 ∧
    Claims.fetchTraps { st with bad := [progPage / 256] } 0x15 ∧ Claims.fetchDue st ∧ st.cx.fetched = false := by
  refine ⟨fetchTraps_of (by decide +kernel), fetchTraps_of (by decide +kernel), fetchTraps_of (by decide +kernel),
    fetchTraps_of (by decide +kernel), ⟨by decide +kernel, .inl (by decide +kernel)⟩, by decide +kernel⟩

/-- Context 1 of core 0 beside a context 0 whose UPVEC is `up`; its pc lies in a page that is absent. -/
def helperAt (up : Word) : State :=
  let s := updCx st (fun c => { c with upvec := up })
  { s with cx := { s.cx with key := 1, pc := 0x20000 }, ctxs := [(0, s.cx)] }

theorem fetchPages_of {s : State} {va a : Nat} (h1 : (s.cx.rg 3).kind ≠ kSeed)
    (h2 : (match segCheck (s.cx.rg 3) s.cx.pc.toNat 4 rightX false with
      | .ok (.glob x) => decide (x = va)
      | _ => false) = true) (h3 : grPage a (gread s s.cx.tenant.toNat va 4) = true) : Claims.fetchPages s a := by
  refine ⟨h1, va, ?_, gr_page h3⟩
  revert h2
  cases segCheck (s.cx.rg 3) s.cx.pc.toNat 4 rightX false with
  | error e => intro h; simp at h
  | ok t =>
    cases t with
    | win wa => intro h; simp at h
    | glob x => intro h; simp only [decide_eq_true_eq] at h; rw [h]

theorem witness_FetchFaults_page : Claims.fetchPages (helperAt 0x100) 0x20000 ∧ homeIdx (helperAt 0x100).cx.key ≠ 0 ∧
    ¬ Claims.noHandler (helperAt 0x100) ∧ Claims.noHandler (helperAt 0) ∧ atHome (helperAt 0x100) ∧
    (∀ v ∈ (helperAt 0x100).saves, v.key ≠ (helperAt 0x100).cx.key) ∧
    Claims.fetchPages (updCx st (fun c => { c with pc := 0x20000 })) 0x20000 ∧ homeIdx st.cx.key = 0 := by
  refine ⟨fetchPages_of (va := 0x20000) (by decide +kernel) (by decide +kernel) (by decide +kernel), by decide +kernel,
    by unfold Claims.noHandler; decide +kernel, by unfold Claims.noHandler; decide +kernel, by unfold atHome; decide +kernel,
    by decide +kernel, fetchPages_of (va := 0x20000) (by decide +kernel) (by decide +kernel) (by decide +kernel), by decide +kernel⟩

/-- The pages of an access that ends at 0x10000 are there, the page after is not. -/
theorem witness_AccessFaults_page : absent st 0 false (blocksOf 0xFFF8 8) = none ∧
    absent st 0 true (blocksOf 0x10000 8) = some 0x10000 := by decide +kernel

/-- The fill table says of block 0 that it is Unfilled, Filling or Failed (R301). -/
theorem witness_AccessFaults_blocks : rangeAt ranged 0 0x4FF8 = some (0, rangeA) ∧ (0x4FF8 + 8 - 1) / 4096 = 0x4FF8 / 4096 ∧
    absent ranged 0 false (blocksOf 0x4FF8 8) = none ∧ ranged.cx.gen = none ∧
    (∃ s1 s2, gread ranged 0 0x2000 1 = .ok [0] s1 ∧ startFill s1 0 0 rangeA 0 1 [.ctx 0] 0 0 0 = .ok s2) ∧
    ∀ b ∈ [(1 : Byte), 3], grIs [b] (gread (written ranged (.glob 0x2000) [b] 0) 0 0x2000 1) = true :=
  ⟨by decide +kernel, by decide, by decide +kernel, by decide +kernel, ⟨_, _, gr_eq (by decide +kernel), gw_eq (by decide +kernel)⟩,
    by decide +kernel⟩

/-- A context that steps, with INH clear, at a word that completes. -/
theorem witness_StepRunsDecoded_steps : ∃ s : State, s.cx.stepping = true ∧ s.cx.inh = false ∧ ¬ unstepped s :=
  ⟨updCx st (fun c => { c with stepping := true }), by decide +kernel, by decide +kernel, by unfold unstepped; decide +kernel⟩

/-! Frame closes, splits and merges, a generator's deferred error -/

theorem witness_CloseEvents_pause : ∃ a, (let c : Close := { closeOf [] [aRec] { lcb with ring := 0x20000 } with key := 1 }
    postAll c (sortBy LRec.id [aRec]) { helperAt 0x100 with closes := [c], args := { a := 0 } } = .page a ∧ homeIdx c.key ≠ 0 ∧
      (getCtx (helperAt 0x100) (keyOf (homeCore c.key) 0)).upvec &&& offMask ≠ 0) :=
  ⟨_, page_of (a := 0x20000) (by decide +kernel), by decide +kernel, by decide +kernel⟩

def put (m : Lcb) (l : Layer) (live : Bool) (s : State) : State := gwState (gwrite s l.tenant (m.table.toNat + 256 * l.id) (l.bytes live) 3 s.cx.who)

theorem witness_LayerInstructions_splitBack :
    let s1 := urState (lcbOf 0 one)
    let x1 := acceptLayer 0 3 lcb [1] [] s1
    let x2 := acceptLayer 0 4 lcb [1] [accepted x1] (urState x1)
    let k1 := Claims.childOf (layer 1) (accepted x1)
    let k2 := Claims.childOf (layer 1) (accepted x2)
    ∃ s4 s5 s6, Claims.writesBack lcb (Claims.goneLayer (layer 1) 3 4) false (putLayer (putLayer (retireLayer (urState x2) 0 1) k1) k2) s4 ∧
      Claims.writesBack lcb k1 true s4 s5 ∧ Claims.writesBack lcb k2 true s5 s6 :=
  ⟨_, _, _, gw_eq (by decide +kernel), gw_eq (by decide +kernel), gw_eq (by decide +kernel)⟩

theorem witness_LayerInstructions_mergeBack :
    let x := acceptLayer 0 3 lcb [1, 2] [] (urState (lcbOf 0 live))
    let r := Claims.mergedLayer (layer 1) (layer 2) (accepted x)
    Claims.weighed (layer 1) ∧ Claims.weighed (layer 2) ∧
    ∃ s3 s4 s5, Claims.writesBack lcb (Claims.goneLayer (layer 1) 3 0xFFFF) false
        (putLayer (retireLayer (retireLayer (urState x) 0 1) 0 2) r) s3 ∧
      Claims.writesBack lcb (Claims.goneLayer (layer 2) 3 0xFFFF) false s3 s4 ∧ Claims.writesBack lcb r true s4 s5 :=
  ⟨by unfold Claims.weighed; decide +kernel, by unfold Claims.weighed; decide +kernel, _, _, _, gw_eq (by decide +kernel),
    gw_eq (by decide +kernel), gw_eq (by decide +kernel)⟩

theorem witness_ProceduralInstructions_deferred : ∃ ch rest, (let s := updCx holder (fun c => { c with deferred := [aCharge] })
    engineBusy s 0 = false ∧ Claims.released s ∧ s.cx.deferred = ch :: rest ∧ s.cx.inh = false ∧ s.cx.gen ≠ none) :=
  ⟨aCharge, [], by decide +kernel, by unfold Claims.released; decide +kernel, by decide +kernel, by decide +kernel, by decide +kernel⟩

/-! Matrix sums, MMAS, barriers, other devices, the host -/

/-- Two rows of two products; the least exponents are -3 and 0. -/
theorem witness_MatrixEvents_sums : Claims.finiteFrom (-3) [.fin false 1 (-3), .fin true 5 0] ∧ Claims.finiteFrom 0 [.fin false 0 0, .fin false 7 2] ∧
    Claims.inUnits (-3) (.fin true 5 0) = -40 := by
  refine ⟨?_, ?_, by decide⟩ <;> intro v hv <;> simp only [List.mem_cons, List.not_mem_nil, or_false] at hv <;> rcases hv with rfl | rfl
  · exact ⟨_, _, _, rfl, by decide⟩
  · exact ⟨_, _, _, rfl, by decide⟩
  · exact ⟨_, _, _, rfl, by decide⟩
  · exact ⟨_, _, _, rfl, by decide⟩

/-- The shape of an MMAS of 1 by 1 by 1 on ring 1, its record at 0x40 of segment 0. -/
def seedShape : Shape := BitVec.ofNat 512 (natOfBytes (bytesOfNat 2 1 ++ bytesOfNat 2 1 ++ bytesOfNat 2 1 ++ bytesOfNat 1 7 ++ bytesOfNat 1 0 ++
  bytesOfNat 1 8 ++ bytesOfNat 1 0 ++ bytesOfNat 2 1 ++ bytesOfNat 2 0 ++ bytesOfNat 2 1 ++ bytesOfNat 2 0 ++ bytesOfNat 2 1 ++ bytesOfNat 2 1 ++
  bytesOfNat 2 0xFFFF ++ bytesOfNat 8 0 ++ bytesOfNat 8 1 ++ bytesOfNat 8 (ptr 19 0x40).toNat))
def seedOp : MOp := { mop .mmas 0 seedShape with qa := 1, segs := Vector.replicate 8 (whole 0) }
/-- A valid record of K = N = J = 1 (R286). -/
def seedTiny : List Byte := bytesOfNat 4 0x5EED_0E9A ++ bytesOfNat 2 1 ++ bytesOfNat 2 1 ++ bytesOfNat 1 1 ++ bytesOfNat 1 1 ++ bytesOfNat 6 0 ++
  bytesOfNat 4 0x12345 ++ bytesOfNat 2 0x3F80
def seedRun : State := written (opSt seedOp) (.glob 0x40) seedTiny 0

def seedOk (x : EOut SeedRead) : Bool :=
  match x with
  | .ok (.ok r) _ => decide (r.k = 1 ∧ r.n = 1 ∧ r.j = 1)
  | _ => false
theorem seed_of {x : EOut SeedRead} (h : seedOk x = true) : ∃ r s1, x = .ok (.ok r) s1 ∧ r.k = 1 ∧ r.n = 1 := by
  unfold seedOk at h
  split at h
  · rename_i r s1
    simp only [decide_eq_true_eq] at h
    exact ⟨r, s1, rfl, h.1, h.2.1⟩
  · cases h

theorem witness_MatrixEvents_seeded : (∃ r s1, eRecord (seedOp.job 0 4) (seedOp.destAt 0) ((vget seedOp.segs seedOp.shape.seg {}).limit.toNat - 0x40)
      seedRun = .ok (.ok r) s1 ∧ r.k = seedOp.shape.k ∧ r.n = seedOp.shape.n) ∧
    seedOp.shape.dest.toNat % 2 ^ 48 = 0x40 ∧ Claims.recordNamed seedOp ∧ seedOp.shape.fmtAcc = 8 ∧ (∀ q ∈ seedOp.rings, q = 1) ∧
    (∃ r, getRing seedRun 0 1 = some r ∧ 0 < r.filled) ∧ 32 * seedOp.shape.n ≤ 4096 ∧ seedOp.phase = .queued ∧
    ¬ Claims.recordNamed { seedOp with shape := 0 } ∧
    (eRecord (seedOp.job 0 4) (seedOp.destAt 0) 16 (opSt seedOp) matches .ok (.error (1, _)) _) := by
  refine ⟨?_, by decide +kernel, by unfold Claims.recordNamed; decide +kernel, by decide +kernel, by decide +kernel,
    ⟨_, rfl, by decide +kernel⟩, by decide +kernel, by decide +kernel, by unfold Claims.recordNamed; decide +kernel, by decide +kernel⟩
  obtain ⟨r, s1, h, hk, hn⟩ := seed_of (x := eRecord (seedOp.job 0 4) (seedOp.destAt 0)
    ((vget seedOp.segs seedOp.shape.seg {}).limit.toNat - 0x40) seedRun) (by decide +kernel)
  exact ⟨r, s1, h, by rw [hk]; decide +kernel, by rw [hn]; decide +kernel⟩

/-- The partial that comes to the corner of a 1 by 2 barrier completes it; at a 2 by 2 one that waits for the south it does not. -/
theorem witness_ArrivalEvents_corner : Claims.cornerDone { bar22 with w := 1, south := true } 0 = true ∧
    Claims.cornerDone { bar22 with east := true } 0 = false := by decide +kernel

/-- One byte at the end of a block, and 256 bytes that begin at an odd place. -/
theorem witness_ArrivalEvents_comesFrom : ∀ x ∈ [(1, 0xFF), (256, 0x81)], ∃ s' l,
    Claims.comesFrom { st with args := { flag := true, a := x.1, b := 0, word := BitVec.ofNat 256 x.2 } } x.1 x.2 l s' := by
  intro x hx
  simp only [List.mem_cons, List.not_mem_nil, or_false] at hx
  rcases hx with rfl | rfl
  · exact ⟨_, [0], rfl, rfl, by decide, by decide, by decide, by decide +kernel, by decide +kernel, by decide +kernel, gr_eq (by decide +kernel)⟩
  · exact ⟨_, List.replicate 256 0, rfl, rfl, by decide, by decide, by decide, by decide +kernel, by decide +kernel, by decide +kernel,
      gr_eq (by decide +kernel)⟩

/-- Runs of a line's dirty bytes begin at 0 and at 127, none at 1 or 128. -/
theorem witness_HostCommands_runs : (let d : Dirty := { tenant := 0, line := 3, mask := BitVec.ofNat 128 (3 + 2 ^ 127), core := 0, who := 0 }
    Claims.runAt d 0 ∧ Claims.runAt d 127 ∧ ¬ Claims.runAt d 1 ∧ ¬ Claims.runAt d 128) := by
  unfold Claims.runAt
  decide +kernel

/-- Half clocks 32 and 33 of the reference begin the third window of a core that skipped none, and are still in the second of one
that skipped one clock. -/
theorem witness_PartEvents_clocks : Claims.coreClocks {} 64 = 32 ∧ Claims.coreClocks {} 65 = 32 ∧ Claims.coreClocks { skipped := 2 } 64 = 31 ∧
    (Claims.coreClocks {} 64) % 16 = 0 ∧ Claims.coreClocks {} 64 / 16 ≠ Claims.coreClocks {} 63 / 16 := by decide

/-- A reset that brings a record. -/
theorem witness_PartEvents_record : ∃ s : State, s.args.flag = true ∧ s.args.a = 16 ∧ s.args.b = 15 ∧ s.args.bytes = [1, 2] :=
  ⟨{ st with args := { flag := true, a := 16, b := 15, bytes := [1, 2] } }, by decide⟩

/-- The recorded state with a queued copy, a matrix operation and a logged message, none of its contexts bound. -/
def loggedImg : Image :=
  { dbgImg true with
    cores := [(0, { mq := [mop .mma 0 0], cq := [{ goodCopy with id := 3, key := 0 }] })]
    logs := [{ id := 1, src := 0, who := 0, dst := 0, body := .msg (dest 5 1) 0 16 9 0 }] }

theorem witness_PourAndCuppingActs_pieces :
    (∀ x ∈ [(9, 0), (9, 7), (10, 0), (11, 1), (12, 1), (13, 2), (14, 28), (14, 30), (15, 1), (16, 0), (17, 0), (18, 0)],
      Claims.pieceAt (pieceSt x.1 x.2 0x1234 (dbgPour .stopped true)) 0 x.1 x.2 0x1234) ∧
    Claims.recorded loggedImg 0 (dbgCtx true) ∧ homeCore (dbgCtx true).key = 0 ∧
    (∃ k, loggedImg.cores.find? (fun k => k.1 == 0) = some k ∧ (∃ o, k.2.cq[0]? = some o) ∧ ∃ o, k.2.mq[0]? = some o) ∧
    (∃ q w y len sender tenant, loggedImg.logs[0]? = some q ∧ q.body = .msg w y len sender tenant) ∧
    tget (dbgCtx true).binds 14 = none ∧ tget (bound false).cx.binds 14 ≠ none ∧ (0x1234 : Word).getLsbD 63 = false := by
  refine ⟨?_, rfl, by decide +kernel, ⟨_, rfl, ⟨_, rfl⟩, ⟨_, rfl⟩⟩, ⟨_, _, _, _, _, _, rfl, rfl⟩, by decide +kernel, by decide +kernel, by decide⟩
  unfold Claims.pieceAt
  decide +kernel

/-- A checkpoint of the same pour; no generator is recorded, or the same one is. -/
theorem witness_PourAndCuppingActs_gens : Claims.keepsGens (dbgImg true) {} ∧
    Claims.keepsGens { ctxs := [holder.cx] } { ctxs := [dbgCtx true, holder.cx] } ∧ ¬ Claims.keepsGens { ctxs := [holder.cx] } {} := by
  refine ⟨fun x hx g hg => ?_, fun x hx g hg => ⟨x, List.mem_cons_of_mem _ hx, hg⟩, fun h => ?_⟩
  · rw [List.mem_singleton.mp hx] at hg
    rw [show (dbgCtx true).gen = none by decide +kernel] at hg
    cases hg
  · obtain ⟨y, hy, -⟩ := h holder.cx List.mem_cons_self _ rfl
    cases hy

/-- An instruction In flight, and one whose stall is over. -/
theorem witness_CuppingReads_atWork : Claims.atWork { st.cx with st := .inFlight .matrixAll } ∧
    Claims.atWork { st.cx with again := true, stalled := true } ∧ ¬ Claims.atWork st.cx := by
  refine ⟨.inl ⟨_, rfl⟩, .inr ⟨rfl, rfl⟩, ?_⟩
  rintro (⟨w, h⟩ | ⟨h, -⟩)
  · exact absurd h (by rw [show st.cx.st = .ready by decide +kernel]; nofun)
  · exact absurd h (by decide +kernel)

/-- A vector load of a visitor, held and loose. -/
theorem witness_VectorMemory_away : (∃ r, Claims.vmemRow (.vscat 1 2 3 4 5) = some r) ∧ Claims.unbound (away 5 true st) ∧
    (away 5 true st).cx.away = true ∧ (away 5 true st).cx.held = true ∧ (away 5 false st).cx.held = false ∧
    Claims.released (away 5 false st) := by
  unfold Claims.unbound Claims.released
  exact ⟨⟨_, rfl⟩, by decide +kernel⟩

end Sys2Proof.Tests
end

section
/-! The register file, read after write (R8, R95, R216). -/

namespace Sys2Proof.Proofs
open Sys2Proof Sys2Proof.Machine Sys2Proof.Laws

/-! A context's register files -/

theorem ctx_rs_ws (c : Ctx) (i j : BitVec 5) (v : Word) : (c.ws i v).rs j = if j = i ∧ i ≠ 0 then v else c.rs j := by
  by_cases hi : i = 0
  · rw [Ctx.ws, if_pos hi, if_neg (fun h => h.2 hi)]
  · rw [Ctx.ws, if_neg hi]
    by_cases hj : j = i
    · subst hj
      rw [if_pos ⟨rfl, hi⟩, Ctx.rs, if_neg hi, vget_vset_same _ _ _ j.isLt]
    · rw [if_neg (fun h => hj h.1), Ctx.rs, vget_vset_other _ _ _ (fun e => hj (BitVec.eq_of_toNat_eq e)), Ctx.rs]

theorem ctx_rp_wp (c : Ctx) (i j : BitVec 3) (v : Word) : (c.wp i v).rp j = if j = i ∧ i ≠ 0 then v else c.rp j := by
  by_cases hi : i = 0
  · rw [Ctx.wp, if_pos hi, if_neg (fun h => h.2 hi)]
  · rw [Ctx.wp, if_neg hi]
    by_cases hj : j = i
    · subst hj
      rw [if_pos ⟨rfl, hi⟩, Ctx.rp, if_neg hi, vget_vset_same _ _ _ j.isLt]
    · rw [if_neg (fun h => hj h.1), Ctx.rp, vget_vset_other _ _ _ (fun e => hj (BitVec.eq_of_toNat_eq e)), Ctx.rp]

theorem ctx_rv_wv (c : Ctx) (i j : BitVec 4) (v : VReg) : (c.wv i v).rv j = if j = i then v else c.rv j := by
  by_cases hj : j = i
  · subst hj
    simp [Ctx.wv, Ctx.rv, vget_vset_same _ _ _ j.isLt]
  · have hn : j.toNat ≠ i.toNat := fun e => hj (BitVec.eq_of_toNat_eq e)
    simp [Ctx.wv, Ctx.rv, hj, vget_vset_other _ _ _ hn]

/-! The issuing context's register files -/

theorem rs_ws (s : State) (i j : BitVec 5) (v : Word) : rs (ws s i v) j = if j = i ∧ i ≠ 0 then v else rs s j :=
  ctx_rs_ws s.cx i j v

theorem rp_wp (s : State) (i j : BitVec 3) (v : Word) : rp (wp s i v) j = if j = i ∧ i ≠ 0 then v else rp s j :=
  ctx_rp_wp s.cx i j v

theorem rv_wv (s : State) (i j : BitVec 4) (v : VReg) : rv (wv s i v) j = if j = i then v else rv s j :=
  ctx_rv_wv s.cx i j v

@[simp] theorem rs_zero (s : State) : rs s 0 = 0 := rfl

@[simp] theorem rp_zero (s : State) : rp s 0 = BitVec.allOnes 64 := rfl

@[simp] theorem ws_zero (s : State) (v : Word) : ws s 0 v = s := rfl

@[simp] theorem wp_zero (s : State) (v : Word) : wp s 0 v = s := rfl

/-! A write of a scalar register leaves the other files -/

@[simp] theorem rv_ws (s : State) (i : BitVec 5) (v : Word) (j : BitVec 4) : rv (ws s i v) j = rv s j :=
  congrArg (vget · j.toNat 0) (ctx_ws_v s.cx i v)

@[simp] theorem rp_ws (s : State) (i : BitVec 5) (v : Word) (k : BitVec 3) : rp (ws s i v) k = rp s k :=
  congrArg (fun p => if k = 0 then BitVec.allOnes 64 else vget p k.toNat 0) (ctx_ws_p s.cx i v)

@[simp] theorem rg_ws (s : State) (i : BitVec 5) (v : Word) (k : BitVec 3) : rg (ws s i v) k = rg s k :=
  congrArg (fun g => vget g k.toNat ({} : Seg)) (ctx_ws_g s.cx i v)

/-- Settles O7: each file by its read after write. -/
theorem registerFile : Obligations.RegisterFile :=
  ⟨fun s v => ⟨rs_zero s, ws_zero s v, rp_zero s, wp_zero s v⟩, rs_ws, rp_wp, rv_wv,
    fun s i j k v => ⟨rv_ws s i v j, rp_ws s i v k, rg_ws s i v k⟩⟩

end Sys2Proof.Proofs
end

section
/-! The delivery of a trap and the layout of the fault record (R204, R207, R256). -/

namespace Sys2Proof.Proofs
open Sys2Proof Sys2Proof.Machine Sys2Proof.Laws

/-! Delivery -/

/-- The offset that a register of the trap group holds, as a masked word (R201). -/
theorem offField_eq (w : Word) : (w &&& offMask).setWidth 48 = Claims.offField w := by
  have hm : offMask = (BitVec.allOnes 46).setWidth 64 <<< 2 := rfl
  apply BitVec.eq_of_getLsbD_eq
  intro i hi
  have h4 : w.toNat / 4 % 2 ^ 46 * 4 = w.toNat / 2 ^ 2 % 2 ^ 46 * 2 ^ 2 := rfl
  simp only [hm, Claims.offField, h4, BitVec.getLsbD_setWidth, BitVec.getLsbD_and, BitVec.getLsbD_shiftLeft, BitVec.getLsbD_allOnes,
    BitVec.getLsbD_ofNat, Nat.testBit_mul_two_pow, Nat.testBit_mod_two_pow, Nat.testBit_div_two_pow, BitVec.testBit_toNat]
  by_cases h2 : 2 ≤ i
  · have h64 : i < 64 := by omega
    have h46 : i - 2 < 46 := by omega
    have hs : i - 2 < 64 := by omega
    have hn : ¬ i < 2 := by omega
    simp [hi, h2, h64, h46, hs, hn, show i - 2 + 2 = i by omega]
  · have hl : i < 2 := by omega
    simp [h2, hl]

theorem tcauseOf_eq (up : Bool) (ch : Charge) : tcauseOf up ch = Claims.causeWord true up ch.dfr ch.engine ch.cause := by
  unfold tcauseOf Claims.causeWord b2n
  cases up <;> cases ch.dfr <;> rfl

theorem frecOf_eq (c : Ctx) (ch : Charge) : frecOf c.frec false ch c.key (c.pc.setWidth 64) = Claims.recordOf c ch := by
  unfold frecOf Claims.recordOf Charge.requesters
  simp only [List.isEmpty_iff]

theorem trapped_eq (c : Ctx) (ch : Charge) : c.trapped false ch = Claims.trapRegs c ch := by
  unfold Ctx.trapped Claims.trapRegs
  simp only [tcauseOf_eq, frecOf_eq]

theorem deliver_eq (ch : Charge) (s : State) :
    deliver ch s = { s with cx := { Claims.trapRegs s.cx ch with pc := Claims.offField s.cx.tvec } } := by
  simp only [deliver, updCx, trapped_eq, offField_eq]

theorem failOpenChunk_other {s : State} (cause : BitVec 8) (h : homeIdx s.cx.key ≠ 11) : failOpenChunk s cause = s := if_neg h

@[simp] theorem failOpenChunk_cx (s : State) (cause : BitVec 8) : (failOpenChunk s cause).cx = s.cx := by
  unfold failOpenChunk
  repeat' split
  all_goals rfl

/-- Where a delivery is due, taking the trap is the delivery (R204); an open chunk fails before (R256). -/
theorem takeTrap_deliverable (ch : Charge) {s : State} (h : Claims.deliverable s) :
    takeTrap ch s = deliver ch (failOpenChunk s ch.cause) := by
  obtain ⟨hv, hi⟩ := h
  have hc : ¬ ((s.cx.tvec &&& offMask = 0 || s.cx.inh) = true) := by
    rw [hi, Bool.or_false, decide_eq_true_eq]; exact hv
  rw [takeTrap, failOpenChunk_cx]
  exact if_neg hc

/-! Bytes of numbers -/

theorem length_bytesOfNat (n : Nat) : ∀ w, (bytesOfNat n w).length = n := by
  induction n with
  | zero => exact fun _ => rfl
  | succ n ih => exact fun w => congrArg (· + 1) (ih (w / 256))

/-- The bytes of a number that fits them are the number. -/
theorem natOfBytes_bytesOfNat (n : Nat) : ∀ w, w < 256 ^ n → natOfBytes (bytesOfNat n w) = w := by
  induction n with
  | zero =>
    intro w h
    have h0 : w = 0 := by simpa using h
    rw [h0]; rfl
  | succ n ih =>
    intro w h
    have hw : w / 256 < 256 ^ n := Nat.div_lt_of_lt_mul (by rwa [Nat.mul_comm, ← Nat.pow_succ])
    rw [bytesOfNat, natOfBytes, ih _ hw, BitVec.toNat_ofNat]
    exact Nat.mod_add_div w 256

/-- A field reads back from the bytes that begin with it. -/
theorem natOfBytes_take {n x : Nat} (t : List Byte) (hx : x < 256 ^ n) : natOfBytes ((bytesOfNat n x ++ t).take n) = x := by
  rw [List.take_left' (length_bytesOfNat n x), natOfBytes_bytesOfNat n x hx]

/-- Past a field, the bytes after it. -/
theorem drop_bytesOfNat_append {m o : Nat} (x : Nat) (t : List Byte) (h : m ≤ o) :
    (bytesOfNat m x ++ t).drop o = t.drop (o - m) := by
  rw [List.drop_append, length_bytesOfNat, List.drop_eq_nil_of_le (by rw [length_bytesOfNat]; exact h), List.nil_append]

/-! The layout of the fault record (R207) -/

/-- The requester fields: the first eight requesters, the unused ones zero. -/
def reqFields (f : FaultRec) : List (BitVec 32) := f.reqs.take 8 ++ List.replicate (8 - (f.reqs.take 8).length) 0

theorem getD_reqFields (f : FaultRec) {k : Nat} (hk : k < 8) : (reqFields f)[k]?.getD 0 = f.reqs[k]?.getD 0 := by
  by_cases h : k < f.reqs.length
  · have ht : k < (f.reqs.take 8).length := by rw [List.length_take]; omega
    rw [reqFields, List.getElem?_append_left ht, List.getElem?_take_of_lt hk]
  · have ht : (f.reqs.take 8).length ≤ k := by rw [List.length_take]; omega
    have hr : k - (f.reqs.take 8).length < 8 - (f.reqs.take 8).length := by omega
    rw [reqFields, List.getElem?_append_right ht, List.getElem?_replicate, if_pos hr,
      List.getElem?_eq_none (Nat.le_of_not_lt h)]
    rfl

theorem length_reqFields (f : FaultRec) : (reqFields f).length = 8 := by
  have h : (f.reqs.take 8).length ≤ 8 := List.length_take_le 8 f.reqs
  rw [reqFields, List.length_append, List.length_replicate, Nat.add_sub_cancel' h]

/-- The bytes of words, one after the other. -/
def wordBytes (l : List (BitVec 32)) : List Byte := l.flatMap (fun r => bytesOfNat 4 r.toNat)

theorem wordBytes_cons (r : BitVec 32) (l : List (BitVec 32)) : wordBytes (r :: l) = bytesOfNat 4 r.toNat ++ wordBytes l :=
  List.flatMap_cons

theorem length_wordBytes (l : List (BitVec 32)) : (wordBytes l).length = 4 * l.length := by
  induction l with
  | nil => rfl
  | cons r l ih => rw [wordBytes_cons, List.length_append, length_bytesOfNat, ih, List.length_cons, Nat.mul_succ, Nat.add_comm]

theorem wordBytes_replicate (n : Nat) : wordBytes (List.replicate n 0) = List.replicate (4 * n) 0 := by
  induction n with
  | zero => rfl
  | succ n ih =>
    rw [List.replicate_succ, wordBytes_cons, ih, Nat.mul_succ, Nat.add_comm, ← List.replicate_append_replicate]
    rfl

theorem natOfBytes_wordBytes {a : List Byte} {l : List (BitVec 32)} {k : Nat} (hk : k < l.length) :
    natOfBytes (((a ++ wordBytes l).drop (a.length + 4 * k)).take 4) = (l[k]?.getD 0).toNat := by
  have hs : l = l.take k ++ l[k] :: l.drop (k + 1) := by
    rw [← List.drop_eq_getElem_cons hk, List.take_append_drop]
  have hl : wordBytes l = wordBytes (l.take k) ++ (bytesOfNat 4 l[k].toNat ++ wordBytes (l.drop (k + 1))) :=
    (congrArg wordBytes hs).trans List.flatMap_append
  have ha : (a ++ wordBytes (l.take k)).length = a.length + 4 * k := by
    rw [List.length_append, length_wordBytes, List.length_take_of_le (Nat.le_of_lt hk)]
  rw [hl, ← List.append_assoc, List.drop_left' ha, natOfBytes_take _ l[k].isLt, List.getElem?_eq_getElem hk]
  rfl

/-- The head of the record, up to the requesters. -/
def recHead (f : FaultRec) : List Byte :=
  bytesOfNat 1 f.cause.toNat ++ bytesOfNat 1 f.engine.toNat
    ++ bytesOfNat 2 (b2n f.valid + 2 * b2n f.dfr + 4 * b2n f.up + 8 * b2n f.lost)
    ++ bytesOfNat 4 f.extra.toNat ++ bytesOfNat 8 f.addr.toNat ++ bytesOfNat 8 f.trpc.toNat
    ++ bytesOfNat 4 f.count.toNat ++ bytesOfNat 4 0

theorem length_recHead (f : FaultRec) : (recHead f).length = 32 := by simp [recHead, length_bytesOfNat]

theorem bytes_eq (f : FaultRec) : f.bytes = recHead f ++ wordBytes (reqFields f) := by
  have h : wordBytes (reqFields f) = wordBytes (f.reqs.take 8) ++ List.replicate (4 * (8 - (f.reqs.take 8).length)) 0 := by
    rw [← wordBytes_replicate]; simp [reqFields, wordBytes]
  rw [h, ← List.append_assoc]; rfl

theorem b2n_eq (b : Bool) : b2n b = b.toNat := by cases b <;> rfl

theorem flags_lt (a b c d : Bool) : b2n a + 2 * b2n b + 4 * b2n c + 8 * b2n d < 256 ^ 2 := by
  cases a <;> cases b <;> cases c <;> cases d <;> decide

theorem bytes_requester (f : FaultRec) {k : Nat} (hk : k < 8) :
    natOfBytes ((f.bytes.drop (32 + 4 * k)).take 4) = (f.reqs[k]?.getD 0).toNat := by
  have h := natOfBytes_wordBytes (a := recHead f) (l := reqFields f) (k := k) (by rw [length_reqFields]; exact hk)
  rwa [length_recHead, ← bytes_eq, getD_reqFields f hk] at h

/-- The fields of the head, each at its offset. -/
theorem bytes_head (f : FaultRec) :
    let at_ (o n : Nat) : Nat := natOfBytes ((f.bytes.drop o).take n)
    at_ 0 1 = f.cause.toNat ∧ at_ 1 1 = f.engine.toNat ∧
    at_ 2 2 = f.valid.toNat + 2 * f.dfr.toNat + 4 * f.up.toNat + 8 * f.lost.toNat ∧
    at_ 4 4 = f.extra.toNat ∧ at_ 8 8 = f.addr.toNat ∧ at_ 16 8 = f.trpc.toNat ∧ at_ 24 4 = f.count.toNat ∧ at_ 28 4 = 0 := by
  simp only [bytes_eq, recHead, ← b2n_eq, List.append_assoc, drop_bytesOfNat_append, List.drop_zero, Nat.reduceLeDiff, Nat.reduceSub]
  exact ⟨natOfBytes_take _ f.cause.isLt, natOfBytes_take _ f.engine.isLt, natOfBytes_take _ (flags_lt _ _ _ _),
    natOfBytes_take _ f.extra.isLt, natOfBytes_take _ f.addr.isLt, natOfBytes_take _ f.trpc.isLt,
    natOfBytes_take _ f.count.isLt, natOfBytes_take _ (by decide)⟩

theorem length_bytes (f : FaultRec) : f.bytes.length = 64 := by
  rw [bytes_eq, List.length_append, length_recHead, length_wordBytes, length_reqFields]

/-- Settles O17: the delivery, with the failure of an open chunk, and the layout by the record's head and its requesters. -/
theorem trapEntry : Obligations.TrapEntry := by
  refine ⟨fun ch s h => ⟨fun hk => ?_, fun _ => ?_⟩, fun f => ?_⟩
  · rw [takeTrap_deliverable ch h, failOpenChunk_other _ hk, deliver_eq]
  · rw [takeTrap_deliverable ch h, deliver_eq, failOpenChunk_cx]
  · obtain ⟨h0, h1, h2, h4, h8, h16, h24, h28⟩ := bytes_head f
    refine ⟨length_bytes f, h0, h1, h2, h4, h8, h16, h24, h28, fun k hk => ?_⟩
    refine (bytes_requester f hk).trans ?_
    cases f.reqs[k]? <;> rfl

end Sys2Proof.Proofs
end

section
/-! The CSR group (R108, R129, R131, R132, R175). -/

namespace Sys2Proof.Proofs
open Sys2Proof Sys2Proof.Machine Sys2Proof.Laws

/-! Completing and departing, in the words of the statements -/

theorem doneAt_eq_endsAt (pc : Addr) (s : State) : doneAt pc s = .next (endsAt pc s) := by
  unfold doneAt endsAt
  cases s.cx.stepping <;> rfl

theorem done_eq_ends (s : State) : done s = .next (ends s) := doneAt_eq_endsAt _ s

theorem carried_eq (v : Vector VReg 16) (vlive : Word) :
    carried v vlive = v.mapIdx (fun i x => if vlive.getLsbD i then x else 0) := by
  have h : ∀ i, bitN vlive i = vlive.getLsbD i := fun i => by
    rw [← BitVec.testBit_toNat, Nat.testBit_eq_decide_div_mod_eq]; rfl
  simp only [carried, h]

theorem depart_eq_leaves (dst : Nat) (s : State) : depart dst s = Claims.leaves s dst := by
  have ht : { s.cx with place := .transit, held := false, again := true, stalled := false, met := none,
                        homeV := if s.cx.away then s.cx.homeV else s.cx.v, v := carried s.cx.v s.cx.vlive }
      = Claims.travelling s.cx := by
    unfold Claims.travelling Ctx.away
    rw [carried_eq]
    cases s.cx.place <;> rfl
  have hc : ({ cleanCore s s.cx.core with cx := Claims.travelling s.cx } : State)
      = { s with cx := Claims.travelling s.cx, dirty := s.dirty.filter (fun d => d.core != s.cx.core) } := rfl
  simp only [depart, ht, hc, Claims.leaves]

/-! The checks of a CSR's number (R108) -/

section
variable {n : Nat} {wd : W32} {k : State → Out} {s : State}

theorem csrThen_context (write : Bool) (h : n ≤ 0x010) : csrThen n write wd k s = k s := by
  have hp : perCore n = false := by simp [perCore]; omega
  simp [csrThen, hp, h, show ¬ 0x100 ≤ n by omega]

theorem csrThen_unassigned (write : Bool) (h : 0x010 < n ∧ n < 0x040 ∨ 0x043 < n ∧ n < 0x100) :
    csrThen n write wd k s = .next (takeTrap { cause := 0x02, val := BitVec.ofNat 64 n } s) := by
  have hp : perCore n = false := by simp [perCore]; omega
  simp [csrThen, hp, trap_eq, show ¬ 0x100 ≤ n by omega, show ¬ n ≤ 0x010 by omega]

theorem csrThen_beyond (write : Bool) (h : 0x100 ≤ n) :
    csrThen n write wd k s = .next (takeTrap { cause := 0x03, val := BitVec.ofNat 64 n } s) := by
  simp [csrThen, trap_eq, h]

/-- A per-core CSR goes the way of an instruction that visitors do not execute (R175). -/
theorem csrThen_core {write : Bool} (h1 : 0x040 ≤ n) (h2 : n ≤ 0x043) (hw : write = false ∨ homeIdx s.cx.key = 0) :
    csrThen n write wd k s = homeOnly wd k s := by
  have hp : perCore n = true := by simp [perCore]; omega
  rcases hw with hw | hw <;> simp [csrThen, hp, hw, show ¬ 0x100 ≤ n by omega, show ¬ n ≤ 0x010 by omega]

end

/-! Reads (R131, R132) -/

theorem away_false_of_atHome {s : State} (h : atHome s) : s.cx.away = false := by
  unfold Ctx.away; rw [show s.cx.place = .home from h]; rfl

/-- Each CSR of the list reads as `csrValue` gives it. -/
theorem csrValue_of_mem {n : Nat} {f : State → Word} (h : (n, f) ∈ Claims.csrReads) (s : State) :
    csrValue s n = f s ∧ (n ≤ 0x010 ∨ 0x040 ≤ n ∧ n ≤ 0x043) := by
  simp only [Claims.csrReads, List.mem_cons, Prod.mk.injEq, List.not_mem_nil, or_false] at h
  rcases h with ⟨rfl, rfl⟩ | ⟨rfl, rfl⟩ | ⟨rfl, rfl⟩ | ⟨rfl, rfl⟩ | ⟨rfl, rfl⟩ | ⟨rfl, rfl⟩ | ⟨rfl, rfl⟩ | ⟨rfl, rfl⟩ | ⟨rfl, rfl⟩ |
    ⟨rfl, rfl⟩ | ⟨rfl, rfl⟩ | ⟨rfl, rfl⟩ | ⟨rfl, rfl⟩ | ⟨rfl, rfl⟩ | ⟨rfl, rfl⟩ | ⟨rfl, rfl⟩ | ⟨rfl, rfl⟩ | ⟨rfl, rfl⟩ |
    ⟨rfl, rfl⟩ | ⟨rfl, rfl⟩ | ⟨rfl, rfl⟩
  all_goals exact ⟨rfl, by omega⟩

theorem csrr_reads {n : Nat} {f : State → Word} {b c : BitVec 5} (d : BitVec 5) {s : State} (h : (n, f) ∈ Claims.csrReads)
    (hn : n = csrNum b c) (hh : n ≤ 0x010 ∨ atHome s) : exec (.csrr d b c) s = .next (ends (ws s d (f s))) := by
  subst hn
  obtain ⟨hv, hr⟩ := csrValue_of_mem h s
  have hx : exec (.csrr d b c) s
      = csrThen (csrNum b c) false (encode (.csrr d b c)) (fun s => done (ws s d (csrValue s (csrNum b c)))) s := rfl
  rw [hx, ← hv, ← done_eq_ends]
  by_cases hc : csrNum b c ≤ 0x010
  · exact csrThen_context false hc
  · obtain ⟨h1, h2⟩ := hr.resolve_left hc
    rw [csrThen_core h1 h2 (.inl rfl), homeOnly_home _ _ (away_false_of_atHome (hh.resolve_left hc))]

/-! Writes (R131) -/

/-- The three writes are one operation. -/
theorem exec_csrWriteRow {i : Instr} {a b c : BitVec 5} {f : Word → Word → Word} (h : Claims.csrWriteRow i = some (a, b, c, f))
    (s : State) : exec i s = csrThen (csrNum b c) true (encode i) (csrWrite (csrNum b c) f a) s := by
  unfold Claims.csrWriteRow at h
  split at h <;> cases h <;> rfl

/-- With no writable bit the old value stays. -/
theorem merge_none (x y : Word) : (x &&& ~~~0#64) ||| (y &&& 0#64) = x := by
  rw [BitVec.and_zero, BitVec.or_zero]
  exact BitVec.and_allOnes

theorem csrMask_eq_csrWritable (core : Nat) {n : Nat} (h : n ≤ 0x010) : csrMask core n = Claims.csrWritable n := by
  unfold csrMask
  split
  case h_10 | h_11 | h_12 | h_13 => exact absurd h (by decide)
  case h_14 => grind [Claims.csrWritable]
  all_goals rfl

theorem csrRefused_iff {n : Nat} (h : n ≤ 0x010) (v : Word) : csrRefused n v = true ↔ n = 0 ∧ 4 < v.toNat % 8 := by
  unfold csrRefused
  split
  case h_1 => simp [fieldN]
  case h_6 h0 _ _ _ _ => exact ⟨nofun, fun hc => absurd hc.1 h0⟩
  all_goals exact absurd h (by decide)

/-- A write of a context's own CSR, not refused, is `csrPut`. -/
theorem csrWrite_completes {n : Nat} (f : Word → Word → Word) (a : BitVec 5) (s : State) (h : n ≤ 0x010) :
    let m := Claims.csrWritable n
    let v := (csrValue s n &&& ~~~m) ||| (f (csrValue s n) (rs s a) &&& m)
    (n = 0 ∧ 4 < v.toNat % 8 → csrWrite n f a s = .next (takeTrap { cause := 0x02, val := BitVec.ofNat 64 n } s)) ∧
    (¬ (n = 0 ∧ 4 < v.toNat % 8) → csrWrite n f a s = .next (ends (csrPut s n v))) := by
  intro m v
  have hv : (csrValue s n &&& ~~~csrMask s.cx.core n) ||| (f (csrValue s n) (rs s a) &&& csrMask s.cx.core n) = v := by
    rw [csrMask_eq_csrWritable _ h]
  have h4 : n ≠ 0x040 := by omega
  refine ⟨fun hr => ?_, fun hr => ?_⟩
  · simp only [csrWrite, hv, (csrRefused_iff h v).mpr hr, failIf_true, trap_eq]
  · have hf : csrRefused n v = false := by rw [← Bool.not_eq_true, csrRefused_iff h v]; exact hr
    simp [csrWrite, hv, hf, h4, done_eq_ends]

/-- A CSR without writable bits keeps its value. -/
theorem csrValue_csrPut_same (s : State) {n : Nat} {v : Word} (h : n ≤ 0x010) (hro : Claims.csrWritable n = 0 → v = csrValue s n) :
    csrValue (csrPut s n v) n = v := by
  unfold csrPut
  split
  case h_10 | h_11 | h_12 | h_13 => exact absurd h (by decide)
  case h_14 => exact (hro (by grind [Claims.csrWritable])).symm
  all_goals rfl

theorem csrValue_csrPut_other (s : State) {n k : Nat} (v : Word) (hn : n ≤ 0x010) (h : k ≠ n) :
    csrValue (csrPut s n v) k = csrValue s k := by
  unfold csrPut
  split
  case h_10 | h_11 | h_12 | h_13 => exact absurd hn (by decide)
  all_goals
    unfold csrValue csrOf
    split <;> trivial

/-- A write of a context's own CSR changes the context alone, and of it no other register. -/
theorem csrPut_frame (s : State) {n : Nat} (v : Word) (h : n ≤ 0x010) :
    let t := csrPut s n v
    t = { s with cx := t.cx } ∧ t.cx.s = s.cx.s ∧ t.cx.v = s.cx.v ∧ t.cx.p = s.cx.p ∧ t.cx.g = s.cx.g ∧
      t.cx.pc = s.cx.pc ∧ t.cx.instret = s.cx.instret ∧ t.cx.st = s.cx.st ∧ t.cx.place = s.cx.place := by
  unfold csrPut
  split
  case h_10 | h_11 | h_12 | h_13 => exact absurd h (by decide)
  all_goals exact ⟨rfl, rfl, rfl, rfl, rfl, rfl, rfl, rfl, rfl⟩

/-! The family -/

/-- A visitor's access of a per-core CSR (R174, R175, log 70). -/
theorem csrThen_visitor {n : Nat} {write : Bool} (wd : W32) (k : State → Out) {s : State} (h1 : 0x040 ≤ n) (h2 : n ≤ 0x043)
    (hw : write = false ∨ homeIdx s.cx.key = 0) (ha : s.cx.away = true) :
    (s.cx.held = true → csrThen n write wd k s = .next (takeTrap { cause := 0x03, val := wd.setWidth 64 } s)) ∧
    (s.cx.held = false → Claims.released s → csrThen n write wd k s = .next (Claims.leaves s (homeCore s.cx.key))) := by
  rw [csrThen_core h1 h2 hw]
  exact ⟨fun hh => homeOnly_held _ _ ha hh, fun hh hr => (homeOnly_loose _ _ ha hh hr).trans (by rw [depart_eq_leaves])⟩

/-- Settles O19: the checks of the number, the reads by the list of CSRs, the writes by the one operation they are. -/
theorem csrAccess : Obligations.CsrAccess := by
  refine ⟨⟨fun n f d b c s hm hn hh => csrr_reads d hm hn hh, fun d b c s => ?_, fun i a b c f s hi => ?_, fun s => ?_⟩,
    fun i a b c f s hi => ?_⟩
  · exact ⟨csrThen_beyond false, csrThen_unassigned false, fun h1 h2 ha => csrThen_visitor _ _ h1 h2 (.inl rfl) ha⟩
  · rw [exec_csrWriteRow hi]
    exact ⟨csrThen_unassigned true, fun h1 h2 h0 ha => csrThen_visitor _ _ h1 h2 (.inr h0) ha⟩
  · exact ⟨done_eq_ends s, done_eq_ends _⟩
  · intro n m v hn
    have hx : exec i s = csrWrite n f a s := (exec_csrWriteRow hi s).trans (csrThen_context true hn)
    obtain ⟨hbad, hok⟩ := csrWrite_completes f a s hn
    refine ⟨fun h => hx.trans (hbad h), fun h => ⟨_, hx.trans (hok h), csrValue_csrPut_same s hn (fun hm => ?_),
      fun k _ hkn => csrValue_csrPut_other s v hn hkn, csrPut_frame s v hn⟩⟩
    show (csrValue s n &&& ~~~Claims.csrWritable n) ||| (f (csrValue s n) (rs s a) &&& Claims.csrWritable n) = csrValue s n
    rw [hm]
    exact merge_none _ _

end Sys2Proof.Proofs
end

section
/-! Every step has a next state, and keeps the canonical form of memory (O59, O60). Both are proved along the model's own
functions: each has one lemma, `keeps_f` where it answers a state and `leads_f` where it answers an outcome, which rests on
the lemmas of the functions it calls. A function with a continuation leads on where its continuation does. Memory itself
changes in few places; there the laws of Laws/Memory (`wf_wrBytes`, `wf_eraseRange`, `wf_gwrite`, ...) apply. -/

namespace Sys2Proof.Proofs
open Sys2Proof Sys2Proof.Machine Sys2Proof.Laws

-- One lemma after the other: each waits for the ones it cites, and tasks that wait cost a stack each.
set_option Elab.async false

/-- Where memory had the canonical form in `s₀`, it has it in `s`. -/
def Keeps (s₀ s : State) : Prop := Memory.wf s₀.mem = true → Memory.wf s.mem = true

/-- The outcome is a next state, and one that keeps the form of memory. -/
def Leads (s₀ : State) (o : Out) : Prop := ∃ t, o = .next t ∧ Keeps s₀ t

variable {s₀ s : State}

theorem keeps_refl (s : State) : Keeps s s := id

theorem leads_next {t : State} : Leads s₀ (.next t) ↔ Keeps s₀ t :=
  ⟨fun ⟨_, e, h⟩ => by cases e; exact h, fun h => ⟨t, rfl, h⟩⟩

theorem keeps_foldl {α : Type} {f : State → α → State} (hf : ∀ s a, Keeps s₀ s → Keeps s₀ (f s a)) (l : List α)
    (h : Keeps s₀ s) : Keeps s₀ (l.foldl f s) :=
  List.foldlRecOn (motive := Keeps s₀) l f h (fun s h a _ => hf s a h)

theorem keeps_foldl_fst {α β : Type} {f : State × β → α → State × β}
    (hf : ∀ x a, Keeps s₀ x.1 → Keeps s₀ (f x a).1) (l : List α) {x : State × β} (h : Keeps s₀ x.1) :
    Keeps s₀ (l.foldl f x).1 :=
  List.foldlRecOn (motive := fun x => Keeps s₀ x.1) l f h (fun x h a _ => hf x a h)

/-! Accessors of contexts, cores and tables -/

theorem keeps_setCore {n : Nat} {c : CoreSt} (h : Keeps s₀ s) : Keeps s₀ (setCore s n c) := h

theorem keeps_updCore {n : Nat} {f : CoreSt → CoreSt} (h : Keeps s₀ s) : Keeps s₀ (updCore s n f) := h

theorem keeps_updCop {core id : Nat} {f : COp → COp} (h : Keeps s₀ s) : Keeps s₀ (updCop s core id f) := h

theorem keeps_updMop {core id : Nat} {f : MOp → MOp} (h : Keeps s₀ s) : Keeps s₀ (updMop s core id f) := h

theorem keeps_putCtx {c : Ctx} (h : Keeps s₀ s) : Keeps s₀ (putCtx s c) := by
  unfold putCtx
  grind [Keeps]

theorem keeps_updCtx {key : Nat} {f : Ctx → Ctx} (h : Keeps s₀ s) : Keeps s₀ (updCtx s key f) := keeps_putCtx h

theorem keeps_switchTo {key : Nat} (h : Keeps s₀ s) : Keeps s₀ (switchTo s key) := by
  unfold switchTo
  grind [Keeps]

theorem keeps_updCx {f : Ctx → Ctx} (h : Keeps s₀ s) : Keeps s₀ (updCx s f) := h

theorem keeps_setTenant {t : Nat} {v : Tenant} (h : Keeps s₀ s) : Keeps s₀ (setTenant s t v) := h

theorem keeps_updTenant {t : Nat} {f : Tenant → Tenant} (h : Keeps s₀ s) : Keeps s₀ (updTenant s t f) := h

theorem keeps_updPour {id : Nat} {f : Pour → Pour} (h : Keeps s₀ s) : Keeps s₀ (updPour s id f) := h

theorem keeps_updBrew {t num : Nat} {f : Brew → Brew} (h : Keeps s₀ s) : Keeps s₀ (updBrew s t num f) := h

theorem keeps_ws {i : BitVec 5} {v : Word} (h : Keeps s₀ s) : Keeps s₀ (ws s i v) := h

theorem keeps_wp {i : BitVec 3} {v : Word} (h : Keeps s₀ s) : Keeps s₀ (wp s i v) := h

theorem keeps_wv {i : BitVec 4} {x : VReg} (h : Keeps s₀ s) : Keeps s₀ (wv s i x) := h

/-! Memory, translation and its caches -/

theorem keeps_wrScratch {core off : Nat} {l : List Byte} (h : Keeps s₀ s) : Keeps s₀ (wrScratch s core off l) :=
  fun w => wf_wrBytes l _ (h w)

theorem keeps_sealAs {owner : Option Nat} {b : Nat} (h : Keeps s₀ s) : Keeps s₀ (sealAs owner s b) := h

theorem keeps_writeOut {f : Resident → Bool} (h : Keeps s₀ s) : Keeps s₀ (writeOut f s) := by
  unfold Keeps
  rw [writeOut_mem]
  exact h

theorem keeps_gpath {tenant va pa : Nat} {write whole : Bool}
    {t : State} (e : gpath s tenant va write whole = .ok pa t)
    (h : Keeps s₀ s) : Keeps s₀ t := fun w => wf_gpath e (h w)

theorem keeps_traceEntry {tenant va kind who : Nat} (h : Keeps s₀ s) : Keeps s₀ (traceEntry s tenant va kind who) := h

theorem keeps_dirtyLine {core tenant who va n : Nat}
    (h : Keeps s₀ s) : Keeps s₀ (dirtyLine s core tenant who va n) := h

theorem keeps_cleanCore {core : Nat} (h : Keeps s₀ s) : Keeps s₀ (cleanCore s core) := h

theorem keeps_cleanTenant {tenant : Nat} (h : Keeps s₀ s) : Keeps s₀ (cleanTenant s tenant) := by
  unfold cleanTenant
  grind [Keeps, keeps_foldl, keeps_traceEntry]

theorem keeps_arrive {tenant va pa : Nat} {l : List Byte} {kind who : Nat} (h : Keeps s₀ s) :
    Keeps s₀ (arrive s tenant va pa l kind who) := fun w => wf_arrive _ _ _ _ _ _ (h w)

theorem keeps_gread {tenant va n : Nat} {l : List Byte} {t : State} (e : gread s tenant va n = .ok l t)
    (h : Keeps s₀ s) : Keeps s₀ t := fun w => wf_gread e (h w)

theorem keeps_greadOpen {tenant va n : Nat} {l : List Byte} {t : State} (e : greadOpen s tenant va n = .ok l t)
    (h : Keeps s₀ s) : Keeps s₀ t := by
  unfold greadOpen at e
  split at e
  · cases e; exact h
  · exact keeps_gread e h

theorem keeps_gwrite {tenant va kind who : Nat} {l : List Byte}
    {t : State} (e : gwrite s tenant va l kind who = .ok t)
    (h : Keeps s₀ s) : Keeps s₀ t := fun w => wf_gwrite e (h w)

/-! Traps, waits, charges and completion -/

theorem keeps_startCut {pour : Nat} {frees : Bool} {nxt : PourSt} {marks : List (Nat × BitVec 5 × Word)}
    (h : Keeps s₀ s) : Keeps s₀ (startCut s pour frees nxt marks) := by
  unfold startCut
  (repeat' split) <;> exact h

theorem keeps_dropFault {t : Nat} (h : Keeps s₀ s) : Keeps s₀ (dropFault s t) := h

theorem keeps_appendEntry {e : FaultEntry} (h : Keeps s₀ s) : Keeps s₀ (appendEntry s e) := by
  unfold appendEntry
  grind [Keeps, keeps_gread, keeps_dropFault, keeps_gwrite]

theorem keeps_appendFault {c : Ctx} (h : Keeps s₀ s) : Keeps s₀ (appendFault s c) := by
  unfold appendFault
  grind [Keeps, keeps_appendEntry]

theorem keeps_appendLate (h : Keeps s₀ s) : Keeps s₀ (appendLate s) := by
  unfold appendLate
  grind [Keeps, keeps_foldl, keeps_appendEntry]

theorem keeps_blockState {tenant i : Nat} {r : Range} {l : List Byte}
    {t : State} (e : blockState s tenant r i = .ok l t)
    (h : Keeps s₀ s) : Keeps s₀ t := keeps_gread e h

theorem keeps_setBlockState {tenant i v key : Nat} {r : Range}
    {t : State} (e : setBlockState s tenant r i v key = .ok t)
    (h : Keeps s₀ s) : Keeps s₀ t := by
  unfold setBlockState at e
  split at e
  · exact keeps_gwrite e (keeps_gread ‹_› h)
  all_goals cases e

theorem keeps_putImage {pour : Nat} {img : Image} (h : Keeps s₀ s) : Keeps s₀ (putImage s pour img) := h

theorem keeps_escalateCtx {c : Ctx} {ch : Charge} (h : Keeps s₀ s) : Keeps s₀ (escalateCtx s c ch) := by
  unfold escalateCtx
  grind [keeps_startCut, keeps_appendFault, keeps_putCtx]

theorem keeps_chargeSaved {pour : Nat} {g : Image} {key : Nat} {ch : Charge} (h : Keeps s₀ s) :
    Keeps s₀ (chargeSaved s pour g key ch).1 := by
  unfold chargeSaved
  grind [keeps_updPour, keeps_appendFault, keeps_putImage]

theorem keeps_chargeOne {key : Nat} {ch : Charge} (h : Keeps s₀ s) : Keeps s₀ (chargeOne s key ch).1 := by
  unfold chargeOne
  grind [keeps_chargeSaved, keeps_escalateCtx, keeps_putCtx]

theorem keeps_setKettle {core k : Nat} {v : Kettle} (h : Keeps s₀ s) : Keeps s₀ (setKettle s core k v) := h

theorem keeps_armResume {key tenant : Nat} (h : Keeps s₀ s) : Keeps s₀ (armResume s key tenant) := by
  unfold armResume
  grind [Keeps, keeps_setKettle]

theorem keeps_queueUpcall {core : Nat} {u : Upcall}
    (h : Keeps s₀ s) : Keeps s₀ (queueUpcall s core u) := keeps_updCtx h

theorem keeps_parkHome {key : Nat} {va : Word} {eng : BitVec 8}
    (h : Keeps s₀ s) : Keeps s₀ (parkHome s key va eng) := by
  unfold parkHome
  grind [keeps_armResume, keeps_putCtx, keeps_updCore, keeps_queueUpcall]

theorem keeps_pageSaved {pour : Nat} {g : Image} {key tenant : Nat} {va : Word} {eng : BitVec 8} (h : Keeps s₀ s) :
    Keeps s₀ (pageSaved s pour g key tenant va eng).1 := by
  unfold pageSaved
  grind [keeps_armResume, keeps_putImage, keeps_chargeSaved]

theorem keeps_pageAt {key tenant : Nat} {va : Word} {eng : BitVec 8} (h : Keeps s₀ s) :
    Keeps s₀ (pageAt s key tenant va eng).1 := by
  unfold pageAt
  grind [keeps_pageSaved, keeps_armResume, keeps_chargeOne, keeps_queueUpcall]

theorem keeps_rekeyOut {f : Nat → Nat} (h : Keeps s₀ s) : Keeps s₀ (rekeyOut f s) := h

theorem keeps_leaveSlot {c : Ctx} (h : Keeps s₀ s) : Keeps s₀ (leaveSlot s c) := by
  unfold leaveSlot
  grind [keeps_updCore]

theorem keeps_freeWork {key : Nat} (h : Keeps s₀ s) : Keeps s₀ (freeWork s key) := h

theorem keeps_passCharges {l : List Charge} {key : Nat} {x : State × List FillFail} (h : Keeps s₀ x.1) :
    Keeps s₀ (passCharges l key x).1 := by
  unfold passCharges
  refine keeps_foldl_fst (fun _ _ h => ?_) l h
  exact keeps_chargeOne h

theorem keeps_endGen {key : Nat} (h : Keeps s₀ s) : Keeps s₀ (endGen s key).1 := by
  unfold endGen
  grind [keeps_putImage, keeps_freeWork, keeps_putCtx, keeps_leaveSlot]

theorem keeps_updSaved {f : CoreSt → CoreSt} (h : Keeps s₀ s) : Keeps s₀ (updSaved s f) := h

theorem keeps_failDrip {f : FillFail} {pid : Nat} (h : Keeps s₀ s) : Keeps s₀ (failDrip f pid s).1 := by
  unfold failDrip
  grind [Keeps, keeps_chargeOne, keeps_chargeSaved]

theorem keeps_failReq {f : FillFail} {addr : Nat} {keys : List Nat} {acc : State × List FillFail} {r : Req}
    (h : Keeps s₀ acc.1) : Keeps s₀ (failReq f addr keys acc r).1 := by
  unfold failReq
  grind [keeps_endGen, keeps_passCharges, keeps_chargeOne, keeps_updSaved, keeps_updCop, keeps_updMop, keeps_failDrip]

theorem keeps_freeGen {key : Nat} (h : Keeps s₀ s) : Keeps s₀ (freeGen s key) := by
  unfold freeGen
  grind [keeps_putImage, keeps_updCtx]

theorem keeps_failNow {f : FillFail} {r : Range} (h : Keeps s₀ s) : Keeps s₀ (failNow f r s).1 := by
  unfold failNow
  dsimp only
  split
  · exact h
  · next x _ =>
    refine keeps_foldl_fst (fun _ _ h => keeps_failReq h) _ ?_
    cases x.gen with
    | none => exact h
    | some g => exact keeps_freeGen h

theorem keeps_failOne {f : FillFail} (h : Keeps s₀ s) : Keeps s₀ (failOne f s).1 := by
  unfold failOne
  grind [Keeps, keeps_setBlockState, keeps_failNow, keeps_pageAt]

theorem keeps_failFills {n : Nat} {l : List FillFail} (h : Keeps s₀ s) : Keeps s₀ (failFills n l s) := by
  fun_induction failFills <;> grind [keeps_failOne]

theorem keeps_failLate {which : Nat → Bool} (h : Keeps s₀ s) : Keeps s₀ (failLate which s) := keeps_failFills h

theorem keeps_charge {key : Nat} {ch : Charge} (h : Keeps s₀ s) : Keeps s₀ (charge s key ch) := by
  unfold charge
  grind [keeps_chargeOne, keeps_failFills]

theorem keeps_chargeDeferred {key : Nat} {ch : Charge} (h : Keeps s₀ s) : Keeps s₀ (chargeDeferred s key ch) := by
  unfold chargeDeferred
  grind [keeps_putImage, keeps_charge, keeps_putCtx]

theorem keeps_bstrFail {core op chunk : Nat} {code : BitVec 32} (h : Keeps s₀ s) :
    Keeps s₀ (bstrFail s core op chunk code) := h

theorem keeps_failOpenChunk {cause : BitVec 8} (h : Keeps s₀ s) : Keeps s₀ (failOpenChunk s cause) := by
  unfold failOpenChunk
  grind [keeps_bstrFail]

theorem keeps_escalate {ch : Charge} (h : Keeps s₀ s) : Keeps s₀ (escalate ch s) := by
  unfold escalate
  grind [keeps_failFills, keeps_escalateCtx]

theorem keeps_deliver {ch : Charge} (h : Keeps s₀ s) : Keeps s₀ (deliver ch s) := h

theorem keeps_takeTrap {ch : Charge} (h : Keeps s₀ s) : Keeps s₀ (takeTrap ch s) := by
  unfold takeTrap
  grind [keeps_failOpenChunk, keeps_escalate, keeps_deliver]

theorem leads_trap {cause : BitVec 8} {val : Word} (h : Keeps s₀ s) : Leads s₀ (trap cause val s) := by
  unfold trap
  grind [leads_next, keeps_takeTrap]

theorem leads_trapX {cause : BitVec 8} {val : Word} {extra : BitVec 32} (h : Keeps s₀ s) :
    Leads s₀ (trapX cause val extra s) := by
  unfold trapX
  grind [leads_next, keeps_takeTrap]

theorem leads_returnTrap {up : Bool} (h : Keeps s₀ s) : Leads s₀ (returnTrap up s) := by
  unfold returnTrap
  grind [leads_next, keeps_updCx, leads_trap]

theorem leads_doneAt {pc : Addr} (h : Keeps s₀ s) : Leads s₀ (doneAt pc s) := by
  unfold doneAt
  grind [leads_next, keeps_updCx, keeps_takeTrap]

theorem leads_done (h : Keeps s₀ s) : Leads s₀ (done s) := leads_doneAt h

theorem leads_waitFor {c : Cond} (h : Keeps s₀ s) : Leads s₀ (waitFor c s) := by
  unfold waitFor
  grind [leads_next, keeps_updCx]

theorem leads_stallFor {c : Cond} (h : Keeps s₀ s) : Leads s₀ (stallFor c s) := by
  unfold stallFor
  grind [leads_next, keeps_updCx]

theorem leads_waitEvent {c : Cond} (h : Keeps s₀ s) : Leads s₀ (waitEvent c s) := by
  unfold waitEvent
  grind [leads_next, keeps_updCx]

theorem keeps_onCtx {key : Nat} {f : State → State} (h : Keeps s₀ s) (hf : ∀ s, Keeps s₀ s → Keeps s₀ (f s)) :
    Keeps s₀ (onCtx s key f) := by
  unfold onCtx
  grind [keeps_switchTo]

theorem leads_metThen {ended : Word → State → Out} {k : State → Out}
    (hended : ∀ a s, Keeps s₀ s → Leads s₀ (ended a s)) (hk : ∀ s, Keeps s₀ s → Leads s₀ (k s)) (h : Keeps s₀ s) :
    Leads s₀ (metThen ended k s) := by
  unfold metThen
  grind

theorem keeps_finish {key : Nat} {d : BitVec 5} {v : Word} (h : Keeps s₀ s) : Keeps s₀ (finish s key d v) := by
  unfold finish
  grind [keeps_onCtx, keeps_putCtx, keeps_takeTrap]

theorem leads_illegal {w : W32} (h : Keeps s₀ s) : Leads s₀ (illegal w s) := leads_trap h

/-! Packets and what they do on arrival -/

theorem keeps_post {src dst : Nat} {b : Body} (h : Keeps s₀ s) : Keeps s₀ (post s src dst b) := h

theorem keeps_dropPacket {pid : Nat} (h : Keeps s₀ s) : Keeps s₀ (dropPacket s pid) := h

theorem leads_releaseThen {k : State → Out} (hk : ∀ s, Keeps s₀ s → Leads s₀ (k s)) (h : Keeps s₀ s) :
    Leads s₀ (releaseThen k s) := by
  unfold releaseThen
  grind [leads_stallFor]

theorem keeps_reportTo {key tenant : Nat} {f : State → State} (h : Keeps s₀ s)
    (hf : ∀ s, Keeps s₀ s → Keeps s₀ (f s)) : Keeps s₀ (reportTo s key tenant f) := by
  unfold reportTo
  grind

theorem keeps_reportDec {cause : BitVec 8} {w : Word} {src : DecSrc} {tenant : Nat} (h : Keeps s₀ s) :
    Keeps s₀ (reportDec cause s w src tenant) := by
  unfold reportDec
  grind [keeps_reportTo, keeps_chargeDeferred, keeps_charge, keeps_updTenant]

theorem keeps_discardDec {w : Word} {src : DecSrc} {tenant : Nat} (h : Keeps s₀ s) :
    Keeps s₀ (discardDec s w src tenant) := keeps_reportDec h

theorem keeps_sendOut {w : Word} {src : DecSrc} {tenant : Nat}
    (h : Keeps s₀ s) : Keeps s₀ (sendOut s w src tenant) := by
  unfold sendOut
  grind [keeps_reportDec]

theorem keeps_postDec {src : Nat} {w : Word} {payload : Option (BitVec 128)} {from_ : DecSrc} {tenant : Nat}
    (h : Keeps s₀ s) : Keeps s₀ (postDec s src w payload from_ tenant) := by
  unfold postDec
  grind [keeps_post, keeps_sendOut]

theorem keeps_startHelper {core idx : Nat} {pc : Addr} {s2 s3 s4 : Word} {f : Ctx → Ctx} (h : Keeps s₀ s) :
    Keeps s₀ (startHelper s core idx pc s2 s3 s4 f) := keeps_putCtx h

theorem keeps_pushReq {core : Nat} {r : HReq} (h : Keeps s₀ s) : Keeps s₀ (pushReq s core r) := h

theorem keeps_abandonWait {key : Nat} (h : Keeps s₀ s) : Keeps s₀ (abandonWait s key) := h

theorem keeps_dropKettleReq {core k : Nat} (h : Keeps s₀ s) : Keeps s₀ (dropKettleReq s core k) := h

theorem keeps_resumeCtx {key : Nat} (h : Keeps s₀ s) : Keeps s₀ (resumeCtx s key) := by
  unfold resumeCtx
  dsimp only
  split
  · exact keeps_failLate (keeps_putCtx h)
  · exact keeps_failLate (keeps_putCtx h)
  · exact keeps_failLate h

theorem keeps_decKettle {core k d : Nat} (h : Keeps s₀ s) : Keeps s₀ (decKettle s core k d) := by
  unfold decKettle
  grind [keeps_setKettle, keeps_resumeCtx, keeps_pushReq]

theorem keeps_engineFault {key tenant : Nat} {va : Word} {eng : BitVec 8} (h : Keeps s₀ s) :
    Keeps s₀ (engineFault s key tenant va eng) := by
  unfold engineFault
  grind [keeps_pageAt, keeps_failFills]

theorem leads_tablePause {va : Nat} (h : Keeps s₀ s) : Leads s₀ (tablePause va s) := by
  unfold tablePause
  grind [leads_next, keeps_engineFault, keeps_updCx]

theorem keeps_startGen {core idx tenant rn block depth : Nat} {r : Range} (h : Keeps s₀ s) :
    Keeps s₀ (startGen s core idx tenant rn block depth r) := by
  unfold startGen
  extract_lets va pc setup s1 give
  have h1 : Keeps s₀ s1 := keeps_startHelper h
  exact h1

theorem keeps_requestGen {tenant rn block depth : Nat} {r : Range} {stand home : Nat} (h : Keeps s₀ s) :
    Keeps s₀ (requestGen s tenant rn block depth r stand home) := by
  unfold requestGen
  split <;> grind [keeps_startGen, keeps_pushReq]

/-! Migration -/

theorem keeps_depart {dst : Nat} (h : Keeps s₀ s) : Keeps s₀ (depart dst s) := by
  unfold depart
  exact keeps_post (keeps_leaveSlot h)

theorem leads_moveTo {dst : Nat} {k : State → Out} (hk : ∀ s, Keeps s₀ s → Leads s₀ (k s)) (h : Keeps s₀ s) :
    Leads s₀ (moveTo dst k s) := by
  unfold moveTo
  grind [leads_next, leads_trap, leads_releaseThen, keeps_depart]

theorem leads_homeOnly {w : W32} {k : State → Out} (hk : ∀ s, Keeps s₀ s → Leads s₀ (k s)) (h : Keeps s₀ s) :
    Leads s₀ (homeOnly w k s) := by
  unfold homeOnly
  grind [leads_next, leads_trap, leads_releaseThen, keeps_depart]

theorem keeps_reachHome {key : Nat} (h : Keeps s₀ s) : Keeps s₀ (reachHome s key) := by
  unfold reachHome
  grind [keeps_parkHome, keeps_putCtx]

theorem keeps_enterSlot {key core slot : Nat} (h : Keeps s₀ s) : Keeps s₀ (enterSlot s key core slot) := by
  unfold enterSlot
  grind [keeps_updCore, keeps_updCtx]

/-! Ring cursors -/

theorem keeps_setRing {core q : Nat} {r : Ring} (h : Keeps s₀ s) : Keeps s₀ (setRing s core q r) := h

theorem keeps_ringWindowWrite {core q : Nat} {head : Bool} {v key : Nat} (h : Keeps s₀ s) :
    Keeps s₀ (ringWindowWrite s core q head v key) := by
  unfold ringWindowWrite
  grind [keeps_charge, keeps_setRing, keeps_cleanCore]

/-! The path of an access: touches, fills, windows -/

theorem keeps_winWrite {key wa : Nat} {l : List Byte} (h : Keeps s₀ s) : Keeps s₀ (winWrite s key wa l) := by
  unfold winWrite
  dsimp only
  split
  · exact fun w => wf_wrBytes l _ (h w)
  · exact fun w => wf_wrBytes l _ (h w)
  · split
    · exact keeps_updCtx h
    · exact h
  · exact keeps_ringWindowWrite h
  · exact h

theorem leads_parkFor {va : Nat} {eng : BitVec 8} (h : Keeps s₀ s) : Leads s₀ (parkFor va eng s) := by
  unfold parkFor
  grind [leads_next, keeps_takeTrap, keeps_updCx, keeps_depart, keeps_parkHome]

theorem keeps_joinFill {t r b : Nat} {who : Req} (h : Keeps s₀ s) : Keeps s₀ (joinFill s t r b who) := by
  unfold joinFill
  dsimp only
  split <;> exact h

/-- Every state that a touch goes on with keeps the form. -/
def TouchKeeps (s₀ : State) (x : Touch) : Prop :=
  (∀ s, x = .pass s → Keeps s₀ s) ∧ ∀ s r b, x = .waits s r b → Keeps s₀ s

theorem keeps_startFill {t rn b depth key stand home : Nat} {r : Range} {reqs : List Req} {s' : State}
    (e : startFill s t rn r b depth reqs key stand home = .ok s') (h : Keeps s₀ s) : Keeps s₀ s' := by
  unfold startFill at e
  split at e
  · next s1 he =>
    cases e
    have h1 : Keeps s₀ s1 := keeps_setBlockState he h
    exact keeps_requestGen h1
  · next hne => exact absurd e (hne s')

theorem keeps_touchOne {t va depth key stand home : Nat} {who : Req} {own : Option GenHold} (h : Keeps s₀ s) :
    TouchKeeps s₀ (touchOne s t va who own depth key stand home) := by
  unfold touchOne
  dsimp only
  (repeat' split) <;> grind [TouchKeeps, keeps_blockState, keeps_joinFill, keeps_startFill]

theorem keeps_touchList {t depth key stand home : Nat} {who : Req} {own : Option GenHold} {l : List Nat} :
    ∀ {s : State}, Keeps s₀ s → TouchKeeps s₀ (touchList t who own depth key stand home l s) := by
  induction l with
  | nil => intro s h; exact ⟨fun _ e => by cases e; exact h, fun _ _ _ e => by cases e⟩
  | cons va l ih =>
    intro s h
    have h1 : TouchKeeps s₀ (touchOne s t va who own depth key stand home) := keeps_touchOne h
    rw [touchList]
    generalize touchOne s t va who own depth key stand home = x at h1 ⊢
    cases x with
    | pass s1 => exact ih (h1.1 s1 rfl)
    | _ => exact h1

theorem keeps_touchAll {t va n depth key stand home : Nat} {who : Req} {own : Option GenHold} (h : Keeps s₀ s) :
    TouchKeeps s₀ (touchAll s t va n who own depth key stand home) := keeps_touchList h

theorem keeps_touchAll_pass {t va n depth key stand home : Nat} {who : Req} {own : Option GenHold} {s' : State}
    (e : touchAll s t va n who own depth key stand home = .pass s') (h : Keeps s₀ s) : Keeps s₀ s' :=
  (keeps_touchAll h).1 _ e

theorem keeps_touchAll_waits {t va n depth key stand home r b : Nat} {who : Req} {own : Option GenHold} {s' : State}
    (e : touchAll s t va n who own depth key stand home = .waits s' r b) (h : Keeps s₀ s) : Keeps s₀ s' :=
  (keeps_touchAll h).2 _ _ _ e

theorem leads_touchTrap {cause : BitVec 8} {addr : Nat}
    (h : Keeps s₀ s) : Leads s₀ (touchTrap cause addr s) := leads_next.2 (keeps_takeTrap h)

theorem leads_touchThen {va n : Nat} {p : Word} {k : State → Out} (hk : ∀ s, Keeps s₀ s → Leads s₀ (k s))
    (h : Keeps s₀ s) : Leads s₀ (touchThen va n p k s) := by
  unfold touchThen
  grind [keeps_touchAll, keeps_touchAll_pass, keeps_touchAll_waits, leads_waitFor, leads_touchTrap, keeps_failFills,
    leads_tablePause, leads_stallFor, leads_trap]

theorem leads_winThen {wa n : Nat} {write : Bool} {p : Word} {k : State → Out}
    (hk : ∀ s, Keeps s₀ s → Leads s₀ (k s)) (h : Keeps s₀ s) : Leads s₀ (winThen wa n write p k s) := by
  unfold winThen
  grind [leads_trap, leads_stallFor, leads_releaseThen]

theorem leads_ownThen {va n : Nat} {k : State → Out} (hk : ∀ s, Keeps s₀ s → Leads s₀ (k s)) (h : Keeps s₀ s) :
    Leads s₀ (ownThen va n k s) := by
  unfold ownThen
  grind [leads_stallFor]

theorem leads_presentThen {va n : Nat} {write : Bool} {k : State → Out} (hk : ∀ s, Keeps s₀ s → Leads s₀ (k s))
    (h : Keeps s₀ s) : Leads s₀ (presentThen va n write k s) := by
  unfold presentThen
  grind [leads_parkFor]

theorem leads_globThen {va n : Nat} {write : Bool} {p : Word} {k : State → Out}
    (hk : ∀ s, Keeps s₀ s → Leads s₀ (k s)) (h : Keeps s₀ s) : Leads s₀ (globThen va n write p k s) := by
  unfold globThen
  grind [leads_ownThen, leads_presentThen, leads_touchThen]

theorem leads_pathRead {va n : Nat} {p : Word} {k : List Byte → State → Out}
    (hk : ∀ a s, Keeps s₀ s → Leads s₀ (k a s)) (h : Keeps s₀ s) : Leads s₀ (pathRead va n p k s) := by
  unfold pathRead
  grind [keeps_gread, leads_parkFor, leads_stallFor, leads_trap]

theorem leads_readThen {t : Tgt} {n : Nat} {p : Word} {k : List Byte → State → Out}
    (hk : ∀ a s, Keeps s₀ s → Leads s₀ (k a s)) (h : Keeps s₀ s) : Leads s₀ (readThen t n p k s) := by
  unfold readThen
  grind [leads_winThen, leads_globThen, leads_pathRead]

theorem leads_writeThen {t : Tgt} {l : List Byte} {p : Word} {kind : Nat} {later : Bool} {k : State → Out}
    (hk : ∀ s, Keeps s₀ s → Leads s₀ (k s)) (h : Keeps s₀ s) : Leads s₀ (writeThen t l p kind later k s) := by
  unfold writeThen
  grind [leads_winThen, keeps_winWrite, leads_globThen, keeps_gwrite, leads_parkFor, leads_stallFor,
    keeps_chargeDeferred, leads_trap]

/-! Checks of operands -/

theorem leads_failIf {bad : Bool} {cause : BitVec 8} {val : Word} {k : State → Out}
    (hk : ∀ s, Keeps s₀ s → Leads s₀ (k s)) (h : Keeps s₀ s) : Leads s₀ (failIf bad cause val k s) := by
  unfold failIf
  grind [leads_trap]

theorem keeps_holdDeferred {l : List Charge} (h : Keeps s₀ s) : Keeps s₀ (holdDeferred l s) := by
  fun_induction holdDeferred <;> grind [keeps_charge, keeps_updCx]

theorem leads_deferredThen {k : State → Out} (hk : ∀ s, Keeps s₀ s → Leads s₀ (k s)) (h : Keeps s₀ s) :
    Leads s₀ (deferredThen k s) := by
  unfold deferredThen
  grind [leads_next, keeps_holdDeferred, keeps_takeTrap, keeps_updCx]

theorem leads_tagThen {ptr : Word} {k : State → Out} (hk : ∀ s, Keeps s₀ s → Leads s₀ (k s)) (h : Keeps s₀ s) :
    Leads s₀ (tagThen ptr k s) := leads_failIf hk h

theorem leads_segThen {g : Seg} {off n right : Nat} {write : Bool} {p : Word} {k : Tgt → State → Out}
    (hk : ∀ a s, Keeps s₀ s → Leads s₀ (k a s)) (h : Keeps s₀ s) : Leads s₀ (segThen g off n right write p k s) := by
  unfold segThen
  grind [leads_trap]

theorem leads_ptrThen {g : Seg} {ptr : Word} {n align right : Nat} {write : Bool} {k : Tgt → State → Out}
    (hk : ∀ a s, Keeps s₀ s → Leads s₀ (k a s)) (h : Keeps s₀ s) :
    Leads s₀ (ptrThen g ptr n align right write k s) := by
  unfold ptrThen
  grind [leads_tagThen, leads_failIf, leads_segThen]

theorem leads_fmThen {ptr : Word} {g : Seg} {w : BitVec 2} {o : BitVec 11} {write : Bool}
    {k : Tgt → Word → State → Out} (hk : ∀ a b s, Keeps s₀ s → Leads s₀ (k a b s)) (h : Keeps s₀ s) :
    Leads s₀ (fmThen ptr g w o write k s) := by
  unfold fmThen
  grind [leads_tagThen, leads_failIf, leads_segThen]

theorem leads_fmHere {wd : W32} {t : Tgt} {k : State → Out} (hk : ∀ s, Keeps s₀ s → Leads s₀ (k s)) (h : Keeps s₀ s) :
    Leads s₀ (fmHere wd t k s) := by
  unfold fmHere
  grind [leads_homeOnly]

theorem leads_dwThen {w : Word} {k : State → Out} (hk : ∀ s, Keeps s₀ s → Leads s₀ (k s)) (h : Keeps s₀ s) :
    Leads s₀ (dwThen w k s) := leads_failIf hk h

/-! Flags and MSTAT -/

theorem keeps_flag {f : Flags} (h : Keeps s₀ s) : Keeps s₀ (Machine.flag f s) := h

theorem keeps_flagFor {key : Nat} {f : Flags} (h : Keeps s₀ s) : Keeps s₀ (flagFor s key f) := by
  unfold flagFor
  grind [keeps_putImage, keeps_updCtx]

theorem keeps_mstatFor {key : Nat} {f : Word} (h : Keeps s₀ s) : Keeps s₀ (mstatFor s key f) := by
  unfold mstatFor
  grind [keeps_updCtx]

/-! Chunks and slots of streams -/

theorem keeps_updChunk {core op k : Nat} {f : Chunk → Chunk} (h : Keeps s₀ s) : Keeps s₀ (updChunk s core op k f) := h

theorem keeps_popHead {core ring : Nat} {r : Ring} (h : Keeps s₀ s) : Keeps s₀ (popHead s core ring r) := by
  unfold popHead
  split <;> exact h

theorem keeps_popReady {n core ring : Nat} (h : Keeps s₀ s) : Keeps s₀ (popReady n core ring s) := by
  fun_induction popReady <;> grind [keeps_popHead]

theorem keeps_closeSlot {core : Nat} (h : Keeps s₀ s) : Keeps s₀ (closeSlot core s) := by
  unfold closeSlot
  grind [keeps_updChunk, keeps_popReady, keeps_updCore]

/-! Vector operations, whole registers -/

theorem keeps_streamStep {r : BitVec 4} (h : Keeps s₀ s) : Keeps s₀ (streamStep s r) := by
  unfold streamStep
  dsimp only
  (repeat' split) <;> exact h

theorem keeps_commitIn {srcs : List (BitVec 4)} (h : Keeps s₀ s) : Keeps s₀ (commitIn srcs s) := by
  unfold commitIn
  grind [keeps_foldl, keeps_streamStep, keeps_wv]

theorem keeps_commitOut {dsts : List (BitVec 4)} (h : Keeps s₀ s) : Keeps s₀ (commitOut dsts s) := by
  unfold commitOut
  grind [keeps_foldl, keeps_streamStep, keeps_wrScratch]

theorem leads_hinderThen {h₁ : Hinder} {k : State → Out} (hk : ∀ s, Keeps s₀ s → Leads s₀ (k s)) (h : Keeps s₀ s) :
    Leads s₀ (hinderThen h₁ k s) := by
  unfold hinderThen
  grind [leads_trap, leads_stallFor]

theorem leads_vecThen {srcs dsts : List (BitVec 4)} {k : State → Out} (hk : ∀ s, Keeps s₀ s → Leads s₀ (k s))
    (h : Keeps s₀ s) : Leads s₀ (vecThen srcs dsts k s) := leads_hinderThen hk h

theorem leads_vecDo {srcs dsts : List (BitVec 4)} {body : State → State}
    (hbody : ∀ s, Keeps s₀ s → Keeps s₀ (body s)) (h : Keeps s₀ s) : Leads s₀ (vecDo srcs dsts body s) := by
  unfold vecDo
  grind [leads_vecThen, leads_done, keeps_commitOut, keeps_commitIn]

/-! SYS -/

theorem leads_execNop (h : Keeps s₀ s) : Leads s₀ (execNop s) := leads_done h

theorem leads_execYield (h : Keeps s₀ s) : Leads s₀ (execYield s) := by
  unfold execYield
  grind [leads_done, keeps_updCx]

theorem keeps_dropRow {r : Option (Nat × Option Nat)} (h : Keeps s₀ s) : Keeps s₀ (dropRow s r) := by
  unfold dropRow
  split <;> exact h

theorem keeps_freeSetups {pour key : Nat} (h : Keeps s₀ s) : Keeps s₀ (freeSetups s pour key) := h

theorem keeps_endCtx (h : Keeps s₀ s) : Keeps s₀ (endCtx s) := by
  unfold endCtx
  extract_lets c s1 s2 s3 s4
  have h1 : Keeps s₀ s1 := keeps_dropRow (keeps_leaveSlot h)
  have h2 : Keeps s₀ s2 := by
    unfold s2
    split
    · exact keeps_closeSlot (keeps_failOpenChunk h1)
    · exact h1
  have h3 : Keeps s₀ s3 := keeps_foldl (fun _ _ h => keeps_charge h) _ h2
  refine keeps_freeWork ?_
  unfold s4
  split
  · exact keeps_failFills h3
  · exact h3

theorem leads_stopCtx (h : Keeps s₀ s) : Leads s₀ (stopCtx s) := by
  unfold stopCtx
  grind [leads_next, keeps_freeSetups, keeps_depart, leads_waitEvent, keeps_endCtx]

theorem leads_openThen {k : State → Out} (hk : ∀ s, Keeps s₀ s → Leads s₀ (k s)) (h : Keeps s₀ s) :
    Leads s₀ (openThen k s) := by
  unfold openThen
  grind [leads_trap]

theorem leads_execStop (h : Keeps s₀ s) : Leads s₀ (execStop s) := by
  unfold execStop
  grind [leads_waitFor, leads_deferredThen, leads_openThen, leads_stopCtx]

theorem keeps_writeLsplit {core : Nat} {v : Word} (h : Keeps s₀ s) : Keeps s₀ (writeLsplit core v s) :=
  fun w => wf_eraseRange _ _ (h w)

theorem keeps_writeTxwake {core : Nat} {v : Word} (h : Keeps s₀ s) : Keeps s₀ (writeTxwake core v s) := h

theorem keeps_csrPut {n : Nat} {v : Word} (h : Keeps s₀ s) : Keeps s₀ (csrPut s n v) := by
  unfold csrPut
  grind [keeps_updCx, keeps_writeLsplit, keeps_updCore, keeps_writeTxwake]

theorem leads_csrThen {n : Nat} {write : Bool} {wd : W32} {k : State → Out}
    (hk : ∀ s, Keeps s₀ s → Leads s₀ (k s)) (h : Keeps s₀ s) : Leads s₀ (csrThen n write wd k s) := by
  unfold csrThen
  grind [leads_trap, leads_homeOnly]

theorem leads_csrWrite {n : Nat} {f : Word → Word → Word} {a : BitVec 5} (h : Keeps s₀ s) :
    Leads s₀ (csrWrite n f a s) := by
  unfold csrWrite
  grind [leads_failIf, leads_stallFor, leads_done, keeps_csrPut]

theorem leads_execCsrr {d b c : BitVec 5} (h : Keeps s₀ s) : Leads s₀ (execCsrr d b c s) := by
  unfold execCsrr
  grind [leads_csrThen, leads_done, keeps_ws]

theorem leads_execCsrw {a b c : BitVec 5} (h : Keeps s₀ s) : Leads s₀ (execCsrw a b c s) := by
  unfold execCsrw
  grind [leads_csrThen, leads_csrWrite]

theorem leads_execCsrset {a b c : BitVec 5} (h : Keeps s₀ s) : Leads s₀ (execCsrset a b c s) := by
  unfold execCsrset
  grind [leads_csrThen, leads_csrWrite]

theorem leads_execCsrclr {a b c : BitVec 5} (h : Keeps s₀ s) : Leads s₀ (execCsrclr a b c s) := by
  unfold execCsrclr
  grind [leads_csrThen, leads_csrWrite]

theorem leads_execSegw {g : BitVec 3} {a b : BitVec 5} (h : Keeps s₀ s) : Leads s₀ (execSegw g a b s) := by
  unfold execSegw
  grind [leads_failIf, leads_done, keeps_updCx]

theorem leads_execSegr {d : BitVec 5} {g : BitVec 3} {sel : BitVec 5}
    (h : Keeps s₀ s) : Leads s₀ (execSegr d g sel s) := by
  unfold execSegr
  grind [leads_done, keeps_ws]

theorem leads_execIdent {d sel : BitVec 5} (h : Keeps s₀ s) : Leads s₀ (execIdent d sel s) := by
  unfold execIdent
  grind [leads_done, keeps_ws]

theorem leads_execRdcyc {d sel : BitVec 5} (h : Keeps s₀ s) : Leads s₀ (execRdcyc d sel s) := by
  unfold execRdcyc
  grind [leads_done, keeps_ws]

theorem leads_execTrap {a : BitVec 5} (h : Keeps s₀ s) : Leads s₀ (execTrap a s) := leads_trap h

theorem leads_execBrk {i : BitVec 5} (h : Keeps s₀ s) : Leads s₀ (execBrk i s) := leads_trap h

theorem leads_execTret (h : Keeps s₀ s) : Leads s₀ (execTret s) := leads_returnTrap h

theorem leads_kindThen {ok : Bool} {wd : W32} {k : State → Out} (hk : ∀ s, Keeps s₀ s → Leads s₀ (k s))
    (h : Keeps s₀ s) : Leads s₀ (kindThen ok wd k s) := leads_failIf hk h

theorem leads_execUret (h : Keeps s₀ s) : Leads s₀ (execUret s) := by
  unfold execUret
  grind [leads_kindThen, leads_returnTrap]

theorem leads_execFrec {d : BitVec 4} (h : Keeps s₀ s) : Leads s₀ (execFrec d s) := by
  unfold execFrec
  grind [leads_vecDo, keeps_wv, keeps_updCx]

theorem leads_saveHelper {key : Nat} {d : BitVec 5} (h : Keeps s₀ s) : Leads s₀ (saveHelper key d s) := by
  unfold saveHelper
  extract_lets n aside s1 c hd res sv s2 s3
  have h1 : Keeps s₀ s1 := keeps_abandonWait h
  have h3 : Keeps s₀ s3 := h1
  exact leads_done (keeps_ws (keeps_putCtx h3))

theorem leads_execCtxsv {d a : BitVec 5} (h : Keeps s₀ s) : Leads s₀ (execCtxsv d a s) := by
  unfold execCtxsv
  grind [leads_kindThen, leads_failIf, leads_waitFor, leads_saveHelper]

theorem keeps_restoreHelper {core idx : Nat} {handle : Word}
    (h : Keeps s₀ s) : Keeps s₀ (restoreHelper s core idx handle) := by
  unfold restoreHelper
  split
  · extract_lets key s0 s1
    have h1 : Keeps s₀ s1 := h
    exact keeps_setKettle (keeps_putCtx h1)
  · exact h

theorem leads_execCtxld {d a : BitVec 5} (h : Keeps s₀ s) : Leads s₀ (execCtxld d a s) := by
  unfold execCtxld
  grind [leads_kindThen, leads_failIf, leads_done, keeps_ws, keeps_restoreHelper, leads_waitEvent, keeps_pushReq]

theorem leads_execMark {d a : BitVec 5} (h : Keeps s₀ s) : Leads s₀ (execMark d a s) := by
  unfold execMark
  grind [leads_kindThen, leads_failIf, leads_waitEvent, keeps_startCut]

/-! ATOM and DRIP -/

theorem leads_atomAt {f : AtomOp} {signed : Bool} {n va : Nat} {d b : BitVec 5} {ptr : Word} (h : Keeps s₀ s) :
    Leads s₀ (atomAt f signed n va d b ptr s) := by
  unfold atomAt
  grind [leads_readThen, leads_done, keeps_ws, keeps_flag, leads_writeThen]

theorem leads_orderThen {o : AOrd} {k : State → Out} (hk : ∀ s, Keeps s₀ s → Leads s₀ (k s)) (h : Keeps s₀ s) :
    Leads s₀ (orderThen o k s) := by
  unfold orderThen
  grind [leads_releaseThen]

theorem leads_atom {f : AtomOp} {signed : Bool} {d a b : BitVec 5} {o : AOrd} {x : Bool} (h : Keeps s₀ s) :
    Leads s₀ (atom f signed d a b o x s) := by
  unfold atom
  refine leads_tagThen (fun _ => leads_failIf (fun _ => leads_failIf (fun _ => leads_segThen (fun t s h => ?_)))) h
  cases t with
  | glob va => exact leads_orderThen (fun _ => leads_moveTo (fun _ => leads_atomAt)) h
  | win wa => exact leads_trap h

theorem leads_execAadd {d a b : BitVec 5} {o : AOrd} {x : Bool}
    (h : Keeps s₀ s) : Leads s₀ (execAadd d a b o x s) := leads_atom h

theorem leads_execAand {d a b : BitVec 5} {o : AOrd} {x : Bool}
    (h : Keeps s₀ s) : Leads s₀ (execAand d a b o x s) := leads_atom h

theorem leads_execAor {d a b : BitVec 5} {o : AOrd} {x : Bool}
    (h : Keeps s₀ s) : Leads s₀ (execAor d a b o x s) := leads_atom h

theorem leads_execAxor {d a b : BitVec 5} {o : AOrd} {x : Bool}
    (h : Keeps s₀ s) : Leads s₀ (execAxor d a b o x s) := leads_atom h

theorem leads_execAmin {d a b : BitVec 5} {o : AOrd} {x : Bool}
    (h : Keeps s₀ s) : Leads s₀ (execAmin d a b o x s) := leads_atom h

theorem leads_execAmax {d a b : BitVec 5} {o : AOrd} {x : Bool}
    (h : Keeps s₀ s) : Leads s₀ (execAmax d a b o x s) := leads_atom h

theorem leads_execAminu {d a b : BitVec 5} {o : AOrd} {x : Bool}
    (h : Keeps s₀ s) : Leads s₀ (execAminu d a b o x s) := leads_atom h

theorem leads_execAmaxu {d a b : BitVec 5} {o : AOrd} {x : Bool}
    (h : Keeps s₀ s) : Leads s₀ (execAmaxu d a b o x s) := leads_atom h

theorem leads_execAswap {d a b : BitVec 5} {o : AOrd} {x : Bool}
    (h : Keeps s₀ s) : Leads s₀ (execAswap d a b o x s) := leads_atom h

theorem leads_execAcas {d a b : BitVec 5} {o : AOrd} {x : Bool}
    (h : Keeps s₀ s) : Leads s₀ (execAcas d a b o x s) := leads_atom h

theorem leads_execAaddf {d a b : BitVec 5} {o : AOrd} {x : Bool}
    (h : Keeps s₀ s) : Leads s₀ (execAaddf d a b o x s) := leads_atom h

theorem leads_execAminf {d a b : BitVec 5} {o : AOrd} {x : Bool}
    (h : Keeps s₀ s) : Leads s₀ (execAminf d a b o x s) := leads_atom h

theorem leads_execAmaxf {d a b : BitVec 5} {o : AOrd} {x : Bool}
    (h : Keeps s₀ s) : Leads s₀ (execAmaxf d a b o x s) := leads_atom h

theorem leads_drip {op : DripOp} {float : Bool} {d a b : BitVec 5}
    (h : Keeps s₀ s) : Leads s₀ (drip op float d a b s) := by
  unfold drip
  refine leads_tagThen (fun _ => leads_failIf (fun _ => leads_failIf (fun _ => leads_failIf (fun _ =>
    leads_segThen (fun t _ => leads_failIf (fun s h => ?_)))))) h
  cases t with
  | glob va => exact leads_done (keeps_post h)
  | win wa => exact leads_trap h

theorem leads_execDadd {d a b : BitVec 5} (h : Keeps s₀ s) : Leads s₀ (execDadd d a b s) := leads_drip h

theorem leads_execDand {d a b : BitVec 5} (h : Keeps s₀ s) : Leads s₀ (execDand d a b s) := leads_drip h

theorem leads_execDor {d a b : BitVec 5} (h : Keeps s₀ s) : Leads s₀ (execDor d a b s) := leads_drip h

theorem leads_execDmin {d a b : BitVec 5} (h : Keeps s₀ s) : Leads s₀ (execDmin d a b s) := leads_drip h

theorem leads_execDmax {d a b : BitVec 5} (h : Keeps s₀ s) : Leads s₀ (execDmax d a b s) := leads_drip h

theorem leads_execDaddf {d a b : BitVec 5} (h : Keeps s₀ s) : Leads s₀ (execDaddf d a b s) := leads_drip h

theorem leads_execDminf {d a b : BitVec 5} (h : Keeps s₀ s) : Leads s₀ (execDminf d a b s) := leads_drip h

theorem leads_execDmaxf {d a b : BitVec 5} (h : Keeps s₀ s) : Leads s₀ (execDmaxf d a b s) := leads_drip h

theorem leads_execGo {a : BitVec 5} (h : Keeps s₀ s) : Leads s₀ (execGo a s) := by
  unfold execGo
  refine leads_ptrThen (fun t s h => ?_) h
  cases t with
  | glob va => exact leads_moveTo (fun _ => leads_done) h
  | win wa => exact leads_done h

theorem leads_execHome (h : Keeps s₀ s) : Leads s₀ (execHome s) := by
  unfold execHome
  grind [leads_moveTo, leads_done, keeps_updCx]

theorem leads_execWhere {d : BitVec 5} (h : Keeps s₀ s) : Leads s₀ (execWhere d s) := by
  unfold execWhere
  grind [leads_done, keeps_ws]

theorem leads_execStay (h : Keeps s₀ s) : Leads s₀ (execStay s) := by
  unfold execStay
  grind [leads_done, keeps_updCx]

theorem keeps_cleanFar {t : Tgt} {n : Nat} (h : Keeps s₀ s) : Keeps s₀ (cleanFar t n s) := by
  unfold cleanFar
  split <;> exact h

theorem leads_execFarld {d a : BitVec 5} {w : BitVec 2} (h : Keeps s₀ s) : Leads s₀ (execFarld d a w s) := by
  unfold execFarld
  grind [leads_fmThen, leads_readThen, leads_done, keeps_ws, keeps_cleanFar]

theorem leads_execFarst {a b : BitVec 5} {w : BitVec 2} (h : Keeps s₀ s) : Leads s₀ (execFarst a b w s) := by
  unfold execFarst
  grind [leads_fmThen, leads_writeThen, leads_done, keeps_cleanFar]

/-! KET -/

theorem leads_kettleReg {v : Word} {program : Bool} {k : Nat → State → Out}
    (hk : ∀ a s, Keeps s₀ s → Leads s₀ (k a s)) (h : Keeps s₀ s) : Leads s₀ (kettleReg v program k s) := by
  unfold kettleReg
  grind [leads_failIf]

theorem leads_ownedThen {n : Nat} {v : Word} {k : State → Out} (hk : ∀ s, Keeps s₀ s → Leads s₀ (k s))
    (h : Keeps s₀ s) : Leads s₀ (ownedThen n v k s) := by
  unfold ownedThen
  grind [leads_failIf, leads_trap]

theorem leads_execKset {d a b : BitVec 5} (h : Keeps s₀ s) : Leads s₀ (execKset d a b s) := by
  unfold execKset
  grind [leads_homeOnly, leads_failIf, leads_done, keeps_setKettle, keeps_dropKettleReq]

theorem leads_kaddTo {n : Nat} {x : Int} (h : Keeps s₀ s) : Leads s₀ (kaddTo n x s) := by
  unfold kaddTo
  grind [leads_failIf, keeps_decKettle, keeps_setKettle, leads_done]

theorem leads_execKadd {a b : BitVec 5} (h : Keeps s₀ s) : Leads s₀ (execKadd a b s) := by
  unfold execKadd
  grind [leads_homeOnly, leads_kettleReg, leads_ownedThen, leads_kaddTo]

theorem leads_execKread {d a : BitVec 5} (h : Keeps s₀ s) : Leads s₀ (execKread d a s) := by
  unfold execKread
  grind [leads_homeOnly, leads_kettleReg, leads_ownedThen, leads_done, keeps_ws]

theorem leads_execKwait {a : BitVec 5} (h : Keeps s₀ s) : Leads s₀ (execKwait a s) := by
  unfold execKwait
  grind [leads_homeOnly, leads_kettleReg, leads_waitFor, leads_ownedThen, leads_failIf, leads_done]

theorem keeps_kettleOff {core k : Nat} (h : Keeps s₀ s) : Keeps s₀ (kettleOff s core k) := h

theorem leads_execKoff {a : BitVec 5} (h : Keeps s₀ s) : Leads s₀ (execKoff a s) := by
  unfold execKoff
  grind [leads_homeOnly, leads_kettleReg, leads_ownedThen, leads_done, keeps_kettleOff]

theorem leads_sendMsg {w : Word} {payload : BitVec 384} {len : Nat} {k : State → Out}
    (hk : ∀ s, Keeps s₀ s → Leads s₀ (k s)) (h : Keeps s₀ s) : Leads s₀ (sendMsg w payload len k s) := by
  unfold sendMsg
  grind [leads_dwThen, leads_releaseThen, leads_waitFor, keeps_updCore, keeps_post, keeps_sendOut]

theorem leads_execSend {d a b : BitVec 5} (h : Keeps s₀ s) : Leads s₀ (execSend d a b s) := by
  unfold execSend
  grind [leads_sendMsg, leads_done]

theorem leads_execSendv {d : BitVec 5} {v : BitVec 4} (h : Keeps s₀ s) : Leads s₀ (execSendv d v s) := by
  unfold execSendv
  grind [leads_vecThen, leads_sendMsg, leads_done, keeps_commitIn]

theorem keeps_recvFrom {core n : Nat} {v : BitVec 4} (h : Keeps s₀ s) : Keeps s₀ (recvFrom core n v s) := by
  unfold recvFrom
  split <;> exact h

theorem leads_execRecv {v : BitVec 4} {a : BitVec 5} (h : Keeps s₀ s) : Leads s₀ (execRecv v a s) := by
  unfold execRecv
  grind [leads_homeOnly, leads_kettleReg, leads_failIf, leads_vecDo, keeps_recvFrom]

theorem leads_execAllow {a b : BitVec 5} (h : Keeps s₀ s) : Leads s₀ (execAllow a b s) := by
  unfold execAllow
  grind [leads_homeOnly, leads_failIf, leads_done, keeps_post]

theorem leads_execAvail {d a : BitVec 5} (h : Keeps s₀ s) : Leads s₀ (execAvail d a s) := by
  unfold execAvail
  grind [leads_homeOnly, leads_failIf, leads_done, keeps_ws]

/-! Issue of a core, the clock -/

theorem keeps_clockTick (h : Keeps s₀ s) : Keeps s₀ (clockTick s) := keeps_writeOut h

theorem keeps_sameTick (h : Keeps s₀ s) : Keeps s₀ (sameTick s) := h

theorem keeps_spendPasses {core : Nat} {slots : List Nat} (h : Keeps s₀ s) : Keeps s₀ (spendPasses s core slots) := by
  unfold spendPasses
  grind [keeps_foldl, keeps_updCtx]

theorem leads_fetchTrap {cause : BitVec 8}
    (h : Keeps s₀ s) : Leads s₀ (fetchTrap cause s) := leads_next.2 (keeps_takeTrap h)

theorem leads_fetchWord {old : State → Option W32} {new : W32} {k : W32 → State → Out}
    (hk : ∀ a s, Keeps s₀ s → Leads s₀ (k a s)) (h : Keeps s₀ s) : Leads s₀ (fetchWord old new k s) := by
  unfold fetchWord
  grind [keeps_updCx]

theorem leads_fetchWait {c : Cond} (h : Keeps s₀ s) : Leads s₀ (fetchWait c s) := leads_next.2 (keeps_updCx h)

theorem leads_fetchThen {k : W32 → State → Out} (hk : ∀ a s, Keeps s₀ s → Leads s₀ (k a s)) (h : Keeps s₀ s) :
    Leads s₀ (fetchThen k s) := by
  unfold fetchThen
  grind [leads_fetchTrap, leads_fetchWait, leads_fetchWord, keeps_gread, leads_parkFor]

theorem leads_bpThen {k : State → Out} (hk : ∀ s, Keeps s₀ s → Leads s₀ (k s)) (h : Keeps s₀ s) :
    Leads s₀ (bpThen k s) := by
  unfold bpThen
  grind [leads_next, keeps_takeTrap]

theorem leads_chargedThen {k : State → Out} (hk : ∀ s, Keeps s₀ s → Leads s₀ (k s)) (h : Keeps s₀ s) :
    Leads s₀ (chargedThen k s) := by
  unfold chargedThen
  grind [leads_next, keeps_takeTrap, keeps_updCx]

theorem keeps_afterIssue {i : Code} {w : W32} {c : Ctx} (h : Keeps s₀ s) : Keeps s₀ (afterIssue i w c s) := by
  unfold afterIssue
  (repeat' split) <;> exact h

theorem leads_runCore {run : Code → State → Out} {i : Code} {w : W32}
    (hrun : ∀ a s, Keeps s₀ s → Leads s₀ (run a s)) (h : Keeps s₀ s) : Leads s₀ (runCore run i w s) := by
  unfold runCore
  grind [leads_next, keeps_afterIssue]

theorem leads_runWord {run : Code → State → Out} {w : W32} (hrun : ∀ a s, Keeps s₀ s → Leads s₀ (run a s))
    (h : Keeps s₀ s) : Leads s₀ (runWord run w s) := by
  unfold runWord
  grind [leads_runCore, leads_illegal]

theorem leads_issueWord {run : Code → State → Out} {w : W32} (hrun : ∀ a s, Keeps s₀ s → Leads s₀ (run a s))
    (h : Keeps s₀ s) : Leads s₀ (issueWord run w s) := by
  unfold issueWord
  grind [leads_runCore, keeps_updCx, leads_illegal]

theorem leads_issueCtx {run : Code → State → Out} (hrun : ∀ a s, Keeps s₀ s → Leads s₀ (run a s)) (h : Keeps s₀ s) :
    Leads s₀ (issueCtx run s) := by
  unfold issueCtx
  grind [leads_runWord, leads_chargedThen, leads_bpThen, leads_issueWord, leads_fetchThen]

theorem leads_issueCore {run : Code → State → Out} {core : Nat} (hrun : ∀ a s, Keeps s₀ s → Leads s₀ (run a s))
    (h : Keeps s₀ s) : Leads s₀ (issueCore run core s) := by
  unfold issueCore
  extract_lets pick scan s1
  have h1 : Keeps s₀ s1 := keeps_updCore (keeps_spendPasses h)
  split
  · exact leads_next.2 h1
  · exact leads_issueCtx hrun (keeps_switchTo h1)

theorem leads_execInstructionFetch (h : Keeps s₀ s) : Leads s₀ (execInstructionFetch s) := by
  unfold execInstructionFetch
  grind [leads_next, keeps_switchTo, leads_fetchThen, keeps_updCx]

/-! Vector and predicate instructions -/

theorem leads_typeThen {ty : VType} {a : Accept} {wd : W32} {k : EK → State → Out}
    (hk : ∀ a s, Keeps s₀ s → Leads s₀ (k a s)) (h : Keeps s₀ s) : Leads s₀ (typeThen ty a wd k s) := by
  unfold typeThen
  grind [leads_trap]

theorem keeps_vopBody {o : ElOp} {e : EK} {md : Mode} {d a : BitVec 4} {y : State → Nat → Nat} {p : BitVec 3}
    (h : Keeps s₀ s) : Keeps s₀ (vopBody o e md d a y p s) := h

theorem leads_vop {o : ElOp} {acc : Bool} {ac : Accept} {wd : W32} {d a b : BitVec 4} {p : BitVec 3} {ty : VType}
    {rsrc : RSrc} (h : Keeps s₀ s) :
    Leads s₀ (vop o acc ac wd d a b p ty rsrc s) := by
  unfold vop
  grind [leads_typeThen, leads_vecDo, keeps_vopBody]

theorem leads_vop1 {o : ElOp} {ac : Accept} {wd : W32} {d a : BitVec 4} {p : BitVec 3} {ty : VType} {rsrc : RSrc}
    (h : Keeps s₀ s) : Leads s₀ (vop1 o ac wd d a p ty rsrc s) := by
  unfold vop1
  grind [leads_typeThen, leads_vecDo, keeps_vopBody]

theorem leads_vsc {o : ElOp} {acc : Bool} {ac : Accept} {wd : W32} {d a : BitVec 4} {c : BitVec 5} {p : BitVec 3}
    {ty : VType} {rsrc : RSrc} (h : Keeps s₀ s) :
    Leads s₀ (vsc o acc ac wd d a c p ty rsrc s) := by
  unfold vsc
  grind [leads_typeThen, leads_vecDo, keeps_vopBody]

theorem leads_vlanes {f : Nat → Nat → Nat} {d : BitVec 4} {srcs : List (BitVec 4)} {a b : BitVec 4}
    {p : BitVec 3} (h : Keeps s₀ s) :
    Leads s₀ (vlanes f d srcs a b p s) := by
  unfold vlanes
  grind [leads_vecDo, keeps_wv]

theorem leads_execVadd {d a b : BitVec 4} {p : BitVec 3} {ty : VType} {rs : RSrc} (h : Keeps s₀ s) :
    Leads s₀ (execVadd d a b p ty rs s) := leads_vop h

theorem leads_execVsub {d a b : BitVec 4} {p : BitVec 3} {ty : VType} {rs : RSrc} (h : Keeps s₀ s) :
    Leads s₀ (execVsub d a b p ty rs s) := leads_vop h

theorem leads_execVmul {d a b : BitVec 4} {p : BitVec 3} {ty : VType} {rs : RSrc} (h : Keeps s₀ s) :
    Leads s₀ (execVmul d a b p ty rs s) := leads_vop h

theorem leads_execVfma {d a b : BitVec 4} {p : BitVec 3} {ty : VType} {rs : RSrc} (h : Keeps s₀ s) :
    Leads s₀ (execVfma d a b p ty rs s) := leads_vop h

theorem leads_execVfms {d a b : BitVec 4} {p : BitVec 3} {ty : VType} {rs : RSrc} (h : Keeps s₀ s) :
    Leads s₀ (execVfms d a b p ty rs s) := leads_vop h

theorem leads_execVmin {d a b : BitVec 4} {p : BitVec 3} {ty : VType} (h : Keeps s₀ s) :
    Leads s₀ (execVmin d a b p ty s) := leads_vop h

theorem leads_execVmax {d a b : BitVec 4} {p : BitVec 3} {ty : VType} (h : Keeps s₀ s) :
    Leads s₀ (execVmax d a b p ty s) := leads_vop h

theorem leads_execVshl {d a b : BitVec 4} {p : BitVec 3} {ty : VType} (h : Keeps s₀ s) :
    Leads s₀ (execVshl d a b p ty s) := leads_vop h

theorem leads_execVshr {d a b : BitVec 4} {p : BitVec 3} {ty : VType} (h : Keeps s₀ s) :
    Leads s₀ (execVshr d a b p ty s) := leads_vop h

theorem leads_execVsar {d a b : BitVec 4} {p : BitVec 3} {ty : VType} (h : Keeps s₀ s) :
    Leads s₀ (execVsar d a b p ty s) := leads_vop h

theorem leads_execVdiv {d a b : BitVec 4} {p : BitVec 3} {ty : VType} {rs : RSrc} (h : Keeps s₀ s) :
    Leads s₀ (execVdiv d a b p ty rs s) := leads_vop h

theorem leads_execVabs {d a : BitVec 4} {p : BitVec 3} {ty : VType}
    (h : Keeps s₀ s) : Leads s₀ (execVabs d a p ty s) := leads_vop1 h

theorem leads_execVneg {d a : BitVec 4} {p : BitVec 3} {ty : VType}
    (h : Keeps s₀ s) : Leads s₀ (execVneg d a p ty s) := leads_vop1 h

theorem leads_execVsqrt {d a : BitVec 4} {p : BitVec 3} {ty : VType} {rs : RSrc} (h : Keeps s₀ s) :
    Leads s₀ (execVsqrt d a p ty rs s) := leads_vop1 h

theorem leads_execVrcp {d a : BitVec 4} {p : BitVec 3} {ty : VType} {rs : RSrc} (h : Keeps s₀ s) :
    Leads s₀ (execVrcp d a p ty rs s) := leads_vop1 h

theorem leads_execVrsq {d a : BitVec 4} {p : BitVec 3} {ty : VType} {rs : RSrc} (h : Keeps s₀ s) :
    Leads s₀ (execVrsq d a p ty rs s) := leads_vop1 h

theorem leads_execVexp2 {d a : BitVec 4} {p : BitVec 3} {ty : VType} {rs : RSrc} (h : Keeps s₀ s) :
    Leads s₀ (execVexp2 d a p ty rs s) := leads_vop1 h

theorem leads_execVlog2 {d a : BitVec 4} {p : BitVec 3} {ty : VType} {rs : RSrc} (h : Keeps s₀ s) :
    Leads s₀ (execVlog2 d a p ty rs s) := leads_vop1 h

theorem leads_execVand {d a b : BitVec 4} {p : BitVec 3}
    (h : Keeps s₀ s) : Leads s₀ (execVand d a b p s) := leads_vlanes h

theorem leads_execVor {d a b : BitVec 4} {p : BitVec 3}
    (h : Keeps s₀ s) : Leads s₀ (execVor d a b p s) := leads_vlanes h

theorem leads_execVxor {d a b : BitVec 4} {p : BitVec 3}
    (h : Keeps s₀ s) : Leads s₀ (execVxor d a b p s) := leads_vlanes h

theorem leads_execVmov {d a : BitVec 4} {p : BitVec 3}
    (h : Keeps s₀ s) : Leads s₀ (execVmov d a p s) := leads_vlanes h

theorem leads_execVsel {d a b : BitVec 4} {p : BitVec 3} (h : Keeps s₀ s) : Leads s₀ (execVsel d a b p s) := by
  unfold execVsel
  grind [leads_vecDo, keeps_wv]

theorem leads_vcmp {r : Rel} {ac : Accept} {wd : W32} {d : BitVec 3} {a b : BitVec 4} {p : BitVec 3} {ty : VType}
    (h : Keeps s₀ s) : Leads s₀ (vcmp r ac wd d a b p ty s) := by
  unfold vcmp
  grind [keeps_foldl, leads_typeThen, leads_vecDo, keeps_flag, keeps_wp]

theorem leads_execVceq {d : BitVec 3} {a b : BitVec 4} {p : BitVec 3} {ty : VType} (h : Keeps s₀ s) :
    Leads s₀ (execVceq d a b p ty s) := leads_vcmp h

theorem leads_execVclt {d : BitVec 3} {a b : BitVec 4} {p : BitVec 3} {ty : VType} (h : Keeps s₀ s) :
    Leads s₀ (execVclt d a b p ty s) := leads_vcmp h

theorem leads_execVcle {d : BitVec 3} {a b : BitVec 4} {p : BitVec 3} {ty : VType} (h : Keeps s₀ s) :
    Leads s₀ (execVcle d a b p ty s) := leads_vcmp h

theorem keeps_cvtBody {src dst : EK} {md : Mode} {d a : BitVec 4} {p : BitVec 3} (h : Keeps s₀ s) :
    Keeps s₀ (cvtBody src dst md d a p s) := h

theorem leads_execVcvt {d a : BitVec 4} {st : SType} {p : BitVec 3} {ty : VType} {rs : RSrc} (h : Keeps s₀ s) :
    Leads s₀ (execVcvt d a st p ty rs s) := by
  unfold execVcvt
  grind [leads_typeThen, leads_vecDo, keeps_cvtBody]

theorem leads_execVdot {d a b : BitVec 4} {p : BitVec 3} {ty : VType} {rs : RSrc} (h : Keeps s₀ s) :
    Leads s₀ (execVdot d a b p ty rs s) := by
  unfold execVdot
  grind [leads_typeThen, leads_vecDo, keeps_flag, keeps_wv]

theorem leads_execVadds {d a : BitVec 4} {c : BitVec 5} {p : BitVec 3} {ty : VType} {rs : RSrc} (h : Keeps s₀ s) :
    Leads s₀ (execVadds d a c p ty rs s) := leads_vsc h

theorem leads_execVmuls {d a : BitVec 4} {c : BitVec 5} {p : BitVec 3} {ty : VType} {rs : RSrc} (h : Keeps s₀ s) :
    Leads s₀ (execVmuls d a c p ty rs s) := leads_vsc h

theorem leads_execVfmas {d a : BitVec 4} {c : BitVec 5} {p : BitVec 3} {ty : VType} {rs : RSrc} (h : Keeps s₀ s) :
    Leads s₀ (execVfmas d a c p ty rs s) := leads_vsc h

theorem leads_execVmins {d a : BitVec 4} {c : BitVec 5} {p : BitVec 3} {ty : VType} (h : Keeps s₀ s) :
    Leads s₀ (execVmins d a c p ty s) := leads_vsc h

theorem leads_execVmaxs {d a : BitVec 4} {c : BitVec 5} {p : BitVec 3} {ty : VType} (h : Keeps s₀ s) :
    Leads s₀ (execVmaxs d a c p ty s) := leads_vsc h

theorem keeps_putElems {w : Nat} {d : BitVec 4} {p : BitVec 3} {f : Nat → Nat} (h : Keeps s₀ s) :
    Keeps s₀ (putElems w d p f s) := h

theorem leads_execVsplat {d : BitVec 4} {c : BitVec 5} {p : BitVec 3} {ty : VType} (h : Keeps s₀ s) :
    Leads s₀ (execVsplat d c p ty s) := by
  unfold execVsplat
  grind [leads_typeThen, leads_vecDo, keeps_putElems]

theorem leads_execVins {d a : BitVec 4} {c : BitVec 5} {p : BitVec 3} {ty : VType} (h : Keeps s₀ s) :
    Leads s₀ (execVins d a c p ty s) := by
  unfold execVins
  grind [leads_typeThen, leads_vecDo, keeps_putElems]

theorem leads_execVext {a : BitVec 4} {c : BitVec 5} {ty : VType}
    (h : Keeps s₀ s) : Leads s₀ (execVext a c ty s) := by
  unfold execVext
  grind [leads_typeThen, leads_vecDo, keeps_ws]

theorem leads_execVperm {d a b : BitVec 4} {p : BitVec 3} {ty : VType} (h : Keeps s₀ s) :
    Leads s₀ (execVperm d a b p ty s) := by
  unfold execVperm
  grind [leads_typeThen, leads_vecDo, keeps_putElems]

theorem leads_execVrot {d a b : BitVec 4} {p : BitVec 3} {ty : VType} (h : Keeps s₀ s) :
    Leads s₀ (execVrot d a b p ty s) := by
  unfold execVrot
  grind [leads_typeThen, leads_vecDo, keeps_putElems]

theorem keeps_putPair {w : Nat} {d : BitVec 4} {f : Nat → Nat} (h : Keeps s₀ s) : Keeps s₀ (putPair w d f s) := h

theorem leads_execVzip {d a b : BitVec 4} {ty : VType} (h : Keeps s₀ s) : Leads s₀ (execVzip d a b ty s) := by
  unfold execVzip
  grind [leads_typeThen, leads_vecDo, keeps_putPair]

theorem leads_execVunzip {d a b : BitVec 4} {ty : VType} (h : Keeps s₀ s) : Leads s₀ (execVunzip d a b ty s) := by
  unfold execVunzip
  grind [leads_typeThen, leads_vecDo, keeps_putPair]

theorem leads_execVcmpr {d a : BitVec 4} {p : BitVec 3} {ty : VType} (h : Keeps s₀ s) :
    Leads s₀ (execVcmpr d a p ty s) := by
  unfold execVcmpr
  grind [leads_typeThen, leads_vecDo, keeps_wv]

theorem leads_execVexpd {d a : BitVec 4} {p : BitVec 3} {ty : VType} (h : Keeps s₀ s) :
    Leads s₀ (execVexpd d a p ty s) := by
  unfold execVexpd
  grind [leads_typeThen, leads_vecDo, keeps_putElems]

theorem leads_execViota {d : BitVec 4} {p : BitVec 3} {ty : VType}
    (h : Keeps s₀ s) : Leads s₀ (execViota d p ty s) := by
  unfold execViota
  grind [leads_typeThen, leads_vecDo, keeps_wv]

theorem leads_execVrsum {d a : BitVec 4} {p : BitVec 3} {ty : VType} {rs : RSrc} (h : Keeps s₀ s) :
    Leads s₀ (execVrsum d a p ty rs s) := by
  unfold execVrsum
  grind [leads_typeThen, leads_vecDo, keeps_flag, keeps_wv]

theorem leads_vred {max : Bool} {wd : W32} {d a : BitVec 4} {p : BitVec 3} {ty : VType} (h : Keeps s₀ s) :
    Leads s₀ (vred max wd d a p ty s) := by
  unfold vred
  grind [leads_typeThen, leads_vecDo, keeps_flag, keeps_wv]

theorem leads_execVrmax {d a : BitVec 4} {p : BitVec 3} {ty : VType} (h : Keeps s₀ s) :
    Leads s₀ (execVrmax d a p ty s) := leads_vred h

theorem leads_execVrmin {d a : BitVec 4} {p : BitVec 3} {ty : VType} (h : Keeps s₀ s) :
    Leads s₀ (execVrmin d a p ty s) := leads_vred h

theorem leads_execVrand {d a : BitVec 4} {p : BitVec 3} (h : Keeps s₀ s) : Leads s₀ (execVrand d a p s) := by
  unfold execVrand
  grind [keeps_foldl, leads_vecDo, keeps_wv]

theorem leads_execVror {d a : BitVec 4} {p : BitVec 3} (h : Keeps s₀ s) : Leads s₀ (execVror d a p s) := by
  unfold execVror
  grind [keeps_foldl, leads_vecDo, keeps_wv]

theorem leads_execVscan {d a : BitVec 4} {p : BitVec 3} {ty : VType} {rs : RSrc} (h : Keeps s₀ s) :
    Leads s₀ (execVscan d a p ty rs s) := by
  unfold execVscan
  grind [keeps_foldl, leads_typeThen, leads_vecDo, keeps_flag, keeps_putElems]

theorem leads_execPand {d a b : BitVec 3} (h : Keeps s₀ s) : Leads s₀ (execPand d a b s) := by
  unfold execPand
  grind [leads_done, keeps_wp]

theorem leads_execPor {d a b : BitVec 3} (h : Keeps s₀ s) : Leads s₀ (execPor d a b s) := by
  unfold execPor
  grind [leads_done, keeps_wp]

theorem leads_execPxor {d a b : BitVec 3} (h : Keeps s₀ s) : Leads s₀ (execPxor d a b s) := by
  unfold execPxor
  grind [leads_done, keeps_wp]

theorem leads_execPnot {d a : BitVec 3} (h : Keeps s₀ s) : Leads s₀ (execPnot d a s) := by
  unfold execPnot
  grind [leads_done, keeps_wp]

theorem leads_execPcnt {d : BitVec 4} {a : BitVec 3} (h : Keeps s₀ s) : Leads s₀ (execPcnt d a s) := by
  unfold execPcnt
  grind [leads_done, keeps_ws]

theorem leads_execPfirst {d : BitVec 4} {a : BitVec 3} (h : Keeps s₀ s) : Leads s₀ (execPfirst d a s) := by
  unfold execPfirst
  grind [leads_done, keeps_ws]

theorem leads_execPsetn {d : BitVec 3} {a : BitVec 4} (h : Keeps s₀ s) : Leads s₀ (execPsetn d a s) := by
  unfold execPsetn
  grind [leads_done, keeps_wp]

/-! VMEM -/

theorem leads_eachThen {α : Type} {f : α → (State → Out) → State → Out}
    (hf : ∀ a k s, (∀ s, Keeps s₀ s → Leads s₀ (k s)) → Keeps s₀ s → Leads s₀ (f a k s)) {l : List α} {k : State → Out}
    (hk : ∀ s, Keeps s₀ s → Leads s₀ (k s)) : ∀ {s : State}, Keeps s₀ s → Leads s₀ (eachThen f l k s) := by
  induction l with
  | nil => exact fun h => hk _ h
  | cons a l ih => exact fun h => hf a _ _ (fun _ => ih) h

theorem leads_elemWaits {n : Nat} {write : Bool} {e : VElem} {k : State → Out}
    (hk : ∀ s, Keeps s₀ s → Leads s₀ (k s)) (h : Keeps s₀ s) : Leads s₀ (elemWaits n write e k s) := by
  unfold elemWaits
  grind [leads_winThen, leads_ownThen]

theorem leads_elemPages {n : Nat} {write : Bool} {e : VElem} {k : State → Out}
    (hk : ∀ s, Keeps s₀ s → Leads s₀ (k s)) (h : Keeps s₀ s) : Leads s₀ (elemPages n write e k s) := by
  unfold elemPages
  grind [leads_presentThen]

theorem leads_elemTouch {n : Nat} {e : VElem} {k : State → Out} (hk : ∀ s, Keeps s₀ s → Leads s₀ (k s))
    (h : Keeps s₀ s) : Leads s₀ (elemTouch n e k s) := by
  unfold elemTouch
  grind [leads_touchThen]

theorem leads_elemPaths {n : Nat} {write : Bool} {l : List VElem} {k : State → Out}
    (hk : ∀ s, Keeps s₀ s → Leads s₀ (k s)) (h : Keeps s₀ s) : Leads s₀ (elemPaths n write l k s) :=
  leads_eachThen (fun _ _ _ hk h => leads_elemWaits hk h) (fun _ => leads_eachThen (fun _ _ _ hk h => leads_elemPages hk h)
    (fun _ => leads_eachThen (fun _ _ _ hk h => leads_elemTouch hk h) hk)) h

theorem leads_elemRead {n : Nat} {e : VElem} {k : List Byte → State → Out}
    (hk : ∀ a s, Keeps s₀ s → Leads s₀ (k a s)) (h : Keeps s₀ s) : Leads s₀ (elemRead n e k s) := by
  unfold elemRead
  grind [leads_pathRead]

theorem leads_readElems {n : Nat} {l : List VElem} : ∀ {k : List (Nat × Nat) → State → Out} {s : State},
    (∀ a s, Keeps s₀ s → Leads s₀ (k a s)) → Keeps s₀ s → Leads s₀ (readElems n l k s) := by
  induction l with
  | nil => exact fun hk h => hk [] _ h
  | cons e t ih => exact fun hk h => leads_elemRead (fun _ _ h => ih (fun _ => hk _) h) h

theorem wf_patchBlock {pa a0 : Nat} (l : Patch) : ∀ {m : List Host.Cell}, Memory.wf m = true →
    Memory.wf (patchBlock m pa a0 l) = true := by
  induction l with
  | nil => exact fun h => h
  | cons p l ih => exact fun h => ih (wf_wrB _ _ h)

theorem keeps_patchAll {tenant key who n : Nat} {p : Patch} {s' : State} :
    ∀ {s : State}, patchAll tenant key who n p s = .ok s' → Keeps s₀ s → Keeps s₀ s' := by
  induction n generalizing p with
  | zero => intro s e h; cases e; exact h
  | succ n ih =>
    intro s e h
    cases p with
    | nil => cases e; exact h
    | cons c t =>
      rw [patchAll] at e
      split at e
      · cases e
      · cases e
      · exact ih e (keeps_chargeDeferred h)
      · next pa s1 hp =>
        have h1 : Keeps s₀ { s1 with mem := patchBlock s1.mem pa c.1 ((c.1, c.2) :: (takeBlock (c.1 / 256) t).1) } :=
          fun w => wf_patchBlock _ (keeps_gpath hp h w)
        refine ih e ?_
        split
        · exact keeps_arrive h1
        · exact keeps_foldl (fun _ _ h => keeps_dirtyLine h) _ (keeps_arrive h1)
      · exact ih e h

theorem keeps_winElem {wa : Nat} {l : List (Byte × Byte)}
    (h : Keeps s₀ s) : Keeps s₀ (winElem s wa l) := keeps_winWrite h

theorem leads_writeElems {bits : Nat} {l : List (VElem × Nat)} {k : State → Out}
    (hk : ∀ s, Keeps s₀ s → Leads s₀ (k s)) (h : Keeps s₀ s) : Leads s₀ (writeElems bits l k s) := by
  unfold writeElems
  grind [keeps_foldl, keeps_winElem, keeps_patchAll, leads_parkFor, leads_stallFor]

theorem leads_vmemThen {wd : W32} {store far : Bool} {a : BitVec 5} {g p : BitVec 3} {offs : Nat → Nat → Nat → Int}
    {k : Nat → Nat → List VElem → State → Out} (hk : ∀ a b c s, Keeps s₀ s → Leads s₀ (k a b c s)) (h : Keeps s₀ s) :
    Leads s₀ (vmemThen wd store far a g p offs k s) := by
  unfold vmemThen
  grind [leads_homeOnly, leads_tagThen, leads_trap, leads_elemPaths]

theorem leads_vload {wd : W32} {far : Bool} {srcs : List (BitVec 4)} {d : BitVec 4} {a : BitVec 5} {g p : BitVec 3}
    {offs : State → Nat → Nat → Nat → Int} (h : Keeps s₀ s) :
    Leads s₀ (vload wd far srcs d a g p offs s) := by
  unfold vload
  grind [keeps_foldl, leads_vecThen, leads_vmemThen, leads_readElems, keeps_flag, keeps_wv, leads_done,
    keeps_commitOut, keeps_commitIn]

theorem leads_vstore {wd : W32} {far : Bool} {srcs : List (BitVec 4)} {d : BitVec 4} {a : BitVec 5}
    {g p : BitVec 3} {offs : State → Nat → Nat → Nat → Int} (h : Keeps s₀ s) :
    Leads s₀ (vstore wd far srcs d a g p offs s) := by
  unfold vstore
  grind [keeps_foldl, leads_vecThen, leads_vmemThen, leads_writeElems, leads_done, keeps_flag, keeps_commitIn]

theorem leads_execVld {d : BitVec 4} {a : BitVec 5} {g p : BitVec 3}
    (h : Keeps s₀ s) : Leads s₀ (execVld d a g p s) := leads_vload h

theorem leads_execVst {d : BitVec 4} {a : BitVec 5} {g p : BitVec 3}
    (h : Keeps s₀ s) : Leads s₀ (execVst d a g p s) := leads_vstore h

theorem leads_execVlds {d : BitVec 4} {a : BitVec 5} {g p : BitVec 3} {b : BitVec 5} (h : Keeps s₀ s) :
    Leads s₀ (execVlds d a g p b s) := leads_vload h

theorem leads_execVsts {d : BitVec 4} {a : BitVec 5} {g p : BitVec 3} {b : BitVec 5} (h : Keeps s₀ s) :
    Leads s₀ (execVsts d a g p b s) := leads_vstore h

theorem leads_execVgath {d : BitVec 4} {a : BitVec 5} {g p : BitVec 3} {b : BitVec 4} (h : Keeps s₀ s) :
    Leads s₀ (execVgath d a g p b s) := leads_vload h

theorem leads_execVscat {d : BitVec 4} {a : BitVec 5} {g p : BitVec 3} {b : BitVec 4} (h : Keeps s₀ s) :
    Leads s₀ (execVscat d a g p b s) := leads_vstore h

/-! RAST -/

theorem leads_rastThen {wd : W32} {target : Nat} {k : State → Out} (hk : ∀ s, Keeps s₀ s → Leads s₀ (k s))
    (h : Keeps s₀ s) : Leads s₀ (rastThen wd target k s) := by
  unfold rastThen
  grind [leads_next, leads_trap, leads_failIf, leads_releaseThen, keeps_depart]

theorem leads_rastNear {wd : W32} {k : State → Out} (hk : ∀ s, Keeps s₀ s → Leads s₀ (k s)) (h : Keeps s₀ s) :
    Leads s₀ (rastNear wd k s) := leads_rastThen hk h

theorem leads_misuseThen {srcs dsts : List (BitVec 4)} {k : State → Out} (hk : ∀ s, Keeps s₀ s → Leads s₀ (k s))
    (h : Keeps s₀ s) : Leads s₀ (misuseThen srcs dsts k s) := by
  unfold misuseThen
  grind [leads_trap]

theorem leads_rastVec {srcs dsts : List (BitVec 4)} {k : State → Out} (hk : ∀ s, Keeps s₀ s → Leads s₀ (k s))
    (h : Keeps s₀ s) : Leads s₀ (rastVec srcs dsts k s) := leads_hinderThen hk h

theorem leads_rastDo {srcs dsts : List (BitVec 4)} {body : State → State}
    (hbody : ∀ s, Keeps s₀ s → Keeps s₀ (body s)) (h : Keeps s₀ s) : Leads s₀ (rastDo srcs dsts body s) := by
  unfold rastDo
  grind [leads_rastVec, leads_done, keeps_commitOut, keeps_commitIn]

theorem leads_execRview {d a : BitVec 5} {n : BitVec 2} (h : Keeps s₀ s) : Leads s₀ (execRview d a n s) := by
  unfold execRview
  grind [leads_rastNear, leads_ptrThen, leads_waitFor, leads_readThen, leads_done, keeps_ws, keeps_updCore]

theorem leads_setupAt {core : Nat} {d : BitVec 5} {v : BitVec 4} {h₁ : Word} {cullN cullP : Bool} (h : Keeps s₀ s) :
    Leads s₀ (setupAt core d v h₁ cullN cullP s) := by
  unfold setupAt
  grind [leads_trap, leads_waitFor, leads_rastDo, keeps_ws, keeps_updCore]

theorem leads_execRsetup {d : BitVec 5} {v : BitVec 4} {b : BitVec 5} {n p : Bool} (h : Keeps s₀ s) :
    Leads s₀ (execRsetup d v b n p s) := by
  unfold execRsetup
  grind [leads_failIf, leads_rastThen, leads_misuseThen, leads_setupAt]

theorem leads_coverAt {core : Nat} {d : BitVec 5} {h₁ : Word} {p : BitVec 3} {f : Bool} {e : BitVec 4}
    (h : Keeps s₀ s) : Leads s₀ (coverAt core d h₁ p f e s) := by
  unfold coverAt
  dsimp only
  (repeat' split) <;> grind [Keeps, leads_next, leads_trap, keeps_wv, leads_rastDo, keeps_wp, keeps_ws, keeps_updCore]

theorem leads_execRcover {d a : BitVec 5} {p : BitVec 3} {f : Bool} {e : BitVec 4} (h : Keeps s₀ s) :
    Leads s₀ (execRcover d a p f e s) := by
  unfold execRcover
  grind [leads_failIf, leads_rastThen, leads_misuseThen, leads_coverAt]

theorem leads_execRbox {d : BitVec 5} {a b : BitVec 4} (h : Keeps s₀ s) : Leads s₀ (execRbox d a b s) := by
  unfold execRbox
  grind [leads_rastNear, leads_rastDo, keeps_ws]

theorem leads_execRtri {d a b : BitVec 4} (h : Keeps s₀ s) : Leads s₀ (execRtri d a b s) := by
  unfold execRtri
  grind [leads_rastNear, leads_rastDo, keeps_wv]

theorem leads_execRbin {d : BitVec 5} {a : BitVec 4} {b : BitVec 5}
    (h : Keeps s₀ s) : Leads s₀ (execRbin d a b s) := by
  unfold execRbin
  grind [leads_rastNear, leads_misuseThen, leads_failIf, leads_rastDo, keeps_ws]

theorem leads_domRead {va : Nat} {k : List Byte → State → Out} (hk : ∀ a s, Keeps s₀ s → Leads s₀ (k a s))
    (h : Keeps s₀ s) : Leads s₀ (domRead va k s) := by
  unfold domRead
  grind [leads_next, keeps_greadOpen, leads_parkFor, leads_stallFor]

theorem leads_domThen {wd : W32} {d : BitVec 5} {k : Domain → State → Out} (hk : ∀ a s, Keeps s₀ s → Leads s₀ (k a s))
    (h : Keeps s₀ s) : Leads s₀ (domThen wd d k s) := by
  unfold domThen
  refine leads_rastNear (fun _ => leads_tagThen (fun _ => leads_failIf (fun _ => leads_failIf (fun _ =>
    leads_segThen (fun t s h => ?_))))) h
  cases t with
  | win wa => exact leads_trap h
  | glob va => exact leads_ownThen (fun _ => leads_domRead (fun _ _ => leads_failIf (hk _))) h

theorem leads_domWrite {m : Domain} {next opened : Nat} {k : State → Out} (hk : ∀ s, Keeps s₀ s → Leads s₀ (k s))
    (h : Keeps s₀ s) : Leads s₀ (domWrite m next opened k s) := by
  unfold domWrite
  grind [keeps_gwrite, leads_parkFor, leads_stallFor]

theorem leads_execOrdtok {d a b : BitVec 5} {last : Bool} (h : Keeps s₀ s) : Leads s₀ (execOrdtok d a b last s) := by
  unfold execOrdtok
  grind [leads_next, leads_domThen, leads_failIf, leads_waitFor, leads_domWrite, leads_done, keeps_updCore]

theorem leads_tokenThen {m : Domain} {x : Word} {k : Token → State → Out}
    (hk : ∀ a s, Keeps s₀ s → Leads s₀ (k a s)) (h : Keeps s₀ s) : Leads s₀ (tokenThen m x k s) := by
  unfold tokenThen
  grind [leads_trap]

theorem leads_execOrdb {d a : BitVec 5} (h : Keeps s₀ s) : Leads s₀ (execOrdb d a s) := by
  unfold execOrdb
  grind [leads_domThen, leads_tokenThen, leads_waitFor, leads_done]

theorem keeps_closeToken {t : Token} (h : Keeps s₀ s) : Keeps s₀ (closeToken s t) := h

theorem leads_execOrde {d a : BitVec 5} (h : Keeps s₀ s) : Leads s₀ (execOrde d a s) := by
  unfold execOrde
  grind [leads_next, leads_domThen, leads_tokenThen, leads_releaseThen, leads_domWrite, leads_done, keeps_closeToken]

theorem keeps_sendLanes {n : Nat} {op : DripOp} {val : Nat → Nat} {l : List VElem} (h : Keeps s₀ s) :
    Keeps s₀ (sendLanes n op val l s) := by
  unfold sendLanes
  refine keeps_foldl (fun s e h => ?_) l h
  split
  · exact keeps_post h
  · exact h

theorem leads_lostThen {r : BitVec 4} {k : State → Out} (hk : ∀ s, Keeps s₀ s → Leads s₀ (k s)) (h : Keeps s₀ s) :
    Leads s₀ (lostThen r k s) := by
  unfold lostThen
  grind [leads_trap]

theorem leads_execBlnda {d : BitVec 4} {a : BitVec 5} {p o : BitVec 3}
    (h : Keeps s₀ s) : Leads s₀ (execBlnda d a p o s) := by
  unfold execBlnda
  refine leads_rastNear (fun _ => leads_rastVec (fun _ => leads_tagThen (fun s h => ?_))) h
  split
  · exact leads_trap h
  · refine leads_lostThen (fun s h => ?_) h
    dsimp only
    split
    · exact leads_trap h
    · exact leads_lostThen (fun _ h => leads_done (keeps_commitIn (keeps_sendLanes h))) h

/-! SYNC -/

theorem leads_execFence {q : Scope} {k : FKind} (h : Keeps s₀ s) : Leads s₀ (execFence q k s) := by
  unfold execFence
  grind [leads_done, leads_releaseThen, leads_deferredThen, keeps_updCx, leads_waitFor]

theorem keeps_setBar {core n : Nat} {b : Barrier} (h : Keeps s₀ s) : Keeps s₀ (setBar s core n b) := h

theorem leads_execBarset {a b : BitVec 5} {n : BitVec 2} (h : Keeps s₀ s) : Leads s₀ (execBarset a b n s) := by
  unfold execBarset
  grind [leads_homeOnly, leads_failIf, leads_done, keeps_setBar]

theorem leads_arriveThen {n : BitVec 2} {k : Nat → State → Out} (hk : ∀ a s, Keeps s₀ s → Leads s₀ (k a s))
    (h : Keeps s₀ s) : Leads s₀ (arriveThen n k s) := by
  unfold arriveThen
  grind [leads_trap, leads_failIf, keeps_setBar]

theorem leads_barDone (h : Keeps s₀ s) : Leads s₀ (barDone s) := by
  unfold barDone
  grind [leads_done, keeps_updCx]

theorem leads_barAwait {n : BitVec 2} {ph : Nat} (h : Keeps s₀ s) : Leads s₀ (barAwait n ph s) := by
  unfold barAwait
  grind [leads_trap, leads_waitFor, leads_barDone]

theorem leads_execBar {n : BitVec 2} (h : Keeps s₀ s) : Leads s₀ (execBar n s) := by
  unfold execBar
  extract_lets arrive
  have ha : ∀ s, Keeps s₀ s → Leads s₀ (arrive s) := fun _ =>
    leads_releaseThen (fun _ => leads_arriveThen (fun _ _ h => leads_barAwait (keeps_updCx h)))
  refine leads_homeOnly (fun _ => leads_metThen (fun _ _ => leads_barDone) (fun s h => ?_)) h
  split
  · split
    · exact leads_barAwait h
    · exact ha s h
  · exact ha s h

theorem leads_execBara {n : BitVec 2} (h : Keeps s₀ s) : Leads s₀ (execBara n s) := by
  unfold execBara
  grind [leads_homeOnly, leads_releaseThen, leads_arriveThen, leads_done]

theorem leads_execBarw {n : BitVec 2} (h : Keeps s₀ s) : Leads s₀ (execBarw n s) := by
  unfold execBarw
  refine leads_homeOnly (fun _ => leads_metThen (fun _ _ => leads_barDone) (fun _ => leads_releaseThen (fun s h => ?_))) h
  split
  · exact leads_trap h
  · exact leads_barAwait h

theorem keeps_barHop {core n : Nat} (h : Keeps s₀ s) : Keeps s₀ (barHop s core n) := by
  unfold barHop
  dsimp only
  (repeat' split) <;> exact h

theorem leads_execBarrierSweepHop (h : Keeps s₀ s) : Leads s₀ (execBarrierSweepHop s) := leads_next.2 (keeps_barHop h)

theorem leads_execWaitw {d a b : BitVec 5} (h : Keeps s₀ s) : Leads s₀ (execWaitw d a b s) := by
  unfold execWaitw
  grind [leads_homeOnly, leads_metThen, leads_done, keeps_ws, leads_fmThen, leads_readThen, leads_waitFor]

theorem leads_pairThen {ptr : Word} {right : Nat} {k : Tgt → List Byte → State → Out}
    (hk : ∀ a b s, Keeps s₀ s → Leads s₀ (k a b s)) (h : Keeps s₀ s) : Leads s₀ (pairThen ptr right k s) := by
  unfold pairThen
  grind [leads_ptrThen, leads_readThen, leads_failIf]

theorem leads_execAcquire {d a : BitVec 5} {sc : Scope} (h : Keeps s₀ s) : Leads s₀ (execAcquire d a sc s) := by
  unfold execAcquire
  grind [leads_homeOnly, leads_pairThen, leads_done, keeps_ws]

/-! Layers at their unit -/

/-- A unit's answer, where it has done its work, is a state that keeps the form. -/
def UKeeps (s₀ : State) {α : Type} (x : URes α) : Prop := ∀ a s, x = .ok a s → Keeps s₀ s

theorem keeps_URes_ok {α : Type} {a : α} : UKeeps s₀ (.ok a s) ↔ Keeps s₀ s :=
  ⟨fun h => h a s rfl, fun h _ _ e => by cases e; exact h⟩

theorem keeps_URes_then {α β : Type} {x : URes α} {k : α → State → URes β} (hx : UKeeps s₀ x)
    (hk : ∀ a s, Keeps s₀ s → UKeeps s₀ (k a s)) : UKeeps s₀ (x.then k) := by
  intro b t e
  cases x with
  | ok a s => exact hk a s (hx a s rfl) b t e
  | _ => cases e

theorem keeps_uRead {t va n : Nat} (h : Keeps s₀ s) : UKeeps s₀ (uRead t va n s) := by
  unfold uRead
  grind [UKeeps, keeps_gread]

theorem keeps_uWrite {t va : Nat} {l : List Byte} {key : Nat} (h : Keeps s₀ s) : UKeeps s₀ (uWrite t va l key s) := by
  unfold uWrite
  grind [UKeeps, keeps_gwrite]

theorem leads_unitThen {α : Type} {x : State → URes α} {k : α → State → Out} (hx : ∀ s, Keeps s₀ s → UKeeps s₀ (x s))
    (hk : ∀ a s, Keeps s₀ s → Leads s₀ (k a s)) (h : Keeps s₀ s) : Leads s₀ (unitThen x k s) := by
  unfold unitThen
  split
  · next a s1 e => exact hk a s1 (hx s h a s1 e)
  · exact leads_parkFor h
  · exact leads_stallFor h
  · exact leads_trap h
  · exact leads_trap h

theorem keeps_lcbOf {t : Nat} (h : Keeps s₀ s) : UKeeps s₀ (lcbOf t s) := by
  unfold lcbOf
  grind [UKeeps, keeps_URes_ok, keeps_URes_then, keeps_uRead]

theorem keeps_putLayer {l : Layer} (h : Keeps s₀ s) : Keeps s₀ (putLayer s l) := h

theorem keeps_retireLayer {t id : Nat} (h : Keeps s₀ s) : Keeps s₀ (retireLayer s t id) := h

theorem keeps_writeBack {m : Lcb} {l : Layer} {live : Bool} {key : Nat} (h : Keeps s₀ s) :
    UKeeps s₀ (writeBack m l live key s) := by
  unfold writeBack
  grind [UKeeps, keeps_uWrite]

theorem keeps_countDrop {t key : Nat} (h : Keeps s₀ s) : UKeeps s₀ (countDrop t key s) := by
  unfold countDrop
  grind [UKeeps, keeps_URes_ok, keeps_URes_then, keeps_uRead, keeps_uWrite]

theorem keeps_postRec {t : Nat} {m : Lcb} {r : LRec} {key : Nat}
    (h : Keeps s₀ s) : UKeeps s₀ (postRec t m r key s) := by
  unfold postRec
  grind [UKeeps, keeps_countDrop, keeps_URes_ok, keeps_URes_then, keeps_uRead, keeps_uWrite]

theorem keeps_notifyLcb {t : Nat} {m : Lcb} {key : Nat} (h : Keeps s₀ s) : Keeps s₀ (notifyLcb t m key s) := by
  unfold notifyLcb
  grind [keeps_postDec]

/-! LAYER -/

theorem leads_idsThen {x : Word} {n : Nat} {k : State → Out} (hk : ∀ s, Keeps s₀ s → Leads s₀ (k s))
    (h : Keeps s₀ s) : Leads s₀ (idsThen x n k s) := leads_failIf hk h

theorem keeps_lcbIds {t : Nat} {ids : List Nat} (h : Keeps s₀ s) : UKeeps s₀ (lcbIds t ids s) := by
  unfold lcbIds
  grind [UKeeps, keeps_URes_ok, keeps_URes_then, keeps_lcbOf]

theorem keeps_liveOf {t id : Nat} (h : Keeps s₀ s) : UKeeps s₀ (liveOf t id s) := by
  unfold liveOf
  grind [UKeeps]

theorem leads_layerThen {wd : W32} {x : Word} {k : Lcb → Layer → State → Out}
    (hk : ∀ a b s, Keeps s₀ s → Leads s₀ (k a b s)) (h : Keeps s₀ s) : Leads s₀ (layerThen wd x k s) := by
  unfold layerThen
  refine leads_homeOnly (fun _ => leads_idsThen (fun _ => leads_unitThen (fun _ h => ?_) (fun p => hk p.1 p.2))) h
  exact keeps_URes_then (keeps_lcbIds h) (fun _ _ h => keeps_URes_then (keeps_liveOf h) (fun _ _ => keeps_URes_ok.2))

theorem keeps_acceptLayer {t id : Nat} {m : Lcb} {skip : List Nat} {new : List Layer} (h : Keeps s₀ s) :
    UKeeps s₀ (acceptLayer t id m skip new s) := by
  unfold acceptLayer
  grind [UKeeps, keeps_URes_ok, keeps_URes_then, keeps_uRead]

theorem leads_execLdefDef {a : BitVec 5} (h : Keeps s₀ s) : Leads s₀ (execLdefDef a s) := by
  unfold execLdefDef
  refine leads_homeOnly (fun _ => leads_idsThen (fun _ => leads_unitThen (fun _ h => ?_) (fun _ _ h => ?_))) h
  · exact keeps_URes_then (keeps_lcbIds h) (fun _ _ => keeps_acceptLayer)
  · exact leads_done (keeps_putLayer h)

theorem leads_execLdefRet {a : BitVec 5} (h : Keeps s₀ s) : Leads s₀ (execLdefRet a s) := by
  unfold execLdefRet
  refine leads_layerThen (fun m l s h => ?_) h
  exact leads_unitThen (fun _ => keeps_writeBack) (fun _ _ h => leads_done (keeps_retireLayer h)) h

theorem leads_execLdefPose {a b : BitVec 5} (h : Keeps s₀ s) : Leads s₀ (execLdefPose a b s) := by
  unfold execLdefPose
  grind [leads_homeOnly, leads_idsThen, leads_ptrThen, leads_layerThen, leads_readThen, leads_done, keeps_putLayer]

theorem leads_execLwarp {d : BitVec 4} {a : BitVec 5} {b : BitVec 4} {p : BitVec 3} (h : Keeps s₀ s) :
    Leads s₀ (execLwarp d a b p s) := by
  unfold execLwarp
  refine leads_vecThen (fun _ => leads_layerThen (fun _ l _ => leads_readThen (fun _ _ => leads_readThen (fun _ s h => ?_)))) h
  exact leads_done (keeps_commitOut (keeps_wp (keeps_wv (keeps_wv (keeps_commitIn (keeps_putLayer h))))))

theorem leads_execLerr {d a n : BitVec 5} (h : Keeps s₀ s) : Leads s₀ (execLerr d a n s) := by
  unfold execLerr
  grind [leads_layerThen, leads_done, keeps_ws]

theorem leads_execLprice {a b : BitVec 5} (h : Keeps s₀ s) : Leads s₀ (execLprice a b s) := by
  unfold execLprice
  grind [leads_homeOnly, leads_idsThen, leads_failIf, leads_layerThen, leads_done, keeps_putLayer]

theorem leads_execLorder {a b : BitVec 5} (h : Keeps s₀ s) : Leads s₀ (execLorder a b s) := by
  unfold execLorder
  grind [leads_homeOnly, leads_idsThen, leads_failIf, leads_layerThen, leads_done, keeps_putLayer]

theorem leads_execLreq {d a : BitVec 5} {n : Bool} (h : Keeps s₀ s) : Leads s₀ (execLreq d a n s) := by
  unfold execLreq
  refine leads_layerThen (fun m l s h => ?_) h
  split
  · exact leads_done (keeps_ws (keeps_putLayer h))
  · split
    · exact leads_done (keeps_ws h)
    · refine leads_unitThen (fun _ => keeps_postRec) (fun posted s h => ?_) h
      split
      · exact leads_done (keeps_ws (keeps_notifyLcb (keeps_putLayer h)))
      · exact leads_done (keeps_ws h)

theorem leads_execLdep {d a b : BitVec 5} (h : Keeps s₀ s) : Leads s₀ (execLdep d a b s) := by
  unfold execLdep
  refine leads_homeOnly (fun _ => leads_idsThen (fun _ => leads_failIf (fun _ => leads_failIf (fun _ =>
    leads_unitThen (fun _ h => ?_) (fun _ _ h => ?_))))) h
  · exact keeps_URes_then (keeps_lcbIds h) (fun _ _ h => keeps_URes_then (keeps_liveOf h) (fun _ _ h =>
      keeps_URes_then (keeps_liveOf h) (fun _ _ => keeps_URes_ok.2)))
  · exact leads_done (keeps_ws (keeps_putLayer h))

theorem keeps_URes_foldl {β : Type} {f : URes Unit → β → URes Unit}
    (hf : ∀ r b, UKeeps s₀ r → UKeeps s₀ (f r b)) (l : List β) {r : URes Unit} (h : UKeeps s₀ r) :
    UKeeps s₀ (l.foldl f r) :=
  List.foldlRecOn (motive := UKeeps s₀) l f h (fun r h b _ => hf r b h)

theorem keeps_remake {m : Lcb} {t key : Nat} {olds news : List Layer} (h : Keeps s₀ s) :
    UKeeps s₀ (remake m t key olds news s) := by
  unfold remake
  extract_lets s1 s2 put
  have h1 : Keeps s₀ s1 := keeps_foldl (fun _ _ h => keeps_retireLayer h) olds h
  have h2 : Keeps s₀ s2 := keeps_foldl (fun _ _ h => keeps_putLayer h) news h1
  have hp : ∀ live r l, UKeeps s₀ r → UKeeps s₀ (put live r l) := fun _ _ _ h =>
    keeps_URes_then h (fun _ _ => keeps_writeBack)
  exact keeps_URes_foldl (hp true) news (keeps_URes_foldl (hp false) olds (keeps_URes_ok.2 h2))

theorem keeps_freshChild {c : Nat} {before : List Nat} (h : Keeps s₀ s) : UKeeps s₀ (freshChild c before s) := by
  unfold freshChild
  grind [UKeeps]

theorem leads_execLsplit {a b : BitVec 5} (h : Keeps s₀ s) : Leads s₀ (execLsplit a b s) := by
  unfold execLsplit
  refine leads_homeOnly (fun _ => leads_idsThen (fun _ => leads_idsThen (fun _ =>
    leads_unitThen (fun _ h => ?_) (fun _ _ => leads_done)))) h
  exact keeps_URes_then (keeps_lcbIds h) (fun _ _ h => keeps_URes_then (keeps_liveOf h) (fun _ _ h =>
    keeps_URes_then (keeps_freshChild h) (fun _ _ h => keeps_URes_then (keeps_acceptLayer h) (fun _ _ h =>
      keeps_URes_then (keeps_freshChild h) (fun _ _ h => keeps_URes_then (keeps_acceptLayer h) (fun _ _ => keeps_remake))))))

theorem leads_execLmerge {a b : BitVec 5} (h : Keeps s₀ s) : Leads s₀ (execLmerge a b s) := by
  unfold execLmerge
  refine leads_homeOnly (fun _ => leads_idsThen (fun _ => leads_idsThen (fun _ =>
    leads_unitThen (fun _ h => ?_) (fun _ _ => leads_done)))) h
  exact keeps_URes_then (keeps_lcbIds h) (fun _ _ h => keeps_URes_then (keeps_liveOf h) (fun _ _ h =>
    keeps_URes_then (keeps_liveOf h) (fun _ _ h => keeps_URes_then (keeps_freshChild h) (fun _ _ h =>
      keeps_URes_then (keeps_acceptLayer h) (fun _ _ => keeps_remake)))))

theorem leads_execLres {d a b : BitVec 4} {p : BitVec 3} (h : Keeps s₀ s) : Leads s₀ (execLres d a b p s) := by
  unfold execLres
  grind [keeps_foldl, leads_homeOnly, leads_vecDo, keeps_wp, keeps_wv]

theorem leads_beginClose {d : BitVec 5} (h : Keeps s₀ s) : Leads s₀ (beginClose d s) := by
  unfold beginClose
  refine leads_unitThen (fun _ h => ?_) (fun m s h => ?_) h
  · exact keeps_URes_then (keeps_lcbOf h) (fun _ _ h => keeps_URes_then (keeps_uWrite h) (fun _ _ => keeps_URes_ok.2))
  · exact leads_waitEvent h

theorem leads_execLframe {d : BitVec 5} (h : Keeps s₀ s) : Leads s₀ (execLframe d s) := by
  unfold execLframe
  grind [Keeps, leads_homeOnly, leads_waitFor, leads_beginClose]

theorem keeps_updClose {t : Nat} {f : Close → Close} (h : Keeps s₀ s) : Keeps s₀ (updClose s t f) := h

theorem leads_execLayerCloseProcess (h : Keeps s₀ s) : Leads s₀ (execLayerCloseProcess s) := by
  unfold execLayerCloseProcess
  dsimp only
  (repeat' split) <;> grind [Keeps, leads_next, keeps_updClose, keeps_putLayer]

theorem keeps_clearPending {t : Nat} {processed : List Nat} {id : Nat} (h : Keeps s₀ s) :
    Keeps s₀ (clearPending s t processed id) := by
  unfold clearPending
  (repeat' split) <;> exact h

theorem keeps_postAll {c : Close} {l : List LRec} : ∀ {s : State}, Keeps s₀ s → UKeeps s₀ (postAll c l s) := by
  induction l with
  | nil => exact fun h => keeps_URes_ok.2 h
  | cons r rest ih =>
    intro s h
    refine keeps_URes_then (keeps_postRec h) (fun ok s1 h1 => keeps_URes_then (ih ?_) (fun _ _ => keeps_URes_ok.2))
    split
    · exact h1
    · exact keeps_clearPending h1

theorem keeps_writeBackAll {t : Nat} {m : Lcb} {key : Nat} {l : List Nat} :
    ∀ {s : State}, Keeps s₀ s → UKeeps s₀ (writeBackAll t m key l s) := by
  induction l with
  | nil => exact fun h => keeps_URes_ok.2 h
  | cons id rest ih =>
    intro s h
    rw [writeBackAll]
    split
    · exact keeps_URes_then (keeps_writeBack h) (fun _ _ => ih)
    · exact ih h

theorem keeps_endClose {c : Close} {n : Nat} (h : Keeps s₀ s) : Keeps s₀ (endClose s c n) := by
  unfold endClose
  grind [Keeps, keeps_finish]

theorem keeps_Close_setBack {c : Close} {u : Layer} (h : Keeps s₀ s) : Keeps s₀ (Close.setBack c s u) := by
  unfold Close.setBack
  split <;> exact h

theorem keeps_Close_undone {c : Close} (h : Keeps s₀ s) : Keeps s₀ (c.undone s) := by
  unfold Close.undone
  extract_lets s1
  have h1 : Keeps s₀ s1 := keeps_foldl (fun _ _ h => keeps_Close_setBack h) _ h
  split
  · next s2 e => exact keeps_uWrite h1 _ _ e
  · exact h1

theorem keeps_closeTrap {c : Close} {cause : BitVec 8} {a : Nat}
    (h : Keeps s₀ s) : Keeps s₀ (closeTrap c cause a s) := by
  unfold closeTrap
  grind [keeps_Close_undone, keeps_onCtx, keeps_takeTrap]

theorem leads_execLayerPostRecords (h : Keeps s₀ s) : Leads s₀ (execLayerPostRecords s) := by
  unfold execLayerPostRecords
  dsimp only
  split
  · exact leads_next.2 h
  · next c _ =>
    split
    · exact leads_next.2 h
    · split
      · next n s1 e =>
        have h1 : Keeps s₀ s1 := keeps_URes_then (keeps_postAll h)
          (fun _ _ h => keeps_URes_then (keeps_writeBackAll h) (fun _ _ => keeps_URes_ok.2)) _ _ e
        refine leads_next.2 (keeps_endClose ?_)
        split
        · exact h1
        · exact keeps_notifyLcb h1
      · refine leads_next.2 ?_
        split
        · exact keeps_closeTrap h
        · exact keeps_engineFault (keeps_updClose h)
      · exact leads_next.2 h
      · exact leads_next.2 (keeps_closeTrap h)
      · exact leads_next.2 h

theorem keeps_publishReset {t : Nat} {l : Layer} {base : Nat}
    (h : Keeps s₀ s) : UKeeps s₀ (publishReset t l base s) := by
  unfold publishReset
  grind [Keeps, UKeeps, keeps_URes_ok, keeps_URes_then, keeps_uRead, keeps_putLayer]

theorem keeps_flipPair {t va : Nat} {l : List Byte} {who : Nat}
    (h : Keeps s₀ s) : UKeeps s₀ (flipPair t va l who s) := by
  unfold flipPair
  grind [UKeeps, keeps_gwrite, keeps_publishReset]

theorem leads_execPublish {a : BitVec 5} {sc : Scope} (h : Keeps s₀ s) : Leads s₀ (execPublish a sc s) := by
  unfold execPublish
  refine leads_homeOnly (fun _ => leads_pairThen (fun t l s h => ?_)) h
  split
  · exact leads_waitFor h
  · refine leads_releaseThen (fun s h => ?_) h
    cases t with
    | glob va => exact leads_unitThen (fun _ => keeps_flipPair) (fun _ _ => leads_done) h
    | win wa => exact leads_winThen (fun _ h => leads_done (keeps_winWrite h)) h

/-! PROC -/

theorem leads_procPtr {wd : W32} {a : BitVec 5} {g : BitVec 3} {k : Nat → State → Out}
    (hk : ∀ a s, Keeps s₀ s → Leads s₀ (k a s)) (h : Keeps s₀ s) : Leads s₀ (procPtr wd a g k s) := by
  unfold procPtr
  refine leads_homeOnly (fun _ => leads_tagThen (fun _ => leads_failIf (fun _ => leads_segThen (fun t s h => ?_)))) h
  cases t with
  | glob va => exact hk va s h
  | win wa => exact leads_trap h

theorem leads_descThen {va : Nat} {k : List Byte → State → Out} (hk : ∀ a s, Keeps s₀ s → Leads s₀ (k a s))
    (h : Keeps s₀ s) : Leads s₀ (descThen va k s) := by
  unfold descThen
  grind [leads_next, keeps_greadOpen, leads_parkFor, leads_stallFor]

theorem leads_execPrdef {d a : BitVec 5} {g : BitVec 3} (h : Keeps s₀ s) : Leads s₀ (execPrdef d a g s) := by
  unfold execPrdef
  refine leads_procPtr (fun va _ => leads_failIf (fun _ => leads_ownThen (fun _ => leads_descThen (fun l s1 h => ?_)))) h
  dsimp only
  split
  · exact leads_failIf (fun _ h => leads_done (keeps_ws (keeps_updTenant h))) h
  · exact leads_trap h

theorem leads_execPrdel {a : BitVec 5} (h : Keeps s₀ s) : Leads s₀ (execPrdel a s) := by
  unfold execPrdel
  grind [leads_homeOnly, leads_trap, leads_waitFor, leads_done, keeps_updTenant, leads_tablePause, leads_stallFor]

theorem keeps_wakeReq {tenant range block : Nat} {r : Req} (h : Keeps s₀ s) :
    Keeps s₀ (wakeReq tenant range block s r) := by
  unfold wakeReq
  grind [Keeps, keeps_updCtx, keeps_updCop, keeps_updMop]

theorem keeps_fillDone {g : GenHold} (h : Keeps s₀ s) : Keeps s₀ (fillDone g s) := by
  unfold fillDone
  grind [Keeps, keeps_foldl, keeps_wakeReq, keeps_updCx]

theorem keeps_failHeld {g : GenHold} {cause : BitVec 8} {code : BitVec 32} (h : Keeps s₀ s) :
    Keeps s₀ (failHeld g cause code s) := by
  unfold failHeld
  grind [keeps_failFills, keeps_updCx]

theorem leads_heldThen {wd : W32} {k : GenHold → State → Out} (hk : ∀ a s, Keeps s₀ s → Leads s₀ (k a s))
    (h : Keeps s₀ s) : Leads s₀ (heldThen wd k s) := by
  unfold heldThen
  grind [leads_trap]

theorem leads_fillNow {g : GenHold} (h : Keeps s₀ s) : Leads s₀ (fillNow g s) := by
  unfold fillNow
  grind [leads_done, keeps_fillDone, keeps_setBlockState, leads_tablePause, leads_stallFor]

theorem leads_execPrdone (h : Keeps s₀ s) : Leads s₀ (execPrdone s) := by
  unfold execPrdone
  refine leads_heldThen (fun g _ => leads_homeOnly (fun s h => ?_)) h
  split
  · exact leads_waitFor h
  · refine leads_releaseThen (fun s h => ?_) h
    split
    · exact leads_fillNow h
    · dsimp only
      split
      · have h1 : Keeps s₀ (holdDeferred s.cx.deferred s) := keeps_holdDeferred h
        split
        · exact leads_next.2 h1
        · exact leads_done (keeps_failHeld h1)
      · exact leads_next.2 (keeps_takeTrap (keeps_failHeld (keeps_updCx h)))

theorem leads_execPrfail {a : BitVec 5} (h : Keeps s₀ s) : Leads s₀ (execPrfail a s) := by
  unfold execPrfail
  grind [leads_heldThen, leads_homeOnly, leads_done, keeps_failHeld]

theorem leads_tableThen {r : Range} {b : Nat} {k : List Byte → State → Out}
    (hk : ∀ a s, Keeps s₀ s → Leads s₀ (k a s)) (h : Keeps s₀ s) : Leads s₀ (tableThen r b k s) := by
  unfold tableThen
  grind [leads_next, keeps_greadOpen, leads_tablePause, leads_stallFor]

theorem leads_execPrstate {d a : BitVec 5} {g : BitVec 3} (h : Keeps s₀ s) : Leads s₀ (execPrstate d a g s) := by
  unfold execPrstate
  grind [leads_procPtr, leads_done, keeps_ws, leads_tableThen]

theorem keeps_evict {t who : Nat} {r : Range} {n : Nat} : ∀ {b k m : Nat}
    {s s' : State}, evict t who r n b k s = .ok m s' →
    Keeps s₀ s → Keeps s₀ s' := by
  induction n with
  | zero => intro b k m s s' e h; cases e; exact h
  | succ n ih =>
    intro b k m s s' e h
    rw [evict] at e
    split at e
    · cases e
    · cases e
    · cases e
    · next l s1 hr =>
      have h1 : Keeps s₀ s1 := keeps_greadOpen hr h
      dsimp only at e
      split at e
      · split at e
        · next s2 hw => exact ih e (keeps_setBlockState hw h1)
        · cases e
        · cases e
        · exact ih e h1
      · exact ih e h1

theorem leads_execPrevict {d a b : BitVec 5} {g : BitVec 3} (h : Keeps s₀ s) : Leads s₀ (execPrevict d a b g s) := by
  unfold execPrevict
  refine leads_procPtr (fun va s h => ?_) h
  dsimp only
  split
  · exact leads_trap h
  · refine leads_failIf (fun s h => ?_) h
    split
    · next he => exact leads_done (keeps_ws (keeps_evict he h))
    · exact leads_tablePause h
    · exact leads_stallFor h

theorem leads_execPrtouch {a : BitVec 5} {g : BitVec 3} (h : Keeps s₀ s) : Leads s₀ (execPrtouch a g s) := by
  unfold execPrtouch
  grind [leads_procPtr, leads_done, leads_tableThen, keeps_startFill, leads_tablePause, leads_stallFor]

/-! WORK -/

theorem leads_execHstart {d a b : BitVec 5} (h : Keeps s₀ s) : Leads s₀ (execHstart d a b s) := by
  unfold execHstart
  refine leads_kindThen (fun _ => leads_homeOnly (fun _ => leads_failIf (fun _ => leads_releaseThen (fun s h => ?_)))) h
  dsimp only
  split
  · exact leads_done (keeps_ws (keeps_startHelper h))
  · exact leads_waitEvent (keeps_pushReq h)

theorem leads_execHjoin {a : BitVec 5} (h : Keeps s₀ s) : Leads s₀ (execHjoin a s) := by
  unfold execHjoin
  refine leads_homeOnly (fun _ => leads_failIf (fun _ => leads_metThen (fun _ _ => leads_done) (fun s h => ?_))) h
  split
  · exact leads_done h
  · exact leads_waitFor h

theorem leads_execHstat {d : BitVec 5} (h : Keeps s₀ s) : Leads s₀ (execHstat d s) := by
  unfold execHstat
  grind [leads_homeOnly, leads_done, keeps_ws]

theorem leads_execLaunch {d a : BitVec 5} (h : Keeps s₀ s) : Leads s₀ (execLaunch d a s) := by
  unfold execLaunch
  grind [leads_homeOnly, leads_ptrThen, leads_readThen, leads_releaseThen, leads_waitEvent, keeps_updTenant]

theorem leads_execLstat {d a : BitVec 5} (h : Keeps s₀ s) : Leads s₀ (execLstat d a s) := by
  unfold execLstat
  grind [leads_homeOnly, leads_failIf, leads_done, keeps_ws]

/-! Waits, deferred causes, helpers -/

theorem keeps_settle (h : Keeps s₀ s) : Keeps s₀ (settle s) := h

theorem leads_execWaitWake (h : Keeps s₀ s) : Leads s₀ (execWaitWake s) := by
  unfold execWaitWake
  grind [leads_next, leads_beginClose, keeps_switchTo, keeps_updCtx]

theorem keeps_deliverCharged {key : Nat} (h : Keeps s₀ s) : Keeps s₀ (deliverCharged s key) := by
  unfold deliverCharged
  grind [keeps_onCtx, keeps_abandonWait, keeps_updCtx, keeps_takeTrap]

theorem leads_execChargedCauseDeliver (h : Keeps s₀ s) : Leads s₀ (execChargedCauseDeliver s) := by
  unfold execChargedCauseDeliver
  grind [leads_next, keeps_deliverCharged]

theorem leads_execStorePathError (h : Keeps s₀ s) : Leads s₀ (execStorePathError s) := by
  unfold execStorePathError
  grind [leads_next, keeps_chargeDeferred]

theorem keeps_deliverUpcall {u : Upcall} (h : Keeps s₀ s) : Keeps s₀ (deliverUpcall u s) := h

theorem leads_execUpcallDeliver (h : Keeps s₀ s) : Leads s₀ (execUpcallDeliver s) := by
  unfold execUpcallDeliver
  grind [leads_next, keeps_onCtx, keeps_abandonWait, keeps_updCtx, keeps_deliverUpcall]

theorem keeps_startDrain {core idx op m : Nat} (h : Keeps s₀ s) : Keeps s₀ (startDrain s core idx op m) := by
  unfold startDrain
  grind [keeps_startHelper, keeps_updMop]

theorem keeps_serveReq {core idx : Nat} {r : HReq} (h : Keeps s₀ s) : Keeps s₀ (serveReq s core idx r) := by
  unfold serveReq
  grind [keeps_startDrain, keeps_setKettle, keeps_startHelper, keeps_startGen, keeps_finish, keeps_restoreHelper]

theorem leads_execHelperAssign (h : Keeps s₀ s) : Leads s₀ (execHelperAssign s) := by
  unfold execHelperAssign
  grind [leads_next, keeps_serveReq, keeps_updCore]

/-! Arrivals -/

theorem keeps_putInbox {core slot ket : Nat} {sender : Word} {len : Nat} {payload : BitVec 384} (h : Keeps s₀ s) :
    Keeps s₀ (putInbox s core slot ket sender len payload) := h

theorem keeps_announceOn {tenant q n : Nat} (h : Keeps s₀ s) : Keeps s₀ (announceOn s tenant q n) := by
  unfold announceOn
  dsimp only
  (repeat' split) <;> exact h

theorem keeps_landAnnounce {w : Word} {src : DecSrc} {tenant : Nat} (h : Keeps s₀ s) :
    Keeps s₀ (landAnnounce s w src tenant) := by
  unfold landAnnounce
  grind [keeps_discardDec, keeps_announceOn]

theorem keeps_landDec {w : Word} {payload : Option (BitVec 128)} {src : DecSrc} {tenant : Nat} {t : State}
    (e : landDec s w payload src tenant = some t) (h : Keeps s₀ s) : Keeps s₀ t := by
  unfold landDec at e
  dsimp only at e
  split at e
  · cases e
    exact keeps_discardDec h
  · split at e
    · cases e
      exact keeps_decKettle h
    · obtain ⟨i, -, rfl⟩ := Option.map_eq_some_iff.mp e
      exact keeps_decKettle (keeps_putInbox h)

theorem keeps_landMsg {key : Nat} {w : Word} {payload : BitVec 384} {len : Nat} {sender : Word} {tenant : Nat}
    {t : State}
    (e : landMsg s key w payload len sender tenant = some t) (h : Keeps s₀ s) : Keeps s₀ t := by
  unfold landMsg at e
  dsimp only at e
  split at e
  · cases e
    exact keeps_landAnnounce h
  · split at e
    · cases e
      exact keeps_discardDec h
    · obtain ⟨i, -, rfl⟩ := Option.map_eq_some_iff.mp e
      exact keeps_decKettle (keeps_putInbox h)

theorem keeps_landPacket {pid : Nat} {f : Packet → State → Option State}
    (hf : ∀ p s t, f p s = some t → Keeps s₀ s → Keeps s₀ t) (h : Keeps s₀ s) : Keeps s₀ (landPacket s pid f) := by
  unfold landPacket
  split
  · next p _ =>
    split
    · exact h
    · cases e : f p (dropPacket s pid) with
      | none => exact h
      | some t => exact hf p _ t e (keeps_dropPacket h)
  · exact h

theorem keeps_getD {o : Option State} (ho : ∀ t, o = some t → Keeps s₀ t) (h : Keeps s₀ s) : Keeps s₀ (o.getD s) := by
  cases o with
  | none => exact h
  | some t => exact ho t rfl

theorem keeps_foreignDec (h : Keeps s₀ s) : Keeps s₀ (foreignDec s) := by
  unfold foreignDec
  split
  · exact h
  · dsimp only
    split
    · exact keeps_landAnnounce h
    · split
      · exact h
      · exact keeps_getD (fun _ e => keeps_landDec e h) h

theorem keeps_foreignMsg (h : Keeps s₀ s) : Keeps s₀ (foreignMsg s) := by
  unfold foreignMsg
  grind [keeps_landAnnounce, keeps_decKettle, keeps_putInbox]

theorem leads_execKettleDecrement (h : Keeps s₀ s) : Leads s₀ (execKettleDecrement s) := by
  unfold execKettleDecrement
  grind [leads_next, keeps_getD, keeps_foreignDec, keeps_landPacket, keeps_landDec]

theorem leads_execMessageArrive (h : Keeps s₀ s) : Leads s₀ (execMessageArrive s) := by
  unfold execMessageArrive
  grind [leads_next, keeps_foreignMsg, keeps_landPacket, keeps_landMsg]

theorem leads_execAnnouncementArrive (h : Keeps s₀ s) : Leads s₀ (execAnnouncementArrive s) := by
  unfold execAnnouncementArrive
  grind [leads_next, keeps_landPacket, keeps_landAnnounce]

theorem keeps_landGrant {core dest dev n tenant : Nat} {t : State} (e : landGrant s core dest dev n tenant = some t)
    (h : Keeps s₀ s) : Keeps s₀ t := by
  unfold landGrant at e
  dsimp only at e
  split at e
  · cases e; exact h
  · split at e
    · cases e; exact h
    · split at e
      · cases e
      · cases e; exact h

theorem keeps_foreignGrant (h : Keeps s₀ s) : Keeps s₀ (foreignGrant s) := by
  unfold foreignGrant
  dsimp only
  split
  · exact h
  · exact keeps_getD (fun _ e => keeps_landGrant e h) h

theorem leads_execAllowGrantArrive (h : Keeps s₀ s) : Leads s₀ (execAllowGrantArrive s) := by
  unfold execAllowGrantArrive
  grind [leads_next, keeps_foreignGrant, keeps_landPacket, keeps_landGrant]

theorem keeps_pausePacket {pid : Nat} (h : Keeps s₀ s) : Keeps s₀ (pausePacket s pid) := h

theorem keeps_landDrip {p : Packet} {op : DripOp} {va : Addr} {n : Nat} {val rmode notify : Word}
    {tenant kind : Nat} (h : Keeps s₀ s) :
    Keeps s₀ (landDrip s p op va n val rmode notify tenant kind) := by
  unfold landDrip
  dsimp only
  (repeat' split) <;> grind [Keeps, leads_next, keeps_dropPacket, keeps_engineFault, keeps_pausePacket,
    keeps_reportTo, keeps_chargeDeferred, keeps_charge, keeps_touchAll, keeps_touchAll_pass, keeps_touchAll_waits,
    keeps_gread, keeps_gwrite, keeps_flagFor, keeps_postDec]

theorem keeps_foreignAccess (h : Keeps s₀ s) : Keeps s₀ (foreignAccess s) := by
  unfold foreignAccess
  extract_lets a t n va put
  have hp : ∀ s1 at_ l kind, Keeps s₀ s1 → Keeps s₀ (put s1 at_ l kind) := by
    intro s1 at_ l kind h1
    unfold put
    split
    · next hw => exact keeps_gwrite hw h1
    · exact h
  split
  · exact h
  · split
    · next l s1 hr =>
      have h1 : Keeps s₀ s1 := keeps_gread hr h
      split
      · exact h1
      · exact hp s va _ _ h
      · split
        · next hf =>
          split
          · exact h
          · exact keeps_flipPair h1 _ _ hf
        · exact h
      · split
        · exact hp s1 va _ _ h1
        · exact h1
    · exact h

theorem leads_execDripArrive (h : Keeps s₀ s) : Leads s₀ (execDripArrive s) := by
  unfold execDripArrive
  grind [leads_next, keeps_foreignAccess, keeps_landDrip]

theorem leads_execMigrationArrive (h : Keeps s₀ s) : Leads s₀ (execMigrationArrive s) := by
  unfold execMigrationArrive
  grind [leads_next, keeps_landPacket, keeps_reachHome, keeps_updCore, keeps_updCtx]

theorem leads_execVisitorAdmit (h : Keeps s₀ s) : Leads s₀ (execVisitorAdmit s) := by
  unfold execVisitorAdmit
  grind [leads_next, keeps_enterSlot, keeps_updCore]

/-! RING -/

theorem leads_ringThen {q : BitVec 4} {k : Ring → State → Out} (hk : ∀ a s, Keeps s₀ s → Leads s₀ (k a s))
    (h : Keeps s₀ s) : Leads s₀ (ringThen q k s) := by
  unfold ringThen
  grind [leads_trap]

theorem leads_execRdef {q : BitVec 4} {a b : BitVec 5} (h : Keeps s₀ s) : Leads s₀ (execRdef q a b s) := by
  unfold execRdef
  grind [leads_homeOnly, leads_failIf, leads_done, keeps_setRing]

theorem leads_execRwaitf {q : BitVec 4} {b : BitVec 5} (h : Keeps s₀ s) : Leads s₀ (execRwaitf q b s) := by
  unfold execRwaitf
  refine leads_homeOnly (fun _ => leads_metThen (fun _ _ => leads_done)
    (fun _ => leads_ringThen (fun _ _ => leads_failIf (fun _ h => ?_)))) h
  split
  · exact leads_done h
  · exact leads_waitFor h

theorem leads_execRwaite {q : BitVec 4} {b : BitVec 5} (h : Keeps s₀ s) : Leads s₀ (execRwaite q b s) := by
  unfold execRwaite
  refine leads_homeOnly (fun _ => leads_metThen (fun _ _ => leads_done)
    (fun _ => leads_ringThen (fun _ _ => leads_failIf (fun _ h => ?_)))) h
  split
  · exact leads_done h
  · exact leads_waitFor h

theorem leads_radv {head : Bool} {wd : W32} {q : BitVec 4} {b : BitVec 5} (h : Keeps s₀ s) :
    Leads s₀ (radv head wd q b s) := by
  unfold radv
  grind [leads_homeOnly, leads_ringThen, leads_failIf, leads_done, keeps_setRing, leads_releaseThen]

theorem leads_execRadvh {q : BitVec 4} {b : BitVec 5} (h : Keeps s₀ s) : Leads s₀ (execRadvh q b s) := leads_radv h

theorem leads_execRadvt {q : BitVec 4} {b : BitVec 5} (h : Keeps s₀ s) : Leads s₀ (execRadvt q b s) := leads_radv h

theorem leads_execRhead {d : BitVec 5} {q : BitVec 4} (h : Keeps s₀ s) : Leads s₀ (execRhead d q s) := by
  unfold execRhead
  grind [leads_homeOnly, leads_ringThen, leads_done, keeps_ws]

theorem leads_execRtail {d : BitVec 5} {q : BitVec 4} (h : Keeps s₀ s) : Leads s₀ (execRtail d q s) := by
  unfold execRtail
  grind [leads_homeOnly, leads_ringThen, leads_done, keeps_ws]

theorem leads_execRbind {v q : BitVec 4} {b : BitVec 5} (h : Keeps s₀ s) : Leads s₀ (execRbind v q b s) := by
  unfold execRbind
  grind [leads_homeOnly, leads_failIf, leads_ringThen, leads_done, keeps_updCx]

theorem leads_execRunbind {v : BitVec 4} (h : Keeps s₀ s) : Leads s₀ (execRunbind v s) := by
  unfold execRunbind
  grind [leads_homeOnly, leads_failIf, leads_done, keeps_updCx]

/-! MMA and MSYS -/

theorem leads_againMat {id : Nat} {go : Bool} (h : Keeps s₀ s) : Leads s₀ (againMat id go s) := by
  unfold againMat
  grind [leads_stallFor, leads_waitEvent, leads_done, keeps_updCx]

theorem leads_enqueueMat {o : MOp} (h : Keeps s₀ s) : Leads s₀ (enqueueMat o s) := by
  unfold enqueueMat
  grind [Keeps, keeps_updCore, keeps_updCx, leads_stallFor, leads_done, leads_waitEvent]

theorem leads_matrixIssue {wd : W32} {kind : MKind} {acc : BitVec 2} {qa qb : BitVec 4} {sh : BitVec 5}
    {mods : BitVec 8} (h : Keeps s₀ s) :
    Leads s₀ (matrixIssue wd kind acc qa qb sh mods s) := by
  unfold matrixIssue
  grind [leads_homeOnly, leads_againMat, leads_trapX, leads_failIf, leads_enqueueMat]

theorem leads_execMma {c : BitVec 2} {a b : BitVec 4} {sh : BitVec 5} {n e z g r k j t : Bool} (h : Keeps s₀ s) :
    Leads s₀ (execMma c a b sh n e z g r k j t s) := leads_matrixIssue h

theorem leads_execMmaj {c : BitVec 2} {a b : BitVec 4} {sh : BitVec 5} {n e z g r k j t : Bool} (h : Keeps s₀ s) :
    Leads s₀ (execMmaj c a b sh n e z g r k j t s) := leads_matrixIssue h

theorem leads_execMmas {c : BitVec 2} {a : BitVec 4} {sh : BitVec 5} {n z g r k t : Bool} (h : Keeps s₀ s) :
    Leads s₀ (execMmas c a sh n z g r k t s) := leads_matrixIssue h

theorem leads_execMlda {c : BitVec 2} {sh : BitVec 5} {g : Bool}
    (h : Keeps s₀ s) : Leads s₀ (execMlda c sh g s) := leads_matrixIssue h

theorem leads_execMsta {c : BitVec 2} {sh : BitVec 5} {g r : Bool}
    (h : Keeps s₀ s) : Leads s₀ (execMsta c sh g r s) := leads_matrixIssue h

theorem leads_execMzero {c : BitVec 2} {g : Bool} (h : Keeps s₀ s) : Leads s₀ (execMzero c g s) := leads_matrixIssue h

theorem leads_execMwait (h : Keeps s₀ s) : Leads s₀ (execMwait s) := by
  unfold execMwait
  grind [leads_homeOnly, leads_waitFor, leads_done]

theorem leads_execMstat {d : BitVec 5} (h : Keeps s₀ s) : Leads s₀ (execMstat d s) := by
  unfold execMstat
  grind [leads_homeOnly, leads_done, keeps_ws]

theorem leads_rowThen {wd : W32} {k : MOp → DrainRow → State → Out}
    (hk : ∀ a b s, Keeps s₀ s → Leads s₀ (k a b s)) (h : Keeps s₀ s) : Leads s₀ (rowThen wd k s) := by
  unfold rowThen
  grind [leads_homeOnly, leads_trap]

theorem leads_execDrrow {d : BitVec 4} (h : Keeps s₀ s) : Leads s₀ (execDrrow d s) := by
  unfold execDrrow
  grind [leads_rowThen, leads_vecDo, keeps_wv]

theorem keeps_releaseRow {core op m : Nat} {data : BitVec 4096} (h : Keeps s₀ s) :
    Keeps s₀ (releaseRow s core op m data) := h

theorem leads_execDrdone {a : BitVec 4} (h : Keeps s₀ s) : Leads s₀ (execDrdone a s) := by
  unfold execDrdone
  grind [leads_rowThen, leads_vecThen, leads_releaseThen, keeps_releaseRow, keeps_commitIn, leads_done, keeps_updCx]

theorem leads_execMchk {d a n : BitVec 5} (h : Keeps s₀ s) : Leads s₀ (execMchk d a n s) := by
  unfold execMchk
  grind [leads_homeOnly, leads_failIf, leads_done, keeps_ws]

/-! Accesses of engines -/

/-- Every state that an engine's answer carries keeps the form. -/
structure EKeeps (s₀ : State) {α : Type} (x : EOut α) : Prop where
  ok : ∀ {a s}, x = .ok a s → Keeps s₀ s
  paused : ∀ {a s}, x = .paused a s → Keeps s₀ s
  fail : ∀ {f s}, x = .fail f s → Keeps s₀ s

theorem keeps_EOut_ok {α : Type} {a : α} (h : Keeps s₀ s) : EKeeps s₀ (.ok a s) :=
  ⟨fun e => by cases e; exact h, nofun, nofun⟩

theorem keeps_EOut_paused {α : Type} {a : Nat} (h : Keeps s₀ s) : EKeeps s₀ (.paused a s : EOut α) :=
  ⟨nofun, fun e => by cases e; exact h, nofun⟩

theorem keeps_EOut_later {α : Type} : EKeeps s₀ (.later : EOut α) := ⟨nofun, nofun, nofun⟩

theorem keeps_EOut_fail {α : Type} {f : EFail} (h : Keeps s₀ s) : EKeeps s₀ (.fail f s : EOut α) :=
  ⟨nofun, nofun, fun e => by cases e; exact h⟩

theorem keeps_EOut_then {α β : Type} {x : EOut α} {k : α → State → EOut β} (hx : EKeeps s₀ x)
    (hk : ∀ a s, Keeps s₀ s → EKeeps s₀ (k a s)) : EKeeps s₀ (x.then k) := by
  cases x with
  | ok a s => exact hk a s (hx.ok rfl)
  | paused a s => exact keeps_EOut_paused (hx.paused rfl)
  | later => exact keeps_EOut_later
  | fail f s => exact keeps_EOut_fail (hx.fail rfl)

theorem keeps_enginePage {α : Type} {j : Job} {va : Nat} (h : Keeps s₀ s) : EKeeps s₀ (enginePage (α := α) j va s) :=
  keeps_EOut_paused (keeps_engineFault h)

theorem keeps_engineTouch {j : Job} {va n : Nat} (h : Keeps s₀ s) : EKeeps s₀ (engineTouch j va n s) := by
  unfold engineTouch
  split
  case h_1 e => exact keeps_EOut_ok (keeps_touchAll_pass e h)
  case h_2 e => exact keeps_EOut_paused (keeps_touchAll_waits e h)
  case h_5 => exact keeps_enginePage h
  case h_6 => exact keeps_EOut_later
  all_goals exact keeps_EOut_fail h

theorem keeps_engineWin {j : Job} {wa n : Nat} {write : Bool}
    (h : Keeps s₀ s) : EKeeps s₀ (engineWin j wa n write s) := by
  unfold engineWin
  grind [keeps_EOut_ok, keeps_EOut_paused, keeps_EOut_later, keeps_EOut_fail]

theorem keeps_eRead {j : Job} {t : Tgt} {n : Nat} (h : Keeps s₀ s) : EKeeps s₀ (eRead j t n s) := by
  cases t with
  | win wa => exact keeps_EOut_then (keeps_engineWin h) (fun _ _ h => keeps_EOut_ok h)
  | glob va =>
    refine keeps_EOut_then (keeps_engineTouch h) (fun _ s1 h => ?_)
    split
    case h_1 e => exact keeps_EOut_ok (keeps_gread e h)
    case h_2 => exact keeps_enginePage h
    case h_3 => exact keeps_EOut_later
    case h_4 => exact keeps_EOut_fail h

theorem keeps_EOut_foldl {α β : Type} {f : EOut α → β → EOut α}
    (hf : ∀ x b, EKeeps s₀ x → EKeeps s₀ (f x b)) (l : List β) {x : EOut α} (h : EKeeps s₀ x) :
    EKeeps s₀ (l.foldl f x) :=
  List.foldlRecOn (motive := EKeeps s₀) l f h (fun x h b _ => hf x b h)

theorem keeps_eProbe {j : Job} {t : Tgt} {n : Nat} (h : Keeps s₀ s) : EKeeps s₀ (eProbe j t n s) := by
  cases t with
  | win wa => exact keeps_engineWin h
  | glob va =>
    refine keeps_EOut_then (keeps_engineTouch h) (fun _ s1 h => keeps_EOut_foldl (fun x b hx => ?_) _ (keeps_EOut_ok h))
    refine keeps_EOut_then hx (fun _ s2 h => ?_)
    split
    case h_1 e => exact keeps_EOut_ok (keeps_gpath e h)
    case h_2 => exact keeps_EOut_ok h
    case h_3 => exact keeps_enginePage h
    case h_4 => exact keeps_EOut_later
    case h_5 => exact keeps_EOut_fail h

theorem keeps_eWrite {j : Job} {t : Tgt} {l : List Byte} (h : Keeps s₀ s) : Keeps s₀ (eWrite j t l s) := by
  unfold eWrite
  grind [keeps_winWrite, keeps_gwrite]

/-! SEED -/

theorem leads_seedThen {ptr : Word} {g : Seg} {write : Bool} {k : Tgt → Nat → State → Out}
    (hk : ∀ a b s, Keeps s₀ s → Leads s₀ (k a b s)) (h : Keeps s₀ s) : Leads s₀ (seedThen ptr g write k s) := by
  unfold seedThen
  grind [leads_failIf]

theorem leads_recordThen {t : Tgt} {avail : Nat} {ptr : Word} {k : SeedRead → State → Out}
    (hk : ∀ a s, Keeps s₀ s → Leads s₀ (k a s)) (h : Keeps s₀ s) : Leads s₀ (recordThen t avail ptr k s) := by
  unfold recordThen
  grind [leads_readThen]

theorem leads_validThen {ptr : Word} {r : SeedRead} {k : SeedRec → State → Out}
    (hk : ∀ a s, Keeps s₀ s → Leads s₀ (k a s)) (h : Keeps s₀ s) : Leads s₀ (validThen ptr r k s) := by
  unfold validThen
  grind [leads_trapX]

theorem keeps_eRecord {j : Job} {t : Tgt} {avail : Nat} (h : Keeps s₀ s) : EKeeps s₀ (eRecord j t avail s) := by
  unfold eRecord
  grind [keeps_EOut_ok, keeps_EOut_paused, keeps_EOut_later, keeps_EOut_fail, keeps_EOut_then, keeps_eRead]

theorem leads_execSexp {d : BitVec 4} {a b : BitVec 5} {g : BitVec 3}
    (h : Keeps s₀ s) : Leads s₀ (execSexp d a b g s) := by
  unfold execSexp
  grind [keeps_foldl, leads_homeOnly, leads_seedThen, leads_recordThen, leads_validThen, leads_failIf, leads_vecDo,
    keeps_flag, keeps_wv]

theorem leads_tileThen {off n : Nat} {k : State → Out} (hk : ∀ s, Keeps s₀ s → Leads s₀ (k s)) (h : Keeps s₀ s) :
    Leads s₀ (tileThen off n k s) := by
  unfold tileThen
  grind [leads_failIf]

theorem leads_execSsrch {d a : BitVec 4} {b : BitVec 5} (h : Keeps s₀ s) : Leads s₀ (execSsrch d a b s) := by
  unfold execSsrch
  grind [keeps_foldl, leads_homeOnly, leads_failIf, leads_tileThen, leads_vecDo, keeps_flag, keeps_wv]

theorem leads_execSproj {d : BitVec 4} {a b : BitVec 5} {g : BitVec 3}
    (h : Keeps s₀ s) : Leads s₀ (execSproj d a b g s) := by
  unfold execSproj
  exact leads_homeOnly (fun _ => leads_seedThen (fun _ _ _ => leads_recordThen (fun _ _ => leads_validThen (fun _ _ =>
    leads_failIf (fun _ => leads_tileThen (fun _ => leads_vecDo (fun _ h => keeps_flag (keeps_wv h)))))))) h

theorem leads_execSchk {d a : BitVec 5} {g : BitVec 3} (h : Keeps s₀ s) : Leads s₀ (execSchk d a g s) := by
  unfold execSchk
  grind [leads_homeOnly, leads_seedThen, leads_recordThen, leads_done, keeps_ws]

theorem leads_execLfsr {d a n : BitVec 5} (h : Keeps s₀ s) : Leads s₀ (execLfsr d a n s) := by
  unfold execLfsr
  grind [leads_homeOnly, leads_done, keeps_ws]

theorem leads_srecWrite {va : Nat} {l : List Byte} {ptr : Word} {k : State → Out}
    (hk : ∀ s, Keeps s₀ s → Leads s₀ (k s)) (h : Keeps s₀ s) : Leads s₀ (srecWrite va l ptr k s) := by
  unfold srecWrite
  refine leads_globThen (fun s h => ?_) h
  split
  case h_1 => exact leads_parkFor h
  case h_2 => exact leads_stallFor h
  case h_3 => exact leads_trap h
  case h_4 e =>
    have h0 := keeps_gread e h
    split
    · exact leads_trap h0
    split
    case h_1 => exact leads_parkFor h
    case h_2 => exact leads_stallFor h
    case h_3 => exact leads_trap h0
    case h_4 e =>
      have h1 := keeps_gwrite e h0
      split
      case h_1 => exact leads_parkFor h
      case h_2 => exact leads_stallFor h
      case h_3 => exact leads_trap h1
      case h_4 e =>
        have h2 := keeps_gwrite e h1
        split
        case h_1 => exact leads_parkFor h
        case h_2 => exact leads_stallFor h
        case h_3 => exact leads_trap h2
        case h_4 e => exact hk _ (keeps_gwrite e h2)

theorem leads_execSrec {d a b : BitVec 5} {g : BitVec 3} (h : Keeps s₀ s) : Leads s₀ (execSrec d a b g s) := by
  unfold execSrec
  refine leads_homeOnly (fun _ => leads_seedThen (fun t _ _ => leads_failIf (fun _ => leads_failIf (fun _ =>
    leads_validThen (fun _ _ => leads_failIf (fun _ h => ?_)))))) h
  cases t with
  | glob va => exact leads_srecWrite (fun _ h => leads_done (keeps_ws h)) h
  | win wa => exact leads_trap h

/-! Matrix operations under way -/

theorem keeps_leaveWait {o : MOp} (h : Keeps s₀ s) : Keeps s₀ (leaveWait s o) := by
  unfold leaveWait
  grind [keeps_updCtx]

theorem keeps_dropOps {core : Nat} {l : List MOp} (h : Keeps s₀ s) : Keeps s₀ (dropOps s core l) := by
  unfold dropOps
  grind [keeps_foldl, keeps_leaveWait, keeps_updCore]

theorem keeps_failOp {f : OpFail} (h : Keeps s₀ s) : Keeps s₀ (failOp f s).1 := by
  unfold failOp
  split
  · exact h
  · extract_lets later doomed s1 lost s2 parts
    have h2 : Keeps s₀ s2 := keeps_foldl (fun _ _ h => keeps_charge h) lost (keeps_dropOps (keeps_charge h))
    exact h2

theorem keeps_failOps {n : Nat} {l : List OpFail} (h : Keeps s₀ s) : Keeps s₀ (failOps n l s) := by
  fun_induction failOps <;> grind [keeps_failOp]

theorem keeps_abandonJoin {j : Join} {role : Nat}
    (h : Keeps s₀ s) : Keeps s₀ (abandonJoin s j role) := keeps_failOps h

theorem keeps_matFail {core : Nat} {o : MOp} {ch : Charge}
    (h : Keeps s₀ s) : Keeps s₀ (matFail s core o ch) := keeps_failOps h

theorem keeps_setRows {core : Nat} {o : MOp} {r : List DrainRow × Flags} (h : Keeps s₀ s) :
    Keeps s₀ (setRows s core o r) := by
  unfold setRows
  split <;> exact h

theorem keeps_pauseMat {core : Nat} {o : MOp} (h : Keeps s₀ s) : Keeps s₀ (pauseMat s core o) := h

theorem keeps_matOut {α : Type} {core : Nat} {o : MOp} {x : EOut α} {k : α → State → State} (h : Keeps s₀ s)
    (hx : EKeeps s₀ x) (hk : ∀ a s, Keeps s₀ s → Keeps s₀ (k a s)) : Keeps s₀ (matOut s core o x k) := by
  cases x with
  | ok a s1 => exact hk a s1 (hx.ok rfl)
  | paused a s1 => exact keeps_pauseMat (hx.paused rfl)
  | later => exact h
  | fail f s1 => exact keeps_matFail (hx.fail rfl)

theorem keeps_startSeeded {core : Nat} {o : MOp} (h : Keeps s₀ s) : Keeps s₀ (startSeeded s core o) := by
  unfold startSeeded
  extract_lets p g bad
  have hbad : ∀ n s, Keeps s₀ s → Keeps s₀ (bad n s) := fun _ _ h => keeps_matFail h
  split
  · exact hbad _ _ h
  split
  · exact hbad _ _ h
  refine keeps_matOut h (keeps_eRecord h) (fun x s1 h1 => ?_)
  split
  · exact hbad _ _ h1
  split
  · exact hbad _ _ h1
  · exact keeps_setRows h1

theorem keeps_readRows {o : MOp} {j : Job} {l : List Nat} (h : Keeps s₀ s) : EKeeps s₀ (readRows o j l s) := by
  fun_induction readRows <;> grind [keeps_EOut_ok, keeps_EOut_paused, keeps_EOut_later, keeps_EOut_fail,
    keeps_EOut_then, keeps_eRead]

theorem keeps_startLoad {core : Nat} {o : MOp} (h : Keeps s₀ s) : Keeps s₀ (startLoad s core o) :=
  keeps_matOut h (keeps_readRows h) (fun _ _ h => keeps_setRows h)

theorem keeps_startJoin {core : Nat} {o : MOp} (h : Keeps s₀ s) : Keeps s₀ (startJoin s core o) := by
  unfold startJoin
  extract_lets s1 p
  have h1 : Keeps s₀ s1 := keeps_updMop h
  split
  · exact h1
  · extract_lets j1
    split
    · exact h1
    · exact keeps_abandonJoin h1

theorem keeps_supplyJoin {core : Nat} {o : MOp} (h : Keeps s₀ s) : Keeps s₀ (supplyJoin s core o) := by
  unfold supplyJoin
  split <;> exact h

theorem keeps_startMat {core : Nat} {o : MOp} (h : Keeps s₀ s) : Keeps s₀ (startMat s core o) := by
  unfold startMat
  grind [keeps_updMop, keeps_setRows, keeps_startSeeded, keeps_startJoin, keeps_startLoad]

theorem leads_execMatrixOpStart (h : Keeps s₀ s) : Leads s₀ (execMatrixOpStart s) := by
  unfold execMatrixOpStart
  grind [leads_next, keeps_matFail, keeps_startMat, keeps_supplyJoin]

theorem keeps_computeJoin {j : Join} (h : Keeps s₀ s) : Keeps s₀ (computeJoin s j) := by
  unfold computeJoin
  grind [Keeps, keeps_foldl, keeps_setRows]

theorem leads_execJoinComputeBegin (h : Keeps s₀ s) : Leads s₀ (execJoinComputeBegin s) := by
  unfold execJoinComputeBegin
  grind [leads_next, keeps_computeJoin]

theorem leads_execJoinAbandon (h : Keeps s₀ s) : Leads s₀ (execJoinAbandon s) := by
  unfold execJoinAbandon
  grind [leads_next, keeps_abandonJoin]

theorem wf_foldl {α : Type} {f : List Host.Cell → α → List Host.Cell}
    (hf : ∀ m a, Memory.wf m = true → Memory.wf (f m a) = true) (l : List α) {m : List Host.Cell}
    (h : Memory.wf m = true) : Memory.wf (l.foldl f m) = true :=
  List.foldlRecOn (motive := fun m => Memory.wf m = true) l f h (fun m h a _ => hf m a h)

theorem keeps_putRows {core : Nat} {o : MOp} (h : Keeps s₀ s) : Keeps s₀ (putRows s core o) :=
  fun w => wf_foldl (fun _ _ h => wf_wrBytes _ _ h) o.rows (h w)

theorem keeps_popRings {core : Nat} {l : List Nat} (h : Keeps s₀ s) : Keeps s₀ (popRings s core l) := by
  unfold popRings
  grind [keeps_foldl, keeps_setRing]

theorem keeps_endMat {core : Nat} {o : MOp} (h : Keeps s₀ s) : Keeps s₀ (endMat s core o) := by
  unfold endMat
  grind [keeps_updCore, keeps_finish, keeps_updCtx]

theorem keeps_probePieces {o : MOp} {j : Job} {l : List (Nat × List (Byte × Byte))} :
    ∀ {s : State}, Keeps s₀ s → EKeeps s₀ (probePieces o j l s) := by
  induction l with
  | nil => exact fun h => keeps_EOut_ok h
  | cons p t ih =>
    intro s h
    have hp : EKeeps s₀ (eProbe j (o.destAt p.1) p.2.length s) := keeps_eProbe h
    unfold probePieces
    split
    case h_1 e => exact keeps_EOut_then (ih (hp.ok e)) (fun _ _ h => keeps_EOut_ok h)
    case h_2 e => exact keeps_EOut_paused (hp.paused e)
    case h_3 => exact keeps_EOut_later
    case h_4 e => exact keeps_EOut_ok (hp.fail e)

theorem keeps_writePiece {o : MOp} {j : Job} {p : Nat × List (Byte × Byte)} (h : Keeps s₀ s) :
    Keeps s₀ (writePiece o j s p) := keeps_eWrite h

theorem keeps_completeStore {core : Nat} {o : MOp} (h : Keeps s₀ s) : Keeps s₀ (completeStore s core o) := by
  unfold completeStore
  refine keeps_matOut h (keeps_probePieces h) (fun r s1 h1 => ?_)
  extract_lets s2
  have h2 : Keeps s₀ s2 := keeps_flagFor (keeps_foldl (fun _ _ h => keeps_writePiece h) _ h1)
  split
  · exact keeps_endMat h2
  · exact keeps_matFail h2

theorem keeps_completeMat {core : Nat} {o : MOp} (h : Keeps s₀ s) : Keeps s₀ (completeMat s core o) := by
  unfold completeMat
  split
  case h_1 => exact keeps_endMat (fun w => wf_eraseRange _ _ (h w))
  case h_5 => exact keeps_endMat (keeps_flagFor (keeps_putRows h))
  case h_6 => exact keeps_completeStore h
  all_goals exact keeps_endMat (keeps_mstatFor (keeps_popRings (keeps_putRows h)))

theorem leads_execMatrixOpComplete (h : Keeps s₀ s) : Leads s₀ (execMatrixOpComplete s) := by
  unfold execMatrixOpComplete
  grind [leads_next, keeps_matFail, keeps_completeMat]

/-! COPY -/

theorem leads_extentThen {on : Bool} {d : Side} {right : Nat} {write : Bool} {k : State → Out}
    (hk : ∀ s, Keeps s₀ s → Leads s₀ (k s)) (h : Keeps s₀ s) : Leads s₀ (extentThen on d right write k s) := by
  unfold extentThen
  grind [leads_trap]

theorem leads_againCopy {id : Nat} (h : Keeps s₀ s) : Leads s₀ (againCopy id s) := by
  unfold againCopy
  grind [leads_stallFor, leads_done, keeps_updCx]

theorem leads_enqueueCopy {o : COp} (h : Keeps s₀ s) : Leads s₀ (enqueueCopy o s) := by
  unfold enqueueCopy
  grind [Keeps, keeps_updCore, leads_done, keeps_updCx, leads_stallFor]

theorem leads_copyIssue {minor : Nat} {wd : W32} {k src dst pat : BitVec 5} {x : Xf} (h : Keeps s₀ s) :
    Leads s₀ (copyIssue minor wd k src dst pat x s) := by
  unfold copyIssue
  refine leads_homeOnly (fun s1 h1 => ?_) h
  cases mopHere s.cx with
  | some id => exact leads_againCopy h1
  | none =>
    exact leads_failIf (fun _ => leads_failIf (fun _ => leads_failIf (fun _ => leads_tagThen (fun _ => leads_tagThen
      (fun _ => leads_failIf (fun _ => leads_failIf (fun _ => leads_failIf (fun _ => leads_failIf (fun _ => leads_failIf
      (fun _ => leads_extentThen (fun _ => leads_extentThen (fun _ => leads_enqueueCopy)))))))))))) h1

theorem leads_execCopy {k a b p : BitVec 5} {x : Xf}
    (h : Keeps s₀ s) : Leads s₀ (execCopy k a b p x s) := leads_copyIssue h

theorem leads_execCopyg {k a b p : BitVec 5} {x : Xf}
    (h : Keeps s₀ s) : Leads s₀ (execCopyg k a b p x s) := leads_copyIssue h

theorem leads_execCopys {k a b p : BitVec 5} {x : Xf}
    (h : Keeps s₀ s) : Leads s₀ (execCopys k a b p x s) := leads_copyIssue h

theorem leads_execCopyw {k a b p : BitVec 5} {x : Xf}
    (h : Keeps s₀ s) : Leads s₀ (execCopyw k a b p x s) := leads_copyIssue h

/-! Copies under way -/

theorem keeps_readSide {j : Job} {d : Side} {indexed : Bool} {l : List Nat} :
    ∀ {s : State}, Keeps s₀ s → EKeeps s₀ (readSide j d indexed l s) := by
  induction l with
  | nil => exact fun h => keeps_EOut_ok h
  | cons r t ih =>
    intro s h
    unfold readSide
    extract_lets rel
    split
    · exact keeps_EOut_ok h
    have hr : EKeeps s₀ (eRead j (d.addr rel) d.rowBytes s) := keeps_eRead h
    split
    case h_1 e => exact keeps_EOut_then (ih (hr.ok e)) (fun _ _ h => keeps_EOut_ok h)
    case h_2 e => exact keeps_EOut_paused (hr.paused e)
    case h_3 => exact keeps_EOut_later
    case h_4 e => exact keeps_EOut_ok (hr.fail e)

theorem keeps_readNums {j : Job} {d : Side} {indexed ftz : Bool} (h : Keeps s₀ s) :
    EKeeps s₀ (readNums j d indexed ftz s) := by
  unfold readNums
  split
  · extract_lets n rel
    split
    · exact keeps_EOut_ok h
    have hr : EKeeps s₀ (eRead j (d.addr rel) n s) := keeps_eRead h
    split
    case h_1 e => exact keeps_EOut_ok (hr.ok e)
    case h_2 e => exact keeps_EOut_paused (hr.paused e)
    case h_3 => exact keeps_EOut_later
    case h_4 e => exact keeps_EOut_ok (hr.fail e)
  · exact keeps_EOut_then (keeps_readSide h) (fun _ _ h => keeps_EOut_ok h)

theorem keeps_unpackAll {j : Job} {d : Side} {n : Nat} :
    ∀ {k p : Nat} {s : State}, Keeps s₀ s → EKeeps s₀ (unpackAll j d n k p s) := by
  induction n with
  | zero => exact fun h => keeps_EOut_ok h
  | succ n ih =>
    intro k p s h
    unfold unpackAll
    extract_lets corrupt
    split
    · exact keeps_EOut_ok h
    split
    · exact keeps_EOut_ok h
    have hr : EKeeps s₀ (eRead j (d.addr p) 1 s) := keeps_eRead h
    split
    case h_1 e => exact keeps_EOut_paused (hr.paused e)
    case h_2 => exact keeps_EOut_later
    case h_3 e => exact keeps_EOut_ok (hr.fail e)
    case h_4 l1 s1 e =>
      have h1 : Keeps s₀ s1 := hr.ok e
      extract_lets m
      split
      · exact keeps_EOut_ok h1
      split
      · exact keeps_EOut_ok h1
      have hb : EKeeps s₀ (eRead j (d.addr p) (modeBytes m) s1) := keeps_eRead h1
      split
      case h_1 e => exact keeps_EOut_paused (hb.paused e)
      case h_2 => exact keeps_EOut_later
      case h_3 e => exact keeps_EOut_ok (hb.fail e)
      case h_4 e => exact keeps_EOut_then (ih (hb.ok e)) (fun _ _ h => keeps_EOut_ok h)

theorem keeps_planSexp {j : Job} {o : COp} {md : Mode} (h : Keeps s₀ s) : EKeeps s₀ (planSexp j o md s) := by
  unfold planSexp
  extract_lets a b avail bad
  split
  · exact keeps_EOut_ok h
  split
  · exact keeps_EOut_ok h
  split
  · exact keeps_EOut_ok h
  have hr : EKeeps s₀ (eRecord j (a.addr 0) avail s) := keeps_eRecord h
  split
  case h_1 e => exact keeps_EOut_paused (hr.paused e)
  case h_2 => exact keeps_EOut_later
  case h_3 e => exact keeps_EOut_ok (hr.fail e)
  case h_4 e => exact keeps_EOut_ok (hr.ok e)
  case h_5 e =>
    split
    · exact keeps_EOut_ok (hr.ok e)
    · exact keeps_EOut_ok (hr.ok e)

theorem keeps_planCopy {j : Job} {o : COp} (h : Keeps s₀ s) : EKeeps s₀ (planCopy j o s) := by
  unfold planCopy
  grind [keeps_EOut_ok, keeps_EOut_paused, keeps_EOut_later, keeps_EOut_fail, keeps_EOut_then, keeps_readSide,
    keeps_readNums, keeps_unpackAll, keeps_planSexp]

theorem keeps_probePlan {j : Job} {d : Side} {l : List Piece} :
    ∀ {s : State}, Keeps s₀ s → EKeeps s₀ (probePlan j d l s) := by
  induction l with
  | nil => exact fun h => keeps_EOut_ok h
  | cons p t ih =>
    intro s h
    have hp : EKeeps s₀ (eProbe j (d.addr p.rel) p.bytes.length s) := keeps_eProbe h
    unfold probePlan
    split
    case h_1 e => exact keeps_EOut_then (ih (hp.ok e)) (fun _ _ h => keeps_EOut_ok h)
    case h_2 e => exact keeps_EOut_paused (hp.paused e)
    case h_3 => exact keeps_EOut_later
    case h_4 e => exact keeps_EOut_ok (hp.fail e)

theorem keeps_writePlan {j : Job} {d : Side} {l : List Piece} (h : Keeps s₀ s) : Keeps s₀ (writePlan j d l s) := by
  unfold writePlan
  grind [keeps_foldl, keeps_eWrite]

theorem keeps_endCopy {core : Nat} {o : COp} {r : Option CFail} (h : Keeps s₀ s) : Keeps s₀ (endCopy s core o r) := by
  unfold endCopy
  grind [keeps_updCore, keeps_postDec, keeps_charge]

theorem keeps_runCopy {core : Nat} {o : COp} (h : Keeps s₀ s) : Keeps s₀ (runCopy s core o) := by
  unfold runCopy
  split
  · exact keeps_endCopy h
  extract_lets j pause
  have hpause : ∀ i s, Keeps s₀ s → Keeps s₀ (pause i s) := fun _ _ h => keeps_updCop h
  have hplan : EKeeps s₀ (planCopy j o s) := keeps_planCopy h
  split
  case h_1 e => exact hpause _ _ (hplan.paused e)
  case h_2 => exact h
  case h_3 e => exact keeps_endCopy (hplan.fail e)
  case h_4 p s1 e =>
    have hprobe : EKeeps s₀ (probePlan j o.b p.pieces s1) := keeps_probePlan (hplan.ok e)
    split
    case h_1 e => exact hpause _ _ (hprobe.paused e)
    case h_2 => exact h
    case h_3 e => exact keeps_endCopy (hprobe.fail e)
    case h_4 e => exact keeps_endCopy (keeps_flagFor (keeps_writePlan (hprobe.ok e)))

theorem leads_execCopyStart (h : Keeps s₀ s) : Leads s₀ (execCopyStart s) := by
  unfold execCopyStart
  grind [leads_next, keeps_updCop]

/-! BITS and bit streams -/

theorem leads_bitThen {wd : W32} {k : Ring → BitSlot → State → Out}
    (hk : ∀ a b s, Keeps s₀ s → Leads s₀ (k a b s)) (h : Keeps s₀ s) : Leads s₀ (bitThen wd k s) := by
  unfold bitThen
  grind [leads_kindThen, leads_homeOnly, leads_trap]

theorem keeps_putSlot {b : BitSlot} (h : Keeps s₀ s) : Keeps s₀ (putSlot b s) := h

theorem leads_slotThen {off n : Nat} {k : State → Out} (hk : ∀ s, Keeps s₀ s → Leads s₀ (k s)) (h : Keeps s₀ s) :
    Leads s₀ (slotThen off n k s) := leads_failIf hk h

theorem leads_inputThen {r : Ring} {b : BitSlot} {n : Nat} {k : State → Out}
    (hk : ∀ s, Keeps s₀ s → Leads s₀ (k s)) (h : Keeps s₀ s) : Leads s₀ (inputThen r b n k s) := leads_slotThen hk h

theorem leads_slotFail {b : BitSlot} {code : BitVec 32} {k : State → Out} (hk : ∀ s, Keeps s₀ s → Leads s₀ (k s))
    (h : Keeps s₀ s) : Leads s₀ (slotFail b code k s) := by
  unfold slotFail
  grind [keeps_bstrFail, leads_trap]

theorem leads_consume {b : BitSlot} {n : Nat} {k : State → Out} (hk : ∀ s, Keeps s₀ s → Leads s₀ (k s))
    (h : Keeps s₀ s) : Leads s₀ (consume b n k s) := by
  unfold consume
  grind [keeps_putSlot, leads_slotFail]

theorem leads_execBget {d n : BitVec 5} (h : Keeps s₀ s) : Leads s₀ (execBget d n s) := by
  unfold execBget
  grind [leads_bitThen, leads_inputThen, leads_consume, leads_done, keeps_ws]

theorem leads_execBpeek {d n : BitVec 5} (h : Keeps s₀ s) : Leads s₀ (execBpeek d n s) := by
  unfold execBpeek
  grind [leads_bitThen, leads_inputThen, leads_done, keeps_ws]

theorem leads_execBskip {a : BitVec 5} (h : Keeps s₀ s) : Leads s₀ (execBskip a s) := by
  unfold execBskip
  grind [leads_bitThen, leads_failIf, leads_consume, leads_done]

theorem leads_execBalign (h : Keeps s₀ s) : Leads s₀ (execBalign s) := by
  unfold execBalign
  grind [leads_bitThen, leads_done, keeps_putSlot]

theorem keeps_appendBits {r : Ring} {b : BitSlot} {x n : Nat} (h : Keeps s₀ s) : Keeps s₀ (appendBits r b x n s) := by
  unfold appendBits
  grind [keeps_putSlot, keeps_wrScratch]

theorem leads_execBput {a n : BitVec 5} (h : Keeps s₀ s) : Leads s₀ (execBput a n s) := by
  unfold execBput
  grind [leads_bitThen, leads_slotFail, leads_done, leads_slotThen, keeps_appendBits]

theorem leads_execBflush {d : BitVec 5} (h : Keeps s₀ s) : Leads s₀ (execBflush d s) := by
  unfold execBflush
  grind [leads_bitThen, leads_done, keeps_ws, leads_slotThen, keeps_appendBits]

theorem leads_execBhuf {d a : BitVec 5} (h : Keeps s₀ s) : Leads s₀ (execBhuf d a s) := by
  unfold execBhuf
  refine leads_bitThen (fun _ _ _ => leads_failIf (fun _ => leads_failIf (fun _ => leads_failIf (fun _ => leads_failIf
    (fun _ => leads_inputThen (fun _ h => ?_)))))) h
  extract_lets e len out
  have hout : ∀ s, Keeps s₀ s → Leads s₀ (out s) := fun _ h => leads_done (keeps_ws h)
  split
  · exact leads_slotFail hout h
  · exact leads_consume hout h

theorem leads_execBlzc {d : BitVec 5} (h : Keeps s₀ s) : Leads s₀ (execBlzc d s) := by
  unfold execBlzc
  grind [leads_bitThen, leads_inputThen, leads_consume, leads_done, keeps_ws]

theorem leads_execBnext {d : BitVec 5} (h : Keeps s₀ s) : Leads s₀ (execBnext d s) := by
  unfold execBnext
  grind [leads_kindThen, leads_homeOnly, keeps_closeSlot, leads_done, keeps_ws, keeps_putSlot]

theorem leads_execBfail {a : BitVec 5} (h : Keeps s₀ s) : Leads s₀ (execBfail a s) := by
  unfold execBfail
  grind [leads_bitThen, leads_slotFail, leads_done, keeps_closeSlot]

theorem keeps_dropOver {core id : Nat} (h : Keeps s₀ s) : Keeps s₀ (dropOver core id s) := h

theorem keeps_copyErr {core id elem k : Nat} {f : EFail} (h : Keeps s₀ s) : Keeps s₀ (copyErr core id elem k f s) := h

theorem keeps_copyPause {core id elem k : Nat} (h : Keeps s₀ s) : Keeps s₀ (copyPause core id elem k s) := h

theorem keeps_writeChunks {core id : Nat} {l : List Chunk} :
    ∀ {s : State}, Keeps s₀ s → Keeps s₀ (writeChunks core id l s) := by
  induction l with
  | nil => exact fun h => h
  | cons c t ih =>
    intro s h
    unfold writeChunks
    split
    case h_1 => exact ih h
    case h_2 => exact ih h
    case h_3 => exact h
    case h_4 =>
      split
      · exact h
      · next o _ =>
        split
        · exact ih (keeps_updChunk h)
        extract_lets l
        have hp : EKeeps s₀ (eProbe (o.job core) (o.dstAt c.k) l.length s) := keeps_eProbe h
        split
        case h_1 e => exact ih (keeps_updChunk (keeps_eWrite (hp.ok e)))
        case h_2 e => exact keeps_copyPause (hp.paused e)
        case h_3 => exact h
        case h_4 e => exact ih (keeps_updChunk (keeps_copyErr (hp.fail e)))

theorem keeps_settleCopy {core id : Nat} (h : Keeps s₀ s) : Keeps s₀ (settleCopy core id s) := by
  unfold settleCopy
  grind [keeps_foldl, keeps_dropOver, keeps_popReady, keeps_writeChunks]

theorem keeps_deliverChunk {core id : Nat} {o : COp} {l : List Byte} {at_ ring : Nat} {r : Ring} (h : Keeps s₀ s) :
    Keeps s₀ (deliverChunk core id o l at_ ring r s) := by
  unfold deliverChunk
  grind [keeps_copyErr, keeps_wrScratch, keeps_setRing, keeps_updCore, keeps_updCop]

theorem keeps_deliverNext {core id : Nat} (h : Keeps s₀ s) : Keeps s₀ (deliverNext core id s) := by
  unfold deliverNext
  split
  · exact h
  next o _ =>
  split
  · exact h
  split
  · exact h
  split
  · exact h
  have hr : EKeeps s₀ (eRead (o.job core) (o.srcAt o.next) o.a.c0 s) := keeps_eRead h
  split
  case h_1 e => exact keeps_deliverChunk (hr.ok e)
  case h_2 e => exact keeps_copyPause (hr.paused e)
  case h_3 => exact h
  case h_4 e => exact keeps_copyErr (hr.fail e)

theorem leads_execBstrDeliver (h : Keeps s₀ s) : Leads s₀ (execBstrDeliver s) := by
  unfold execBstrDeliver
  grind [leads_next, keeps_deliverNext, keeps_settleCopy]

theorem leads_execCopyComplete (h : Keeps s₀ s) : Leads s₀ (execCopyComplete s) := by
  unfold execCopyComplete
  dsimp only
  (repeat' split) <;> grind [Keeps, leads_next, keeps_settleCopy, keeps_endCopy, keeps_runCopy]

theorem leads_execTxwakeStart (h : Keeps s₀ s) : Leads s₀ (execTxwakeStart s) := by
  unfold execTxwakeStart
  grind [leads_next, keeps_updCore, keeps_startHelper]

/-! Cuts, checkpoints, resumption -/

theorem keeps_leaveCores {cores : List Nat} (h : Keeps s₀ s) : Keeps s₀ (leaveCores s cores) := by
  unfold leaveCores
  grind [keeps_foldl, keeps_updCore]

theorem keeps_dropCtxs {keys : List Nat} (h : Keeps s₀ s) : Keeps s₀ (dropCtxs s keys) := h

theorem keeps_dropDirect {tenant : Nat} {keys : List Nat} (h : Keeps s₀ s) : Keeps s₀ (dropDirect s tenant keys) := h

theorem keeps_dropAsks {mine : Nat → Bool} {cores : List Nat} (h : Keeps s₀ s) : Keeps s₀ (dropAsks s mine cores) := h

theorem keeps_shutToken {t : Token} (h : Keeps s₀ s) : Keeps s₀ (shutToken s t) := by
  unfold shutToken
  grind [keeps_gread, keeps_gwrite, keeps_closeToken]

theorem keeps_dropRaster {pour : Nat} (h : Keeps s₀ s) : Keeps s₀ (dropRaster s pour) := by
  unfold dropRaster
  extract_lets s1
  have h1 : Keeps s₀ s1 := keeps_foldl (fun _ _ h => keeps_shutToken h) _ h
  exact h1

theorem keeps_deliverDue {core : Nat} (h : Keeps s₀ s) : Keeps s₀ (deliverDue s core) := by
  unfold deliverDue
  grind [keeps_foldl, keeps_deliverCharged]

theorem keeps_evictPour {p : Pour} {img : Image} {st : PourSt}
    (h : Keeps s₀ s) : Keeps s₀ (evictPour s p img st) := by
  unfold evictPour
  extract_lets keys n s1 s2
  have h1 : Keeps s₀ s1 := h
  have h2 : Keeps s₀ s2 := keeps_rekeyOut (keeps_dropDirect h1)
  exact keeps_updPour (keeps_leaveCores (keeps_dropCtxs h2))

theorem keeps_finishMarks {marks : List (Nat × BitVec 5 × Word)} {v : Word} (h : Keeps s₀ s) :
    Keeps s₀ (finishMarks s marks v) := by
  unfold finishMarks
  grind [keeps_foldl, keeps_finish]

theorem keeps_endCut {pour : Nat} (h : Keeps s₀ s) : Keeps s₀ (endCut s pour) := h

theorem keeps_completeCut {c : Cut} {p : Pour} (h : Keeps s₀ s) : Keeps s₀ (completeCut s c p) := by
  unfold completeCut
  extract_lets clean s1 n ck s2 s3 nxt s4
  have hc : Keeps s₀ clean := keeps_foldl (fun _ _ h => keeps_cleanCore h) p.cores h
  clear_value clean
  have h2 : Keeps s₀ s2 := by
    unfold s2
    split
    · exact hc
    · exact hc
  clear_value s2
  split
  · exact keeps_evictPour (keeps_endCut (keeps_finishMarks h2))
  · exact keeps_finishMarks (keeps_updPour (keeps_endCut h2))

theorem keeps_markerStep {c : Cut} {p : Pour} {t : State} (e : markerStep s c p = some t)
    (h : Keeps s₀ s) : Keeps s₀ t := by
  unfold markerStep at e
  extract_lets supply at e
  split at e
  · split at e
    · cases e
      split
      · exact keeps_computeJoin h
      · exact keeps_abandonJoin h
    · cases e
  · split at e
    · next k _ =>
      extract_lets s1 rest s2 at e
      have h1 : Keeps s₀ s1 := keeps_deliverDue h
      clear_value s1
      have h2 : Keeps s₀ s2 := h1
      clear_value s2
      split at e
      · cases e
        split
        · exact keeps_completeCut h2
        · exact h2
      · cases e
        exact h2
    · split at e
      · cases e
        exact keeps_completeCut h
      · cases e

theorem leads_execMarkerArrive (h : Keeps s₀ s) : Leads s₀ (execMarkerArrive s) := by
  unfold execMarkerArrive
  split
  · next c p _ _ =>
    refine leads_next.2 ?_
    cases e : markerStep s c p with
    | none => exact h
    | some t => exact keeps_markerStep e h
  · exact leads_next.2 h

theorem leads_execCheckpointStored (h : Keeps s₀ s) : Leads s₀ (execCheckpointStored s) := by
  unfold execCheckpointStored
  grind [Keeps, keeps_foldl, leads_next, keeps_postDec]

theorem keeps_putMoved {mv : Nat → Nat} {p : Pour} {c0 : Ctx} (h : Keeps s₀ s) : Keeps s₀ (putMoved mv p s c0) := by
  unfold putMoved
  grind [Keeps, keeps_post, keeps_putCtx]

theorem keeps_restorePour {p : Pour} {img : Image} {ox oy : Nat}
    (h : Keeps s₀ s) : Keeps s₀ (restorePour s p img ox oy) := by
  unfold restorePour
  extract_lets mv q placed s1 s2 m1 own s3
  have h1 : Keeps s₀ s1 := h
  have h2 : Keeps s₀ s2 := keeps_foldl (fun _ _ h => keeps_updCore h) img.cores (keeps_rekeyOut h1)
  have h3 : Keeps s₀ s3 := fun w =>
    wf_foldl (fun _ _ h => wf_wrB _ _ h) img.cells (wf_foldl (fun _ _ h => wf_eraseRange _ _ h) q.cores (h2 w))
  exact keeps_foldl (fun _ _ h => keeps_putMoved h) img.ctxs h3

theorem keeps_disown {p : Pour} (h : Keeps s₀ s) : Keeps s₀ (disown s p) := h

theorem keeps_reportBrew {p : Pour} (h : Keeps s₀ s) : Keeps s₀ (reportBrew s p) := by
  unfold reportBrew
  (repeat' split) <;> exact h

theorem keeps_discardPour {reset : Bool} {p : Pour} (h : Keeps s₀ s) : Keeps s₀ (discardPour reset s p) := by
  unfold discardPour
  extract_lets ctxs keys lost drop s1 asks s2 s3 s4
  have h1 : Keeps s₀ s1 := h
  clear_value s1
  have h2 : Keeps s₀ s2 := keeps_dropCtxs (keeps_disown (keeps_dropDirect (keeps_dropAsks h1)))
  clear_value s2
  have h3 : Keeps s₀ s3 := by
    unfold s3
    split
    · exact keeps_leaveCores h2
    · exact h2
  clear_value s3
  have h4 : Keeps s₀ s4 := keeps_failFills (keeps_dropRaster h3)
  clear_value s4
  exact keeps_reportBrew h4

/-! ALU, ALUI, IM, branches -/

theorem leads_aluW {f : Word → Word → Word} {g : W32 → W32 → W32} {d a b : BitVec 5} {w : Bool} (h : Keeps s₀ s) :
    Leads s₀ (aluW f g d a b w s) := by
  unfold aluW
  grind [leads_done, keeps_ws]

theorem leads_alu64 {f : Word → Word → Word} {d a b : BitVec 5} (h : Keeps s₀ s) : Leads s₀ (alu64 f d a b s) := by
  unfold alu64
  grind [leads_done, keeps_ws]

theorem leads_divW {f : Word → Word → Word} {g : W32 → W32 → W32} {d a b : BitVec 5} {w : Bool} (h : Keeps s₀ s) :
    Leads s₀ (divW f g d a b w s) := by
  unfold divW
  grind [leads_failIf, leads_aluW]

theorem leads_alui {f : Word → Word → Word} {d a : BitVec 5} {i : BitVec 12} (h : Keeps s₀ s) :
    Leads s₀ (alui f d a i s) := by
  unfold alui
  grind [leads_done, keeps_ws]

theorem leads_execAdd {d a b : BitVec 5} {w : Bool} (h : Keeps s₀ s) : Leads s₀ (execAdd d a b w s) := leads_aluW h

theorem leads_execSub {d a b : BitVec 5} {w : Bool} (h : Keeps s₀ s) : Leads s₀ (execSub d a b w s) := leads_aluW h

theorem leads_execAnd {d a b : BitVec 5} {w : Bool} (h : Keeps s₀ s) : Leads s₀ (execAnd d a b w s) := leads_aluW h

theorem leads_execOr {d a b : BitVec 5} {w : Bool} (h : Keeps s₀ s) : Leads s₀ (execOr d a b w s) := leads_aluW h

theorem leads_execXor {d a b : BitVec 5} {w : Bool} (h : Keeps s₀ s) : Leads s₀ (execXor d a b w s) := leads_aluW h

theorem leads_execAndn {d a b : BitVec 5} {w : Bool} (h : Keeps s₀ s) : Leads s₀ (execAndn d a b w s) := leads_aluW h

theorem leads_execSll {d a b : BitVec 5} {w : Bool} (h : Keeps s₀ s) : Leads s₀ (execSll d a b w s) := leads_aluW h

theorem leads_execSrl {d a b : BitVec 5} {w : Bool} (h : Keeps s₀ s) : Leads s₀ (execSrl d a b w s) := leads_aluW h

theorem leads_execSra {d a b : BitVec 5} {w : Bool} (h : Keeps s₀ s) : Leads s₀ (execSra d a b w s) := leads_aluW h

theorem leads_execMul {d a b : BitVec 5} {w : Bool} (h : Keeps s₀ s) : Leads s₀ (execMul d a b w s) := leads_aluW h

theorem leads_execMin {d a b : BitVec 5} {w : Bool} (h : Keeps s₀ s) : Leads s₀ (execMin d a b w s) := leads_aluW h

theorem leads_execMax {d a b : BitVec 5} {w : Bool} (h : Keeps s₀ s) : Leads s₀ (execMax d a b w s) := leads_aluW h

theorem leads_execMinu {d a b : BitVec 5} {w : Bool} (h : Keeps s₀ s) : Leads s₀ (execMinu d a b w s) := leads_aluW h

theorem leads_execMaxu {d a b : BitVec 5} {w : Bool} (h : Keeps s₀ s) : Leads s₀ (execMaxu d a b w s) := leads_aluW h

theorem leads_execCeq {d a b : BitVec 5} {w : Bool} (h : Keeps s₀ s) : Leads s₀ (execCeq d a b w s) := leads_aluW h

theorem leads_execCne {d a b : BitVec 5} {w : Bool} (h : Keeps s₀ s) : Leads s₀ (execCne d a b w s) := leads_aluW h

theorem leads_execClt {d a b : BitVec 5} {w : Bool} (h : Keeps s₀ s) : Leads s₀ (execClt d a b w s) := leads_aluW h

theorem leads_execCltu {d a b : BitVec 5} {w : Bool} (h : Keeps s₀ s) : Leads s₀ (execCltu d a b w s) := leads_aluW h

theorem leads_execCle {d a b : BitVec 5} {w : Bool} (h : Keeps s₀ s) : Leads s₀ (execCle d a b w s) := leads_aluW h

theorem leads_execCleu {d a b : BitVec 5} {w : Bool} (h : Keeps s₀ s) : Leads s₀ (execCleu d a b w s) := leads_aluW h

theorem leads_execDiv {d a b : BitVec 5} {w : Bool} (h : Keeps s₀ s) : Leads s₀ (execDiv d a b w s) := leads_divW h

theorem leads_execDivu {d a b : BitVec 5} {w : Bool} (h : Keeps s₀ s) : Leads s₀ (execDivu d a b w s) := leads_divW h

theorem leads_execRem {d a b : BitVec 5} {w : Bool} (h : Keeps s₀ s) : Leads s₀ (execRem d a b w s) := leads_divW h

theorem leads_execRemu {d a b : BitVec 5} {w : Bool} (h : Keeps s₀ s) : Leads s₀ (execRemu d a b w s) := leads_divW h

theorem leads_execMulh {d a b : BitVec 5} (h : Keeps s₀ s) : Leads s₀ (execMulh d a b s) := leads_alu64 h

theorem leads_execMulhu {d a b : BitVec 5} (h : Keeps s₀ s) : Leads s₀ (execMulhu d a b s) := leads_alu64 h

theorem leads_execClz {d a : BitVec 5} {w : Bool} (h : Keeps s₀ s) : Leads s₀ (execClz d a w s) := leads_aluW h

theorem leads_execCtz {d a : BitVec 5} {w : Bool} (h : Keeps s₀ s) : Leads s₀ (execCtz d a w s) := leads_aluW h

theorem leads_execPopc {d a : BitVec 5} {w : Bool} (h : Keeps s₀ s) : Leads s₀ (execPopc d a w s) := leads_aluW h

theorem leads_execPadd {d a b : BitVec 5} (h : Keeps s₀ s) : Leads s₀ (execPadd d a b s) := leads_alu64 h

theorem leads_execPtag {d a : BitVec 5} (h : Keeps s₀ s) : Leads s₀ (execPtag d a s) := leads_alu64 h

theorem leads_execPsett {d a b : BitVec 5} (h : Keeps s₀ s) : Leads s₀ (execPsett d a b s) := leads_alu64 h

theorem leads_execCmovnz {d a b : BitVec 5} (h : Keeps s₀ s) : Leads s₀ (execCmovnz d a b s) := leads_alu64 h

theorem leads_execCmovz {d a b : BitVec 5} (h : Keeps s₀ s) : Leads s₀ (execCmovz d a b s) := leads_alu64 h

theorem leads_execAddi {d a : BitVec 5} {i : BitVec 12} (h : Keeps s₀ s) : Leads s₀ (execAddi d a i s) := leads_alui h

theorem leads_execAndi {d a : BitVec 5} {i : BitVec 12} (h : Keeps s₀ s) : Leads s₀ (execAndi d a i s) := leads_alui h

theorem leads_execOri {d a : BitVec 5} {i : BitVec 12} (h : Keeps s₀ s) : Leads s₀ (execOri d a i s) := leads_alui h

theorem leads_execXori {d a : BitVec 5} {i : BitVec 12} (h : Keeps s₀ s) : Leads s₀ (execXori d a i s) := leads_alui h

theorem leads_execCeqi {d a : BitVec 5} {i : BitVec 12} (h : Keeps s₀ s) : Leads s₀ (execCeqi d a i s) := leads_alui h

theorem leads_execClti {d a : BitVec 5} {i : BitVec 12} (h : Keeps s₀ s) : Leads s₀ (execClti d a i s) := leads_alui h

theorem leads_execCltui {d a : BitVec 5} {i : BitVec 12}
    (h : Keeps s₀ s) : Leads s₀ (execCltui d a i s) := leads_alui h

theorem leads_execMuli {d a : BitVec 5} {i : BitVec 12} (h : Keeps s₀ s) : Leads s₀ (execMuli d a i s) := leads_alui h

theorem leads_execPaddi {d a : BitVec 5} {i : BitVec 12}
    (h : Keeps s₀ s) : Leads s₀ (execPaddi d a i s) := leads_alui h

theorem leads_execSlli {d a : BitVec 5} {i : BitVec 6} (h : Keeps s₀ s) : Leads s₀ (execSlli d a i s) := leads_alu64 h

theorem leads_execSrli {d a : BitVec 5} {i : BitVec 6} (h : Keeps s₀ s) : Leads s₀ (execSrli d a i s) := leads_alu64 h

theorem leads_execSrai {d a : BitVec 5} {i : BitVec 6} (h : Keeps s₀ s) : Leads s₀ (execSrai d a i s) := leads_alu64 h

theorem leads_execImz {d : BitVec 5} {q : BitVec 2} {i : BitVec 16}
    (h : Keeps s₀ s) : Leads s₀ (execImz d q i s) := by
  unfold execImz
  grind [leads_done, keeps_ws]

theorem leads_execImk {d : BitVec 5} {q : BitVec 2} {i : BitVec 16}
    (h : Keeps s₀ s) : Leads s₀ (execImk d q i s) := by
  unfold execImk
  grind [leads_done, keeps_ws]

theorem leads_branch {taken : Bool} {o : BitVec 18} (h : Keeps s₀ s) : Leads s₀ (branch taken o s) := leads_doneAt h

theorem leads_execBz {a : BitVec 5} {o : BitVec 18} (h : Keeps s₀ s) : Leads s₀ (execBz a o s) := leads_branch h

theorem leads_execBnz {a : BitVec 5} {o : BitVec 18} (h : Keeps s₀ s) : Leads s₀ (execBnz a o s) := leads_branch h

theorem leads_execBlt {a : BitVec 5} {o : BitVec 18} (h : Keeps s₀ s) : Leads s₀ (execBlt a o s) := leads_branch h

theorem leads_execBge {a : BitVec 5} {o : BitVec 18} (h : Keeps s₀ s) : Leads s₀ (execBge a o s) := leads_branch h

theorem leads_execBgt {a : BitVec 5} {o : BitVec 18} (h : Keeps s₀ s) : Leads s₀ (execBgt a o s) := leads_branch h

theorem leads_execBle {a : BitVec 5} {o : BitVec 18} (h : Keeps s₀ s) : Leads s₀ (execBle a o s) := leads_branch h

theorem leads_execJal {d : BitVec 5} {o : BitVec 21} (h : Keeps s₀ s) : Leads s₀ (execJal d o s) := by
  unfold execJal
  grind [leads_doneAt, keeps_ws]

theorem leads_execJalr {d a : BitVec 5} {i : BitVec 16} (h : Keeps s₀ s) : Leads s₀ (execJalr d a i s) := by
  unfold execJalr
  grind [leads_failIf, leads_doneAt, keeps_ws]

/-! Acceptance, placement, retirement -/

theorem keeps_readTable {tenant addr : Nat} {g : Vector Seg 8} {t : State} (e : readTable s tenant addr = .ok g t)
    (h : Keeps s₀ s) : Keeps s₀ t := by
  unfold readTable at e
  split at e
  · cases e
  split at e
  · next hr =>
    extract_lets es at e
    split at e
    · cases e
      exact keeps_gread hr h
    · cases e
  · cases e
  · cases e

theorem keeps_sendCompletion {tenant num idx status : Nat} {done : Word} (h : Keeps s₀ s) :
    Keeps s₀ (sendCompletion s tenant num idx status done) := by
  unfold sendCompletion
  grind [keeps_postDec]

theorem keeps_judge {tenant queue : Nat} {r : BitVec 512} {x : State × Word} (e : judge s tenant queue r = some x)
    (h : Keeps s₀ s) : Keeps s₀ x.1 := by
  unfold judge at e
  extract_lets num number reject at e
  have hnum : ∀ s, Keeps s₀ s → Keeps s₀ (number s) := fun _ h => keeps_updTenant h
  have hrej : ∀ s n, Keeps s₀ s → Keeps s₀ (reject s n).1 := by
    intro s n h
    unfold reject
    extract_lets s1 s2
    have h1 : Keeps s₀ s1 := hnum s h
    clear_value s1
    have h2 : Keeps s₀ s2 := by
      unfold s2
      split
      · split
        · exact h1
        · exact keeps_updTenant h1
      · exact keeps_sendCompletion h1
    exact h2
  split at e
  · cases e
  · cases e
    exact hrej s _ h
  · next g s1 hr =>
    have h1 : Keeps s₀ s1 := keeps_readTable hr h
    extract_lets code b s2 at e
    split at e
    · cases e
      exact hrej s1 _ h1
    · cases e
      have h2 : Keeps s₀ s2 := hnum s1 h1
      exact h2

theorem keeps_acceptDirect {tenant : Nat} (h : Keeps s₀ s) : Keeps s₀ (acceptDirect s tenant) := by
  unfold acceptDirect
  split
  · exact h
  split
  · exact h
  · next e => exact keeps_finish (keeps_updTenant (keeps_judge e h))

theorem keeps_acceptQueued {tenant q : Nat} (h : Keeps s₀ s) : Keeps s₀ (acceptQueued s tenant q) := by
  unfold acceptQueued
  extract_lets u put count taken
  have hput : ∀ s u, Keeps s₀ s → Keeps s₀ (put s u) := fun _ _ h => keeps_updTenant h
  have hcount : ∀ s n, Keeps s₀ s → Keeps s₀ (count s n) := fun _ _ h => keeps_updTenant h
  split
  · exact h
  split
  · exact hcount _ _ (hput _ _ h)
  split
  · next l s1 hr =>
    cases e : judge s1 tenant q (BitVec.ofNat 512 (natOfBytes l)) with
    | none => exact h
    | some x => exact hput _ _ (keeps_judge e (keeps_gread hr h))
  · exact h
  · exact hcount _ _ (hput _ _ h)

theorem leads_execAcceptRecord (h : Keeps s₀ s) : Leads s₀ (execAcceptRecord s) := by
  unfold execAcceptRecord
  grind [leads_next, keeps_acceptDirect, keeps_acceptQueued]

theorem keeps_clearSlots {cores : List Nat} (h : Keeps s₀ s) : Keeps s₀ (clearSlots s cores) := h

theorem keeps_served {c : Cand} (h : Keeps s₀ s) : Keeps s₀ (served s c) := h

theorem keeps_placeFresh {c : Cand} {ox oy : Nat} (h : Keeps s₀ s) : Keeps s₀ (placeFresh s c ox oy) := by
  unfold placeFresh
  extract_lets b p s1 setup s2 s3
  have h1 : Keeps s₀ s1 := keeps_clearSlots (keeps_served h)
  clear_value s1
  have h2 : Keeps s₀ s2 := keeps_foldl (fun _ _ h => keeps_updCore h) p.cores h1
  clear_value s2
  have h3 : Keeps s₀ s3 := keeps_updBrew h2
  exact fun w => wf_foldl (fun _ _ h => wf_eraseRange _ _ h) p.cores (h3 w)

theorem leads_execPlacePour (h : Keeps s₀ s) : Leads s₀ (execPlacePour s) := by
  unfold execPlacePour
  grind [leads_next, keeps_placeFresh]

theorem leads_execPourResume (h : Keeps s₀ s) : Leads s₀ (execPourResume s) := by
  unfold execPourResume
  split <;> grind [leads_next, keeps_restorePour, keeps_clearSlots, keeps_served]

theorem leads_execControlContextStart (h : Keeps s₀ s) : Leads s₀ (execControlContextStart s) := by
  unfold execControlContextStart
  grind [leads_next, keeps_updCtx, keeps_updCore]

theorem leads_execZeroFillStep (h : Keeps s₀ s) : Leads s₀ (execZeroFillStep s) := by
  unfold execZeroFillStep
  grind [leads_next, keeps_setCore]

theorem keeps_retirePour {p : Pour} (h : Keeps s₀ s) : Keeps s₀ (retirePour s p) := by
  unfold retirePour
  extract_lets gone left freed
  have hg : Keeps s₀ gone := keeps_dropCtxs (keeps_foldl (fun _ _ h => keeps_cleanCore h) p.cores h)
  clear_value gone
  have hl : Keeps s₀ left := keeps_dropRaster (keeps_leaveCores (keeps_clearSlots hg))
  clear_value left
  have hf : Keeps s₀ freed := hl
  clear_value freed
  split
  · exact keeps_reportBrew (keeps_sendCompletion hf)
  · exact hf

theorem leads_execShotRetire (h : Keeps s₀ s) : Leads s₀ (execShotRetire s) := by
  unfold execShotRetire
  grind [leads_next, keeps_dropCtxs, keeps_updCore, keeps_retirePour]

theorem leads_execSliceExpire (h : Keeps s₀ s) : Leads s₀ (execSliceExpire s) := leads_next.2 (keeps_updPour h)

theorem leads_execPreemptCut (h : Keeps s₀ s) : Leads s₀ (execPreemptCut s) := by
  unfold execPreemptCut
  refine leads_next.2 ?_
  split
  · exact h
  split
  · exact h
  · extract_lets s1
    have h1 : Keeps s₀ s1 := keeps_startCut h
    exact h1

/-! Power, sweeper, reset, bring-up -/

theorem leads_execLsplitCsrWrite (h : Keeps s₀ s) : Leads s₀ (execLsplitCsrWrite s) := by
  unfold execLsplitCsrWrite
  grind [leads_next, keeps_writeLsplit]

theorem leads_execTxwakeCsrWrite (h : Keeps s₀ s) : Leads s₀ (execTxwakeCsrWrite s) := by
  unfold execTxwakeCsrWrite
  grind [leads_next, keeps_writeTxwake]

theorem leads_execFdutyUpdate (h : Keeps s₀ s) : Leads s₀ (execFdutyUpdate s) := by
  unfold execFdutyUpdate
  extract_lets l duties temps
  refine leads_next.2 ?_
  split
  · refine keeps_foldl_fst (x := (s, 0)) (fun _ _ h => ?_) duties h
    exact keeps_updCore h
  · exact h

theorem leads_execForcedClockSkip
    (h : Keeps s₀ s) : Leads s₀ (execForcedClockSkip s) := leads_next.2 (keeps_updCore h)

theorem leads_execHbmBudgetRefill (h : Keeps s₀ s) : Leads s₀ (execHbmBudgetRefill s) := by
  unfold execHbmBudgetRefill
  grind [Keeps, leads_next]

theorem leads_execSelfRefreshEnter (h : Keeps s₀ s) : Leads s₀ (execSelfRefreshEnter s) := by
  unfold execSelfRefreshEnter
  grind [Keeps, leads_next]

theorem leads_execSelfRefreshExit (h : Keeps s₀ s) : Leads s₀ (execSelfRefreshExit s) := leads_next.2 h

theorem keeps_appendCold {frame : Nat} (h : Keeps s₀ s) : Keeps s₀ (appendCold s frame) := by
  unfold appendCold
  extract_lets n
  split
  · exact keeps_sealAs (keeps_sealAs (fun w => wf_wrBytes _ _ (wf_wrBytes _ _ (h w))))
  · exact h

theorem keeps_sweepFrame {frame pte : Nat} (h : Keeps s₀ s) : Keeps s₀ (sweepFrame s frame pte) := by
  unfold sweepFrame
  extract_lets e
  split
  · exact keeps_sealAs (fun w => wf_wrBytes _ _ (h w))
  · exact keeps_appendCold h

theorem leads_execClockSweeperVisit (h : Keeps s₀ s) : Leads s₀ (execClockSweeperVisit s) := by
  unfold execClockSweeperVisit
  extract_lets frame at_ e pte s1 known
  have h1 : Keeps s₀ s1 := h
  clear_value s1 known
  refine leads_next.2 ?_
  split
  · exact h
  split
  · exact h1
  split
  · exact h
  · exact keeps_sweepFrame h1

theorem leads_execCorePowerUp (h : Keeps s₀ s) : Leads s₀ (execCorePowerUp s) := by
  unfold execCorePowerUp
  extract_lets core
  refine leads_next.2 ?_
  split
  · exact keeps_updCore (fun w => wf_eraseRange _ _ (h w))
  · exact h

theorem leads_execCorePowerOff (h : Keeps s₀ s) : Leads s₀ (execCorePowerOff s) := by
  unfold execCorePowerOff
  grind [leads_next, keeps_updCore]

theorem keeps_reset : Keeps s₀ State.reset := fun _ => rfl

theorem leads_execDeviceReset : Leads s₀ (execDeviceReset s) := by
  unfold execDeviceReset
  extract_lets a fresh
  have hf : Keeps s₀ fresh := (keeps_reset : Keeps s₀ State.reset)
  refine leads_next.2 ?_
  split
  · exact hf
  · exact hf

theorem leads_execStackTrained (h : Keeps s₀ s) : Leads s₀ (execStackTrained s) := by
  unfold execStackTrained
  grind [Keeps, leads_next]

theorem keeps_resetLcb {t : Nat} (h : Keeps s₀ s) : Keeps s₀ (resetLcb s t) := by
  unfold resetLcb
  grind [Keeps, keeps_gwrite]

theorem keeps_servedNow (h : Keeps s₀ s) : Keeps s₀ (servedNow s) := by
  unfold servedNow
  extract_lets s1 s2
  have h1 : Keeps s₀ s1 := keeps_failLate (keeps_appendLate h)
  clear_value s1
  have hl : Keeps s₀ { s1 with lateLcb := [] } := h1
  have h2 : Keeps s₀ s2 := keeps_foldl (fun _ _ h => keeps_resetLcb h) s1.lateLcb hl
  exact h2

theorem leads_execFullService (h : Keeps s₀ s) : Leads s₀ (execFullService s) := by
  unfold execFullService
  grind [Keeps, leads_next, keeps_servedNow]

/-! Host commands -/

theorem leads_answer {r : Resp} (h : Keeps s₀ s) : Leads s₀ (answer r s) := leads_next.2 h

theorem leads_refuse (h : Keeps s₀ s) : Leads s₀ (refuse s) := leads_answer h

theorem leads_accept (h : Keeps s₀ s) : Leads s₀ (accept s) := leads_answer h

theorem leads_hostLater {i : Instr} (h : Keeps s₀ s) : Leads s₀ (hostLater i s) := leads_answer h

theorem leads_inTurn {i : Instr} {k : State → Out} (hk : ∀ s, Keeps s₀ s → Leads s₀ (k s)) (h : Keeps s₀ s) :
    Leads s₀ (inTurn i k s) := by
  unfold inTurn
  grind [leads_hostLater]

theorem leads_hostThen {i : Instr} {bad : Bool} {k : State → Out} (hk : ∀ s, Keeps s₀ s → Leads s₀ (k s))
    (h : Keeps s₀ s) : Leads s₀ (hostThen i bad k s) := by
  unfold hostThen
  grind [leads_answer, leads_inTurn, leads_refuse]

theorem leads_hostRead {i : Instr} {tenant va n : Nat} {k : List Byte → State → Out}
    (hk : ∀ a s, Keeps s₀ s → Leads s₀ (k a s)) (h : Keeps s₀ s) : Leads s₀ (hostRead i tenant va n k s) := by
  unfold hostRead
  grind [keeps_gread, leads_hostLater, leads_refuse]

theorem leads_hostWrite {i : Instr} {tenant va : Nat} {l : List Byte} {k : State → Out}
    (hk : ∀ s, Keeps s₀ s → Leads s₀ (k s)) (h : Keeps s₀ s) : Leads s₀ (hostWrite i tenant va l k s) := by
  unfold hostWrite
  grind [keeps_gwrite, leads_hostLater, leads_refuse]

theorem leads_execMread (h : Keeps s₀ s) : Leads s₀ (execMread s) := by
  unfold execMread
  grind [leads_hostThen, leads_hostRead, leads_answer]

theorem leads_execMwrite (h : Keeps s₀ s) : Leads s₀ (execMwrite s) := by
  unfold execMwrite
  grind [leads_hostThen, leads_hostWrite, leads_accept]

theorem leads_hostDec {tenant : Nat} {w : Word} (h : Keeps s₀ s) : Leads s₀ (hostDec tenant w s) := by
  unfold hostDec
  grind [leads_accept, leads_refuse, keeps_announceOn, keeps_post, keeps_decKettle]

theorem leads_execKmsg (h : Keeps s₀ s) : Leads s₀ (execKmsg s) := by
  unfold execKmsg
  grind [leads_hostThen, leads_hostDec]

theorem leads_execTset (h : Keeps s₀ s) : Leads s₀ (execTset s) := by
  unfold execTset
  grind [leads_hostThen, leads_accept, keeps_setTenant, keeps_cleanTenant, leads_refuse]

theorem leads_execTget (h : Keeps s₀ s) : Leads s₀ (execTget s) := by
  unfold execTget
  grind [leads_hostThen, leads_answer]

theorem leads_execDset (h : Keeps s₀ s) : Leads s₀ (execDset s) := by
  unfold execDset
  grind [Keeps, leads_hostThen, leads_accept, keeps_updTenant]

theorem leads_execInval (h : Keeps s₀ s) : Leads s₀ (execInval s) := by
  unfold execInval
  grind [Keeps, leads_hostThen, leads_accept, keeps_writeOut]

theorem keeps_resetTenant {t : Nat} (h : Keeps s₀ s) : Keeps s₀ (resetTenant s t) := by
  unfold resetTenant
  extract_lets s1 restarted s2
  have h1 : Keeps s₀ s1 := keeps_foldl (fun _ _ h => keeps_discardPour h) _ h
  clear_value s1
  exact keeps_resetLcb (s := s2) h1

theorem leads_execTreset (h : Keeps s₀ s) : Leads s₀ (execTreset s) := by
  unfold execTreset
  grind [leads_hostThen, leads_accept, keeps_resetTenant]

theorem leads_execResync (h : Keeps s₀ s) : Leads s₀ (execResync s) := by
  unfold execResync
  grind [leads_inTurn, leads_answer]

theorem leads_execAttest (h : Keeps s₀ s) : Leads s₀ (execAttest s) := by
  unfold execAttest
  grind [leads_inTurn, leads_answer]

/-! Recorded state -/

theorem keeps_viewOf {p : Pour} {img : Image} (h : Keeps s₀ s) : Keeps s₀ (viewOf s p img) := keeps_restorePour h

/-! PCMD and Cupping -/

theorem keeps_enlist {b : Brew} (h : Keeps s₀ s) : Keeps s₀ (enlist s b).2 := h

theorem keeps_namedPour {x : Pour × State} (e : namedPour s = some x) (h : Keeps s₀ s) : Keeps s₀ x.2 := by
  unfold namedPour at e
  split at e
  · cases e
    exact h
  split at e
  · split at e
    · cases e
      exact keeps_enlist h
    · cases e
  · cases e

theorem leads_pourCmd {i : Instr} {k : Pour → State → Out} (hk : ∀ a s, Keeps s₀ s → Leads s₀ (k a s))
    (h : Keeps s₀ s) : Leads s₀ (pourCmd i k s) := by
  unfold pourCmd
  refine leads_hostThen (fun s1 h1 => ?_) h
  split
  · next e => exact hk _ _ (keeps_namedPour e h1)
  · exact leads_refuse h1

theorem leads_recordCmd {i : Instr} {k : Pour → State → Out} (hk : ∀ a s, Keeps s₀ s → Leads s₀ (k a s))
    (h : Keeps s₀ s) : Leads s₀ (recordCmd i k s) := by
  unfold recordCmd
  grind [leads_hostThen, leads_refuse]

theorem leads_imageCmd {i : Instr} {k : Pour → Image → State → Out}
    (hk : ∀ a b s, Keeps s₀ s → Leads s₀ (k a b s)) (h : Keeps s₀ s) : Leads s₀ (imageCmd i k s) := by
  unfold imageCmd
  grind [leads_recordCmd, leads_refuse]

theorem leads_execPcmdStop (h : Keeps s₀ s) : Leads s₀ (execPcmdStop s) := by
  unfold execPcmdStop
  grind [leads_pourCmd, leads_accept, keeps_startCut, keeps_updPour]

theorem leads_execPcmdResume (h : Keeps s₀ s) : Leads s₀ (execPcmdResume s) := by
  unfold execPcmdResume
  grind [leads_recordCmd, leads_accept, keeps_updPour, leads_refuse]

theorem leads_execPcmdDiscard (h : Keeps s₀ s) : Leads s₀ (execPcmdDiscard s) := by
  unfold execPcmdDiscard
  grind [Keeps, leads_next, leads_pourCmd, keeps_discardPour]

theorem keeps_takeImage {p : Pour} {old new : Image} {saves : List Save} (h : Keeps s₀ s) :
    Keeps s₀ (takeImage s p old new saves) := by
  unfold takeImage
  extract_lets freed s1 lost
  have hf : Keeps s₀ freed := keeps_updPour (keeps_disown (keeps_dropAsks h))
  clear_value freed
  have h1 : Keeps s₀ s1 := hf
  exact keeps_failFills h1

theorem leads_execPcmdResumeCheckpoint (h : Keeps s₀ s) : Leads s₀ (execPcmdResumeCheckpoint s) := by
  unfold execPcmdResumeCheckpoint
  grind [leads_imageCmd, leads_accept, keeps_takeImage, leads_refuse]

theorem leads_execPcmdReadState (h : Keeps s₀ s) : Leads s₀ (execPcmdReadState s) := by
  unfold execPcmdReadState
  grind [leads_imageCmd, keeps_viewOf, leads_answer, leads_refuse]

theorem leads_execPcmdWriteState (h : Keeps s₀ s) : Leads s₀ (execPcmdWriteState s) := by
  unfold execPcmdWriteState
  grind [leads_imageCmd, keeps_viewOf, leads_accept, keeps_putImage, leads_refuse]

theorem leads_execCupLoad (h : Keeps s₀ s) : Leads s₀ (execCupLoad s) := by
  unfold execCupLoad
  grind [leads_hostThen, leads_hostWrite, leads_accept]

theorem leads_execCupBreak (h : Keeps s₀ s) : Leads s₀ (execCupBreak s) := by
  unfold execCupBreak
  grind [Keeps, leads_hostThen, leads_answer, leads_refuse]

theorem leads_execCupLaunch (h : Keeps s₀ s) : Leads s₀ (execCupLaunch s) := by
  unfold execCupLaunch
  grind [leads_next, leads_hostThen, leads_hostWrite, leads_accept, keeps_announceOn]

theorem leads_execCupContinue (h : Keeps s₀ s) : Leads s₀ (execCupContinue s) := by
  unfold execCupContinue
  refine leads_imageCmd (fun p img s h => ?_) h
  split
  · extract_lets s1
    have h1 : Keeps s₀ s1 := keeps_updPour (keeps_putImage h)
    exact leads_accept h1
  · exact leads_refuse h

theorem leads_execCupDelete (h : Keeps s₀ s) : Leads s₀ (execCupDelete s) := by
  unfold execCupDelete
  extract_lets n clear
  refine leads_hostThen (fun s h => ?_) h
  extract_lets s1
  have h1 : Keeps s₀ s1 := h
  clear_value s1
  split
  · extract_lets s2
    have h2 : Keeps s₀ s2 := keeps_updPour h1
    split
    · exact leads_accept (keeps_putImage h2)
    · exact leads_accept h2
  · exact leads_accept h1

theorem leads_ctxRead {img : Image} {key : Nat} {f : Ctx → List Word} (h : Keeps s₀ s) :
    Leads s₀ (ctxRead img key f s) := by
  unfold ctxRead
  grind [leads_answer, leads_refuse]

theorem leads_execCupRegs (h : Keeps s₀ s) : Leads s₀ (execCupRegs s) := by
  unfold execCupRegs
  grind [leads_imageCmd, leads_ctxRead]

theorem leads_execCupRegsAt (h : Keeps s₀ s) : Leads s₀ (execCupRegsAt s) := by
  unfold execCupRegsAt
  grind [leads_imageCmd, leads_ctxRead]

theorem leads_csrRead {img : Image} {key n : Nat} (h : Keeps s₀ s) : Leads s₀ (csrRead img key n s) := by
  unfold csrRead
  grind [leads_ctxRead, leads_refuse]

theorem leads_execCupCsr (h : Keeps s₀ s) : Leads s₀ (execCupCsr s) := by
  unfold execCupCsr
  grind [leads_imageCmd, leads_csrRead]

theorem leads_execCupCsrAt (h : Keeps s₀ s) : Leads s₀ (execCupCsrAt s) := by
  unfold execCupCsrAt
  grind [leads_imageCmd, leads_csrRead]

theorem leads_execCupPreds (h : Keeps s₀ s) : Leads s₀ (execCupPreds s) := by
  unfold execCupPreds
  grind [leads_imageCmd, leads_ctxRead]

theorem leads_execCupRing (h : Keeps s₀ s) : Leads s₀ (execCupRing s) := by
  unfold execCupRing
  grind [leads_imageCmd, leads_answer, keeps_viewOf, leads_refuse]

theorem leads_execCupKettle (h : Keeps s₀ s) : Leads s₀ (execCupKettle s) := by
  unfold execCupKettle
  grind [leads_imageCmd, leads_answer, keeps_viewOf, leads_refuse]

theorem leads_execCupMq (h : Keeps s₀ s) : Leads s₀ (execCupMq s) := by
  unfold execCupMq
  grind [leads_imageCmd, leads_answer]

theorem leads_execCupShape (h : Keeps s₀ s) : Leads s₀ (execCupShape s) := by
  unfold execCupShape
  grind [leads_imageCmd, leads_refuse, leads_answer]

theorem leads_execCupTile (h : Keeps s₀ s) : Leads s₀ (execCupTile s) := by
  unfold execCupTile
  grind [leads_imageCmd, leads_refuse, leads_answer]

theorem leads_cupRead {i : Instr} {t va n : Nat} {k : List Byte → State → Out}
    (hk : ∀ a s, Keeps s₀ s → Leads s₀ (k a s)) (h : Keeps s₀ s) : Leads s₀ (cupRead i t va n k s) := by
  unfold cupRead
  grind [keeps_gread, leads_hostLater, leads_refuse]

theorem leads_examine {i : Instr} {t off n : Nat} {v : Option State} {g : Seg} (h : Keeps s₀ s) :
    Leads s₀ (examine i t v g off n s) := by
  unfold examine
  extract_lets words
  split
  · exact leads_cupRead (fun _ _ h => leads_answer h) h
  · split
    · exact leads_answer h
    · exact leads_refuse h
  · exact leads_refuse h

theorem leads_execCupExamine (h : Keeps s₀ s) : Leads s₀ (execCupExamine s) := by
  unfold execCupExamine
  grind [leads_hostThen, leads_examine, keeps_viewOf, leads_refuse]

theorem leads_execCupCtx (h : Keeps s₀ s) : Leads s₀ (execCupCtx s) := by
  unfold execCupCtx
  grind [leads_imageCmd, leads_answer]

theorem leads_execCupFill (h : Keeps s₀ s) : Leads s₀ (execCupFill s) := by
  unfold execCupFill
  grind [keeps_foldl, leads_imageCmd, leads_answer, keeps_blockState, leads_hostLater, leads_refuse]

theorem leads_layerThenAt {i : Instr} {k : Bool → List Byte → State → Out}
    (hk : ∀ a b s, Keeps s₀ s → Leads s₀ (k a b s)) (h : Keeps s₀ s) : Leads s₀ (layerThenAt i k s) := by
  unfold layerThenAt
  grind [leads_hostThen, leads_refuse, leads_cupRead]

theorem leads_execCupLayer (h : Keeps s₀ s) : Leads s₀ (execCupLayer s) := by
  unfold execCupLayer
  grind [leads_layerThenAt, leads_answer]

theorem leads_execCupDeps (h : Keeps s₀ s) : Leads s₀ (execCupDeps s) := by
  unfold execCupDeps
  grind [leads_layerThenAt, leads_answer]

/-! LD, LDS, ST, LDA, STL -/

theorem leads_load {wd : W32} {f : List Byte → Word} {d a : BitVec 5} {g : BitVec 3} {w : BitVec 2}
    {o : BitVec 11} (h : Keeps s₀ s) :
    Leads s₀ (load wd f d a g w o s) := by
  unfold load
  grind [leads_fmThen, leads_fmHere, leads_readThen, leads_done, keeps_ws]

theorem leads_store {wd : W32} {later : Bool} {d a : BitVec 5} {g : BitVec 3} {w : BitVec 2} {o : BitVec 11}
    {k : State → Out} (hk : ∀ s, Keeps s₀ s → Leads s₀ (k s)) (h : Keeps s₀ s) :
    Leads s₀ (store wd later d a g w o k s) := by
  unfold store
  grind [leads_fmThen, leads_fmHere, leads_writeThen]

theorem leads_execLd {d a : BitVec 5} {g : BitVec 3} {w : BitVec 2} {o : BitVec 11} (h : Keeps s₀ s) :
    Leads s₀ (execLd d a g w o s) := leads_load h

theorem leads_execLds {d a : BitVec 5} {g : BitVec 3} {w : BitVec 2} {o : BitVec 11} (h : Keeps s₀ s) :
    Leads s₀ (execLds d a g w o s) := leads_load h

theorem leads_execSt {d a : BitVec 5} {g : BitVec 3} {w : BitVec 2} {o : BitVec 11} (h : Keeps s₀ s) :
    Leads s₀ (execSt d a g w o s) := by
  unfold execSt
  grind [leads_store, leads_done]

theorem leads_execLda {d a : BitVec 5} {g : BitVec 3} {w : BitVec 2} {o : BitVec 11} (h : Keeps s₀ s) :
    Leads s₀ (execLda d a g w o s) := leads_load h

theorem leads_execStl {d a : BitVec 5} {g : BitVec 3} {w : BitVec 2} {o : BitVec 11} (h : Keeps s₀ s) :
    Leads s₀ (execStl d a g w o s) := by
  unfold execStl
  grind [leads_fmThen, leads_fmHere, leads_releaseThen, leads_deferredThen, leads_writeThen, leads_done]

/-! Every instruction, event and command -/

theorem leads_exec (i : Instr) (h : Keeps s₀ s) : Leads s₀ (exec i s) :=
  match i with
  -- ALU (R115, R116, R117)
  | .add .. => leads_execAdd h
  | .sub .. => leads_execSub h
  | .and .. => leads_execAnd h
  | .or .. => leads_execOr h
  | .xor .. => leads_execXor h
  | .andn .. => leads_execAndn h
  | .sll .. => leads_execSll h
  | .srl .. => leads_execSrl h
  | .sra .. => leads_execSra h
  | .mul .. => leads_execMul h
  | .mulh .. => leads_execMulh h
  | .mulhu .. => leads_execMulhu h
  | .div .. => leads_execDiv h
  | .divu .. => leads_execDivu h
  | .rem .. => leads_execRem h
  | .remu .. => leads_execRemu h
  | .min .. => leads_execMin h
  | .max .. => leads_execMax h
  | .minu .. => leads_execMinu h
  | .maxu .. => leads_execMaxu h
  | .ceq .. => leads_execCeq h
  | .cne .. => leads_execCne h
  | .clt .. => leads_execClt h
  | .cltu .. => leads_execCltu h
  | .cle .. => leads_execCle h
  | .cleu .. => leads_execCleu h
  | .clz .. => leads_execClz h
  | .ctz .. => leads_execCtz h
  | .popc .. => leads_execPopc h
  | .padd .. => leads_execPadd h
  | .ptag .. => leads_execPtag h
  | .psett .. => leads_execPsett h
  | .cmovnz .. => leads_execCmovnz h
  | .cmovz .. => leads_execCmovz h
  -- ALUI (R118)
  | .addi .. => leads_execAddi h
  | .andi .. => leads_execAndi h
  | .ori .. => leads_execOri h
  | .xori .. => leads_execXori h
  | .slli .. => leads_execSlli h
  | .srli .. => leads_execSrli h
  | .srai .. => leads_execSrai h
  | .ceqi .. => leads_execCeqi h
  | .clti .. => leads_execClti h
  | .cltui .. => leads_execCltui h
  | .muli .. => leads_execMuli h
  | .paddi .. => leads_execPaddi h
  -- IM (R119)
  | .imz .. => leads_execImz h
  | .imk .. => leads_execImk h
  -- BR (R120)
  | .bz .. => leads_execBz h
  | .bnz .. => leads_execBnz h
  | .blt .. => leads_execBlt h
  | .bge .. => leads_execBge h
  | .bgt .. => leads_execBgt h
  | .ble .. => leads_execBle h
  -- JAL (R121)
  | .jal .. => leads_execJal h
  -- JALR (R122)
  | .jalr .. => leads_execJalr h
  -- LD (R125)
  | .ld .. => leads_execLd h
  -- LDS (R125)
  | .lds .. => leads_execLds h
  -- ST (R125)
  | .st .. => leads_execSt h
  -- LDA (R126)
  | .lda .. => leads_execLda h
  -- STL (R126)
  | .stl .. => leads_execStl h
  -- SYS (R129 to R138, R208, R209, R214)
  | .csrr .. => leads_execCsrr h
  | .csrw .. => leads_execCsrw h
  | .csrset .. => leads_execCsrset h
  | .csrclr .. => leads_execCsrclr h
  | .segw .. => leads_execSegw h
  | .segr .. => leads_execSegr h
  | .ident .. => leads_execIdent h
  | .rdcyc .. => leads_execRdcyc h
  | .trap .. => leads_execTrap h
  | .brk .. => leads_execBrk h
  | .frec .. => leads_execFrec h
  | .ctxsv .. => leads_execCtxsv h
  | .ctxld .. => leads_execCtxld h
  | .mark .. => leads_execMark h
  -- ATOM (R169, R170)
  | .aadd .. => leads_execAadd h
  | .aand .. => leads_execAand h
  | .aor .. => leads_execAor h
  | .axor .. => leads_execAxor h
  | .amin .. => leads_execAmin h
  | .amax .. => leads_execAmax h
  | .aminu .. => leads_execAminu h
  | .amaxu .. => leads_execAmaxu h
  | .aswap .. => leads_execAswap h
  | .acas .. => leads_execAcas h
  | .aaddf .. => leads_execAaddf h
  | .aminf .. => leads_execAminf h
  | .amaxf .. => leads_execAmaxf h
  -- DRIP (R172)
  | .dadd .. => leads_execDadd h
  | .dand .. => leads_execDand h
  | .dor .. => leads_execDor h
  | .dmin .. => leads_execDmin h
  | .dmax .. => leads_execDmax h
  | .daddf .. => leads_execDaddf h
  | .dminf .. => leads_execDminf h
  | .dmaxf .. => leads_execDmaxf h
  -- MIG (R177)
  | .go .. => leads_execGo h
  | .where .. => leads_execWhere h
  | .farld .. => leads_execFarld h
  | .farst .. => leads_execFarst h
  -- KET (R188 to R193)
  | .kset .. => leads_execKset h
  | .kadd .. => leads_execKadd h
  | .kread .. => leads_execKread h
  | .kwait .. => leads_execKwait h
  | .koff .. => leads_execKoff h
  | .send .. => leads_execSend h
  | .sendv .. => leads_execSendv h
  | .recv .. => leads_execRecv h
  | .allow .. => leads_execAllow h
  | .avail .. => leads_execAvail h
  -- SYNC (R194 to R198)
  | .fence q _ => leads_execFence (q := q) h
  | .barset .. => leads_execBarset h
  | .bar .. => leads_execBar h
  | .bara .. => leads_execBara h
  | .barw .. => leads_execBarw h
  | .waitw .. => leads_execWaitw h
  | .publish .. => leads_execPublish h
  | .acquire .. => leads_execAcquire h
  -- WORK (R180 to R183)
  | .hstart .. => leads_execHstart h
  | .hjoin .. => leads_execHjoin h
  | .hstat .. => leads_execHstat h
  | .launch .. => leads_execLaunch h
  | .lstat .. => leads_execLstat h
  -- VOP (R222 to R228)
  | .vadd .. => leads_execVadd h
  | .vsub .. => leads_execVsub h
  | .vmul .. => leads_execVmul h
  | .vfma .. => leads_execVfma h
  | .vfms .. => leads_execVfms h
  | .vmin .. => leads_execVmin h
  | .vmax .. => leads_execVmax h
  | .vabs .. => leads_execVabs h
  | .vneg .. => leads_execVneg h
  | .vand .. => leads_execVand h
  | .vor .. => leads_execVor h
  | .vxor .. => leads_execVxor h
  | .vshl .. => leads_execVshl h
  | .vshr .. => leads_execVshr h
  | .vsar .. => leads_execVsar h
  | .vdiv .. => leads_execVdiv h
  | .vsqrt .. => leads_execVsqrt h
  | .vrcp .. => leads_execVrcp h
  | .vrsq .. => leads_execVrsq h
  | .vexp2 .. => leads_execVexp2 h
  | .vlog2 .. => leads_execVlog2 h
  | .vceq .. => leads_execVceq h
  | .vclt .. => leads_execVclt h
  | .vcle .. => leads_execVcle h
  | .vsel .. => leads_execVsel h
  | .vcvt .. => leads_execVcvt h
  | .vmov .. => leads_execVmov h
  | .vdot .. => leads_execVdot h
  -- VSC (R229)
  | .vadds .. => leads_execVadds h
  | .vmuls .. => leads_execVmuls h
  | .vfmas .. => leads_execVfmas h
  | .vmins .. => leads_execVmins h
  | .vmaxs .. => leads_execVmaxs h
  | .vsplat .. => leads_execVsplat h
  | .vins .. => leads_execVins h
  | .vext .. => leads_execVext h
  -- VPERM (R230)
  | .vperm .. => leads_execVperm h
  | .vrot .. => leads_execVrot h
  | .vzip .. => leads_execVzip h
  | .vunzip .. => leads_execVunzip h
  | .vcmpr .. => leads_execVcmpr h
  | .vexpd .. => leads_execVexpd h
  | .viota .. => leads_execViota h
  -- VRED (R231)
  | .vrsum .. => leads_execVrsum h
  | .vrmax .. => leads_execVrmax h
  | .vrmin .. => leads_execVrmin h
  | .vrand .. => leads_execVrand h
  | .vror .. => leads_execVror h
  | .vscan .. => leads_execVscan h
  -- VMEM (R232)
  | .vld .. => leads_execVld h
  | .vst .. => leads_execVst h
  | .vlds .. => leads_execVlds h
  | .vsts .. => leads_execVsts h
  | .vgath .. => leads_execVgath h
  | .vscat .. => leads_execVscat h
  -- VPRED (R236)
  | .pand .. => leads_execPand h
  | .por .. => leads_execPor h
  | .pxor .. => leads_execPxor h
  | .pnot .. => leads_execPnot h
  | .pcnt .. => leads_execPcnt h
  | .pfirst .. => leads_execPfirst h
  | .psetn .. => leads_execPsetn h
  -- RING (R242)
  | .rdef .. => leads_execRdef h
  | .rwaitf .. => leads_execRwaitf h
  | .rwaite .. => leads_execRwaite h
  | .radvh .. => leads_execRadvh h
  | .radvt .. => leads_execRadvt h
  | .rhead .. => leads_execRhead h
  | .rtail .. => leads_execRtail h
  | .rbind .. => leads_execRbind h
  | .runbind .. => leads_execRunbind h
  -- COPY (R248, R249)
  | .copy .. => leads_execCopy h
  | .copyg .. => leads_execCopyg h
  | .copys .. => leads_execCopys h
  | .copyw .. => leads_execCopyw h
  -- BITS (R257)
  | .bget .. => leads_execBget h
  | .bpeek .. => leads_execBpeek h
  | .bskip .. => leads_execBskip h
  | .bput .. => leads_execBput h
  | .bflush .. => leads_execBflush h
  | .bhuf .. => leads_execBhuf h
  | .blzc .. => leads_execBlzc h
  | .bnext .. => leads_execBnext h
  | .bfail .. => leads_execBfail h
  -- MMA (R100, R270 to R273)
  | .mma .. => leads_execMma h
  | .mmaj .. => leads_execMmaj h
  | .mmas .. => leads_execMmas h
  | .mlda .. => leads_execMlda h
  | .msta .. => leads_execMsta h
  | .mzero .. => leads_execMzero h
  -- MSYS (R275, R280)
  | .mstat .. => leads_execMstat h
  | .drrow .. => leads_execDrrow h
  | .drdone .. => leads_execDrdone h
  | .mchk .. => leads_execMchk h
  -- SEED (R291 to R297)
  | .sexp .. => leads_execSexp h
  | .ssrch .. => leads_execSsrch h
  | .sproj .. => leads_execSproj h
  | .schk .. => leads_execSchk h
  | .lfsr .. => leads_execLfsr h
  | .srec .. => leads_execSrec h
  -- PROC (R312)
  | .prdef .. => leads_execPrdef h
  | .prdel .. => leads_execPrdel h
  | .prfail .. => leads_execPrfail h
  | .prstate .. => leads_execPrstate h
  | .previct .. => leads_execPrevict h
  | .prtouch .. => leads_execPrtouch h
  -- RAST (R318)
  | .rview .. => leads_execRview h
  | .rsetup .. => leads_execRsetup h
  | .rcover .. => leads_execRcover h
  | .rbox .. => leads_execRbox h
  | .rtri .. => leads_execRtri h
  | .rbin .. => leads_execRbin h
  | .ordb .. => leads_execOrdb h
  | .orde .. => leads_execOrde h
  | .blnda .. => leads_execBlnda h
  | .ordtok .. => leads_execOrdtok h
  -- LAYER (R346)
  | .ldefDef .. => leads_execLdefDef h
  | .ldefRet .. => leads_execLdefRet h
  | .ldefPose .. => leads_execLdefPose h
  | .lwarp .. => leads_execLwarp h
  | .lerr .. => leads_execLerr h
  | .lprice .. => leads_execLprice h
  | .lframe .. => leads_execLframe h
  | .lreq .. => leads_execLreq h
  | .lsplit .. => leads_execLsplit h
  | .lmerge .. => leads_execLmerge h
  | .ldep .. => leads_execLdep h
  | .lorder .. => leads_execLorder h
  | .lres .. => leads_execLres h
  -- instructions without operands
  | .nop .. => leads_execNop h
  | .yield .. => leads_execYield h
  | .stop .. => leads_execStop h
  | .tret .. => leads_execTret h
  | .uret .. => leads_execUret h
  | .home .. => leads_execHome h
  | .stay .. => leads_execStay h
  | .balign .. => leads_execBalign h
  | .mwait .. => leads_execMwait h
  | .prdone .. => leads_execPrdone h
  -- steps of the part and host commands: no encoding, their operands in State.args
  | .instructionFetch .. => leads_execInstructionFetch h
  | .chargedCauseDeliver .. => leads_execChargedCauseDeliver h
  | .storePathError .. => leads_execStorePathError h
  | .upcallDeliver .. => leads_execUpcallDeliver h
  | .waitWake .. => leads_execWaitWake h
  | .announcementArrive .. => leads_execAnnouncementArrive h
  | .acceptRecord .. => leads_execAcceptRecord h
  | .placePour .. => leads_execPlacePour h
  | .controlContextStart .. => leads_execControlContextStart h
  | .zeroFillStep .. => leads_execZeroFillStep h
  | .shotRetire .. => leads_execShotRetire h
  | .sliceExpire .. => leads_execSliceExpire h
  | .preemptCut .. => leads_execPreemptCut h
  | .markerArrive .. => leads_execMarkerArrive h
  | .pourResume .. => leads_execPourResume h
  | .checkpointStored .. => leads_execCheckpointStored h
  | .helperAssign .. => leads_execHelperAssign h
  | .kettleDecrement .. => leads_execKettleDecrement h
  | .messageArrive .. => leads_execMessageArrive h
  | .allowGrantArrive .. => leads_execAllowGrantArrive h
  | .dripArrive .. => leads_execDripArrive h
  | .migrationArrive .. => leads_execMigrationArrive h
  | .visitorAdmit .. => leads_execVisitorAdmit h
  | .txwakeStart .. => leads_execTxwakeStart h
  | .barrierSweepHop .. => leads_execBarrierSweepHop h
  | .copyStart .. => leads_execCopyStart h
  | .copyComplete .. => leads_execCopyComplete h
  | .bstrDeliver .. => leads_execBstrDeliver h
  | .matrixOpStart .. => leads_execMatrixOpStart h
  | .matrixOpComplete .. => leads_execMatrixOpComplete h
  | .joinComputeBegin .. => leads_execJoinComputeBegin h
  | .joinAbandon .. => leads_execJoinAbandon h
  | .layerCloseProcess .. => leads_execLayerCloseProcess h
  | .layerPostRecords .. => leads_execLayerPostRecords h
  | .lsplitCsrWrite .. => leads_execLsplitCsrWrite h
  | .txwakeCsrWrite .. => leads_execTxwakeCsrWrite h
  | .fdutyUpdate .. => leads_execFdutyUpdate h
  | .forcedClockSkip .. => leads_execForcedClockSkip h
  | .hbmBudgetRefill .. => leads_execHbmBudgetRefill h
  | .selfRefreshEnter .. => leads_execSelfRefreshEnter h
  | .clockSweeperVisit .. => leads_execClockSweeperVisit h
  | .corePowerUp .. => leads_execCorePowerUp h
  | .corePowerOff .. => leads_execCorePowerOff h
  | .deviceReset .. => leads_execDeviceReset
  | .fullService .. => leads_execFullService h
  | .mread .. => leads_execMread h
  | .mwrite .. => leads_execMwrite h
  | .kmsg .. => leads_execKmsg h
  | .tset .. => leads_execTset h
  | .tget .. => leads_execTget h
  | .dset .. => leads_execDset h
  | .inval .. => leads_execInval h
  | .treset .. => leads_execTreset h
  | .pcmdStop .. => leads_execPcmdStop h
  | .pcmdResume .. => leads_execPcmdResume h
  | .pcmdDiscard .. => leads_execPcmdDiscard h
  | .pcmdResumeCheckpoint .. => leads_execPcmdResumeCheckpoint h
  | .pcmdReadState .. => leads_execPcmdReadState h
  | .pcmdWriteState .. => leads_execPcmdWriteState h
  | .resync .. => leads_execResync h
  | .attest .. => leads_execAttest h
  | .cupLoad .. => leads_execCupLoad h
  | .cupBreak .. => leads_execCupBreak h
  | .cupLaunch .. => leads_execCupLaunch h
  | .cupContinue .. => leads_execCupContinue h
  | .cupRegs .. => leads_execCupRegs h
  | .cupRing .. => leads_execCupRing h
  | .cupMq .. => leads_execCupMq h
  | .cupShape .. => leads_execCupShape h
  | .cupTile .. => leads_execCupTile h
  | .cupExamine .. => leads_execCupExamine h
  | .cupCsr .. => leads_execCupCsr h
  | .cupCtx .. => leads_execCupCtx h
  | .cupFill .. => leads_execCupFill h
  | .cupRegsAt .. => leads_execCupRegsAt h
  | .cupCsrAt .. => leads_execCupCsrAt h
  | .cupDelete .. => leads_execCupDelete h
  | .cupKettle .. => leads_execCupKettle h
  | .cupLayer .. => leads_execCupLayer h
  | .cupPreds .. => leads_execCupPreds h
  | .cupDeps .. => leads_execCupDeps h
  | .selfRefreshExit .. => leads_execSelfRefreshExit h
  | .stackTrained .. => leads_execStackTrained h

/-! A step: the clock, the turn, what settles after it -/

theorem leads_runCode (c : Code) (h : Keeps s₀ s) : Leads s₀ (runCode c s) := by
  rw [runCode_eq]
  exact leads_exec c.instr h

theorem leads_settled {o : Out} (h : Leads s₀ o) : Leads s₀ (settled o) := by
  obtain ⟨t, rfl, ht⟩ := h
  exact leads_next.2 (keeps_settle ht)

theorem keeps_turnTick {t : Turn} (h : Keeps s₀ s) : Keeps s₀ (turnTick s t) := by
  unfold turnTick
  split
  · exact keeps_sameTick h
  · exact keeps_clockTick h

theorem leads_takeTurn (t : Turn) (h : Keeps s₀ s) : Leads s₀ (takeTurn t s) := by
  cases t with
  | issue core => exact leads_settled (leads_issueCore (fun c _ h => leads_runCode c h) h)
  | event i a =>
    have ha : Keeps s₀ { s with args := a } := h
    unfold takeTurn
    refine leads_settled ?_
    split
    · exact leads_exec i ha
    · exact leads_next.2 h

theorem leads_step (h : Keeps s₀ s) : Leads s₀ (Machine.step s) := by
  unfold Machine.step
  split
  · next t rest _ =>
    have ht : Keeps s₀ { turnTick s t with agenda := rest } := keeps_turnTick h
    exact leads_takeTurn t ht
  · exact leads_takeTurn _ (keeps_turnTick h)

/-- Settles O60: every instruction, event and command leads on (`leads_exec`), and so does a step (`leads_step`). -/
theorem stepsNeverRefuse : Obligations.StepsNeverRefuse := by
  unfold Obligations.StepsNeverRefuse
  refine ⟨fun i s => ?_, fun s => ?_⟩
  · obtain ⟨t, e, _⟩ := leads_exec i (keeps_refl s)
    exact ⟨t, e⟩
  · obtain ⟨t, e, _⟩ := leads_step (keeps_refl s)
    exact ⟨t, e⟩

/-- Settles O59: the state a step leads to keeps the form of the memory it started from (`leads_step`). -/
theorem stepKeepsMemory : Obligations.StepKeepsMemory := by
  unfold Obligations.StepKeepsMemory
  intro s s' hs e
  obtain ⟨t, et, ht⟩ := leads_step (keeps_refl s)
  cases et.symm.trans e
  exact ht hs

end Sys2Proof.Proofs
end
